-- ==== Sys2Proof/Word.lean ====
section
/-! DEFINITION. The word types of the BXV-2400 and the sorted table used for sparse state. -/
namespace Sys2Proof

/-- One lane's 32-bit value, or a uniform register (02 R35). -/
abbrev Word := BitVec 32

/-- The smallest addressable unit. -/
abbrev Byte := BitVec 8

/-- A lane mask: bit i stands for lane i (01 R9). -/
abbrev Mask := BitVec 32

/-- A program counter: line address plus slot number (03 R66). -/
abbrev PC := BitVec 48

/-- A 96-bit instruction word (04 R72). -/
abbrev InsnWord := BitVec 96

/-- A sparse table keyed by natural numbers, keys rising. -/
abbrev Tab (α : Type) := List (Nat × α)

namespace Tab

/-- The entry at key `k`, if the table lists one. -/
def get? {α : Type} : Tab α → Nat → Option α
  | [], _ => none
  | (k', v) :: t, k => if k' = k then some v else get? t k

/-- The entry at key `k`, or `d` where the table lists none. -/
def getD {α : Type} (t : Tab α) (k : Nat) (d : α) : α := (t.get? k).getD d

/-- The table with the entry of key `k` set to `v`. -/
def put {α : Type} : Tab α → Nat → α → Tab α
  | [], k, v => [(k, v)]
  | (k', v') :: t, k, v =>
    if k < k' then (k, v) :: (k', v') :: t
    else if k' = k then (k, v) :: t
    else (k', v') :: put t k v

/-- The table without any entry of key `k`. -/
def del {α : Type} : Tab α → Nat → Tab α
  | [], _ => []
  | (k', v') :: t, k => if k' = k then del t k else (k', v') :: del t k

/-- The table with only the entries whose value satisfies `p`. -/
def keep {α : Type} (p : α → Bool) : Tab α → Tab α
  | [] => []
  | (k, v) :: t => if p v then (k, v) :: keep p t else del (keep p t) k

/-- Whether the table lists key `k`. -/
def has {α : Type} (t : Tab α) (k : Nat) : Bool := (t.get? k).isSome

/-- The lowest number, from `n` up and below `n + fuel`, that the table does not list. -/
def free {α : Type} (t : Tab α) (n : Nat) : Nat → Option Nat
  | 0 => none
  | fuel + 1 => if t.has n then free t (n + 1) fuel else some n

/-- A key above every key of the table. -/
def fresh {α : Type} (t : Tab α) : Nat := t.foldl (fun m e => max m (e.1 + 1)) 0

/-- The values of the table, in key order. -/
def vals {α : Type} (t : Tab α) : List α := t.map (·.2)

end Tab

/-- Bit `i` of a mask. -/
def laneOn (m : Mask) (i : Nat) : Bool := m.getLsbD i

/-- The mask with exactly lane `i`. -/
def laneBit (i : Nat) : Mask := BitVec.ofNat 32 (2 ^ i)

/-- The lane numbers 0 to 31. -/
def allLanes : List Nat :=
  [0, 1, 2, 3, 4, 5, 6, 7, 8, 9, 10, 11, 12, 13, 14, 15,
   16, 17, 18, 19, 20, 21, 22, 23, 24, 25, 26, 27, 28, 29, 30, 31]

/-- The mask of the lanes that satisfy `p`. -/
def maskOf (p : Nat → Bool) : Mask :=
  allLanes.foldl (fun m i => if p i then m ||| laneBit i else m) 0

/-- The lanes of a mask in ascending order. -/
def lanesOf (m : Mask) : List Nat := allLanes.filter (laneOn m)

/-- The full mask. -/
def fullMask : Mask := BitVec.allOnes 32

end Sys2Proof
end

