-- ==== Sys2Proof/Config.lean ====
section
/-! DEFINITION. What the manual leaves open: free values without a body, so that no proof can see them. -/
namespace Sys2Proof.Config

/-- DESIGN CHOICE (log 3): which of the agents that can move, moves at step n when no turn is listed. -/
opaque choice : Nat → Nat

/-- DESIGN CHOICE (log 3): how many ticks of the quartz time base pass at step n when no turn is listed. -/
opaque elapse : Nat → Nat

/-- DESIGN CHOICE (log 3): how many compute cycles pass at step n when no turn is listed. -/
opaque cycles : Nat → Nat

/-- DESIGN CHOICE (log 63): how far the copy of die d of the time base deviates from the hub's from a skew check at step n on, when
no turn is listed. -/
opaque skew : Nat → Nat → Int

/-- UNVERIFIED (log 32): the bytes of the kernel image of a context whose first line lies at an address (03 R65). -/
opaque imageSize : Nat → Nat → Nat

/-- UNVERIFIED (log 9): the bits that function f returns for an input word away from its exact points (08 R162). -/
opaque approx : Nat → Word → Word

/-- UNVERIFIED (log 10): the digest of the public key fused at manufacture (23 R350). -/
opaque keyDigest : List Byte

/-- UNVERIFIED (log 10): SHA3-512 (23 R350). -/
opaque sha3 : List Byte → List Byte

/-- UNVERIFIED (log 10): whether ML-DSA-87 verifies a signature: key, digest, signature (23 R350). -/
opaque verify : List Byte → List Byte → List Byte → Bool

/-- UNVERIFIED (log 10): the identity key's signature over a digest (23 R351). -/
opaque sign : List Byte → List Byte

/-- UNVERIFIED (log 10): the certificate signed at manufacture, 7,219 bytes (23 R351). -/
opaque certificate : Nat → Byte

/-- UNVERIFIED (log 10): the part's serial number, 16 bytes (23 R351). -/
opaque serial : Nat → Byte

/-- UNVERIFIED (log 6): the features the part offers (23 R349). -/
opaque offered : BitVec 6

/-- DESIGN CHOICE (log 14): byte i of what a peer on another device answers to a read that completes at step n. -/
opaque peerByte : Nat → Nat → Byte

/-- DESIGN CHOICE (log 11): the data that an operation reads where the manual states no value. -/
opaque unstated : Nat → Word

end Sys2Proof.Config
end

