-- ==== Sys2Proof/Syntax.lean ====
section
/-! DEFINITION. The instructions and events of the BXV-2400: one constructor for each row of the opcode table.
An encoded instruction keeps every field of its word (04 R72, R79 to R87), reserved fields included, because the
fate of a reserved value is decided when the word issues (04 R74). An event row has no encoding; its arguments
name what it acts on. -/
namespace Sys2Proof

/-- The header fields outside class and function (04 R72). -/
structure Hdr where
  negate : Bool
  guard : BitVec 3
  dest : BitVec 9
  count : BitVec 3
  deriving DecidableEq, Repr

/-- Class V3 fields (04 R79). -/
structure V3 where
  srca : BitVec 9
  srcb : BitVec 9
  srcc : BitVec 9
  fslot : BitVec 3
  rnd : BitVec 3
  sat : Bool
  nega : Bool
  negb : Bool
  absa : Bool
  absb : Bool
  type : BitVec 4
  zero : BitVec 28
  deriving DecidableEq, Repr

/-- Class VI fields (04 R80). -/
structure VI where
  srca : BitVec 9
  srcb : BitVec 9
  type : BitVec 4
  mods : BitVec 4
  subop : BitVec 12
  imm : BitVec 32
  deriving DecidableEq, Repr

/-- Class M fields (04 R83). -/
structure MF where
  addr : BitVec 9
  data : BitVec 9
  space : BitVec 3
  width : BitVec 3
  scope : BitVec 3
  order : BitVec 2
  hint : BitVec 2
  atomic : BitVec 4
  pdst : BitVec 3
  offset : BitVec 32
  deriving DecidableEq, Repr

/-- Class C fields (04 R84). -/
structure CF where
  tslot : BitVec 3
  loff : BitVec 24
  src : BitVec 9
  zero : BitVec 2
  wload : BitVec 6
  wstore : BitVec 6
  wcopy : BitVec 6
  wtile : BitVec 6
  imm : BitVec 8
  deriving DecidableEq, Repr

/-- Class X fields (04 R85). -/
structure XF where
  aaddr : BitVec 9
  tagaddr : BitVec 9
  rscale : BitVec 9
  fslot : BitVec 3
  acc : BitVec 3
  skip : Bool
  tagged : Bool
  stratum : BitVec 3
  rows : BitVec 16
  stride : BitVec 16
  deriving DecidableEq, Repr

/-- Class A fields (04 R86). -/
structure AF where
  dsta : BitVec 9
  srca : BitVec 9
  len : BitVec 9
  amod : BitVec 3
  peer : BitVec 8
  imm : BitVec 32
  deriving DecidableEq, Repr

/-- Class S fields (04 R87). -/
structure SF where
  srca : BitVec 9
  srcb : BitVec 9
  group : BitVec 8
  subop : BitVec 12
  imm : BitVec 32
  deriving DecidableEq, Repr

/-- A unit that caches translations (20 R311). -/
inductive TUnit where
  | core (n : Nat)
  | array (n : Nat)
  | engine (n : Nat)
  | cp (n : Nat)
  deriving DecidableEq, Repr

/-- Where the command processor takes a launch record from: a queue of a function page, or the i-th pending
LAUNCH of a partition (19 R288). -/
inductive LaunchSource where
  | queue (fn q : Nat)
  | device (part i : Nat)
  deriving DecidableEq, Repr

/-- What a fabric packet asks of its target (23 R353, R354). -/
inductive PeerOp where
  | put
  | get
  | reduce (op : BitVec 3)
  deriving DecidableEq, Repr

/-- One lane of an access of a warp, and which 64-bit half of it where it is performed in halves (09 R174). -/
structure LanePart where
  acc : Nat
  lane : Nat
  high : Bool
  deriving DecidableEq, Repr

/-- An inbound fabric packet: window address, stamp, bytes (23 R352, R354). -/
structure Packet where
  op : PeerOp
  addr : Nat
  stamp : Nat
  len : Nat
  data : List Byte
  srcdev : BitVec 15
  deriving DecidableEq, Repr

/-- A register page of BAR0 (23 R344). -/
inductive Page where
  | boot
  | pf (part : Nat)
  | partition (part : Nat)
  | vf (v : Nat)
  deriving DecidableEq, Repr

/-- One constructor for each row of spec/opcode_table.json. -/
inductive Instr where
  /-- FADD, R157. -/
  | fadd (h : Hdr) (f : V3)
  /-- FSUB, R157. -/
  | fsub (h : Hdr) (f : V3)
  /-- FMUL, R157. -/
  | fmul (h : Hdr) (f : V3)
  /-- FFMA, R157. -/
  | ffma (h : Hdr) (f : V3)
  /-- FMIN, R158. -/
  | fmin (h : Hdr) (f : V3)
  /-- FMAX, R158. -/
  | fmax (h : Hdr) (f : V3)
  /-- FCLASS, R159. -/
  | fclass (h : Hdr) (f : V3)
  /-- FRCP, R160. -/
  | frcp (h : Hdr) (f : V3)
  /-- FRSQ, R160. -/
  | frsq (h : Hdr) (f : V3)
  /-- FSQRT, R160. -/
  | fsqrt (h : Hdr) (f : V3)
  /-- FEXP2, R160. -/
  | fexp2 (h : Hdr) (f : V3)
  /-- FLOG2, R160. -/
  | flog2 (h : Hdr) (f : V3)
  /-- FSIN, R160. -/
  | fsin (h : Hdr) (f : V3)
  /-- FCOS, R160. -/
  | fcos (h : Hdr) (f : V3)
  /-- FTANH, R160. -/
  | ftanh (h : Hdr) (f : V3)
  /-- FSIGM, R160. -/
  | fsigm (h : Hdr) (f : V3)
  /-- HADD2, R164. -/
  | hadd2 (h : Hdr) (f : V3)
  /-- HMUL2, R164. -/
  | hmul2 (h : Hdr) (f : V3)
  /-- HFMA2, R164. -/
  | hfma2 (h : Hdr) (f : V3)
  /-- DOT4, R165. -/
  | dot4 (h : Hdr) (f : V3)
  /-- WRED, R166. -/
  | wred (h : Hdr) (f : V3)
  /-- IMAD, R150. -/
  | imad (h : Hdr) (f : V3)
  /-- CVT, R167. -/
  | cvt (h : Hdr) (f : V3)
  /-- CVTI, R167. -/
  | cvti (h : Hdr) (f : V3)
  /-- CVTF, R167. -/
  | cvtf (h : Hdr) (f : V3)
  /-- PACK, R169. -/
  | pack (h : Hdr) (f : V3)
  /-- UNPACK, R169. -/
  | unpack (h : Hdr) (f : V3)
  /-- QHIST, R170. -/
  | qhist (h : Hdr) (f : V3)
  /-- QSCALE, R171. -/
  | qscale (h : Hdr) (f : V3)
  /-- QCVT, R172. -/
  | qcvt (h : Hdr) (f : V3)
  /-- IADD, R146. -/
  | iadd (h : Hdr) (f : VI)
  /-- IADDC, R147. -/
  | iaddc (h : Hdr) (f : VI)
  /-- ISUB, R146. -/
  | isub (h : Hdr) (f : VI)
  /-- IMUL, R146. -/
  | imul (h : Hdr) (f : VI)
  /-- IMULH, R146. -/
  | imulh (h : Hdr) (f : VI)
  /-- IMIN, R146. -/
  | imin (h : Hdr) (f : VI)
  /-- IMAX, R146. -/
  | imax (h : Hdr) (f : VI)
  /-- IABS, R146. -/
  | iabs (h : Hdr) (f : VI)
  /-- INEG, R146. -/
  | ineg (h : Hdr) (f : VI)
  /-- LEA, R148. -/
  | lea (h : Hdr) (f : VI)
  /-- ISHL, R146. -/
  | ishl (h : Hdr) (f : VI)
  /-- ISHR, R146. -/
  | ishr (h : Hdr) (f : VI)
  /-- ISAR, R146. -/
  | isar (h : Hdr) (f : VI)
  /-- IAND, R146. -/
  | iand (h : Hdr) (f : VI)
  /-- IOR, R146. -/
  | ior (h : Hdr) (f : VI)
  /-- IXOR, R146. -/
  | ixor (h : Hdr) (f : VI)
  /-- INOT, R146. -/
  | inot (h : Hdr) (f : VI)
  /-- POPC, R146. -/
  | popc (h : Hdr) (f : VI)
  /-- CLZ, R146. -/
  | clz (h : Hdr) (f : VI)
  /-- BREV, R146. -/
  | brev (h : Hdr) (f : VI)
  /-- BFX, R149. -/
  | bfx (h : Hdr) (f : VI)
  /-- BFI, R149. -/
  | bfi (h : Hdr) (f : VI)
  /-- PSETI, R142. -/
  | pseti (h : Hdr) (f : VI)
  /-- PSETF, R163. -/
  | psetf (h : Hdr) (f : VI)
  /-- PLOP, R142. -/
  | plop (h : Hdr) (f : VI)
  /-- PVOTE, R142. -/
  | pvote (h : Hdr) (f : VI)
  /-- PMOV_TOV, R142. -/
  | pmovTov (h : Hdr) (f : VI)
  /-- PMOV_FROMV, R142. -/
  | pmovFromv (h : Hdr) (f : VI)
  /-- MOV, R144. -/
  | mov (h : Hdr) (f : VI)
  /-- SEL, R144. -/
  | sel (h : Hdr) (f : VI)
  /-- SHFL, R145. -/
  | shfl (h : Hdr) (f : VI)
  /-- BCAST, R144. -/
  | bcast (h : Hdr) (f : VI)
  /-- KMOV, R144. -/
  | kmov (h : Hdr) (f : VI)
  /-- DROP, R143. -/
  | drop (h : Hdr) (f : VI)
  /-- CLEAR, R143. -/
  | clear (h : Hdr) (f : VI)
  /-- RELEASE, R143. -/
  | release (h : Hdr) (f : VI)
  /-- HOLD, R143. -/
  | hold (h : Hdr) (f : VI)
  /-- RECOUNT, R143. -/
  | recount (h : Hdr) (f : VI)
  /-- RDSR, R151. -/
  | rdsr (h : Hdr) (f : VI)
  /-- RDSR_CLR, R151. -/
  | rdsrClr (h : Hdr) (f : VI)
  /-- TIME, R152. -/
  | time (h : Hdr) (f : VI)
  /-- LD, R189. -/
  | ld (h : Hdr) (f : MF)
  /-- ST, R190. -/
  | st (h : Hdr) (f : MF)
  /-- PREF, R191. -/
  | pref (h : Hdr) (f : MF)
  /-- ATOM, R193. -/
  | atom (h : Hdr) (f : MF)
  /-- CAS, R194. -/
  | cas (h : Hdr) (f : MF)
  /-- RED, R193. -/
  | red (h : Hdr) (f : MF)
  /-- AMAXP, R195. -/
  | amaxp (h : Hdr) (f : MF)
  /-- FENCE, R196. -/
  | fence (h : Hdr) (f : MF)
  /-- CWB, R192. -/
  | cwb (h : Hdr) (f : MF)
  /-- BRA, R134. -/
  | bra (h : Hdr) (f : CF)
  /-- BRI, R134. -/
  | bri (h : Hdr) (f : CF)
  /-- CALL, R134. -/
  | call (h : Hdr) (f : CF)
  /-- CALLI, R134. -/
  | calli (h : Hdr) (f : CF)
  /-- RET, R134. -/
  | ret (h : Hdr) (f : CF)
  /-- EXIT, R135. -/
  | exit (h : Hdr) (f : CF)
  /-- YIELD, R136. -/
  | yield (h : Hdr) (f : CF)
  /-- NOP, R136. -/
  | nop (h : Hdr) (f : CF)
  /-- WAIT, R138. -/
  | wait (h : Hdr) (f : CF)
  /-- SLEEP, R139. -/
  | sleep (h : Hdr) (f : CF)
  /-- TRAP, R140. -/
  | trap (h : Hdr) (f : CF)
  /-- BKPT, R140. -/
  | bkpt (h : Hdr) (f : CF)
  /-- SLOAD, R205. -/
  | sload (h : Hdr) (f : XF)
  /-- SSTORE, R206. -/
  | sstore (h : Hdr) (f : XF)
  /-- SEVICT, R207. -/
  | sevict (h : Hdr) (f : XF)
  /-- SSTAT, R208. -/
  | sstat (h : Hdr) (f : XF)
  /-- MMT, R209. -/
  | mmt (h : Hdr) (f : XF)
  /-- MMTX, R210. -/
  | mmtx (h : Hdr) (f : XF)
  /-- MMTG, R211. -/
  | mmtg (h : Hdr) (f : XF)
  /-- GZERO, R213. -/
  | gzero (h : Hdr) (f : XF)
  /-- GLOAD, R213. -/
  | gload (h : Hdr) (f : XF)
  /-- GSTORE, R213. -/
  | gstore (h : Hdr) (f : XF)
  /-- ACCZ, R214. -/
  | accz (h : Hdr) (f : XF)
  /-- ACCLD, R215. -/
  | accld (h : Hdr) (f : XF)
  /-- ACCST, R215. -/
  | accst (h : Hdr) (f : XF)
  /-- ACCMV, R216. -/
  | accmv (h : Hdr) (f : XF)
  /-- TAGSET, R217. -/
  | tagset (h : Hdr) (f : XF)
  /-- TAGCNT, R218. -/
  | tagcnt (h : Hdr) (f : XF)
  /-- VCOPY, R226. -/
  | vcopy (h : Hdr) (f : AF)
  /-- VGATHER, R227. -/
  | vgather (h : Hdr) (f : AF)
  /-- VSCATTER, R227. -/
  | vscatter (h : Hdr) (f : AF)
  /-- VPUT, R229. -/
  | vput (h : Hdr) (f : AF)
  /-- VGET, R229. -/
  | vget (h : Hdr) (f : AF)
  /-- VRED, R228. -/
  | vred (h : Hdr) (f : AF)
  /-- VSTAT, R230. -/
  | vstat (h : Hdr) (f : AF)
  /-- VCANCEL, R231. -/
  | vcancel (h : Hdr) (f : AF)
  /-- SORT, R232. -/
  | sort (h : Hdr) (f : AF)
  /-- BARARR, R25. -/
  | bararr (h : Hdr) (f : SF)
  /-- BARWAIT, R27. -/
  | barwait (h : Hdr) (f : SF)
  /-- BARSYNC, R234. -/
  | barsync (h : Hdr) (f : SF)
  /-- BARDROP, R28. -/
  | bardrop (h : Hdr) (f : SF)
  /-- BARSTAT, R235. -/
  | barstat (h : Hdr) (f : SF)
  /-- GRPQ, R236. -/
  | grpq (h : Hdr) (f : SF)
  /-- LAUNCH, R237. -/
  | launch (h : Hdr) (f : SF)
  /-- FSIG, R238. -/
  | fsig (h : Hdr) (f : SF)
  /-- FWAIT, R239. -/
  | fwait (h : Hdr) (f : SF)
  /-- NEXTTILE, R240. -/
  | nexttile (h : Hdr) (f : SF)
  /-- STEAL, R240. -/
  | steal (h : Hdr) (f : SF)
  /-- WRSR_FLUSH, R241. -/
  | wrsrFlush (h : Hdr) (f : SF)
  /-- WRSR_QUOTA, R241. -/
  | wrsrQuota (h : Hdr) (f : SF)
  /-- WRSR_EVENT, R241. -/
  | wrsrEvent (h : Hdr) (f : SF)
  /-- WATCH, R242. -/
  | watch (h : Hdr) (f : SF)
  /-- WARP_SWAP_OUT, R20. -/
  | warpSwapOut (core out into : Nat)
  /-- SYNC_BLOCK_TIMEOUT, R48. -/
  | syncBlockTimeout (core slot : Nat)
  /-- WARP_EVICTION, R51. -/
  | warpEviction (core slot : Nat)
  /-- WARP_REFILL, R53. -/
  | warpRefill (core slot : Nat)
  /-- SLOT_ALLOCATION, R50. -/
  | slotAllocation (core slot : Nat)
  /-- BLOCK_ADMISSION, R16. -/
  | blockAdmission (launch core : Nat)
  /-- BLOCK_END, R233. -/
  | blockEnd (block : Nat)
  /-- BARRIER_WAITER_RELEASE, R34. -/
  | barrierWaiterRelease (core slot wait : Nat)
  /-- SLEEP_EXPIRY, R139. -/
  | sleepExpiry (core slot wait : Nat)
  /-- FWAIT_RELEASE, R239. -/
  | fwaitRelease (core slot wait : Nat)
  /-- INSTRUCTION_FETCH, R374. -/
  | instructionFetch (core slot : Nat)
  /-- LOAD_WRITEBACK, R137. -/
  | loadWriteback (core slot : Nat) (part : LanePart)
  /-- STORE_PERFORMED, R137. -/
  | storePerformed (core slot : Nat) (part : LanePart) (home : Bool)
  /-- ACCESS_TRANSLATION_FAULT, R184. -/
  | accessTranslationFault (core slot acc lane : Nat)
  /-- OPERAND_LOG_REPLAY, R184. -/
  | operandLogReplay (core slot entry : Nat)
  /-- STORE_FAULT_REPLAY, R333. -/
  | storeFaultReplay (ctx entry : Nat)
  /-- TRANSLATION_WALK, R318. -/
  | translationWalk (unit : TUnit) (ctx va : Nat)
  /-- TRANSLATION_EXPIRY, R311. -/
  | translationExpiry (item : Nat)
  /-- LEASE_RENEWAL, R313. -/
  | leaseRenewal (op : Nat)
  /-- STRATUM_LOAD_COMPLETE, R119. -/
  | stratumLoadComplete (core x : Nat)
  /-- MATRIX_ROW_WAIT_END, R120. -/
  | matrixRowWaitEnd (core x : Nat)
  /-- MATRIX_RETIRE, R201. -/
  | matrixRetire (core x : Nat)
  /-- MATRIX_STOP, R212. -/
  | matrixStop (core x : Nat)
  /-- X_ASYNC_COMPLETE, R201. -/
  | xAsyncComplete (core x : Nat)
  /-- ENGINE_UNIT_TRANSFER, R223. -/
  | engineUnitTransfer (op : Nat)
  /-- ENGINE_OPERATION_COMPLETE, R222. -/
  | engineOperationComplete (op : Nat)
  /-- ENGINE_LOCK_WAIT_END, R224. -/
  | engineLockWaitEnd (op : Nat)
  /-- MERGE_FORMED, R263. -/
  | mergeFormed (merge : Nat)
  /-- LODE_REFRESH, R128. -/
  | lodeRefresh (bank : Nat) (enter : Bool)
  /-- QUEUE_DOORBELL, R292. -/
  | queueDoorbell (fn q : Nat) (value : BitVec 64)
  /-- QUEUE_ENABLE, R292. -/
  | queueEnable (fn q : Nat) (on : Bool)
  /-- LAUNCH_ENTRY, R289. -/
  | launchEntry (src : LaunchSource)
  /-- FENCE_SIGNAL_ENTRY, R293. -/
  | fenceSignalEntry (fn q : Nat)
  /-- FENCE_WAIT_ENTRY, R293. -/
  | fenceWaitEntry (fn q : Nat)
  /-- LODE_COPY_ENTRY, R293. -/
  | lodeCopyEntry (fn q : Nat)
  /-- GRID_READ, R297. -/
  | gridRead (launch : Nat)
  /-- LAUNCH_COMPLETE, R296. -/
  | launchComplete (launch : Nat)
  /-- REDUCTION_BUFFER_APPLY, R303. -/
  | reductionBufferApply (launch : Nat)
  /-- TIME_SLICE_EXPIRY, R294. -/
  | timeSliceExpiry (part : Nat)
  /-- PAGE_RETRY_DOORBELL, R322. -/
  | pageRetryDoorbell (fn : Nat) (value : BitVec 64)
  /-- HOST_CONTEXT_FLUSH, R314. -/
  | hostContextFlush (fn : Nat) (value : BitVec 64)
  /-- PAGE_REQUEST_TABLE_BASE, R325. -/
  | pageRequestTableBase (part : Nat) (base : BitVec 64)
  /-- PAGE_REQUEST_REPLY, R326. -/
  | pageRequestReply (part : Nat) (value : BitVec 64)
  /-- EVENT_RECORD_POST, R330. -/
  | eventRecordPost (fn : Nat)
  /-- EVENT_QUEUE_HEAD, R331. -/
  | eventQueueHead (fn : Nat) (head : BitVec 32)
  /-- FRAGMENT_RESUME, R332. -/
  | fragmentResume (fn : Nat) (value : BitVec 64)
  /-- FRAGMENT_RESUME_AT_PC, R332. -/
  | fragmentResumeAtPc (fn : Nat) (value : BitVec 64)
  /-- FRAGMENT_RESUME_NEXT, R332. -/
  | fragmentResumeNext (fn : Nat) (value : BitVec 64)
  /-- FRAGMENT_RESUME_NO_WATCH, R332. -/
  | fragmentResumeNoWatch (fn : Nat) (value : BitVec 64)
  /-- WARP_KILL, R332. -/
  | warpKill (fn : Nat) (value : BitVec 64)
  /-- SOFT_PREEMPT_REQUEST, R336. -/
  | softPreemptRequest (fn ctx : Nat)
  /-- FORCED_HALT, R336. -/
  | forcedHalt (fn ctx : Nat)
  /-- GRACE_EXPIRY, R336. -/
  | graceExpiry (ctx : Nat)
  /-- CONTEXT_KILL, R336. -/
  | contextKill (fn ctx : Nat)
  /-- KILL_TIMER_EXPIRY, R336. -/
  | killTimerExpiry (ctx : Nat)
  /-- PREEMPT_WITHDRAW, R335. -/
  | preemptWithdraw (fn ctx : Nat)
  /-- CONTEXT_SAVE_COMPLETE, R336. -/
  | contextSaveComplete (ctx : Nat)
  /-- SAVE_FAULT, R338. -/
  | saveFault (ctx core addr : Nat)
  /-- CONTEXT_RESTORE, R339. -/
  | contextRestore (ctx : Nat)
  /-- SKEW_CHECK, R306. -/
  | skewCheck (dev : List Int)
  /-- PEER_INBOUND_PACKET, R354. -/
  | peerInboundPacket (part : Nat) (packet : Packet)
  /-- PEER_STALE_ANSWER, R355. `op` names an engine operation below 2^40, or class X operation x of core c as
  2^40 + 256 x + c; so in the two rows below. -/
  | peerStaleAnswer (op validfrom : Nat)
  /-- PEER_NACK_ANSWER, R355. -/
  | peerNackAnswer (op : Nat) (code : BitVec 8)
  /-- PEER_TIMEOUT, R355. -/
  | peerTimeout (op : Nat)
  /-- FABRIC_LINK_SKEW_DOWN, R352. -/
  | fabricLinkSkewDown (link skew : Nat)
  /-- HOST_SNOOP, R346. -/
  | hostSnoop (line : Nat)
  /-- HOST_MEM_ACCESS, R347. -/
  | hostMemAccess (addr len : Nat) (write : Bool) (data : List Byte)
  /-- MODULE_RESET, R371. -/
  | moduleReset
  /-- SIDEBAND_DOWN, R342. -/
  | sidebandDown
  /-- LINK_MODULE_TRAINING_FAIL, R342. -/
  | linkModuleTrainingFail (m : Nat)
  /-- BOOT_GO, R350. -/
  | bootGo (value : BitVec 32)
  /-- CERTIFICATE_REQUEST, R351. -/
  | certificateRequest
  /-- REPORT_REQUEST, R351. -/
  | reportRequest
  /-- PARTITION_APPLY, R361. -/
  | partitionApply (value : BitVec 32)
  /-- BAND_RELOAD, R365. -/
  | bandReload (value : BitVec 32)
  /-- BAND_WINDOW, R366. -/
  | bandWindow (resource domain : Nat) (demand : List (Nat × Nat))
  /-- TELEMETRY_SNAPSHOT, R367. -/
  | telemetrySnapshot (part : Nat)
  /-- POWER_WINDOW, R370. -/
  | powerWindow (watts : Nat) (energy : List (Nat × Nat))
  /-- THERMAL_THROTTLE, R370. -/
  | thermalThrottle (die temp : Nat)
  /-- THERMAL_SHUTDOWN, R370. -/
  | thermalShutdown (die : Nat)
  /-- RAS_RECORD, R369. -/
  | rasRecord (addr : BitVec 64) (store what : BitVec 8) (unit : BitVec 16) (part : BitVec 8) (ctx : BitVec 16)
  /-- MIN_VERSION_RAISE, R371. -/
  | minVersionRaise (value : BitVec 32)
  /-- CONFIG_REGISTER_WRITE, R291. -/
  | configRegisterWrite (page : Page) (offset size : Nat) (value : BitVec 64)
  /-- RESERVED_OPCODE, R75. -/
  | reservedOpcode (word : InsnWord)
  /-- SIDEBAND_UP, R342. -/
  | sidebandUp
  deriving DecidableEq, Repr

end Sys2Proof
end

