-- ==== Sys2Proof/WellFormed.lean ====
section
/-! DEFINITION. Which terms of Instr name an encoding or an event of the part: the choices that select a
constructor among the rows of one opcode, and the ranges of the numbers that name cores, slots, lanes and units.
The field rules of 04 R74 are checked when a word issues, by its meaning under Machine. -/
namespace Sys2Proof

/-- A core number of the part (04 R77). -/
def coreOk (n : Nat) : Bool := decide (n < 256)

/-- A warp slot (01 R16). -/
def slotOk (n : Nat) : Bool := decide (n < 64)

/-- A function page: a virtual function, or the physical function in partition `n - 256` (19 R291, 23 R344). -/
def fnOk (n : Nat) : Bool := decide (n < 192) || (decide (256 ≤ n) && decide (n < 288))

/-- A partition number (24 R360). -/
def partOk (n : Nat) : Bool := decide (n < 32)

/-- A context key: partition × 4,096 + number (21 R328). -/
def ctxOk (n : Nat) : Bool := decide (n < 32 * 4096)

/-- A context number (21 R328). -/
def ctxNumOk (n : Nat) : Bool := decide (n < 4096)

/-- A unit that caches translations (20 R311). -/
def unitOk : TUnit → Bool
  | .core n => coreOk n
  | .array n => coreOk n
  | .engine n => decide (n < 128)
  | .cp n => partOk n

/-- A launch source (19 R291). -/
def sourceOk : LaunchSource → Bool
  | .queue fn q => fnOk fn && decide (q < 64)
  | .device p _ => partOk p

/-- Whether the map of 04 R88 assigns the opcode of a word: a function code of a class. -/
def assignedOpcode (cls fn : Nat) : Bool :=
  match cls with
  | 0 => [0x0, 0x1, 0x2, 0x3, 0x4, 0x5, 0x6, 0x8, 0x9, 0xa, 0xb, 0xc, 0xd, 0xe, 0xf, 0x10, 0x18, 0x19, 0x1a, 0x1c, 0x1d, 0x20, 0x28, 0x29, 0x2a, 0x2b, 0x2c, 0x30, 0x31, 0x32].contains fn
  | 1 => [0x0, 0x1, 0x2, 0x3, 0x4, 0x5, 0x6, 0x7, 0x8, 0x9, 0xa, 0xb, 0xc, 0xd, 0xe, 0xf, 0x10, 0x11, 0x12, 0x13, 0x14, 0x15, 0x18, 0x19, 0x1a, 0x1b, 0x1c, 0x20, 0x21, 0x22, 0x23, 0x24, 0x28, 0x29, 0x2a, 0x2b, 0x2c, 0x30, 0x31].contains fn
  | 2 => [0x0, 0x1, 0x2, 0x3, 0x4, 0x5, 0x6, 0x8, 0x9].contains fn
  | 3 => [0x0, 0x1, 0x2, 0x3, 0x4, 0x5, 0x6, 0x7, 0x8, 0x9, 0xa, 0xb].contains fn
  | 4 => [0x0, 0x1, 0x2, 0x3, 0x8, 0x9, 0xa, 0x10, 0x11, 0x12, 0x18, 0x19, 0x1a, 0x1b, 0x20, 0x21].contains fn
  | 5 => [0x0, 0x1, 0x2, 0x3, 0x4, 0x5, 0x8, 0x9, 0x10].contains fn
  | 6 => [0x0, 0x1, 0x2, 0x3, 0x4, 0x5, 0x10, 0x11, 0x12, 0x13, 0x14, 0x40, 0x41].contains fn
  | _ => false

/-- The well-formed terms. -/
def WellFormed (i : Instr) : Bool :=
  match i with
  | .pmovTov _ f => !f.subop.getLsbD 0
  | .pmovFromv _ f => f.subop.getLsbD 0
  | .rdsr _ f => decide (f.subop ≠ 1)
  | .rdsrClr _ f => decide (f.subop = 1)
  | .wrsrFlush _ f => decide (f.imm.extractLsb' 0 16 ≠ 2) && decide (f.imm.extractLsb' 0 16 ≠ 3)
  | .wrsrQuota _ f => decide (f.imm.extractLsb' 0 16 = 2)
  | .wrsrEvent _ f => decide (f.imm.extractLsb' 0 16 = 3)
  | .reservedOpcode w => !assignedOpcode (w.extractLsb' 93 3).toNat (w.extractLsb' 86 7).toNat
  | .fadd _ _ => true
  | .fsub _ _ => true
  | .fmul _ _ => true
  | .ffma _ _ => true
  | .fmin _ _ => true
  | .fmax _ _ => true
  | .fclass _ _ => true
  | .frcp _ _ => true
  | .frsq _ _ => true
  | .fsqrt _ _ => true
  | .fexp2 _ _ => true
  | .flog2 _ _ => true
  | .fsin _ _ => true
  | .fcos _ _ => true
  | .ftanh _ _ => true
  | .fsigm _ _ => true
  | .hadd2 _ _ => true
  | .hmul2 _ _ => true
  | .hfma2 _ _ => true
  | .dot4 _ _ => true
  | .wred _ _ => true
  | .imad _ _ => true
  | .cvt _ _ => true
  | .cvti _ _ => true
  | .cvtf _ _ => true
  | .pack _ _ => true
  | .unpack _ _ => true
  | .qhist _ _ => true
  | .qscale _ _ => true
  | .qcvt _ _ => true
  | .iadd _ _ => true
  | .iaddc _ _ => true
  | .isub _ _ => true
  | .imul _ _ => true
  | .imulh _ _ => true
  | .imin _ _ => true
  | .imax _ _ => true
  | .iabs _ _ => true
  | .ineg _ _ => true
  | .lea _ _ => true
  | .ishl _ _ => true
  | .ishr _ _ => true
  | .isar _ _ => true
  | .iand _ _ => true
  | .ior _ _ => true
  | .ixor _ _ => true
  | .inot _ _ => true
  | .popc _ _ => true
  | .clz _ _ => true
  | .brev _ _ => true
  | .bfx _ _ => true
  | .bfi _ _ => true
  | .pseti _ _ => true
  | .psetf _ _ => true
  | .plop _ _ => true
  | .pvote _ _ => true
  | .mov _ _ => true
  | .sel _ _ => true
  | .shfl _ _ => true
  | .bcast _ _ => true
  | .kmov _ _ => true
  | .drop _ _ => true
  | .clear _ _ => true
  | .release _ _ => true
  | .hold _ _ => true
  | .recount _ _ => true
  | .time _ _ => true
  | .ld _ _ => true
  | .st _ _ => true
  | .pref _ _ => true
  | .atom _ _ => true
  | .cas _ _ => true
  | .red _ _ => true
  | .amaxp _ _ => true
  | .fence _ _ => true
  | .cwb _ _ => true
  | .bra _ _ => true
  | .bri _ _ => true
  | .call _ _ => true
  | .calli _ _ => true
  | .ret _ _ => true
  | .exit _ _ => true
  | .yield _ _ => true
  | .nop _ _ => true
  | .wait _ _ => true
  | .sleep _ _ => true
  | .trap _ _ => true
  | .bkpt _ _ => true
  | .sload _ _ => true
  | .sstore _ _ => true
  | .sevict _ _ => true
  | .sstat _ _ => true
  | .mmt _ _ => true
  | .mmtx _ _ => true
  | .mmtg _ _ => true
  | .gzero _ _ => true
  | .gload _ _ => true
  | .gstore _ _ => true
  | .accz _ _ => true
  | .accld _ _ => true
  | .accst _ _ => true
  | .accmv _ _ => true
  | .tagset _ _ => true
  | .tagcnt _ _ => true
  | .vcopy _ _ => true
  | .vgather _ _ => true
  | .vscatter _ _ => true
  | .vput _ _ => true
  | .vget _ _ => true
  | .vred _ _ => true
  | .vstat _ _ => true
  | .vcancel _ _ => true
  | .sort _ _ => true
  | .bararr _ _ => true
  | .barwait _ _ => true
  | .barsync _ _ => true
  | .bardrop _ _ => true
  | .barstat _ _ => true
  | .grpq _ _ => true
  | .launch _ _ => true
  | .fsig _ _ => true
  | .fwait _ _ => true
  | .nexttile _ _ => true
  | .steal _ _ => true
  | .watch _ _ => true
  | .warpSwapOut c o i => coreOk c && slotOk o && slotOk i
  | .syncBlockTimeout c s => coreOk c && slotOk s
  | .warpEviction c s => coreOk c && slotOk s
  | .warpRefill c s => coreOk c && slotOk s
  | .slotAllocation c s => coreOk c && slotOk s
  | .blockAdmission _ c => coreOk c
  | .blockEnd _ => true
  | .barrierWaiterRelease c s _ => coreOk c && slotOk s
  | .sleepExpiry c s _ => coreOk c && slotOk s
  | .fwaitRelease c s _ => coreOk c && slotOk s
  | .instructionFetch c s => coreOk c && slotOk s
  | .loadWriteback c s p => coreOk c && slotOk s && decide (p.lane < 32)
  | .storePerformed c s p _ => coreOk c && slotOk s && decide (p.lane < 32)
  | .accessTranslationFault c s _ l => coreOk c && slotOk s && decide (l < 32)
  | .operandLogReplay c s e => coreOk c && slotOk s && decide (e < 16)
  | .storeFaultReplay c _ => ctxOk c
  | .translationWalk u c va => unitOk u && ctxOk c && decide (va < 2 ^ 48)
  | .translationExpiry _ => true
  | .leaseRenewal _ => true
  | .stratumLoadComplete c _ => coreOk c
  | .matrixRowWaitEnd c _ => coreOk c
  | .matrixRetire c _ => coreOk c
  | .matrixStop c _ => coreOk c
  | .xAsyncComplete c _ => coreOk c
  | .engineUnitTransfer _ => true
  | .engineOperationComplete _ => true
  | .engineLockWaitEnd _ => true
  | .mergeFormed _ => true
  | .lodeRefresh b _ => decide (b < 16)
  | .queueDoorbell fn q _ => fnOk fn && decide (q < 64)
  | .queueEnable fn q _ => fnOk fn && decide (q < 64)
  | .launchEntry s => sourceOk s
  | .fenceSignalEntry fn q => fnOk fn && decide (q < 64)
  | .fenceWaitEntry fn q => fnOk fn && decide (q < 64)
  | .lodeCopyEntry fn q => fnOk fn && decide (q < 64)
  | .gridRead _ => true
  | .launchComplete _ => true
  | .reductionBufferApply _ => true
  | .timeSliceExpiry p => partOk p
  | .pageRetryDoorbell fn _ => fnOk fn
  | .hostContextFlush fn _ => fnOk fn
  | .pageRequestTableBase p _ => partOk p
  | .pageRequestReply p _ => partOk p
  | .eventRecordPost fn => fnOk fn
  | .eventQueueHead fn _ => fnOk fn
  | .fragmentResume fn _ => fnOk fn
  | .fragmentResumeAtPc fn _ => fnOk fn
  | .fragmentResumeNext fn _ => fnOk fn
  | .fragmentResumeNoWatch fn _ => fnOk fn
  | .warpKill fn _ => fnOk fn
  | .softPreemptRequest fn n => fnOk fn && ctxNumOk n
  | .forcedHalt fn n => fnOk fn && ctxNumOk n
  | .graceExpiry c => ctxOk c
  | .contextKill fn n => fnOk fn && ctxNumOk n
  | .killTimerExpiry c => ctxOk c
  | .preemptWithdraw fn n => fnOk fn && ctxNumOk n
  | .contextSaveComplete c => ctxOk c
  | .saveFault c n _ => ctxOk c && coreOk n
  | .contextRestore c => ctxOk c
  | .skewCheck d => decide (d.length = 4)
  | .peerInboundPacket p k => partOk p && decide (k.len ≤ 256)
  | .peerStaleAnswer _ _ => true
  | .peerNackAnswer _ _ => true
  | .peerTimeout _ => true
  | .fabricLinkSkewDown l _ => decide (l < 24)
  | .hostSnoop _ => true
  | .hostMemAccess a n _ _ => decide (a + n ≤ 2 ^ 40)
  | .moduleReset => true
  | .sidebandDown => true
  | .linkModuleTrainingFail m => decide (m < 8)
  | .bootGo _ => true
  | .certificateRequest => true
  | .reportRequest => true
  | .partitionApply _ => true
  | .bandReload _ => true
  | .bandWindow r _ _ => decide (r < 5)
  | .telemetrySnapshot p => partOk p
  | .powerWindow _ _ => true
  | .thermalThrottle d _ => decide (d < 4)
  | .thermalShutdown d => decide (d < 4)
  | .rasRecord _ s w _ _ _ => decide (s ≤ 8) && decide (w ≤ 2)
  | .minVersionRaise _ => true
  | .configRegisterWrite _ o z _ => decide (o < 4096) && [1, 2, 4, 8].contains z
  | .sidebandUp => true

end Sys2Proof
end

