-- ==== Sys2Proof/Decode.lean ====
section
/-! DEFINITION. Decoding of 96-bit words and encoding of instructions, from the layouts of 04 R72, R79 to R87 and the
opcode map of 04 R88. Every word decodes; a word the map leaves unassigned decodes to RESERVED_OPCODE (04 R75). -/
namespace Sys2Proof

/-- The header of a word (04 R72). -/
def decodeHdr (w : InsnWord) : Hdr :=
  { negate := w.getLsbD 85, guard := w.extractLsb' 82 3, dest := w.extractLsb' 73 9, count := w.extractLsb' 70 3 }

/-- Class V3 fields (04 R79). -/
def decodeV3 (w : InsnWord) : V3 :=
  { srca := w.extractLsb' 61 9, srcb := w.extractLsb' 52 9, srcc := w.extractLsb' 43 9, fslot := w.extractLsb' 40 3,
    rnd := w.extractLsb' 37 3, sat := w.getLsbD 36, nega := w.getLsbD 35, negb := w.getLsbD 34, absa := w.getLsbD 33,
    absb := w.getLsbD 32, type := w.extractLsb' 28 4, zero := w.extractLsb' 0 28 }

/-- Class VI fields (04 R80). -/
def decodeVI (w : InsnWord) : VI :=
  { srca := w.extractLsb' 61 9, srcb := w.extractLsb' 52 9, type := w.extractLsb' 48 4, mods := w.extractLsb' 44 4,
    subop := w.extractLsb' 32 12, imm := w.extractLsb' 0 32 }

/-- Class M fields (04 R83). -/
def decodeMF (w : InsnWord) : MF :=
  { addr := w.extractLsb' 61 9, data := w.extractLsb' 52 9, space := w.extractLsb' 49 3, width := w.extractLsb' 46 3,
    scope := w.extractLsb' 43 3, order := w.extractLsb' 41 2, hint := w.extractLsb' 39 2, atomic := w.extractLsb' 35 4,
    pdst := w.extractLsb' 32 3, offset := w.extractLsb' 0 32 }

/-- Class C fields (04 R84). -/
def decodeCF (w : InsnWord) : CF :=
  { tslot := w.extractLsb' 67 3, loff := w.extractLsb' 43 24, src := w.extractLsb' 34 9, zero := w.extractLsb' 32 2,
    wload := w.extractLsb' 26 6, wstore := w.extractLsb' 20 6, wcopy := w.extractLsb' 14 6, wtile := w.extractLsb' 8 6,
    imm := w.extractLsb' 0 8 }

/-- Class X fields (04 R85). -/
def decodeXF (w : InsnWord) : XF :=
  { aaddr := w.extractLsb' 61 9, tagaddr := w.extractLsb' 52 9, rscale := w.extractLsb' 43 9, fslot := w.extractLsb' 40 3,
    acc := w.extractLsb' 37 3, skip := w.getLsbD 36, tagged := w.getLsbD 35, stratum := w.extractLsb' 32 3,
    rows := w.extractLsb' 16 16, stride := w.extractLsb' 0 16 }

/-- Class A fields (04 R86). -/
def decodeAF (w : InsnWord) : AF :=
  { dsta := w.extractLsb' 61 9, srca := w.extractLsb' 52 9, len := w.extractLsb' 43 9, amod := w.extractLsb' 40 3,
    peer := w.extractLsb' 32 8, imm := w.extractLsb' 0 32 }

/-- Class S fields (04 R87). -/
def decodeSF (w : InsnWord) : SF :=
  { srca := w.extractLsb' 61 9, srcb := w.extractLsb' 52 9, group := w.extractLsb' 44 8, subop := w.extractLsb' 32 12,
    imm := w.extractLsb' 0 32 }

/-- The instruction of a class 0 word, by its function code (04 R88). -/
def decodeClass0 (w : InsnWord) : Instr :=
  let h := decodeHdr w
  let f := decodeV3 w
  match (w.extractLsb' 86 7).toNat with
  | 0x00 => .fadd h f
  | 0x01 => .fsub h f
  | 0x02 => .fmul h f
  | 0x03 => .ffma h f
  | 0x04 => .fmin h f
  | 0x05 => .fmax h f
  | 0x06 => .fclass h f
  | 0x08 => .frcp h f
  | 0x09 => .frsq h f
  | 0x0A => .fsqrt h f
  | 0x0B => .fexp2 h f
  | 0x0C => .flog2 h f
  | 0x0D => .fsin h f
  | 0x0E => .fcos h f
  | 0x0F => .ftanh h f
  | 0x10 => .fsigm h f
  | 0x18 => .hadd2 h f
  | 0x19 => .hmul2 h f
  | 0x1A => .hfma2 h f
  | 0x1C => .dot4 h f
  | 0x1D => .wred h f
  | 0x20 => .imad h f
  | 0x28 => .cvt h f
  | 0x29 => .cvti h f
  | 0x2A => .cvtf h f
  | 0x2B => .pack h f
  | 0x2C => .unpack h f
  | 0x30 => .qhist h f
  | 0x31 => .qscale h f
  | 0x32 => .qcvt h f
  | _ => .reservedOpcode w

/-- The instruction of a class 1 word, by its function code (04 R88). -/
def decodeClass1 (w : InsnWord) : Instr :=
  let h := decodeHdr w
  let f := decodeVI w
  match (w.extractLsb' 86 7).toNat with
  | 0x00 => .iadd h f
  | 0x01 => .iaddc h f
  | 0x02 => .isub h f
  | 0x03 => .imul h f
  | 0x04 => .imulh h f
  | 0x05 => .imin h f
  | 0x06 => .imax h f
  | 0x07 => .iabs h f
  | 0x08 => .ineg h f
  | 0x09 => .lea h f
  | 0x0A => .ishl h f
  | 0x0B => .ishr h f
  | 0x0C => .isar h f
  | 0x0D => .iand h f
  | 0x0E => .ior h f
  | 0x0F => .ixor h f
  | 0x10 => .inot h f
  | 0x11 => .popc h f
  | 0x12 => .clz h f
  | 0x13 => .brev h f
  | 0x14 => .bfx h f
  | 0x15 => .bfi h f
  | 0x18 => .pseti h f
  | 0x19 => .psetf h f
  | 0x1A => .plop h f
  | 0x1B => .pvote h f
  | 0x1C => if f.subop.getLsbD 0 then .pmovFromv h f else .pmovTov h f
  | 0x20 => .mov h f
  | 0x21 => .sel h f
  | 0x22 => .shfl h f
  | 0x23 => .bcast h f
  | 0x24 => .kmov h f
  | 0x28 => .drop h f
  | 0x29 => .clear h f
  | 0x2A => .release h f
  | 0x2B => .hold h f
  | 0x2C => .recount h f
  | 0x30 => if f.subop = 1 then .rdsrClr h f else .rdsr h f
  | 0x31 => .time h f
  | _ => .reservedOpcode w

/-- The instruction of a class 2 word, by its function code (04 R88). -/
def decodeClass2 (w : InsnWord) : Instr :=
  let h := decodeHdr w
  let f := decodeMF w
  match (w.extractLsb' 86 7).toNat with
  | 0x00 => .ld h f
  | 0x01 => .st h f
  | 0x02 => .pref h f
  | 0x03 => .atom h f
  | 0x04 => .cas h f
  | 0x05 => .red h f
  | 0x06 => .amaxp h f
  | 0x08 => .fence h f
  | 0x09 => .cwb h f
  | _ => .reservedOpcode w

/-- The instruction of a class 3 word, by its function code (04 R88). -/
def decodeClass3 (w : InsnWord) : Instr :=
  let h := decodeHdr w
  let f := decodeCF w
  match (w.extractLsb' 86 7).toNat with
  | 0x00 => .bra h f
  | 0x01 => .bri h f
  | 0x02 => .call h f
  | 0x03 => .calli h f
  | 0x04 => .ret h f
  | 0x05 => .exit h f
  | 0x06 => .yield h f
  | 0x07 => .nop h f
  | 0x08 => .wait h f
  | 0x09 => .sleep h f
  | 0x0A => .trap h f
  | 0x0B => .bkpt h f
  | _ => .reservedOpcode w

/-- The instruction of a class 4 word, by its function code (04 R88). -/
def decodeClass4 (w : InsnWord) : Instr :=
  let h := decodeHdr w
  let f := decodeXF w
  match (w.extractLsb' 86 7).toNat with
  | 0x00 => .sload h f
  | 0x01 => .sstore h f
  | 0x02 => .sevict h f
  | 0x03 => .sstat h f
  | 0x08 => .mmt h f
  | 0x09 => .mmtx h f
  | 0x0A => .mmtg h f
  | 0x10 => .gzero h f
  | 0x11 => .gload h f
  | 0x12 => .gstore h f
  | 0x18 => .accz h f
  | 0x19 => .accld h f
  | 0x1A => .accst h f
  | 0x1B => .accmv h f
  | 0x20 => .tagset h f
  | 0x21 => .tagcnt h f
  | _ => .reservedOpcode w

/-- The instruction of a class 5 word, by its function code (04 R88). -/
def decodeClass5 (w : InsnWord) : Instr :=
  let h := decodeHdr w
  let f := decodeAF w
  match (w.extractLsb' 86 7).toNat with
  | 0x00 => .vcopy h f
  | 0x01 => .vgather h f
  | 0x02 => .vscatter h f
  | 0x03 => .vput h f
  | 0x04 => .vget h f
  | 0x05 => .vred h f
  | 0x08 => .vstat h f
  | 0x09 => .vcancel h f
  | 0x10 => .sort h f
  | _ => .reservedOpcode w

/-- The instruction of a class 6 word, by its function code (04 R88). -/
def decodeClass6 (w : InsnWord) : Instr :=
  let h := decodeHdr w
  let f := decodeSF w
  match (w.extractLsb' 86 7).toNat with
  | 0x00 => .bararr h f
  | 0x01 => .barwait h f
  | 0x02 => .barsync h f
  | 0x03 => .bardrop h f
  | 0x04 => .barstat h f
  | 0x05 => .grpq h f
  | 0x10 => .launch h f
  | 0x11 => .fsig h f
  | 0x12 => .fwait h f
  | 0x13 => .nexttile h f
  | 0x14 => .steal h f
  | 0x40 => if f.imm.extractLsb' 0 16 = 2 then .wrsrQuota h f
    else if f.imm.extractLsb' 0 16 = 3 then .wrsrEvent h f else .wrsrFlush h f
  | 0x41 => .watch h f
  | _ => .reservedOpcode w

/-- The instruction of any word (04 R73, R75). -/
def decodeWord (w : InsnWord) : Instr :=
  match (w.extractLsb' 93 3).toNat with
  | 0 => decodeClass0 w
  | 1 => decodeClass1 w
  | 2 => decodeClass2 w
  | 3 => decodeClass3 w
  | 4 => decodeClass4 w
  | 5 => decodeClass5 w
  | 6 => decodeClass6 w
  | _ => .reservedOpcode w

/-- Why bytes do not decode: they are not the twelve bytes of one slot. -/
inductive DecodeError where
  | notTwelveBytes
  deriving DecidableEq, Repr

/-- The number whose little-endian bytes are given, the first byte lowest (03 R66). -/
def leNat : List Byte → Nat
  | [] => 0
  | b :: bs => b.toNat + 256 * leNat bs

/-- The `n` little-endian bytes of a number. -/
def leBytes : Nat → Nat → List Byte
  | 0, _ => []
  | n + 1, x => BitVec.ofNat 8 x :: leBytes n (x / 256)

/-- The instruction in the twelve bytes of a slot, in the order memory holds them (03 R66). -/
def decodeBytes (bs : List Byte) : Except DecodeError Instr :=
  if bs.length = 12 then .ok (decodeWord (BitVec.ofNat 96 (leNat bs))) else .error .notTwelveBytes

/-- A header and 70 class bits behind a class and function code (04 R72). -/
def encodeHdr (c : BitVec 3) (fn : BitVec 7) (h : Hdr) (rest : BitVec 70) : InsnWord :=
  c ++ fn ++ BitVec.ofBool h.negate ++ h.guard ++ h.dest ++ h.count ++ rest

/-- Class V3 bits (04 R79). -/
def encodeV3 (f : V3) : BitVec 70 :=
  f.srca ++ f.srcb ++ f.srcc ++ f.fslot ++ f.rnd ++ BitVec.ofBool f.sat ++ BitVec.ofBool f.nega ++ BitVec.ofBool f.negb
    ++ BitVec.ofBool f.absa ++ BitVec.ofBool f.absb ++ f.type ++ f.zero

/-- Class VI bits (04 R80). -/
def encodeVI (f : VI) : BitVec 70 := f.srca ++ f.srcb ++ f.type ++ f.mods ++ f.subop ++ f.imm

/-- Class M bits (04 R83). -/
def encodeMF (f : MF) : BitVec 70 :=
  f.addr ++ f.data ++ f.space ++ f.width ++ f.scope ++ f.order ++ f.hint ++ f.atomic ++ f.pdst ++ f.offset

/-- Class C bits (04 R84). -/
def encodeCF (f : CF) : BitVec 70 :=
  f.tslot ++ f.loff ++ f.src ++ f.zero ++ f.wload ++ f.wstore ++ f.wcopy ++ f.wtile ++ f.imm

/-- Class X bits (04 R85). -/
def encodeXF (f : XF) : BitVec 70 :=
  f.aaddr ++ f.tagaddr ++ f.rscale ++ f.fslot ++ f.acc ++ BitVec.ofBool f.skip ++ BitVec.ofBool f.tagged ++ f.stratum
    ++ f.rows ++ f.stride

/-- Class A bits (04 R86). -/
def encodeAF (f : AF) : BitVec 70 := f.dsta ++ f.srca ++ f.len ++ f.amod ++ f.peer ++ f.imm

/-- Class S bits (04 R87). -/
def encodeSF (f : SF) : BitVec 70 := f.srca ++ f.srcb ++ f.group ++ f.subop ++ f.imm

/-- The 96-bit word of an instruction; none for an event, which has no encoding. -/
def encode (i : Instr) : Option InsnWord :=
  match i with
  | .fadd h f => some (encodeHdr 0 0x00 h (encodeV3 f))
  | .fsub h f => some (encodeHdr 0 0x01 h (encodeV3 f))
  | .fmul h f => some (encodeHdr 0 0x02 h (encodeV3 f))
  | .ffma h f => some (encodeHdr 0 0x03 h (encodeV3 f))
  | .fmin h f => some (encodeHdr 0 0x04 h (encodeV3 f))
  | .fmax h f => some (encodeHdr 0 0x05 h (encodeV3 f))
  | .fclass h f => some (encodeHdr 0 0x06 h (encodeV3 f))
  | .frcp h f => some (encodeHdr 0 0x08 h (encodeV3 f))
  | .frsq h f => some (encodeHdr 0 0x09 h (encodeV3 f))
  | .fsqrt h f => some (encodeHdr 0 0x0A h (encodeV3 f))
  | .fexp2 h f => some (encodeHdr 0 0x0B h (encodeV3 f))
  | .flog2 h f => some (encodeHdr 0 0x0C h (encodeV3 f))
  | .fsin h f => some (encodeHdr 0 0x0D h (encodeV3 f))
  | .fcos h f => some (encodeHdr 0 0x0E h (encodeV3 f))
  | .ftanh h f => some (encodeHdr 0 0x0F h (encodeV3 f))
  | .fsigm h f => some (encodeHdr 0 0x10 h (encodeV3 f))
  | .hadd2 h f => some (encodeHdr 0 0x18 h (encodeV3 f))
  | .hmul2 h f => some (encodeHdr 0 0x19 h (encodeV3 f))
  | .hfma2 h f => some (encodeHdr 0 0x1A h (encodeV3 f))
  | .dot4 h f => some (encodeHdr 0 0x1C h (encodeV3 f))
  | .wred h f => some (encodeHdr 0 0x1D h (encodeV3 f))
  | .imad h f => some (encodeHdr 0 0x20 h (encodeV3 f))
  | .cvt h f => some (encodeHdr 0 0x28 h (encodeV3 f))
  | .cvti h f => some (encodeHdr 0 0x29 h (encodeV3 f))
  | .cvtf h f => some (encodeHdr 0 0x2A h (encodeV3 f))
  | .pack h f => some (encodeHdr 0 0x2B h (encodeV3 f))
  | .unpack h f => some (encodeHdr 0 0x2C h (encodeV3 f))
  | .qhist h f => some (encodeHdr 0 0x30 h (encodeV3 f))
  | .qscale h f => some (encodeHdr 0 0x31 h (encodeV3 f))
  | .qcvt h f => some (encodeHdr 0 0x32 h (encodeV3 f))
  | .iadd h f => some (encodeHdr 1 0x00 h (encodeVI f))
  | .iaddc h f => some (encodeHdr 1 0x01 h (encodeVI f))
  | .isub h f => some (encodeHdr 1 0x02 h (encodeVI f))
  | .imul h f => some (encodeHdr 1 0x03 h (encodeVI f))
  | .imulh h f => some (encodeHdr 1 0x04 h (encodeVI f))
  | .imin h f => some (encodeHdr 1 0x05 h (encodeVI f))
  | .imax h f => some (encodeHdr 1 0x06 h (encodeVI f))
  | .iabs h f => some (encodeHdr 1 0x07 h (encodeVI f))
  | .ineg h f => some (encodeHdr 1 0x08 h (encodeVI f))
  | .lea h f => some (encodeHdr 1 0x09 h (encodeVI f))
  | .ishl h f => some (encodeHdr 1 0x0A h (encodeVI f))
  | .ishr h f => some (encodeHdr 1 0x0B h (encodeVI f))
  | .isar h f => some (encodeHdr 1 0x0C h (encodeVI f))
  | .iand h f => some (encodeHdr 1 0x0D h (encodeVI f))
  | .ior h f => some (encodeHdr 1 0x0E h (encodeVI f))
  | .ixor h f => some (encodeHdr 1 0x0F h (encodeVI f))
  | .inot h f => some (encodeHdr 1 0x10 h (encodeVI f))
  | .popc h f => some (encodeHdr 1 0x11 h (encodeVI f))
  | .clz h f => some (encodeHdr 1 0x12 h (encodeVI f))
  | .brev h f => some (encodeHdr 1 0x13 h (encodeVI f))
  | .bfx h f => some (encodeHdr 1 0x14 h (encodeVI f))
  | .bfi h f => some (encodeHdr 1 0x15 h (encodeVI f))
  | .pseti h f => some (encodeHdr 1 0x18 h (encodeVI f))
  | .psetf h f => some (encodeHdr 1 0x19 h (encodeVI f))
  | .plop h f => some (encodeHdr 1 0x1A h (encodeVI f))
  | .pvote h f => some (encodeHdr 1 0x1B h (encodeVI f))
  | .pmovTov h f => some (encodeHdr 1 0x1C h (encodeVI f))
  | .pmovFromv h f => some (encodeHdr 1 0x1C h (encodeVI f))
  | .mov h f => some (encodeHdr 1 0x20 h (encodeVI f))
  | .sel h f => some (encodeHdr 1 0x21 h (encodeVI f))
  | .shfl h f => some (encodeHdr 1 0x22 h (encodeVI f))
  | .bcast h f => some (encodeHdr 1 0x23 h (encodeVI f))
  | .kmov h f => some (encodeHdr 1 0x24 h (encodeVI f))
  | .drop h f => some (encodeHdr 1 0x28 h (encodeVI f))
  | .clear h f => some (encodeHdr 1 0x29 h (encodeVI f))
  | .release h f => some (encodeHdr 1 0x2A h (encodeVI f))
  | .hold h f => some (encodeHdr 1 0x2B h (encodeVI f))
  | .recount h f => some (encodeHdr 1 0x2C h (encodeVI f))
  | .rdsr h f => some (encodeHdr 1 0x30 h (encodeVI f))
  | .rdsrClr h f => some (encodeHdr 1 0x30 h (encodeVI f))
  | .time h f => some (encodeHdr 1 0x31 h (encodeVI f))
  | .ld h f => some (encodeHdr 2 0x00 h (encodeMF f))
  | .st h f => some (encodeHdr 2 0x01 h (encodeMF f))
  | .pref h f => some (encodeHdr 2 0x02 h (encodeMF f))
  | .atom h f => some (encodeHdr 2 0x03 h (encodeMF f))
  | .cas h f => some (encodeHdr 2 0x04 h (encodeMF f))
  | .red h f => some (encodeHdr 2 0x05 h (encodeMF f))
  | .amaxp h f => some (encodeHdr 2 0x06 h (encodeMF f))
  | .fence h f => some (encodeHdr 2 0x08 h (encodeMF f))
  | .cwb h f => some (encodeHdr 2 0x09 h (encodeMF f))
  | .bra h f => some (encodeHdr 3 0x00 h (encodeCF f))
  | .bri h f => some (encodeHdr 3 0x01 h (encodeCF f))
  | .call h f => some (encodeHdr 3 0x02 h (encodeCF f))
  | .calli h f => some (encodeHdr 3 0x03 h (encodeCF f))
  | .ret h f => some (encodeHdr 3 0x04 h (encodeCF f))
  | .exit h f => some (encodeHdr 3 0x05 h (encodeCF f))
  | .yield h f => some (encodeHdr 3 0x06 h (encodeCF f))
  | .nop h f => some (encodeHdr 3 0x07 h (encodeCF f))
  | .wait h f => some (encodeHdr 3 0x08 h (encodeCF f))
  | .sleep h f => some (encodeHdr 3 0x09 h (encodeCF f))
  | .trap h f => some (encodeHdr 3 0x0A h (encodeCF f))
  | .bkpt h f => some (encodeHdr 3 0x0B h (encodeCF f))
  | .sload h f => some (encodeHdr 4 0x00 h (encodeXF f))
  | .sstore h f => some (encodeHdr 4 0x01 h (encodeXF f))
  | .sevict h f => some (encodeHdr 4 0x02 h (encodeXF f))
  | .sstat h f => some (encodeHdr 4 0x03 h (encodeXF f))
  | .mmt h f => some (encodeHdr 4 0x08 h (encodeXF f))
  | .mmtx h f => some (encodeHdr 4 0x09 h (encodeXF f))
  | .mmtg h f => some (encodeHdr 4 0x0A h (encodeXF f))
  | .gzero h f => some (encodeHdr 4 0x10 h (encodeXF f))
  | .gload h f => some (encodeHdr 4 0x11 h (encodeXF f))
  | .gstore h f => some (encodeHdr 4 0x12 h (encodeXF f))
  | .accz h f => some (encodeHdr 4 0x18 h (encodeXF f))
  | .accld h f => some (encodeHdr 4 0x19 h (encodeXF f))
  | .accst h f => some (encodeHdr 4 0x1A h (encodeXF f))
  | .accmv h f => some (encodeHdr 4 0x1B h (encodeXF f))
  | .tagset h f => some (encodeHdr 4 0x20 h (encodeXF f))
  | .tagcnt h f => some (encodeHdr 4 0x21 h (encodeXF f))
  | .vcopy h f => some (encodeHdr 5 0x00 h (encodeAF f))
  | .vgather h f => some (encodeHdr 5 0x01 h (encodeAF f))
  | .vscatter h f => some (encodeHdr 5 0x02 h (encodeAF f))
  | .vput h f => some (encodeHdr 5 0x03 h (encodeAF f))
  | .vget h f => some (encodeHdr 5 0x04 h (encodeAF f))
  | .vred h f => some (encodeHdr 5 0x05 h (encodeAF f))
  | .vstat h f => some (encodeHdr 5 0x08 h (encodeAF f))
  | .vcancel h f => some (encodeHdr 5 0x09 h (encodeAF f))
  | .sort h f => some (encodeHdr 5 0x10 h (encodeAF f))
  | .bararr h f => some (encodeHdr 6 0x00 h (encodeSF f))
  | .barwait h f => some (encodeHdr 6 0x01 h (encodeSF f))
  | .barsync h f => some (encodeHdr 6 0x02 h (encodeSF f))
  | .bardrop h f => some (encodeHdr 6 0x03 h (encodeSF f))
  | .barstat h f => some (encodeHdr 6 0x04 h (encodeSF f))
  | .grpq h f => some (encodeHdr 6 0x05 h (encodeSF f))
  | .launch h f => some (encodeHdr 6 0x10 h (encodeSF f))
  | .fsig h f => some (encodeHdr 6 0x11 h (encodeSF f))
  | .fwait h f => some (encodeHdr 6 0x12 h (encodeSF f))
  | .nexttile h f => some (encodeHdr 6 0x13 h (encodeSF f))
  | .steal h f => some (encodeHdr 6 0x14 h (encodeSF f))
  | .wrsrFlush h f => some (encodeHdr 6 0x40 h (encodeSF f))
  | .wrsrQuota h f => some (encodeHdr 6 0x40 h (encodeSF f))
  | .wrsrEvent h f => some (encodeHdr 6 0x40 h (encodeSF f))
  | .watch h f => some (encodeHdr 6 0x41 h (encodeSF f))
  | .warpSwapOut _ _ _ => none
  | .syncBlockTimeout _ _ => none
  | .warpEviction _ _ => none
  | .warpRefill _ _ => none
  | .slotAllocation _ _ => none
  | .blockAdmission _ _ => none
  | .blockEnd _ => none
  | .barrierWaiterRelease _ _ _ => none
  | .sleepExpiry _ _ _ => none
  | .fwaitRelease _ _ _ => none
  | .instructionFetch _ _ => none
  | .loadWriteback _ _ _ => none
  | .storePerformed _ _ _ _ => none
  | .accessTranslationFault _ _ _ _ => none
  | .operandLogReplay _ _ _ => none
  | .storeFaultReplay _ _ => none
  | .translationWalk _ _ _ => none
  | .translationExpiry _ => none
  | .leaseRenewal _ => none
  | .stratumLoadComplete _ _ => none
  | .matrixRowWaitEnd _ _ => none
  | .matrixRetire _ _ => none
  | .matrixStop _ _ => none
  | .xAsyncComplete _ _ => none
  | .engineUnitTransfer _ => none
  | .engineOperationComplete _ => none
  | .engineLockWaitEnd _ => none
  | .mergeFormed _ => none
  | .lodeRefresh _ _ => none
  | .queueDoorbell _ _ _ => none
  | .queueEnable _ _ _ => none
  | .launchEntry _ => none
  | .fenceSignalEntry _ _ => none
  | .fenceWaitEntry _ _ => none
  | .lodeCopyEntry _ _ => none
  | .gridRead _ => none
  | .launchComplete _ => none
  | .reductionBufferApply _ => none
  | .timeSliceExpiry _ => none
  | .pageRetryDoorbell _ _ => none
  | .hostContextFlush _ _ => none
  | .pageRequestTableBase _ _ => none
  | .pageRequestReply _ _ => none
  | .eventRecordPost _ => none
  | .eventQueueHead _ _ => none
  | .fragmentResume _ _ => none
  | .fragmentResumeAtPc _ _ => none
  | .fragmentResumeNext _ _ => none
  | .fragmentResumeNoWatch _ _ => none
  | .warpKill _ _ => none
  | .softPreemptRequest _ _ => none
  | .forcedHalt _ _ => none
  | .graceExpiry _ => none
  | .contextKill _ _ => none
  | .killTimerExpiry _ => none
  | .preemptWithdraw _ _ => none
  | .contextSaveComplete _ => none
  | .saveFault _ _ _ => none
  | .contextRestore _ => none
  | .skewCheck _ => none
  | .peerInboundPacket _ _ => none
  | .peerStaleAnswer _ _ => none
  | .peerNackAnswer _ _ => none
  | .peerTimeout _ => none
  | .fabricLinkSkewDown _ _ => none
  | .hostSnoop _ => none
  | .hostMemAccess _ _ _ _ => none
  | .moduleReset => none
  | .sidebandDown => none
  | .linkModuleTrainingFail _ => none
  | .bootGo _ => none
  | .certificateRequest => none
  | .reportRequest => none
  | .partitionApply _ => none
  | .bandReload _ => none
  | .bandWindow _ _ _ => none
  | .telemetrySnapshot _ => none
  | .powerWindow _ _ => none
  | .thermalThrottle _ _ => none
  | .thermalShutdown _ => none
  | .rasRecord _ _ _ _ _ _ => none
  | .minVersionRaise _ => none
  | .configRegisterWrite _ _ _ _ => none
  | .reservedOpcode w => some w
  | .sidebandUp => none

/-- The instruction that the decoder reads from a word numbered as the opcode table numbers it: one 96-bit word,
stored little-endian; `nbits` of it are given, and every bit above them is zero. -/
def decodeTableWord (nbits w : Nat) : Option Instr :=
  if nbits ≤ 96 then
    match decodeBytes (leBytes 12 (w % 2 ^ nbits)) with
    | .ok i => some i
    | .error _ => none
  else none

end Sys2Proof
end

