-- ==== Sys2Proof/Machine/State.lean ====
section
/-! DEFINITION. The state of the BXV-2400 as plain data, the reasons a step stops, and the state after reset. -/
namespace Sys2Proof.Machine

/-- A memory: rising addresses, no listed byte equal to zero, which is what an unlisted address reads as
(DESIGN CHOICE, log 5). -/
abbrev Memory := List Host.Cell

/-- Why the machine stops. -/
inductive Fault where
  /-- Raised by `exec` when the warp at the issue port has no issuable fragment, so no instruction issues.
  Safe: `step` raises it for no turn that `candidates` lists. -/
  | noIssuableFragment
  deriving DecidableEq, Repr

/-- Why a step has no meaning. -/
inductive Refusal where
  /-- Raised by an arm of `exec` whose instruction has no meaning yet. Safe. -/
  | notModelled (mnemonic : String)
  deriving DecidableEq, Repr

/-- The residency state of a stratum (06 R118). -/
inductive Residency where
  | empty | loading | resident | draining
  deriving DecidableEq, Repr

/-- A name's binding: one slot of data, one count for each lane (0, 1 to 6, or 7 for held), and whether a write
to it is still owed (02 R35, R36, R42). -/
structure NameCell where
  data : List Word
  counts : List (BitVec 3)
  pending : Bool
  deriving DecidableEq, Repr

/-- What a name or register receives when an operation that is still owed completes. -/
structure Dest where
  name : BitVec 9
  count : BitVec 3
  lanes : Mask
  deriving DecidableEq, Repr

/-- A wait for a page: the fault code, the request it joined (0 for PAGE_S1), and whether it is served (20 R321). -/
structure PageWait where
  code : BitVec 8
  rid : Nat
  va : Nat
  served : Bool
  deriving DecidableEq, Repr

/-- Where a lane of a memory access stands (09 R180, R184). -/
inductive LaneStage where
  /-- Not yet translated and performed. -/
  | todo
  /-- A store lane that its own L1 shows and its home L2 has not yet accepted: the physical byte, and the expiry of the
  translation that chose it (15 R271; 20 R312). -/
  | early (host : Bool) (addr : Nat) (expiry : Option Nat)
  /-- A .b128 lane on a page in host memory of which one half is performed, with its page's kind and first byte, and the expiry
  of the translation that chose it (09 R174; 20 R312). -/
  | half (high uncached : Bool) (addr : Nat) (expiry : Option Nat)
  /-- Faulted or waiting behind: to be performed by replay from the operand log. -/
  | logged
  /-- Performed, or dropped. -/
  | done
  deriving DecidableEq, Repr

/-- One lane of a memory access: its address, its data words, and what it found. -/
structure AccLane where
  lane : Nat
  addr : Nat
  data : List Word
  stage : LaneStage
  deriving DecidableEq, Repr

/-- The operation of a class M access. -/
inductive AccOp where
  | ld | st | cwb | atom | cas | red | amaxp
  deriving DecidableEq, Repr

/-- A memory access issued and not yet complete (09 R180, 07 R137). -/
structure Acc where
  op : AccOp
  pc : PC
  word : InsnWord
  f : MF
  dest : Dest
  lanes : List AccLane
  entries : List Nat
  /-- Launch, block linear index and sr.warp of the issuing warp, and its number among the warp's buffered
  instructions (19 R303). -/
  launch : Nat
  bix : Nat
  wno : Nat
  stamp : Nat
  /-- The step at which it issued (14 R258). -/
  born : Nat
  deriving DecidableEq, Repr

/-- One entry of the operand log (09 R182). The operand block itself lies in the log area (09 R183). -/
structure LogEntry where
  acc : Nat
  wid : BitVec 64
  word : InsnWord
  pc : PC
  fmask : Mask
  lanepage : List (BitVec 2)
  pages : List (BitVec 36)
  codes : List (BitVec 8)
  served : BitVec 4
  used : BitVec 4
  seq : BitVec 8
  kind : BitVec 2
  behind : Bool
  valid : Bool
  rids : List Nat
  deriving DecidableEq, Repr

/-- Why lanes wait (01 R10; 07 R136, R139; 11 R239). -/
inductive WaitKind where
  /-- BARWAIT or BARSYNC on a group-table entry, until its phase differs from `phase`, the warp's lastphase at the wait; `sync`
  for one that follows the arrival of its own BARSYNC. -/
  | barrier (group : Nat) (phase sync : Bool) (dest : Dest)
  /-- FWAIT on a named fence: comparison, value, scope. -/
  | fence (id : Nat) (cmp : BitVec 2) (value : BitVec 64) (sy : Bool) (dest : Dest)
  /-- SLEEP until the time base reaches `wake`; `zero` marks a delay of 0 with its issue opportunity still owed. -/
  | sleep (wake : Nat) (zero : Bool)
  /-- Stopped at YIELD by a soft pre-emption request. -/
  | yield
  /-- A held class X instruction stopped at a page and issues again once the page is served (10 R203). -/
  | page (wait : PageWait)
  deriving DecidableEq, Repr

/-- A waiting fragment, the cycle at which it began to wait, and of a barrier wait whose phase has completed the status word that it
is due (01 R27). -/
structure Wait where
  lanes : Mask
  kind : WaitKind
  since : Nat
  due : Option Word := none
  deriving DecidableEq, Repr

/-- A suspended fragment: its lanes, the code of its fault, whether it already stands at the next PC, and whether a breakpoint
suspended it (07 R140). -/
structure Trap where
  lanes : Mask
  code : BitVec 8
  past : Bool
  bkpt : Bool := false
  deriving DecidableEq, Repr

/-- Why a warp's next issue is blocked (01 R20, 02 R48). -/
inductive StallKind where
  | scoreboard (name : Nat)
  | predicate
  /-- An allocation of so many new names (02 R47, R50). -/
  | allocation (slots : Nat)
  | operandLog
  | counter
  /-- A WAIT on the class counters, with its four limits: loads, stores, copies, tiles. -/
  | classCounters (loads stores copies tiles : Nat)
  | array
  | locks
  | ordering
  /-- A fetch or a constant fill that waits for its page. -/
  | fetch
  | constant
  | held
  deriving DecidableEq, Repr

/-- A blocked issue and the cycle at which it began. -/
structure Stall where
  kind : StallKind
  since : Nat
  deriving DecidableEq, Repr

/-- A wait of a fetch, or of a constant load's fill, for its page: the PC that waits, and the page (03 R65, R374). It
stands until the fetch or fill has walked again, whatever the warp's other fragments do. -/
structure FetchWait where
  const : Bool
  pc : PC
  wait : PageWait
  deriving DecidableEq, Repr

/-- How a lane came to its PC by a transfer not yet checked: the PC of the transferring instruction, and bits [63:48] of
the target (03 R68, R69; 07 R134). -/
structure Arrival where
  source : PC
  high : BitVec 16
  deriving DecidableEq, Repr

/-- A warp and everything it owns (01 R8, R9, R17; 07 R137; 21 R337). -/
structure Warp where
  wid : BitVec 64
  seq : BitVec 32
  ctx : Nat
  launch : Nat
  block : Nat
  number : Nat
  live : Mask
  pcs : List PC
  /-- The lanes that have arrived by a transfer not yet checked. -/
  arrivals : Tab Arrival
  preds : List Mask
  names : Tab NameCell
  kregs : List Word
  aflags : BitVec 8
  mrow : BitVec 32
  /-- The arithmetic flags of the rows that a matrix instruction committed before it stopped, due at its retirement (05 R112; 06
  R125). -/
  mflags : BitVec 8
  /-- Ended operations whose status nothing has read: whether of class X, and the name that holds it, 511 for none (11 R225; 14
  R259; 15 R281). -/
  unread : List (Bool × Nat)
  loads : Nat
  stores : Nat
  copies : Nat
  tiles : Nat
  log : Tab LogEntry
  logseq : Nat
  accs : Tab Acc
  accseq : Nat
  waits : List Wait
  traps : List Trap
  lastphase : Tab Bool
  halted : Bool
  /-- What blocks its next issue (01 R20, 02 R48). -/
  stall : Option Stall
  /-- Blocked on synchronisation by a stall of 4,096 cycles (02 R48). -/
  timeout : Bool
  /-- Fetches and constant fills of its fragments that wait for pages (03 R65, R374). -/
  fetches : List FetchWait
  /-- The cycle at which it entered the pending set (01 R20). -/
  queued : Nat
  /-- The cycle of its last issue or precise fault, before which its next issue was not blocked (01 R20). -/
  ran : Nat
  evicted : Bool
  /-- Chosen for eviction and waiting for its accesses; it issues no more (02 R52). -/
  leaving : Bool
  /-- Number of names in the scree record while evicted (02 R54). -/
  screeNames : Nat
  /-- Lanes that ignore watchpoints for one instruction (21 R332). -/
  noWatch : Mask
  buffered : Nat
  deriving DecidableEq, Repr

/-- One stratum (06 R115, R117, R118). The image is kept in units of 256 bytes: 0 to 63 weights, 64 up the scale table. -/
structure Stratum where
  state : Residency
  bfmt : Nat
  scale : Nat
  image : Tab (List Byte)
  deriving DecidableEq, Repr

/-- How far a class X operation has come (10 R201, R203). -/
inductive XStage where
  /-- Waiting for its place in the issue order. -/
  | queued
  /-- Its effect is under way. -/
  | running
  /-- Waiting for a page. -/
  | page (wait : PageWait)
  /-- A unit was asked of a peer at the stamp; the answer is owed (23 R355). -/
  | sent (stamp : Nat)
  /-- A unit was answered STALE and waits for the time (23 R355). -/
  | stale (validfrom : Nat)
  deriving DecidableEq, Repr

/-- A class X operation in the core's issue order that has not ended (06 R120, 10 R200). -/
structure XOp where
  slot : Nat
  wid : BitVec 64
  ctx : Nat
  instr : Instr
  pc : PC
  /-- The operands as read at issue: address pair, tag vector, row scales. -/
  base : BitVec 64
  tag : Word
  rs : Word
  dest : Dest
  /-- The format slot's value and the seed k63 at issue (05 R104, R105). -/
  fmt : BitVec 64
  seed : Word
  stage : XStage
  /-- Rows, blocks' rows or units done (06 R125, 10 R203). -/
  units : Nat
  contrib : Nat
  skipped : Bool
  corrected : Bool
  /-- The unit that has been answered STALE once. -/
  staleUnit : Option Nat
  /-- Strata that are non-resident to this issue (06 R120). -/
  nonres : List Nat
  /-- Flags of the rows that ACCST has written. -/
  flags : BitVec 8
  /-- The stratum that SSTORE read at its place in the issue order. -/
  copy : Option Stratum
  /-- Tag bytes (at 2m) and row scales (at 2m + 1) that the current row or block has read already (06 R121, R123; 10 R202). -/
  row : Tab Word
  /-- Words of the current unit's or row's source that are read already, by their keys (10 R202; 14 R263). -/
  got : Tab Word
  deriving DecidableEq, Repr

/-- A line of an L1 data cache, tagged with its context, and the last hint that marked it (09 R178; 14 R258). -/
structure L1Line where
  ctx : Nat
  host : Bool
  addr : Nat
  bytes : List Byte
  hint : BitVec 2
  deriving DecidableEq, Repr

/-- A line of a constant cache, at its virtual address in the context of the launch that filled it (14 R257). -/
structure ConstLine where
  launch : Nat
  addr : Nat
  bytes : List Byte
  deriving DecidableEq, Repr

/-- A line that its home L2 holds: the set of 16 ways that it occupies, by home slice × 4,096 + number in the slice, the bytes
in it that the memory behind does not have yet, and its hint. Its bytes are those of `dev` or `host` (09 R178, R192; 14 R260;
23 R346). -/
structure L2Line where
  host : Bool
  addr : Nat
  set : Nat
  dirty : BitVec 128
  hint : BitVec 2
  deriving DecidableEq, Repr

/-- One watchpoint (21 R334). -/
structure Watch where
  addr : Nat
  len : Nat
  mask : BitVec 3
  deriving DecidableEq, Repr

/-- A byte range of a space: 0 global (with its context), or the scratchpad of core `space - 1`. -/
structure Range where
  space : Nat
  lo : Nat
  hi : Nat
  write : Bool
  deriving DecidableEq, Repr

/-- One entry of a range-lock table: the operation and the ranges it holds there (11 R224). -/
structure Lock where
  op : Nat
  ctx : Nat
  ranges : List Range
  deriving DecidableEq, Repr

/-- A core's schedule table (19 R300, R301). -/
structure SchedTable where
  launch : Nat
  cursor : Nat
  tail : Nat
  entries : List (BitVec 64)
  /-- The cycle of the last STEAL that the table answered (19 R301). -/
  stolen : Option Nat
  deriving DecidableEq, Repr

/-- One core. -/
structure Core where
  warps : Tab Warp
  /-- The active set in rotation order (01 R19). -/
  active : List Nat
  /-- The pending set, longest waiting first (01 R20). -/
  pending : List Nat
  /-- Context slots 0 to 7 and the contexts that hold them (02 R50). -/
  ctxSlots : Tab Nat
  /-- Admission-sequence counters by context (01 R18). -/
  admission : Tab (BitVec 32)
  /-- Slot quotas in force by context, and whether WRSR set them (02 R46, R56). -/
  quotas : Tab (Nat × Bool)
  lastLaunch : Option Nat
  /-- The cycle of its last issue and the warps that have issued in it, first to last (01 R19, R373; 24 R367). -/
  issued : Option (Nat × List Nat)
  l1 : List L1Line
  consts : List ConstLine
  locks : List Lock
  watches : Tab (Tab Watch)
  sched : Option SchedTable
  owner : Option Nat
  /-- The owner has given up the array, and operations that it has left behind are still under way (06 R114). -/
  arrayLeft : Bool
  strata : Tab Stratum
  /-- Rows of the accumulator tiles, by tile × 256 + row, and of the gradient strata, by stratum × 128 + row; a row that is
  not listed is zero. -/
  tiles : Tab (List Word)
  grads : Tab (List Word)
  xq : Tab XOp
  xseq : Nat
  deriving DecidableEq, Repr

/-- One group-table entry (01 R24), with the block it belongs to. -/
structure GroupEntry where
  block : Nat
  status1 : Word
  status0 : Word
  phase : Bool
  arrived : Nat
  expected : Nat
  dropped : BitVec 128
  arrivedmask : BitVec 128
  members : BitVec 128
  deriving DecidableEq, Repr

/-- A resident block (01 R14 to R16). -/
structure Block where
  launch : Nat
  index : Nat
  cores : List Nat
  scratchOff : Nat
  scratchSize : Nat
  /-- Cluster and entry numbers of its groups, by block-local index (01 R22). -/
  groups : List (Nat × Nat)
  position : Nat
  deriving DecidableEq, Repr

/-- A record of the deterministic-mode reduction buffer (19 R303), with the context it is applied in. -/
structure RedRecord where
  target : Nat
  value : Word
  op : Nat
  lane : Nat
  warp : Nat
  block : Nat
  issue : Nat
  element : Nat
  deriving DecidableEq, Repr

/-- A launch the command processor has taken (19 R288, R290). -/
structure Launch where
  part : Nat
  ctx : Nat
  fn : Nat
  queue : Nat
  record : List Byte
  recAddr : Nat
  ident : BitVec 20
  state : Nat
  reason : Nat
  grid : Nat × Nat × Nat
  startt : Nat
  endt : Nat
  next : Nat
  ended : Nat
  fmts : List (BitVec 64)
  /-- The grid fence condition has been observed, and the grid words have been read (19 R297). -/
  gridSeen : Bool
  gridRead : Bool
  /-- The completion fence has been updated, or none is asked for (19 R296). -/
  closed : Bool
  /-- The step of its last block admission (19 R294). -/
  turn : Nat
  /-- Blocks admitted to each position (19 R299, R302). -/
  placed : Tab Nat
  buffer : List RedRecord
  accepted : Nat
  overflow : Bool
  deriving DecidableEq, Repr

/-- A context descriptor as the device last read it (21 R328). -/
structure Desc where
  root1 : BitVec 64
  root2 : BitVec 64
  screeBase : Nat
  screeStride : Nat
  privileged : Bool
  debug : Bool
  saveBase : Nat
  saveStride : Nat
  storeCount : Nat
  storeBase : Nat
  grace : Nat
  kill : Nat
  lode : List (Nat × Nat)
  hs : Nat
  deriving DecidableEq, Repr

/-- A store access moved out of a warp at exit (21 R333): its context's entry, still owed lanes. -/
structure StoreFault where
  acc : Acc
  entry : LogEntry
  core : Nat
  block : Nat
  deriving DecidableEq, Repr

/-- What a save leaves for restore on one core, beside the images in memory (21 R337). -/
structure Saved where
  core : Nat
  warps : Tab Warp
  admission : BitVec 32
  watches : Tab Watch
  strata : Tab Stratum
  tiles : Tab (List Word)
  grads : Tab (List Word)
  hasArray : Bool
  sched : Option SchedTable
  deriving DecidableEq, Repr

/-- A context in a partition (21 R328, R335). `pre` is the pre-emption state of R335. -/
structure Ctx where
  part : Nat
  number : Nat
  fn : Nat
  desc : Desc
  launchSeq : Nat
  pre : Nat
  reqTime : Nat
  haltTime : Nat
  storeFaults : Tab StoreFault
  saved : List Saved
  savedGroups : Tab GroupEntry
  savedBlocks : Tab Block
  deriving DecidableEq, Repr

/-- The kind of a page (20 R308). -/
inductive PKind where
  | localMem | peer | host | uncached
  deriving DecidableEq, Repr

/-- A cached translation with its expiry; `none` never expires (20 R311). -/
structure TlbItem where
  unit : TUnit
  ctx : Nat
  va : Nat
  size : Nat
  pa : Nat
  kind : PKind
  peerhi : BitVec 7
  poison : Bool
  user : Bool
  exec1 : Bool
  write1 : Bool
  guest : Bool
  exec2 : Bool
  write2 : Bool
  gpa : Nat
  expiry : Option Nat
  /-- Lease code 0: usable by one access only (20 R310). -/
  once : Bool
  /-- Ticks from the walk to the expiry (20 R313). -/
  lease : Nat
  deriving DecidableEq, Repr

/-- A walk-cache item: one entry of a table as it was read, with its expiry (20 R311). -/
structure WalkItem where
  unit : TUnit
  ctx : Nat
  addr : Nat
  value : BitVec 64
  expiry : Option Nat
  deriving DecidableEq, Repr

/-- The kind of a vein-engine operation. -/
inductive EngKind where
  | copy | gather | scatter | put | get | red | sort
  deriving DecidableEq, Repr

/-- How far a vein-engine operation has come (11 R223, R224). -/
inductive EngStage where
  /-- Waits for an earlier operation whose locked ranges conflict. -/
  | locked
  | running
  | page (wait : PageWait)
  /-- A unit was sent to a peer at the stamp; the answer is owed (23 R355). -/
  | sent (stamp : Nat)
  /-- A unit was answered STALE and waits for the time (23 R355). -/
  | stale (validfrom : Nat)
  deriving DecidableEq, Repr

/-- A vein-engine or sorter operation whose status is not yet written (11 R219). -/
structure EngOp where
  kind : EngKind
  core : Nat
  slot : Nat
  wid : BitVec 64
  ctx : Nat
  block : Nat
  engine : Nat
  pc : PC
  dst : Nat
  src : Nat
  /-- Length in bytes, or the count of VGATHER, VSCATTER and SORT. -/
  len : Nat
  index : Word
  dspace : Nat
  sspace : Nat
  amod : BitVec 3
  rowsz : Nat
  peer : BitVec 8
  desc : Bool
  dest : Dest
  units : Nat
  stage : EngStage
  corrected : Bool
  /-- The unit that has been answered STALE once. -/
  staleUnit : Option Nat
  /-- The source bytes, read before any write when the ranges overlap (11 R226); a sort's keys and values in order (11 R232); what
  the peers of the current unit have answered (11 R229). -/
  buffer : Option (List Byte)
  /-- Words of the current unit's source that are read already, by their keys (11 R225; 14 R263). -/
  got : Tab Word
  /-- Bytes of the current unit that are moved already, where its destination's leaves differ (11 R228, R229). -/
  moved : Nat
  /-- The second piece of the current unit is moved before the first, since only a peer on another device can refuse it. -/
  swap : Bool
  /-- VCANCEL has asked the operation to end at its unit boundary (11 R231). -/
  cancelled : Bool
  /-- Watchpoints already reported, as core × 8 + number (21 R334). -/
  watched : List Nat
  /-- Launch, block linear index, sr.warp and number among the warp's buffered instructions (19 R303). -/
  launch : Nat
  bix : Nat
  wno : Nat
  issue : Nat
  deriving DecidableEq, Repr

/-- The answer to a fabric packet (23 R354). -/
inductive Answer where
  | ok (data : List Byte)
  | stale (validfrom : Nat)
  | nack (code : BitVec 8)
  deriving DecidableEq, Repr

/-- A 512-bit event record (21 R329). -/
structure EvRec where
  time : BitVec 64
  wid : BitVec 64
  pc : PC
  aux : PC
  addr : BitVec 64
  fmask : Mask
  sibmask : Mask
  lanemask : Mask
  info : Word
  core : BitVec 8
  unit : BitVec 4
  engine : BitVec 8
  srcdev : BitVec 15
  context : BitVec 12
  vf : BitVec 8
  kind : BitVec 8
  flags : BitVec 8
  code : BitVec 8
  deriving DecidableEq, Repr

/-- A record that waits to be posted: the function page of its queue, and the cycle in which it came (21 R330, R331). -/
structure HeldRec where
  fn : Nat
  cycle : Nat
  /-- The number of the next page request when it came: work with a lower one had faulted before (21 R331). -/
  rid : Nat
  record : EvRec
  deriving DecidableEq, Repr

/-- What a queue entry that has begun still has to do before it is complete (19 R293). -/
inductive QWork where
  | launch (n : Nat)
  /-- A rejected launch: it never completes. -/
  | rejected
  | wait (id cmp : Nat) (value : BitVec 64)
  deriving DecidableEq, Repr

/-- A LAUNCH that the command processor has still to serve: its record's address and its queue, the warp that issued it, the
destination that is owed its status, and the record once it is read (11 R237; 19 R288). -/
structure LaunchReq where
  addr : Nat
  queue : Nat
  core : Nat
  slot : Nat
  wid : BitVec 64
  dest : Dest
  record : Option (List Byte)
  /-- Its number among the partition's. -/
  number : Nat
  deriving DecidableEq, Repr

/-- A queue descriptor and the command processor's place in it (19 R291, R292, R293). -/
structure Queue where
  base : BitVec 64
  log2 : Nat
  prio : Nat
  process : Nat
  enable : Bool
  ctx : Nat
  head : BitVec 32
  tail : BitVec 32
  stopped : Bool
  /-- Entries begun and not complete, by index. -/
  work : List (BitVec 32 × QWork)
  /-- The launch record of the entry at its head, once it is read (19 R288). -/
  record : Option (List Byte)
  deriving DecidableEq, Repr

/-- A function's configuration page (19 R291; 20 R305, R314, R322; 21 R328, R330, R332, R335). -/
structure FnPage where
  part : Nat
  queues : Tab Queue
  weights : Tab Nat
  slice : Nat
  ctxTable : BitVec 64
  evBase : BitVec 64
  evLog2 : Nat
  evHead : BitVec 32
  evTail : BitVec 32
  evLost : BitVec 32
  /-- A record of this queue was dropped, so the next one carries flag 13 (21 R331). -/
  evDropped : Bool
  resumePc : BitVec 64
  lastCtx : Nat
  deriving DecidableEq, Repr

/-- The work of a command processor that waits for a page: the entry at the head of a queue, a warp's LAUNCH by its number, a launch
under way, or the status write of a launch (20 R321, R326). -/
inductive CpWork where
  | entry (fn q : Nat)
  | request (number : Nat)
  | launch (n : Nat)
  | status (n : Nat)
  deriving DecidableEq, Repr

/-- The wait of some work of a command processor for a page of a context: each fault joined to a page is served or refused by
itself (20 R326). -/
structure CpWait where
  work : CpWork
  ctx : Nat
  page : PageWait
  deriving DecidableEq, Repr

/-- A partition (24 R360; 14 R262; 19 R295; 20 R325; 23 R352, R353). -/
structure Part where
  first : Nat
  size : Nat
  fences : Tab (BitVec 64)
  window : Tab Nat
  mapBase : BitVec 64
  mapLog2 : Nat
  peerIndex : Option (BitVec 15)
  telemetry : BitVec 64
  tableBase : BitVec 64
  tableCount : Nat
  counters : Tab Nat
  /-- The 100,000-tick period of its last telemetry image (24 R367). -/
  snapshot : Nat
  requests : List LaunchReq
  /-- The number of the next LAUNCH. -/
  reqseq : Nat
  /-- Contexts with a lode copy under way, with its function page × 64 + queue (19 R293). -/
  copying : List (Nat × Nat)
  /-- Pages that reads and writes of the command processor wait for, with their contexts (20 R321). -/
  cpWaits : List CpWait
  /-- Launches whose status is still to be written (19 R290). -/
  statusOwed : List Nat
  serving : Option Nat
  sliceEnd : Nat
  deficit : Tab Nat
  deriving DecidableEq, Repr

/-- An outstanding page request (20 R323, R325). -/
structure PReq where
  rid : Nat
  seq : Nat
  vf : Nat
  part : Nat
  ctx : Nat
  gpa : Nat
  va : Nat
  time : Nat
  unit : TUnit
  kinds : BitVec 4
  deriving DecidableEq, Repr

/-- A line read that may merge (14 R263): of a load, a PREF, an engine's source, or a class X operand. Each names its core. -/
inductive Reader where
  | load (core slot acc : Nat)
  | prefetch (core ctx : Nat) (host : Bool) (addr : Nat) (hint : BitVec 2)
  | engine (core op : Nat)
  | array (core op : Nat)
  deriving DecidableEq, Repr

/-- An open merge at a home L2 (14 R263): its line, the reads in it, the cycle it forms. -/
structure Merge where
  slice : Nat
  line : Nat
  reads : List Reader
  formed : Nat
  deriving DecidableEq, Repr

/-- One band: floor, ceiling, weight (24 R365). -/
structure Band where
  floor : Nat
  ceiling : Nat
  weight : Nat
  deriving DecidableEq, Repr

/-- The boot page (23 R348). -/
structure Boot where
  state : Nat
  reason : Nat
  image : BitVec 64
  len : BitVec 32
  enabled : BitVec 6
  request : BitVec 64
  responses : Nat
  digest : List Byte
  version : Nat
  /-- The address and the length of the image under verification (23 R350). -/
  candidate : Option (Nat × Nat)
  deriving DecidableEq, Repr

/-- The module management block (24 R359). -/
structure Mgmt where
  slices : Tab Nat
  engines : Tab Nat
  functions : Tab Nat
  stSlices : Tab Nat
  stEngines : Tab Nat
  stFunctions : Tab Nat
  applyState : Nat
  applyReason : Nat
  bandBase : BitVec 64
  bandStatus : Nat
  bands : Tab Band
  /-- Bands loaded in a window, which take effect at the next one (24 R365). -/
  bandsNew : Option (Nat × Tab Band)
  /-- The last window allocated, by resource × 256 + domain. -/
  bandAt : Tab Nat
  shares : Tab Nat
  cap : Nat
  watts : Nat
  /-- The 1,000,000-tick window of the last power reading (24 R370). -/
  powerAt : Nat
  temps : Tab Nat
  clock : Nat
  idle : Bool
  rasBase : BitVec 64
  rasLog2 : Nat
  rasTail : BitVec 32
  rasLost : BitVec 32
  rasUsed : BitVec 32
  deriving DecidableEq, Repr

/-- A cached entry of a partition's fabric map (20 R310; 23 R353). -/
structure MapItem where
  part : Nat
  addr : Nat
  ctx : Nat
  lo : BitVec 64
  hi : BitVec 64
  expiry : Option Nat
  deriving DecidableEq, Repr

/-- What a cache may give up by itself, by its place in the cache's list (DESIGN CHOICE, log 13). -/
inductive Cached where
  | l1 (core i : Nat)
  | const (core i : Nat)
  | l2 (i : Nat)
  | tlb (i : Nat)
  | walk (i : Nat)
  | map (i : Nat)
  deriving DecidableEq, Repr

/-- Which agent moves: a warp issues, the issue slots of some cores in one cycle go to their first ready warps (01 R19), an event takes place, ticks and cycles pass, a cache gives something up, an operation
reads a word of its current unit before the rest (10 R202; 11 R225), the boot ROM ends its verification (23 R350), the host
changes its memory (23 R346), or an access to BAR0 of the physical function or of a virtual function arrives: its offset, its
size in bytes, and the value that it writes (23 R344). -/
inductive Turn where
  | issue (core slot : Nat)
  | cycle (cores : List Nat)
  | event (e : Instr)
  | pass (ticks cycles : Nat)
  | giveUp (x : Cached)
  | early (r : Reader) (word : Nat)
  | verify
  | hostWrite (addr : Nat) (data : List Byte)
  | bar (vf : Option Nat) (addr size : Nat) (value : Option (BitVec 64))
  deriving DecidableEq, Repr

/-- The warp at the issue port and the zero bits [15:9] of the line it issues from (03 R66). Where another warp of its core
issues in the same cycle and has its allocation decided first, the other's entry and its new slots stand in `ahead`; and `granted`
says that this one's allocation has been decided already (02 R50). -/
structure Sel where
  core : Nat
  slot : Nat
  zero : BitVec 7
  granted : Bool := false
  ahead : Option (Nat × Nat) := none
  deriving DecidableEq, Repr

/-- Lanes that are dropped once the record that reports them is posted: of a page of a warp's log entry, or of a context's
store-fault entry (09 R184; 21 R331, R333). -/
inductive DropOf where
  | log (core slot : Nat) (wid : BitVec 64) (entry page : Nat)
  | store (ctx entry page : Nat)
  deriving DecidableEq, Repr

/-- The whole module. Contexts are keyed by partition × 4,096 + number, function pages by virtual function, or by
256 + partition for the physical function's page there, group entries by slice × 256 + entry. -/
structure State where
  turns : List Turn
  steps : Nat
  sel : Sel
  /-- The cycle, core and slot of the last drops that an exited warp made on its groups (01 R29, R30). -/
  dropAt : Option (Nat × Nat × Nat)
  time : Nat
  dieDev : Tab Int
  checked : Nat
  cycle : Nat
  dev : Memory
  dram : Memory
  host : Memory
  hostBehind : Memory
  /-- The lines that the home L2s hold, longest held first (14 R260). A line that none holds is in `dev` or `host` as in the
  memory behind. -/
  l2 : List L2Line
  poison : List Nat
  spad : Memory
  lode : Memory
  busy : Tab Bool
  merges : List Merge
  linkModules : BitVec 8
  sideband : Bool
  /-- The compute dies are held in reset by heat (24 R370). -/
  diesHeld : Bool
  boot : Boot
  minVersion : Nat
  raise : Option Nat
  mgmt : Mgmt
  /-- Bytes moved on the shared resources, by partition × 2,048 + virtual function (192: the physical one) × 8 + resource
  (24 R364, R367). -/
  bytes : Tab Nat
  parts : Tab Part
  fns : Tab FnPage
  ctxs : Tab Ctx
  launches : Tab Launch
  blocks : Tab Block
  cores : Tab Core
  groups : Tab GroupEntry
  tlb : List TlbItem
  walks : List WalkItem
  maps : List MapItem
  engs : Tab EngOp
  engseq : Nat
  preqs : Tab PReq
  preqSeqs : Tab Nat
  preqHeld : List PReq
  preqTurn : Nat
  ridseq : Nat
  /-- Records held by units (kinds 0 to 3) and by the hub buffer (kinds 4 to 10), in the order in which they are posted. -/
  evHeld : List HeldRec
  /-- Lanes that wait for their record among `evHeld` before they are dropped (21 R331). -/
  dropsOwed : List (EvRec × DropOf)
  /-- Accepted answers to page requests, by partition, request and code, that some work may still have to meet once an earlier record is posted
  (21 R331). -/
  replies : List (Nat × Nat × BitVec 8)
  /-- Packets sent on the fabric, and answers given to inbound ones, by partition. -/
  sent : List (Nat × Packet)
  answers : List (Nat × Answer)
  /-- Fabric links that have gone down (23 R352). -/
  downLinks : List Nat
  msix : List (Nat × Nat)
  deriving DecidableEq, Repr

/-- A core with nothing in it. -/
def Core.reset : Core :=
  { warps := [], active := [], pending := [], ctxSlots := [], admission := [], quotas := [], lastLaunch := none,
    issued := none, l1 := [], consts := [], locks := [], watches := [], sched := none, owner := none, arrayLeft := false, strata := [], tiles := [],
    grads := [], xq := [], xseq := 0 }

/-- A stratum with nothing loaded (06 R114). -/
def Stratum.reset : Stratum := { state := .empty, bfmt := 0, scale := 0, image := [] }

/-- The boot page after reset (23 R350; DESIGN CHOICE, log 6, for the fields the manual gives no value). -/
def Boot.reset : Boot :=
  { state := 0, reason := 0, image := 0, len := 0, enabled := 0, request := 0, responses := 0,
    digest := [], version := 0, candidate := none }

/-- The management block after reset: every map byte 0xFF, which is an unlisted entry (24 R359). -/
def Mgmt.reset : Mgmt :=
  { slices := [], engines := [], functions := [], stSlices := [], stEngines := [], stFunctions := [], applyState := 0,
    applyReason := 0, bandBase := 0, bandStatus := 0, bands := [], bandsNew := none, bandAt := [], shares := [], cap := 0,
    watts := 0, powerAt := 0, temps := [], clock := 0, idle := false, rasBase := 0, rasLog2 := 0, rasTail := 0, rasLost := 0, rasUsed := 0 }

/-- A function page as an apply brings it into use (24 R359). -/
def FnPage.reset (part : Nat) : FnPage :=
  { part := part, queues := [], weights := [], slice := 0, ctxTable := 0, evBase := 0, evLog2 := 0, evHead := 0,
    evTail := 0, evLost := 0, evDropped := false, resumePc := 0, lastCtx := 0 }

/-- A queue descriptor that nothing has written. -/
def Queue.reset : Queue :=
  { base := 0, log2 := 0, prio := 0, process := 0, enable := false, ctx := 0, head := 0, tail := 0, stopped := false,
    work := [], record := none }

/-- A partition as it is formed (24 R361). -/
def Part.reset (first size : Nat) : Part :=
  { first := first, size := size, fences := [], window := [], mapBase := 0, mapLog2 := 0, peerIndex := none,
    telemetry := 0, tableBase := 0, tableCount := 0, counters := [], snapshot := 0, requests := [], reqseq := 0,
    copying := [], cpWaits := [], statusOwed := [], serving := none, sliceEnd := 0, deficit := [] }

/-- The module right after reset: the time base at 0 (20 R305), the boot page in state 0 (23 R350), no partition,
no context, no warp (24 R359, R371). No program runs from here until the outside boots the module, forms a
partition and submits a launch (log 1). -/
def State.reset : State :=
  { turns := [], steps := 0, sel := { core := 0, slot := 0, zero := 0 }, dropAt := none, time := 0, dieDev := [], checked := 0,
    cycle := 0, dev := [], dram := [], host := [], hostBehind := [], l2 := [], poison := [], spad := [],
    lode := [], busy := [], merges := [], linkModules := 0xFF, sideband := true, diesHeld := false, boot := Boot.reset,
    minVersion := 0, raise := none, mgmt := Mgmt.reset, bytes := [], parts := [], fns := [], ctxs := [], launches := [], blocks := [], cores := [],
    groups := [], tlb := [], walks := [], maps := [], engs := [], engseq := 0, preqs := [], preqSeqs := [], preqHeld := [],
    preqTurn := 0, ridseq := 1, evHeld := [], dropsOwed := [], replies := [], sent := [], answers := [], downLinks := [], msix := [] }

end Sys2Proof.Machine
end

