-- ==== Sys2Proof/Machine/Ops.lean ====
section
/-! DEFINITION. The named operations over memory, cores, warps, names and counts; taking a precise fault and resuming
from one. -/
namespace Sys2Proof.Machine

/-! ### Memory -/

/-- The byte at address `a`; an unlisted address reads zero (DESIGN CHOICE, log 5). -/
def Memory.read : Memory → Nat → Byte
  | [], _ => 0
  | (a', b) :: m, a => if a' = a then b else Memory.read m a

/-- A memory without an entry at `a`. -/
def Memory.drop : Memory → Nat → Memory
  | [], _ => []
  | (a', b) :: m, a => if a' = a then m else if a < a' then (a', b) :: m else (a', b) :: Memory.drop m a

/-- A memory with a nonzero byte set at `a`. -/
def Memory.insert : Memory → Nat → Byte → Memory
  | [], a, b => [(a, b)]
  | (a', b') :: m, a, b =>
    if a < a' then (a, b) :: (a', b') :: m else if a' = a then (a, b) :: m else (a', b') :: Memory.insert m a b

/-- Writes one byte, keeping the canonical form. -/
def Memory.write (m : Memory) (a : Nat) (b : Byte) : Memory := if b = 0 then m.drop a else m.insert a b

/-- The `n` bytes from `a` up. -/
def Memory.readN (m : Memory) (a : Nat) : Nat → List Byte
  | 0 => []
  | n + 1 => m.read a :: Memory.readN m (a + 1) n

/-- Writes bytes from `a` up. -/
def Memory.writeN (m : Memory) (a : Nat) : List Byte → Memory
  | [] => m
  | b :: bs => Memory.writeN (m.write a b) (a + 1) bs

/-- Addresses above `lo` strictly rise and no listed byte is zero. -/
def Memory.above : Memory → Nat → Bool
  | [], _ => true
  | (a, b) :: m, lo => decide (lo ≤ a) && b != 0 && Memory.above m (a + 1)

/-- The canonical form of a memory. -/
def Memory.wf (m : Memory) : Bool := m.above 0

/-- A little-endian number of `n` bytes (00 R372). -/
def Memory.nat (m : Memory) (a n : Nat) : Nat := leNat (m.readN a n)

/-- The number in bytes `off` to `off + n - 1` of a structure in memory (00 R372). -/
def fieldAt (bs : List Byte) (off n : Nat) : Nat := leNat ((bs.drop off).take n)

/-! ### Lists by index -/

/-- The list with element `i` replaced. -/
def setAt {α : Type} (l : List α) (i : Nat) (x : α) : List α := l.set i x

/-! ### Cores, warps, partitions -/

/-- Core `c`; a core that nothing has touched is as reset leaves it. -/
def State.core (s : State) (c : Nat) : Core := s.cores.getD c Core.reset

/-- The state with core `c` replaced. -/
def State.setCore (s : State) (c : Nat) (k : Core) : State := { s with cores := s.cores.put c k }

/-- Changes a core. -/
def State.modCore (s : State) (c : Nat) (f : Core → Core) : State := s.setCore c (f (s.core c))

/-- The warp in entry `w` of core `c`. -/
def State.warp? (s : State) (c w : Nat) : Option Warp := (s.core c).warps.get? w

/-- The state with the warp in entry `w` of core `c` replaced. -/
def State.setWarp (s : State) (c w : Nat) (x : Warp) : State :=
  let k := s.core c
  s.setCore c { k with warps := k.warps.put w x }

/-- The state with the warp of an entry changed, when there is one. -/
def State.modWarp (s : State) (c w : Nat) (f : Warp → Warp) : State :=
  match s.warp? c w with
  | some x => s.setWarp c w (f x)
  | none => s

/-- The slice of a core (00 R2). -/
def sliceOf (core : Nat) : Nat := core / 8

/-- The compute die of a core (00 R1). -/
def dieOf (core : Nat) : Nat := core / 64

/-- The partition that holds a slice, by number (24 R360). -/
def State.partOfSlice (s : State) (sl : Nat) : Option Nat :=
  (s.parts.find? fun p => decide (p.2.first ≤ sl) && decide (sl < p.2.first + p.2.size)).map (·.1)

/-- The partition that holds a core; partition 0 stands for an unassigned core, which runs nothing. -/
def State.partOfCore (s : State) (c : Nat) : Nat := (s.partOfSlice (sliceOf c)).getD 0

/-- A partition's record. -/
def State.part (s : State) (p : Nat) : Part := s.parts.getD p (Part.reset p 0)

/-- The state with a partition changed. -/
def State.modPart (s : State) (p : Nat) (f : Part → Part) : State := { s with parts := s.parts.put p (f (s.part p)) }

/-- The key of the physical function's page in partition `p`. -/
def pfKey (p : Nat) : Nat := 256 + p

/-- A function page. -/
def State.fn (s : State) (f : Nat) : FnPage := s.fns.getD f (FnPage.reset 0)

/-- The state with a function page changed. -/
def State.modFn (s : State) (f : Nat) (g : FnPage → FnPage) : State := { s with fns := s.fns.put f (g (s.fn f)) }

/-- The partition a function page acts in. -/
def State.fnPart (s : State) (f : Nat) : Nat := if 256 ≤ f then f - 256 else (s.fn f).part

/-- The key of context `n` of partition `p`. -/
def ctxKey (p n : Nat) : Nat := p * 4096 + n

/-- A descriptor with nothing granted. -/
def Desc.none : Desc :=
  { root1 := 0, root2 := 0, screeBase := 0, screeStride := 0, privileged := false, debug := false, saveBase := 0,
    saveStride := 0, storeCount := 0, storeBase := 0, grace := 100000, kill := 10000000, lode := [], hs := 320 }

/-- A context that nothing has read a descriptor for. -/
def Ctx.none (k : Nat) : Ctx :=
  { part := k / 4096, number := k % 4096, fn := pfKey (k / 4096), desc := Desc.none, launchSeq := 0, pre := 0, reqTime := 0,
    haltTime := 0, storeFaults := [], saved := [], savedGroups := [], savedBlocks := [] }

/-- The context of a key. -/
def State.ctx (s : State) (k : Nat) : Ctx := s.ctxs.getD k (Ctx.none k)

/-- The state with a context changed. -/
def State.modCtx (s : State) (k : Nat) (f : Ctx → Ctx) : State := { s with ctxs := s.ctxs.put k (f (s.ctx k)) }

/-- The time base as a reader on the die of core `c` sees it (20 R305). -/
def State.timeAt (s : State) (c : Nat) : Nat := ((s.time : Int) + s.dieDev.getD (dieOf c) 0).toNat

/-- A launch with nothing in its record. -/
def Launch.none : Launch :=
  { part := 0, ctx := 0, fn := 0, queue := 0, record := [], recAddr := 0, ident := 0, state := 0, reason := 0,
    grid := (0, 0, 0), startt := 0, endt := 0, next := 0, ended := 0, fmts := [], gridSeen := false,
    gridRead := false, closed := false, turn := 0, placed := [], buffer := [], accepted := 0, overflow := false }

/-- The launch of a number. -/
def State.launch (s : State) (l : Nat) : Launch := s.launches.getD l Launch.none

/-- The state with a launch changed, when it exists. -/
def State.modLaunch (s : State) (l : Nat) (f : Launch → Launch) : State :=
  match s.launches.get? l with
  | some x => { s with launches := s.launches.put l (f x) }
  | none => s

/-- Warps per block of a launch (01 R14). -/
def Launch.nwarps (l : Launch) : Nat := fieldAt l.record 20 2

/-- Cores per block of a launch (01 R15). -/
def Launch.shape (l : Launch) : Nat := fieldAt l.record 22 1

/-- A flag bit of a launch record (19 R288). -/
def Launch.flag (l : Launch) (i : Nat) : Bool := (fieldAt l.record 23 1).testBit i

/-- The high-water mark H of a launch (02 R45). -/
def Launch.hwm (l : Launch) : Nat := fieldAt l.record 24 2

/-- The high-water mark of a warp's own launch (02 R56). -/
def State.hwm (s : State) (w : Warp) : Nat := (s.launch w.launch).hwm

/-! ### Lanes, PCs and fragments -/

/-- The PC after `pc` in sequential execution (07 R130). -/
def nextPc (pc : PC) : PC := if (pc.extractLsb' 0 3).toNat < 4 then pc + 1 else pc - 4 + 64

/-- The PC of a lane. -/
def Warp.pc (w : Warp) (lane : Nat) : PC := w.pcs.getD lane 0

/-- Lanes suspended in traps (01 R10). -/
def Warp.suspended (w : Warp) : Mask := w.traps.foldl (fun m t => m ||| t.lanes) 0

/-- Lanes waiting or sleeping (01 R10). -/
def Warp.waiting (w : Warp) : Mask := w.waits.foldl (fun m t => m ||| t.lanes) 0

/-- The issuable lanes (01 R10); a halted warp has none (09 R184). -/
def Warp.issuable (w : Warp) : Mask := if w.halted then 0 else w.live &&& ~~~w.suspended &&& ~~~w.waiting

/-- The lowest of some PCs. -/
def lowestPc : List PC → Option PC
  | [] => none
  | p :: ps =>
    match lowestPc ps with
    | none => some p
    | some q => some (if p.toNat ≤ q.toNat then p else q)

/-- The fragment a warp issues for: the lowest PC among its issuable lanes, and the issuable lanes there (01 R11). -/
def Warp.fragment (w : Warp) : Option (PC × Mask) :=
  let m := w.issuable
  match lowestPc ((lanesOf m).map w.pc) with
  | none => none
  | some p => some (p, maskOf fun i => laneOn m i && w.pc i == p)

/-- The siblings of a trapping fragment: the other live lanes, at other PCs than its own `pc` (01 R13; 07 R140). -/
def Warp.siblings (w : Warp) (pc : PC) (lanes : Mask) : Mask :=
  maskOf fun i => laneOn (w.live &&& ~~~lanes) i && w.pc i != pc

/-- Predicate `p`; p7 is constant true (04 R72). -/
def Warp.pred (w : Warp) (p : Nat) : Mask := if p = 7 then fullMask else w.preds.getD p 0

/-- Sets predicate `p` in the given lanes only (07 R132). -/
def Warp.setPred (w : Warp) (p : Nat) (lanes value : Mask) : Warp :=
  { w with preds := (List.range 7).map fun j =>
      if j = p then (w.pred p &&& ~~~lanes) ||| (value &&& lanes) else w.preds.getD j 0 }

/-- Sets the PC of some lanes. -/
def Warp.setPcs (w : Warp) (lanes : Mask) (f : Nat → PC) : Warp :=
  { w with pcs := allLanes.map fun i => if laneOn lanes i then f i else w.pc i }

/-- Moves lanes to the next PC. -/
def Warp.advance (w : Warp) (lanes : Mask) : Warp := w.setPcs lanes fun i => nextPc (w.pc i)

/-- What is known of an issue: the warp, its fragment and PC, its active lanes (02 R38), the line's zero bits. -/
structure Env where
  core : Nat
  slot : Nat
  w : Warp
  pc : PC
  frag : Mask
  act : Mask
  zero : BitVec 7
  word : InsnWord
  /-- The cycle in which it issues. -/
  cycle : Nat
  deriving DecidableEq, Repr

/-- The issue of a word with header `h` by the warp at the issue port. -/
def env? (s : State) (h : Hdr) (word : InsnWord) : Option Env :=
  match s.warp? s.sel.core s.sel.slot with
  | none => none
  | some w =>
    if w.evicted then none else
    match w.fragment with
    | none => none
    | some (pc, frag) =>
      let g := w.pred h.guard.toNat
      some { core := s.sel.core, slot := s.sel.slot, w := w, pc := pc, frag := frag,
             act := frag &&& (if h.negate then ~~~g else g), zero := s.sel.zero, word := word, cycle := s.cycle }

/-! ### Names and counts (02 R35 to R43) -/

/-- Whether a 9-bit name is one of v0 to v319. -/
def isV (n : Nat) : Bool := decide (n < 320)

/-- Whether a 9-bit name is one of k0 to k63. -/
def isK (n : Nat) : Bool := decide (384 ≤ n) && decide (n < 448)

/-- A cell with nothing in it. DESIGN CHOICE (log 5): the lanes of a slot that nothing has written hold zero. -/
def NameCell.fresh : NameCell :=
  { data := allLanes.map fun _ => 0, counts := allLanes.map fun _ => 0, pending := false }

/-- The count of a lane of a name (02 R36). -/
def Warp.count (w : Warp) (n lane : Nat) : BitVec 3 :=
  match w.names.get? n with
  | some c => c.counts.getD lane 0
  | none => 0

/-- Whether a write to a name is still owed. -/
def Warp.pendingName (w : Warp) (n : Nat) : Bool :=
  match w.names.get? n with
  | some c => c.pending
  | none => false

/-- The value a source name gives in a lane: a vector name, a uniform register, or zero (04 R76). -/
def Warp.val (w : Warp) (n lane : Nat) : Word :=
  if isV n then
    match w.names.get? n with
    | some c => c.data.getD lane 0
    | none => 0
  else if isK n then w.kregs.getD (n - 384) 0
  else 0

/-- A 64-bit source: low word at the even name (02 R37). -/
def Warp.val64 (w : Warp) (n lane : Nat) : BitVec 64 :=
  if n = 511 then 0 else w.val (n + 1) lane ++ w.val n lane

/-- The constituents of a source or destination of `k` names (02 R37); name 511 has none. -/
def constituents (n : BitVec 9) (k : Nat) : List Nat :=
  if n.toNat = 511 then [] else (List.range k).map fun j => n.toNat + j

/-- How often a list of reads names `n`. -/
def readsOf (reads : List Nat) (n : Nat) : Nat := (reads.filter (· == n)).length

/-- The count a lane keeps after `k` reads, when it can be read so often (02 R40). -/
def afterReads (c : BitVec 3) (k : Nat) : Option (BitVec 3) :=
  if k = 0 then some c else if c = 7 then some 7 else if c.toNat < k then none else some (c - BitVec.ofNat 3 k)

/-- The count of a lane once the reads are taken; a lane that cannot be read so often stands at zero. -/
def Warp.countAfter (w : Warp) (reads : List Nat) (n lane : Nat) : BitVec 3 :=
  (afterReads (w.count n lane) (readsOf reads n)).getD 0

/-- The active lanes in which the reads of `n` cannot all be taken (02 R39). -/
def Warp.readFails (w : Warp) (reads : List Nat) (act : Mask) (n : Nat) : Mask :=
  maskOf fun i => laneOn act i && isV n && (afterReads (w.count n i) (readsOf reads n)).isNone

/-- A fault raised at issue: code, failing lanes, address and info for the record (21 R329). -/
structure Raise where
  code : BitVec 8
  lanes : Mask
  addr : BitVec 64
  info : Word
  deriving DecidableEq, Repr

/-- The fault codes of 21 R327. -/
def cRegExhausted : BitVec 8 := 0x01
def cRegLiveWrite : BitVec 8 := 0x02
def cRegOverdrop : BitVec 8 := 0x03
def cHwmExceeded : BitVec 8 := 0x04
def cIllegalConvergence : BitVec 8 := 0x05
def cTagMiss : BitVec 8 := 0x06
def cLineData : BitVec 8 := 0x07
def cBadTarget : BitVec 8 := 0x08
def cOpcodeReserved : BitVec 8 := 0x09
def cFieldReserved : BitVec 8 := 0x0A
def cScratchRange : BitVec 8 := 0x0B
def cRangeLockHit : BitVec 8 := 0x0C
def cPageS1 : BitVec 8 := 0x10
def cPageS2 : BitVec 8 := 0x11
def cPerm : BitVec 8 := 0x12
def cPeerPlain : BitVec 8 := 0x13
def cPeerNack : BitVec 8 := 0x14
def cPeerTimeout : BitVec 8 := 0x15
def cStale : BitVec 8 := 0x16
def cBarOverarrive : BitVec 8 := 0x18
def cBarDropped : BitVec 8 := 0x19
def cClockSkew : BitVec 8 := 0x20
def cUe : BitVec 8 := 0x21
def cIfetchUe : BitVec 8 := 0x22
def cSaveFault : BitVec 8 := 0x23
def cWatch : BitVec 8 := 0x28
def cSwTrap : BitVec 8 := 0x30

/-- Whether a code is replayable (21 R327). -/
def replayable (c : BitVec 8) : Bool := c == cPageS1 || c == cPageS2

/-- The first of some names with failing lanes, and every lane that fails at any of them (02 R41). -/
def firstFail (names : List Nat) (fails : Nat → Mask) : Option (Nat × Mask) :=
  match names.find? fun n => fails n != 0 with
  | none => none
  | some n => some (n, names.foldl (fun m k => m ||| fails k) 0)

/-- The fault of a failing count check: check 0 read, 1 management, 2 write, 3 high-water mark (21 R329). -/
def countRaise (code : BitVec 8) (check : Nat) (f : Nat × Mask) : Raise :=
  { code := code, lanes := f.2, addr := 0, info := BitVec.ofNat 32 (f.1 + 512 * check) }

/-- Destination names not yet bound: what the instruction allocates (02 R42). -/
def Warp.newNames (w : Warp) (dests : List Nat) (count : BitVec 3) (act : Mask) : List Nat :=
  if count = 0 ∨ act = 0 then [] else dests.filter fun n => isV n && !w.names.has n

/-- The checks of 02 R41 in their order; none passes. DESIGN CHOICE (log 82): the record of HWM_EXCEEDED carries every active
lane, and the first new name of a wide destination. -/
def Warp.countCheck (w : Warp) (hwm : Nat) (act : Mask) (reads dests : List Nat) (count : BitVec 3) : Option Raise :=
  match firstFail reads (w.readFails reads act) with
  | some f => some (countRaise cRegExhausted 0 f)
  | none =>
    let live := fun n => maskOf fun i =>
      laneOn act i && isV n && count != 0 && w.countAfter reads n i != 0 && w.countAfter reads n i != 7
    match firstFail dests live with
    | some f => some (countRaise cRegLiveWrite 2 f)
    | none =>
      let new := w.newNames dests count act
      match new with
      | [] => none
      | n :: _ =>
        if w.names.length + new.length > hwm then some (countRaise cHwmExceeded 3 (n, act)) else none

/-- Whether a cell keeps its slot: it is pending, or nonzero in some lane (02 R36, R42). -/
def NameCell.bound (c : NameCell) : Bool := c.pending || c.counts.any (· != 0)

/-- Frees every name that is neither pending nor nonzero in some lane (02 R36, R42). -/
def Warp.sweep (w : Warp) : Warp := { w with names := w.names.keep NameCell.bound }

/-- Changes one cell, binding it when it is not bound. -/
def Warp.modName (w : Warp) (n : Nat) (f : NameCell → NameCell) : Warp :=
  { w with names := w.names.put n (f (w.names.getD n NameCell.fresh)) }

/-- Sets the counts of some lanes of a cell. -/
def NameCell.setCounts (c : NameCell) (lanes : Mask) (f : Nat → BitVec 3) : NameCell :=
  { c with counts := allLanes.map fun i => if laneOn lanes i then f i else c.counts.getD i 0 }

/-- Sets the data of some lanes of a cell. -/
def NameCell.setData (c : NameCell) (lanes : Mask) (f : Nat → Word) : NameCell :=
  { c with data := allLanes.map fun i => if laneOn lanes i then f i else c.data.getD i 0 }

/-- Takes the reads of an instruction in its active lanes (02 R39). Nothing is freed yet. -/
def Warp.takeReads (w : Warp) (act : Mask) (reads : List Nat) : Warp :=
  { w with names := w.names.map fun c =>
      if readsOf reads c.1 = 0 then c
      else (c.1, c.2.setCounts act fun i => w.countAfter reads c.1 i) }

/-- The lowest active lane. -/
def lowLane (act : Mask) : Nat := (lanesOf act).headD 0

/-- Writes one destination name: a vector name in the active lanes with the declared count, or a uniform register
once (02 R38, 04 R78). DESIGN CHOICE (log 84): of active lanes whose results differ, and of their stochastic draws, a uniform
register takes the lowest lane's. -/
def Warp.writeName (w : Warp) (n : Nat) (count : BitVec 3) (act : Mask) (v : Nat → Word) : Warp :=
  if act = 0 then w
  else if isV n then
    if count = 0 then w else w.modName n fun c => (c.setData act v).setCounts act fun _ => count
  else if isK n then
    { w with kregs := (List.range 64).map fun j => if j = n - 384 then v (lowLane act) else w.kregs.getD j 0 }
  else w

/-- Writes the constituents of a destination, low word first. -/
def Warp.writeNames (w : Warp) (count : BitVec 3) (act : Mask) (v : Nat → List Word) : List Nat → Nat → Warp
  | [], _ => w
  | n :: ns, j => Warp.writeNames (w.writeName n count act fun i => (v i).getD j 0) count act v ns (j + 1)

/-- Binds a destination whose value is still owed (02 R42). -/
def Warp.bindPending (w : Warp) (act : Mask) (dests : List Nat) (count : BitVec 3) : Warp :=
  if act = 0 ∨ count = 0 then w
  else dests.foldl (fun w n => if isV n then w.modName n fun c => { c with pending := true } else w) w

/-- The lanes in which an owed destination is still written: those still live, or for a uniform destination, which is written
once, all of them while the warp has not exited (11 R219). -/
def Warp.owedLanes (w : Warp) (d : Dest) : Mask :=
  if isK d.name.toNat then (if w.live = 0 then 0 else d.lanes) else d.lanes &&& w.live

/-- Ends a stall of the kinds that hold of `p`. -/
def Warp.clearStall (w : Warp) (p : StallKind → Bool) : Warp :=
  match w.stall with
  | some t => if p t.kind then { w with stall := none, timeout := false } else w
  | none => w

/-- Whether a stall waits for one of some names. -/
def StallKind.onNames (ns : List Nat) : StallKind → Bool
  | .scoreboard n => ns.contains n
  | _ => false

/-- Completes an owed write in some lanes: data and counts there, pending cleared, empty names freed (02 R42, 07 R135). -/
def Warp.completeIn (w : Warp) (act : Mask) (d : Dest) (k : Nat) (v : Nat → List Word) : Warp :=
  let ns := constituents d.name k
  let w1 := w.writeNames d.count act v ns 0
  let w2 := if isV d.name.toNat && d.count != 0 then
    ns.foldl (fun w n => if w.names.has n then w.modName n fun c => { c with pending := false } else w) w1 else w1
  w2.sweep.clearStall (StallKind.onNames ns)

/-- Completes an owed write in the lanes that still take it. -/
def Warp.complete (w : Warp) (d : Dest) (k : Nat) (v : Nat → List Word) : Warp := w.completeIn (w.owedLanes d) d k v

/-- Undoes the allocation of an owed destination (10 R212). -/
def Warp.undoPending (w : Warp) (d : Dest) (k : Nat) : Warp :=
  if isV d.name.toNat && d.count != 0 then
    ((constituents d.name k).foldl (fun w n =>
      if w.names.has n then w.modName n fun c => { c with pending := false } else w) w).sweep
  else w

/-! ### Bedrock (02 R45 to R50) -/

/-- Whether sequence `a` is older than `b`: the signed difference modulo 2^32 (01 R18). -/
def olderSeq (a b : BitVec 32) : Bool := (a - b).toInt < 0

/-- Blocked on synchronisation (02 R48). -/
def Warp.syncBlocked (w : Warp) : Bool := w.live != 0 && (w.issuable == 0 || w.timeout)

/-- Slots a warp holds resident. -/
def Warp.resident (w : Warp) : Nat := if w.evicted then 0 else w.names.length

/-- The contexts with a warp on a core. -/
def Core.contexts (k : Core) : List Nat := (k.warps.map (·.2.ctx)).eraseDups

/-- The bedrock warp of a context on a core (02 R49). -/
def Core.bedrock (k : Core) (x : Nat) : Option (Nat × Warp) :=
  (k.warps.filter fun p => p.2.ctx == x && p.2.live != 0 && !p.2.syncBlocked).foldl
    (fun best p =>
      match best with
      | none => some p
      | some q => if olderSeq p.2.seq q.2.seq then some p else some q) none

/-- Slots context X holds resident on a core. -/
def Core.used (k : Core) (x : Nat) : Nat :=
  (k.warps.filter fun p => p.2.ctx == x).foldl (fun n p => n + p.2.resident) 0

/-- Free slots of the core's pool of 4,096 (02 R35). -/
def Core.freeSlots (k : Core) : Nat := 4096 - k.warps.foldl (fun n p => n + p.2.resident) 0

/-- The slot quota in force; 0 is no cap (02 R46). -/
def Core.quota (k : Core) (x : Nat) : Nat :=
  match (k.quotas.getD x (0, false)).1 with
  | 0 => 4096
  | q => q

/-- The reserve of a context (02 R50); none where it has no bedrock warp. -/
def State.reserve (s : State) (c x : Nat) : Nat :=
  match (s.core c).bedrock x with
  | none => 0
  | some (_, b) => s.hwm b - b.resident

/-- The sum of the reserves of a core's contexts. -/
def State.reserves (s : State) (c : Nat) : Nat :=
  (s.core c).contexts.foldl (fun n x => n + s.reserve c x) 0

/-- Whether `n` new slots are allocated to the warp in entry `slot` (02 R50). -/
def State.canAllocate (s : State) (c slot : Nat) (w : Warp) (n : Nat) : Bool :=
  let k := s.core c
  let x := w.ctx
  let bed := match k.bedrock x with
    | some (b, _) => b == slot
    | none => false
  if bed then decide (n ≤ k.freeSlots) && decide (k.used x + n ≤ k.quota x)
  else decide (s.reserves c + n ≤ k.freeSlots) && decide (k.used x + n + s.reserve c x ≤ k.quota x)

/-- The slots the warp could allocate without blocking (02 R47). -/
def State.allocatable (s : State) (c slot : Nat) (w : Warp) : Nat :=
  let k := s.core c
  let x := w.ctx
  let bed := match k.bedrock x with
    | some (b, _) => b == slot
    | none => false
  if bed then min k.freeSlots (k.quota x - k.used x)
  else min (k.freeSlots - s.reserves c) (k.quota x - s.reserve c x - k.used x)

/-! ### Owed writes -/

/-- The number of names a class M destination has (09 R174). -/
def widthNames (width : BitVec 3) : Nat := if width = 3 then 2 else if width = 4 then 4 else 1

/-- Destinations owed to the warp in an entry of a core by memory, engine and strata instructions (01 R20; 02 R48). -/
def State.asyncDests (s : State) (c slot : Nat) (w : Warp) : List (Dest × Nat) :=
  (w.accs.map fun a => (a.2.dest, widthNames a.2.f.width))
  ++ ((s.engs.filter fun o => o.2.core == c && o.2.slot == slot && o.2.wid == w.wid).map fun o => (o.2.dest, 1))
  ++ (((s.core c).xq.filter fun o => o.2.slot == slot && o.2.wid == w.wid).map fun o => (o.2.dest, 1))

/-- Whether some destinations hold a name. -/
def namesHold (ds : List (Dest × Nat)) (n : Nat) : Bool := ds.any fun d => (constituents d.1.name d.2).contains n

/-- Destinations still owed to the warp in an entry of a core, beside its pending names. -/
def State.owedDests (s : State) (c slot : Nat) (w : Warp) : List (Dest × Nat) :=
  s.asyncDests c slot w
  ++ (((s.part (s.partOfCore c)).requests.filter fun r => r.core == c && r.slot == slot && r.wid == w.wid).map fun r => (r.dest, 1))
  ++ w.waits.filterMap fun t => match t.kind with
      | .barrier _ _ _ d => some (d, 1)
      | .fence _ _ _ _ d => some (d, 2)
      | _ => none

/-- Whether a name or uniform register waits for a write (13 R244). -/
def State.busyName (s : State) (c slot : Nat) (w : Warp) (n : Nat) : Bool :=
  if isV n then w.pendingName n
  else isK n && namesHold (s.owedDests c slot w) n

/-- Whether an outstanding CAS or AMAXP is still to write a predicate (09 R180). -/
def Warp.busyPred (w : Warp) (p : Nat) : Bool :=
  p != 7 && w.accs.any fun a => (a.2.op == .cas || a.2.op == .amaxp) && a.2.f.pdst.toNat == p

/-! ### Event records (21 R329 to R331) -/

/-- A record with nothing in it. -/
def EvRec.zero : EvRec :=
  { time := 0, wid := 0, pc := 0, aux := 0, addr := 0, fmask := 0, sibmask := 0, lanemask := 0, info := 0, core := 0,
    unit := 0, engine := 0, srcdev := 0, context := 0, vf := 0, kind := 0, flags := 0, code := 0 }

/-- The vf field of a function page: 0xFF for the physical function (21 R329). -/
def vfField (fn : Nat) : BitVec 8 := if 256 ≤ fn then 0xFF else BitVec.ofNat 8 fn

/-- Where a record stands among those of its cycle: by core number, the hub's own last (21 R330). -/
def EvRec.place (r : EvRec) : Nat := if r.unit = 3 ∨ r.unit = 4 then 256 else r.core.toNat

/-- The records held, with a new one in its place. -/
def holdRecord (h : HeldRec) (l : List HeldRec) : List HeldRec :=
  let before := fun (e : HeldRec) => decide (e.cycle < h.cycle) || decide (e.record.place ≤ h.record.place)
  l.takeWhile before ++ h :: l.dropWhile before

/-- A state with one more record held. -/
def State.keepRecord (s : State) (fn : Nat) (r : EvRec) : State :=
  { s with evHeld := holdRecord { fn := fn, cycle := s.cycle, rid := s.ridseq, record := r } s.evHeld }

/-- The records in the hub buffer (21 R331). -/
def State.hubHeld (s : State) : Nat := (s.evHeld.filter fun e => decide (4 ≤ e.record.kind.toNat)).length

/-- Posts a record for a function's queue. Kinds 0 to 3 are held without limit; kinds 4 to 10 wait in the 64-entry
hub buffer and are dropped when it is full (21 R331). -/
def State.post (s : State) (fn : Nat) (r : EvRec) : State :=
  if r.kind.toNat ≤ 3 ∨ s.hubHeld < 64 then s.keepRecord fn r
  else s.modFn fn fun p =>
    { p with evDropped := true, evLost := if p.evLost = BitVec.allOnes 32 then p.evLost else p.evLost + 1 }

/-- A control error of a function page: kind 8 (21 R329), with the context it concerns, 0 where it concerns none. -/
def State.postError (s : State) (fn context : Nat) (addr : BitVec 64) (code : BitVec 8) (info : Word) : State :=
  s.post fn { EvRec.zero with time := BitVec.ofNat 64 s.time, addr := addr, unit := 3, vf := vfField fn, kind := 8,
                              context := BitVec.ofNat 12 context, code := code, info := info }

/-- A control error that no context and no code describe. -/
def State.postControl (s : State) (fn : Nat) : State := s.postError fn 0 0 0 0

/-- A record about a warp. -/
def State.warpRecord (s : State) (c : Nat) (w : Warp) (pc : PC) (lanes : Mask) (kind : BitVec 8) (r : Raise) : EvRec :=
  { EvRec.zero with
    time := BitVec.ofNat 64 (s.timeAt c), wid := w.wid, pc := pc, addr := r.addr, fmask := lanes,
    sibmask := w.siblings pc lanes, lanemask := r.lanes, info := r.info, core := BitVec.ofNat 8 c,
    context := BitVec.ofNat 12 w.ctx, vf := vfField (s.ctx w.ctx).fn, kind := kind, code := r.code }

/-! ### Taking a precise fault, and resuming -/

/-- Taking a precise fault (01 R13, 21 R332): the lanes are suspended where they stand, and a record of kind 0 is
posted with the PC and what failed. Nothing else changes. -/
def State.takeFault (s : State) (c slot : Nat) (lanes : Mask) (pc aux : PC) (past : Bool) (flags : BitVec 8)
    (r : Raise) : State :=
  match s.warp? c slot with
  | none => s
  | some w =>
    let rec_ := { s.warpRecord c w pc lanes 0 r with aux := aux, flags := flags }
    let s1 := s.setWarp c slot
      { w with traps := w.traps ++ [{ lanes := lanes, code := r.code, past := past, bkpt := flags.getLsbD 7 }], stall := none, timeout := false, ran := s.cycle }
    s1.post (s.ctx w.ctx).fn rec_

/-- A precise fault of the issuing fragment (04 R74). -/
def State.raise_ (s : State) (e : Env) (r : Raise) : State := s.takeFault e.core e.slot e.frag e.pc 0 false 0 r

/-- Ends the suspension of the trap that holds `lane`, and gives its lanes; the warp is otherwise unchanged. -/
def Warp.endTrap (w : Warp) (lane : Nat) : Option (Trap × Warp) :=
  match w.traps.find? fun t => laneOn t.lanes lane with
  | none => none
  | some t => some (t, { w with traps := w.traps.filter fun u => !laneOn u.lanes lane, timeout := false })

/-! ### Issue -/

/-- Records that the warp's next issue is blocked (01 R20, 02 R48). The instruction does not issue. DESIGN CHOICE (log 95): a block
of another kind, or on another name, than before begins now, so that its cycles are counted anew. -/
def State.stalled (s : State) (c slot : Nat) (k : StallKind) : State :=
  s.modWarp c slot fun w =>
    let fresh := { w with stall := some { kind := k, since := s.cycle }, timeout := false }
    match w.stall with
    | some t => if t.kind = k then w else fresh
    | none => fresh

/-- The page that a warp's fetch, or its constant load's fill, at a PC waits for (03 R65, R374). -/
def Warp.fetchWait (w : Warp) (const : Bool) (pc : PC) : Option PageWait :=
  (w.fetches.find? fun x => x.const == const && x.pc == pc).map (·.wait)

/-- The warp with the wait of a fetch or constant fill at a PC set, or ended. -/
def Warp.setFetch (w : Warp) (const : Bool) (pc : PC) (p : Option PageWait) : Warp :=
  let rest := w.fetches.filter fun x => !(x.const == const && x.pc == pc)
  { w with fetches := match p with
      | some p => rest ++ [{ const := const, pc := pc, wait := p }]
      | none => rest }

/-- The key of the bytes that a function of a partition has moved on a resource. The physical function has no place in a telemetry
image (24 R367). -/
def byteKey (p fn r : Nat) : Nat := 2048 * p + 8 * (if fn < 192 then fn else 192) + r

/-- Counts bytes that work of a context moves on a shared resource: 0 the host link, 1 the fabric, 2 the lode store, 3 the engines,
4 the channel groups (24 R364, R367; DEDUCED, log 68, for the point at which a byte counts). -/
def State.count (s : State) (x r n : Nat) : State :=
  let key := byteKey (x / 4096) (s.ctx x).fn r
  { s with bytes := s.bytes.put key ((s.bytes.getD key 0 + n) % 2 ^ 64) }

/-- Raises a telemetry counter of a partition, modulo 2^64 (24 R367). -/
def State.tally (s : State) (p key n : Nat) : State :=
  s.modPart p fun q => { q with counters := q.counters.put key ((q.counters.getD key 0 + n) % 2 ^ 64) }

/-- The warps of a core that have issued in a cycle, first to last. -/
def Core.issuedIn (k : Core) (cycle : Nat) : List Nat :=
  match k.issued with
  | some (t, slots) => if t = cycle then slots else []
  | none => []

/-- Counts an issue of a warp, in telemetry too: a core's cycle with an issue, once, for the partition and the function; and,
unless the instruction is held, an instruction retired (24 R367). -/
def State.countIssue (s : State) (c slot x : Nat) (held : Bool) : State :=
  let p := s.partOfCore c
  let fn := (s.ctx x).fn
  let before := (s.core c).issuedIn s.cycle
  let again := !before.isEmpty
  let s1 := s.modCore c fun k => { k with issued := some (s.cycle, before ++ [slot]) }
  let s2 := if again then s1 else (s1.tally p 8 1).tally p (296 + 128 * fn) 1
  if held then s2 else s2.tally p 16 1

/-- A field fault (04 R74 step 2). -/
def fieldRaise (lanes : Mask) : Raise := { code := cFieldReserved, lanes := lanes, addr := 0, info := 0 }

/-- What an instruction needs to issue: the names and predicates it reads or writes for the scoreboard, its reads
in field order, its destination names and count, and its own entry checks (04 R74). -/
structure Needs where
  fields : Bool
  privileged : Bool := false
  reads : List Nat := []
  peeks : List Nat := []
  dests : List Nat := []
  count : BitVec 3 := 0
  held : Bool := false
  preds : List Nat := []
  entry : Env → Option Raise := fun _ => none
  stalls : Env → Option StallKind := fun _ => none

/-- Ends the zero sleeps of a warp: another of its fragments issues, or none can (07 R139). -/
def Warp.wakeZero (w : Warp) : Warp :=
  let zero := fun (t : Wait) => match t.kind with
    | .sleep _ z => z
    | _ => false
  let lanes := (w.waits.filter zero).foldl (fun m t => m ||| t.lanes) 0
  if lanes = 0 then w else { w.advance lanes with waits := w.waits.filter fun t => !zero t }

/-- Whether a held class X instruction of the warp has not retired: it issues nothing further (10 R201). -/
def Warp.held (w : Warp) : Bool :=
  match w.stall with
  | some { kind := .held, since := _ } => true
  | _ => false

/-- The names whose pending writes an issue waits for. With no active lane nothing is read or written, and only the
uniform registers that the entry's checks read are waited for (02 R42; 04 R74). -/
def Needs.names (n : Needs) (act : Mask) : List Nat :=
  if act = 0 then (n.reads ++ n.peeks).filter fun r => decide (384 ≤ r) else n.reads ++ n.peeks ++ n.dests

/-- The first busy name of an issue, if any. -/
def State.busyOf (s : State) (e : Env) (n : Needs) : Option Nat :=
  (n.names e.act).find? (s.busyName e.core e.slot e.w)

/-- Why a fragment's instruction does not issue: a held instruction of its warp has not retired, its issue is blocked, or
a check fails. -/
inductive Hold where
  | stay
  | stall (kind : StallKind)
  | raise (r : Raise)
  deriving DecidableEq, Repr

/-- The state as an allocation is decided in: with the slots of one that is decided before it in the cycle (02 R50). -/
def State.ahead (s : State) (c : Nat) : State :=
  match s.sel.ahead with
  | none => s
  | some (o, n) => s.modWarp c o fun w =>
      { w with names := w.names ++ (List.range n).map fun j => (512 + j, NameCell.fresh) }

/-- Whether an issue gets `n` new slots: they were granted already, or the rule grants them now (02 R50). -/
def State.grants (s : State) (e : Env) (n : Nat) : Bool := s.sel.granted || (s.ahead e.core).canAllocate e.core e.slot e.w n

/-- What holds an instruction back, if anything (04 R74, 02 R41, R42): the guard's predicate, then the checks of the fields
and of privilege, the scoreboard, the entry's own checks, the counts, the instruction's own waits, and the slots it
allocates. -/
def State.hold (s : State) (h : Hdr) (n : Needs) (e : Env) : Option Hold :=
  if e.w.held then some .stay
  else if e.w.busyPred h.guard.toNat then some (.stall .predicate)
  else if !n.fields || e.zero != 0 || (h.guard == 7 && h.negate) then some (.raise (fieldRaise e.frag))
  else if n.privileged && !(s.ctx e.w.ctx).desc.privileged then
    some (.raise { code := cPerm, lanes := e.frag, addr := 0, info := 0xFF00 })
  else if e.act != 0 && n.preds.any e.w.busyPred then some (.stall .predicate)
  else match s.busyOf e n with
  | some b => some (.stall (.scoreboard b))
  | none =>
    match n.entry e with
    | some r => some (.raise r)
    | none =>
      match e.w.countCheck (s.hwm e.w) e.act n.reads n.dests n.count with
      | some r => some (.raise r)
      | none =>
        match n.stalls e with
        | some t => some (.stall t)
        | none =>
          let new := (e.w.newNames n.dests n.count e.act).length
          if new != 0 && !s.grants e new then some (.stall (.allocation new)) else none

/-- Every line of a core's L1 becomes invalid (14 R259). -/
def State.invalidate (s : State) (c : Nat) : State :=
  let k := s.core c
  s.setCore c { k with l1 := [] }

/-- Whether an issue reads the status word of an ended operation for the first time (11 R225; 15 R273). -/
def Needs.readsStatus (n : Needs) (e : Env) : Bool :=
  e.act != 0 && e.w.unread.any fun u => u.2 != 511 && (n.reads ++ n.peeks).contains u.2

/-- The state in which an instruction takes effect: its warp has taken the reads and no longer stalls, and the issue is
counted (02 R42; 24 R367). The first read of an operation's status word orders the warp as an acquire does, so L1 becomes
invalid (14 R259; 15 R281). -/
def State.issued (s : State) (e : Env) (n : Needs) : State :=
  let w := { e.w.wakeZero.takeReads e.act n.reads with
    stall := none, timeout := false, ran := e.cycle, noWatch := e.w.noWatch &&& ~~~e.frag
    unread := if e.act = 0 then e.w.unread
      else e.w.unread.filter fun u => !(n.reads ++ n.peeks ++ n.dests).contains u.2 }
  let s1 := (s.setWarp e.core e.slot w).countIssue e.core e.slot e.w.ctx n.held
  if n.readsStatus e then s1.invalidate e.core else s1

/-- Orders a warp after its ended operations of the kinds that a WAIT covers: engine operations, and those of class X (07 R138;
11 R225; 15 R273). -/
def State.coverOps (s : State) (c slot : Nat) (eng tile : Bool) : State :=
  match s.warp? c slot with
  | none => s
  | some w =>
    let s1 := s.setWarp c slot { w with unread := w.unread.filter fun u => !(if u.1 then tile else eng) }
    if w.unread.any fun u => if u.1 then tile else eng then s1.invalidate c else s1

/-- The issue of one instruction: it is held back, or it has its effect `k` on the state in which it issues. -/
def issue (s : State) (h : Hdr) (i : Instr) (n : Needs) (k : Env → State → State) :
    Host.Outcome State Fault Refusal :=
  match env? s h ((encode i).getD 0) with
  | none => .fault .noIssuableFragment
  | some e =>
    match s.hold h n e with
    | some .stay => .next s
    | some (.stall t) => .next (s.stalled e.core e.slot t)
    | some (.raise r) => .next (s.raise_ e r)
    | none => .next (k e (s.issued e n))

/-- The effect of an instruction that writes its destination at once and moves on: the values `v` of the destination's
constituents in each lane, computed from the warp as it issued. -/
def finish (e : Env) (dests : List Nat) (count : BitVec 3) (v : Nat → List Word) (s : State) : State :=
  s.modWarp e.core e.slot fun w => ((w.writeNames count e.act v dests 0).sweep).advance e.frag

end Sys2Proof.Machine
end

