-- ==== Sys2Proof/Machine/Operands.lean ====
section
/-! DEFINITION. Operand forms: which names a field may hold, what a source gives in a lane, integer operands by type,
immediates, and the words of a result. -/
namespace Sys2Proof.Machine

/-! ### Which names a field may hold (04 R76, R78) -/

/-- Whether a field holds a vector name. -/
def vec (n : BitVec 9) : Bool := isV n.toNat

/-- Whether a field holds a uniform register. -/
def uni (n : BitVec 9) : Bool := isK n.toNat

/-- Whether a field is unused: name 511. -/
def nul (n : BitVec 9) : Bool := n == 511

/-- A source of `k` names: a vector name or uniform register at a multiple of `k`, or 511 (02 R37, 04 R76). -/
def srcOk (n : BitVec 9) (k : Nat) : Bool := nul n || ((vec n || uni n) && n.toNat % k == 0)

/-- A source restricted to uniform registers, at a multiple of `k`. -/
def uniOk (n : BitVec 9) (k : Nat) : Bool := uni n && n.toNat % k == 0

/-- A destination of `k` names (04 R78), for an instruction with the given source fields: a vector destination takes any
count; a uniform destination takes count 0 and no vector source; 511 takes count 0. -/
def destOk (h : Hdr) (k : Nat) (srcs : List (BitVec 9)) : Bool :=
  if vec h.dest then h.dest.toNat % k == 0
  else if uni h.dest then h.count == 0 && h.dest.toNat % k == 0 && srcs.all fun n => !vec n
  else nul h.dest && h.count == 0

/-- The destination of an instruction that writes no name: 511 with count 0 (04 R78). -/
def destNone (h : Hdr) : Bool := nul h.dest && h.count == 0

/-! ### What a source gives -/

/-- A 64-bit source pair, low word at the even name (02 R37). -/
def Warp.pair (w : Warp) (n : BitVec 9) (lane : Nat) : BitVec 64 := w.val64 n.toNat lane

/-- A 32-bit source. -/
def Warp.word (w : Warp) (n : BitVec 9) (lane : Nat) : Word := w.val n.toNat lane

/-- The number in a pair of uniform registers. -/
def Warp.kpair (w : Warp) (n : BitVec 9) : BitVec 64 := w.val64 n.toNat 0

/-! ### Integer operands by type (04 R81, 07 R131) -/

/-- The width of an integer type code 0 to 7. -/
def typeWidth (t : BitVec 4) : Nat := 8 * 2 ^ (t.toNat % 4)

/-- Signed types are codes 0 to 3. -/
def typeSigned (t : BitVec 4) : Bool := decide (t.toNat < 4)

/-- Names of a value of an integer type. -/
def typeNames (t : BitVec 4) : Nat := if typeWidth t = 64 then 2 else 1

/-- The integer of some low bits under a type. -/
def typeInt (t : BitVec 4) (x : Nat) : Int :=
  let w := typeWidth t
  let u := x % 2 ^ w
  if typeSigned t && decide (2 ^ (w - 1) ≤ u) then (u : Int) - 2 ^ w else u

/-- A source as an integer of a type. -/
def Warp.int (w : Warp) (t : BitVec 4) (n : BitVec 9) (lane : Nat) : Int :=
  typeInt t (if typeWidth t = 64 then (w.pair n lane).toNat else (w.word n lane).toNat)

/-- An immediate as an integer of a type: its low bits, or 64 bits by sign or zero extension (07 R131). -/
def immInt (t : BitVec 4) (imm : Word) : Int :=
  typeInt t (if typeWidth t = 64 then
    (if typeSigned t then (imm.signExtend 64).toNat else imm.toNat) else imm.toNat)

/-- Source B of class VI as an integer: a name, or the immediate when it is 511 (03 R64). -/
def Warp.intB (w : Warp) (t : BitVec 4) (f : VI) (lane : Nat) : Int :=
  if nul f.srcb then immInt t f.imm else w.int t f.srcb lane

/-- Source B of class VI as one 32-bit word. -/
def Warp.wordB (w : Warp) (f : VI) (lane : Nat) : Word := if nul f.srcb then f.imm else w.word f.srcb lane

/-- The bits of an integer modulo 2^w. -/
def wrapNat (w : Nat) (x : Int) : Nat := (x % (2 ^ w : Nat)).toNat

/-- The words of an integer result: modulo 2^w, then extended to 32 bits by type, or split in two (07 R131). -/
def intWords (t : BitVec 4) (x : Int) : List Word :=
  let w := typeWidth t
  if w = 64 then [BitVec.ofNat 32 (wrapNat 64 x), BitVec.ofNat 32 (wrapNat 64 x / 2 ^ 32)]
  else [BitVec.ofInt 32 (typeInt t (wrapNat w x))]

/-- The words of a 64-bit value. -/
def words64 (x : BitVec 64) : List Word := [x.extractLsb' 0 32, x.extractLsb' 32 32]

/-- The least value of a type. -/
def typeMin (t : BitVec 4) : Int := if typeSigned t then -(2 ^ (typeWidth t - 1)) else 0

/-- The greatest value of a type. -/
def typeMax (t : BitVec 4) : Int := if typeSigned t then 2 ^ (typeWidth t - 1) - 1 else 2 ^ typeWidth t - 1

/-- A value clamped to a range. -/
def clampInt (lo hi x : Int) : Int := if x < lo then lo else if hi < x then hi else x

/-- A value clamped to a type's range (07 R146). -/
def typeClamp (t : BitVec 4) (x : Int) : Int := clampInt (typeMin t) (typeMax t) x

/-! ### Names read -/

/-- The names an instruction reads through a field of `k` names, uniform registers among them. -/
def rd (n : BitVec 9) (k : Nat) : List Nat := constituents n k

/-- The predicate of a guard or operand field, when it is not constant true. -/
def predOf (p : BitVec 3) : Nat := p.toNat

/-- Predicate `p` in a lane. -/
def Warp.predOn (w : Warp) (p : BitVec 3) (lane : Nat) : Bool := laneOn (w.pred p.toNat) lane

end Sys2Proof.Machine
end

