-- ==== Sys2Proof/Machine/Numbers.lean ====
section
/-! DEFINITION. The number formats of 05: decoding to exact values, exact arithmetic on them, the rounding modes, and
rounding into a format with its overflow rule and its flags. -/
namespace Sys2Proof.Machine

/-- An exact value: a NaN, an infinity, or sign, magnitude and power of two. -/
inductive Num where
  | nan
  | inf (neg : Bool)
  | fin (neg : Bool) (m : Nat) (e : Int)
  deriving DecidableEq, Repr

/-- A floating-point format (05 R95): mantissa and exponent bits, bias, the largest finite value as magnitude and power,
and whether it has infinities. -/
structure Fmt where
  mbits : Nat
  ebits : Nat
  bias : Nat
  maxN : Nat
  maxQ : Int
  hasInf : Bool
  deriving DecidableEq, Repr

/-- The formats of codes 0 to 5: FP32, BF16, FP16, E4M3, E5M2, E2M1 (05 R95). -/
def fmtOf (code : Nat) : Fmt :=
  match code with
  | 0 => { mbits := 23, ebits := 8, bias := 127, maxN := 0xFFFFFF, maxQ := 104, hasInf := true }
  | 1 => { mbits := 7, ebits := 8, bias := 127, maxN := 0xFF, maxQ := 120, hasInf := true }
  | 2 => { mbits := 10, ebits := 5, bias := 15, maxN := 0x7FF, maxQ := 5, hasInf := true }
  | 3 => { mbits := 3, ebits := 4, bias := 7, maxN := 14, maxQ := 5, hasInf := false }
  | 4 => { mbits := 2, ebits := 5, bias := 15, maxN := 7, maxQ := 13, hasInf := true }
  | _ => { mbits := 1, ebits := 2, bias := 1, maxN := 3, maxQ := 1, hasInf := false }

/-- The width in bits of an element of a format code (05 R95). -/
def fmtWidth (code : Nat) : Nat :=
  match code with
  | 0 => 32 | 1 => 16 | 2 => 16 | 3 => 8 | 4 => 8 | 5 => 4 | 6 => 8 | 7 => 2 | _ => 32

/-- The canonical NaN of a floating-point format; +0 for E2M1, which has none (05 R96). -/
def nanBits (code : Nat) : Nat :=
  match code with
  | 0 => 0x7FC00000 | 1 => 0x7FC0 | 2 => 0x7E00 | 3 => 0x7F | 4 => 0x7E | _ => 0

/-- The exact value of a number of a two's-complement width. -/
def numOfInt (x : Int) : Num := .fin (decide (x < 0)) x.natAbs 0

/-- The value of a code of a floating-point format (05 R95, R96). -/
def decodeFloat (code : Nat) (bits : Nat) : Num :=
  let f := fmtOf code
  let neg := bits.testBit (f.mbits + f.ebits)
  let m := bits % 2 ^ f.mbits
  let e := bits / 2 ^ f.mbits % 2 ^ f.ebits
  let top := 2 ^ f.ebits - 1
  if f.hasInf && e == top then (if m = 0 then .inf neg else .nan)
  else if code = 3 ∧ e = top ∧ m = 7 then .nan
  else if e = 0 then .fin neg m (1 - f.bias - f.mbits)
  else .fin neg (m + 2 ^ f.mbits) ((e : Int) - f.bias - f.mbits)

/-- The value of an element of any format code 0 to 8 (05 R95, R96); the ternary code 0b10 reads as 0. -/
def decodeElem (code : Nat) (bits : Nat) : Num :=
  match code with
  | 6 => numOfInt (typeInt 0 bits)
  | 7 => if bits % 4 = 1 then .fin false 1 0 else if bits % 4 = 3 then .fin true 1 0 else .fin false 0 0
  | 8 => numOfInt (typeInt 2 bits)
  | c => decodeFloat c bits

/-- An FP32 value. -/
def f32 (x : Word) : Num := decodeFloat 0 x.toNat

/-- An E8M0 value: 2^(e − 127), or NaN for 0xFF (05 R100). -/
def e8m0 (x : Nat) : Num := if x % 256 = 255 then .nan else .fin false 1 ((x % 256 : Nat) - 127 : Int)

/-! ### Exact arithmetic -/

/-- Negation. -/
def Num.neg : Num → Num
  | .nan => .nan
  | .inf n => .inf (!n)
  | .fin n m e => .fin (!n) m e

/-- Absolute value. -/
def Num.abs : Num → Num
  | .nan => .nan
  | .inf _ => .inf false
  | .fin _ m e => .fin false m e

/-- Whether a value is NaN. -/
def Num.isNan : Num → Bool
  | .nan => true
  | _ => false

/-- Whether a value is infinite. -/
def Num.isInf : Num → Bool
  | .inf _ => true
  | _ => false

/-- Whether a value is a zero. -/
def Num.isZero : Num → Bool
  | .fin _ 0 _ => true
  | _ => false

/-- The sign of a value. -/
def Num.isNeg : Num → Bool
  | .nan => false
  | .inf n => n
  | .fin n _ _ => n

/-- A magnitude at a lower power of two. -/
def alignTo (m : Nat) (e lo : Int) : Nat := m * 2 ^ (e - lo).toNat

/-- The signed integer of a finite value at a lower power of two. -/
def signedAt (neg : Bool) (m : Nat) (e lo : Int) : Int := if neg then -(alignTo m e lo : Int) else alignTo m e lo

/-- Exact sum (05 R101): a zero from opposite signs is +0, or −0 under .rdn; two −0 give −0. -/
def Num.add (rnd : Nat) : Num → Num → Num
  | .nan, _ => .nan
  | _, .nan => .nan
  | .inf a, .inf b => if a = b then .inf a else .nan
  | .inf a, .fin _ _ _ => .inf a
  | .fin _ _ _, .inf b => .inf b
  | .fin n m e, .fin n' m' e' =>
    let lo := min e e'
    let x := signedAt n m e lo + signedAt n' m' e' lo
    if x = 0 then
      (if n = n' then .fin n 0 lo else .fin (rnd == 3) 0 lo)
    else .fin (decide (x < 0)) x.natAbs lo

/-- Exact product; 0 × ∞ is NaN. -/
def Num.mul : Num → Num → Num
  | .nan, _ => .nan
  | _, .nan => .nan
  | .inf a, .inf b => .inf (a != b)
  | .inf a, .fin n m _ => if m = 0 then .nan else .inf (a != n)
  | .fin n m _, .inf a => if m = 0 then .nan else .inf (a != n)
  | .fin n m e, .fin n' m' e' => .fin (n != n') (m * m') (e + e')

/-- Comparison of two values that are not NaN; zeros compare equal. -/
def Num.lt : Num → Num → Bool
  | .nan, _ => false
  | _, .nan => false
  | .inf a, .inf b => a && !b
  | .inf a, .fin _ _ _ => a
  | .fin _ _ _, .inf b => !b
  | .fin n m e, .fin n' m' e' =>
    let lo := min e e'
    decide (signedAt n m e lo < signedAt n' m' e' lo)

/-- Equality of values. -/
def Num.eqv (a b : Num) : Bool := !a.isNan && !b.isNan && !a.lt b && !b.lt a

/-! ### Rounding (05 R101, R104) -/

/-- The mixing function of stochastic rounding (05 R104). -/
def mix (x0 : Word) : Word :=
  let x1 := (x0 ^^^ (x0 >>> 16)) * 0x85EBCA6B
  let x2 := (x1 ^^^ (x1 >>> 13)) * 0xC2B2AE35
  x2 ^^^ (x2 >>> 16)

/-- The number u that a rounding draws (05 R104). -/
def drawU (seed wid index : Word) : Word := mix (seed ^^^ mix (wid ^^^ mix index))

/-- Whether a truncated magnitude `n`, with remainder `r` of `d`, rounds up. -/
def roundsUp (rnd : Nat) (neg : Bool) (u : Word) (n r d : Nat) : Bool :=
  if r = 0 then false
  else match rnd with
    | 0 => decide (d < 2 * r) || (decide (2 * r = d) && n % 2 == 1)
    | 1 => false
    | 2 => !neg
    | 3 => neg
    | _ => decide (2 ^ 32 ≤ r * 2 ^ 32 / d + u.toNat)

/-- A magnitude m × 2^e rounded to a multiple of 2^q: the multiple, and whether it is exact. -/
def roundAt (rnd : Nat) (neg : Bool) (u : Word) (m : Nat) (e q : Int) : Nat × Bool :=
  if q ≤ e then (alignTo m e q, true)
  else
    let d := 2 ^ (q - e).toNat
    let n := m / d
    let r := m % d
    ((if roundsUp rnd neg u n r d then n + 1 else n), decide (r = 0))

/-- Rounding to a 24-bit significand with unbounded exponent (05 R109). -/
def round24 (rnd : Nat) (u : Word) : Num → Num
  | .fin n m e =>
    if m = 0 then .fin n m e
    else
      let q := (Nat.log2 m : Int) + e - 23
      if q ≤ e then .fin n m e else .fin n (roundAt rnd n u m e q).1 q
  | x => x

/-! ### Arithmetic flags (05 R112) -/

/-- nv. -/
def flNv : BitVec 8 := 0x01
/-- of. -/
def flOf : BitVec 8 := 0x02
/-- uf. -/
def flUf : BitVec 8 := 0x04
/-- nx. -/
def flNx : BitVec 8 := 0x08
/-- tern. -/
def flTern : BitVec 8 := 0x10
/-- sc. -/
def flSc : BitVec 8 := 0x20
/-- qn. -/
def flQn : BitVec 8 := 0x40

/-- A flag when a condition holds. -/
def flIf (c : Bool) (f : BitVec 8) : BitVec 8 := if c then f else 0

/-! ### Rounding into a format (05 R101 to R103) -/

/-- The bits of a finite magnitude n × 2^q of a format, with its sign. -/
def packFinite (f : Fmt) (neg : Bool) (n : Nat) (q : Int) : Nat :=
  let s := if neg then 2 ^ (f.mbits + f.ebits) else 0
  if n < 2 ^ f.mbits then s + n
  else
    let (n1, q1) := if n = 2 ^ (f.mbits + 1) then (2 ^ f.mbits, q + 1) else (n, q)
    s + (q1 + f.mbits + f.bias).toNat * 2 ^ f.mbits + (n1 - 2 ^ f.mbits)

/-- The bits of the largest finite value. -/
def maxBits (f : Fmt) (neg : Bool) : Nat := packFinite f neg f.maxN f.maxQ

/-- The bits of an infinity. -/
def infBits (f : Fmt) (neg : Bool) : Nat :=
  (if neg then 2 ^ (f.mbits + f.ebits) else 0) + (2 ^ f.ebits - 1) * 2 ^ f.mbits

/-- What an infinite outcome becomes in a format: an infinity, the largest value under saturation or in E2M1, or the
canonical NaN in E4M3 (05 R102). The flags are those of an outcome that an infinite input or an overflow gave. -/
def infOutcome (code : Nat) (sat neg overflow : Bool) : Nat × BitVec 8 :=
  let f := fmtOf code
  if sat || code == 5 then (maxBits f neg, flOf ||| flNx)
  else if f.hasInf then (infBits f neg, flIf overflow (flOf ||| flNx))
  else (nanBits code, flNv ||| flIf overflow (flOf ||| flNx))

/-- Whether an overflow under a mode gives an infinite outcome rather than the largest finite value (05 R102). -/
def overflowsToInf (rnd : Nat) (neg : Bool) : Bool :=
  match rnd with
  | 1 => false
  | 2 => !neg
  | 3 => neg
  | _ => true

/-- A value rounded into a floating-point format of codes 0 to 5, with the flags it raises (05 R101, R102, R112). -/
def roundFloat (code rnd : Nat) (sat : Bool) (u : Word) : Num → Nat × BitVec 8
  | .nan => (nanBits code, flIf (code == 5) flNv)
  | .inf neg => infOutcome code sat neg false
  | .fin neg m e =>
    let f := fmtOf code
    if m = 0 then ((if neg then 2 ^ (f.mbits + f.ebits) else 0), 0)
    else
      let top := (Nat.log2 m : Int) + e
      let emin : Int := 1 - f.bias
      let q := max top emin - f.mbits
      let (n, exact) := roundAt rnd neg u m e q
      let lo := min q f.maxQ
      if alignTo f.maxN f.maxQ lo < alignTo n q lo then
        (if sat || code == 5 || !overflowsToInf rnd neg then (maxBits f neg, flOf ||| flNx)
         else infOutcome code sat neg true)
      else (packFinite f neg n q, flIf (!exact) flNx ||| flIf (!exact && decide (top < emin)) flUf)

/-- A value rounded to an integer and clamped to a range, with the flags it raises (05 R103). -/
def roundInt (lo hi : Int) (rnd : Nat) (u : Word) : Num → Int × BitVec 8
  | .nan => (0, flNv)
  | .inf neg => ((if neg then lo else hi), flOf ||| flNx)
  | .fin neg m e =>
    let (n, exact) := roundAt rnd neg u m e 0
    let x : Int := if neg then -(n : Int) else n
    let y := clampInt lo hi x
    (y, flIf (!exact) flNx ||| flIf (y != x) (flOf ||| flNx))

/-- A value rounded into any format code: FP32 to E2M1, INT8, ternary or INT32. -/
def roundElem (code rnd : Nat) (sat : Bool) (u : Word) (x : Num) : Nat × BitVec 8 :=
  match code with
  | 6 => let r := roundInt (-128) 127 rnd u x; (wrapNat 8 r.1, r.2)
  | 7 => let r := roundInt (-1) 1 rnd u x; (wrapNat 2 r.1, r.2)
  | 8 => let r := roundInt (-(2 ^ 31)) (2 ^ 31 - 1) rnd u x; (wrapNat 32 r.1, r.2)
  | c => roundFloat c rnd sat u x

/-- A value rounded to FP32. -/
def toF32 (rnd : Nat) (sat : Bool) (u : Word) (x : Num) : Word := BitVec.ofNat 32 (roundFloat 0 rnd sat u x).1

/-- The canonical FP32 NaN. -/
def nan32 : Word := 0x7FC00000

/-! ### Format slots (05 R105) -/

/-- The A format code of a slot. -/
def slotA (x : BitVec 64) : Nat := (x.extractLsb' 0 4).toNat
/-- The B format code of a slot. -/
def slotB (x : BitVec 64) : Nat := (x.extractLsb' 4 4).toNat
/-- The output format code of a slot. -/
def slotOut (x : BitVec 64) : Nat := (x.extractLsb' 8 4).toNat
/-- The scale kind of a slot. -/
def slotScale (x : BitVec 64) : Nat := (x.extractLsb' 12 2).toNat
/-- The rounding of a slot. -/
def slotRnd (x : BitVec 64) : Nat := (x.extractLsb' 14 3).toNat
/-- The saturate bit of a slot. -/
def slotSat (x : BitVec 64) : Bool := x.getLsbD 17
/-- The percentile of a slot. -/
def slotPct (x : BitVec 64) : Nat := (x.extractLsb' 19 16).toNat

/-- Whether a slot passes the launch check (05 R106). -/
def slotValid (x : BitVec 64) : Bool :=
  decide (slotA x ≤ 8) && decide (slotB x ≤ 8) && decide (slotOut x ≤ 8) && slotScale x != 3 && decide (slotRnd x ≤ 4) &&
  x.extractLsb' 35 29 == 0 && !x.getLsbD 18

end Sys2Proof.Machine
end

