-- ==== Sys2Proof/Machine/Flags.lean ====
section
/-! DEFINITION. Flag and predicate computations: compare codes, the carry of IADDC, the sticky arithmetic flags of a
warp. -/
namespace Sys2Proof.Machine

/-- An integer comparison; codes 6 to 15 are refused by the field check (04 R82). -/
def cmpInt (code : Nat) (a b : Int) : Bool :=
  match code with
  | 0 => decide (a = b)
  | 1 => decide (a ≠ b)
  | 2 => decide (a < b)
  | 3 => decide (a ≤ b)
  | 4 => decide (b < a)
  | _ => decide (b ≤ a)

/-- A floating-point comparison: an ordered one is false and an unordered one true when an operand is NaN (04 R82). -/
def cmpNum (code : Nat) (a b : Num) : Bool :=
  let un := a.isNan || b.isNan
  match code with
  | 0 => !un && a.eqv b
  | 1 => !un && !a.eqv b
  | 2 => !un && a.lt b
  | 3 => !un && !b.lt a
  | 4 => !un && b.lt a
  | 5 => !un && !a.lt b
  | 6 => !un
  | 8 => un || a.eqv b
  | 9 => un || !a.eqv b
  | 10 => un || a.lt b
  | 11 => un || !b.lt a
  | 12 => un || b.lt a
  | 13 => un || !a.lt b
  | _ => un

/-- Combines a compare result with the combining predicate: none, and, or, xor (07 R141, R142). -/
def combine (how : Nat) (c p : Bool) : Bool :=
  match how with
  | 0 => c
  | 1 => c && p
  | 2 => c || p
  | _ => c != p

/-- Sets bits of a warp's sticky arithmetic flags (05 R112). -/
def Warp.orFlags (w : Warp) (f : BitVec 8) : Warp := { w with aflags := w.aflags ||| f }

/-- The flags raised in the active lanes. -/
def lanesFlags (act : Mask) (f : Nat → BitVec 8) : BitVec 8 :=
  (lanesOf act).foldl (fun m i => m ||| f i) 0

/-- The carry of an exact unsigned sum of `w` bits (07 R147). -/
def carryOut (w : Nat) (s : Int) : Bool := decide ((2 ^ w : Int) ≤ s)

end Sys2Proof.Machine
end

