-- ==== Sys2Proof/Machine/Integer.lean ====
section
/-! DEFINITION. The integer instructions of class VI and IMAD (07 R146 to R150). -/
namespace Sys2Proof.Machine

/-- What an instruction asks of its issue that reads names and writes a destination of `k` names. -/
def plainNeeds (h : Hdr) (fields : Bool) (reads : List Nat) (k : Nat) (peeks : List Nat := []) : Needs :=
  { fields := fields, reads := reads, peeks := peeks, dests := constituents h.dest k, count := h.count }

/-- An instruction that reads names, computes its destination's words in each active lane, and moves on: the shape of
every arithmetic entry of 07 and 08. -/
def compute (s : State) (h : Hdr) (i : Instr) (fields : Bool) (reads : List Nat) (k : Nat)
    (v : Env → Nat → List Word) (peeks : List Nat := []) : Host.Outcome State Fault Refusal :=
  issue s h i (plainNeeds h fields reads k peeks) fun e s' => finish e (constituents h.dest k) h.count (v e) s'

/-- Stochastic rounding reads the seed k63 (05 R104). -/
def seedPeek (rnd : BitVec 3) : List Nat := if rnd = 4 then [447] else []

/-- Source B of class VI: a name of `k` names with a zero immediate (04 R75), or 511, which reads the immediate
(03 R64). -/
def srcbOk (f : VI) (k : Nat) : Bool := nul f.srcb || (srcOk f.srcb k && f.imm == 0)

/-- The types an entry accepts. -/
def typeIn (t : BitVec 4) (ts : List Nat) : Bool := ts.contains t.toNat

/-- The field rules of a two-operand integer entry (07 R146): types, names, .sat in mods[0] where accepted. -/
def intFields (h : Hdr) (f : VI) (ts : List Nat) (sat : Bool) : Bool :=
  typeIn f.type ts && srcOk f.srca (typeNames f.type) && srcbOk f (typeNames f.type) &&
  destOk h (typeNames f.type) [f.srca, f.srcb] && f.subop == 0 && (f.mods == 0 || (sat && f.mods == 1))

/-- The field rules of a shift: the count is one 32-bit source at any name (07 R131). -/
def shiftFields (h : Hdr) (f : VI) (ts : List Nat) : Bool :=
  typeIn f.type ts && srcOk f.srca (typeNames f.type) && srcbOk f 1 && destOk h (typeNames f.type) [f.srca, f.srcb] &&
  f.subop == 0 && f.mods == 0

/-- The field rules of a unary entry, with a destination of `k` names: B 511 and imm32 zero (07 R146). -/
def unaryFields (h : Hdr) (f : VI) (ts : List Nat) (sat : Bool) (k : Nat) : Bool :=
  typeIn f.type ts && srcOk f.srca (typeNames f.type) && nul f.srcb && f.imm == 0 && destOk h k [f.srca] &&
  f.subop == 0 && (f.mods == 0 || (sat && f.mods == 1))

/-- A two-operand integer instruction: the exact result, clamped under .sat, then wrapped (07 R146). -/
def intBinary (s : State) (h : Hdr) (f : VI) (i : Instr) (ts : List Nat) (sat : Bool) (g : Int → Int → Int) :
    Host.Outcome State Fault Refusal :=
  let k := typeNames f.type
  compute s h i (intFields h f ts sat) (rd f.srca k ++ rd f.srcb k) k fun e l =>
    let x := g (e.w.int f.type f.srca l) (e.w.intB f.type f l)
    intWords f.type (if f.mods = 1 then typeClamp f.type x else x)

/-- A unary integer instruction. -/
def intUnary (s : State) (h : Hdr) (f : VI) (i : Instr) (ts : List Nat) (sat : Bool) (g : Int → Int) :
    Host.Outcome State Fault Refusal :=
  let k := typeNames f.type
  compute s h i (unaryFields h f ts sat k) (rd f.srca k) k fun e l =>
    let x := g (e.w.int f.type f.srca l)
    intWords f.type (if f.mods = 1 then typeClamp f.type x else x)

/-- A shift: the operand as an integer of its type, the count as an unsigned 32-bit number (07 R131). -/
def intShift (s : State) (h : Hdr) (f : VI) (i : Instr) (ts : List Nat) (g : Int → Nat → Int) :
    Host.Outcome State Fault Refusal :=
  let k := typeNames f.type
  compute s h i (shiftFields h f ts) (rd f.srca k ++ rd f.srcb 1) k fun e l =>
    intWords f.type (g (e.w.int f.type f.srca l) (e.w.wordB f l).toNat)

/-- A count of bits, written to one 32-bit name (07 R146). -/
def intCount (s : State) (h : Hdr) (f : VI) (i : Instr) (g : Nat → Nat → Nat) : Host.Outcome State Fault Refusal :=
  compute s h i (unaryFields h f [4, 5, 6, 7] false 1) (rd f.srca (typeNames f.type)) 1 fun e l =>
    [BitVec.ofNat 32 (g (typeWidth f.type) (e.w.int f.type f.srca l).toNat)]

/-- A bitwise combination of two integers of a type. -/
def bitwise (t : BitVec 4) (g : Nat → Nat → Nat) (a b : Int) : Int :=
  (g (wrapNat (typeWidth t) a) (wrapNat (typeWidth t) b) : Nat)

/-- Every type code. -/
def allTypes : List Nat := [0, 1, 2, 3, 4, 5, 6, 7]

/-- IADD (07 R146). -/
def execIadd (h : Hdr) (f : VI) (s : State) : Host.Outcome State Fault Refusal :=
  intBinary s h f (.iadd h f) allTypes true fun a b => a + b

/-- ISUB (07 R146). -/
def execIsub (h : Hdr) (f : VI) (s : State) : Host.Outcome State Fault Refusal :=
  intBinary s h f (.isub h f) allTypes true fun a b => a - b

/-- IMUL (07 R146). -/
def execImul (h : Hdr) (f : VI) (s : State) : Host.Outcome State Fault Refusal :=
  intBinary s h f (.imul h f) allTypes false fun a b => a * b

/-- IMULH: the high w bits of the exact product (07 R146). -/
def execImulh (h : Hdr) (f : VI) (s : State) : Host.Outcome State Fault Refusal :=
  intBinary s h f (.imulh h f) [2, 3, 6, 7] false fun a b => (a * b) / 2 ^ typeWidth f.type

/-- IMIN (07 R146). -/
def execImin (h : Hdr) (f : VI) (s : State) : Host.Outcome State Fault Refusal :=
  intBinary s h f (.imin h f) allTypes false fun a b => min a b

/-- IMAX (07 R146). -/
def execImax (h : Hdr) (f : VI) (s : State) : Host.Outcome State Fault Refusal :=
  intBinary s h f (.imax h f) allTypes false fun a b => max a b

/-- IABS (07 R146). -/
def execIabs (h : Hdr) (f : VI) (s : State) : Host.Outcome State Fault Refusal :=
  intUnary s h f (.iabs h f) [0, 1, 2, 3] true fun a => (a.natAbs : Int)

/-- INEG (07 R146). -/
def execIneg (h : Hdr) (f : VI) (s : State) : Host.Outcome State Fault Refusal :=
  intUnary s h f (.ineg h f) [0, 1, 2, 3] true fun a => -a

/-- INOT (07 R146). -/
def execInot (h : Hdr) (f : VI) (s : State) : Host.Outcome State Fault Refusal :=
  intUnary s h f (.inot h f) allTypes false fun a => -a - 1

/-- IAND (07 R146). -/
def execIand (h : Hdr) (f : VI) (s : State) : Host.Outcome State Fault Refusal :=
  intBinary s h f (.iand h f) allTypes false (bitwise f.type (· &&& ·))

/-- IOR (07 R146). -/
def execIor (h : Hdr) (f : VI) (s : State) : Host.Outcome State Fault Refusal :=
  intBinary s h f (.ior h f) allTypes false (bitwise f.type (· ||| ·))

/-- IXOR (07 R146). -/
def execIxor (h : Hdr) (f : VI) (s : State) : Host.Outcome State Fault Refusal :=
  intBinary s h f (.ixor h f) allTypes false (bitwise f.type (· ^^^ ·))

/-- ISHL: 0 when the count is the width or more (07 R146). -/
def execIshl (h : Hdr) (f : VI) (s : State) : Host.Outcome State Fault Refusal :=
  intShift s h f (.ishl h f) allTypes fun a n => if typeWidth f.type ≤ n then 0 else a * 2 ^ n

/-- ISHR: logical; 0 when the count is the width or more (07 R146). -/
def execIshr (h : Hdr) (f : VI) (s : State) : Host.Outcome State Fault Refusal :=
  intShift s h f (.ishr h f) [4, 5, 6, 7] fun a n => if typeWidth f.type ≤ n then 0 else a / 2 ^ n

/-- ISAR: arithmetic; copies of the sign when the count is the width or more (07 R146). -/
def execIsar (h : Hdr) (f : VI) (s : State) : Host.Outcome State Fault Refusal :=
  intShift s h f (.isar h f) [0, 1, 2, 3] fun a n => if typeWidth f.type ≤ n then (if a < 0 then -1 else 0) else a / 2 ^ n

/-- The number of set bits among the low `w` of `x`. -/
def popCount (x : Nat) : Nat → Nat
  | 0 => 0
  | w + 1 => (if x.testBit w then 1 else 0) + popCount x w

/-- The number of leading zeros among the low `w` bits of `x`. -/
def leadZeros (x : Nat) : Nat → Nat
  | 0 => 0
  | w + 1 => if x.testBit w then 0 else 1 + leadZeros x w

/-- POPC (07 R146). -/
def execPopc (h : Hdr) (f : VI) (s : State) : Host.Outcome State Fault Refusal :=
  intCount s h f (.popc h f) fun w x => popCount x w

/-- CLZ (07 R146). -/
def execClz (h : Hdr) (f : VI) (s : State) : Host.Outcome State Fault Refusal :=
  intCount s h f (.clz h f) fun w x => leadZeros x w

/-- The reversal of w bits, most significant first. -/
def bitReverse (w x : Nat) : Nat :=
  (List.range w).foldl (fun r j => 2 * r + (if x.testBit j then 1 else 0)) 0

/-- BREV (07 R146). -/
def execBrev (h : Hdr) (f : VI) (s : State) : Host.Outcome State Fault Refusal :=
  intUnary s h f (.brev h f) [4, 5, 6, 7] false fun a => (bitReverse (typeWidth f.type) a.toNat : Nat)

/-- The field rules of IADDC: an enable bit of 0 goes with a predicate field of 0, and the carry out is not p7
(07 R147). -/
def iaddcFields (h : Hdr) (f : VI) : Bool :=
  let k := typeNames f.type
  typeIn f.type [6, 7] && srcOk f.srca k && srcbOk f k && destOk h k [f.srca, f.srcb] && f.mods == 0 &&
  f.subop.extractLsb' 8 4 == 0 && (f.subop.getLsbD 3 || f.subop.extractLsb' 0 3 == 0) &&
  (if f.subop.getLsbD 7 then f.subop.extractLsb' 4 3 != 7 else f.subop.extractLsb' 4 3 == 0)

/-- The exact sum of IADDC in a lane (07 R147). -/
def iaddcSum (w : Warp) (f : VI) (l : Nat) : Int :=
  w.int f.type f.srca l + w.intB f.type f l +
    (if f.subop.getLsbD 3 && w.predOn (f.subop.extractLsb' 0 3) l then 1 else 0)

/-- What IADDC asks of its issue. -/
def needsIaddc (h : Hdr) (f : VI) (_ : State) : Needs :=
  let k := typeNames f.type
  let dests := constituents h.dest k
  let preds := (if f.subop.getLsbD 3 then [(f.subop.extractLsb' 0 3).toNat] else []) ++
    (if f.subop.getLsbD 7 then [(f.subop.extractLsb' 4 3).toNat] else [])
  { fields := iaddcFields h f, reads := rd f.srca k ++ rd f.srcb k, dests := dests, count := h.count, preds := preds }

/-- IADDC (07 R147). -/
def execIaddc (h : Hdr) (f : VI) (s : State) : Host.Outcome State Fault Refusal :=
  let k := typeNames f.type
  let dests := constituents h.dest k
  issue s h (.iaddc h f) (needsIaddc h f s)
    fun e s' =>
      let s1 := finish e dests h.count (fun l => intWords f.type (iaddcSum e.w f l)) s'
      if f.subop.getLsbD 7 then
        s1.modWarp e.core e.slot fun w =>
          w.setPred (f.subop.extractLsb' 4 3).toNat e.act
            (maskOf fun l => carryOut (typeWidth f.type) (iaddcSum e.w f l))
      else s1

/-- LEA: a 64-bit address from a pair and a shifted, extended 32-bit index (07 R148). -/
def execLea (h : Hdr) (f : VI) (s : State) : Host.Outcome State Fault Refusal :=
  compute s h (.lea h f)
    (typeIn f.type [2, 6] && srcOk f.srca 2 && srcbOk f 1 && destOk h 2 [f.srca, f.srcb] && f.subop == 0)
    (rd f.srca 2 ++ rd f.srcb 1) 2 fun e l =>
      let b := e.w.wordB f l
      let x : BitVec 64 := if f.type = 2 then b.signExtend 64 else b.zeroExtend 64
      words64 (e.w.pair f.srca l + x <<< f.mods.toNat)

/-- The field that BFX extracts: positions at or above the width read as zero or the sign, then extended (07 R149). -/
def bfxValue (t : BitVec 4) (a : Int) (fld : Word) : Int :=
  let pos := (fld.extractLsb' 0 8).toNat
  let len := min (fld.extractLsb' 8 8).toNat (typeWidth t)
  let x := (a / 2 ^ pos) % 2 ^ len
  if typeSigned t && len != 0 && decide (2 ^ (len - 1) ≤ x) then x - 2 ^ len else x

/-- BFX (07 R149). -/
def execBfx (h : Hdr) (f : VI) (s : State) : Host.Outcome State Fault Refusal :=
  let k := typeNames f.type
  compute s h (.bfx h f) (shiftFields h f [2, 3, 6, 7]) (rd f.srca k ++ rd f.srcb 1) k fun e l =>
    intWords f.type (bfxValue f.type (e.w.int f.type f.srca l) (e.w.wordB f l))

/-- The base with a field replaced by the low bits of `a`; bits at or above the width are dropped (07 R149). -/
def bfiValue (w : Nat) (a base : Nat) (pos len : Nat) : Nat :=
  let m := (2 ^ len - 1) * 2 ^ pos % 2 ^ w
  (base % 2 ^ w &&& (2 ^ w - 1 - m)) ||| (a % 2 ^ len * 2 ^ pos % 2 ^ w)

/-- BFI (07 R149). -/
def execBfi (h : Hdr) (f : VI) (s : State) : Host.Outcome State Fault Refusal :=
  let k := typeNames f.type
  compute s h (.bfi h f)
    (typeIn f.type [6, 7] && srcOk f.srca k && srcOk f.srcb k && !nul f.srcb && destOk h k [f.srca, f.srcb] &&
      f.mods == 0 && f.subop == 0 && f.imm.extractLsb' 16 16 == 0)
    (rd f.srca k ++ rd f.srcb k) k fun e l =>
      intWords f.type (bfiValue (typeWidth f.type) (e.w.int f.type f.srca l).toNat (e.w.int f.type f.srcb l).toNat
        (f.imm.extractLsb' 0 8).toNat (f.imm.extractLsb' 8 8).toNat : Nat)

/-- The V3 fields that an integer entry holds at zero (07 R150). -/
def v3Plain (f : V3) : Bool :=
  f.fslot == 0 && f.rnd == 0 && !f.sat && !f.nega && !f.negb && !f.absa && !f.absb && f.zero == 0

/-- IMAD (07 R150). -/
def execImad (h : Hdr) (f : V3) (s : State) : Host.Outcome State Fault Refusal :=
  let k := typeNames f.type
  compute s h (.imad h f)
    (typeIn f.type [2, 3, 6, 7] && srcOk f.srca k && srcOk f.srcb k && srcOk f.srcc k &&
      destOk h k [f.srca, f.srcb, f.srcc] && v3Plain f)
    (rd f.srca k ++ rd f.srcb k ++ rd f.srcc k) k fun e l =>
      intWords f.type
        (e.w.int f.type f.srca l * e.w.int f.type f.srcb l + e.w.int f.type f.srcc l)

end Sys2Proof.Machine
end

