-- ==== Sys2Proof/Machine/Float.lean ====
section
/-! DEFINITION. FP32 and packed half-width arithmetic, FMIN, FMAX, FCLASS, DOT4 and WRED (08 R155 to R166). -/
namespace Sys2Proof.Machine

/-- A code with the modifiers applied: absolute value, then negation, on the sign bit (08 R156). -/
def modBits (w : Nat) (neg abs : Bool) (x : Nat) : Nat :=
  let m := x % 2 ^ (w - 1)
  let s := x / 2 ^ (w - 1) % 2 == 1
  m + (if (s && !abs) != neg then 2 ^ (w - 1) else 0)

/-- Source A of class V3 as an FP32 code with its modifiers. -/
def codeA (w : Warp) (f : V3) (l : Nat) : Word := BitVec.ofNat 32 (modBits 32 f.nega f.absa (w.word f.srca l).toNat)

/-- Source B of class V3 as an FP32 code with its modifiers. -/
def codeB (w : Warp) (f : V3) (l : Nat) : Word := BitVec.ofNat 32 (modBits 32 f.negb f.absb (w.word f.srcb l).toNat)

/-- The rounding seed k63 of a warp (05 R104). -/
def Warp.seed (w : Warp) : Word := w.kregs.getD 63 0

/-- The number u that element `e` of a lane draws (05 R104, 08 R155). -/
def Env.draw (v : Env) (lane e : Nat) : Word := drawU v.w.seed (v.w.wid.extractLsb' 0 32) (BitVec.ofNat 32 (lane * 65536 + e))

/-- No modifier on A or B. -/
def noMods (f : V3) : Bool := !f.nega && !f.negb && !f.absa && !f.absb

/-- A rounding code of the word that names a mode (04 R79). -/
def rndOk (f : V3) : Bool := decide (f.rnd.toNat ≤ 4)

/-- The field rules of a two-source FP32 entry without rounding fields. -/
def fpFields (h : Hdr) (f : V3) : Bool :=
  typeIn f.type [6, 8] && f.fslot == 0 && f.zero == 0 && srcOk f.srca 1 && srcOk f.srcb 1 && srcOk f.srcc 1 &&
  destOk h 1 [f.srca, f.srcb, f.srcc]

/-- A rounded FP32 instruction: the exact result of each active lane, rounded once (08 R157). -/
def fpRounded (s : State) (h : Hdr) (f : V3) (i : Instr) (fields : Bool) (reads : List Nat) (g : Env → Nat → Num) :
    Host.Outcome State Fault Refusal :=
  compute (peeks := seedPeek f.rnd) s h i (fpFields h f && rndOk f && fields) reads 1 fun e l =>
    [toF32 f.rnd.toNat f.sat (e.draw l 0) (g e l)]

/-- FADD (08 R157). -/
def execFadd (h : Hdr) (f : V3) (s : State) : Host.Outcome State Fault Refusal :=
  fpRounded s h f (.fadd h f) (nul f.srcc) (rd f.srca 1 ++ rd f.srcb 1) fun e l =>
    (f32 (codeA e.w f l)).add f.rnd.toNat (f32 (codeB e.w f l))

/-- FSUB (08 R157). -/
def execFsub (h : Hdr) (f : V3) (s : State) : Host.Outcome State Fault Refusal :=
  fpRounded s h f (.fsub h f) (nul f.srcc) (rd f.srca 1 ++ rd f.srcb 1) fun e l =>
    (f32 (codeA e.w f l)).add f.rnd.toNat (f32 (codeB e.w f l)).neg

/-- FMUL (08 R157). -/
def execFmul (h : Hdr) (f : V3) (s : State) : Host.Outcome State Fault Refusal :=
  fpRounded s h f (.fmul h f) (nul f.srcc) (rd f.srca 1 ++ rd f.srcb 1) fun e l =>
    (f32 (codeA e.w f l)).mul (f32 (codeB e.w f l))

/-- FFMA: one rounding of the exact a × b + c (08 R157). -/
def execFfma (h : Hdr) (f : V3) (s : State) : Host.Outcome State Fault Refusal :=
  fpRounded s h f (.ffma h f) true (rd f.srca 1 ++ rd f.srcb 1 ++ rd f.srcc 1) fun e l =>
    ((f32 (codeA e.w f l)).mul (f32 (codeB e.w f l))).add f.rnd.toNat (f32 (e.w.word f.srcc l))

/-- The order of FMIN and FMAX: −0 is below +0 (08 R158). -/
def belowZ (a b : Num) : Bool := a.lt b || (a.isZero && b.isZero && a.isNeg && !b.isNeg)

/-- The smaller or larger of two FP32 codes: one NaN gives the other operand, two the canonical NaN (08 R158). -/
def fpPick (max : Bool) (a b : Word) : Word :=
  let x := f32 a
  let y := f32 b
  if x.isNan && y.isNan then nan32
  else if x.isNan then b
  else if y.isNan then a
  else if max then (if belowZ x y then b else a) else (if belowZ y x then b else a)

/-- FMIN and FMAX (08 R158). -/
def fpMinMax (s : State) (h : Hdr) (f : V3) (i : Instr) (max : Bool) : Host.Outcome State Fault Refusal :=
  compute s h i (fpFields h f && nul f.srcc && f.rnd == 0 && !f.sat) (rd f.srca 1 ++ rd f.srcb 1) 1 fun e l =>
    [fpPick max (codeA e.w f l) (codeB e.w f l)]

/-- FMIN (08 R158). -/
def execFmin (h : Hdr) (f : V3) (s : State) : Host.Outcome State Fault Refusal := fpMinMax s h f (.fmin h f) false

/-- FMAX (08 R158). -/
def execFmax (h : Hdr) (f : V3) (s : State) : Host.Outcome State Fault Refusal := fpMinMax s h f (.fmax h f) true

/-- The bit that FCLASS sets (08 R159). -/
def classBit (x : Word) : Nat :=
  match f32 x with
  | .nan => 8
  | .inf n => if n then 0 else 7
  | .fin n m _ =>
    if m = 0 then (if n then 3 else 4)
    else if m < 2 ^ 23 then (if n then 2 else 5)
    else (if n then 1 else 6)

/-- FCLASS (08 R159). -/
def execFclass (h : Hdr) (f : V3) (s : State) : Host.Outcome State Fault Refusal :=
  compute s h (.fclass h f)
    (fpFields h f && nul f.srcb && nul f.srcc && f.rnd == 0 && !f.sat && noMods f) (rd f.srca 1) 1 fun e l =>
      [BitVec.ofNat 32 (2 ^ classBit (e.w.word f.srca l))]

/-! ### Packed half-width arithmetic -/

/-- The field rules of HADD2, HMUL2 and HFMA2 (08 R164). -/
def halfFields (h : Hdr) (f : V3) : Bool :=
  typeIn f.type [9, 10] && f.fslot == 0 && f.zero == 0 && rndOk f && srcOk f.srca 1 && srcOk f.srcb 1 &&
  srcOk f.srcc 1 && destOk h 1 [f.srca, f.srcb, f.srcc]

/-- The format code of a packed half-width instruction: BF16 or FP16. -/
def halfFmt (f : V3) : Nat := if f.type = 9 then 1 else 2

/-- Element `e` of a word with modifiers. -/
def halfElem (f : V3) (neg abs : Bool) (x : Word) (e : Nat) : Num :=
  decodeFloat (halfFmt f) (modBits 16 neg abs (x.toNat / 2 ^ (16 * e) % 65536))

/-- A packed half-width instruction: two elements that never interact, each rounded once (08 R164). -/
def halfOp (s : State) (h : Hdr) (f : V3) (i : Instr) (fields : Bool) (reads : List Nat) (g : Num → Num → Num → Num) :
    Host.Outcome State Fault Refusal :=
  compute (peeks := seedPeek f.rnd) s h i (halfFields h f && fields) reads 1 fun e l =>
    let one := fun (j : Nat) =>
      (roundFloat (halfFmt f) f.rnd.toNat f.sat (e.draw l j)
        (g (halfElem f f.nega f.absa (e.w.word f.srca l) j) (halfElem f f.negb f.absb (e.w.word f.srcb l) j)
          (halfElem f false false (e.w.word f.srcc l) j))).1
    [BitVec.ofNat 32 (one 0 + 65536 * one 1)]

/-- HADD2 (08 R164). -/
def execHadd2 (h : Hdr) (f : V3) (s : State) : Host.Outcome State Fault Refusal :=
  halfOp s h f (.hadd2 h f) (nul f.srcc) (rd f.srca 1 ++ rd f.srcb 1) fun a b _ => a.add f.rnd.toNat b

/-- HMUL2 (08 R164). -/
def execHmul2 (h : Hdr) (f : V3) (s : State) : Host.Outcome State Fault Refusal :=
  halfOp s h f (.hmul2 h f) (nul f.srcc) (rd f.srca 1 ++ rd f.srcb 1) fun a b _ => a.mul b

/-- HFMA2 (08 R164). -/
def execHfma2 (h : Hdr) (f : V3) (s : State) : Host.Outcome State Fault Refusal :=
  halfOp s h f (.hfma2 h f) true (rd f.srca 1 ++ rd f.srcb 1 ++ rd f.srcc 1) fun a b c => (a.mul b).add f.rnd.toNat c

/-! ### Integer dot product and warp reduction -/

/-- Byte `i` of a word as an integer of type .i8 or .b8. -/
def byteInt (t : BitVec 4) (x : Word) (i : Nat) : Int := typeInt t (x.toNat / 256 ^ i)

/-- The exact sum of DOT4 (08 R165). -/
def dot4Sum (t : BitVec 4) (a b c : Word) : Int :=
  (List.range 4).foldl (fun n i => n + byteInt t a i * byteInt t b i) (typeInt (t + 2) c.toNat)

/-- DOT4 (08 R165). -/
def execDot4 (h : Hdr) (f : V3) (s : State) : Host.Outcome State Fault Refusal :=
  compute s h (.dot4 h f)
    (typeIn f.type [0, 4] && f.fslot == 0 && f.rnd == 0 && f.zero == 0 && noMods f && srcOk f.srca 1 && srcOk f.srcb 1 &&
      srcOk f.srcc 1 && destOk h 1 [f.srca, f.srcb, f.srcc])
    (rd f.srca 1 ++ rd f.srcb 1 ++ rd f.srcc 1) 1 fun e l =>
      let x := dot4Sum f.type (e.w.word f.srca l) (e.w.word f.srcb l) (e.w.word f.srcc l)
      intWords (f.type + 2) (if f.sat then typeClamp (f.type + 2) x else x)

/-- One level of a warp reduction: neighbours combine, an absent position yields the other (05 R111). `d` is the distance
between positions that are left, `p` the position of the first. -/
def wredLevel {α : Type} (comb : Nat → α → α → α) (d : Nat) : Nat → List (Option α) → List (Option α)
  | p, x :: y :: rest =>
    (match x, y with
      | some a, some b => some (comb p a b)
      | some a, none => some a
      | none, y => y) :: wredLevel comb d (p + 2 * d) rest
  | _, l => l

/-- The five levels of a warp reduction; position 0 holds the result (05 R111). -/
def wredAll {α : Type} (comb : Nat → Nat → α → α → α) (xs : List (Option α)) : Option α :=
  ((List.range 5).foldl (fun l j => wredLevel (comb (j + 1)) (2 ^ j) 0 l) xs).headD none

/-- The operation of WRED: add, min, max (08 R166). -/
def wredOp (f : V3) : Nat := (if f.absa then 2 else 0) + (if f.absb then 1 else 0)

/-- Source A of WRED in a lane, negated by bit 35: the sign bit under FP32, two's complement otherwise (08 R166). -/
def wredIn (w : Warp) (f : V3) (l : Nat) : Word :=
  let x := w.word f.srca l
  if !f.nega then x else if f.type = 8 then BitVec.ofNat 32 (modBits 32 true false x.toNat) else -x

/-- One combination of WRED at a position and level (08 R166). -/
def wredComb (e : Env) (f : V3) (level pos : Nat) (a b : Word) : Word :=
  if f.type = 8 then
    match wredOp f with
    | 0 => toF32 f.rnd.toNat f.sat (e.draw pos level) ((f32 a).add f.rnd.toNat (f32 b))
    | o => fpPick (o == 2) a b
  else
    let x := typeInt f.type a.toNat
    let y := typeInt f.type b.toNat
    let r := match wredOp f with
      | 0 => if f.sat then typeClamp f.type (x + y) else x + y
      | 1 => min x y
      | _ => max x y
    BitVec.ofInt 32 r

/-- The field rules of WRED (08 R166). -/
def wredFields (h : Hdr) (f : V3) : Bool :=
  typeIn f.type [2, 6, 8] && f.fslot == 0 && f.zero == 0 && !f.negb && wredOp f != 3 && srcOk f.srca 1 && nul f.srcb &&
  nul f.srcc && destOk h 1 [] && rndOk f && (f.type == 8 || f.rnd == 0) && (wredOp f == 0 || (f.rnd == 0 && !f.sat))

/-- The result of WRED over the active lanes; an FP32 result that is a NaN is the canonical one, that of a lone lane too (05
R97; 08 R155). -/
def wredResult (e : Env) (f : V3) : Word :=
  let r := (wredAll (wredComb e f) (allLanes.map fun i => if laneOn e.act i then some (wredIn e.w f i) else none)).getD 0
  if f.type = 8 ∧ (f32 r).isNan then 0x7FC00000 else r

/-- WRED (08 R166). -/
def execWred (h : Hdr) (f : V3) (s : State) : Host.Outcome State Fault Refusal :=
  compute (peeks := seedPeek f.rnd) s h (.wred h f) (wredFields h f) (rd f.srca 1) 1 fun e _ => [wredResult e f]

end Sys2Proof.Machine
end

