-- ==== Sys2Proof/Machine/Translate.lean ====
section
/-! DEFINITION. Physical memory, page-table walks, leases, and page requests (14 R260, R264; 20 R305 to R326). -/
namespace Sys2Proof.Machine

/-! ### Physical memory -/

/-- A physical byte: in device memory, or in host memory (14 R251). -/
structure Phys where
  host : Bool
  addr : Nat
  deriving DecidableEq, Repr

/-- The physical byte a configuration address or table frame names: device memory below 2^40, host memory from there up
(DESIGN CHOICE, log 12). -/
def physOf (a : Nat) : Phys := { host := decide (2 ^ 40 ≤ a), addr := a }

/-- The key of a 128-byte line for poison: host lines lie above 2^60. -/
def lineKey (p : Phys) : Nat := (if p.host then 2 ^ 60 else 0) + p.addr / 128

/-- Whether a byte lies in a poisoned line (24 R368). -/
def State.poisoned (s : State) (p : Phys) : Bool := s.poison.contains (lineKey p)

/-- Bytes at the home L2 (14 R260). -/
def State.physRead (s : State) (p : Phys) (n : Nat) : List Byte :=
  if p.host then s.host.readN p.addr n else s.dev.readN p.addr n

/-- The lines that `n` bytes from `a` touch, first to last. -/
def linesFrom (a n : Nat) : List Nat :=
  if n = 0 then [] else (List.range ((a + n - 1) / 128 - a / 128 + 1)).map fun j => a / 128 + j

/-- The line number of a physical byte. -/
def Phys.line (p : Phys) : Nat := p.addr / 128

/-- Bytes of the memory behind the home L2, which an uncached access reads (09 R178). -/
def State.behindRead (s : State) (p : Phys) (n : Nat) : List Byte := (if p.host then s.hostBehind else s.dram).readN p.addr n

/-! ### The lines of the home L2s (14 R260; 23 R346) -/

/-- Whether an entry of the L2s is a line of host or device memory. -/
def L2Line.is (l : L2Line) (host : Bool) (line : Nat) : Bool := l.host == host && l.addr == line

/-- Whether some home L2 holds a line. -/
def State.l2Has (s : State) (host : Bool) (line : Nat) : Bool := s.l2.any fun l => l.is host line

/-- The slice of a line's home L2 for a partition: that of the channel group of a device line, and for a host line slice
n_0 + (line mod n) of the partition (14 R260). -/
def State.homeOf (s : State) (part : Nat) (host : Bool) (line : Nat) : Nat :=
  if host then (s.part part).first + line % max (s.part part).size 1 else line / 2 ^ 28

/-- The slice of a physical byte's home L2 (14 R260). -/
def State.homeSlice (s : State) (part : Nat) (a : Phys) : Nat := s.homeOf part a.host a.line

/-- The set that a line occupies in its home L2, which has 4,096 sets of 16 ways (14 R260). DESIGN CHOICE (log 13): which of the
slice's sets a line takes. -/
def State.l2Set (s : State) (part : Nat) (host : Bool) (line : Nat) : Nat :=
  s.homeOf part host line * 4096 + (if host then line / max (s.part part).size 1 else line) % 4096

/-- The bits of the bytes of line `l` among the `n` bytes from `a`. -/
def lineBits (l a n : Nat) : BitVec 128 := BitVec.ofNat 128 (2 ^ (min (a + n - 128 * l) 128) - 2 ^ (a - 128 * l))

/-- The bytes of line `l` that a view of it has and the memory behind has not, written to that memory. -/
def Memory.takeDirty (behind view : Memory) (l : L2Line) : Memory :=
  (List.range 128).foldl (fun m i =>
    if l.dirty.getLsbD i then m.write (128 * l.addr + i) (view.read (128 * l.addr + i)) else m) behind

/-- Writes the modified bytes of a held line to the memory behind it; the line stays valid (09 R192). -/
def State.cleanLine (s : State) (l : L2Line) : State :=
  let s1 := { s with l2 := s.l2.map fun (x : L2Line) => if x.is l.host l.addr then { x with dirty := 0 } else x }
  if l.host then { s1 with hostBehind := s.hostBehind.takeDirty s.host l } else { s1 with dram := s.dram.takeDirty s.dev l }

/-- Gives up a held line: its modified bytes go to the memory behind, which is what a later access finds (14 R260;
23 R346). -/
def State.giveUpLine (s : State) (l : L2Line) : State :=
  let s1 := s.cleanLine l
  let s2 := { s1 with l2 := s1.l2.filter fun (x : L2Line) => !x.is l.host l.addr }
  if l.host then { s2 with host := s2.host.writeN (128 * l.addr) (s2.hostBehind.readN (128 * l.addr) 128) }
  else { s2 with dev := s2.dev.writeN (128 * l.addr) (s2.dram.readN (128 * l.addr) 128) }

/-- The entry of a full set that is given up first: one of hint .ef before others, one of hint .el after others, and of
those the longest held (09 R178; DESIGN CHOICE, log 13). -/
def victimOf {α : Type} (hint : α → BitVec 2) (set : List α) : Option α :=
  match set.find? fun l => hint l == 1 with
  | some l => some l
  | none =>
    match set.find? fun l => hint l != 2 with
    | some l => some l
    | none => set.head?

/-- Whether a hint marks a line: .ef or .el (09 R178). -/
def marks (hint : BitVec 2) : Bool := hint == 1 || hint == 2

/-- A line enters its set; a full set gives up a line first. -/
def State.l2Add (s : State) (x : L2Line) : State :=
  let set := s.l2.filter fun l => l.set == x.set
  let s1 := if set.length < 16 then s
    else match victimOf L2Line.hint set with
      | some l => s.giveUpLine l
      | none => s
  { s1 with l2 := s1.l2 ++ [x] }

/-- Holds a line at its home L2, with more bytes modified, and marked by the hint. DESIGN CHOICE (log 13): a host line that another
partition's L2 holds leaves that one first, so one L2 holds it at a time. -/
def State.l2Hold (s : State) (x : L2Line) : State :=
  match s.l2.find? fun l => l.is x.host x.addr with
  | some l =>
    if l.set = x.set then
      { s with l2 := s.l2.map fun (l : L2Line) => if l.is x.host x.addr then
          { l with dirty := l.dirty ||| x.dirty, hint := if marks x.hint then x.hint else l.hint } else l }
    else (s.giveUpLine l).l2Add x
  | none => s.l2Add x

/-- Counts bytes of host or device memory that work of a context moves (24 R367). -/
def State.countAt (s : State) (x : Nat) (p : Phys) (n : Nat) : State := s.count x (if p.host then 0 else 4) n

/-- A read of a context at the home L2 fills the lines of its bytes; one that the L2 lacks comes from behind it. -/
def State.l2Fill (s : State) (x : Nat) (p : Phys) (n : Nat) (hint : BitVec 2) : State :=
  (linesFrom p.addr n).foldl (fun s l =>
    (if s.l2Has p.host l then s else s.countAt x p 128).l2Hold
      { host := p.host, addr := l, set := s.l2Set (x / 4096) p.host l, dirty := 0, hint := hint }) s

/-- A write of `n` bytes clears the poison of the lines that it writes whole (24 R368). -/
def State.unpoison (s : State) (p : Phys) (n : Nat) : State :=
  let whole := (linesFrom p.addr n).filter fun l => decide (p.addr ≤ 128 * l) && decide (128 * l + 128 ≤ p.addr + n)
  let gone := whole.map fun l => lineKey { p with addr := 128 * l }
  { s with poison := s.poison.filter fun k => !gone.contains k }

/-- Writes bytes at the home L2 for a partition, which then holds their lines with those bytes modified. -/
def State.homeWrite (s : State) (part : Nat) (p : Phys) (bs : List Byte) : State :=
  let s1 := (linesFrom p.addr bs.length).foldl (fun s l =>
    s.l2Hold { host := p.host, addr := l, set := s.l2Set part p.host l, dirty := lineBits l p.addr bs.length, hint := 0 }) s
  let s2 := s1.unpoison p bs.length
  if p.host then { s2 with host := s2.host.writeN p.addr bs } else { s2 with dev := s2.dev.writeN p.addr bs }

/-- Work of a context writes bytes at the home L2. -/
def State.physWrite (s : State) (x : Nat) (p : Phys) (bs : List Byte) : State :=
  (s.countAt x p bs.length).homeWrite (x / 4096) p bs

/-- Host memory is written from within the host's domain: every home L2 gives up its lines first (23 R346). L1 copies stay as
they are. -/
def State.hostPut (s : State) (addr : Nat) (bs : List Byte) : State :=
  let lines := linesFrom addr bs.length
  let s1 := (s.l2.filter fun l => l.host && lines.contains l.addr).foldl (fun s l => s.giveUpLine l) s
  let s2 := s1.unpoison { host := true, addr := addr } bs.length
  { s2 with host := s2.host.writeN addr bs, hostBehind := s2.hostBehind.writeN addr bs }

/-- Writes bytes for the hub, which acts for no partition: at the home L2 in device memory, else in the host's domain. -/
def State.hubWrite (s : State) (p : Phys) (bs : List Byte) : State :=
  if p.host then s.hostPut p.addr bs else s.homeWrite 0 p bs

/-- Work of a context writes the memory behind the L2, bypassing it: a line that the L2 holds keeps its own bytes (09 R178). -/
def State.behindWrite (s : State) (x : Nat) (p : Phys) (bs : List Byte) : State :=
  let new := bs.zipIdx.filter fun b => !s.l2Has p.host ((p.addr + b.2) / 128)
  let show_ := fun (m : Memory) => new.foldl (fun m b => m.write (p.addr + b.2) b.1) m
  let s1 := (s.countAt x p bs.length).unpoison p bs.length
  if p.host then { s1 with hostBehind := s.hostBehind.writeN p.addr bs, host := show_ s.host }
  else { s1 with dram := s.dram.writeN p.addr bs, dev := show_ s.dev }

/-- A little-endian number at the home L2. -/
def State.physNat (s : State) (p : Phys) (n : Nat) : Nat := leNat (s.physRead p n)

/-! ### Leases (20 R310, R311) -/

/-- The time of a translating unit's die; command processors read the hub's copy (20 R305). -/
def State.unitTime (s : State) (u : TUnit) : Nat :=
  match u with
  | .core n => s.timeAt n
  | .array n => s.timeAt n
  | .engine n => ((s.time : Int) + s.dieDev.getD (n / 32) 0).toNat
  | .cp _ => s.time

/-- The die of a unit, if it lies on a compute die. -/
def unitDie (u : TUnit) : Option Nat :=
  match u with
  | .core n => some (dieOf n)
  | .array n => some (dieOf n)
  | .engine n => some (n / 32)
  | .cp _ => none

/-- The expiry that a read at tick `t` of an entry with lease code `c` contributes (20 R310, R311). Code 0 counts as
1,024 ticks; code 15 sets no limit. -/
def leaseExpiry (t : Nat) (c : Nat) : Option Nat := if c = 15 then none else some (t + 2 ^ (max c 1 + 9))

/-- The earlier of two expiries. -/
def minExpiry : Option Nat → Option Nat → Option Nat
  | none, y => y
  | x, none => x
  | some x, some y => some (min x y)

/-- Whether an item is still usable at a time. -/
def unexpired (e : Option Nat) (t : Nat) : Bool :=
  match e with
  | none => true
  | some x => decide (t < x)

/-! ### Walks (20 R307 to R309, R317 to R319) -/

/-- Why a translation fails: its code; for a stage-2 miss the guest page and whether it holds a table. -/
structure XFault where
  code : BitVec 8
  gpa : Nat
  table : Bool
  deriving DecidableEq, Repr

/-- What a walk has gathered: the least expiry, whether some entry may not be cached, the items it read, and how many entries it
has read in host and in device memory. -/
structure WAcc where
  exp : Option Nat
  once : Bool
  items : List WalkItem
  fromHost : Nat
  fromDev : Nat
  deriving DecidableEq, Repr

/-- What a walk of one stage ends in: the output address of the page, its size and its leaf. -/
structure Leaf where
  out : Nat
  size : Nat
  entry : BitVec 64
  deriving DecidableEq, Repr

/-- Bits of an entry as a number. -/
def bitsOf (e : BitVec 64) (lo n : Nat) : Nat := e.toNat / 2 ^ lo % 2 ^ n

/-- The frame of an entry, as an address. -/
def frameOf (e : BitVec 64) : Nat := bitsOf e 12 40 * 4096

/-- The size of the page that a leaf at a level maps (20 R307). -/
def levelSize (lvl : Nat) : Nat := 4096 * 512 ^ lvl

/-- Whether a table entry is well formed: everything but frame, lease and valid is 0 (20 R308). -/
def tableOk (lvl : Nat) (e : BitVec 64) : Bool :=
  lvl != 0 && !e.getLsbD 63 && bitsOf e 52 11 == 0 && bitsOf e 5 3 == 0 && bitsOf e 2 3 == 0

/-- Whether a leaf is well formed at its level (20 R308); a guest's stage-1 leaf holds kind 0 and peerhi 0 (20 R319). -/
def leafOk (lvl : Nat) (guest1 : Bool) (e : BitVec 64) : Bool :=
  decide (lvl ≤ 2) && decide (bitsOf e 52 4 ≤ 3) && bitsOf e 6 2 == 0 && (lvl == 0 || !e.getLsbD 5) &&
  (bitsOf e 52 4 == 1 || bitsOf e 56 7 == 0) && frameOf e % levelSize lvl == 0 &&
  (!guest1 || (bitsOf e 52 4 == 0 && bitsOf e 56 7 == 0))

/-- The page that a leaf maps: a contiguous level-0 leaf covers its 64 KiB group (20 R309). -/
def leafPage (lvl : Nat) (e : BitVec 64) : Leaf :=
  if lvl = 0 ∧ e.getLsbD 5 then { out := frameOf e / 65536 * 65536, size := 65536, entry := e }
  else { out := frameOf e, size := levelSize lvl, entry := e }

/-- What a walker needs to know: its unit, context, time, and whether it may use its walk cache. -/
structure Walker where
  unit : TUnit
  ctx : Nat
  time : Nat
  fresh : Bool
  deriving DecidableEq, Repr

/-- Where a table lies: its first byte, and whether its page bypasses the L2. -/
structure Table where
  phys : Phys
  uncached : Bool
  deriving DecidableEq, Repr

/-- The place of a table that no stage 2 maps. -/
def tableAt (a : Nat) : Table := { phys := physOf a, uncached := false }

/-- The number of a physical byte under which a walk cache keeps the entry there. -/
def Phys.key (p : Phys) : Nat := (if p.host then 2 ^ 60 else 0) + p.addr

/-- Reads entry `i` of a table: a cached item while its lease lasts, or memory, once, as a 64-bit load (20 R307, R311). A
poisoned line gives UE. An item expires no later than anything the walk has read or used on its way, and is kept only where
none of that had lease code 0. -/
def State.readEntry (s : State) (k : Walker) (a : WAcc) (tb : Table) (i : Nat) : Except XFault (BitVec 64 × WAcc) :=
  let at_ : Phys := { tb.phys with addr := tb.phys.addr + 8 * i }
  match if k.fresh then none else
      s.walks.find? fun w => w.unit == k.unit && w.ctx == k.ctx && w.addr == at_.key && unexpired w.expiry k.time with
  | some w => .ok (w.value, { a with exp := minExpiry a.exp w.expiry })
  | none =>
    if s.poisoned at_ then .error { code := cUe, gpa := 0, table := false }
    else
      let e : BitVec 64 := BitVec.ofNat 64 (leNat (if tb.uncached then s.behindRead at_ 8 else s.physRead at_ 8))
      let c := bitsOf e 8 4
      let x := minExpiry a.exp (leaseExpiry k.time c)
      let once := a.once || c == 0
      .ok (e, { exp := x, once := once
                fromHost := if at_.host then a.fromHost + 1 else a.fromHost
                fromDev := if at_.host then a.fromDev else a.fromDev + 1
                items := if once then a.items
                  else a.items ++ [{ unit := k.unit, ctx := k.ctx, addr := at_.key, value := e, expiry := x }] })

/-- The walk of one stage from a table at `lvl` down. `place` finds where a table lies, at the cost of a walk of its own in a
guest. A miss gives `miss`; a malformed entry PERM. -/
def State.walkStage (s : State) (k : Walker) (guest1 : Bool) (miss : XFault)
    (place : Nat → WAcc → Except XFault (Table × WAcc)) (va : Nat) : Nat → Nat → WAcc → Except XFault (Leaf × WAcc)
  | 0, table, a =>
    match place table a with
    | .error x => .error x
    | .ok (tb, a) =>
      match s.readEntry k a tb (va / 4096 % 512) with
      | .error x => .error x
      | .ok (e, a) =>
        if !e.getLsbD 0 then .error miss
        else if e.getLsbD 1 && leafOk 0 guest1 e then .ok (leafPage 0 e, a)
        else .error { code := cPerm, gpa := 0, table := false }
  | l + 1, table, a =>
    match place table a with
    | .error x => .error x
    | .ok (tb, a) =>
      match s.readEntry k a tb (va / levelSize (l + 1) % 512) with
      | .error x => .error x
      | .ok (e, a) =>
        if !e.getLsbD 0 then .error miss
        else if e.getLsbD 1 then
          (if leafOk (l + 1) guest1 e then .ok (leafPage (l + 1) e, a) else .error { code := cPerm, gpa := 0, table := false })
        else if tableOk (l + 1) e then State.walkStage s k guest1 miss place va l (frameOf e) a
        else .error { code := cPerm, gpa := 0, table := false }

/-- A walk of stage 2 for a guest physical address; `table` says that the address holds a stage-1 table (20 R318). -/
def State.walk2 (s : State) (k : Walker) (root2 : BitVec 64) (gpa : Nat) (table : Bool) (a : WAcc) :
    Except XFault (Leaf × WAcc) :=
  if 2 ^ 48 ≤ gpa then .error { code := cPerm, gpa := 0, table := false }
  else s.walkStage k false { code := cPageS2, gpa := gpa / 4096 * 4096, table := table } (fun t a => .ok (tableAt t, a)) gpa 3
    (frameOf root2) { a with exp := minExpiry a.exp (leaseExpiry k.time (bitsOf root2 8 4)), once := a.once || bitsOf root2 8 4 == 0 }

/-- The kind of a leaf. -/
def kindOf (e : BitVec 64) : PKind :=
  match bitsOf e 52 4 with
  | 0 => .localMem
  | 1 => .peer
  | 2 => .host
  | _ => .uncached

/-- A feature bit in force (23 R349). -/
def State.feature (s : State) (i : Nat) : Bool := s.boot.enabled.getLsbD i

/-- Whether a device address lies in a channel group of a partition (14 R264). -/
def State.groupOk (s : State) (p a : Nat) : Bool :=
  let q := s.part p
  decide (a < 2 ^ 40) && decide (q.first ≤ a / 2 ^ 35) && decide (a / 2 ^ 35 < q.first + q.size)

/-- What refuses an access of a partition by the kind of its page: `peer` admits a leaf of kind peer (14 R264; 09 R187; 23
R349). -/
def State.kindFault (s : State) (p : Nat) (kind : PKind) (a : Nat) (peer : Bool) : Option (BitVec 8) :=
  match kind with
  | .localMem => if s.groupOk p a then none else some cPerm
  | .peer => if !s.feature 3 then some cPerm else if peer then none else some cPeerPlain
  | .host => if s.feature 1 then none else some cPerm
  | .uncached => if 2 ^ 40 ≤ a ∨ s.groupOk p a then none else some cPerm

/-- The physical byte of an address on a page of a kind. -/
def PKind.phys (kind : PKind) (a : Nat) : Phys :=
  match kind with
  | .localMem => { host := false, addr := a }
  | .peer => { host := false, addr := a }
  | .host => { host := true, addr := a }
  | .uncached => physOf a

/-- Where a stage-1 table lies whose page a stage-2 leaf maps: the leaf gives kind and poison too (20 R318, R319). -/
def State.guestTable (s : State) (p : Nat) (l : Leaf) (t : Nat) : Except XFault Table :=
  let a := l.out + t % l.size
  if l.entry.getLsbD 63 then .error { code := cUe, gpa := 0, table := false }
  else match s.kindFault p (kindOf l.entry) a false with
    | some code => .error { code := code, gpa := 0, table := false }
    | none => .ok { phys := (kindOf l.entry).phys a, uncached := kindOf l.entry == .uncached }

/-- A full walk for a virtual address: of two stages where the context is a guest, which one of a physical function never is (20
R307, R317 to R319). -/
def State.walk (s : State) (k : Walker) (va : Nat) : Except XFault (TlbItem × WAcc) :=
  let d := (s.ctx k.ctx).desc
  let a0 : WAcc := { exp := leaseExpiry k.time (bitsOf d.root1 8 4), once := bitsOf d.root1 8 4 == 0, items := [], fromHost := 0, fromDev := 0 }
  let miss1 : XFault := { code := cPageS1, gpa := 0, table := false }
  let mk (l1 : Leaf) (gpa : Nat) (l2 : Option Leaf) (a : WAcc) : TlbItem × WAcc :=
    let e1 := l1.entry
    let e2 := match l2 with
      | some l => l.entry
      | none => e1
    let size := match l2 with
      | some l => min l1.size l.size
      | none => l1.size
    let base := va / size * size
    let pa := match l2 with
      | some l => l.out + (gpa / size * size) % l.size
      | none => l1.out + base % l1.size
    ({ unit := k.unit, ctx := k.ctx, va := base, size := size, pa := pa, kind := kindOf e2, peerhi := e2.extractLsb' 56 7,
       poison := e1.getLsbD 63 || e2.getLsbD 63, user := e1.getLsbD 4, exec1 := e1.getLsbD 3, write1 := e1.getLsbD 2,
       guest := l2.isSome, exec2 := e2.getLsbD 3, write2 := e2.getLsbD 2, gpa := gpa / size * size,
       expiry := if a.once then minExpiry a.exp (some (k.time + 1024)) else a.exp, once := a.once
       lease := (a.exp.getD k.time) - k.time }, a)
  if d.root2.getLsbD 0 && decide ((s.ctx k.ctx).fn < 256) then
    match s.walkStage k true miss1
        (fun t a => match s.walk2 k d.root2 t true a with
          | .error x => .error x
          | .ok (l, a) => (s.guestTable (k.ctx / 4096) l t).map fun tb => (tb, a))
        va 3 (frameOf d.root1) a0 with
    | .error x => .error x
    | .ok (l1, a) =>
      let gpa := l1.out + va % l1.size
      match s.walk2 k d.root2 gpa false a with
      | .error x => .error x
      | .ok (l2, a) => .ok (mk l1 gpa (some l2) a)
  else
    match s.walkStage k false miss1 (fun t a => .ok (tableAt t, a)) va 3 (frameOf d.root1) a0 with
    | .error x => .error x
    | .ok (l1, a) => .ok (mk l1 0 none a)

/-! ### Translation of an access -/

/-- An access kind, coded as in event records (21 R329). -/
inductive AccKind where
  | read | write | rmw | fetch
  deriving DecidableEq, Repr

/-- The access code of an event record. -/
def AccKind.code : AccKind → Nat
  | .read => 0
  | .write => 1
  | .rmw => 2
  | .fetch => 3

/-- Whether an access writes. -/
def AccKind.writes : AccKind → Bool
  | .write => true
  | .rmw => true
  | _ => false

/-- The checks of an item against an access (20 R308, R319; 14 R264; 23 R349; 09 R187). `sys` ignores user; `peer` admits
a peer-kind leaf. -/
def State.permit (s : State) (t : TlbItem) (va : Nat) (k : AccKind) (sys peer : Bool) : Option XFault :=
  let perm : XFault := { code := cPerm, gpa := 0, table := false }
  if t.poison then some { code := cUe, gpa := 0, table := false }
  else if (!sys && !t.user) || (k == .fetch && !t.exec1) || (k.writes && !t.write1) then some perm
  else if t.guest && ((k == .fetch && !t.exec2) || (k.writes && !t.write2)) then
    some { code := cPageS2, gpa := (t.gpa + va % t.size) / 4096 * 4096, table := false }
  else (s.kindFault (t.ctx / 4096) t.kind (t.pa + va % t.size) peer).map fun code => { code := code, gpa := 0, table := false }

/-- Whether an item serves a unit, context and address at a time. -/
def TlbItem.serves (t : TlbItem) (u : TUnit) (ctx va time : Nat) : Bool :=
  t.unit == u && t.ctx == ctx && decide (t.va ≤ va) && decide (va < t.va + t.size) && unexpired t.expiry time && !t.once

/-- Where a translated access goes. -/
structure Xlated where
  phys : Phys
  item : TlbItem
  deriving DecidableEq, Repr

/-- The partition of a translated access. -/
def Xlated.part (t : Xlated) : Nat := t.item.ctx / 4096

/-- The physical byte of an address under an item. -/
def TlbItem.phys (t : TlbItem) (va : Nat) : Phys := t.kind.phys (t.pa + va % t.size)

/-- Counts the entries that a walk for a context has read (24 R364). -/
def State.countWalk (s : State) (x : Nat) (a : WAcc) : State :=
  let s1 := if a.fromHost = 0 then s else s.count x 0 (8 * a.fromHost)
  if a.fromDev = 0 then s1 else s1.count x 4 (8 * a.fromDev)

/-- Translates an address for an access: an unexpired item of the unit, or a walk, whose items are then cached unless
their lease forbids it (20 R310, R311). `fresh` walks even when an item exists, which a walk that fails leaves discarded (20 R313;
23 R355). -/
def State.translate (s : State) (u : TUnit) (ctx va : Nat) (k : AccKind) (sys peer fresh : Bool) :
    Except XFault Xlated × State :=
  let time := s.unitTime u
  let old : State := if fresh then { s with tlb := s.tlb.filter fun t => !t.serves u ctx va time } else s
  let done := fun (t : TlbItem) (s : State) =>
    match s.permit t va k sys peer with
    | some x => ((.error x : Except XFault Xlated), s)
    | none => (.ok { phys := t.phys va, item := t }, s)
  match if fresh then none else s.tlb.find? fun t => t.serves u ctx va time with
  | some t => done t s
  | none =>
    match s.walk { unit := u, ctx := ctx, time := time, fresh := fresh } va with
    | .error x => (.error x, old)
    | .ok (t, a) =>
      match s.permit t va k sys peer with
      | some x => (.error x, old)
      | none =>
        let s1 : State := { s with
          tlb := (s.tlb.filter fun o => !(o.unit == u && o.ctx == ctx && decide (o.va < t.va + t.size) && decide (t.va < o.va + o.size)))
            ++ (if t.once then [] else [t])
          walks := (s.walks.filter fun w => !a.items.any fun i => i.unit == w.unit && i.ctx == w.ctx && i.addr == w.addr) ++ a.items }
        (.ok { phys := t.phys va, item := t }, s1.countWalk ctx a)

/-- Bytes of a page as its kind gives them: an uncached page is read behind the L2 (09 R178). -/
def State.pageRead (s : State) (t : Xlated) (n : Nat) : List Byte :=
  if t.item.kind = .uncached then s.behindRead t.phys n else s.physRead t.phys n

/-- The lines that a read of a page at the home L2 fills. -/
def State.pageFill (s : State) (t : Xlated) (n : Nat) : State :=
  if t.item.kind = .uncached then s.countAt t.item.ctx t.phys n else s.l2Fill t.item.ctx t.phys n 0

/-- Writes bytes of a page at the point that its kind gives (09 R178). -/
def State.pageWrite (s : State) (t : Xlated) (bs : List Byte) : State :=
  if t.item.kind = .uncached then s.behindWrite t.item.ctx t.phys bs else s.physWrite t.item.ctx t.phys bs

/-- Discards every item of a context in a partition's units, pinned ones included (20 R314). Context keys name the
partition, so they name its units' items. -/
def State.flushCtx (s : State) (ctx : Nat) : State :=
  { s with tlb := s.tlb.filter fun t => t.ctx != ctx, walks := s.walks.filter fun w => w.ctx != ctx,
           maps := s.maps.filter fun m => m.ctx != ctx }

/-! ### Page requests (20 R323 to R326) -/

/-- The bit of a page request's kinds that an access sets: fetch, write, read, table (20 R325). -/
def kindBits (k : AccKind) (table : Bool) : BitVec 4 :=
  (match k with
    | .fetch => 8
    | .write => 4
    | .rmw => 4
    | .read => 2) ||| (if table then 1 else 0)

/-- Whether an entry is a request of the same function for the same page. -/
def PReq.joins (r : PReq) (vf gpa : Nat) : Bool := r.vf == vf && r.gpa == gpa

/-- The number of shared tags a function holds. -/
def State.sharedHeld (s : State) (vf : Nat) : Nat := (s.preqs.filter fun e => decide (768 ≤ e.1) && e.2.vf == vf).length

/-- The lowest free tag for a function: its reserved tags, then a shared one while it holds fewer than 256 (20 R323). -/
def State.tagFor (s : State) (vf : Nat) : Option Nat :=
  match s.preqs.free (4 * vf) 4 with
  | some t => some t
  | none => if s.sharedHeld vf < 256 then s.preqs.free 768 1280 else none

/-- The unit and source fields of a record (20 R325). -/
def unitFields (u : TUnit) : Nat × Nat :=
  match u with
  | .core n => (0, n)
  | .array n => (1, n)
  | .engine n => (2, n)
  | .cp p => (3, p)

/-- The 32 bytes of a page-request record (20 R325). -/
def preqBytes (tag : Nat) (r : PReq) : List Byte :=
  let (u, src) := unitFields r.unit
  let x : BitVec 256 :=
    (BitVec.ofNat 8 r.seq) ++ (BitVec.ofNat 36 (r.va / 4096)) ++ (BitVec.ofNat 36 (r.gpa / 4096)) ++ (BitVec.ofNat 64 r.time)
    ++ (BitVec.ofNat 12 r.ctx) ++ (BitVec.ofNat 8 r.vf) ++ (BitVec.ofNat 4 u) ++ r.kinds ++ (0 : BitVec 4)
    ++ (BitVec.ofNat 16 src) ++ (0 : BitVec 53) ++ (BitVec.ofNat 11 tag)
  leBytes 32 x.toNat

/-- The sequence number after another: 1 to 255, skipping 0 (20 R325). -/
def nextSeq (n : Nat) : Nat := if n = 255 then 1 else n + 1

/-- Gives a request a tag: its record is written to its partition's table, the counter rises and the page-request
interrupt is signalled (20 R325). -/
def State.takeTag (s : State) (tag : Nat) (r0 : PReq) : State :=
  let r := { r0 with seq := nextSeq (s.preqSeqs.getD tag 0) }
  let p := s.part r.part
  let s1 := s.homeWrite r.part (physOf (p.tableBase.toNat + 32 * tag)) (preqBytes tag r)
  let s2 := s1.modPart r.part fun q => { q with tableCount := (q.tableCount + 1) % 2 ^ 32 }
  let s3 := (s2.tally r.part 56 1).tally r.part (304 + 128 * r.vf) 1
  { s3 with preqs := s3.preqs.put tag r, preqSeqs := s3.preqSeqs.put tag r.seq, msix := s3.msix ++ [(pfKey r.part, 1)] }

/-- Makes or joins the page request of a stage-2 fault, and gives the request's number (20 R323). -/
def State.requestPage (s : State) (u : TUnit) (ctx va : Nat) (k : AccKind) (x : XFault) : Nat × State :=
  let c := s.ctx ctx
  let kb := kindBits k x.table
  match s.preqs.find? fun e => e.2.joins c.fn x.gpa with
  | some (tag, r) => (r.rid, { s with preqs := s.preqs.put tag { r with kinds := r.kinds ||| kb } })
  | none =>
    match s.preqHeld.find? fun r => r.joins c.fn x.gpa with
    | some r =>
      let more := fun (h : PReq) => if h.rid = r.rid then PReq.mk h.rid h.seq h.vf h.part h.ctx h.gpa h.va h.time h.unit (h.kinds ||| kb) else h
      (r.rid, { s with preqHeld := s.preqHeld.map more })
    | none =>
      let r : PReq :=
        { rid := s.ridseq, seq := 0, vf := c.fn, part := c.part, ctx := c.number, gpa := x.gpa, va := va / 4096 * 4096,
          time := s.unitTime u, unit := u, kinds := kb }
      let s1 := { s with ridseq := s.ridseq + 1 }
      match if (s.part c.part).tableBase = 0 then none else s.tagFor c.fn with
      | some tag => (r.rid, s1.takeTag tag r)
      | none => (r.rid, { s1 with preqHeld := s1.preqHeld ++ [r] })

/-- Whether a held request may take a tag now. -/
def State.heldReady (s : State) (r : PReq) : Bool :=
  (s.part r.part).tableBase != 0 && (s.tagFor r.vf).isSome

/-- The held request that takes a tag next: one whose function has a free reserved tag, oldest first; then round-robin
among the functions from the one after `preqTurn` (20 R324). -/
def State.nextHeld (s : State) : Option PReq :=
  let ready := s.preqHeld.filter s.heldReady
  match ready.find? fun r => (s.preqs.free (4 * r.vf) 4).isSome with
  | some r => some r
  | none =>
    ready.foldl (fun best r =>
      let key := fun (q : PReq) => (q.vf + 256 - (s.preqTurn + 1) % 256) % 256
      match best with
      | none => some r
      | some b => if key r < key b then some r else some b) none

/-- Serves held requests while one can take a tag. -/
def State.serveHeld : Nat → State → State
  | 0, s => s
  | n + 1, s =>
    match s.nextHeld with
    | none => s
    | some r =>
      match s.tagFor r.vf with
      | none => s
      | some tag =>
        let s1 := { s with preqHeld := s.preqHeld.filter fun h => h.rid != r.rid
                           preqTurn := if 768 ≤ tag then r.vf else s.preqTurn }
        State.serveHeld n (s1.takeTag tag r)

/-! ### Waiting for a page (20 R321) -/

/-- Posts the notice of a PAGE_S1 for waiting work: kind 3 (21 R329). -/
def State.noticeS1 (s : State) (ctx : Nat) (r : EvRec) : State :=
  s.post (s.ctx ctx).fn { r with kind := 3, code := cPageS1, context := BitVec.ofNat 12 (s.ctx ctx).number,
                                 vf := vfField (s.ctx ctx).fn }

/-- Starts the wait of a unit for a page: PAGE_S1 is reported to the context's driver, PAGE_S2 goes to the page-request
queue (20 R321). `r` carries what the report says of the waiting work. -/
def State.awaitPage (s : State) (u : TUnit) (ctx va : Nat) (k : AccKind) (x : XFault) (r : EvRec) : PageWait × State :=
  if x.code = cPageS2 then
    let (rid, s1) := s.requestPage u ctx va k x
    ({ code := cPageS2, rid := rid, va := va, served := false }, s1)
  else ({ code := cPageS1, rid := 0, va := va, served := false }, s.noticeS1 ctx { r with addr := BitVec.ofNat 64 va })

/-- The info field of a memory fault: the access code and the log entry, or 0xFF (21 R329). -/
def memInfo (k : AccKind) (entry : Nat) : Word := BitVec.ofNat 32 (k.code + 256 * entry)

/-- Whether a fault code's record carries the access in info (21 R329). -/
def memCode (c : BitVec 8) : Bool := (decide (0x10 ≤ c.toNat) && decide (c.toNat ≤ 0x13)) || c == cUe

/-- The refusal of an access that the command processor makes in a context: kind 8 (21 R329). -/
def State.postMemory (s : State) (fn ctx : Nat) (addr : BitVec 64) (k : AccKind) (code : BitVec 8) : State :=
  s.postError fn (s.ctx ctx).number addr code (if memCode code then memInfo k 255 else 0)

end Sys2Proof.Machine
end

