-- ==== Sys2Proof/Machine/Fetch.lean ====
section
/-! DEFINITION. Lines, transfers and instruction fetch (03 R66 to R69, R374). -/
namespace Sys2Proof.Machine

/-- The line address of a PC (03 R66). -/
def lineOf (pc : PC) : Nat := pc.toNat / 8 * 8

/-- The slot number of a PC. -/
def slotIn (pc : PC) : Nat := pc.toNat % 8

/-- The PC before another in sequential execution. -/
def prevPc (pc : PC) : PC := if slotIn pc = 0 then pc - 64 + 4 else pc - 1

/-- A fetched line: its five words and its line word (03 R66). -/
structure Line where
  slots : List InsnWord
  word : Word
  deriving DecidableEq, Repr

/-- The line of 64 bytes, little-endian (03 R66). -/
def lineOfBytes (bs : List Byte) : Line :=
  { slots := (List.range 5).map fun i => BitVec.ofNat 96 (leNat ((bs.drop (12 * i)).take 12))
    word := BitVec.ofNat 32 (leNat (bs.drop 60)) }

/-- The exclusive or of the low `n` bits of a number. -/
def xorBits (x : Nat) : Nat → Bool
  | 0 => false
  | n + 1 => x.testBit n != xorBits x n

/-- The parity byte of 64 bytes: bit j is the parity of chunk j, with the parity byte itself as zero (03 R66). -/
def parityOf (bs : List Byte) : Nat :=
  (List.range 8).foldl (fun p j => p + (if xorBits (leNat (((bs.take 63).drop (8 * j)).take 8)) 64 then 2 ^ j else 0)) 0

/-- Whether a line passes its parity check (03 R67). -/
def parityOk (bs : List Byte) : Bool := parityOf bs == (bs.getD 63 0).toNat

/-- The kind byte of a line word. -/
def Line.kind (l : Line) : BitVec 8 := l.word.extractLsb' 16 8

/-- Why a fetch fails. -/
inductive FetchStop where
  | page (x : XFault)
  | fault (code : BitVec 8)
  deriving DecidableEq, Repr

/-- Fetches the line of a PC: translated in the warp's context, read, and its parity checked (03 R67, R374). The refetch
after a parity error reads the same bytes. -/
def State.readLine (s : State) (c ctx : Nat) (pc : PC) (fresh : Bool) : Except FetchStop Line × State :=
  match s.translate (.core c) ctx (lineOf pc) .fetch false false fresh with
  | (.error x, s1) => (.error (if replayable x.code then .page x else .fault x.code), s1)
  | (.ok x, s1) =>
    if s1.poisoned x.phys then (.error (.fault cUe), s1)
    else
      let bs := s1.pageRead x 64
      if parityOk bs then (.ok (lineOfBytes bs), s1) else (.error (.fault cIfetchUe), s1)

/-- The checks of a transfer to `pc` on its line (03 R68). -/
def targetCheck (pc : PC) (l : Line) : Option (BitVec 8) :=
  if l.kind != 0 then some cLineData else if !l.word.getLsbD (slotIn pc) then some cBadTarget else none

/-- Whether a target is malformed before any fetch: bits above 47, [5:3] nonzero, or a slot above 4 (03 R68, 07 R134). -/
def badTarget (pc : PC) (high : BitVec 16) : Bool := high != 0 || pc.toNat / 8 % 8 != 0 || decide (4 < slotIn pc)

/-- What the record of a fault at a transfer target or a fetch carries: LINE_DATA and BAD_TARGET the target, a fetch
fault the address fetched with access 3 (21 R329). -/
def fetchRaise (code : BitVec 8) (lanes : Mask) (pc : PC) (high : BitVec 16) : Raise :=
  if code = cLineData ∨ code = cBadTarget then
    { code := code, lanes := lanes, addr := high ++ pc, info := 0 }
  else { code := code, lanes := lanes, addr := BitVec.ofNat 64 (lineOf pc),
         info := if code = cIfetchUe then 0 else memInfo .fetch 255 }

/-- The lanes of a group that share one arrival. -/
def sameArrival (w : Warp) (lanes : Mask) (a : Option Arrival) : Mask := maskOf fun i => laneOn lanes i && w.arrivals.get? i == a

/-- Forgets the arrivals of some lanes. -/
def Warp.clearArrivals (w : Warp) (lanes : Mask) : Warp := { w with arrivals := w.arrivals.filter fun e => !laneOn lanes e.1 }

/-- Bits [63:48] of the target that a lane arrived at; a lane that did not arrive by a transfer has none. -/
def highOf (a : Option Arrival) : BitVec 16 :=
  match a with
  | some x => x.high
  | none => 0

/-- What the fetched line means for a lane of a fragment at `pc`: the fault it takes, if any. DESIGN CHOICE (log 83): a
malformed PC that no transfer gave, as after a resumption past a BAD_TARGET or in an edited save image, faults BAD_TARGET
with aux 0; 03 R68 gives that check for transfers only. -/
def laneFetchFault (pc : PC) (a : Option Arrival) (l : Except (BitVec 8) Line) : Option (BitVec 8) :=
  if badTarget pc (highOf a) then some cBadTarget
  else match l with
    | .error c => some c
    | .ok l =>
      match a with
      | some _ => targetCheck pc l
      | none => if l.kind != 0 then some cLineData else none

/-- The second PC of a fetch fault: the transferring PC, or the PC before in sequential execution into a data line
(03 R68, R69). -/
def fetchAux (pc : PC) (a : Option Arrival) (code : BitVec 8) : PC :=
  match a with
  | some x => x.source
  | none => if code = cLineData then prevPc pc else 0

/-- Makes a transfer of some lanes to `pc` (03 R68): their PCs are set and their line is checked at once. A group that
fails is suspended at the target (03 R69); where the fetch waits for a page the check is owed, and made before the lanes
issue (03 R374). -/
def State.transfer (s : State) (c slot : Nat) (lanes : Mask) (pc source : PC) (high : BitVec 16) : State :=
  match s.warp? c slot with
  | none => s
  | some w =>
    let lanes := lanes &&& w.live
    let a : Arrival := { source := source, high := high }
    let w1 := (w.setPcs lanes fun _ => pc).clearArrivals lanes
    let marked := { w1 with arrivals := (lanesOf lanes).foldl (fun t i => t.put i a) w1.arrivals }
    let s1 := s.setWarp c slot marked
    if lanes = 0 then s
    else
      let fault := fun (s : State) (code : BitVec 8) =>
        s.takeFault c slot lanes pc source false 0 (fetchRaise code lanes pc high)
      if badTarget pc high then fault s1 cBadTarget
      else match s1.readLine c w.ctx pc false with
        | (.error (.page _), s2) => s2
        | (.error (.fault code), s2) => fault s2 code
        | (.ok l, s2) =>
          match targetCheck pc l with
          | some code => fault s2 code
          | none => s2.setWarp c slot w1

/-- The groups of a fragment's lanes that share one arrival, by their lowest lanes. -/
def arrivalGroups (w : Warp) (frag : Mask) : List (Option Arrival × Mask) :=
  (lanesOf frag).foldl (fun gs i =>
    let a := w.arrivals.get? i
    if gs.any fun g => g.1 == a then gs else gs ++ [(a, sameArrival w frag a)]) []

/-- The groups of a fragment at `pc` whose fetch `l` faults, with their codes: those whose own target is malformed, before any
line is looked at (03 R68, R69). -/
def fetchFaults (w : Warp) (pc : PC) (frag : Mask) (l : Option (Except (BitVec 8) Line)) : List (Option Arrival × Mask × BitVec 8) :=
  (arrivalGroups w frag).filterMap fun g =>
    (match l with
      | some l => laneFetchFault pc g.1 l
      | none => if badTarget pc (highOf g.1) then some cBadTarget else none).map fun code => (g.1, g.2, code)

/-- Takes the faults of a fetch: one precise fault for each group of lanes that arrived together (03 R69, R374). -/
def State.takeFetchFaults (s : State) (c slot : Nat) (pc : PC) (gs : List (Option Arrival × Mask × BitVec 8)) : State :=
  gs.foldl (fun s g =>
    s.takeFault c slot g.2.1 pc (fetchAux pc g.1 g.2.2) false 0 (fetchRaise g.2.2 g.2.1 pc (highOf g.1))) s

/-- Whether a stall waits for the page of a fetch. -/
def StallKind.isFetch : StallKind → Bool
  | .fetch => true
  | _ => false

/-- The warp with the fetch at a PC over: its wait ends, and the stall with it (02 R48; 03 R374). -/
def Warp.endFetch (w : Warp) (pc : PC) : Warp := (w.setFetch false pc none).clearStall StallKind.isFetch

/-- Fetches for the fragment that a warp issues for: the word at its PC and the zero bits of its line, or the state in
which nothing issues: a wait for a page, or a fault (03 R67 to R69, R374). -/
def State.fetch (s : State) (c slot : Nat) (w : Warp) (pc : PC) (frag : Mask) :
    Except State (InsnWord × BitVec 7 × State) :=
  let settle := fun (l : Except (BitVec 8) Line) (s : State) =>
    let s := s.modWarp c slot fun w => w.endFetch pc
    match fetchFaults w pc frag (some l), l with
    | [], .ok l => (.ok (l.slots.getD (slotIn pc) 0, l.word.extractLsb' 9 7, s.modWarp c slot fun w => w.clearArrivals frag) :
        Except State (InsnWord × BitVec 7 × State))
    | gs, _ => .error (s.takeFetchFaults c slot pc gs)
  let await := fun (p : PageWait) (s : State) =>
    (s.modWarp c slot fun w => w.setFetch false pc (some p)).stalled c slot .fetch
  let walk := fun (fresh : Bool) =>
    match s.readLine c w.ctx pc fresh with
    | (.error (.page x), s1) =>
      let anew :=
        let (p, s2) := s1.awaitPage (.core c) w.ctx (lineOf pc) .fetch x
          (s.warpRecord c w pc frag 3 { code := 0, lanes := frag, addr := 0, info := memInfo .fetch 255 })
        .error (await p s2)
      match w.fetchWait false pc with
      | some p => if x.code = cPageS1 ∧ p.code = cPageS1 then .error (await { p with served := false } s1) else anew
      | none => anew
    | (.error (.fault code), s1) => settle (.error code) s1
    | (.ok l, s1) => settle (.ok l) s1
  match fetchFaults w pc frag none with
  | g :: gs => .error (s.takeFetchFaults c slot pc (g :: gs))
  | [] =>
    match w.fetchWait false pc with
    | some p =>
      if !p.served then .error (s.stalled c slot .fetch)
      else if replayable p.code then walk true
      else settle (.error p.code) s
    | none => walk false

end Sys2Proof.Machine
end

