-- ==== Sys2Proof/Machine/Records.lean ====
section
/-! DEFINITION. Memory traffic at virtual addresses by the core and the command processor, launch status, killing a
context, and scree records (02 R52 to R54; 19 R290; 21 R336, R338). -/
namespace Sys2Proof.Machine

/-! ### Traffic at virtual addresses -/

/-- The pieces of `n` bytes from `va` that lie in one 4 KiB page each. -/
def pagePieces (va n : Nat) : List (Nat × Nat) :=
  if n = 0 then []
  else (List.range ((va + n - 1) / 4096 - va / 4096 + 1)).map fun j =>
    let lo := max va ((va / 4096 + j) * 4096)
    let hi := min (va + n) ((va / 4096 + j + 1) * 4096)
    (lo, hi - lo)

/-- Reads bytes at a virtual address, page by page; `sys` traffic ignores the user bit (20 R308). -/
def State.vaReadGo (u : TUnit) (ctx : Nat) (sys fresh : Bool) : List (Nat × Nat) → State → Except (XFault × Nat) (List Byte) × State
  | [], s => (.ok [], s)
  | (va, n) :: rest, s =>
    if 2 ^ 48 ≤ va then (.error ({ code := cPerm, gpa := 0, table := false }, va), s)
    else match s.translate u ctx va .read sys false fresh with
    | (.error x, s1) => (.error (x, va), s1)
    | (.ok x, s1) =>
      if (linesFrom x.phys.addr n).any fun l => s1.poisoned { x.phys with addr := 128 * l } then
        (.error ({ code := cUe, gpa := 0, table := false }, va), s1)
      else match State.vaReadGo u ctx sys fresh rest s1 with
        | (.error e, s2) => (.error e, s2)
        | (.ok bs, s2) => (.ok (s1.pageRead x n ++ bs), s2.countAt ctx x.phys n)

/-- Reads `n` bytes at a virtual address. -/
def State.vaRead (s : State) (u : TUnit) (ctx va n : Nat) (sys fresh : Bool) : Except (XFault × Nat) (List Byte) × State :=
  State.vaReadGo u ctx sys fresh (pagePieces va n) s

/-- Writes bytes at a virtual address, page by page. -/
def State.vaWriteGo (u : TUnit) (ctx : Nat) (sys fresh : Bool) : List (Nat × Nat) → List Byte → State → Option (XFault × Nat) × State
  | [], _, s => (none, s)
  | (va, n) :: rest, bs, s =>
    if 2 ^ 48 ≤ va then (some ({ code := cPerm, gpa := 0, table := false }, va), s)
    else match s.translate u ctx va .write sys false fresh with
    | (.error x, s1) => (some (x, va), s1)
    | (.ok x, s1) => State.vaWriteGo u ctx sys fresh rest (bs.drop n) (s1.pageWrite x (bs.take n))

/-- Writes bytes at a virtual address. -/
def State.vaWrite (s : State) (u : TUnit) (ctx va : Nat) (bs : List Byte) (sys fresh : Bool) : Option (XFault × Nat) × State :=
  State.vaWriteGo u ctx sys fresh (pagePieces va bs.length) bs s

/-! ### The command processor's reads and writes (19 R289, R290; 20 R321) -/

/-- How an access of the command processor ends when it does not succeed: it waits for a page, or it is refused. -/
inductive CpStop where
  | waiting
  | refused (code : BitVec 8)
  deriving DecidableEq, Repr

/-- Whether a wait is that of some work for the page of an address. -/
def CpWait.meets (w : CpWait) (k : CpWork) (ctx va : Nat) : Bool := w.work == k && w.ctx == ctx && w.page.va / 4096 == va / 4096

/-- The wait of some work of a partition's command processor for a page of a context, if there is one. -/
def Part.waitFor (p : Part) (k : CpWork) (ctx va : Nat) : Option PageWait := (p.cpWaits.find? fun w => w.meets k ctx va).map (·.page)

/-- Forgets the wait of some work for a page. -/
def Part.dropWait (p : Part) (k : CpWork) (ctx va : Nat) : Part := { p with cpWaits := p.cpWaits.filter fun w => !w.meets k ctx va }

/-- Forgets the waits of some work for the pages of a range. -/
def Part.dropWaits (p : Part) (k : CpWork) (ctx : Nat) (pieces : List (Nat × Nat)) : Part :=
  pieces.foldl (fun p x => p.dropWait k ctx x.1) p

/-- Forgets every wait of some work. -/
def Part.dropWork (p : Part) (k : CpWork) : Part := { p with cpWaits := p.cpWaits.filter fun w => w.work != k }

/-- Some work waits for a page, in place of what it waited for there before. -/
def Part.putWait (p : Part) (k : CpWork) (ctx va : Nat) (w : PageWait) : Part :=
  let q := p.dropWait k ctx va
  { q with cpWaits := q.cpWaits ++ [{ work := k, ctx := ctx, page := w }] }

/-- Some work of a command processor begins to wait for a page. -/
def State.cpAwait (s : State) (j : CpWork) (p ctx va : Nat) (k : AccKind) (x : XFault) : CpStop × State :=
  let (w, s1) := s.awaitPage (.cp p) ctx va k x { EvRec.zero with time := BitVec.ofNat 64 s.time, unit := 3, info := memInfo k 255 }
  (.waiting, s1.modPart p fun q => q.putWait j ctx va w)

/-- What the fault of an access of the command processor leads to: a wait, reported once, or a refusal. A wait already
served walks afresh; a PAGE_S1 met again posts nothing more (20 R322). -/
def State.cpFault (s : State) (j : CpWork) (p ctx va : Nat) (k : AccKind) (x : XFault) : CpStop × State :=
  if !replayable x.code then (.refused x.code, s.modPart p fun q => q.dropWait j ctx va)
  else match (s.part p).waitFor j ctx va with
    | some w =>
      if w.code = cPageS1 ∧ x.code = cPageS1 then (.waiting, s.modPart p fun q => q.putWait j ctx va { w with served := false })
      else s.cpAwait j p ctx va k x
    | none => s.cpAwait j p ctx va k x

/-- The wait that holds an access of the command processor back, or the refusal its page request met: none lets it walk,
afresh when its page was served. -/
def State.cpGate (s : State) (j : CpWork) (p ctx : Nat) (pieces : List (Nat × Nat)) : Option CpStop × Bool :=
  let ws := pieces.filterMap fun x => (s.part p).waitFor j ctx x.1
  match ws.find? fun w => w.served && !replayable w.code with
  | some w => (some (.refused w.code), false)
  | none => if ws.any fun w => !w.served then (some .waiting, false) else (none, !ws.isEmpty)

/-- A read by a partition's command processor in a context. -/
def State.cpRead (s : State) (j : CpWork) (p ctx va n : Nat) : Except CpStop (List Byte) × State :=
  let pieces := pagePieces va n
  match s.cpGate j p ctx pieces with
  | (some (.refused c), _) => (.error (.refused c), s.modPart p fun q => q.dropWaits j ctx pieces)
  | (some .waiting, _) => (.error .waiting, s)
  | (none, fresh) =>
    match s.vaRead (.cp p) ctx va n true fresh with
    | (.ok bs, s1) => (.ok bs, s1.modPart p fun q => q.dropWaits j ctx pieces)
    | (.error (x, at_), s1) =>
      let (r, s2) := s1.cpFault j p ctx at_ .read x
      (.error r, if r = .waiting then s2 else s2.modPart p fun q => q.dropWaits j ctx pieces)

/-- A write by a partition's command processor in a context. -/
def State.cpWrite (s : State) (j : CpWork) (p ctx va : Nat) (bs : List Byte) : Option CpStop × State :=
  let pieces := pagePieces va bs.length
  match s.cpGate j p ctx pieces with
  | (some (.refused c), _) => (some (.refused c), s.modPart p fun q => q.dropWaits j ctx pieces)
  | (some .waiting, _) => (some .waiting, s)
  | (none, fresh) =>
    match s.vaWrite (.cp p) ctx va bs true fresh with
    | (none, s1) => (none, s1.modPart p fun q => q.dropWaits j ctx pieces)
    | (some (x, at_), s1) =>
      let (r, s2) := s1.cpFault j p ctx at_ .write x
      (some r, if r = .waiting then s2 else s2.modPart p fun q => q.dropWaits j ctx pieces)

/-! ### Launch status (19 R290) -/

/-- The 32 bytes of a launch status. -/
def Launch.statusBytes (l : Launch) : List Byte :=
  leBytes 4 (l.state + l.reason * 65536) ++ leBytes 4 l.grid.1 ++ leBytes 4 l.grid.2.1 ++ leBytes 4 l.grid.2.2 ++
  leBytes 8 l.startt ++ leBytes 8 l.endt

/-- The status address of a launch. -/
def Launch.statusAddr (l : Launch) : Nat := fieldAt l.record 160 8

/-- Writes a launch's status. A write that waits for a page is owed; one refused posts a record of kind 8 with the code
and the status address, and the launch goes on; a rejected launch has been reported already (19 R289). -/
def State.writeStatus (s : State) (n : Nat) : State :=
  let l := s.launch n
  match s.cpWrite (.status n) l.part l.ctx l.statusAddr l.statusBytes with
  | (none, s1) => s1.modPart l.part fun q => { q with statusOwed := q.statusOwed.filter (· != n) }
  | (some .waiting, s1) =>
    s1.modPart l.part fun q => { q with statusOwed := (q.statusOwed.filter (· != n)) ++ [n] }
  | (some (.refused c), s1) =>
    let s2 := s1.modPart l.part fun q => { q with statusOwed := q.statusOwed.filter (· != n) }
    if l.state = 4 then s2 else s2.postMemory l.fn l.ctx (BitVec.ofNat 64 l.statusAddr) .write c

/-- Writes every status still owed in a partition. -/
def State.flushStatus (s : State) (p : Nat) : State := (s.part p).statusOwed.foldl (fun s n => s.writeStatus n) s

/-! ### Removing what a context holds -/

/-- A core without a warp in an entry. -/
def Core.dropWarp (k : Core) (slot : Nat) : Core :=
  { k with warps := k.warps.del slot, active := k.active.filter (· != slot), pending := k.pending.filter (· != slot) }

/-- Forgets what a core keeps for a context that holds no warp on it (01 R18; 02 R46, R50, R56). -/
def Core.settleCtx (k : Core) (x : Nat) : Core :=
  if k.warps.any fun w => w.2.ctx == x then k
  else { k with ctxSlots := k.ctxSlots.filter (·.2 != x), quotas := k.quotas.del x }

/-- A core without anything of a context. -/
def Core.purge (k : Core) (x : Nat) : Core :=
  let own := k.owner == some x || (k.arrayLeft && k.xq.any fun o => o.2.ctx == x)
  { k with
    warps := k.warps.filter fun w => w.2.ctx != x
    active := k.active.filter fun i => (k.warps.get? i).all fun w => w.ctx != x
    pending := k.pending.filter fun i => (k.warps.get? i).all fun w => w.ctx != x
    ctxSlots := k.ctxSlots.filter (·.2 != x)
    admission := k.admission.del x
    quotas := k.quotas.del x
    l1 := k.l1.filter fun l => l.ctx != x
    locks := k.locks.filter fun l => l.ctx != x
    watches := k.watches.del x
    owner := if own then none else k.owner
    arrayLeft := !own && k.arrayLeft
    strata := if own then [] else k.strata
    tiles := if own then [] else k.tiles
    grads := if own then [] else k.grads
    xq := k.xq.filter fun o => o.2.ctx != x }

/-- A core without its schedule table, where a test holds of it. -/
def Core.dropSched (k : Core) (p : SchedTable → Bool) : Core :=
  match k.sched with
  | some t => if p t then { k with sched := none } else k
  | none => k

/-- Whether a launch has not ended: queued, waiting on its grid fence, or running. -/
def Launch.live (l : Launch) : Bool := decide (l.state ≤ 2)

/-- Kills a context (21 R336): its state on its cores is discarded, its engine operations are cancelled and their statuses
discarded, its blocks freed, state 5 written into the status of each running launch, and a record of kind 9 posted. A launch
that is queued or waits on its grid fence stays so, and admits no block. -/
def State.killCtx (s : State) (x : Nat) (r : EvRec) : State :=
  let mine := (s.launches.filter fun l => l.2.ctx == x && l.2.state == 2).map (·.1)
  let blocks := (s.blocks.filter fun b => (s.launch b.2.launch).ctx == x).map (·.1)
  let s1 := { s with
    cores := s.cores.map fun (k : Nat × Core) => (k.1, (k.2.purge x).dropSched fun t => (s.launch t.launch).ctx == x)
    engs := s.engs.filter fun o => o.2.ctx != x
    blocks := s.blocks.filter fun b => !blocks.contains b.1
    groups := s.groups.filter fun g => !blocks.contains g.2.block
    launches := s.launches.map fun (l : Nat × Launch) =>
      if mine.contains l.1 then (l.1, { l.2 with state := 5, endt := s.time }) else l }
  let s2 := s1.modCtx x fun c => { c with pre := 4, storeFaults := [], saved := [], savedGroups := [], savedBlocks := [] }
  let s3 := s2.modPart (x / 4096) fun p => { p with
    cpWaits := p.cpWaits.filter (·.ctx != x)
    requests := p.requests.filter fun q => decide (q.wid.extractLsb' 52 12 ≠ BitVec.ofNat 12 x) }
  let s4 := mine.foldl (fun s n => s.writeStatus n) s3
  let c := s4.ctx x
  s4.post c.fn { r with time := BitVec.ofNat 64 s.time, context := BitVec.ofNat 12 c.number, vf := vfField c.fn, kind := 9 }

/-- Kills a context with SAVE_FAULT: the record carries unit, core and the faulting address (21 R338). -/
def State.saveFaultKill (s : State) (x core addr : Nat) (unit : BitVec 4) : State :=
  s.killCtx x { EvRec.zero with code := cSaveFault, core := BitVec.ofNat 8 core, addr := BitVec.ofNat 64 addr, unit := unit }

/-! ### Scree records (02 R54) and operand blocks (09 R183) -/

/-- The size of a scree record for a scree high-water mark (02 R54). -/
def recordSize (hs : Nat) : Nat := (64 + 1024 + 144 * hs + 127) / 128 * 128

/-- Hs of a context: 0 reads as 320 (21 R328). -/
def State.hsOf (s : State) (x : Nat) : Nat := if (s.ctx x).desc.hs = 0 then 320 else (s.ctx x).desc.hs

/-- The scree buffer of a context on a core. -/
def State.screeAt (s : State) (x core : Nat) : Nat := (s.ctx x).desc.screeBase + core * (s.ctx x).desc.screeStride

/-- The scree record of a warp slot. -/
def State.recordAt (s : State) (x core slot : Nat) : Nat := s.screeAt x core + slot * recordSize (s.hsOf x)

/-- The operand block of an entry of a warp slot's log area (09 R183). -/
def State.blockAt (s : State) (x core slot entry : Nat) : Nat :=
  s.screeAt x core + 64 * recordSize (s.hsOf x) + 12288 * slot + 768 * entry

/-- The bits of lane-indexed fields, lane 0 lowest. -/
def packLanes (w : Nat) : List Nat → Nat
  | [] => 0
  | x :: xs => x % 2 ^ w + 2 ^ w * packLanes w xs

/-- The 512-bit header of an operand-log entry (09 R182). -/
def LogEntry.bytes (e : LogEntry) : List Byte :=
  let low := (if e.valid then 1 else 0) + (if e.behind then 2 else 0) + e.kind.toNat * 4
  leBytes 2 low ++ [e.seq] ++ [e.served ++ e.used]
  ++ leBytes 4 (packLanes 8 (e.codes.map (·.toNat)))
  ++ leBytes 18 (packLanes 36 (e.pages.map (·.toNat)))
  ++ leBytes 8 (packLanes 2 (e.lanepage.map (·.toNat)))
  ++ leBytes 4 e.fmask.toNat ++ leBytes 6 e.pc.toNat ++ leBytes 12 e.word.toNat ++ leBytes 8 e.wid.toNat

/-- An entry that is not in use. -/
def LogEntry.none : LogEntry :=
  { acc := 0, wid := 0, word := 0, pc := 0, fmask := 0, lanepage := [], pages := [], codes := [], served := 0, used := 0,
    seq := 0, kind := 0, behind := false, valid := false, rids := [] }

/-- The operand-log image of a warp: 16 entries of 64 bytes (02 R54). -/
def Warp.logBytes (w : Warp) : List Byte := (List.range 16).flatMap fun i => (w.log.getD i LogEntry.none).bytes

/-- A name descriptor (02 R54). -/
def nameDesc (n : Nat) (c : NameCell) : List Byte :=
  leBytes 16 (n % 512 + (if c.pending then 512 else 0) + 65536 * packLanes 3 (c.counts.map (·.toNat)))

/-- The scree record of a warp (02 R54). -/
def Warp.recordBytes (w : Warp) : List Byte :=
  leBytes 8 w.wid.toNat ++ leBytes 4 w.seq.toNat ++ leBytes 2 w.names.length ++ leBytes 50 0 ++ w.logBytes
  ++ w.names.flatMap (fun n => nameDesc n.1 n.2)
  ++ w.names.flatMap fun n => (n.2.data.flatMap fun x => leBytes 4 x.toNat)

/-- The names that a scree record holds: `n` descriptors, then their data (02 R53, R54). -/
def namesOfRecord (bs : List Byte) (n : Nat) : Tab NameCell :=
  (List.range n).foldl (fun t j =>
    let d := fieldAt bs (1088 + 16 * j) 16
    let base := 1088 + 16 * n + 128 * j
    t.put (d % 512)
      { data := allLanes.map fun i => BitVec.ofNat 32 (fieldAt bs (base + 4 * i) 4)
        counts := allLanes.map fun i => BitVec.ofNat 3 (d / 65536 / 8 ^ i)
        pending := d.testBit 9 }) []

/-- Changes a warp's names, in the core or, for an evicted warp, in its scree record (02 R52); a failing access to the
record kills the context with SAVE_FAULT (02 R54). -/
def State.modNames (s : State) (c slot : Nat) (f : Warp → Warp) : State :=
  match s.warp? c slot with
  | none => s
  | some w =>
    if !w.evicted then s.setWarp c slot (f w)
    else
      let at_ := s.recordAt w.ctx c slot
      match s.vaRead (.core c) w.ctx at_ (1088 + 144 * w.screeNames) true false with
      | (.error (_, a), s1) => s1.saveFaultKill w.ctx c a 0
      | (.ok bs, s1) =>
        let w1 := f { w with names := namesOfRecord bs w.screeNames }
        match s1.vaWrite (.core c) w.ctx at_ w1.recordBytes true false with
        | (some (_, a), s2) => s2.saveFaultKill w.ctx c a 0
        | (none, s2) => s2.setWarp c slot { w1 with names := [], screeNames := w1.names.length }

/-- Completes a write that is owed to some lanes of the warp of an identity in an entry: into its names, its scree record, or
nowhere when the warp has gone (02 R42, R52; 07 R135). -/
def State.completeIn (s : State) (c slot : Nat) (wid : BitVec 64) (act : Warp → Mask) (d : Dest) (k : Nat)
    (v : Nat → List Word) : State :=
  match s.warp? c slot with
  | none => s
  | some w => if w.wid != wid then s else s.modNames c slot fun w => w.completeIn (act w) d k v

/-- Completes a write that is owed by an operation that runs on when lanes of its fragment exit (11 R219). -/
def State.completeOwed (s : State) (c slot : Nat) (wid : BitVec 64) (d : Dest) (k : Nat) (v : Nat → List Word) : State :=
  s.completeIn c slot wid (fun w => w.owedLanes d) d k v

end Sys2Proof.Machine
end

