-- ==== Sys2Proof/Machine/Groups.lean ====
section
/-! DEFINITION. Group-table operations and the barrier instructions (01 R22 to R31; 11 R234 to R236). -/
namespace Sys2Proof.Machine

/-! ### Entries -/

/-- The key of a group-table entry. -/
def groupKey (cluster entry : Nat) : Nat := cluster * 256 + entry

/-- The block of a warp. -/
def State.blockOf (s : State) (w : Warp) : Option Block := s.blocks.get? w.block

/-- The number of groups of a warp's block (01 R22). -/
def State.groupCount (s : State) (w : Warp) : Nat :=
  match s.blockOf w with
  | some b => b.groups.length
  | none => 0

/-- The key of the entry that a block-local index names. -/
def State.groupKey? (s : State) (w : Warp) (g : Nat) : Option Nat :=
  match s.blockOf w with
  | some b => (b.groups[g]?).map fun x => groupKey x.1 x.2
  | none => none

/-- The entry that a block-local index names. -/
def State.group? (s : State) (w : Warp) (g : Nat) : Option (Nat × GroupEntry) :=
  match s.groupKey? w g with
  | some k => (s.groups.get? k).map fun e => (k, e)
  | none => none

/-- The number of set bits of a member mask. -/
def popMembers (m : BitVec 128) : Nat := (List.range 128).foldl (fun n i => if m.getLsbD i then n + 1 else n) 0

/-- The bit of a block warp. -/
def memberBit (n : Nat) : BitVec 128 := BitVec.ofNat 128 (2 ^ n)

/-- The status word of a phase bit. -/
def GroupEntry.status (e : GroupEntry) (phase : Bool) : Word := if phase then e.status1 else e.status0

/-- The entry with a status word replaced. -/
def GroupEntry.setStatus (e : GroupEntry) (phase : Bool) (x : Word) : GroupEntry :=
  if phase then { e with status1 := x } else { e with status0 := x }

/-- The entry with flags added to a status word. -/
def GroupEntry.orStatus (e : GroupEntry) (flags : Word) : GroupEntry := e.setStatus e.phase (e.status e.phase ||| flags)

/-- complete_phase (01 R26). -/
def GroupEntry.completePhase (e : GroupEntry) : GroupEntry :=
  { e.setStatus (!e.phase) 0 with
    phase := !e.phase, arrivedmask := 0, arrived := 0, expected := popMembers (e.members &&& ~~~e.dropped) }

/-- Completes the phase when every expected arrival has come. -/
def GroupEntry.judge (e : GroupEntry) : GroupEntry := if e.arrived = e.expected then e.completePhase else e

/-- Counts the arrival of block warp `n`. -/
def GroupEntry.count (e : GroupEntry) (n : Nat) : GroupEntry :=
  { e with arrivedmask := e.arrivedmask ||| memberBit n, arrived := e.arrived + 1 }

/-- The fault of an arrival by block warp `n` (01 R25). -/
def GroupEntry.arriveFault (e : GroupEntry) (n : Nat) : Option (BitVec 8) :=
  if e.dropped.getLsbD n then some cBarDropped
  else if !e.members.getLsbD n || e.arrivedmask.getLsbD n then some cBarOverarrive
  else none

/-- An arrival that does not fault (01 R25); the arriving warp's lastphase becomes the phase before it. -/
def GroupEntry.arrive (e : GroupEntry) (n : Nat) (flags : Word) : GroupEntry := ((e.count n).orStatus flags).judge

/-- The fault of a drop (01 R28). -/
def GroupEntry.dropFault (e : GroupEntry) (n : Nat) : Option (BitVec 8) :=
  if e.dropped.getLsbD n then some cBarDropped else if !e.members.getLsbD n then some cBarOverarrive else none

/-- A drop that does not fault (01 R28). -/
def GroupEntry.drop (e : GroupEntry) (n : Nat) (flags : Word) : GroupEntry :=
  let e1 := { e.orStatus flags with dropped := e.dropped ||| memberBit n }
  if e.arrivedmask.getLsbD n then e1 else (e1.count n).judge

/-- The fault of a wait (01 R27). -/
def waitFault (e : GroupEntry) (n : Nat) (last : Option Bool) : Option (BitVec 8) :=
  if e.dropped.getLsbD n then some cBarDropped else if last.isNone then some cBarOverarrive else none

/-! ### Waits -/

/-- A wait of a warp with what the completion of phase `phase` on the entry of key `k` gives it: the status word of that phase, if
it waits for it. -/
def State.noteWait (s : State) (k : Nat) (phase : Bool) (x : Word) (w : Warp) (t : Wait) : Wait :=
  match t.kind with
  | .barrier g p _ _ => if p == phase && t.due.isNone && s.groupKey? w g == some k then { t with due := some x } else t
  | _ => t

/-- Replaces an entry. Where an operation has completed its phase, every wait for that phase is due the phase's status word from
then on, whatever phase completes before its release (01 R26, R27, R34). -/
def State.putGroup (s : State) (k : Nat) (e1 : GroupEntry) : State :=
  let s1 := { s with groups := s.groups.put k e1 }
  match s.groups.get? k with
  | none => s1
  | some e =>
    if e.phase = e1.phase then s1
    else { s1 with cores := s1.cores.map fun (c : Nat × Core) =>
      (c.1, { c.2 with warps := c.2.warps.map fun (w : Nat × Warp) =>
        (w.1, { w.2 with waits := w.2.waits.map (s.noteWait k e.phase (e1.status e.phase) w.2) }) }) }

/-- The status word that a barrier wait for `phase` may return with: the one it is due since its phase completed, or that of the
phase where the entry's phase differs as it begins (01 R27). -/
def State.barrierReady (s : State) (w : Warp) (g : Nat) (phase : Bool) (due : Option Word) : Option Word :=
  match due with
  | some x => some x
  | none =>
    match s.group? w g with
    | some (_, e) => if e.phase != phase then some (e.status phase) else none
    | none => none

/-- Ends a wait of some lanes: they move to the next PC. -/
def State.endWait (s : State) (c slot : Nat) (lanes : Mask) : State :=
  s.modWarp c slot fun w =>
    { w.advance (lanes &&& w.live) with
      waits := w.waits.filter fun t => t.lanes &&& lanes == 0, stall := none, timeout := false }

/-- Suspends the active lanes of an issue in a wait, their destination owed; the other lanes move to the next PC, by 07 R129.
DESIGN CHOICE (log 86): SLEEP too, of which 07 R139 says that its fragment is suspended. -/
def State.beginWait (s : State) (e : Env) (k : WaitKind) (dests : List Nat) (count : BitVec 3) : State :=
  s.modWarp e.core e.slot fun w =>
    let w1 := (w.bindPending e.act dests count).sweep.advance (e.frag &&& ~~~e.act)
    { w1 with waits := w1.waits ++ [{ lanes := e.act, kind := k, since := s.cycle }] }

/-- Ends a barrier wait whose phase is complete: its destination takes the status word, and L1 is invalidated (01 R27, R31). -/
def State.returnBarrier (s : State) (c slot : Nat) (lanes : Mask) (g : Nat) (phase : Bool) (due : Option Word) (d : Dest) : State :=
  match s.warp? c slot with
  | none => s
  | some w =>
    match s.barrierReady w g phase due with
    | none => s
    | some x => ((s.completeOwed c slot w.wid d 1 fun _ => [x]).endWait c slot lanes).invalidate c

/-- The phase that a wait of a warp on a group waits for: its lastphase there (01 R27). -/
def State.waitPhase (s : State) (c slot g : Nat) : Bool :=
  match s.warp? c slot with
  | some w => w.lastphase.getD g false
  | none => false

/-! ### The instructions -/

/-- The flag word of an arrival (11 R234). -/
def flagWord (e : Env) (f : SF) : Word :=
  if nul f.srca then f.imm
  else if uni f.srca then e.w.word f.srca 0
  else (lanesOf e.act).foldl (fun x i => x ||| e.w.word f.srca i) 0

/-- The fields of an arrival's flag operand (11 R234). -/
def flagFields (f : SF) : Bool := srcOk f.srca 1 && nul f.srcb && f.subop == 0 && (nul f.srca || f.imm == 0)

/-- A fault of the issuing fragment with no address or info. -/
def plainRaise (code : BitVec 8) (lanes : Mask) : Raise := { code := code, lanes := lanes, addr := 0, info := 0 }

/-- The entry check of a group instruction: the group exists (01 R22), and with an active lane the operation's own
fault. -/
def groupEntryCheck (s : State) (f : SF) (own : Env → GroupEntry → Option (BitVec 8)) (e : Env) : Option Raise :=
  match s.group? e.w f.group.toNat with
  | none => some (fieldRaise e.frag)
  | some (_, g) => if e.act = 0 then none else (own e g).map fun c => plainRaise c e.frag

/-- Whether a store of a core's warps stands in its L1 before its home L2 has accepted it (15 R271). -/
def State.earlyOn (s : State) (c : Nat) : Bool :=
  (s.core c).warps.any fun w => w.2.accs.any fun a => a.2.lanes.any fun l => match l.stage with
    | .early _ _ _ => true
    | _ => false

/-- Whether a release must wait: for the warp's earlier accesses, and for stores that the warp may have read in its core's L1
and that their home has yet to accept (09 R185; 15 R279). -/
def State.releaseWaits (s : State) (e : Env) : Bool := !e.w.accs.isEmpty || s.earlyOn e.core

/-- An arrival waits as a release at .cl does (01 R31). -/
def State.releaseStall (s : State) (e : Env) : Option StallKind := if e.act = 0 ∨ !s.releaseWaits e then none else some .ordering

/-- Whether an access acquires: it holds back every later memory instruction of the warp, and every later acquire (09 R185; 15
R275). -/
def Acc.acquires (a : Acc) : Bool := a.f.order.getLsbD 0 && (a.op == .ld || a.op == .atom || a.op == .cas || a.op == .amaxp)

/-- A wait acquires when it returns, so it follows the warp's earlier acquires (15 R275). -/
def acquireStall (e : Env) : Option StallKind :=
  if e.act != 0 && e.w.accs.any fun a => a.2.acquires then some .ordering else none

/-- Applies an operation to the named entry for the issuing warp. -/
def State.modGroup (s : State) (e : Env) (g : Nat) (f : GroupEntry → GroupEntry) : State :=
  match s.group? e.w g with
  | none => s
  | some (k, x) => s.putGroup k (f x)

/-- An arrival of the issuing warp: the entry counts it, and lastphase is the phase it arrived in (01 R25). -/
def State.arriveOn (s : State) (e : Env) (f : SF) : State :=
  match s.group? e.w f.group.toNat with
  | none => s
  | some (k, g) =>
    (s.putGroup k (g.arrive e.w.number (flagWord e f))).modWarp e.core e.slot fun w =>
      { w with lastphase := w.lastphase.put f.group.toNat g.phase }

/-- A drop of a warp on the entry of a block-local index (01 R28). -/
def State.dropOn (s : State) (c slot g : Nat) (flags : Word) : State :=
  match s.warp? c slot with
  | none => s
  | some w =>
    match s.group? w g with
    | none => s
    | some (k, x) =>
      let s1 := s.putGroup k (x.drop w.number flags)
      if x.arrivedmask.getLsbD w.number then s1
      else s1.modWarp c slot fun w => { w with lastphase := w.lastphase.put g x.phase }

/-- What BARARR asks of its issue. -/
def needsBararr (h : Hdr) (f : SF) (s : State) : Needs :=
  { fields := flagFields f && destNone h
    reads := rd f.srca 1
    entry := groupEntryCheck s f fun e g => g.arriveFault e.w.number
    stalls := s.releaseStall }

/-- BARARR (01 R25; 11 R234). -/
def execBararr (h : Hdr) (f : SF) (s : State) : Host.Outcome State Fault Refusal :=
  issue s h (.bararr h f) (needsBararr h f s)
    fun e s' =>
      let s1 := if e.act = 0 then s' else s'.arriveOn e f
      s1.modWarp e.core e.slot fun w => w.sweep.advance e.frag

/-- Begins a barrier wait of the active lanes, after an arrival of its own (`sync`) or without one, or returns at once when its phase is already complete (01 R27). -/
def State.barrierWait (s : State) (e : Env) (h : Hdr) (f : SF) (sync : Bool) : State :=
  if e.act = 0 then s.modWarp e.core e.slot fun w => w.sweep.advance e.frag
  else
    let d : Dest := { name := h.dest, count := h.count, lanes := e.act }
    let p := s.waitPhase e.core e.slot f.group.toNat
    let s1 := s.beginWait e (.barrier f.group.toNat p sync d) (constituents h.dest 1) h.count
    s1.returnBarrier e.core e.slot e.act f.group.toNat p none d

/-- What BARWAIT asks of its issue. -/
def needsBarwait (h : Hdr) (f : SF) (s : State) : Needs :=
  { fields := nul f.srca && nul f.srcb && f.subop == 0 && f.imm == 0 && destOk h 1 []
    dests := constituents h.dest 1, count := h.count
    entry := groupEntryCheck s f fun e g => waitFault g e.w.number (e.w.lastphase.get? f.group.toNat)
    stalls := acquireStall }

/-- BARWAIT (01 R27; 11 R234). -/
def execBarwait (h : Hdr) (f : SF) (s : State) : Host.Outcome State Fault Refusal :=
  issue s h (.barwait h f) (needsBarwait h f s)
    fun e s' => s'.barrierWait e h f false

/-- What BARSYNC asks of its issue. -/
def needsBarsync (h : Hdr) (f : SF) (s : State) : Needs :=
  { fields := flagFields f && destOk h 1 [f.srca]
    reads := rd f.srca 1, dests := constituents h.dest 1, count := h.count
    entry := groupEntryCheck s f fun e g => g.arriveFault e.w.number
    stalls := s.releaseStall }

/-- BARSYNC: an arrival, then a wait (11 R234). -/
def execBarsync (h : Hdr) (f : SF) (s : State) : Host.Outcome State Fault Refusal :=
  issue s h (.barsync h f) (needsBarsync h f s)
    fun e s' => (if e.act = 0 then s' else s'.arriveOn e f).barrierWait e h f true

/-- What BARDROP asks of its issue. -/
def needsBardrop (h : Hdr) (f : SF) (s : State) : Needs :=
  { fields := flagFields f && destNone h
    reads := rd f.srca 1
    entry := groupEntryCheck s f fun e g => g.dropFault e.w.number
    stalls := s.releaseStall }

/-- BARDROP (01 R28; 11 R234). -/
def execBardrop (h : Hdr) (f : SF) (s : State) : Host.Outcome State Fault Refusal :=
  issue s h (.bardrop h f) (needsBardrop h f s)
    fun e s' =>
      let s1 := if e.act = 0 then s' else s'.dropOn e.core e.slot f.group.toNat (flagWord e f)
      s1.modWarp e.core e.slot fun w => w.sweep.advance e.frag

/-- A bit of a status word at a place. -/
def bitAt (b : Bool) (i : Nat) : Nat := if b then 2 ^ i else 0

/-- The word that BARSTAT.cnt returns (11 R235). -/
def barCount (g : GroupEntry) (n : Nat) : Word :=
  BitVec.ofNat 32 (g.arrived % 256 + g.expected % 256 * 256 + bitAt g.phase 16 + bitAt (g.arrivedmask.getLsbD n) 17
    + bitAt (g.dropped.getLsbD n) 18 + bitAt (g.expected == 0) 19)

/-- What BARSTAT asks of its issue. -/
def needsBarstat (h : Hdr) (f : SF) (s : State) : Needs :=
  let sel := (f.subop.extractLsb' 0 2).toNat
  let dests := constituents h.dest 1
  { fields := nul f.srca && nul f.srcb && f.subop.extractLsb' 2 10 == 0 && sel != 3 && f.imm == 0 && destOk h 1 []
    dests := dests, count := h.count
    entry := groupEntryCheck s f fun _ _ => none }

/-- BARSTAT (11 R235). -/
def execBarstat (h : Hdr) (f : SF) (s : State) : Host.Outcome State Fault Refusal :=
  let sel := (f.subop.extractLsb' 0 2).toNat
  let dests := constituents h.dest 1
  issue s h (.barstat h f) (needsBarstat h f s)
    fun e s' =>
      let x := match s.group? e.w f.group.toNat with
        | none => 0
        | some (_, g) => match sel with
          | 0 => barCount g e.w.number
          | 1 => g.status g.phase
          | _ => g.status (!g.phase)
      finish e dests h.count (fun _ => [x]) s'

/-- What GRPQ returns of an entry (11 R236). -/
def grpqWord (g : GroupEntry) (sel : Nat) : Word :=
  if sel < 4 then g.members.extractLsb' (32 * sel) 32
  else if sel < 8 then g.dropped.extractLsb' (32 * (sel - 4)) 32
  else if sel = 9 then BitVec.ofNat 32 (popMembers g.members)
  else BitVec.ofNat 32 g.expected

/-- What GRPQ asks of its issue. -/
def needsGrpq (h : Hdr) (f : SF) (s : State) : Needs :=
  let sel := (f.subop.extractLsb' 0 4).toNat
  let dests := constituents h.dest 1
  { fields := nul f.srca && nul f.srcb && f.subop.extractLsb' 4 8 == 0 && decide (sel ≤ 10) && f.imm == 0 &&
      (sel != 8 || f.group == 0) && destOk h 1 []
    dests := dests, count := h.count
    entry := fun e => if sel = 8 then none else groupEntryCheck s f (fun _ _ => none) e }

/-- GRPQ (11 R236). -/
def execGrpq (h : Hdr) (f : SF) (s : State) : Host.Outcome State Fault Refusal :=
  let sel := (f.subop.extractLsb' 0 4).toNat
  let dests := constituents h.dest 1
  issue s h (.grpq h f) (needsGrpq h f s)
    fun e s' =>
      let x := if sel = 8 then BitVec.ofNat 32 (s.groupCount e.w)
        else match s.group? e.w f.group.toNat with
          | none => 0
          | some (_, g) => grpqWord g sel
      finish e dests h.count (fun _ => [x]) s'

/-- BARRIER_WAITER_RELEASE: a waiter of a completed phase resumes with the status word (01 R27, R34). -/
def execBarrierWaiterRelease (core slot wait : Nat) (s : State) : Host.Outcome State Fault Refusal :=
  match s.warp? core slot with
  | none => .next s
  | some w =>
    match w.waits[wait]? with
    | some { lanes := lanes, kind := .barrier g p _ d, since := _, due := due } =>
      .next (s.returnBarrier core slot lanes g p due d)
    | _ => .next s

end Sys2Proof.Machine
end

