-- ==== Sys2Proof/Machine/OperandLog.lean ====
section
/-! DEFINITION. Outstanding accesses and the operand log: logging a lane, operand blocks, refusals and halts, completion,
the move to the store-fault area, and the exit of lanes (09 R180 to R186; 21 R333; 07 R135; 02 R43; 01 R29). -/
namespace Sys2Proof.Machine

/-! ### Accesses -/

/-- The kind field of a log entry (09 R182). -/
def AccOp.logKind : AccOp → BitVec 2
  | .ld => 0
  | .st => 1
  | .red => 1
  | .cwb => 1
  | .atom => 2
  | .cas => 2
  | .amaxp => 2

/-- The access that the translation of an operation is checked as (09 R192, R193). -/
def AccOp.access : AccOp → AccKind
  | .ld => .read
  | .cwb => .read
  | .st => .write
  | _ => .rmw

/-- Whether an access is counted as a load (07 R137). -/
def Acc.isLoad (a : Acc) : Bool := a.op == .ld || ((a.op == .atom || a.op == .cas || a.op == .amaxp) && a.dest.name != 511)

/-- Whether every lane of an access is performed or dropped. -/
def Acc.done (a : Acc) : Bool := a.lanes.all fun l => l.stage == .done

/-- Whether some lane is still to be translated. -/
def Acc.todo (a : Acc) : Bool := a.lanes.any fun l => l.stage == .todo

/-- The 4 KiB page of an address (09 R182). -/
def pageOf (addr : Nat) : BitVec 36 := BitVec.ofNat 36 (addr / 4096)

/-- Sets the stage of some lanes of an access. -/
def Acc.setStage (a : Acc) (lanes : Mask) (t : LaneStage) : Acc :=
  { a with lanes := a.lanes.map fun l => if laneOn lanes l.lane then { l with stage := t } else l }

/-- Changes an access of a warp. -/
def Warp.modAcc (w : Warp) (n : Nat) (f : Acc → Acc) : Warp :=
  match w.accs.get? n with
  | some a => { w with accs := w.accs.put n (f a) }
  | none => w

/-- Changes a log entry of a warp. -/
def Warp.modLog (w : Warp) (n : Nat) (f : LogEntry → LogEntry) : Warp :=
  match w.log.get? n with
  | some e => { w with log := w.log.put n (f e) }
  | none => w

/-- The page index of a lane of an entry. -/
def LogEntry.pageIx (e : LogEntry) (lane : Nat) : Nat := (e.lanepage.getD lane 0).toNat

/-- The lanes of an entry's fmask on page `j`. -/
def LogEntry.lanesOn (e : LogEntry) (j : Nat) : Mask := maskOf fun i => laneOn e.fmask i && e.pageIx i == j

/-- Whether an entry still holds lanes on a page. -/
def LogEntry.holds (e : LogEntry) (p : BitVec 36) : Bool :=
  e.valid && (List.range e.pages.length).any fun j => e.pages.getD j 0 == p && e.lanesOn j != 0

/-- Whether an older access of the warp still has logged lanes on a page (09 R185). -/
def Warp.heldPage (w : Warp) (acc : Nat) (p : BitVec 36) : Bool :=
  w.log.any fun e => decide (e.2.acc < acc) && e.2.holds p

/-- Whether an older access of a warp still has logged lanes on a page, in the warp's log or, once it has exited, in its context's
store-fault area (09 R185, R186). -/
def State.heldPage (s : State) (w : Warp) (acc : Nat) (p : BitVec 36) : Bool :=
  w.heldPage acc p || (s.ctx w.ctx).storeFaults.any fun e =>
    e.2.entry.wid == w.wid && decide (e.2.entry.acc < acc) && e.2.entry.holds p

/-- An entry reserved at issue (09 R181). -/
def LogEntry.reserved (acc : Nat) (a : Acc) (wid : BitVec 64) (seq : Nat) : LogEntry :=
  { acc := acc, wid := wid, word := a.word, pc := a.pc, fmask := 0, lanepage := allLanes.map fun _ => 0, pages := [],
    codes := [], served := 0, used := 0, seq := BitVec.ofNat 8 seq, kind := a.op.logKind, behind := false, valid := true,
    rids := [] }

/-! ### Operand blocks (09 R183) -/

/-- The words that a lane has in its operand block: address and data. -/
def blockWords (l : AccLane) : List Word :=
  [BitVec.ofNat 32 l.addr, BitVec.ofNat 32 (l.addr / 2 ^ 32)] ++ (List.range 4).map fun j => l.data.getD j 0

/-- Writes the words of one lane into the rows of a block, by a unit. -/
def State.writeRows (u : TUnit) (x base lane : Nat) : List Word → Nat → State → Option (XFault × Nat) × State
  | [], _, s => (none, s)
  | d :: ds, row, s =>
    match s.vaWrite u x (base + 128 * row + 4 * lane) (leBytes 4 d.toNat) true false with
    | (some e, s1) => (some e, s1)
    | (none, s1) => State.writeRows u x base lane ds (row + 1) s1

/-- Writes the operands of some lanes into the block at `base`; a failure kills the context with SAVE_FAULT. -/
def State.writeBlock (s : State) (u : TUnit) (x core base : Nat) (unit : BitVec 4) : List AccLane → State
  | [] => s
  | l :: ls =>
    match State.writeRows u x base l.lane (blockWords l) 0 s with
    | (some (_, a), s1) => s1.saveFaultKill x core a unit
    | (none, s1) => State.writeBlock s1 u x core base unit ls

/-- Reads a lane's operands back from the block at `base`. -/
def State.readBlock (s : State) (u : TUnit) (x base : Nat) (l : AccLane) : Except (XFault × Nat) AccLane × State :=
  match s.vaRead u x base 768 true false with
  | (.error e, s1) => (.error e, s1)
  | (.ok bs, s1) =>
    let word := fun r => fieldAt bs (128 * r + 4 * l.lane) 4
    (.ok { l with addr := word 0 + 2 ^ 32 * word 1, data := (List.range 4).map fun j => BitVec.ofNat 32 (word (2 + j)) }, s1)

/-! ### Completion (09 R180, R184) -/

/-- The words that an access gives a destination lane; a uniform destination takes its one access. -/
def Acc.valueIn (a : Acc) (lane : Nat) : List Word :=
  if uni a.dest.name then (a.lanes.headD { lane := 0, addr := 0, data := [], stage := .done }).data
  else match a.lanes.find? fun l => l.lane == lane with
    | some l => l.data
    | none => []

/-- Whether an operation writes its predicate destination. -/
def Acc.setsPred (a : Acc) : Bool := (a.op == .cas || a.op == .amaxp) && a.f.pdst != 7

/-- Whether an access acquires at .cl or wider (14 R259). -/
def Acc.acquiresWide (a : Acc) : Bool := a.f.order.getLsbD 0 && decide (2 ≤ a.f.scope.toNat) && a.op != .st && a.op != .red

/-- Whether every class counter of a warp is at or below its limit (07 R138). -/
def Warp.countersAt (w : Warp) (loads stores copies tiles : Nat) : Bool :=
  decide (w.loads ≤ loads) && decide (w.stores ≤ stores) && decide (w.copies ≤ copies) && decide (w.tiles ≤ tiles)

/-- Whether a stall of a warp is over once an access has ended: a WAIT's when its counters are at its limits, a full log's
when an entry is free (02 R48). -/
def StallKind.overAt (w : Warp) : StallKind → Bool
  | .operandLog => decide (w.log.length < 16)
  | .counter => true
  | .classCounters l s c t => w.countersAt l s c t
  | .ordering => true
  | .predicate => true
  | _ => false

/-- The lanes in which an access still writes its destination. A uniform destination takes its one access while the lane that
makes it is live (07 R135; 09 R186). -/
def Acc.owedLanes (a : Acc) (w : Warp) : Mask :=
  if isK a.dest.name.toNat then
    (match a.lanes with
      | l :: _ => if laneOn w.live l.lane then a.dest.lanes else 0
      | [] => 0)
  else a.dest.lanes &&& w.live

/-- Ends an access whose lanes are all done: the destination gets its counts, the pending mark clears, the predicate is
written, the counter falls, and a wide acquire invalidates L1. -/
def State.endAcc (s : State) (c slot n : Nat) (a : Acc) : State :=
  match s.warp? c slot with
  | none => s
  | some w =>
    let k := widthNames a.f.width
    let s1 := if a.dest.name = 511 then s else s.completeIn c slot w.wid a.owedLanes a.dest k a.valueIn
    let s2 := s1.modWarp c slot fun w =>
      let w1 := if a.setsPred then
          w.setPred a.f.pdst.toNat (a.dest.lanes &&& w.live) (maskOf fun i => (a.valueIn i).getD k 0 != 0) else w
      let w2 := { w1 with
        accs := w1.accs.del n
        log := w1.log.filter fun e => e.2.acc != n
        loads := if a.isLoad then w1.loads - 1 else w1.loads
        stores := if a.isLoad then w1.stores else w1.stores - 1 }
      w2.clearStall (StallKind.overAt w2)
    if a.acquiresWide then s2.invalidate c else s2

/-- The block-local indices of the groups that a warp belongs to and has not dropped. -/
def State.undropped (s : State) (w : Warp) : List Nat :=
  (List.range (s.groupCount w)).filter fun g =>
    match s.group? w g with
    | some (_, e) => e.members.getLsbD w.number && !e.dropped.getLsbD w.number
    | none => false

/-- Whether an access of a warp is still to be performed, on the core or from its context's store-fault area, or a store that
it may have read in its core's L1 is still to be accepted by its home (15 R279). -/
def State.owesAccess (s : State) (c : Nat) (w : Warp) : Bool :=
  !w.accs.isEmpty || s.earlyOn c || (s.ctx w.ctx).storeFaults.any fun e => e.2.entry.wid == w.wid

/-- Whether a warp stands before another in the order of the group-table unit: by core rank, then by slot (01 R30). -/
def ranksBefore (c slot c' slot' : Nat) : Bool := decide (c < c') || (c == c' && decide (slot < slot'))

/-- Whether the drops of an exited warp come too late for the present cycle: a warp that stands after it in the order of the
group-table unit has issued, or has made its drops, in this cycle (01 R30). -/
def State.dropLate (s : State) (c slot : Nat) : Bool :=
  (s.cores.any fun k => (k.2.issuedIn s.cycle).any fun i => ranksBefore c slot k.1 i) ||
  (match s.dropAt with
    | some (t, c', o) => t == s.cycle && ranksBefore c slot c' o
    | none => false)

/-- The drops of a warp that has exited on every group it has not yet dropped. A drop releases, so it follows the
performance of every earlier access of the warp, replays included (01 R29; 15 R273, R275). Drops that would reach the group-table
unit out of their order in the present cycle reach it in the next (01 R30). -/
def State.exitDrops (s : State) (c slot : Nat) : State :=
  match s.warp? c slot with
  | none => s
  | some w =>
    if w.live != 0 || (s.undropped w).isEmpty || s.owesAccess c w then s
    else
      let cycle := if s.dropLate c slot then s.cycle + 1 else s.cycle
      (s.undropped w).foldl (fun s g => s.dropOn c slot g 0) { s with cycle := cycle, dropAt := some (cycle, c, slot) }

/-- The drops that exited warps of a core owe, where their releases have become possible. -/
def State.coreDrops (s : State) (c : Nat) : State :=
  ((s.core c).warps.filter fun w => w.2.live == 0).foldl (fun s w => s.exitDrops c w.1) s

/-- Frees an access's entries that hold no lane once its translation is over, and ends the access when it is done. -/
def State.settleAcc (s : State) (c slot n : Nat) : State :=
  match s.warp? c slot with
  | none => s
  | some w =>
    match w.accs.get? n with
    | none => s
    | some a =>
      if a.done then (s.endAcc c slot n a).exitDrops c slot
      else if a.todo then s
      else
        let empty := a.entries.filter fun i => (w.log.get? i).all fun e => e.fmask == 0
        s.setWarp c slot ({ w with log := w.log.filter fun e => !empty.contains e.1 }.modAcc n fun a =>
          { a with entries := a.entries.filter fun i => !empty.contains i })

/-! ### Logging a lane (09 R181 to R185) -/

/-- The entry of an access that takes a page: one that has the page, one with room, or a free one of the 16. -/
def Warp.entryFor (w : Warp) (a : Acc) (p : BitVec 36) : Option Nat :=
  match a.entries.find? fun i => (w.log.get? i).any fun e => e.pages.contains p with
  | some i => some i
  | none =>
    match a.entries.find? fun i => (w.log.get? i).any fun e => decide (e.pages.length < 4) with
    | some i => some i
    | none => w.log.free 0 16

/-- An entry with some lanes of a page added. -/
def LogEntry.addLanes (e : LogEntry) (p : BitVec 36) (lanes : Mask) (code : BitVec 8) (rid : Nat) (behind : Bool) : LogEntry :=
  let j := e.pages.findIdx (· == p)
  let e1 := if j < e.pages.length then e
    else { e with pages := e.pages ++ [p], codes := e.codes ++ [code], rids := e.rids ++ [rid]
                  used := e.used ||| BitVec.ofNat 4 (2 ^ j) }
  { e1 with fmask := e1.fmask ||| lanes, behind := e1.behind || behind
            lanepage := allLanes.map fun i => if laneOn lanes i then BitVec.ofNat 2 j else e1.lanepage.getD i 0 }

/-- The record of a warp's access that meets a fault. -/
def State.accRecord (s : State) (c : Nat) (w : Warp) (a : Acc) (lanes : Mask) (kind code : BitVec 8) (addr entry : Nat) : EvRec :=
  s.warpRecord c w a.pc (maskOf fun i => a.lanes.any fun l => l.lane == i) kind
    { code := code, lanes := lanes, addr := BitVec.ofNat 64 addr, info := memInfo a.op.access entry }

/-- Reports a replayable fault: PAGE_S2 becomes a page request, whose number is given, PAGE_S1 a notice. -/
def State.reportPage (s : State) (u : TUnit) (x addr : Nat) (k : AccKind) (f : XFault) (r : EvRec) : Nat × State :=
  if f.code = cPageS2 then s.requestPage u x addr k f else (0, s.noticeS1 x r)

/-- The lanes of a page of a store entry, or of any entry of a warp that has exited, are reported, and are dropped unperformed once
their record is posted (21 R331, R333); a load or atomic halts the warp, its lanes staying in fmask (09 R184, 22 R341). -/
def State.refusePage (s : State) (c slot n j : Nat) (code : BitVec 8) : State :=
  match s.warp? c slot with
  | none => s
  | some w =>
    match w.log.get? n with
    | none => s
    | some e =>
      match w.accs.get? e.acc with
      | none => s
      | some a =>
        let lanes := e.lanesOn j
        let addr := match a.lanes.find? fun l => laneOn lanes l.lane with
          | some l => l.addr
          | none => 0
        let fn := (s.ctx w.ctx).fn
        let w1 := w.modLog n fun e => { e with codes := setAt e.codes j code, served := e.served &&& ~~~(BitVec.ofNat 4 (2 ^ j)) }
        if e.kind = 1 ∨ w.live = 0 then
          let r := s.accRecord c w a lanes 2 code addr n
          let s1 := (s.setWarp c slot w1).post fn r
          { s1 with dropsOwed := s1.dropsOwed ++ [(r, .log c slot w.wid n j)] }
        else (s.setWarp c slot { w1 with halted := true }).post fn { s.accRecord c w a lanes 1 code addr n with flags := 0x40 }

/-- A warp whose lanes on a page of a store entry are dropped. -/
def Warp.dropPage (w : Warp) (n j : Nat) : Warp :=
  match w.log.get? n with
  | none => w
  | some e =>
    let lanes := e.lanesOn j
    (w.modLog n fun e => { e with fmask := e.fmask &&& ~~~lanes }).modAcc e.acc fun a => a.setStage lanes .done

/-- The drop of the lanes on a page in what saves of contexts hold. -/
def State.dropSaved (s : State) (c : Nat) (wid : BitVec 64) (n j : Nat) : State :=
  { s with ctxs := s.ctxs.map fun (x : Nat × Ctx) =>
      (x.1, { x.2 with saved := x.2.saved.map fun (v : Saved) =>
        if v.core = c then
          { v with warps := v.warps.map fun (w : Nat × Warp) => if w.2.wid = wid then (w.1, w.2.dropPage n j) else w }
        else v }) }

/-- Drops the lanes of a page of a warp's store entry: on its core, or in what a save of its context holds. -/
def State.dropLogged (s : State) (c slot : Nat) (wid : BitVec 64) (n j : Nat) : State :=
  match s.warp? c slot with
  | none => s.dropSaved c wid n j
  | some w =>
    if w.wid != wid then s.dropSaved c wid n j
    else match w.log.get? n with
      | none => s
      | some e => (s.setWarp c slot (w.dropPage n j)).settleAcc c slot e.acc

/-- Logs the lanes of an access that lie on one page: they faulted, or wait behind an older entry. None where the access
must wait for a free entry. -/
def State.logLanes (s : State) (c slot n : Nat) (a : Acc) (lanes : List AccLane) (f : Option XFault) : Option State :=
  match s.warp? c slot, lanes with
  | some w, l :: _ =>
    let p := pageOf l.addr
    match w.entryFor a p with
    | none => none
    | some i =>
      let mask := lanes.foldl (fun m l => m ||| laneBit l.lane) 0
      let behind := s.heldPage w n p
      let code := match f with
        | some x => x.code
        | none => 0
      let (rid, s1) := match f with
        | some x => if replayable x.code then
            s.reportPage (.core c) w.ctx l.addr a.op.access x (s.accRecord c w a mask 3 x.code l.addr i) else (0, s)
        | none => (0, s)
      let fresh := !w.log.has i
      let e := (w.log.get? i).getD (LogEntry.reserved n a w.wid w.logseq)
      let w1 := ({ w with log := w.log.put i (e.addLanes p mask code rid behind)
                          logseq := if fresh then w.logseq + 1 else w.logseq }.modAcc n fun a =>
        { a.setStage mask .logged with entries := if fresh then a.entries ++ [i] else a.entries })
      let s2 := (s1.setWarp c slot w1).writeBlock (.core c) w.ctx c (s1.blockAt w.ctx c slot i) 0 lanes
      match f with
      | some x => if replayable x.code then some s2
          else some (s2.refusePage c slot i (w1.log.getD i LogEntry.none |>.pages.findIdx (· == p)) x.code)
      | none => some s2
  | _, _ => none

/-- A page of an entry faults again when it is walked or replayed: it takes the new fault and waits. A PAGE_S1 is reported
again at a replay (09 R184), but not at the walk of a retry doorbell, which is `quiet` (20 R322). -/
def State.refault (s : State) (c slot n j addr : Nat) (x : XFault) (quiet : Bool) : State :=
  match s.warp? c slot with
  | none => s
  | some w =>
    match w.log.get? n with
    | none => s
    | some e =>
      match w.accs.get? e.acc with
      | none => s
      | some a =>
        let unserved := e.served &&& ~~~(BitVec.ofNat 4 (2 ^ j))
        if replayable x.code then
          if quiet ∧ x.code = cPageS1 ∧ e.codes.getD j 0 = cPageS1 then
            s.modWarp c slot fun w => w.modLog n fun e => { e with served := unserved }
          else
            let (rid, s2) := s.reportPage (.core c) w.ctx addr a.op.access x
              (s.accRecord c w a (e.lanesOn j) 3 x.code addr n)
            s2.modWarp c slot fun w => w.modLog n fun e =>
              { e with served := unserved, codes := setAt e.codes j x.code, rids := setAt e.rids j rid }
        else s.refusePage c slot n j x.code

/-- Walks the page `j` of an entry again once its fault was served or retried (20 R322, R326): the page is served, or
takes the new fault. -/
def State.rewalk (s : State) (c slot n j : Nat) : State :=
  match s.warp? c slot with
  | none => s
  | some w =>
    match w.log.get? n with
    | none => s
    | some e =>
      match w.accs.get? e.acc with
      | none => s
      | some a =>
        match a.lanes.find? fun l => laneOn (e.lanesOn j) l.lane with
        | none => s
        | some l =>
          match s.translate (.core c) w.ctx l.addr a.op.access false false true with
          | (.ok _, s1) =>
            s1.modWarp c slot fun w => w.modLog n fun e => { e with served := e.served ||| BitVec.ofNat 4 (2 ^ j) }
          | (.error x, s1) => s1.refault c slot n j l.addr x true

/-! ### The store-fault area (09 R186, 21 R333) -/

/-- The address of a store-fault entry. -/
def State.storeFaultAt (s : State) (x i : Nat) : Nat := (s.ctx x).desc.storeBase + 832 * i

/-- Writes bytes of a context's structures; a failure kills the context with SAVE_FAULT. -/
def State.ctxWrite (s : State) (u : TUnit) (x core va : Nat) (unit : BitVec 4) (bs : List Byte) : State :=
  match s.vaWrite u x va bs true false with
  | (some (_, a), s1) => s1.saveFaultKill x core a unit
  | (none, s1) => s1

/-- Writes the header of a store-fault entry into its context's area. -/
def State.storeHeader (s : State) (x i : Nat) (e : StoreFault) : State :=
  s.ctxWrite (.cp (x / 4096)) x e.core (s.storeFaultAt x i) 3 e.entry.bytes

/-- Changes a store-fault entry of a context, and its header in the area. -/
def State.modStoreFault (s : State) (x i : Nat) (f : StoreFault → StoreFault) : State :=
  match (s.ctx x).storeFaults.get? i with
  | none => s
  | some e => (s.modCtx x fun c => { c with storeFaults := c.storeFaults.put i (f e) }).storeHeader x i (f e)

/-- The record of a store-fault entry: kind 2, without flag 12 for lanes that are dropped. -/
def State.storeRecord (s : State) (x : Nat) (e : StoreFault) (lanes : Mask) (code : BitVec 8) (addr : Nat) : EvRec :=
  { EvRec.zero with
    time := BitVec.ofNat 64 s.time, wid := e.entry.wid, pc := e.entry.pc, addr := BitVec.ofNat 64 addr,
    fmask := e.entry.fmask, lanemask := lanes, info := memInfo e.acc.op.access 255, core := BitVec.ofNat 8 e.core,
    unit := 3, context := BitVec.ofNat 12 (s.ctx x).number, vf := vfField (s.ctx x).fn, kind := 2, code := code }

/-- Reports the lanes of a page of a store-fault entry whose fault is not replayable; they are dropped once the record is posted
(21 R331). -/
def State.dropStore (s : State) (x i j : Nat) (e : StoreFault) (addr : Nat) (code : BitVec 8) : State :=
  let r := s.storeRecord x e (e.entry.lanesOn j) code addr
  let s1 := (s.modStoreFault x i fun e =>
    { e with entry := { e.entry with codes := setAt e.entry.codes j code
                                     served := e.entry.served &&& ~~~(BitVec.ofNat 4 (2 ^ j)) } }).post (s.ctx x).fn r
  { s1 with dropsOwed := s1.dropsOwed ++ [(r, .store x i j)] }

/-- Drops the lanes of a moved entry whose pages already have a fault that is not replayable, and whose record is not on its way
(21 R333). -/
def State.dropMoved (s : State) (x i : Nat) : State :=
  match (s.ctx x).storeFaults.get? i with
  | none => s
  | some e => (List.range e.entry.pages.length).foldl (fun s j =>
      let code := e.entry.codes.getD j 0
      if code == 0 || replayable code || e.entry.lanesOn j == 0 || s.dropsOwed.any (fun d => d.2 == .store x i j) then s
      else
        let addr := match e.acc.lanes.find? fun l => laneOn (e.entry.lanesOn j) l.lane with
          | some l => l.addr
          | none => 0
        s.dropStore x i j e addr code) s

/-- Moves one store or atomic entry of a warp that has exited to the lowest free store-fault entry of its context; what of it has a
fault that is not replayable is dropped there (21 R333). -/
def State.moveEntry (s : State) (c slot n : Nat) : State :=
  match s.warp? c slot with
  | none => s
  | some w =>
    match w.log.get? n with
    | none => s
    | some e =>
      match w.accs.get? e.acc, (s.ctx w.ctx).storeFaults.free 0 (s.ctx w.ctx).desc.storeCount with
      | some a, some i =>
        let mine := { a with lanes := a.lanes.filter fun l => laneOn e.fmask l.lane }
        let relink := fun (d : DropOf) => match d with
          | .log c' _ wid n' j => if c' = c ∧ wid = w.wid ∧ n' = n then DropOf.store w.ctx i j else d
          | _ => d
        let s0 := { s with dropsOwed := s.dropsOwed.map fun (d : EvRec × DropOf) => (d.1, relink d.2) }
        let s1 := s0.modCtx w.ctx fun x =>
          { x with storeFaults := x.storeFaults.put i { acc := mine, entry := e, core := c, block := w.block } }
        let s2 := s1.modWarp c slot fun w =>
          { w with log := w.log.del n }.modAcc e.acc fun a =>
            { a.setStage e.fmask .done with entries := a.entries.filter (· != n) }
        let s3 := s2.ctxWrite (.core c) w.ctx c (s2.storeFaultAt w.ctx i) 0 e.bytes
        let s4 := s3.writeBlock (.core c) w.ctx c (s3.storeFaultAt w.ctx i + 64) 0 mine.lanes
        let addr := match mine.lanes with
          | l :: _ => l.addr
          | [] => 0
        let s5 := s4.post (s.ctx w.ctx).fn { s.accRecord c w a e.fmask 2 (e.codes.headD 0) addr n with flags := 0x10 }
        (s5.dropMoved w.ctx i).settleAcc c slot e.acc
      | _, _ => s

/-- Moves what can be moved of a warp that has exited, the oldest access first. -/
def State.moveEntries (s : State) (c slot : Nat) : State :=
  match s.warp? c slot with
  | none => s
  | some w =>
    if w.live != 0 then s
    else
      let held := (w.accs.flatMap fun a => a.2.entries).filter fun i =>
        (w.log.get? i).any fun e => e.kind != 0 && e.fmask != 0
      held.foldl (fun s i => s.moveEntry c slot i) s

/-- Moves the entries that warps of a context still wait to move. -/
def State.moveWaiting (s : State) (x : Nat) : State :=
  s.cores.foldl (fun s k => (k.2.warps.filter fun w => w.2.ctx == x && w.2.live == 0).foldl
    (fun s w => s.moveEntries k.1 w.1) s) s

/-! ### Exit of lanes (07 R135; 02 R43; 01 R29; 09 R186) -/

/-- Gives up the logged lanes of a load among some lanes. -/
def Acc.dropLogged (a : Acc) (lanes : Mask) : Acc :=
  { a with lanes := a.lanes.map fun l => if laneOn lanes l.lane && l.stage == .logged then { l with stage := .done } else l }

/-- The lanes of an access that stand in no entry of the log, though they are to be performed again: a soft error has met them
(24 R368). -/
def Warp.unheld (w : Warp) (n : Nat) (a : Acc) : Mask :=
  maskOf fun i => (a.lanes.any fun l => l.lane == i && l.stage == .logged) &&
    w.log.all fun e => e.2.acc != n || !laneOn e.2.fmask i

/-- A warp whose lanes that a soft error has met are to be performed once more. -/
def Warp.reopen (w : Warp) : Warp :=
  { w with accs := w.accs.map fun (a : Nat × Acc) => (a.1, a.2.setStage (w.unheld a.1 a.2) .todo) }

/-- A warp without some lanes: their counts are zero, their loads are removed from the log, their waits and traps end. -/
def Warp.dropLanes (w : Warp) (lanes : Mask) : Warp :=
  let loads := (w.accs.filter fun a => a.2.op == .ld).map (·.1)
  let w1 := { w with
    live := w.live &&& ~~~lanes
    names := w.names.map fun (n : Nat × NameCell) => (n.1, n.2.setCounts lanes fun _ => 0)
    accs := w.accs.map fun (a : Nat × Acc) =>
      (a.1, a.2.dropLogged (if a.2.op == AccOp.ld then lanes else lanes &&& w.unheld a.1 a.2))
    log := w.log.map fun (e : Nat × LogEntry) =>
      if loads.contains e.2.acc then (e.1, { e.2 with fmask := e.2.fmask &&& ~~~lanes }) else e
    waits := (w.waits.map fun (t : Wait) => { t with lanes := t.lanes &&& ~~~lanes }).filter fun t => t.lanes != 0
    traps := (w.traps.map fun (t : Trap) => { t with lanes := t.lanes &&& ~~~lanes }).filter fun t => t.lanes != 0
    stall := none, timeout := false }
  (w1.clearArrivals lanes).sweep

/-- A core with a warp in neither set. -/
def Core.unschedule (k : Core) (slot : Nat) : Core :=
  { k with active := k.active.filter (· != slot), pending := k.pending.filter (· != slot) }

/-- Whether a stall of a warp is over, though no event has ended it: slots have become free for its allocation, or what its
core's L1 has shown early has been accepted. -/
def State.stallOver (s : State) (c slot : Nat) (w : Warp) (k : StallKind) : Bool :=
  match k with
  | .allocation n => s.canAllocate c slot w n
  | .ordering => w.accs.isEmpty && !s.earlyOn c
  | _ => false

/-- Whether a warp is ready: it has an issuable lane, it is not leaving, and nothing blocks its next issue (01 R20). -/
def State.ready (s : State) (c slot : Nat) : Bool :=
  match s.warp? c slot with
  | none => false
  | some w => w.issuable != 0 && !w.leaving && (match w.stall with
    | some t => s.stallOver c slot w t.kind
    | none => true)

/-- Pending warps enter an active set that has room, ready ones first, longest waiting first (01 R19, R20). DESIGN CHOICE
(log 80): that warps which are not ready enter too, behind the ready ones. -/
def State.fillActive (s : State) (c : Nat) : State :=
  s.modCore c fun k =>
    let ready := k.pending.filter (s.ready c)
    let order := ready ++ k.pending.filter fun i => !ready.contains i
    let now := order.take (8 - k.active.length)
    { k with active := k.active ++ now, pending := k.pending.filter fun i => !now.contains i }

/-- Ends lanes of a warp as EXIT does. With its last lane the warp frees its names, leaves the active and pending sets,
its store entries move, and it drops its groups once nothing of it is left to perform. -/
def State.exitLanes (s : State) (c slot : Nat) (lanes : Mask) : State :=
  match s.warp? c slot with
  | none => s
  | some w =>
    let w1 := w.dropLanes lanes
    let s1 := (w1.accs.map (·.1)).foldl (fun s n => s.settleAcc c slot n) (s.setWarp c slot w1)
    if w1.live != 0 then s1
    else
      let s3 := s1.modWarp c slot fun w =>
        { w with names := [], halted := false, evicted := false, leaving := false, screeNames := 0, fetches := [] }
      let s4 := (s3.modCore c fun k => k.unschedule slot).fillActive c
      (s4.moveEntries c slot).exitDrops c slot

end Sys2Proof.Machine
end

