-- ==== Sys2Proof/Machine/Perform.lean ====
section
/-! DEFINITION. Performing one lane of an access at its point: scratchpad, lode, L1, home L2 and the memory behind it
(09 R178, R179, R193 to R195; 14 R253, R258 to R261; 15 R269; 19 R303). -/
namespace Sys2Proof.Machine

/-! ### Values -/

/-- The bytes of an access of a width. -/
def widthBytes (width : BitVec 3) : Nat := 2 ^ width.toNat

/-- The words of some loaded bytes, zero-extended (09 R174). -/
def wordsOf (bs : List Byte) : Nat → List Word
  | 0 => []
  | k + 1 => BitVec.ofNat 32 (leNat (bs.take 4)) :: wordsOf (bs.drop 4) k

/-- The number in some words, low word first. -/
def natOfWords : List Word → Nat
  | [] => 0
  | x :: xs => x.toNat + 2 ^ 32 * natOfWords xs

/-- The signed integer of `w` bits. -/
def signedOf (w x : Nat) : Int := if x < 2 ^ (w - 1) then x else (x : Int) - 2 ^ w

/-- The new value of an atomic operation on `w` bits (09 R193). -/
def atomicNew (code w old v : Nat) : Nat :=
  match code with
  | 0 => (old + v) % 2 ^ w
  | 1 => if signedOf w v < signedOf w old then v else old
  | 2 => if signedOf w old < signedOf w v then v else old
  | 3 => old &&& v
  | 4 => old ||| v
  | 5 => old ^^^ v
  | 6 => v
  | 7 => (roundFloat 0 0 false 0 ((decodeFloat 0 old).add 0 (decodeFloat 0 v))).1
  | 8 => (fpPick false (BitVec.ofNat 32 old) (BitVec.ofNat 32 v)).toNat
  | _ => (fpPick true (BitVec.ofNat 32 old) (BitVec.ofNat 32 v)).toNat

/-- key(s) of AMAXP: the ordered integer of an FP32 code (09 R195). -/
def orderKey (x : Word) : Word := if x.getLsbD 31 then ~~~x else x ^^^ 0x80000000

/-- AMAXP's candidate word. -/
def amaxCand (score index : Word) : Nat := (orderKey score).toNat * 2 ^ 32 + (0xFFFFFFFF - index.toNat)

/-- AMAXP's new word, or none where W keeps its value (09 R195). -/
def amaxNew (sup : Bool) (w mask : Nat) (score index : Word) : Option Nat :=
  let skip := (f32 score).isNan || (sup && decide (index.toNat < 64) && mask.testBit index.toNat)
  if !skip && decide (w < amaxCand score index) then some (amaxCand score index) else none

/-- What a read-modify-write does with the value it finds: the new value if it writes, and the outcome for pdst. -/
def rmwNew (a : Acc) (l : AccLane) (old mask : Nat) : Option Nat × Bool :=
  let w := 8 * widthBytes a.f.width
  let k := widthNames a.f.width
  match a.op with
  | .cas =>
    let eq := old == natOfWords (l.data.take k)
    (if eq then some (natOfWords ((l.data.drop k).take k)) else none, eq)
  | .amaxp =>
    let n := amaxNew (a.f.atomic == 3) old mask (l.data.getD 0 0) (l.data.getD 1 0)
    (n, n.isSome)
  | _ => (some (atomicNew a.f.atomic.toNat w old (natOfWords (l.data.take k) % 2 ^ w)), false)

/-! ### Scratchpad and lode -/

/-- Where an offset of a core's scratchpad lies in the scratchpad store. -/
def spadAt (core off : Nat) : Nat := core * 2 ^ 21 + off

/-- The core and offset of a scratchpad address of space 1 or 2 (14 R253). -/
def spadTarget (core : Nat) (space : BitVec 3) (a : Nat) : Nat × Nat :=
  if space = 1 then (core, a % 2 ^ 21) else (core / 8 * 8 + a / 2 ^ 21 % 8, a % 2 ^ 21)

/-- Where a lode offset lies in the lode store of a core's die (06 R127). -/
def lodeAt (core off : Nat) : Nat := dieOf core * 2 ^ 30 + off % 2 ^ 30

/-- Whether some bank under a lode range is in refresh, so that an access to it waits (06 R128). -/
def State.lodeBusy (s : State) (off n : Nat) : Bool :=
  (List.range ((off + n - 1) / 4096 - off / 4096 + 1)).any fun j => s.busy.getD ((off / 4096 + j) % 16) false

/-! ### L1 (14 R258) -/

/-- Whether an L1 line holds a physical byte for a context. -/
def L1Line.holds (l : L1Line) (x : Nat) (p : Phys) : Bool := l.ctx == x && l.host == p.host && l.addr == p.line

/-- The L1 line that serves a context's access. -/
def State.l1Find (s : State) (c x : Nat) (p : Phys) : Option L1Line := (s.core c).l1.find? fun l => l.holds x p

/-- Changes a core's L1. -/
def State.modL1 (s : State) (c : Nat) (f : List L1Line → List L1Line) : State :=
  let k := s.core c
  s.setCore c { k with l1 := f k.l1 }

/-- Removes a line from a core's L1. -/
def State.l1Drop (s : State) (c x : Nat) (p : Phys) : State := s.modL1 c fun ls => ls.filter fun l => !l.holds x p

/-- An L1 with a line more: of the 16 ways of its set (128 sets), a full set gives one up first. DESIGN CHOICE (log 13): the
set of a line is its number modulo 128. -/
def l1Add (ls : List L1Line) (x : L1Line) : List L1Line :=
  let set := ls.filter fun l => l.addr % 128 == x.addr % 128
  if set.length < 16 then ls ++ [x]
  else match victimOf L1Line.hint set with
    | some v => (ls.filter fun l => !(l.ctx == v.ctx && l.host == v.host && l.addr == v.addr)) ++ [x]
    | none => ls ++ [x]

/-- Some bytes of a list replaced. -/
def spliceBytes (bs : List Byte) (off : Nat) (new : List Byte) : List Byte :=
  bs.take off ++ new ++ bs.drop (off + new.length)

/-- The bytes that a lane stores. -/
def storedBytes (a : Acc) (l : AccLane) : List Byte := leBytes (widthBytes a.f.width) (natOfWords l.data)

/-- The bytes of a line with those stores over them that the core's L1 has shown a context and that their home has not accepted
(15 R270, R271). -/
def State.earlyBytes (s : State) (c x : Nat) (p : Phys) (bs : List Byte) : List Byte :=
  (s.core c).warps.foldl (fun bs w => if w.2.ctx != x then bs else w.2.accs.foldl (fun bs a =>
    a.2.lanes.foldl (fun bs l => match l.stage with
      | .early h at_ _ =>
        if h == p.host && at_ / 128 == p.line && a.2.f.hint != 3 then spliceBytes bs (at_ % 128) (storedBytes a.2 l) else bs
      | _ => bs) bs) bs) bs

/-- Fills a line of a core's L1 from the home L2 (14 R258). What the L1 has shown already of stores on their way it goes on
showing (15 R270). -/
def State.l1Fill (s : State) (c x : Nat) (p : Phys) (hint : BitVec 2) : State :=
  let line : L1Line :=
    { ctx := x, host := p.host, addr := p.line, hint := hint
      bytes := s.earlyBytes c x p (s.physRead { p with addr := 128 * p.line } 128) }
  (s.l2Fill x p 1 hint).modL1 c fun ls => l1Add (ls.filter fun l => !l.holds x p) line

/-- An access of hint .ef or .el marks its line where the own L1 and the home L2 hold it (09 R178). -/
def State.markLine (s : State) (c : Option Nat) (x : Nat) (p : Phys) (hint : BitVec 2) : State :=
  if !marks hint then s
  else
    let s1 := { s with l2 := s.l2.map fun (l : L2Line) => if l.is p.host p.line then { l with hint := hint } else l }
    match c with
    | some c => s1.modL1 c fun ls => ls.map fun (l : L1Line) => if l.holds x p then { l with hint := hint } else l
    | none => s1

/-- Updates a line of a core's L1 where it holds it. -/
def State.l1Update (s : State) (c x : Nat) (p : Phys) (bs : List Byte) : State :=
  s.modL1 c fun ls => ls.map fun (l : L1Line) =>
    if l.holds x p then { l with bytes := spliceBytes l.bytes (p.addr % 128) bs } else l

/-! ### The home L2 and the memory behind it -/

/-- Writes every modified byte of a byte's line to the memory behind the page; the line stays valid (09 R192). -/
def State.writeBack (s : State) (p : Phys) : State :=
  match s.l2.find? fun l => l.is p.host p.line with
  | some l => s.cleanLine l
  | none => s

/-! ### One lane of a global access -/

/-- Whether an operation reads at or through its core's L1 (09 R178). -/
def narrow (f : MF) : Bool := decide (f.scope.toNat ≤ 1)

/-- A global load of `n` bytes by core `c`, or by the command processor (09 R178; 14 R258). -/
def State.loadGlobal (s : State) (c : Option Nat) (x : Nat) (t : Xlated) (f : MF) (n : Nat) : List Byte × State :=
  let wide := (s.physRead t.phys n, (s.l2Fill x t.phys n f.hint).markLine c x t.phys f.hint)
  if t.item.kind = .uncached then (s.behindRead t.phys n, s.countAt x t.phys n)
  else match c with
    | some c =>
      if narrow f then
        match s.l1Find c x t.phys with
        | some l => ((l.bytes.drop (t.phys.addr % 128)).take n, s.markLine (some c) x t.phys f.hint)
        | none => if f.hint = 3 then wide else (s.physRead t.phys n, s.l1Fill c x t.phys f.hint)
      else wide
    | none => wide

/-- A global store at its home, with the update or removal of the own L1's copy (14 R258). -/
def State.storeGlobal (s : State) (c : Option Nat) (x : Nat) (t : Xlated) (f : MF) (bs : List Byte) : State :=
  if t.item.kind = .uncached then s.behindWrite x t.phys bs
  else
    let s1 := s.physWrite x t.phys bs
    let s2 := match c with
      | some c => if f.hint = 3 then s1.l1Drop c x t.phys else s1.l1Update c x t.phys bs
      | none => s1
    s2.markLine c x t.phys f.hint

/-- The value that a global read-modify-write finds: in L1, filled first, for ATOM and CAS at .wp and .cr on a local
page; else at home, and the line leaves the own L1 (09 R178, R193; 14 R258). -/
def State.rmwOld (s : State) (c : Option Nat) (x : Nat) (t : Xlated) (a : Acc) (n : Nat) : Nat × State :=
  if t.item.kind = .uncached then
    (leNat (s.behindRead t.phys n), s.countAt x t.phys n)
  else match c with
    | some c =>
      if narrow a.f && a.op != .red && t.item.kind == .localMem then
        match s.l1Find c x t.phys with
        | some l => (leNat ((l.bytes.drop (t.phys.addr % 128)).take n), s)
        | none => (s.physNat t.phys n, s.l1Fill c x t.phys a.f.hint)
      else (s.physNat t.phys n, s.l1Drop c x t.phys)
    | none => (s.physNat t.phys n, s)

/-- Whether a RED is buffered: deterministic mode, an FP operation, and its launch still runs (19 R303). -/
def State.buffers (s : State) (a : Acc) : Bool :=
  a.op == .red && a.f.space == 0 && decide (7 ≤ a.f.atomic.toNat) && (s.launch a.launch).flag 0 &&
  (s.launch a.launch).state == 2

/-- The capacity of a launch's reduction buffer in records. -/
def Launch.bufferSize (l : Launch) : Nat := fieldAt l.record 176 4 / 32

/-- The 32 bytes of a buffer record (19 R303). -/
def RedRecord.bytes (r : RedRecord) : List Byte :=
  leBytes 8 r.target ++ leBytes 4 r.value.toNat ++ [BitVec.ofNat 8 r.op, BitVec.ofNat 8 r.lane, BitVec.ofNat 8 r.warp, 0]
  ++ leBytes 4 r.block ++ leBytes 4 r.issue ++ leBytes 4 r.element ++ leBytes 4 0

/-- Adds a record to a launch's reduction buffer, in its order of acceptance: refused as PERM when the buffer is full, or with
the fault of the write. -/
def State.bufferRecord (s : State) (u : TUnit) (n : Nat) (r : RedRecord) : Except XFault State :=
  let l := s.launch n
  if l.bufferSize ≤ l.accepted then .error { code := cPerm, gpa := 0, table := false }
  else match s.vaWrite u l.ctx (fieldAt l.record 168 8 + 32 * l.accepted) r.bytes true false with
    | (some (x, _), _) => .error x
    | (none, s1) => .ok (s1.modLaunch n fun l => { l with buffer := l.buffer ++ [r], accepted := l.accepted + 1 })

/-- The record of a buffered lane. -/
def Acc.redRecord (a : Acc) (l : AccLane) : RedRecord :=
  { target := l.addr, value := l.data.getD 0 0, op := a.f.atomic.toNat - 7, lane := l.lane, warp := a.wno, block := a.bix,
    issue := a.stamp, element := 0 }

/-- Translates a global lane for its operation, with the errors its read of the line meets (24 R368), and the refusal of
a record that the reduction buffer does not take (19 R303). DESIGN CHOICE (log 54): a fault of the buffer's own page is the
lane's. -/
def State.laneFault (s : State) (u : TUnit) (c : Option Nat) (x : Nat) (a : Acc) (l : AccLane) :
    Except XFault Xlated × State :=
  match s.translate u x l.addr a.op.access false false false with
  | (.error e, s1) => (.error e, s1)
  | (.ok t, s1) =>
    let perm : XFault := { code := cPerm, gpa := 0, table := false }
    let inL1 := match c with
      | some c => narrow a.f && a.op == .ld && (s1.l1Find c x t.phys).isSome
      | none => false
    if s1.poisoned t.phys && !inL1 && a.op != .st && a.op != .cwb then (.error { perm with code := cUe }, s1)
    else if s1.buffers a then
      match s1.bufferRecord u a.launch (a.redRecord l) with
      | .ok _ => (.ok t, s1)
      | .error e => (.error e, s1.modLaunch a.launch fun l => { l with overflow := l.overflow || decide (l.bufferSize ≤ l.accepted) })
    else (.ok t, s1)

/-- Performs a translated global lane (09 R178 to R180): the lane holds the value it found, and the outcome for pdst after
it. -/
def State.laneEffect (s : State) (u : TUnit) (c : Option Nat) (x : Nat) (a : Acc) (l : AccLane) (t : Xlated) :
    AccLane × State :=
  let n := widthBytes a.f.width
  let k := widthNames a.f.width
  match a.op with
  | .ld =>
    let (bs, s1) := s.loadGlobal c x t a.f n
    ({ l with data := wordsOf bs k, stage := .done }, s1)
  | .st => ({ l with stage := .done }, s.storeGlobal c x t a.f (storedBytes a l))
  | .cwb => ({ l with stage := .done }, s.writeBack t.phys)
  | _ =>
    if s.buffers a then
      match s.bufferRecord u a.launch (a.redRecord l) with
      | .ok s1 => ({ l with stage := .done }, s1)
      | .error _ => (l, s)
    else
      let (old, s1) := s.rmwOld c x t a n
      let (new, hit) := rmwNew a l old 0
      let s2 := match new with
        | some v => s1.storeGlobal c x t { a.f with hint := 0 } (leBytes n v)
        | none => s1
      ({ l with data := wordsOf (leBytes n old) k ++ [if hit then 1 else 0], stage := .done }, s2)

/-- Four words with two of them replaced. -/
def putHalf (data : List Word) (high : Bool) (new : List Word) : List Word :=
  let d := (data ++ List.replicate 4 0).take 4
  if high then d.take 2 ++ new else new ++ d.drop 2

/-- Performs one 64-bit half of a .b128 lane: of a load its data take the two words. -/
def State.laneHalf (s : State) (u : TUnit) (c : Option Nat) (x : Nat) (a : Acc) (l : AccLane) (t : Xlated) (high : Bool) :
    AccLane × State :=
  let off := if high then 8 else 0
  let at_ : Xlated := { t with phys := { t.phys with addr := t.phys.addr + off } }
  let r := s.laneEffect u c x { a with f := { a.f with width := 3 } } { l with data := (l.data.drop (off / 4)).take 2 } at_
  ({ l with data := if a.op = .ld then putHalf l.data high r.1.data else l.data, stage := .done }, r.2)

/-- Performs a translated global lane, or the named half of it: a .b128 lane in host memory is performed as two 64-bit halves,
either first (09 R174). -/
def State.laneStep (s : State) (u : TUnit) (c : Option Nat) (x : Nat) (a : Acc) (l : AccLane) (t : Xlated) (high : Bool) :
    AccLane × State :=
  if a.f.width != 4 || !t.phys.host then s.laneEffect u c x a l t
  else
    let r := s.laneHalf u c x a l t high
    ({ r.1 with stage := .half high (t.item.kind == .uncached) t.phys.addr t.item.expiry }, r.2)

/-- The page of a half-performed lane of a context, as far as its other half needs it. -/
def halfPage (x : Nat) (uncached : Bool) (addr : Nat) : Xlated :=
  { phys := { host := true, addr := addr }
    item := { unit := .cp 0, ctx := x, va := 0, size := 4096, pa := 0, kind := if uncached then .uncached else .host, peerhi := 0,
              poison := false, user := true, exec1 := false, write1 := true, guest := false, exec2 := false, write2 := true,
              gpa := 0, expiry := none, once := true, lease := 0 } }

/-- Performs a translated global lane whole, as a replay does. DESIGN CHOICE (log 76): of a .b128 lane in host memory both halves
in one step. -/
def State.laneWhole (s : State) (u : TUnit) (c : Option Nat) (x : Nat) (a : Acc) (l : AccLane) (t : Xlated) : AccLane × State :=
  let r := s.laneStep u c x a l t false
  if r.1.stage = .done then r else r.2.laneHalf u c x a r.1 t true

/-- Performs at home a store lane that the own L1 shows already (15 R271). -/
def State.laneHome (s : State) (c x : Nat) (a : Acc) (l : AccLane) (p : Phys) : AccLane × State :=
  let bs := storedBytes a l
  let s1 := s.physWrite x p bs
  let s2 := if a.f.hint = 3 then s1.l1Drop c x p else s1.l1Update c x p bs
  ({ l with stage := .done }, s2.markLine (some c) x p a.f.hint)

/-! ### Merges (14 R262, R263) -/

/-- The merge window of a slice of a partition. -/
def State.windowOf (s : State) (p slice : Nat) : Nat := (s.part p).window.getD (slice - (s.part p).first) 0

/-- Whether line reads of a page of a context wait for a merge at its home. -/
def State.merging (s : State) (x : Nat) (t : Xlated) : Bool :=
  t.item.kind != .uncached && s.windowOf (x / 4096) (s.homeSlice (x / 4096) t.phys) != 0

/-- The core of a line read. -/
def Reader.core : Reader → Nat
  | .load c _ _ => c
  | .prefetch c _ _ _ _ => c
  | .engine c _ => c
  | .array c _ => c

/-- Whether a line read waits in an open merge of a line. -/
def State.inMerge (s : State) (r : Reader) (line : Nat) : Bool := s.merges.any fun m => m.line == line && m.reads.contains r

/-- A line read arrives at its home: it joins the open merge of its line that its core has no read in, or opens one; none
where no merge is free. -/
def State.joinMerge (s : State) (r : Reader) (p : Nat) (a : Phys) : Option State :=
  let line := lineKey a
  let slice := s.homeSlice p a
  match s.merges.findIdx? fun m => m.line == line && !m.reads.any fun q => q.core == r.core with
  | some i => some { s with merges := s.merges.modify i fun m => { m with reads := m.reads ++ [r] } }
  | none =>
    if (s.merges.filter fun m => m.slice == slice).length < 64 then
      some { s with merges := s.merges ++ [{ slice := slice, line := line, reads := [r], formed := s.cycle + s.windowOf p slice }] }
    else none

/-- Whether a load of a core waits in a merge of a line. -/
def State.loadInMerge (s : State) (c line : Nat) : Bool :=
  s.merges.any fun m => m.line == line && m.reads.any fun r => match r with
    | .load k _ _ => k == c
    | _ => false

/-- A line read that may merge: it waits in a merge, which it may join now, or none where it is served alone at once. -/
def State.mergeRead? (s : State) (r : Reader) (x : Nat) (t : Xlated) : Option State :=
  if s.inMerge r (lineKey t.phys) then some s
  else if s.merging x t then s.joinMerge r (x / 4096) t.phys else none

/-- The merge in which a translated lane of a load waits, joined now if it may be; none where the lane is performed now: it is
no line read, its own L1 serves it, or no merge waits or is free (14 R263). -/
def State.loadMerge (s : State) (c slot n x : Nat) (a : Acc) (t : Xlated) : Option State :=
  let r : Reader := .load c slot n
  if a.op != .ld || a.f.order != 0 || a.f.space != 0 then none
  else if s.inMerge r (lineKey t.phys) then some s
  else if narrow a.f && (s.l1Find c x t.phys).isSome then none
  else s.mergeRead? r x t

/-- Performs a load's lane at the formation of its merge: with the value that the home L2 reads once for every member, which an
L1 fill takes too (14 R263). -/
def State.mergedLane (s : State) (c x : Nat) (a : Acc) (l : AccLane) (t : Xlated) : AccLane × State :=
  let n := widthBytes a.f.width
  ({ l with data := wordsOf (s.physRead t.phys n) (widthNames a.f.width), stage := .done },
   if narrow a.f && a.f.hint != 3 then s.l1Fill c x t.phys a.f.hint else s.l2Fill x t.phys n a.f.hint)

/-- Performs a scratchpad or lode lane of a context (14 R256; 06 R127). -/
def State.laneLocal (s : State) (c x : Nat) (a : Acc) (l : AccLane) : AccLane × State :=
  let n := widthBytes a.f.width
  let k := widthNames a.f.width
  if a.f.space = 4 then
    ({ l with data := wordsOf (s.lode.readN (lodeAt c l.addr) n) k, stage := .done }, s.count x 2 n)
  else
    let (core, off) := spadTarget c a.f.space l.addr
    let at_ := spadAt core off
    match a.op with
    | .ld => ({ l with data := wordsOf (s.spad.readN at_ n) k, stage := .done }, s)
    | .st => ({ l with stage := .done }, { s with spad := s.spad.writeN at_ (leBytes n (natOfWords l.data)) })
    | _ =>
      let old := s.spad.nat at_ n
      let mask := if a.op = .amaxp ∧ a.f.atomic = 3 then s.spad.nat (at_ + 8) 8 else 0
      let (new, hit) := rmwNew a l old mask
      let s1 := match new with
        | some v => { s with spad := s.spad.writeN at_ (leBytes n v) }
        | none => s
      ({ l with data := wordsOf (leBytes n old) k ++ [if hit then 1 else 0], stage := .done }, s1)

end Sys2Proof.Machine
end

