-- ==== Sys2Proof/Machine/Memory.lean ====
section
/-! DEFINITION. The memory instructions of class M at issue: fields, addresses, checks, reservation and the constant space
(09 R173 to R196; 03 R65; 21 R334). -/
namespace Sys2Proof.Machine

/-! ### Fields (09 R175) -/

/-- The names of an address source: a pair in spaces 0 and 4 (09 R173). -/
def addrNames (f : MF) : Nat := if f.space = 0 ∨ f.space = 4 then 2 else 1

/-- The rules of 04 R83 for every class M word: widths, scopes, relaxed order with .wp, the address source. -/
def memFields (f : MF) : Bool :=
  decide (f.width.toNat ≤ 4) && decide (f.scope.toNat ≤ 4) && (f.order == 0 || f.scope != 0) && srcOk f.addr (addrNames f)

/-- A data source of `k` names. -/
def dataOk (f : MF) (k : Nat) : Bool := !nul f.data && srcOk f.data k

/-- Whether a field value is among some. -/
def among (x : Nat) (xs : List Nat) : Bool := xs.contains x

/-- LD's fields. -/
def ldFields (h : Hdr) (f : MF) : Bool :=
  memFields f && decide (f.space.toNat ≤ 4) && (f.order == 0 || (f.order == 1 && decide (f.space.toNat ≤ 2))) &&
  f.atomic == 0 && f.pdst == 7 && nul f.data && !nul h.dest && destOk h (widthNames f.width) [f.addr]

/-- ST's fields. -/
def stFields (h : Hdr) (f : MF) : Bool :=
  memFields f && decide (f.space.toNat ≤ 2) && among f.order.toNat [0, 2] && f.atomic == 0 && f.pdst == 7 &&
  dataOk f (widthNames f.width) && destNone h

/-- PREF's fields. -/
def prefFields (h : Hdr) (f : MF) : Bool :=
  memFields f && among f.space.toNat [0, 4] && f.width == 0 && f.order == 0 && f.scope == 0 && f.atomic == 0 &&
  f.pdst == 7 && nul f.data && destNone h

/-- Widths of ATOM and RED: 32 or 64 bits, 32 only for the FP codes. -/
def atomWidth (f : MF) : Bool := f.width == 2 || (f.width == 3 && decide (f.atomic.toNat < 7))

/-- ATOM's fields. -/
def atomFields (h : Hdr) (f : MF) : Bool :=
  memFields f && decide (f.space.toNat ≤ 2) && atomWidth f && decide (f.atomic.toNat ≤ 9) && f.hint == 0 && f.pdst == 7 &&
  dataOk f (widthNames f.width) && destOk h (widthNames f.width) [f.addr, f.data]

/-- CAS's fields. -/
def casFields (h : Hdr) (f : MF) : Bool :=
  memFields f && decide (f.space.toNat ≤ 2) && among f.width.toNat [2, 3] && f.atomic == 0 && f.hint == 0 &&
  dataOk f (2 * widthNames f.width) && destOk h (widthNames f.width) [f.addr, f.data]

/-- RED's fields. -/
def redFields (h : Hdr) (f : MF) : Bool :=
  memFields f && decide (f.space.toNat ≤ 2) && atomWidth f && among f.atomic.toNat [0, 1, 2, 3, 4, 5, 7, 8, 9] &&
  among f.order.toNat [0, 2] && f.hint == 0 && f.pdst == 7 && dataOk f (widthNames f.width) && destNone h

/-- AMAXP's fields. -/
def amaxpFields (h : Hdr) (f : MF) : Bool :=
  memFields f && among f.space.toNat [1, 2] && f.width == 3 && among f.atomic.toNat [2, 3] && f.hint == 0 &&
  dataOk f 2 && destOk h 2 [f.addr, f.data]

/-- FENCE's fields. -/
def fenceFields (h : Hdr) (f : MF) : Bool :=
  memFields f && f.space == 0 && f.width == 0 && f.order != 0 && f.scope != 0 && f.atomic == 0 && f.hint == 0 &&
  f.pdst == 7 && nul f.data && nul f.addr && f.offset == 0 && destNone h

/-- CWB's fields. -/
def cwbFields (h : Hdr) (f : MF) : Bool :=
  memFields f && f.space == 0 && f.width == 0 && f.order == 0 && f.scope == 4 && f.atomic == 0 && f.hint == 0 &&
  f.pdst == 7 && nul f.data && destNone h

/-! ### Addresses (09 R173) -/

/-- The address of a lane. -/
def Warp.address (w : Warp) (f : MF) (lane : Nat) : Nat :=
  if addrNames f = 2 then (w.pair f.addr lane + f.offset.signExtend 64).toNat else (w.word f.addr lane + f.offset).toNat

/-- Whether a lane has an address: no name of its source stands at count zero (09 R176). -/
def Warp.hasAddress (w : Warp) (f : MF) (lane : Nat) : Bool :=
  (constituents f.addr (addrNames f)).all fun n => !isV n || w.count n lane != 0

/-- The bytes of one lane's access: CWB and PREF name a block by one byte of it. -/
def accessBytes (f : MF) : Nat := widthBytes f.width

/-- The bytes that one lane of an operation reads or writes: AMAXP.sup reads the mask beside its word (09 R195). -/
def touchedBytes (op : Option AccOp) (f : MF) : Nat :=
  if op == some .amaxp && f.atomic == 3 then 16 else accessBytes f

/-! ### Checks at issue (09 R176, R188; 21 R334) -/

/-- The lanes that a check concerns: active, with an address. -/
def checkedLanes (e : Env) (f : MF) : Mask := maskOf fun i => laneOn e.act i && e.w.hasAddress f i

/-- The fault of the lanes where a check fails: the first one's address stands in the record. -/
def laneRaise (e : Env) (f : MF) (lanes : Mask) (code : BitVec 8) (bad : Nat → Bool) (info : Word) : Option Raise :=
  let m := maskOf fun i => laneOn lanes i && bad i
  if m = 0 then none
  else some { code := code, lanes := m, info := info
              addr := if code = cFieldReserved then 0 else BitVec.ofNat 64 (e.w.address f (lowLane m)) }

/-- A scratchpad allocation of a context on a core holds `n` bytes from an offset (09 R176; 14 R252). -/
def State.ownsScratch (s : State) (x core off n : Nat) : Bool :=
  s.blocks.any fun b => (s.launch b.2.launch).ctx == x && b.2.cores.contains core &&
    decide (b.2.scratchOff ≤ off) && decide (off + n ≤ b.2.scratchOff + b.2.scratchSize)

/-- Whether a scratchpad address of space 1 or 2 is malformed or not owned. -/
def State.scratchBad (s : State) (core x : Nat) (space : BitVec 3) (a n : Nat) : Bool :=
  let (t, off) := spadTarget core space a
  (if space = 1 then decide (2 ^ 21 ≤ a) else decide (2 ^ 24 ≤ a) || decide (0x180000 ≤ off)) || !s.ownsScratch x t off n

/-- Whether a lode access falls outside the context's window of the die, or the lode store is disabled (06 R127; 23
R349). -/
def State.lodeBad (s : State) (core x a n : Nat) : Bool :=
  let w := (s.ctx x).desc.lode.getD (dieOf core) (0, 0)
  !s.feature 4 || decide (2 ^ 30 ≤ a) || decide (a < w.1) || decide (w.1 + w.2 < a + n)

/-- Whether a parameter-block access lies beyond the block (09 R176). -/
def State.paramBad (s : State) (e : Env) (a n : Nat) : Bool :=
  decide (2 ^ 31 ≤ a) && decide (fieldAt (s.launch e.w.launch).record 108 4 < a % 2 ^ 31 + n)

/-- Whether two byte ranges overlap. -/
def overlaps (lo hi lo' hi' : Nat) : Bool := decide (lo < hi') && decide (lo' < hi)

/-- Whether `n` bytes at an address of a space hit a lock of a core's table (09 R188). -/
def State.lockHit (s : State) (table x space lo n : Nat) (store : Bool) : Bool :=
  (s.core table).locks.any fun k => k.ranges.any fun r =>
    (store || r.write) && r.space == space && (space != 0 || k.ctx == x) && overlaps lo (lo + n) r.lo r.hi

/-- Whether an access of a lane hits a range lock. -/
def State.rangeHit (s : State) (e : Env) (f : MF) (a n : Nat) (store : Bool) : Bool :=
  if f.space = 0 then s.lockHit e.core e.w.ctx 0 a n store
  else
    let (t, off) := spadTarget e.core f.space a
    s.lockHit e.core e.w.ctx (t + 1) off n store || (t != e.core && s.lockHit t e.w.ctx (t + 1) off n store)

/-- Whether an operation matches a watchpoint's mask (21 R334): RED, listed beside ST and CWB, matches `.w` alone. -/
def watchMatches (op : AccOp) (m : BitVec 3) : Bool :=
  (m.getLsbD 0 && (op == .ld || op == .atom || op == .cas || op == .amaxp)) || (m.getLsbD 1 && op != .ld)

/-- The watchpoint that a global access of a lane matches, if any; CWB writes back its whole block (09 R192). -/
def State.watchHit (s : State) (e : Env) (op : AccOp) (a n : Nat) : Option Nat :=
  let lo := if op = .cwb then a / 128 * 128 else a
  let hi := if op = .cwb then lo + 128 else a + n
  (((s.core e.core).watches.getD e.w.ctx []).find? fun w =>
    watchMatches op w.2.mask && overlaps lo hi w.2.addr (w.2.addr + w.2.len)).map (·.1)

/-- The watchpoint check of an access (21 R334). -/
def State.watchCheck (s : State) (e : Env) (f : MF) (lanes : Mask) (op : AccOp) (n : Nat) : Option Raise :=
  let hit := fun i => s.watchHit e op (e.w.address f i) n
  match (lanesOf (lanes &&& ~~~e.w.noWatch)).find? fun i => (hit i).isSome with
  | none => none
  | some i => laneRaise e f (lanes &&& ~~~e.w.noWatch) cWatch (fun i => (hit i).isSome) (BitVec.ofNat 32 ((hit i).getD 0))

/-- The checks of 09 R176 in their order, then the watchpoints; `image` says which lanes' kernel-image reads are refused. PREF
and CWB meet neither locks nor alignment. -/
def State.accessCheck (s : State) (f : MF) (op : Option AccOp) (image : Nat → Bool) (e : Env) : Option Raise :=
  let lanes := checkedLanes e f
  let n := touchedBytes op f
  let a := e.w.address f
  let k : AccKind := match op with
    | some o => o.access
    | none => .read
  let info := memInfo k 255
  match laneRaise e f lanes cFieldReserved (fun i => a i % n != 0) 0 with
  | some r => some r
  | none =>
    match (if f.space = 0 then laneRaise e f lanes cPerm (fun i => decide (2 ^ 48 ≤ a i)) info
        else if f.space = 4 then laneRaise e f lanes cPerm (fun i => s.lodeBad e.core e.w.ctx (a i) n) info
        else if f.space = 3 then none
        else laneRaise e f lanes cScratchRange (fun i => s.scratchBad e.core e.w.ctx f.space (a i) n) 0) with
    | some r => some r
    | none =>
      match (if f.space = 3 then laneRaise e f lanes cPerm (fun i => s.paramBad e (a i) n || image i) info else none) with
      | some r => some r
      | none =>
        match op with
        | none => none
        | some o =>
          match (if o == .cwb || f.space == 3 || f.space == 4 then none
              else laneRaise e f lanes cRangeLockHit (fun i => s.rangeHit e f (a i) n (o != .ld)) 0) with
          | some r => some r
          | none => if f.space = 0 then s.watchCheck e f lanes o n else none

/-! ### Stalls (09 R181, R185; 07 R137; 15 R274) -/

/-- Why a memory instruction does not issue: an outstanding acquire, a release of its own, a full counter, a full log. -/
def State.memStall (s : State) (f : MF) (load logged : Bool) (e : Env) : Option StallKind :=
  if e.act = 0 then none
  else if e.w.accs.any fun a => a.2.acquires then some .ordering
  else if f.order.getLsbD 1 && s.releaseWaits e then some .ordering
  else if decide (63 ≤ if load then e.w.loads else e.w.stores) then some .counter
  else if logged && (e.w.log.free 0 16).isNone then some .operandLog
  else none

/-! ### Issue -/

/-- The lanes of an access: each active lane's address and data, or for a uniform destination the lowest one's. -/
def accLanes (e : Env) (h : Hdr) (f : MF) (k : Nat) : List AccLane :=
  (lanesOf (if uni h.dest then laneBit (lowLane e.act) else e.act)).map fun i =>
    { lane := i, addr := e.w.address f i, data := (constituents f.data k).map fun n => e.w.val n i, stage := .todo }

/-- Whether an operation is one that deterministic mode buffers (19 R303). -/
def State.countsBuffered (s : State) (w : Warp) (op : AccOp) (f : MF) : Bool :=
  op == .red && f.space == 0 && decide (7 ≤ f.atomic.toNat) && (s.launch w.launch).flag 0

/-- Whether an atomic, CAS or RED of a lane is performed at the home L2, so that the line leaves the own L1 (14 R258). -/
def atHome (op : AccOp) (f : MF) (t : Xlated) : Bool :=
  f.space == 0 && (op == .atom || op == .cas || op == .red) && (!narrow f || op == .red || t.item.kind != .localMem)

/-- The lines that an access performed at the home L2 removes from its own L1 at issue (14 R258). -/
def State.dropAtHome (s : State) (e : Env) (op : AccOp) (f : MF) (ls : List AccLane) : State :=
  ls.foldl (fun s l =>
    match (s.translate (.core e.core) e.w.ctx l.addr op.access false false false).1 with
    | .ok t => if atHome op f t then s.l1Drop e.core e.w.ctx t.phys else s
    | .error _ => s) s

/-- Whether an earlier atomic of the core that is performed at the home L2 has still to be performed on a line (14 R258). -/
def State.homeMeets (s : State) (c born : Nat) (p : Phys) : Bool :=
  (s.core c).warps.any fun w => w.2.accs.any fun b => decide (b.2.born < born) && b.2.lanes.any fun l =>
    l.stage == .todo && (match (s.translate (.core c) w.2.ctx l.addr b.2.op.access false false false).1 with
      | .ok t => atHome b.2.op b.2.f t && t.phys.host == p.host && t.phys.line == p.line
      | .error _ => false)

/-- Begins an access: its destination is owed, its counter rises, its log entry is reserved, and the fragment moves on
(09 R180, R181). -/
def State.beginAccess (s : State) (e : Env) (h : Hdr) (f : MF) (op : AccOp) (k : Nat) (word : InsnWord) : State :=
  if e.act = 0 then s.modWarp e.core e.slot fun w => w.sweep.advance e.frag
  else s.modWarp e.core e.slot fun w =>
    let a : Acc :=
      { op := op, pc := e.pc, word := word, f := f, dest := { name := h.dest, count := h.count, lanes := e.act },
        lanes := accLanes e h f k, entries := [], launch := w.launch
        bix := match s.blocks.get? w.block with
          | some b => b.index
          | none => 0
        wno := w.number, stamp := w.buffered, born := s.steps }
    let entry := if f.space = 0 then w.log.free 0 16 else none
    let a1 := { a with entries := entry.toList }
    let w1 := (w.bindPending e.act (constituents h.dest (widthNames f.width)) h.count).sweep.advance e.frag
    { w1 with
      accs := w1.accs.put w1.accseq a1, accseq := w1.accseq + 1
      log := match entry with
        | some i => w1.log.put i (LogEntry.reserved w1.accseq a1 w1.wid w1.logseq)
        | none => w1.log
      logseq := if entry.isSome then w1.logseq + 1 else w1.logseq
      loads := if a1.isLoad then w1.loads + 1 else w1.loads
      stores := if a1.isLoad then w1.stores else w1.stores + 1
      buffered := if s.countsBuffered w op f then w1.buffered + 1 else w1.buffered }

/-- What a memory instruction asks of its issue. -/
def accessNeeds (s : State) (h : Hdr) (f : MF) (fields : Bool) (op : AccOp) (k : Nat) (load : Bool) : Needs :=
  { fields := fields
    reads := rd f.addr (addrNames f) ++ rd f.data k
    dests := constituents h.dest (widthNames f.width), count := h.count
    preds := if op == .cas || op == .amaxp then [f.pdst.toNat] else []
    entry := s.accessCheck f (some op) fun _ => false
    stalls := s.memStall f load (f.space == 0) }

/-- A memory instruction that starts an access, with `k` data names. -/
def access (s : State) (h : Hdr) (f : MF) (i : Instr) (fields : Bool) (op : AccOp) (k : Nat) (load : Bool) :
    Host.Outcome State Fault Refusal :=
  issue s h i (accessNeeds s h f fields op k load) fun e s' =>
    (s'.dropAtHome e op f (if op = .atom ∨ op = .cas ∨ op = .red then accLanes e h f k else [])).beginAccess e h f op k
      ((encode i).getD 0)

/-! ### The constant space (03 R65) -/

/-- The virtual address of a constant-space address in a launch: the parameter block, or the kernel image. -/
def State.constantVa (s : State) (w : Warp) (a : Nat) : Nat :=
  let r := (s.launch w.launch).record
  if 2 ^ 31 ≤ a then (fieldAt r 112 8 + a % 2 ^ 31) % 2 ^ 64
  else (fieldAt r 0 8 - fieldAt r 0 8 % 8 + a) % 2 ^ 48

/-- Whether a kernel-image read touches bytes 60 to 63 of a line, or bytes beyond an image of `size` bytes: its address alone
says so. -/
def imageBeyond (size a n : Nat) : Bool := decide (60 < a % 64 + n) || decide (size < a + n)

/-- Whether a line is a code line, by its kind byte (03 R66). -/
def codeLine (line : List Byte) : Bool := line.getD 62 0 == 0

/-- The bytes of a launch's kernel image. -/
def State.imageBytes (s : State) (w : Warp) : Nat := Config.imageSize w.ctx (s.constantVa w 0)

/-- What a constant read ends in. -/
inductive ConstStop where
  | page (x : XFault) (va : Nat)
  | fault (code : BitVec 8)
  deriving DecidableEq, Repr

/-- Fills a line of a core's constant cache of 512 lines. DESIGN CHOICE (log 13): the longest held makes room. -/
def Core.constFill (k : Core) (l : ConstLine) : Core :=
  { k with consts := (if k.consts.length < 512 then k.consts else k.consts.drop 1) ++ [l] }

/-- The line of an address in a core's constant cache, which no store changes; a line that it lacks is filled, translated in
the launch's context (14 R257). -/
def State.constantLine (s : State) (c : Nat) (w : Warp) (va : Nat) (fresh : Bool) : Except ConstStop (List Byte) × State :=
  match (s.core c).consts.find? fun l => l.launch == w.launch && l.addr == va / 128 with
  | some l => (.ok l.bytes, s)
  | none =>
    match s.translate (.core c) w.ctx va .read false false fresh with
    | (.error x, s1) => (.error (if replayable x.code then .page x va else .fault x.code), s1)
    | (.ok t, s1) =>
      if s1.poisoned t.phys then (.error (.fault cUe), s1)
      else
        let line : Xlated := { t with phys := { t.phys with addr := 128 * t.phys.line } }
        let bs := s1.pageRead line 128
        (.ok bs, (s1.pageFill line 128).modCore c fun k => k.constFill { launch := w.launch, addr := va / 128, bytes := bs })

/-- Reads one lane's constant bytes, from one line or two. A kernel-image read is checked by its address before any fill, and then
against its line's kind (03 R65; 09 R176). -/
def State.constantRead (s : State) (c : Nat) (w : Warp) (a n : Nat) (fresh : Bool) :
    Except ConstStop (List Byte) × State :=
  let va := s.constantVa w a
  let head := min n (128 - va % 128)
  if decide (a < 2 ^ 31) && imageBeyond (s.imageBytes w) a n then (.error (.fault cPerm), s)
  else match s.constantLine c w va fresh with
  | (.error x, s1) => (.error x, s1)
  | (.ok line, s1) =>
    if decide (a < 2 ^ 31) && codeLine ((line.drop (va % 128 / 64 * 64)).take 64) then (.error (.fault cPerm), s1)
    else if head = n then (.ok ((line.drop (va % 128)).take n), s1)
    else match s1.constantLine c w (va + head) fresh with
      | (.error x, s2) => (.error x, s2)
      | (.ok next, s2) => (.ok (line.drop (va % 128) ++ next.take (n - head)), s2)

/-- Whether the constant read of a lane ends in PERM, as its issue checks it (09 R176). DESIGN CHOICE (log 32): a lane whose
fill still waits for its page passes here. -/
def State.constantPerm (s : State) (e : Env) (f : MF) (i : Nat) : Bool :=
  match (s.constantRead e.core e.w (e.w.address f i) (accessBytes f) false).1 with
  | .error (.fault code) => code == cPerm
  | _ => false

/-- The constant reads of some lanes, in ascending order: each lane's bytes, or why it has none. -/
def State.constantLanes (c : Nat) (e : Env) (f : MF) (fresh : Bool) :
    List Nat → State → Tab (Except ConstStop (List Byte)) × State
  | [], s => ([], s)
  | i :: is, s =>
    let (r, s1) := s.constantRead c e.w (e.w.address f i) (accessBytes f) fresh
    let (t, s2) := State.constantLanes c e f fresh is s1
    ((i, r) :: t, s2)

/-- The first fault among some lanes' constant reads. -/
def constantFault (t : Tab (Except ConstStop (List Byte))) : Option (BitVec 8) :=
  t.findSome? fun r => match r.2 with
    | .error (.fault code) => some code
    | _ => none

/-- The first page that some lanes' constant reads wait for. -/
def constantPage (t : Tab (Except ConstStop (List Byte))) : Option (XFault × Nat) :=
  t.findSome? fun r => match r.2 with
    | .error (.page x va) => some (x, va)
    | _ => none

/-- Whether a constant read ended in a fault with this code. -/
def constantFailed (code : BitVec 8) (r : Except ConstStop (List Byte)) : Bool :=
  match r with
  | .error (.fault c) => c == code
  | _ => false

/-- The bytes of a constant read; none where it did not succeed. -/
def constantBytes (r : Except ConstStop (List Byte)) : List Byte :=
  match r with
  | .ok bs => bs
  | _ => []

/-- Starts, or goes on with, the wait of a constant load for a page (03 R65; 20 R321, R322). -/
def State.constantAwait (s : State) (e : Env) (x : XFault) (va : Nat) : State :=
  let wait := fun (p : PageWait) (s : State) =>
    (s.modWarp e.core e.slot fun w => w.setFetch true e.pc (some p)).stalled e.core e.slot .constant
  let again := match e.w.fetchWait true e.pc with
    | some p => if p.va / 4096 = va / 4096 ∧ x.code = cPageS1 ∧ p.code = cPageS1 then some { p with served := false } else none
    | none => none
  match again with
  | some p => wait p s
  | none =>
    let (p, s1) := s.awaitPage (.core e.core) e.w.ctx va .read x
      (s.warpRecord e.core e.w e.pc e.frag 3 { code := 0, lanes := e.act, addr := 0, info := memInfo .read 255 })
    wait p s1

/-- A constant load: its value is read before the fragment issues anything further; a fault is precise and a page is
awaited with nothing changed (03 R65; 09 R176). -/
def State.constantLoad (s s' : State) (e : Env) (h : Hdr) (f : MF) : State :=
  let dests := constituents h.dest (widthNames f.width)
  let lanes := if uni h.dest then laneBit (lowLane e.act) else e.act
  if e.act = 0 then finish e dests h.count (fun _ => []) s'
  else
    let raise := fun (s : State) (code : BitVec 8) (m : Mask) =>
      (s.modWarp e.core e.slot fun w => w.setFetch true e.pc none).raise_ e { code := code, lanes := m, addr := BitVec.ofNat 64 (e.w.address f (lowLane m)), info := memInfo .read 255 }
    let go := fun (fresh : Bool) =>
      let (t, s1) := State.constantLanes e.core e f fresh (lanesOf lanes) s
      match constantFault t with
      | some code => raise s1 code (maskOf fun i => (t.get? i).any (constantFailed code))
      | none =>
        match constantPage t with
        | some (x, va) => s1.constantAwait e x va
        | none =>
          let s2 := ((match s'.warp? e.core e.slot with
            | some w => s1.setWarp e.core e.slot (w.setFetch true e.pc none)
            | none => s1).modL1 e.core fun _ => (s'.core e.core).l1).countIssue e.core e.slot e.w.ctx false
          let word := fun i =>
            wordsOf (constantBytes (t.getD (if uni h.dest then lowLane e.act else i) (.ok []))) (widthNames f.width)
          finish e dests h.count word s2
    match e.w.fetchWait true e.pc with
    | some p =>
      let waiting := maskOf fun i => laneOn lanes i &&
        (let va := s.constantVa e.w (e.w.address f i)
         va / 4096 == p.va / 4096 || (va + accessBytes f - 1) / 4096 == p.va / 4096)
      if !p.served then s.stalled e.core e.slot .constant else if replayable p.code then go true else raise s p.code waiting
    | none => go false

/-! ### The instructions -/

/-- What LD asks of its issue in the constant space. -/
def constantNeeds (s : State) (h : Hdr) (f : MF) : Needs :=
  { fields := ldFields h f
    reads := rd f.addr 1
    dests := constituents h.dest (widthNames f.width), count := h.count
    entry := fun e => s.accessCheck f (some .ld) (s.constantPerm e f) e
    stalls := s.memStall f true false }

/-- LD (09 R189). -/
def execLd (h : Hdr) (f : MF) (s : State) : Host.Outcome State Fault Refusal :=
  if f.space = 3 then
    issue s h (.ld h f) (constantNeeds s h f) fun e s' => s.constantLoad s' e h f
  else access s h f (.ld h f) (ldFields h f) .ld 0 true

/-- ST (09 R190). -/
def execSt (h : Hdr) (f : MF) (s : State) : Host.Outcome State Fault Refusal :=
  access s h f (.st h f) (stFields h f) .st (widthNames f.width) false

/-- ATOM: counted as a load when it returns a value, as a store when it does not (09 R193). -/
def execAtom (h : Hdr) (f : MF) (s : State) : Host.Outcome State Fault Refusal :=
  access s h f (.atom h f) (atomFields h f) .atom (widthNames f.width) (!nul h.dest)

/-- CAS (09 R194). -/
def execCas (h : Hdr) (f : MF) (s : State) : Host.Outcome State Fault Refusal :=
  access s h f (.cas h f) (casFields h f) .cas (2 * widthNames f.width) (!nul h.dest)

/-- RED (09 R193). -/
def execRed (h : Hdr) (f : MF) (s : State) : Host.Outcome State Fault Refusal :=
  access s h f (.red h f) (redFields h f) .red (widthNames f.width) false

/-- AMAXP (09 R195). -/
def execAmaxp (h : Hdr) (f : MF) (s : State) : Host.Outcome State Fault Refusal :=
  access s h f (.amaxp h f) (amaxpFields h f) .amaxp 2 (!nul h.dest)

/-- CWB (09 R192). -/
def execCwb (h : Hdr) (f : MF) (s : State) : Host.Outcome State Fault Refusal :=
  access s h f (.cwb h f) (cwbFields h f) .cwb 0 false

/-- The block of a prefetch comes into L1, or with .nl1 into its home L2 alone. -/
def State.prefetched (s : State) (c x : Nat) (p : Phys) (hint : BitVec 2) : State :=
  if hint = 3 then s.l2Fill x p 1 hint else s.l1Fill c x p hint

/-- Whether a prefetch into L1 has to wait for an atomic of its core that is still to be performed at home on the line (14 R258). -/
def State.prefWaits (s : State) (c : Nat) (p : Phys) : Bool := s.homeMeets c (s.steps + 1) p

/-- A prefetch that must wait goes on alone, as a read that is served later; none waits where 64 reads wait at the home already. -/
def State.prefLater (s : State) (r : Reader) (part : Nat) (p : Phys) : State :=
  let slice := s.homeSlice part p
  if 64 ≤ (s.merges.filter fun m => m.slice == slice).length then s
  else { s with merges := s.merges ++ [{ slice := slice, line := lineKey p, reads := [r], formed := s.cycle }] }

/-- Asks for the block of one lane's address; a failing translation or a peer leaf drops the request. The line read may merge
(09 R187, R191; 14 R258, R263). -/
def State.prefetch (s : State) (c x : Nat) (f : MF) (a : Nat) : State :=
  if f.space = 4 then s
  else match s.translate (.core c) x a .read false false false with
    | (.error _, s1) => s1
    | (.ok t, s1) =>
      let r : Reader := .prefetch c x t.phys.host t.phys.addr f.hint
      if t.item.kind = .uncached ∨ s1.poisoned t.phys then s1
      else if f.hint ≠ 3 ∧ (s1.l1Find c x t.phys).isSome then s1.markLine (some c) x t.phys f.hint
      else match s1.mergeRead? r x t with
        | some s2 => s2
        | none =>
          if f.hint ≠ 3 ∧ s1.prefWaits c t.phys then s1.prefLater r t.part t.phys
          else s1.prefetched c x t.phys f.hint

/-- What PREF asks of its issue. -/
def needsPref (h : Hdr) (f : MF) (s : State) : Needs :=
  { fields := prefFields h f
    reads := rd f.addr (addrNames f)
    entry := s.accessCheck f none fun _ => false
    stalls := fun e => if e.act != 0 && e.w.accs.any (fun a => a.2.acquires) then some .ordering else none }

/-- PREF (09 R191). -/
def execPref (h : Hdr) (f : MF) (s : State) : Host.Outcome State Fault Refusal :=
  issue s h (.pref h f) (needsPref h f s)
    fun e s' =>
      let s1 := (lanesOf e.act).foldl (fun s i => s.prefetch e.core e.w.ctx f (e.w.address f i)) s'
      s1.modWarp e.core e.slot fun w => w.sweep.advance e.frag

/-- What holds FENCE back: with release semantics any outstanding access, with acquire semantics any outstanding load or
returning read (09 R196; 15 R274). -/
def State.fenceStall (s : State) (f : MF) (e : Env) : Option StallKind :=
  if e.act = 0 then none
  else if f.order.getLsbD 1 && s.releaseWaits e then some .ordering
  else if f.order.getLsbD 0 && e.w.accs.any fun a => a.2.op == .ld || a.2.op == .atom || a.2.op == .cas || a.2.op == .amaxp then
    some .ordering
  else if e.w.accs.any fun a => a.2.acquires then some .ordering
  else none

/-- What FENCE asks of its issue. -/
def needsFence (h : Hdr) (f : MF) (s : State) : Needs :=
  { fields := fenceFields h f, stalls := s.fenceStall f }

/-- FENCE: it retires once what it waits for is done; with acquire semantics at .cl or wider L1 is invalidated
(09 R196; 14 R259; 15 R274). -/
def execFence (h : Hdr) (f : MF) (s : State) : Host.Outcome State Fault Refusal :=
  issue s h (.fence h f) (needsFence h f s)
    fun e s' =>
      let s1 := s'.modWarp e.core e.slot fun w => w.advance e.frag
      if e.act != 0 && f.order.getLsbD 0 && decide (2 ≤ f.scope.toNat) then s1.invalidate e.core else s1

end Sys2Proof.Machine
end

