-- ==== Sys2Proof/Machine/MemoryEvents.lean ====
section
/-! DEFINITION. What becomes of outstanding accesses: write-back, performing, translation faults, replay, merges, and the
events of translation and fetch (07 R137; 09 R179 to R186; 14 R263; 20 R311, R318; 21 R333; 03 R374). -/
namespace Sys2Proof.Machine

/-! ### Order among a warp's accesses (15 R270, R272) -/

/-- The first byte and size that a lane of an access touches; CWB touches its block. -/
def accRange (a : Acc) (l : AccLane) : Nat × Nat :=
  if a.op = .cwb then (l.addr / 128 * 128, 128) else (l.addr, widthBytes a.f.width)

/-- Whether two ranges of a context's addresses on different pages of 4 KiB have a physical byte in common, as the core's
translations give them now. -/
def State.samePhys (s : State) (c x : Nat) (p q : Nat × Nat) : Bool :=
  p.1 / 4096 != q.1 / 4096 && overlaps (p.1 % 4096) (p.1 % 4096 + p.2) (q.1 % 4096) (q.1 % 4096 + q.2) &&
  (match (s.translate (.core c) x p.1 .read true true false).1, (s.translate (.core c) x q.1 .read true true false).1 with
    | .ok t, .ok u => t.phys.host == u.phys.host && t.item.kind != .peer && u.item.kind != .peer &&
        overlaps t.phys.addr (t.phys.addr + p.2) u.phys.addr (u.phys.addr + q.2)
    | _, _ => false)

/-- Whether a lane keeps program order after a lane of an earlier access of its warp: they touch a common global byte, or
go to one core's scratchpad (15 R270, R272). DESIGN CHOICE (log 94): bytes are the same by their addresses, or by the frames that
both addresses are translated to now. -/
def State.laneAfter (s : State) (c x : Nat) (a b : Acc) (l m : AccLane) : Bool :=
  if a.f.space = 0 ∧ b.f.space = 0 then
    let p := accRange a l
    let q := accRange b m
    overlaps p.1 (p.1 + p.2) q.1 (q.1 + q.2) || s.samePhys c x p q
  else
    let local_ := fun (x : Acc) => x.f.space == 1 || x.f.space == 2
    local_ a && local_ b && (spadTarget c a.f.space l.addr).1 == (spadTarget c b.f.space m.addr).1

/-- Whether a lane of access `n` must wait for an earlier access of the warp, one in its context's store-fault area too. -/
def State.laneBlocked (s : State) (c : Nat) (w : Warp) (n : Nat) (a : Acc) (l : AccLane) : Bool :=
  (w.accs.any fun b => decide (b.1 < n) && b.2.lanes.any fun m => m.stage != .done && s.laneAfter c w.ctx a b.2 l m) ||
  (s.ctx w.ctx).storeFaults.any fun e => e.2.entry.wid == w.wid && decide (e.2.entry.acc < n) &&
    e.2.acc.lanes.any fun m => laneOn e.2.entry.fmask m.lane && s.laneAfter c w.ctx a e.2.acc l m

/-- Whether a lane is still to be performed, and not logged. -/
def AccLane.open_ (l : AccLane) : Bool := l.stage != .logged && l.stage != .done

/-- Whether an access's lane is held behind the log entry of an older one: on a page that such an entry has lanes on, unless its
line read waits in a merge already (09 R185). -/
def State.laneHeld (s : State) (c slot : Nat) (w : Warp) (n : Nat) (l : AccLane) (t : Xlated) : Bool :=
  s.heldPage w n (pageOf l.addr) && !s.inMerge (.load c slot n) (lineKey t.phys)

/-- What keeps a lane that is to be translated from being performed: it must be logged, with its fault or behind an older
entry. -/
def State.mustLog (s : State) (c slot : Nat) (w : Warp) (n : Nat) (a : Acc) (l : AccLane) : Option (Option XFault) × State :=
  if a.f.space != 0 ∨ l.stage ≠ .todo then (none, s)
  else
    match s.laneFault (.core c) (some c) w.ctx a l with
    | (.error x, s1) => (some (some x), s1)
    | (.ok t, s1) => (if s.laneHeld c slot w n l t then some none else none, s1)

/-- The lanes that are performed in the turn of a lane: a load's lanes at the same bytes, which read one value; else the lane
itself, once no lower lane at its bytes is open (09 R179). -/
def Acc.turnOf (a : Acc) (lane : Nat) : List AccLane :=
  match a.lanes.find? fun l => l.lane == lane && l.open_ with
  | none => []
  | some l =>
    let same := a.lanes.filter fun m => m.open_ &&
      overlaps (accRange a l).1 ((accRange a l).1 + (accRange a l).2) (accRange a m).1 ((accRange a m).1 + (accRange a m).2)
    if a.op = .ld then same else if same.all fun m => decide (l.lane ≤ m.lane) then [l] else []

/-- Whether bytes meet a store that another access of the core's warps shows in its L1 and that is not yet performed. -/
def State.earlyMeets (s : State) (c slot n : Nat) (p : Phys) (len : Nat) : Bool :=
  (s.core c).warps.any fun w => w.2.accs.any fun b => !(w.1 == slot && b.1 == n) && b.2.lanes.any fun l =>
    match l.stage with
    | .early h at_ _ => h == p.host && overlaps p.addr (p.addr + len) at_ (at_ + widthBytes b.2.f.width)
    | _ => false

/-- Whether a translated lane may be performed beside its core's other accesses. A lane waits for a store at its bytes that
the own L1 shows and its home has not accepted, unless it is a load that this L1 serves (15 R270, R271); a fill waits for the
core's earlier atomics at home on its line (14 R258). -/
def State.laneMay (s : State) (c slot n x : Nat) (a : Acc) (t : Xlated) : Bool :=
  let own := narrow a.f && (s.l1Find c x t.phys).isSome
  let fills := narrow a.f && !own && ((a.op == .ld && a.f.hint != 3) || ((a.op == .atom || a.op == .cas) && t.item.kind == .localMem))
  ((own && a.op == .ld) || !s.earlyMeets c slot n t.phys (widthBytes a.f.width)) && !(fills && s.homeMeets c a.born t.phys)

/-- Whether an open lane may be performed now. -/
def State.laneReady (s : State) (c slot : Nat) (w : Warp) (n : Nat) (a : Acc) (l : AccLane) : Bool :=
  !s.laneBlocked c w n a l &&
  (if l.stage != .todo then true
   else if a.f.space = 0 then
    (match (s.laneFault (.core c) (some c) w.ctx a l).1 with
      | .ok t => !s.laneHeld c slot w n l t && s.laneMay c slot n w.ctx a t
      | .error _ => false)
   else !(a.f.space == 4 && s.lodeBusy l.addr (widthBytes a.f.width)))

/-- Performs one lane, or one half of it, at its point; none where its translation faults. What an expired translation has begun is
translated again (20 R312). -/
def State.performLane (s : State) (c x : Nat) (a : Acc) (l : AccLane) (high : Bool) : Option (AccLane × State) :=
  let again := fun (e : Option Nat) (t : Xlated) (k : Xlated → State → AccLane × State) =>
    if unexpired e (s.timeAt c) then some (k t s)
    else match s.laneFault (.core c) (some c) x a l with
      | (.error _, _) => none
      | (.ok u, s1) => some (k u s1)
  match l.stage with
  | .early host at_ e =>
    again e { halfPage x false at_ with phys := { host := host, addr := at_ } } fun t s => s.laneHome c x a l t.phys
  | .half h uncached at_ e => again e (halfPage x uncached at_) fun t s => s.laneHalf (.core c) (some c) x a l t !h
  | _ =>
    if a.f.space = 0 then
      match s.laneFault (.core c) (some c) x a l with
      | (.error _, _) => none
      | (.ok t, s1) => some (s1.laneStep (.core c) (some c) x a l t high)
    else some (s.laneLocal c x a l)

/-- Performs lanes of an access in ascending order; none when one of them faults. -/
def State.performLanes (c x : Nat) (a : Acc) (high : Bool) : List AccLane → State → Option (List AccLane × State)
  | [], s => some ([], s)
  | l :: ls, s =>
    match s.performLane c x a l high with
    | none => none
    | some (l1, s1) => (State.performLanes c x a high ls s1).map fun r => (l1 :: r.1, r.2)

/-- An access with some lanes replaced by what performing made of them. -/
def Acc.putLanes (a : Acc) (ls : List AccLane) : Acc :=
  { a with lanes := a.lanes.map fun l => (ls.find? fun m => m.lane == l.lane).getD l }

/-- Writes the lanes of a returning access that are performed into its pending destination; its counts wait for the
rest (09 R184). -/
def Warp.putPartial (w : Warp) (a : Acc) (lanes : Mask) : Warp :=
  if a.dest.count = 0 then w
  else (constituents a.dest.name (widthNames a.f.width)).zipIdx.foldl (fun w p =>
    if isV p.1 && w.names.has p.1 then w.modName p.1 fun c => c.setData (lanes &&& w.live) fun i => (a.valueIn i).getD p.2 0
    else w) w

/-- The mask of some lanes. -/
def laneMask (ls : List AccLane) : Mask := ls.foldl (fun m l => m ||| laneBit l.lane) 0

/-- Records performed lanes in their access, and ends it when all are done. -/
def State.keepLanes (s : State) (c slot n : Nat) (ls : List AccLane) : State :=
  let s1 := s.modWarp c slot fun w =>
    let w1 := w.modAcc n fun a => a.putLanes ls
    match w1.accs.get? n with
    | some a => if a.isLoad && !a.done then w1.putPartial a (laneMask ls) else w1
    | none => w1
  s1.settleAcc c slot n

/-! ### Replay (09 R184) -/

/-- The pages of an entry that may be replayed: served, or only waited behind, with no older entry on the page. -/
def Warp.replayPages (w : Warp) (e : LogEntry) : List Nat :=
  (List.range e.pages.length).filter fun j =>
    e.lanesOn j != 0 && (e.served.getLsbD j || e.codes.getD j 0 == 0) && !w.heldPage e.acc (e.pages.getD j 0)

/-- Replays one lane from its operand block (09 R184): performed once, or its page faults again. A line read goes to its merge
first, and with the `line` of a merge that is formed only what lies there is performed (14 R263). -/
def State.replayLane (s : State) (c slot n j : Nat) (line : Option Nat) (l : AccLane) : State :=
  match s.warp? c slot with
  | none => s
  | some w =>
    match w.log.get? n with
    | none => s
    | some e =>
      match w.accs.get? e.acc with
      | none => s
      | some a =>
        if !laneOn (e.lanesOn j) l.lane ∨ !(w.replayPages e).contains j then s
        else match s.readBlock (.core c) w.ctx (s.blockAt w.ctx c slot n) l with
          | (.error (_, at_), s1) => s1.saveFaultKill w.ctx c at_ 0
          | (.ok l1, s1) =>
            match s1.laneFault (.core c) (some c) w.ctx a l1 with
            | (.error x, s2) => s2.refault c slot n j l1.addr x false
            | (.ok t, s2) =>
              let keep := fun (r : AccLane × State) =>
                (r.2.modWarp c slot fun w => w.modLog n fun e => { e with fmask := e.fmask &&& ~~~laneBit l.lane }).keepLanes
                  c slot e.acc [r.1]
              if s2.laneBlocked c w e.acc a l1 || !s2.laneMay c slot e.acc w.ctx a t then s2
              else match line with
                | some key => if a.op = .ld ∧ lineKey t.phys = key then keep (s2.mergedLane c w.ctx a l1 t) else s2
                | none =>
                  match s2.loadMerge c slot e.acc w.ctx a t with
                  | some s3 => s3
                  | none => keep (s2.laneWhole (.core c) (some c) w.ctx a l1 t)

/-- Replays the lanes of an entry's served pages, in lane order, while the warp is resident. -/
def State.replayEntry (s : State) (c slot entry : Nat) (line : Option Nat) : State :=
  match s.warp? c slot with
  | none => s
  | some w =>
    if w.evicted ∨ w.live = 0 then s
    else match w.log.get? entry with
      | none => s
      | some e =>
        match w.accs.get? e.acc with
        | none => s
        | some a =>
          let work := (w.replayPages e).flatMap fun j =>
            (a.lanes.filter fun l => laneOn (e.lanesOn j) l.lane).map fun l => (j, l)
          work.foldl (fun s p => s.replayLane c slot entry p.1 line p.2) s

/-! ### Merges (14 R262, R263) -/

/-- Sends the read of a load's lanes at one place to a merge; none where it is performed now. -/
def State.toMerge (s : State) (c slot n x : Nat) (a : Acc) : List AccLane → Option State
  | [] => none
  | l :: _ =>
    if l.stage != .todo then none
    else match s.laneFault (.core c) (some c) x a l with
      | (.error _, _) => none
      | (.ok t, s1) => s1.loadMerge c slot n x a t

/-- Performs, at a merge's formation, the lanes of one load that lie on its line, replayed ones too. -/
def State.mergeLoad (s : State) (line c slot n : Nat) : State :=
  match s.warp? c slot with
  | none => s
  | some w =>
    match w.accs.get? n with
    | none => s
    | some a =>
      let go := (a.lanes.filter fun l => l.stage == .todo && s.laneReady c slot w n a l).foldl
        (fun (r : List AccLane × State) l =>
          match r.2.laneFault (.core c) (some c) w.ctx a l with
          | (.error _, _) => r
          | (.ok t, s1) =>
            if lineKey t.phys = line then
              let r1 := s1.mergedLane c w.ctx a l t
              (r.1 ++ [r1.1], r1.2)
            else r) ([], s)
      a.entries.foldl (fun s i => s.replayEntry c slot i (some line)) (go.2.keepLanes c slot n go.1)

/-- The bytes of a line at its home L2, by its key. -/
def State.lineBytes (s : State) (key : Nat) : List Byte :=
  s.physRead (if 2 ^ 60 ≤ key then { host := true, addr := 128 * (key - 2 ^ 60) } else { host := false, addr := 128 * key }) 128

/-- Words read, with those of a line added. -/
def putLine (got : Tab Word) (key : Nat) (bs : List Byte) : Tab Word :=
  (List.range 32).foldl (fun t i => t.put (32 * key + i) (BitVec.ofNat 32 (fieldAt bs (4 * i) 4))) got

/-- What the formation of a merge gives one of its reads: a load's lanes are performed, a prefetch fills, and an engine or class
X operation has the line. -/
def State.mergeGive (s : State) (key : Nat) (r : Reader) : State :=
  match r with
  | .load c slot n => s.mergeLoad key c slot n
  | .prefetch c x host addr hint =>
    if s.poisoned { host := host, addr := addr } then s else s.prefetched c x { host := host, addr := addr } hint
  | .engine _ op =>
    { s with engs := s.engs.map fun (o : Nat × EngOp) =>
        if o.1 = op then (o.1, { o.2 with got := putLine o.2.got key (s.lineBytes key) }) else o }
  | .array c op =>
    s.modCore c fun k => { k with xq := k.xq.map fun (o : Nat × XOp) =>
        if o.1 = op then (o.1, { o.2 with got := putLine o.2.got key (s.lineBytes key) }) else o }

/-- Whether a read of a merge still has to wait: a prefetch into an L1 whose core has yet to perform an atomic at home on the line
(14 R258). -/
def State.readWaits (s : State) (r : Reader) : Bool :=
  match r with
  | .prefetch c _ host addr hint => hint != 3 && s.prefWaits c { host := host, addr := addr }
  | _ => false

/-- MERGE_FORMED: the line is read once and every member receives the value (14 R263). A prefetch that must wait is served alone,
later. -/
def execMergeFormed (merge : Nat) (s : State) : Host.Outcome State Fault Refusal :=
  match s.merges[merge]? with
  | none => .next s
  | some m =>
    if s.cycle < m.formed then .next s
    else
      let later := m.reads.filter s.readWaits
      let s1 := { s with merges := if later.isEmpty then s.merges.eraseIdx merge else s.merges.set merge { m with reads := later } }
      .next ((m.reads.filter fun r => !s.readWaits r).foldl (fun s r => s.mergeGive m.line r) s1)

/-! ### Write-back and performing -/

/-- LOAD_WRITEBACK: a returning access reads a lane and writes it back (07 R137; 09 R180), or one half of it (09 R174). A line
read with an open merge window goes to its merge first (14 R263). -/
def execLoadWriteback (core slot : Nat) (part : LanePart) (s : State) : Host.Outcome State Fault Refusal :=
  match s.warp? core slot with
  | none => .next s
  | some w =>
    match w.accs.get? part.acc with
    | none => .next s
    | some a =>
      let turn := a.turnOf part.lane
      if !a.isLoad || turn.isEmpty || !turn.all (s.laneReady core slot w part.acc a) then .next s
      else match s.toMerge core slot part.acc w.ctx a turn with
        | some s1 => .next s1
        | none =>
          match State.performLanes core w.ctx a part.high turn s with
          | none => .next s
          | some (ls, s1) => .next (s1.keepLanes core slot part.acc ls)

/-- Shows a store lane in the own L1 before its home accepts it (15 R271). Only a store that its home accepts whole is shown, and
none on a line that a load of the core awaits from a merge. -/
def State.showEarly (s : State) (c slot n x : Nat) (a : Acc) (l : AccLane) : State :=
  match s.laneFault (.core c) (some c) x a l with
  | (.error _, s1) => s1
  | (.ok t, s1) =>
    if t.item.kind = .uncached ∨ (a.f.width = 4 ∧ t.phys.host) ∨ s1.loadInMerge c (lineKey t.phys) then s1
    else
      let s2 := if a.f.hint = 3 then s1.l1Drop c x t.phys
        else s1.l1Update c x t.phys (storedBytes a l)
      s2.modWarp c slot fun w =>
        w.modAcc n fun a => a.setStage (laneBit l.lane) (.early t.phys.host t.phys.addr t.item.expiry)

/-- STORE_PERFORMED: a lane of a store, reduction or write-back is performed, or half of it; with its last lane the access
leaves the stores counter (07 R137; 09 R174, R178). With `home` false, a store is only shown in its own core's L1. -/
def execStorePerformed (core slot : Nat) (part : LanePart) (home : Bool) (s : State) : Host.Outcome State Fault Refusal :=
  match s.warp? core slot with
  | none => .next s
  | some w =>
    match w.accs.get? part.acc with
    | none => .next s
    | some a =>
      let turn := a.turnOf part.lane
      if a.isLoad || turn.isEmpty || !turn.all (s.laneReady core slot w part.acc a) then .next s
      else if home then
        match State.performLanes core w.ctx a part.high turn s with
        | none => .next s
        | some (ls, s1) => .next ((s1.keepLanes core slot part.acc ls).coreDrops core)
      else match turn with
        | l :: _ =>
          if a.op = .st ∧ a.f.space = 0 ∧ l.stage = .todo then .next (s.showEarly core slot part.acc w.ctx a l) else .next s
        | [] => .next s

/-! ### Translation faults and replay -/

/-- The first lane of an access that must be logged. -/
def State.firstLog (s : State) (c slot : Nat) (w : Warp) (n : Nat) (a : Acc) : Option AccLane :=
  a.lanes.find? fun l => (s.mustLog c slot w n a l).1.isSome

/-- ACCESS_TRANSLATION_FAULT: the lanes on the page of the first lane that cannot be performed are logged, posted or
halted by code; a load lane that has exited is dropped (09 R181 to R186). -/
def execAccessTranslationFault (core slot acc lane : Nat) (s : State) : Host.Outcome State Fault Refusal :=
  match s.warp? core slot with
  | none => .next s
  | some w =>
    match w.accs.get? acc with
    | none => .next s
    | some a =>
      match s.firstLog core slot w acc a with
      | none => .next s
      | some l =>
        if l.lane ≠ lane then .next s
        else
          let (f, s1) := s.mustLog core slot w acc a l
          let code := fun (f : Option (Option XFault)) => match f with
            | some (some x) => some x.code
            | some none => some 0
            | none => none
          let same := a.lanes.filter fun m =>
            m.stage == .todo && pageOf m.addr == pageOf l.addr && code (s1.mustLog core slot w acc a m).1 == code f
          if a.op = .ld ∧ !laneOn w.live lane then
            .next ((s1.modWarp core slot fun w => w.modAcc acc fun a =>
              a.setStage (laneMask same &&& ~~~w.live) .done).settleAcc core slot acc)
          else
            match s1.logLanes core slot acc a same (match f with
              | some (some x) => some x
              | _ => none) with
            | none => .next s
            | some s2 => .next ((s2.settleAcc core slot acc).moveEntries core slot)

/-- OPERAND_LOG_REPLAY: the lanes of an entry's served pages are performed from the operand block, while the warp is resident (09
R184). DESIGN CHOICE (log 76): all of them in this one step, in lane order. -/
def execOperandLogReplay (core slot entry : Nat) (s : State) : Host.Outcome State Fault Refusal :=
  .next (s.replayEntry core slot entry none)

/-! ### Store faults (21 R333) -/

/-- A page of a store-fault entry faults when it is walked or replayed. -/
def State.refaultStore (s : State) (x i j : Nat) (e : StoreFault) (addr : Nat) (f : XFault) (quiet : Bool) : State :=
  let unserved := e.entry.served &&& ~~~(BitVec.ofNat 4 (2 ^ j))
  if replayable f.code then
    if quiet ∧ f.code = cPageS1 ∧ e.entry.codes.getD j 0 = cPageS1 then
      s.modStoreFault x i fun e => { e with entry := { e.entry with served := unserved } }
    else
      let (rid, s1) := s.reportPage (.cp (x / 4096)) x addr e.acc.op.access f
        { s.storeRecord x e (e.entry.lanesOn j) f.code addr with kind := 3 }
      s1.modStoreFault x i fun e =>
        { e with entry := { e.entry with
            served := unserved, codes := setAt e.entry.codes j f.code, rids := setAt e.entry.rids j rid } }
  else s.dropStore x i j e addr f.code

/-- Walks a page of a store-fault entry again. -/
def State.rewalkStore (s : State) (x i j : Nat) : State :=
  match (s.ctx x).storeFaults.get? i with
  | none => s
  | some e =>
    match e.acc.lanes.find? fun l => laneOn (e.entry.lanesOn j) l.lane with
    | none => s
    | some l =>
      match s.translate (.cp (x / 4096)) x l.addr e.acc.op.access false false true with
      | (.ok _, s1) =>
        s1.modStoreFault x i fun e =>
          { e with entry := { e.entry with served := e.entry.served ||| BitVec.ofNat 4 (2 ^ j) } }
      | (.error f, s1) => s1.refaultStore x i j e l.addr f true

/-- Whether an older entry of the same warp still has lanes on a page, in the area or in the warp's own log. -/
def State.olderStore (s : State) (x : Nat) (e : StoreFault) (p : BitVec 36) : Bool :=
  ((s.ctx x).storeFaults.any fun o =>
    o.2.entry.wid == e.entry.wid && decide (o.2.entry.acc < e.entry.acc) && o.2.entry.holds p) ||
  (s.core e.core).warps.any fun w => w.2.wid == e.entry.wid && w.2.heldPage e.entry.acc p

/-- Replays one lane of a store-fault entry; its result is discarded. -/
def State.replayStore (s : State) (x i j : Nat) (l : AccLane) : State :=
  match (s.ctx x).storeFaults.get? i with
  | none => s
  | some e =>
    if !laneOn (e.entry.lanesOn j) l.lane then s
    else match s.readBlock (.cp (x / 4096)) x (s.storeFaultAt x i + 64) l with
      | (.error (_, at_), s1) => s1.saveFaultKill x e.core at_ 3
      | (.ok l1, s1) =>
        match s1.laneFault (.cp (x / 4096)) none x e.acc l1 with
        | (.error f, s2) => s2.refaultStore x i j e l1.addr f false
        | (.ok t, s2) =>
          (s2.laneWhole (.cp (x / 4096)) none x e.acc l1 t).2.modStoreFault x i fun e =>
            { e with entry := { e.entry with fmask := e.entry.fmask &&& ~~~laneBit l.lane } }

/-- The drops that warps of a context owe since their exit. -/
def State.ctxDrops (s : State) (x : Nat) : State :=
  s.cores.foldl (fun s k => (k.2.warps.filter fun w => w.2.ctx == x && w.2.live == 0).foldl
    (fun s w => s.exitDrops k.1 w.1) s) s

/-- Frees the store-fault entries of a context that hold no lane, moves entries that waited for one, and makes the
drops that waited for the lanes. -/
def State.settleStores (s : State) (x : Nat) : State :=
  let done := (s.ctx x).storeFaults.filter fun e => e.2.entry.fmask == 0
  let s1 := done.foldl (fun s e => s.storeHeader x e.1 { e.2 with entry := { e.2.entry with valid := false } }) s
  ((s1.modCtx x fun c => { c with storeFaults := c.storeFaults.filter fun e => e.2.entry.fmask != 0 }).moveWaiting x).ctxDrops x

/-- Drops the lanes whose record has been posted (21 R331). -/
def State.dropPosted (s : State) (d : DropOf) : State :=
  match d with
  | .log c slot wid n j => s.dropLogged c slot wid n j
  | .store x i j =>
    (s.modStoreFault x i fun e => { e with entry := { e.entry with fmask := e.entry.fmask &&& ~~~e.entry.lanesOn j } }).settleStores x

/-- STORE_FAULT_REPLAY: the command processor performs the lanes of an entry's served pages (21 R333). -/
def execStoreFaultReplay (ctx entry : Nat) (s : State) : Host.Outcome State Fault Refusal :=
  match (s.ctx ctx).storeFaults.get? entry with
  | none => .next s
  | some e =>
    let pages := (List.range e.entry.pages.length).filter fun j =>
      (e.entry.served.getLsbD j || e.entry.codes.getD j 0 == 0) && !s.olderStore ctx e (e.entry.pages.getD j 0)
    let work := pages.flatMap fun j => (e.acc.lanes.filter fun l => laneOn (e.entry.lanesOn j) l.lane).map fun l => (j, l)
    .next ((work.foldl (fun s p => s.replayStore ctx entry p.1 p.2) s).settleStores ctx)

/-! ### Leases of what is under way (20 R312) -/

/-- Performs one lane that a store or a half of an access has begun. -/
def State.finishLane (s : State) (c slot n lane : Nat) : State :=
  match s.warp? c slot with
  | none => s
  | some w =>
    match w.accs.get? n with
    | none => s
    | some a =>
      match a.lanes.find? fun l => l.lane == lane with
      | none => s
      | some l =>
        match s.performLane c w.ctx a l false with
        | none => s
        | some (l1, s1) => (s1.keepLanes c slot n [l1]).coreDrops c

/-- The lanes begun under translations that are due to end, by core, slot, access and lane: `due` names them by core, context and
expiry. -/
def State.begunLanes (s : State) (due : Nat → Nat → Option Nat → Bool) : List (Nat × Nat × Nat × Nat) :=
  s.cores.flatMap fun k => k.2.warps.flatMap fun w => w.2.accs.flatMap fun a => (a.2.lanes.filter fun l => match l.stage with
    | .early _ _ e => due k.1 w.2.ctx e
    | .half _ _ _ e => due k.1 w.2.ctx e
    | _ => false).map fun l => (k.1, w.1, a.1, l.lane)

/-- Performs every lane begun under a translation that is due to end, before it ends: a lane is never performed on a frame
after that (20 R312, R315). -/
def State.finishLanes (s : State) (due : Nat → Nat → Option Nat → Bool) : State :=
  (s.begunLanes due).foldl (fun s l => s.finishLane l.1 l.2.1 l.2.2.1 l.2.2.2) s

/-- The flush of a context finishes once what its translations have begun is performed (20 R314, R315). -/
def State.flush (s : State) (x : Nat) : State := (s.finishLanes fun _ y _ => y == x).flushCtx x

/-! ### Translation and fetch -/

/-- TRANSLATION_WALK: a unit that has no live item for an address walks, and its items are cached, or the walk ends in a fault
that no access yet meets (20 R311, R313, R318). -/
def execTranslationWalk (unit : TUnit) (ctx va : Nat) (s : State) : Host.Outcome State Fault Refusal :=
  .next (s.translate unit ctx va .read true true false).2

/-- TRANSLATION_EXPIRY: an item disappears once its unit's time reaches its expiry (20 R311). -/
def execTranslationExpiry (item : Nat) (s : State) : Host.Outcome State Fault Refusal :=
  match s.tlb[item]? with
  | none => .next s
  | some t =>
    if unexpired t.expiry (s.unitTime t.unit) then .next s
    else .next { s with tlb := s.tlb.eraseIdx item, walks := s.walks.filter fun w => unexpired w.expiry (s.unitTime w.unit) }

/-- INSTRUCTION_FETCH: the line that a warp issues from next is fetched and checked (03 R67, R68, R374). -/
def execInstructionFetch (core slot : Nat) (s : State) : Host.Outcome State Fault Refusal :=
  match s.warp? core slot with
  | none => .next s
  | some w =>
    if w.evicted then .next s
    else match w.fragment with
      | none => .next s
      | some (pc, frag) =>
        match s.fetch core slot w pc frag with
        | .error s1 => .next s1
        | .ok (_, _, s1) => .next s1

end Sys2Proof.Machine
end

