-- ==== Sys2Proof/Machine/Bedrock.lean ====
section
/-! DEFINITION. The active and pending sets, the bedrock rule, eviction to scree and refill (01 R19 to R21; 02 R48 to
R56). -/
namespace Sys2Proof.Machine

/-! ### Active and pending sets -/

/-- Whether a stall of a warp counts for a swap: a name that a memory, strata or engine instruction writes, a slot allocation, a
WAIT, the array, a held instruction, or a fetch or constant fill that waits for its page (01 R20; 03 R65, R374; 10 R201). -/
def State.stallSwaps (s : State) (c slot : Nat) (w : Warp) (k : StallKind) : Bool :=
  match k with
  | .scoreboard n => namesHold (s.asyncDests c slot w) n
  | .allocation _ => true
  | .classCounters _ _ _ _ => true
  | .array => true
  | .held => true
  | .fetch => true
  | .constant => true
  | _ => false

/-- Whether a stall of a warp counts for R48's 4,096 cycles. -/
def State.stallBlocks (s : State) (c slot : Nat) (w : Warp) (k : StallKind) : Bool :=
  match k with
  | .scoreboard n => namesHold (s.asyncDests c slot w) n
  | .operandLog => true
  | .classCounters _ _ _ _ => true
  | .array => true
  | .held => true
  | .fetch => true
  | .constant => true
  | _ => false

/-- Whether a wait is one that 01 R20 swaps for: at a barrier, or asleep. -/
def Wait.swaps (t : Wait) : Bool :=
  match t.kind with
  | .barrier _ _ _ _ => true
  | .sleep _ _ => true
  | _ => false

/-- Whether an active warp has been blocked for 32 cycles so that it is swapped out: by a stall, or by barrier waits or SLEEP
where none of its lanes has been issuable for so long (01 R20). -/
def State.swappable (s : State) (c slot : Nat) (w : Warp) : Bool :=
  if w.issuable = 0 then
    w.waits.any Wait.swaps && decide (w.ran + 32 ≤ s.cycle) && w.waits.all fun t => decide (t.since + 32 ≤ s.cycle)
  else match w.stall with
    | some t => s.stallSwaps c slot w t.kind && decide (t.since + 32 ≤ s.cycle)
    | none => false

/-- The pending ready warp that has waited longest. -/
def State.nextPending (s : State) (c : Nat) : Option Nat := (s.core c).pending.find? (s.ready c)

/-- Whether a pending warp has waited for 4,096 cycles, within which it enters the active set. -/
def State.overdue (s : State) (c slot : Nat) : Bool :=
  match s.warp? c slot with
  | some w => decide (w.queued + 4096 ≤ s.cycle)
  | none => false

/-- WARP_SWAP_OUT (01 R20). DESIGN CHOICE (log 80): a ready warp that has been pending for 4,096 cycles takes the place of any
warp of the active set, since it enters within that time whatever the others are blocked by. -/
def execWarpSwapOut (core out into : Nat) (s : State) : Host.Outcome State Fault Refusal :=
  let k := s.core core
  match k.warps.get? out with
  | none => .next s
  | some w =>
    if k.active.contains out && (s.swappable core out w || s.overdue core into) && s.nextPending core == some into then
      .next ((s.setCore core { k with active := (k.active.filter (· != out)) ++ [into]
                                      pending := (k.pending.filter (· != into)) ++ [out] }).modWarp core out fun w =>
        { w with queued := s.cycle })
    else .next s

/-- SYNC_BLOCK_TIMEOUT: a stall of 4,096 cycles makes the warp blocked on synchronisation (02 R48). -/
def execSyncBlockTimeout (core slot : Nat) (s : State) : Host.Outcome State Fault Refusal :=
  match s.warp? core slot with
  | none => .next s
  | some w =>
    match w.stall with
    | some t => if s.stallBlocks core slot w t.kind && decide (t.since + 4096 ≤ s.cycle) then .next (s.setWarp core slot { w with timeout := true })
        else .next s
    | none => .next s

/-! ### Reserves and victims (02 R51) -/

/-- The sum of the reserves exceeds the free slots. -/
def State.poolShort (s : State) (c : Nat) : Bool := decide ((s.core c).freeSlots < s.reserves c)

/-- Whether the reserve of a context is met. A context without a bedrock warp has no reserve (02 R49), so nothing is evicted
for it. -/
def State.reserveMet (s : State) (c x : Nat) : Bool :=
  ((s.core c).bedrock x).isNone || !s.poolShort c && decide ((s.core c).used x + s.reserve c x ≤ (s.core c).quota x)

/-- Whether a held class X instruction of a warp runs. -/
def Core.holdsX (k : Core) (slot : Nat) : Bool :=
  k.xq.any fun o => o.2.slot == slot && (match o.2.instr with
    | .mmt _ _ => true
    | .mmtx _ _ => true
    | .mmtg _ _ => true
    | _ => false)

/-- Whether a warp may be chosen at all: it holds slots, it is neither bedrock, in a trap nor evicted, and it stands at an
instruction boundary. -/
def State.mayEvict (s : State) (c slot : Nat) (w : Warp) : Bool :=
  !w.evicted && w.resident != 0 && w.suspended == 0 && !w.halted && !(s.core c).holdsX slot &&
  (match (s.core c).bedrock w.ctx with
    | some (b, _) => b != slot
    | none => true)

/-- Whether a warp is stalled on allocation. -/
def Warp.stalledAlloc (w : Warp) : Bool :=
  match w.stall with
  | some { kind := .allocation _, since := _ } => true
  | _ => false

/-- The youngest of some warps. DESIGN CHOICE (log 81): warps of several contexts are compared by their sequences too, though
each context numbers its own. -/
def youngest (ws : List (Nat × Warp)) : Option Nat :=
  (ws.foldl (fun best p =>
    match best with
    | none => some p
    | some q => if olderSeq q.2.seq p.2.seq then some p else some q) none).map (·.1)

/-- The first of some choices. -/
def firstOf : List (Option Nat) → Option Nat
  | [] => none
  | some x :: _ => some x
  | none :: xs => firstOf xs

/-- Whether F alone is short of what a context's reserve needs: its own quota would hold the reserve (02 R51). -/
def State.poolAlone (s : State) (c x : Nat) : Bool :=
  s.poolShort c && decide ((s.core c).used x + s.reserve c x ≤ (s.core c).quota x)

/-- The warp that the core evicts next for a context whose reserve is not met (02 R51). -/
def State.victim (s : State) (c x : Nat) : Option Nat :=
  if s.reserveMet c x then none
  else
    let ws := (s.core c).warps.filter fun p => s.mayEvict c p.1 p.2
    let mine := ws.filter fun p => p.2.ctx == x
    let others := ws.filter fun p => p.2.ctx != x
    let onAlloc := fun (ps : List (Nat × Warp)) => youngest (ps.filter fun p => p.2.stalledAlloc)
    let onSync := fun (ps : List (Nat × Warp)) => youngest (ps.filter fun p => p.2.syncBlocked)
    firstOf ([onAlloc mine, onSync mine] ++ (if s.poolAlone c x then [onAlloc others, onSync others] else []))

/-! ### Eviction and refill (02 R52 to R54) -/

/-- Whether no access of a warp is still in translation or on its way. -/
def Warp.settled (w : Warp) : Bool := w.accs.all fun a => a.2.lanes.all fun l => !l.open_

/-- Evicts a warp: its names, counts, pending marks and log image go to its scree record, and its slots return to the
pool. A warp with accesses on their way, or with a held class X instruction that is yet to stop, issues no more until they are
done (02 R52; 10 R212). -/
def State.evict (s : State) (c slot : Nat) : State :=
  match s.warp? c slot with
  | none => s
  | some w =>
    if w.evicted ∨ w.live = 0 then s
    else if !w.settled || (s.core c).holdsX slot then s.setWarp c slot { w with leaving := true }
    else match s.vaWrite (.core c) w.ctx (s.recordAt w.ctx c slot) w.recordBytes true false with
      | (some (_, a), s1) => s1.saveFaultKill w.ctx c a 0
      | (none, s1) =>
        let s2 := (s1.tally (s1.partOfCore c) 32 1).setWarp c slot { w with evicted := true, leaving := false, screeNames := w.names.length, names := [] }
        (s2.modCore c fun k => k.unschedule slot).fillActive c

/-- Whether a wait counts as a yield point: any but that of a held instruction for a page (21 R336). -/
def Wait.yields (t : Wait) : Bool :=
  match t.kind with
  | .page _ => false
  | _ => true

/-- Whether every live fragment of a warp is stopped at YIELD, asleep, waiting, or suspended (21 R336). -/
def Warp.atYieldPoint (w : Warp) : Bool := w.live != 0 && (w.halted || (w.issuable == 0 && w.waits.all Wait.yields))

/-- Whether pre-emption calls for the eviction of a warp now (21 R336). -/
def State.preemptEvicts (s : State) (c slot : Nat) (w : Warp) : Bool :=
  !w.evicted && w.live != 0 && !(s.core c).holdsX slot &&
  (((s.ctx w.ctx).pre == 1 && w.atYieldPoint) || (s.ctx w.ctx).pre == 2)

/-- WARP_EVICTION: of the next victim of a context whose reserve is not met, of a warp already chosen, or of one that
pre-emption takes (02 R51, R52; 21 R336). -/
def execWarpEviction (core slot : Nat) (s : State) : Host.Outcome State Fault Refusal :=
  match s.warp? core slot with
  | none => .next s
  | some w =>
    if w.leaving || s.preemptEvicts core slot w ||
        ((s.core core).contexts.any fun x => s.victim core x == some slot) then
      .next (s.evict core slot)
    else .next s

/-- Whether an evicted warp of a context may be refilled as far as pre-emption goes. -/
def State.refillable (s : State) (w : Warp) : Bool :=
  w.evicted && ((s.ctx w.ctx).pre == 0 || ((s.ctx w.ctx).pre == 1 && !w.atYieldPoint))

/-- The evicted warp of a context that is refilled next: the oldest, before any younger one (02 R53). -/
def State.nextRefill (s : State) (c x : Nat) : Option Nat :=
  (((s.core c).warps.filter fun p => p.2.ctx == x && p.2.evicted).foldl (fun best p =>
    match best with
    | none => some p
    | some q => if olderSeq p.2.seq q.2.seq then some p else some q) none).map (·.1)

/-- WARP_REFILL: names, counts and pending marks come back from the scree record, and the warp enters the pending set
(02 R53, 01 R21). -/
def execWarpRefill (core slot : Nat) (s : State) : Host.Outcome State Fault Refusal :=
  match s.warp? core slot with
  | none => .next s
  | some w =>
    if s.nextRefill core w.ctx == some slot && s.refillable w && s.canAllocate core slot w w.screeNames then
      match s.vaRead (.core core) w.ctx (s.recordAt w.ctx core slot) (1088 + 144 * w.screeNames) true false with
      | (.error (_, a), s1) => .next (s1.saveFaultKill w.ctx core a 0)
      | (.ok bs, s1) =>
        let s2 := (s1.tally (s1.partOfCore core) 40 1).setWarp core slot
          { w with evicted := false, names := namesOfRecord bs w.screeNames, screeNames := 0, queued := s.cycle }
        .next ((s2.modCore core fun k => { k with pending := k.pending ++ [slot] }).fillActive core)
    else .next s

/-- SLOT_ALLOCATION: an instruction stalled on allocation issues again and is granted its slots if the rule allows
(02 R50). The issue is the next turn. -/
def execSlotAllocation (core slot : Nat) (s : State) : Host.Outcome State Fault Refusal :=
  match s.warp? core slot with
  | none => .next s
  | some w =>
    if w.stalledAlloc && !w.leaving && (s.core core).active.contains slot then
      .next { s with turns := .issue core slot :: s.turns }
    else .next s

/-! ### The quota of WRSR (11 R241) and partial pre-emption (02 R55) -/

/-- Evicts the youngest warps of a context that are not in a trap until `enough` holds. -/
def State.evictYoungest (enough : State → Bool) (c x : Nat) : Nat → State → State
  | 0, s => s
  | n + 1, s =>
    if enough s then s
    else
      let ws := (s.core c).warps.filter fun p => p.2.ctx == x && !p.2.evicted && !p.2.leaving && p.2.suspended == 0 &&
        !p.2.halted && p.2.live != 0 && p.2.resident != 0
      match youngest ws with
      | none => s
      | some slot => State.evictYoungest enough c x n (s.evict c slot)

end Sys2Proof.Machine
end

