-- ==== Sys2Proof/Machine/Agent.lean ====
section
/-! DEFINITION. Memory accesses of units that are not threads, context descriptors, and the peer fabric (10 R199, R202;
11 R222, R225, R229; 21 R328; 23 R352 to R355). -/
namespace Sys2Proof.Machine

/-! ### Status words -/

/-- A status word (11 R222). -/
def statusWord (units : Nat) (code : BitVec 8) (state : Nat) : Word :=
  BitVec.ofNat 32 (units * 4096 + code.toNat * 16 + state)

/-! ### Accesses of a unit in a context -/

/-- The fault of an address range that leaves the 48 bits. -/
def permFault : XFault := { code := cPerm, gpa := 0, table := false }

/-- Translates the pieces of an access, all of them before any is performed. DESIGN CHOICE (log 99): an address that reaches 2^48 is
refused as PERM, also of a row of A. -/
def State.xlatAll (u : TUnit) (x : Nat) (k : AccKind) (peer fresh : Bool) :
    List (Nat × Nat) → State → Except (XFault × Nat) (List (Xlated × Nat)) × State
  | [], s => (.ok [], s)
  | (va, n) :: rest, s =>
    if 2 ^ 48 ≤ va then (.error (permFault, va), s)
    else match s.translate u x va k false peer fresh with
      | (.error e, s1) => (.error (e, va), s1)
      | (.ok t, s1) =>
        match State.xlatAll u x k peer fresh rest s1 with
        | (.error e, s2) => (.error e, s2)
        | (.ok ts, s2) => (.ok ((t, n) :: ts), s2)

/-- Whether a piece meets poison (24 R368). -/
def State.badPiece (s : State) (t : Xlated) (n : Nat) : Bool :=
  (linesFrom t.phys.addr n).any fun l => s.poisoned { t.phys with addr := 128 * l }

/-- Reads translated pieces in order. -/
def State.readPieces : List (Xlated × Nat) → State → List Byte × State
  | [], s => ([], s)
  | (t, n) :: ts, s =>
    let r := State.readPieces ts (s.pageFill t n)
    (s.pageRead t n ++ r.1, r.2)

/-- Writes translated pieces in order. -/
def State.writePieces : List (Xlated × Nat) → List Byte → State → State
  | [], _, s => s
  | (t, n) :: ts, bs, s => State.writePieces ts (bs.drop n) (s.pageWrite t (bs.take n))

/-! ### Source reads of operations (10 R202; 11 R225; 14 R263) -/

/-- The key of a physical word among the words that an operation has read. -/
def wordKey (p : Phys) : Nat := 32 * lineKey p + p.addr % 128 / 4

/-- Some bytes from address `base` up, with the words that are read already in their place, by the key of each address. -/
def overlayBy (key : Nat → Nat) (got : Tab Word) (base : Nat) (bs : List Byte) : List Byte :=
  if got.isEmpty then bs
  else bs.zipIdx.map fun b =>
    match got.get? (key (base + b.2)) with
    | some w => w.extractLsb' (8 * ((base + b.2) % 4)) 8
    | none => b.1

/-- Some bytes from `p` up, with the words that are read already in their place. -/
def overlay (got : Tab Word) (p : Phys) (bs : List Byte) : List Byte :=
  overlayBy (fun a => wordKey { p with addr := a }) got p.addr bs

/-- Whether some word of a line among `n` bytes from `p` is still to be read. -/
def missing (got : Tab Word) (p : Phys) (n line : Nat) : Bool :=
  (List.range 32).any fun i =>
    decide (p.addr < 128 * line + 4 * i + 4) && decide (128 * line + 4 * i < p.addr + n) &&
    !got.has (wordKey { p with addr := 128 * line + 4 * i })

/-- What a read of the source of an operation's unit comes to. -/
inductive SourceStep where
  | ok (bs : List Byte)
  | fault (x : XFault) (va : Nat)
  /-- Some of its lines wait in merges. -/
  | merging
  deriving DecidableEq, Repr

/-- Sends the line reads of some pieces to their merges; the first part says whether one waits. -/
def State.mergePieces (s : State) (r : Reader) (x : Nat) (got : Tab Word) (ts : List (Xlated × Nat)) : Bool × State :=
  let lines := ts.flatMap fun t => ((linesFrom t.1.phys.addr t.2).filter fun l => missing got t.1.phys t.2 l).map fun l =>
    ({ t.1 with phys := { t.1.phys with addr := 128 * l } } : Xlated)
  lines.foldl (fun (w : Bool × State) t =>
    match w.2.mergeRead? r x t with
    | some s1 => (true, s1)
    | none => w) (false, s)

/-- Reads `n` bytes of a source for the unit of an operation: its lines come from merges where these are open, and the words
that it has read early stand. -/
def State.sourceRead (s : State) (u : TUnit) (x va n : Nat) (fresh : Bool) (r : Reader) (got : Tab Word) : SourceStep × State :=
  match State.xlatAll u x .read false fresh (pagePieces va n) s with
  | (.error e, s1) => (.fault e.1 e.2, s1)
  | (.ok ts, s1) =>
    if ts.any fun t => s1.badPiece t.1 t.2 then (.fault { permFault with code := cUe } va, s1)
    else match s1.mergePieces r x got ts with
      | (true, s2) => (.merging, s2)
      | (false, s2) =>
        let bs := ts.flatMap fun t => overlay got t.1.phys (s2.pageRead t.1 t.2)
        (.ok bs, ts.foldl (fun s t => s.pageFill t.1 t.2) s2)

/-- Reads one word of a source early, by its virtual address: its key and value, where no merge is to bring it. -/
def State.earlyWord (s : State) (u : TUnit) (x va : Nat) (got : Tab Word) : Option (Nat × Word) × State :=
  match s.translate u x (va / 4 * 4) .read false false false with
  | (.error _, s1) => (none, s1)
  | (.ok t, s1) =>
    if s1.merging x t || s1.badPiece t 4 || got.has (wordKey t.phys) then (none, s1)
    else (some (wordKey t.phys, BitVec.ofNat 32 (leNat (s1.pageRead t 4))), s1.pageFill t 4)

/-- A write by a unit in a context: the whole of it, or nothing. -/
def State.agentWrite (s : State) (u : TUnit) (x va : Nat) (bs : List Byte) (fresh : Bool) : Option (XFault × Nat) × State :=
  match State.xlatAll u x .write false fresh (pagePieces va bs.length) s with
  | (.error e, s1) => (some e, s1)
  | (.ok ts, s1) => (none, State.writePieces ts bs s1)

/-! ### Scratchpad operands (14 R253; 10 R198; 11 R221) -/

/-- Whether rising ranges cover the bytes from `lo` to before `hi`. -/
def covered (rs : List (Nat × Nat)) : Nat → Nat → Nat → Bool
  | 0, lo, hi => decide (hi ≤ lo)
  | n + 1, lo, hi =>
    if hi ≤ lo then true
    else match rs.find? fun r => decide (r.1 ≤ lo) && decide (lo < r.2) with
      | none => false
      | some r => covered rs n r.2 hi

/-- Every byte of a range of a core's scratchpad lies in an allocation held by a block of the context. -/
def State.ownsBytes (s : State) (x core off n : Nat) : Bool :=
  let rs := (s.blocks.filter fun b => (s.launch b.2.launch).ctx == x && b.2.cores.contains core).map fun b =>
    (b.2.scratchOff, b.2.scratchOff + b.2.scratchSize)
  decide (off + n ≤ 0x180000) && covered rs rs.length off (off + n)

/-- The core and offset that a marked address names, if its form is right. -/
def markedTarget (core : Nat) (a : Word) : Option (Nat × Nat) :=
  let off := (a.extractLsb' 0 21).toNat
  let rank := (a.extractLsb' 21 3).toNat
  if a.extractLsb' 25 7 != 0 || decide (0x180000 ≤ off) then none
  else if a.getLsbD 24 then some (core / 8 * 8 + rank, off)
  else if rank = 0 then some (core, off) else none

/-- The core and offset of `n` bytes at a marked address, where the context owns them. -/
def State.markedAt (s : State) (core x : Nat) (a : Word) (n : Nat) : Option (Nat × Nat) :=
  match markedTarget core a with
  | none => none
  | some (t, off) => if s.ownsBytes x t off n then some (t, off) else none

/-- Whether a lode range leaves the window of a context, or the lode store is disabled (06 R127; 23 R349). -/
def State.lodeRangeBad (s : State) (core x a n : Nat) : Bool :=
  let w := (s.ctx x).desc.lode.getD (dieOf core) (0, 0)
  !s.feature 4 || decide (2 ^ 30 < a + n) || decide (a < w.1) || decide (w.1 + w.2 < a + n)

/-- Whether the warp has scratchpad accesses that are not yet performed. -/
def Warp.spadBusy (w : Warp) : Bool := w.accs.any fun a => a.2.f.space == 1 || a.2.f.space == 2

/-! ### Context descriptors (21 R328) -/

/-- The descriptor in 256 bytes. -/
def descOf (bs : List Byte) : Desc :=
  let f := fieldAt bs
  let dflt := fun (x d : Nat) => if x = 0 then d else x
  { root1 := BitVec.ofNat 64 (f 0 8), root2 := BitVec.ofNat 64 (f 8 8), screeBase := f 16 8, screeStride := f 24 4,
    privileged := (f 30 1).testBit 1, debug := (f 30 1).testBit 2, saveBase := f 32 8, saveStride := f 40 4,
    storeCount := f 44 4, storeBase := f 48 8, grace := dflt (f 56 4) 100000, kill := dflt (f 60 4) 10000000,
    lode := (List.range 4).map fun d => (f (64 + 8 * d) 4, f (68 + 8 * d) 4)
    hs := dflt (f 96 2) 320 }

/-- Where the descriptor of context `n` of a function's table lies. -/
def State.descAt (s : State) (fn n : Nat) : Nat := (s.fn fn).ctxTable.toNat + 256 * n

/-- Whether some line of a descriptor is poisoned (24 R368). -/
def State.descPoisoned (s : State) (fn n : Nat) : Bool :=
  (linesFrom (s.descAt fn n) 256).any fun l => s.poisoned (physOf (128 * l))

/-- The descriptor of context `n` in a function's table, if it is valid and can be read. -/
def State.readDesc (s : State) (fn n : Nat) : Option Desc :=
  if (s.fn fn).ctxTable.toNat = 0 ∨ s.descPoisoned fn n then none
  else
    let bs := s.physRead (physOf (s.descAt fn n)) 256
    if (fieldAt bs 30 1).testBit 0 ∧ fieldAt bs 28 2 = n then some (descOf bs) else none

/-- The event of kind 8 for a descriptor that the hub reads and cannot use: UE where its line is poisoned (21 R328, R329). -/
def State.postDesc (s : State) (fn n : Nat) : State :=
  if (s.fn fn).ctxTable.toNat ≠ 0 ∧ s.descPoisoned fn n then
    s.postMemory fn (ctxKey (s.fnPart fn) n) (BitVec.ofNat 64 (s.descAt fn n)) .read cUe
  else s.postError fn n 0 0 0

/-- Reads a context's descriptor for a function when it is not in use, or was killed (DESIGN CHOICE, log 16); a context of
another function, and a descriptor that is not valid, give none and an event of kind 8. -/
def State.useCtx (s : State) (fn n : Nat) : Option Nat × State :=
  let k := ctxKey (s.fnPart fn) n
  let read := match s.readDesc fn n with
    | some d => (some k, { s with ctxs := s.ctxs.put k { Ctx.none k with fn := fn, desc := d } })
    | none => (none, s.postDesc fn n)
  match s.ctxs.get? k with
  | some c => if c.fn = fn then (if c.pre = 4 then read else (some k, s)) else (none, s.postError fn n 0 0 0)
  | none => read

/-- Whether a function owns a context: it is in use there, or its table holds a valid descriptor of it. -/
def State.owns (s : State) (fn n : Nat) : Bool :=
  match s.ctxs.get? (ctxKey (s.fnPart fn) n) with
  | some c => c.fn == fn
  | none => (s.readDesc fn n).isSome

/-- The function pages of a partition, its physical function's first. -/
def State.fnsOf (s : State) (p : Nat) : List Nat :=
  pfKey p :: (s.fns.filter fun f => decide (f.1 < 256) && f.2.part == p).map (·.1)

/-- A context of a partition with a valid descriptor, whichever function owns it; one that was killed is read anew (log 16). -/
def State.findCtx (s : State) (p n : Nat) : Option Nat × State :=
  let k := ctxKey p n
  let read := fun (mine : Nat → Bool) => match (s.fnsOf p).find? fun f => mine f && (s.readDesc f n).isSome with
    | some f => s.useCtx f n
    | none => (none, s)
  match s.ctxs.get? k with
  | some c => if c.pre = 4 then read fun f => f == c.fn else (some k, s)
  | none => read fun _ => true

/-! ### Engine matches of watchpoints (21 R334) -/

/-- The watchpoints, as context × 2,048 + core × 8 + number, that a write of `n` bytes at an address of a context matches. -/
def State.engineWatches (s : State) (x va n : Nat) : List Nat :=
  s.cores.flatMap fun k => ((k.2.watches.getD x []).filter fun w =>
    w.2.mask.getLsbD 2 && overlaps va (va + n) w.2.addr (w.2.addr + w.2.len)).map fun w => 2048 * x + k.1 * 8 + w.1

/-- Posts the records of engine matches. -/
def State.postWatches (s : State) (x va : Nat) (r : EvRec) (ws : List Nat) : State :=
  ws.foldl (fun s w => s.post (s.ctx x).fn
    { r with addr := BitVec.ofNat 64 va, core := BitVec.ofNat 8 (w % 2048 / 8), info := BitVec.ofNat 32 (w % 8 + 8),
             context := BitVec.ofNat 12 (s.ctx x).number, vf := vfField (s.ctx x).fn, kind := 4, code := cWatch }) s

/-! ### The fabric map (23 R353) -/

/-- An entry of a fabric map. -/
structure MapEntry where
  validfrom : Nat
  ctx : Nat
  va : Nat
  perms : BitVec 4
  ok : Bool
  deriving DecidableEq, Repr

/-- The entry in two 64-bit words. -/
def mapEntryOf (lo hi : BitVec 64) : MapEntry :=
  { validfrom := hi.toNat, ctx := (lo.extractLsb' 48 12).toNat, va := (lo.extractLsb' 12 36).toNat * 4096,
    perms := lo.extractLsb' 0 4
    ok := lo.extractLsb' 60 4 == 0 && lo.extractLsb' 4 4 == 0 && lo.extractLsb' 12 9 == 0 }

/-- The entry of a partition's fabric map for a window address, if the map reaches it: a cached one while its lease lasts, or
memory (20 R310, R311). A valid and well-formed entry is cached whole, under its target context, whose flush discards it. A
poisoned line gives UE (24 R368). -/
def State.mapEntry (s : State) (p addr : Nat) : Except (BitVec 8) (Option MapEntry) × State :=
  let q := s.part p
  let e := addr / 2 ^ 21
  if q.mapLog2 > 16 ∨ 2 ^ q.mapLog2 ≤ e then (.ok none, s)
  else
    let at_ := q.mapBase.toNat + 16 * e
    match s.maps.find? fun m => m.part == p && m.addr == at_ && unexpired m.expiry s.time with
    | some m => (.ok (some (mapEntryOf m.lo m.hi)), s)
    | none =>
      if (linesFrom at_ 16).any fun l => s.poisoned (physOf (128 * l)) then (.error cUe, s)
      else
        let lo : BitVec 64 := BitVec.ofNat 64 (s.physNat (physOf at_) 8)
        let hi : BitVec 64 := BitVec.ofNat 64 (s.physNat (physOf (at_ + 8)) 8)
        let x := mapEntryOf lo hi
        let lease := (lo.extractLsb' 8 4).toNat
        let item : MapItem :=
          { part := p, addr := at_, ctx := ctxKey p x.ctx, lo := lo, hi := hi, expiry := leaseExpiry s.time lease }
        (.ok (some x), if lease = 0 ∨ !x.ok ∨ !x.perms.getLsbD 0 then s
          else { s with maps := (s.maps.filter fun m => !(m.part == p && m.addr == at_)) ++ [item] })

/-! ### Inbound packets (23 R354) -/

/-- The operation of a VRED by amod as an atomic code (11 R228). -/
def vredCode (amod : Nat) : Nat :=
  match amod with
  | 0 => 0 | 1 => 7 | 2 => 8 | 3 => 9 | 4 => 1 | _ => 2

/-- Combines words into memory element by element. -/
def State.combineAt (t : Xlated) (code : Nat) : List Word → Nat → State → State
  | [], _, s => s
  | v :: vs, off, s =>
    let at_ : Xlated := { t with phys := { t.phys with addr := t.phys.addr + off } }
    State.combineAt t code vs (off + 4) (s.pageWrite at_ (leBytes 4 (atomicNew code 32 (leNat (s.pageRead at_ 4)) v.toNat)))

/-- The words in some bytes. -/
def wordsIn (bs : List Byte) : List Word := wordsOf bs (bs.length / 4)

/-- Whether a packet's kind is permitted by an entry. -/
def peerAllowed (o : PeerOp) (perms : BitVec 4) : Bool :=
  match o with
  | .get => perms.getLsbD 1
  | .put => perms.getLsbD 2
  | .reduce _ => perms.getLsbD 3

/-- The access of a packet's operation. -/
def peerAccessKind : PeerOp → AccKind
  | .get => .read
  | .put => .write
  | .reduce _ => .rmw

/-- A NACK with its record of kind 8 in the queue of the function that owns the target context, or of the partition where
no context is found. -/
def State.nack (s : State) (p : Nat) (x : Option Nat) (va : Nat) (k : Packet) (code : BitVec 8) : Answer × State :=
  let fn := match x with
    | some x => (s.ctx x).fn
    | none => pfKey p
  let ctx := match x with
    | some x => (s.ctx x).number
    | none => 0
  (.nack code, s.post fn { EvRec.zero with
    time := BitVec.ofNat 64 s.time, addr := BitVec.ofNat 64 va, unit := 4, srcdev := k.srcdev,
    context := BitVec.ofNat 12 ctx, vf := vfField fn, kind := 8, code := code
    info := if memCode code then memInfo (peerAccessKind k.op) 255 else 0 })

/-- The watchpoints that an inbound packet matches at a partition, as `engineWatches` numbers them; a read matches none. -/
def State.packetWatches (s : State) (p : Nat) (k : Packet) : List Nat :=
  match k.op, (s.mapEntry p k.addr).1 with
  | .get, _ => []
  | _, .ok (some e) => s.engineWatches (ctxKey p e.ctx) (e.va + k.addr % 2 ^ 21) k.len
  | _, _ => []

/-- An inbound packet at a partition: the steps in order, and the access at the home L2. Watchpoints that its operation has
reported already are not reported again (21 R334). -/
def State.peerAccess (s : State) (p : Nat) (k : Packet) (seen : List Nat) : Answer × State :=
  let q := s.part p
  if !s.feature 3 ∨ q.mapBase = 0 ∨ q.peerIndex.isNone then s.nack p none 0 k cPeerNack
  else match s.mapEntry p k.addr with
    | (.error code, s1) => s1.nack p none 0 k code
    | (.ok none, s1) => s1.nack p none 0 k cPerm
    | (.ok (some e), s1) =>
      let va := e.va + k.addr % 2 ^ 21
      if !e.perms.getLsbD 0 ∨ !e.ok then s1.nack p none va k cPerm
      else if !peerAllowed k.op e.perms then
        let owner := s1.findCtx p e.ctx
        owner.2.nack p owner.1 va k cPerm
      else match s1.findCtx p e.ctx with
        | (none, s2) => s2.nack p none va k cPeerNack
        | (some x, s2) =>
          if k.stamp < e.validfrom then (.stale e.validfrom, s2)
          else match State.xlatAll (.cp p) x (peerAccessKind k.op) false false (pagePieces va k.len) s2 with
            | (.error (f, _), s3) => s3.nack p (some x) va k (if f.code = cPeerPlain then cPerm else f.code)
            | (.ok ts, s3) =>
              if ts.any fun t => t.1.item.kind != .localMem then s3.nack p (some x) va k cPerm
              else if k.op != .put && ts.any fun t => s3.badPiece t.1 t.2 then s3.nack p (some x) va k cUe
              else
                let watch := fun (s : State) => s.postWatches x va
                  { EvRec.zero with time := BitVec.ofNat 64 s.time, unit := 4, srcdev := k.srcdev }
                  ((s.engineWatches x va k.len).filter fun w => !seen.contains w)
                match k.op with
                | .get =>
                  let (bs, s4) := State.readPieces ts s3
                  (.ok bs, s4)
                | .put => (.ok [], watch (State.writePieces ts k.data s3))
                | .reduce o =>
                  let go := ts.foldl (fun (r : List Byte × State) (t : Xlated × Nat) =>
                    (r.1.drop t.2, State.combineAt t.1 (vredCode o.toNat) (wordsIn (r.1.take t.2)) 0 r.2)) (k.data, s3)
                  (.ok [], watch go.2)

/-- Counts the bytes of an inbound packet that was performed, for its target context (24 R367). -/
def State.countPacket (s : State) (p : Nat) (k : Packet) (a : Answer) : State :=
  match a, (s.mapEntry p k.addr).1 with
  | .ok _, .ok (some e) => s.count (ctxKey p e.ctx) 1 k.len
  | _, _ => s

/-- PEER_INBOUND_PACKET (23 R354). DESIGN CHOICE (log 104): a packet of another device is an operation of its own to the
watchpoints. -/
def execPeerInboundPacket (part : Nat) (packet : Packet) (s : State) : Host.Outcome State Fault Refusal :=
  if !s.parts.has part then .next s
  else
    let (a, s1) := s.peerAccess part packet []
    .next { s1.countPacket part packet a with answers := s1.answers ++ [(part, a)] }

/-! ### Outbound packets (23 R352, R355) -/

/-- The partition of this module that a peer index names: packets to it loop back inside the hub. -/
def State.loopback (s : State) (index : BitVec 15) : Option Nat :=
  (s.parts.find? fun p => p.2.peerIndex == some index).map (·.1)

/-- What a unit does next after it has sent a unit of work to a peer. -/
inductive PeerStep where
  | done (data : List Byte)
  | waits
  | stale (validfrom : Nat)
  | nack (code : BitVec 8)
  deriving DecidableEq, Repr

/-- A packet as a partition sends it. -/
def State.stamped (s : State) (p : Nat) (k : Packet) : Packet := { k with srcdev := (s.part p).peerIndex.getD 0 }

/-- Sends a packet of a context to a peer: a partition of the module answers at once, inside the hub; the answer of another device
is owed, and comes as a later event. -/
def State.sendPeer (s : State) (x : Nat) (index : BitVec 15) (k : Packet) (seen : List Nat) : PeerStep × State :=
  let k := s.stamped (x / 4096) k
  match s.loopback index with
  | some q =>
    match s.peerAccess q k seen with
    | (.ok bs, s1) => (.done bs, s1)
    | (.stale v, s1) => (.stale v, s1)
    | (.nack c, s1) => (.nack c, s1)
  | none => (.waits, { s.count x 1 k.len with sent := s.sent ++ [(index.toNat, k)] })

/-- The bytes that a peer on another device answers to a read at a step (DESIGN CHOICE, log 14: a free value). -/
def peerAnswer (step n : Nat) : List Byte := (List.range n).map fun i => Config.peerByte step i

end Sys2Proof.Machine
end

