-- ==== Sys2Proof/Machine/Convert.lean ====
section
/-! DEFINITION. Conversion, packing and quantisation (08 R167 to R172). -/
namespace Sys2Proof.Machine

/-- A format slot of a warp's launch (05 R105). -/
def State.slotOf (s : State) (w : Warp) (i : BitVec 3) : BitVec 64 := (s.launch w.launch).fmts.getD i.toNat 0

/-- A format-slot combination that an entry does not accept: FIELD_RESERVED under step 4 (05 R107). -/
def slotCheck (e : Env) (ok : Bool) : Option Raise := if ok then none else some (fieldRaise e.frag)

/-- The fields that conversion entries hold: B and C unused, no modifier (08 R167). -/
def convFields (f : V3) : Bool := noMods f && f.zero == 0 && rndOk f && nul f.srcb && nul f.srcc

/-- Element `e`, `w` bits wide, of a packed value (05 R99). -/
def elemAt (w : Nat) (x e : Nat) : Nat := x / 2 ^ (w * e) % 2 ^ w

/-- The flags of reading a source element: qn for a NaN, tern for the ternary code 0b10 (05 R112). -/
def readFlags (code bits : Nat) : BitVec 8 :=
  flIf (decodeElem code bits).isNan flQn ||| flIf (code == 7 && bits % 4 == 2) flTern

/-- How many elements a conversion between two widths takes (08 R168). -/
def convCount (wa wo : Nat) : Nat := max 1 (32 / max wa wo)

/-- Packs converted elements, and joins their flags. -/
def packElems (wo : Nat) (xs : List (Nat × BitVec 8)) : Nat × BitVec 8 :=
  xs.foldr (fun x r => (x.1 + 2 ^ wo * r.1, x.2 ||| r.2)) (0, 0)

/-- What a conversion instruction asks of its issue. -/
def convertNeeds (h : Hdr) (fields : Bool) (reads : List Nat) (k : Nat) (ok : Env → Bool) (peeks : List Nat := []) : Needs :=
  { plainNeeds h fields reads k peeks with entry := fun e => slotCheck e (ok e) }

/-- A conversion instruction: the words and the flags of each active lane; the flags enter sr.aflags (05 R112). -/
def convert (s : State) (h : Hdr) (i : Instr) (fields : Bool) (reads : List Nat) (k : Nat) (ok : Env → Bool)
    (v : Env → Nat → List Word × BitVec 8) (peeks : List Nat := []) : Host.Outcome State Fault Refusal :=
  let dests := constituents h.dest k
  issue s h i (convertNeeds h fields reads k ok peeks)
    fun e s' =>
      (finish e dests h.count (fun l => (v e l).1) s').modWarp e.core e.slot fun w =>
        w.orFlags (lanesFlags e.act fun l => (v e l).2)

/-- What CVT makes of a lane: the result and its flags (08 R168). -/
def State.cvtLane (s : State) (e : Env) (f : V3) (l : Nat) : List Word × BitVec 8 :=
  let q := s.slotOf e.w f.fslot
  let (a, o) := (slotA q, slotOut q)
  let x := (e.w.word f.srca l).toNat
  let r := packElems (fmtWidth o) ((List.range (convCount (fmtWidth a) (fmtWidth o))).map fun j =>
    let b := elemAt (fmtWidth a) x j
    let y := roundElem o f.rnd.toNat f.sat (e.draw l j) (decodeElem a b)
    (y.1, y.2 ||| readFlags a b))
  ([BitVec.ofNat 32 r.1], r.2)

/-- CVT: float, INT8 or ternary elements into float elements (08 R167, R168). -/
def execCvt (h : Hdr) (f : V3) (s : State) : Host.Outcome State Fault Refusal :=
  convert (peeks := seedPeek f.rnd) s h (.cvt h f) (convFields f && f.type == 6 && srcOk f.srca 1 && destOk h 1 [f.srca]) (rd f.srca 1) 1
    (fun e => let q := s.slotOf e.w f.fslot; decide (slotA q ≤ 7) && decide (slotOut q ≤ 5) && slotScale q == 0)
    fun e l => s.cvtLane e f l

/-- What CVTI makes of a lane (08 R168). -/
def State.cvtiLane (s : State) (e : Env) (f : V3) (l : Nat) : List Word × BitVec 8 :=
  let a := slotA (s.slotOf e.w f.fslot)
  let wo := typeWidth f.type
  let n := convCount (fmtWidth a) wo
  let x := (e.w.word f.srca l).toNat
  let one := fun j =>
    let b := elemAt (fmtWidth a) x j
    let y := roundInt (typeMin f.type) (typeMax f.type) f.rnd.toNat (e.draw l j) (decodeElem a b)
    (y.1, y.2 ||| readFlags a b)
  if n = 1 then (intWords f.type (one 0).1, (one 0).2)
  else
    let r := packElems wo ((List.range n).map fun j => (wrapNat wo (one j).1, (one j).2))
    ([BitVec.ofNat 32 r.1], r.2)

/-- CVTI: float elements into integers of a type (08 R167, R168). -/
def execCvti (h : Hdr) (f : V3) (s : State) : Host.Outcome State Fault Refusal :=
  let k := typeNames f.type
  convert (peeks := seedPeek f.rnd) s h (.cvti h f)
    (convFields f && typeIn f.type allTypes && !f.sat && srcOk f.srca 1 && destOk h k [f.srca]) (rd f.srca 1) k
    (fun e => let q := s.slotOf e.w f.fslot; decide (slotA q ≤ 5) && slotScale q == 0)
    fun e l => s.cvtiLane e f l

/-- What CVTF makes of a lane (08 R168). -/
def State.cvtfLane (s : State) (e : Env) (f : V3) (l : Nat) : List Word × BitVec 8 :=
  let k := typeNames f.type
  let o := slotOut (s.slotOf e.w f.fslot)
  let wa := typeWidth f.type
  let x := if k = 2 then (e.w.pair f.srca l).toNat else (e.w.word f.srca l).toNat
  let r := packElems (fmtWidth o) ((List.range (convCount wa (fmtWidth o))).map fun j =>
    roundElem o f.rnd.toNat f.sat (e.draw l j) (numOfInt (typeInt f.type (elemAt wa x j))))
  ([BitVec.ofNat 32 r.1], r.2)

/-- CVTF: integers of a type into float elements (08 R167, R168). -/
def execCvtf (h : Hdr) (f : V3) (s : State) : Host.Outcome State Fault Refusal :=
  let k := typeNames f.type
  convert (peeks := seedPeek f.rnd) s h (.cvtf h f)
    (convFields f && typeIn f.type allTypes && srcOk f.srca k && destOk h 1 [f.srca]) (rd f.srca k) 1
    (fun e => let q := s.slotOf e.w f.fslot; decide (slotOut q ≤ 5) && slotScale q == 0)
    fun e l => s.cvtfLane e f l

/-! ### PACK and UNPACK -/

/-- The element width that a type selects in PACK and UNPACK; 0 where it selects none (08 R169). -/
def packWidth (t : BitVec 4) : Nat :=
  match t.toNat with
  | 1 => 16 | 5 => 16 | 9 => 16 | 10 => 16
  | 0 => 8 | 4 => 8 | 11 => 8 | 12 => 8
  | 13 => 4
  | 14 => 2
  | _ => 0

/-- The field rules of PACK and UNPACK (08 R169). -/
def packFields (h : Hdr) (f : V3) : Bool :=
  packWidth f.type != 0 && v3Plain f && srcOk f.srca 1 && srcOk f.srcb 1 && nul f.srcc && destOk h 1 [f.srca, f.srcb]

/-- PACK (08 R169). -/
def execPack (h : Hdr) (f : V3) (s : State) : Host.Outcome State Fault Refusal :=
  compute s h (.pack h f) (packFields h f) (rd f.srca 1 ++ rd f.srcb 1) 1 fun e l =>
    let w := packWidth f.type
    [BitVec.ofNat 32 ((e.w.word f.srcb l).toNat * 2 ^ w + (e.w.word f.srca l).toNat % 2 ^ w)]

/-- UNPACK (08 R169). -/
def execUnpack (h : Hdr) (f : V3) (s : State) : Host.Outcome State Fault Refusal :=
  compute s h (.unpack h f) (packFields h f) (rd f.srca 1 ++ rd f.srcb 1) 1 fun e l =>
    let w := packWidth f.type
    let x := elemAt w (e.w.word f.srca l).toNat ((e.w.word f.srcb l).toNat % (32 / w))
    [if f.type = 0 ∨ f.type = 1 then BitVec.ofInt 32 (typeInt f.type x) else BitVec.ofNat 32 x]

/-! ### Quantisation -/

/-- The check that the fragment holds all 32 lanes, every one active (08 R170, 10 R197). -/
def converged (e : Env) : Option Raise :=
  if e.frag = fullMask ∧ e.act = fullMask then none
  else some { code := cIllegalConvergence, lanes := e.frag, addr := 0, info := 0 }

/-- The bin of an element in a histogram (08 R170). -/
def histBin : Num → Nat
  | .fin _ m e =>
    if m = 0 then 0 else (clampInt 1 62 ((Nat.log2 m : Int) + e + 32)).toNat
  | _ => 63

/-- The 64 bins that a name holds across the lanes (08 R170). -/
def binsOf (w : Warp) (n : BitVec 9) : List Nat :=
  (List.range 64).map fun b => (w.word n (b / 2)).toNat / 65536 ^ (b % 2) % 65536

/-- Adds one to a bin, up to 0xFFFF. -/
def countBin (hs : List Nat) (b : Nat) : List Nat := hs.set b (min (hs.getD b 0 + 1) 0xFFFF)

/-- The headroom of an output format of QSCALE and QCVT; 0 where it is not accepted (08 R171). -/
def headroom (code : Nat) : Nat :=
  match code with
  | 2 => 15 | 3 => 8 | 4 => 15 | 5 => 2 | 6 => 6 | _ => 0

/-- The bins of QHIST: those of source C, with each element of source A in all lanes counted (08 R170). -/
def State.qhistBins (s : State) (e : Env) (f : V3) : List Nat :=
  let a := slotA (s.slotOf e.w f.fslot)
  let n := 32 / fmtWidth a
  let elems := allLanes.flatMap fun l =>
    (List.range n).map fun j => decodeElem a (elemAt (fmtWidth a) (e.w.word f.srca l).toNat j)
  elems.foldl (fun hs x => countBin hs (histBin x)) (binsOf e.w f.srcc)

/-- What QHIST asks of its issue. DESIGN CHOICE (log 89): convergence is checked before the slot. -/
def needsQhist (h : Hdr) (f : V3) (s : State) : Needs :=
  let dests := constituents h.dest 1
  { fields := f.type == 6 && f.rnd == 0 && !f.sat && noMods f && f.zero == 0 && srcOk f.srca 1 && nul f.srcb &&
      srcOk f.srcc 1 && vec h.dest
    reads := rd f.srca 1 ++ rd f.srcc 1, dests := dests, count := h.count
    entry := fun e =>
      let q := s.slotOf e.w f.fslot
      (converged e).or (slotCheck e (decide (slotA q ≤ 2) && slotScale q == 1)) }

/-- QHIST (08 R170). -/
def execQhist (h : Hdr) (f : V3) (s : State) : Host.Outcome State Fault Refusal :=
  let dests := constituents h.dest 1
  issue s h (.qhist h f) (needsQhist h f s)
    fun e s' =>
      let hs := s.qhistBins e f
      finish e dests h.count (fun l => [BitVec.ofNat 32 (hs.getD (2 * l) 0 + 65536 * hs.getD (2 * l + 1) 0)]) s'

/-- The smallest bin from `b` up whose cumulative count reaches `t` (08 R171). -/
def percentileBin (hs : List Nat) (t : Nat) : Nat → Nat → Nat → Nat
  | 0, b, _ => b
  | n + 1, b, acc =>
    let acc := acc + hs.getD b 0
    if t ≤ acc then b else percentileBin hs t n (b + 1) acc

/-- The E8M0 code that QSCALE chooses (08 R171). -/
def qscaleCode (hs : List Nat) (pct m : Nat) : Nat :=
  let n := ((hs.drop 1).take 62).foldl (· + ·) 0
  if n = 0 then 0x7F
  else
    let t := max 1 ((n * pct + 65535) / 65536)
    let p := percentileBin hs t 61 1 0
    (clampInt 0 254 ((p : Int) - 32 + 1 - m + 127)).toNat

/-- What QSCALE asks of its issue. DESIGN CHOICE (log 89): convergence is checked before the slot. -/
def needsQscale (h : Hdr) (f : V3) (s : State) : Needs :=
  let dests := constituents h.dest 1
  { fields := f.type == 6 && f.rnd == 0 && !f.sat && noMods f && f.zero == 0 && srcOk f.srca 1 && nul f.srcb &&
      nul f.srcc && destOk h 1 []
    reads := rd f.srca 1, dests := dests, count := h.count
    entry := fun e =>
      let q := s.slotOf e.w f.fslot
      (converged e).or (slotCheck e (headroom (slotOut q) != 0 && slotScale q == 1)) }

/-- QSCALE (08 R171). -/
def execQscale (h : Hdr) (f : V3) (s : State) : Host.Outcome State Fault Refusal :=
  let dests := constituents h.dest 1
  issue s h (.qscale h f) (needsQscale h f s)
    fun e s' =>
      let q := s.slotOf e.w f.fslot
      finish e dests h.count
        (fun _ => [BitVec.ofNat 32 (qscaleCode (binsOf e.w f.srca) (slotPct q) (headroom (slotOut q)))]) s'

/-- One element of QCVT: its code and flags (08 R172). DESIGN CHOICE (log 85): a value under E8M0 code 0xFF raises sc alone,
into E2M1 and INT8 too, as no NaN was converted. -/
def qcvtElem (rnd : Nat) (sat : Bool) (a o code : Nat) (u : Word) (b : Nat) : Nat × BitVec 8 :=
  let x := decodeElem a b
  let fl := flIf (code == 255) flSc ||| flIf x.isNan flQn ||| flIf (x.isNan && (o == 5 || o == 6)) flNv
  if code = 255 ∨ x.isNan then (nanBits o, fl)
  else
    let y := x.mul (.fin false 1 (127 - (code : Int)))
    let r := roundElem o rnd (if y.isInf then sat else true) u y
    (r.1, r.2 ||| fl)

/-- What QCVT makes of a lane (08 R172). -/
def State.qcvtLane (s : State) (e : Env) (f : V3) (l : Nat) : List Word × BitVec 8 :=
  let q := s.slotOf e.w f.fslot
  let (a, o) := (slotA q, slotOut q)
  let code := (e.w.word f.srcb l).toNat % 256
  let r := packElems (fmtWidth o) ((List.range (convCount (fmtWidth a) (fmtWidth o))).map fun j =>
    qcvtElem f.rnd.toNat f.sat a o code (e.draw l j) (elemAt (fmtWidth a) (e.w.word f.srca l).toNat j))
  ([BitVec.ofNat 32 r.1], r.2)

/-- QCVT (08 R172). -/
def execQcvt (h : Hdr) (f : V3) (s : State) : Host.Outcome State Fault Refusal :=
  convert (peeks := seedPeek f.rnd) s h (.qcvt h f)
    (f.type == 6 && noMods f && f.zero == 0 && rndOk f && srcOk f.srca 1 && srcOk f.srcb 1 && !nul f.srcb && nul f.srcc &&
      destOk h 1 [f.srca, f.srcb])
    (rd f.srca 1 ++ rd f.srcb 1) 1
    (fun e => let q := s.slotOf e.w f.fslot
      decide (slotA q ≤ 2) && headroom (slotOut q) != 0 && slotScale q == 1)
    fun e l => s.qcvtLane e f l

end Sys2Proof.Machine
end

