-- ==== Sys2Proof/Machine/Matrix.lean ====
section
/-! DEFINITION. The arithmetic of the strata array: format pairs, exact accumulation, rows of MMT and MMTX, blocks of MMTG,
and the conversions of ACCLD and ACCST (05 R108 to R112; 06 R115, R116; 10 R209 to R211, R215). -/
namespace Sys2Proof.Machine

/-! ### Formats (05 R108; 06 R115, R116) -/

/-- The rows K of a stratum by A and B format. -/
def kRows (a b : Nat) : Nat := if a = 1 ∨ a = 2 then 128 else if b = 5 ∨ b = 7 then 512 else 256

/-- Whether MMT accepts the formats of a slot. -/
def mmtPair (x : BitVec 64) : Bool :=
  let a := slotA x
  let b := slotB x
  let fp := (a == b && (a == 1 || a == 2 || a == 5)) || ((a == 3 || a == 4) && (b == 3 || b == 4))
  (fp && slotOut x == 0) || (a == 6 && (b == 6 || b == 7) && (slotOut x == 0 || (slotOut x == 8 && slotScale x == 0)))

/-- Whether MMTX accepts the formats of a slot: those of MMT without integers (10 R210). -/
def mmtxPair (x : BitVec 64) : Bool := mmtPair x && slotA x != 6

/-- Whether MMTG accepts a slot (10 R211). -/
def mmtgPair (x : BitVec 64) : Bool :=
  slotA x == slotB x && (slotA x == 1 || slotA x == 2) && slotOut x == 0 && slotScale x == 0

/-- The bytes of the weights and of the scale table of an image (06 R115). -/
def weightBytes (b : Nat) : Nat := if b = 7 then 8192 else 16384

/-- The bytes of the scale table. -/
def scaleBytes (b kind : Nat) : Nat :=
  match kind with
  | 0 => 0
  | 1 => if b = 1 ∨ b = 2 then 256 else if b = 5 ∨ b = 7 then 1024 else 512
  | _ => 256

/-- The units of an image. -/
def imageUnits (b kind : Nat) : Nat := (weightBytes b + scaleBytes b kind) / 256

/-- The offset of a unit in the image (10 R205). -/
def unitOffset (b u : Nat) : Nat := if u < weightBytes b / 256 then 256 * u else 16384 + 256 * (u - weightBytes b / 256)

/-- The number of elements that MMT and MMTX read from a row of A. -/
def rowElems (x : BitVec 64) (transposed : Bool) : Nat := if transposed then 64 else kRows (slotA x) (slotB x)

/-- The bytes of a row of A with its scales (06 R116; 10 R210). -/
def rowBytes (x : BitVec 64) (transposed : Bool) : Nat :=
  let n := rowElems x transposed
  n * fmtWidth (slotA x) / 8 + (match slotScale x with
    | 0 => 0
    | 1 => n / 32
    | _ => 4)

/-! ### Elements -/

/-- The element codes of a width in some bytes (05 R99). -/
def codesIn (w : Nat) (bs : List Byte) (n : Nat) : List Nat :=
  let x := leNat bs
  (List.range n).map fun i => elemAt w x i

/-- `n` bytes of a stratum's image that lie in one unit. -/
def Stratum.bytes (t : Stratum) (off n : Nat) : List Byte :=
  let u := t.image.getD (off / 256) []
  (List.range n).map fun i => u.getD (off % 256 + i) 0

/-- The weight codes of row `k` of a stratum. -/
def Stratum.row (t : Stratum) (k : Nat) : List Nat := codesIn (fmtWidth t.bfmt) (t.bytes (8 * fmtWidth t.bfmt * k) (8 * fmtWidth t.bfmt)) 64

/-- The E8M0 code of block `j`, column `n`. -/
def Stratum.code (t : Stratum) (j n : Nat) : Nat := leNat (t.bytes (16384 + 64 * j + n) 1)

/-- The FP32 scale of column `n`. -/
def Stratum.colScale (t : Stratum) (n : Nat) : Num := decodeFloat 0 (leNat (t.bytes (16384 + 4 * n) 4))

/-- Exact product of two elements; integers have no negative zero. -/
def exactProd (ints : Bool) (x y : Num) : Num :=
  match x.mul y with
  | .fin n m e => .fin (n && !(ints && m == 0)) m e
  | z => z

/-- An exact sum, added one by one (05 R109). -/
def exactSum (rnd : Nat) : List Num → Num
  | [] => .fin false 0 0
  | p :: ps => ps.foldl (Num.add rnd) p

/-- The 32 elements of block `j`. -/
def blockOf {α : Type} (l : List α) (j : Nat) : List α := (l.drop (32 * j)).take 32

/-! ### Accumulation (05 R109 to R111) -/

/-- One term is added and rounded to 24 bits. -/
def accumulate (rnd : Nat) (u : Word) (a : Num) (term : Num) : Num := round24 rnd u (a.add rnd term)

/-- finalwrite, with its flags; `taint` says that an operand held a NaN or a 0xFF scale (05 R111, R112). -/
def finalWrite (x : BitVec 64) (u : Word) (a : Num) (taint : Bool) : Word × BitVec 8 :=
  let r := roundFloat 0 (slotRnd x) (slotSat x) u a
  (BitVec.ofNat 32 r.1, r.2 ||| flIf (a.isNan && !taint) flNv)

/-- The flags nx and uf of a written FP32 value against the exact result (05 R112; DEDUCED, log 15). -/
def exactFlags (exact : Num) (w : Word) : BitVec 8 :=
  let differs := !(f32 w).isNan && !(f32 w).eqv exact
  let tiny := match exact with
    | .fin _ m e => decide (m ≠ 0) && (Num.fin false m e).lt (.fin false 1 (-126))
    | _ => false
  flIf differs flNx ||| flIf (differs && tiny) flUf

/-- One element of a tile: the old value, the terms in order, and its draws by block. -/
def accElem (x : BitVec 64) (draw : Nat → Word) (old : Word) (terms : List Num) (taint : Bool) : Word × BitVec 8 :=
  let a := terms.zipIdx.foldl (fun r t => accumulate (slotRnd x) (draw t.2) r t.1) (f32 old)
  let exact := terms.foldl (Num.add (slotRnd x)) (f32 old)
  let (w, fl) := finalWrite x (draw 0xFF) a (taint || (f32 old).isNan)
  (w, (fl &&& (flNv ||| flOf)) ||| exactFlags exact w ||| flIf (f32 old).isNan flQn)

/-- One element of a tile with INT32 output: block sums added modulo 2^32, or clamped after each block (05 R111). -/
def accInt (sat : Bool) (old : Word) (sums : List Int) : Word :=
  BitVec.ofInt 32 (sums.foldl (fun a s => if sat then typeClamp 2 (a + s) else a + s) old.toInt)

/-! ### Rows (10 R209, R210) -/

/-- The flags of reading some element codes. -/
def codeFlags (fmt : Nat) (cs : List Nat) : BitVec 8 := cs.foldl (fun f c => f ||| readFlags fmt c) 0

/-- Whether a row scale or FP32 scale is NaN. -/
def nanFlag (x : Num) : BitVec 8 := flIf x.isNan flQn

/-- The scale of a row as a value: 1 where none is named (06 R123). -/
def rowScale (rs : Option Word) : Num :=
  match rs with
  | some w => f32 w
  | none => .fin false 1 0

/-- One row of MMT: the new tile row, and the flags it raises. -/
def mmtRow (x : BitVec 64) (raw : List Byte) (t : Stratum) (rs : Option Word) (old : List Word) (draw : Nat → Nat → Word) :
    List Word × BitVec 8 :=
  let a := slotA x
  let b := slotB x
  let k := kRows a b
  let kind := slotScale x
  let ints := a == 6
  let eb := k * fmtWidth a / 8
  let ac := codesIn (fmtWidth a) (raw.take eb) k
  let av := ac.map (decodeElem a)
  let bc := (List.range k).map t.row
  let blocks := List.range (k / 32)
  let rsv := rowScale rs
  let ea := fun j => (raw.getD (eb + j) 0).toNat
  let fa := decodeFloat 0 (leNat ((raw.drop eb).take 4))
  let aTaint := av.any Num.isNan || rsv.isNan || (kind == 2 && fa.isNan)
  let cols := (List.range 64).map fun n =>
    let bcol := bc.map fun r => r.getD n 0
    let bv := bcol.map (decodeElem b)
    let oldw := old.getD n 0
    if slotOut x = 8 then
      (accInt (slotSat x) oldw (blocks.map fun j => ((blockOf ac j).zip (blockOf bcol j)).foldl
        (fun (s : Int) p => s + typeInt 0 p.1 * (if b = 7 then (if p.2 = 1 then 1 else if p.2 = 3 then -1 else 0) else typeInt 0 p.2)) 0),
        codeFlags b bcol)
    else
      let scale := fun j => match kind with
        | 0 => Num.fin false 1 0
        | 1 => (e8m0 (ea j)).mul (e8m0 (t.code j n))
        | _ => fa.mul (t.colScale n)
      let terms := blocks.map fun j =>
        ((exactSum (slotRnd x) (((blockOf av j).zip (blockOf bv j)).map fun p => exactProd ints p.1 p.2)).mul (scale j)).mul rsv
      let sc := kind == 1 && blocks.any fun j => ea j == 255 || t.code j n == 255
      let qb := kind == 2 && (t.colScale n).isNan
      let (w, fl) := accElem x (draw n) oldw terms (aTaint || sc || qb || bv.any Num.isNan)
      (w, fl ||| codeFlags b bcol ||| flIf sc flSc ||| flIf qb flQn)
  let rowFl := codeFlags a ac ||| nanFlag rsv ||| flIf (kind == 2 && fa.isNan) flQn
  (cols.map (·.1), cols.foldl (fun f c => f ||| c.2) rowFl)

/-- One row of MMTX through part `q` of the transposed stratum. -/
def mmtxRow (x : BitVec 64) (q : Nat) (raw : List Byte) (t : Stratum) (rs : Option Word) (old : List Word)
    (draw : Nat → Nat → Word) : List Word × BitVec 8 :=
  let a := slotA x
  let b := slotB x
  let kind := slotScale x
  let eb := 64 * fmtWidth a / 8
  let ac := codesIn (fmtWidth a) (raw.take eb) 64
  let av := ac.map (decodeElem a)
  let rsv := rowScale rs
  let ea := fun j => (raw.getD (eb + j) 0).toNat
  let fa := decodeFloat 0 (leNat ((raw.drop eb).take 4))
  let as_ := fun j => match kind with
    | 0 => Num.fin false 1 0
    | 1 => e8m0 (ea j)
    | _ => fa
  let aTaint := av.any Num.isNan || rsv.isNan || (kind == 2 && fa.isNan) || (kind == 1 && (ea 0 == 255 || ea 1 == 255))
  let cols := (List.range 64).map fun c =>
    let k := 64 * q + c
    let bcode := t.row k
    let bv := bcode.map (decodeElem b)
    let bs := (List.range 64).map fun n => match kind with
      | 0 => Num.fin false 1 0
      | 1 => e8m0 (t.code (k / 32) n)
      | _ => t.colScale n
    let prods := (av.zip bv).zip bs |>.map fun p => (p.1.1.mul p.1.2).mul p.2
    let terms := [0, 1].map fun j => ((exactSum (slotRnd x) (blockOf prods j)).mul (as_ j)).mul rsv
    let bsNan := bs.any Num.isNan
    let (w, fl) := accElem x (draw c) (old.getD c 0) terms (aTaint || bsNan || bv.any Num.isNan)
    (w, fl ||| codeFlags b bcode ||| flIf bsNan (if kind = 1 then flSc else flQn))
  let rowFl := codeFlags a ac ||| nanFlag rsv ||| flIf (kind == 2 && fa.isNan) flQn
    ||| flIf (kind == 1 && (ea 0 == 255 || ea 1 == 255)) flSc
  (cols.map (·.1), cols.foldl (fun f c => f ||| c.2) rowFl)

/-! ### Gradient blocks (10 R211) -/

/-- One row that MMTG reads: X, dY and the row scale. -/
structure GradRow where
  xs : List Num
  dys : List Num
  rs : Num
  deriving DecidableEq, Repr

/-- A row of MMTG from its bytes, with the flags of reading it. -/
def gradRow (x : BitVec 64) (raw : List Byte) (rs : Option Word) : GradRow × BitVec 8 :=
  let cs := codesIn 16 (raw.take 256) 128
  let ds := codesIn 16 ((raw.drop 256).take 128) 64
  ({ xs := cs.map (decodeElem (slotA x)), dys := ds.map (decodeElem (slotA x)), rs := rowScale rs },
   codeFlags (slotA x) cs ||| codeFlags (slotA x) ds ||| nanFlag (rowScale rs))

/-- Row `k` of a gradient stratum after a block. -/
def gradUpdate (x : BitVec 64) (rows : List GradRow) (k : Nat) (old : List Word) (draw : Nat → Word) : List Word × BitVec 8 :=
  let cols := (List.range 64).map fun n =>
    let o := f32 (old.getD n 0)
    let parts := rows.map fun r => ((r.xs.getD k .nan).mul (r.dys.getD n .nan)).mul r.rs
    let taint := o.isNan || rows.any fun r => (r.xs.getD k .nan).isNan || (r.dys.getD n .nan).isNan || r.rs.isNan
    let (w, fl) := finalWrite x (draw n) (o.add (slotRnd x) (exactSum (slotRnd x) parts)) taint
    (w, fl ||| nanFlag o)
  (cols.map (·.1), cols.foldl (fun f c => f ||| c.2) 0)

/-! ### Tile rows in memory (10 R215) -/

/-- Whether ACCLD accepts a slot. -/
def accldSlot (x : BitVec 64) : Bool :=
  slotScale x == 0 && ((decide (slotA x ≤ 2) && slotOut x == 0) || (slotA x == 8 && slotOut x == 8))

/-- Whether ACCST accepts a slot. -/
def accstSlot (x : BitVec 64) : Bool :=
  slotScale x == 0 && ((slotA x == 0 && decide (slotOut x ≤ 2)) || (slotA x == 8 && slotOut x == 8))

/-- The tile row in some bytes. -/
def accldRow (x : BitVec 64) (bs : List Byte) : List Word :=
  (codesIn (fmtWidth (slotA x)) bs 64).map fun c =>
    if slotA x = 8 then BitVec.ofNat 32 c else toF32 0 false 0 (decodeFloat (slotA x) c)

/-- The bytes of a tile row, with the flags of its conversion. -/
def accstRow (x : BitVec 64) (row : List Word) (draw : Nat → Word) : List Byte × BitVec 8 :=
  let es := (List.range 64).map fun n =>
    let w := row.getD n 0
    if slotOut x = 0 then (leBytes 4 w.toNat, nanFlag (f32 w))
    else if slotOut x = 8 then (leBytes 4 w.toNat, 0)
    else
      let r := roundFloat (slotOut x) (slotRnd x) (slotSat x) (draw n) (f32 w)
      (leBytes 2 r.1, r.2 ||| nanFlag (f32 w))
  (es.flatMap (·.1), es.foldl (fun f e => f ||| e.2) 0)

end Sys2Proof.Machine
end

