-- ==== Sys2Proof/Machine/Strata.lean ====
section
/-! DEFINITION. The strata array: its owner, the issue order of class X, residency, and the instructions at issue (06 R113
to R125; 10 R197 to R218). -/
namespace Sys2Proof.Machine

/-! ### What a class X operation touches (10 R200) -/

/-- The fields of a class X instruction. -/
def xFieldsOf : Instr → Option XF
  | .sload _ f => some f
  | .sstore _ f => some f
  | .sevict _ f => some f
  | .sstat _ f => some f
  | .mmt _ f => some f
  | .mmtx _ f => some f
  | .mmtg _ f => some f
  | .gzero _ f => some f
  | .gload _ f => some f
  | .gstore _ f => some f
  | .accz _ f => some f
  | .accld _ f => some f
  | .accst _ f => some f
  | .accmv _ f => some f
  | .tagset _ f => some f
  | .tagcnt _ f => some f
  | _ => none

/-- The tile that an instruction reads or writes. -/
def xTile : Instr → Option Nat
  | .mmt _ f => some f.acc.toNat
  | .mmtx _ f => some f.acc.toNat
  | .accz _ f => some f.acc.toNat
  | .accld _ f => some f.acc.toNat
  | .accst _ f => some f.acc.toNat
  | .accmv _ f => some f.acc.toNat
  | _ => none

/-- The gradient strata that an instruction reads or writes. -/
def xGrads : Instr → List Nat
  | .mmtg _ f => if f.tagged then List.range 8 else [f.acc.toNat]
  | .gzero _ f => [f.acc.toNat]
  | .gload _ f => [f.acc.toNat]
  | .gstore _ f => [f.acc.toNat]
  | _ => []

/-- The stratum whose residency an SLOAD or SEVICT changes. -/
def xChanges : Instr → Option Nat
  | .sload _ f => some f.stratum.toNat
  | .sevict _ f => some f.stratum.toNat
  | _ => none

/-- Whether an instruction is a reader of a stratum (06 R119). -/
def xReads (i : Instr) (j : Nat) : Bool :=
  match i with
  | .mmt _ f => f.tagged || f.stratum.toNat == j
  | .mmtx _ f => f.tagged || f.stratum.toNat == j
  | _ => false

/-- Whether an instruction holds its warp (10 R201). -/
def xHeld : Instr → Bool
  | .mmt _ _ => true
  | .mmtx _ _ => true
  | .mmtg _ _ => true
  | _ => false

/-- Whether an instruction counts as a tile operation (07 R137). -/
def xCounted : Instr → Bool
  | .sload _ _ => true
  | .sstore _ _ => true
  | .gload _ _ => true
  | .gstore _ _ => true
  | .accld _ _ => true
  | .accst _ _ => true
  | i => xHeld i

/-- The number of rows or units of an operation. -/
def xTotal (i : Instr) (fmt : BitVec 64) (copy : Option Stratum) : Nat :=
  match i with
  | .sload _ _ => imageUnits (slotB fmt) (slotScale fmt)
  | .sstore _ _ => match copy with
    | some t => imageUnits t.bfmt t.scale
    | none => 0
  | .gload _ _ => 128
  | .gstore _ _ => 128
  | i => match xFieldsOf i with
    | some f => f.rows.toNat
    | none => 0

/-! ### The array -/

/-- A stratum. -/
def Core.stratum (k : Core) (j : Nat) : Stratum := k.strata.getD j Stratum.reset

/-- A row of a tile. -/
def Core.tileRow (k : Core) (a m : Nat) : List Word := k.tiles.getD (256 * a + m) (List.replicate 64 0)

/-- A row of a gradient stratum. -/
def Core.gradRow (k : Core) (g m : Nat) : List Word := k.grads.getD (128 * g + m) (List.replicate 64 0)

/-- Changes an operation of a core's issue order. -/
def State.modX (s : State) (c n : Nat) (f : XOp → XOp) : State :=
  s.modCore c fun k =>
    match k.xq.get? n with
    | some o => { k with xq := k.xq.put n (f o) }
    | none => k

/-- Changes a stratum of a core. -/
def State.modStratum (s : State) (c j : Nat) (f : Stratum → Stratum) : State :=
  s.modCore c fun k => { k with strata := k.strata.put j (f (k.stratum j)) }

/-- A context takes an array without an owner, and finds it empty (06 R114). -/
def Core.takeArray (k : Core) (x : Nat) : Core :=
  if k.owner = some x then k else { k with owner := some x, arrayLeft := false, strata := [], tiles := [], grads := [] }

/-- Ends the stall of the warps that wait for the array. -/
def Core.wakeArray (k : Core) : Core :=
  { k with warps := k.warps.map fun (w : Nat × Warp) => (w.1, w.2.clearStall fun t => t == .array) }

/-- An array that nobody owns and no operation uses any more, free to be taken. -/
def Core.clearArray (k : Core) : Core :=
  Core.wakeArray { k with owner := none, arrayLeft := false, strata := [], tiles := [], grads := [] }

/-- The owner gives up the array once it holds no warp on the core (06 R114). DESIGN CHOICE (log 96): where operations that it has
left behind are under way, nobody takes the array before they have ended. -/
def Core.releaseArray (k : Core) : Core :=
  match k.owner with
  | none => if k.arrayLeft && k.xq.isEmpty then k.clearArray else k
  | some x =>
    if k.warps.any fun w => w.2.ctx == x then k
    else if k.xq.isEmpty then k.clearArray
    else { k with owner := none, arrayLeft := true }

/-- The state word of SSTAT (06 R118). -/
def Core.stratumWord (k : Core) : Word :=
  BitVec.ofNat 32 ((List.range 8).foldl (fun n j => n + 4 ^ j * (match (k.stratum j).state with
    | .empty => 0
    | .loading => 1
    | .resident => 2
    | .draining => 3)) 0)

/-! ### The issue order (06 R119, R120; 10 R200) -/

/-- The operations before number `n`. -/
def Core.before (k : Core) (n : Nat) : List XOp := (k.xq.filter fun o => decide (o.1 < n)).map (·.2)

/-- Whether an SLOAD or SEVICT of stratum `j` before number `n` has not ended. -/
def Core.changing (k : Core) (n j : Nat) : Bool := (k.before n).any fun o => xChanges o.instr == some j

/-- Whether a reader of stratum `j` before number `n` has not ended. -/
def Core.hasReader (k : Core) (n j : Nat) : Bool := (k.before n).any fun o => xReads o.instr j

/-- Whether an earlier writer of a tile has finished with a row (10 R216). -/
def XOp.pastRow (o : XOp) (row : Nat) : Bool :=
  match o.instr with
  | .accst _ _ => true
  | .accmv _ _ => true
  | i => decide (row < o.units) || decide (xTotal i o.fmt o.copy ≤ row)

/-- Whether an operation's place in the issue order has come, as far as tiles and gradient strata go. -/
def Core.placeCome (k : Core) (n : Nat) (o : XOp) : Bool :=
  (k.before n).all fun p =>
    (match xTile o.instr with
      | none => true
      | some a => xTile p.instr != some a || (match o.instr with
        | .accmv _ _ => p.pastRow o.rs.toNat
        | _ => false))
    && (xGrads o.instr).all fun g => !(xGrads p.instr).contains g

/-- The strata that are non-resident to an instruction that issues now: those whose last change is an SEVICT, and EMPTY
ones that no SLOAD is to fill (06 R120). -/
def Core.nonResident (k : Core) : List Nat :=
  (List.range 8).filter fun j =>
    match (k.xq.filter fun o => xChanges o.2.instr == some j).getLast? with
    | some (_, o) => match o.instr with
      | .sevict _ _ => true
      | _ => false
    | none => (k.stratum j).state == .empty

/-! ### Ending an operation -/

/-- Whether a stall of a warp ends when one of its counters falls. -/
def StallKind.onCounts (w : Warp) : StallKind → Bool
  | .counter => true
  | .classCounters l s c t => w.countersAt l s c t
  | _ => false

/-- Removes an operation from its core's issue order; with the last one, an array that its owner has given up is free (06
R114). -/
def State.deleteX (s : State) (c n : Nat) : State :=
  s.modCore c fun k => Core.releaseArray { k with xq := k.xq.del n }

/-- A warp one of whose operations, of class X or of an engine, has ended with its status in a name, 511 for none: nothing has
read it yet (11 R225; 15 R281). -/
def Warp.endOp (w : Warp) (tile : Bool) (name : BitVec 9) : Warp :=
  { w with unread := (w.unread.filter fun (u : Bool × Nat) =>
      u != (tile, name.toNat) && (u.2 == 511 || u.2 != name.toNat)) ++ [(tile, name.toNat)] }

/-- A warp one of whose tile operations has ended: its counter falls, and the status has still to be read. -/
def Warp.endTile (w : Warp) (d : Dest) : Warp :=
  let w1 := { w.endOp true d.name with tiles := w.tiles - 1 }
  w1.clearStall (StallKind.onCounts w1)

/-- Removes an operation, lowers the tile counter, and writes its status word (10 R201). -/
def State.endX (s : State) (c n : Nat) (o : XOp) (status : Word) : State :=
  let s1 := s.deleteX c n
  let s2 := s1.modWarp c o.slot fun w => if w.wid != o.wid || !xCounted o.instr then w else w.endTile o.dest
  if o.dest.name = 511 then s2 else s2.completeOwed c o.slot o.wid o.dest 1 fun _ => [status]

/-- Ends an asynchronous operation; ACCST reports its flags. -/
def State.endAsync (s : State) (c n : Nat) (o : XOp) (state : Nat) (code : BitVec 8) : State :=
  let s1 := s.modWarp c o.slot fun w => if w.wid = o.wid then w.orFlags o.flags else w
  let st := if state = 0 ∧ o.corrected then 1 else state
  s1.endX c n o (statusWord o.units code st)

/-- The number of the last SLOAD or SEVICT of a stratum before an operation. -/
def Core.lastChange (k : Core) (n j : Nat) : Option Nat :=
  ((k.xq.filter fun p => decide (p.1 < n) && xChanges p.2.instr == some j).getLast?).map (·.1)

/-- Strata that a failed SLOAD leaves EMPTY are non-resident to the instructions that waited for it (06 R119, R120; 10
R209). -/
def State.loadFailed (s : State) (c n j : Nat) : State :=
  let s1 := s.modStratum c j fun _ => Stratum.reset
  let mark := fun (k : Core) (o : Nat × XOp) =>
    if k.lastChange o.1 j = some n then (o.1, { o.2 with nonres := o.2.nonres ++ [j] }) else o
  s1.modCore c fun k => { k with xq := k.xq.map (mark k) }

/-! ### Starting operations -/

/-- Starts an SLOAD: its stratum is LOADING. -/
def State.startLoad (s : State) (c n j : Nat) (o : XOp) : State :=
  (s.modStratum c j fun _ => { state := .loading, bfmt := slotB o.fmt, scale := slotScale o.fmt, image := [] }).modX c n
    fun o => { o with stage := .running }

/-- What an SLOAD or SEVICT whose turn on its stratum has come does (06 R119). -/
def State.changeStratum (s : State) (c n j : Nat) (o : XOp) : State :=
  let k := s.core c
  let apply := fun (s : State) => match o.instr with
    | .sevict _ _ => (s.modStratum c j fun _ => Stratum.reset).endX c n o 0
    | _ => s.startLoad c n j o
  match (k.stratum j).state with
  | .empty => apply s
  | .loading => s
  | _ => if k.hasReader n j then s.modStratum c j fun t => { t with state := .draining } else apply s

/-- The words that ACCMV writes: columns 2i and 2i + 1 in lane i (10 R216). -/
def mvWords (row : List Word) (lane : Nat) : List Word := [row.getD (2 * lane) 0, row.getD (2 * lane + 1) 0]

/-- Starts, or performs at once, a queued operation whose place in the issue order has come. -/
def State.startX (s : State) (c n : Nat) : State :=
  let k := s.core c
  match k.xq.get? n with
  | none => s
  | some o =>
    if o.stage != .queued then s
    else match o.instr with
    | .sload _ f => if k.changing n f.stratum.toNat then s else s.changeStratum c n f.stratum.toNat o
    | .sevict _ f => if k.changing n f.stratum.toNat then s else s.changeStratum c n f.stratum.toNat o
    | .sstore _ f =>
      if k.changing n f.stratum.toNat then s
      else
        let t := k.stratum f.stratum.toNat
        if t.state = .resident then s.modX c n fun o => { o with stage := .running, copy := some t }
        else s.endAsync c n o 2 cTagMiss
    | .gzero _ f =>
      if !k.placeCome n o then s
      else (s.modCore c fun k => { k with grads := k.grads.filter fun r => r.1 / 128 != f.acc.toNat }).endX c n o 0
    | .accz _ f =>
      if !k.placeCome n o then s
      else (s.modCore c fun k => { k with tiles := k.tiles.filter fun r =>
        !(r.1 / 256 == f.acc.toNat && decide (r.1 % 256 < f.rows.toNat)) }).endX c n o 0
    | .accmv _ f =>
      if !k.placeCome n o then s
      else (s.deleteX c n).completeOwed c o.slot o.wid o.dest 2
        (mvWords (k.tileRow f.acc.toNat o.rs.toNat))
    | _ => if k.placeCome n o then s.modX c n fun o => { o with stage := .running } else s

/-- Starts what may start, in issue order. -/
def State.advanceX (s : State) (c : Nat) : State := ((s.core c).xq.map (·.1)).foldl (fun s n => s.startX c n) s

/-! ### Fields (04 R85; 10 R204) -/

/-- An address pair. -/
def xPair (f : XF) : Bool := uni f.aaddr && f.aaddr.toNat % 2 == 0

/-- A uniform register or 511. -/
def uniOrNone (n : BitVec 9) : Bool := nul n || uni n

/-- Rows 1 to 256. -/
def rowsOk (f : XF) : Bool := decide (1 ≤ f.rows.toNat) && decide (f.rows.toNat ≤ 256)

/-- No tags and no policy. -/
def untagged (f : XF) : Bool := nul f.tagaddr && !f.skip && !f.tagged

/-- A tile number. -/
def tileOk (f : XF) : Bool := decide (f.acc.toNat ≤ 3)

/-- The fields of the entries that move a stratum. -/
def stratumFields (h : Hdr) (f : XF) : Bool :=
  xPair f && untagged f && nul f.rscale && f.acc == 0 && f.rows == 0 && destOk h 1 []

/-- The fields of the entries that name no operand in memory. -/
def bareFields (f : XF) : Bool := nul f.aaddr && untagged f && nul f.rscale && f.fslot == 0

/-- MMT's and MMTX's fields. -/
def matrixFields (h : Hdr) (f : XF) : Bool :=
  xPair f && tileOk f && rowsOk f && uniOrNone f.rscale &&
  (if f.tagged then uni f.tagaddr && f.stratum == 0 else nul f.tagaddr && !f.skip) && destOk h 1 []

/-- MMTG's fields. -/
def gradFields (h : Hdr) (f : XF) : Bool :=
  xPair f && rowsOk f && uniOrNone f.rscale && !f.skip && f.stratum == 0 &&
  (if f.tagged then uni f.tagaddr else nul f.tagaddr) && destOk h 1 []

/-- ACCLD's and ACCST's fields. -/
def tileFields (h : Hdr) (f : XF) : Bool :=
  xPair f && untagged f && nul f.rscale && tileOk f && f.stratum == 0 && rowsOk f && destOk h 1 []

/-! ### Checks at issue (10 R197, R198) -/

/-- The 64-bit value of the address pair. -/
def Warp.xBase (w : Warp) (f : XF) : BitVec 64 := if nul f.aaddr then 0 else w.kpair f.aaddr

/-- A scratchpad operand that fails: SCRATCH_RANGE with its address. -/
def scratchRaise (e : Env) (a : Word) : Raise :=
  { code := cScratchRange, lanes := e.frag, addr := a.zeroExtend 64, info := 0 }

/-- The first scratchpad operand of `n` bytes that is malformed or not owned. -/
def State.scratchOperands (s : State) (e : Env) : List (Word × Nat) → Option Raise
  | [] => none
  | (a, n) :: rest => if (s.markedAt e.core e.w.ctx a n).isNone then some (scratchRaise e a) else State.scratchOperands s e rest

/-- The step-4 checks of class X in their order: convergence, the slot's combination, alignment, scratchpad operands, global
and lode operands. -/
def State.xCheck (s : State) (e : Env) (combo align : Bool) (scratch : List (Word × Nat)) (range : Option Raise) :
    Option Raise :=
  match converged e with
  | some r => some r
  | none =>
    if !combo then some (fieldRaise e.frag)
    else if !align then some (fieldRaise e.frag)
    else match s.scratchOperands e scratch with
      | some r => some r
      | none => range

/-- The PERM fault of a global operand whose high bits are not zero. -/
def globalRaise (e : Env) (base : BitVec 64) (k : AccKind) : Option Raise :=
  if base.extractLsb' 48 16 = 0 then none
  else some { code := cPerm, lanes := e.frag, addr := base, info := memInfo k 255 }

/-- The scratchpad operands of a matrix instruction. -/
def matrixScratch (e : Env) (f : XF) : List (Word × Nat) :=
  (if f.tagged then [(e.w.word f.tagaddr 0, f.rows.toNat)] else [])
  ++ (if nul f.rscale then [] else [(e.w.word f.rscale 0, 4 * f.rows.toNat)])

/-- Alignment of a matrix instruction's operands. -/
def matrixAligned (e : Env) (f : XF) : Bool :=
  (e.w.xBase f).toNat % 16 == 0 && (nul f.rscale || (e.w.word f.rscale 0).toNat % 4 == 0)

/-- Why a class X instruction does not issue: another context owns the array, the tile counter is full, or, of one that reads or
writes memory, a scratchpad access of the warp is still to be performed (06 R114; 07 R137; 10 R202; 15 R275). -/
def State.xStall (s : State) (counted scratch : Bool) (e : Env) : Option StallKind :=
  match (s.core e.core).owner with
  | some x => if x != e.w.ctx then some .array
      else if counted && decide (63 ≤ e.w.tiles) then some .counter
      else if scratch && e.w.spadBusy then some .ordering else none
  | none =>
    if (s.core e.core).arrayLeft then some .array
    else if counted && decide (63 ≤ e.w.tiles) then some .counter
    else if scratch && e.w.spadBusy then some .ordering else none

/-- The names an instruction of class X reads. -/
def xPeeks (f : XF) : List Nat := rd f.aaddr 2 ++ rd f.tagaddr 1 ++ rd f.rscale 1

/-- Whether a slot rounds stochastically, so that k63 is read at issue (05 R104). -/
def stochastic (x : BitVec 64) : Bool := slotRnd x == 4

/-! ### Issue -/

/-- Puts an operation into the issue order, with its destination owed. A held instruction keeps its fragment where it is;
every other moves on. What may start, starts (10 R200, R201). -/
def State.enqueue (s : State) (e : Env) (h : Hdr) (i : Instr) (f : XF) (dests : List Nat) (row : Word) : State :=
  let k := (s.core e.core).takeArray e.w.ctx
  let pend := xHeld i && e.w.mrow.getLsbD 31
  let o : XOp :=
    { slot := e.slot, wid := e.w.wid, ctx := e.w.ctx, instr := i, pc := e.pc, base := e.w.xBase f,
      tag := if nul f.tagaddr then 0 else e.w.word f.tagaddr 0
      rs := row, dest := { name := h.dest, count := h.count, lanes := e.act }, fmt := s.slotOf e.w f.fslot, seed := e.w.seed,
      stage := .queued
      units := if pend then (e.w.mrow.extractLsb' 0 9).toNat else 0
      contrib := if pend then (e.w.mrow.extractLsb' 16 9).toNat else 0
      skipped := pend && e.w.mrow.getLsbD 25
      corrected := false, staleUnit := none, nonres := k.nonResident, flags := if pend then e.w.mflags else 0, copy := none, row := [], got := [] }
  let s1 := s.setCore e.core { k with xq := k.xq.put k.xseq o, xseq := k.xseq + 1 }
  let s2 := s1.modWarp e.core e.slot fun w =>
    let w1 := w.bindPending e.act dests h.count
    let w2 := { w1 with tiles := if xCounted i then w1.tiles + 1 else w1.tiles }
    if xHeld i then { w2 with stall := some { kind := .held, since := s.cycle } } else w2.advance e.frag
  s2.advanceX e.core

/-- The value of the row-scale register, or zero. -/
def Warp.xRs (w : Warp) (f : XF) : Word := if nul f.rscale then 0 else w.word f.rscale 0

/-- The ranges of a stratum image that an SLOAD reads. -/
def lodeImageBad (s : State) (e : Env) (f : XF) (x : BitVec 64) : Bool :=
  let a := (e.w.xBase f).toNat
  s.lodeRangeBad e.core e.w.ctx a (weightBytes (slotB x)) ||
  (slotScale x != 0 && s.lodeRangeBad e.core e.w.ctx (a + 16384) (scaleBytes (slotB x) (slotScale x)))

/-- What SLOAD asks of its issue. -/
def needsSload (h : Hdr) (f : XF) (s : State) : Needs :=
  let dests := constituents h.dest 1
  { fields := stratumFields h f && (f.stride == 0 || f.stride == 4)
    peeks := xPeeks f, dests := dests, count := h.count
    entry := fun e =>
      let x := s.slotOf e.w f.fslot
      let base := e.w.xBase f
      s.xCheck e (decide (1 ≤ slotB x) && decide (slotB x ≤ 7) && slotScale x != 3) (base.toNat % 256 == 0) []
        (if f.stride = 4 then
          (if base.extractLsb' 48 16 != 0 || lodeImageBad s e f x then
            some { code := cPerm, lanes := e.frag, addr := base, info := memInfo .read 255 } else none)
        else globalRaise e base .read)
    stalls := s.xStall true true }

/-- SLOAD (10 R205). -/
def execSload (h : Hdr) (f : XF) (s : State) : Host.Outcome State Fault Refusal :=
  let dests := constituents h.dest 1
  issue s h (.sload h f) (needsSload h f s)
    fun e s' => s'.enqueue e h (.sload h f) f dests 0

/-- What SSTORE asks of its issue. -/
def needsSstore (h : Hdr) (f : XF) (s : State) : Needs :=
  let dests := constituents h.dest 1
  { fields := stratumFields h f && f.stride == 0 && f.fslot == 0
    peeks := xPeeks f, dests := dests, count := h.count
    entry := fun e => s.xCheck e true ((e.w.xBase f).toNat % 256 == 0) [] (globalRaise e (e.w.xBase f) .write)
    stalls := s.xStall true true }

/-- SSTORE (10 R206). -/
def execSstore (h : Hdr) (f : XF) (s : State) : Host.Outcome State Fault Refusal :=
  let dests := constituents h.dest 1
  issue s h (.sstore h f) (needsSstore h f s)
    fun e s' => s'.enqueue e h (.sstore h f) f dests 0

/-- What SEVICT asks of its issue. -/
def needsSevict (h : Hdr) (f : XF) (s : State) : Needs :=
  { fields := bareFields f && f.acc == 0 && f.rows == 0 && f.stride == 0 && destNone h
    entry := fun e => s.xCheck e true true [] none
    stalls := s.xStall false false }

/-- SEVICT (10 R207). -/
def execSevict (h : Hdr) (f : XF) (s : State) : Host.Outcome State Fault Refusal :=
  issue s h (.sevict h f) (needsSevict h f s)
    fun e s' => s'.enqueue e h (.sevict h f) f [] 0

/-- What SSTAT asks of its issue. -/
def needsSstat (h : Hdr) (f : XF) (s : State) : Needs :=
  let dests := constituents h.dest 1
  { fields := bareFields f && f.acc == 0 && f.stratum == 0 && f.rows == 0 && f.stride == 0 && destOk h 1 []
    dests := dests, count := h.count
    entry := fun e => s.xCheck e true true [] none
    stalls := s.xStall false false }

/-- SSTAT: the states as they stand, LOADING and DRAINING in progress included (10 R208). -/
def execSstat (h : Hdr) (f : XF) (s : State) : Host.Outcome State Fault Refusal :=
  let dests := constituents h.dest 1
  issue s h (.sstat h f) (needsSstat h f s)
    fun e s' =>
      let s1 := s'.modCore e.core fun k => k.takeArray e.w.ctx
      finish e dests h.count (fun _ => [(s1.core e.core).stratumWord]) s1

/-- The entry checks of MMT and MMTX. -/
def State.matrixEntry (s : State) (f : XF) (combo : BitVec 64 → BitVec 64 → Bool) (high : Nat) (e : Env) : Option Raise :=
  let x := s.slotOf e.w f.fslot
  let base := e.w.xBase f
  s.xCheck e (combo x base) (matrixAligned e f) (matrixScratch e f)
    (if base.toNat / 2 ^ high = 0 then none
     else some { code := cPerm, lanes := e.frag, addr := base, info := memInfo .read 255 })

/-- The names that a matrix instruction looks at, k63 among them when its slot rounds stochastically. Any fragment's slot
is the launch's own. -/
def State.matrixPeeks (s : State) (f : XF) : List Nat :=
  xPeeks f ++ (match s.warp? s.sel.core s.sel.slot with
    | some w => if stochastic (s.slotOf w f.fslot) then [447] else []
    | none => [])

/-- What MMT asks of its issue. -/
def needsMmt (h : Hdr) (f : XF) (s : State) : Needs :=
  let dests := constituents h.dest 1
  { fields := matrixFields h f, held := true
    peeks := s.matrixPeeks f, dests := dests, count := h.count
    entry := s.matrixEntry f (fun x _ => mmtPair x && (slotOut x != 8 || nul f.rscale)) 48
    stalls := s.xStall true true }

/-- MMT (10 R209). -/
def execMmt (h : Hdr) (f : XF) (s : State) : Host.Outcome State Fault Refusal :=
  let dests := constituents h.dest 1
  issue s h (.mmt h f) (needsMmt h f s)
    fun e s' => s'.enqueue e h (.mmt h f) f dests (e.w.xRs f)

/-- What MMTX asks of its issue. -/
def needsMmtx (h : Hdr) (f : XF) (s : State) : Needs :=
  let dests := constituents h.dest 1
  { fields := matrixFields h f, held := true
    peeks := s.matrixPeeks f, dests := dests, count := h.count
    entry := s.matrixEntry f (fun x base =>
      mmtxPair x && decide ((base.extractLsb' 48 3).toNat < kRows (slotA x) (slotB x) / 64)) 51
    stalls := s.xStall true true }

/-- MMTX (10 R210): the part lies in bits [50:48] of the address pair. -/
def execMmtx (h : Hdr) (f : XF) (s : State) : Host.Outcome State Fault Refusal :=
  let dests := constituents h.dest 1
  issue s h (.mmtx h f) (needsMmtx h f s)
    fun e s' => s'.enqueue e h (.mmtx h f) f dests (e.w.xRs f)

/-- What MMTG asks of its issue. -/
def needsMmtg (h : Hdr) (f : XF) (s : State) : Needs :=
  let dests := constituents h.dest 1
  { fields := gradFields h f, held := true
    peeks := s.matrixPeeks f, dests := dests, count := h.count
    entry := s.matrixEntry f (fun x _ => mmtgPair x) 48
    stalls := s.xStall true true }

/-- MMTG (10 R211). -/
def execMmtg (h : Hdr) (f : XF) (s : State) : Host.Outcome State Fault Refusal :=
  let dests := constituents h.dest 1
  issue s h (.mmtg h f) (needsMmtg h f s)
    fun e s' => s'.enqueue e h (.mmtg h f) f dests (e.w.xRs f)

/-- What GZERO asks of its issue. -/
def needsGzero (h : Hdr) (f : XF) (s : State) : Needs :=
  { fields := bareFields f && f.stratum == 0 && f.rows == 0 && f.stride == 0 && destNone h
    entry := fun e => s.xCheck e true true [] none
    stalls := s.xStall false false }

/-- GZERO (10 R213). -/
def execGzero (h : Hdr) (f : XF) (s : State) : Host.Outcome State Fault Refusal :=
  issue s h (.gzero h f) (needsGzero h f s)
    fun e s' => s'.enqueue e h (.gzero h f) f [] 0

/-- The fields of GLOAD and GSTORE. -/
def gradMoveFields (h : Hdr) (f : XF) : Bool :=
  xPair f && untagged f && nul f.rscale && f.fslot == 0 && f.stratum == 0 && f.rows == 0 && f.stride == 0 && destOk h 1 []

/-- What GLOAD asks of its issue. -/
def needsGload (h : Hdr) (f : XF) (s : State) : Needs :=
  let dests := constituents h.dest 1
  { fields := gradMoveFields h f
    peeks := xPeeks f, dests := dests, count := h.count
    entry := fun e => s.xCheck e true ((e.w.xBase f).toNat % 256 == 0) [] (globalRaise e (e.w.xBase f) .read)
    stalls := s.xStall true true }

/-- GLOAD (10 R213). -/
def execGload (h : Hdr) (f : XF) (s : State) : Host.Outcome State Fault Refusal :=
  let dests := constituents h.dest 1
  issue s h (.gload h f) (needsGload h f s)
    fun e s' => s'.enqueue e h (.gload h f) f dests 0

/-- What GSTORE asks of its issue. -/
def needsGstore (h : Hdr) (f : XF) (s : State) : Needs :=
  let dests := constituents h.dest 1
  { fields := gradMoveFields h f
    peeks := xPeeks f, dests := dests, count := h.count
    entry := fun e => s.xCheck e true ((e.w.xBase f).toNat % 256 == 0) [] (globalRaise e (e.w.xBase f) .write)
    stalls := s.xStall true true }

/-- GSTORE (10 R213). -/
def execGstore (h : Hdr) (f : XF) (s : State) : Host.Outcome State Fault Refusal :=
  let dests := constituents h.dest 1
  issue s h (.gstore h f) (needsGstore h f s)
    fun e s' => s'.enqueue e h (.gstore h f) f dests 0

/-- What ACCZ asks of its issue. -/
def needsAccz (h : Hdr) (f : XF) (s : State) : Needs :=
  { fields := bareFields f && tileOk f && f.stratum == 0 && rowsOk f && f.stride == 0 && destNone h
    entry := fun e => s.xCheck e true true [] none
    stalls := s.xStall false false }

/-- ACCZ (10 R214). -/
def execAccz (h : Hdr) (f : XF) (s : State) : Host.Outcome State Fault Refusal :=
  issue s h (.accz h f) (needsAccz h f s)
    fun e s' => s'.enqueue e h (.accz h f) f [] 0

/-- What ACCLD asks of its issue. -/
def needsAccld (h : Hdr) (f : XF) (s : State) : Needs :=
  let dests := constituents h.dest 1
  { fields := tileFields h f
    peeks := xPeeks f, dests := dests, count := h.count
    entry := fun e => s.xCheck e (accldSlot (s.slotOf e.w f.fslot)) ((e.w.xBase f).toNat % 16 == 0) []
      (globalRaise e (e.w.xBase f) .read)
    stalls := s.xStall true true }

/-- ACCLD (10 R215). -/
def execAccld (h : Hdr) (f : XF) (s : State) : Host.Outcome State Fault Refusal :=
  let dests := constituents h.dest 1
  issue s h (.accld h f) (needsAccld h f s)
    fun e s' => s'.enqueue e h (.accld h f) f dests 0

/-- What ACCST asks of its issue. -/
def needsAccst (h : Hdr) (f : XF) (s : State) : Needs :=
  let dests := constituents h.dest 1
  { fields := tileFields h f
    peeks := s.matrixPeeks f, dests := dests, count := h.count
    entry := fun e => s.xCheck e (accstSlot (s.slotOf e.w f.fslot)) ((e.w.xBase f).toNat % 16 == 0) []
      (globalRaise e (e.w.xBase f) .write)
    stalls := s.xStall true true }

/-- ACCST (10 R215). -/
def execAccst (h : Hdr) (f : XF) (s : State) : Host.Outcome State Fault Refusal :=
  let dests := constituents h.dest 1
  issue s h (.accst h f) (needsAccst h f s)
    fun e s' => s'.enqueue e h (.accst h f) f dests 0

/-- The row that ACCMV names. -/
def mvRow (w : Warp) (f : XF) : Word := if nul f.rscale then f.stride.zeroExtend 32 else w.word f.rscale 0

/-- What ACCMV asks of its issue. -/
def needsAccmv (h : Hdr) (f : XF) (s : State) : Needs :=
  let dests := constituents h.dest 2
  { fields := nul f.aaddr && untagged f && uniOrNone f.rscale && f.fslot == 0 && tileOk f && f.stratum == 0 && f.rows == 0 &&
      (if nul f.rscale then f.stride.extractLsb' 8 8 == 0 else f.stride == 0) && vec h.dest && destOk h 2 []
    peeks := xPeeks f, dests := dests, count := h.count
    entry := fun e => s.xCheck e (decide ((mvRow e.w f).toNat < 256)) true [] none
    stalls := s.xStall false false }

/-- ACCMV (10 R216). -/
def execAccmv (h : Hdr) (f : XF) (s : State) : Host.Outcome State Fault Refusal :=
  let dests := constituents h.dest 2
  issue s h (.accmv h f) (needsAccmv h f s)
    fun e s' => s'.enqueue e h (.accmv h f) f dests (mvRow e.w f)

/-! ### Tags (10 R217, R218) -/

/-- The tag byte that TAGSET writes for a word of AMAXP. -/
def tagByte (w : Nat) (th : Option Word) : Byte :=
  let i := 0xFFFFFFFF - w % 2 ^ 32
  let key : Word := BitVec.ofNat 32 (w / 2 ^ 32)
  let sc := if key.getLsbD 31 then key ^^^ 0x80000000 else ~~~key
  let ok := w != 0 && decide (i ≤ 7) && (match th with
    | none => true
    | some t => !(f32 sc).isNan && !(f32 t).isNan && !(f32 sc).lt (f32 t))
  if ok then BitVec.ofNat 8 (8 + i) else 0

/-- Writes the tag bytes of rows `m` up. -/
def State.setTags (s : State) (src dst stride : Nat) (th : Option Word) : Nat → State
  | 0 => s
  | n + 1 =>
    let s1 := State.setTags s src dst stride th n
    { s1 with spad := s1.spad.write (dst + n) (tagByte (s1.spad.nat (src + 16 * stride * n) 8) th) }

/-- The bytes that TAGSET reads, from its source up. -/
def tagSpan (f : XF) : Nat := 16 * f.stride.toNat * (f.rows.toNat - 1) + 8

/-- What TAGSET asks of its issue. -/
def needsTagset (h : Hdr) (f : XF) (s : State) : Needs :=
  { fields := xPair f && uni f.tagaddr && uniOrNone f.rscale && f.fslot == 0 && f.acc == 0 && !f.skip && f.tagged &&
      f.stratum == 0 && rowsOk f && destNone h
    peeks := xPeeks f
    entry := fun e =>
      let base := e.w.xBase f
      let src := base.extractLsb' 0 32
      s.xCheck e true (src.toNat % 8 == 0) ([(e.w.word f.tagaddr 0, f.rows.toNat), (src, tagSpan f)])
        (if base.extractLsb' 32 32 = 0 then none else some (scratchRaise e src))
    stalls := s.xStall false true }

/-- TAGSET: its bytes are written before the warp issues again (10 R217). -/
def execTagset (h : Hdr) (f : XF) (s : State) : Host.Outcome State Fault Refusal :=
  issue s h (.tagset h f) (needsTagset h f s)
    fun e s' =>
      let s1 := s'.modCore e.core fun k => k.takeArray e.w.ctx
      let at_ := fun (a : Word) => ((markedTarget e.core a).map fun t => spadAt t.1 t.2).getD 0
      let src := at_ ((e.w.xBase f).extractLsb' 0 32)
      let dst := at_ (e.w.word f.tagaddr 0)
      let th := if nul f.rscale then none else some (e.w.word f.rscale 0)
      (s1.setTags src dst f.stride.toNat th f.rows.toNat).modWarp e.core e.slot fun w => w.advance e.frag

/-- The number of valid tags among some bytes, of one stratum or of all. -/
def tagCount (tags : List Byte) (j : Option Nat) : Nat :=
  (tags.filter fun t => t.getLsbD 3 && (match j with
    | some j => (t.extractLsb' 0 3).toNat == j
    | none => true)).length

/-- What TAGCNT asks of its issue. -/
def needsTagcnt (h : Hdr) (f : XF) (s : State) : Needs :=
  let dests := constituents h.dest 1
  { fields := nul f.aaddr && uni f.tagaddr && nul f.rscale && f.fslot == 0 && f.acc == 0 && !f.skip && f.tagged &&
      f.stratum == 0 && rowsOk f && f.stride == 0 && destOk h 1 []
    peeks := xPeeks f, dests := dests, count := h.count
    entry := fun e => s.xCheck e true true [(e.w.word f.tagaddr 0, f.rows.toNat)] none
    stalls := s.xStall false true }

/-- TAGCNT (10 R218). -/
def execTagcnt (h : Hdr) (f : XF) (s : State) : Host.Outcome State Fault Refusal :=
  let dests := constituents h.dest 1
  issue s h (.tagcnt h f) (needsTagcnt h f s)
    fun e s' =>
      let s1 := s'.modCore e.core fun k => k.takeArray e.w.ctx
      let at_ := ((markedTarget e.core (e.w.word f.tagaddr 0)).map fun t => spadAt t.1 t.2).getD 0
      let tags := s1.spad.readN at_ f.rows.toNat
      finish e dests h.count (fun i =>
        [BitVec.ofNat 32 (if uni h.dest ∨ i = 8 then tagCount tags none else if i < 8 then tagCount tags (some i) else 0)]) s1

end Sys2Proof.Machine
end

