-- ==== Sys2Proof/Machine/StrataEvents.lean ====
section
/-! DEFINITION. What becomes of class X operations: rows, retirement and stops of the held ones, units and completion of the
asynchronous ones (06 R119 to R126; 10 R200 to R203, R205 to R215; 23 R355). -/
namespace Sys2Proof.Machine

/-! ### Rows of the held instructions -/

/-- What the next row or block of a held instruction comes to. -/
inductive RowStep where
  /-- It waits on its place in the issue order or on a LOADING stratum. -/
  | wait
  /-- It stops the instruction: by a page, or by a precise fault (06 R125, 10 R212). -/
  | page (f : XFault) (va : Nat)
  | fault (r : Raise)
  /-- It is committed, skipped or invalid. -/
  | done
  deriving DecidableEq, Repr

/-- The tag byte of row `m`: in the scratchpad, read once, or from the word (06 R121). -/
def State.tagOf (s : State) (c : Nat) (o : XOp) (f : XF) (m : Nat) : Option Byte :=
  if f.tagged then
    match o.row.get? (2 * m) with
    | some w => some (w.extractLsb' 0 8)
    | none => (s.markedAt c o.ctx o.tag (m + 1)).map fun t => s.spad.read (spadAt t.1 (t.2 + m))
  else some (8 ||| f.stratum.zeroExtend 8)

/-- The row scale of row `m`, if one is named, read once (06 R123); none where its read is refused. -/
def State.rowScaleOf (s : State) (c : Nat) (o : XOp) (f : XF) (m : Nat) : Option (Option Word) :=
  if nul f.rscale then some none
  else match o.row.get? (2 * m + 1) with
  | some w => some (some w)
  | none => (s.markedAt c o.ctx o.rs (4 * m + 4)).map fun t => some (BitVec.ofNat 32 (s.spad.nat (spadAt t.1 (t.2 + 4 * m)) 4))

/-- An operation that has read the tag of row `m`, and its scale if any. -/
def XOp.keepRow (o : XOp) (m : Nat) (tag : Byte) (scale : Option Word) : XOp :=
  let row := o.row.put (2 * m) (tag.zeroExtend 32)
  { o with row := match scale with
      | some w => row.put (2 * m + 1) w
      | none => row }

/-- An operation whose next row or unit begins. -/
def XOp.nextRow (o : XOp) (units : Nat) : XOp := { o with units := units, stage := .running, row := [], got := [] }

/-- A tag or row-scale read that is refused after issue. DESIGN CHOICE (log 98): its code is SCRATCH_RANGE. -/
def refusedScratch (a : Word) : Raise := { code := cScratchRange, lanes := fullMask, addr := a.zeroExtend 64, info := 0 }

/-- The fault of row `m` at stratum `j` (21 R329). -/
def rowFault (code : BitVec 8) (m j : Nat) : Raise :=
  { code := code, lanes := fullMask, addr := 0, info := BitVec.ofNat 32 (m + 512 * j) }

/-- What a failing read of a row of A comes to (10 R203). -/
def rowRead (f : XFault) (va : Nat) : RowStep :=
  if replayable f.code then .page f va
  else .fault { code := f.code, lanes := fullMask, addr := BitVec.ofNat 64 va, info := memInfo .read 255 }

/-- The address of row `m` of A (06 R116). -/
def XOp.rowAddr (o : XOp) (f : XF) (m : Nat) : Nat := (o.base.extractLsb' 0 48).toNat + 16 * f.stride.toNat * m

/-- The draw of an element of row `m` (05 R104). -/
def XOp.draw (o : XOp) (m n j : Nat) : Word :=
  drawU o.seed (o.wid.extractLsb' 0 32) (BitVec.ofNat 32 (m * 65536 + n * 256 + j))

/-- The next row of MMT or MMTX (10 R209, R210). -/
def State.mmtNext (s : State) (c n : Nat) (o : XOp) (f : XF) (transposed : Bool) : RowStep × State :=
  let m := o.units
  let k := s.core c
  match s.tagOf c o f m with
  | none => (.fault (refusedScratch o.tag), s)
  | some t =>
    let j := (t.extractLsb' 0 3).toNat
    if !t.getLsbD 3 then (.done, s.modX c n fun o => o.nextRow (m + 1))
    else if o.nonres.contains j || (!k.changing n j && (k.stratum j).state == .empty) then
      let s1 := s.tally (s.partOfCore c) 48 1
      (if f.skip then (.done, s1.modX c n fun o => { o.nextRow (m + 1) with skipped := true })
       else (.fault (rowFault cTagMiss m j), s1))
    else if k.changing n j then (.wait, s.modX c n fun o => o.keepRow m t none)
    else if (k.stratum j).bfmt != slotB o.fmt || (k.stratum j).scale != slotScale o.fmt then
      (.fault (rowFault cFieldReserved m j), s)
    else match s.rowScaleOf c o f m with
      | none => (.fault (refusedScratch o.rs), s)
      | some rs =>
        match s.sourceRead (.array c) o.ctx (o.rowAddr f m) (rowBytes o.fmt transposed) false (.array c n) o.got with
        | (.fault x at_, s1) => (rowRead x at_, s1)
        | (.merging, s1) => (.wait, s1.modX c n fun o => o.keepRow m t rs)
        | (.ok raw, s1) =>
          let old := k.tileRow f.acc.toNat m
          let (row, fl) := if transposed then
              mmtxRow o.fmt (o.base.extractLsb' 48 3).toNat raw (k.stratum j) rs old (o.draw m)
            else mmtRow o.fmt raw (k.stratum j) rs old (o.draw m)
          let s2 := s1.modCore c fun k => { k with tiles := k.tiles.put (256 * f.acc.toNat + m) row }
          (.done, (s2.tally (s.partOfCore c) 24 1).modX c n fun o =>
            { o.nextRow (m + 1) with contrib := o.contrib + 1, flags := o.flags ||| fl })

/-- Reads the rows of a block of MMTG, each with the gradient stratum it routes to (10 R211). -/
def State.gradReads (c n : Nat) (o : XOp) (f : XF) : List Nat → State → Except RowStep (List (Nat × GradRow) × BitVec 8) × State
  | [], s => (.ok ([], 0), s)
  | m :: ms, s =>
    match s.tagOf c o f m with
    | none => (.error (.fault (refusedScratch o.tag)), s)
    | some t =>
      if f.tagged && !t.getLsbD 3 then State.gradReads c n o f ms (s.modX c n fun o => o.keepRow m t none)
      else match s.rowScaleOf c o f m with
        | none => (.error (.fault (refusedScratch o.rs)), s)
        | some rs =>
          match s.sourceRead (.array c) o.ctx (o.rowAddr f m) 384 false (.array c n) o.got with
          | (.fault x at_, s1) => (.error (rowRead x at_), s1)
          | (.merging, s1) => (.error .wait, s1.modX c n fun o => o.keepRow m t rs)
          | (.ok raw, s1) =>
            match State.gradReads c n o f ms (s1.modX c n fun o => o.keepRow m t rs) with
            | (.error r, s2) => (.error r, s2)
            | (.ok (rows, fl), s2) =>
              let (row, fl1) := gradRow o.fmt raw rs
              let g := if f.tagged then (t.extractLsb' 0 3).toNat else f.acc.toNat
              (.ok ((g, row) :: rows, fl1 ||| fl), s2)

/-- Applies a block to one gradient stratum. -/
def Core.gradBlock (k : Core) (o : XOp) (b g : Nat) (rows : List GradRow) : Core × BitVec 8 :=
  (List.range 128).foldl (fun (r : Core × BitVec 8) i =>
    let u := gradUpdate o.fmt rows i (k.gradRow g i) fun n => o.draw i n b
    ({ r.1 with grads := r.1.grads.put (128 * g + i) u.1 }, r.2 ||| u.2)) (k, 0)

/-- The next block of MMTG (06 R126; 10 R211). -/
def State.mmtgNext (s : State) (c n : Nat) (o : XOp) (f : XF) : RowStep × State :=
  let m := o.units
  let stop := min (m + 32) f.rows.toNat
  match State.gradReads c n o f ((List.range (stop - m)).map fun i => m + i) s with
  | (.error r, s1) => (r, s1)
  | (.ok (rows, fl), s1) =>
    let go := (List.range 8).foldl (fun (r : Core × BitVec 8) g =>
      let mine := (rows.filter fun x => x.1 == g).map (·.2)
      if mine.isEmpty then r
      else
        let u := r.1.gradBlock o (m / 32) g mine
        (u.1, r.2 ||| u.2)) (s1.core c, fl)
    let s2 := s1.setCore c go.1
    (.done, (s2.tally (s.partOfCore c) 24 rows.length).modX c n fun o =>
      { o.nextRow stop with contrib := o.contrib + rows.length, flags := o.flags ||| go.2 })

/-- The next row or block of a held instruction. -/
def State.rowNext (s : State) (c n : Nat) : RowStep × State :=
  match (s.core c).xq.get? n with
  | none => (.wait, s)
  | some o =>
    if o.stage != .running || decide (xTotal o.instr o.fmt o.copy ≤ o.units) then (.wait, s)
    else match o.instr with
    | .mmt _ f => s.mmtNext c n o f false
    | .mmtx _ f => s.mmtNext c n o f true
    | .mmtg _ f => s.mmtgNext c n o f
    | _ => (.wait, s)

/-- Rows while they commit, at most `fuel` of them. -/
def State.rowsOn (c n : Nat) : Nat → State → State
  | 0, s => s
  | fuel + 1, s =>
    match s.rowNext c n with
    | (.done, s1) => State.rowsOn c n fuel s1
    | (.wait, s1) => s1
    | _ => s

/-- The status of a held instruction at retirement (06 R122). -/
def XOp.heldStatus (o : XOp) : Word := statusWord o.contrib 0 (if o.skipped then 7 else 0)

/-- Retires a held instruction: its status is written, the flags of its rows are reported, sr.mrow is clear, and the fragment
moves on (05 R112; 06 R125; 10 R201). -/
def State.retireX (s : State) (c n : Nat) (o : XOp) : State :=
  let s1 := s.modWarp c o.slot fun w =>
    if w.wid != o.wid then w else { (w.advance w.live).orFlags o.flags with mrow := 0, mflags := 0, stall := none, timeout := false }
  ((s1.tally (s1.partOfCore c) 16 1).endX c n o o.heldStatus).advanceX c

/-- The word of sr.mrow at a stop (06 R125). -/
def XOp.mrowWord (o : XOp) : Word :=
  BitVec.ofNat 32 (2 ^ 31 + (if o.skipped then 2 ^ 25 else 0) + o.contrib * 2 ^ 16 + o.units)

/-- Stops a held instruction partway: sr.mrow holds the restart, the destination's allocation is undone, no status is
written, and the PC stays (10 R212). The flags of the rows that it has committed wait for its retirement (05 R112; log 15). -/
def State.stopX (s : State) (c n : Nat) (o : XOp) : State :=
  let s1 := s.deleteX c n
  let s2 := s1.modWarp c o.slot fun w =>
    if w.wid != o.wid then w
    else { w.undoPending o.dest 1 with mrow := o.mrowWord, mflags := o.flags, stall := none, timeout := false, tiles := w.tiles - 1 }
  s2.advanceX c

/-- Stops the held instructions of a core for which a test holds. -/
def State.stopOps (s : State) (c : Nat) (p : XOp → Bool) : State :=
  ((s.core c).xq.filter fun o => xHeld o.2.instr && p o.2).foldl (fun s o =>
    match (s.core c).xq.get? o.1 with
    | some y => s.stopX c o.1 y
    | none => s) s

/-- A stop by a page: the fragment waits, and issues again once the page is served (10 R203). -/
def State.stopForPage (s : State) (c n : Nat) (o : XOp) (f : XFault) (va : Nat) : State :=
  let s1 := s.stopX c n o
  match s1.warp? c o.slot with
  | none => s1
  | some w =>
    let (p, s2) := s1.awaitPage (.array c) o.ctx va .read f
      { s1.warpRecord c w o.pc w.live 3 { code := 0, lanes := w.live, addr := 0, info := memInfo .read 255 } with unit := 1 }
    s2.modWarp c o.slot fun w => { w with waits := w.waits ++ [{ lanes := w.live, kind := .page p, since := s.cycle }] }

/-! ### Units of the asynchronous instructions -/

/-- Moves on to the next unit. -/
def State.unitDone (s : State) (c n : Nat) : State := s.modX c n fun o => o.nextRow (o.units + 1)

/-- Ends an asynchronous operation that fails; a failed SLOAD leaves its stratum EMPTY (06 R119; 10 R203). -/
def State.failAsync (s : State) (c n : Nat) (o : XOp) (state : Nat) (code : BitVec 8) : State :=
  let s1 := match o.instr with
    | .sload _ f => s.loadFailed c n f.stratum.toNat
    | _ => s
  (s1.endAsync c n o state code).advanceX c

/-- A unit that meets a fault: it waits for a page, reported once, or the operation ends. -/
def State.unitFault (s : State) (c n : Nat) (o : XOp) (k : AccKind) (f : XFault) (va : Nat) : State :=
  if !replayable f.code then s.failAsync c n o 2 f.code
  else
    let again := match o.stage with
      | .page p => p.code == cPageS1 && f.code == cPageS1
      | _ => false
    if again then s.modX c n fun o => match o.stage with
      | .page p => { o with stage := .page { p with served := false } }
      | _ => o
    else
      let r := match s.warp? c o.slot with
        | some w => if w.wid = o.wid then s.warpRecord c w o.pc fullMask 3 { code := 0, lanes := 0, addr := 0, info := 0 } else EvRec.zero
        | none => EvRec.zero
      let (p, s1) := s.awaitPage (.array c) o.ctx va k f
        { r with time := BitVec.ofNat 64 (s.timeAt c), wid := o.wid, pc := o.pc, core := BitVec.ofNat 8 c, unit := 1,
                 info := memInfo k 255 }
      s1.modX c n fun o => { o with stage := .page p }

/-- What a peer's answer makes of a unit of an SLOAD (23 R355). -/
def State.peerUnit (s : State) (c n : Nat) (o : XOp) (r : PeerStep) : State :=
  match r with
  | .done bs =>
    match o.instr with
    | .sload _ f => (s.modStratum c f.stratum.toNat fun t =>
        { t with image := t.image.put (unitOffset t.bfmt o.units / 256) bs }).unitDone c n
    | _ => s
  | .waits => s.modX c n fun o => { o with stage := .sent (s.timeAt c) }
  | .stale v =>
    if o.staleUnit = some o.units then s.failAsync c n o 5 cStale
    else s.modX c n fun o => { o with stage := .stale v, staleUnit := some o.units }
  | .nack code => s.failAsync c n o 4 code

/-- Bits [7:0] of the peer index of an SLOAD, which no field of class X supplies (DESIGN CHOICE, log 11). -/
def sloadPeer : BitVec 8 := (Config.unstated 0).extractLsb' 0 8

/-- Loads one unit of a stratum image, from the lode store, the partition's memory, or a peer (10 R199, R205). -/
def State.loadUnit (s : State) (c n : Nat) (o : XOp) (f : XF) (fresh : Bool) : State :=
  let va := (o.base.extractLsb' 0 48).toNat + unitOffset (slotB o.fmt) o.units
  let keep := fun (s : State) (bs : List Byte) => s.peerUnit c n o (.done bs)
  if f.stride = 4 then (if s.lodeBusy va 256 then s else keep (s.count o.ctx 2 256) (s.lode.readN (lodeAt c va) 256))
  else match State.xlatAll (.array c) o.ctx .read true fresh [(va, 256)] s with
    | (.error (x, at_), s1) => s1.unitFault c n o .read x at_
    | (.ok ts, s1) =>
      match ts with
      | [(t, _)] =>
        if t.item.kind = .peer then
          let (r, s2) := s1.sendPeer o.ctx (t.item.peerhi ++ sloadPeer)
            { op := .get, addr := t.phys.addr, stamp := s1.timeAt c, len := 256, data := [], srcdev := 0 } []
          s2.peerUnit c n o r
        else if s1.badPiece t 256 then s1.failAsync c n o 2 cUe
        else match s1.mergePieces (.array c n) o.ctx o.got ts with
          | (true, s2) => s2
          | (false, s2) => keep (s2.pageFill t 256) (overlay o.got t.phys (s2.pageRead t 256))
      | _ => s1

/-- Performs one unit of an asynchronous operation that is neither a load of a stratum nor waiting. -/
def State.moveUnit (s : State) (c n : Nat) (o : XOp) (fresh : Bool) : State :=
  let u := o.units
  let base := (o.base.extractLsb' 0 48).toNat
  let k := s.core c
  let read := fun (va len : Nat) (put : List Byte → State → State) =>
    match s.sourceRead (.array c) o.ctx va len fresh (.array c n) o.got with
    | (.fault x at_, s1) => s1.unitFault c n o .read x at_
    | (.merging, s1) => s1
    | (.ok bs, s1) => (put bs s1).unitDone c n
  let write := fun (va : Nat) (bs : List Byte) (fl : BitVec 8) =>
    match s.agentWrite (.array c) o.ctx va bs fresh with
    | (some (x, at_), s1) => s1.unitFault c n o .write x at_
    | (none, s1) => (s1.modX c n fun o => { o with flags := o.flags ||| fl }).unitDone c n
  match o.instr with
  | .sstore _ _ =>
    match o.copy with
    | none => s
    | some t => write (base + unitOffset t.bfmt u) (t.bytes (unitOffset t.bfmt u) 256) 0
  | .gload _ f => read (base + 256 * u) 256 fun bs s =>
      s.modCore c fun k => { k with grads := k.grads.put (128 * f.acc.toNat + u) (wordsIn bs) }
  | .gstore _ f => write (base + 256 * u) ((k.gradRow f.acc.toNat u).flatMap fun w => leBytes 4 w.toNat) 0
  | .accld _ f => read (o.rowAddr f u) (8 * fmtWidth (slotA o.fmt)) fun bs s =>
      s.modCore c fun k => { k with tiles := k.tiles.put (256 * f.acc.toNat + u) (accldRow o.fmt bs) }
  | .accst _ f =>
    let (bs, fl) := accstRow o.fmt (k.tileRow f.acc.toNat u) fun n => o.draw u n 0xFF
    write (o.rowAddr f u) bs fl
  | _ => s

/-- The global ranges that the current row or unit of an operation reads. -/
def XOp.source (o : XOp) : List (Nat × Nat) :=
  let base := (o.base.extractLsb' 0 48).toNat
  if o.stage != .running || decide (xTotal o.instr o.fmt o.copy ≤ o.units) then []
  else match o.instr with
    | .mmt _ f => [(o.rowAddr f o.units, rowBytes o.fmt false)]
    | .mmtx _ f => [(o.rowAddr f o.units, rowBytes o.fmt true)]
    | .mmtg _ f => (List.range (min 32 (f.rows.toNat - o.units))).map fun i => (o.rowAddr f (o.units + i), 384)
    | .sload _ f => if f.stride = 4 then [] else [(base + unitOffset (slotB o.fmt) o.units, 256)]
    | .gload _ _ => [(base + 256 * o.units, 256)]
    | .accld _ f => [(o.rowAddr f o.units, 8 * fmtWidth (slotA o.fmt))]
    | _ => []

/-- The address of word `j` of some ranges. -/
def wordOfRanges : List (Nat × Nat) → Nat → Option Nat
  | [], _ => none
  | (va, n) :: rest, j =>
    let words := (va + n - 1) / 4 - va / 4 + 1
    if j < words then some (va / 4 * 4 + 4 * j) else wordOfRanges rest (j - words)

/-- An operation reads a word of its current row or unit before the rest (10 R202). -/
def State.xEarly (s : State) (c n j : Nat) : State :=
  match (s.core c).xq.get? n with
  | none => s
  | some o =>
    match wordOfRanges o.source j with
    | none => s
    | some va =>
      match s.earlyWord (.array c) o.ctx va o.got with
      | (some (key, w), s1) => s1.modX c n fun o => { o with got := o.got.put key w }
      | (none, s1) => s1

/-- The next unit of an asynchronous operation: what it waits for has come, or nothing happens. -/
def State.unitNext (s : State) (c n : Nat) : State :=
  match (s.core c).xq.get? n with
  | none => s
  | some o =>
    let go := fun (fresh : Bool) => match o.instr with
      | .sload _ f => s.loadUnit c n o f fresh
      | _ => s.moveUnit c n o fresh
    if xTotal o.instr o.fmt o.copy ≤ o.units then s
    else match o.stage with
    | .queued => s
    | .running => go false
    | .page p => if !p.served then s else if replayable p.code then go true else s.failAsync c n o 2 p.code
    | .sent stamp =>
      if stamp + 1000000 ≤ s.timeAt c then s.failAsync c n o 3 cPeerTimeout
      else s.peerUnit c n o (.done (peerAnswer s.steps 256))
    | .stale v => if v ≤ s.timeAt c then go true else s

/-- Units while they succeed, at most `fuel` of them. -/
def State.unitsOn (c n : Nat) : Nat → State → State
  | 0, s => s
  | fuel + 1, s =>
    match (s.core c).xq.get? n with
    | none => s
    | some o =>
      let s1 := s.unitNext c n
      match (s1.core c).xq.get? n with
      | none => s1
      | some p => if p.units = o.units then s1 else State.unitsOn c n fuel s1

/-- Completes an asynchronous operation whose units are all done; a loaded stratum is RESIDENT (06 R119). -/
def State.completeX (s : State) (c n : Nat) : State :=
  match (s.core c).xq.get? n with
  | none => s
  | some o =>
    if o.stage != .running || xHeld o.instr || decide (o.units < xTotal o.instr o.fmt o.copy) then s
    else
      let s1 := match o.instr with
        | .sload _ f => s.modStratum c f.stratum.toNat fun t => { t with state := .resident }
        | _ => s
      (s1.endAsync c n o 0 0).advanceX c

/-! ### The events -/

/-- STRATUM_LOAD_COMPLETE: the last byte of weights and scale table arrives (06 R119). -/
def execStratumLoadComplete (core x : Nat) (s : State) : Host.Outcome State Fault Refusal :=
  match (s.core core).xq.get? x with
  | none => .next s
  | some o =>
    match o.instr with
    | .sload _ _ => .next ((State.unitsOn core x (xTotal o.instr o.fmt o.copy) s).completeX core x)
    | _ => .next s

/-- MATRIX_ROW_WAIT_END: the next row of a held instruction enters the array, its stratum loaded; for an asynchronous
operation, its next unit is moved (06 R120; 10 R203). -/
def execMatrixRowWaitEnd (core x : Nat) (s : State) : Host.Outcome State Fault Refusal :=
  match (s.core core).xq.get? x with
  | none => .next s
  | some o =>
    if xHeld o.instr then
      match s.rowNext core x with
      | (.done, s1) => .next s1
      | (.wait, s1) => .next s1
      | _ => .next s
    else .next (s.unitNext core x)

/-- MATRIX_RETIRE: the remaining rows commit and the instruction retires (10 R201). -/
def execMatrixRetire (core x : Nat) (s : State) : Host.Outcome State Fault Refusal :=
  match (s.core core).xq.get? x with
  | none => .next s
  | some o =>
    if !xHeld o.instr then .next s
    else
      let s1 := State.rowsOn core x (xTotal o.instr o.fmt o.copy) s
      match (s1.core core).xq.get? x with
      | none => .next s1
      | some p =>
        if p.stage = .running ∧ xTotal p.instr p.fmt p.copy ≤ p.units then .next (s1.retireX core x p) else .next s1

/-- MATRIX_STOP: the next row stops the instruction; a page is awaited, any other fault is precise (10 R203, R212). -/
def execMatrixStop (core x : Nat) (s : State) : Host.Outcome State Fault Refusal :=
  match (s.core core).xq.get? x with
  | none => .next s
  | some o =>
    match s.rowNext core x with
    | (.page f va, s1) => .next (s1.stopForPage core x o f va)
    | (.fault r, s1) =>
      let s2 := s1.stopX core x o
      match s2.warp? core o.slot with
      | none => .next s2
      | some w => .next (s2.takeFault core o.slot w.live o.pc 0 false 0 r)
    | _ => .next s

/-- X_ASYNC_COMPLETE: the remaining units are moved and the status word is written (10 R201). -/
def execXAsyncComplete (core x : Nat) (s : State) : Host.Outcome State Fault Refusal :=
  match (s.core core).xq.get? x with
  | none => .next s
  | some o =>
    if xHeld o.instr then .next s
    else .next ((State.unitsOn core x (xTotal o.instr o.fmt o.copy) s).completeX core x)

end Sys2Proof.Machine
end

