-- ==== Sys2Proof/Machine/Engines.lean ====
section
/-! DEFINITION. The vein engines and the sorter: operations at issue, range locks, units, status words and cancellation
(11 R219 to R233; 09 R188; 20 R313; 21 R334; 24 R362). -/
namespace Sys2Proof.Machine

/-! ### Operands (11 R219 to R221, R227) -/

/-- A source or destination space of imm32 (11 R220). -/
def srcSpace (imm : BitVec 32) : Nat := (imm.extractLsb' 3 3).toNat

/-- The destination space. -/
def dstSpace (imm : BitVec 32) : Nat := (imm.extractLsb' 0 3).toNat

/-- The row size of a gather or scatter in units of 16 bytes. -/
def rowSize (imm : BitVec 32) : Nat := (imm.extractLsb' 8 16).toNat

/-- An address pair: an even uniform register, or 511. -/
def pairOrNone (n : BitVec 9) : Bool := nul n || (uni n && n.toNat % 2 == 0)

/-- The layout of imm32 without a row size. -/
def plainImm (imm : BitVec 32) : Bool := imm.extractLsb' 24 8 == 0 && imm.extractLsb' 6 2 == 0 && rowSize imm == 0

/-- A space that a source may lie in. -/
def srcSpaceOk (imm : BitVec 32) : Bool := among (srcSpace imm) [0, 1, 2, 4]

/-- A space that a destination may name; 4 faults PERM later. -/
def dstSpaceOk (imm : BitVec 32) : Bool := among (dstSpace imm) [0, 1, 2, 4]

/-- The fields common to the operations with a byte length. -/
def lengthFields (h : Hdr) (f : AF) : Bool :=
  pairOrNone f.dsta && pairOrNone f.srca && (nul f.len || uni f.len) && plainImm f.imm && destOk h 1 []

/-- VCOPY's fields. -/
def vcopyFields (h : Hdr) (f : AF) : Bool :=
  lengthFields h f && f.amod == 0 && f.peer == 0 && srcSpaceOk f.imm && dstSpaceOk f.imm

/-- VPUT's fields: its destination is global, and space 4 faults PERM later (06 R127; 11 R220, R229). -/
def vputFields (h : Hdr) (f : AF) : Bool :=
  lengthFields h f && f.amod == 0 && srcSpaceOk f.imm && among (dstSpace f.imm) [0, 4]

/-- VGET's fields. -/
def vgetFields (h : Hdr) (f : AF) : Bool := lengthFields h f && f.amod == 0 && srcSpace f.imm == 0 && dstSpaceOk f.imm

/-- VRED's fields. -/
def vredFields (h : Hdr) (f : AF) : Bool :=
  lengthFields h f && decide (f.amod.toNat ≤ 5) && srcSpaceOk f.imm && dstSpace f.imm == 0

/-- VGATHER's and VSCATTER's fields. -/
def rowFields (h : Hdr) (f : AF) : Bool :=
  pairOrNone f.dsta && pairOrNone f.srca && uni f.len && f.len.toNat % 2 == 0 && f.imm.extractLsb' 24 8 == 0 &&
  f.imm.extractLsb' 6 2 == 0 && rowSize f.imm != 0 && decide (f.amod.toNat ≤ 1) && f.peer == 0 && srcSpaceOk f.imm &&
  dstSpaceOk f.imm && destOk h 1 []

/-- SORT's fields. -/
def sortFields (h : Hdr) (f : AF) : Bool :=
  pairOrNone f.dsta && pairOrNone f.srca && (nul f.len || uni f.len) && decide (f.amod.toNat ≤ 2) && f.peer == 0 &&
  f.imm.extractLsb' 1 31 == 0 && destOk h 1 []

/-- The value of an address pair; 511 reads zero. -/
def Warp.pairAt (w : Warp) (n : BitVec 9) : BitVec 64 := if nul n then 0 else w.kpair n

/-- The value of a length register; 511 reads zero. -/
def Warp.lenAt (w : Warp) (n : BitVec 9) : Nat := if nul n then 0 else (w.word n 0).toNat

/-- The core and offset of a scratchpad address of space 1 or 2 (14 R253). -/
def engTarget (core space : Nat) (a : Word) : Option (Nat × Nat) :=
  let off := (a.extractLsb' 0 21).toNat
  if 0x180000 ≤ off then none
  else if space = 1 then (if a.extractLsb' 21 11 = 0 then some (core, off) else none)
  else if a.extractLsb' 24 8 = 0 then some (core / 8 * 8 + (a.extractLsb' 21 3).toNat, off) else none

/-! ### An operation as its issue describes it -/

/-- The operation that an instruction starts, before it has an engine. -/
def engOpOf (s : State) (e : Env) (h : Hdr) (f : AF) (kind : EngKind) : EngOp :=
  let rows := kind == .gather || kind == .scatter
  let sort := kind == .sort
  { kind := kind, core := e.core, slot := e.slot, wid := e.w.wid, ctx := e.w.ctx, block := e.w.block, engine := 0,
    pc := e.pc, dst := (e.w.pairAt f.dsta).toNat, src := (e.w.pairAt f.srca).toNat
    len := if rows then (e.w.word (f.len + 1) 0).toNat else e.w.lenAt f.len
    index := if rows then e.w.word f.len 0 else 0
    dspace := if sort then 1 else dstSpace f.imm
    sspace := if sort then 1 else srcSpace f.imm
    amod := f.amod, rowsz := if sort then 0 else rowSize f.imm, peer := f.peer, desc := sort && f.imm.getLsbD 0
    dest := { name := h.dest, count := h.count, lanes := e.act }, units := 0, stage := .running, corrected := false
    staleUnit := none, buffer := none, got := [], moved := 0, swap := false, cancelled := false, watched := [], launch := e.w.launch
    bix := match s.blocks.get? e.w.block with
      | some b => b.index
      | none => 0
    wno := e.w.number, issue := e.w.buffered }

/-- Bytes of one row of a gather or scatter. -/
def EngOp.rowBytes (o : EngOp) : Nat := 16 * o.rowsz

/-- The bytes of one index. -/
def EngOp.indexBytes (o : EngOp) : Nat := if o.amod.getLsbD 0 then 8 else 4

/-- The units of an operation (11 R226, R227, R232). -/
def EngOp.total (o : EngOp) : Nat :=
  match o.kind with
  | .gather => o.len
  | .scatter => o.len
  | .sort => o.len
  | _ => (o.len + 255) / 256

/-- The bytes of the contiguous destination, if the operation has one. -/
def EngOp.dstBytes (o : EngOp) : Nat :=
  match o.kind with
  | .gather => o.len * o.rowBytes
  | .scatter => 0
  | .sort => 4 * o.len
  | _ => o.len

/-- The bytes of the contiguous source, if the operation has one. -/
def EngOp.srcBytes (o : EngOp) : Nat :=
  match o.kind with
  | .gather => 0
  | .scatter => o.len * o.rowBytes
  | .sort => 4 * o.len
  | _ => o.len

/-! ### Checks at issue (11 R221) -/

/-- The greatest length or count of a kind. -/
def engLimit : EngKind → Nat
  | .gather => 1048575
  | .scatter => 1048575
  | .sort => 65536
  | _ => 0x0FFFFF00

/-- Alignment of addresses and length. -/
def EngOp.aligned (o : EngOp) : Bool :=
  match o.kind with
  | .sort => o.dst % 4 == 0 && o.src % 4 == 0
  | .gather => o.dst % 16 == 0 && o.src % 16 == 0 && o.index.toNat % o.indexBytes == 0
  | .scatter => o.dst % 16 == 0 && o.src % 16 == 0 && o.index.toNat % o.indexBytes == 0
  | _ => o.dst % 4 == 0 && o.src % 4 == 0 && o.len % 4 == 0

/-- Whether a global or lode side fails; a lode destination fails always (11 R220; 06 R127). -/
def State.sideBad (s : State) (o : EngOp) (space a n : Nat) (dest : Bool) : Bool :=
  (space == 0 && decide (2 ^ 48 ≤ a)) || (space == 4 && (dest || s.lodeRangeBad o.core o.ctx a n))

/-- Whether a scratchpad side fails, its high word among its checks. -/
def State.sideScratchBad (s : State) (o : EngOp) (space a n : Nat) : Bool :=
  (space == 1 || space == 2) && (decide (2 ^ 32 ≤ a) || (match engTarget o.core space (BitVec.ofNat 32 a) with
    | none => true
    | some (t, off) => !s.ownsBytes o.ctx t off n))

/-- The checks of an engine operation in their order. -/
def State.engCheck (s : State) (h : Hdr) (f : AF) (kind : EngKind) (e : Env) : Option Raise :=
  let o := engOpOf s e h f kind
  let raise := fun (code : BitVec 8) (a : Nat) (info : Word) =>
    some ({ code := code, lanes := e.frag, addr := BitVec.ofNat 64 a, info := info } : Raise)
  if !o.aligned then some (fieldRaise e.frag)
  else if engLimit kind < o.len then some (fieldRaise e.frag)
  else if s.sideBad o o.dspace o.dst o.dstBytes true then
    raise cPerm o.dst (memInfo (if kind == .red then .rmw else .write) 255)
  else if s.sideBad o o.sspace o.src o.srcBytes false then raise cPerm o.src (memInfo .read 255)
  else if s.sideScratchBad o o.dspace o.dst o.dstBytes then raise cScratchRange o.dst 0
  else if s.sideScratchBad o o.sspace o.src o.srcBytes then raise cScratchRange o.src 0
  else if (kind == .gather || kind == .scatter) && (s.markedAt e.core e.w.ctx o.index (o.len * o.indexBytes)).isNone then
    raise cScratchRange o.index.toNat 0
  else none

/-! ### Range locks (09 R188; 11 R224) -/

/-- The range of a side of an operation: global, scratchpad of a core, or lode of a die. -/
def EngOp.range (o : EngOp) (space a n : Nat) (write : Bool) : Range :=
  match engTarget o.core space (BitVec.ofNat 32 a) with
  | some (t, off) =>
    if space = 1 ∨ space = 2 then { space := t + 1, lo := off, hi := off + n, write := write }
    else { space := if space = 0 then 0 else 1000 + dieOf o.core, lo := a, hi := a + n, write := write }
  | none => { space := if space = 0 then 0 else 1000 + dieOf o.core, lo := a, hi := a + n, write := write }

/-- Whether the destination of a VRED is remote as far as its first page shows. DESIGN CHOICE (log 102): one without a translation at
issue is taken as local, so both its ranges are registered. -/
def State.remoteDst (s : State) (o : EngOp) : Bool :=
  match (s.translate (.engine o.engine) o.ctx o.dst .rmw false true false).1 with
  | .ok t => t.item.kind == .peer
  | .error _ => false

/-- The ranges that an operation registers. -/
def State.engRanges (s : State) (o : EngOp) : List Range :=
  let dst := o.range o.dspace o.dst o.dstBytes true
  let src := o.range o.sspace o.src o.srcBytes false
  let list := match markedTarget o.core o.index with
    | some (t, off) => [({ space := t + 1, lo := off, hi := off + o.len * o.indexBytes, write := false } : Range)]
    | none => []
  match o.kind with
  | .copy => [dst, src]
  | .gather => dst :: list
  | .scatter => src :: list
  | .put => [src]
  | .get => [dst]
  | .red => if s.remoteDst o then [src] else [dst, src]
  | .sort => [dst, { src with write := true }]

/-- The cores in whose tables ranges are registered: the own one, and each whose scratchpad holds one. -/
def lockCores (core : Nat) (rs : List Range) : List Nat :=
  (core :: rs.filterMap fun r => if 0 < r.space ∧ r.space < 1000 then some (r.space - 1) else none).eraseDups

/-- The ranges that stand in a core's table. -/
def rangesIn (core c : Nat) (rs : List Range) : List Range := if c = core then rs else rs.filter fun r => r.space == c + 1

/-- Whether two ranges of two contexts share bytes and one of them writes. -/
def rangesConflict (x y : Nat) (a b : Range) : Bool :=
  a.space == b.space && (a.space != 0 || x == y) && (a.write || b.write) && overlaps a.lo a.hi b.lo b.hi

/-- Whether an operation waits for an earlier one in some table. -/
def State.lockConflict (s : State) (n : Nat) : Bool :=
  s.cores.any fun k => (k.2.locks.find? fun l => l.op == n).any fun mine =>
    k.2.locks.any fun l => decide (l.op < n) && l.ranges.any fun a => mine.ranges.any fun b => rangesConflict l.ctx mine.ctx a b

/-- Registers an operation's ranges. -/
def State.register (s : State) (n : Nat) (o : EngOp) (rs : List Range) : State :=
  (lockCores o.core rs).foldl (fun s c => s.modCore c fun k =>
    { k with locks := k.locks ++ [{ op := n, ctx := o.ctx, ranges := rangesIn o.core c rs }] }) s

/-! ### Issue -/

/-- How many operations an engine has in hand. -/
def State.engLoad (s : State) (e : Nat) : Nat := (s.engs.filter fun o => o.2.engine == e).length

/-- The engines that may serve a core: its partition's on its own die, or else on any die (24 R362). -/
def State.enginesFor (s : State) (c : Nat) : List Nat :=
  let mine := (s.mgmt.engines.filter fun e => e.2 == s.partOfCore c).map (·.1)
  let near := mine.filter fun e => e / 32 == dieOf c
  if near.isEmpty then mine else near

/-- A least-loaded engine; which of several is a free choice, and affects timing only (24 R362; log 3). -/
def State.pickEngine (s : State) (c : Nat) : Nat :=
  let es := s.enginesFor c
  let low := es.filter fun e => es.all fun d => decide (s.engLoad e ≤ s.engLoad d)
  low.getD (Config.choice s.steps % low.length) 0

/-- Why an engine operation does not issue (11 R221, R225). -/
def State.engStall (s : State) (h : Hdr) (f : AF) (kind : EngKind) (e : Env) : Option StallKind :=
  let o : EngOp := engOpOf s e h f kind
  if e.act = 0 ∨ o.len = 0 then none
  else if 63 ≤ e.w.copies then some .counter
  else if (lockCores e.core (s.engRanges o)).any fun c => decide (32 ≤ (s.core c).locks.length) then some .locks
  else if e.w.spadBusy then some .ordering
  else none

/-- Whether an operation is one that deterministic mode buffers at a local destination (11 R228). -/
def State.engBuffers (s : State) (o : EngOp) : Bool :=
  o.kind == .red && decide (1 ≤ o.amod.toNat) && decide (o.amod.toNat ≤ 3) && (s.launch o.launch).flag 0

/-- Starts an engine operation, or completes it at once when its length is zero (11 R219, R221). -/
def State.startEng (s : State) (e : Env) (h : Hdr) (f : AF) (kind : EngKind) : State :=
  let dests := constituents h.dest 1
  let o : EngOp := { engOpOf s e h f kind with engine := s.pickEngine e.core }
  if e.act = 0 then s.modWarp e.core e.slot fun w => w.sweep.advance e.frag
  else if o.len = 0 then (finish e dests h.count (fun _ => [0]) s).modWarp e.core e.slot fun w => w.endOp false h.dest
  else
    let n := s.engseq
    let s1 := { s.register n o (s.engRanges o) with engseq := n + 1 }
    let s2 := { s1 with engs := s1.engs.put n { o with stage := if s1.lockConflict n then .locked else .running } }
    s2.modWarp e.core e.slot fun w =>
      { (w.bindPending e.act dests h.count).sweep.advance e.frag with
        copies := w.copies + 1, buffered := if s.engBuffers o && !s.remoteDst o then w.buffered + 1 else w.buffered }

/-- What an instruction that starts an engine operation asks of its issue. -/
def engineNeeds (s : State) (h : Hdr) (f : AF) (fields : Bool) (kind : EngKind) : Needs :=
  { fields := fields
    peeks := rd f.dsta 2 ++ rd f.srca 2 ++ rd f.len (if kind == .gather || kind == .scatter then 2 else 1)
    dests := constituents h.dest 1, count := h.count
    entry := s.engCheck h f kind
    stalls := s.engStall h f kind }

/-- An instruction that starts an engine operation. -/
def engine (s : State) (h : Hdr) (f : AF) (i : Instr) (fields : Bool) (kind : EngKind) :
    Host.Outcome State Fault Refusal :=
  issue s h i (engineNeeds s h f fields kind) fun e s' => s'.startEng e h f kind

/-- VCOPY (11 R226). -/
def execVcopy (h : Hdr) (f : AF) (s : State) : Host.Outcome State Fault Refusal :=
  engine s h f (.vcopy h f) (vcopyFields h f) .copy

/-- VGATHER (11 R227). -/
def execVgather (h : Hdr) (f : AF) (s : State) : Host.Outcome State Fault Refusal :=
  engine s h f (.vgather h f) (rowFields h f) .gather

/-- VSCATTER (11 R227). -/
def execVscatter (h : Hdr) (f : AF) (s : State) : Host.Outcome State Fault Refusal :=
  engine s h f (.vscatter h f) (rowFields h f) .scatter

/-- VPUT (11 R229). -/
def execVput (h : Hdr) (f : AF) (s : State) : Host.Outcome State Fault Refusal :=
  engine s h f (.vput h f) (vputFields h f) .put

/-- VGET (11 R229). -/
def execVget (h : Hdr) (f : AF) (s : State) : Host.Outcome State Fault Refusal :=
  engine s h f (.vget h f) (vgetFields h f) .get

/-- VRED (11 R228). -/
def execVred (h : Hdr) (f : AF) (s : State) : Host.Outcome State Fault Refusal :=
  engine s h f (.vred h f) (vredFields h f) .red

/-- SORT (11 R232). -/
def execSort (h : Hdr) (f : AF) (s : State) : Host.Outcome State Fault Refusal :=
  engine s h f (.sort h f) (sortFields h f) .sort

/-- What VSTAT asks of its issue. -/
def needsVstat (h : Hdr) (f : AF) (_ : State) : Needs :=
  let dests := constituents h.dest 1
  { fields := nul f.dsta && nul f.srca && nul f.len && f.amod == 0 && f.peer == 0 && f.imm == 0 && destOk h 1 []
    dests := dests, count := h.count }

/-- VSTAT (11 R230). -/
def execVstat (h : Hdr) (f : AF) (s : State) : Host.Outcome State Fault Refusal :=
  let dests := constituents h.dest 1
  issue s h (.vstat h f) (needsVstat h f s)
    fun e s' => finish e dests h.count (fun _ =>
      [BitVec.ofNat 32 (e.w.copies + 256 * e.w.tiles + 65536 * (s.core e.core).locks.length)]) s'

/-! ### Ending an operation (11 R222, R224) -/

/-- Changes an engine operation. -/
def State.modEng (s : State) (n : Nat) (f : EngOp → EngOp) : State :=
  match s.engs.get? n with
  | some o => { s with engs := s.engs.put n (f o) }
  | none => s

/-- A warp whose engine operation has ended: its copies counter falls, and its status is still to be read (11 R225). -/
def Warp.endCopy (w : Warp) (d : Dest) : Warp :=
  let w1 := { w.endOp false d.name with copies := w.copies - 1 }
  w1.clearStall (StallKind.onCounts w1)

/-- A core without the locks of an operation; a warp that waits for a free place in a table may issue again. -/
def Core.unlock (k : Core) (n : Nat) : Core :=
  { k with
    locks := k.locks.filter fun l => l.op != n
    warps := k.warps.map fun (w : Nat × Warp) => (w.1, w.2.clearStall fun t => t == StallKind.locks) }

/-- Ends an operation: its locks go, the copies counter falls, and its status word is written (11 R222, R224). -/
def State.endEng (s : State) (n : Nat) (o : EngOp) (state : Nat) (code : BitVec 8) : State :=
  let st := if state = 0 ∧ o.corrected then 1 else state
  let s1 := { s with
    engs := s.engs.del n
    cores := s.cores.map (fun (k : Nat × Core) => (k.1, k.2.unlock n)) }
  let s2 := s1.modWarp o.core o.slot fun w => if w.wid != o.wid then w else w.endCopy o.dest
  if o.dest.name = 511 then s2
  else s2.completeOwed o.core o.slot o.wid o.dest 1 fun _ => [statusWord o.units code st]

/-- Whether an operation stands within a unit that has to be finished: one sent to a peer, or one partly written. A unit that
VRED has partly combined may stay so (11 R231). -/
def EngOp.within (o : EngOp) : Bool :=
  (match o.stage with
    | .sent _ => true
    | _ => false) || (o.kind != .red && o.moved != 0)

/-- Cancels an operation: at once where it stands at a unit boundary, or else at the next one (11 R231). -/
def State.cancelEng (s : State) (n : Nat) (o : EngOp) : State :=
  if o.within then s.modEng n fun o => { o with cancelled := true } else s.endEng n o 6 0

/-- What VCANCEL asks of its issue. -/
def needsVcancel (h : Hdr) (f : AF) (_ : State) : Needs :=
  let name := (f.imm.extractLsb' 0 9).toNat
  { fields := nul f.dsta && nul f.srca && nul f.len && f.amod == 0 && f.peer == 0 && f.imm.extractLsb' 10 22 == 0 &&
      (if f.imm.getLsbD 9 then isV name || isK name else name == 0) && destNone h }

/-- VCANCEL (11 R231). -/
def execVcancel (h : Hdr) (f : AF) (s : State) : Host.Outcome State Fault Refusal :=
  let name := (f.imm.extractLsb' 0 9).toNat
  issue s h (.vcancel h f) (needsVcancel h f s)
    fun e s' =>
      let mine := s'.engs.filter fun o => o.2.core == e.core && o.2.slot == e.slot && o.2.wid == e.w.wid &&
        o.2.kind != .sort && (!f.imm.getLsbD 9 || o.2.dest.name.toNat == name)
      let s1 := if e.act = 0 then s' else mine.foldl (fun s o => s.cancelEng o.1 o.2) s'
      s1.modWarp e.core e.slot fun w => w.advance e.frag

end Sys2Proof.Machine
end

