-- ==== Sys2Proof/Machine/EngineEvents.lean ====
section
/-! DEFINITION. What becomes of engine operations: lock waits, units, peers, completion and lease renewal (11 R223 to R232;
20 R313, R321; 21 R334; 23 R352, R355). -/
namespace Sys2Proof.Machine

/-! ### Sides of an operation (11 R220) -/

/-- What stops a side of an operation: a fault of translation at an address, or a refusal with its code. -/
abbrev SideFault := XFault × Nat

/-- A side fault with a code and no page. -/
def sideFault (code : BitVec 8) (a : Nat) : SideFault := ({ code := code, gpa := 0, table := false }, a)

/-- Where a scratchpad side lies, when its form and ownership hold (11 R221). -/
def State.sideScratch (s : State) (o : EngOp) (space a n : Nat) : Option Nat :=
  if 2 ^ 32 ≤ a then none
  else match engTarget o.core space (BitVec.ofNat 32 a) with
    | none => none
    | some (t, off) => if s.ownsBytes o.ctx t off n then some (spadAt t off) else none

/-- The key of a scratchpad word among the words that an operation has read; pages' keys are smaller. -/
def spadKey (at_ : Nat) : Nat := 2 ^ 64 + at_ / 4

/-- Reads `len` bytes of a side; words that are read already stand. DESIGN CHOICE (log 101): a row outside the context's part of a
scratchpad ends the operation with SCRATCH_RANGE. -/
def State.sideRead (s : State) (n : Nat) (o : EngOp) (space a len : Nat) (fresh : Bool) : SourceStep × State :=
  match space with
  | 0 => s.sourceRead (.engine o.engine) o.ctx a len fresh (.engine o.core n) o.got
  | 4 => if s.lodeRangeBad o.core o.ctx a len then (.fault permFault a, s) else (.ok (s.lode.readN (lodeAt o.core a) len), s.count o.ctx 2 len)
  | _ =>
    match s.sideScratch o space a len with
    | none => (.fault { permFault with code := cScratchRange } a, s)
    | some at_ => (.ok (overlayBy spadKey o.got at_ (s.spad.readN at_ len)), s)

/-- Reports the watchpoints that a write of an operation matches, each once (21 R334). -/
def State.reportWatches (s : State) (n : Nat) (o : EngOp) (va len : Nat) : State :=
  let new := (s.engineWatches o.ctx va len).filter fun w => !o.watched.contains w
  let r : EvRec := { EvRec.zero with time := BitVec.ofNat 64 (s.unitTime (.engine o.engine)), wid := o.wid, pc := o.pc,
                                     unit := 2, engine := BitVec.ofNat 8 o.engine }
  (s.modEng n fun o => { o with watched := o.watched ++ new }).postWatches o.ctx va r new

/-- Writes bytes of a side: all of them, or none. -/
def State.sideWrite (s : State) (n : Nat) (o : EngOp) (space a : Nat) (bs : List Byte) (fresh : Bool) : Option SideFault × State :=
  match space with
  | 0 =>
    match s.agentWrite (.engine o.engine) o.ctx a bs fresh with
    | (some e, s1) => (some e, s1)
    | (none, s1) => (none, s1.reportWatches n o a bs.length)
  | 4 => (some (sideFault cPerm a), s)
  | _ =>
    match s.sideScratch o space a bs.length with
    | none => (some (sideFault cScratchRange a), s)
    | some at_ => (none, { s with spad := s.spad.writeN at_ bs })

/-! ### Ends of a unit -/

/-- The bytes of a unit of a length: 256, or what is left. -/
def EngOp.unitLen (o : EngOp) : Nat := min 256 (o.len - 256 * o.units)

/-- The bytes that the current unit moves: of a chunk, a row, or a pair. -/
def EngOp.unitBytes (o : EngOp) : Nat :=
  match o.kind with
  | .gather => o.rowBytes
  | .scatter => o.rowBytes
  | .sort => 8
  | _ => o.unitLen

/-- Counts the bytes of an operation's current unit (24 R367). -/
def State.tallyUnit (s : State) (n : Nat) : State :=
  match s.engs.get? n with
  | some o => s.count o.ctx 3 o.unitBytes
  | none => s

/-- The current unit is done: the next one begins, or a cancelled operation ends (11 R231). -/
def State.engDone (s : State) (n : Nat) : State :=
  let s1 := (s.tallyUnit n).modEng n fun o =>
    { o with units := o.units + 1, stage := .running, got := [], moved := 0, swap := false
             buffer := if o.kind == .copy || o.kind == .sort then o.buffer else none }
  match s1.engs.get? n with
  | some o => if o.cancelled then s1.endEng n o 6 0 else s1
  | none => s1

/-- A unit that meets a fault: it waits for a page, reported once, or the operation ends in state 2 (11 R223; 20 R322). -/
def State.engFault (s : State) (n : Nat) (o : EngOp) (k : AccKind) (e : SideFault) : State :=
  if !replayable e.1.code then s.endEng n o 2 e.1.code
  else
    let again := match o.stage with
      | .page p => p.code == cPageS1 && e.1.code == cPageS1
      | _ => false
    if again then s.modEng n fun o => match o.stage with
      | .page p => { o with stage := .page { p with served := false } }
      | _ => o
    else
      let u : TUnit := .engine o.engine
      let (p, s1) := s.awaitPage u o.ctx e.2 k e.1
        { EvRec.zero with time := BitVec.ofNat 64 (s.unitTime u), wid := o.wid, pc := o.pc, core := BitVec.ofNat 8 o.core,
                          unit := 2, engine := BitVec.ofNat 8 o.engine, info := memInfo k 255 }
      s1.modEng n fun o => { o with stage := .page p }

/-! ### Copies and rows (11 R226, R227) -/

/-- Whether source and destination of a copy overlap. -/
def EngOp.selfOverlap (o : EngOp) : Bool :=
  let d := o.range o.dspace o.dst o.len true
  let r := o.range o.sspace o.src o.len false
  d.space == r.space && overlaps d.lo d.hi r.lo r.hi

/-- Where a read of a source leads: on with its bytes, to a fault, or nowhere yet. -/
def State.onRead (n : Nat) (o : EngOp) (r : SourceStep × State) (go : List Byte → State → State) : State :=
  match r with
  | (.fault x va, s) => s.engFault n o .read (x, va)
  | (.merging, s) => s
  | (.ok bs, s) => go bs s

/-- Writes the current unit whole. -/
def State.putWhole (s : State) (n : Nat) (o : EngOp) (space a : Nat) (bs : List Byte) (fresh : Bool) : State :=
  match s.sideWrite n o space a bs fresh with
  | (some e, s1) => s1.engFault n o .write e
  | (none, s1) => s1.engDone n

/-- A unit of VCOPY. Where the ranges overlap, the whole source is read before the first write. -/
def State.copyUnit (s : State) (n : Nat) (o : EngOp) (fresh : Bool) : State :=
  let off := 256 * o.units
  let put := fun (bs : List Byte) (s : State) => s.putWhole n o o.dspace (o.dst + off) bs fresh
  match o.buffer with
  | some all => put ((all.drop off).take o.unitLen) s
  | none =>
    if o.selfOverlap then State.onRead n o (s.sideRead n o o.sspace o.src o.len fresh) fun all s =>
      put ((all.drop off).take o.unitLen) (s.modEng n fun o => { o with buffer := some all })
    else State.onRead n o (s.sideRead n o o.sspace (o.src + off) o.unitLen fresh) put

/-- Index `i` of the list of a gather or scatter. -/
def State.indexAt (s : State) (o : EngOp) (i : Nat) : Nat :=
  match markedTarget o.core o.index with
  | none => 0
  | some (t, off) => s.spad.nat (spadAt t off + o.indexBytes * i) o.indexBytes

/-- A row of VGATHER or VSCATTER. -/
def State.rowUnit (s : State) (n : Nat) (o : EngOp) (fresh : Bool) : State :=
  let x := s.indexAt o o.units
  let gather := o.kind == .gather
  let from_ := o.src + (if gather then x else o.units) * o.rowBytes
  let into := o.dst + (if gather then o.units else x) * o.rowBytes
  if 2 ^ 48 ≤ (if gather then from_ else into) then s.endEng n o 2 cPerm
  else State.onRead n o (s.sideRead n o o.sspace from_ o.rowBytes fresh) fun bs s => s.putWhole n o o.dspace into bs fresh

/-! ### Peers (11 R229; 23 R352, R355) -/

/-- The translated parts of a remote range, each on a leaf of kind peer. -/
def State.remotePieces (s : State) (o : EngOp) (rs : List (Nat × Nat)) (k : AccKind) (fresh : Bool) :
    Except SideFault (List (Xlated × Nat)) × State :=
  match State.xlatAll (.engine o.engine) o.ctx k true fresh rs s with
  | (.error e, s1) => (.error e, s1)
  | (.ok ts, s1) =>
    if ts.any fun t => t.1.item.kind != .peer then (.error (sideFault cPerm ((rs.head?.map (·.1)).getD 0)), s1) else (.ok ts, s1)

/-- Some ranges without their first `n` bytes. -/
def skipBytes : Nat → List (Nat × Nat) → List (Nat × Nat)
  | _, [] => []
  | n, (a, len) :: rest => if len ≤ n then skipBytes (n - len) rest else (a + n, len - n) :: rest

/-- The parts, by pages, of the range of the current unit that are still to be moved, in their order. -/
def EngOp.rest (o : EngOp) (va len : Nat) : List (Nat × Nat) :=
  skipBytes o.moved (if o.swap then (pagePieces va len).reverse else pagePieces va len)

/-- An operation none of whose current unit is moved, with the unit's pieces in their ascending order again. -/
def EngOp.restart (o : EngOp) : EngOp := if o.moved = 0 then { o with swap := false } else o

/-- Translated parts of a unit from `va`, each with its length and its offset in the unit. -/
def piecesAt (va : Nat) (ts : List (Xlated × Nat)) (rs : List (Nat × Nat)) : List (Xlated × Nat × Nat) :=
  (ts.zip rs).map fun p => (p.1.1, p.2.2, p.2.1 - va)

/-- The packet of a piece. -/
def EngOp.packet (op : PeerOp) (stamp : Nat) (t : Xlated) (n : Nat) (bs : List Byte) : Packet :=
  { op := op, addr := t.phys.addr, stamp := stamp, len := n, data := bs, srcdev := 0 }

/-- The piece at hand of a unit is moved, with what a peer has answered for it. -/
def State.pieceDone (s : State) (n len : Nat) (bs : List Byte) : State :=
  s.modEng n fun o =>
    { o with moved := o.moved + len, stage := .running
             buffer := if o.kind == .get then some (o.buffer.getD [] ++ bs) else o.buffer }

/-- What a peer's answer other than data makes of a unit (23 R355). A cancelled operation whose unit was not done ends
(11 R231; DESIGN CHOICE, log 38: a STALE answer leaves it at a unit boundary; a refusal or a timeout ends it in state 4 or 3). -/
def State.engRefused (s : State) (n : Nat) (o : EngOp) (r : PeerStep) : State :=
  match r with
  | .done _ => s
  | .waits => s.modEng n fun o => { o with stage := .sent (s.unitTime (.engine o.engine)) }
  | .stale v =>
    if o.cancelled then s.endEng n o 6 0
    else if o.staleUnit = some o.units then s.endEng n o 5 cStale
    else s.modEng n fun o => { o with stage := .stale v, staleUnit := some o.units }
  | .nack code => s.endEng n o 4 code

/-- An operation remembers the watchpoints of a partition of this module that a piece has matched (21 R334). -/
def State.noteWatches (s : State) (n : Nat) (ws : List Nat) : State :=
  s.modEng n fun o => { o with watched := o.watched ++ ws.filter fun w => !o.watched.contains w }

/-- The peer index that a leaf and an instruction name (11 R229). -/
def EngOp.target (o : EngOp) (t : Xlated) : BitVec 15 := t.item.peerhi ++ o.peer

/-- Sends a piece to the peer that its leaf and the instruction name (11 R229): the first part says whether it is done. -/
def State.sendPiece (s : State) (n : Nat) (o : EngOp) (op : PeerOp) (t : Xlated) (len : Nat) (bs : List Byte) : Bool × State :=
  let k := EngOp.packet op (s.unitTime (.engine o.engine)) t len bs
  let seen := ((s.engs.get? n).getD o).watched
  let met := match s.loopback (o.target t) with
    | some q => s.packetWatches q k
    | none => []
  match s.sendPeer o.ctx (o.target t) k seen with
  | (.done data, s1) => (true, (s1.pieceDone n len data).noteWatches n met)
  | (r, s1) => (false, s1.engRefused n o r)

/-- Whether a piece would be refused now by a partition of this module, or, where it is combined here, meets poison. -/
def State.pieceRefused (s : State) (o : EngOp) (op : PeerOp) (t : Xlated) (len : Nat) (bs : List Byte) : Bool :=
  if t.item.kind != .peer then s.badPiece t len
  else match (s.sendPeer o.ctx (o.target t) (EngOp.packet op (s.unitTime (.engine o.engine)) t len bs) []).1 with
    | .stale _ => true
    | .nack _ => true
    | _ => false

/-- Whether a piece goes to a peer on another device. -/
def State.away (s : State) (o : EngOp) (t : Xlated) : Bool := t.item.kind == .peer && (s.loopback (o.target t)).isNone

/-- Whether the second of the two pieces of a unit goes first: it alone goes to another device, whose refusal must find nothing
written (11 R223). -/
def State.swaps (s : State) (o : EngOp) (ps : List (Xlated × Nat × Nat)) : Bool :=
  match ps with
  | [a, b] => o.moved == 0 && !s.away o a.1 && s.away o b.1
  | _ => false

/-- What a unit does first with its pieces, so that it is written whole or not at all (11 R223): one that is refused here and now
goes alone, and one that only another device can refuse goes first. DESIGN CHOICE (log 38): of two pieces for two other devices, the
second may be refused once the first is written. -/
def State.orderPieces (s : State) (o : EngOp) (op : PeerOp) (bs : List Byte) (ps : List (Xlated × Nat × Nat)) :
    List (Xlated × Nat × Nat) :=
  match ps.find? fun p => s.pieceRefused o op p.1 p.2.1 ((bs.drop p.2.2).take p.2.1) with
  | some p => [p]
  | none => if s.swaps o ps then ps.reverse else ps

/-- Keeps the bytes of the current unit, which are read once, and the order of its pieces. -/
def State.keepUnit (s : State) (n : Nat) (o : EngOp) (bs : List Byte) (ps : List (Xlated × Nat × Nat)) : State :=
  s.modEng n fun p => { p with buffer := some bs, swap := if o.moved = 0 then s.swaps o ps else o.swap }

/-- The bytes of the current unit's source: those that are kept, or read now. -/
def State.unitBytesOr (s : State) (n : Nat) (o : EngOp) (fresh : Bool) (go : List Byte → State → State) : State :=
  match o.buffer with
  | some bs => go bs s
  | none => State.onRead n o (s.sideRead n o o.sspace (o.src + 256 * o.units) o.unitLen fresh) go

/-- Sends pieces in order while each is done; the first part says whether all are. -/
def State.sendPieces (n : Nat) (o : EngOp) (op : PeerOp) (bs : List Byte) : List (Xlated × Nat × Nat) → State → Bool × State
  | [], s => (true, s)
  | (t, len, off) :: ts, s =>
    match s.sendPiece n o op t len ((bs.drop off).take len) with
    | (false, s1) => (false, s1)
    | (true, s1) => State.sendPieces n o op bs ts s1

/-- A unit of VPUT, piece by piece, each to its leaf's target. -/
def State.putUnit (s : State) (n : Nat) (o : EngOp) (fresh : Bool) : State :=
  let va := o.dst + 256 * o.units
  let o := o.restart
  s.unitBytesOr n o fresh fun bs s1 =>
    match s1.remotePieces o (o.rest va o.unitLen) .write fresh with
    | (.error e, s2) => s2.engFault n o .write e
    | (.ok ts, s2) =>
      let ps := piecesAt va ts (o.rest va o.unitLen)
      let go := State.sendPieces n o .put bs (s2.orderPieces o .put bs ps) (s2.keepUnit n o bs ps)
      if go.1 then go.2.engDone n else go.2

/-- A unit of VGET: its pieces are asked for in order, and it is written once all have come. -/
def State.getUnit (s : State) (n : Nat) (o : EngOp) (fresh : Bool) : State :=
  let va := o.src + 256 * o.units
  match s.remotePieces o (o.rest va o.unitLen) .read fresh with
  | (.error e, s1) => s1.engFault n o .read e
  | (.ok ts, s1) =>
    match State.sendPieces n o .get [] (piecesAt va ts (o.rest va o.unitLen)) s1 with
    | (false, s2) => s2
    | (true, s2) =>
      match s2.engs.get? n with
      | none => s2
      | some p => s2.putWhole n p p.dspace (p.dst + 256 * p.units) (p.buffer.getD []) fresh

/-! ### VRED (11 R228; 19 R303) -/

/-- The deterministic-mode records of a unit's elements from element `e` on, each accepted by itself; it ends at the first that
is not, with its number and that fault. -/
def State.bufferFrom (n : Nat) (o : EngOp) : List Word → Nat → State → Option (Nat × XFault) × State
  | [], _, s => (none, s)
  | v :: vs, e, s =>
    match s.bufferRecord (.engine o.engine) o.launch
      { target := o.dst + 4 * e, value := v, op := o.amod.toNat - 1, lane := 0, warp := o.wno, block := o.bix,
        issue := o.issue, element := e } with
    | .error x => (some (e, x), s)
    | .ok s1 => State.bufferFrom n o vs (e + 1) (s1.modEng n fun o => { o with moved := o.moved + 4 })

/-- A record that a launch's buffer does not accept is refused as PERM, and the operation ends (19 R303). -/
def State.bufferFull (s : State) (n : Nat) (o : EngOp) (va : Nat) : State :=
  let u : TUnit := .engine o.engine
  let fn := (s.ctx o.ctx).fn
  let s1 := (s.modLaunch o.launch fun l => { l with overflow := true }).post fn
    { EvRec.zero with
      time := BitVec.ofNat 64 (s.unitTime u), wid := o.wid, pc := o.pc, addr := BitVec.ofNat 64 va, info := memInfo .rmw 255,
      core := BitVec.ofNat 8 o.core, unit := 2, engine := BitVec.ofNat 8 o.engine,
      context := BitVec.ofNat 12 (s.ctx o.ctx).number, vf := vfField fn, kind := 2, code := cPerm }
  s1.endEng n o 2 cPerm

/-- Whether an operation's elements at a local destination are buffered now. -/
def State.engBuffered (s : State) (o : EngOp) : Bool := s.engBuffers o && (s.launch o.launch).state == 2

/-- What a record that is not accepted comes to: a full buffer, or a fault of the buffer's own page. -/
def State.bufferStops (s : State) (n : Nat) (o : EngOp) (va : Nat) (x : XFault) : State :=
  let l := s.launch o.launch
  if l.bufferSize ≤ l.accepted then s.bufferFull n o va
  else s.engFault n o .write (x, fieldAt l.record 168 8 + 32 * l.accepted)

/-- Combines a piece of a unit at the home L2, or buffers its records; the first part says whether all of it is done. -/
def State.combinePiece (s : State) (n : Nat) (o : EngOp) (va : Nat) (t : Xlated) (len : Nat) (bs : List Byte) : Bool × State :=
  if s.badPiece t len then (false, s.endEng n o 2 cUe)
  else if s.engBuffered o then
    match State.bufferFrom n o (wordsIn bs) ((va - o.dst) / 4) s with
    | (none, s1) => (true, s1)
    | (some (e, x), s1) => (false, s1.bufferStops n ((s1.engs.get? n).getD o) (o.dst + 4 * e) x)
  else
    let s1 := State.combineAt t (vredCode o.amod.toNat) (wordsIn bs) 0 s
    (true, (s1.reportWatches n o va len).pieceDone n len [])

/-- Combines pieces in order, each at its leaf's home: here, or at the peer's (11 R228). -/
def State.redPieces (n : Nat) (o : EngOp) (va : Nat) (bs : List Byte) : List (Xlated × Nat × Nat) → State → Bool × State
  | [], s => (true, s)
  | (t, len, off) :: ts, s =>
    let mine := (bs.drop off).take len
    let r := if t.item.kind = .peer then s.sendPiece n o (.reduce o.amod) t len mine
      else s.combinePiece n o (va + off) t len mine
    match r with
    | (false, s1) => (false, s1)
    | (true, s1) => State.redPieces n o va bs ts s1

/-- A unit of VRED: each element is combined where its own leaf lies. -/
def State.redUnit (s : State) (n : Nat) (o : EngOp) (fresh : Bool) : State :=
  let va := o.dst + 256 * o.units
  let o := o.restart
  s.unitBytesOr n o fresh fun bs s1 =>
    match State.xlatAll (.engine o.engine) o.ctx .rmw true fresh (o.rest va o.unitLen) s1 with
    | (.error e, s2) => s2.engFault n o .rmw e
    | (.ok ts, s2) =>
      let ps := piecesAt va ts (o.rest va o.unitLen)
      let go := State.redPieces n o va bs (s2.orderPieces o (.reduce o.amod) bs ps) (s2.keepUnit n o bs ps)
      if go.1 then go.2.engDone n else go.2

/-! ### SORT (11 R232) -/

/-- The order of two keys of a type: below, or equal. -/
def keyLe (amod : Nat) (desc : Bool) (a b : Word) : Bool :=
  let le := fun (x y : Word) => match amod with
    | 0 => decide (x.toNat ≤ y.toNat)
    | 1 => decide (x.toInt ≤ y.toInt)
    | _ => decide ((orderKey x).toNat ≤ (orderKey y).toNat)
  if desc then le b a else le a b

/-- A pair set into a sorted list, after every pair that may precede it. -/
def sortInsert (le : Word → Word → Bool) (p : Word × Word) : List (Word × Word) → List (Word × Word)
  | [] => [p]
  | q :: qs => if le q.1 p.1 then q :: sortInsert le p qs else p :: q :: qs

/-- The pairs of keys and values in order; pairs with equal keys keep theirs. -/
def sortPairs (le : Word → Word → Bool) (ps : List (Word × Word)) : List (Word × Word) :=
  ps.foldl (fun l p => sortInsert le p l) []

/-- The sorter orders all the pairs first, and then writes them back pair by pair from position 0. -/
def State.sortUnit (s : State) (n : Nat) (o : EngOp) : State :=
  let bytes := 4 * o.len
  match o.buffer with
  | none =>
    State.onRead n o (s.sideRead n o 1 o.src bytes false) fun ks s1 =>
      State.onRead n o (s1.sideRead n o 1 o.dst bytes false) fun vs s2 =>
        let ps := sortPairs (keyLe o.amod.toNat o.desc) ((wordsIn ks).zip (wordsIn vs))
        s2.modEng n fun o => { o with buffer := some (ps.flatMap fun p => leBytes 4 p.1.toNat ++ leBytes 4 p.2.toNat) }
  | some all =>
    let pair := (all.drop (8 * o.units)).take 8
    match s.sideWrite n o 1 (o.src + 4 * o.units) (pair.take 4) false with
    | (some e, s1) => s1.engFault n o .write e
    | (none, s1) => s1.putWhole n o 1 (o.dst + 4 * o.units) (pair.drop 4) false

/-! ### The events -/

/-- Performs the next unit of an operation. -/
def State.engUnit (s : State) (n : Nat) (o : EngOp) (fresh : Bool) : State :=
  match o.kind with
  | .copy => s.copyUnit n o fresh
  | .gather => s.rowUnit n o fresh
  | .scatter => s.rowUnit n o fresh
  | .put => s.putUnit n o fresh
  | .get => s.getUnit n o fresh
  | .red => s.redUnit n o fresh
  | .sort => s.sortUnit n o

/-- The range that the current unit of an operation reads on its source side; that of VGET lies at its peer. -/
def State.unitSource (s : State) (o : EngOp) : Nat × Nat :=
  match o.kind with
  | .gather => (o.src + s.indexAt o o.units * o.rowBytes, o.rowBytes)
  | .scatter => (o.src + o.units * o.rowBytes, o.rowBytes)
  | .sort => (o.src + 4 * o.units, 4)
  | .copy => if o.selfOverlap && o.buffer.isNone then (o.src, o.len) else (o.src + 256 * o.units, o.unitLen)
  | _ => (o.src + 256 * o.units, o.unitLen)

/-- The range that the current unit writes or combines on its destination side. -/
def State.unitDest (s : State) (o : EngOp) : Nat × Nat :=
  match o.kind with
  | .gather => (o.dst + o.units * o.rowBytes, o.rowBytes)
  | .scatter => (o.dst + s.indexAt o o.units * o.rowBytes, o.rowBytes)
  | .sort => (o.dst + 4 * o.units, 4)
  | _ => (o.dst + 256 * o.units, o.unitLen)

/-- Whether the current unit reads a lode bank in refresh (06 R128). -/
def State.engLodeBusy (s : State) (o : EngOp) : Bool :=
  o.sspace == 4 && s.lodeBusy (s.unitSource o).1 (s.unitSource o).2

/-- An operation reads a word of its current unit's source before the rest (11 R225). -/
def State.engEarly (s : State) (n j : Nat) : State :=
  match s.engs.get? n with
  | none => s
  | some o =>
    if o.stage != .running || decide (o.total ≤ o.units) || o.kind == .get || o.kind == .sort || o.buffer.isSome then s
    else match wordOfRanges [s.unitSource o] j with
      | none => s
      | some va =>
        let keep := fun (s : State) (key : Nat) (w : Word) => s.modEng n fun o => { o with got := o.got.put key w }
        if o.sspace = 0 then
          match s.earlyWord (.engine o.engine) o.ctx va o.got with
          | (some (key, w), s1) => keep s1 key w
          | (none, s1) => s1
        else match s.sideScratch o o.sspace va 4 with
          | some at_ =>
            if o.sspace = 4 || o.got.has (spadKey at_) then s else keep s (spadKey at_) (BitVec.ofNat 32 (s.spad.nat at_ 4))
          | none => s

/-- An operation reads a word early: an engine's, or one of class X. -/
def State.readEarly (s : State) (r : Reader) (word : Nat) : State :=
  match r with
  | .engine _ n => s.engEarly n word
  | .array c n => s.xEarly c n word
  | _ => s

/-- The length of the piece of the current unit that is at hand. -/
def State.pieceLen (s : State) (o : EngOp) : Nat :=
  let r := if o.kind == .get then s.unitSource o else s.unitDest o
  (((o.rest r.1 r.2).map (·.2)).headD 0)

/-- A peer has answered for the piece at hand, to a read with bytes that the manual does not state (log 14): the unit goes on
with its next piece. -/
def State.engAnswered (s : State) (n : Nat) (o : EngOp) : State :=
  let s1 := s.pieceDone n (s.pieceLen o) (peerAnswer s.steps (s.pieceLen o))
  match s1.engs.get? n with
  | some p => if (s.unitDest o).2 ≤ p.moved ∧ o.kind != .get then s1.engDone n else s1.engUnit n p false
  | none => s1

/-- The next unit, once what it waits for has come; nothing before. -/
def State.engNext (s : State) (n : Nat) (o : EngOp) : State :=
  if decide (o.total ≤ o.units) || s.engLodeBusy o then s
  else match o.stage with
    | .locked => s
    | .running => s.engUnit n o false
    | .page p => if !p.served then s else if replayable p.code then s.engUnit n o true else s.endEng n o 2 p.code
    | .sent stamp =>
      if stamp + 1000000 ≤ s.unitTime (.engine o.engine) then s.endEng n o 3 cPeerTimeout else s.engAnswered n o
    | .stale v => if v ≤ s.unitTime (.engine o.engine) then s.engUnit n o true else s

/-- ENGINE_UNIT_TRANSFER: an operation moves its next unit (11 R223). -/
def execEngineUnitTransfer (op : Nat) (s : State) : Host.Outcome State Fault Refusal :=
  match s.engs.get? op with
  | none => .next s
  | some o => .next (s.engNext op o)

/-- ENGINE_OPERATION_COMPLETE: every unit is done, and the status word is written (11 R222, R224). -/
def execEngineOperationComplete (op : Nat) (s : State) : Host.Outcome State Fault Refusal :=
  match s.engs.get? op with
  | none => .next s
  | some o => if o.stage = .running ∧ o.units = o.total then .next (s.endEng op o 0 0) else .next s

/-- ENGINE_LOCK_WAIT_END: no earlier operation conflicts any more (11 R224). -/
def execEngineLockWaitEnd (op : Nat) (s : State) : Host.Outcome State Fault Refusal :=
  match s.engs.get? op with
  | none => .next s
  | some o =>
    if o.stage = .locked ∧ !s.lockConflict op then .next (s.modEng op fun o => { o with stage := .running }) else .next s

/-- The pages of the current unit of an operation in global memory, with what it does there. -/
def State.unitAddrs (s : State) (o : EngOp) : List (Nat × AccKind) :=
  let side := fun (space : Nat) (r : Nat × Nat) (k : AccKind) =>
    if space = 0 ∧ o.kind ≠ .sort then (pagePieces r.1 r.2).map fun p => (p.1, k) else []
  side o.sspace (s.unitSource o) .read ++ side o.dspace (s.unitDest o) (if o.kind == .red then .rmw else .write)

/-- Renews a translation of an operation in progress whose lease runs out: it walks afresh, and a failure makes the chunk
fault (20 R313). -/
def State.renew (s : State) (n : Nat) (o : EngOp) (va : Nat) (k : AccKind) : State :=
  let u : TUnit := .engine o.engine
  let due := s.tlb.any fun t => t.serves u o.ctx va (s.unitTime u) && (match t.expiry with
    | none => false
    | some e => decide (8 * (e - s.unitTime u) < t.lease))
  if !due then s
  else match s.translate u o.ctx va k false true true with
    | (.ok _, s1) => s1
    | (.error e, s1) => s1.engFault n o k (e, va)

/-- LEASE_RENEWAL (20 R313). -/
def execLeaseRenewal (op : Nat) (s : State) : Host.Outcome State Fault Refusal :=
  match s.engs.get? op with
  | none => .next s
  | some o =>
    if o.stage != .running || decide (o.total ≤ o.units) then .next s
    else .next ((s.unitAddrs o).foldl (fun s a =>
      match s.engs.get? op with
      | some p => if p.stage = .running then s.renew op p a.1 a.2 else s
      | none => s) s)

/-! ### Answers of peers on other devices -/

/-- What a peer operation's number names: an engine operation, or the class X operation of a core. -/
def peerTarget (op : Nat) : Nat ⊕ (Nat × Nat) :=
  if op < 2 ^ 40 then .inl op else .inr ((op - 2 ^ 40) % 256, (op - 2 ^ 40) / 256)

/-- A refusal for an operation that has a packet under way; one that comes late is discarded (23 R355). -/
def State.answerPeer (s : State) (op : Nat) (r : PeerStep) : State :=
  match peerTarget op with
  | .inl n =>
    match s.engs.get? n with
    | none => s
    | some o =>
      match o.stage with
      | .sent stamp => if stamp + 1000000 ≤ s.unitTime (.engine o.engine) then s else s.engRefused n o r
      | _ => s
  | .inr (c, n) =>
    match (s.core c).xq.get? n with
    | none => s
    | some o =>
      match o.stage with
      | .sent stamp => if stamp + 1000000 ≤ s.timeAt c then s else s.peerUnit c n o r
      | _ => s

/-- PEER_STALE_ANSWER: the first time the chunk waits for validfrom, the second time the operation ends in state 5
(23 R355). -/
def execPeerStaleAnswer (op validfrom : Nat) (s : State) : Host.Outcome State Fault Refusal :=
  .next (s.answerPeer op (.stale validfrom))

/-- PEER_NACK_ANSWER: the operation ends in state 4 with the carried code (23 R355). -/
def execPeerNackAnswer (op : Nat) (code : BitVec 8) (s : State) : Host.Outcome State Fault Refusal :=
  .next (s.answerPeer op (.nack code))

/-- PEER_TIMEOUT: no answer came in 1,000,000 ticks, and the operation ends in state 3 (23 R355). -/
def execPeerTimeout (op : Nat) (s : State) : Host.Outcome State Fault Refusal :=
  match peerTarget op with
  | .inl n =>
    match s.engs.get? n with
    | none => .next s
    | some o =>
      match o.stage with
      | .sent stamp =>
        if stamp + 1000000 ≤ s.unitTime (.engine o.engine) then .next (s.endEng n o 3 cPeerTimeout) else .next s
      | _ => .next s
  | .inr (c, n) =>
    match (s.core c).xq.get? n with
    | none => .next s
    | some o =>
      match o.stage with
      | .sent stamp => if stamp + 1000000 ≤ s.timeAt c then .next (s.failAsync c n o 3 cPeerTimeout) else .next s
      | _ => .next s

/-- FABRIC_LINK_SKEW_DOWN: a link that measures more than 256 ticks between its ends goes down, and each partition's event
queue gets a record of kind 8 (23 R352). -/
def execFabricLinkSkewDown (link skew : Nat) (s : State) : Host.Outcome State Fault Refusal :=
  if skew ≤ 256 then .next s
  else .next ((s.parts.map (·.1)).foldl (fun s p => s.post (pfKey p)
    { EvRec.zero with time := BitVec.ofNat 64 s.time, unit := 4, vf := vfField (pfKey p), kind := 8 })
    { s with downLinks := if s.downLinks.contains link then s.downLinks else s.downLinks ++ [link] })

end Sys2Proof.Machine
end

