-- ==== Sys2Proof/Machine/Host.lean ====
section
/-! DEFINITION. The host attach, the skew checker, resets, boot and identity (20 R305, R306; 23 R342 to R351; 24 R371). -/
namespace Sys2Proof.Machine

/-! ### The skew checker (20 R306) -/

/-- Whether a unit lies on a die. -/
def onDie (u : TUnit) (d : Nat) : Bool := unitDie u == some d

/-- The partitions that hold slices on a die. -/
def State.partsOnDie (s : State) (d : Nat) : List Nat :=
  (s.parts.filter fun p => (List.range p.2.size).any fun i => (p.2.first + i) / 8 == d).map (·.1)

/-- What the checker does with a die whose copy deviates by more than 8 ticks: its translation caches are empty, its copy
is reloaded, and each partition with slices there gets an event. -/
def State.correctDie (s : State) (d : Nat) (dev : Int) : State :=
  let s1 := { s with
    tlb := s.tlb.filter fun t => !onDie t.unit d
    walks := s.walks.filter fun w => !onDie w.unit d
    dieDev := s.dieDev.del d }
  let r := { EvRec.zero with
    time := BitVec.ofNat 64 s.time, info := BitVec.ofInt 32 dev, core := BitVec.ofNat 8 d, unit := 4, vf := 0xFF, kind := 5
    code := cClockSkew }
  (s.partsOnDie d).foldl (fun s p => s.post (pfKey p) r) s1

/-- Whether copies of the counter, by how far they deviate from the hub's, agree as readers must: any two that have not
deviated by more than 8 ticks stand within 8 of each other (20 R305). -/
def skewOk (t : Tab Int) : Bool :=
  let near := t.filter fun x => decide (x.2.natAbs ≤ 8)
  near.all fun x => near.all fun y => decide ((x.2 - y.2).natAbs ≤ 8)

/-- One die at a check. -/
def State.checkDie (s : State) (d : Nat) : State :=
  let dev := s.dieDev.getD d 0
  if 8 < dev.natAbs then s.correctDie d dev else s

/-- The check of all dies (20 R306). -/
def State.checkDies (s : State) : State := (List.range 4).foldl (fun s d => s.checkDie d) s

/-- The checks that come due before the time base has counted `end_` ticks: at the first multiple of 4,096 that it reaches every die
is checked, which leaves the later ones of the same pass nothing to correct (20 R306). -/
def State.checksUpTo (s : State) (end_ : Nat) : State :=
  let m := (s.time / 4096 + 1) * 4096
  if end_ < m then s else { s with time := m }.checkDies

/-- Whether a translation ends for a core before the time base has counted `end_` ticks, by its own copy or by the hub's. -/
def State.endsBy (s : State) (end_ : Nat) (c : Nat) (expiry : Option Nat) : Bool :=
  !unexpired expiry end_ || !unexpired expiry ({ s with time := end_ }.timeAt c)

/-- Ticks of the time base and compute cycles pass (20 R305). What has been begun under a translation that ends meanwhile is performed
first (20 R312, R315), and the checks that come due are made (20 R306). -/
def State.pass (s : State) (ticks cycles : Nat) : State :=
  let end_ := s.time + ticks
  let s1 := (s.finishLanes fun c _ e => s.endsBy end_ c e).checksUpTo end_
  { s1 with time := end_ % 2 ^ 64, cycle := s1.cycle + cycles }

/-- SKEW_CHECK: every 4,096 ticks the dies' copies are compared with the hub's; `dev` is how far the copies of dies 0 up
deviate from then on, where that is what R305 lets them (20 R305, R306). -/
def execSkewCheck (dev : List Int) (s : State) : Host.Outcome State Fault Refusal :=
  if s.time < s.checked + 4096 then .next s
  else
    let s1 := { s with checked := s.time / 4096 * 4096 }.checkDies
    let t := (dev.take 4).zipIdx.foldl (fun (t : Tab Int) (x : Int × Nat) =>
      if x.1 = 0 then t.del x.2 else t.put x.2 x.1) s1.dieDev
    .next (if skewOk t then { s1 with dieDev := t } else s1)

/-! ### The host's accesses (23 R346, R347) -/

/-- HOST_SNOOP: the home L2 gives up a host line that it holds, with its modified bytes (23 R346). -/
def execHostSnoop (line : Nat) (s : State) : Host.Outcome State Fault Refusal :=
  match s.l2.find? fun l => l.is true line with
  | some l => .next (s.giveUpLine l)
  | none => .next s

/-- The partition whose decoder covers a range of device memory, when CXL.mem is enabled (23 R343, R349). -/
def State.decoder (s : State) (addr len : Nat) : Option Nat :=
  if !s.feature 2 then none
  else (s.parts.find? fun p => s.groupOk p.1 addr && s.groupOk p.1 (addr + len - 1)).map (·.1)

/-- HOST_MEM_ACCESS: a host read or write of device memory, performed at the home L2; a poisoned line returns poison
(23 R347; 24 R368). -/
def execHostMemAccess (addr len : Nat) (write : Bool) (data : List Byte) (s : State) : Host.Outcome State Fault Refusal :=
  match s.decoder addr len with
  | none => .next s
  | some p =>
    let at_ : Phys := { host := false, addr := addr }
    if write then .next (s.homeWrite p at_ (data.take len))
    else
      let bad := (linesFrom addr len).any fun l => s.poisoned { at_ with addr := 128 * l }
      let a := if bad then Answer.nack cUe else Answer.ok (s.physRead at_ len)
      .next { s with answers := s.answers ++ [(p, a)] }

/-! ### Resets (20 R305; 23 R342; 24 R371) -/

/-- The module after a reset: what is outside it, what its memory stacks hold, and what was fused survive
(DESIGN CHOICE, log 23, for the contents of the stacks and of the lines the L2s hold, which are written back). -/
def State.afterReset (s : State) : State :=
  let s1 := s.l2.foldl (fun s l => s.giveUpLine l) s
  { State.reset with
    turns := s1.turns, steps := s1.steps, dev := s1.dev, dram := s1.dram, host := s1.host, hostBehind := s1.hostBehind
    poison := s1.poison, minVersion := s1.raise.getD s1.minVersion, sideband := s1.sideband, sent := s1.sent
    answers := s1.answers, msix := s1.msix }

/-- MODULE_RESET: every context, partition and map ends, the time base restarts at 0, and a pending raise of the minimum
version takes effect (24 R371). -/
def execModuleReset (s : State) : Host.Outcome State Fault Refusal := .next s.afterReset

/-- SIDEBAND_DOWN: the hub and the compute dies are held in reset (23 R342). -/
def execSidebandDown (s : State) : Host.Outcome State Fault Refusal := .next { s.afterReset with sideband := false }

/-- SIDEBAND_UP: they leave reset with the time base at 0 and the boot page in state 0 (23 R342, R350). -/
def execSidebandUp (s : State) : Host.Outcome State Fault Refusal :=
  if s.sideband then .next s else .next { s.afterReset with sideband := true }

/-- LINK_MODULE_TRAINING_FAIL: the module is disabled, and the link runs on the rest (23 R342). -/
def execLinkModuleTrainingFail (m : Nat) (s : State) : Host.Outcome State Fault Refusal :=
  .next { s with linkModules := s.linkModules &&& ~~~(BitVec.ofNat 8 (2 ^ m)) }

/-! ### Boot (23 R348 to R350) -/

/-- Part of a list of bytes. -/
def slice (bs : List Byte) (off n : Nat) : List Byte := (bs.drop off).take n

/-- Whether the bytes of an image can be read. -/
def State.imageReadable (s : State) (addr len : Nat) : Bool :=
  decide (8192 ≤ len) && decide (len ≤ 67108864) &&
  !(linesFrom addr len).any fun l => s.poisoned { host := true, addr := 128 * l }

/-- The reason that rejects an image; 0 accepts it. The checks stand in their order. -/
def bootReason (image : List Byte) (minVersion : Nat) : Nat :=
  let f := fieldAt image
  let key := slice image 80 2592
  if f 0 4 != 0x58424B53 || f 4 4 != 1 then 0x01
  else if f 12 4 + 8192 != image.length then 0x07
  else if Config.sha3 key != Config.keyDigest then 0x02
  else if !Config.verify key (Config.sha3 (slice image 0 2672)) (slice image 2672 4627) then 0x03
  else if Config.sha3 (image.drop 8192) != slice image 16 64 then 0x04
  else if f 8 4 < minVersion then 0x05
  else 0

/-- Signals boot or attestation completion: vector 2 (23 R345). -/
def State.signalDone (s : State) : State := { s with msix := s.msix ++ [(pfKey 0, 2)] }

/-- The boot page once verification has ended with a reason. -/
def Boot.verified (b : Boot) (reason : Nat) (image : List Byte) : Boot :=
  if reason ≠ 0 then { b with state := 3, reason := reason, candidate := none }
  else { b with
    state := 2, reason := 0, candidate := none, enabled := b.enabled &&& Config.offered
    digest := slice image 16 64, version := fieldAt image 8 4 }

/-- The boot page as a go leaves it: the image at the address and of the length that stand there is under verification. -/
def Boot.begun (b : Boot) : Boot := { b with state := 1, reason := 0, candidate := some (b.image.toNat, b.len.toNat) }

/-- BOOT_GO: writing 1 makes the boot ROM verify the image, in states 0 and 3; other values and states ignore it
(23 R348, R350; DESIGN CHOICE, log 6, for states 1 and 2). -/
def execBootGo (value : BitVec 32) (s : State) : Host.Outcome State Fault Refusal :=
  if value ≠ 1 ∨ !s.sideband ∨ (s.boot.state ≠ 0 ∧ s.boot.state ≠ 3) then .next s
  else .next { s with boot := s.boot.begun }

/-- The reason that the checks of an image end with, and the image read; 0 accepts it (23 R350). -/
def State.checkImage (s : State) (addr len : Nat) : Nat × List Byte :=
  if !s.imageReadable addr len then (0x06, [])
  else
    let image := s.physRead { host := true, addr := addr } len
    (bootReason image s.minVersion, image)

/-- The boot ROM ends the verification under way: the image runs, or is rejected (23 R350). With the image, the compute clock
runs at 1.8 GHz (DESIGN CHOICE, log 4). -/
def State.verify (s : State) : State :=
  match s.boot.candidate with
  | none => s
  | some (addr, len) =>
    let r := s.checkImage addr len
    let s1 := { s with boot := s.boot.verified r.1 r.2 }.signalDone
    if r.1 = 0 then { s1 with mgmt := { s1.mgmt with clock := 36 } } else s1

/-! ### Identity (23 R351) -/

/-- Writes a response to a request: behind its first 64 bytes; the counter is raised and vector 2 signalled. -/
def State.respond (s : State) (bs : List Byte) : State :=
  let s1 := s.hostPut (s.boot.request.toNat + 64) bs
  { s1 with boot := { s1.boot with responses := (s1.boot.responses + 1) % 2 ^ 32 } }.signalDone

/-- CERTIFICATE_REQUEST: the certificate signed at manufacture is written. -/
def execCertificateRequest (s : State) : Host.Outcome State Fault Refusal :=
  if !s.sideband then .next s else .next (s.respond ((List.range 7219).map Config.certificate))

/-- The signed part of a report: nonce, body digest, versions, features, serial number, partition layout, time. -/
def State.reportBody (s : State) (nonce : List Byte) : List Byte :=
  nonce ++ slice (s.boot.digest ++ List.replicate 64 0) 0 64 ++ leBytes 4 s.boot.version ++ leBytes 4 s.minVersion
  ++ leBytes 8 s.boot.enabled.toNat ++ (List.range 16).map Config.serial
  ++ ((List.range 32).map fun i => BitVec.ofNat 8 (s.mgmt.slices.getD i 0xFF)) ++ leBytes 8 s.time

/-- REPORT_REQUEST: a signed report for the nonce at the request address, by the running image. -/
def execReportRequest (s : State) : Host.Outcome State Fault Refusal :=
  if !s.sideband ∨ s.boot.state ≠ 2 then .next s
  else
    let body := s.reportBody (s.physRead { host := true, addr := s.boot.request.toNat } 64)
    let sig := Config.sign (Config.sha3 body)
    .next (s.respond (body ++ (List.range 4627).map fun i => sig.getD i 0))

end Sys2Proof.Machine
end

