-- ==== Sys2Proof/Machine/Fences.lean ====
section
/-! DEFINITION. LAUNCH, named fences, schedule tables, and the privileged instructions (11 R237 to R242; 19 R295, R299 to
R302; 02 R46; 20 R314; 21 R334). -/
namespace Sys2Proof.Machine

/-! ### LAUNCH (11 R237) -/

/-- What LAUNCH asks of its issue. -/
def needsLaunch (h : Hdr) (f : SF) (s : State) : Needs :=
  let dests := constituents h.dest 1
  { fields := uniOk f.srca 2 && nul f.srcb && f.group == 0 && f.subop == 0 && decide (f.imm.toNat < 64) && destOk h 1 []
    peeks := rd f.srca 2, dests := dests, count := h.count
    stalls := s.releaseStall }

/-- LAUNCH: a release at .pt, then a request to the partition's command processor; the destination is owed its status. -/
def execLaunch (h : Hdr) (f : SF) (s : State) : Host.Outcome State Fault Refusal :=
  let dests := constituents h.dest 1
  issue s h (.launch h f) (needsLaunch h f s)
    fun e s' =>
      let p := s.partOfCore e.core
      let dest : Dest := { name := h.dest, count := h.count, lanes := e.act }
      let s1 := s'.modWarp e.core e.slot fun w => (w.bindPending e.act dests h.count).sweep.advance e.frag
      if e.act = 0 then s1
      else s1.modPart p fun q =>
        { q with requests := q.requests ++ [{ addr := (e.w.kpair f.srca).toNat, queue := f.imm.toNat, core := e.core, slot := e.slot,
                                              wid := e.w.wid, dest := dest, record := none, number := q.reqseq }]
                 reqseq := q.reqseq + 1 }

/-! ### Named fences (11 R238, R239; 19 R295) -/

/-- A named fence of a partition. -/
def Part.fence (p : Part) (id : Nat) : BitVec 64 := p.fences.getD id 0

/-- The new value of a fence: add, set, or unsigned maximum. -/
def fenceNew (op : Nat) (old v : BitVec 64) : BitVec 64 :=
  match op with
  | 0 => old + v
  | 1 => v
  | _ => if old.toNat < v.toNat then v else old

/-- Updates a named fence of a partition. -/
def State.updateFence (s : State) (p id op : Nat) (v : BitVec 64) : State :=
  s.modPart p fun q => { q with fences := q.fences.put id (fenceNew op (q.fence id) v) }

/-- Whether a fence value meets a comparison: ge, eq, ne. -/
def fenceHolds (cmp : Nat) (x v : BitVec 64) : Bool :=
  match cmp with
  | 0 => decide (v.toNat ≤ x.toNat)
  | 1 => x == v
  | _ => x != v

/-- The fields common to FSIG and FWAIT. -/
def namedFenceFields (f : SF) : Bool :=
  (if nul f.srca then decide (f.imm.toNat < 4096) else uni f.srca && f.imm == 0) && (nul f.srcb || uniOk f.srcb 2) &&
  f.group == 0 && f.subop.extractLsb' 0 2 != 3 && decide ((f.subop.extractLsb' 2 2).toNat ≤ 1) && f.subop.extractLsb' 4 8 == 0

/-- The fence id of an issue. -/
def fenceId (w : Warp) (f : SF) : Nat := if nul f.srca then f.imm.toNat else (w.word f.srca 0).toNat

/-- The 64-bit operand of an issue, with its default. -/
def fenceValue (w : Warp) (f : SF) (d : BitVec 64) : BitVec 64 := if nul f.srcb then d else w.kpair f.srcb

/-- A fence id of 4,096 or more. -/
def fenceCheck (f : SF) (e : Env) : Option Raise := if 4096 ≤ fenceId e.w f then some (fieldRaise e.frag) else none

/-- What FSIG asks of its issue. -/
def needsFsig (h : Hdr) (f : SF) (s : State) : Needs :=
  { fields := namedFenceFields f && destNone h
    peeks := rd f.srca 1 ++ rd f.srcb 2
    entry := fenceCheck f
    stalls := s.releaseStall }

/-- FSIG: a cumulative release, then one indivisible update (11 R238). -/
def execFsig (h : Hdr) (f : SF) (s : State) : Host.Outcome State Fault Refusal :=
  issue s h (.fsig h f) (needsFsig h f s)
    fun e s' =>
      let s1 := s'.modWarp e.core e.slot fun w => w.advance e.frag
      if e.act = 0 then s1
      else s1.updateFence (s.partOfCore e.core) (fenceId e.w f) (f.subop.extractLsb' 0 2).toNat (fenceValue e.w f 1)

/-- Returns a fence wait whose condition holds: the destination receives the value that satisfied it, and the warp is
ordered as by an acquire (11 R239). -/
def State.returnFence (s : State) (c slot : Nat) (lanes : Mask) (id : Nat) (cmp : BitVec 2) (v : BitVec 64) (d : Dest) : State :=
  match s.warp? c slot with
  | none => s
  | some w =>
    let x := (s.part (s.partOfCore c)).fence id
    if fenceHolds cmp.toNat x v then
      ((s.completeOwed c slot w.wid d 2 fun _ => words64 x).endWait c slot lanes).invalidate c
    else s

/-- What FWAIT asks of its issue. -/
def needsFwait (h : Hdr) (f : SF) (_ : State) : Needs :=
  let dests := constituents h.dest 2
  { fields := namedFenceFields f && destOk h 2 []
    peeks := rd f.srca 1 ++ rd f.srcb 2, dests := dests, count := h.count
    entry := fenceCheck f
    stalls := acquireStall }

/-- FWAIT (11 R239). -/
def execFwait (h : Hdr) (f : SF) (s : State) : Host.Outcome State Fault Refusal :=
  let dests := constituents h.dest 2
  issue s h (.fwait h f) (needsFwait h f s)
    fun e s' =>
      if e.act = 0 then s'.modWarp e.core e.slot fun w => w.sweep.advance e.frag
      else
        let d : Dest := { name := h.dest, count := h.count, lanes := e.act }
        let id := fenceId e.w f
        let cmp := f.subop.extractLsb' 0 2
        let v := fenceValue e.w f 0
        (s'.beginWait e (.fence id cmp v (f.subop.getLsbD 2) d) dests h.count).returnFence e.core e.slot e.act id cmp v d

/-- FWAIT_RELEASE: the condition of a waiting fragment holds (11 R239). -/
def execFwaitRelease (core slot wait : Nat) (s : State) : Host.Outcome State Fault Refusal :=
  match s.warp? core slot with
  | none => .next s
  | some w =>
    match w.waits[wait]? with
    | some { lanes := lanes, kind := .fence id cmp v _ d, since := _, due := _ } => .next (s.returnFence core slot lanes id cmp v d)
    | _ => .next s

/-! ### Schedule tables (11 R240; 19 R300, R301) -/

/-- The value that stands for no entry. -/
def noTile : BitVec 64 := BitVec.allOnes 64

/-- The entry at the cursor, and the table after it is taken (19 R301). -/
def SchedTable.next (t : SchedTable) : BitVec 64 × SchedTable :=
  if t.cursor < t.tail then (t.entries.getD t.cursor noTile, { t with cursor := t.cursor + 1 }) else (noTile, t)

/-- The entry before the tail, and the table after it is stolen (19 R301). -/
def SchedTable.steal (t : SchedTable) : BitVec 64 × SchedTable :=
  if t.cursor < t.tail then (t.entries.getD (t.tail - 1) noTile, { t with tail := t.tail - 1 }) else (noTile, t)

/-- The table after a STEAL of a cycle: its own core's NEXTTILEs of that cycle come before it (19 R301). -/
def SchedTable.stealAt (cycle : Nat) (t : SchedTable) : BitVec 64 × SchedTable :=
  let r := t.steal
  (r.1, { r.2 with stolen := some cycle })

/-- Takes an entry from a core's table for a warp of a persistent launch that the table belongs to. -/
def State.takeTile (s : State) (w : Warp) (c : Nat) (take : SchedTable → BitVec 64 × SchedTable) : BitVec 64 × State :=
  match (s.core c).sched with
  | none => (noTile, s)
  | some t =>
    if t.launch = w.launch ∧ (s.launch w.launch).flag 1 then
      let r := take t
      (r.1, s.modCore c fun k => { k with sched := some r.2 })
    else (noTile, s)

/-- The destination of NEXTTILE and STEAL: an even vector pair or a uniform pair. -/
def tileDest (h : Hdr) : Bool := !nul h.dest && destOk h 2 []

/-- What NEXTTILE asks of its issue. -/
def needsNexttile (h : Hdr) (f : SF) (_ : State) : Needs :=
  let dests := constituents h.dest 2
  { fields := nul f.srca && nul f.srcb && f.group == 0 && f.subop == 0 && f.imm == 0 && tileDest h
    dests := dests, count := h.count }

/-- NEXTTILE (11 R240). -/
def execNexttile (h : Hdr) (f : SF) (s : State) : Host.Outcome State Fault Refusal :=
  let dests := constituents h.dest 2
  issue s h (.nexttile h f) (needsNexttile h f s)
    fun e s' =>
      let r := if e.act = 0 then (noTile, s') else s'.takeTile e.w e.core SchedTable.next
      finish e dests h.count (fun _ => words64 r.1) r.2

/-- The victim rank of a STEAL. -/
def stealRank (w : Warp) (f : SF) : Nat := if nul f.srca then f.imm.toNat else (w.word f.srca 0).toNat

/-- Whether a launch allows stealing (11 R240; 19 R302). -/
def Launch.steals (l : Launch) : Bool := l.flag 2 && !l.flag 0

/-- What STEAL asks of its issue. -/
def needsSteal (h : Hdr) (f : SF) (_ : State) : Needs :=
  let dests := constituents h.dest 2
  { fields := (if nul f.srca then decide (f.imm.toNat < 8) else uni f.srca && f.imm == 0) && nul f.srcb && f.group == 0 &&
      f.subop == 0 && tileDest h
    peeks := rd f.srca 1, dests := dests, count := h.count
    entry := fun e => if 8 ≤ stealRank e.w f then some (fieldRaise e.frag) else none }

/-- STEAL (11 R240). -/
def execSteal (h : Hdr) (f : SF) (s : State) : Host.Outcome State Fault Refusal :=
  let dests := constituents h.dest 2
  issue s h (.steal h f) (needsSteal h f s)
    fun e s' =>
      let r := if e.act = 0 ∨ !(s.launch e.w.launch).steals then (noTile, s')
        else s'.takeTile e.w (e.core / 8 * 8 + stealRank e.w f) (SchedTable.stealAt s.cycle)
      finish e dests h.count (fun _ => words64 r.1) r.2

/-! ### WRSR (11 R241) -/

/-- The fields of WRSR for a register number. -/
def wrsrFields (h : Hdr) (f : SF) (n : Nat) : Bool :=
  uni f.srca && nul f.srcb && f.group == 0 && f.subop == 0 && f.imm == BitVec.ofNat 32 n && destNone h

/-- What WRSR_FLUSH asks of its issue. -/
def needsWrsrFlush (h : Hdr) (f : SF) (_ : State) : Needs :=
  { fields := wrsrFields h f 1, privileged := true, peeks := rd f.srca 1 }

/-- WRSR pr.flush: every translation of a context is discarded in every unit of the partition (11 R241; 20 R314). -/
def execWrsrFlush (h : Hdr) (f : SF) (s : State) : Host.Outcome State Fault Refusal :=
  issue s h (.wrsrFlush h f) (needsWrsrFlush h f s)
    fun e s' =>
      let s1 := s'.modWarp e.core e.slot fun w => w.advance e.frag
      if e.act = 0 then s1
      else s1.flush (ctxKey (s.partOfCore e.core) ((e.w.word f.srca 0).extractLsb' 0 12).toNat)

/-- The largest high-water mark among a context's warps on a core. -/
def State.maxHwm (s : State) (c x : Nat) : Nat :=
  ((s.core c).warps.filter fun w => w.2.ctx == x).foldl (fun m w => max m (s.hwm w.2)) 0

/-- The context that a pr.quota value names, in the partition of a core. -/
def State.quotaCtx (s : State) (c : Nat) (v : Word) : Nat := ctxKey (s.partOfCore c) (v.extractLsb' 20 12).toNat

/-- Whether a pr.quota value is refused: above 4,096, or nonzero and below the largest H of the context's warps. -/
def State.quotaBad (s : State) (c : Nat) (v : Word) : Bool :=
  let q := (v.extractLsb' 0 13).toNat
  let x := s.quotaCtx c v
  decide (4096 < q) || (q != 0 && (s.core c).contexts.contains x && decide (q < s.maxHwm c x))

/-- Slots that a context keeps once its leaving warps are gone. -/
def Core.usedStaying (k : Core) (x : Nat) : Nat :=
  (k.warps.filter fun p => p.2.ctx == x && !p.2.leaving).foldl (fun n p => n + p.2.resident) 0

/-- Sets the quota of a context on a core, and evicts its youngest warps while it holds more than Q − R. -/
def State.setQuota (s : State) (c x q : Nat) : State :=
  if !(s.core c).contexts.contains x then s
  else
    let s1 := s.modCore c fun k => { k with quotas := k.quotas.put x (q, true) }
    State.evictYoungest (fun s => decide ((s.core c).usedStaying x + s.reserve c x ≤ (s.core c).quota x)) c x 64 s1

/-- What WRSR_QUOTA asks of its issue. -/
def needsWrsrQuota (h : Hdr) (f : SF) (s : State) : Needs :=
  { fields := wrsrFields h f 2, privileged := true, peeks := rd f.srca 1
    entry := fun e => if s.quotaBad e.core (e.w.word f.srca 0) then some (fieldRaise e.frag) else none }

/-- WRSR pr.quota (11 R241). -/
def execWrsrQuota (h : Hdr) (f : SF) (s : State) : Host.Outcome State Fault Refusal :=
  issue s h (.wrsrQuota h f) (needsWrsrQuota h f s)
    fun e s' =>
      let s1 := s'.modWarp e.core e.slot fun w => w.advance e.frag
      let v := e.w.word f.srca 0
      if e.act = 0 then s1 else s1.setQuota e.core (s.quotaCtx e.core v) (v.extractLsb' 0 13).toNat

/-- What WRSR_EVENT asks of its issue. -/
def needsWrsrEvent (h : Hdr) (f : SF) (_ : State) : Needs :=
  { fields := wrsrFields h f 3, privileged := true, peeks := rd f.srca 1 }

/-- WRSR pr.event: a software event carries the value to the partition's event queue (11 R241; 21 R329, R330). -/
def execWrsrEvent (h : Hdr) (f : SF) (s : State) : Host.Outcome State Fault Refusal :=
  issue s h (.wrsrEvent h f) (needsWrsrEvent h f s)
    fun e s' =>
      let s1 := s'.modWarp e.core e.slot fun w => w.advance e.frag
      if e.act = 0 then s1
      else s1.post (pfKey (s.partOfCore e.core)) { EvRec.zero with
        time := BitVec.ofNat 64 (s.timeAt e.core), wid := e.w.wid, info := e.w.word f.srca 0, core := BitVec.ofNat 8 e.core,
        context := BitVec.ofNat 12 (s.ctx e.w.ctx).number, vf := 0xFF, kind := 7 }

/-! ### WATCH (11 R242; 21 R334) -/

/-- Whether a length is a power of two from 4 to 1,048,576. -/
def watchLength (n : Nat) : Bool := (List.range 19).any fun i => n == 2 ^ (i + 2)

/-- Sets or clears a watchpoint of a context on a core. -/
def Core.setWatch (k : Core) (x n : Nat) (w : Option Watch) : Core :=
  let mine := k.watches.getD x []
  { k with watches := k.watches.put x (match w with
      | some w => mine.put n w
      | none => mine.del n) }

/-- What WATCH asks of its issue. DESIGN CHOICE (log 103): an address beyond 48 bits is not checked; no access matches it. -/
def needsWatch (h : Hdr) (f : SF) (_ : State) : Needs :=
  let len := fun (e : Env) => (e.w.word f.srcb 0).toNat
  let addr := fun (e : Env) => (e.w.kpair f.srca).toNat
  { fields := uniOk f.srca 2 && uni f.srcb && f.group == 0 && f.subop.extractLsb' 3 9 == 0 && decide (f.imm.toNat < 8) &&
      destNone h
    privileged := true
    peeks := rd f.srca 2 ++ rd f.srcb 1
    entry := fun e =>
      if !watchLength (len e) || addr e % len e != 0 then some (fieldRaise e.frag) else none }

/-- WATCH (11 R242). -/
def execWatch (h : Hdr) (f : SF) (s : State) : Host.Outcome State Fault Refusal :=
  let mask := f.subop.extractLsb' 0 3
  let len := fun (e : Env) => (e.w.word f.srcb 0).toNat
  let addr := fun (e : Env) => (e.w.kpair f.srca).toNat
  issue s h (.watch h f) (needsWatch h f s)
    fun e s' =>
      let s1 := s'.modWarp e.core e.slot fun w => w.advance e.frag
      if e.act = 0 then s1
      else s1.modCore e.core fun k => k.setWatch e.w.ctx f.imm.toNat
        (if mask = 0 then none else some { addr := addr e, len := len e, mask := mask })

end Sys2Proof.Machine
end

