-- ==== Sys2Proof/Machine/Queues.lean ====
section
/-! DEFINITION. Queues and doorbells, queue entries, and launch records (19 R288 to R293, R297, R298; 21 R328; 11 R237). -/
namespace Sys2Proof.Machine

/-! ### Queue descriptors (19 R291) -/

/-- Whether a context's root words admit work (20 R317). -/
def rootsOk (d : Desc) : Bool :=
  let ok := fun (r : BitVec 64) => r.extractLsb' 52 12 == 0 && r.extractLsb' 1 7 == 0
  d.root1.getLsbD 0 && ok d.root1 && ok d.root2

/-- A queue of a function page. -/
def State.queue (s : State) (fn q : Nat) : Queue := (s.fn fn).queues.getD q Queue.reset

/-- Changes a queue of a function page. -/
def State.modQueue (s : State) (fn q : Nat) (f : Queue → Queue) : State :=
  s.modFn fn fun p => { p with queues := p.queues.put q (f (p.queues.getD q Queue.reset)) }

/-- Entries of a ring. -/
def Queue.size (q : Queue) : Nat := 2 ^ q.log2

/-- Whether the command processor serves a queue: it is enabled, its entry count is legal, and its context field names a
valid descriptor of the function. -/
def State.queueServed (s : State) (fn q : Nat) : Bool :=
  let d := s.queue fn q
  s.fns.has fn && d.enable && decide (4 ≤ d.log2) && decide (d.log2 ≤ 16) && decide (d.ctx < 4096) && s.owns fn d.ctx

/-- Whether a doorbell value is accepted: one to a ring ahead of head, and not behind the last tail (19 R292). -/
def Queue.accepts (q : Queue) (v : BitVec 64) : Bool :=
  let ahead := (v.extractLsb' 0 32 - q.head).toNat
  v.extractLsb' 32 32 == 0 && decide (1 ≤ ahead) && decide (ahead ≤ q.size) && decide ((q.tail - q.head).toNat ≤ ahead)

/-- QUEUE_DOORBELL: the new tail is accepted, and a stopped queue starts again; any other value is ignored and posts an
event (19 R291 to R293). -/
def execQueueDoorbell (fn q : Nat) (value : BitVec 64) (s : State) : Host.Outcome State Fault Refusal :=
  if !s.fns.has fn then .next s
  else if s.queueServed fn q && (s.queue fn q).accepts value then
    .next (s.modQueue fn q fun d => { d with tail := value.extractLsb' 0 32, stopped := false })
  else .next (s.postControl fn)

/-- The descriptor with its enable bit set or clear; head and tail read 0 when it goes from 0 to 1 (19 R292). -/
def Queue.setEnable (q : Queue) (on : Bool) : Queue :=
  if on && !q.enable then { q with enable := true, head := 0, tail := 0, stopped := false, work := [], record := none }
  else { q with enable := on }

/-- QUEUE_ENABLE: a queue that is enabled waits for no page of an entry that it has dropped (19 R291, R292). -/
def execQueueEnable (fn q : Nat) (on : Bool) (s : State) : Host.Outcome State Fault Refusal :=
  if s.fns.has fn && decide (q < 64) then
    let s1 := if on && !(s.queue fn q).enable then s.modPart (s.fnPart fn) fun p => p.dropWork (.entry fn q) else s
    .next (s1.modQueue fn q fun d => d.setEnable on)
  else .next s

/-! ### Queue entries (19 R293) -/

/-- A queue entry that keeps the table. -/
inductive QEntry where
  | launch (addr : Nat)
  | signal (id op : Nat) (v : BitVec 64)
  | wait (id cmp : Nat) (v : BitVec 64)
  | copy (src off die len : Nat)
  deriving DecidableEq, Repr

/-- The entry in 64 bytes; none where it breaks the table. -/
def qentryOf (bs : List Byte) : Option QEntry :=
  let f := fieldAt bs
  let zero := fun (o n : Nat) => f o n == 0
  if f 1 1 / 2 != 0 || !zero 2 6 then none
  else match f 0 1 with
    | 1 => if zero 16 48 then some (.launch (f 8 8)) else none
    | 2 => if decide (f 8 2 < 4096) && decide (f 10 1 ≤ 2) && zero 11 5 && zero 24 40 then
        some (.signal (f 8 2) (f 10 1) (BitVec.ofNat 64 (f 16 8))) else none
    | 3 => if decide (f 8 2 < 4096) && decide (f 10 1 ≤ 2) && zero 11 5 && zero 24 40 then
        some (.wait (f 8 2) (f 10 1) (BitVec.ofNat 64 (f 16 8))) else none
    | 4 => if decide (f 24 4 < 4) && f 28 4 % 4096 == 0 && zero 32 32 then
        some (.copy (f 8 8) (f 16 8) (f 24 4) (f 28 4)) else none
    | _ => none

/-- Whether an entry that has begun is complete. -/
def State.workDone (s : State) (p : Nat) (w : QWork) : Bool :=
  match w with
  | .launch n => (s.launch n).closed
  | .rejected => false
  | .wait id cmp v => fenceHolds cmp ((s.part p).fence id) v

/-- Stops a queue of a context at its head, with an event: a code of 0 for an entry that breaks the table, or that of the read
that was refused, with its address. -/
def State.stopQueue (s : State) (fn q x addr : Nat) (code : BitVec 8) : State :=
  (s.modQueue fn q fun d => { d with stopped := true, record := none }).postMemory fn x (BitVec.ofNat 64 addr) .read code

/-- The context and the entry at the head of a queue, when it may begin: it keeps the table, and a serial one finds the
entry before it complete. A broken entry stops the queue, and so does a context that the function may not use, and (DESIGN
CHOICE, log 90) an entry in a poisoned line, as UE. -/
def State.headEntry (s : State) (fn q : Nat) : Option (Nat × QEntry) × State :=
  let d := s.queue fn q
  if !s.queueServed fn q || d.stopped || d.head == d.tail then (none, s)
  else match s.useCtx fn d.ctx with
    | (none, s1) => (none, s1.modQueue fn q fun d => { d with stopped := true })
    | (some x, s1) =>
      let at_ := d.base.toNat + 64 * (d.head.toNat % d.size)
      let bs := s1.physRead (physOf at_) 64
      if (linesFrom at_ 64).any fun l => s1.poisoned (physOf (128 * l)) then (none, s1.stopQueue fn q x at_ cUe)
      else match qentryOf bs with
      | none => (none, s1.stopQueue fn q x 0 0)
      | some e =>
        let held := (fieldAt bs 1 1).testBit 0 && d.work.any fun w => w.1 == d.head - 1 && !s1.workDone (s1.fnPart fn) w.2
        if held then (none, s1) else (some (x, e), s1)

/-- Moves a queue past its head, with what the entry still has to do. -/
def State.passHead (s : State) (fn q : Nat) (w : Option QWork) : State :=
  let p := s.fnPart fn
  s.modQueue fn q fun d =>
    { d with
      head := d.head + 1
      record := none
      work := (d.work.filter fun x => !s.workDone p x.2) ++ (match w with
        | some w => [(d.head, w)]
        | none => []) }

/-- FENCE_SIGNAL_ENTRY: a release at .sy, then one update of the fence (19 R293, R295). -/
def execFenceSignalEntry (fn q : Nat) (s : State) : Host.Outcome State Fault Refusal :=
  match s.headEntry fn q with
  | (some (_, .signal id op v), s1) => .next ((s1.updateFence (s1.fnPart fn) id op v).passHead fn q none)
  | (some _, _) => .next s
  | (none, s1) => .next s1

/-- FENCE_WAIT_ENTRY: the wait begins; it is complete once its condition has held (19 R293). -/
def execFenceWaitEntry (fn q : Nat) (s : State) : Host.Outcome State Fault Refusal :=
  let done := fun (s : State) => s.modQueue fn q fun d => { d with work := d.work.filter fun w => !s.workDone (s.fnPart fn) w.2 }
  match s.headEntry fn q with
  | (some (_, .wait id cmp v), s1) => .next (done (s1.passHead fn q (some (.wait id cmp v))))
  | (some _, _) => .next (done s)
  | (none, s1) => .next (done s1)

/-- Whether a launch of a context runs in its partition. -/
def State.ctxRuns (s : State) (x : Nat) : Bool := s.launches.any fun l => l.2.ctx == x && l.2.state == 2

/-- Whether a lode range lies in a context's window of a die (06 R127). -/
def State.lodeWindow (s : State) (x die off n : Nat) : Bool :=
  let w := (s.ctx x).desc.lode.getD die (0, 0)
  s.feature 4 && decide (w.1 ≤ off) && decide (off + n ≤ w.1 + w.2) && decide (off + n ≤ 2 ^ 30)

/-- Ends the mark of a lode copy under way. -/
def State.endCopy (s : State) (p x fn q : Nat) : State :=
  s.modPart p fun d => { d with copying := d.copying.filter (· != (x, 64 * fn + q)) }

/-- LODE_COPY_ENTRY: begins once no launch of the context runs, and writes inside the context's window; a copy outside it
stops the queue (19 R293). -/
def execLodeCopyEntry (fn q : Nat) (s : State) : Host.Outcome State Fault Refusal :=
  match s.headEntry fn q with
  | (some (x, .copy src off die len), s1) =>
    let p := s1.fnPart fn
    let mark := (x, 64 * fn + q)
    if !s1.lodeWindow x die off len then .next (s1.stopQueue fn q x 0 0)
    else if !(s1.part p).copying.contains mark && s1.ctxRuns x then .next s1
    else
      let s2 := s1.modPart p fun d => if d.copying.contains mark then d else { d with copying := d.copying ++ [mark] }
      match s2.cpRead (.entry fn q) p x src len with
      | (.error .waiting, s3) => .next s3
      | (.error (.refused c), s3) => .next ((s3.endCopy p x fn q).stopQueue fn q x src c)
      | (.ok bs, s3) =>
        let s4 := { s3.count x 2 len with lode := s3.lode.writeN (die * 2 ^ 30 + off) bs }
        .next ((s4.endCopy p x fn q).passHead fn q none)
  | (some _, _) => .next s
  | (none, s1) => .next s1

/-! ### Launch records (19 R288, R289) -/

/-- What the command processor reads for a launch: the record, its group masks, and its schedule-table images. -/
structure LaunchData where
  record : List Byte
  masks : List (BitVec 128)
  tables : List (List (BitVec 64))
  deriving DecidableEq, Repr

/-- Reads a list of ranges, one after the other. -/
def State.cpReads (j : CpWork) (p x : Nat) : List (Nat × Nat) → State → Except CpStop (List (List Byte)) × State
  | [], s => (.ok [], s)
  | (a, n) :: rest, s =>
    match (if n = 0 then (.ok [], s) else s.cpRead j p x a n) with
    | (.error e, s1) => (.error e, s1)
    | (.ok bs, s1) =>
      match State.cpReads j p x rest s1 with
      | (.error e, s2) => (.error e, s2)
      | (.ok more, s2) => (.ok (bs :: more), s2)

/-- The 64-bit words of some bytes. -/
def longsOf (bs : List Byte) : List (BitVec 64) := (List.range (bs.length / 8)).map fun i => BitVec.ofNat 64 (fieldAt bs (8 * i) 8)

/-- The members masks of a group image. -/
def masksOf (bs : List Byte) : List (BitVec 128) := (List.range (bs.length / 16)).map fun i => BitVec.ofNat 128 (fieldAt bs (16 * i) 16)

/-- The cores of a partition, in slice and rank order. -/
def Part.coreList (p : Part) : List Nat := (List.range (8 * p.size)).map fun i => 8 * p.first + i

/-- What a launch's checks read beyond the record: the parameter block, the group image, the schedule tables. -/
def launchReads (r : List Byte) (cores : Nat) : List (Nat × Nat) :=
  let f := fieldAt r
  [(f 112 8, f 108 4), (f 96 8, 16 * min (f 104 2) 256)]
  ++ (if (f 23 1).testBit 1 then (List.range cores).map fun c => (f 120 8 + 4096 * c, 4096) else [])

/-- A group image fails: an empty group, or a warp in more than four (01 R23). -/
def groupsBad (ms : List (BitVec 128)) : Bool :=
  ms.any (· == 0) || (List.range 128).any fun w => decide (4 < (ms.filter fun m => m.getLsbD w).length)

/-- A schedule-table image breaks 19 R300. -/
def tableBad (t : List (BitVec 64)) : Bool :=
  let n := (t.headD 0).toNat
  decide (511 < n) || ((t.drop 1).take n).any (· == noTile)

/-- Whether W, C and their relation fail (01 R14, R15). -/
def shapeBad (w c : Nat) : Bool := decide (w < 1) || decide (128 < w) || !among c [1, 2, 4, 8] || w % c != 0 || decide (64 < w / c)

/-- The number of block positions of a partition for a shape (19 R299). -/
def Part.positions (p : Part) (c : Nat) : Nat := if c = 0 then 0 else 8 * p.size / c

/-- The first reason that rejects a record whose reads succeeded; 0 accepts it (19 R289). Deterministic mode is refused where it
is not enabled (23 R349). -/
def rejectReason (p : Part) (d : Desc) (determ : Bool) (addr : Nat) (x : LaunchData) : Nat :=
  let r := x.record
  let f := fieldAt r
  let flags := f 23 1
  let w := f 20 2
  let c := f 22 1
  let h := f 24 2
  let quota := f 26 2
  let (gx, gy, gz) := (f 8 4, f 12 4, f 16 4)
  if f 6 2 != 0 || f 106 2 != 0 || f 140 4 != 0 || f 180 76 != 0 || flags.testBit 7 || flags / 32 % 4 == 3 ||
      (f 104 2 == 0 && f 96 8 != 0) then 0x02
  else if (List.range 8).any fun i => !slotValid (BitVec.ofNat 64 (f (32 + 8 * i) 8)) then 0x03
  else if shapeBad w c then 0x04
  else if h < 1 ∨ 320 < h then 0x05
  else if 4096 < quota ∨ (quota ≠ 0 ∧ quota < h) then 0x06
  else if 1572864 < f 28 4 then 0x07
  else if decide (256 < f 104 2) || groupsBad x.masks then 0x08
  else if addr % 256 != 0 || f 112 8 % 8 != 0 || f 128 8 % 4 != 0 || f 160 8 % 32 != 0 || decide (4095 < f 136 2) ||
      decide (4095 < f 138 2) || f 176 4 % 32 != 0 then 0x09
  else if 2 ^ 32 ≤ gx * gy * gz * w ∨ (flags.testBit 3 ∧ (gx ≠ 0 ∨ gy ≠ 0 ∨ gz ≠ 0)) then 0x0A
  else if flags.testBit 1 && (decide (p.positions c < gx * gy * gz) || x.tables.any tableBad) then 0x0B
  else if (flags.testBit 0 && (f 168 8 == 0 || !determ)) || (f 120 8 != 0 && !flags.testBit 1) then 0x0C
  else if d.hs < h ∨ d.screeStride < 64 * recordSize d.hs + 786432 then 0x0D
  else 0

/-- How the taking of a record ends; while it waits, with the record if it is read. -/
inductive Taken where
  | waiting (record : Option (List Byte))
  | rejected (unread : Bool)
  | queued (n : Nat)
  deriving DecidableEq, Repr

/-- Reports the rejection of a record: kind 6 to the partition's event queue (19 R289). -/
def State.postReject (s : State) (p addr reason : Nat) : State :=
  s.post (pfKey p) { EvRec.zero with
    time := BitVec.ofNat 64 s.time, addr := BitVec.ofNat 64 addr, info := BitVec.ofNat 32 reason, unit := 3, vf := 0xFF, kind := 6 }

/-- The launch of a record. -/
def launchOf (p x fn q addr : Nat) (d : LaunchData) : Launch :=
  let f := fieldAt d.record
  { Launch.none with
    part := p, ctx := x, fn := fn, queue := q, record := d.record, recAddr := addr, grid := (f 8 4, f 12 4, f 16 4)
    fmts := (List.range 8).map fun i => BitVec.ofNat 64 (f (32 + 8 * i) 8) }

/-- Rejects a record: status where it can be written, and the event. -/
def State.reject (s : State) (p addr reason : Nat) (l : Launch) (readable : Bool) : State :=
  let s1 :=
    if readable && l.statusAddr % 32 == 0 then
      let n := s.launches.fresh
      { s with launches := s.launches.put n { l with state := 4, reason := reason, endt := s.time } }.writeStatus n
    else s
  s1.postReject p addr reason

/-- Queues a launch whose record was accepted: it takes the next launch sequence number of its context (01 R17), and its
status is written. -/
def State.queueLaunch (s : State) (l : Launch) : Nat × State :=
  let n := s.launches.fresh
  let seq := (s.ctx l.ctx).launchSeq
  let l1 := { l with ident := BitVec.ofNat 20 seq }
  let s1 := { s with launches := s.launches.put n l1 }.writeStatus n
  let s2 := s1.modCtx l.ctx fun c => { c with launchSeq := (seq + 1) % 2 ^ 20 }
  (n, if l.flag 3 then (s2.modLaunch n fun l => { l with state := 1 }).writeStatus n else s2)

/-- Takes a launch record: read once, checked, and queued or rejected (19 R288, R289). While a later read waits, the record
that has been read is `record`. -/
def State.takeRecord (s : State) (j : CpWork) (p x fn q addr : Nat) (record : Option (List Byte)) : Taken × State :=
  let blank := { record := [], masks := [], tables := [] : LaunchData }
  let d := (s.ctx x).desc
  let read : Except CpStop (List Byte) × State := match record with
    | some r => (.ok r, s)
    | none => s.cpRead j p x addr 256
  if !rootsOk d then (.rejected false, s.reject p addr 0x0D (launchOf p x fn q addr blank) false)
  else match read with
    | (.error .waiting, s1) => (.waiting none, s1)
    | (.error (.refused _), s1) => (.rejected true, s1.reject p addr 0x01 (launchOf p x fn q addr blank) false)
    | (.ok r, s1) =>
      match State.cpReads j p x (launchReads r (8 * (s1.part p).size)) s1 with
      | (.error .waiting, s2) => (.waiting (some r), s2)
      | (.error (.refused _), s2) =>
        (.rejected false, s2.reject p addr 0x01 (launchOf p x fn q addr { blank with record := r }) true)
      | (.ok bs, s2) =>
        let g := bs.getD 1 []
        let data : LaunchData :=
          { record := r, masks := masksOf g
            tables := (bs.drop 2).map longsOf }
        let l := launchOf p x fn q addr data
        match rejectReason (s2.part p) d (s2.feature 5) addr data with
        | 0 =>
          let (n, s3) := s2.queueLaunch l
          (.queued n, s3)
        | reason => (.rejected false, s2.reject p addr reason l true)

/-- Takes the launch entry at the head of a queue. -/
def State.launchFromQueue (s : State) (fn q : Nat) : State :=
  match s.headEntry fn q with
  | (some (x, .launch addr), s1) =>
    match s1.takeRecord (.entry fn q) (s1.fnPart fn) x fn q addr (s1.queue fn q).record with
    | (.waiting r, s2) => s2.modQueue fn q fun d => { d with record := r }
    | (.rejected _, s2) => s2.passHead fn q (some .rejected)
    | (.queued n, s2) => s2.passHead fn q (some (.launch n))
  | (some _, _) => s
  | (none, s1) => s1

/-- Answers a LAUNCH: its status word goes to the destination it is owed to (11 R237). -/
def State.answerLaunch (s : State) (p i : Nat) (state : Nat) (code : BitVec 8) : State :=
  match (s.part p).requests[i]? with
  | none => s
  | some r =>
    let s1 := s.modPart p fun q => { q with requests := q.requests.eraseIdx i }
    if r.dest.name = 511 then s1 else s1.completeOwed r.core r.slot r.wid r.dest 1 fun _ => [statusWord 0 code state]

/-- Whether a device launch may use a queue: it is enabled, and its descriptor names the issuing warp's context. -/
def State.deviceQueueOk (s : State) (x q : Nat) : Bool :=
  let d := s.queue (s.ctx x).fn q
  d.enable && d.ctx == x % 4096

/-- Serves a pending LAUNCH of a partition (11 R237). -/
def State.launchFromDevice (s : State) (p i : Nat) : State :=
  match (s.part p).requests[i]? with
  | none => s
  | some r =>
    let x := ctxKey p (r.wid.extractLsb' 52 12).toNat
    let fn := (s.ctx x).fn
    if !s.deviceQueueOk x r.queue then s.answerLaunch p i 2 cFieldReserved
    else match s.takeRecord (.request r.number) p x fn r.queue r.addr r.record with
      | (.waiting got, s1) => s1.modPart p fun d => { d with requests := d.requests.set i { r with record := got } }
      | (.rejected unread, s1) => s1.answerLaunch p i 2 (if unread then cPerm else cFieldReserved)
      | (.queued _, s1) => s1.answerLaunch p i 0 0

/-- LAUNCH_ENTRY: the command processor takes a launch from a queue, or a pending LAUNCH (19 R289, R292; 11 R237). -/
def execLaunchEntry (src : LaunchSource) (s : State) : Host.Outcome State Fault Refusal :=
  match src with
  | .queue fn q => .next (s.launchFromQueue fn q)
  | .device p i => .next (s.launchFromDevice p i)

/-! ### Grids read from memory (19 R297) -/

/-- GRID_READ: the grid fence has reached its value, and the three words are read once. -/
def execGridRead (launch : Nat) (s : State) : Host.Outcome State Fault Refusal :=
  match s.launches.get? launch with
  | none => .next s
  | some l =>
    let seen := l.gridSeen || fenceHolds 0 ((s.part l.part).fence (fieldAt l.record 136 2)) (BitVec.ofNat 64 (fieldAt l.record 144 8))
    if l.state != 1 || l.gridRead || !seen then .next s
    else
      let s1 := s.modLaunch launch fun l => { l with gridSeen := true }
      match s1.cpRead (.launch launch) l.part l.ctx (fieldAt l.record 128 8) 12 with
      | (.error .waiting, s2) => .next s2
      | (.error (.refused _), s2) =>
        let s3 := s2.modLaunch launch fun l => { l with state := 4, reason := 1, endt := s2.time }
        .next ((s3.writeStatus launch).postReject l.part l.recAddr 1)
      | (.ok bs, s2) =>
        let g := (fieldAt bs 0 4, fieldAt bs 4 4, fieldAt bs 8 4)
        if 2 ^ 32 ≤ g.1 * g.2.1 * g.2.2 * l.nwarps then
          let s3 := s2.modLaunch launch fun l => { l with state := 4, reason := 0x0A, grid := g, endt := s2.time }
          .next ((s3.writeStatus launch).postReject l.part l.recAddr 0x0A)
        else .next ((s2.modLaunch launch fun l => { l with grid := g, gridRead := true }).writeStatus launch)

end Sys2Proof.Machine
end

