-- ==== Sys2Proof/Machine/Blocks.lean ====
section
/-! DEFINITION. Block admission and its arbitration, block end, completion of launches, reductions applied at kernel end, and
time slices (01 R14 to R18, R22, R24; 02 R46, R55, R56; 11 R233; 14 R252, R259; 15 R282; 19 R294 to R303). -/
namespace Sys2Proof.Machine

/-! ### Where a block may go (01 R15, R16; 02 R55, R56; 14 R252; 19 R299, R302) -/

/-- The number of blocks of a launch. -/
def Launch.blocks (l : Launch) : Nat := l.grid.1 * l.grid.2.1 * l.grid.2.2

/-- Warps of a block on each of its cores. -/
def Launch.perCore (l : Launch) : Nat := l.nwarps / l.shape

/-- Bytes of a block's scratchpad allocation: its size rounded up to a multiple of 4 KiB. -/
def Launch.scratchSize (l : Launch) : Nat := (fieldAt l.record 28 4 + 4095) / 4096 * 4096

/-- The slot quota of a launch's record. -/
def Launch.quota (l : Launch) : Nat := fieldAt l.record 26 2

/-- The groups of a block. -/
def Launch.ngroups (l : Launch) : Nat := fieldAt l.record 104 2

/-- The cores of a position. -/
def Launch.run (l : Launch) (core : Nat) : List Nat := (List.range l.shape).map fun i => core + i

/-- Whether an allocation is free on some cores. -/
def State.scratchFree (s : State) (cores : List Nat) (off size : Nat) : Bool :=
  decide (off + size ≤ 0x180000) && s.blocks.all fun b =>
    !(b.2.cores.any cores.contains) || !overlaps off (off + size) b.2.scratchOff (b.2.scratchOff + b.2.scratchSize)

/-- The lowest multiple of 4 KiB that is free on every core of a block (14 R252). -/
def State.scratchFor (s : State) (cores : List Nat) (size : Nat) : Option Nat :=
  if size = 0 then some 0
  else
    let offs := (0 :: s.blocks.map fun b => b.2.scratchOff + b.2.scratchSize).filter fun o => s.scratchFree cores o size
    offs.foldl (fun best o => match best with
      | none => some o
      | some b => some (min b o)) none

/-- The free group-table entries of a cluster, lowest first. DESIGN CHOICE (log 97): a block's groups take them in that order. -/
def State.freeGroups (s : State) (cluster : Nat) : List Nat := (List.range 256).filter fun i => !s.groups.has (groupKey cluster i)

/-- Whether a core takes a block's warps: entries, context slots, quotas. -/
def State.coreFits (s : State) (l : Launch) (c : Nat) : Bool :=
  let k := s.core c
  let wrsr := match k.quotas.get? l.ctx with
    | some (q, true) => q == 0 || decide (l.hwm ≤ q)
    | _ => true
  decide (k.warps.length + l.perCore ≤ 64) && (k.contexts.contains l.ctx || decide (k.contexts.length < 8)) && wrsr &&
  s.blocks.all fun b => !b.2.cores.contains c || (s.launch b.2.launch).ctx != l.ctx || (s.launch b.2.launch).quota == l.quota

/-- The position number of a core in its partition for a launch's shape. -/
def State.positionOf (s : State) (l : Launch) (core : Nat) : Nat := (core - 8 * (s.part l.part).first) / max l.shape 1

/-- The linear index of the block that a position takes next: the launch's next one, or in deterministic mode the
position's next one (19 R302). -/
def State.blockFor (s : State) (l : Launch) (core : Nat) : Nat :=
  if l.flag 0 then
    let pos := s.positionOf l core
    pos + (s.part l.part).positions l.shape * l.placed.getD pos 0
  else l.next

/-- Whether the launch's next block may be admitted at a core. -/
def State.fits (s : State) (l : Launch) (core : Nat) : Bool :=
  let cores := l.run core
  core % max l.shape 1 == 0 && cores.all (s.part l.part).coreList.contains && decide (s.blockFor l core < l.blocks) &&
  cores.all (s.coreFits l) && (s.scratchFor cores l.scratchSize).isSome &&
  decide (l.ngroups ≤ (s.freeGroups (sliceOf core)).length) &&
  (!l.flag 1 || (l.placed.getD (s.positionOf l core) 0 == 0 && s.blocks.all fun b => !(b.2.cores.any cores.contains)))

/-- The cores at which a launch's next block may be admitted. -/
def State.placements (s : State) (l : Launch) : List Nat := (s.part l.part).coreList.filter (s.fits l)

/-- Whether a launch has blocks to admit, and its context takes them: it runs, no lode copy holds it back, and the
compute dies are out of reset. -/
def State.offers (s : State) (l : Launch) : Bool :=
  ((l.state == 0 && !l.flag 3) || (l.state == 1 && l.gridRead) || l.state == 2) && decide (l.next < l.blocks) &&
  !s.diesHeld && !(s.part l.part).copying.any fun c => c.1 == l.ctx

/-- The launches of a partition whose next block is admissible. -/
def State.admissible (s : State) (p : Nat) : List (Nat × Launch) :=
  s.launches.filter fun l => l.2.part == p && s.offers l.2 && (s.ctx l.2.ctx).pre == 0 && !(s.placements l.2).isEmpty

/-! ### Arbitration (19 R294) -/

/-- The function served next after another, among some: the next in ascending order, round again. -/
def nextServed (after : Option Nat) (fns : List Nat) : Option Nat :=
  let least := fun (l : List Nat) => l.foldl (fun (b : Option Nat) f => match b with
    | none => some f
    | some x => some (min x f)) none
  match after with
  | none => least fns
  | some a =>
    match least (fns.filter fun f => decide (a < f)) with
    | some f => some f
    | none => least fns

/-- The function whose blocks are admitted now: the one served while it has some, or the next. -/
def State.servingNow (s : State) (p : Nat) (fns : List Nat) : Option Nat :=
  match (s.part p).serving with
  | some f => if fns.contains f then some f else nextServed (some f) fns
  | none => nextServed none fns

/-- The process of a launch's queue. -/
def State.procOf (s : State) (l : Launch) : Nat := (s.queue l.fn l.queue).process

/-- The weight of a process of a function: 0 counts as 1 (19 R291). -/
def State.weightOf (s : State) (fn proc : Nat) : Nat := max 1 ((s.fn fn).weights.getD proc 0)

/-- Whether a process may still admit a block in this round. -/
def State.procHas (s : State) (p fn proc : Nat) : Bool :=
  decide ((s.part p).deficit.getD (64 * fn + proc) 0 < s.weightOf fn proc)

/-- Whether a launch is the one its process admits from: the highest priority, and among equals the one longest not
served. -/
def State.heads (s : State) (n : Nat) (l : Launch) (mine : List (Nat × Launch)) : Bool :=
  let prio := fun (l : Launch) => (s.queue l.fn l.queue).prio
  mine.all fun m => decide (prio l < prio m.2) || (prio l == prio m.2 && (decide (l.turn < m.2.turn) ||
    (l.turn == m.2.turn && decide (n ≤ m.1))))

/-- Whether arbitration lets a launch admit its next block. -/
def State.mayAdmit (s : State) (n : Nat) (l : Launch) : Bool :=
  let all := s.admissible l.part
  let proc := s.procOf l
  let fnMine := all.filter fun m => m.2.fn == l.fn
  let mine := fnMine.filter fun m => s.procOf m.2 == proc
  s.servingNow l.part (all.map fun m => m.2.fn) == some l.fn && mine.any (·.1 == n) &&
  (s.procHas l.part l.fn proc || fnMine.all fun m => !s.procHas l.part l.fn (s.procOf m.2)) && s.heads n l mine

/-- The time slice of a function in ticks: at least 10,000 (19 R291). -/
def State.timeSlice (s : State) (fn : Nat) : Nat := max 10000 (s.fn fn).slice

/-- The arbitration state once a block of a launch is admitted. A process whose round is over begins a new one for every process
of its function. -/
def State.charge (s : State) (l : Launch) : State :=
  let proc := s.procOf l
  let key := 64 * l.fn + proc
  let fresh := !s.procHas l.part l.fn proc
  let slice := s.timeSlice l.fn
  s.modPart l.part fun q =>
    let d : Tab Nat := if fresh then q.deficit.filter fun e => e.1 / 64 != l.fn else q.deficit
    { q with
      deficit := d.put key (d.getD key 0 + 1)
      serving := some l.fn
      sliceEnd := if q.serving = some l.fn then q.sliceEnd else s.time + slice }

/-! ### Admission -/

/-- A warp as admission leaves it: every lane live at the entry PC, whose line is still to be checked (01 R17; 03 R68, R69;
14 R252). Predicates read 0 (DESIGN CHOICE, log 7). -/
def newWarp (l : Launch) (n block b number off cycle : Nat) (seq : BitVec 32) : Warp :=
  let entry : BitVec 64 := BitVec.ofNat 64 (fieldAt l.record 0 8)
  let a : Arrival := { source := BitVec.allOnes 48, high := entry.extractLsb' 48 16 }
  { wid := BitVec.ofNat 12 l.ctx ++ l.ident ++ BitVec.ofNat 32 (b * l.nwarps + number), seq := seq, ctx := l.ctx, launch := n,
    block := block, number := number, live := fullMask, pcs := allLanes.map fun _ => entry.extractLsb' 0 48,
    arrivals := allLanes.map fun i => (i, a), preds := List.replicate 7 0, names := [],
    kregs := setAt (List.replicate 64 0) 61 (BitVec.ofNat 32 off), aflags := 0, mrow := 0, mflags := 0, unread := [], loads := 0, stores := 0,
    copies := 0, tiles := 0, log := [], logseq := 0, accs := [], accseq := 0, waits := [], traps := [], lastphase := [],
    halted := false, stall := none, timeout := false, fetches := [], queued := cycle, ran := cycle, evicted := false, leaving := false,
    screeNames := 0, noWatch := 0, buffered := 0 }

/-- A core with a warp in its lowest free entry, in its pending set (01 R16, R18; 02 R50). -/
def Core.addWarp (k : Core) (x : Nat) (w : BitVec 32 → Warp) : Core :=
  let slot := (k.warps.free 0 64).getD 0
  let seq := k.admission.getD x 0
  let slots := if k.ctxSlots.any fun c => c.2 == x then k.ctxSlots
    else match k.ctxSlots.free 0 8 with
      | some i => k.ctxSlots.put i x
      | none => k.ctxSlots
  { k with warps := k.warps.put slot (w seq), admission := k.admission.put x (seq + 1), ctxSlots := slots
           pending := k.pending ++ [slot] }

/-- A group-table entry as admission fills it (01 R24). -/
def GroupEntry.filled (block : Nat) (members : BitVec 128) : GroupEntry :=
  { block := block, status1 := 0, status0 := 0, phase := false, arrived := 0, expected := popMembers members, dropped := 0,
    arrivedmask := 0, members := members }

/-- Whether a core has the slots that an incoming context needs: it has the context already, or no context leaves it, or enough
slots are free beside the reserves (02 R55). -/
def State.roomFor (s : State) (need c x : Nat) : Bool :=
  let k := s.core c
  k.contexts.contains x || (k.contexts.all fun y => (s.ctx y).pre == 0) || decide (need + s.reserves c ≤ k.freeSlots)

/-- Evicts warps of outgoing contexts, youngest first and at instruction boundaries, until a core is to have the slots an incoming
context needs; a held class X instruction stops (02 R55; 21 R336). -/
def State.makeRoom (need : Nat) (c x : Nat) : Nat → State → State
  | 0, s => s
  | n + 1, s =>
    let k := s.core c
    let soon := (k.warps.filter (·.2.leaving)).foldl (fun n w => n + w.2.resident) 0
    if decide (need + s.reserves c ≤ k.freeSlots + soon) then s
    else
      let ws := k.warps.filter fun p => p.2.ctx != x && (s.ctx p.2.ctx).pre != 0 && !p.2.evicted && !p.2.leaving &&
        p.2.suspended == 0 && !p.2.halted && p.2.live != 0 && p.2.resident != 0
      match youngest ws with
      | none => s
      | some slot => State.makeRoom need c x n ((s.stopOps c fun o => o.slot == slot).evict c slot)

/-- The slots that an incoming context needs on a core (02 R55). -/
def Launch.needs (l : Launch) : Nat := if l.quota = 0 then min 4096 (l.perCore * l.hwm) else l.quota

/-- A core as it takes a block of a launch: its quota, its L1 when the launch is another one, and its schedule table
(02 R46; 14 R259; 19 R300). -/
def Core.takeBlock (k : Core) (n : Nat) (l : Launch) (t : Option SchedTable) : Core :=
  let quota := match k.quotas.get? l.ctx with
    | some (q, true) => (q, true)
    | _ => (l.quota, false)
  { k with
    quotas := k.quotas.put l.ctx quota
    l1 := if k.lastLaunch = some n then k.l1 else []
    lastLaunch := some n
    sched := match t with
      | some t => some t
      | none => k.sched }

/-- The schedule table of an image (19 R300). -/
def tableOf (n : Nat) (t : List (BitVec 64)) : SchedTable :=
  let len := min 511 (t.headD 0).toNat
  { launch := n, cursor := 0, tail := len, entries := (t.drop 1).take len, stolen := none }

/-- Admits block `b` of a launch at a position, with the group masks it copies (01 R22) and the schedule-table images its cores
load. -/
def State.takeIn (s : State) (n : Nat) (l : Launch) (core b : Nat) (masks : List (BitVec 128)) (tables : List (List (BitVec 64))) :
    State :=
  let cores := l.run core
  let size := l.scratchSize
  let off := (s.scratchFor cores size).getD 0
  let block := s.blocks.fresh
  let cluster := sliceOf core
  let entries := (s.freeGroups cluster).take masks.length
  let s2 := { s with
    blocks := s.blocks.put block
      { launch := n, index := b, cores := cores, scratchOff := off, scratchSize := size
        groups := entries.map fun i => (cluster, i), position := s.positionOf l core }
    groups := (entries.zip masks).foldl (fun (t : Tab GroupEntry) (e : Nat × BitVec 128) =>
      t.put (groupKey cluster e.1) (GroupEntry.filled block e.2)) s.groups
    spad := cores.foldl (fun m c => m.writeN (spadAt c off) (List.replicate size 0)) s.spad }
  let s3 := cores.zipIdx.foldl (fun s c => s.modCore c.1 fun k => k.takeBlock n l ((tables[c.2]?).map (tableOf n))) s2
  let s4 := (List.range l.nwarps).foldl (fun s w =>
    let c := core + w / max l.perCore 1
    (s.modCore c fun k => k.addWarp l.ctx (newWarp l n block b w off s.cycle)).fillActive c) s3
  let s5 := (s4.charge l).modLaunch n fun l =>
    { l with next := l.next + 1, turn := s.steps + 1, state := 2, startt := if l.state = 2 then l.startt else s.time
             placed := l.placed.put (s.positionOf l core) (l.placed.getD (s.positionOf l core) 0 + 1) }
  if l.state = 2 then s5 else s5.writeStatus n

/-- BLOCK_ADMISSION: arbitration gives the launch's next block to a position that meets R15, R16, R55 and R56; its groups are
copied from their image, and the cores of a persistent block load their schedule tables (01 R16, R22; 19 R294, R300). While a core
has too few slots for an incoming context, warps of outgoing ones are evicted instead (02 R55). -/
def execBlockAdmission (launch core : Nat) (s : State) : Host.Outcome State Fault Refusal :=
  match s.launches.get? launch with
  | none => .next s
  | some l =>
    if !s.mayAdmit launch l || !(s.placements l).contains core then .next s
    else if !(l.run core).all fun c => s.roomFor l.needs c l.ctx then
      .next ((l.run core).foldl (fun s c => if s.roomFor l.needs c l.ctx then s else State.makeRoom l.needs c l.ctx 64 s) s)
    else
      let p := s.part l.part
      let images := if l.flag 1 then (l.run core).map fun c => (fieldAt l.record 120 8 + 4096 * (c - 8 * p.first), 4096) else []
      match State.cpReads (.launch launch) l.part l.ctx ((fieldAt l.record 96 8, 16 * l.ngroups) :: images) s with
      | (.error _, s1) => .next s1
      | (.ok ts, s1) => .next (s1.takeIn launch l core (s.blockFor l core) (masksOf (ts.headD [])) ((ts.drop 1).map longsOf))

/-! ### Block end (01 R16; 11 R233) -/

/-- Whether some operation that may still touch a block's scratchpad is under way: an engine operation with a range in it,
or a space-2 write by a thread of another core. -/
def State.inbound (s : State) (b : Block) : Bool :=
  b.cores.any fun c =>
    let lo := b.scratchOff
    let hi := b.scratchOff + b.scratchSize
    ((s.core c).locks.any fun l => l.ranges.any fun r => r.space == c + 1 && overlaps r.lo r.hi lo hi) ||
    s.cores.any fun k => k.1 != c && sliceOf k.1 == sliceOf c && k.2.warps.any fun w => w.2.accs.any fun a =>
      a.2.f.space == 2 && a.2.op != .ld && a.2.lanes.any fun l => l.stage != .done &&
        spadTarget k.1 2 l.addr == (c, l.addr % 2 ^ 21) && decide (lo ≤ l.addr % 2 ^ 21) && decide (l.addr % 2 ^ 21 < hi)

/-- Whether a block may end: its warps have exited with every access performed or moved and every drop made, and nothing is owed
from or to it (01 R29; 11 R233). -/
def State.blockOver (s : State) (n : Nat) (b : Block) : Bool :=
  (s.cores.all fun k => k.2.warps.all fun w => w.2.block != n || (w.2.live == 0 && w.2.accs.isEmpty && w.2.log.isEmpty &&
    (s.undropped w.2).isEmpty)) &&
  (s.engs.all fun o => o.2.block != n) && !s.inbound b

/-- Forgets what a core keeps for a context that has left it (01 R18; 02 R46, R50, R56; 06 R114; 21 R334). -/
def State.settleCore (s : State) (c x : Nat) : State :=
  if (s.core c).contexts.contains x then s
  else
    let saved := (s.ctx x).saved.any fun v => v.core == c
    s.modCore c fun k =>
      { k.settleCtx x with admission := if saved then k.admission else k.admission.del x, watches := k.watches.del x }.releaseArray

/-- BLOCK_END: scratchpad, warp entries and group entries are freed (01 R16; 11 R233). Of a block that is not over, exited
warps whose drops have become possible meanwhile make them (01 R29; 17 R286). -/
def execBlockEnd (block : Nat) (s : State) : Host.Outcome State Fault Refusal :=
  match s.blocks.get? block with
  | none => .next s
  | some b =>
    if !s.blockOver block b then .next (b.cores.foldl (fun s c => s.coreDrops c) s)
    else
      let gone := fun (k : Core) => (k.warps.filter fun w => w.2.block == block).foldl (fun k w => k.dropWarp w.1) k
      let s1 := { s with
        blocks := s.blocks.del block
        groups := s.groups.filter fun g => g.2.block != block }
      let s2 := b.cores.foldl (fun s c => s.modCore c fun k =>
        (gone k).dropSched fun t => t.launch == b.launch) s1
      let s3 := b.cores.foldl (fun s c => s.settleCore c (s.launch b.launch).ctx) s2
      .next (s3.modLaunch b.launch fun l => { l with ended := l.ended + 1 })

/-! ### Reductions at kernel end (19 R303) -/

/-- Whether a buffer record comes before another: by block, warp, issue, lane, element. -/
def RedRecord.before (a b : RedRecord) : Bool :=
  let key := fun (r : RedRecord) => [r.block, r.warp, r.issue, r.lane, r.element]
  decide (key a < key b)

/-- A record set into an ordered list. -/
def insertRecord (r : RedRecord) : List RedRecord → List RedRecord
  | [] => [r]
  | x :: xs => if r.before x then r :: x :: xs else x :: insertRecord r xs

/-- The records in the order in which they are applied. -/
def sortRecords (rs : List RedRecord) : List RedRecord := rs.foldr insertRecord []

/-- A reduction that is refused is dropped and reported as a store fault. -/
def State.dropRecord (s : State) (l : Launch) (r : RedRecord) (code : BitVec 8) : State :=
  let fn := (s.ctx l.ctx).fn
  s.post fn { EvRec.zero with
    time := BitVec.ofNat 64 s.time, wid := BitVec.ofNat 12 l.ctx ++ l.ident ++ BitVec.ofNat 32 (r.block * l.nwarps + r.warp)
    addr := BitVec.ofNat 64 r.target, lanemask := laneBit r.lane, info := memInfo .rmw 255, unit := 3,
    context := BitVec.ofNat 12 (s.ctx l.ctx).number, vf := vfField fn, kind := 2, code := code }

/-- Applies one record as the RED it stands for; none where it waits for a page. -/
def State.applyRecord (s : State) (n : Nat) (l : Launch) (r : RedRecord) : Option State × State :=
  let pieces := pagePieces r.target 4
  match s.cpGate (.launch n) l.part l.ctx pieces with
  | (some (.refused c), _) =>
    (some ((s.modPart l.part fun q => q.dropWait (.launch n) l.ctx r.target).dropRecord l r c), s)
  | (some .waiting, _) => (none, s)
  | (none, fresh) =>
    match State.xlatAll (.cp l.part) l.ctx .rmw false fresh pieces s with
    | (.error (x, a), s1) =>
      match s1.cpFault (.launch n) l.part l.ctx a .rmw x with
      | (.waiting, s2) => (none, s2)
      | (.refused c, s2) => (some (s2.dropRecord l r c), s2)
    | (.ok ts, s1) =>
      let s2 := s1.modPart l.part fun q => q.dropWait (.launch n) l.ctx r.target
      if ts.any fun t => s2.badPiece t.1 t.2 then (some (s2.dropRecord l r cUe), s2)
      else (some (ts.foldl (fun s t => State.combineAt t.1 (7 + r.op) [r.value] 0 s) s2), s2)

/-- Applies records in order, as far as their pages allow. -/
def State.applyAll (n : Nat) (l : Launch) : List RedRecord → State → State
  | [], s => s.modLaunch n fun l => { l with buffer := [] }
  | r :: rs, s =>
    match s.applyRecord n l r with
    | (some s1, _) => State.applyAll n l rs s1
    | (none, s1) => s1.modLaunch n fun l => { l with buffer := r :: rs }

/-- Whether every block of a launch has been admitted and has ended. -/
def Launch.allEnded (l : Launch) : Bool := l.next == l.blocks && l.ended == l.blocks

/-- Whether a class X operation of a launch has not ended. -/
def State.launchBusyX (s : State) (l : Launch) : Bool :=
  s.cores.any fun k => k.2.xq.any fun o => o.2.ctx == l.ctx && o.2.wid.extractLsb' 32 20 == l.ident

/-- Whether lanes of a launch's stores still wait in its context's store-fault area (15 R282; 21 R333). -/
def State.launchOwes (s : State) (n : Nat) (l : Launch) : Bool := (s.ctx l.ctx).storeFaults.any fun e => e.2.acc.launch == n

/-- Whether nothing of a launch whose blocks have ended is still to access memory, or to add a reduction (15 R282). -/
def State.launchQuiet (s : State) (n : Nat) (l : Launch) : Bool := !s.launchBusyX l && !s.launchOwes n l

/-- REDUCTION_BUFFER_APPLY: after the last block ends, and once the launch makes no more accesses, the records are applied in their
fixed order (15 R282; 19 R303). -/
def execReductionBufferApply (launch : Nat) (s : State) : Host.Outcome State Fault Refusal :=
  match s.launches.get? launch with
  | none => .next s
  | some l =>
    if l.state == 2 && l.allEnded && !l.buffer.isEmpty && s.launchQuiet launch l then .next (State.applyAll launch l (sortRecords l.buffer) s) else .next s

/-! ### Completion (15 R282; 19 R290, R296, R298) -/

/-- Updates the completion fence of a launch once its last status has been written. -/
def State.closeLaunch (s : State) (n : Nat) : State :=
  let s0 := if (s.part (s.launch n).part).statusOwed.contains n then s.writeStatus n else s
  let l := s0.launch n
  if (s0.part l.part).statusOwed.contains n then s0
  else
    let s1 := if l.flag 4 then
        s0.updateFence l.part (fieldAt l.record 138 2) (fieldAt l.record 23 1 / 32 % 4) (BitVec.ofNat 64 (fieldAt l.record 152 8))
      else s0
    s1.modLaunch n fun l => { l with closed := true }

/-- LAUNCH_COMPLETE: every block has ended, every access is performed and every reduction is applied; the status is written with state 3, and then the
completion fence is updated (15 R282; 19 R296). A grid of no blocks completes at once (19 R298). -/
def execLaunchComplete (launch : Nat) (s : State) : Host.Outcome State Fault Refusal :=
  match s.launches.get? launch with
  | none => .next s
  | some l =>
    if l.state == 3 && !l.closed then .next (s.closeLaunch launch)
    else
      let open_ := (l.state == 0 && !l.flag 3) || (l.state == 1 && l.gridRead) || l.state == 2
      if open_ && l.allEnded && l.buffer.isEmpty && s.launchQuiet launch l then
        let done := fun (l : Launch) =>
          { l with state := 3, reason := if l.overflow then 0x20 else 0, startt := if l.state = 2 then l.startt else s.time, endt := s.time }
        .next (((s.modLaunch launch done).writeStatus launch).closeLaunch launch)
      else .next s

/-! ### Time slices (19 R294) -/

/-- The functions of a partition with work to admit or to restore. -/
def State.wantingFns (s : State) (p : Nat) : List Nat :=
  (s.launches.filter fun l => l.2.part == p && s.offers l.2).map (·.2.fn)
  ++ (s.ctxs.filter fun x => x.2.part == p && x.2.pre == 3).map (·.2.fn)

/-- What a soft pre-emption request does at once: sleeping fragments resume as from YIELD, which is to stop at the next PC
(07 R139; 21 R335, R336). -/
def Warp.softStop (w : Warp) : Warp :=
  let asleep := fun (t : Wait) => match t.kind with
    | .sleep _ _ => true
    | _ => false
  let lanes := (w.waits.filter asleep).foldl (fun m t => m ||| t.lanes) 0
  { w.advance lanes with
    waits := w.waits.map fun (t : Wait) => if asleep t then { t with kind := .yield } else t }

/-- Requests soft pre-emption of a running context (21 R336). -/
def State.softRequest (s : State) (x : Nat) : State :=
  if (s.ctx x).pre ≠ 0 then s
  else
    let stop := fun (w : Warp) => if w.ctx = x then w.softStop else w
    let s1 := { s with cores := s.cores.map fun (k : Nat × Core) =>
      (k.1, { k.2 with warps := k.2.warps.map fun (w : Nat × Warp) => (w.1, stop w.2) }) }
    s1.modCtx x fun c => { c with pre := 1, reqTime := s.time }

/-- Whether a context holds anything on the cores. -/
def State.ctxResident (s : State) (x : Nat) : Bool := s.cores.any fun k => k.2.contexts.contains x

/-- TIME_SLICE_EXPIRY: the slice of the serving function is over and another waits; its contexts get a soft pre-emption
request, and the next function is served (19 R294). -/
def execTimeSliceExpiry (part : Nat) (s : State) : Host.Outcome State Fault Refusal :=
  let p := s.part part
  match p.serving with
  | none => .next s
  | some f =>
    match nextServed (some f) ((s.wantingFns part).filter (· != f)) with
    | none => .next s
    | some g =>
      if s.time < p.sliceEnd then .next s
      else
        let out := (s.ctxs.filter fun x => x.2.part == part && x.2.fn == f && s.ctxResident x.1).map (·.1)
        let slice := s.timeSlice g
        let s1 := out.foldl (fun s x => s.softRequest x) s
        .next (s1.modPart part fun q => { q with serving := some g, sliceEnd := s.time + slice })

end Sys2Proof.Machine
end

