-- ==== Sys2Proof/Machine/Events.lean ====
section
/-! DEFINITION. Serving pages, page requests and replies, event queues, and the resumption and killing of fragments (20 R314,
R321 to R326; 21 R329 to R333). -/
namespace Sys2Proof.Machine

/-! ### Serving pages (20 R321, R322, R326) -/

/-- What serves or refuses a wait for a page: the retry doorbell of a context's PAGE_S1 waits, or the answer to a request,
with the code of a refusal. -/
inductive Serving where
  | retry
  | reply (rid : Nat) (code : BitVec 8)
  deriving DecidableEq, Repr

/-- Whether a fault with a code and a request number is served. -/
def Serving.meets (v : Serving) (code : BitVec 8) (rid : Nat) : Bool :=
  match v with
  | .retry => code == cPageS1
  | .reply n _ => code == cPageS2 && rid == n

/-- The refusal that an answer carries, if it is one. -/
def Serving.refusal (v : Serving) : Option (BitVec 8) :=
  match v with
  | .retry => none
  | .reply _ c => if c = 0 then none else some c

/-- Whether the notice of a page that work of a context waits for has not been posted: the work stays waiting (21 R331). -/
def State.noticeHeld (s : State) (x : Nat) (wid : BitVec 64) (va : Nat) : Bool :=
  s.evHeld.any fun h => h.record.kind == 3 && h.record.context == BitVec.ofNat 12 x && h.fn == (s.ctx x).fn && h.record.wid == wid &&
    h.record.addr.toNat / 4096 == va / 4096

/-- Whether a record is one of a unit. -/
def EvRec.fromUnit (r : EvRec) (u : TUnit) : Bool :=
  match u with
  | .core n => r.unit == 0 && r.core == BitVec.ofNat 8 n
  | .array n => r.unit == 1 && r.core == BitVec.ofNat 8 n
  | .engine n => r.unit == 2 && r.engine == BitVec.ofNat 8 n
  | .cp _ => r.unit == 3

/-- Whether a unit holds a record of kinds 0 to 3 about a context that came before a page request: work of the unit and context that
faulted with that request stays waiting with it (21 R331; DEDUCED, log 91). -/
def State.unitHolds (s : State) (u : TUnit) (x rid : Nat) : Bool :=
  s.evHeld.any fun h => decide (h.record.kind.toNat ≤ 3) && h.fn == (s.ctx x).fn && h.record.context == BitVec.ofNat 12 x &&
    h.record.fromUnit u && decide (h.rid ≤ rid)

/-- Whether an answer serves the wait of some work of a unit in a context for a page. -/
def State.serves (s : State) (u : TUnit) (v : Serving) (x : Nat) (wid : BitVec 64) (va : Nat) (code : BitVec 8) (rid : Nat) : Bool :=
  v.meets code rid && !(if v == .retry then s.noticeHeld x wid va else s.unitHolds u x rid)

/-- A wait once it is served or refused. -/
def State.serveWait (s : State) (u : TUnit) (v : Serving) (x : Nat) (wid : BitVec 64) (p : PageWait) : PageWait :=
  if p.served || !s.serves u v x wid p.va p.code p.rid then p
  else match v.refusal with
    | some c => { p with served := true, code := c }
    | none => { p with served := true }

/-- The pages of a log entry of a context that an answer meets. -/
def State.metPages (s : State) (u : TUnit) (v : Serving) (x : Nat) (e : LogEntry) : List Nat :=
  (List.range e.pages.length).filter fun j =>
    e.lanesOn j != 0 && !e.served.getLsbD j &&
    s.serves u v x e.wid (4096 * (e.pages.getD j 0).toNat) (e.codes.getD j 0) (e.rids.getD j 0)

/-- Serves the log entries of a warp: they walk again, or their pages are refused. -/
def State.serveLog (s : State) (c slot : Nat) (v : Serving) : State :=
  match s.warp? c slot with
  | none => s
  | some w =>
    (w.log.flatMap fun e => (s.metPages (.core c) v w.ctx e.2).map fun j => (e.1, j)).foldl (fun s p =>
      match v.refusal with
      | some code => s.refusePage c slot p.1 p.2 code
      | none => s.rewalk c slot p.1 p.2) s

/-- Serves a held class X instruction that stopped at a page: its fragment is issuable again, waits on, or traps (10 R203;
09 R184). -/
def State.serveHeldWait (s : State) (c slot : Nat) (lanes : Mask) (p : PageWait) (v : Serving) : State :=
  match s.warp? c slot with
  | none => s
  | some w =>
    let pc := w.pc (lowLane lanes)
    let off := fun (s : State) => s.modWarp c slot fun w => { w with waits := w.waits.filter fun t => t.lanes &&& lanes == 0 }
    let trap := fun (s : State) (code : BitVec 8) => (off s).takeFault c slot lanes pc 0 false 0
      { code := code, lanes := lanes, addr := BitVec.ofNat 64 p.va, info := memInfo .read 255 }
    match v.refusal with
    | some code => trap s code
    | none =>
      match s.translate (.array c) w.ctx p.va .read false false true with
      | (.ok _, s1) => off s1
      | (.error x, s1) =>
        if !replayable x.code then trap s1 x.code
        else if x.code = cPageS1 ∧ p.code = cPageS1 then s1
        else
          let (q, s2) := s1.awaitPage (.array c) w.ctx p.va .read x
            { s1.warpRecord c w pc lanes 3 { code := 0, lanes := lanes, addr := 0, info := memInfo .read 255 } with unit := 1 }
          s2.modWarp c slot fun w => { w with waits := w.waits.map fun (t : Wait) =>
            if t.lanes = lanes then { t with kind := .page q } else t }

/-- A warp that is stalled on a fetch, or on a constant fill, of its fragment whose page is served: the stall is over, and with it
what it counts for (02 R48; 03 R65, R374). -/
def Warp.endServed (w : Warp) : Warp :=
  let served := fun (const : Bool) => match w.fragment with
    | some (pc, _) => (w.fetchWait const pc).any fun p => p.served
    | none => false
  w.clearStall fun k => match k with
    | .fetch => served false
    | .constant => served true
    | _ => false

/-- Serves a warp's waits for pages: fetch, constant fill, held instruction, log entries. -/
def State.serveWarp (s : State) (c slot : Nat) (v : Serving) : State :=
  let s1 := s.modWarp c slot fun w =>
    { w with fetches := w.fetches.map fun (f : FetchWait) => { f with wait := s.serveWait (.core c) v w.ctx w.wid f.wait } }.endServed
  let held : List (Mask × PageWait) := match s1.warp? c slot with
    | none => []
    | some w => w.waits.filterMap fun (t : Wait) => match t.kind with
      | .page p => if s1.serves (.array c) v w.ctx w.wid p.va p.code p.rid then some (t.lanes, p) else none
      | _ => none
  (held.foldl (fun s h => s.serveHeldWait c slot h.1 h.2 v) s1).serveLog c slot v

/-- A class X operation whose wait for a page is served. -/
def State.serveX (s : State) (c : Nat) (v : Serving) (o : XOp) : XOp :=
  match o.stage with
  | .page p => { o with stage := .page (s.serveWait (.array c) v o.ctx o.wid p) }
  | _ => o

/-- An engine operation whose wait for a page is served. -/
def State.serveEng (s : State) (v : Serving) (o : EngOp) : EngOp :=
  match o.stage with
  | .page p => { o with stage := .page (s.serveWait (.engine o.engine) v o.ctx o.wid p) }
  | _ => o

/-- Serves the store-fault entries of a context. -/
def State.serveStores (s : State) (x : Nat) (v : Serving) : State :=
  (((s.ctx x).storeFaults.flatMap fun e => (s.metPages (.cp (x / 4096)) v x e.2.entry).map fun j => (e.1, j)).foldl (fun s p =>
    match v.refusal with
    | none => s.rewalkStore x p.1 p.2
    | some code =>
      match (s.ctx x).storeFaults.get? p.1 with
      | none => s
      | some e =>
        let addr := match e.acc.lanes.find? fun l => laneOn (e.entry.lanesOn p.2) l.lane with
          | some l => l.addr
          | none => 0
        s.dropStore x p.1 p.2 e addr code) s).settleStores x

/-- Serves the warps that a save of a context holds for a core, as they would be served on that core. -/
def State.serveSaved (s : State) (x i : Nat) (v : Serving) : State :=
  match (s.ctx x).saved[i]? with
  | none => s
  | some sv =>
    let k := s.core sv.core
    let s1 := sv.warps.foldl (fun s w => s.serveWarp sv.core w.1 v) (s.setCore sv.core { Core.reset with warps := sv.warps })
    let ws := (s1.core sv.core).warps
    (s1.setCore sv.core k).modCtx x fun c => { c with saved := if c.pre = 3 then c.saved.set i { sv with warps := ws } else c.saved }

/-- Serves everything of a context that waits for what an answer meets, saved or not, and the command processor's status
writes. -/
def State.serve (s : State) (x : Nat) (v : Serving) : State :=
  let mine := s.cores.flatMap fun k => (k.2.warps.filter fun w => w.2.ctx == x).map fun w => (k.1, w.1)
  let s0 := mine.foldl (fun s w => s.serveWarp w.1 w.2 v) s
  let s1 := (List.range (s.ctx x).saved.length).foldl (fun s i => s.serveSaved x i v) s0
  let xs := fun (c : Nat) (o : Nat × XOp) => if o.2.ctx = x then (o.1, s1.serveX c v o.2) else o
  let es := fun (o : Nat × EngOp) => if o.2.ctx = x then (o.1, s1.serveEng v o.2) else o
  let s2 := { s1 with
    cores := s1.cores.map fun (k : Nat × Core) => (k.1, { k.2 with xq := k.2.xq.map (xs k.1) })
    engs := s1.engs.map es }
  let p := x / 4096
  let s3 := s2.modPart p fun q => { q with cpWaits := q.cpWaits.map fun (w : CpWait) =>
    if w.ctx = x then { w with page := s2.serveWait (.cp p) v x 0 w.page } else w }
  (s3.serveStores x v).flushStatus p

/-- The context number of a control write, where the upper bits are zero and the function owns it. -/
def State.namedCtx (s : State) (fn : Nat) (value : BitVec 64) : Option Nat :=
  let n := value.toNat
  if n < 4096 ∧ s.fns.has fn ∧ s.owns fn n then some (ctxKey (s.fnPart fn) n) else none

/-- A control write that names a context and is ignored posts an event, where the function exists (21 R329). -/
def State.ignored (s : State) (fn n : Nat) : State := if s.fns.has fn then s.postError fn (n % 4096) 0 0 0 else s

/-- PAGE_RETRY_DOORBELL: what waits for a PAGE_S1 of the context walks again once (20 R322). -/
def execPageRetryDoorbell (fn : Nat) (value : BitVec 64) (s : State) : Host.Outcome State Fault Refusal :=
  match s.namedCtx fn value with
  | none => .next (s.ignored fn value.toNat)
  | some x => .next (s.serve x .retry)

/-- HOST_CONTEXT_FLUSH: every translation of a context is discarded (20 R314). -/
def execHostContextFlush (fn : Nat) (value : BitVec 64) (s : State) : Host.Outcome State Fault Refusal :=
  match s.namedCtx fn value with
  | none => .next (s.ignored fn value.toNat)
  | some x => .next (s.flush x)

/-! ### Page requests (20 R324 to R326) -/

/-- PAGE_REQUEST_TABLE_BASE: the table's base is written, and held requests take tags (20 R325). -/
def execPageRequestTableBase (part : Nat) (base : BitVec 64) (s : State) : Host.Outcome State Fault Refusal :=
  if !s.parts.has part then .next s
  else
    let s1 := s.modPart part fun q => { q with tableBase := base }
    .next (State.serveHeld s1.preqHeld.length s1)

/-- Whether a reply's fields are legal. -/
def replyOk (value : BitVec 64) : Bool :=
  value.extractLsb' 32 32 == 0 && value.extractLsb' 11 5 == 0 && among (value.extractLsb' 16 8).toNat [0, 0x12, 0x21]

/-- The request that a reply answers: its tag is held by a request of the partition with the same sequence number. -/
def State.answered (s : State) (part : Nat) (value : BitVec 64) : Option (Nat × PReq) :=
  let tag := (value.extractLsb' 0 11).toNat
  match s.preqs.get? tag with
  | none => none
  | some r => if replyOk value && r.part == part && r.seq == (value.extractLsb' 24 8).toNat then some (tag, r) else none

/-- Serves everything that waits for a request, in every context of its partition. -/
def State.serveReply (s : State) (p rid : Nat) (code : BitVec 8) : State :=
  ((s.ctxs.filter fun x => x.2.part == p).map (·.1)).foldl (fun s x => s.serve x (.reply rid code)) s

/-- An answer is kept while a record is held that work which it serves may have to wait for (21 R331). -/
def State.keepReply (s : State) (p rid : Nat) (code : BitVec 8) : State :=
  if s.evHeld.any fun h => decide (h.record.kind.toNat ≤ 3) && decide (h.rid ≤ rid) then { s with replies := s.replies ++ [(p, rid, code)] }
  else s

/-- The answers that are kept serve what no record holds back any more. -/
def State.serveKept (s : State) : State :=
  s.replies.foldl (fun s r => (s.serveReply r.1 r.2.1 r.2.2).keepReply r.1 r.2.1 r.2.2) { s with replies := [] }

/-- PAGE_REQUEST_REPLY: the tag is freed and goes to a held request, and every fault joined to the entry walks again or is
refused; any other value is ignored and posts an event (20 R324, R326). -/
def execPageRequestReply (part : Nat) (value : BitVec 64) (s : State) : Host.Outcome State Fault Refusal :=
  if !s.parts.has part then .next s
  else match s.answered part value with
    | none => .next (s.postControl (pfKey part))
    | some (tag, r) =>
      let s1 := State.serveHeld s.preqHeld.length { s with preqs := s.preqs.del tag }
      let code := value.extractLsb' 16 8
      .next ((s1.serveReply part r.rid code).keepReply part r.rid code)

/-! ### Event queues (21 R330, R331) -/

/-- The 64 bytes of an event record (21 R329). -/
def EvRec.bytes (r : EvRec) : List Byte :=
  let x : BitVec 512 := r.time ++ r.wid ++ r.pc ++ r.aux ++ r.addr ++ r.fmask ++ r.sibmask ++ r.lanemask ++ r.info
    ++ r.core ++ r.unit ++ r.engine ++ r.srcdev ++ r.context ++ r.vf ++ (0 : BitVec 17) ++ r.kind ++ r.flags ++ r.code
  leBytes 64 x.toNat

/-- Whether an event queue takes a record: it is configured and not full. -/
def FnPage.takes (p : FnPage) : Bool :=
  p.evBase != 0 && decide (6 ≤ p.evLog2) && decide (p.evLog2 ≤ 16) && decide ((p.evTail - p.evHead).toNat < 2 ^ p.evLog2)

/-- The record of a function's queue that the hub's arbiter writes next, by its place among those held. -/
def State.nextRecord (s : State) (fn : Nat) : Option (Nat × HeldRec) :=
  match s.evHeld.findIdx? fun e => e.fn == fn with
  | none => none
  | some i => (s.evHeld[i]?).map fun h => (i, h)

/-- Drops the lanes that waited for a record that has been posted. -/
def State.reported (s : State) (r : EvRec) : State :=
  match s.dropsOwed.find? fun d => d.1 == r with
  | none => s
  | some d => { s with dropsOwed := s.dropsOwed.erase d }.dropPosted d.2

/-- EVENT_RECORD_POST: the hub's arbiter writes the first record held for a function's queue, once its cycle is over, advances
the tail and signals the interrupt (21 R330, R331; 23 R345). -/
def execEventRecordPost (fn : Nat) (s : State) : Host.Outcome State Fault Refusal :=
  match s.nextRecord fn with
  | none => .next s
  | some (i, h) =>
    let p := s.fn fn
    if !s.fns.has fn || !p.takes then .next s
    else
      let r := h.record
      let r1 := if p.evDropped then { r with flags := r.flags ||| 0x20 } else r
      let s1 := s.homeWrite (s.fnPart fn) (physOf (p.evBase.toNat + 64 * (p.evTail.toNat % 2 ^ p.evLog2))) r1.bytes
      let s2 := s1.modFn fn fun p => { p with evTail := p.evTail + 1, evDropped := false }
      .next (({ s2 with evHeld := s2.evHeld.eraseIdx i, msix := s2.msix ++ [(fn, 0)], cycle := max s.cycle (h.cycle + 1) }.reported r).serveKept)

/-- EVENT_QUEUE_HEAD: the driver moves its head (21 R330). -/
def execEventQueueHead (fn : Nat) (head : BitVec 32) (s : State) : Host.Outcome State Fault Refusal :=
  if s.fns.has fn then .next (s.modFn fn fun p => { p with evHead := head }) else .next s

/-! ### Resumption (21 R332) -/

/-- What a control write names: the core, the slot, and the lowest live lane of the mask there. -/
structure Target where
  core : Nat
  slot : Nat
  w : Warp
  lane : Nat
  deriving DecidableEq, Repr

/-- The warp and lane that a control write names, where its function owns the context. -/
def State.target (s : State) (fn : Nat) (value : BitVec 64) : Option Target :=
  let x := ctxKey (s.fnPart fn) (value.extractLsb' 48 12).toNat
  let core := (value.extractLsb' 40 8).toNat
  let slot := (value.extractLsb' 32 8).toNat
  if !s.fns.has fn || (s.ctx x).fn != fn then none
  else match s.warp? core slot with
    | none => none
    | some w =>
      let m := value.extractLsb' 0 32 &&& w.live
      if w.ctx != x || m == 0 then none else some { core := core, slot := slot, w := w, lane := lowLane m }

/-- The entries and pages of a halted warp's log that were not replayable. -/
def Warp.haltedPages (w : Warp) : List (Nat × Nat) :=
  w.log.flatMap fun e => ((List.range e.2.pages.length).filter fun j =>
    let c := e.2.codes.getD j 0
    e.2.lanesOn j != 0 && c != 0 && !replayable c).map fun j => (e.1, j)

/-- Whether the record of a warp's halt, or of the trap that holds a lane, has not been posted: it stays as it is (21 R331). -/
def State.unreported (s : State) (w : Warp) (kind : BitVec 8) (lanes : Mask) : Bool :=
  s.evHeld.any fun h => h.record.kind == kind && h.record.wid == w.wid && (kind == 1 || h.record.fmask &&& lanes != 0)

/-- The trap that a control write ends, and the warp without it, where the trap has been reported. -/
def State.endTrap (s : State) (t : Target) : Option (Trap × Warp) :=
  if s.unreported t.w 0 (laneBit t.lane) then none else t.w.endTrap t.lane

/-- FRAGMENT_RESUME (op 1): the instruction issues again; a halted warp resumes every fragment, those in traps among them, and
its halted entry walks its lanes once more. -/
def execFragmentResume (fn : Nat) (value : BitVec 64) (s : State) : Host.Outcome State Fault Refusal :=
  match s.target fn value with
  | none => .next (s.ignored fn (value.extractLsb' 48 12).toNat)
  | some t =>
    if t.w.halted then
      if s.unreported t.w 1 t.w.live then .next (s.ignored fn (value.extractLsb' 48 12).toNat)
      else
        let s1 := s.setWarp t.core t.slot
          { t.w.reopen with halted := false, timeout := false, traps := t.w.traps.filter fun u => s.unreported t.w 0 u.lanes }
        .next (t.w.haltedPages.foldl (fun s p => s.rewalk t.core t.slot p.1 p.2) s1)
    else match s.endTrap t with
      | none => .next (s.ignored fn (value.extractLsb' 48 12).toNat)
      | some (_, w) => .next (s.setWarp t.core t.slot w)

/-- FRAGMENT_RESUME_AT_PC (op 2): a transfer to the PC in offset 0x1E8, which clears sr.mrow. -/
def execFragmentResumeAtPc (fn : Nat) (value : BitVec 64) (s : State) : Host.Outcome State Fault Refusal :=
  match s.target fn value with
  | none => .next (s.ignored fn (value.extractLsb' 48 12).toNat)
  | some t =>
    match s.endTrap t with
    | none => .next (s.ignored fn (value.extractLsb' 48 12).toNat)
    | some (u, w) =>
      let pc := (s.fn fn).resumePc
      .next ((s.setWarp t.core t.slot { w with mrow := 0, mflags := 0 }).transfer t.core t.slot u.lanes (pc.extractLsb' 0 48)
        (BitVec.allOnes 48) (pc.extractLsb' 48 16))

/-- FRAGMENT_RESUME_NEXT (op 3): the lanes go on at the next PC, and nothing of the skipped instruction retires. A fragment
of SW_TRAP stands there already (log 17). -/
def execFragmentResumeNext (fn : Nat) (value : BitVec 64) (s : State) : Host.Outcome State Fault Refusal :=
  match s.target fn value with
  | none => .next (s.ignored fn (value.extractLsb' 48 12).toNat)
  | some t =>
    match s.endTrap t with
    | none => .next (s.ignored fn (value.extractLsb' 48 12).toNat)
    | some (u, w) =>
      let w1 := if u.past then w else (w.clearArrivals u.lanes).advance u.lanes
      .next (s.setWarp t.core t.slot { w1 with mrow := 0, mflags := 0 })

/-- FRAGMENT_RESUME_NO_WATCH (op 4): valid for WATCH only; the lanes ignore watchpoints for one instruction. -/
def execFragmentResumeNoWatch (fn : Nat) (value : BitVec 64) (s : State) : Host.Outcome State Fault Refusal :=
  match s.target fn value with
  | none => .next (s.ignored fn (value.extractLsb' 48 12).toNat)
  | some t =>
    match s.endTrap t with
    | none => .next (s.ignored fn (value.extractLsb' 48 12).toNat)
    | some (u, w) =>
      if u.code = cWatch then .next (s.setWarp t.core t.slot { w with noWatch := w.noWatch ||| u.lanes })
      else .next (s.ignored fn (value.extractLsb' 48 12).toNat)

/-- Ends every live lane of a warp as EXIT does. -/
def State.killWarp (s : State) (c slot : Nat) : State :=
  let s1 := s.stopOps c fun o => o.slot == slot
  match s1.warp? c slot with
  | none => s1
  | some w => s1.exitLanes c slot w.live

/-- WARP_KILL (op 5): every live lane of the warp ends as by EXIT. -/
def execWarpKill (fn : Nat) (value : BitVec 64) (s : State) : Host.Outcome State Fault Refusal :=
  match s.target fn value with
  | none => .next (s.ignored fn (value.extractLsb' 48 12).toNat)
  | some t => .next (s.killWarp t.core t.slot)

end Sys2Proof.Machine
end

