-- ==== Sys2Proof/Machine/Preempt.lean ====
section
/-! DEFINITION. The pre-emption ladder, context save, kill and restore (21 R335 to R339). -/
namespace Sys2Proof.Machine

/-! ### Requests (21 R335, R336) -/

/-- The context of a pre-emption request, where the function owns it and it is in use. -/
def State.requested (s : State) (fn n : Nat) : Option Nat :=
  if s.fns.has fn && decide (n < 4096) && (s.ctxs.get? (ctxKey (s.fnPart fn) n)).any fun c => c.fn == fn then
    some (ctxKey (s.fnPart fn) n)
  else none

/-- SOFT_PREEMPT_REQUEST (op 1): no block of the context is admitted, and its warps go as they reach yield points. -/
def execSoftPreemptRequest (fn ctx : Nat) (s : State) : Host.Outcome State Fault Refusal :=
  match s.requested fn ctx with
  | none => .next s
  | some x => .next (s.softRequest x)

/-- Cancels the SLOADs of a context on a core: state 6, and the stratum EMPTY (10 R205). -/
def State.cancelLoads (s : State) (c x : Nat) : State :=
  ((s.core c).xq.filter fun o => o.2.ctx == x && (xChanges o.2.instr).isSome).foldl (fun s o =>
    match (s.core c).xq.get? o.1 with
    | some y => match y.instr with
      | .sload _ _ => s.failAsync c o.1 y 6 0
      | _ => s
    | none => s) s

/-- A warp of a context that stops at its next instruction boundary: it issues no more. -/
def Warp.haltFor (x : Nat) (w : Warp) : Warp := if w.ctx = x ∧ !w.evicted ∧ w.live ≠ 0 then { w with leaving := true } else w

/-- The cores that a context holds warps on. -/
def State.coresOf (s : State) (x : Nat) : List Nat := (s.cores.filter fun k => k.2.contexts.contains x).map (·.1)

/-- A forced halt of a context: every remaining warp stops at its next boundary, each held class X instruction stops, and
a stratum still LOADING is cancelled (21 R336). -/
def State.forceHalt (s : State) (x : Nat) : State :=
  let s1 := s.modCtx x fun c => { c with pre := 2, haltTime := s.time }
  (s.coresOf x).foldl (fun s c =>
    ((s.stopOps c fun o => o.ctx == x).cancelLoads c x).modCore c fun k =>
      { k with warps := k.warps.map fun (w : Nat × Warp) => (w.1, w.2.haltFor x) }) s1

/-- FORCED_HALT (op 2). -/
def execForcedHalt (fn ctx : Nat) (s : State) : Host.Outcome State Fault Refusal :=
  match s.requested fn ctx with
  | none => .next s
  | some x => if (s.ctx x).pre ≤ 1 then .next (s.forceHalt x) else .next s

/-- GRACE_EXPIRY: the grace time after a soft request is over (21 R336). -/
def execGraceExpiry (ctx : Nat) (s : State) : Host.Outcome State Fault Refusal :=
  let c := s.ctx ctx
  if c.pre = 1 ∧ c.reqTime + c.desc.grace ≤ s.time then .next (s.forceHalt ctx) else .next s

/-- CONTEXT_KILL (op 3). -/
def execContextKill (fn ctx : Nat) (s : State) : Host.Outcome State Fault Refusal :=
  match s.requested fn ctx with
  | none => .next s
  | some x => if (s.ctx x).pre = 4 then .next s else .next (s.killCtx x EvRec.zero)

/-- KILL_TIMER_EXPIRY: the kill time after a forced halt is over, and the save is not complete (21 R336). -/
def execKillTimerExpiry (ctx : Nat) (s : State) : Host.Outcome State Fault Refusal :=
  let c := s.ctx ctx
  if c.pre = 2 ∧ c.haltTime + c.desc.kill ≤ s.time then .next (s.killCtx ctx EvRec.zero) else .next s

/-- Whether a wait is a stop at YIELD. -/
def Wait.isYield (t : Wait) : Bool :=
  match t.kind with
  | .yield => true
  | _ => false

/-- A warp of a context without its stops at YIELD; its lanes stand at the next PC already. -/
def Warp.endYields (x : Nat) (w : Warp) : Warp :=
  if w.ctx = x then { w with waits := w.waits.filter fun t => !t.isYield } else w

/-- PREEMPT_WITHDRAW (op 4): takes effect in state 1 only; in any other state it posts an event (21 R335). -/
def execPreemptWithdraw (fn n : Nat) (s : State) : Host.Outcome State Fault Refusal :=
  match s.requested fn n with
  | none => .next (s.ignored fn n)
  | some x =>
    if (s.ctx x).pre ≠ 1 then .next (s.ignored fn n)
    else
      let s1 := { s with cores := s.cores.map fun (k : Nat × Core) =>
        (k.1, { k.2 with warps := k.2.warps.map fun (w : Nat × Warp) => (w.1, w.2.endYields x) }) }
      .next (s1.modCtx x fun c => { c with pre := 0 })

/-! ### The save area (21 R337) -/

/-- A group-table entry in 64 bytes (01 R24). -/
def GroupEntry.bytes (e : GroupEntry) : List Byte :=
  let x : BitVec 512 := e.status1 ++ e.status0 ++ (0 : BitVec 46) ++ (1 : BitVec 1) ++ BitVec.ofBool e.phase
    ++ BitVec.ofNat 8 e.arrived ++ BitVec.ofNat 8 e.expected ++ e.dropped ++ e.arrivedmask ++ e.members
  leBytes 64 x.toNat

/-- The group-table entry in 64 bytes, for a block. -/
def groupOf (block : Nat) (bs : List Byte) : GroupEntry :=
  let x : BitVec 512 := BitVec.ofNat 512 (leNat bs)
  { block := block, status1 := x.extractLsb' 480 32, status0 := x.extractLsb' 448 32, phase := x.getLsbD 400,
    arrived := (x.extractLsb' 392 8).toNat, expected := (x.extractLsb' 384 8).toNat, dropped := x.extractLsb' 256 128,
    arrivedmask := x.extractLsb' 128 128, members := x.extractLsb' 0 128 }

/-- The groups of a warp's block that name it, at most four, as block-local indices (01 R23). -/
def State.groupsOf (s : State) (w : Warp) : List Nat :=
  ((List.range (s.groupCount w)).filter fun g =>
    match s.group? w g with
    | some (_, e) => e.members.getLsbD w.number
    | none => false).take 4

/-- The state block of a warp, in 1 KiB (21 R337). -/
def State.warpBytes (s : State) (w : Warp) : List Byte :=
  let gs := s.groupsOf w
  let entry := fun (i : Nat) => match gs[i]? with
    | some g => ((s.groupKey? w g).getD 0) % 256
    | none => 0
  let lp := fun (i : Nat) => (gs[i]?).bind w.lastphase.get?
  let phases := (List.range 4).foldl (fun n i => n + bitAt ((lp i).getD false) i + bitAt (lp i).isSome (i + 4)) 0
  let yield_ := w.waits.any Wait.isYield
  let bkpt := w.traps.any fun (t : Trap) => t.bkpt
  leBytes 8 w.wid.toNat ++ leBytes 4 w.seq.toNat ++ leBytes 4 w.live.toNat ++ leBytes 4 w.suspended.toNat
  ++ leBytes 4 w.mrow.toNat
  ++ leBytes 4 (w.loads % 64 + w.stores % 64 * 64 + w.copies % 64 * 4096 + w.tiles % 64 * 262144)
  ++ ((List.range 4).flatMap fun i => leBytes 1 (entry i)) ++ leBytes 1 phases ++ leBytes 1 w.aflags.toNat ++ leBytes 30 0
  ++ (allLanes.flatMap fun i => leBytes 8 (w.pc i).toNat)
  ++ (allLanes.flatMap fun i => leBytes 1 ((List.range 7).foldl (fun n p => n + bitAt (laneOn (w.pred p) i) p) 0))
  ++ ((List.range 64).flatMap fun j => leBytes 4 (w.kregs.getD j 0).toNat)
  ++ leBytes 1 (bitAt yield_ 0 + bitAt w.halted 1 + bitAt bkpt 2) ++ leBytes 415 0

/-- A saved warp with what its state block holds now. -/
def State.warpFrom (s : State) (w : Warp) (bs : List Byte) : Warp :=
  let f := fieldAt bs
  let counters := f 24 4
  let susp : Mask := BitVec.ofNat 32 (f 16 4)
  let last : Tab Bool := (s.groupsOf w).zipIdx.foldl (fun t (g : Nat × Nat) =>
    if (f 32 1).testBit (g.2 + 4) then t.put g.1 ((f 32 1).testBit g.2) else t) []
  { w with
    wid := BitVec.ofNat 64 (f 0 8), seq := BitVec.ofNat 32 (f 8 4), live := BitVec.ofNat 32 (f 12 4)
    traps := (w.traps.map fun (t : Trap) =>
      { t with lanes := t.lanes &&& susp, bkpt := t.bkpt && (f 608 1).testBit 2 }).filter fun t => t.lanes != 0
    mrow := BitVec.ofNat 32 (f 20 4), loads := counters % 64, stores := counters / 64 % 64, copies := counters / 4096 % 64
    tiles := counters / 262144 % 64, lastphase := last, aflags := BitVec.ofNat 8 (f 33 1)
    pcs := allLanes.map fun i => BitVec.ofNat 48 (f (64 + 8 * i) 8)
    preds := (List.range 7).map fun p => maskOf fun i => (f (320 + i) 1).testBit p
    kregs := (List.range 64).map fun j => BitVec.ofNat 32 (f (352 + 4 * j) 4)
    waits := if (f 608 1).testBit 0 then w.waits else w.waits.filter fun t => !t.isYield
    halted := (f 608 1).testBit 1 }

/-- The image of a stratum in 17,408 bytes (06 R115). -/
def Stratum.imageBytes (t : Stratum) : List Byte := (List.range 68).flatMap fun u => t.image.getD u (List.replicate 256 0)

/-- The units of a stratum image. -/
def imageOf (bs : List Byte) : Tab (List Byte) := (List.range 68).map fun u => (u, (bs.drop (256 * u)).take 256)

/-- Rows of 64 words as bytes. -/
def rowsBytes (row : Nat → List Word) (n : Nat) : List Byte := (List.range n).flatMap fun m => (row m).flatMap fun x => leBytes 4 x.toNat

/-- Rows of 64 words from bytes, numbered from `base`; zero rows are not listed. -/
def rowsFrom (base : Nat) (bs : List Byte) (n : Nat) : Tab (List Word) :=
  ((List.range n).map fun m => (base + m, wordsIn ((bs.drop (256 * m)).take 256))).filter fun r => r.2.any (· != 0)

/-- The schedule table in 4 KiB: cursor and tail of 4 bytes, and 511 entries (21 R337). -/
def SchedTable.bytes (t : SchedTable) : List Byte :=
  leBytes 4 t.cursor ++ leBytes 4 t.tail ++ (List.range 511).flatMap fun i => leBytes 8 (t.entries.getD i 0).toNat

/-- A schedule table with what its image holds now. -/
def SchedTable.from (t : SchedTable) (bs : List Byte) : SchedTable :=
  { t with cursor := fieldAt bs 0 4, tail := fieldAt bs 4 4
           entries := (List.range t.entries.length).map fun i => BitVec.ofNat 64 (fieldAt bs (8 + 8 * i) 8) }

/-- Where the parts of a core's save area lie. -/
def State.saveAt (s : State) (x c : Nat) : Nat := (s.ctx x).desc.saveBase + c * (s.ctx x).desc.saveStride

/-- The rows that some keyed rows touch, as blocks of `n`. -/
def blocksUsed (t : Tab (List Word)) (n k : Nat) : List Nat := (List.range k).filter fun j => t.any fun r => r.1 / n == j

/-- The blocks of a context on a core. -/
def State.blocksOn (s : State) (x c : Nat) : List (Nat × Block) :=
  s.blocks.filter fun b => (s.launch b.2.launch).ctx == x && b.2.cores.contains c

/-- The schedule table that a context has loaded on a core. -/
def State.schedOf (s : State) (x c : Nat) : Option SchedTable :=
  match (s.core c).sched with
  | some t => if (s.launch t.launch).ctx = x then some t else none
  | none => none

/-! ### The header (21 R337). DESIGN CHOICE (log 21): the manual lists its content and gives no places; these are the model's. -/

/-- What the header of a core's save area holds. -/
structure Header where
  context : Nat
  core : Nat
  mask : Nat
  admission : BitVec 32
  sstat : Nat
  /-- Recorded format and scale kind by stratum. -/
  formats : List (Nat × Nat)
  watches : Tab Watch
  /-- Block index, scratchpad offset and size. -/
  blocks : List (Nat × Nat × Nat)
  deriving DecidableEq, Repr

/-- The header in 4 KiB. -/
def Header.bytes (h : Header) : List Byte :=
  let watch := fun (i : Nat) => match h.watches.get? i with
    | some w => leBytes 8 w.addr ++ leBytes 4 w.len ++ leBytes 4 (w.mask.toNat + 8)
    | none => leBytes 16 0
  leBytes 2 h.context ++ leBytes 6 h.core ++ leBytes 8 h.mask ++ leBytes 4 h.admission.toNat ++ leBytes 4 h.sstat
  ++ ((List.range 8).flatMap fun j => leBytes 1 (h.formats.getD j (0, 0)).1 ++ leBytes 1 (h.formats.getD j (0, 0)).2)
  ++ (List.range 8).flatMap watch ++ leBytes 8 h.blocks.length
  ++ (List.range 64).flatMap (fun i => match h.blocks[i]? with
    | some b => leBytes 4 b.1 ++ leBytes 4 b.2.1 ++ leBytes 4 b.2.2
    | none => leBytes 12 0)
  ++ leBytes 3152 0

/-- The header in 4 KiB of bytes. -/
def headerOf (bs : List Byte) : Header :=
  let f := fieldAt bs
  { context := f 0 2, core := f 2 6, mask := f 8 8, admission := BitVec.ofNat 32 (f 16 4), sstat := f 20 4
    formats := (List.range 8).map fun j => (f (24 + 2 * j) 1, f (25 + 2 * j) 1)
    watches := ((List.range 8).filter fun i => (f (52 + 16 * i) 4).testBit 3).map fun i =>
      (i, { addr := f (40 + 16 * i) 8, len := f (48 + 16 * i) 4, mask := BitVec.ofNat 3 (f (52 + 16 * i) 4) })
    blocks := (List.range (min 64 (f 168 8))).map fun i => (f (176 + 12 * i) 4, f (180 + 12 * i) 4, f (184 + 12 * i) 4) }

/-- The header of a context's save on a core. -/
def State.headerFor (s : State) (x c : Nat) : Header :=
  let k := s.core c
  let own := k.owner == some x
  { context := (s.ctx x).number, core := c
    mask := (k.warps.filter fun w => w.2.ctx == x).foldl (fun n w => n + 2 ^ w.1) 0
    admission := k.admission.getD x 0, sstat := if own then k.stratumWord.toNat else 0
    formats := (List.range 8).map fun j => if own then ((k.stratum j).bfmt, (k.stratum j).scale) else (0, 0)
    watches := k.watches.getD x []
    blocks := (s.blocksOn x c).map fun b => (b.2.index, b.2.scratchOff, b.2.scratchSize) }

/-- The residency state in a SSTAT word (06 R118). -/
def residencyIn (sstat j : Nat) : Residency :=
  match sstat / 4 ^ j % 4 with
  | 0 => .empty
  | 1 => .loading
  | 2 => .resident
  | _ => .draining

/-- What a save keeps of a core, with what its header holds now: the saved warps, the admission counter, the watchpoints, and the
states and formats of the strata. -/
def Saved.withHeader (v : Saved) (h : Header) : Saved :=
  let stratum := fun (t : Nat × Stratum) =>
    (t.1, { t.2 with state := residencyIn h.sstat t.1, bfmt := (h.formats.getD t.1 (0, 0)).1, scale := (h.formats.getD t.1 (0, 0)).2 })
  { v with warps := v.warps.filter fun w => h.mask.testBit w.1
           admission := h.admission, watches := h.watches, strata := v.strata.map stratum }

/-- The blocks of a context on a core, with what a header holds of them now. -/
def State.headerBlocks (s : State) (x c : Nat) (h : Header) : State :=
  { s with blocks := ((s.blocksOn x c).zip h.blocks).foldl (fun (t : Tab Block) b =>
      t.put b.1.1 { b.1.2 with index := b.2.1, scratchOff := b.2.2.1, scratchSize := b.2.2.2 }) s.blocks }

/-- The parts of a core's save area, as offsets and bytes: only the parts that the context uses. -/
def State.saveImage (s : State) (x c : Nat) : List (Nat × List Byte) :=
  let k := s.core c
  let own := k.owner == some x
  let array := if !own then [] else
    (((List.range 8).filter fun j => (k.stratum j).state == .resident).map fun j => (0x1000 + 0x4400 * j, (k.stratum j).imageBytes))
    ++ ((blocksUsed k.grads 128 8).map fun g => (0x23000 + 0x8000 * g, rowsBytes (k.gradRow g) 128))
    ++ ((blocksUsed k.tiles 256 4).map fun a => (0x63000 + 0x10000 * a, rowsBytes (k.tileRow a) 256))
  [(0, (s.headerFor x c).bytes)] ++ array
  ++ ((k.warps.filter fun w => w.2.ctx == x).map fun w => (0xA3000 + 1024 * w.1, s.warpBytes w.2))
  ++ ((s.blocksOn x c).flatMap fun b =>
    if b.2.cores.head? = some c then
      b.2.groups.filterMap fun g => (s.groups.get? (groupKey g.1 g.2)).map fun e => (0xB3000 + 64 * g.2, e.bytes)
    else [])
  ++ (match s.schedOf x c with
    | some t => [(0xB7000, t.bytes)]
    | none => [])
  ++ (s.blocksOn x c).map fun b => (0xB8000 + b.2.scratchOff, s.spad.readN (spadAt c b.2.scratchOff) b.2.scratchSize)

/-- Writes parts of a save area; the first address that fails. -/
def State.writeParts (x c base : Nat) : List (Nat × List Byte) → State → Option Nat × State
  | [], s => (none, s)
  | (off, bs) :: rest, s =>
    match s.vaWrite (.core c) x (base + off) bs true false with
    | (some (_, a), s1) => (some a, s1)
    | (none, s1) => State.writeParts x c base rest s1

/-- What a save keeps of one core beside the images. -/
def State.savedOf (s : State) (x c : Nat) : Saved :=
  let k := s.core c
  let own := k.owner == some x
  { core := c, warps := k.warps.filter fun w => w.2.ctx == x, admission := k.admission.getD x 0, watches := k.watches.getD x []
    strata := if own then k.strata else [], tiles := if own then k.tiles else [], grads := if own then k.grads else []
    hasArray := own, sched := s.schedOf x c }

/-- The cores of a context's save: those with its warps or its blocks. -/
def State.saveSet (s : State) (x : Nat) : List Nat :=
  (s.coresOf x ++ (s.blocks.filter fun b => (s.launch b.2.launch).ctx == x).flatMap fun b => b.2.cores).eraseDups

/-- Whether a context may be saved now: every warp is evicted, or has exited with its accesses done; no operation that it
started is under way, and no LAUNCH of its warps is unserved (21 R336). -/
def State.saveReady (s : State) (x : Nat) : Bool :=
  (s.cores.all fun k => (k.2.warps.all fun w => w.2.ctx != x || w.2.evicted || (w.2.live == 0 && w.2.settled)) &&
    k.2.xq.all fun o => o.2.ctx != x) &&
  (s.engs.all fun o => o.2.ctx != x) &&
  (s.part (x / 4096)).requests.all fun q => q.wid.extractLsb' 52 12 != BitVec.ofNat 12 x

/-- Writes the save areas of some cores. -/
def State.saveCores (x : Nat) : List Nat → State → Option (Nat × Nat) × State
  | [], s => (none, s)
  | c :: cs, s =>
    match State.writeParts x c (s.saveAt x c) (s.saveImage x c) s with
    | (some a, s1) => (some (c, a), s1)
    | (none, s1) => State.saveCores x cs s1

/-- Takes a saved context off its cores, and keeps what restore needs. -/
def State.takeOff (s : State) (x : Nat) : State :=
  let saved := (s.saveSet x).map (s.savedOf x)
  let mine := s.blocks.filter fun b => (s.launch b.2.launch).ctx == x
  let held := fun (g : Nat × GroupEntry) => mine.any fun b => b.1 == g.2.block
  let s1 := { s with
    cores := s.cores.map fun (k : Nat × Core) =>
      (k.1, ((k.2.purge x).dropSched fun t => (s.launch t.launch).ctx == x).wakeArray)
    blocks := s.blocks.filter fun b => (s.launch b.2.launch).ctx != x
    groups := s.groups.filter fun g => !held g }
  s1.modCtx x fun c => { c with pre := 3, saved := saved, savedBlocks := mine, savedGroups := s.groups.filter held }

/-- CONTEXT_SAVE_COMPLETE: the state is written to the save areas, the context is in state 3, and a record of kind 10 is
posted; a failing write kills the context (21 R336 to R338). -/
def execContextSaveComplete (ctx : Nat) (s : State) : Host.Outcome State Fault Refusal :=
  let c := s.ctx ctx
  if (c.pre = 1 ∨ c.pre = 2) ∧ s.ctxs.has ctx ∧ s.saveReady ctx then
    match State.saveCores ctx (s.saveSet ctx) s with
    | (some (core, a), s1) => .next (s1.saveFaultKill ctx core a 0)
    | (none, s1) =>
      .next ((s1.takeOff ctx).post c.fn { EvRec.zero with
        time := BitVec.ofNat 64 s.time, unit := 4, context := BitVec.ofNat 12 c.number, vf := vfField c.fn, kind := 10 })
  else .next s

/-- SAVE_FAULT: an error in scree, log, save or restore traffic, or in the on-die state being saved, kills the context
(21 R338). -/
def execSaveFault (ctx core addr : Nat) (s : State) : Host.Outcome State Fault Refusal :=
  if s.ctxs.has ctx ∧ (s.ctx ctx).pre ≠ 4 then .next (s.saveFaultKill ctx core addr 0) else .next s

/-! ### Restore (21 R339) -/

/-- Whether a core has what a saved core needs: the warp entries, a context slot, and an array without an owner where array
state is restored (06 R114). -/
def State.coreFree (s : State) (v : Saved) : Bool :=
  let k := s.core v.core
  (v.warps.all fun w => !k.warps.has w.1) && decide (k.contexts.length < 8) && (!v.hasArray || (k.owner.isNone && !k.arrayLeft))

/-- Whether everything that a saved context held is free where it was. -/
def State.restorable (s : State) (x : Nat) : Bool :=
  let c := s.ctx x
  c.saved.all s.coreFree && (c.savedGroups.all fun g => !s.groups.has g.1) &&
  c.savedBlocks.all fun b => s.scratchFree b.2.cores b.2.scratchOff b.2.scratchSize

/-- Whether the command processor admits work of a context now: a launch of it has not ended, and its function is served
(19 R294). -/
def State.restoreTurn (s : State) (x : Nat) : Bool :=
  let c := s.ctx x
  let others := ((s.admissible c.part).map fun m => m.2.fn).filter (· != c.fn)
  !s.diesHeld && (s.launches.any fun l => l.2.ctx == x && l.2.live) &&
  (match (s.part c.part).serving with
    | none => true
    | some f => f == c.fn || !others.contains f)

/-- Reads parts of a save area, as offsets and lengths; the first address that fails. -/
def State.readParts (x c base : Nat) : List (Nat × Nat) → State → Except Nat (List (List Byte)) × State
  | [], s => (.ok [], s)
  | (off, n) :: rest, s =>
    match s.vaRead (.core c) x (base + off) n true false with
    | (.error (_, a), s1) => (.error a, s1)
    | (.ok bs, s1) =>
      match State.readParts x c base rest s1 with
      | (.error a, s2) => (.error a, s2)
      | (.ok more, s2) => (.ok (bs :: more), s2)

/-- Reads one part for each of some keys. -/
def State.readKeyed (x c base : Nat) (at_ : Nat → Nat) (len : Nat) (keys : List Nat) (s : State) :
    Except Nat (List (Nat × List Byte)) × State :=
  match State.readParts x c base (keys.map fun k => (at_ k, len)) s with
  | (.error a, s1) => (.error a, s1)
  | (.ok bs, s1) => (.ok (keys.zip bs), s1)

/-- Runs the next reading with the state that the last one left; an error stops. -/
def andThen {α β : Type} (r : Except Nat α × State) (f : α → State → Except Nat β × State) : Except Nat β × State :=
  match r with
  | (.error a, s) => (.error a, s)
  | (.ok x, s) => f x s

/-- A restored core: warps resident as evicted, array state, tables, watchpoints and the admission counter; its L1 is
empty. -/
def Core.restored (k : Core) (x : Nat) (v : Saved) (quota : Nat) (warps : Tab Warp) (strata : Tab Stratum)
    (tiles grads : Tab (List Word)) (sched : Option SchedTable) : Core :=
  let slots := match k.ctxSlots.free 0 8 with
    | some i => if v.warps.isEmpty then k.ctxSlots else k.ctxSlots.put i x
    | none => k.ctxSlots
  { k with
    warps := warps.foldl (fun t (w : Nat × Warp) => t.put w.1 w.2) k.warps
    ctxSlots := slots, admission := k.admission.put x v.admission, quotas := k.quotas.put x (quota, false)
    l1 := [], watches := if v.watches.isEmpty then k.watches else k.watches.put x v.watches
    sched := match sched with
      | some t => some t
      | none => k.sched
    owner := if v.hasArray then some x else k.owner
    strata := if v.hasArray then strata else k.strata
    tiles := if v.hasArray then tiles else k.tiles
    grads := if v.hasArray then grads else k.grads }

/-- A restored stratum: one saved as LOADING is EMPTY (10 R205). -/
def Stratum.restored (t : Stratum) : Stratum :=
  match t.state with
  | .loading => Stratum.reset
  | .draining => { t with state := .resident }
  | _ => t

/-- The waits that go on after a restore: those of a BARSYNC, whose arrival is made (DEDUCED, log 61). Every other waiting
fragment issues its instruction again from its PC (21 R336, R339). -/
def Wait.kept (t : Wait) : Bool :=
  match t.kind with
  | .barrier _ _ sync _ => sync
  | _ => false

/-- Restores the state of one core, its header read; the address that fails. -/
def State.restoreParts (s : State) (x : Nat) (v : Saved) : Option Nat × State :=
  let c := v.core
  let base := s.saveAt x c
  let quota := match (s.blocksOn x c).head? with
    | some b => (s.launch b.2.launch).quota
    | none => 0
  let mine := s.blocksOn x c
  let groups := (mine.filter fun b => b.2.cores.head? == some c).flatMap fun b => b.2.groups.map fun g => (b.1, groupKey g.1 g.2)
  let resident := (v.strata.filter fun t => t.2.state == .resident).map (·.1)
  let r := andThen (State.readKeyed x c base (fun j => 0x1000 + 0x4400 * j) 17408 resident s) fun strata s =>
    andThen (State.readKeyed x c base (fun g => 0x23000 + 0x8000 * g) 0x8000 (blocksUsed v.grads 128 8) s) fun grads s =>
    andThen (State.readKeyed x c base (fun a => 0x63000 + 0x10000 * a) 0x10000 (blocksUsed v.tiles 256 4) s) fun tiles s =>
    andThen (State.readKeyed x c base (fun w => 0xA3000 + 1024 * w) 1024 (v.warps.map (·.1)) s) fun blocks s =>
    andThen (State.readKeyed x c base (fun g => 0xB3000 + 64 * (g % 256)) 64 (groups.map (·.2)) s) fun entries s =>
    andThen (State.readParts x c base (if v.sched.isSome then [(0xB7000, 4096)] else []) s) fun table s =>
    andThen (State.readParts x c base (mine.map fun b => (0xB8000 + b.2.scratchOff, b.2.scratchSize)) s) fun scratch s =>
      let owner := fun (g : Nat) => ((groups.find? fun e => e.2 == g).map (·.1)).getD 0
      let s1 := { s with
        groups := entries.foldl (fun t (e : Nat × List Byte) => t.put e.1 (groupOf (owner e.1) e.2)) s.groups
        spad := (mine.zip scratch).foldl (fun m (b : (Nat × Block) × List Byte) => m.writeN (spadAt c b.1.2.scratchOff) b.2) s.spad }
      let image := fun (t : Nat × Stratum) => match strata.find? fun e => e.1 == t.1 with
        | some e => (t.1, { t.2 with image := imageOf e.2 })
        | none => (t.1, t.2.restored)
      let warp := fun (w : Nat × Warp) => match blocks.find? fun e => e.1 == w.1 with
        | some e => (w.1, s1.warpFrom w.2 e.2)
        | none => w
      let sched := match v.sched, table with
        | some t, b :: _ => some (t.from b)
        | t, _ => t
      (.ok (), s1.modCore c fun k => k.restored x v quota (v.warps.map warp) (v.strata.map image)
        (tiles.flatMap fun e => rowsFrom (256 * e.1) e.2 256) (grads.flatMap fun e => rowsFrom (128 * e.1) e.2 128) sched)
  match r with
  | (.error a, s1) => (some a, s1)
  | (.ok _, s1) => (none, s1)

/-- Restores the state of one core from its save area, the header first; the address that fails. -/
def State.restoreCore (s : State) (x : Nat) (v : Saved) : Option Nat × State :=
  match State.readParts x v.core (s.saveAt x v.core) [(0, 4096)] s with
  | (.error a, s1) => (some a, s1)
  | (.ok bs, s1) =>
    let h := headerOf (bs.headD [])
    (s1.headerBlocks x v.core h).restoreParts x (v.withHeader h)

/-- Restores the cores of a context in turn. -/
def State.restoreCores (x : Nat) : List Saved → State → Option (Nat × Nat) × State
  | [], s => (none, s)
  | v :: vs, s =>
    match s.restoreCore x v with
    | (some a, s1) => (some (v.core, a), s1)
    | (none, s1) => State.restoreCores x vs s1

/-- Lets the stopped fragments of a restored warp issue again: the allocation of a wait that is begun anew is undone. -/
def State.reissue (s : State) (c slot : Nat) : State :=
  match s.warp? c slot with
  | none => s
  | some w =>
    let ds := w.waits.filterMap fun (t : Wait) => match t.kind with
      | .fence _ _ _ _ d => some (d, 2)
      | .barrier _ _ false d => some (d, 1)
      | _ => none
    let s1 := ds.foldl (fun s d => s.modNames c slot fun w => w.undoPending d.1 d.2) s
    let s2 := s1.modWarp c slot fun w => { w with waits := w.waits.filter Wait.kept, stall := none, timeout := false, leaving := false }
    w.accs.foldl (fun s a => s.settleAcc c slot a.1) s2

/-- Puts a saved context back: its blocks and groups, and then the state of each core. -/
def State.putBack (s : State) (x : Nat) (d : Desc) : State :=
  let c := s.ctx x
  let s1 := { s with
    blocks := c.savedBlocks.foldl (fun t (b : Nat × Block) => t.put b.1 b.2) s.blocks
    groups := c.savedGroups.foldl (fun t (g : Nat × GroupEntry) => t.put g.1 g.2) s.groups }
  let s2 := s1.modCtx x fun c => { c with desc := d, pre := 0, saved := [], savedBlocks := [], savedGroups := [] }
  match State.restoreCores x c.saved s2 with
  | (some (core, a), s3) => s3.saveFaultKill x core a 0
  | (none, s3) => ((c.saved.flatMap fun v => v.warps.map fun w => (v.core, w.1)).foldl (fun s w => s.reissue w.1 w.2) s3).ctxDrops x

/-- CONTEXT_RESTORE: the descriptor and roots are read again, and the saved state is reloaded onto the same cores
(21 R339). A root that admits no work kills the context with PERM (20 R317), as does a descriptor that is no longer valid
(DESIGN CHOICE, log 22). -/
def execContextRestore (ctx : Nat) (s : State) : Host.Outcome State Fault Refusal :=
  let c := s.ctx ctx
  if c.pre ≠ 3 ∨ !s.restoreTurn ctx ∨ !s.restorable ctx then .next s
  else match s.readDesc c.fn c.number with
    | none => .next ((s.postDesc c.fn c.number).killCtx ctx { EvRec.zero with code := cPerm, info := memInfo .read 255 })
    | some d =>
      if rootsOk d then .next (s.putBack ctx d) else .next (s.killCtx ctx { EvRec.zero with code := cPerm, info := memInfo .read 255 })

/-! ### The lode store's refresh (06 R128) -/

/-- Whether a bank refreshes at a time. -/
def refreshing (bank time : Nat) : Bool :=
  let phase := time % 64000
  decide (4000 * bank ≤ phase) && decide (phase < 4000 * bank + 2000)

/-- LODE_REFRESH: a bank enters or leaves its refresh window (06 R128). -/
def execLodeRefresh (bank : Nat) (enter : Bool) (s : State) : Host.Outcome State Fault Refusal :=
  if decide (bank < 16) && refreshing bank s.time == enter then
    .next { s with busy := if enter then s.busy.put bank true else s.busy.del bank }
  else .next s

end Sys2Proof.Machine
end

