-- ==== Sys2Proof/Machine/Fleet.lean ====
section
/-! DEFINITION. Partitions, service bands, telemetry, power and heat, the RAS log, and the minimum version (24 R359 to
R371). -/
namespace Sys2Proof.Machine

/-- Whether the firmware that serves the management block runs (24 R359; 23 R350). -/
def State.running (s : State) : Bool := s.sideband && s.boot.state == 2

/-! ### Partitions (24 R359 to R361, R363) -/

/-- The numbers whose map entry names a partition. -/
def membersOf (t : Tab Nat) (n p : Nat) : List Nat := (List.range n).filter fun i => t.getD i 0xFF == p

/-- The partitions that a slice map names. -/
def namedParts (t : Tab Nat) : List Nat := ((t.filter fun e => decide (e.1 < 32) && e.2 != 0xFF).map (·.2)).eraseDups

/-- Whether the slices that name `p` are exactly an aligned run of a power of two from `p` (24 R360). -/
def runOk (t : Tab Nat) (p : Nat) : Bool :=
  let n := (membersOf t 32 p).length
  among n [1, 2, 4, 8, 16, 32] && p % n == 0 && decide (p + n ≤ 32) && (membersOf t 32 p) == (List.range n).map fun i => p + i

/-- Whether every entry of a map is 0xFF or names one of some partitions. -/
def mapOk (t : Tab Nat) (n : Nat) (ps : List Nat) : Bool := t.all fun e => decide (n ≤ e.1) || e.2 == 0xFF || ps.contains e.2

/-- Whether a staged map gives a partition other members than the current one. -/
def changes (now staged : Tab Nat) (n p : Nat) : Bool := membersOf now n p != membersOf staged n p

/-- The partitions that an apply affects: those whose slices, engines or functions change, those to be removed, and new
ones (24 R361). -/
def Mgmt.affected (m : Mgmt) : List Nat :=
  (List.range 32).filter fun p => changes m.slices m.stSlices 32 p ||
    ((namedParts m.slices).contains p && (changes m.engines m.stEngines 128 p || changes m.functions m.stFunctions 192 p))

/-- Whether a context of an affected partition runs or is on its way out. -/
def State.anyBusyCtx (s : State) (ps : List Nat) : Bool := s.ctxs.any fun x => ps.contains x.2.part && decide (x.2.pre ≤ 2)

/-- Whether an affected partition has a live launch, an entry still being taken, a status still to be written, or an outstanding
page request. DEDUCED (log 92): the launches of a saved context do not count, or no saved context could be kept. -/
def State.anyWork (s : State) (ps : List Nat) : Bool :=
  (s.launches.any fun l => ps.contains l.2.part && l.2.live && (s.ctx l.2.ctx).pre != 3) ||
  (s.parts.any fun p => ps.contains p.1 &&
    !(p.2.copying.isEmpty && p.2.cpWaits.isEmpty && p.2.requests.isEmpty && p.2.statusOwed.isEmpty)) ||
  (s.preqs.any fun r => ps.contains r.2.part) || s.preqHeld.any fun r => ps.contains r.part

/-- The reason that rejects an apply; 0 lets it pass. -/
def State.applyReason (s : State) : Nat :=
  let m := s.mgmt
  let staged := namedParts m.stSlices
  if !staged.all (runOk m.stSlices) then 0x01
  else if !mapOk m.stEngines 128 staged || staged.any fun p => (membersOf m.stEngines 128 p).isEmpty then 0x02
  else if !mapOk m.stFunctions 192 staged then 0x03
  else if s.anyBusyCtx m.affected then 0x04
  else if s.anyWork m.affected then 0x05
  else 0

/-- The staged partition in which a saved context goes on: it holds every core of the save set, and the context's virtual
function. -/
def State.keptIn (s : State) (x : Ctx) : Option Nat :=
  if x.pre ≠ 3 then none
  else
    let m := s.mgmt
    let homes := (x.saved.map fun v => m.stSlices.getD (sliceOf v.core) 0xFF).eraseDups
    let mine := if 256 ≤ x.fn then x.part else m.stFunctions.getD x.fn 0xFF
    match homes with
    | [] => if (namedParts m.stSlices).contains mine then some mine else none
    | [p] => if p = mine ∧ p ≠ 0xFF then some p else none
    | _ => none

/-- A partition as an apply leaves it: formed anew, or with its slices changed, its fences zero, its merge windows 0 and its
fabric map and peer index clear (24 R361). -/
def Part.applied (old : Option Part) (p n : Nat) : Part :=
  match old with
  | none => Part.reset p n
  | some q => { q with first := p, size := n, fences := [], window := [], mapBase := 0, mapLog2 := 0, peerIndex := none }

/-- A function page with its event queue registers clear (21 R330). -/
def FnPage.clearEvents (f : FnPage) : FnPage :=
  { f with evBase := 0, evLog2 := 0, evHead := 0, evTail := 0, evLost := 0, evDropped := false }

/-- The function pages of virtual functions under the staged map: a function that comes to a partition has a page there
(24 R359, R363). -/
def State.stagedFns (s : State) : Tab FnPage :=
  (List.range 192).filterMap fun v =>
    match s.mgmt.stFunctions.getD v 0xFF with
    | 0xFF => none
    | p => some (v, match s.fns.get? v with
      | some f => { f with part := p }
      | none => FnPage.reset p)

/-- The physical function's pages under the staged map. -/
def State.stagedPf (s : State) (affected staged : List Nat) : Tab FnPage :=
  (List.range 32).filterMap fun p =>
    if !staged.contains p then none
    else some (pfKey p, match s.fns.get? (pfKey p) with
      | some f => if affected.contains p then f.clearEvents else f
      | none => FnPage.reset p)

/-- The function page that acts for a function in a partition: the physical function has one in each. -/
def fnIn (fn p : Nat) : Nat := if 256 ≤ fn then pfKey p else fn

/-- A saved context as it goes on in a partition: its saved warps with it. -/
def Ctx.movedTo (x : Ctx) (p : Nat) : Ctx :=
  let key := ctxKey p x.number
  { x with
    part := p, fn := fnIn x.fn p
    saved := x.saved.map fun (v : Saved) =>
      { v with warps := v.warps.map fun (w : Nat × Warp) => (w.1, { w.2 with ctx := key }) } }

/-- A launch as it goes on with its context in a partition. -/
def Launch.movedTo (l : Launch) (p : Nat) : Launch := { l with part := p, ctx := ctxKey p (l.ctx % 4096), fn := fnIn l.fn p }

/-- Moves the saved contexts that go on to their partitions, with their launches, and forgets the other contexts of affected
partitions, but for those that owe a launch status, and what was cached for any context there. -/
def State.moveCtxs (s : State) (affected : List Nat) : State :=
  let owed := fun (x : Nat) => (s.part (x / 4096)).statusOwed.any fun n => (s.launch n).ctx == x
  let stay := s.ctxs.filter fun x => !affected.contains x.2.part || owed x.1
  let moved := s.ctxs.filterMap fun x =>
    if affected.contains x.2.part then (s.keptIn x.2).map fun p => (x.1, p, x.2) else none
  { s with
    ctxs := moved.foldl (fun t (x : Nat × Nat × Ctx) => t.put (ctxKey x.2.1 x.2.2.number) (x.2.2.movedTo x.2.1)) stay
    launches := s.launches.map fun (l : Nat × Launch) =>
      match moved.find? fun m => m.1 == l.2.ctx with
      | some m => (l.1, l.2.movedTo m.2.1)
      | none => l
    tlb := s.tlb.filter fun t => !affected.contains (t.ctx / 4096)
    walks := s.walks.filter fun w => !affected.contains (w.ctx / 4096)
    maps := s.maps.filter fun m => !affected.contains m.part }

/-- The module with the staged maps in force. -/
def State.applyMaps (s : State) : State :=
  let m := s.mgmt
  let affected := m.affected
  let staged := namedParts m.stSlices
  let lost := (s.ctxs.filter fun x => affected.contains x.2.part && x.2.pre == 3 && (s.keptIn x.2).isNone).map (·.1)
  let s1 := lost.foldl (fun s x => s.killCtx x EvRec.zero) s
  let s2 := s1.moveCtxs affected
  let parts := (List.range 32).filterMap fun p =>
    if !staged.contains p then none
    else if affected.contains p then some (p, Part.applied (s2.parts.get? p) p (membersOf m.stSlices 32 p).length)
    else (s2.parts.get? p).map fun q => (p, q)
  { s2 with
    parts := parts
    bytes := s2.bytes.filter fun b => staged.contains (b.1 / 2048) && s2.parts.has (b.1 / 2048)
    fns := s2.stagedFns ++ s2.stagedPf affected staged
    mgmt := { s2.mgmt with slices := m.stSlices, engines := m.stEngines, functions := m.stFunctions, applyState := 2,
                           applyReason := 0 } }.signalDone

/-- PARTITION_APPLY: writing 1 checks the staged maps and reconfigures the affected partitions (24 R361). -/
def execPartitionApply (value : BitVec 32) (s : State) : Host.Outcome State Fault Refusal :=
  if value ≠ 1 ∨ !s.running then .next s
  else match s.applyReason with
    | 0 => .next s.applyMaps
    | r => .next { s with mgmt := { s.mgmt with applyState := 3, applyReason := r } }

/-! ### Service bands (24 R364 to R366) -/

/-- The band before the first load. -/
def Band.default : Band := { floor := 0, ceiling := 255, weight := 1 }

/-- The key of a function's band on a resource. -/
def bandKey (v r : Nat) : Nat := 8 * v + r

/-- The domains of a resource that a function belongs to: the module, in each of the two directions of a link; the dies of its
partition's slices; or its partition. -/
def Mgmt.domains (m : Mgmt) (v r : Nat) : List Nat :=
  if r ≤ 1 then [0, 1]
  else match m.functions.getD v 0xFF with
    | 0xFF => []
    | p => if r = 2 then ((membersOf m.slices 32 p).map (· / 8)).eraseDups else [p]

/-- The word of an entry of the band table. -/
def bandWord (bs : List Byte) (v r : Nat) : Nat := fieldAt bs (32 * v + 4 * r) 4

/-- The floors of a resource summed in one domain over functions 0 to `v`. -/
def Mgmt.floorSum (m : Mgmt) (bs : List Byte) (v r d : Nat) : Nat :=
  ((List.range (v + 1)).filter fun u => (m.domains u r).contains d).foldl (fun n u => n + bandWord bs u r % 256) 0

/-- Whether word `r` of entry `v` fails: a zero field is not zero, a floor exceeds its ceiling, or the floors of a domain
sum to more than 256. -/
def Mgmt.bandFails (m : Mgmt) (bs : List Byte) (v r : Nat) : Bool :=
  let w := bandWord bs v r
  if 5 ≤ r then w != 0
  else decide (2 ^ 24 ≤ w) || decide (w / 256 % 256 < w % 256) || (m.domains v r).any fun d => decide (256 < m.floorSum bs v r d)

/-- The first failing entry and resource, as the status word; 0 when none fails. -/
def Mgmt.bandCheck (m : Mgmt) (bs : List Byte) : Nat :=
  match ((List.range 192).flatMap fun v => (List.range 8).map fun r => (v, r)).find? fun x => m.bandFails bs x.1 x.2 with
  | some (v, r) => v + 1 + 256 * r
  | none => 0

/-- The bands of a table. -/
def bandsOf (bs : List Byte) : Tab Band :=
  (List.range 192).flatMap fun v => (List.range 5).map fun r =>
    let w := bandWord bs v r
    (bandKey v r, { floor := w % 256, ceiling := w / 256 % 256, weight := w / 65536 % 256 })

/-- The bands in force in a window. -/
def Mgmt.bandsIn (m : Mgmt) (window : Nat) : Tab Band :=
  match m.bandsNew with
  | some (w, b) => if w < window then b else m.bands
  | none => m.bands

/-- BAND_RELOAD: writing 1 loads the table; it takes effect at the next window, and a load that fails leaves the old bands
in force (24 R365). -/
def execBandReload (value : BitVec 32) (s : State) : Host.Outcome State Fault Refusal :=
  if value ≠ 1 ∨ !s.running ∨ s.mgmt.bandBase = 0 then .next s
  else
    let bs := s.physRead (physOf s.mgmt.bandBase.toNat) 6144
    match s.mgmt.bandCheck bs with
    | 0 => .next { s with mgmt := { s.mgmt with
        bands := s.mgmt.bandsIn (s.time / 10000), bandStatus := 0, bandsNew := some (s.time / 10000, bandsOf bs) } }
    | n => .next { s with mgmt := { s.mgmt with bandStatus := n } }

/-- The capacity of a resource in a domain in one window: bytes, or ticks of busy time for the engines. A disabled link
module takes its share of the host link (23 R342). -/
def State.capacity (s : State) (r d : Nat) : Nat :=
  match r with
  | 0 => 20500000 * ((List.range 8).filter s.linkModules.getLsbD).length / 8
  | 1 => 51000000
  | 2 => 18400000
  | 3 => 10000 * (membersOf s.mgmt.engines 128 d).length
  | _ => 5440000 * (s.part d).size

/-- One function's place in an allocation. -/
structure Share where
  fn : Nat
  got : Nat
  /-- The most it may get: its demand, within its ceiling. -/
  most : Nat
  weight : Nat
  deriving DecidableEq, Repr

/-- Splits what is left among the unsatisfied functions with weight, round by round (24 R366). -/
def splitRest : Nat → Nat → List Share → List Share
  | 0, _, l => l
  | n + 1, left, l =>
    let total := (l.filter fun x => decide (x.got < x.most)).foldl (fun t x => t + x.weight) 0
    if left = 0 ∨ total = 0 then l
    else
      let give := fun (x : Share) => if x.got < x.most then min (left * x.weight / total) (x.most - x.got) else 0
      let spent := l.foldl (fun t x => t + give x) 0
      if spent = 0 then l else splitRest n (left - spent) (l.map fun x => { x with got := x.got + give x })

/-- The allocation of a capacity among functions by demand and band (24 R366). -/
def allocate (c : Nat) (band : Nat → Band) (demand : List (Nat × Nat)) : List Share :=
  let first := demand.map fun (d : Nat × Nat) =>
    let b := band d.1
    ({ fn := d.1, got := min d.2 (b.floor * c / 256), most := min d.2 ((b.ceiling + 1) * c / 256), weight := b.weight } : Share)
  splitRest (4 * demand.length + 4) (c - first.foldl (fun t x => t + x.got) 0) first

/-- What traffic outside the bands, which is served first, leaves of a capacity (24 R364). -/
def leftOf (c : Nat) (outside : List (Nat × Nat)) : Nat := c - outside.foldl (fun t x => t + x.2) 0

/-- The demand outside every band in a domain of a resource: of 192 + v, the traffic of command processors, walkers, saves and scree
for virtual function v; of 384, that of the physical function. -/
def Mgmt.outside (m : Mgmt) (resource domain : Nat) (demand : List (Nat × Nat)) : List (Nat × Nat) :=
  demand.filter fun d => d.1 == 384 ||
    (decide (192 ≤ d.1) && decide (d.1 < 384) && (m.domains (d.1 - 192) resource).contains domain)

/-- BAND_WINDOW: every 10,000 ticks the hub allocates a resource of a domain among the functions with demand there, after what is
outside every band (24 R364, R366; DEDUCED, log 68). -/
def execBandWindow (resource domain : Nat) (demand : List (Nat × Nat)) (s : State) : Host.Outcome State Fault Refusal :=
  let m := s.mgmt
  let window := s.time / 10000
  let key := 256 * resource + domain
  if !s.running || decide (4 < resource) || decide (window ≤ m.bandAt.getD key 0) then .next s
  else
    let bands := m.bandsIn window
    let asked := demand.filter fun d => decide (d.1 < 192) && (m.domains d.1 resource).contains domain
    let shares := allocate (leftOf (s.capacity resource domain) (m.outside resource domain demand)) (fun v => bands.getD (bandKey v resource) Band.default) asked
    .next { s with mgmt := { m with
      bands := bands
      bandsNew := if bands = m.bands then m.bandsNew else none
      bandAt := m.bandAt.put key window
      shares := shares.foldl (fun t (x : Share) => t.put (256 * key + x.fn) x.got) m.shares } }

/-! ### Telemetry (24 R367) -/

/-- A telemetry image: the counters behind the time word, and the bytes of each function on the five resources; blocks of functions
outside the partition are zero. -/
def State.image (s : State) (p : Nat) : List Byte :=
  let q := s.part p
  let word := fun (k : Nat) => leBytes 8 (q.counters.getD k 0)
  let fnBlock := fun (v : Nat) =>
    if s.mgmt.functions.getD v 0xFF = p then
      ((List.range 5).flatMap fun r => leBytes 8 (s.bytes.getD (byteKey p v r) 0)) ++ word (256 + 128 * v + 40) ++ word (256 + 128 * v + 48)
      ++ List.replicate 72 0
    else List.replicate 128 0
  ((List.range 10).flatMap fun i => word (8 + 8 * i)) ++ List.replicate 168 0 ++ (List.range 192).flatMap fnBlock

/-- TELEMETRY_SNAPSHOT: every 100,000 ticks the image is written, its time word last (24 R367). -/
def execTelemetrySnapshot (part : Nat) (s : State) : Host.Outcome State Fault Refusal :=
  match s.parts.get? part with
  | none => .next s
  | some q =>
    if q.telemetry = 0 ∨ s.time / 100000 ≤ q.snapshot then .next s
    else
      let base := q.telemetry.toNat
      let s1 := s.homeWrite part (physOf (base + 8)) (s.image part)
      let s2 := s1.homeWrite part (physOf base) (leBytes 8 s.time)
      .next (s2.modPart part fun q => { q with snapshot := s.time / 100000 })

/-! ### The RAS log (24 R368, R369) -/

/-- A RAS record in 64 bytes. -/
def rasBytes (time : Nat) (addr : BitVec 64) (store what : BitVec 8) (unit : BitVec 16) (part : BitVec 8) (ctx : BitVec 16) :
    List Byte :=
  leBytes 8 time ++ leBytes 8 addr.toNat ++ [store, what] ++ leBytes 2 unit.toNat ++ [part] ++ leBytes 2 ctx.toNat
  ++ leBytes 41 0

/-- Appends a RAS record; a full ring drops it and raises lost; a log without a base, or with a size outside 6 to 16, is
off. -/
def State.rasWrite (s : State) (addr : BitVec 64) (store what : BitVec 8) (unit : BitVec 16) (part : BitVec 8)
    (ctx : BitVec 16) : State :=
  let m := s.mgmt
  if m.rasBase = 0 ∨ m.rasLog2 < 6 ∨ 16 < m.rasLog2 then s
  else if 2 ^ m.rasLog2 ≤ (m.rasTail - m.rasUsed).toNat then
    { s with mgmt := { m with rasLost := if m.rasLost = BitVec.allOnes 32 then m.rasLost else m.rasLost + 1 } }
  else
    let s1 := s.hubWrite (physOf (m.rasBase.toNat + 64 * (m.rasTail.toNat % 2 ^ m.rasLog2)))
      (rasBytes s.time addr store what unit part ctx)
    { s1 with mgmt := { s1.mgmt with rasTail := m.rasTail + 1 } }

/-- Whether one of a unit's translations in a context reaches a physical address from a virtual range. -/
def State.reaches (s : State) (u : TUnit) (x lo hi addr : Nat) : Bool :=
  s.tlb.any fun t => t.unit == u && t.ctx == x && t.kind != .peer && decide (t.pa ≤ addr) && decide (addr < t.pa + t.size) &&
    decide (lo ≤ t.va + (addr - t.pa)) && decide (t.va + (addr - t.pa) < hi)

/-- A place that an error is found at: its store, the number of the core, slice, die or stack, and the offset or physical
address (24 R369). -/
structure Place where
  store : Nat
  unit : Nat
  addr : Nat
  deriving DecidableEq, Repr

/-- Whether a place lies among `n` bytes from an offset of its store. -/
def Place.within (p : Place) (lo n : Nat) : Bool := decide (lo ≤ p.addr) && decide (p.addr < lo + n)

/-- Whether a place lies in a line of an L2 or of the stacks. -/
def Place.inMemory (p : Place) : Bool := p.store == 3 || p.store == 7

/-- Whether a place lies among `n` bytes from an address of a side of an engine operation. -/
def State.sideMeets (s : State) (o : EngOp) (space a n : Nat) (p : Place) : Bool :=
  match space with
  | 0 => p.inMemory && s.reaches (.engine o.engine) o.ctx a (a + n) p.addr
  | 4 => p.store == 6 && dieOf o.core == p.unit && p.within a n
  | _ => p.store == 1 && decide (p.addr < 2 ^ 21) && (match s.sideScratch o space a n with
    | some at_ => decide (at_ ≤ spadAt p.unit p.addr) && decide (spadAt p.unit p.addr < at_ + n)
    | none => false)

/-- Whether the list of a gather or scatter has its current index at a place. -/
def EngOp.listMeets (o : EngOp) (p : Place) : Bool :=
  (o.kind == .gather || o.kind == .scatter) && p.store == 1 && (match markedTarget o.core o.index with
    | some (t, off) => t == p.unit && p.within (off + o.indexBytes * o.units) o.indexBytes
    | none => false)

/-- Whether an operation is under way: it has begun, and units are left. -/
def EngOp.underWay (o : EngOp) : Bool := o.stage != .locked && decide (o.units < o.total)

/-- Whether the current unit of an engine operation reads a place; a sorter that writes back meets what it has not written yet
(11 R232). -/
def State.engReads (s : State) (o : EngOp) (p : Place) : Bool :=
  o.underWay && (o.listMeets p || match o.kind with
    | .get => false
    | .sort =>
      let done := if o.buffer.isNone then 0 else o.units
      s.sideMeets o 1 (o.src + 4 * done) (4 * (o.len - done)) p || s.sideMeets o 1 (o.dst + 4 * done) (4 * (o.len - done)) p
    | _ => o.buffer.isNone && s.sideMeets o o.sspace (s.unitSource o).1 (s.unitSource o).2 p)

/-- Whether the current unit of an engine operation writes a place. -/
def State.engWrites (s : State) (o : EngOp) (p : Place) : Bool :=
  o.underWay && o.kind != .put && s.sideMeets o (if o.kind == .sort then 1 else o.dspace) (s.unitDest o).1 (s.unitDest o).2 p

/-- Whether a class X operation has taken its place and has units left. -/
def XOp.underWay (o : XOp) : Bool := o.stage != .queued && decide (o.units < xTotal o.instr o.fmt o.copy)

/-- The rows that a held instruction works on next: one, or a block of MMTG (06 R126). -/
def XOp.rowsNow (o : XOp) (f : XF) : List Nat :=
  match o.instr with
  | .mmtg _ _ => (List.range (min 32 (f.rows.toNat - o.units))).map fun i => o.units + i
  | _ => [o.units]

/-- Whether a tag or a row scale that a held instruction reads next, and has not read yet, lies at a place of a scratchpad. -/
def State.scratchMeets (s : State) (c : Nat) (o : XOp) (f : XF) (p : Place) : Bool :=
  let at_ := fun (named : Bool) (key : Nat) (a : Word) (off n : Nat) => named && !o.row.has key &&
    (match s.markedAt c o.ctx a (off + n) with
    | some t => t.1 == p.unit && p.within (t.2 + off) n
    | none => false)
  (o.rowsNow f).any fun m => at_ f.tagged (2 * m) o.tag m 1 || at_ (!nul f.rscale) (2 * m + 1) o.rs (4 * m) 4

/-- The number of the stratum, or 8 + that of the gradient stratum, that an offset of the strata's store lies in. DESIGN CHOICE
(log 70): the store holds the images of the strata, and then the gradient strata, as a save area does (21 R337). -/
def stratumAt (a : Nat) : Nat := if a < 8 * 17408 then a / 17408 else 8 + (a - 8 * 17408) / 32768

/-- Whether the current row, block or unit of a class X operation reads a place of the strata. -/
def State.strataMeets (s : State) (c : Nat) (o : XOp) (a : Nat) : Bool :=
  let tag := fun (f : XF) (m j : Nat) => match s.tagOf c o f m with
    | some t => t.getLsbD 3 && (t.extractLsb' 0 3).toNat == j
    | none => false
  match o.instr with
  | .mmt _ f => tag f o.units (stratumAt a)
  | .mmtx _ f => tag f o.units (stratumAt a)
  | .mmtg _ f => decide (8 ≤ stratumAt a) &&
      (if f.tagged then (o.rowsNow f).any fun m => tag f m (stratumAt a - 8) else f.acc.toNat == stratumAt a - 8)
  | .sstore _ f => f.stratum.toNat == stratumAt a
  | .gstore _ f => 8 + f.acc.toNat == stratumAt a && (a - 8 * 17408) % 32768 / 256 == o.units
  | _ => false

/-- Whether the current row of a class X operation reads a place of the accumulator tiles, each of 64 KiB (06 R113). -/
def XOp.tileMeets (o : XOp) (a : Nat) : Bool :=
  let row := fun (f : XF) => f.acc.toNat == a / 65536 && a % 65536 / 256 == o.units
  match o.instr with
  | .mmt _ f => row f
  | .mmtx _ f => row f
  | .accst _ f => row f
  | _ => false

/-- Whether a class X operation on a core reads a place: its array, a line of its current unit, the lode store, or the
scratchpad. -/
def State.xReads (s : State) (c : Nat) (o : XOp) (p : Place) : Bool :=
  o.underWay && match p.store with
  | 1 =>
    match o.instr with
    | .mmt _ f => s.scratchMeets c o f p
    | .mmtx _ f => s.scratchMeets c o f p
    | .mmtg _ f => s.scratchMeets c o f p
    | _ => false
  | 4 => c == p.unit && s.strataMeets c o p.addr
  | 5 => c == p.unit && o.tileMeets p.addr
  | 6 =>
    match o.instr with
    | .sload _ f => f.stride == 4 && dieOf c == p.unit &&
        p.within ((o.base.extractLsb' 0 48).toNat + unitOffset (slotB o.fmt) o.units) 256
    | _ => false
  | _ => p.inMemory && ({ o with stage := .running }).source.any fun r => s.reaches (.array c) o.ctx r.1 (r.1 + r.2) p.addr

/-- Whether the current unit of a class X operation on a core writes a place. -/
def State.xWrites (s : State) (c : Nat) (o : XOp) (p : Place) : Bool :=
  o.underWay && p.inMemory &&
  let base := (o.base.extractLsb' 0 48).toNat
  let put := fun (lo n : Nat) => s.reaches (.array c) o.ctx lo (lo + n) p.addr
  match o.instr, o.copy with
  | .sstore _ _, some t => put (base + unitOffset t.bfmt o.units) 256
  | .gstore _ _, _ => put (base + 256 * o.units) 256
  | .accst _ f, _ => put (o.rowAddr f o.units) (8 * fmtWidth (slotA o.fmt))
  | _, _ => false

/-- A corrected error raises state 1 in the statuses of a context's operations that meet it (24 R368; 11 R223; 10 R203). -/
def State.markCorrected (s : State) (x : Nat) (p : Place) : State :=
  let eng := fun (o : Nat × EngOp) =>
    if o.2.ctx == x && (s.engReads o.2 p || s.engWrites o.2 p) then (o.1, { o.2 with corrected := true }) else o
  let one := fun (c : Nat) (o : Nat × XOp) =>
    if o.2.ctx == x && (s.xReads c o.2 p || s.xWrites c o.2 p) then (o.1, { o.2 with corrected := true }) else o
  let mark := fun (k : Nat × Core) => (k.1, { k.2 with xq := k.2.xq.map (one k.1) })
  { s with engs := s.engs.map eng, cores := s.cores.map mark }

/-- Whether the L2s hold the line of a place with modified bytes. -/
def State.modified (s : State) (p : Place) : Bool :=
  s.l2.any fun l => l.is (physOf p.addr).host (physOf p.addr).line && l.dirty != 0

/-- Whether a lane of an access that is still to be performed reads a place: of a scratchpad or the lode store, of its own L1's
line, or of an L2 line (DESIGN CHOICE, log 70: a lane that is still to be performed meets it). -/
def State.laneReads (s : State) (c : Nat) (w : Warp) (a : Acc) (l : AccLane) (p : Place) : Bool :=
  let n := widthBytes a.f.width
  let line := fun (t : Xlated) => t.phys.host == (physOf p.addr).host && t.phys.line == (physOf p.addr).line
  let there := match (s.laneFault (.core c) (some c) w.ctx a l).1 with
    | .ok t => line t && (if p.store = 2 then a.op == .ld && narrow a.f && (s.l1Find c w.ctx t.phys).isSome else true)
    | .error _ => false
  l.stage == .todo && a.op != .st && a.op != .cwb && match p.store with
  | 1 => (a.f.space == 1 || a.f.space == 2) && (spadTarget c a.f.space l.addr).1 == p.unit && p.within (spadTarget c a.f.space l.addr).2 n
  | 2 => a.f.space == 0 && c == p.unit && there
  | 3 => a.f.space == 0 && there
  | 6 => a.f.space == 4 && dieOf c == p.unit && p.within l.addr n
  | _ => false

/-- The code of an uncorrectable error, as the fault of an access. -/
def ueFault : XFault := { code := cUe, gpa := 0, table := false }

/-- A lane of an access meets an uncorrectable error (09 R184): a reduction's lane is dropped, and any other access halts its
warp, its lane being performed again once a resume walks it. A lane outside global memory stands in no log entry. -/
def State.laneError (s : State) (c slot n : Nat) (l : AccLane) : State :=
  match s.warp? c slot with
  | none => s
  | some w =>
    match w.accs.get? n with
    | none => s
    | some a =>
      let lane := laneBit l.lane
      match if a.f.space = 0 then s.logLanes c slot n a [l] (some ueFault) else none with
      | some s1 => s1.settleAcc c slot n
      | none =>
        let fn := (s.ctx w.ctx).fn
        if a.op.logKind = 1 then
          ((s.setWarp c slot (w.modAcc n fun a => a.setStage lane .done)).post fn
            (s.accRecord c w a lane 2 cUe l.addr 255)).settleAcc c slot n
        else (s.setWarp c slot { w.modAcc n fun a => a.setStage lane .logged with halted := true }).post fn
          { s.accRecord c w a lane 1 cUe l.addr 255 with flags := 0x40 }

/-- A class X operation meets an uncorrectable error: UE in its status, or a precise fault (10 R203). -/
def State.xError (s : State) (c n : Nat) : State :=
  match (s.core c).xq.get? n with
  | none => s
  | some o =>
    if xHeld o.instr then
      let s1 := s.stopX c n o
      match s1.warp? c o.slot with
      | none => s1
      | some w => s1.takeFault c o.slot w.live o.pc 0 false 0 { code := cUe, lanes := w.live, addr := 0, info := memInfo .read 255 }
    else s.failAsync c n o 2 cUe

/-- The instruction that a warp's fragment issues next, if its line can be read. -/
def State.nextInstr (s : State) (c : Nat) (w : Warp) : Option (PC × Mask × Instr) :=
  match w.fragment with
  | none => none
  | some (pc, frag) =>
    match (s.readLine c w.ctx pc false).1 with
    | .ok l => some (pc, frag, decodeWord (l.slots.getD (slotIn pc) 0))
    | .error _ => none

/-- Whether a TAGSET or TAGCNT that a warp issues next reads a place of a scratchpad (10 R217, R218). -/
def State.tagsMeet (s : State) (c : Nat) (w : Warp) (i : Instr) (p : Place) : Bool :=
  let at_ := fun (a : Word) (n : Nat) => match s.markedAt c w.ctx a n with
    | some t => t.1 == p.unit && p.within t.2 n
    | none => false
  match i with
  | .tagset _ f => at_ ((w.xBase f).extractLsb' 0 32) (tagSpan f)
  | .tagcnt _ f => at_ (w.word f.tagaddr 0) f.rows.toNat
  | _ => false

/-- The warp whose slot of a register pool an offset lies in. DESIGN CHOICE (log 70): the slots in use stand in the order of the
entries and of their names, and it is the fragment to issue next that reads the slot. -/
def Core.poolOwner (k : Core) (a : Nat) : Option Nat :=
  (k.warps.flatMap fun w => w.2.names.map fun _ => w.1)[a / 128]?

/-- An uncorrectable error that the instruction which a warp issues next meets is a precise fault of its fragment (21 R327). -/
def State.issueError (s : State) (c slot : Nat) : State :=
  match s.warp? c slot with
  | none => s
  | some w =>
    match w.fragment with
    | none => s
    | some (pc, frag) => s.takeFault c slot frag pc 0 false 0 { code := cUe, lanes := frag, addr := 0, info := memInfo .read 255 }

/-- The warps of a context on a core whose next instruction reads a place of the core's register pool, or tags there. -/
def State.issuesMeet (s : State) (x c : Nat) (k : Core) (p : Place) : List Nat :=
  let mine := (k.warps.filter fun w => w.2.ctx == x && !w.2.evicted && !w.2.leaving && !w.2.held).map (·.1)
  mine.filter fun i => match p.store with
    | 0 => c == p.unit && k.poolOwner p.addr == some i
    | 1 => match k.warps.get? i with
      | none => false
      | some w => (s.nextInstr c w).any fun n => s.tagsMeet c w n.2.2 p
    | _ => false

/-- The warps of a context on a core whose fragment fetches next from a place of an L2. DESIGN CHOICE (log 70): the fetch that a warp
makes next meets the error. -/
def State.fetchesMeet (s : State) (x c : Nat) (k : Core) (p : Place) : List Nat :=
  (k.warps.filter fun w => p.store == 3 && w.2.ctx == x && !w.2.evicted && !w.2.leaving && !w.2.held && (match w.2.fragment with
    | none => false
    | some (pc, _) => match (s.translate (.core c) x (lineOf pc) .fetch false false false).1 with
      | .ok t => t.phys.host == (physOf p.addr).host && t.phys.line == (physOf p.addr).line
      | .error _ => false)).map (·.1)

/-- An uncorrectable error that a fetch meets is an IFETCH_UE of its fragment (03 R67; 24 R368). -/
def State.fetchError (s : State) (c slot : Nat) : State :=
  match s.warp? c slot with
  | none => s
  | some w =>
    match w.fragment with
    | none => s
    | some (pc, frag) => s.takeFetchFaults c slot pc (fetchFaults w pc frag (some (.error cIfetchUe)))

/-- Whether a place belongs to the on-die state of a context that is being saved (21 R338). -/
def State.saveMeets (s : State) (x : Nat) (p : Place) : Bool :=
  (s.ctx x).pre == 2 && (s.core p.unit).contexts.contains x && (p.store == 0 || p.store == 1 || p.store == 4 || p.store == 5)

/-- An uncorrectable error is reported to the engine operations, class X operations, accesses, instructions and fetches of a context
that read it (24 R368). -/
def State.reportError (s : State) (x : Nat) (p : Place) : State :=
  if s.saveMeets x p then s.saveFaultKill x p.unit p.addr 0
  else
    let s1 := (s.engs.filter fun o => o.2.ctx == x && s.engReads o.2 p).foldl (fun s o =>
      match s.engs.get? o.1 with
      | some e => s.endEng o.1 e 2 cUe
      | none => s) s
    let xs := s1.cores.flatMap fun k => (k.2.xq.filter fun o => o.2.ctx == x && s1.xReads k.1 o.2 p).map fun o => (k.1, o.1)
    let s2 := xs.foldl (fun s o => s.xError o.1 o.2) s1
    let lanes := s2.cores.flatMap fun k => (k.2.warps.filter fun w => w.2.ctx == x).flatMap fun w => w.2.accs.flatMap fun a =>
      (a.2.lanes.filter fun l => s2.laneReads k.1 w.2 a.2 l p).map fun l => (k.1, w.1, a.1, l)
    let s3 := lanes.foldl (fun s l => s.laneError l.1 l.2.1 l.2.2.1 l.2.2.2) s2
    let issues := s3.cores.flatMap fun k => (s3.issuesMeet x k.1 k.2 p).map fun i => (k.1, i)
    let s4 := issues.foldl (fun s i => s.issueError i.1 i.2) s3
    let fetches := s4.cores.flatMap fun k => (s4.fetchesMeet x k.1 k.2 p).map fun i => (k.1, i)
    fetches.foldl (fun s i => s.fetchError i.1 i.2) s4

/-- Whether an engine or array is writing the bytes of a place. -/
def State.beingWritten (s : State) (p : Place) : Bool :=
  (s.engs.any fun o => s.engWrites o.2 p) || s.cores.any fun k => k.2.xq.any fun o => s.xWrites k.1 o.2 p

/-- What an uncorrectable error makes of the line it is found in: a line of a stack, a modified line, and one that an operation is
writing are poisoned; any other copy is given up, and read again from behind (24 R368; DESIGN CHOICE, log 70). -/
def State.spoil (s : State) (p : Place) : State :=
  let at_ := physOf p.addr
  if p.store = 2 then s.modCore p.unit fun k =>
    { k with l1 := k.l1.filter fun l => !(l.host == at_.host && l.addr == at_.line) }
  else if !p.inMemory then s
  else if p.store = 7 || s.modified p || s.beingWritten p then
    if s.poison.contains (lineKey at_) then s else { s with poison := s.poison ++ [lineKey at_] }
  else match s.l2.find? fun l => l.is at_.host at_.line with
    | some l => s.giveUpLine l
    | none => s

/-- RAS_RECORD: an error is found in a store. A corrected one changes no value and raises state 1; an uncorrectable one spoils its
line and reaches what reads it there; each writes a record (24 R368, R369). -/
def execRasRecord (addr : BitVec 64) (store what : BitVec 8) (unit : BitVec 16) (part : BitVec 8) (ctx : BitVec 16) (s : State) :
    Host.Outcome State Fault Refusal :=
  if !s.running then .next s
  else
    let x := ctxKey part.toNat ctx.toNat
    let p : Place := { store := store.toNat, unit := unit.toNat, addr := addr.toNat }
    let s1 := s.rasWrite addr store what unit part ctx
    let s2 := if s.parts.has part.toNat then s1.tally part.toNat (if what = 0 then 64 else 72) 1 else s1
    if what = 0 then .next (s2.markCorrected x p) else .next ((s2.reportError x p).spoil p)

/-! ### Power and heat (24 R370) -/

/-- The power cap in watts: 0 means 2,200. -/
def Mgmt.limit (m : Mgmt) : Nat := if m.cap = 0 then 2200 else m.cap

/-- The compute clock one step of 50 MHz lower, down to 600 MHz. -/
def Mgmt.slower (m : Mgmt) : Mgmt := { m with clock := max 12 (m.clock - 1) }

/-- POWER_WINDOW: each 1,000,000-tick window the average power is kept; above the cap the clock goes one step down, and at
600 MHz idle cycles are inserted. `energy` is what each partition's slices used in it, in millijoules (24 R367, R370). -/
def execPowerWindow (watts : Nat) (energy : List (Nat × Nat)) (s : State) : Host.Outcome State Fault Refusal :=
  let m := s.mgmt
  let window := s.time / 1000000
  if !s.running ∨ window ≤ m.powerAt then .next s
  else
    let m1 := { m with watts := watts, powerAt := window }
    let hot := decide (m.limit < watts)
    let m2 := if hot then { m1.slower with idle := m.clock == 12 } else { m1 with idle := false }
    .next ((energy.filter fun e => s.parts.has e.1).foldl (fun s e => s.tally e.1 80 e.2) { s with mgmt := m2 })

/-- At 105 °C every compute die is held in reset, which kills every context, and a RAS record with store 8 is written. -/
def State.shutDown (s : State) (die temp : Nat) : State :=
  let xs := (s.ctxs.filter fun x => x.2.pre != 4).map (·.1)
  let s1 := xs.foldl (fun s x => s.killCtx x EvRec.zero) s
  { s1 with mgmt := { s1.mgmt with temps := s1.mgmt.temps.put die temp }, diesHeld := true }.rasWrite 0 8 1 (BitVec.ofNat 16 die) 0xFF 0xFFFF

/-- THERMAL_THROTTLE: a die's temperature is read; at 95 °C the hub lowers the clock, and at 105 °C it holds the dies in reset (24
R370). -/
def execThermalThrottle (die temp : Nat) (s : State) : Host.Outcome State Fault Refusal :=
  if !s.running then .next s
  else if 105 ≤ temp then .next (s.shutDown die temp)
  else
    let m := { s.mgmt with temps := s.mgmt.temps.put die temp }
    .next { s with mgmt := if 95 ≤ temp then m.slower else m }

/-- THERMAL_SHUTDOWN: at 105 °C every compute die is held in reset, which kills every context, and a RAS record with store 8
is written (24 R370). -/
def execThermalShutdown (die : Nat) (s : State) : Host.Outcome State Fault Refusal :=
  if s.running then .next (s.shutDown die (max 105 (s.mgmt.temps.getD die 0))) else .next s

/-! ### The minimum version (24 R371) -/

/-- MIN_VERSION_RAISE: a value above the minimum and at most the running image's version is raised at the next reset; any
other value is ignored, and of several the highest stands. -/
def execMinVersionRaise (value : BitVec 32) (s : State) : Host.Outcome State Fault Refusal :=
  if s.running ∧ s.minVersion < value.toNat ∧ value.toNat ≤ s.boot.version then
    .next { s with raise := some (max (s.raise.getD 0) value.toNat) }
  else .next s

end Sys2Proof.Machine
end

