-- ==== Sys2Proof/Machine/ConfigWrite.lean ====
section
/-! DEFINITION. Writes to the register pages of BAR0 (19 R291, R304; 20 R305, R314, R322, R325, R326; 21 R330, R332, R335;
23 R344, R348, R352, R353; 24 R359, R367). A register with an effect of its own acts as its event; any other stores the
bytes written. -/
namespace Sys2Proof.Machine

/-! ### Bytes of registers -/

/-- A number with byte `i` replaced. -/
def setByte (x i : Nat) (b : Byte) : Nat := x - x / 256 ^ i % 256 * 256 ^ i + b.toNat * 256 ^ i

/-- A word with byte `i` replaced. -/
def setByteBv {w : Nat} (x : BitVec w) (i : Nat) (b : Byte) : BitVec w := BitVec.ofNat w (setByte x.toNat i b)

/-- A byte written to a queue descriptor; head and what lies beyond the context field ignore it (19 R291). -/
def Queue.writeByte (q : Queue) (i : Nat) (b : Byte) : Queue :=
  if i < 8 then { q with base := setByteBv q.base i b }
  else match i with
    | 8 => { q with log2 := b.toNat }
    | 9 => { q with prio := b.toNat % 8 }
    | 10 => { q with process := b.toNat % 64 }
    | 11 => q.setEnable (b.getLsbD 0)
    | 16 => { q with ctx := setByte q.ctx 0 b }
    | 17 => { q with ctx := setByte q.ctx 1 (b &&& 0x0F) }
    | _ => q

/-- A byte written to a function's configuration page. -/
def FnPage.writeByte (p : FnPage) (o : Nat) (b : Byte) : FnPage :=
  if o < 0x80 then (if o % 2 = 0 then { p with weights := p.weights.put (o / 2) b.toNat } else p)
  else if 0x800 ≤ o then
    let q := (o - 0x800) / 32
    { p with queues := p.queues.put q ((p.queues.getD q Queue.reset).writeByte ((o - 0x800) % 32) b) }
  else if 0x100 ≤ o ∧ o < 0x108 then { p with slice := setByte p.slice (o - 0x100) b }
  else if 0x1C0 ≤ o ∧ o < 0x1C8 then { p with evBase := setByteBv p.evBase (o - 0x1C0) b }
  else if o = 0x1C8 then { p with evLog2 := b.toNat }
  else if 0x1CC ≤ o ∧ o < 0x1D0 then { p with evHead := setByteBv p.evHead (o - 0x1CC) b }
  else if 0x1E8 ≤ o ∧ o < 0x1F0 then { p with resumePc := setByteBv p.resumePc (o - 0x1E8) b }
  else if 0x1F8 ≤ o ∧ o < 0x200 then { p with ctxTable := setByteBv p.ctxTable (o - 0x1F8) b }
  else p

/-- A byte written to a partition's configuration page: merge windows, fabric map, peer index, telemetry base. -/
def Part.writeByte (p : Part) (o : Nat) (b : Byte) : Part :=
  if 0x100 ≤ o ∧ o < 0x100 + 4 * p.size then
    (if o % 4 = 0 then { p with window := p.window.put ((o - 0x100) / 4) b.toNat } else p)
  else if 0x200 ≤ o ∧ o < 0x208 then { p with mapBase := setByteBv p.mapBase (o - 0x200) b }
  else if o = 0x208 then { p with mapLog2 := b.toNat }
  else if 0x210 ≤ o ∧ o < 0x212 then
    { p with peerIndex := some (setByteBv (p.peerIndex.getD 0) (o - 0x210) b) }
  else if 0x300 ≤ o ∧ o < 0x308 then { p with telemetry := setByteBv p.telemetry (o - 0x300) b }
  else p

/-- A map with a byte written: 0xFF is an unlisted entry. -/
def mapByte (t : Tab Nat) (i : Nat) (b : Byte) : Tab Nat := if b = 0xFF then t.del i else t.put i b.toNat

/-- A byte written to the management block (24 R359). -/
def Mgmt.writeByte (m : Mgmt) (o : Nat) (b : Byte) : Mgmt :=
  if 0x700 ≤ o ∧ o < 0x720 then { m with stSlices := mapByte m.stSlices (o - 0x700) b }
  else if 0x720 ≤ o ∧ o < 0x7A0 then { m with stEngines := mapByte m.stEngines (o - 0x720) b }
  else if 0x7A0 ≤ o ∧ o < 0x860 then { m with stFunctions := mapByte m.stFunctions (o - 0x7A0) b }
  else if 0x880 ≤ o ∧ o < 0x888 then { m with bandBase := setByteBv m.bandBase (o - 0x880) b }
  else if 0x8A0 ≤ o ∧ o < 0x8A8 then { m with rasBase := setByteBv m.rasBase (o - 0x8A0) b }
  else if o = 0x8A8 then { m with rasLog2 := b.toNat }
  else if 0x8B8 ≤ o ∧ o < 0x8BC then { m with rasUsed := setByteBv m.rasUsed (o - 0x8B8) b }
  else m

/-- A byte written to the boot page (23 R348); the enabled word is the firmware's once an image runs (23 R349). -/
def Boot.writeByte (t : Boot) (o : Nat) (b : Byte) : Boot :=
  if 0x008 ≤ o ∧ o < 0x010 then { t with image := setByteBv t.image (o - 0x008) b }
  else if 0x010 ≤ o ∧ o < 0x014 then { t with len := setByteBv t.len (o - 0x010) b }
  else if o = 0x028 then (if t.state = 2 then t else { t with enabled := b.extractLsb' 0 6 })
  else if 0x040 ≤ o ∧ o < 0x048 then { t with request := setByteBv t.request (o - 0x040) b }
  else t

/-! ### Pages -/

/-- A write to the control register of a function (21 R332): ops 0 and 6 to 15 are ignored, with an event. -/
def State.controlWrite (s : State) (fn : Nat) (v : BitVec 64) : Host.Outcome State Fault Refusal :=
  match (v.extractLsb' 60 4).toNat with
  | 1 => execFragmentResume fn v s
  | 2 => execFragmentResumeAtPc fn v s
  | 3 => execFragmentResumeNext fn v s
  | 4 => execFragmentResumeNoWatch fn v s
  | 5 => execWarpKill fn v s
  | _ => .next (s.ignored fn (v.extractLsb' 48 12).toNat)

/-- A write to the pre-emption register of a function (21 R335); a read then gives the state of the context it names. -/
def State.preemptWrite (s : State) (fn : Nat) (v : BitVec 64) : Host.Outcome State Fault Refusal :=
  let n := (v.extractLsb' 0 12).toNat
  let s1 := s.modFn fn fun p => { p with lastCtx := n }
  match (v.extractLsb' 60 4).toNat with
  | 1 => execSoftPreemptRequest fn n s1
  | 2 => execForcedHalt fn n s1
  | 3 => execContextKill fn n s1
  | 4 => execPreemptWithdraw fn n s1
  | _ => .next (s1.ignored fn n)

/-- A 64-bit write to a function page that has an effect of its own. -/
def State.fnTrigger (s : State) (fn o : Nat) (v : BitVec 64) : Option (Host.Outcome State Fault Refusal) :=
  if 0x400 ≤ o ∧ o < 0x600 then some (execQueueDoorbell fn ((o - 0x400) / 8) v s)
  else if o = 0x188 then some (execPageRetryDoorbell fn v s)
  else if o = 0x190 then some (execHostContextFlush fn v s)
  else if o = 0x1A0 ∧ 256 ≤ fn then some (execPageRequestTableBase (fn - 256) v s)
  else if o = 0x1A8 ∧ 256 ≤ fn then some (execPageRequestReply (fn - 256) v s)
  else if o = 0x1E0 then some (s.controlWrite fn v)
  else if o = 0x1F0 then some (s.preemptWrite fn v)
  else none

/-- A write to a function's page; one that is not in use ignores it (24 R359, R363). -/
def State.fnWrite (s : State) (fn o n : Nat) (v : BitVec 64) : Host.Outcome State Fault Refusal :=
  if !s.fns.has fn then .next s
  else match if n = 8 ∧ o % 8 = 0 then s.fnTrigger fn o v else none with
    | some r => r
    | none => .next (s.modFn fn fun p => (leBytes n v.toNat).zipIdx.foldl (fun p (b : Byte × Nat) => p.writeByte (o + b.2) b.1) p)

/-- Whether a value may be the power cap (24 R370). -/
def capOk (v : Nat) : Bool := v == 0 || (decide (200 ≤ v) && decide (v ≤ 2200))

/-- A 32-bit write to the boot page that has an effect of its own. -/
def State.bootTrigger (s : State) (o : Nat) (v : BitVec 32) : Option (Host.Outcome State Fault Refusal) :=
  match o with
  | 0x018 => some (execBootGo v s)
  | 0x048 => some (match v.toNat with
    | 1 => execCertificateRequest s
    | 2 => execReportRequest s
    | _ => .next s)
  | 0x860 => some (execPartitionApply v s)
  | 0x888 => some (execBandReload v s)
  | 0x890 => some (if s.running ∧ capOk v.toNat then .next { s with mgmt := { s.mgmt with cap := v.toNat } } else .next s)
  | 0x8C0 => some (execMinVersionRaise v s)
  | _ => none

/-- A write to the boot page; the management block is served once an image runs. -/
def State.bootWrite (s : State) (o n : Nat) (v : BitVec 64) : Host.Outcome State Fault Refusal :=
  match if n = 4 ∧ o % 4 = 0 then s.bootTrigger o (v.extractLsb' 0 32) else none with
  | some r => r
  | none =>
    .next ((leBytes n v.toNat).zipIdx.foldl (fun (s : State) (b : Byte × Nat) =>
      if o + b.2 < 0x400 then { s with boot := s.boot.writeByte (o + b.2) b.1 }
      else if s.running then { s with mgmt := s.mgmt.writeByte (o + b.2) b.1 } else s) s)

/-- CONFIG_REGISTER_WRITE: a write of `size` bytes to a page of BAR0, 4 KiB long (19 R291; 23 R344). -/
def execConfigRegisterWrite (page : Page) (offset size : Nat) (value : BitVec 64) (s : State) : Host.Outcome State Fault Refusal :=
  if !s.sideband || decide (0x1000 < offset + size) then .next s
  else match page with
    | .boot => s.bootWrite offset size value
    | .pf p => s.fnWrite (pfKey p) offset size value
    | .vf v => if v < 192 then s.fnWrite v offset size value else .next s
    | .partition p =>
      if s.parts.has p then
        .next (s.modPart p fun q => (leBytes size value.toNat).zipIdx.foldl (fun q (b : Byte × Nat) => q.writeByte (offset + b.2) b.1) q)
      else .next s

end Sys2Proof.Machine
end

