-- ==== Sys2Proof/Machine/ConfigRead.lean ====
section
/-! DEFINITION. The pages of BAR0 as the host finds them, and reads of their registers (00 R3, R372; 19 R291, R304; 20 R305, R314,
R325; 21 R330, R332, R335; 23 R344, R348, R349, R352, R353; 24 R359, R363, R367, R370). Registers are little-endian; reserved fields,
offsets that hold no register and pages that are not in use read as zero. DESIGN CHOICE (log 6): so do registers that only a
write acts on. -/
namespace Sys2Proof.Machine

/-! ### Registers -/

/-- A register of a page: its offset, its size in bytes, and its value. -/
structure Reg where
  offset : Nat
  size : Nat
  value : Nat
  deriving DecidableEq, Repr

/-- A register that holds a word. -/
def regOf {w : Nat} (offset size : Nat) (v : BitVec w) : Reg := { offset := offset, size := size, value := v.toNat }

/-- The byte at an offset of a page with some registers. -/
def regByte (rs : List Reg) (o : Nat) : Byte :=
  match rs.find? fun r => decide (r.offset ≤ o) && decide (o < r.offset + r.size) with
  | some r => BitVec.ofNat 8 (r.value / 256 ^ (o - r.offset))
  | none => 0

/-- One register of a byte for each entry of a map from an offset on; an unlisted entry reads 0xFF. -/
def mapRegs (offset n : Nat) (t : Tab Nat) : List Reg :=
  (List.range n).map fun i => { offset := offset + i, size := 1, value := t.getD i 0xFF }

/-! ### The boot page (23 R348, R349; 24 R359, R370) -/

/-- The offered features as they read: 0 at reset, and those of the part from the first tick on (23 R349; DESIGN CHOICE, log 6). -/
def State.offeredWord (s : State) : BitVec 6 := if s.time = 0 then 0 else Config.offered

/-- The registers of the boot page in front of the management block. -/
def State.bootRegs (s : State) : List Reg :=
  let b := s.boot
  [{ offset := 0x000, size := 8, value := b.state + 256 * b.reason }, regOf 0x008 8 b.image, regOf 0x010 4 b.len,
   regOf 0x020 8 s.offeredWord, regOf 0x028 8 b.enabled, regOf 0x040 8 b.request,
   { offset := 0x04C, size := 4, value := b.responses }]

/-- The highest temperature read of any die. -/
def Mgmt.hottest (m : Mgmt) : Nat := m.temps.foldl (fun t x => max t x.2) 0

/-- The power status word (24 R370). -/
def Mgmt.powerStatus (m : Mgmt) : Nat := m.clock % 256 + 256 * (m.hottest % 256) + 65536 * (m.watts % 65536)

/-- The registers of the management block. -/
def Mgmt.regs (m : Mgmt) : List Reg :=
  mapRegs 0x400 32 m.slices ++ mapRegs 0x420 128 m.engines ++ mapRegs 0x4A0 192 m.functions
  ++ mapRegs 0x700 32 m.stSlices ++ mapRegs 0x720 128 m.stEngines ++ mapRegs 0x7A0 192 m.stFunctions
  ++ [{ offset := 0x868, size := 4, value := m.applyState + 256 * m.applyReason }, regOf 0x880 8 m.bandBase,
      { offset := 0x88C, size := 4, value := m.bandStatus }, { offset := 0x890, size := 4, value := m.cap },
      { offset := 0x894, size := 4, value := m.powerStatus }, regOf 0x8A0 8 m.rasBase,
      { offset := 0x8A8, size := 1, value := m.rasLog2 }, regOf 0x8AC 4 m.rasTail, regOf 0x8B0 4 m.rasLost,
      regOf 0x8B8 4 m.rasUsed]

/-! ### Configuration pages (19 R291; 20 R305, R314, R325; 21 R330, R332, R335) -/

/-- The registers of a queue descriptor. -/
def Queue.regs (q : Queue) (at_ : Nat) : List Reg :=
  [regOf at_ 8 q.base, { offset := at_ + 8, size := 1, value := q.log2 }, { offset := at_ + 9, size := 1, value := q.prio },
   { offset := at_ + 10, size := 1, value := q.process }, { offset := at_ + 11, size := 1, value := q.enable.toNat },
   regOf (at_ + 12) 4 q.head, { offset := at_ + 16, size := 2, value := q.ctx }]

/-- The page-request registers of the physical function's page in a partition (20 R325). -/
def State.requestRegs (s : State) (p : Nat) : List Reg :=
  [regOf 0x1A0 8 (s.part p).tableBase, { offset := 0x1B0, size := 4, value := (s.part p).tableCount }]

/-- The registers of a function's configuration page. Offset 0x190 reads as zero, as a flush is over with the write that asks
for it. -/
def State.fnRegs (s : State) (fn : Nat) : List Reg :=
  let p := s.fn fn
  ((List.range 64).map fun i => { offset := 2 * i, size := 2, value := p.weights.getD i 0 })
  ++ [{ offset := 0x100, size := 8, value := p.slice }, { offset := 0x180, size := 8, value := s.time }]
  ++ (if 256 ≤ fn then s.requestRegs (fn - 256) else [])
  ++ [regOf 0x1C0 8 p.evBase, { offset := 0x1C8, size := 1, value := p.evLog2 }, regOf 0x1CC 4 p.evHead, regOf 0x1D0 4 p.evTail,
      regOf 0x1D4 4 p.evLost, regOf 0x1E8 8 p.resumePc,
      { offset := 0x1F0, size := 8, value := (s.ctx (ctxKey (s.fnPart fn) p.lastCtx)).pre }, regOf 0x1F8 8 p.ctxTable]
  ++ p.queues.flatMap fun q => q.2.regs (0x800 + 32 * q.1)

/-- The registers of a partition's configuration page (19 R304; 23 R352, R353; 24 R367). -/
def Part.regs (p : Part) : List Reg :=
  ((List.range p.size).map fun i => { offset := 0x100 + 4 * i, size := 4, value := p.window.getD i 0 })
  ++ [regOf 0x200 8 p.mapBase, { offset := 0x208, size := 1, value := p.mapLog2 }, regOf 0x210 2 (p.peerIndex.getD 0),
      regOf 0x300 8 p.telemetry]

/-! ### Reads -/

/-- The registers of a page; a page that is not in use has none (24 R359, R363). -/
def State.pageRegs (s : State) (page : Page) : List Reg :=
  let ofFn := fun (f : Nat) => if s.fns.has f then s.fnRegs f else []
  match page with
  | .boot => s.bootRegs ++ s.mgmt.regs
  | .pf p => ofFn (pfKey p)
  | .vf v => if v < 192 then ofFn v else []
  | .partition p => if s.parts.has p then (s.part p).regs else []

/-- What a read of `size` bytes of a page returns. -/
def State.readPage (s : State) (page : Page) (offset size : Nat) : List Byte :=
  let rs := if s.sideband then s.pageRegs page else []
  (List.range size).map fun i => if offset + i < 0x1000 then regByte rs (offset + i) else 0

/-- The page, and the offset in it, that an offset of BAR0 of the physical function (none) or of a virtual function names (23
R344). DESIGN CHOICE (log 93): where the pages of the physical function in partitions 16 up and those of partitions 0 up have the
same offsets, the latter answer. -/
def pageAt (vf : Option Nat) (addr : Nat) : Option (Page × Nat) :=
  match vf with
  | some v => if addr < 0x1000 then some (.vf v, addr) else none
  | none =>
    let p := addr / 0x1000
    if p = 0 then some (.boot, addr)
    else if 0x20 ≤ p ∧ p < 0x40 then some (.partition (p - 0x20), addr % 0x1000)
    else if 0x10 ≤ p ∧ p < 0x20 then some (.pf (p - 0x10), addr % 0x1000)
    else none

/-- An access of the host to BAR0 (23 R344): a write to a page's registers, or a read, whose answer is kept behind those of
partitions. -/
def State.barAccess (s : State) (vf : Option Nat) (addr size : Nat) (value : Option (BitVec 64)) : Host.Outcome State Fault Refusal :=
  match value, pageAt vf addr with
  | some v, some (page, o) => execConfigRegisterWrite page o size v s
  | some _, none => .next s
  | none, some (page, o) => .next { s with answers := s.answers ++ [(32, .ok (s.readPage page o size))] }
  | none, none => .next { s with answers := s.answers ++ [(32, .ok (List.replicate size 0))] }

end Sys2Proof.Machine
end

