-- ==== Sys2Proof/Machine/Control.lean ====
section
/-! DEFINITION. Control instructions: transfers, EXIT, YIELD, NOP, WAIT, SLEEP, TRAP and BKPT (07 R133 to R140, R153). -/
namespace Sys2Proof.Machine

/-! ### Fields (04 R84, 07 R133) -/

/-- The counters of WAIT are zero. -/
def noCounters (f : CF) : Bool := f.wload == 0 && f.wstore == 0 && f.wcopy == 0 && f.wtile == 0

/-- No direct target. -/
def noTarget (f : CF) : Bool := f.tslot == 0 && f.loff == 0

/-- A control instruction that uses neither target, source, counters nor immediate. -/
def plainC (h : Hdr) (f : CF) : Bool :=
  noTarget f && f.zero == 0 && nul f.src && noCounters f && f.imm == 0 && destNone h

/-- A target source: an even pair (07 R133). -/
def pairSource (f : CF) : Bool := (vec f.src || uni f.src) && f.src.toNat % 2 == 0

/-- A link destination: an even vector pair, or an even uniform pair with count 0 and no vector source (07 R133). -/
def linkOk (h : Hdr) (srcs : List (BitVec 9)) : Bool := !nul h.dest && destOk h 2 srcs

/-! ### Transfers (07 R134) -/

/-- The direct target of BRA and CALL (04 R84). -/
def directTarget (pc : PC) (f : CF) : PC :=
  pc - BitVec.ofNat 48 (slotIn pc) + 64 * f.loff.signExtend 48 + f.tslot.zeroExtend 48

/-- Whether lane `i` is the lowest of its group: the active lanes with its target. -/
def leadsGroup (act : Mask) (t : Nat → BitVec 64) (i : Nat) : Bool :=
  laneOn act i && (allLanes.all fun j => !(decide (j < i) && laneOn act j && t j == t i))

/-- Transfers the active lanes, grouped by target; the other lanes of the fragment move to the next PC. -/
def State.transferGroups (s : State) (e : Env) (t : Nat → BitVec 64) : State :=
  let s1 := s.modWarp e.core e.slot fun w => w.sweep.advance (e.frag &&& ~~~e.act)
  (allLanes.filter (leadsGroup e.act t)).foldl (fun s i =>
    s.transfer e.core e.slot (maskOf fun j => laneOn e.act j && t j == t i) ((t i).extractLsb' 0 48) e.pc
      ((t i).extractLsb' 48 16)) s1

/-- Writes the link: the next PC, zero-extended (07 R134, R153). -/
def State.writeLink (s : State) (e : Env) (h : Hdr) : State :=
  s.modWarp e.core e.slot fun w =>
    w.writeNames h.count e.act (fun _ => words64 ((nextPc e.pc).zeroExtend 64)) (constituents h.dest 2) 0

/-- What BRA asks of its issue. -/
def needsBra (h : Hdr) (f : CF) (_ : State) : Needs :=
  { fields := f.zero == 0 && nul f.src && noCounters f && f.imm == 0 && destNone h }

/-- BRA (07 R134). -/
def execBra (h : Hdr) (f : CF) (s : State) : Host.Outcome State Fault Refusal :=
  issue s h (.bra h f) (needsBra h f s)
    fun e s' => s'.transferGroups e fun _ => (directTarget e.pc f).zeroExtend 64

/-- What BRI asks of its issue. -/
def needsBri (h : Hdr) (f : CF) (_ : State) : Needs :=
  { fields := noTarget f && f.zero == 0 && pairSource f && noCounters f && f.imm == 0 && destNone h
    reads := rd f.src 2 }

/-- BRI (07 R134). -/
def execBri (h : Hdr) (f : CF) (s : State) : Host.Outcome State Fault Refusal :=
  issue s h (.bri h f) (needsBri h f s)
    fun e s' => s'.transferGroups e fun i => e.w.pair f.src i

/-- What CALL asks of its issue. -/
def needsCall (h : Hdr) (f : CF) (_ : State) : Needs :=
  { fields := f.zero == 0 && nul f.src && noCounters f && f.imm == 0 && linkOk h []
    dests := constituents h.dest 2, count := h.count }

/-- CALL (07 R134, R153). -/
def execCall (h : Hdr) (f : CF) (s : State) : Host.Outcome State Fault Refusal :=
  issue s h (.call h f) (needsCall h f s)
    fun e s' => (s'.writeLink e h).transferGroups e fun _ => (directTarget e.pc f).zeroExtend 64

/-- What CALLI asks of its issue. -/
def needsCalli (h : Hdr) (f : CF) (_ : State) : Needs :=
  { fields := noTarget f && f.zero == 0 && pairSource f && noCounters f && f.imm == 0 && linkOk h [f.src]
    reads := rd f.src 2, dests := constituents h.dest 2, count := h.count }

/-- CALLI (07 R134, R153). -/
def execCalli (h : Hdr) (f : CF) (s : State) : Host.Outcome State Fault Refusal :=
  issue s h (.calli h f) (needsCalli h f s)
    fun e s' => (s'.writeLink e h).transferGroups e fun i => e.w.pair f.src i

/-- What RET asks of its issue. -/
def needsRet (h : Hdr) (f : CF) (_ : State) : Needs :=
  { fields := noTarget f && f.zero == 0 && pairSource f && noCounters f && f.imm == 0 && destNone h
    reads := rd f.src 2 }

/-- RET: architecturally BRI (07 R134, R153). -/
def execRet (h : Hdr) (f : CF) (s : State) : Host.Outcome State Fault Refusal :=
  issue s h (.ret h f) (needsRet h f s)
    fun e s' => s'.transferGroups e fun i => e.w.pair f.src i

/-! ### EXIT, YIELD, NOP -/

/-- What EXIT asks of its issue. -/
def needsExit (h : Hdr) (f : CF) (_ : State) : Needs :=
  { fields := plainC h f }

/-- EXIT (07 R135; 01 R9, R29; 02 R43). -/
def execExit (h : Hdr) (f : CF) (s : State) : Host.Outcome State Fault Refusal :=
  issue s h (.exit h f) (needsExit h f s)
    fun e s' =>
      let s1 := s'.modWarp e.core e.slot fun w => w.advance (e.frag &&& ~~~e.act)
      if e.act = 0 then s1 else s1.exitLanes e.core e.slot e.act

/-- The active set with a warp at the end of its rotation (01 R19). -/
def Core.toEnd (k : Core) (slot : Nat) : Core :=
  if k.active.contains slot then { k with active := (k.active.filter (· != slot)) ++ [slot] } else k

/-- What YIELD asks of its issue. -/
def needsYield (h : Hdr) (f : CF) (_ : State) : Needs :=
  { fields := plainC h f }

/-- YIELD: the fragment stops at the next PC under a soft request, and otherwise goes to the end of the rotation
(07 R136; 21 R336). -/
def execYield (h : Hdr) (f : CF) (s : State) : Host.Outcome State Fault Refusal :=
  issue s h (.yield h f) (needsYield h f s)
    fun e s' =>
      let s1 := s'.modWarp e.core e.slot fun w => w.advance e.frag
      if e.act = 0 then s1
      else if (s.ctx e.w.ctx).pre = 1 then
        s1.modWarp e.core e.slot fun w => { w with waits := w.waits ++ [{ lanes := e.frag, kind := .yield, since := s.cycle }] }
      else
        let k := s1.core e.core
        s1.setCore e.core (k.toEnd e.slot)

/-- What NOP asks of its issue. -/
def needsNop (h : Hdr) (f : CF) (_ : State) : Needs :=
  { fields := plainC h f }

/-- NOP (07 R136). -/
def execNop (h : Hdr) (f : CF) (s : State) : Host.Outcome State Fault Refusal :=
  issue s h (.nop h f) (needsNop h f s) fun e s' => s'.modWarp e.core e.slot fun w => w.advance e.frag

/-! ### Waiting -/

/-- Whether every counter is at or below its field (07 R138). -/
def countersBelow (w : Warp) (f : CF) : Bool := w.countersAt f.wload.toNat f.wstore.toNat f.wcopy.toNat f.wtile.toNat

/-- What WAIT asks of its issue. -/
def needsWait (h : Hdr) (f : CF) (_ : State) : Needs :=
  { fields := noTarget f && f.zero == 0 && nul f.src && f.imm == 0 && destNone h
    stalls := fun e => if e.act = 0 ∨ countersBelow e.w f then none
      else some (.classCounters f.wload.toNat f.wstore.toNat f.wcopy.toNat f.wtile.toNat) }

/-- WAIT (07 R138). A copies or tiles limit below 63 covers the ended operations of its kind (11 R225; 15 R273). -/
def execWait (h : Hdr) (f : CF) (s : State) : Host.Outcome State Fault Refusal :=
  issue s h (.wait h f) (needsWait h f s)
    fun e s' =>
      let s1 := s'.modWarp e.core e.slot fun w => w.advance e.frag
      if e.act = 0 then s1 else s1.coverOps e.core e.slot (f.wcopy.toNat != 63) (f.wtile.toNat != 63)

/-- The delay of SLEEP in ticks (07 R139). -/
def sleepTicks (w : Warp) (f : CF) : Nat := if nul f.src then 64 * f.imm.toNat else (w.word f.src 0).toNat

/-- What SLEEP asks of its issue. -/
def needsSleep (h : Hdr) (f : CF) (_ : State) : Needs :=
  { fields := noTarget f && f.zero == 0 && (nul f.src || (uni f.src && f.imm == 0)) && noCounters f && destNone h
    peeks := rd f.src 1 }

/-- SLEEP (07 R139). -/
def execSleep (h : Hdr) (f : CF) (s : State) : Host.Outcome State Fault Refusal :=
  issue s h (.sleep h f) (needsSleep h f s)
    fun e s' =>
      if e.act = 0 then s'.modWarp e.core e.slot fun w => w.advance e.frag
      else
        let d := sleepTicks e.w f
        s'.beginWait e (.sleep (s.timeAt e.core + d) (d == 0)) [] 0

/-- SLEEP_EXPIRY: the wake time has come; a zero sleep ends when no fragment of the warp can issue (07 R139). -/
def execSleepExpiry (core slot wait : Nat) (s : State) : Host.Outcome State Fault Refusal :=
  match s.warp? core slot with
  | none => .next s
  | some w =>
    match w.waits[wait]? with
    | some { lanes := lanes, kind := .sleep wake zero, since := _, due := _ } =>
      if zero then (if w.issuable = 0 ∧ !w.halted then .next (s.endWait core slot lanes) else .next s)
      else if wake ≤ s.timeAt core then .next (s.endWait core slot lanes)
      else .next s
    | _ => .next s

/-! ### Traps (07 R140) -/

/-- Takes SW_TRAP in the active lanes: the whole fragment moves to the next PC, and the active lanes are suspended there. -/
def State.softTrap (s : State) (e : Env) (imm : BitVec 8) (flags : BitVec 8) : State :=
  let s1 := s.modWarp e.core e.slot fun w => w.advance e.frag
  if e.act = 0 then s1
  else s1.takeFault e.core e.slot e.act e.pc 0 true flags
    { code := cSwTrap, lanes := e.act, addr := 0, info := imm.zeroExtend 32 }

/-- What TRAP asks of its issue. -/
def needsTrap (h : Hdr) (f : CF) (_ : State) : Needs :=
  { fields := noTarget f && f.zero == 0 && nul f.src && noCounters f && destNone h }

/-- TRAP (07 R140). -/
def execTrap (h : Hdr) (f : CF) (s : State) : Host.Outcome State Fault Refusal :=
  issue s h (.trap h f) (needsTrap h f s)
    fun e s' => s'.softTrap e f.imm 0

/-- What BKPT asks of its issue. -/
def needsBkpt (h : Hdr) (f : CF) (_ : State) : Needs :=
  { fields := noTarget f && f.zero == 0 && nul f.src && noCounters f && destNone h }

/-- BKPT: a TRAP with the breakpoint bit where the context enables debugging, else a NOP (07 R140). -/
def execBkpt (h : Hdr) (f : CF) (s : State) : Host.Outcome State Fault Refusal :=
  issue s h (.bkpt h f) (needsBkpt h f s)
    fun e s' =>
      if (s.ctx e.w.ctx).desc.debug then s'.softTrap e f.imm 0x80
      else s'.modWarp e.core e.slot fun w => w.advance e.frag

end Sys2Proof.Machine
end

