-- ==== Sys2Proof/Machine/Moves.lean ====
section
/-! DEFINITION. Moves and lane exchange (07 R144, R145), and register management (07 R143, 04 R91, 02 R40). -/
namespace Sys2Proof.Machine

/-- The words of a source of one or two names, bits unchanged. -/
def Warp.bits (w : Warp) (n : BitVec 9) (k lane : Nat) : List Word :=
  if k = 2 then words64 (w.pair n lane) else [w.word n lane]

/-- Source B of class VI as bits: a name, or the immediate extended to the type's width (07 R131). -/
def Warp.bitsB (w : Warp) (f : VI) (k lane : Nat) : List Word :=
  if nul f.srcb then intWords f.type (immInt f.type f.imm) else w.bits f.srcb k lane

/-- MOV (07 R144). -/
def execMov (h : Hdr) (f : VI) (s : State) : Host.Outcome State Fault Refusal :=
  let k := typeNames f.type
  compute s h (.mov h f)
    (typeIn f.type [2, 3, 6, 7] && nul f.srca && srcbOk f k && destOk h k [f.srcb] && f.mods == 0 && f.subop == 0)
    (rd f.srcb k) k fun e l => e.w.bitsB f k l

/-- What SEL asks of its issue. -/
def needsSel (h : Hdr) (f : VI) (_ : State) : Needs :=
  let k := typeNames f.type
  let p := f.subop.extractLsb' 0 3
  let dests := constituents h.dest k
  { fields := typeIn f.type [2, 3, 6, 7] && srcOk f.srca k && srcbOk f k && destOk h k [f.srca, f.srcb] &&
      f.mods == 0 && f.subop.extractLsb' 4 8 == 0
    reads := rd f.srca k ++ rd f.srcb k, dests := dests, count := h.count, preds := [p.toNat] }

/-- SEL: both sources are read, whichever is selected (07 R144). -/
def execSel (h : Hdr) (f : VI) (s : State) : Host.Outcome State Fault Refusal :=
  let k := typeNames f.type
  let p := f.subop.extractLsb' 0 3
  let dests := constituents h.dest k
  issue s h (.sel h f) (needsSel h f s)
    fun e s' => finish e dests h.count
      (fun l => if e.w.predOn p l != f.subop.getLsbD 3 then e.w.bits f.srca k l else e.w.bitsB f k l) s'

/-- The lane that lane `i` fetches from in SHFL (07 R145). -/
def shflFrom (mode : Nat) (act : Mask) (i : Nat) (b : Word) : Nat :=
  let j : Int := match mode with
    | 0 => (b.toNat % 32 : Nat)
    | 1 => (i : Int) - b.toNat
    | 2 => (i : Int) + b.toNat
    | _ => (i ^^^ (b.toNat % 32) : Nat)
  if j < 0 ∨ 31 < j then i else if laneOn act j.toNat then j.toNat else i

/-- The read checks of an instruction that fetches source A across lanes: each lane's own reads, and the count of the
lane it fetches from (02 R39, R41). `reads` are all its reads, those of A first. -/
def crossCheck (w : Warp) (act : Mask) (reads aNames : List Nat) (src : Nat → Nat) : Option Raise :=
  let fails := fun n =>
    w.readFails reads act n |||
      (if aNames.contains n then maskOf fun i => laneOn act i && isV n && w.count n (src i) == 0 else 0)
  (firstFail reads fails).map (countRaise cRegExhausted 0)

/-- What SHFL asks of its issue. -/
def needsShfl (h : Hdr) (f : VI) (_ : State) : Needs :=
  let k := typeNames f.type
  let dests := constituents h.dest k
  let reads := rd f.srca k ++ rd f.srcb 1
  let src := fun (e : Env) (i : Nat) => shflFrom (f.subop.extractLsb' 0 2).toNat e.act i (e.w.wordB f i)
  { fields := typeIn f.type [6, 7] && srcOk f.srca k && srcbOk f 1 && destOk h k [f.srca, f.srcb] && f.mods == 0 &&
      f.subop.extractLsb' 2 10 == 0
    reads := reads, dests := dests, count := h.count
    entry := fun e => crossCheck e.w e.act reads (rd f.srca k) (src e) }

/-- SHFL (07 R145). -/
def execShfl (h : Hdr) (f : VI) (s : State) : Host.Outcome State Fault Refusal :=
  let k := typeNames f.type
  let dests := constituents h.dest k
  let src := fun (e : Env) (i : Nat) => shflFrom (f.subop.extractLsb' 0 2).toNat e.act i (e.w.wordB f i)
  issue s h (.shfl h f) (needsShfl h f s)
    fun e s' => finish e dests h.count (fun l => e.w.bits f.srca k (src e l)) s'

/-- The lane that BCAST names: its uniform register, or the immediate (07 R144). -/
def bcastLane (w : Warp) (f : VI) : Nat := (w.wordB f 0).toNat % 32

/-- What BCAST asks of its issue. DESIGN CHOICE (log 87): the lane must be active where no lane is, too. -/
def needsBcast (h : Hdr) (f : VI) (_ : State) : Needs :=
  let k := typeNames f.type
  let dests := constituents h.dest k
  let reads := rd f.srca k ++ rd f.srcb 1
  { fields := typeIn f.type [6, 7] && srcOk f.srca k && destOk h k [f.srca] && f.mods == 0 && f.subop == 0 &&
      (if nul f.srcb then f.imm.extractLsb' 5 27 == 0 else uni f.srcb && f.imm == 0)
    reads := reads, dests := dests, count := h.count
    entry := fun e =>
      if laneOn e.act (bcastLane e.w f) then crossCheck e.w e.act reads (rd f.srca k) (fun _ => bcastLane e.w f)
      else some (fieldRaise e.frag) }

/-- BCAST (07 R144). -/
def execBcast (h : Hdr) (f : VI) (s : State) : Host.Outcome State Fault Refusal :=
  let k := typeNames f.type
  let dests := constituents h.dest k
  issue s h (.bcast h f) (needsBcast h f s)
    fun e s' => finish e dests h.count (fun _ => e.w.bits f.srca k (bcastLane e.w f)) s'

/-- The lane that KMOV reads: the lowest active lane, or the named one (07 R144). -/
def kmovLane (act : Mask) (f : VI) : Nat := if f.imm.getLsbD 5 then lowLane act else f.imm.toNat % 32

/-- What KMOV asks of its issue. DESIGN CHOICE (log 87): a named lane must be active where no lane is, too.
DESIGN CHOICE (log 100): with `first`, the bits of the lane number mean nothing and are not checked. -/
def needsKmov (h : Hdr) (f : VI) (_ : State) : Needs :=
  let k := typeNames f.type
  let dests := constituents h.dest k
  { fields := typeIn f.type [6, 7] && srcOk f.srca k && nul f.srcb && uniOk h.dest k && h.count == 0 && f.mods == 0 &&
      f.subop == 0 && f.imm.extractLsb' 6 26 == 0
    reads := rd f.srca k, dests := dests, count := h.count
    entry := fun e =>
      if f.imm.getLsbD 5 || laneOn e.act (kmovLane e.act f) then none else some (fieldRaise e.frag) }

/-- KMOV (07 R144). -/
def execKmov (h : Hdr) (f : VI) (s : State) : Host.Outcome State Fault Refusal :=
  let k := typeNames f.type
  let dests := constituents h.dest k
  issue s h (.kmov h f) (needsKmov h f s)
    fun e s' => finish e dests h.count (fun _ => e.w.bits f.srca k (kmovLane e.act f)) s'

/-! ### Register management -/

/-- What a register-management instruction makes of a count; none is its fault (02 R40). -/
abbrev CountRule := BitVec 3 → Option (BitVec 3)

/-- What a register-management instruction asks of its issue: class and field rules, and that its rule accepts the count
in each active lane (02 R40, R41; 07 R143). -/
def manageNeeds (h : Hdr) (f : VI) (countOk : Bool) (code : BitVec 8) (rule : CountRule) : Needs :=
  { fields := vec h.dest && countOk && nul f.srca && nul f.srcb && f.type == 0 && f.mods == 0 && f.subop == 0 && f.imm == 0
    peeks := [h.dest.toNat]
    entry := fun e =>
      (firstFail [h.dest.toNat] fun m => maskOf fun l => laneOn e.act l && (rule (e.w.count m l)).isNone).map
        (countRaise code 1) }

/-- A register-management instruction: the named name's counts change in each active lane, or the instruction faults
with `code` (02 R40, R41; 07 R143). -/
def manage (s : State) (h : Hdr) (f : VI) (i : Instr) (countOk : Bool) (code : BitVec 8) (rule : CountRule) :
    Host.Outcome State Fault Refusal :=
  let n := h.dest.toNat
  issue s h i (manageNeeds h f countOk code rule) fun e s' =>
      s'.modWarp e.core e.slot fun w =>
        ((if e.act = 0 ∨ !w.names.has n then w
          else w.modName n fun c => c.setCounts e.act fun l => (rule (w.count n l)).getD 0).sweep).advance e.frag

/-- DROP n: takes n reads away (02 R40). -/
def dropRule (n : BitVec 3) : CountRule := fun c => if c = 7 ∨ c.toNat < n.toNat then none else some (c - n)

/-- HOLD and RECOUNT: a nonzero count becomes `k`. -/
def recountRule (k : BitVec 3) : CountRule := fun c => if c = 0 then none else some k

/-- RELEASE: only a held count becomes zero. -/
def releaseRule : CountRule := fun c => if c = 7 then some 0 else none

/-- DROP (02 R40). -/
def execDrop (h : Hdr) (f : VI) (s : State) : Host.Outcome State Fault Refusal :=
  manage s h f (.drop h f) (h.count != 0 && h.count != 7) cRegOverdrop (dropRule h.count)

/-- CLEAR (02 R40). -/
def execClear (h : Hdr) (f : VI) (s : State) : Host.Outcome State Fault Refusal :=
  manage s h f (.clear h f) (h.count == 0) cRegOverdrop fun _ => some 0

/-- RELEASE (02 R40). -/
def execRelease (h : Hdr) (f : VI) (s : State) : Host.Outcome State Fault Refusal :=
  manage s h f (.release h f) (h.count == 0) cRegOverdrop releaseRule

/-- HOLD (02 R40). -/
def execHold (h : Hdr) (f : VI) (s : State) : Host.Outcome State Fault Refusal :=
  manage s h f (.hold h f) (h.count == 0) cRegExhausted (recountRule 7)

/-- RECOUNT (02 R40). -/
def execRecount (h : Hdr) (f : VI) (s : State) : Host.Outcome State Fault Refusal :=
  manage s h f (.recount h f) (h.count != 0) cRegExhausted (recountRule h.count)

end Sys2Proof.Machine
end

