-- ==== Sys2Proof/Machine/Predicates.lean ====
section
/-! DEFINITION. Predicate instructions: PSETI, PSETF, PLOP, PVOTE, PMOV (07 R141, R142; 08 R163). -/
namespace Sys2Proof.Machine

/-- The predicate written by PSETI and PSETF (07 R141). -/
def psetDest (f : VI) : Nat := (f.subop.extractLsb' 4 3).toNat

/-- The combining predicate of PSETI and PSETF. -/
def psetWith (f : VI) : BitVec 3 := f.subop.extractLsb' 7 3

/-- The combine code of PSETI and PSETF. -/
def psetHow (f : VI) : Nat := (f.subop.extractLsb' 10 2).toNat

/-- The compare code of PSETI and PSETF. -/
def psetCode (f : VI) : Nat := (f.subop.extractLsb' 0 4).toNat

/-- The rules of subop that PSETI and PSETF share: pD is not p7, and combine 0 goes with p7 (07 R132, R141). -/
def psetFields (h : Hdr) (f : VI) : Bool :=
  destNone h && f.mods == 0 && psetDest f != 7 && (psetHow f != 0 || psetWith f == 7)

/-- What PSETI and PSETF ask of their issue. -/
def psetNeeds (f : VI) (fields : Bool) (reads : List Nat) : Needs :=
  { fields := fields, reads := reads, preds := [psetDest f, (psetWith f).toNat] }

/-- An instruction that compares in each active lane and writes a predicate. -/
def setPredicate (s : State) (h : Hdr) (f : VI) (i : Instr) (fields : Bool) (reads : List Nat)
    (c : Env → Nat → Bool) : Host.Outcome State Fault Refusal :=
  issue s h i (psetNeeds f fields reads) fun e s' =>
    s'.modWarp e.core e.slot fun w =>
      ((w.setPred (psetDest f) e.act
        (maskOf fun l => combine (psetHow f) (c e l) (e.w.predOn (psetWith f) l))).sweep).advance e.frag

/-- PSETI (07 R142). -/
def execPseti (h : Hdr) (f : VI) (s : State) : Host.Outcome State Fault Refusal :=
  let k := typeNames f.type
  setPredicate s h f (.pseti h f)
    (typeIn f.type allTypes && srcOk f.srca k && srcbOk f k && psetFields h f && decide (psetCode f ≤ 5))
    (rd f.srca k ++ rd f.srcb k)
    fun e l => cmpInt (psetCode f) (e.w.int f.type f.srca l) (e.w.intB f.type f l)

/-- PSETF (08 R163). -/
def execPsetf (h : Hdr) (f : VI) (s : State) : Host.Outcome State Fault Refusal :=
  setPredicate s h f (.psetf h f)
    (typeIn f.type [6, 8] && srcOk f.srca 1 && srcbOk f 1 && psetFields h f && psetCode f != 7 && psetCode f != 15)
    (rd f.srca 1 ++ rd f.srcb 1)
    fun e l => cmpNum (psetCode f) (f32 (e.w.word f.srca l)) (f32 (e.w.wordB f l))

/-- The index of PLOP's table for three predicates in a lane (07 R142). -/
def plopIndex (w : Warp) (f : VI) (l : Nat) : Nat :=
  (if w.predOn (f.subop.extractLsb' 0 3) l then 4 else 0) + (if w.predOn (f.subop.extractLsb' 3 3) l then 2 else 0)
    + (if w.predOn (f.subop.extractLsb' 6 3) l then 1 else 0)

/-- What PLOP asks of its issue. -/
def needsPlop (h : Hdr) (f : VI) (_ : State) : Needs :=
  let pd := (f.subop.extractLsb' 9 3).toNat
  { fields := f.type == 6 && nul f.srca && nul f.srcb && destNone h && f.mods == 0 && pd != 7 &&
      f.imm.extractLsb' 8 24 == 0
    preds := [pd, (f.subop.extractLsb' 0 3).toNat, (f.subop.extractLsb' 3 3).toNat, (f.subop.extractLsb' 6 3).toNat] }

/-- PLOP (07 R141, R142). -/
def execPlop (h : Hdr) (f : VI) (s : State) : Host.Outcome State Fault Refusal :=
  let pd := (f.subop.extractLsb' 9 3).toNat
  issue s h (.plop h f) (needsPlop h f s)
    fun e s' =>
      s'.modWarp e.core e.slot fun w =>
        (w.setPred pd e.act (maskOf fun l => f.imm.getLsbD (plopIndex e.w f l))).advance e.frag

/-- The mode of PVOTE: all, any, uni, ballot (07 R141). -/
def pvoteMode (f : VI) : Nat := (f.subop.extractLsb' 6 2).toNat

/-- What PVOTE asks of its issue. -/
def needsPvote (h : Hdr) (f : VI) (_ : State) : Needs :=
  let ps := f.subop.extractLsb' 0 3
  let pd := (f.subop.extractLsb' 3 3).toNat
  let ballot := pvoteMode f = 3
  let dests := constituents h.dest 1
  { fields := f.type == 6 && nul f.srca && nul f.srcb && f.mods == 0 && f.imm == 0 && f.subop.extractLsb' 8 4 == 0 &&
      (if ballot then pd == 7 && destOk h 1 [] else pd != 7 && destNone h)
    dests := dests, count := h.count, preds := [ps.toNat, pd] }

/-- PVOTE (07 R141, R142). -/
def execPvote (h : Hdr) (f : VI) (s : State) : Host.Outcome State Fault Refusal :=
  let ps := f.subop.extractLsb' 0 3
  let pd := (f.subop.extractLsb' 3 3).toNat
  let ballot := pvoteMode f = 3
  let dests := constituents h.dest 1
  issue s h (.pvote h f) (needsPvote h f s)
    fun e s' =>
      let votes := e.w.pred ps.toNat &&& e.act
      if ballot then finish e dests h.count (fun _ => [votes]) s'
      else
        let r := match pvoteMode f with
          | 0 => votes == e.act
          | 1 => votes != 0
          | _ => votes == e.act || votes == 0
        s'.modWarp e.core e.slot fun w => (w.setPred pd e.act (if r then fullMask else 0)).advance e.frag

/-- The predicates p6 to p0 of a lane with p7 reading 1 (07 R142). -/
def predBits (w : Warp) (l : Nat) : Nat :=
  (List.range 7).foldl (fun n j => n + (if laneOn (w.pred j) l then 2 ^ j else 0)) 128

/-- What PMOV_TOV asks of its issue. -/
def needsPmovTov (h : Hdr) (f : VI) (_ : State) : Needs :=
  let dests := constituents h.dest 1
  { fields := f.type == 6 && nul f.srca && nul f.srcb && f.mods == 0 && f.imm == 0 && f.subop == 0 && destOk h 1 []
    dests := dests, count := h.count, preds := [0, 1, 2, 3, 4, 5, 6] }

/-- PMOV.tov (07 R142). -/
def execPmovTov (h : Hdr) (f : VI) (s : State) : Host.Outcome State Fault Refusal :=
  let dests := constituents h.dest 1
  issue s h (.pmovTov h f) (needsPmovTov h f s)
    fun e s' => finish e dests h.count (fun l => [BitVec.ofNat 32 (predBits e.w l)]) s'

/-- What PMOV_FROMV asks of its issue. -/
def needsPmovFromv (h : Hdr) (f : VI) (_ : State) : Needs :=
  let js := (List.range 7).filter fun j => f.imm.getLsbD j
  { fields := f.type == 6 && srcOk f.srca 1 && nul f.srcb && destNone h && f.mods == 0 && f.subop == 1 &&
      f.imm.extractLsb' 7 25 == 0
    reads := rd f.srca 1, preds := js }

/-- PMOV.fromv: for each set bit j of the mask, pj takes bit j of the source, which is zero where it is nul (04 R76; 07 R142). -/
def execPmovFromv (h : Hdr) (f : VI) (s : State) : Host.Outcome State Fault Refusal :=
  let js := (List.range 7).filter fun j => f.imm.getLsbD j
  issue s h (.pmovFromv h f) (needsPmovFromv h f s)
    fun e s' =>
      s'.modWarp e.core e.slot fun w =>
        ((js.foldl (fun w j => w.setPred j e.act (maskOf fun l => (e.w.word f.srca l).getLsbD j)) w).sweep).advance e.frag

end Sys2Proof.Machine
end

