-- ==== Sys2Proof/Machine/System.lean ====
section
/-! DEFINITION. Reads of special registers and of the time base: RDSR, RDSR.clr, TIME (04 R77; 07 R151, R152; 02 R47). -/
namespace Sys2Proof.Machine

/-- sr.bedrock (02 R47). -/
def State.bedrockWord (s : State) (e : Env) : Word :=
  match (s.core e.core).bedrock e.w.ctx with
  | none => 0
  | some (b, w) =>
    BitVec.ofNat 32 ((if b = e.slot then 2 ^ 31 else 0) + s.reserve e.core e.w.ctx * 2 ^ 16 + w.seq.toNat % 2 ^ 16)

/-- sr.lodephase (06 R128). -/
def lodePhase (t : Nat) : Word :=
  let phase := t % 64000
  BitVec.ofNat 32 (phase + phase / 4000 * 2 ^ 16 + (if phase % 4000 < 2000 then 2 ^ 20 else 0))

/-- The 64 bits of a special register as a lane reads it; a 32-bit register is zero-extended (04 R77). -/
def State.special (s : State) (e : Env) (n lane : Nat) : BitVec 64 :=
  let g := (s.launch e.w.launch).grid
  match n with
  | 448 => BitVec.ofNat 64 lane
  | 449 => BitVec.ofNat 64 e.w.number
  | 450 => e.w.wid
  | 452 => BitVec.ofNat 64 (match s.blocks.get? e.w.block with
    | some b => b.index
    | none => 0)
  | 453 => BitVec.ofNat 64 e.core
  | 454 => BitVec.ofNat 64 (e.core % 8)
  | 455 => BitVec.ofNat 64 (sliceOf e.core)
  | 456 => BitVec.ofNat 64 (s.timeAt e.core)
  | 458 => e.w.mrow.zeroExtend 64
  | 459 => (lodePhase (s.timeAt e.core)).zeroExtend 64
  | 460 => BitVec.ofNat 64 (s.allocatable e.core e.slot e.w)
  | 461 => (s.bedrockWord e).zeroExtend 64
  | 462 => BitVec.ofNat 64 (s.partOfCore e.core)
  | 463 => if 256 ≤ (s.ctx e.w.ctx).fn then 0xFFFFFFFF else BitVec.ofNat 64 (s.ctx e.w.ctx).fn
  | 464 => BitVec.ofNat 64 g.1
  | 465 => BitVec.ofNat 64 g.2.1
  | 466 => BitVec.ofNat 64 g.2.2
  | 467 => BitVec.ofNat 64 (s.launch e.w.launch).nwarps
  | 468 => e.w.aflags.zeroExtend 64
  | _ => 0

/-- The words that RDSR reads: a register by its type, or the half of a 64-bit one that an odd name gives. -/
def State.specialWords (s : State) (e : Env) (n : BitVec 9) (k lane : Nat) : List Word :=
  if k = 2 then words64 (s.special e n.toNat lane)
  else if n = 451 ∨ n = 457 then [(s.special e (n.toNat - 1) lane).extractLsb' 32 32]
  else [(s.special e n.toNat lane).extractLsb' 0 32]

/-- Which names RDSR reads at a type (04 R77). -/
def specialOk (n : BitVec 9) (type : BitVec 4) : Bool :=
  if type = 7 then n == 450 || n == 456 else type == 6 && decide (448 ≤ n.toNat) && decide (n.toNat ≤ 468)

/-- What RDSR asks of its issue. -/
def needsRdsr (h : Hdr) (f : VI) (_ : State) : Needs :=
  let k := typeNames f.type
  let dests := constituents h.dest k
  { fields := specialOk f.srca f.type && nul f.srcb && f.mods == 0 && f.subop == 0 && f.imm == 0 && destOk h k []
    dests := dests, count := h.count }

/-- RDSR (07 R151). -/
def execRdsr (h : Hdr) (f : VI) (s : State) : Host.Outcome State Fault Refusal :=
  let k := typeNames f.type
  let dests := constituents h.dest k
  issue s h (.rdsr h f) (needsRdsr h f s)
    fun e s' => finish e dests h.count (fun l => s.specialWords e f.srca k l) s'

/-- What RDSR_CLR asks of its issue. -/
def needsRdsrClr (h : Hdr) (f : VI) (_ : State) : Needs :=
  let dests := constituents h.dest 1
  { fields := f.srca == 468 && f.type == 6 && nul f.srcb && f.mods == 0 && f.subop == 1 && f.imm == 0 && destOk h 1 []
    dests := dests, count := h.count }

/-- RDSR.clr: sr.aflags is returned and cleared in one act (07 R151). -/
def execRdsrClr (h : Hdr) (f : VI) (s : State) : Host.Outcome State Fault Refusal :=
  let dests := constituents h.dest 1
  issue s h (.rdsrClr h f) (needsRdsrClr h f s)
    fun e s' =>
      let s1 := finish e dests h.count (fun l => s.specialWords e 468 1 l) s'
      if e.act = 0 then s1 else s1.modWarp e.core e.slot fun w => { w with aflags := 0 }

/-- Whether everything the warp issued has completed and written back (07 R152). -/
def State.quiet (s : State) (e : Env) : Bool :=
  e.w.loads == 0 && e.w.stores == 0 && e.w.copies == 0 && e.w.tiles == 0 &&
  (s.owedDests e.core e.slot e.w).all fun d => d.1.name == 511

/-- What TIME asks of its issue. DESIGN CHOICE (log 88): destination 511 is refused, as no even pair. -/
def needsTime (h : Hdr) (f : VI) (s : State) : Needs :=
  let dests := constituents h.dest 2
  { fields := f.type == 7 && nul f.srca && nul f.srcb && f.mods == 0 && f.subop == 0 && f.imm == 0 && !nul h.dest &&
      destOk h 2 []
    dests := dests, count := h.count
    stalls := fun e => if e.act = 0 ∨ s.quiet e then none else some .ordering }

/-- TIME (07 R152). -/
def execTime (h : Hdr) (f : VI) (s : State) : Host.Outcome State Fault Refusal :=
  let dests := constituents h.dest 2
  issue s h (.time h f) (needsTime h f s)
    fun e s' =>
      let s1 := finish e dests h.count (fun _ => words64 (BitVec.ofNat 64 (s.timeAt e.core))) s'
      if e.act = 0 then s1 else s1.coverOps e.core e.slot true true

/-! ### Words without a meaning (04 R74, R75) -/

/-- A header that every lane executes, for a word of which nothing else is known. -/
def bareHdr : Hdr := { negate := false, guard := 7, dest := 511, count := 0 }

/-- RESERVED_OPCODE: the word faults before every other check, and nothing changes (04 R74, R75). -/
def execReservedOpcode (word : InsnWord) (s : State) : Host.Outcome State Fault Refusal :=
  match env? s bareHdr word with
  | none => .fault .noIssuableFragment
  | some e =>
    if e.w.held then .next s
    else .next (s.raise_ e { code := cOpcodeReserved, lanes := e.frag, addr := 0, info := 0 })

end Sys2Proof.Machine
end

