-- ==== Sys2Proof/Machine/Transcend.lean ====
section
/-! DEFINITION. Reciprocal, roots and transcendental functions (08 R160 to R162). FRCP and FSQRT are correctly rounded.
The other seven give their special and exact points; elsewhere they give the free word of Config.approx where it lies
within the bound of R162, and the nearest FP32 value otherwise (log 9). -/
namespace Sys2Proof.Machine

/-! ### Enclosures of the exact functions -/

/-- The integer square root of `n` by its bits, from bit `i - 1` down. -/
def isqrtGo (n : Nat) : Nat → Nat → Nat
  | 0, r => r
  | i + 1, r => isqrtGo n i (if (r + 2 ^ i) * (r + 2 ^ i) ≤ n then r + 2 ^ i else r)

/-- The integer square root. -/
def isqrt (n : Nat) : Nat := isqrtGo n (Nat.log2 n / 2 + 1) 0

/-- An interval lo × 2^e to hi × 2^e that holds an exact value. -/
structure Encl where
  lo : Int
  hi : Int
  e : Int
  deriving DecidableEq, Repr

/-- 60 decimal digits of log2 e, times 10^60. -/
def log2eDigits : Nat := 1442695040888963407359924681001892137426645954152985934135449

/-- 60 decimal digits of π, times 10^60. -/
def piDigits : Nat := 3141592653589793238462643383279502884197169399375105820974944

/-- 10^60. -/
def digitScale : Nat := 10 ^ 60

/-- A dyadic value rounded down to a multiple of 2^−p, times 2^p. -/
def fixedAt (p : Nat) (neg : Bool) (m : Nat) (e : Int) : Int :=
  let x : Int := if neg then -(m : Int) else m
  if 0 ≤ e + p then x * 2 ^ (e + p).toNat else x / 2 ^ (-(e + p)).toNat

/-- The product over the fraction bits of 2^(2^−i), at 80 fraction bits: `c` is 2^(2^−(i−1)). -/
def exp2Go (frac : Nat) : Nat → Nat → Nat → Nat
  | 0, _, acc => acc
  | i + 1, c, acc =>
    let c1 := isqrt (c * 2 ^ 80)
    exp2Go frac i c1 (if frac.testBit i then acc * c1 / 2 ^ 80 else acc)

/-- 2^(x / 2^64) for an integer x: the exact value lies in the interval (the product loses less than 2^10 units of
2^−80, and a truncated argument less than 2^16). -/
def exp2Encl (x : Int) : Encl :=
  let n := x / 2 ^ 64
  let v := exp2Go (x % 2 ^ 64).toNat 64 (2 * 2 ^ 80) (2 ^ 80)
  { lo := v - 2 ^ 18, hi := v + 2 ^ 18, e := n - 80 }

/-- The fraction bits of log2 y for y in [1, 2) at 80 fraction bits. -/
def log2Go : Nat → Nat → Nat → Nat
  | 0, _, acc => acc
  | i + 1, y, acc =>
    let y2 := y * y / 2 ^ 80
    if 2 ^ 81 ≤ y2 then log2Go i (y2 / 2) (2 * acc + 1) else log2Go i y2 (2 * acc)

/-- log2 of a positive value. -/
def log2Encl (m : Nat) (e : Int) : Encl :=
  let t := Nat.log2 m
  let y := m * 2 ^ 80 / 2 ^ t
  let v : Int := ((t : Int) + e) * 2 ^ 60 + log2Go 60 y 0
  { lo := v - 4, hi := v + 4, e := -60 }

/-- The Taylor series of the sine at 100 fraction bits: `t` is the current term, `k` its odd order. -/
def sinGo (x2 : Int) : Nat → Nat → Int → Int → Int
  | 0, _, _, acc => acc
  | i + 1, k, t, acc => sinGo x2 i (k + 2) (-(t * x2 / 2 ^ 100) / ((k + 1) * (k + 2) : Nat)) (acc + t)

/-- sin(π × r / 2^100) for an integer r. -/
def sinPiEncl (r : Int) : Encl :=
  let u : Int := r % (2 ^ 101 : Int)
  let neg := decide (2 ^ 100 ≤ u)
  let v := if neg then u - 2 ^ 100 else u
  let w : Int := if 2 ^ 99 < v then 2 ^ 100 - v else v
  let x : Int := w * piDigits / digitScale
  let y := sinGo (x * x / 2 ^ 100) 24 1 x 0
  let z := if neg then -y else y
  { lo := z - 2 ^ 12, hi := z + 2 ^ 12, e := -100 }

/-- e^a for a dyadic a. -/
def expEncl (neg : Bool) (m : Nat) (e : Int) : Encl :=
  exp2Encl (fixedAt 120 neg m e * log2eDigits / digitScale / 2 ^ 56)

/-- A quotient of positive bounds at 80 more bits, widened by one unit. -/
def divEncl (alo ahi blo bhi : Int) : Encl :=
  { lo := alo * 2 ^ 80 / bhi - 1, hi := ahi * 2 ^ 80 / blo + 1, e := -80 }

/-- 1 / (1 + e^−a). -/
def sigmEncl (neg : Bool) (m : Nat) (e : Int) : Encl :=
  let x := expEncl (!neg) m e
  if 0 ≤ x.e then
    let k : Int := 2 ^ x.e.toNat
    let d := divEncl (2 ^ 240) (2 ^ 240) (1 + x.lo * k) (1 + x.hi * k)
    { d with e := d.e - 240 }
  else
    let one : Int := 2 ^ (-x.e).toNat
    let d := divEncl (one * 2 ^ 240) (one * 2 ^ 240) (one + x.lo) (one + x.hi)
    { d with e := d.e - 240 }

/-- tanh of a positive value: (E − 1) / (E + 1) with E = e^(2a). -/
def tanhEncl (neg : Bool) (m : Nat) (e : Int) : Encl :=
  let x := expEncl false m (e + 1)
  let (one, k) : Int × Int := if 0 ≤ x.e then (1, 2 ^ x.e.toNat) else (2 ^ (-x.e).toNat, 1)
  let d := divEncl (x.lo * k - one) (x.hi * k - one) (x.lo * k + one) (x.hi * k + one)
  if neg then { lo := -d.hi, hi := -d.lo, e := d.e } else d

/-- 1 / √(m × 2^e). -/
def rsqEncl (m : Nat) (e : Int) : Encl :=
  let (m1, e1) := if e % 2 = 0 then (m, e) else (2 * m, e - 1)
  let k := 60 + Nat.log2 m1
  let v := isqrt (2 ^ (2 * k) / m1)
  { lo := v, hi := v + 1, e := -(k : Int) - e1 / 2 }

/-! ### Choosing a result within a bound -/

/-- The signed distance of a dyadic value from an end of an enclosure, as an integer at a power of two. -/
def farFrom (c : Int) (ce : Int) (x : Int) (xe lo : Int) : Nat := (c * 2 ^ (ce - lo).toNat - x * 2 ^ (xe - lo).toNat).natAbs

/-- Whether a finite value lies within bn × 2^be of every value of an enclosure; strictly, when asked. -/
def within (c : Num) (x : Encl) (bn : Nat) (be : Int) (strict : Bool) : Bool :=
  match c with
  | .fin n m ce =>
    let lo := min ce (min x.e be)
    let v : Int := if n then -(m : Int) else m
    let d := max (farFrom v ce x.lo x.e lo) (farFrom v ce x.hi x.e lo)
    let b := alignTo bn be lo
    if strict then decide (d < b) else decide (d ≤ b)
  | _ => false

/-- The middle of an enclosure. -/
def Encl.mid (x : Encl) : Num := .fin (decide (x.lo + x.hi < 0)) (x.lo + x.hi).natAbs (x.e - 1)

/-- The distance of the FP32 values about an exact result: the least over the enclosure (08 R162). -/
def ulpExp (x : Encl) : Int :=
  let m := min x.lo.natAbs x.hi.natAbs
  max ((Nat.log2 m : Int) + x.e) (-126) - 23

/-- The FP32 value of a function at a point that is neither special nor exact: the free word where it meets the bound,
the nearest value otherwise. -/
def chosen (fn : Nat) (a : Word) (x : Encl) (bn : Nat) (be : Int) (strict : Bool) : Num :=
  let c := f32 (Config.approx fn a)
  if within c x bn be strict then c else f32 (toF32 0 false 0 x.mid)

/-- A correctly rounded quotient 1 / (m × 2^e), with a sticky bit below its last (08 R162). -/
def recipNum (neg : Bool) (m : Nat) (e : Int) : Num :=
  let k := Nat.log2 m + 90
  let q := 2 ^ k / m
  let r := if 2 ^ k % m = 0 then 0 else 1
  .fin neg (2 * q + r) (-(k : Int) - 1 - e)

/-- A square root with a sticky bit below its last. -/
def sqrtNum (m : Nat) (e : Int) : Num :=
  let (m1, e1) := if e % 2 = 0 then (m, e) else (2 * m, e - 1)
  let n := m1 * 2 ^ 180
  let q := isqrt n
  let r := if q * q = n then 0 else 1
  .fin false (2 * q + r) (e1 / 2 - 91)

/-- 1.0. -/
def oneNum : Num := .fin false 1 0

/-- FRCP before rounding (08 R161, R162). -/
def rcpValue : Num → Num
  | .nan => .nan
  | .inf n => .fin n 0 0
  | .fin n m e => if m = 0 then .inf n else recipNum n m e

/-- FSQRT before rounding. -/
def sqrtValue : Num → Num
  | .nan => .nan
  | .inf n => if n then .nan else .inf false
  | .fin n m e => if m = 0 then .fin n 0 0 else if n then .nan else sqrtNum m e

/-- A power of two's exponent, when a magnitude is one. -/
def pow2? (m : Nat) (e : Int) : Option Int := if m = 2 ^ Nat.log2 m then some ((Nat.log2 m : Int) + e) else none

/-- FRSQ (08 R161, R162). -/
def rsqValue (a : Word) : Num :=
  match f32 a with
  | .nan => .nan
  | .inf n => if n then .nan else .fin false 0 0
  | .fin n m e =>
    if m = 0 then .inf n
    else if n then .nan
    else match pow2? m e with
      | some j =>
        if j % 2 = 0 then .fin false 1 (-(j / 2))
        else let x := rsqEncl m e; chosen 1 a x 1 (ulpExp x) true
      | none => let x := rsqEncl m e; chosen 1 a x 1 (ulpExp x) true

/-- The integer that a dyadic value is, if it is one. -/
def intOf? (neg : Bool) (m : Nat) (e : Int) : Option Int :=
  let v := fixedAt 0 neg m e
  if 0 ≤ e then some v else if m % 2 ^ (-e).toNat = 0 then some v else none

/-- FEXP2 (08 R161, R162). -/
def exp2Value (a : Word) : Num :=
  match f32 a with
  | .nan => .nan
  | .inf n => if n then .fin false 0 0 else .inf false
  | .fin n m e =>
    let v := fixedAt 0 n m e
    if 128 ≤ v then .inf false
    else if v < -150 ∨ (v = -150 ∧ (intOf? n m e).isSome) then .fin false 0 0
    else match intOf? n m e with
      | some j => .fin false 1 j
      | none => let x := exp2Encl (fixedAt 64 n m e); chosen 3 a x 2 (ulpExp x) false

/-- FLOG2 (08 R161, R162). -/
def log2Value (a : Word) : Num :=
  match f32 a with
  | .nan => .nan
  | .inf n => if n then .nan else .inf false
  | .fin n m e =>
    if m = 0 then .inf true
    else if n then .nan
    else match pow2? m e with
      | some j => numOfInt j
      | none =>
        let x := log2Encl m e
        let t := (Nat.log2 m : Int) + e
        if t = 0 ∨ t = -1 then chosen 4 a x 1 (-22) false else chosen 4 a x 2 (ulpExp x) false

/-- Whether twice a dyadic value is an odd integer. -/
def isHalf (neg : Bool) (m : Nat) (e : Int) : Bool := (intOf? neg m e).isNone && (intOf? neg m (e + 1)).isSome

/-- Plus or minus one by the parity of an integer. -/
def parityNum (n : Int) : Num := .fin (n % 2 == 1) 1 0

/-- FSIN: the argument in half-turns (08 R160 to R162). -/
def sinValue (a : Word) : Num :=
  match f32 a with
  | .nan => .nan
  | .inf _ => .nan
  | .fin n m e =>
    if (intOf? n m e).isSome then .fin n 0 0
    else if isHalf n m e then parityNum (fixedAt 0 n m e)
    else chosen 5 a (sinPiEncl (fixedAt 100 n m e)) 1 (-22) false

/-- FCOS. -/
def cosValue (a : Word) : Num :=
  match f32 a with
  | .nan => .nan
  | .inf _ => .nan
  | .fin n m e =>
    match intOf? n m e with
    | some j => parityNum j
    | none =>
      if isHalf n m e then .fin false 0 0
      else chosen 6 a (sinPiEncl (fixedAt 100 n m e + 2 ^ 99)) 1 (-22) false

/-- Whether a magnitude is at least an integer. -/
def atLeast (m : Nat) (e : Int) (k : Nat) : Bool := !(Num.fin false m e).lt (.fin false k 0)

/-- FTANH. -/
def tanhValue (a : Word) : Num :=
  match f32 a with
  | .nan => .nan
  | .inf n => .fin n 1 0
  | .fin n m e =>
    if atLeast m e 10 then .fin n 1 0
    else if (Num.fin false m e).lt (.fin false 1 (-12)) then .fin n m e
    else let x := tanhEncl n m e; chosen 7 a x 2 (ulpExp x) false

/-- FSIGM. -/
def sigmValue (a : Word) : Num :=
  match f32 a with
  | .nan => .nan
  | .inf n => if n then .fin false 0 0 else oneNum
  | .fin n m e =>
    if m = 0 then .fin false 1 (-1)
    else if !n && atLeast m e 18 then oneNum
    else if n && atLeast m e 104 then .fin false 0 0
    else let x := sigmEncl n m e; chosen 8 a x 2 (ulpExp x) false

/-! ### The instructions -/

/-- The field rules of R160: one source with modifiers on A only. -/
def funFields (h : Hdr) (f : V3) (anyRnd : Bool) : Bool :=
  fpFields h f && nul f.srcb && nul f.srcc && !f.negb && !f.absb && (if anyRnd then rndOk f else f.rnd == 0)

/-- An instruction of R160: the value before rounding, then rnd and sat (R102). -/
def fpFunction (s : State) (h : Hdr) (f : V3) (i : Instr) (anyRnd : Bool) (g : Word → Num) :
    Host.Outcome State Fault Refusal :=
  compute (peeks := seedPeek f.rnd) s h i (funFields h f anyRnd) (rd f.srca 1) 1 fun e l =>
    [toF32 f.rnd.toNat f.sat (e.draw l 0) (g (codeA e.w f l))]

/-- FRCP (08 R160). -/
def execFrcp (h : Hdr) (f : V3) (s : State) : Host.Outcome State Fault Refusal :=
  fpFunction s h f (.frcp h f) true fun a => rcpValue (f32 a)

/-- FRSQ (08 R160). -/
def execFrsq (h : Hdr) (f : V3) (s : State) : Host.Outcome State Fault Refusal := fpFunction s h f (.frsq h f) false rsqValue

/-- FSQRT (08 R160). -/
def execFsqrt (h : Hdr) (f : V3) (s : State) : Host.Outcome State Fault Refusal :=
  fpFunction s h f (.fsqrt h f) true fun a => sqrtValue (f32 a)

/-- FEXP2 (08 R160). -/
def execFexp2 (h : Hdr) (f : V3) (s : State) : Host.Outcome State Fault Refusal := fpFunction s h f (.fexp2 h f) false exp2Value

/-- FLOG2 (08 R160). -/
def execFlog2 (h : Hdr) (f : V3) (s : State) : Host.Outcome State Fault Refusal := fpFunction s h f (.flog2 h f) false log2Value

/-- FSIN (08 R160). -/
def execFsin (h : Hdr) (f : V3) (s : State) : Host.Outcome State Fault Refusal := fpFunction s h f (.fsin h f) false sinValue

/-- FCOS (08 R160). -/
def execFcos (h : Hdr) (f : V3) (s : State) : Host.Outcome State Fault Refusal := fpFunction s h f (.fcos h f) false cosValue

/-- FTANH (08 R160). -/
def execFtanh (h : Hdr) (f : V3) (s : State) : Host.Outcome State Fault Refusal := fpFunction s h f (.ftanh h f) false tanhValue

/-- FSIGM (08 R160). -/
def execFsigm (h : Hdr) (f : V3) (s : State) : Host.Outcome State Fault Refusal := fpFunction s h f (.fsigm h f) false sigmValue

end Sys2Proof.Machine
end

