-- ==== Sys2Proof/Machine/Dispatch.lean ====
section
/-! DEFINITION. The meaning of each instruction and event: one arm for each constructor. -/
namespace Sys2Proof.Machine

def exec (i : Instr) (s : State) : Host.Outcome State Fault Refusal :=
  match i with
  | .fadd h f => Sys2Proof.Machine.execFadd h f s
  | .fsub h f => Sys2Proof.Machine.execFsub h f s
  | .fmul h f => Sys2Proof.Machine.execFmul h f s
  | .ffma h f => Sys2Proof.Machine.execFfma h f s
  | .fmin h f => Sys2Proof.Machine.execFmin h f s
  | .fmax h f => Sys2Proof.Machine.execFmax h f s
  | .fclass h f => Sys2Proof.Machine.execFclass h f s
  | .frcp h f => Sys2Proof.Machine.execFrcp h f s
  | .frsq h f => Sys2Proof.Machine.execFrsq h f s
  | .fsqrt h f => Sys2Proof.Machine.execFsqrt h f s
  | .fexp2 h f => Sys2Proof.Machine.execFexp2 h f s
  | .flog2 h f => Sys2Proof.Machine.execFlog2 h f s
  | .fsin h f => Sys2Proof.Machine.execFsin h f s
  | .fcos h f => Sys2Proof.Machine.execFcos h f s
  | .ftanh h f => Sys2Proof.Machine.execFtanh h f s
  | .fsigm h f => Sys2Proof.Machine.execFsigm h f s
  | .hadd2 h f => Sys2Proof.Machine.execHadd2 h f s
  | .hmul2 h f => Sys2Proof.Machine.execHmul2 h f s
  | .hfma2 h f => Sys2Proof.Machine.execHfma2 h f s
  | .dot4 h f => Sys2Proof.Machine.execDot4 h f s
  | .wred h f => Sys2Proof.Machine.execWred h f s
  | .imad h f => Sys2Proof.Machine.execImad h f s
  | .cvt h f => Sys2Proof.Machine.execCvt h f s
  | .cvti h f => Sys2Proof.Machine.execCvti h f s
  | .cvtf h f => Sys2Proof.Machine.execCvtf h f s
  | .pack h f => Sys2Proof.Machine.execPack h f s
  | .unpack h f => Sys2Proof.Machine.execUnpack h f s
  | .qhist h f => Sys2Proof.Machine.execQhist h f s
  | .qscale h f => Sys2Proof.Machine.execQscale h f s
  | .qcvt h f => Sys2Proof.Machine.execQcvt h f s
  | .iadd h f => Sys2Proof.Machine.execIadd h f s
  | .iaddc h f => Sys2Proof.Machine.execIaddc h f s
  | .isub h f => Sys2Proof.Machine.execIsub h f s
  | .imul h f => Sys2Proof.Machine.execImul h f s
  | .imulh h f => Sys2Proof.Machine.execImulh h f s
  | .imin h f => Sys2Proof.Machine.execImin h f s
  | .imax h f => Sys2Proof.Machine.execImax h f s
  | .iabs h f => Sys2Proof.Machine.execIabs h f s
  | .ineg h f => Sys2Proof.Machine.execIneg h f s
  | .lea h f => Sys2Proof.Machine.execLea h f s
  | .ishl h f => Sys2Proof.Machine.execIshl h f s
  | .ishr h f => Sys2Proof.Machine.execIshr h f s
  | .isar h f => Sys2Proof.Machine.execIsar h f s
  | .iand h f => Sys2Proof.Machine.execIand h f s
  | .ior h f => Sys2Proof.Machine.execIor h f s
  | .ixor h f => Sys2Proof.Machine.execIxor h f s
  | .inot h f => Sys2Proof.Machine.execInot h f s
  | .popc h f => Sys2Proof.Machine.execPopc h f s
  | .clz h f => Sys2Proof.Machine.execClz h f s
  | .brev h f => Sys2Proof.Machine.execBrev h f s
  | .bfx h f => Sys2Proof.Machine.execBfx h f s
  | .bfi h f => Sys2Proof.Machine.execBfi h f s
  | .pseti h f => Sys2Proof.Machine.execPseti h f s
  | .psetf h f => Sys2Proof.Machine.execPsetf h f s
  | .plop h f => Sys2Proof.Machine.execPlop h f s
  | .pvote h f => Sys2Proof.Machine.execPvote h f s
  | .pmovTov h f => Sys2Proof.Machine.execPmovTov h f s
  | .pmovFromv h f => Sys2Proof.Machine.execPmovFromv h f s
  | .mov h f => Sys2Proof.Machine.execMov h f s
  | .sel h f => Sys2Proof.Machine.execSel h f s
  | .shfl h f => Sys2Proof.Machine.execShfl h f s
  | .bcast h f => Sys2Proof.Machine.execBcast h f s
  | .kmov h f => Sys2Proof.Machine.execKmov h f s
  | .drop h f => Sys2Proof.Machine.execDrop h f s
  | .clear h f => Sys2Proof.Machine.execClear h f s
  | .release h f => Sys2Proof.Machine.execRelease h f s
  | .hold h f => Sys2Proof.Machine.execHold h f s
  | .recount h f => Sys2Proof.Machine.execRecount h f s
  | .rdsr h f => Sys2Proof.Machine.execRdsr h f s
  | .rdsrClr h f => Sys2Proof.Machine.execRdsrClr h f s
  | .time h f => Sys2Proof.Machine.execTime h f s
  | .ld h f => Sys2Proof.Machine.execLd h f s
  | .st h f => Sys2Proof.Machine.execSt h f s
  | .pref h f => Sys2Proof.Machine.execPref h f s
  | .atom h f => Sys2Proof.Machine.execAtom h f s
  | .cas h f => Sys2Proof.Machine.execCas h f s
  | .red h f => Sys2Proof.Machine.execRed h f s
  | .amaxp h f => Sys2Proof.Machine.execAmaxp h f s
  | .fence h f => Sys2Proof.Machine.execFence h f s
  | .cwb h f => Sys2Proof.Machine.execCwb h f s
  | .bra h f => Sys2Proof.Machine.execBra h f s
  | .bri h f => Sys2Proof.Machine.execBri h f s
  | .call h f => Sys2Proof.Machine.execCall h f s
  | .calli h f => Sys2Proof.Machine.execCalli h f s
  | .ret h f => Sys2Proof.Machine.execRet h f s
  | .exit h f => Sys2Proof.Machine.execExit h f s
  | .yield h f => Sys2Proof.Machine.execYield h f s
  | .nop h f => Sys2Proof.Machine.execNop h f s
  | .wait h f => Sys2Proof.Machine.execWait h f s
  | .sleep h f => Sys2Proof.Machine.execSleep h f s
  | .trap h f => Sys2Proof.Machine.execTrap h f s
  | .bkpt h f => Sys2Proof.Machine.execBkpt h f s
  | .sload h f => Sys2Proof.Machine.execSload h f s
  | .sstore h f => Sys2Proof.Machine.execSstore h f s
  | .sevict h f => Sys2Proof.Machine.execSevict h f s
  | .sstat h f => Sys2Proof.Machine.execSstat h f s
  | .mmt h f => Sys2Proof.Machine.execMmt h f s
  | .mmtx h f => Sys2Proof.Machine.execMmtx h f s
  | .mmtg h f => Sys2Proof.Machine.execMmtg h f s
  | .gzero h f => Sys2Proof.Machine.execGzero h f s
  | .gload h f => Sys2Proof.Machine.execGload h f s
  | .gstore h f => Sys2Proof.Machine.execGstore h f s
  | .accz h f => Sys2Proof.Machine.execAccz h f s
  | .accld h f => Sys2Proof.Machine.execAccld h f s
  | .accst h f => Sys2Proof.Machine.execAccst h f s
  | .accmv h f => Sys2Proof.Machine.execAccmv h f s
  | .tagset h f => Sys2Proof.Machine.execTagset h f s
  | .tagcnt h f => Sys2Proof.Machine.execTagcnt h f s
  | .vcopy h f => Sys2Proof.Machine.execVcopy h f s
  | .vgather h f => Sys2Proof.Machine.execVgather h f s
  | .vscatter h f => Sys2Proof.Machine.execVscatter h f s
  | .vput h f => Sys2Proof.Machine.execVput h f s
  | .vget h f => Sys2Proof.Machine.execVget h f s
  | .vred h f => Sys2Proof.Machine.execVred h f s
  | .vstat h f => Sys2Proof.Machine.execVstat h f s
  | .vcancel h f => Sys2Proof.Machine.execVcancel h f s
  | .sort h f => Sys2Proof.Machine.execSort h f s
  | .bararr h f => Sys2Proof.Machine.execBararr h f s
  | .barwait h f => Sys2Proof.Machine.execBarwait h f s
  | .barsync h f => Sys2Proof.Machine.execBarsync h f s
  | .bardrop h f => Sys2Proof.Machine.execBardrop h f s
  | .barstat h f => Sys2Proof.Machine.execBarstat h f s
  | .grpq h f => Sys2Proof.Machine.execGrpq h f s
  | .launch h f => Sys2Proof.Machine.execLaunch h f s
  | .fsig h f => Sys2Proof.Machine.execFsig h f s
  | .fwait h f => Sys2Proof.Machine.execFwait h f s
  | .nexttile h f => Sys2Proof.Machine.execNexttile h f s
  | .steal h f => Sys2Proof.Machine.execSteal h f s
  | .wrsrFlush h f => Sys2Proof.Machine.execWrsrFlush h f s
  | .wrsrQuota h f => Sys2Proof.Machine.execWrsrQuota h f s
  | .wrsrEvent h f => Sys2Proof.Machine.execWrsrEvent h f s
  | .watch h f => Sys2Proof.Machine.execWatch h f s
  | .warpSwapOut core out into => Sys2Proof.Machine.execWarpSwapOut core out into s
  | .syncBlockTimeout core slot => Sys2Proof.Machine.execSyncBlockTimeout core slot s
  | .warpEviction core slot => Sys2Proof.Machine.execWarpEviction core slot s
  | .warpRefill core slot => Sys2Proof.Machine.execWarpRefill core slot s
  | .slotAllocation core slot => Sys2Proof.Machine.execSlotAllocation core slot s
  | .blockAdmission launch core => Sys2Proof.Machine.execBlockAdmission launch core s
  | .blockEnd block => Sys2Proof.Machine.execBlockEnd block s
  | .barrierWaiterRelease core slot wait => Sys2Proof.Machine.execBarrierWaiterRelease core slot wait s
  | .sleepExpiry core slot wait => Sys2Proof.Machine.execSleepExpiry core slot wait s
  | .fwaitRelease core slot wait => Sys2Proof.Machine.execFwaitRelease core slot wait s
  | .instructionFetch core slot => Sys2Proof.Machine.execInstructionFetch core slot s
  | .loadWriteback core slot part => Sys2Proof.Machine.execLoadWriteback core slot part s
  | .storePerformed core slot part home => Sys2Proof.Machine.execStorePerformed core slot part home s
  | .accessTranslationFault core slot acc lane => Sys2Proof.Machine.execAccessTranslationFault core slot acc lane s
  | .operandLogReplay core slot entry => Sys2Proof.Machine.execOperandLogReplay core slot entry s
  | .storeFaultReplay ctx entry => Sys2Proof.Machine.execStoreFaultReplay ctx entry s
  | .translationWalk unit ctx va => Sys2Proof.Machine.execTranslationWalk unit ctx va s
  | .translationExpiry item => Sys2Proof.Machine.execTranslationExpiry item s
  | .leaseRenewal op => Sys2Proof.Machine.execLeaseRenewal op s
  | .stratumLoadComplete core x => Sys2Proof.Machine.execStratumLoadComplete core x s
  | .matrixRowWaitEnd core x => Sys2Proof.Machine.execMatrixRowWaitEnd core x s
  | .matrixRetire core x => Sys2Proof.Machine.execMatrixRetire core x s
  | .matrixStop core x => Sys2Proof.Machine.execMatrixStop core x s
  | .xAsyncComplete core x => Sys2Proof.Machine.execXAsyncComplete core x s
  | .engineUnitTransfer op => Sys2Proof.Machine.execEngineUnitTransfer op s
  | .engineOperationComplete op => Sys2Proof.Machine.execEngineOperationComplete op s
  | .engineLockWaitEnd op => Sys2Proof.Machine.execEngineLockWaitEnd op s
  | .mergeFormed merge => Sys2Proof.Machine.execMergeFormed merge s
  | .lodeRefresh bank enter => Sys2Proof.Machine.execLodeRefresh bank enter s
  | .queueDoorbell fn q value => Sys2Proof.Machine.execQueueDoorbell fn q value s
  | .queueEnable fn q on => Sys2Proof.Machine.execQueueEnable fn q on s
  | .launchEntry src => Sys2Proof.Machine.execLaunchEntry src s
  | .fenceSignalEntry fn q => Sys2Proof.Machine.execFenceSignalEntry fn q s
  | .fenceWaitEntry fn q => Sys2Proof.Machine.execFenceWaitEntry fn q s
  | .lodeCopyEntry fn q => Sys2Proof.Machine.execLodeCopyEntry fn q s
  | .gridRead launch => Sys2Proof.Machine.execGridRead launch s
  | .launchComplete launch => Sys2Proof.Machine.execLaunchComplete launch s
  | .reductionBufferApply launch => Sys2Proof.Machine.execReductionBufferApply launch s
  | .timeSliceExpiry part => Sys2Proof.Machine.execTimeSliceExpiry part s
  | .pageRetryDoorbell fn value => Sys2Proof.Machine.execPageRetryDoorbell fn value s
  | .hostContextFlush fn value => Sys2Proof.Machine.execHostContextFlush fn value s
  | .pageRequestTableBase part base => Sys2Proof.Machine.execPageRequestTableBase part base s
  | .pageRequestReply part value => Sys2Proof.Machine.execPageRequestReply part value s
  | .eventRecordPost fn => Sys2Proof.Machine.execEventRecordPost fn s
  | .eventQueueHead fn head => Sys2Proof.Machine.execEventQueueHead fn head s
  | .fragmentResume fn value => Sys2Proof.Machine.execFragmentResume fn value s
  | .fragmentResumeAtPc fn value => Sys2Proof.Machine.execFragmentResumeAtPc fn value s
  | .fragmentResumeNext fn value => Sys2Proof.Machine.execFragmentResumeNext fn value s
  | .fragmentResumeNoWatch fn value => Sys2Proof.Machine.execFragmentResumeNoWatch fn value s
  | .warpKill fn value => Sys2Proof.Machine.execWarpKill fn value s
  | .softPreemptRequest fn ctx => Sys2Proof.Machine.execSoftPreemptRequest fn ctx s
  | .forcedHalt fn ctx => Sys2Proof.Machine.execForcedHalt fn ctx s
  | .graceExpiry ctx => Sys2Proof.Machine.execGraceExpiry ctx s
  | .contextKill fn ctx => Sys2Proof.Machine.execContextKill fn ctx s
  | .killTimerExpiry ctx => Sys2Proof.Machine.execKillTimerExpiry ctx s
  | .preemptWithdraw fn ctx => Sys2Proof.Machine.execPreemptWithdraw fn ctx s
  | .contextSaveComplete ctx => Sys2Proof.Machine.execContextSaveComplete ctx s
  | .saveFault ctx core addr => Sys2Proof.Machine.execSaveFault ctx core addr s
  | .contextRestore ctx => Sys2Proof.Machine.execContextRestore ctx s
  | .skewCheck dev => Sys2Proof.Machine.execSkewCheck dev s
  | .peerInboundPacket part packet => Sys2Proof.Machine.execPeerInboundPacket part packet s
  | .peerStaleAnswer op validfrom => Sys2Proof.Machine.execPeerStaleAnswer op validfrom s
  | .peerNackAnswer op code => Sys2Proof.Machine.execPeerNackAnswer op code s
  | .peerTimeout op => Sys2Proof.Machine.execPeerTimeout op s
  | .fabricLinkSkewDown link skew => Sys2Proof.Machine.execFabricLinkSkewDown link skew s
  | .hostSnoop line => Sys2Proof.Machine.execHostSnoop line s
  | .hostMemAccess addr len write data => Sys2Proof.Machine.execHostMemAccess addr len write data s
  | .moduleReset => Sys2Proof.Machine.execModuleReset s
  | .sidebandDown => Sys2Proof.Machine.execSidebandDown s
  | .linkModuleTrainingFail m => Sys2Proof.Machine.execLinkModuleTrainingFail m s
  | .bootGo value => Sys2Proof.Machine.execBootGo value s
  | .certificateRequest => Sys2Proof.Machine.execCertificateRequest s
  | .reportRequest => Sys2Proof.Machine.execReportRequest s
  | .partitionApply value => Sys2Proof.Machine.execPartitionApply value s
  | .bandReload value => Sys2Proof.Machine.execBandReload value s
  | .bandWindow resource domain demand => Sys2Proof.Machine.execBandWindow resource domain demand s
  | .telemetrySnapshot part => Sys2Proof.Machine.execTelemetrySnapshot part s
  | .powerWindow watts energy => Sys2Proof.Machine.execPowerWindow watts energy s
  | .thermalThrottle die temp => Sys2Proof.Machine.execThermalThrottle die temp s
  | .thermalShutdown die => Sys2Proof.Machine.execThermalShutdown die s
  | .rasRecord addr store what unit part ctx => Sys2Proof.Machine.execRasRecord addr store what unit part ctx s
  | .minVersionRaise value => Sys2Proof.Machine.execMinVersionRaise value s
  | .configRegisterWrite page offset size value => Sys2Proof.Machine.execConfigRegisterWrite page offset size value s
  | .reservedOpcode word => Sys2Proof.Machine.execReservedOpcode word s
  | .sidebandUp => Sys2Proof.Machine.execSidebandUp s

end Sys2Proof.Machine
end

