-- ==== Sys2Proof/Machine/Schedule.lean ====
section
/-! DEFINITION. Which agents of the module can move by themselves, the passing of time, and a warp at its issue port
(01 R19; 20 R305). What the outside does to the module comes only as a listed turn. -/
namespace Sys2Proof.Machine

/-! ### The issue port -/

/-- A rotation after the warp in an entry issues: it comes last, and those behind it come first (01 R19). -/
def rotateAfter (slot : Nat) (l : List Nat) : List Nat :=
  (l.dropWhile (· != slot)).drop 1 ++ l.takeWhile (· != slot) ++ (if l.contains slot then [slot] else [])

/-- A warp comes to its core's issue port with the zero bits of its line. -/
def State.atPort (s : State) (c slot : Nat) (zero : BitVec 7) : State :=
  { s with sel := { core := c, slot := slot, zero := zero } }

/-- Whether a warp has issued on a core between two states. -/
def State.issuedSince (t s : State) (c : Nat) : Bool := (t.core c).issued != (s.core c).issued

/-- The rotation of a core after a warp has issued on it, from the state before: it starts behind that warp, with those that
have entered meanwhile at its end (01 R19). -/
def State.rotated (t s : State) (c slot : Nat) : State :=
  let old := rotateAfter slot (s.core c).active
  t.modCore c fun k =>
    { k with active := old.filter k.active.contains ++ k.active.filter fun i => !old.contains i }

/-- The number of a context's slot on a core, 8 where it has none (02 R50). -/
def Core.slotOf (k : Core) (x : Nat) : Nat := ((k.ctxSlots.find? fun e => e.2 == x).map (·.1)).getD 8

/-- Whether a warp's allocation is decided before another's of its core in one cycle: by context slot, then by admission sequence
(02 R50). -/
def Core.allocatesBefore (k : Core) (i j : Nat) : Bool :=
  match k.warps.get? i, k.warps.get? j with
  | some v, some w => decide (k.slotOf v.ctx < k.slotOf w.ctx) || (v.ctx == w.ctx && olderSeq v.seq w.seq)
  | _, _ => false

/-- Whether a warp issues alone in the present cycle after those that have issued in it one by one: cores in ascending order, at
most two warps of each, which stand in the same order by slot and by allocation; after no drops of a warp that stands behind it; and
no core whose schedule table has been stolen from. One that may not begins the next cycle. The turn of a whole cycle knows no such
bound (01 R19, R30, R373; 19 R301). -/
def State.inOrder (s : State) (c slot : Nat) : Bool :=
  let mine := (s.core c).issuedIn s.cycle
  (s.cores.all fun k => decide (k.1 ≤ c) || (k.2.issuedIn s.cycle).isEmpty) && decide (mine.length < 2) &&
  (mine.all fun i => decide (i < slot) && (s.core c).allocatesBefore i slot) &&
  (match s.dropAt with
    | some (t, c', o) => t != s.cycle || !ranksBefore c slot c' o
    | none => true) &&
  (match (s.core c).sched with
    | some t => t.stolen != some s.cycle
    | none => true)

/-- The state in whose cycle a warp may issue: the present one, or the next. -/
def State.inCycle (s : State) (c slot : Nat) : State := if s.inOrder c slot then s else { s with cycle := s.cycle + 1 }

/-- The warp of an entry and its fragment, where it may issue: it is in the active set, resident and not leaving. -/
def State.issuer (s : State) (c slot : Nat) : Option (Warp × PC × Mask) :=
  match s.warp? c slot with
  | none => none
  | some w =>
    if w.evicted || w.leaving || w.held || !(s.core c).active.contains slot then none
    else w.fragment.map fun f => (w, f.1, f.2)

/-! ### Agents that can move -/

/-- The issue turns of a core: of its two issue slots in a cycle, or of one active warp in each, the first that can in rotation up
to the named one (01 R19). -/
def issueTurns (s : State) (c : Nat) (k : Core) : List Turn :=
  let able := k.active.filter fun i => (s.issuer c i).isSome
  (if able.isEmpty then [] else [.cycle [c]]) ++ able.map fun i => .issue c i

/-- The events of a warp. -/
def warpTurns (c slot : Nat) (w : Warp) : List Turn :=
  (w.accs.flatMap fun a => a.2.lanes.flatMap fun l =>
    [.event (.loadWriteback c slot ⟨a.1, l.lane, false⟩), .event (.loadWriteback c slot ⟨a.1, l.lane, true⟩),
     .event (.storePerformed c slot ⟨a.1, l.lane, false⟩ true), .event (.storePerformed c slot ⟨a.1, l.lane, true⟩ true),
     .event (.storePerformed c slot ⟨a.1, l.lane, false⟩ false), .event (.accessTranslationFault c slot a.1 l.lane)])
  ++ (w.log.map fun e => .event (.operandLogReplay c slot e.1))
  ++ ((List.range w.waits.length).flatMap fun i =>
    [.event (.barrierWaiterRelease c slot i), .event (.sleepExpiry c slot i), .event (.fwaitRelease c slot i)])
  ++ [.event (.syncBlockTimeout c slot), .event (.warpEviction c slot), .event (.warpRefill c slot),
      .event (.slotAllocation c slot), .event (.instructionFetch c slot)]

/-- The events of a core. -/
def coreTurns (s : State) (c : Nat) (k : Core) : List Turn :=
  issueTurns s c k
  ++ (k.warps.flatMap fun w => warpTurns c w.1 w.2)
  ++ (k.active.flatMap fun o => k.pending.map fun i => .event (.warpSwapOut c o i))
  ++ (k.xq.flatMap fun x =>
    [.event (.stratumLoadComplete c x.1), .event (.matrixRowWaitEnd c x.1), .event (.matrixRetire c x.1),
     .event (.matrixStop c x.1), .event (.xAsyncComplete c x.1)])

/-- The events of the engines. -/
def engineTurns (s : State) : List Turn :=
  s.engs.flatMap fun o =>
    [.event (.engineLockWaitEnd o.1), .event (.engineUnitTransfer o.1), .event (.engineOperationComplete o.1),
     .event (.leaseRenewal o.1), .event (.peerTimeout o.1)]

/-- The events of the command processors' queues and launches. -/
def launchTurns (s : State) : List Turn :=
  (s.fns.flatMap fun f => f.2.queues.flatMap fun q =>
    [.event (.launchEntry (.queue f.1 q.1)), .event (.fenceSignalEntry f.1 q.1), .event (.fenceWaitEntry f.1 q.1),
     .event (.lodeCopyEntry f.1 q.1)])
  ++ (s.parts.flatMap fun p =>
    ((List.range p.2.requests.length).map fun i => .event (.launchEntry (.device p.1 i)))
    ++ [.event (.timeSliceExpiry p.1), .event (.telemetrySnapshot p.1)])
  ++ (s.launches.flatMap fun l =>
    [.event (.gridRead l.1), .event (.launchComplete l.1), .event (.reductionBufferApply l.1)]
    ++ (List.range 256).map fun c => .event (.blockAdmission l.1 c))
  ++ (s.blocks.map fun b => .event (.blockEnd b.1))

/-- The events of contexts and event queues. -/
def contextTurns (s : State) : List Turn :=
  (s.fns.map fun f => .event (.eventRecordPost f.1))
  ++ (s.ctxs.flatMap fun x =>
    [.event (.graceExpiry x.1), .event (.killTimerExpiry x.1), .event (.contextSaveComplete x.1),
     .event (.contextRestore x.1)]
    ++ x.2.storeFaults.map fun e => .event (.storeFaultReplay x.1 e.1))

/-- What the caches may give up (log 13): lines, and translations and walk-cache items that are not pinned (20 R311). -/
def cacheTurns (s : State) : List Turn :=
  (s.cores.flatMap fun k =>
    ((List.range k.2.l1.length).map fun i => .giveUp (.l1 k.1 i)) ++ (List.range k.2.consts.length).map fun i => .giveUp (.const k.1 i))
  ++ ((List.range s.l2.length).map fun i => .giveUp (.l2 i))
  ++ ((List.range s.tlb.length).map fun i => .giveUp (.tlb i))
  ++ ((List.range s.walks.length).map fun i => .giveUp (.walk i))
  ++ ((List.range s.maps.length).map fun i => .giveUp (.map i))

/-- A cache gives up an item. An L2 line's modified bytes go to the memory behind it; an item that is pinned stays. -/
def State.giveUp (s : State) (x : Cached) : State :=
  match x with
  | .l1 c i => s.modL1 c fun ls => ls.eraseIdx i
  | .const c i => s.modCore c fun k => { k with consts := k.consts.eraseIdx i }
  | .l2 i =>
    match s.l2[i]? with
    | some l => s.giveUpLine l
    | none => s
  | .tlb i =>
    match s.tlb[i]? with
    | some t => if t.expiry.isNone then s else { s with tlb := s.tlb.eraseIdx i }
    | none => s
  | .walk i =>
    match s.walks[i]? with
    | some w => if w.expiry.isNone then s else { s with walks := s.walks.eraseIdx i }
    | none => s
  | .map i =>
    match s.maps[i]? with
    | some m => if m.expiry.isNone then s else { s with maps := s.maps.eraseIdx i }
    | none => s

/-- The host changes its memory (23 R346). -/
def State.hostWrite (s : State) (addr : Nat) (data : List Byte) : State := s.hostPut addr data

/-- The words that operations may read before the rest of their units (10 R202; 11 R225): by number, up to one that no unit
reaches. -/
def earlyTurns (s : State) : List Turn :=
  (s.engs.flatMap fun o => (List.range (16 * o.2.rowsz + o.2.len)).map fun j => .early (.engine o.2.core o.1) j)
  ++ (s.cores.flatMap fun k => k.2.xq.flatMap fun x => (List.range 4096).map fun j => .early (.array k.1 x.1) j)

/-- Every move that the module may make by itself. A move whose condition does not hold changes nothing. -/
def candidates (s : State) : List Turn :=
  (s.cores.flatMap fun k => coreTurns s k.1 k.2) ++ [.cycle (s.cores.map (·.1))] ++ engineTurns s ++ launchTurns s ++ contextTurns s ++ cacheTurns s ++ earlyTurns s
  ++ (if s.boot.candidate.isSome then [.verify] else [])
  ++ [.event (.skewCheck ((List.range 4).map (Config.skew s.steps)))]
  ++ ((List.range s.merges.length).map fun i => .event (.mergeFormed i))
  ++ ((List.range s.tlb.length).map fun i => .event (.translationExpiry i))
  ++ ((List.range 16).flatMap fun b => [.event (.lodeRefresh b true), .event (.lodeRefresh b false)])

/-- The move that the module makes at a step without a listed turn: a free choice among those it may make (log 3). -/
def State.freeTurn (s : State) : Option Turn :=
  let all := candidates s
  all[Config.choice s.steps % all.length]?

/-! ### A program put at the issue port -/

/-- The launch record of the launch that runs a placed instruction: H 320, one warp a block, one core a block
(02 R45; 19 R288). -/
def placedRecord : List Byte :=
  (List.range 192).map fun i => if i = 20 ∨ i = 22 then 1 else if i = 24 then 0x40 else if i = 25 then 1 else 0

/-- The warp that runs a placed instruction: all lanes live at PC 0 (01 R17). -/
def placedWarp : Warp :=
  { wid := BitVec.ofNat 64 (1 * 2 ^ 52), seq := 0, ctx := 1, launch := 0, block := 0, number := 0, live := fullMask,
    pcs := allLanes.map fun _ => 0, arrivals := [], preds := List.replicate 7 0, names := [], kregs := List.replicate 64 0,
    aflags := 0, mrow := 0, mflags := 0, unread := [], loads := 0, stores := 0, copies := 0, tiles := 0, log := [], logseq := 0, accs := [],
    accseq := 0, waits := [], traps := [], lastphase := [], halted := false, stall := none, timeout := false, fetches := [], queued := 0, ran := 0,
    evicted := false, leaving := false, screeNames := 0, noWatch := 0, buffered := 0 }

/-- A pinned translation of the placed instruction's page for core 0 (20 R311). -/
def placedItem : TlbItem :=
  { unit := .core 0, ctx := 1, va := 0, size := 4096, pa := 0, kind := .localMem, peerhi := 0, poison := false, user := true,
    exec1 := true, write1 := false, guest := false, exec2 := true, write2 := true, gpa := 0, expiry := none, once := false, lease := 0 }

/-- The line that holds a word in slot 0 and may be entered there (03 R66). -/
def placedLine (w : InsnWord) : List Byte :=
  let body := leBytes 12 w.toNat ++ List.replicate 48 0 ++ [1, 0, 0]
  body ++ [BitVec.ofNat 8 (parityOf (body ++ [0]))]

end Sys2Proof.Machine
end

