-- ==== Sys2Proof/Machine/Cycle.lean ====
section
/-! DEFINITION. Warps at the issue ports of their cores: one warp, or both issue slots of some cores in one cycle (01 R19, R373). -/
namespace Sys2Proof.Machine

/-! ### One warp -/

/-- A warp's turn at its core's issue port: its line is fetched, the word at its PC decoded, and the instruction executed by
the warp at the port. A warp that may not issue passes its turn. -/
def tryIssue (s : State) (c slot : Nat) : Host.Outcome State Fault Refusal :=
  match s.issuer c slot with
  | none => .next s
  | some (w, pc, frag) =>
    match s.fetch c slot w pc frag with
    | .error s1 => .next s1
    | .ok (word, zero, s1) => exec (decodeWord word) ((s1.inCycle c slot).atPort c slot zero)

/-- Whether a warp's turn has left it blocked: the port then goes to the next warp in rotation (01 R19). -/
def State.passes (s t : State) (c slot : Nat) : Bool :=
  (s.issuer c slot).isNone || (!t.issuedSince s c && (match t.warp? c slot with
    | some w => w.stall.isSome
    | none => false))

/-- The issue of one warp of a core: those of the rotation before the named one come to the port first, and the first that
nothing blocks issues (01 R19). -/
def issueFrom (c slot : Nat) : List Nat → State → Host.Outcome State Fault Refusal
  | [], s => .next s
  | i :: rest, s =>
    match tryIssue s c i with
    | .next t =>
      if t.issuedSince s c then .next (t.rotated s c i)
      else if i = slot ∨ !s.passes t c i then .next t
      else issueFrom c slot rest t
    | stop => stop

/-- The turn of a named warp of a core to issue. -/
def issueTurn (s : State) (c slot : Nat) : Host.Outcome State Fault Refusal := issueFrom c slot (s.core c).active s

/-! ### The issue slots of a cycle -/

/-- A warp that is ready at the beginning of a cycle: its word, the zero bits of its line, and the slots that it allocates. -/
structure Pick where
  core : Nat
  slot : Nat
  seq : BitVec 32
  word : InsnWord
  zero : BitVec 7
  new : Nat
  deriving DecidableEq, Repr

/-- The slots that a warp holds in a state for names that it has not in another. -/
def newSlots (s t : State) (c slot : Nat) : Nat :=
  match s.warp? c slot, t.warp? c slot with
  | some v, some w => (w.names.filter fun n => !v.names.has n.1).length
  | _, _ => 0

/-- The first `n` ready warps of a rotation, as the state at the beginning of the cycle has them: those whose instruction would
issue in it. A warp before them that does not issue is stalled, waits or takes its fault (01 R19). -/
def pickReady (c : Nat) : List Nat → Nat → State → List Pick × State
  | [], _, s => ([], s)
  | i :: rest, n, s =>
    match n, s.issuer c i with
    | 0, _ => ([], s)
    | n + 1, none => pickReady c rest (n + 1) s
    | n + 1, some (w, pc, frag) =>
      match s.fetch c i w pc frag with
      | .error s1 => pickReady c rest (n + 1) s1
      | .ok (word, zero, s1) =>
        let p : Pick := { core := c, slot := i, seq := w.seq, word := word, zero := zero, new := 0 }
        match exec (decodeWord word) (s1.atPort c i zero) with
        | .next t =>
          if t.issuedSince s1 c then
            let r := pickReady c rest n s1
            ({ p with new := newSlots s1 t c i } :: r.1, r.2)
          else pickReady c rest (n + 1) t
        | _ => ([p], s1)

/-- The first two ready warps of each of some cores. -/
def pickCores : List Nat → State → List Pick × State
  | [], s => ([], s)
  | c :: cs, s =>
    let p := pickReady c (s.core c).active 2 s
    let q := pickCores cs p.2
    (p.1 ++ q.1, q.2)

/-- The shared structure that an instruction operates on, in the order in which a cycle serves them: 0 the group tables, 1 the
range-lock tables, 2 a core's class X order, 3 its own schedule table, 4 another core's, 5 none of them (01 R373). Accesses to
memory come after the registrations, which they see (09 R188). -/
def serveClass (i : Instr) : Nat :=
  match i with
  | .bararr _ _ | .barwait _ _ | .barsync _ _ | .bardrop _ _ | .barstat _ _ | .grpq _ _ | .exit _ _ => 0
  | .vcopy _ _ | .vgather _ _ | .vscatter _ _ | .vput _ _ | .vget _ _ | .vred _ _ | .sort _ _ => 1
  | .sload _ _ | .sstore _ _ | .sevict _ _ | .sstat _ _ | .mmt _ _ | .mmtx _ _ | .mmtg _ _ | .gzero _ _ | .gload _ _
  | .gstore _ _ | .accz _ _ | .accld _ _ | .accst _ _ | .accmv _ _ | .tagset _ _ | .tagcnt _ _ => 2
  | .nexttile _ _ => 3
  | .steal _ _ => 4
  | _ => 5

/-- Whether a shared structure serves one ready warp of a cycle before another: cores by rank, and of one core by admission
sequence for class X and the schedule tables, by slot for the others (01 R30, R373; 10 R200; 19 R301). An instruction works on one
such structure, so this order of all of them keeps the order of each. -/
def Pick.before (p q : Pick) : Bool :=
  let m := serveClass (decodeWord p.word)
  let n := serveClass (decodeWord q.word)
  if m != n then decide (m < n)
  else if p.core != q.core then decide (p.core < q.core)
  else if 2 ≤ m ∧ m ≤ 4 then olderSeq p.seq q.seq else decide (p.slot < q.slot)

/-- A pick put in its place among others. -/
def Pick.insert (p : Pick) : List Pick → List Pick
  | [] => [p]
  | q :: qs => if p.before q then p :: q :: qs else q :: Pick.insert p qs

/-- The other ready warp of a pick's core, if both allocate. -/
def Pick.rival (p : Pick) (ps : List Pick) : Option Pick :=
  if p.new = 0 then none else ps.find? fun q => q.core == p.core && q.slot != p.slot && q.new != 0

/-- The port of a pick: where its structure's order and the order of allocations differ, the allocation that is decided first is
decided as the cycle begins, and the other one sees it (02 R50). -/
def State.portOf (s : State) (ps : List Pick) (p : Pick) : Sel :=
  let port : Sel := { core := p.core, slot := p.slot, zero := p.zero }
  match p.rival ps with
  | none => port
  | some q =>
    let k := s.core p.core
    if p.before q && k.allocatesBefore q.slot p.slot then { port with ahead := some (q.slot, q.new) }
    else if q.before p && k.allocatesBefore p.slot q.slot then { port with granted := true }
    else port

/-- The picks of a cycle issue, in the order in which the shared structures serve them; one that an earlier one has kept from
issuing passes. -/
def issuePicks (s0 : State) (all : List Pick) : List Pick → State → Host.Outcome State Fault Refusal
  | [], s => .next s
  | p :: ps, s =>
    if s.issuer p.core p.slot = none then issuePicks s0 all ps s
    else match exec (decodeWord p.word) { s with sel := s0.portOf all p } with
      | .next t => issuePicks s0 all ps t
      | stop => stop

/-- The rotations of some cores after a cycle: each starts behind the last of its ready warps that has issued in it (01 R19). -/
def State.rotatedAll (t s : State) (ps : List Pick) : State :=
  ps.foldl (fun t p => if ((t.core p.core).issuedIn s.cycle).contains p.slot then t.rotated s p.core p.slot else t) t

/-- One cycle of some cores: the two issue slots of each go to the first two ready warps in rotation, and every shared structure
serves their operations in its own order (01 R19, R30, R373; 02 R50; 10 R200; 19 R301). -/
def issueCycle (cores : List Nat) (s : State) : Host.Outcome State Fault Refusal :=
  let used := (s.cores.any fun k => !(k.2.issuedIn s.cycle).isEmpty) || (match s.dropAt with
    | some (t, _, _) => t == s.cycle
    | none => false)
  let s0 := if used then { s with cycle := s.cycle + 1 } else s
  let r := pickCores cores.eraseDups s0
  match issuePicks s0 r.1 (r.1.foldl (fun l p => p.insert l) []) r.2 with
  | .next t =>
    let t1 := t.rotatedAll s0 r.1
    .next { t1 with cycle := t1.cycle + 1 }
  | stop => stop

end Sys2Proof.Machine
end

