-- ==== Sys2Proof/Machine/Step.lean ====
section
/-! DEFINITION. One step of the module: the listed turn at the head, or a free choice among the agents that can move
(DESIGN CHOICE, logs 2 and 3). -/
namespace Sys2Proof.Machine

/-- One turn. -/
def State.turn (s : State) (t : Turn) : Host.Outcome State Fault Refusal :=
  match t with
  | .issue c slot => issueTurn s c slot
  | .cycle cores => issueCycle cores s
  | .event e => exec e s
  | .pass ticks cycles => .next (s.pass ticks cycles)
  | .giveUp x => .next (s.giveUp x)
  | .early r word => .next (s.readEarly r word)
  | .verify => .next s.verify
  | .hostWrite addr data => .next (s.hostWrite addr data)
  | .bar vf addr size value => s.barAccess vf addr size value

/-- One step. -/
def step (s : State) : Host.Outcome State Fault Refusal :=
  let s1 := { s with steps := s.steps + 1 }
  match s.turns with
  | t :: ts => State.turn { s1 with turns := ts } t
  | [] =>
    let s2 := s1.pass (Config.elapse s.steps) (Config.cycles s.steps)
    match s.freeTurn with
    | none => .next s2
    | some t => s2.turn t

/-- The state with an instruction placed where the next step fetches: partition 0, context 1 and one launch of one warp
on core 0 whose page holds the line, which is what a load of a program from outside does (log 1). -/
def State.withFetchWord (s : State) (nbits w : Nat) : State :=
  { s with
    parts := s.parts.put 0 (Part.reset 0 1)
    ctxs := s.ctxs.put 1 { Ctx.none 1 with fn := pfKey 0 }
    launches := s.launches.put 0 { Launch.none with ctx := 1, fn := pfKey 0, state := 2, grid := (1, 1, 1), record := placedRecord }
    blocks := s.blocks.put 0 { launch := 0, index := 0, cores := [0], scratchOff := 0, scratchSize := 0, groups := [], position := 0 }
    cores := s.cores.put 0 { Core.reset with warps := [(0, placedWarp)], active := [0] }
    tlb := [placedItem]
    dev := s.dev.writeN 0 (placedLine (BitVec.ofNat 96 (w % 2 ^ nbits)))
    dram := s.dram.writeN 0 (placedLine (BitVec.ofNat 96 (w % 2 ^ nbits)))
    poison := []
    turns := [.issue 0 0] }

end Sys2Proof.Machine
end

