-- ==== Sys2Proof/Safety.lean ====
section
/-! DEFINITION. What counts as a safe run, and the terms that claims use: when an instruction issues, what its destination
holds afterwards, and what stays as it was. -/
namespace Sys2Proof.Machine

/-- Every memory of the module is in its canonical form. -/
abbrev Canonical (s : State) : Prop :=
  s.dev.wf = true ∧ s.dram.wf = true ∧ s.host.wf = true ∧ s.hostBehind.wf = true ∧ s.spad.wf = true ∧ s.lode.wf = true

/-- An outcome is a next state. -/
def Proceeds (o : Host.Outcome State Fault Refusal) : Prop := ∃ t, o = .next t

/-- A run of `n` steps that neither faults nor is refused. -/
def SafeRun : Nat → State → Prop
  | 0, _ => True
  | n + 1, s => ∃ t, step s = .next t ∧ SafeRun n t

/-! ### Issue -/

/-- The header of an encoded instruction (04 R72). -/
def hdrOf (i : Instr) : Option Hdr :=
  match i with
  | .fadd h _ | .fsub h _ | .fmul h _ | .ffma h _ | .fmin h _ | .fmax h _ | .fclass h _ | .frcp h _ | .frsq h _
  | .fsqrt h _ | .fexp2 h _ | .flog2 h _ | .fsin h _ | .fcos h _ | .ftanh h _ | .fsigm h _ | .hadd2 h _
  | .hmul2 h _ | .hfma2 h _ | .dot4 h _ | .wred h _ | .imad h _ | .cvt h _ | .cvti h _ | .cvtf h _ | .pack h _
  | .unpack h _ | .qhist h _ | .qscale h _ | .qcvt h _ | .iadd h _ | .iaddc h _ | .isub h _ | .imul h _
  | .imulh h _ | .imin h _ | .imax h _ | .iabs h _ | .ineg h _ | .lea h _ | .ishl h _ | .ishr h _ | .isar h _
  | .iand h _ | .ior h _ | .ixor h _ | .inot h _ | .popc h _ | .clz h _ | .brev h _ | .bfx h _ | .bfi h _
  | .pseti h _ | .psetf h _ | .plop h _ | .pvote h _ | .pmovTov h _ | .pmovFromv h _ | .mov h _ | .sel h _
  | .shfl h _ | .bcast h _ | .kmov h _ | .drop h _ | .clear h _ | .release h _ | .hold h _ | .recount h _
  | .rdsr h _ | .rdsrClr h _ | .time h _ | .ld h _ | .st h _ | .pref h _ | .atom h _ | .cas h _ | .red h _
  | .amaxp h _ | .fence h _ | .cwb h _ | .bra h _ | .bri h _ | .call h _ | .calli h _ | .ret h _ | .exit h _
  | .yield h _ | .nop h _ | .wait h _ | .sleep h _ | .trap h _ | .bkpt h _ | .sload h _ | .sstore h _ | .sevict h _
  | .sstat h _ | .mmt h _ | .mmtx h _ | .mmtg h _ | .gzero h _ | .gload h _ | .gstore h _ | .accz h _ | .accld h _
  | .accst h _ | .accmv h _ | .tagset h _ | .tagcnt h _ | .vcopy h _ | .vgather h _ | .vscatter h _ | .vput h _
  | .vget h _ | .vred h _ | .vstat h _ | .vcancel h _ | .sort h _ | .bararr h _ | .barwait h _ | .barsync h _
  | .bardrop h _ | .barstat h _ | .grpq h _ | .launch h _ | .fsig h _ | .fwait h _ | .nexttile h _ | .steal h _
  | .wrsrFlush h _ | .wrsrQuota h _ | .wrsrEvent h _ | .watch h _ => some h
  | _ => none

/-- The names that a V3 instruction of one, two or three sources reads. -/
def reads1 (f : V3) : List Nat := rd f.srca 1
def reads2 (f : V3) : List Nat := rd f.srca 1 ++ rd f.srcb 1
def reads3 (f : V3) : List Nat := rd f.srca 1 ++ rd f.srcb 1 ++ rd f.srcc 1

/-- The names that a VI instruction of one or two typed sources reads, and those of a shift. -/
def readsT1 (f : VI) : List Nat := rd f.srca (typeNames f.type)
def readsT2 (f : VI) : List Nat := rd f.srca (typeNames f.type) ++ rd f.srcb (typeNames f.type)
def readsShift (f : VI) : List Nat := rd f.srca (typeNames f.type) ++ rd f.srcb 1

/-- What an instruction asks of its issue: its field rules (04 R74 to R78 and its own entry), the privilege it needs, the
names it reads and writes, and its own checks and waits. Nothing for an event. -/
def needs (i : Instr) (s : State) : Needs :=
  match i with
  | .fadd h f | .fsub h f | .fmul h f => plainNeeds h (fpFields h f && rndOk f && nul f.srcc) (reads2 f) 1 (seedPeek f.rnd)
  | .ffma h f => plainNeeds h (fpFields h f && rndOk f && true) (reads3 f) 1 (seedPeek f.rnd)
  | .fmin h f | .fmax h f => plainNeeds h (fpFields h f && nul f.srcc && f.rnd == 0 && !f.sat) (reads2 f) 1
  | .fclass h f =>
    plainNeeds h (fpFields h f && nul f.srcb && nul f.srcc && f.rnd == 0 && !f.sat && noMods f) (reads1 f) 1
  | .frcp h f | .fsqrt h f => plainNeeds h (funFields h f true) (reads1 f) 1 (seedPeek f.rnd)
  | .frsq h f | .fexp2 h f | .flog2 h f | .fsin h f | .fcos h f | .ftanh h f | .fsigm h f =>
    plainNeeds h (funFields h f false) (reads1 f) 1 (seedPeek f.rnd)
  | .hadd2 h f | .hmul2 h f => plainNeeds h (halfFields h f && nul f.srcc) (reads2 f) 1 (seedPeek f.rnd)
  | .hfma2 h f => plainNeeds h (halfFields h f && true) (reads3 f) 1 (seedPeek f.rnd)
  | .dot4 h f =>
    plainNeeds h (typeIn f.type [0, 4] && f.fslot == 0 && f.rnd == 0 && f.zero == 0 && noMods f && srcOk f.srca 1 &&
      srcOk f.srcb 1 && srcOk f.srcc 1 && destOk h 1 [f.srca, f.srcb, f.srcc]) (reads3 f) 1
  | .wred h f => plainNeeds h (wredFields h f) (reads1 f) 1 (seedPeek f.rnd)
  | .imad h f =>
    plainNeeds h (typeIn f.type [2, 3, 6, 7] && srcOk f.srca (typeNames f.type) && srcOk f.srcb (typeNames f.type) &&
      srcOk f.srcc (typeNames f.type) && destOk h (typeNames f.type) [f.srca, f.srcb, f.srcc] && v3Plain f)
      (rd f.srca (typeNames f.type) ++ rd f.srcb (typeNames f.type) ++ rd f.srcc (typeNames f.type)) (typeNames f.type)
  | .cvt h f => convertNeeds h (convFields f && f.type == 6 && srcOk f.srca 1 && destOk h 1 [f.srca]) (reads1 f) 1
      (fun e => let q := s.slotOf e.w f.fslot; decide (slotA q ≤ 7) && decide (slotOut q ≤ 5) && slotScale q == 0)
      (seedPeek f.rnd)
  | .cvti h f =>
    convertNeeds h (convFields f && typeIn f.type allTypes && !f.sat && srcOk f.srca 1 && destOk h (typeNames f.type) [f.srca])
      (reads1 f) (typeNames f.type) (fun e => let q := s.slotOf e.w f.fslot; decide (slotA q ≤ 5) && slotScale q == 0)
      (seedPeek f.rnd)
  | .cvtf h f =>
    convertNeeds h (convFields f && typeIn f.type allTypes && srcOk f.srca (typeNames f.type) && destOk h 1 [f.srca])
      (rd f.srca (typeNames f.type)) 1 (fun e => let q := s.slotOf e.w f.fslot; decide (slotOut q ≤ 5) && slotScale q == 0)
      (seedPeek f.rnd)
  | .pack h f | .unpack h f => plainNeeds h (packFields h f) (reads2 f) 1
  | .qhist h f => needsQhist h f s
  | .qscale h f => needsQscale h f s
  | .qcvt h f =>
    convertNeeds h (f.type == 6 && noMods f && f.zero == 0 && rndOk f && srcOk f.srca 1 && srcOk f.srcb 1 && !nul f.srcb &&
      nul f.srcc && destOk h 1 [f.srca, f.srcb]) (reads2 f) 1
      (fun e => let q := s.slotOf e.w f.fslot
        decide (slotA q ≤ 2) && headroom (slotOut q) != 0 && slotScale q == 1) (seedPeek f.rnd)
  | .iadd h f | .isub h f => plainNeeds h (intFields h f allTypes true) (readsT2 f) (typeNames f.type)
  | .iaddc h f => needsIaddc h f s
  | .imul h f | .imin h f | .imax h f | .iand h f | .ior h f | .ixor h f =>
    plainNeeds h (intFields h f allTypes false) (readsT2 f) (typeNames f.type)
  | .imulh h f => plainNeeds h (intFields h f [2, 3, 6, 7] false) (readsT2 f) (typeNames f.type)
  | .iabs h f | .ineg h f =>
    plainNeeds h (unaryFields h f [0, 1, 2, 3] true (typeNames f.type)) (readsT1 f) (typeNames f.type)
  | .lea h f =>
    plainNeeds h (typeIn f.type [2, 6] && srcOk f.srca 2 && srcbOk f 1 && destOk h 2 [f.srca, f.srcb] && f.subop == 0)
      (rd f.srca 2 ++ rd f.srcb 1) 2
  | .ishl h f => plainNeeds h (shiftFields h f allTypes) (readsShift f) (typeNames f.type)
  | .ishr h f => plainNeeds h (shiftFields h f [4, 5, 6, 7]) (readsShift f) (typeNames f.type)
  | .isar h f => plainNeeds h (shiftFields h f [0, 1, 2, 3]) (readsShift f) (typeNames f.type)
  | .inot h f => plainNeeds h (unaryFields h f allTypes false (typeNames f.type)) (readsT1 f) (typeNames f.type)
  | .popc h f | .clz h f => plainNeeds h (unaryFields h f [4, 5, 6, 7] false 1) (readsT1 f) 1
  | .brev h f => plainNeeds h (unaryFields h f [4, 5, 6, 7] false (typeNames f.type)) (readsT1 f) (typeNames f.type)
  | .bfx h f => plainNeeds h (shiftFields h f [2, 3, 6, 7]) (readsShift f) (typeNames f.type)
  | .bfi h f =>
    plainNeeds h (typeIn f.type [6, 7] && srcOk f.srca (typeNames f.type) && srcOk f.srcb (typeNames f.type) && !nul f.srcb &&
      destOk h (typeNames f.type) [f.srca, f.srcb] && f.mods == 0 && f.subop == 0 && f.imm.extractLsb' 16 16 == 0)
      (readsT2 f) (typeNames f.type)
  | .pseti h f =>
    psetNeeds f (typeIn f.type allTypes && srcOk f.srca (typeNames f.type) && srcbOk f (typeNames f.type) && psetFields h f &&
      decide (psetCode f ≤ 5)) (readsT2 f)
  | .psetf h f =>
    psetNeeds f (typeIn f.type [6, 8] && srcOk f.srca 1 && srcbOk f 1 && psetFields h f && psetCode f != 7 &&
      psetCode f != 15) (rd f.srca 1 ++ rd f.srcb 1)
  | .plop h f => needsPlop h f s
  | .pvote h f => needsPvote h f s
  | .pmovTov h f => needsPmovTov h f s
  | .pmovFromv h f => needsPmovFromv h f s
  | .mov h f =>
    plainNeeds h (typeIn f.type [2, 3, 6, 7] && nul f.srca && srcbOk f (typeNames f.type) &&
      destOk h (typeNames f.type) [f.srcb] && f.mods == 0 && f.subop == 0) (rd f.srcb (typeNames f.type)) (typeNames f.type)
  | .sel h f => needsSel h f s
  | .shfl h f => needsShfl h f s
  | .bcast h f => needsBcast h f s
  | .kmov h f => needsKmov h f s
  | .drop h f => manageNeeds h f (h.count != 0 && h.count != 7) cRegOverdrop (dropRule h.count)
  | .clear h f => manageNeeds h f (h.count == 0) cRegOverdrop fun _ => some 0
  | .release h f => manageNeeds h f (h.count == 0) cRegOverdrop releaseRule
  | .hold h f => manageNeeds h f (h.count == 0) cRegExhausted (recountRule 7)
  | .recount h f => manageNeeds h f (h.count != 0) cRegExhausted (recountRule h.count)
  | .rdsr h f => needsRdsr h f s
  | .rdsrClr h f => needsRdsrClr h f s
  | .time h f => needsTime h f s
  | .ld h f => if f.space = 3 then constantNeeds s h f else accessNeeds s h f (ldFields h f) .ld 0 true
  | .st h f => accessNeeds s h f (stFields h f) .st (widthNames f.width) false
  | .pref h f => needsPref h f s
  | .atom h f => accessNeeds s h f (atomFields h f) .atom (widthNames f.width) (!nul h.dest)
  | .cas h f => accessNeeds s h f (casFields h f) .cas (2 * widthNames f.width) (!nul h.dest)
  | .red h f => accessNeeds s h f (redFields h f) .red (widthNames f.width) false
  | .amaxp h f => accessNeeds s h f (amaxpFields h f) .amaxp 2 (!nul h.dest)
  | .fence h f => needsFence h f s
  | .cwb h f => accessNeeds s h f (cwbFields h f) .cwb 0 false
  | .bra h f => needsBra h f s
  | .bri h f => needsBri h f s
  | .call h f => needsCall h f s
  | .calli h f => needsCalli h f s
  | .ret h f => needsRet h f s
  | .exit h f => needsExit h f s
  | .yield h f => needsYield h f s
  | .nop h f => needsNop h f s
  | .wait h f => needsWait h f s
  | .sleep h f => needsSleep h f s
  | .trap h f => needsTrap h f s
  | .bkpt h f => needsBkpt h f s
  | .sload h f => needsSload h f s
  | .sstore h f => needsSstore h f s
  | .sevict h f => needsSevict h f s
  | .sstat h f => needsSstat h f s
  | .mmt h f => needsMmt h f s
  | .mmtx h f => needsMmtx h f s
  | .mmtg h f => needsMmtg h f s
  | .gzero h f => needsGzero h f s
  | .gload h f => needsGload h f s
  | .gstore h f => needsGstore h f s
  | .accz h f => needsAccz h f s
  | .accld h f => needsAccld h f s
  | .accst h f => needsAccst h f s
  | .accmv h f => needsAccmv h f s
  | .tagset h f => needsTagset h f s
  | .tagcnt h f => needsTagcnt h f s
  | .vcopy h f => engineNeeds s h f (vcopyFields h f) .copy
  | .vgather h f => engineNeeds s h f (rowFields h f) .gather
  | .vscatter h f => engineNeeds s h f (rowFields h f) .scatter
  | .vput h f => engineNeeds s h f (vputFields h f) .put
  | .vget h f => engineNeeds s h f (vgetFields h f) .get
  | .vred h f => engineNeeds s h f (vredFields h f) .red
  | .vstat h f => needsVstat h f s
  | .vcancel h f => needsVcancel h f s
  | .sort h f => engineNeeds s h f (sortFields h f) .sort
  | .bararr h f => needsBararr h f s
  | .barwait h f => needsBarwait h f s
  | .barsync h f => needsBarsync h f s
  | .bardrop h f => needsBardrop h f s
  | .barstat h f => needsBarstat h f s
  | .grpq h f => needsGrpq h f s
  | .launch h f => needsLaunch h f s
  | .fsig h f => needsFsig h f s
  | .fwait h f => needsFwait h f s
  | .nexttile h f => needsNexttile h f s
  | .steal h f => needsSteal h f s
  | .wrsrFlush h f => needsWrsrFlush h f s
  | .wrsrQuota h f => needsWrsrQuota h f s
  | .wrsrEvent h f => needsWrsrEvent h f s
  | .watch h f => needsWatch h f s
  | _ => { fields := false }

/-- The warp at the issue port issues `i`, with header `h` and needs `n`, as `e`: the word stands at its lowest issuable PC,
every check of 04 R74 passes, and neither the scoreboard, nor the instruction's own conditions, nor the slot allocation
holds it back. -/
abbrev Issues (s : State) (h : Hdr) (i : Instr) (n : Needs) (e : Env) : Prop :=
  env? s h ((encode i).getD 0) = some e ∧ s.hold h n e = none

/-- The warp at the issue port issues the encoded instruction `i` as `e`. -/
def Ready (s : State) (i : Instr) (e : Env) : Prop := ∃ h, hdrOf i = some h ∧ Issues s h i (needs i s) e

/-- `t` is `s` but for the warp in entry `slot` of core `c`, the core's record of its issues, and what telemetry counts (24 R367);
the core's L1 is as it was, or has become invalid (14 R259). -/
structure SameElse (s t : State) (c slot : Nat) : Prop where
  state : t = { s with cores := t.cores, parts := t.parts }
  parts : ∀ p, t.part p = { s.part p with counters := (t.part p).counters }
  cores : ∀ k, k ≠ c → t.core k = s.core k
  core : t.core c = { s.core c with warps := (t.core c).warps, issued := (t.core c).issued, l1 := (t.core c).l1 }
  l1 : (t.core c).l1 = (s.core c).l1 ∨ (t.core c).l1 = []
  warps : ∀ o, o ≠ slot → t.warp? c o = s.warp? c o

/-! ### Barrier waits whose phase completes -/

/-- A barrier wait of the warp `w` as operations that took the group entries from those of `s` to those of `t` leave it: due the
status word of the phase that it waits for, from the completion of that phase on (01 R26, R27, R34). -/
def dueWait (s t : State) (w : Warp) (x : Wait) : Wait :=
  match x.kind with
  | .barrier g p _ _ =>
    match x.due, s.group? w g with
    | none, some (k, a) =>
      match t.groups.get? k with
      | some b => if a.phase = p ∧ b.phase ≠ p then { x with due := some (if p then b.status1 else b.status0) } else x
      | none => x
    | _, _ => x
  | _ => x

/-- A warp whose waits those operations have left so. -/
def dueWarp (s t : State) (w : Warp) : Warp := { w with waits := w.waits.map (dueWait s t w) }

/-- A core whose warps' waits those operations have left so. -/
def dueCore (s t : State) (k : Core) : Core := { k with warps := k.warps.map fun w => (w.1, dueWarp s t w.2) }

/-! ### Bytes at the home L2s and behind them -/

/-- A byte at its home L2. -/
def State.homeByte (s : State) (p : Phys) : Byte := (if p.host then s.host else s.dev).read p.addr

/-- The byte of the memory behind the home L2. -/
def State.behindByte (s : State) (p : Phys) : Byte := (if p.host then s.hostBehind else s.dram).read p.addr

/-- The home L2 holds a byte's line with the byte modified. -/
def State.dirtyByte (s : State) (p : Phys) : Prop :=
  s.l2Has p.host p.line = true ∧ ∀ x ∈ s.l2, x.is p.host p.line = true → x.dirty.getLsbD (p.addr % 128) = true

/-- But for the bytes `stored`, memory is in `t` as in `s`, where lines may have left their home L2 (14 R260): a byte reads as
before, or, if its line was held without it modified, as the memory behind has it; and that memory may have taken the
home's value. -/
structure Refilled (s t : State) (stored : Phys → Prop) : Prop where
  home : ∀ p, ¬stored p → t.homeByte p = s.homeByte p ∨ (t.homeByte p = s.behindByte p ∧ ¬s.dirtyByte p)
  behind : ∀ p, ¬stored p → t.behindByte p = s.behindByte p ∨ t.behindByte p = s.homeByte p

/-- The physical bytes that a write at virtual addresses stores to, piece by piece, as far as its translations go: each first byte
and how many. -/
def State.storedBy (u : TUnit) (ctx : Nat) : List (Nat × Nat) → List Byte → State → List (Phys × Nat)
  | [], _, _ => []
  | (va, n) :: rest, bs, s =>
    match s.translate u ctx va .write true false false with
    | (.error _, _) => []
    | (.ok x, s1) => (x.phys, (bs.take n).length) :: State.storedBy u ctx rest (bs.drop n) (s1.pageWrite x (bs.take n))

/-- Whether a byte is among those of a list of pieces. -/
def isIn (l : List (Phys × Nat)) (p : Phys) : Prop := ∃ y ∈ l, y.1.host = p.host ∧ y.1.addr ≤ p.addr ∧ p.addr < y.1.addr + y.2

/-- But for the bytes that pieces of pages name, memory is as before (`Refilled`), and of pieces in frames of their own each byte holds
its value: at its home L2, or, where the pages are uncached, behind it. -/
structure Stores (s t : State) (ts : List (Xlated × Nat)) (bs : List Byte) : Prop where
  rest : Refilled s t (isIn (ts.map fun y => (y.1.phys, y.2)))
  value : (∀ y ∈ ts, y.1.phys.addr % 4096 + y.2 ≤ 4096) →
    (ts.map fun y => (y.1.phys.host, y.1.phys.addr / 4096)).Nodup →
    ∀ (pre post : List (Xlated × Nat)) (y : Xlated × Nat) (i : Nat), ts = pre ++ y :: post → i < y.2 →
      (pre.map (·.2)).sum + i < bs.length →
      let p := { y.1.phys with addr := y.1.phys.addr + i }
      ((∀ z ∈ ts, z.1.item.kind ≠ .uncached) → t.homeByte p = bs.getD ((pre.map (·.2)).sum + i) 0) ∧
      ((∀ z ∈ ts, z.1.item.kind = .uncached) → t.behindByte p = bs.getD ((pre.map (·.2)).sum + i) 0)

/-! ### Evictions for a quota -/

/-- Whether a quota may evict a warp of a context: it is resident, live and holds slots, stands in no trap, and is not chosen yet
(11 R241). -/
def mayLeave (x : Nat) (w : Warp) : Prop :=
  w.ctx = x ∧ w.evicted = false ∧ w.leaving = false ∧ w.suspended = 0 ∧ w.halted = false ∧ w.live ≠ 0 ∧ w.resident ≠ 0

/-- Whether a context holds no more slots on a core than Q − R, those of warps that are leaving not counted (11 R241). -/
def State.withinQuota (s : State) (c x : Nat) : Prop := (s.core c).usedStaying x + s.reserve c x ≤ (s.core c).quota x

/-- One eviction for the quota of context `x` on core `c`: the context holds more than it may; the warp is one that may leave, and
the youngest, where their sequences lie within half of their range. With accesses open or a held instruction running it is to leave;
else its scree record is written and its slots return to the pool, and nothing else changes but translations, lines, counters and
the core's sets; where the write fails the context is killed (02 R52; 11 R241; 21 R338). -/
structure QuotaEvicts (c x : Nat) (s t : State) : Prop where
  more : ¬s.withinQuota c x
  one : ∃ slot w, s.warp? c slot = some w ∧ mayLeave x w ∧
    (∀ b : BitVec 32, (∀ p ∈ (s.core c).warps, mayLeave x p.2 → (p.2.seq - b).toNat < 2 ^ 31) →
      ∀ p ∈ (s.core c).warps, mayLeave x p.2 → (p.2.seq - b).toNat ≤ (w.seq - b).toNat) ∧
    (¬(w.settled = true ∧ (s.core c).holdsX slot = false) → t = s.setWarp c slot { w with leaving := true }) ∧
    (w.settled = true → (s.core c).holdsX slot = false →
      (∀ y s1, s.vaWrite (.core c) x (s.recordAt x c slot) w.recordBytes true false = (some y, s1) →
        (t.ctx x).pre = 4 ∧ ∀ k o v, s.warp? k o = some v → v.ctx ≠ x → t.warp? k o = some v) ∧
      (∀ s1, s.vaWrite (.core c) x (s.recordAt x c slot) w.recordBytes true false = (none, s1) →
        t.warp? c slot = some { w with evicted := true, leaving := false, screeNames := w.names.length, names := [] } ∧
        t = { s1 with cores := t.cores, parts := t.parts } ∧
        s1 = { s with tlb := s1.tlb, walks := s1.walks, bytes := s1.bytes, l2 := s1.l2, poison := s1.poison, dev := s1.dev, dram := s1.dram,
                      host := s1.host, hostBehind := s1.hostBehind } ∧
        (Canonical s → Refilled s t (isIn (State.storedBy (.core c) x (pagePieces (s.recordAt x c slot) w.recordBytes.length)
          w.recordBytes s))) ∧
        (∀ q, t.part q = { s.part q with counters := (t.part q).counters }) ∧ (∀ k, k ≠ c → t.core k = s.core k) ∧
        t.core c = { s.core c with warps := (t.core c).warps, active := (t.core c).active, pending := (t.core c).pending } ∧
        (∀ o, o ≠ slot → t.warp? c o = s.warp? c o) ∧ slot ∉ (t.core c).active ∧ slot ∉ (t.core c).pending))

/-! ### What an instruction leaves in its warp -/

/-- What an instruction does beside writing its destination: predicates that it writes, by number and lane, and counts that
it sets, by name and lane, in the active lanes; flags that it raises and, but for those it keeps, clears. -/
structure Extra where
  preds : Nat → Nat → Option Bool := fun _ _ => none
  counts : Nat → Nat → Option (BitVec 3) := fun _ _ => none
  keep : BitVec 8 := 0xFF
  flags : BitVec 8 := 0

/-- What an instruction issued as `e` does to the names, uniform registers, predicates and flags of its warp, with the values
`v` of its destination's names in each lane. Each destination name holds its value with the declared count in the active
lanes; reads have been taken in the active lanes; every other count, every value of a lane whose count is not zero, every
other uniform register and predicate is as it was. DESIGN CHOICE (log 84): of active lanes whose values differ, a uniform
register takes the lowest one's. -/
structure Named (e : Env) (n : Needs) (v : Nat → List Word) (x : Extra) (w : Warp) : Prop where
  value : ∀ (j d l : Nat), n.dests[j]? = some d → isV d = true → n.count ≠ 0 → l < 32 → laneOn e.act l = true →
    w.val d l = (v l).getD j 0 ∧ w.count d l = n.count
  uniform : ∀ (j d l : Nat), n.dests[j]? = some d → isK d = true → e.act ≠ 0 →
    w.val d l = (v (lowLane e.act)).getD j 0
  counts : ∀ (d l : Nat), l < 32 → (d ∈ n.dests → isV d = true → n.count = 0 ∨ laneOn e.act l = false) →
    w.count d l = if laneOn e.act l then (x.counts d l).getD (e.w.countAfter n.reads d l) else e.w.count d l
  values : ∀ (d l : Nat), isV d = true → l < 32 → (d ∈ n.dests → n.count = 0 ∨ laneOn e.act l = false) →
    w.count d l ≠ 0 → w.val d l = e.w.val d l
  uniforms : ∀ (d l : Nat), isK d = true → (d ∈ n.dests → e.act = 0) → w.val d l = e.w.val d l
  preds : ∀ (p l : Nat), p < 7 → l < 32 → laneOn (w.pred p) l =
    if laneOn e.act l then (x.preds p l).getD (laneOn (e.w.pred p) l) else laneOn (e.w.pred p) l
  flags : w.aflags = e.w.aflags &&& x.keep ||| x.flags

/-- The ended operations of a warp whose statuses are still to be read once an instruction has issued as `e` (11 R225; 15 R273). -/
def Env.unreadAfter (e : Env) (n : Needs) : List (Bool × Nat) :=
  if e.act = 0 then e.w.unread else e.w.unread.filter fun u => !(n.reads ++ n.peeks ++ n.dests).contains u.2

/-- The warp `w` after an instruction issued as `e` that moves its fragment to the next PC and changes nothing of its warp
but what `Named` says, and the list of statuses still to be read. -/
structure Written (e : Env) (n : Needs) (v : Nat → List Word) (x : Extra) (w : Warp) : Prop extends Named e n v x w where
  pcs : ∀ l, l < 32 → w.pc l = if laneOn e.frag l then nextPc e.pc else e.w.wakeZero.pc l
  rest : w = { e.w.wakeZero with
    names := w.names, kregs := w.kregs, preds := w.preds, pcs := w.pcs, aflags := w.aflags,
    stall := none, timeout := false, ran := e.cycle, noWatch := e.w.noWatch &&& ~~~e.frag, unread := e.unreadAfter n }

/-- The warp `w` after an instruction issued as `e` whose destination is still owed: its reads are taken, its destination
names are pending, and no value, other count, uniform register, predicate or flag has changed (02 R42). -/
structure Owed (e : Env) (n : Needs) (w : Warp) : Prop extends Named e { n with dests := [] } (fun _ => []) {} w where
  pending : e.act ≠ 0 → n.count ≠ 0 → ∀ d ∈ n.dests, isV d = true → w.pendingName d = true

/-- The fragment stands at the next PC. -/
def MovedOn (e : Env) (w : Warp) : Prop :=
  ∀ l, l < 32 → w.pc l = if laneOn e.frag l then nextPc e.pc else e.w.wakeZero.pc l

/-- The active lanes stay in a wait of kind `k` from cycle `since` on, and the fragment's other lanes stand at the next PC. -/
def Suspended (e : Env) (k : WaitKind) (since : Nat) (w : Warp) : Prop :=
  w.waits = e.w.wakeZero.waits ++ [{ lanes := e.act, kind := k, since := since }] ∧
  ∀ l, l < 32 → w.pc l = if laneOn e.frag l ∧ laneOn e.act l = false then nextPc e.pc else e.w.wakeZero.pc l

/-- Wherever `i` issues, it completes: its warp is left as `Written` says, the core's L1 becomes invalid where the issue reads the
status of an ended operation for the first time (14 R259), and nothing else changes. -/
def Completes (i : Instr) (v : State → Env → Nat → List Word) (x : State → Env → Extra := fun _ _ => {}) : Prop :=
  ∀ (s : State) (e : Env), Ready s i e →
    ∃ t w, exec i s = .next t ∧ t.warp? e.core e.slot = some w ∧ Written e (needs i s) (v s e) (x s e) w ∧
      (t.core e.core).l1 = (if (needs i s).readsStatus e then [] else (s.core e.core).l1) ∧ SameElse s t e.core e.slot

/-- Wherever the transfer `i` issues, it completes: its active lanes stand at their targets, the fragment's other lanes at
the next PC, and its link, if any, holds `v`. The fetch of the target's line may fill translations, be counted (24 R364) and post
a record; no memory, and no other warp, changes. -/
def Transfers (i : Instr) (target : Env → Nat → PC) (v : Env → List Word) : Prop :=
  ∀ (s : State) (e : Env), Ready s i e →
    ∃ t w, exec i s = .next t ∧ t.warp? e.core e.slot = some w ∧ Named e (needs i s) (fun _ => v e) {} w ∧
      w.live = e.w.live ∧
      (∀ l, l < 32 → w.pc l = if laneOn e.act l then target e l
        else if laneOn e.frag l then nextPc e.pc else e.w.wakeZero.pc l) ∧
      t = { s with cores := t.cores, parts := t.parts, tlb := t.tlb, walks := t.walks, bytes := t.bytes, evHeld := t.evHeld } ∧
      (∀ k, k ≠ e.core → t.core k = s.core k) ∧ (∀ o, o ≠ e.slot → t.warp? e.core o = s.warp? e.core o)

end Sys2Proof.Machine
end

