-- ==== Sys2Proof/Certificates/Slice0/Obligations.lean ====
section
/-! DEFINITION. The statements for the provers: what encoding, issue, every instruction and every event do. -/

open Sys2Proof Sys2Proof.Machine

/-- For every well-formed instruction and the word that encodes it, decoding the word gives the instruction, every
field at every value that its field of the word admits. (R72, R73, R79, R80, R83, R84, R85, R86.) -/
def Obligations.DecodeOfEncode : Prop :=
  ∀ (i : Instr) (w : InsnWord), WellFormed i = true → encode i = some w → decodeWord w = i

/-- Decoding is total: every 96-bit word decodes to a well-formed instruction, and no bit of it is lost, since the
instruction encodes to the same word. The twelve bytes of a slot, least significant first, decode to the instruction
of its word; any other number of bytes is refused by name. (R72, R75, R88, R66, 03_assembly_language.) -/
def Obligations.WordsAndSlots : Prop :=
  (
  ∀ w : InsnWord, WellFormed (decodeWord w) = true ∧ encode (decodeWord w) = some w) ∧
  (
  (∀ w : InsnWord, decodeBytes (leBytes 12 w.toNat) = .ok (decodeWord w)) ∧
  (∀ bs : List Byte, bs.length ≠ 12 → decodeBytes bs = .error .notTwelveBytes))

/-- FADD v3:1, v1, v2; IMAD.b32 v0:1, v0, v0, v0; FCLASS v7:1, v6; DOT4.i8 v14:1, v12, v13, v15 and TIME v20:1, as the
spec spells their words. (R150, R157, R159, R165, R166, R152.) -/
def Obligations.SpecWordsDecode : Prop :=
  decodeWord 0x001C0640202FF80080000000 = .fadd { negate := false, guard := 7, dest := 3, count := 1 }
    { srca := 1, srcb := 2, srcc := 511, fslot := 0, rnd := 0, sat := false, nega := false, negb := false, absa := false,
      absb := false, type := 8, zero := 0 } ∧
  decodeWord 0x081C00400000000060000000 = .imad { negate := false, guard := 7, dest := 0, count := 1 }
    { srca := 0, srcb := 0, srcc := 0, fslot := 0, rnd := 0, sat := false, nega := false, negb := false, absa := false,
      absb := false, type := 6, zero := 0 } ∧
  decodeWord 0x019C0E40DFFFF80080000000 = .fclass { negate := false, guard := 7, dest := 7, count := 1 }
    { srca := 6, srcb := 511, srcc := 511, fslot := 0, rnd := 0, sat := false, nega := false, negb := false, absa := false,
      absb := false, type := 8, zero := 0 } ∧
  decodeWord 0x071C1C4180D0780000000000 = .dot4 { negate := false, guard := 7, dest := 14, count := 1 }
    { srca := 12, srcb := 13, srcc := 15, fslot := 0, rnd := 0, sat := false, nega := false, negb := false, absa := false,
      absb := false, type := 0, zero := 0 } ∧
  decodeWord 0x2C5C287FFFF7000000000000 = .time { negate := false, guard := 7, dest := 20, count := 1 }
    { srca := 511, srcb := 511, type := 7, mods := 0, subop := 0, imm := 0 }

/-- Of the 1,024 opcodes, exactly 128 are assigned. A word decodes to RESERVED_OPCODE exactly where its opcode is not
assigned, and when such a word issues its fragment takes the precise fault OPCODE_RESERVED, whichever lanes its guard
would name. (R74, R75, R88.) -/
def Obligations.ReservedOpcodes : Prop :=
  ((List.range 1024).filter fun c => assignedOpcode (c / 128) (c % 128)).length = 128 ∧
  (∀ w : InsnWord, (∃ u, decodeWord w = .reservedOpcode u) ↔
    assignedOpcode (w.extractLsb' 93 3).toNat (w.extractLsb' 86 7).toNat = false) ∧
  (∀ (w : InsnWord) (s : State) (e : Env), env? s bareHdr w = some e → e.w.held = false →
    exec (.reservedOpcode w) s =
      .next (s.raise_ e { code := 0x09, lanes := e.frag, addr := 0, info := 0 }))

/-- When the turn at the head of the schedule is the issue of a warp that may issue, no warp before it in its core's
rotation may issue, and its line is fetched, the step is exec of the decoded word with the warp at the issue port, in
the present cycle or, where that has issues that must come later, in the next; once the warp has issued it is last in
its core's rotation. A warp before it in the rotation that issues has the turn instead; one that is blocked leaves it
to those behind. That a turn is listed is the model's form of what the outside and the clocks decide (logs 2 and 3). A
listed event is executed as it is listed. A listed pass of ticks and cycles that ends no translation under which a
lane has been begun moves the time base, modulo 2^64, and the cycle count, and nothing else before the next multiple
of 4,096 ticks; where it reaches that, the dies' copies of the counter are checked there, and nothing else changes.
The list of turns, and that one check stands for those of the same pass, are the model's (logs 2, 63). (R11, R19, R66,
R74, R305, R306, 01_execution_model.) -/
def Obligations.StepRunsWhatComesNext : Prop :=
  (
  ∀ (s s1 : State) (ts : List Turn) (c slot : Nat) (w : Warp) (pc : PC) (frag : Mask) (word : InsnWord) (zero : BitVec 7),
    s.turns = .issue c slot :: ts →
    let u : State := { s with steps := s.steps + 1, turns := ts }
    (∀ before rest : List Nat, (u.core c).active = before ++ slot :: rest → (∀ i ∈ before, i ≠ slot ∧ u.issuer c i = none) →
      u.issuer c slot = some (w, pc, frag) → u.fetch c slot w pc frag = .ok (word, zero, s1) →
      step s = match exec (decodeWord word) ((s1.inCycle c slot).atPort c slot zero) with
        | .next t => .next (if (t.core c).issued ≠ (u.core c).issued then t.modCore c fun k =>
            { k with active := ((rest ++ before ++ [slot]).filter fun i => k.active.contains i) ++
                (k.active.filter fun i => !(rest ++ before ++ [slot]).contains i) } else t)
        | stop => stop) ∧
    (∀ (i : Nat) (rest : List Nat) (t : State), (u.core c).active = i :: rest → i ≠ slot → tryIssue u c i = .next t →
      ((t.core c).issued ≠ (u.core c).issued → step s = .next (t.rotated u c i)) ∧
      ((t.core c).issued = (u.core c).issued → (∃ x, t.warp? c i = some x ∧ x.stall ≠ none) →
        step s = issueFrom c slot rest t))) ∧
  (
  ∀ (s : State) (ts : List Turn),
    (∀ i : Instr, s.turns = .event i :: ts → step s = exec i { s with steps := s.steps + 1, turns := ts }) ∧
    (∀ a b : Nat, s.turns = .pass a b :: ts →
      let u : State := { s with steps := s.steps + 1, turns := ts }
      let m := (s.time / 4096 + 1) * 4096
      u.begunLanes (fun c _ e => u.endsBy (s.time + a) c e) = [] →
      (s.time + a < m → step s = .next { u with time := (s.time + a) % 2 ^ 64, cycle := s.cycle + b }) ∧
      (m ≤ s.time + a → step s = .next { ({ u with time := m } : State).checkDies with
        time := (s.time + a) % 2 ^ 64, cycle := s.cycle + b })))

/-- An encoded instruction issues exactly when its warp holds no unretired matrix instruction; its guard and operand
predicates are owed no write; its fields are valid, with zero bits in the line's word and no guard !p7; it has the
privilege it asks for; no name it uses is owed a write; its own checks pass; the count and high-water-mark checks
pass; its own waits are over; and its new slots are allocated: in a cycle that decides another warp's allocation
first, with that one made (R50). (R39, R41, R42, R50, R74, R78.) -/
def Obligations.WhenAnInstructionIssues : Prop :=
  ∀ (s : State) (h : Hdr) (n : Needs) (e : Env), s.hold h n e = none ↔
    e.w.held = false ∧ e.w.busyPred h.guard.toNat = false ∧
    n.fields = true ∧ e.zero = 0 ∧ ¬(h.guard = 7 ∧ h.negate = true) ∧
    (n.privileged = true → (s.ctx e.w.ctx).desc.privileged = true) ∧
    (e.act ≠ 0 → ∀ p ∈ n.preds, e.w.busyPred p = false) ∧
    (∀ r ∈ n.names e.act, s.busyName e.core e.slot e.w r = false) ∧
    n.entry e = none ∧
    e.w.countCheck (s.hwm e.w) e.act n.reads n.dests n.count = none ∧
    n.stalls e = none ∧
    ((e.w.newNames n.dests n.count e.act).length = 0 ∨
      s.sel.granted = true ∨ (s.ahead e.core).canAllocate e.core e.slot e.w (e.w.newNames n.dests n.count e.act).length = true)

/-- With no wait before them, a bad field faults FIELD_RESERVED first; a missing privilege faults PERM next; then the
instruction's own check; then the count checks, in the order of R41: REG_EXHAUSTED where a source cannot be read as
often as the instruction reads it, with the first such name and every lane that fails; then REG_LIVE_WRITE where a
lane of a destination name still is owed reads once the sources are read, with the first such name and every such
lane; then HWM_EXCEEDED where the new names raise the warp's bound names above H, with the first new name and the
active lanes (which lanes that record names is the model's choice, log 82). Each other fault is raised for the whole
fragment. Where an encoded instruction's check fails, its fragment's lanes are suspended with the fault's code at the
slot's PC, one record of kind 0 is posted for the context's function with the warp's identity, the PC, the fragment,
the other live lanes at other PCs, the failing lanes and the code, behind the records of earlier cycles and of lower
cores; no PC, count, name, predicate, uniform register, flag or memory changes, in this warp or any other. (R41, R74,
R13, R329, R332.) -/
def Obligations.ChecksAndPreciseFaults : Prop :=
  (
  ∀ (s : State) (h : Hdr) (n : Needs) (e : Env), e.w.held = false → e.w.busyPred h.guard.toNat = false →
    ((n.fields = false ∨ e.zero ≠ 0 ∨ (h.guard = 7 ∧ h.negate = true)) →
      s.hold h n e = some (.raise { code := 0x0A, lanes := e.frag, addr := 0, info := 0 })) ∧
    (n.fields = true → e.zero = 0 → ¬(h.guard = 7 ∧ h.negate = true) →
      (n.privileged = true → (s.ctx e.w.ctx).desc.privileged = false →
        ∃ r, s.hold h n e = some (.raise r) ∧ r.code = 0x12 ∧ r.lanes = e.frag) ∧
      ((n.privileged = true → (s.ctx e.w.ctx).desc.privileged = true) → (∀ p ∈ n.preds, e.w.busyPred p = false) →
        s.busyOf e n = none →
        (∀ r, n.entry e = some r → s.hold h n e = some (.raise r)) ∧
        (n.entry e = none →
          (∀ r, e.w.countCheck (s.hwm e.w) e.act n.reads n.dests n.count = some r → s.hold h n e = some (.raise r)) ∧
          (let short := fun (d l : Nat) => laneOn e.act l = true ∧ isV d = true ∧ e.w.count d l ≠ 7 ∧
             (e.w.count d l).toNat < readsOf n.reads d
           let owed := fun (d l : Nat) => laneOn e.act l = true ∧ isV d = true ∧ n.count ≠ 0 ∧ e.w.count d l ≠ 7 ∧
             readsOf n.reads d < (e.w.count d l).toNat
           let first := fun (names : List Nat) (bad : Nat → Nat → Prop) (d : Nat) => ∃ before after, names = before ++ d :: after ∧
             (∃ l, l < 32 ∧ bad d l) ∧ ∀ x ∈ before, ∀ l, l < 32 → ¬bad x l
           let raises := fun (code : BitVec 8) (info : Nat) (lane : Nat → Prop) => ∃ r : Raise, s.hold h n e = some (.raise r) ∧
             r.code = code ∧ r.info = BitVec.ofNat 32 info ∧ r.addr = 0 ∧ ∀ l, l < 32 → (laneOn r.lanes l = true ↔ lane l)
           (∀ d, first n.reads short d → raises 0x01 d fun l => ∃ x ∈ n.reads, short x l) ∧
           ((∀ d ∈ n.reads, ∀ l, l < 32 → ¬short d l) →
             (∀ d, first n.dests owed d → raises 0x02 (d + 512 * 2) fun l => ∃ x ∈ n.dests, owed x l) ∧
             ((∀ d ∈ n.dests, ∀ l, l < 32 → ¬owed d l) → ∀ d ds, e.w.newNames n.dests n.count e.act = d :: ds →
               s.hwm e.w < e.w.names.length + (d :: ds).length → raises 0x04 (d + 512 * 3) fun l => laneOn e.act l = true))))))) ∧
  (
  ∀ (i : Instr) (h : Hdr) (s : State) (e : Env) (r : Raise), hdrOf i = some h →
    env? s h ((encode i).getD 0) = some e → s.hold h (needs i s) e = some (.raise r) →
    ∃ t w, exec i s = .next t ∧ t.warp? e.core e.slot = some w ∧
      w = { e.w with traps := e.w.traps ++ [{ lanes := e.frag, code := r.code, past := false }],
                     stall := none, timeout := false, ran := s.cycle } ∧
      w.suspended = e.w.suspended ||| e.frag ∧
      (∃ rec : EvRec, t.evHeld = holdRecord { fn := (s.ctx e.w.ctx).fn, cycle := s.cycle, rid := s.ridseq, record := rec } s.evHeld ∧
        rec.kind = 0 ∧ rec.wid = e.w.wid ∧ rec.pc = e.pc ∧ rec.fmask = e.frag ∧
        (∀ l, l < 32 → (laneOn rec.sibmask l = true ↔ laneOn e.w.live l = true ∧ laneOn e.frag l = false ∧ e.w.pc l ≠ e.pc)) ∧
        rec.lanemask = r.lanes ∧
        rec.code = r.code ∧ rec.addr = r.addr ∧ rec.info = r.info) ∧
      t = { s with cores := t.cores, evHeld := t.evHeld } ∧
      (∀ k, k ≠ e.core → t.core k = s.core k) ∧
      t.core e.core = { s.core e.core with warps := (t.core e.core).warps } ∧
      (∀ o, o ≠ e.slot → t.warp? e.core o = s.warp? e.core o))

/-- For every encoded instruction: behind an unretired matrix instruction nothing changes; a wait marks the warp as
stalled on it; a failing check is a precise fault of the issuing fragment. In every case the machine goes on. Where
the warp at the issue port is absent, evicted, or has no issuable lane, an encoded instruction does not run: the model
stops by name (a stop of the model's own, log 2: no step reaches it, since a warp without a fragment is given no
turn). For every encoded instruction: wherever it issues with no active lane it completes; its fragment is at the next
PC, and no name, count, uniform register, predicate or flag changes, nor any other warp, nor any memory. (R13, R20,
R42, R48, R74, R10, R11, R129, R234, R242.) -/
def Obligations.WhatHoldsBack : Prop :=
  (
  ∀ (i : Instr) (h : Hdr) (s : State) (e : Env), hdrOf i = some h → env? s h ((encode i).getD 0) = some e →
    (s.hold h (needs i s) e = some .stay → exec i s = .next s) ∧
    (∀ k, s.hold h (needs i s) e = some (.stall k) → exec i s = .next (s.stalled e.core e.slot k)) ∧
    (∀ r, s.hold h (needs i s) e = some (.raise r) → exec i s = .next (s.raise_ e r))) ∧
  (
  ∀ (i : Instr) (h : Hdr) (s : State), hdrOf i = some h → env? s h ((encode i).getD 0) = none →
    exec i s = .fault .noIssuableFragment) ∧
  (
  ∀ (i : Instr) (h : Hdr) (s : State) (e : Env), hdrOf i = some h → Ready s i e → e.act = 0 →
    ∃ t w, exec i s = .next t ∧ t.warp? e.core e.slot = some w ∧ Written e (needs i s) (fun _ => []) {} w ∧
      SameElse s t e.core e.slot)

/-- Wherever IADD, ISUB, IMUL, IMULH, IMIN, IMAX, IABS, INEG, INOT, IAND, IOR, IXOR, ISHL, ISHR, ISAR, POPC, CLZ or
BREV issues, it completes: its destination holds the exact result wrapped to the type (clamped under .sat), reads are
taken, the fragment moves on, and no other name, predicate, uniform register, flag, warp or memory changes. (R131,
R146, R42, R132.) -/
def Obligations.IntegerResults : Prop :=
  ∀ (h : Hdr) (f : VI),
    Completes (.iadd h f) (fun _ e l => let x := (e.w.int f.type f.srca l) + (e.w.intB f.type f l); intWords f.type (if f.mods = 1 then typeClamp f.type x else x)) ∧
    Completes (.isub h f) (fun _ e l => let x := (e.w.int f.type f.srca l) - (e.w.intB f.type f l); intWords f.type (if f.mods = 1 then typeClamp f.type x else x)) ∧
    Completes (.imul h f) (fun _ e l => intWords f.type ((e.w.int f.type f.srca l) * (e.w.intB f.type f l))) ∧
    Completes (.imulh h f) (fun _ e l => intWords f.type (((e.w.int f.type f.srca l) * (e.w.intB f.type f l)) / 2 ^ typeWidth f.type)) ∧
    Completes (.imin h f) (fun _ e l => intWords f.type (min (e.w.int f.type f.srca l) (e.w.intB f.type f l))) ∧
    Completes (.imax h f) (fun _ e l => intWords f.type (max (e.w.int f.type f.srca l) (e.w.intB f.type f l))) ∧
    Completes (.iabs h f) (fun _ e l => let x := ((e.w.int f.type f.srca l).natAbs : Int); intWords f.type (if f.mods = 1 then typeClamp f.type x else x)) ∧
    Completes (.ineg h f) (fun _ e l => let x := -(e.w.int f.type f.srca l); intWords f.type (if f.mods = 1 then typeClamp f.type x else x)) ∧
    Completes (.inot h f) (fun _ e l => intWords f.type (-(e.w.int f.type f.srca l) - 1)) ∧
    Completes (.iand h f) (fun _ e l => intWords f.type (bitwise f.type (· &&& ·) (e.w.int f.type f.srca l) (e.w.intB f.type f l))) ∧
    Completes (.ior h f) (fun _ e l => intWords f.type (bitwise f.type (· ||| ·) (e.w.int f.type f.srca l) (e.w.intB f.type f l))) ∧
    Completes (.ixor h f) (fun _ e l => intWords f.type (bitwise f.type (· ^^^ ·) (e.w.int f.type f.srca l) (e.w.intB f.type f l))) ∧
    Completes (.ishl h f) (fun _ e l => intWords f.type (if typeWidth f.type ≤ (e.w.wordB f l).toNat then 0 else (e.w.int f.type f.srca l) * 2 ^ (e.w.wordB f l).toNat)) ∧
    Completes (.ishr h f) (fun _ e l => intWords f.type (if typeWidth f.type ≤ (e.w.wordB f l).toNat then 0 else (e.w.int f.type f.srca l) / 2 ^ (e.w.wordB f l).toNat)) ∧
    Completes (.isar h f) (fun _ e l => intWords f.type (if typeWidth f.type ≤ (e.w.wordB f l).toNat then (if (e.w.int f.type f.srca l) < 0 then -1 else 0) else (e.w.int f.type f.srca l) / 2 ^ (e.w.wordB f l).toNat)) ∧
    Completes (.popc h f) (fun _ e l => [BitVec.ofNat 32 (popCount (e.w.int f.type f.srca l).toNat (typeWidth f.type))]) ∧
    Completes (.clz h f) (fun _ e l => [BitVec.ofNat 32 (leadZeros (e.w.int f.type f.srca l).toNat (typeWidth f.type))]) ∧
    Completes (.brev h f) (fun _ e l => intWords f.type (bitReverse (typeWidth f.type) (e.w.int f.type f.srca l).toNat : Nat))

/-- Wherever IADDC issues, its destination holds the sum of a, b and the enabled carry modulo 2^w and, with the carry
out enabled, its predicate says in each active lane whether the exact sum reaches 2^w. BFX and BFI extract and replace
the field of R149. IMAD gives the low bits of a × b + c. Nothing else changes. (Of active lanes whose results differ,
a uniform register takes the lowest one's: the model's choice, log 84.) (R147, R149, R150, R132.) -/
def Obligations.CarryFieldsAndMultiplyAdd : Prop :=
  (∀ (h : Hdr) (f : VI),
    Completes (.iaddc h f)
      (fun _ e l => intWords f.type (e.w.int f.type f.srca l + e.w.intB f.type f l +
        (if f.subop.getLsbD 3 && e.w.predOn (f.subop.extractLsb' 0 3) l then 1 else 0)))
      (fun _ e =>
    { preds := fun p l => if f.subop.getLsbD 7 = true ∧ p = (f.subop.extractLsb' 4 3).toNat then
            some (decide ((2 ^ typeWidth f.type : Int) ≤ e.w.int f.type f.srca l + e.w.intB f.type f l +
              (if f.subop.getLsbD 3 && e.w.predOn (f.subop.extractLsb' 0 3) l then 1 else 0))) else none }) ∧
    Completes (.bfx h f) (fun _ e l => intWords f.type (bfxValue f.type (e.w.int f.type f.srca l) (e.w.wordB f l))) ∧
    Completes (.bfi h f) (fun _ e l => intWords f.type (bfiValue (typeWidth f.type) (e.w.int f.type f.srca l).toNat
      (e.w.int f.type f.srcb l).toNat (f.imm.extractLsb' 0 8).toNat (f.imm.extractLsb' 8 8).toNat : Nat))) ∧
  (∀ (h : Hdr) (f : V3), Completes (.imad h f) (fun _ e l => intWords f.type
    (e.w.int f.type f.srca l * e.w.int f.type f.srcb l + e.w.int f.type f.srcc l)))

/-- Wherever LEA issues, in each active lane its destination pair holds (a + (ext(b) << sh)) mod 2^64, with b sign-
extended under .i32 and zero-extended under .b32 and sh in mods; it reads a's two names and b once each, and nothing
else changes. (R148.) -/
def Obligations.LeaResult : Prop :=
  ∀ (h : Hdr) (f : VI),
    (∀ s, (needs (.lea h f) s).reads = constituents f.srca 2 ++ constituents f.srcb 1) ∧
    (f.type = 2 → Completes (.lea h f) (fun _ e l =>
      words64 (e.w.pair f.srca l + (e.w.wordB f l).signExtend 64 <<< f.mods.toNat))) ∧
    (f.type = 6 → Completes (.lea h f) (fun _ e l =>
      words64 (e.w.pair f.srca l + (e.w.wordB f l).zeroExtend 64 <<< f.mods.toNat)))

/-- Wherever FADD, FSUB, FMUL or FFMA issues, each active lane of its destination holds the exact sum, difference,
product or a × b + c of the modified operands, rounded once to FP32 under rnd and sat with the lane's draw; nothing
else changes. (A uniform destination takes the draw of the lowest active lane: the model's choice, log 84.) (R155,
R156, R157, R101, R102, R104.) -/
def Obligations.FloatResults : Prop :=
  (∀ (h : Hdr) (f : V3),
    Completes (.fadd h f) (fun _ e l => [toF32 f.rnd.toNat f.sat (e.draw l 0) ((f32 (codeA e.w f l)).add f.rnd.toNat (f32 (codeB e.w f l)))]) ∧
    Completes (.fsub h f) (fun _ e l => [toF32 f.rnd.toNat f.sat (e.draw l 0) ((f32 (codeA e.w f l)).add f.rnd.toNat (f32 (codeB e.w f l)).neg)]) ∧
    Completes (.fmul h f) (fun _ e l => [toF32 f.rnd.toNat f.sat (e.draw l 0) ((f32 (codeA e.w f l)).mul (f32 (codeB e.w f l)))]) ∧
    Completes (.ffma h f) (fun _ e l => [toF32 f.rnd.toNat f.sat (e.draw l 0)
      (((f32 (codeA e.w f l)).mul (f32 (codeB e.w f l))).add f.rnd.toNat (f32 (e.w.word f.srcc l)))])) ∧
  (∀ (w : Warp) (f : V3) (l : Nat),
    codeA w f l = (if f.absa then w.word f.srca l &&& 0x7FFFFFFF else w.word f.srca l) ^^^ (if f.nega then 0x80000000 else 0) ∧
    codeB w f l = (if f.absb then w.word f.srcb l &&& 0x7FFFFFFF else w.word f.srcb l) ^^^ (if f.negb then 0x80000000 else 0)) ∧
  (∀ (rnd : Nat) (n n' : Bool) (m m' : Nat) (e e' : Int),
    (Machine.Num.fin n m e).mul (.fin n' m' e') = .fin (n != n') (m * m') (e + e') ∧
    (∀ lo : Int, lo = min e e' →
      let x : Int := (if n then -1 else 1) * (m * 2 ^ (e - lo).toNat : Nat) + (if n' then -1 else 1) * (m' * 2 ^ (e' - lo).toNat : Nat)
      (Machine.Num.fin n m e).add rnd (.fin n' m' e') = .fin (if x = 0 then (if n = n' then n else rnd == 3) else decide (x < 0)) x.natAbs lo))

/-- A finite value is rounded to the multiples of the spacing that its format has at its magnitude: to the nearest, a
tie to the even one; toward zero; up; down; or up where the fraction in 2^-32, rounded down, and the draw reach 2^32.
Within the largest finite value the code of that multiple results, nx is raised where the value changed, and uf where
it also lay below the smallest normal. Beyond it the result is that of the table of R102, with of and nx, and nv where
E4M3 gives its NaN. Infinities, NaN and zeros follow R102 and R96. An integer target clamps the rounded value to its
range, with nx for a rounding and of and nx for a clamp; NaN gives 0 and nv. (R95, R96, R101, R102, R103, R104, R112.)
-/
def Obligations.RoundingRules : Prop :=
  (∀ (code rnd : Nat) (sat neg : Bool) (u : Word) (m : Nat) (e : Int), code ≤ 5 → rnd ≤ 4 →
    let mant : Nat := [23, 7, 10, 3, 2, 1].getD code 0
    let bias : Nat := [127, 127, 15, 7, 15, 1].getD code 0
    let width : Nat := [32, 16, 16, 8, 8, 4].getD code 0
    let top : Nat × Int := [((0xFFFFFF : Nat), (104 : Int)), (0xFF, 120), (0x7FF, 5), (14, 5), (7, 13), (3, 1)].getD code (0, 0)
    let sign : Nat := if neg then 2 ^ (width - 1) else 0
    let most : Nat := sign + [0x7F7FFFFF, 0x7F7F, 0x7BFF, 0x7E, 0x7B, 7].getD code 0
    let infinite : Nat := if code = 3 then 0x7F else sign + [0x7F800000, 0x7F80, 0x7C00, 0, 0x7C, 0].getD code 0
    let nv : BitVec 8 := if code = 3 then 0x01 else 0
    let round := roundFloat code rnd sat u
    let q := max ((Nat.log2 m : Int) + e) (1 - bias) - mant
    let lo := min e (min q top.2)
    let d := 2 ^ (q - lo).toNat
    let t := m * 2 ^ (e - lo).toNat / d
    let r := m * 2 ^ (e - lo).toNat % d
    let up := r ≠ 0 ∧ ((rnd = 0 ∧ (d < 2 * r ∨ 2 * r = d ∧ t % 2 = 1)) ∨ (rnd = 2 ∧ neg = false) ∨ (rnd = 3 ∧ neg = true) ∨
      (rnd = 4 ∧ 2 ^ 32 ≤ r * 2 ^ 32 / d + u.toNat))
    let beyond := fun (n : Nat) => top.1 * 2 ^ (top.2 - lo).toNat < n * d
    let toInf := rnd = 0 ∨ rnd = 4 ∨ (rnd = 2 ∧ neg = false) ∨ (rnd = 3 ∧ neg = true)
    (∀ n, (up → n = t + 1) → (¬up → n = t) → m ≠ 0 →
      (¬beyond n → ((decodeFloat code (round (.fin neg m e)).1).eqv (.fin neg n q) = true ∧
        (decodeFloat code (round (.fin neg m e)).1).isNeg = neg ∧ (round (.fin neg m e)).1 < 2 ^ width ∧
        (r = 0 → (round (.fin neg m e)).2 = 0) ∧
        (r ≠ 0 → (round (.fin neg m e)).2 = if (Nat.log2 m : Int) + e < 1 - bias then 0x0C else 0x08))) ∧
      (beyond n → (sat = true ∨ code = 5 ∨ ¬toInf → round (.fin neg m e) = (most, 0x0A)) ∧
        (sat = false → code ≠ 5 → toInf → round (.fin neg m e) = (infinite, 0x0A ||| nv)))) ∧
    round (.fin neg 0 e) = (sign, 0) ∧
    round (.inf neg) = (if sat = true ∨ code = 5 then (most, 0x0A) else (infinite, nv)) ∧
    round .nan = ([0x7FC00000, 0x7FC0, 0x7E00, 0x7F, 0x7E, 0].getD code 0, if code = 5 then 0x01 else 0)) ∧
  (∀ (lo hi : Int) (rnd : Nat) (u : Word) (neg : Bool) (m : Nat) (e : Int), lo ≤ hi → rnd ≤ 4 →
    let d := 2 ^ (-e).toNat
    let t := m * 2 ^ e.toNat / d
    let r := m * 2 ^ e.toNat % d
    let up := r ≠ 0 ∧ ((rnd = 0 ∧ (d < 2 * r ∨ 2 * r = d ∧ t % 2 = 1)) ∨ (rnd = 2 ∧ neg = false) ∨ (rnd = 3 ∧ neg = true) ∨
      (rnd = 4 ∧ 2 ^ 32 ≤ r * 2 ^ 32 / d + u.toNat))
    (∀ n : Nat, (up → n = t + 1) → (¬up → n = t) →
      let x : Int := if neg then -(n : Int) else n
      roundInt lo hi rnd u (.fin neg m e) = (max lo (min hi x),
        (if r ≠ 0 then 0x08 else 0) ||| (if lo ≤ x ∧ x ≤ hi then 0 else 0x0A))) ∧
    roundInt lo hi rnd u (.inf neg) = (if neg then lo else hi, 0x0A) ∧ roundInt lo hi rnd u .nan = (0, 0x01))

/-- Wherever FMIN or FMAX issues, each active lane of its destination holds the smaller or larger of its two modified
operands bit for bit; with one NaN the other operand, with two the canonical NaN; −0 is below +0. Nothing else
changes. Wherever FCLASS issues, each active lane of its destination holds a mask with exactly one bit set: 0 for −∞,
1 negative normal, 2 negative subnormal, 3 −0, 4 +0, 5 positive subnormal, 6 positive normal, 7 +∞, 8 NaN, decided by
the sign, exponent and fraction of the FP32 code. Nothing else changes. (R158, R159.) -/
def Obligations.SelectAndClassify : Prop :=
  (
  (∀ (h : Hdr) (f : V3),
    Completes (.fmin h f) (fun _ e l => [fpPick false (codeA e.w f l) (codeB e.w f l)]) ∧
    Completes (.fmax h f) (fun _ e l => [fpPick true (codeA e.w f l) (codeB e.w f l)])) ∧
  (∀ (m : Bool) (a b : Word),
    ((f32 a).isNan = true → (f32 b).isNan = true → fpPick m a b = 0x7FC00000) ∧
    ((f32 a).isNan = true → (f32 b).isNan = false → fpPick m a b = b) ∧
    ((f32 a).isNan = false → (f32 b).isNan = true → fpPick m a b = a) ∧
    ((f32 a).isNan = false → (f32 b).isNan = false → (f32 a).lt (f32 b) = true →
      fpPick false a b = a ∧ fpPick true a b = b) ∧
    ((f32 a).isNan = false → (f32 b).isNan = false → (f32 b).lt (f32 a) = true →
      fpPick false a b = b ∧ fpPick true a b = a)) ∧
  fpPick false 0x80000000 0 = 0x80000000 ∧ fpPick false 0 0x80000000 = 0x80000000 ∧
  fpPick true 0x80000000 0 = 0 ∧ fpPick true 0 0x80000000 = 0) ∧
  (
  (∀ (h : Hdr) (f : V3), Completes (.fclass h f) (fun _ e l => [BitVec.ofNat 32 (2 ^ classBit (e.w.word f.srca l))])) ∧
  (∀ x : Word,
    let neg := x.getLsbD 31
    let ex := x.extractLsb' 23 8
    let fr := x.extractLsb' 0 23
    classBit x =
      if ex = 255 then (if fr ≠ 0 then 8 else if neg then 0 else 7)
      else if ex = 0 then (if fr = 0 then (if neg then 3 else 4) else if neg then 2 else 5)
      else if neg then 1 else 6))

/-- Wherever FRCP, FRSQ, FSQRT, FEXP2, FLOG2, FSIN, FCOS, FTANH or FSIGM issues, each active lane of its destination
holds the function's value of the modified operand, rounded once to FP32 under rnd and sat with the lane's draw;
nothing else changes. Those values are, before sat: NaN for a NaN; the results of R161 for the infinities, the zeros
and the negative numbers; and the exact points of R162. FRCP and FSQRT round the exact quotient and root: what is
rounded is their first 90 or more bits and one bit that is set exactly where more follow; FRCP of a magnitude of
2^-128 or less overflows. (Away from the exact points the value of the other seven is the statement FunctionBounds's.)
(Of active lanes whose values differ, a uniform register takes the lowest one's, and its draw: the model's choice, log
84.) (R160, R161, R162, R102.) -/
def Obligations.FunctionResults : Prop :=
  (∀ (h : Hdr) (f : V3),
    Completes (.frcp h f) (fun _ e l => [toF32 f.rnd.toNat f.sat (e.draw l 0) (rcpValue (f32 (codeA e.w f l)))]) ∧
    Completes (.fsqrt h f) (fun _ e l => [toF32 f.rnd.toNat f.sat (e.draw l 0) (sqrtValue (f32 (codeA e.w f l)))]) ∧
    Completes (.frsq h f) (fun _ e l => [toF32 f.rnd.toNat f.sat (e.draw l 0) (rsqValue (codeA e.w f l))]) ∧
    Completes (.fexp2 h f) (fun _ e l => [toF32 f.rnd.toNat f.sat (e.draw l 0) (exp2Value (codeA e.w f l))]) ∧
    Completes (.flog2 h f) (fun _ e l => [toF32 f.rnd.toNat f.sat (e.draw l 0) (log2Value (codeA e.w f l))]) ∧
    Completes (.fsin h f) (fun _ e l => [toF32 f.rnd.toNat f.sat (e.draw l 0) (sinValue (codeA e.w f l))]) ∧
    Completes (.fcos h f) (fun _ e l => [toF32 f.rnd.toNat f.sat (e.draw l 0) (cosValue (codeA e.w f l))]) ∧
    Completes (.ftanh h f) (fun _ e l => [toF32 f.rnd.toNat f.sat (e.draw l 0) (tanhValue (codeA e.w f l))]) ∧
    Completes (.fsigm h f) (fun _ e l => [toF32 f.rnd.toNat f.sat (e.draw l 0) (sigmValue (codeA e.w f l))])) ∧
  (∀ (d a : Word),
    let out := fun (x : Machine.Num) => toF32 0 false d x
    let rcp := out (rcpValue (f32 a)); let sqrt := out (sqrtValue (f32 a)); let rsq := out (rsqValue a)
    let exp2 := out (exp2Value a); let log2 := out (log2Value a); let sin := out (sinValue a); let cos := out (cosValue a)
    let tanh := out (tanhValue a); let sigm := out (sigmValue a)
    let nan : Word := 0x7FC00000; let inf : Word := 0x7F800000; let minf : Word := 0xFF800000; let mzero : Word := 0x80000000
    let one : Word := 0x3F800000; let mone : Word := 0xBF800000; let half : Word := 0x3F000000
    let row := [rcp, rsq, sqrt, exp2, log2, sin, cos, tanh, sigm]
    let neg := a.getLsbD 31
    let word := fun (n : Nat) => BitVec.ofNat 32 n
    ((f32 a).isNan = true → row = List.replicate 9 nan) ∧
    (a = minf → row = [mzero, nan, nan, 0, nan, nan, nan, mone, 0]) ∧
    (a = mzero → row = [minf, minf, mzero, one, minf, mzero, one, mzero, half]) ∧
    (a = 0 → row = [inf, inf, 0, one, minf, 0, one, 0, half]) ∧
    (a = inf → row = [0, 0, inf, inf, inf, nan, nan, one, one]) ∧
    (neg = true → a ≠ mzero → a ≠ minf → (f32 a).isNan = false → rsq = nan ∧ sqrt = nan ∧ log2 = nan) ∧
    (a ≠ 0 → a.toNat ≤ 2 ^ 21 → rcp = inf ∧ out (rcpValue (f32 (a ||| mzero))) = minf) ∧
    (∀ k, 1 ≤ k → k ≤ 254 → k % 2 = 1 → a = word (k * 2 ^ 23) → rsq = word ((381 - k) / 2 * 2 ^ 23)) ∧
    (∀ k, k < 23 → k % 2 = 1 → a = word (2 ^ k) → rsq = word ((127 + (149 - k) / 2) * 2 ^ 23)) ∧
    (∀ n : Int, -149 ≤ n → n ≤ 127 → a = out (numOfInt n) → exp2 = out (.fin false 1 n)) ∧
    (∀ n : Int, -149 ≤ n → n ≤ 127 → a = out (.fin false 1 n) → log2 = out (numOfInt n)) ∧
    ((Machine.Num.fin false 128 0).lt (f32 a) = true ∨ a = out (numOfInt 128) → exp2 = inf) ∧
    ((f32 a).lt (.fin true 150 0) = true ∨ a = out (numOfInt (-150)) → exp2 = 0) ∧
    (∀ (n : Bool) (m : Nat) (e : Int), f32 a = .fin n m e →
      let x : Int := if n then -(m : Int) else m
      let even := fun (i : Int) => i % 2 = 0
      let one_ := fun (i : Int) => if even i then one else mone
      (0 ≤ e → sin = (if n then mzero else 0) ∧ cos = one_ (x * 2 ^ e.toNat)) ∧
      (e < 0 → (2 ^ (-e).toNat : Int) ∣ x → sin = (if n then mzero else 0) ∧ cos = one_ (x / 2 ^ (-e).toNat)) ∧
      (e < 0 → ¬(2 ^ (-e).toNat : Int) ∣ x → (2 ^ (-e).toNat : Int) ∣ 2 * x →
        sin = one_ (x / 2 ^ (-e).toNat) ∧ cos = 0) ∧
      ((Machine.Num.fin false m e).lt (.fin false 10 0) = false → tanh = if n then mone else one) ∧
      ((Machine.Num.fin false m e).lt (.fin false 1 (-12)) = true → tanh = a) ∧
      (n = false → (Machine.Num.fin false m e).lt (.fin false 18 0) = false → sigm = one) ∧
      (n = true → (Machine.Num.fin false m e).lt (.fin false 104 0) = false → sigm = 0))) ∧
  (∀ (n : Bool) (m : Nat) (e : Int), m ≠ 0 →
    (∃ q r k : Nat, rcpValue (.fin n m e) = .fin n (2 * q + r) (-(k : Int) - 1 - e) ∧ q * m ≤ 2 ^ k ∧ 2 ^ k < (q + 1) * m ∧
      r ≤ 1 ∧ (r = 0 ↔ q * m = 2 ^ k) ∧ 2 ^ 89 ≤ q) ∧
    (∃ (q r : Nat) (e' : Int), sqrtValue (.fin false m e) = .fin false (2 * q + r) (e' - 91) ∧
      (let m' := if 2 * e' = e then m else 2 * m
       (2 * e' = e ∨ 2 * e' = e - 1) ∧ q * q ≤ m' * 2 ^ 180 ∧ m' * 2 ^ 180 < (q + 1) * (q + 1) ∧
         r ≤ 1 ∧ (r = 0 ↔ q * q = m' * 2 ^ 180) ∧ 2 ^ 90 ≤ q)))

/-- For every finite operand outside the special values, the value that each of the seven functions rounds is finite
and lies within the bound that R162 gives of the exact value over the real numbers, where an ulp is the distance of
the FP32 values about the exact result, 2^-149 below the normal range: below 1 ulp for FRSQ; 2 ulp for FEXP2 from
above -150 to below 128, and for FTANH; 2^-22 for FLOG2 in [0.5, 2) and 2 ulp elsewhere; 2^-22 for FSIN and FCOS; 2
ulp for FSIGM with results of 2^-126 or more and 2^-148 below. That the same operand gives the same value is the form
of the model, a function of the operand (log 9). (R162.) -/
def Obligations.FunctionBounds : Prop :=
  ∀ (a : Word) (n : Bool) (m : Nat) (e : Int), f32 a = .fin n m e → m ≠ 0 →
    let x : ℝ := (if n then -1 else 1) * (m : ℝ) * (2 : ℝ) ^ e
    let ulp := fun (y : ℝ) => (2 : ℝ) ^ (max (Int.log 2 |y|) (-126) - 23)
    let near := fun (v : Machine.Num) (y : ℝ) (strict : Bool) (b : ℝ) => ∃ (n' : Bool) (m' : Nat) (e' : Int), v = .fin n' m' e' ∧
      (let z : ℝ := (if n' then -1 else 1) * (m' : ℝ) * (2 : ℝ) ^ e'
       if strict then |z - y| < b else |z - y| ≤ b)
    let sigm := 1 / (1 + Real.exp (-x))
    (n = false → near (rsqValue a) (1 / Real.sqrt x) true (ulp (1 / Real.sqrt x))) ∧
    (-150 < x → x < 128 → near (exp2Value a) ((2 : ℝ) ^ x) false (2 * ulp ((2 : ℝ) ^ x))) ∧
    (n = false → 1 / 2 ≤ x → x < 2 → near (log2Value a) (Real.logb 2 x) false (1 / 2 ^ 22)) ∧
    (n = false → x < 1 / 2 ∨ 2 ≤ x → near (log2Value a) (Real.logb 2 x) false (2 * ulp (Real.logb 2 x))) ∧
    near (sinValue a) (Real.sin (Real.pi * x)) false (1 / 2 ^ 22) ∧
    near (cosValue a) (Real.cos (Real.pi * x)) false (1 / 2 ^ 22) ∧
    near (tanhValue a) (Real.tanh x) false (2 * ulp (Real.tanh x)) ∧
    (2 ^ (-126 : ℤ) ≤ sigm → near (sigmValue a) sigm false (2 * ulp sigm)) ∧
    (sigm < 2 ^ (-126 : ℤ) → near (sigmValue a) sigm false (2 ^ (-148 : ℤ)))

/-- Wherever one of them issues, it completes. The packed forms round each of two elements that do not interact; DOT4
gives the exact sum of four byte products and c, wrapped or clamped; WRED places each active lane's value, negated
where asked, at its position, combines positions i and i + 2^(l-1) at level l where an absent one yields the other,
and gives every active lane the value at position 0, a NaN as the canonical one. Nothing else changes. (Of active
lanes whose values differ, a uniform register takes the lowest one's, and its draw: the model's choice, log 84.)
(R164, R165, R166, R111.) -/
def Obligations.PackedAndReducingResults : Prop :=
  ∀ (h : Hdr) (f : V3),
    Completes (.hadd2 h f) (fun _ e l =>
      let one := fun (j : Nat) =>
        let half := fun (neg abs : Bool) (x : Word) =>
          let y := x.extractLsb' (16 * j) 16
          decodeFloat (halfFmt f) (((if abs then y &&& 0x7FFF else y) ^^^ (if neg then 0x8000 else 0)) : BitVec 16).toNat
        let a := half f.nega f.absa (e.w.word f.srca l)
        let b := half f.negb f.absb (e.w.word f.srcb l)
        (roundFloat (halfFmt f) f.rnd.toNat f.sat (e.draw l j) (a.add f.rnd.toNat b)).1
      [BitVec.ofNat 32 (one 0 + 65536 * one 1)]) ∧
    Completes (.hmul2 h f) (fun _ e l =>
      let one := fun (j : Nat) =>
        let half := fun (neg abs : Bool) (x : Word) =>
          let y := x.extractLsb' (16 * j) 16
          decodeFloat (halfFmt f) (((if abs then y &&& 0x7FFF else y) ^^^ (if neg then 0x8000 else 0)) : BitVec 16).toNat
        let a := half f.nega f.absa (e.w.word f.srca l)
        let b := half f.negb f.absb (e.w.word f.srcb l)
        (roundFloat (halfFmt f) f.rnd.toNat f.sat (e.draw l j) (a.mul b)).1
      [BitVec.ofNat 32 (one 0 + 65536 * one 1)]) ∧
    Completes (.hfma2 h f) (fun _ e l =>
      let one := fun (j : Nat) =>
        let half := fun (neg abs : Bool) (x : Word) =>
          let y := x.extractLsb' (16 * j) 16
          decodeFloat (halfFmt f) (((if abs then y &&& 0x7FFF else y) ^^^ (if neg then 0x8000 else 0)) : BitVec 16).toNat
        let a := half f.nega f.absa (e.w.word f.srca l)
        let b := half f.negb f.absb (e.w.word f.srcb l)
        let c := half false false (e.w.word f.srcc l)
        (roundFloat (halfFmt f) f.rnd.toNat f.sat (e.draw l j) ((a.mul b).add f.rnd.toNat c)).1
      [BitVec.ofNat 32 (one 0 + 65536 * one 1)]) ∧
    Completes (.dot4 h f) (fun _ e l => 
      let p := fun (i : Nat) => typeInt f.type ((e.w.word f.srca l).toNat / 256 ^ i) * typeInt f.type ((e.w.word f.srcb l).toNat / 256 ^ i);
      let x := typeInt (f.type + 2) (e.w.word f.srcc l).toNat + p 0 + p 1 + p 2 + p 3;
      intWords (f.type + 2) (if f.sat then typeClamp (f.type + 2) x else x)) ∧
    Completes (.wred h f) (fun _ e _ => 
      let one := fun (i : Nat) => let x := e.w.word f.srca i
        if f.nega = false then x else if f.type = 8 then x ^^^ 0x80000000 else -x
      let op := 2 * f.absa.toNat + f.absb.toNat
      let join := fun (level i : Nat) (a b : Word) =>
        if f.type = 8 then
          (if op = 0 then toF32 f.rnd.toNat f.sat (e.draw i level) ((f32 a).add f.rnd.toNat (f32 b)) else fpPick (op == 2) a b)
        else
          let x := typeInt f.type a.toNat
          let y := typeInt f.type b.toNat
          BitVec.ofInt 32 (if op = 0 then (if f.sat then typeClamp f.type (x + y) else x + y) else if op = 1 then min x y else max x y)
      let stage := fun (level : Nat) (g : Nat → Option Word) (i : Nat) => match g i, g (i + 2 ^ (level - 1)) with
        | some a, some b => some (join level i a b)
        | some a, none => some a
        | none, y => y
      let r := (stage 5 (stage 4 (stage 3 (stage 2 (stage 1 fun i => if laneOn e.act i = true then some (one i) else none)))) 0).getD 0
      [if f.type = 8 ∧ (f32 r).isNan = true then 0x7FC00000 else r])

/-- Wherever one of the four conversions issues, each active lane of its destination holds the n = 32 / max(wa, wo)
elements of its source, or one of a pair, each rounded into the slot's or the type's format and packed in order; QCVT
first multiplies by 2^(127 - code), keeps a finite overflow at the largest value whatever sat, and gives the canonical
NaN, or 0, for a NaN and for code 0xFF. The flags of every element of every active lane, and no others, are raised in
sr.aflags: those of its rounding (RoundingRules), qn for a NaN read, tern for 0b10, sc for 0xFF. Nothing else changes.
(That a value under 0xFF raises sc alone is the model's choice, log 85.) (Of active lanes whose values differ, a
uniform register takes the lowest one's, and its draw: the model's choice, log 84.) Wherever one of them issues, it
completes: PACK shifts an element of A in below B; UNPACK takes the element that B names, sign- or zero-extended;
QHIST adds to each of the 64 bins, two a lane, the number of elements of all lanes that fall in it, up to 0xFFFF: 0
for a zero, 63 for an infinity or a NaN, else the exponent plus 32 held to 1 to 62; QSCALE gives in every lane 0x7F
where bins 1 to 62 are empty, and otherwise the code of p - 31 - m, p the first bin up to which the percentile lies
and m the headroom of the output format, held to 0 to 254. Nothing else changes. (Of active lanes whose values differ,
a uniform register takes the lowest one's, and its draw: the model's choice, log 84.) (R167, R168, R172, R102, R112,
R169, R170, R171.) -/
def Obligations.FormatChanges : Prop :=
  (
  ∀ (h : Hdr) (f : V3),
    Completes (.cvt h f) (fun s e l =>
      let q := (s.launch e.w.launch).fmts.getD f.fslot.toNat 0
      let a := (q.extractLsb' 0 4).toNat; let o := (q.extractLsb' 8 4).toNat
      let wa := fmtWidth a; let wo := fmtWidth o; let n := 32 / max wa wo
      let bits := fun (j : Nat) => (e.w.word f.srca l).toNat / 2 ^ (wa * j) % 2 ^ wa
      let one := fun (j : Nat) => roundFloat o f.rnd.toNat f.sat (e.draw l j) (decodeElem a (bits j))
      let seen := fun (j : Nat) => (if (decodeElem a (bits j)).isNan = true then 0x40 else 0) |||
        (if a = 7 ∧ bits j % 4 = 2 then 0x10 else 0)
      [BitVec.ofNat 32 (((List.range n).map fun j => (one j).1 * 2 ^ (wo * j)).sum)])
      (fun s e => { flags := ((List.range 32).flatMap fun l => if laneOn e.act l = false then [] else
      let q := (s.launch e.w.launch).fmts.getD f.fslot.toNat 0
      let a := (q.extractLsb' 0 4).toNat; let o := (q.extractLsb' 8 4).toNat
      let wa := fmtWidth a; let wo := fmtWidth o; let n := 32 / max wa wo
      let bits := fun (j : Nat) => (e.w.word f.srca l).toNat / 2 ^ (wa * j) % 2 ^ wa
      let one := fun (j : Nat) => roundFloat o f.rnd.toNat f.sat (e.draw l j) (decodeElem a (bits j))
      let seen := fun (j : Nat) => (if (decodeElem a (bits j)).isNan = true then 0x40 else 0) |||
        (if a = 7 ∧ bits j % 4 = 2 then 0x10 else 0)
      (List.range n).map fun j => (one j).2 ||| seen j).foldl (· ||| ·) 0 }) ∧
    Completes (.cvti h f) (fun s e l =>
      let q := (s.launch e.w.launch).fmts.getD f.fslot.toNat 0
      let a := (q.extractLsb' 0 4).toNat
      let wa := fmtWidth a; let wo := typeWidth f.type; let n := max 1 (32 / max wa wo)
      let bits := fun (j : Nat) => (e.w.word f.srca l).toNat / 2 ^ (wa * j) % 2 ^ wa
      let one := fun (j : Nat) => roundInt (typeMin f.type) (typeMax f.type) f.rnd.toNat (e.draw l j) (decodeElem a (bits j))
      let seen := fun (j : Nat) => (if (decodeElem a (bits j)).isNan = true then (0x40 : BitVec 8) else 0)
      if n = 1 then intWords f.type (one 0).1 else
        [BitVec.ofNat 32 (((List.range n).map fun j => ((one j).1 % 2 ^ wo).toNat * 2 ^ (wo * j)).sum)])
      (fun s e => { flags := ((List.range 32).flatMap fun l => if laneOn e.act l = false then [] else
      let q := (s.launch e.w.launch).fmts.getD f.fslot.toNat 0
      let a := (q.extractLsb' 0 4).toNat
      let wa := fmtWidth a; let wo := typeWidth f.type; let n := max 1 (32 / max wa wo)
      let bits := fun (j : Nat) => (e.w.word f.srca l).toNat / 2 ^ (wa * j) % 2 ^ wa
      let one := fun (j : Nat) => roundInt (typeMin f.type) (typeMax f.type) f.rnd.toNat (e.draw l j) (decodeElem a (bits j))
      let seen := fun (j : Nat) => (if (decodeElem a (bits j)).isNan = true then (0x40 : BitVec 8) else 0)
      (List.range n).map fun j => (one j).2 ||| seen j).foldl (· ||| ·) 0 }) ∧
    Completes (.cvtf h f) (fun s e l =>
      let q := (s.launch e.w.launch).fmts.getD f.fslot.toNat 0
      let o := (q.extractLsb' 8 4).toNat
      let wa := typeWidth f.type; let wo := fmtWidth o; let n := max 1 (32 / max wa wo)
      let x := if wa = 64 then (e.w.pair f.srca l).toNat else (e.w.word f.srca l).toNat
      let one := fun (j : Nat) => roundFloat o f.rnd.toNat f.sat (e.draw l j)
        (numOfInt (typeInt f.type (x / 2 ^ (wa * j) % 2 ^ wa)))
      [BitVec.ofNat 32 (((List.range n).map fun j => (one j).1 * 2 ^ (wo * j)).sum)])
      (fun s e => { flags := ((List.range 32).flatMap fun l => if laneOn e.act l = false then [] else
      let q := (s.launch e.w.launch).fmts.getD f.fslot.toNat 0
      let o := (q.extractLsb' 8 4).toNat
      let wa := typeWidth f.type; let wo := fmtWidth o; let n := max 1 (32 / max wa wo)
      let x := if wa = 64 then (e.w.pair f.srca l).toNat else (e.w.word f.srca l).toNat
      let one := fun (j : Nat) => roundFloat o f.rnd.toNat f.sat (e.draw l j)
        (numOfInt (typeInt f.type (x / 2 ^ (wa * j) % 2 ^ wa)))
      (List.range n).map fun j => (one j).2).foldl (· ||| ·) 0 }) ∧
    Completes (.qcvt h f) (fun s e l =>
      let q := (s.launch e.w.launch).fmts.getD f.fslot.toNat 0
      let a := (q.extractLsb' 0 4).toNat; let o := (q.extractLsb' 8 4).toNat
      let wa := fmtWidth a; let wo := fmtWidth o; let n := 32 / max wa wo
      let code := (e.w.word f.srcb l).toNat % 256
      let x := fun (j : Nat) => decodeElem a ((e.w.word f.srca l).toNat / 2 ^ (wa * j) % 2 ^ wa)
      let y := fun (j : Nat) => (x j).mul (.fin false 1 (127 - (code : Int)))
      let none_ := fun (j : Nat) => code = 255 ∨ (x j).isNan = true
      let one := fun (j : Nat) => roundElem o f.rnd.toNat (if (y j).isInf then f.sat else true) (e.draw l j) (y j)
      let code_ := fun (j : Nat) => if none_ j then [0x7FC00000, 0x7FC0, 0x7E00, 0x7F, 0x7E, 0].getD o 0 else (one j).1
      let seen := fun (j : Nat) => (if code = 255 then (0x20 : BitVec 8) else 0) ||| (if (x j).isNan = true then 0x40 else 0) |||
        (if (x j).isNan = true ∧ (o = 5 ∨ o = 6) then 0x01 else 0) ||| (if none_ j then 0 else (one j).2)
      [BitVec.ofNat 32 (((List.range n).map fun j => code_ j * 2 ^ (wo * j)).sum)])
      (fun s e => { flags := ((List.range 32).flatMap fun l => if laneOn e.act l = false then [] else
      let q := (s.launch e.w.launch).fmts.getD f.fslot.toNat 0
      let a := (q.extractLsb' 0 4).toNat; let o := (q.extractLsb' 8 4).toNat
      let wa := fmtWidth a; let wo := fmtWidth o; let n := 32 / max wa wo
      let code := (e.w.word f.srcb l).toNat % 256
      let x := fun (j : Nat) => decodeElem a ((e.w.word f.srca l).toNat / 2 ^ (wa * j) % 2 ^ wa)
      let y := fun (j : Nat) => (x j).mul (.fin false 1 (127 - (code : Int)))
      let none_ := fun (j : Nat) => code = 255 ∨ (x j).isNan = true
      let one := fun (j : Nat) => roundElem o f.rnd.toNat (if (y j).isInf then f.sat else true) (e.draw l j) (y j)
      let code_ := fun (j : Nat) => if none_ j then [0x7FC00000, 0x7FC0, 0x7E00, 0x7F, 0x7E, 0].getD o 0 else (one j).1
      let seen := fun (j : Nat) => (if code = 255 then (0x20 : BitVec 8) else 0) ||| (if (x j).isNan = true then 0x40 else 0) |||
        (if (x j).isNan = true ∧ (o = 5 ∨ o = 6) then 0x01 else 0) ||| (if none_ j then 0 else (one j).2)
      (List.range n).map fun j => seen j).foldl (· ||| ·) 0 })) ∧
  (
  ∀ (h : Hdr) (f : V3),
    Completes (.pack h f) (fun _ e l => [BitVec.ofNat 32 ((e.w.word f.srcb l).toNat * 2 ^ packWidth f.type +
      (e.w.word f.srca l).toNat % 2 ^ packWidth f.type)]) ∧
    Completes (.unpack h f) (fun _ e l =>
      let x := elemAt (packWidth f.type) (e.w.word f.srca l).toNat ((e.w.word f.srcb l).toNat % (32 / packWidth f.type))
      [if f.type = 0 ∨ f.type = 1 then BitVec.ofInt 32 (typeInt f.type x) else BitVec.ofNat 32 x]) ∧
    Completes (.qhist h f) (fun s e l =>
      let a := (((s.launch e.w.launch).fmts.getD f.fslot.toNat 0).extractLsb' 0 4).toNat
      let w := fmtWidth a
      let bin := fun (x : Machine.Num) => match x with
        | .fin _ m e => if m = 0 then 0 else if (Nat.log2 m : Int) + e ≤ -31 then 1 else if 30 ≤ (Nat.log2 m : Int) + e then 62
          else ((Nat.log2 m : Int) + e + 32).toNat
        | _ => 63
      let hits := fun (b : Nat) => (((List.range 32).flatMap fun l => (List.range (32 / w)).map fun j =>
        bin (decodeElem a ((e.w.word f.srca l).toNat / 2 ^ (w * j) % 2 ^ w))).filter (· == b)).length
      let half := fun (b : Nat) => min (((e.w.word f.srcc l).toNat / 65536 ^ (b % 2) % 65536) + hits b) 0xFFFF
      [BitVec.ofNat 32 (half (2 * l) + 65536 * half (2 * l + 1))]) ∧
    (∀ (s : State) (e : Env), Ready s (.qscale h f) e → ∃ t w v, exec (.qscale h f) s = .next t ∧
      t.warp? e.core e.slot = some w ∧ Written e (needs (.qscale h f) s) (fun _ => [v]) {} w ∧ SameElse s t e.core e.slot ∧
      (let q := (s.launch e.w.launch).fmts.getD f.fslot.toNat 0
       let bin := fun (b : Nat) => (e.w.word f.srca (b / 2)).toNat / 65536 ^ (b % 2) % 65536
       let upTo := fun (b : Nat) => ((List.range b).map fun i => bin (i + 1)).sum
       let m : Int := match (q.extractLsb' 8 4).toNat with
         | 2 => 15 | 3 => 8 | 4 => 15 | 5 => 2 | _ => 6
       let pct := (q.extractLsb' 19 16).toNat
       (upTo 62 = 0 → v = 0x7F) ∧
       (upTo 62 ≠ 0 → ∃ t p : Nat, 65536 * t < upTo 62 * pct + 65536 + (if pct = 0 then 1 else 0) ∧ upTo 62 * pct ≤ 65536 * t ∧ 1 ≤ t ∧
         1 ≤ p ∧ p ≤ 62 ∧ t ≤ upTo p ∧ (∀ b, b < p → upTo b < t) ∧
         v = BitVec.ofNat 32 (max 0 (min 254 ((p : Int) - 32 + 1 - m + 127))).toNat))))

/-- Wherever one of them issues, it completes: MOV gives b, SEL the source that its predicate selects, SHFL the bits
of source A in the lane of R145 as they stood at issue, BCAST those of its named lane, KMOV those of the first or
named lane in a uniform register. Nothing else changes. Where nothing else holds it back, SHFL faults REG_EXHAUSTED in
the active lanes whose own reads of a source their counts do not allow and in those that fetch source A from a lane
whose count of it is zero, with the first name that fails; where there is none it has no such fault. (Of active lanes
whose results differ, a uniform register takes the lowest one's: the model's choice, log 84.) (R144, R145, R41, R97.)
-/
def Obligations.MoveResults : Prop :=
  ∀ (h : Hdr) (f : VI),
    Completes (.mov h f) (fun _ e l => e.w.bitsB f (typeNames f.type) l) ∧
    Completes (.sel h f) (fun _ e l =>
      if e.w.predOn (f.subop.extractLsb' 0 3) l != f.subop.getLsbD 3 then e.w.bits f.srca (typeNames f.type) l
      else e.w.bitsB f (typeNames f.type) l) ∧
    Completes (.shfl h f) (fun _ e l =>
      let b := (e.w.wordB f l).toNat
      let j : Int := if f.subop.extractLsb' 0 2 = 0 then (b % 32 : Nat) else if f.subop.extractLsb' 0 2 = 1 then (l : Int) - b
        else if f.subop.extractLsb' 0 2 = 2 then (l : Int) + b else (l ^^^ (b % 32) : Nat)
      e.w.bits f.srca (typeNames f.type) (if j < 0 ∨ 31 < j ∨ laneOn e.act j.toNat = false then l else j.toNat)) ∧
    Completes (.bcast h f) (fun _ e _ => e.w.bits f.srca (typeNames f.type) ((e.w.wordB f 0).toNat % 32)) ∧
    Completes (.kmov h f) (fun _ e _ => e.w.bits f.srca (typeNames f.type)
      (if f.imm.getLsbD 5 then lowLane e.act else f.imm.toNat % 32)) ∧
    (∀ (s : State) (e : Env), env? s h ((encode (.shfl h f)).getD 0) = some e → e.w.held = false →
      e.w.busyPred h.guard.toNat = false → (needs (.shfl h f) s).fields = true → e.zero = 0 → ¬(h.guard = 7 ∧ h.negate = true) →
      s.busyOf e (needs (.shfl h f) s) = none →
      let reads := (needs (.shfl h f) s).reads
      let from_ := fun (l : Nat) =>
        let b := (e.w.wordB f l).toNat
        let j : Int := if f.subop.extractLsb' 0 2 = 0 then (b % 32 : Nat) else if f.subop.extractLsb' 0 2 = 1 then (l : Int) - b
          else if f.subop.extractLsb' 0 2 = 2 then (l : Int) + b else (l ^^^ (b % 32) : Nat)
        if j < 0 ∨ 31 < j ∨ laneOn e.act j.toNat = false then l else j.toNat
      let bad := fun (d l : Nat) => laneOn e.act l = true ∧ isV d = true ∧
        ((e.w.count d l ≠ 7 ∧ (e.w.count d l).toNat < readsOf reads d) ∨
          (d ∈ rd f.srca (typeNames f.type) ∧ e.w.count d (from_ l) = 0))
      ((∀ d ∈ reads, ∀ l, l < 32 → ¬bad d l) → (needs (.shfl h f) s).entry e = none) ∧
      (∀ before d after, reads = before ++ d :: after → (∃ l, l < 32 ∧ bad d l) → (∀ x ∈ before, ∀ l, l < 32 → ¬bad x l) →
        ∃ r : Raise, exec (.shfl h f) s = .next (s.raise_ e r) ∧ r.code = 0x01 ∧ r.info = BitVec.ofNat 32 d ∧ r.addr = 0 ∧
          ∀ l, l < 32 → (laneOn r.lanes l = true ↔ ∃ x ∈ reads, bad x l)))

/-- Wherever RDSR issues its destination holds the named special register as it stands at issue; by the number of R77,
whole under .b64 and either half of a 64-bit one under .b32; RDSR.clr gives sr.aflags and, with an active lane, clears
it in the same act; TIME gives the die's time base, and orders the warp after its ended operations whose status it has
not read, so that L1 becomes invalid where there is one. Nothing else changes. With an active lane, TIME issues only
when the warp's four class counters are zero and no destination of an earlier instruction of the warp is still owed.
(R151, R152, R77, R137.) -/
def Obligations.SpecialRegisters : Prop :=
  (
  ∀ (h : Hdr) (f : VI),
    Completes (.rdsr h f) (fun s e l =>
      let g := (s.launch e.w.launch).grid
      let time := (s.time : Int) + s.dieDev.getD (e.core / 64) 0
      let ph := time.toNat % 64000
      let k := s.core e.core
      let x := e.w.ctx
      let isBed := (k.bedrock x).map (·.1) = some e.slot
      let value := fun (n : Nat) => (match n with
        | 448 => BitVec.ofNat 64 l
        | 449 => BitVec.ofNat 64 e.w.number
        | 450 | 451 => e.w.wid
        | 452 => BitVec.ofNat 64 (((s.blocks.get? e.w.block).map (·.index)).getD 0)
        | 453 => BitVec.ofNat 64 e.core
        | 454 => BitVec.ofNat 64 (e.core % 8)
        | 455 => BitVec.ofNat 64 (e.core / 8)
        | 456 | 457 => BitVec.ofNat 64 time.toNat
        | 458 => e.w.mrow.zeroExtend 64
        | 459 => (BitVec.ofNat 32 (ph + ph / 4000 * 65536 + (if ph % 4000 < 2000 then 1048576 else 0))).zeroExtend 64
        | 460 => BitVec.ofNat 64 (if isBed then min k.freeSlots (k.quota x - k.used x)
          else min (k.freeSlots - s.reserves e.core) (k.quota x - s.reserve e.core x - k.used x))
        | 461 => (match k.bedrock x with
          | none => 0
          | some (b, w) => BitVec.ofNat 32 ((if b = e.slot then 2147483648 else 0) + s.reserve e.core x * 65536 +
            w.seq.toNat % 65536)).zeroExtend 64
        | 462 => BitVec.ofNat 64 (s.partOfCore e.core)
        | 463 => if 256 ≤ (s.ctx x).fn then 0xFFFFFFFF else BitVec.ofNat 64 (s.ctx x).fn
        | 464 => BitVec.ofNat 64 g.1
        | 465 => BitVec.ofNat 64 g.2.1
        | 466 => BitVec.ofNat 64 g.2.2
        | 467 => BitVec.ofNat 64 (s.launch e.w.launch).nwarps
        | _ => e.w.aflags.zeroExtend 64 : BitVec 64)
      let v := value f.srca.toNat
      if f.type = 7 then [v.extractLsb' 0 32, v.extractLsb' 32 32]
      else if f.srca = 451 ∨ f.srca = 457 then [v.extractLsb' 32 32] else [v.extractLsb' 0 32]) ∧
    Completes (.rdsrClr h f) (fun _ e _ => [e.w.aflags.zeroExtend 32]) (fun _ e => { keep := if e.act = 0 then 0xFF else 0 }) ∧
    (∀ (s : State) (e : Env), Ready s (.time h f) e → ∃ t w x, exec (.time h f) s = .next t ∧ t.warp? e.core e.slot = some w ∧
      Written e (needs (.time h f) s) (fun _ =>
        words64 (BitVec.ofNat 64 ((s.time : Int) + s.dieDev.getD (e.core / 64) 0).toNat)) {} x ∧
      w = (if e.act = 0 then x else { x with unread := [] }) ∧ SameElse s t e.core e.slot ∧
      (t.core e.core).l1 = if e.act ≠ 0 ∧ x.unread ≠ [] then [] else (s.core e.core).l1)) ∧
  (
  ∀ (h : Hdr) (f : VI) (s : State) (e : Env), Ready s (.time h f) e → e.act ≠ 0 →
    e.w.loads = 0 ∧ e.w.stores = 0 ∧ e.w.copies = 0 ∧ e.w.tiles = 0 ∧
    ∀ d ∈ s.owedDests e.core e.slot e.w, d.1.name = 511)

/-- Wherever one of them issues, it completes: PSETI and PSETF write the comparison combined with their predicate;
PLOP its table's bit; PVOTE the vote of the active lanes, or the ballot mask; PMOV.tov the predicates of each lane
with bit 7 set, PMOV.fromv the masked predicates. Predicates of other lanes, and everything else, stay. (Of active
lanes whose results differ, a uniform register takes the lowest one's: the model's choice, log 84.) (R82, R132, R141,
R142, R163.) -/
def Obligations.PredicateResults : Prop :=
  ∀ (h : Hdr) (f : VI),
    Completes (.pseti h f) (fun _ _ _ => []) (fun _ e =>
    { preds := fun p l => if p = psetDest f then
          some (combine (psetHow f) (cmpInt (psetCode f) (e.w.int f.type f.srca l) (e.w.intB f.type f l))
            (e.w.predOn (psetWith f) l)) else none }) ∧
    Completes (.psetf h f) (fun _ _ _ => []) (fun _ e =>
    { preds := fun p l => if p = psetDest f then
          some (combine (psetHow f) (cmpNum (psetCode f) (f32 (e.w.word f.srca l)) (f32 (e.w.wordB f l)))
            (e.w.predOn (psetWith f) l)) else none }) ∧
    Completes (.plop h f) (fun _ _ _ => []) (fun _ e =>
    { preds := fun p l => if p = (f.subop.extractLsb' 9 3).toNat then
          some (f.imm.getLsbD ((if e.w.predOn (f.subop.extractLsb' 0 3) l then 4 else 0) +
            (if e.w.predOn (f.subop.extractLsb' 3 3) l then 2 else 0) + (if e.w.predOn (f.subop.extractLsb' 6 3) l then 1 else 0)))
          else none }) ∧
    (f.subop.extractLsb' 6 2 = 3 → Completes (.pvote h f) (fun _ e _ => [e.w.pred (f.subop.extractLsb' 0 3).toNat &&& e.act])) ∧
    (f.subop.extractLsb' 6 2 ≠ 3 → Completes (.pvote h f) (fun _ _ _ => []) (fun _ e =>
    { preds := fun p _ =>
          let votes := e.w.pred (f.subop.extractLsb' 0 3).toNat &&& e.act
          if p = (f.subop.extractLsb' 3 3).toNat then some (
            if f.subop.extractLsb' 6 2 = 0 then votes == e.act else if f.subop.extractLsb' 6 2 = 1 then votes != 0
            else votes == e.act || votes == 0) else none })) ∧
    Completes (.pmovTov h f) (fun _ e l => [BitVec.ofNat 32 (predBits e.w l)]) ∧
    Completes (.pmovFromv h f) (fun _ _ _ => []) (fun _ e =>
    { preds := fun p l =>
          if p < 7 ∧ f.imm.getLsbD p = true then some ((e.w.word f.srca l).getLsbD p) else none })

/-- Wherever one of them issues, each active lane's count of its name becomes what the table of R40 gives: DROP n
takes n away, CLEAR and RELEASE give zero, HOLD held, RECOUNT the named count; no value, other count, predicate or
flag changes. The table of R40: a read fails in a lane at zero or with fewer reads left than the instruction takes,
and a held lane stays held; DROP n fails at zero, held or fewer than n, and RELEASE unless held, with REG_OVERDROP;
HOLD and RECOUNT fail at zero with REG_EXHAUSTED; CLEAR never fails; the fault names the lanes that fail. An
instruction passes its count checks exactly where every source can be read so often, each lane of a destination that
it writes with a count is at zero or held once its sources are read, and its new names keep the warp within H. (R40,
R43, R91, R143, R39, R41.) -/
def Obligations.CountRules : Prop :=
  (
  ∀ (h : Hdr) (f : VI),
    let set := fun (k : BitVec 3 → BitVec 3) (e : Env) =>
      ({ counts := fun d l => if d = h.dest.toNat then some (k (e.w.count d l)) else none } : Extra)
    Completes (.drop h f) (fun _ _ _ => []) (fun _ => set fun c => c - h.count) ∧
    Completes (.clear h f) (fun _ _ _ => []) (fun _ => set fun _ => 0) ∧
    Completes (.release h f) (fun _ _ _ => []) (fun _ => set fun _ => 0) ∧
    Completes (.hold h f) (fun _ _ _ => []) (fun _ => set fun _ => 7) ∧
    Completes (.recount h f) (fun _ _ _ => []) (fun _ => set fun _ => h.count)) ∧
  (
  (∀ (w : Warp) (rs : List Nat) (n l : Nat), isV n = true →
    (afterReads (w.count n l) (readsOf rs n) = none ↔
      w.count n l ≠ 7 ∧ (w.count n l).toNat < readsOf rs n)) ∧
  (∀ (k : Nat), 0 < k → afterReads 7 k = some 7) ∧
  (∀ (c n : BitVec 3), dropRule n c = none ↔ (c = 7 ∨ c.toNat < n.toNat)) ∧
  (∀ c : BitVec 3, releaseRule c = none ↔ c ≠ 7) ∧
  (∀ (c k : BitVec 3), recountRule k c = none ↔ c = 0) ∧
  (∀ (h : Hdr) (f : VI) (i : Instr) (s : State) (e : Env),
    let d := h.dest.toNat
    let bad := fun (l : Nat) => laneOn e.act l = true ∧ (match i with
      | .drop _ _ => e.w.count d l = 7 ∨ (e.w.count d l).toNat < h.count.toNat
      | .release _ _ => e.w.count d l ≠ 7
      | .clear _ _ => False
      | _ => e.w.count d l = 0)
    (i = .drop h f ∨ i = .release h f ∨ i = .clear h f ∨ i = .hold h f ∨ i = .recount h f) →
      ((∀ l, l < 32 → ¬bad l) → (needs i s).entry e = none) ∧
      ((∃ l, l < 32 ∧ bad l) → ∃ r, (needs i s).entry e = some r ∧ (∀ l, l < 32 → (laneOn r.lanes l = true ↔ bad l)) ∧
        r.code = (if i = .drop h f ∨ i = .release h f then 0x03 else 0x01) ∧ r.info = BitVec.ofNat 32 (d + 512))) ∧
  (∀ (w : Warp) (hwm : Nat) (act : Mask) (reads dests : List Nat) (count : BitVec 3), w.countCheck hwm act reads dests count = none ↔
    (∀ d ∈ reads, ∀ l, l < 32 → laneOn act l = true → isV d = true →
      w.count d l = 7 ∨ readsOf reads d ≤ (w.count d l).toNat) ∧
    (∀ d ∈ dests, ∀ l, l < 32 → laneOn act l = true → isV d = true → count ≠ 0 →
      w.count d l = 7 ∨ (w.count d l).toNat = readsOf reads d ∨ (w.count d l = 0)) ∧
    (w.newNames dests count act = [] ∨ w.names.length + (w.newNames dests count act).length ≤ hwm)))

/-- Wherever NOP issues, or WAIT, or BKPT in a context that does not enable debugging, the fragment moves to the next
PC and nothing else of the warp or of any other changes; WAIT with an active lane issues only when each class counter
is at or below its field, and where its field for engine operations or tiles is below 63 it covers the ended
operations of that kind whose status is still to be read: L1 becomes invalid where there is one. Wherever YIELD
issues, the fragment moves to the next PC. With an active lane under a soft pre-emption request it stops there;
without a request the warp goes to the end of its core's active set; with no active lane nothing else happens. No
other warp and no memory changes. Wherever SLEEP issues with an active lane, those lanes wait until the die's time
base reaches its value at issue plus the delay (64 ticks for each unit of the immediate, or the uniform register's
ticks); the fragment's other lanes move on (the model's reading of R129, log 86). With no active lane the fragment
moves on. No name, predicate, other warp or memory changes. (R136, R138, R140, R19, R336, R129, R139.) -/
def Obligations.PlainControl : Prop :=
  (
  ∀ (h : Hdr) (f : CF),
    Completes (.nop h f) (fun _ _ _ => []) ∧
    (∀ (s : State) (e : Env), Ready s (.wait h f) e → ∃ t w x, exec (.wait h f) s = .next t ∧ t.warp? e.core e.slot = some w ∧
      Written e (needs (.wait h f) s) (fun _ => []) {} x ∧ SameElse s t e.core e.slot ∧
      (let covered := fun (u : Bool × Nat) => e.act ≠ 0 ∧ (if u.1 then f.wtile ≠ 63 else f.wcopy ≠ 63)
       (∃ us, us = e.w.unread.filter (fun u => !decide (covered u)) ∧ w = { x with unread := us }) ∧
       (t.core e.core).l1 = if ∃ u ∈ e.w.unread, covered u then [] else (s.core e.core).l1)) ∧
    (∀ (s : State) (e : Env), Ready s (.wait h f) e → e.act ≠ 0 →
      e.w.loads ≤ f.wload.toNat ∧ e.w.stores ≤ f.wstore.toNat ∧ e.w.copies ≤ f.wcopy.toNat ∧ e.w.tiles ≤ f.wtile.toNat) ∧
    (∀ (s : State) (e : Env), Ready s (.bkpt h f) e → (s.ctx e.w.ctx).desc.debug = false →
      ∃ t w, exec (.bkpt h f) s = .next t ∧ t.warp? e.core e.slot = some w ∧
        Written e (needs (.bkpt h f) s) (fun _ => []) {} w ∧ SameElse s t e.core e.slot)) ∧
  (
  ∀ (h : Hdr) (f : CF) (s : State) (e : Env), Ready s (.yield h f) e →
    ∃ t w x, exec (.yield h f) s = .next t ∧ t.warp? e.core e.slot = some w ∧
      Written e (needs (.yield h f) s) (fun _ => []) {} x ∧
      (w = if e.act ≠ 0 ∧ (s.ctx e.w.ctx).pre = 1 then { x with waits := x.waits ++ [{ lanes := e.frag, kind := .yield, since := s.cycle }] }
        else x) ∧
      (t.core e.core).active = (if e.act ≠ 0 ∧ (s.ctx e.w.ctx).pre ≠ 1 ∧ (s.core e.core).active.contains e.slot then
        (s.core e.core).active.filter (· != e.slot) ++ [e.slot] else (s.core e.core).active) ∧
      t = { s with cores := t.cores, parts := t.parts } ∧ (∀ k, k ≠ e.core → t.core k = s.core k) ∧
      (∀ o, o ≠ e.slot → t.warp? e.core o = s.warp? e.core o)) ∧
  (
  ∀ (h : Hdr) (f : CF) (s : State) (e : Env), Ready s (.sleep h f) e →
    ∃ t w, exec (.sleep h f) s = .next t ∧ t.warp? e.core e.slot = some w ∧ Named e (needs (.sleep h f) s) (fun _ => []) {} w ∧
      SameElse s t e.core e.slot ∧
      (∀ l, l < 32 → w.pc l = if laneOn e.frag l ∧ (e.act = 0 ∨ laneOn e.act l = false) then nextPc e.pc
        else e.w.wakeZero.pc l) ∧
      (let d := if f.src = 511 then 64 * f.imm.toNat else (e.w.val f.src.toNat 0).toNat
       w.waits = if e.act = 0 then e.w.wakeZero.waits
        else e.w.wakeZero.waits ++ [{ lanes := e.act, kind := .sleep (((s.time : Int) + s.dieDev.getD (e.core / 64) 0).toNat + d) (d == 0), since := s.cycle }]))

/-- Wherever TRAP issues, or BKPT in a context that enables debugging, the whole fragment moves to the next PC; with
an active lane the active lanes are suspended there as past their instruction, and a record of kind 0 with code 0x30,
the trapping PC, the active lanes and the immediate is posted, with flag bit 7 set for BKPT. Nothing else changes.
(R140, R329.) -/
def Obligations.SoftwareTraps : Prop :=
  ∀ (h : Hdr) (f : CF) (s : State) (e : Env) (i : Instr),
    (i = .trap h f ∨ (i = .bkpt h f ∧ (s.ctx e.w.ctx).desc.debug = true)) → Ready s i e →
    ∃ t w x, exec i s = .next t ∧ t.warp? e.core e.slot = some w ∧ Written e (needs i s) (fun _ => []) {} x ∧
      (w = if e.act = 0 then x else { x with traps := x.traps ++
        [{ lanes := e.act, code := 0x30, past := true, bkpt := !decide (i = .trap h f) }] }) ∧
      (e.act = 0 → t.evHeld = s.evHeld) ∧
      (e.act ≠ 0 → ∃ r : EvRec, t.evHeld = holdRecord { fn := (s.ctx e.w.ctx).fn, cycle := s.cycle, rid := s.ridseq, record := r } s.evHeld ∧
        r.kind = 0 ∧ r.code = 0x30 ∧ r.core = BitVec.ofNat 8 e.core ∧
        r.wid = e.w.wid ∧ r.pc = e.pc ∧ r.fmask = e.act ∧ r.lanemask = e.act ∧ r.info = f.imm.zeroExtend 32 ∧
        r.flags = if i = .trap h f then 0 else 0x80) ∧
      t = { s with cores := t.cores, parts := t.parts, evHeld := t.evHeld } ∧
      (∀ k, k ≠ e.core → t.core k = s.core k) ∧ (∀ o, o ≠ e.slot → t.warp? e.core o = s.warp? e.core o)

/-- Wherever a transfer issues, each active lane's PC is its target, the direct one of the word or the low 48 bits of
its own pair; the fragment's other lanes are at the next PC; CALL and CALLI write the next PC, zero-extended, to the
link; lanes of siblings, other names, predicates, flags, other warps and memory stay, whether or not the target's line
passes its check. A transfer of live lanes with nonzero high target bits, nonzero bits [5:3] or a slot above 4 takes
BAD_TARGET; one whose line is a data line takes LINE_DATA; one to a slot that its line does not mark takes BAD_TARGET;
each with its lanes at the target. A line that passes leaves them there with no trap. (R84, R129, R134, R153, R67,
R68, R69.) -/
def Obligations.TransfersAndChecks : Prop :=
  (
  ∀ (h : Hdr) (f : CF),
    Transfers (.bra h f) (fun e _ => e.pc - BitVec.ofNat 48 (e.pc.toNat % 8) + 64 * f.loff.signExtend 48 + f.tslot.zeroExtend 48) (fun _ => []) ∧
    Transfers (.bri h f) (fun e l => (e.w.pair f.src l).extractLsb' 0 48) (fun _ => []) ∧
    Transfers (.call h f) (fun e _ => e.pc - BitVec.ofNat 48 (e.pc.toNat % 8) + 64 * f.loff.signExtend 48 + f.tslot.zeroExtend 48) (fun e => words64 ((nextPc e.pc).zeroExtend 64)) ∧
    Transfers (.calli h f) (fun e l => (e.w.pair f.src l).extractLsb' 0 48) (fun e => words64 ((nextPc e.pc).zeroExtend 64)) ∧
    Transfers (.ret h f) (fun e l => (e.w.pair f.src l).extractLsb' 0 48) (fun _ => [])) ∧
  (
  ∀ (s : State) (c slot : Nat) (w : Warp) (lanes : Mask) (pc source : PC) (high : BitVec 16),
    s.warp? c slot = some w → lanes &&& w.live ≠ 0 →
    ((high ≠ 0 ∨ pc.toNat / 8 % 8 ≠ 0 ∨ 4 < pc.toNat % 8) →
      ∃ x, (s.transfer c slot lanes pc source high).warp? c slot = some x ∧
        x.traps = w.traps ++ [{ lanes := lanes &&& w.live, code := 0x08, past := false }] ∧
        ∀ l, l < 32 → laneOn (lanes &&& w.live) l = true → x.pc l = pc) ∧
    (¬(high ≠ 0 ∨ pc.toNat / 8 % 8 ≠ 0 ∨ 4 < pc.toNat % 8) → ∀ (l : Line) (s2 : State) (a : Arrival),
      a = { source := source, high := high } →
      (let w1 := (w.setPcs (lanes &&& w.live) fun _ => pc).clearArrivals (lanes &&& w.live)
       (s.setWarp c slot { w1 with arrivals := (lanesOf (lanes &&& w.live)).foldl (fun t i => t.put i a) w1.arrivals }).readLine
        c w.ctx pc false = (.ok l, s2)) →
      (l.kind ≠ 0 → ∃ x, (s.transfer c slot lanes pc source high).warp? c slot = some x ∧
        x.traps = w.traps ++ [{ lanes := lanes &&& w.live, code := 0x07, past := false }]) ∧
      (l.kind = 0 → l.word.getLsbD (pc.toNat % 8) = false →
        ∃ x, (s.transfer c slot lanes pc source high).warp? c slot = some x ∧
          x.traps = w.traps ++ [{ lanes := lanes &&& w.live, code := 0x08, past := false }]) ∧
      (l.kind = 0 → l.word.getLsbD (pc.toNat % 8) = true →
        ∃ x, (s.transfer c slot lanes pc source high).warp? c slot = some x ∧ x.traps = w.traps ∧
          ∀ l, l < 32 → laneOn (lanes &&& w.live) l = true → x.pc l = pc)))

/-- Wherever EXIT issues it completes. Its active lanes are no longer live and hold no count in any name, and no wait
and no trap keeps one; the fragment's other lanes move on. While another lane lives and nothing of the warp is
outstanding, every other lane keeps its counts, and nothing else of the machine changes; with accesses outstanding
each goes on as it was, but that the exiting lanes of a load are not replayed, and memory does not change. With the
last lane the warp leaves both sets of its core and, where no entry of its log has still to move to the store-fault
area, holds no name; with nothing left to perform it has dropped, with a zero flag word, every group of its block that
it is a member of and had not dropped, in this cycle or, behind operations that come after them in the order of R30,
in the next, and no other entry changes; while a store of it is still to be performed no drop has been made (that the
drops follow the earlier accesses is the model's reading, log 48). (R9, R29, R43, R135.) -/
def Obligations.ExitEffect : Prop :=
  ∀ (h : Hdr) (f : CF) (s : State) (e : Env), Ready s (.exit h f) e →
    ∃ t, exec (.exit h f) s = .next t ∧
     (e.w.live &&& ~~~e.act = 0 → e.slot ∉ (t.core e.core).active ∧ e.slot ∉ (t.core e.core).pending) ∧
     (e.w.live &&& ~~~e.act ≠ 0 ∨ (∀ x ∈ e.w.log, x.2.fmask = 0) → ∃ w, t.warp? e.core e.slot = some w ∧
      w.live = e.w.live &&& ~~~e.act ∧
      (∀ d l, l < 32 → laneOn e.act l = true → w.count d l = 0) ∧
      (∀ x ∈ w.waits, x.lanes &&& e.act = 0) ∧ (∀ x ∈ w.traps, x.lanes &&& e.act = 0) ∧
      (e.act = 0 → Written e (needs (.exit h f) s) (fun _ => []) {} w ∧ SameElse s t e.core e.slot) ∧
      (e.w.live &&& ~~~e.act ≠ 0 → t.dev = s.dev ∧ t.dram = s.dram ∧ t.host = s.host ∧ t.spad = s.spad ∧ t.lode = s.lode ∧
        t.groups = s.groups ∧ t.engs = s.engs ∧ (∀ k, k ≠ e.core → t.core k = s.core k) ∧
        (∀ o, o ≠ e.slot → t.warp? e.core o = s.warp? e.core o) ∧
        (∀ l, l < 32 → laneOn e.act l = false → w.pc l = if laneOn e.frag l then nextPc e.pc else e.w.wakeZero.pc l) ∧
        (e.w.accs = [] → (∀ d l, l < 32 → w.count d l = if laneOn e.act l then 0 else e.w.count d l) ∧
          (∀ p, w.pred p = e.w.pred p) ∧ w.kregs = e.w.kregs ∧ w.aflags = e.w.aflags ∧ SameElse s t e.core e.slot) ∧
        (∀ n a, w.accs.get? n = some a → ∃ b, e.w.accs.get? n = some b ∧ a.op = b.op ∧ a.dest = b.dest ∧
          a.lanes.map (fun l => (l.lane, l.addr, l.data)) = b.lanes.map (fun l => (l.lane, l.addr, l.data)) ∧
          ∀ (j : Nat) (x y : AccLane), a.lanes[j]? = some x → b.lanes[j]? = some y →
            x.stage = y.stage ∨ (laneOn e.act y.lane = true ∧ y.stage = .logged ∧ x.stage = .done))) ∧
      (e.w.live &&& ~~~e.act = 0 → w.names = [] ∧
        (e.w.accs = [] → s.owesAccess e.core e.w = false →
          (∀ g g' k, s.groupKey? e.w g = some k → s.groupKey? e.w g' = some k → g = g') →
          (∀ g k x, s.group? e.w g = some (k, x) → t.groups.get? k =
            some (if x.members.getLsbD e.w.number ∧ ¬x.dropped.getLsbD e.w.number then x.drop e.w.number 0 else x)) ∧
          (∀ k, (∀ g, s.groupKey? e.w g ≠ some k) → t.groups.get? k = s.groups.get? k) ∧
          t = { s with cores := t.cores, parts := t.parts, groups := t.groups, cycle := t.cycle, dropAt := t.dropAt } ∧
          ((t.cycle = s.cycle ∧ t.dropAt = s.dropAt) ∨
            (t.dropAt = some (t.cycle, e.core, e.slot) ∧ (t.cycle = s.cycle ∨ t.cycle = s.cycle + 1))) ∧
          (∀ c, c ≠ e.core → t.core c = s.core c) ∧
          (∀ o, o ≠ e.slot → t.warp? e.core o = s.warp? e.core o)) ∧
        ((∃ n a, e.w.accs.get? n = some a ∧ a.op = .st ∧ ∃ l ∈ a.lanes, l.stage = .todo) → t.groups = s.groups)))

/-- BARARR with an active lane faults BAR_DROPPED if its warp has dropped the group, BAR_OVERARRIVE if it is no member
or has arrived in this phase, and issues otherwise; then its warp is marked arrived, the count rises, the flag word
enters the phase's status, lastphase is the phase; with the last expected arrival the phase flips, its status clears,
and the expected count is recomputed, and every wait for that phase is due its status word (R27). Nothing but the
entry, the warp and those waits changes. BARDROP with an active lane faults BAR_DROPPED on a second drop and
BAR_OVERARRIVE for no member; otherwise the flag word enters the phase's status and the warp is dropped; if it has not
arrived in the phase it is counted, lastphase is the phase, and the phase completes with the last expected arrival,
its next expected count leaving the warp out and every wait for it due its status word. Nothing else changes. (R25,
R26, R28.) -/
def Obligations.ArrivalsAndDrops : Prop :=
  (
  ∀ (h : Hdr) (f : SF) (s : State) (e : Env) (k : Nat) (g : GroupEntry),
    e.act ≠ 0 → s.group? e.w f.group.toNat = some (k, g) →
    (needs (.bararr h f) s).entry e =
      (if g.dropped.getLsbD e.w.number then some { code := 0x19, lanes := e.frag, addr := 0, info := 0 }
       else if g.members.getLsbD e.w.number = false ∨ g.arrivedmask.getLsbD e.w.number then
         some { code := 0x18, lanes := e.frag, addr := 0, info := 0 }
       else none) ∧
    (Ready s (.bararr h f) e → ∃ t w, exec (.bararr h f) s = .next t ∧ t.warp? e.core e.slot = some w ∧
      Named e (needs (.bararr h f) s) (fun _ => []) {} w ∧ MovedOn e w ∧
      w.lastphase = e.w.lastphase.put f.group.toNat g.phase ∧
      t.groups = s.groups.put k (
        let flags := flagWord e f
        let g1 : GroupEntry := { g with
          arrivedmask := g.arrivedmask ||| BitVec.ofNat 128 (2 ^ e.w.number), arrived := g.arrived + 1,
          status1 := if g.phase then g.status1 ||| flags else g.status1,
          status0 := if g.phase then g.status0 else g.status0 ||| flags }
        if g1.arrived = g.expected then
          { g1 with phase := !g.phase, arrivedmask := 0, arrived := 0,
                    status1 := if g.phase then g1.status1 else 0, status0 := if g.phase then 0 else g1.status0,
                    expected := popMembers (g.members &&& ~~~g.dropped) }
        else g1) ∧
      t = { s with cores := t.cores, parts := t.parts, groups := t.groups } ∧ (∀ c, c ≠ e.core → t.core c = dueCore s t (s.core c)) ∧
      (∀ o, o ≠ e.slot → t.warp? e.core o = (s.warp? e.core o).map (dueWarp s t)))) ∧
  (
  ∀ (h : Hdr) (f : SF) (s : State) (e : Env) (k : Nat) (g : GroupEntry),
    e.act ≠ 0 → s.group? e.w f.group.toNat = some (k, g) →
    (needs (.bardrop h f) s).entry e =
      (if g.dropped.getLsbD e.w.number then some { code := 0x19, lanes := e.frag, addr := 0, info := 0 }
       else if g.members.getLsbD e.w.number = false then some { code := 0x18, lanes := e.frag, addr := 0, info := 0 }
       else none) ∧
    (Ready s (.bardrop h f) e → ∃ t w, exec (.bardrop h f) s = .next t ∧ t.warp? e.core e.slot = some w ∧
      Named e (needs (.bardrop h f) s) (fun _ => []) {} w ∧ MovedOn e w ∧
      w.lastphase = (if g.arrivedmask.getLsbD e.w.number then e.w.lastphase
        else e.w.lastphase.put f.group.toNat g.phase) ∧
      t.groups = s.groups.put k (
        let flags := flagWord e f
        let bit := BitVec.ofNat 128 (2 ^ e.w.number)
        let g1 : GroupEntry := { g with
          dropped := g.dropped ||| bit,
          status1 := if g.phase then g.status1 ||| flags else g.status1,
          status0 := if g.phase then g.status0 else g.status0 ||| flags }
        if g.arrivedmask.getLsbD e.w.number then g1
        else if g.arrived + 1 = g.expected then
          { g1 with phase := !g.phase, arrivedmask := 0, arrived := 0,
                    status1 := if g.phase then g1.status1 else 0, status0 := if g.phase then 0 else g1.status0,
                    expected := popMembers (g.members &&& ~~~(g.dropped ||| bit)) }
        else { g1 with arrivedmask := g.arrivedmask ||| bit, arrived := g.arrived + 1 }) ∧
      t = { s with cores := t.cores, parts := t.parts, groups := t.groups } ∧ (∀ c, c ≠ e.core → t.core c = dueCore s t (s.core c)) ∧
      (∀ o, o ≠ e.slot → t.warp? e.core o = (s.warp? e.core o).map (dueWarp s t))))

/-- Wherever BARWAIT issues with an active lane on a group whose phase still is the warp's lastphase, its active lanes
wait with the destination owed; where the phase differs the destination holds the status word of lastphase, the
fragment moves on, and the core's L1 is invalidated as by an acquire. With an active lane BARWAIT faults BAR_DROPPED
where its warp has dropped the group, and BAR_OVERARRIVE where it has not arrived since the entry was filled; a group
that does not exist faults FIELD_RESERVED. With no active lane the fragment moves on. Nothing else changes. Wherever
BARSYNC issues with an active lane, the entry takes its arrival; if that leaves the phase as it was the active lanes
wait with the destination owed, and if it completes the phase the destination holds the status word of the phase
arrived in, the fragment moves on, and L1 is invalidated; other waits for that phase are due its status word. With no
active lane the fragment moves on and no entry changes. BARSYNC faults as BARARR does. Nothing else changes. (R27,
R31, R234, R25.) -/
def Obligations.BarrierWaits : Prop :=
  (
  (∀ (h : Hdr) (f : SF) (s : State) (e : Env), Ready s (.barwait h f) e →
    ∃ t w k g, exec (.barwait h f) s = .next t ∧ t.warp? e.core e.slot = some w ∧ s.group? e.w f.group.toNat = some (k, g) ∧
      (e.act = 0 → Written e (needs (.barwait h f) s) (fun _ => []) {} w) ∧
      (e.act ≠ 0 → ∃ p, e.w.lastphase.get? f.group.toNat = some p ∧
        (g.phase = p → Owed e (needs (.barwait h f) s) w ∧
          Suspended e (.barrier f.group.toNat p false { name := h.dest, count := h.count, lanes := e.act }) s.cycle w) ∧
        (g.phase ≠ p → (t.core e.core).l1 = [] ∧ MovedOn e w ∧ w.waits = e.w.wakeZero.waits.filter (fun x => x.lanes &&& e.act == 0) ∧
          Named e (needs (.barwait h f) s) (fun _ => [if p then g.status1 else g.status0]) {} w)) ∧
      SameElse s t e.core e.slot) ∧
  (∀ (h : Hdr) (f : SF) (s : State) (e : Env),
    let fault := fun (c : BitVec 8) => some ({ code := c, lanes := e.frag, addr := 0, info := 0 } : Raise)
    (s.group? e.w f.group.toNat = none → (needs (.barwait h f) s).entry e = fault 0x0A ∧ (needs (.barsync h f) s).entry e = fault 0x0A) ∧
    (∀ k g, s.group? e.w f.group.toNat = some (k, g) →
      (e.act = 0 → (needs (.barwait h f) s).entry e = none ∧ (needs (.barsync h f) s).entry e = none) ∧
      (e.act ≠ 0 → (needs (.barwait h f) s).entry e =
          (if g.dropped.getLsbD e.w.number then fault 0x19
           else if e.w.lastphase.get? f.group.toNat = none then fault 0x18 else none) ∧
        (needs (.barsync h f) s).entry e =
          (if g.dropped.getLsbD e.w.number then fault 0x19
           else if g.members.getLsbD e.w.number = false ∨ g.arrivedmask.getLsbD e.w.number then fault 0x18 else none))))) ∧
  (
  ∀ (h : Hdr) (f : SF) (s : State) (e : Env), Ready s (.barsync h f) e →
    ∃ t w k g, exec (.barsync h f) s = .next t ∧ t.warp? e.core e.slot = some w ∧ s.group? e.w f.group.toNat = some (k, g) ∧
      (e.act = 0 → Written e (needs (.barsync h f) s) (fun _ => []) {} w ∧ t.groups = s.groups) ∧
      (e.act ≠ 0 → t.groups = s.groups.put k (g.arrive e.w.number (flagWord e f)) ∧
        w.lastphase = e.w.lastphase.put f.group.toNat g.phase) ∧
      (e.act ≠ 0 → g.arrived + 1 ≠ g.expected → Owed e (needs (.barsync h f) s) w ∧
        Suspended e (.barrier f.group.toNat g.phase true { name := h.dest, count := h.count, lanes := e.act }) s.cycle w) ∧
      (e.act ≠ 0 → g.arrived + 1 = g.expected → (t.core e.core).l1 = [] ∧ MovedOn e w ∧
        w.waits = (e.w.wakeZero.waits.map (dueWait s t e.w)).filter (fun x => x.lanes &&& e.act == 0) ∧
        Named e (needs (.barsync h f) s) (fun _ => [(if g.phase then g.status1 else g.status0) ||| flagWord e f]) {} w) ∧
      t = { s with cores := t.cores, parts := t.parts, groups := t.groups } ∧ (∀ c, c ≠ e.core → t.core c = dueCore s t (s.core c)) ∧
      (∀ o, o ≠ e.slot → t.warp? e.core o = (s.warp? e.core o).map (dueWarp s t)))

/-- Wherever they issue, they complete: BARSTAT.cnt gives arrived, expected, phase, whether its warp has arrived or
dropped and whether the entry is spent; .cur and .prev the status words; GRPQ the words of the member and dropped
masks, the group count, the member count or the expected count. Nothing else changes. (R22, R235, R236.) -/
def Obligations.BarrierQueries : Prop :=
  ∀ (h : Hdr) (f : SF),
    Completes (.barstat h f) (fun s e _ => [match s.group? e.w f.group.toNat with
      | none => 0
      | some (_, g) =>
        if f.subop.extractLsb' 0 2 = 0 then
          BitVec.ofNat 32 (g.arrived % 256 + 256 * (g.expected % 256) + 65536 * g.phase.toNat +
            131072 * (g.arrivedmask.getLsbD e.w.number).toNat + 262144 * (g.dropped.getLsbD e.w.number).toNat +
            524288 * (decide (g.expected = 0)).toNat)
        else if f.subop.extractLsb' 0 2 = 1 then (if g.phase then g.status1 else g.status0)
        else if g.phase then g.status0 else g.status1]) ∧
    Completes (.grpq h f) (fun s e _ => [if f.subop.extractLsb' 0 4 = 8 then BitVec.ofNat 32 (((s.blocks.get? e.w.block).map (·.groups.length)).getD 0)
      else match s.group? e.w f.group.toNat with
        | none => 0
        | some (_, g) =>
          let sel := (f.subop.extractLsb' 0 4).toNat
          if sel < 4 then g.members.extractLsb' (32 * sel) 32 else if sel < 8 then g.dropped.extractLsb' (32 * (sel - 4)) 32
          else if sel = 9 then BitVec.ofNat 32 ((List.range 128).filter fun n => g.members.getLsbD n).length
          else BitVec.ofNat 32 g.expected])

/-- Wherever FSIG issues, the fragment moves on; with an active lane the named fence takes old + value modulo 2^64,
the value, or the larger unsigned, and every other fence keeps its value. No warp's names and no memory change.
Wherever FWAIT issues with an active lane, it either finds its fence at or above, equal to, or unequal to its value:
then the destination holds the fence's value, the fragment moves on and L1 is invalidated; or its active lanes wait
with the destination owed. With no active lane the fragment moves on. (R238, R295, R239.) -/
def Obligations.NamedFences : Prop :=
  (
  ∀ (h : Hdr) (f : SF) (s : State) (e : Env), Ready s (.fsig h f) e →
    ∃ t w, exec (.fsig h f) s = .next t ∧ t.warp? e.core e.slot = some w ∧
      Written e (needs (.fsig h f) s) (fun _ => []) {} w ∧
      (∀ p id, (t.part p).fence id =
        if e.act ≠ 0 ∧ p = s.partOfCore e.core ∧ id = fenceId e.w f then
          (let old := (s.part p).fence id
           let v := if f.srcb = 511 then 1 else e.w.val64 f.srcb.toNat 0
           if f.subop.extractLsb' 0 2 = 0 then old + v else if f.subop.extractLsb' 0 2 = 1 then v
           else if old.toNat < v.toNat then v else old)
        else (s.part p).fence id) ∧
      t = { s with cores := t.cores, parts := t.parts } ∧ (∀ c, c ≠ e.core → t.core c = s.core c) ∧
      (∀ o, o ≠ e.slot → t.warp? e.core o = s.warp? e.core o)) ∧
  (
  ∀ (h : Hdr) (f : SF) (s : State) (e : Env), Ready s (.fwait h f) e →
    ∃ t w, exec (.fwait h f) s = .next t ∧ t.warp? e.core e.slot = some w ∧
      (let x := (s.part (s.partOfCore e.core)).fence (fenceId e.w f)
       let v := if f.srcb = 511 then 0 else e.w.val64 f.srcb.toNat 0
       let ok := if f.subop.extractLsb' 0 2 = 0 then decide (v.toNat ≤ x.toNat)
         else if f.subop.extractLsb' 0 2 = 1 then x == v else x != v
       (e.act = 0 → Written e (needs (.fwait h f) s) (fun _ => []) {} w) ∧
       (e.act ≠ 0 → ok = true → (t.core e.core).l1 = [] ∧ MovedOn e w ∧
         Named e (needs (.fwait h f) s) (fun _ => words64 x) {} w) ∧
       (e.act ≠ 0 → ok = false → Owed e (needs (.fwait h f) s) w ∧
         Suspended e (.fence (fenceId e.w f) (f.subop.extractLsb' 0 2) v (f.subop.getLsbD 2)
           { name := h.dest, count := h.count, lanes := e.act }) s.cycle w)) ∧
      t = { s with cores := t.cores, parts := t.parts } ∧ (∀ c, c ≠ e.core → t.core c = s.core c) ∧
      (∀ o, o ≠ e.slot → t.warp? e.core o = s.warp? e.core o))

/-- Wherever LAUNCH issues, the fragment moves on with its destination owed; with an active lane one request is added
at the end of its partition's list, with the record's address, the queue and the destination; nothing else changes.
Wherever NEXTTILE or STEAL issues, its destination pair holds the entry taken, or all ones where there is none: no
table, a table of another launch, a launch that is not persistent, an empty table, no active lane, or a STEAL in a
launch that does not allow it. The cursor rises or the tail falls by one where an entry is taken, and a table that a
STEAL comes to notes the cycle, so that its own core's later NEXTTILEs fall in a later one; no other table, core,
warp, context or byte of memory changes. (R237, R240, R300, R301, R302.) -/
def Obligations.DeviceWork : Prop :=
  (
  ∀ (h : Hdr) (f : SF) (s : State) (e : Env), Ready s (.launch h f) e →
    ∃ t w, exec (.launch h f) s = .next t ∧ t.warp? e.core e.slot = some w ∧ Owed e (needs (.launch h f) s) w ∧ MovedOn e w ∧
      (∀ p, (t.part p).requests = if e.act ≠ 0 ∧ p = s.partOfCore e.core then
        (s.part p).requests ++ [LaunchReq.mk (e.w.val64 f.srca.toNat 0).toNat f.imm.toNat e.core e.slot e.w.wid (Dest.mk h.dest h.count e.act) none
          (s.part p).reqseq] else (s.part p).requests) ∧
      t = { s with cores := t.cores, parts := t.parts } ∧ (∀ c, c ≠ e.core → t.core c = s.core c) ∧
      (∀ o, o ≠ e.slot → t.warp? e.core o = s.warp? e.core o)) ∧
  (
  ∀ (h : Hdr) (f : SF) (s : State) (e : Env) (i : Instr),
    let n := needs i s
    let steal := i = .steal h f
    let c := if steal then e.core / 8 * 8 + stealRank e.w f else e.core
    let live := fun (t : SchedTable) => e.act ≠ 0 ∧ t.launch = e.w.launch ∧ (s.launch e.w.launch).flag 1 = true ∧
      (steal → (s.launch e.w.launch).flag 2 = true ∧ (s.launch e.w.launch).flag 0 = false) ∧ t.cursor < t.tail
    let frame := fun (t : State) => t = { s with cores := t.cores, parts := t.parts } ∧
      (∀ p, t.part p = { s.part p with counters := (t.part p).counters }) ∧
      (∀ k, k ≠ e.core → t.core k = { s.core k with sched := (t.core k).sched }) ∧
      (∃ k : Core, t.core e.core = { s.core e.core with warps := k.warps, issued := k.issued, l1 := k.l1, sched := k.sched }) ∧
      (∀ o, o ≠ e.slot → t.warp? e.core o = s.warp? e.core o) ∧ (∀ k, k ≠ c → (t.core k).sched = (s.core k).sched)
    (i = .nexttile h f ∨ i = .steal h f) → Ready s i e →
    (∀ tb, (s.core c).sched = some tb → live tb →
      ∃ t w, exec i s = .next t ∧ t.warp? e.core e.slot = some w ∧
        Written e n (fun _ => words64 (tb.entries.getD (if steal then tb.tail - 1 else tb.cursor) (BitVec.allOnes 64))) {} w ∧
        frame t ∧
        (t.core c).sched = some (if steal then { tb with tail := tb.tail - 1, stolen := some s.cycle } else { tb with cursor := tb.cursor + 1 })) ∧
    ((∀ tb, (s.core c).sched = some tb → ¬live tb) →
      ∃ t w, exec i s = .next t ∧ t.warp? e.core e.slot = some w ∧
        Written e n (fun _ => words64 (BitVec.allOnes 64)) {} w ∧ frame t ∧
        ((t.core c).sched = (s.core c).sched ∨ steal ∧ (t.core c).sched = (s.core c).sched.map fun tb => { tb with stolen := some s.cycle })))

/-- Wherever one of them issues it completes, and its fragment moves on. With an active lane pr.flush discards every
translation of the named context, once the lanes begun under them are performed (R312), and changes nothing else;
pr.quota sets the quota of a context that has warps on the core, and then evicts, one by one, the youngest of its
warps that are in no trap while it holds more than Q - R: each eviction writes the warp's scree record and nothing
else in memory, no warp of another context, no other core; one with accesses outstanding leaves once they are done;
one whose write fails kills the context, whose warps then are gone; of a context that has no warps there pr.quota
changes nothing; pr.event posts a record of kind 7 with the value to the partition's event queue, or counts it lost
where 64 are held (that the record names the warp, its core and its context is the model's reading, log 44); and WATCH
sets or clears watchpoint n of its context. Nothing else changes. A context without privilege takes PERM. (R46, R52,
R241, R242, R314, R334, R338.) -/
def Obligations.PrivilegedInstructions : Prop :=
  ∀ (h : Hdr) (f : SF) (s : State) (e : Env),
    let others := fun (t : State) => (∀ c, c ≠ e.core → t.core c = s.core c) ∧ (∀ o, o ≠ e.slot → t.warp? e.core o = s.warp? e.core o) ∧
      (∀ p, t.part p = { s.part p with counters := (t.part p).counters })
    (∀ i, (i = .wrsrFlush h f ∨ i = .wrsrQuota h f ∨ i = .wrsrEvent h f ∨ i = .watch h f) → (needs i s).privileged = true) ∧
    (Ready s (.wrsrFlush h f) e → ∃ u w, u.warp? e.core e.slot = some w ∧ Written e (needs (.wrsrFlush h f) s) (fun _ => []) {} w ∧
      SameElse s u e.core e.slot ∧
      (let x := ctxKey (s.partOfCore e.core) ((e.w.val f.srca.toNat 0).extractLsb' 0 12).toNat
       let v := u.finishLanes fun _ y _ => y == x
       exec (.wrsrFlush h f) s = .next (if e.act = 0 then u else { v with
         tlb := v.tlb.filter fun i => i.ctx != x, walks := v.walks.filter fun i => i.ctx != x,
         maps := v.maps.filter fun i => i.ctx != x }) ∧
       (s.begunLanes (fun _ y _ => y == x) = [] → v = u))) ∧
    (Ready s (.wrsrEvent h f) e → ∃ t w, exec (.wrsrEvent h f) s = .next t ∧ t.warp? e.core e.slot = some w ∧
      Written e (needs (.wrsrEvent h f) s) (fun _ => []) {} w ∧
      (e.act = 0 → t.evHeld = s.evHeld ∧ t.fns = s.fns) ∧
      (e.act ≠ 0 → (s.evHeld.filter fun x => decide (4 ≤ x.record.kind.toNat)).length < 64 → t.fns = s.fns ∧
        ∃ r : EvRec, t.evHeld = holdRecord { fn := 256 + s.partOfCore e.core, cycle := s.cycle, rid := s.ridseq, record := r } s.evHeld ∧
          r.kind = 7 ∧ r.wid = e.w.wid ∧ r.info = e.w.val f.srca.toNat 0 ∧ r.core = BitVec.ofNat 8 e.core ∧
          r.context = BitVec.ofNat 12 (s.ctx e.w.ctx).number) ∧
      (e.act ≠ 0 → 64 ≤ (s.evHeld.filter fun x => decide (4 ≤ x.record.kind.toNat)).length → t.evHeld = s.evHeld ∧
        (∃ lost, t.fn (256 + s.partOfCore e.core) = { s.fn (256 + s.partOfCore e.core) with evDropped := true, evLost := lost } ∧
          lost.toNat = min ((s.fn (256 + s.partOfCore e.core)).evLost.toNat + 1) 0xFFFFFFFF) ∧
        ∀ k, k ≠ 256 + s.partOfCore e.core → t.fn k = s.fn k) ∧
      t = { s with cores := t.cores, parts := t.parts, evHeld := t.evHeld, fns := t.fns } ∧ others t) ∧
    (Ready s (.wrsrQuota h f) e → ∃ t u w, exec (.wrsrQuota h f) s = .next t ∧ u.warp? e.core e.slot = some w ∧
      Written e (needs (.wrsrQuota h f) s) (fun _ => []) {} w ∧ SameElse s u e.core e.slot ∧
      (let v := e.w.val f.srca.toNat 0
       let x := ctxKey (s.partOfCore e.core) (v.extractLsb' 20 12).toNat
       (e.act = 0 ∨ (s.core e.core).contexts.contains x = false → t = u) ∧
       (e.act ≠ 0 → (s.core e.core).contexts.contains x = true → ((s.core e.core).warps.map (·.1)).Nodup →
         Relation.ReflTransGen (QuotaEvicts e.core x)
           (u.setCore e.core { u.core e.core with quotas := (s.core e.core).quotas.put x ((v.extractLsb' 0 13).toNat, true) }) t ∧
         (((s.core e.core).warps.filter fun p => p.2.ctx == x).length ≤ 64 →
           (t.ctx x).pre = 4 ∨ t.withinQuota e.core x ∨ ∀ p ∈ (t.core e.core).warps, ¬mayLeave x p.2)))) ∧
    (Ready s (.watch h f) e → ∃ t w, exec (.watch h f) s = .next t ∧ t.warp? e.core e.slot = some w ∧
      Written e (needs (.watch h f) s) (fun _ => []) {} w ∧
      (let x := (s.core e.core).watches.getD e.w.ctx []
       let n := f.imm.toNat
       t.core e.core = { s.core e.core with
         warps := (t.core e.core).warps, issued := (t.core e.core).issued, l1 := (t.core e.core).l1
         watches := if e.act = 0 then (s.core e.core).watches else
          (s.core e.core).watches.put e.w.ctx (if f.subop.extractLsb' 0 3 = 0 then x.del n else
            x.put n { addr := (e.w.val64 f.srca.toNat 0).toNat, len := (e.w.val f.srcb.toNat 0).toNat,
                      mask := f.subop.extractLsb' 0 3 }) }) ∧
      t = { s with cores := t.cores, parts := t.parts } ∧ others t)

/-- Wherever LD (outside the constant space), ST, ATOM, CAS, RED, AMAXP or CWB issues with an active lane, one access
is added after the warp's others, with each active lane's address and data as read at issue (for a uniform destination
the lowest lane's), the loads or the stores counter rises by one, a global access reserves an operand-log entry, the
destination is owed, and the fragment moves on; no memory, and no other warp, changes. The core's L1 loses the lines
of an ATOM, CAS or RED that is performed at home, and all of them where the issue reads the status of an ended
operation for the first time. With no active lane it only moves on. (R174, R177, R180, R181, R137, R258.) -/
def Obligations.MemoryIssue : Prop :=
  ∀ (h : Hdr) (f : MF) (s : State) (e : Env) (i : Instr) (op : AccOp) (k : Nat),
    ((i = .ld h f ∧ f.space ≠ 3 ∧ op = .ld ∧ k = 0) ∨ (i = .st h f ∧ op = .st ∧ k = widthNames f.width) ∨
      (i = .atom h f ∧ op = .atom ∧ k = widthNames f.width) ∨ (i = .cas h f ∧ op = .cas ∧ k = 2 * widthNames f.width) ∨
      (i = .red h f ∧ op = .red ∧ k = widthNames f.width) ∨ (i = .amaxp h f ∧ op = .amaxp ∧ k = 2) ∨
      (i = .cwb h f ∧ op = .cwb ∧ k = 0)) → Ready s i e →
    let lanes := lanesOf (if uni h.dest then laneBit (lowLane e.act) else e.act)
    ∃ t w, exec i s = .next t ∧ t.warp? e.core e.slot = some w ∧ MovedOn e w ∧
      t = { s with cores := t.cores, parts := t.parts } ∧
      (∀ p, t.part p = { s.part p with counters := (t.part p).counters }) ∧ (∀ c, c ≠ e.core → t.core c = s.core c) ∧
      t.core e.core = { s.core e.core with
        warps := (t.core e.core).warps, issued := (t.core e.core).issued, l1 := (t.core e.core).l1 } ∧
      (∀ o, o ≠ e.slot → t.warp? e.core o = s.warp? e.core o) ∧
      (∀ x, x ∈ (t.core e.core).l1 ↔ x ∈ (s.core e.core).l1 ∧ (needs i s).readsStatus e = false ∧
        ¬((op = .atom ∨ op = .cas ∨ op = .red) ∧ ∃ l ∈ lanes, e.act ≠ 0 ∧ ∃ p : Xlated,
          (s.translate (.core e.core) e.w.ctx (e.w.address f l) op.access false false false).1 = .ok p ∧
          atHome op f p = true ∧ x.holds e.w.ctx p.phys = true)) ∧
      (e.act = 0 → Written e (needs i s) (fun _ => []) {} w) ∧
      (e.act ≠ 0 → Owed e (needs i s) w ∧ ∃ a : Acc, w.accs = e.w.accs.put e.w.accseq a ∧ w.accseq = e.w.accseq + 1 ∧
        a.op = op ∧ a.pc = e.pc ∧ a.f = f ∧ a.dest = { name := h.dest, count := h.count, lanes := e.act } ∧
        a.lanes = (lanes.map fun l =>
          { lane := l, addr := e.w.address f l, data := (constituents f.data k).map fun n => e.w.val n l, stage := .todo }) ∧
        (f.space ≠ 0 → a.entries = [] ∧ w.log = e.w.log) ∧
        (f.space = 0 → ∃ n x, e.w.log.free 0 16 = some n ∧ a.entries = [n] ∧ w.log = e.w.log.put n x ∧ x.acc = e.w.accseq ∧
          x.fmask = 0) ∧
        (if op = .ld ∨ (op ≠ .st ∧ op ≠ .red ∧ op ≠ .cwb ∧ h.dest ≠ 511) then
          w.loads = e.w.loads + 1 ∧ w.stores = e.w.stores
         else w.loads = e.w.loads ∧ w.stores = e.w.stores + 1))

/-- Wherever LD issues in the constant space and every lane's bytes can be read, its destination holds them, from the
core's constant cache, which no store changes, or from home; where a lane's read is refused, its fragment takes the
precise fault and nothing is written. PREF only fills and marks L1 and L2, fills translations, or joins merges, and
moves on. FENCE moves on, and with an active lane, acquire semantics and scope .cl or wider invalidates the core's L1,
and otherwise changes nothing else. None of them stores: a byte of memory changes only as a filled line makes its home
L2 give up another (14 R260). With an active lane, a FENCE with release semantics issues only when no access of the
warp is outstanding and no store that the warp may have read in its core's L1 is still to be accepted by its home, and
one with acquire semantics only when no load or value-returning access of the warp is outstanding. (R65, R176, R191,
R196, R257, R259, R274, R279.) -/
def Obligations.CompleteAtIssue : Prop :=
  (
  ∀ (h : Hdr) (f : MF) (s : State) (e : Env),
    let reading := fun (t : State) =>
      t = { s with cores := t.cores, parts := t.parts, tlb := t.tlb, walks := t.walks, l2 := t.l2, dev := t.dev, dram := t.dram,
                   host := t.host, hostBehind := t.hostBehind, merges := t.merges, bytes := t.bytes } ∧
      (Canonical s → Refilled s t fun _ => False) ∧
      (∀ p, t.part p = { s.part p with counters := (t.part p).counters }) ∧ (∀ c, c ≠ e.core → t.core c = s.core c) ∧
      (∃ k : Core, t.core e.core = { s.core e.core with warps := k.warps, issued := k.issued, l1 := k.l1, consts := k.consts }) ∧
      (∀ o, o ≠ e.slot → t.warp? e.core o = s.warp? e.core o)
    (∀ (tb : Tab (Except ConstStop (List Byte))) (s1 : State) (fresh : Bool), f.space = 3 → Ready s (.ld h f) e → e.act ≠ 0 →
      (match e.w.fetchWait true e.pc with
       | none => fresh = false
       | some p => p.served = true ∧ replayable p.code = true ∧ fresh = true) →
      State.constantLanes e.core e f fresh (lanesOf (if uni h.dest then laneBit (lowLane e.act) else e.act)) s = (tb, s1) →
      ((∀ x ∈ tb, ∃ bs, x.2 = .ok bs) →
        ∃ t w, exec (.ld h f) s = .next t ∧ t.warp? e.core e.slot = some w ∧ reading t ∧ t.merges = s.merges ∧ MovedOn e w ∧
          Named e (needs (.ld h f) s) (fun l => wordsOf (constantBytes
            (tb.getD (if uni h.dest then lowLane e.act else l) (.ok []))) (widthNames f.width)) {} w ∧
          (t.core e.core).l1 = (if (needs (.ld h f) s).readsStatus e then [] else (s.core e.core).l1)) ∧
      (∀ code : BitVec 8, constantFault tb = some code →
        ∃ t w, exec (.ld h f) s = .next t ∧ t.warp? e.core e.slot = some w ∧ w.suspended = e.w.suspended ||| e.frag ∧
          w.names = e.w.names ∧ w.kregs = e.w.kregs ∧ w.pcs = e.w.pcs ∧
          ∃ x ∈ tb, x.2 = .error (.fault code) ∧
            ∃ r ∈ t.evHeld, r.record.kind = 0 ∧ r.record.code = code ∧ r.record.pc = e.pc ∧ laneOn r.record.lanemask x.1 = true)) ∧
    (f.space = 3 → Ready s (.ld h f) e → e.act = 0 → ∃ t w, exec (.ld h f) s = .next t ∧ t.warp? e.core e.slot = some w ∧
      Written e (needs (.ld h f) s) (fun _ => []) {} w ∧ SameElse s t e.core e.slot) ∧
    (Ready s (.pref h f) e → ∃ t w, exec (.pref h f) s = .next t ∧ t.warp? e.core e.slot = some w ∧
      Written e (needs (.pref h f) s) (fun _ => []) {} w ∧ reading t ∧
      (e.act = 0 ∨ f.space = 4 → t = { s with cores := t.cores, parts := t.parts })) ∧
    (Ready s (.fence h f) e → ∃ t w, exec (.fence h f) s = .next t ∧ t.warp? e.core e.slot = some w ∧
      Written e (needs (.fence h f) s) (fun _ => []) {} w ∧
      (t.core e.core).l1 = (if e.act ≠ 0 ∧ f.order.getLsbD 0 = true ∧ 2 ≤ f.scope.toNat then [] else (s.core e.core).l1) ∧
      SameElse s t e.core e.slot)) ∧
  (
  ∀ (h : Hdr) (f : MF) (s : State) (e : Env), Ready s (.fence h f) e → e.act ≠ 0 →
    (f.order.getLsbD 1 = true → e.w.accs = [] ∧ ∀ w ∈ (s.core e.core).warps, ∀ a ∈ w.2.accs, ∀ l ∈ a.2.lanes,
      ∀ host at_ x, l.stage ≠ .early host at_ x) ∧
    (f.order.getLsbD 0 = true → ∀ a ∈ e.w.accs, a.2.op ≠ .ld ∧ a.2.op ≠ .atom ∧ a.2.op ≠ .cas ∧ a.2.op ≠ .amaxp))

/-- After bytes are written from an address up, each of their addresses reads its byte and every other address reads
as before; a canonical memory stays canonical, and two canonical memories that read the same everywhere are the same
data. What an unlisted byte reads as, zero, is the model's choice (log 5). (14_memory_hierarchy, R372.) -/
def Obligations.ReadAfterWrite : Prop :=
  (∀ (m : Memory) (a : Nat) (bs : List Byte) (x : Nat), m.wf = true →
    (m.writeN a bs).wf = true ∧
    (m.writeN a bs).read x = if a ≤ x ∧ x < a + bs.length then bs.getD (x - a) 0 else m.read x) ∧
  (∀ m n : Memory, m.wf = true → n.wf = true → (∀ x, m.read x = n.read x) → m = n)

/-- When STORE_PERFORMED names a lane of a scratchpad ST that may be performed, the step completes; the scratchpad
holds the lane's data at its address, the offset in the own or the named core's scratchpad; every byte outside the
lane's bytes reads as before, and lode and global memory are unchanged. A lane with a lower open lane at common bytes
waits: nothing changes. When LOAD_WRITEBACK names a lane of a scratchpad LD of a resident warp, and it and the open
lanes at common bytes may be performed, the step completes and every memory is unchanged. These lanes hold the little-
endian words of the bytes at their addresses, zero-extended; with the last open lanes of the load, each live lane of
its destination holds its words with the declared count, a uniform destination its one lane's, and the loads counter
falls. (For an evicted warp the destination lies in its scree record.) When LOAD_WRITEBACK or STORE_PERFORMED performs
lanes of an access of a resident warp with a live lane, the step completes. While a lane is left the counters and the
access stay, with what was performed; with the last one the access ends: a returning one (LD, ATOM, CAS, AMAXP) leaves
the loads counter, any other the stores counter; each live lane of a vector destination holds the words that its lane
found, with the declared count; CAS and AMAXP write their predicate destination in those lanes, the outcome of each,
whether or not they have a destination register, and no other predicate; and an acquiring one of scope .cl or wider
invalidates L1. No other register and no memory changes but what performing the lanes has changed. (R253, R256, R137,
R179, R174, R180, R184, R194, R195, R259.) -/
def Obligations.ScratchpadAccesses : Prop :=
  (
  ∀ (s : State) (core slot acc lane : Nat) (high : Bool) (w : Warp) (a : Acc) (l : AccLane),
    s.warp? core slot = some w → w.accs.get? acc = some a →
    a.op = .st → a.dest.name = 511 → (a.f.space = 1 ∨ a.f.space = 2) →
    (a.lanes.find? fun m => m.lane == lane && m.open_) = some l →
    let n := widthBytes a.f.width
    let at_ := spadAt (spadTarget core a.f.space l.addr).1 (spadTarget core a.f.space l.addr).2
    ((∃ m ∈ a.lanes, m.open_ = true ∧ m.lane < lane ∧ m.addr < l.addr + n ∧ l.addr < m.addr + n) →
      exec (.storePerformed core slot ⟨acc, lane, high⟩ true) s = .next s) ∧
    ((∀ m ∈ a.lanes, m.open_ = true → m.addr < l.addr + n → l.addr < m.addr + n → lane ≤ m.lane) → l.stage = .todo →
      s.laneReady core slot w acc a l = true → s.spad.wf = true →
      ∃ t, exec (.storePerformed core slot ⟨acc, lane, high⟩ true) s = .next t ∧
        (∀ b, t.spad.read b =
          if at_ ≤ b ∧ b < at_ + n then BitVec.ofNat 8 (natOfWords l.data / 256 ^ (b - at_)) else s.spad.read b) ∧
        t.lode = s.lode ∧ t.dev = s.dev ∧ t.dram = s.dram ∧ t.host = s.host ∧ t.hostBehind = s.hostBehind ∧
        (∀ w', t.warp? core slot = some w' → w'.stores = w.stores ∨ w'.stores = w.stores - 1))) ∧
  (
  ∀ (s : State) (core slot acc lane : Nat) (high : Bool) (w : Warp) (a : Acc),
    s.warp? core slot = some w → w.accs.get? acc = some a →
    a.op = .ld → (a.f.space = 1 ∨ a.f.space = 2) → w.evicted = false → a.turnOf lane ≠ [] →
    (∀ l ∈ a.turnOf lane, l.stage = .todo ∧ s.laneReady core slot w acc a l = true) →
    (∀ l ∈ a.lanes, l.lane < 32) → (a.lanes.map (·.lane)).Nodup →
    let k := widthNames a.f.width
    let now := fun (l : AccLane) => decide (l ∈ a.turnOf lane)
    let found := fun (l : AccLane) => if now l then wordsOf (s.spad.readN (spadAt (spadTarget core a.f.space l.addr).1
        (spadTarget core a.f.space l.addr).2) (widthBytes a.f.width)) k else l.data
    ∃ t w', exec (.loadWriteback core slot ⟨acc, lane, high⟩) s = .next t ∧ t.warp? core slot = some w' ∧
      t.spad = s.spad ∧ t.lode = s.lode ∧ t.dev = s.dev ∧ t.dram = s.dram ∧ t.host = s.host ∧ t.hostBehind = s.hostBehind ∧
      ((∃ l ∈ a.lanes, l.stage ≠ .done ∧ now l = false) → w'.loads = w.loads ∧ ∃ a', w'.accs.get? acc = some a' ∧
        a'.lanes = a.lanes.map fun l => if now l then { l with data := found l, stage := .done } else l) ∧
      ((∀ l ∈ a.lanes, l.stage = .done ∨ now l = true) → w.live ≠ 0 →
        w'.loads = w.loads - 1 ∧ w'.accs.get? acc = none ∧
        (a.dest.count ≠ 0 → ∀ l ∈ a.lanes, ∀ j d, (constituents a.dest.name k)[j]? = some d →
          (∀ x ∈ constituents a.dest.name k, isV x = true) → laneOn (a.dest.lanes &&& w.live) l.lane = true →
          w'.count d l.lane = a.dest.count ∧ w'.val d l.lane = (found l).getD j 0) ∧
        (∀ l ls, a.lanes = l :: ls → laneOn w.live l.lane = true → a.dest.lanes ≠ 0 →
          ∀ j d, (constituents a.dest.name k)[j]? = some d → (∀ x ∈ constituents a.dest.name k, isK x = true) →
          ∀ m, w'.val d m = (found l).getD j 0))) ∧
  (
  ∀ (s s1 : State) (c o n lane : Nat) (high : Bool) (w : Warp) (a : Acc) (ls : List AccLane),
    s.warp? c o = some w → w.accs.get? n = some a → w.evicted = false → w.live ≠ 0 → uni a.dest.name = false →
    (∀ l ∈ a.lanes, l.lane < 32) → (a.lanes.map (·.lane)).Nodup →
    a.turnOf lane ≠ [] → (∀ l ∈ a.turnOf lane, s.laneReady c o w n a l = true) →
    (a.isLoad = true → s.toMerge c o n w.ctx a (a.turnOf lane) = none) →
    State.performLanes c w.ctx a high (a.turnOf lane) s = some (ls, s1) →
    let lanes := a.lanes.map fun l => (ls.find? fun m => m.lane == l.lane).getD l
    let k := widthNames a.f.width
    let returns := a.op = .ld ∨ ((a.op = .atom ∨ a.op = .cas ∨ a.op = .amaxp) ∧ a.dest.name ≠ 511)
    ∃ t w', exec (if a.isLoad then .loadWriteback c o ⟨n, lane, high⟩ else .storePerformed c o ⟨n, lane, high⟩ true) s = .next t ∧
      t.warp? c o = some w' ∧
      t.spad = s1.spad ∧ t.lode = s1.lode ∧ t.dev = s1.dev ∧ t.dram = s1.dram ∧ t.host = s1.host ∧ t.hostBehind = s1.hostBehind ∧
      ((∃ l ∈ lanes, l.stage ≠ .done) → w'.loads = w.loads ∧ w'.stores = w.stores ∧
        ∃ b, w'.accs.get? n = some b ∧ b.lanes = lanes ∧ b.dest = a.dest) ∧
      ((∀ l ∈ lanes, l.stage = .done) → w'.accs.get? n = none ∧
        (returns → w'.loads = w.loads - 1 ∧ w'.stores = w.stores) ∧ (¬returns → w'.loads = w.loads ∧ w'.stores = w.stores - 1) ∧
        (a.dest.name ≠ 511 → a.dest.count ≠ 0 → ∀ l ∈ lanes, ∀ j d, (constituents a.dest.name k)[j]? = some d → isV d = true →
          laneOn (a.dest.lanes &&& w.live) l.lane = true → w'.count d l.lane = a.dest.count ∧ w'.val d l.lane = l.data.getD j 0) ∧
        (∀ d l, l < 32 → d ∉ constituents a.dest.name k → w'.count d l = w.count d l ∧
          (w.count d l ≠ 0 ∨ isV d = false → w'.val d l = w.val d l)) ∧
        ((a.op = .cas ∨ a.op = .amaxp) → a.f.pdst ≠ 7 → ∀ l ∈ lanes, laneOn (a.dest.lanes &&& w.live) l.lane = true →
          (laneOn (w'.pred a.f.pdst.toNat) l.lane = true ↔ l.data.getD k 0 ≠ 0)) ∧
        (∀ p l, p < 7 → l < 32 → (p ≠ a.f.pdst.toNat ∨ ¬(a.op = .cas ∨ a.op = .amaxp) ∨ laneOn (a.dest.lanes &&& w.live) l = false) →
          laneOn (w'.pred p) l = laneOn (w.pred p) l) ∧
        (a.f.order.getLsbD 0 = true → 2 ≤ a.f.scope.toNat → a.op ≠ .st → a.op ≠ .red → (t.core c).l1 = [])))

/-- A load wider than .cr reads the home bytes, and one of an uncached page those behind the L2; a narrow one that
finds its line in its core's L1 reads it there and fills nothing, and otherwise reads home and fills L1, or with .nl1
its home L2 alone. A store on a cached local page writes exactly its bytes at home, and its core's L1 takes them or,
with .nl1, loses the line; on an uncached page it writes them behind the L2. ATOM, CAS and RED at a wide scope find
the home value, a narrow ATOM or CAS on a local page that of its L1 line; ATOM and RED write the operation's value,
CAS its new value only on a match. A load or store of hint .ef or .el leaves its line so marked at home. A buffered
RED only adds its record. CWB writes the modified bytes of its line, wherever an L2 holds it, to the memory behind.
AMAXP gives the old word of its scratchpad, and writes its candidate only where the score is no NaN, no mask bit
suppresses the index, and the candidate is above the word. Lines of a full set may leave their L2 (14 R260; which one
is the model's choice, log 13). (R178, R192, R193, R194, R195, R258, R303.) -/
def Obligations.LaneEffects : Prop :=
  (∀ (s : State) (u : TUnit) (c x : Nat) (a : Acc) (l : AccLane) (t : Xlated),
    let n := widthBytes a.f.width
    let k := widthNames a.f.width
    let r := s.laneEffect u (some c) x a l t
    let inL1 := s.l1Find c x t.phys
    let within := fun (p : Phys) => p.host = t.phys.host ∧ t.phys.addr ≤ p.addr ∧ p.addr < t.phys.addr + n
    let cached := t.item.kind ≠ .uncached
    let own := if a.f.scope.toNat ≤ 1 then inL1 else none
    let got := if t.item.kind = .uncached then s.behindRead t.phys n
      else match own with
        | some line => (line.bytes.drop (t.phys.addr % 128)).take n
        | none => s.physRead t.phys n
    (a.op = .ld → r.1 = { l with data := wordsOf got k, stage := .done } ∧
      r.2 = if t.item.kind = .uncached then s.countAt x t.phys n
        else if 2 ≤ a.f.scope.toNat ∨ (inL1 = none ∧ a.f.hint = 3) then
          (s.l2Fill x t.phys n a.f.hint).markLine (some c) x t.phys a.f.hint
        else if inL1 = none then s.l1Fill c x t.phys a.f.hint else s.markLine (some c) x t.phys a.f.hint) ∧
    ((a.op = .ld ∨ a.op = .st) → cached → (a.f.hint = 1 ∨ a.f.hint = 2) →
      ∀ y ∈ r.2.l2, y.is t.phys.host t.phys.line = true → y.hint = a.f.hint) ∧
    (a.op = .st → Canonical s → r.1.stage = .done ∧
      (cached → Refilled s r.2 within ∧ (∀ p, within p →
        r.2.homeByte p = (leBytes n (natOfWords l.data)).getD (p.addr - t.phys.addr) 0) ∧
        r.2.l1Find c x t.phys = if a.f.hint = 3 then none else inL1.map fun line =>
          { line with bytes := spliceBytes line.bytes (t.phys.addr % 128) (leBytes n (natOfWords l.data))
                      hint := if a.f.hint = 1 ∨ a.f.hint = 2 then a.f.hint else line.hint }) ∧
      (¬cached → ∀ p, r.2.behindByte p = (if within p then (leBytes n (natOfWords l.data)).getD (p.addr - t.phys.addr) 0
          else s.behindByte p) ∧
        r.2.homeByte p = if within p ∧ s.l2Has p.host p.line = false then
          (leBytes n (natOfWords l.data)).getD (p.addr - t.phys.addr) 0 else s.homeByte p)) ∧
    ((a.op = .atom ∨ a.op = .red ∨ a.op = .cas) → cached → s.buffers a = false → Canonical s →
      let narrow_ := a.f.scope.toNat ≤ 1 ∧ a.op ≠ .red ∧ t.item.kind = .localMem
      let mine := if a.f.scope.toNat ≤ 1 ∧ a.op ≠ .red ∧ t.item.kind = .localMem then inL1 else none
      let old := match mine with
        | some line => leNat ((line.bytes.drop (t.phys.addr % 128)).take n)
        | none => s.physNat t.phys n
      let hit := old = natOfWords (l.data.take k)
      let new := if a.op = .cas then natOfWords ((l.data.drop k).take k)
        else atomicNew a.f.atomic.toNat (8 * n) old (natOfWords (l.data.take k) % 2 ^ (8 * n))
      r.1.data.take k = wordsOf (leBytes n old) k ∧ r.1.stage = .done ∧
      (a.op = .cas → ∃ x : Word, r.1.data = wordsOf (leBytes n old) k ++ [x] ∧ (x = 1 ↔ hit)) ∧
      (¬narrow_ → r.2.l1Find c x t.phys = none) ∧
      (a.op = .cas → ¬hit → Refilled s r.2 fun _ => False) ∧
      ((a.op = .cas → hit) → Refilled s r.2 within ∧ ∀ p, within p → r.2.homeByte p = (leBytes n new).getD (p.addr - t.phys.addr) 0)) ∧
    (∀ s1, a.op = .red → s.buffers a = true → s.bufferRecord u a.launch (a.redRecord l) = .ok s1 →
      r = ({ l with stage := .done }, s1)) ∧
    (a.op = .cwb → Canonical s → r.1.stage = .done ∧ (∀ p, r.2.homeByte p = s.homeByte p) ∧
      ∀ p, r.2.behindByte p = (match s.l2.find? fun x => x.is t.phys.host t.phys.line with
        | some x => if p.host = t.phys.host ∧ p.line = t.phys.line ∧ x.dirty.getLsbD (p.addr % 128) = true
            then s.homeByte p else s.behindByte p
        | none => s.behindByte p))) ∧
  (∀ (s : State) (c x : Nat) (a : Acc) (l : AccLane), a.op = .amaxp → (a.f.space = 1 ∨ a.f.space = 2) → a.f.width = 3 →
    let at_ := spadAt (spadTarget c a.f.space l.addr).1 (spadTarget c a.f.space l.addr).2
    let old := s.spad.nat at_ 8
    let score := l.data.getD 0 0
    let index := l.data.getD 1 0
    let key : Word := if score.getLsbD 31 then ~~~score else score ^^^ 0x80000000
    let cand := key.toNat * 2 ^ 32 + (0xFFFFFFFF - index.toNat)
    let skip := (f32 score).isNan = true ∨
      (a.f.atomic = 3 ∧ index.toNat < 64 ∧ (s.spad.nat (at_ + 8) 8).testBit index.toNat = true)
    (¬skip → old < cand →
      (s.laneLocal c x a l).2.spad = s.spad.writeN at_ (leBytes 8 cand) ∧
      (s.laneLocal c x a l).1.data = wordsOf (leBytes 8 old) 2 ++ [1]) ∧
    ((skip ∨ cand ≤ old) → (s.laneLocal c x a l).2 = s ∧ (s.laneLocal c x a l).1.data = wordsOf (leBytes 8 old) 2 ++ [0]))

/-- LOAD_WRITEBACK and STORE_PERFORMED of a lane that may be performed record what it performs, a load's with the open
lanes at its bytes, or leave the read to an open merge; a lane that may not be performed now changes nothing; before
the home has accepted it, a store is shown in its own L1 only. ACCESS_TRANSLATION_FAULT logs the lanes of a page that
fails; OPERAND_LOG_REPLAY and STORE_FAULT_REPLAY perform the lanes of served pages in lane order (all in one step: the
model's choice, log 76), a page of a store-fault entry only where no older entry of its warp has lanes on it;
MERGE_FORMED gives its members the line in turn and closes, but for a prefetch into an L1 whose core has an earlier
atomic at home to perform on the line; walks cache what they find, expired items go, and a fetch checks the warp's
next line. (R137, R179, R184, R263, R311, R318, R333, R374.) -/
def Obligations.MemoryEvents : Prop :=
  (∀ (s : State) (c o n lane : Nat) (high : Bool) (w : Warp) (a : Acc), s.warp? c o = some w → w.accs.get? n = some a →
    (a.turnOf lane = [] ∨ (∃ l ∈ a.turnOf lane, s.laneReady c o w n a l = false) →
      exec (.storePerformed c o ⟨n, lane, high⟩ true) s = .next s ∧ exec (.loadWriteback c o ⟨n, lane, high⟩) s = .next s) ∧
    (a.turnOf lane ≠ [] → (∀ l ∈ a.turnOf lane, s.laneReady c o w n a l = true) →
      (∀ (ls : List AccLane) (s1 : State), State.performLanes c w.ctx a high (a.turnOf lane) s = some (ls, s1) →
        (a.isLoad = false → exec (.storePerformed c o ⟨n, lane, high⟩ true) s = .next ((s1.keepLanes c o n ls).coreDrops c)) ∧
        (a.isLoad = true → s.toMerge c o n w.ctx a (a.turnOf lane) = none →
          exec (.loadWriteback c o ⟨n, lane, high⟩) s = .next (s1.keepLanes c o n ls))) ∧
      (∀ s1, a.isLoad = true → s.toMerge c o n w.ctx a (a.turnOf lane) = some s1 →
        exec (.loadWriteback c o ⟨n, lane, high⟩) s = .next s1) ∧
      (a.isLoad = false → ∃ t, exec (.storePerformed c o ⟨n, lane, high⟩ false) s = .next t ∧ t.dev = s.dev ∧ t.dram = s.dram ∧
        t.host = s.host ∧ t.hostBehind = s.hostBehind ∧ t.spad = s.spad ∧ t.lode = s.lode ∧ t.l2 = s.l2))) ∧
  (∀ (s s1 s2 : State) (c o n : Nat) (w : Warp) (a : Acc) (l : AccLane) (f : Option XFault), s.warp? c o = some w →
    w.accs.get? n = some a → s.firstLog c o w n a = some l → s.mustLog c o w n a l = (some f, s1) →
    (a.op = .ld → laneOn w.live l.lane = true) →
    (∀ same, same = (a.lanes.filter fun m => m.stage == .todo && pageOf m.addr == pageOf l.addr &&
        (((s1.mustLog c o w n a m).1.map fun g => (g.map (·.code)).getD 0) == some ((f.map (·.code)).getD 0))) →
      s1.logLanes c o n a same f = some s2 →
      exec (.accessTranslationFault c o n l.lane) s = .next ((s2.settleAcc c o n).moveEntries c o))) ∧
  (∀ (s : State) (c o n : Nat) (w : Warp) (x : LogEntry) (a : Acc), s.warp? c o = some w → w.evicted = false → w.live ≠ 0 →
    w.log.get? n = some x → w.accs.get? x.acc = some a →
    exec (.operandLogReplay c o n) s = .next (((w.replayPages x).flatMap fun j =>
      (a.lanes.filter fun l => laneOn (x.lanesOn j) l.lane).map fun l => (j, l)).foldl
        (fun s p => s.replayLane c o n p.1 none p.2) s)) ∧
  (∀ (s : State) (x n : Nat) (e : StoreFault), (s.ctx x).storeFaults.get? n = some e →
    ∃ work : List (Nat × AccLane), exec (.storeFaultReplay x n) s =
      .next ((work.foldl (fun s p => s.replayStore x n p.1 p.2) s).settleStores x) ∧
      ∀ (j : Nat) (l : AccLane), (j, l) ∈ work ↔ j < e.entry.pages.length ∧ l ∈ e.acc.lanes ∧
        laneOn (e.entry.lanesOn j) l.lane = true ∧
        (e.entry.served.getLsbD j = true ∨ e.entry.codes.getD j 0 = 0) ∧ s.olderStore x e (e.entry.pages.getD j 0) = false) ∧
  (∀ (s : State) (n : Nat) (m : Merge), s.merges[n]? = some m →
    let later := m.reads.filter s.readWaits
    exec (.mergeFormed n) s = .next (if s.cycle < m.formed then s
      else (m.reads.filter fun r => !s.readWaits r).foldl (fun s r => s.mergeGive m.line r)
        { s with merges := if later = [] then s.merges.eraseIdx n else s.merges.set n { m with reads := later } })) ∧
  (∀ (s : State) (u : TUnit) (x va : Nat), exec (.translationWalk u x va) s =
    .next { s with tlb := (s.translate u x va .read true true false).2.tlb,
                   walks := (s.translate u x va .read true true false).2.walks,
                   bytes := (s.translate u x va .read true true false).2.bytes }) ∧
  (∀ (s : State) (n : Nat) (t : TlbItem), s.tlb[n]? = some t →
    exec (.translationExpiry n) s = .next (if unexpired t.expiry (s.unitTime t.unit) = true then s else { s with
      tlb := s.tlb.eraseIdx n, walks := s.walks.filter fun w => unexpired w.expiry (s.unitTime w.unit) })) ∧
  (∀ (s s1 : State) (c o : Nat) (w : Warp) (pc : PC) (frag : Mask), s.warp? c o = some w → w.evicted = false →
    w.fragment = some (pc, frag) →
    (∀ word z, s.fetch c o w pc frag = .ok (word, z, s1) → exec (.instructionFetch c o) s = .next s1) ∧
    (s.fetch c o w pc frag = .error s1 → exec (.instructionFetch c o) s = .next s1))

/-- Wherever one of the thirteen queued class X instructions issues, its context owns the core's array, which another
owner's data has left; an operation with its operands as read at issue, and the restart state of sr.mrow for a held
one, with the flags of the rows that it has committed before (log 15), stands last in the issue order, and what may
start then starts. Before that start nothing else has changed but the warp: its destination is owed, the tiles counter
has risen by one for a counted instruction, and the fragment has moved on, or is held where it stands for MMT, MMTX
and MMTG. (R114, R125, R137, R200, R201.) -/
def Obligations.StrataIssue : Prop :=
  ∀ (i : Instr) (h : Hdr) (f : XF) (s : State) (e : Env),
    let held := i = .mmt h f ∨ i = .mmtx h f ∨ i = .mmtg h f
    let bare := i = .sevict h f ∨ i = .gzero h f ∨ i = .accz h f ∨ i = .accmv h f
    (held ∨ bare ∨ i = .sload h f ∨ i = .sstore h f ∨ i = .gload h f ∨ i = .gstore h f ∨ i = .accld h f ∨ i = .accst h f) →
    Ready s i e →
    ∃ (o : XOp) (s1 : State) (w : Warp), exec i s = .next (s1.advanceX e.core) ∧
      (s1.core e.core).owner = some e.w.ctx ∧
      (s1.core e.core).xq = (s.core e.core).xq.put (s.core e.core).xseq o ∧ (s1.core e.core).xseq = (s.core e.core).xseq + 1 ∧
      ((s.core e.core).owner = some e.w.ctx → (s1.core e.core).strata = (s.core e.core).strata ∧
        (s1.core e.core).tiles = (s.core e.core).tiles ∧ (s1.core e.core).grads = (s.core e.core).grads) ∧
      ((s.core e.core).owner ≠ some e.w.ctx → (s1.core e.core).strata = [] ∧ (s1.core e.core).tiles = [] ∧
        (s1.core e.core).grads = []) ∧
      o.instr = i ∧ o.slot = e.slot ∧ o.wid = e.w.wid ∧ o.ctx = e.w.ctx ∧ o.pc = e.pc ∧ o.stage = .queued ∧
      o.base = e.w.val64 f.aaddr.toNat 0 ∧ o.tag = e.w.val f.tagaddr.toNat 0 ∧ (held → o.rs = e.w.val f.rscale.toNat 0) ∧
      o.fmt = s.slotOf e.w f.fslot ∧ o.dest = { name := h.dest, count := h.count, lanes := e.act } ∧
      (let restart := held ∧ e.w.mrow.getLsbD 31 = true
       (restart → o.units = (e.w.mrow.extractLsb' 0 9).toNat ∧ o.contrib = (e.w.mrow.extractLsb' 16 9).toNat ∧
         o.skipped = e.w.mrow.getLsbD 25) ∧
       (¬restart → o.units = 0 ∧ o.contrib = 0 ∧ o.skipped = false) ∧ o.flags = if restart then e.w.mflags else 0) ∧
      s1.warp? e.core e.slot = some w ∧ Owed e (needs i s) w ∧
      w.tiles = e.w.tiles + (if bare then 0 else 1) ∧
      (held → (∀ l, w.pc l = e.w.wakeZero.pc l) ∧ w.stall = some { kind := .held, since := s.cycle }) ∧
      (¬held → MovedOn e w) ∧
      s1 = { s with cores := s1.cores, parts := s1.parts } ∧ (∀ c, c ≠ e.core → s1.core c = s.core c) ∧
      (∀ k, k ≠ e.slot → s1.warp? e.core k = s.warp? e.core k)

/-- Where ACCZ issues with no other operation in the array's order, it completes: rows 0 to M − 1 of its tile are
zero, and every other row of every tile keeps what its context holds there. With earlier operations in the order, the
same holds of the step at which its place has come, while the array's owner holds a warp on the core, and an array
without an owner is not still to be cleared (else it is given up with its last operation, R114; log 96). (R214.) -/
def Obligations.AcczResult : Prop :=
  (∀ (h : Hdr) (f : XF) (s : State) (e : Env), Ready s (.accz h f) e → (s.core e.core).xq = [] →
    ∃ t, exec (.accz h f) s = .next t ∧ ∀ a m, a < 4 → m < 256 →
      (t.core e.core).tileRow a m =
        if a = f.acc.toNat ∧ m < f.rows.toNat then List.replicate 64 0x00000000
        else if (s.core e.core).owner = some e.w.ctx then (s.core e.core).tileRow a m else List.replicate 64 0) ∧
  (∀ (s : State) (c n : Nat) (o : XOp) (h : Hdr) (f : XF), (s.core c).xq.get? n = some o → o.instr = .accz h f →
    o.stage = .queued → o.dest.name = 511 → (∀ y, (s.core c).owner = some y → ∃ q ∈ (s.core c).warps, q.2.ctx = y) →
    ((s.core c).owner = none → (s.core c).arrayLeft = false) →
    (∀ p ∈ (s.core c).xq, p.1 < n → xTile p.2.instr ≠ some f.acc.toNat) →
    ∀ a m, a < 4 → m < 256 → ((s.startX c n).core c).tileRow a m =
      if a = f.acc.toNat ∧ m < f.rows.toNat then List.replicate 64 0x00000000 else (s.core c).tileRow a m)

/-- With no other operation in the array's order: SLOAD leaves its stratum LOADING with the format and scale kind of
its slot; SEVICT leaves it EMPTY; SSTORE starts on a RESIDENT stratum and on any other completes at once with status
0x0000_0062; GZERO zeroes its gradient stratum; ACCMV delivers two words of the row to each lane; and each of the
others is running. No memory, no other warp and no other core changes. Wherever SSTAT issues, its destination holds
the states of the eight strata, two bits each; TAGCNT gives the number of valid tags of stratum i in lane i, and of
all of them in lane 8 or a uniform destination; TAGSET writes for row m the byte that its word, with any threshold,
asks for, as the words stand when they lie apart from the tags, and no other byte of any memory. Each moves the
fragment on. (That the three take effect as they issue, and do not wait for a place in the issue order, is the model's
inference, log 36.) (R119, R200, R205, R206, R207, R213, R216, R118, R208, R217, R218.) -/
def Obligations.StrataAtStart : Prop :=
  (
  ∀ (h : Hdr) (f : XF) (s : State) (e : Env) (i : Instr), Ready s i e → (s.core e.core).xq = [] →
    let old : Stratum := if (s.core e.core).owner = some e.w.ctx then (s.core e.core).stratum f.stratum.toNat
      else { state := .empty, bfmt := 0, scale := 0, image := [] }
    let n := (s.core e.core).xseq
    let loading : Stratum :=
      { state := .loading, bfmt := slotB (s.slotOf e.w f.fslot), scale := slotScale (s.slotOf e.w f.fslot), image := [] }
    (i = .sload h f → old.state ≠ .loading → ∃ t o, exec i s = .next t ∧ (t.core e.core).xq.get? n = some o ∧
      o.stage = .running ∧ (t.core e.core).stratum f.stratum.toNat = loading) ∧
    (i = .sevict h f → old.state ≠ .loading → ∃ t, exec i s = .next t ∧ (t.core e.core).xq.get? n = none ∧
      ((t.core e.core).stratum f.stratum.toNat).state = .empty) ∧
    (i = .sstore h f → old.state = .resident → ∃ t o, exec i s = .next t ∧ (t.core e.core).xq.get? n = some o ∧
      o.stage = .running ∧ o.copy = some old) ∧
    (i = .sstore h f → old.state ≠ .resident → ∃ t w, exec i s = .next t ∧ t.warp? e.core e.slot = some w ∧
      (t.core e.core).xq.get? n = none ∧ w.tiles = e.w.tiles ∧ MovedOn e w ∧
      (∀ l, l < 32 → isV h.dest.toNat = true → h.count ≠ 0 →
        w.val h.dest.toNat l = 0x00000062 ∧ w.count h.dest.toNat l = h.count) ∧
      (isK h.dest.toNat = true → ∀ l, w.val h.dest.toNat l = 0x00000062)) ∧
    (i = .gzero h f → ∃ t, exec i s = .next t ∧ (t.core e.core).xq.get? n = none ∧
      ∀ g m, g < 8 → m < 128 → (t.core e.core).gradRow g m = if g = f.acc.toNat then List.replicate 64 0x00000000
        else if (s.core e.core).owner = some e.w.ctx then (s.core e.core).gradRow g m else List.replicate 64 0) ∧
    (i = .accmv h f → ∃ t w, exec i s = .next t ∧ t.warp? e.core e.slot = some w ∧ MovedOn e w ∧
      (h.count ≠ 0 → ∀ l, l < 32 →
        let m := if f.rscale = 511 then f.stride.toNat else (e.w.val f.rscale.toNat 0).toNat
        let row := if (s.core e.core).owner = some e.w.ctx then (s.core e.core).tileRow f.acc.toNat m else List.replicate 64 0
        w.val h.dest.toNat l = row.getD (2 * l) 0 ∧ w.val (h.dest.toNat + 1) l = row.getD (2 * l + 1) 0 ∧
        w.count h.dest.toNat l = h.count ∧ w.count (h.dest.toNat + 1) l = h.count)) ∧
    ((i = .mmt h f ∨ i = .mmtx h f ∨ i = .mmtg h f ∨ i = .gload h f ∨ i = .gstore h f ∨ i = .accld h f ∨ i = .accst h f) →
      ∃ t o, exec i s = .next t ∧ (t.core e.core).xq.get? n = some o ∧ o.stage = .running) ∧
    (xFieldsOf i = some f → (∀ g, i ≠ .tagset g f) → ∃ t, exec i s = .next t ∧ (∀ c, c ≠ e.core → t.core c = s.core c) ∧
      (∀ k, k ≠ e.slot → t.warp? e.core k = s.warp? e.core k) ∧ t.spad = s.spad ∧ t.lode = s.lode ∧
      t.dev = s.dev ∧ t.dram = s.dram ∧ t.host = s.host ∧ t.hostBehind = s.hostBehind)) ∧
  (
  ∀ (h : Hdr) (f : XF) (s : State) (e : Env),
    let at_ := fun (a : Word) => spadAt (if a.getLsbD 24 then e.core / 8 * 8 + (a.extractLsb' 21 3).toNat else e.core)
      (a.extractLsb' 0 21).toNat
    let tags := (List.range f.rows.toNat).map fun m => s.spad.read (at_ (e.w.val f.tagaddr.toNat 0) + m)
    let valid := fun (j : Nat) => (tags.filter fun t => t.getLsbD 3 && (t.extractLsb' 0 3).toNat == j).length
    (Ready s (.sstat h f) e → ∃ t w, exec (.sstat h f) s = .next t ∧ t.warp? e.core e.slot = some w ∧
      Written e (needs (.sstat h f) s) (fun _ => [if (s.core e.core).owner = some e.w.ctx then
        BitVec.ofNat 32 ((List.range 8).foldl (fun n j => n + 4 ^ j * (match ((s.core e.core).stratum j).state with
          | .empty => 0 | .loading => 1 | .resident => 2 | .draining => 3)) 0) else 0]) {} w ∧
      t = { s with cores := t.cores, parts := t.parts } ∧ (∀ c, c ≠ e.core → t.core c = s.core c) ∧
      (∀ k, k ≠ e.slot → t.warp? e.core k = s.warp? e.core k)) ∧
    (Ready s (.tagcnt h f) e → ∃ t w, exec (.tagcnt h f) s = .next t ∧ t.warp? e.core e.slot = some w ∧
      Written e (needs (.tagcnt h f) s) (fun l => [BitVec.ofNat 32 (if isK h.dest.toNat = true ∨ l = 8 then
        (tags.filter fun t => t.getLsbD 3).length else if l < 8 then valid l else 0)]) {} w ∧
      t = { s with cores := t.cores, parts := t.parts } ∧ (∀ c, c ≠ e.core → t.core c = s.core c) ∧
      (∀ k, k ≠ e.slot → t.warp? e.core k = s.warp? e.core k)) ∧
    (Ready s (.tagset h f) e → s.spad.wf = true → ∃ t w, exec (.tagset h f) s = .next t ∧ t.warp? e.core e.slot = some w ∧
      Written e (needs (.tagset h f) s) (fun _ => []) {} w ∧
      (∀ b, (∀ m, m < f.rows.toNat → b ≠ at_ (e.w.val f.tagaddr.toNat 0) + m) → t.spad.read b = s.spad.read b) ∧
      (let src := at_ ((e.w.val64 f.aaddr.toNat 0).extractLsb' 0 32)
       let dst := at_ (e.w.val f.tagaddr.toNat 0)
       (∀ m j b, m < f.rows.toNat → j < f.rows.toNat → b < 8 → src + 16 * f.stride.toNat * m + b ≠ dst + j) →
       ∀ m, m < f.rows.toNat → t.spad.read (dst + m) = tagByte (s.spad.nat (src + 16 * f.stride.toNat * m) 8)
         (if f.rscale = 511 then none else some (e.w.val f.rscale.toNat 0))) ∧
      t = { s with cores := t.cores, parts := t.parts, spad := t.spad }))

/-- For a running MMT or MMTX at row m: an invalid tag lets the row pass without effect; a valid one whose stratum is
resident with the slot's format commits the row of A and m + 1 rows are then done; one whose stratum an earlier SLOAD
is still to change waits, its tag read once; a non-resident stratum passes the row under the skip policy, and without
it stops the instruction with TAG_MISS, as another format stops it with FIELD_RESERVED: sr.mrow holds the restart, the
tiles counter is one lower, the destination not owed, no status written and the PC where it was. A block of MMTG whose
rows are read is applied to the gradient strata that they route to. When every row is done the instruction retires:
status, flags, sr.mrow clear, tiles counter one lower, every live lane at the next PC. (The flags of committed rows
are reported at retirement, R112; that a stop keeps them for the restart is the model's inference, log 15.) A running
asynchronous operation whose units are all done ends with its place in the order and its tile count: an SLOAD leaves
its stratum RESIDENT; the status word, which is then still to be read, holds the units, and state 0, or 1 if an error
was corrected on the way. A unit of GLOAD sets one row of its gradient stratum to the words read, and a row of ACCLD
one row of its tile to the values of the codes read, and no other row; a unit of SLOAD in the partition's memory sets
one unit of its image (R199, R205). A unit of SSTORE writes 256 bytes of the stratum as it was when the operation's
place came, one of GSTORE a row of its gradient stratum, one of ACCST a row of its tile, rounded to its format, each
at its own address from the base and nowhere else; its flags join the operation's. Nothing else changes but
translations, lines and counters. A source that no early read has touched is read as its pages hold it. An operation
that still waits is left as it stands. (R112, R120, R125, R201, R209, R210, R211, R212, R119, R206, R213, R215.) -/
def Obligations.MatrixAndStrataEvents : Prop :=
  (
  ∀ (s : State) (c x : Nat) (o : XOp) (h : Hdr) (f : XF) (w : Warp),
    (s.core c).xq.get? x = some o → (o.instr = .mmt h f ∨ o.instr = .mmtx h f ∨ o.instr = .mmtg h f) → o.stage = .running →
    s.warp? c o.slot = some w → w.wid = o.wid →
    let m := o.units
    let k := s.core c
    let across := o.instr = .mmtx h f
    let next := { o with units := m + 1, row := [], got := [] }
    (o.instr ≠ .mmtg h f → m < f.rows.toNat → m < 256 → ∀ tag, s.tagOf c o f m = some tag →
      let j := (tag.extractLsb' 0 3).toNat
      let absent := o.nonres.contains j = true ∨ ((k.stratum j).state = .empty ∧ k.changing x j = false)
      let stops := fun (code : BitVec 8) => ∃ t w', exec (.matrixStop c x) s = .next t ∧ t.warp? c o.slot = some w' ∧
        (t.core c).xq = [] ∧ (t.core c).tiles = k.tiles ∧
        w'.traps = w.traps ++ [{ lanes := w.live, code := code, past := false }] ∧
        w'.mrow = BitVec.ofNat 32 (2 ^ 31 + (if o.skipped then 2 ^ 25 else 0) + o.contrib * 2 ^ 16 + m) ∧
        w'.tiles = w.tiles - 1 ∧ w'.stall = none ∧ w'.pcs = w.pcs ∧ w'.aflags = w.aflags ∧ w'.mflags = o.flags ∧
        (isV o.dest.name.toNat = true → o.dest.count ≠ 0 → w'.pendingName o.dest.name.toNat = false) ∧
        ∃ r : EvRec, t.evHeld = holdRecord { fn := (s.ctx w.ctx).fn, cycle := s.cycle, rid := s.ridseq, record := r } s.evHeld ∧ r.kind = 0 ∧
          r.code = code ∧ r.pc = o.pc ∧ r.info = BitVec.ofNat 32 (m + 512 * j)
      (tag.getLsbD 3 = false → ∃ t, exec (.matrixRowWaitEnd c x) s = .next t ∧
        (t.core c).xq.get? x = some next ∧ (t.core c).tiles = k.tiles ∧ t = { s with cores := t.cores }) ∧
      (tag.getLsbD 3 = true →
        (∀ raw s1 rs, (k.stratum j).state = .resident → k.changing x j = false → o.nonres.contains j = false →
          (k.stratum j).bfmt = slotB o.fmt → (k.stratum j).scale = slotScale o.fmt → s.rowScaleOf c o f m = some rs →
          s.sourceRead (.array c) o.ctx ((o.base.extractLsb' 0 48).toNat + 16 * f.stride.toNat * m) (rowBytes o.fmt (decide across))
            false (.array c x) o.got = (.ok raw, s1) →
          let out := if across then mmtxRow o.fmt (o.base.extractLsb' 48 3).toNat raw (k.stratum j) rs (k.tileRow f.acc.toNat m) (o.draw m)
            else mmtRow o.fmt raw (k.stratum j) rs (k.tileRow f.acc.toNat m) (o.draw m)
          ∃ t, exec (.matrixRowWaitEnd c x) s = .next t ∧
            (t.core c).xq.get? x = some { next with contrib := o.contrib + 1, flags := o.flags ||| out.2 } ∧
            ∀ a r, r < 256 → (t.core c).tileRow a r = if a = f.acc.toNat ∧ r = m then out.1 else k.tileRow a r) ∧
        (k.changing x j = true → o.nonres.contains j = false → ∃ t, exec (.matrixRowWaitEnd c x) s = .next t ∧
          (t.core c).xq.get? x = some { o with row := o.row.put (2 * m) (tag.zeroExtend 32) } ∧ (t.core c).tiles = k.tiles) ∧
        (absent → f.skip = true → ∃ t, exec (.matrixRowWaitEnd c x) s = .next t ∧
          (t.core c).xq.get? x = some { next with skipped := true } ∧ (t.core c).tiles = k.tiles) ∧
        (k.xq = [(x, o)] → k.owner = some w.ctx →
          (absent → f.skip = false → stops 0x06) ∧
          (¬absent → k.changing x j = false →
            ((k.stratum j).bfmt ≠ slotB o.fmt ∨ (k.stratum j).scale ≠ slotScale o.fmt) → stops 0x0A)))) ∧
    (∀ rows fl s1, o.instr = .mmtg h f → m < f.rows.toNat →
      State.gradReads c x o f ((List.range (min (m + 32) f.rows.toNat - m)).map fun i => m + i) s = (.ok (rows, fl), s1) →
      ∃ t, exec (.matrixRowWaitEnd c x) s = .next t ∧
        (∃ p, (t.core c).xq.get? x = some p ∧ p.units = min (m + 32) f.rows.toNat ∧ p.contrib = o.contrib + rows.length) ∧
        ∀ g i, g < 8 → i < 128 → (t.core c).gradRow g i =
          (let mine := (rows.filter fun y => y.1 == g).map (·.2)
           if mine = [] then k.gradRow g i
           else (gradUpdate o.fmt mine i (k.gradRow g i) fun n => o.draw i n (m / 32)).1)) ∧
    (f.rows.toNat ≤ m → w.evicted = false → ∃ (s1 : State) (w' : Warp), exec (.matrixRetire c x) s = .next (s1.advanceX c) ∧
      (s1.core c).xq = k.xq.del x ∧ s1.warp? c o.slot = some w' ∧ w'.mrow = 0 ∧ w'.mflags = 0 ∧ w'.tiles = w.tiles - 1 ∧
      w'.aflags = w.aflags ||| o.flags ∧
      (∀ l, l < 32 → w'.pc l = if laneOn w.live l then nextPc (w.pc l) else w.pc l) ∧
      (let status : Word := BitVec.ofNat 32 (o.contrib * 4096 + if o.skipped then 7 else 0)
       (∀ l, l < 32 → isV o.dest.name.toNat = true → o.dest.count ≠ 0 → laneOn (o.dest.lanes &&& w.live) l = true →
         w'.val o.dest.name.toNat l = status ∧ w'.count o.dest.name.toNat l = o.dest.count) ∧
       (isK o.dest.name.toNat = true → w.live ≠ 0 → o.dest.lanes ≠ 0 → ∀ l, w'.val o.dest.name.toNat l = status)))) ∧
  (
  (∀ (s : State) (c x : Nat) (o : XOp) (w : Warp), (s.core c).xq.get? x = some o → xHeld o.instr = false → o.stage = .running →
    xTotal o.instr o.fmt o.copy ≤ o.units → s.warp? c o.slot = some w → w.wid = o.wid → w.evicted = false →
    (s.core c).owner = some w.ctx →
    let ends := fun (i : Instr) => ∃ (s1 : State) (w' : Warp), exec i s = .next (s1.advanceX c) ∧ (s1.core c).xq = (s.core c).xq.del x ∧
      s1.warp? c o.slot = some w' ∧
      (if xCounted o.instr then w'.tiles = w.tiles - 1 ∧ (true, o.dest.name.toNat) ∈ w'.unread
       else w'.tiles = w.tiles ∧ w'.unread = w.unread) ∧
      w'.aflags = w.aflags ||| o.flags ∧
      (∀ f h, o.instr = .sload h f → ((s1.core c).stratum f.stratum.toNat).state = .resident) ∧
      (let status : Word := BitVec.ofNat 32 (o.units * 4096 + if o.corrected then 1 else 0)
       (∀ l, l < 32 → isV o.dest.name.toNat = true → o.dest.count ≠ 0 → laneOn (o.dest.lanes &&& w.live) l = true →
         w'.val o.dest.name.toNat l = status ∧ w'.count o.dest.name.toNat l = o.dest.count) ∧
       (isK o.dest.name.toNat = true → w.live ≠ 0 → o.dest.lanes ≠ 0 → ∀ l, w'.val o.dest.name.toNat l = status))
    ends (.xAsyncComplete c x) ∧ (∀ f h, o.instr = .sload h f → ends (.stratumLoadComplete c x))) ∧
  (∀ (s s1 : State) (c x : Nat) (o : XOp) (h : Hdr) (f : XF) (bs : List Byte), (s.core c).xq.get? x = some o →
    o.stage = .running →
    let fills := fun (t : State) =>
      (t.core c).xq.get? x = some { o with units := o.units + 1, row := [], got := [] } ∧
      (∀ n, n ≠ x → (t.core c).xq.get? n = (s.core c).xq.get? n) ∧ (∀ k, k ≠ c → t.core k = s.core k) ∧
      t.core c = { s.core c with xq := (t.core c).xq, tiles := (t.core c).tiles, grads := (t.core c).grads } ∧
      t = { s with cores := t.cores, tlb := t.tlb, walks := t.walks, bytes := t.bytes, l2 := t.l2, dev := t.dev, dram := t.dram,
                   host := t.host, hostBehind := t.hostBehind } ∧
      (Canonical s → Refilled s t fun _ => False)
    (∀ (va n : Nat) (ts : List (Xlated × Nat)), State.xlatAll (.array c) o.ctx .read false false (pagePieces va n) s = (.ok ts, s1) →
      ∀ s2, s.sourceRead (.array c) o.ctx va n false (.array c x) [] = (.ok bs, s2) →
        bs = ts.flatMap fun y => if y.1.item.kind = .uncached then s.behindRead y.1.phys y.2 else s.physRead y.1.phys y.2) ∧
    (o.instr = .accld h f → o.units < f.rows.toNat → o.units < 256 →
      s.sourceRead (.array c) o.ctx ((o.base.extractLsb' 0 48).toNat + 16 * f.stride.toNat * o.units)
        (8 * fmtWidth (slotA o.fmt)) false (.array c x) o.got = (.ok bs, s1) →
      ∃ t, exec (.matrixRowWaitEnd c x) s = .next t ∧ fills t ∧ (t.core c).grads = (s.core c).grads ∧
        ∀ a m, m < 256 → (t.core c).tileRow a m = if a = f.acc.toNat ∧ m = o.units then
          (codesIn (fmtWidth (slotA o.fmt)) bs 64).map fun y =>
            if slotA o.fmt = 8 then BitVec.ofNat 32 y else toF32 0 false 0 (decodeFloat (slotA o.fmt) y)
          else (s.core c).tileRow a m) ∧
    (o.instr = .gload h f → o.units < 128 →
      s.sourceRead (.array c) o.ctx ((o.base.extractLsb' 0 48).toNat + 256 * o.units) 256 false (.array c x) o.got = (.ok bs, s1) →
      ∃ t, exec (.matrixRowWaitEnd c x) s = .next t ∧ fills t ∧ (t.core c).tiles = (s.core c).tiles ∧
        ∀ g m, m < 128 → (t.core c).gradRow g m =
          if g = f.acc.toNat ∧ m = o.units then wordsIn bs else (s.core c).gradRow g m) ∧
    (∀ (y : Xlated) (s2 : State), o.instr = .sload h f → f.stride ≠ 4 → o.units < xTotal o.instr o.fmt o.copy →
      y.item.kind = .localMem → o.got = [] →
      State.xlatAll (.array c) o.ctx .read true false
        [((o.base.extractLsb' 0 48).toNat + unitOffset (slotB o.fmt) o.units, 256)] s = (.ok [(y, 256)], s1) →
      s1.badPiece y 256 = false → s1.mergePieces (.array c x) o.ctx [] [(y, 256)] = (false, s2) →
      (((s.core c).stratum f.stratum.toNat).bfmt = slotB o.fmt) →
      ∃ t, exec (.matrixRowWaitEnd c x) s = .next t ∧
        (t.core c).xq.get? x = some { o with units := o.units + 1, row := [], got := [] } ∧
        ((t.core c).stratum f.stratum.toNat).image.get? (unitOffset (slotB o.fmt) o.units / 256) =
          some (s.physRead y.phys 256))) ∧
  (∀ (s s1 : State) (c x : Nat) (o : XOp) (h : Hdr) (f : XF) (ts : List (Xlated × Nat)), (s.core c).xq.get? x = some o →
    o.stage = .running →
    let moves := fun (va : Nat) (bs : List Byte) (fl : BitVec 8) =>
      State.xlatAll (.array c) o.ctx .write false false (pagePieces va bs.length) s = (.ok ts, s1) →
      ∃ t, exec (.matrixRowWaitEnd c x) s = .next t ∧
        (t.core c).xq.get? x = some { o with units := o.units + 1, row := [], got := [], flags := o.flags ||| fl } ∧
        (∀ n, n ≠ x → (t.core c).xq.get? n = (s.core c).xq.get? n) ∧ t.core c = { s.core c with xq := (t.core c).xq } ∧
        (∀ k, k ≠ c → t.core k = s.core k) ∧
        t = { s with cores := t.cores, tlb := t.tlb, walks := t.walks, bytes := t.bytes, l2 := t.l2, poison := t.poison, dev := t.dev,
                     dram := t.dram, host := t.host, hostBehind := t.hostBehind } ∧
        (Canonical s → Stores s t ts bs)
    let base := (o.base.extractLsb' 0 48).toNat
    let elem := fun (n : Nat) =>
      let w := ((s.core c).tileRow f.acc.toNat o.units).getD n 0
      let r := roundFloat (slotOut o.fmt) (slotRnd o.fmt) (slotSat o.fmt) (o.draw o.units n 0xFF) (f32 w)
      if slotOut o.fmt = 8 then (leBytes 4 w.toNat, (0 : BitVec 8))
      else if slotOut o.fmt = 0 then (leBytes 4 w.toNat, nanFlag (f32 w)) else (leBytes 2 r.1, r.2 ||| nanFlag (f32 w))
    (∀ y, o.instr = .sstore h f → o.copy = some y → o.units < imageUnits y.bfmt y.scale →
      moves (base + unitOffset y.bfmt o.units) (y.bytes (unitOffset y.bfmt o.units) 256) 0) ∧
    (o.instr = .gstore h f → o.units < 128 →
      moves (base + 256 * o.units) (((s.core c).gradRow f.acc.toNat o.units).flatMap fun w => leBytes 4 w.toNat) 0) ∧
    (o.instr = .accst h f → o.units < f.rows.toNat →
      moves (base + 16 * f.stride.toNat * o.units) ((List.range 64).flatMap fun n => (elem n).1)
        ((List.range 64).foldl (fun a n => a ||| (elem n).2) 0))) ∧
  (∀ (s : State) (c x : Nat) (o : XOp), (s.core c).xq.get? x = some o → xHeld o.instr = false →
    (o.stage = .queued ∨ (∃ p, o.stage = .page p ∧ p.served = false) ∨ (∃ v, o.stage = .stale v ∧ s.timeAt c < v)) →
    exec (.xAsyncComplete c x) s = .next s ∧ exec (.matrixRowWaitEnd c x) s = .next s))

/-- Wherever one of them issues, the fragment moves on. With no active lane nothing else happens; with a length of
zero the destination holds status 0, which is then still to be read; otherwise one operation is added with its
operands as read at issue and the identity of its warp, at a least-loaded engine of the partition, its ranges are
registered, the copies counter rises by one, and the destination is owed. No memory and no other warp changes.
Wherever VSTAT issues its destination holds the copies and tiles counters and the core's registered ranges. Wherever
VCANCEL issues the fragment moves on; with an active lane each of the warp's operations that it names, sorts apart,
has ended in state 6 with the units that it had moved, or, within a unit, is to end at that unit's boundary; and every
other operation is as it was. (R219, R221, R222, R224, R225, R362, R223, R230, R231.) -/
def Obligations.EngineInstructions : Prop :=
  (
  ∀ (i : Instr) (h : Hdr) (f : AF) (kind : EngKind) (s : State) (e : Env),
    ((i = .vcopy h f ∧ kind = .copy) ∨ (i = .vgather h f ∧ kind = .gather) ∨ (i = .vscatter h f ∧ kind = .scatter) ∨
      (i = .vput h f ∧ kind = .put) ∨ (i = .vget h f ∧ kind = .get) ∨ (i = .vred h f ∧ kind = .red) ∨
      (i = .sort h f ∧ kind = .sort)) → Ready s i e →
    let len := if kind = .gather ∨ kind = .scatter then (e.w.val (f.len + 1).toNat 0).toNat
      else if f.len = 511 then 0 else (e.w.val f.len.toNat 0).toNat
    ∃ t w, exec i s = .next t ∧ t.warp? e.core e.slot = some w ∧ MovedOn e w ∧
      t = { s with cores := t.cores, parts := t.parts, engs := t.engs, engseq := t.engseq } ∧
      (∀ c k, c ≠ e.core ∨ k ≠ e.slot → t.warp? c k = s.warp? c k) ∧
      (e.act = 0 → Written e (needs i s) (fun _ => []) {} w ∧ t.engs = s.engs) ∧
      (e.act ≠ 0 → len = 0 → Named e (needs i s) (fun _ => [0]) {} w ∧ w.copies = e.w.copies ∧ (false, h.dest.toNat) ∈ w.unread ∧
        t.engs = s.engs) ∧
      (e.act ≠ 0 → len ≠ 0 → Owed e (needs i s) w ∧ w.copies = e.w.copies + 1 ∧ t.engseq = s.engseq + 1 ∧
        ∃ o : EngOp, t.engs = s.engs.put s.engseq o ∧ o.kind = kind ∧ o.core = e.core ∧ o.slot = e.slot ∧ o.wid = e.w.wid ∧
          o.pc = e.pc ∧ o.dest = { name := h.dest, count := h.count, lanes := e.act } ∧ o.units = 0 ∧ o.len = len ∧
          o.dst = (e.w.val64 f.dsta.toNat 0).toNat ∧ o.src = (e.w.val64 f.srca.toNat 0).toNat ∧ o.amod = f.amod ∧
          (o.stage = .locked ∨ o.stage = .running) ∧
          (s.enginesFor e.core ≠ [] → o.engine ∈ s.enginesFor e.core ∧
            ∀ d ∈ s.enginesFor e.core, s.engLoad o.engine ≤ s.engLoad d) ∧
          (∀ l ∈ (t.core e.core).locks, l ∈ (s.core e.core).locks ∨ l.op = s.engseq) ∧
          ∃ l ∈ (t.core e.core).locks, l.op = s.engseq ∧ (kind ≠ .red → l.ranges = s.engRanges o))) ∧
  (
  ∀ (h : Hdr) (f : AF),
    Completes (.vstat h f) (fun s e _ =>
      [BitVec.ofNat 32 (e.w.copies + 256 * e.w.tiles + 65536 * (s.core e.core).locks.length)]) ∧
    (∀ (s : State) (e : Env), Ready s (.vcancel h f) e →
      ∃ t, exec (.vcancel h f) s = .next t ∧
        (e.act = 0 → t.engs = s.engs) ∧
        (e.act ≠ 0 → ∀ n o, t.engs.get? n = some o → ∃ p, s.engs.get? n = some p) ∧
        ∃ w, t.warp? e.core e.slot = some w ∧ MovedOn e w ∧
        (e.act ≠ 0 → (s.engs.map (·.1)).Nodup → ∀ n o, s.engs.get? n = some o →
          let named := o.core = e.core ∧ o.slot = e.slot ∧ o.wid = e.w.wid ∧ o.kind ≠ .sort ∧
            (f.imm.getLsbD 9 = true → o.dest.name.toNat = (f.imm.extractLsb' 0 9).toNat)
          let within := (∃ stamp, o.stage = .sent stamp) ∨ (o.kind ≠ .red ∧ o.moved ≠ 0)
          (¬named → t.engs.get? n = some o) ∧
          (named → within → t.engs.get? n = some { o with cancelled := true }) ∧
          (named → ¬within → t.engs.get? n = none ∧ (∀ c, ∀ l ∈ (t.core c).locks, l.op ≠ n) ∧
            ((∀ m p, s.engs.get? m = some p → m ≠ n → p.dest.name ≠ o.dest.name) →
              ∀ l, l < 32 → isV o.dest.name.toNat = true → o.dest.count ≠ 0 → laneOn (o.dest.lanes &&& e.w.live) l = true →
                w.val o.dest.name.toNat l = BitVec.ofNat 32 (o.units * 4096 + 6) ∧
                w.count o.dest.name.toNat l = o.dest.count)))))

/-- A running VCOPY between scratchpad ranges that do not overlap moves its next 256 bytes or what is left, and no
other byte; between any two places it, VGATHER and VSCATTER move one chunk or one row, from the row or into the row
that the index names, and store nothing else. A unit of VPUT, or of VRED at a peer, leaves as one packet with the
bytes of its source, or is performed by a partition of this module; one of VGET asks for its bytes and stores the
answer (DESIGN CHOICE, log 14: the bytes that another device answers are a free value). A unit of VRED at home
combines each element with the word there, or, in deterministic mode, appends one record for each element to the
launch's buffer. SORT reads all its pairs, puts them into a stable order, and then writes them back pair by pair. An
operation with every unit done, and one that a peer refuses, answers STALE a second time, or leaves unanswered for
1,000,000 ticks, ends: it and its ranges are gone, the copies counter is one lower, and the status word holds the
units, the code and the state. A first STALE makes the unit wait for its time, or ends an operation that is cancelled
in state 6 (DESIGN CHOICE, log 38); an answer after 1,000,000 ticks is discarded. A lock wait ends exactly when no
earlier range conflicts. A link skewed by more than 256 ticks goes down. (R222, R223, R224, R226, R227, R228, R229,
R232, R313, R352, R355.) -/
def Obligations.EngineEvents : Prop :=
  (∀ (s : State) (n : Nat) (o : EngOp) (w : Warp), s.engs.get? n = some o → s.warp? o.core o.slot = some w → w.wid = o.wid →
    w.evicted = false →
    let ends := fun (i : Instr) (state code : Nat) => ∃ (t : State) (w' : Warp), exec i s = .next t ∧ t.engs = s.engs.del n ∧
      t.warp? o.core o.slot = some w' ∧ w'.copies = w.copies - 1 ∧ (∀ c, ∀ l ∈ (t.core c).locks, l.op ≠ n) ∧
      ∀ l, l < 32 → isV o.dest.name.toNat = true → o.dest.count ≠ 0 → laneOn (o.dest.lanes &&& w.live) l = true →
        w'.val o.dest.name.toNat l = BitVec.ofNat 32 (o.units * 4096 + code * 16 + state) ∧
        w'.count o.dest.name.toNat l = o.dest.count
    (o.stage = .running → o.units = o.total → ends (.engineOperationComplete n) (if o.corrected then 1 else 0) 0) ∧
    (∀ stamp, n < 2 ^ 40 → o.stage = .sent stamp →
      (s.unitTime (.engine o.engine) < stamp + 1000000 →
        (∀ code, ends (.peerNackAnswer n code) 4 code.toNat) ∧
        (∀ v, o.cancelled = true → ends (.peerStaleAnswer n v) 6 0) ∧
        (∀ v, o.cancelled = false → o.staleUnit = some o.units → ends (.peerStaleAnswer n v) 5 0x16) ∧
        (∀ v, o.cancelled = false → o.staleUnit ≠ some o.units → exec (.peerStaleAnswer n v) s =
          .next { s with engs := s.engs.put n { o with stage := .stale v, staleUnit := some o.units } }) ∧
        exec (.peerTimeout n) s = .next s) ∧
      (stamp + 1000000 ≤ s.unitTime (.engine o.engine) → ends (.peerTimeout n) 3 0x15 ∧
        (∀ code, exec (.peerNackAnswer n code) s = .next s) ∧ ∀ v, exec (.peerStaleAnswer n v) s = .next s))) ∧
  (∀ (s : State) (n : Nat) (o : EngOp), s.engs.get? n = some o → o.stage = .locked →
    (s.lockConflict n = false → exec (.engineLockWaitEnd n) s = .next { s with engs := s.engs.put n { o with stage := .running } }) ∧
    (s.lockConflict n = true → exec (.engineLockWaitEnd n) s = .next s) ∧
    exec (.engineUnitTransfer n) s = .next s ∧ exec (.leaseRenewal n) s = .next s) ∧
  (∀ (s : State) (n a b : Nat) (o : EngOp), s.engs.get? n = some o → o.stage = .running → o.kind = .copy → o.units < o.total →
    o.dspace = 1 → o.sspace = 1 → o.buffer = none → o.selfOverlap = false → o.got = [] → o.cancelled = false → s.spad.wf = true →
    s.sideScratch o 1 (o.dst + 256 * o.units) (min 256 (o.len - 256 * o.units)) = some a →
    s.sideScratch o 1 (o.src + 256 * o.units) (min 256 (o.len - 256 * o.units)) = some b →
    ∃ t, exec (.engineUnitTransfer n) s = .next t ∧ t.engs.get? n = some { o with units := o.units + 1, moved := 0, swap := false } ∧
      (∀ i, t.spad.read i = if a ≤ i ∧ i < a + min 256 (o.len - 256 * o.units) then s.spad.read (b + (i - a))
        else s.spad.read i) ∧ t = { s with engs := t.engs, spad := t.spad, bytes := t.bytes }) ∧
  (∀ (s s1 : State) (n : Nat) (o : EngOp) (bs : List Byte), s.engs.get? n = some o → o.units < o.total → o.cancelled = false →
    o.moved = 0 → o.swap = false → o.buffer = none → s.engLodeBusy o = false →
    let u : TUnit := .engine o.engine
    let left := min 256 (o.len - 256 * o.units)
    let done : EngOp := { o with units := o.units + 1, stage := .running, got := [] }
    let holds := fun (bs : List Byte) => ({ o with buffer := some bs } : EngOp)
    let keeps := fun (bs : List Byte) (s : State) => ({ s with engs := s.engs.put n (holds bs) } : State)
    let only := fun (s0 t : State) => exec (.engineUnitTransfer n) s = .next t ∧ ∀ m, m ≠ n → t.engs.get? m = s0.engs.get? m
    let lands := fun (s0 : State) (dp b : Nat) (bs : List Byte) =>
      (dp = 0 → ∀ ts s2, State.xlatAll u o.ctx .write false false (pagePieces b bs.length) s0 = (.ok ts, s2) →
        (∀ w ∈ s0.engineWatches o.ctx b bs.length, w ∈ o.watched) → ∃ t, only s0 t ∧ t.engs.get? n = some done ∧
          t = { s0 with engs := t.engs, tlb := t.tlb, walks := t.walks, bytes := t.bytes, l2 := t.l2, poison := t.poison, dev := t.dev,
                        dram := t.dram, host := t.host, hostBehind := t.hostBehind } ∧
          (Canonical s0 → Stores s0 t ts bs)) ∧
      (∀ at_, dp ≠ 0 → dp ≠ 4 → s0.sideScratch o dp b bs.length = some at_ → ∃ t, only s0 t ∧ t.engs.get? n = some done ∧
        (s0.spad.wf = true → ∀ i, t.spad.read i = if at_ ≤ i ∧ i < at_ + bs.length then bs.getD (i - at_) 0 else s0.spad.read i) ∧
        t = { s0 with engs := t.engs, bytes := t.bytes, spad := t.spad })
    let moves := fun (from_ len dp b : Nat) => s.sideRead n o o.sspace from_ len false = (.ok bs, s1) → lands s1 dp b bs
    let packet := fun (op : PeerOp) (x : Xlated) (bs : List Byte) =>
      ({ op := op, addr := x.phys.addr, stamp := s.unitTime u, len := left, data := bs,
         srcdev := (s.part (o.ctx / 4096)).peerIndex.getD 0 } : Packet)
    let leaves := fun (s0 : State) (op : PeerOp) (k : AccKind) (va : Nat) (bs : List Byte) (kept : EngOp) (keep : State → State) =>
      ∀ x s2, State.xlatAll u o.ctx k true false (pagePieces va left) s0 = (.ok [(x, left)], s2) → x.item.kind = .peer →
        (s.loopback (x.item.peerhi ++ o.peer) = none → ∃ t, only s t ∧
          t.engs.get? n = some { kept with stage := .sent (s.unitTime u) } ∧
          t.sent = s.sent ++ [((x.item.peerhi ++ o.peer).toNat, packet op x bs)] ∧
          t = { s0 with engs := t.engs, sent := t.sent, tlb := t.tlb, walks := t.walks, bytes := t.bytes }) ∧
        (∀ q s3 a, s.loopback (x.item.peerhi ++ o.peer) = some q →
          (keep s2).peerAccess q (packet op x bs) o.watched = (.ok a, s3) →
          (op ≠ .get → ∃ t w, only s3 t ∧ t.engs.get? n = some { done with watched := w } ∧
            t = { s3 with engs := t.engs, bytes := t.bytes }) ∧
          (op = .get → lands { s3 with engs := s3.engs.put n { kept with moved := left, buffer := some a } } o.dspace
            (o.dst + 256 * o.units) a))
    (∀ space from_ len, o.got = [] → s.sideRead n o space from_ len false = (.ok bs, s1) →
      s1 = { s with tlb := s1.tlb, walks := s1.walks, bytes := s1.bytes, l2 := s1.l2, dev := s1.dev, dram := s1.dram, host := s1.host,
                    hostBehind := s1.hostBehind } ∧
      (Canonical s → Refilled s s1 fun _ => False) ∧ (space = 4 → bs = s.lode.readN (lodeAt o.core from_) len) ∧
      (∀ ts s2, space = 0 → State.xlatAll u o.ctx .read false false (pagePieces from_ len) s = (.ok ts, s2) →
        bs = ts.flatMap fun y => if y.1.item.kind = .uncached then s.behindRead y.1.phys y.2 else s.physRead y.1.phys y.2) ∧
      (∀ at_, space ≠ 0 → space ≠ 4 → s.sideScratch o space from_ len = some at_ → bs = s.spad.readN at_ len)) ∧
    (o.stage = .running →
      (o.kind = .copy → o.selfOverlap = false → moves (o.src + 256 * o.units) left o.dspace (o.dst + 256 * o.units)) ∧
      (∀ k off, markedTarget o.core o.index = some (k, off) →
        let size := if o.amod.getLsbD 0 then 8 else 4
        let i := s.spad.nat (spadAt k off + size * o.units) size
        let row := 16 * o.rowsz
        (o.kind = .gather → o.src + i * row < 2 ^ 48 → moves (o.src + i * row) row o.dspace (o.dst + o.units * row)) ∧
        (o.kind = .scatter → o.dst + i * row < 2 ^ 48 → moves (o.src + o.units * row) row o.dspace (o.dst + i * row))) ∧
      (o.kind = .put → s.sideRead n o o.sspace (o.src + 256 * o.units) left false = (.ok bs, s1) →
        leaves s1 .put .write (o.dst + 256 * o.units) bs (holds bs) (keeps bs)) ∧
      (o.kind = .get → leaves s .get .read (o.src + 256 * o.units) [] o fun s => s) ∧
      (o.kind = .red → s.sideRead n o o.sspace (o.src + 256 * o.units) left false = (.ok bs, s1) →
        leaves s1 (.reduce o.amod) .rmw (o.dst + 256 * o.units) bs (holds bs) (keeps bs) ∧
        ∀ x s2, State.xlatAll u o.ctx .rmw true false (pagePieces (o.dst + 256 * o.units) left) s1 = (.ok [(x, left)], s2) →
          x.item.kind ≠ .peer → s1.badPiece x left = false → bs.length = left →
          (s.engBuffered o = false → x.item.kind ≠ .uncached →
            (∀ w ∈ s.engineWatches o.ctx (o.dst + 256 * o.units) left, w ∈ o.watched) →
            ∃ t, only s t ∧ t.engs.get? n = some done ∧
              t = { s1 with engs := t.engs, tlb := t.tlb, walks := t.walks, bytes := t.bytes, l2 := t.l2, poison := t.poison,
                            dev := t.dev, dram := t.dram, host := t.host, hostBehind := t.hostBehind } ∧
              (Canonical s1 → Refilled s1 t (isIn [(x.phys, left)]) ∧
                ∀ i, 4 * i + 4 ≤ left → ∃ old : Word, ∀ j, j < 4 →
                  let p := { x.phys with addr := x.phys.addr + 4 * i + j }
                  (old.extractLsb' (8 * j) 8 = s1.homeByte p ∨ (old.extractLsb' (8 * j) 8 = s1.behindByte p ∧ ¬s1.dirtyByte p)) ∧
                  t.homeByte p = (leBytes 4 (atomicNew (vredCode o.amod.toNat) 32 old.toNat ((wordsIn bs).getD i 0).toNat)).getD j 0)) ∧
          (s.engBuffered o = true → ∀ s3,
            State.bufferFrom n o (wordsIn bs) (64 * o.units)
              (keeps bs s2) = (none, s3) →
            ∃ t, only s t ∧ t.engs.get? n = some done ∧ t = { s3 with engs := t.engs, bytes := t.bytes } ∧
              (t.launch o.launch).buffer = (s.launch o.launch).buffer ++ ((wordsIn bs).zipIdx (64 * o.units)).map fun v =>
                { target := o.dst + 4 * v.2, value := v.1, op := o.amod.toNat - 1, lane := 0, warp := o.wno, block := o.bix,
                  issue := o.issue, element := v.2 }))) ∧
    (∀ stamp, o.stage = .sent stamp → s.unitTime u < stamp + 1000000 →
      ((o.kind = .put ∨ o.kind = .red) → (o.dst + 256 * o.units) % 4096 + left ≤ 4096 → ∃ t, only s t ∧
        t.engs.get? n = some done ∧ t = { s with engs := t.engs, bytes := t.bytes }) ∧
      (o.kind = .get → (o.src + 256 * o.units) % 4096 + left ≤ 4096 →
        let a := peerAnswer s.steps left
        lands { s with engs := s.engs.put n { o with moved := left, buffer := some a, stage := .running } } o.dspace
          (o.dst + 256 * o.units) a))) ∧
  (∀ (s : State) (n : Nat) (o : EngOp), s.engs.get? n = some o → o.kind = .sort → o.stage = .running → o.units < o.len →
    o.cancelled = false → o.got = [] → o.moved = 0 → o.swap = false → s.engLodeBusy o = false →
    let le := fun (a b : Word) => if o.amod = 0 then a.toNat ≤ b.toNat else if o.amod = 1 then a.toInt ≤ b.toInt
      else (orderKey a).toNat ≤ (orderKey b).toNat
    let before := fun (a b : Word × Word) => if o.desc then le b.1 a.1 else le a.1 b.1
    (∀ a b, o.buffer = none → s.sideScratch o 1 o.src (4 * o.len) = some a → s.sideScratch o 1 o.dst (4 * o.len) = some b →
      let old := (wordsIn (s.spad.readN a (4 * o.len))).zip (wordsIn (s.spad.readN b (4 * o.len)))
      ∃ new : List (Word × Word), new.Perm old ∧ new.Pairwise before ∧
        (∀ k : Word × Word, new.filter (fun p => decide (before p k ∧ before k p)) =
          old.filter fun p => decide (before p k ∧ before k p)) ∧
        exec (.engineUnitTransfer n) s = .next { s with
          engs := s.engs.put n { o with buffer := some (new.flatMap fun p => leBytes 4 p.1.toNat ++ leBytes 4 p.2.toNat) } }) ∧
    (∀ all a b, o.buffer = some all → 8 * o.units + 8 ≤ all.length → s.sideScratch o 1 (o.src + 4 * o.units) 4 = some a →
      s.sideScratch o 1 (o.dst + 4 * o.units) 4 = some b → (a + 4 ≤ b ∨ b + 4 ≤ a) → s.spad.wf = true →
      ∃ t, exec (.engineUnitTransfer n) s = .next t ∧ t.engs.get? n = some { o with units := o.units + 1 } ∧
        (∀ m, m ≠ n → t.engs.get? m = s.engs.get? m) ∧
        (∀ i, t.spad.read i = if a ≤ i ∧ i < a + 4 then all.getD (8 * o.units + (i - a)) 0
          else if b ≤ i ∧ i < b + 4 then all.getD (8 * o.units + 4 + (i - b)) 0 else s.spad.read i) ∧
        t = { s with engs := t.engs, bytes := t.bytes, spad := t.spad })) ∧
  (∀ (s s1 : State) (n : Nat) (o : EngOp) (x : Xlated) (y : TlbItem) (until_ : Nat), s.engs.get? n = some o → o.stage = .running →
    o.kind = .copy → o.units < o.total → o.dspace = 1 → o.sspace = 0 →
    (o.src + 256 * o.units) % 4096 + min 256 (o.len - 256 * o.units) ≤ 4096 → y ∈ s.tlb → y.expiry = some until_ →
    y.serves (.engine o.engine) o.ctx (o.src + 256 * o.units) (s.unitTime (.engine o.engine)) = true →
    8 * (until_ - s.unitTime (.engine o.engine)) < y.lease →
    s.translate (.engine o.engine) o.ctx (o.src + 256 * o.units) .read false true true = (.ok x, s1) →
    exec (.leaseRenewal n) s = .next s1) ∧
  (∀ (s : State) (link skew : Nat),
    (skew ≤ 256 → exec (.fabricLinkSkewDown link skew) s = .next s) ∧
    (256 < skew → ∃ t, exec (.fabricLinkSkewDown link skew) s = .next t ∧ link ∈ t.downLinks ∧
      (∀ k, k ∈ s.downLinks → k ∈ t.downLinks) ∧ t = { s with downLinks := t.downLinks, evHeld := t.evHeld, fns := t.fns }))

/-- WARP_SWAP_OUT exchanges an active warp for the pending ready warp that has waited longest, where the active one
has been blocked for 32 cycles, without an issue of its own since, by one of the reasons that R20 lists, or the
pending one has waited for 4,096 cycles (log 80); in any other case it changes nothing. SYNC_BLOCK_TIMEOUT marks a
warp stalled for 4,096 cycles by one of the reasons that R48 lists, and no other. WARP_EVICTION of a chosen warp (log
81 says how warps of several contexts are compared), settled and with no held class X instruction, writes its record,
frees its slots and takes it out of both sets; one that is not yet so stops issuing; any other warp stays. WARP_REFILL
of the oldest evicted warp, where the allocation rule admits its names, brings the names of its record back, and of
any other changes nothing. SLOT_ALLOCATION lets a warp stalled on allocation issue as the next turn. Nothing else
changes, but for what writing or reading the record does to translations. BARRIER_WAITER_RELEASE of a wait whose phase
is complete, whichever phase its entry is in now, and FWAIT_RELEASE of one whose fence meets its comparison, write the
status word of the phase waited for or the fence's value to the destination in the waiting lanes that live, move those
lanes to the next PC, end the wait and invalidate L1; SLEEP_EXPIRY ends a sleep whose time has come. Before that each
changes nothing. Nothing but the warp and, for the waits that acquire, its core's L1 changes. (R20, R48, R50, R52,
R53, R27, R34, R139, R239.) -/
def Obligations.WarpEvents : Prop :=
  (
  (∀ (s : State) (c out into : Nat) (w : Warp), s.warp? c out = some w →
    let counts := fun (k : StallKind) => k ∈ [StallKind.array, .held, .fetch, .constant] ∨ (∃ m, k = .allocation m) ∨
      (∃ a b x y, k = .classCounters a b x y) ∨ ∃ n, k = .scoreboard n ∧ ∃ d ∈ s.asyncDests c out w, n ∈ constituents d.1.name d.2
    let blocked := if w.issuable = 0 then
        (∃ x ∈ w.waits, (∃ g p y d, x.kind = .barrier g p y d) ∨ ∃ a z, x.kind = .sleep a z) ∧ w.ran + 32 ≤ s.cycle ∧
          ∀ x ∈ w.waits, x.since + 32 ≤ s.cycle
      else ∃ x, w.stall = some x ∧ counts x.kind ∧ x.since + 32 ≤ s.cycle
    let late := ∃ v, s.warp? c into = some v ∧ v.queued + 4096 ≤ s.cycle
    let ready := fun (i : Nat) => ∃ v, s.warp? c i = some v ∧ v.issuable ≠ 0 ∧ v.leaving = false ∧
      ∀ x, v.stall = some x → s.stallOver c i v x.kind = true
    let first := ∃ before rest, (s.core c).pending = before ++ into :: rest ∧ ready into ∧ ∀ i ∈ before, ¬ready i
    ((s.core c).active.contains out = true → blocked ∨ late → first →
      ∃ t, exec (.warpSwapOut c out into) s = .next t ∧ t = { s with cores := t.cores } ∧ (∀ k, k ≠ c → t.core k = s.core k) ∧
        t.core c = { s.core c with active := (s.core c).active.filter (· != out) ++ [into],
                                   pending := (s.core c).pending.filter (· != into) ++ [out], warps := (t.core c).warps } ∧
        t.warp? c out = some { w with queued := s.cycle } ∧ ∀ i, i ≠ out → t.warp? c i = s.warp? c i) ∧
    (¬((s.core c).active.contains out = true ∧ (blocked ∨ late) ∧ first) → exec (.warpSwapOut c out into) s = .next s)) ∧
  (∀ (s : State) (c o : Nat) (w : Warp), s.warp? c o = some w →
    let counts := fun (k : StallKind) => k ∈ [StallKind.operandLog, .array, .held, .fetch, .constant] ∨
      (∃ a b x y, k = .classCounters a b x y) ∨ ∃ n, k = .scoreboard n ∧ ∃ d ∈ s.asyncDests c o w, n ∈ constituents d.1.name d.2
    let blocked := ∃ x, w.stall = some x ∧ counts x.kind ∧ x.since + 4096 ≤ s.cycle
    (blocked → exec (.syncBlockTimeout c o) s = .next (s.setWarp c o { w with timeout := true })) ∧
    (¬blocked → exec (.syncBlockTimeout c o) s = .next s)) ∧
  (∀ (s s1 : State) (c o : Nat) (w : Warp), s.warp? c o = some w → w.evicted = false → w.live ≠ 0 →
    let chosen := w.leaving = true ∨ s.preemptEvicts c o w = true ∨ ∃ x ∈ (s.core c).contexts, s.victim c x = some o
    let ready := w.settled = true ∧ (s.core c).holdsX o = false
    (chosen → ready → s.vaWrite (.core c) w.ctx (s.recordAt w.ctx c o) w.recordBytes true false = (none, s1) →
      ∃ t, exec (.warpEviction c o) s = .next t ∧ o ∉ (t.core c).active ∧ o ∉ (t.core c).pending ∧
        t.warp? c o = some { w with evicted := true, leaving := false, screeNames := w.names.length, names := [] } ∧
        t = { s1 with cores := t.cores, parts := t.parts } ∧ (∀ k, k ≠ c → t.core k = s1.core k) ∧
        (∀ i, i ≠ o → t.warp? c i = s1.warp? c i) ∧
        t.core c = { s1.core c with warps := (t.core c).warps, active := (t.core c).active, pending := (t.core c).pending } ∧
        ∀ p, t.part p = { s1.part p with counters := (t.part p).counters }) ∧
    (chosen → ¬ready → exec (.warpEviction c o) s = .next (s.setWarp c o { w with leaving := true })) ∧
    (¬chosen → exec (.warpEviction c o) s = .next s)) ∧
  (∀ (s : State) (c o : Nat) (w : Warp), s.warp? c o = some w →
    let may := s.nextRefill c w.ctx = some o ∧ s.refillable w = true ∧ s.canAllocate c o w w.screeNames = true
    (¬may → exec (.warpRefill c o) s = .next s) ∧
    (∀ (s1 : State) (bs : List Byte), may →
      s.vaRead (.core c) w.ctx (s.recordAt w.ctx c o) (1088 + 144 * w.screeNames) true false = (.ok bs, s1) →
      ∃ t, exec (.warpRefill c o) s = .next t ∧ (o ∈ (t.core c).active ∨ o ∈ (t.core c).pending) ∧
        t.warp? c o = some { w with evicted := false, names := namesOfRecord bs w.screeNames, screeNames := 0, queued := s.cycle } ∧
        t = { s1 with cores := t.cores, parts := t.parts } ∧ (∀ k, k ≠ c → t.core k = s1.core k) ∧
        (∀ i, i ≠ o → t.warp? c i = s1.warp? c i) ∧
        t.core c = { s1.core c with warps := (t.core c).warps, active := (t.core c).active, pending := (t.core c).pending })) ∧
  (∀ (s : State) (c o m n : Nat) (w : Warp), s.warp? c o = some w → w.stall = some { kind := .allocation m, since := n } →
    w.leaving = false → (s.core c).active.contains o = true →
    exec (.slotAllocation c o) s = .next { s with turns := .issue c o :: s.turns })) ∧
  (
  ∀ (s : State) (c o i : Nat) (w : Warp) (lanes : Mask) (from_ : Nat) (due : Option Word), s.warp? c o = some w → w.evicted = false →
    let done := fun (t : State) (w' : Warp) => t.warp? c o = some w' ∧
      (∀ l, l < 32 → w'.pc l = if laneOn (lanes &&& w.live) l then nextPc (w.pc l) else w.pc l) ∧
      w'.waits = (w.waits.filter fun x => x.lanes &&& lanes == 0) ∧ w'.live = w.live ∧ w'.traps = w.traps ∧
      t = { s with cores := t.cores } ∧ (∀ k, k ≠ c → t.core k = s.core k) ∧ (∀ p, p ≠ o → t.warp? c p = s.warp? c p) ∧
      t.core c = { s.core c with warps := (t.core c).warps, l1 := (t.core c).l1 }
    let gives := fun (w' : Warp) (d : Dest) (k : Nat) (v : List Word) => ∀ j n, (constituents d.name k)[j]? = some n →
      (isV n = true → d.count ≠ 0 → ∀ l, l < 32 → laneOn (d.lanes &&& w.live) l = true →
        w'.val n l = v.getD j 0 ∧ w'.count n l = d.count ∧ (isV d.name.toNat = true → w'.pendingName n = false)) ∧
      (isK n = true → isK d.name.toNat = true → w.live ≠ 0 → d.lanes ≠ 0 → w'.val n 0 = v.getD j 0)
    (∀ g p y d, w.waits[i]? = some { lanes := lanes, kind := .barrier g p y d, since := from_, due := due } →
      let ends := fun (v : Word) => ∃ t w', exec (.barrierWaiterRelease c o i) s = .next t ∧ done t w' ∧ (t.core c).l1 = [] ∧
        gives w' d 1 [v]
      (∀ v, due = some v → ends v) ∧
      (∀ k x, due = none → s.group? w g = some (k, x) → x.phase ≠ p → ends (if p then x.status1 else x.status0)) ∧
      (due = none → (∀ k x, s.group? w g = some (k, x) → x.phase = p) → exec (.barrierWaiterRelease c o i) s = .next s)) ∧
    (∀ id cmp v q d, w.waits[i]? = some { lanes := lanes, kind := .fence id cmp v q d, since := from_, due := due } →
      let x := (s.part (s.partOfCore c)).fence id
      let ok := if cmp = 0 then v.toNat ≤ x.toNat else if cmp = 1 then x = v else x ≠ v
      (ok → ∃ t w', exec (.fwaitRelease c o i) s = .next t ∧ done t w' ∧ (t.core c).l1 = [] ∧
        gives w' d 2 [x.extractLsb' 0 32, x.extractLsb' 32 32]) ∧
      (¬ok → exec (.fwaitRelease c o i) s = .next s)) ∧
    (∀ wake zero, w.waits[i]? = some { lanes := lanes, kind := .sleep wake zero, since := from_, due := due } →
      let ok := if zero then w.issuable = 0 ∧ w.halted = false else wake ≤ s.timeAt c
      (ok → ∃ t w', exec (.sleepExpiry c o i) s = .next t ∧ done t w' ∧ (t.core c).l1 = (s.core c).l1) ∧
      (¬ok → exec (.sleepExpiry c o i) s = .next s)))

/-- BLOCK_ADMISSION of a launch's next block, where arbitration and the position allow it, whose launch reads no
schedule table, whose group image is read, and whose cores have room: the block is resident at the position; its
scratchpad reads zero on each of its cores; each of its groups is in an entry of the cluster filled from the image;
each of its warps is in an entry of its core with every lane live at the entry PC and no name bound; the launch runs,
and its next block follows. Where they do not allow it nothing changes, and where a core that a context leaves has too
few slots the launch admits nothing yet. (That the lowest free entries are taken is the model's choice, log 97.)
BLOCK_END of a block that is over removes it, its warps and its group entries, and counts it; of any other it makes
the drops of exited warps that have become possible, and nothing else (R286). The reductions of a launch are a
permutation of its records, ordered by block, warp, issue, lane and element. TIME_SLICE_EXPIRY serves the next waiting
function. A running launch completes exactly when every block has been admitted and has ended, its reductions are
applied, no class X operation of it is left, and none of its stores still waits in the store-fault area: it is then in
state 3, with reason 0x20 if its buffer overflowed, and its end time; once its status has been written the completion
fence is updated by its operation and it is closed. The reductions of such a launch are applied one after another,
ordered by block, warp, issue, lane and element, each as the RED it stands for, and the buffer is then empty. (DESIGN
CHOICE, log 54: the records are kept in the launch and applied from there. DEDUCED from R282, log 105: completion and
the reductions also wait for class X operations and for stores in the store-fault area.) (R16, R17, R22, R24, R55,
R252, R294, R303, R282, R290, R296, R298.) -/
def Obligations.BlocksAndLaunchEnd : Prop :=
  (
  (∀ (s : State) (n c : Nat) (l : Launch), s.launches.get? n = some l →
    let may := s.mayAdmit n l = true ∧ (s.placements l).contains c = true
    let room := ∀ k ∈ l.run c, (s.core k).contexts.contains l.ctx = true ∨ (∀ y ∈ (s.core k).contexts, (s.ctx y).pre = 0) ∨
      l.needs + s.reserves k ≤ (s.core k).freeSlots
    (¬may → exec (.blockAdmission n c) s = .next s) ∧
    (may → ¬room → ∃ t, exec (.blockAdmission n c) s = .next t ∧ t.launch n = l) ∧
    (∀ (s1 : State) (image : List Byte), may → room → l.flag 1 = false → 0 < l.shape → l.nwarps % l.shape = 0 → s.spad.wf = true →
      State.cpReads (.launch n) l.part l.ctx [(fieldAt l.record 96 8, 16 * l.ngroups)] s = (.ok [image], s1) →
      ∃ t b, exec (.blockAdmission n c) s = .next t ∧ (t.launch n).next = l.next + 1 ∧ (t.launch n).state = 2 ∧
        t.blocks.get? s.blocks.fresh = some b ∧ b.launch = n ∧ b.index = s.blockFor l c ∧ b.cores = l.run c ∧
        b.scratchSize = l.scratchSize ∧ b.groups.length = l.ngroups ∧
        (∀ k ∈ l.run c, ∀ a, b.scratchOff ≤ a → a < b.scratchOff + l.scratchSize → t.spad.read (spadAt k a) = 0) ∧
        (∀ i, i < l.ngroups → ∃ k, b.groups[i]? = some (sliceOf c, k) ∧
          let m : BitVec 128 := BitVec.ofNat 128 (fieldAt image (16 * i) 16)
          let filled : GroupEntry := ⟨s.blocks.fresh, 0, 0, false, 0, popMembers m, 0, 0, m⟩
          t.groups.get? (groupKey (sliceOf c) k) = some filled) ∧
        (∀ i, i < l.nwarps → ∃ o w, t.warp? (c + i / max l.perCore 1) o = some w ∧ w.block = s.blocks.fresh ∧ w.number = i ∧
          w.ctx = l.ctx ∧ w.launch = n ∧ w.live = fullMask ∧ w.names = [] ∧ w.evicted = false ∧
          ∀ lane, lane < 32 → w.pc lane = BitVec.ofNat 48 (fieldAt l.record 0 8)))) ∧
  (∀ (s : State) (n : Nat) (b : Block), s.blocks.get? n = some b →
    (s.blockOver n b = false → ∃ t, exec (.blockEnd n) s = .next t ∧ t = b.cores.foldl (fun s c => s.coreDrops c) s ∧
      t = { s with groups := t.groups, cores := t.cores, cycle := t.cycle, dropAt := t.dropAt }) ∧
    (s.blockOver n b = true → ∃ t, exec (.blockEnd n) s = .next t ∧ t.blocks = s.blocks.del n ∧
      t.groups = (s.groups.filter fun g => g.2.block != n) ∧
      (∀ c ∈ b.cores, ∀ o w, t.warp? c o = some w → w.block ≠ n) ∧
      (∀ l, s.launches.get? b.launch = some l → t.launch b.launch = { l with ended := l.ended + 1 }) ∧
      t = { s with blocks := t.blocks, groups := t.groups, cores := t.cores, launches := t.launches } ∧
      ∀ c, c ∉ b.cores → t.core c = s.core c)) ∧
  (∀ rs : List RedRecord, (sortRecords rs).Perm rs ∧ (sortRecords rs).Pairwise fun a b => b.before a = false) ∧
  (∀ (s : State) (p f g : Nat), (s.part p).serving = some f → (s.part p).sliceEnd ≤ s.time →
    nextServed (some f) ((s.wantingFns p).filter (· != f)) = some g →
    ∃ t, exec (.timeSliceExpiry p) s = .next t ∧ (t.part p).serving = some g ∧
      (t.part p).sliceEnd = s.time + max 10000 (s.fn g).slice ∧
      (∀ x d, s.ctxs.get? x = some d → d.part = p → d.fn = f → s.ctxResident x = true → d.pre = 0 → (t.ctx x).pre = 1))) ∧
  (
  let quiet := fun (n : Nat) (l : Launch) (s : State) => s.launchBusyX l = false ∧ ∀ e ∈ (s.ctx l.ctx).storeFaults, e.2.acc.launch ≠ n
  (∀ (s : State) (n : Nat) (l : Launch), s.launches.get? n = some l → l.state = 2 →
    let done := l.next = l.grid.1 * l.grid.2.1 * l.grid.2.2 ∧ l.ended = l.grid.1 * l.grid.2.1 * l.grid.2.2 ∧ l.buffer = [] ∧
      quiet n l s
    (¬done → exec (.launchComplete n) s = .next s) ∧
    (done → ∃ t, exec (.launchComplete n) s = .next t ∧ (t.launch n).state = 3 ∧ (t.launch n).endt = s.time ∧
      (t.launch n).startt = l.startt ∧ (t.launch n).reason = (if l.overflow then 0x20 else 0) ∧
      (n ∉ (t.part l.part).statusOwed → (t.launch n).closed = true ∧
        (l.flag 4 = true →
          let id := fieldAt l.record 138 2
          let v : BitVec 64 := BitVec.ofNat 64 (fieldAt l.record 152 8)
          let old := (s.part l.part).fence id
          let op := fieldAt l.record 23 1 / 32 % 4
          (t.part l.part).fence id = if op = 0 then old + v else if op = 1 then v
            else if old.toNat < v.toNat then v else old)))) ∧
  (∀ (s after : State) (n : Nat) (l : Launch), s.launches.get? n = some l → l.state = 2 → quiet n l s → l.next = l.grid.1 * l.grid.2.1 * l.grid.2.2 → l.ended = l.grid.1 * l.grid.2.1 * l.grid.2.2 →
    l.buffer ≠ [] → (∀ r ∈ l.buffer, s.cpGate (.launch n) l.part l.ctx (pagePieces r.target 4) = (none, false)) →
    let apply_ := fun (o : Option State) (r : RedRecord) => o.bind fun s =>
      match State.xlatAll (.cp l.part) l.ctx .rmw false false (pagePieces r.target 4) s with
      | (.ok ts, s1) => if ts.any fun x => s1.badPiece x.1 x.2 then none
        else some (ts.foldl (fun s x => State.combineAt x.1 (7 + r.op) [r.value] 0 s)
          (s1.modPart l.part fun q => q.dropWait (.launch n) l.ctx r.target))
      | _ => none
    (sortRecords l.buffer).foldl apply_ (some s) = some after →
    ∃ t, exec (.reductionBufferApply n) s = .next t ∧ t.launch n = { l with buffer := [] } ∧
      t = { after with launches := t.launches }))

/-- A doorbell value is accepted by a served queue when its upper half is zero and it lies one to ring size ahead of
head and not behind the last accepted tail: then it is the tail and a stopped queue goes on. Any other value to a
function in use is ignored with a record of kind 8 at most, and one to no function changes nothing. Enabling a
disabled queue makes head and tail read 0; every other queue stays. With the entry at the head able to begin: a fence
signal updates its fence and the head moves on; a fence wait moves the head on and is kept as begun until its
condition holds; a launch whose record is queued moves the head on and is kept until it completes, one rejected moves
the head on and never completes, one that waits for a page keeps its record if it is read and leaves the head; a lode
copy inside its window writes exactly its bytes, and one outside it stops the queue. A pending LAUNCH instruction
whose queue it may not use gets FIELD_RESERVED in its status, one whose record is queued gets state 0, one whose
record cannot be read gets PERM, and one whose record is rejected FIELD_RESERVED. An entry that breaks the table, and
one in a poisoned line (DESIGN CHOICE, log 90), stop their queue. (That the ring is read at the physical address that
its base names is the model's choice, logs 12 and 24; that a rejected launch never completes is log 51.) (R291, R292,
R237, R289, R293, R295.) -/
def Obligations.QueueRules : Prop :=
  (
  (∀ (s : State) (fn q : Nat), s.fns.has fn = true →
    (∀ v : BitVec 64, s.queueServed fn q = true →
      let d := s.queue fn q
      let ahead := (v.extractLsb' 0 32 - d.head).toNat
      let ok := v.toNat < 2 ^ 32 ∧ 1 ≤ ahead ∧ ahead ≤ 2 ^ d.log2 ∧ (d.tail - d.head).toNat ≤ ahead
      (ok → ∃ t, exec (.queueDoorbell fn q v) s = .next t ∧
        t.queue fn q = { d with tail := v.extractLsb' 0 32, stopped := false } ∧
        (∀ p, p ≠ q → t.queue fn p = s.queue fn p) ∧ t = { s with fns := t.fns }) ∧
      (¬ok → exec (.queueDoorbell fn q v) s = .next (s.postControl fn))) ∧
    (∀ v : BitVec 64, s.queueServed fn q = false → exec (.queueDoorbell fn q v) s = .next (s.postControl fn)) ∧
    (q < 64 → ∃ t, exec (.queueEnable fn q true) s = .next t ∧ (t.queue fn q).enable = true ∧
      ((s.queue fn q).enable = false → (t.queue fn q).head = 0 ∧ (t.queue fn q).tail = 0 ∧ (t.queue fn q).work = []) ∧
      ((s.queue fn q).enable = true → t.queue fn q = s.queue fn q) ∧ (∀ p, p ≠ q → t.queue fn p = s.queue fn p)) ∧
    (q < 64 → ∃ t, exec (.queueEnable fn q false) s = .next t ∧ t.queue fn q = { s.queue fn q with enable := false } ∧
      (∀ p, p ≠ q → t.queue fn p = s.queue fn p))) ∧
  (∀ (s : State) (fn q : Nat) (v : BitVec 64), s.fns.has fn = false → exec (.queueDoorbell fn q v) s = .next s)) ∧
  (
  ∀ (s s1 : State) (fn q x : Nat),
    let p := s1.fnPart fn
    let moved := fun (t u : State) => (u.queue fn q).head = (t.queue fn q).head + 1
    (∀ id op v, s.headEntry fn q = (some (x, .signal id op v), s1) →
      ∃ t, exec (.fenceSignalEntry fn q) s = .next t ∧ moved s1 t ∧
        (∀ p' i, (t.part p').fence i = if p' = p ∧ i = id then
          (let old := (s1.part p).fence id
           if op = 0 then old + v else if op = 1 then v else if old.toNat < v.toNat then v else old)
          else (s1.part p').fence i) ∧ (∀ i, i ≠ q → t.queue fn i = s1.queue fn i) ∧ t = { s1 with parts := t.parts, fns := t.fns }) ∧
    (∀ id cmp v, s.headEntry fn q = (some (x, .wait id cmp v), s1) →
      let y := (s1.part p).fence id
      let ok := if cmp = 0 then v.toNat ≤ y.toNat else if cmp = 1 then y = v else y ≠ v
      ∃ t, exec (.fenceWaitEntry fn q) s = .next t ∧ moved s1 t ∧
        (¬ok → ((s1.queue fn q).head, QWork.wait id cmp v) ∈ (t.queue fn q).work) ∧
        (ok → ((s1.queue fn q).head, QWork.wait id cmp v) ∉ (t.queue fn q).work) ∧
        (∀ i, i ≠ q → t.queue fn i = s1.queue fn i) ∧ t = { s1 with fns := t.fns }) ∧
    (∀ addr, s.headEntry fn q = (some (x, .launch addr), s1) → ∀ s2,
      let taken := s1.takeRecord (.entry fn q) p x fn q addr (s1.queue fn q).record
      (∀ n, taken = (.queued n, s2) → ∃ t, exec (.launchEntry (.queue fn q)) s = .next t ∧ moved s2 t ∧
        ((s2.queue fn q).head, QWork.launch n) ∈ (t.queue fn q).work) ∧
      (∀ u, taken = (.rejected u, s2) → ∃ t, exec (.launchEntry (.queue fn q)) s = .next t ∧ moved s2 t ∧
        ((s2.queue fn q).head, QWork.rejected) ∈ (t.queue fn q).work ∧ t.workDone p .rejected = false) ∧
      (∀ r, taken = (.waiting r, s2) → ∃ t, exec (.launchEntry (.queue fn q)) s = .next t ∧
        t.queue fn q = { s2.queue fn q with record := r } ∧ t = { s2 with fns := t.fns })) ∧
    (∀ src off die len, s.headEntry fn q = (some (x, .copy src off die len), s1) →
      (s1.lodeWindow x die off len = false → ∃ t, exec (.lodeCopyEntry fn q) s = .next t ∧ (t.queue fn q).stopped = true ∧
        (t.queue fn q).head = (s1.queue fn q).head ∧ t.lode = s1.lode) ∧
      (∀ bs s2, s1.lodeWindow x die off len = true → (s1.part p).copying = [] → s1.ctxRuns x = false → s1.lode.wf = true →
        (s1.modPart p fun d => { d with copying := [(x, 64 * fn + q)] }).cpRead (.entry fn q) p x src len = (.ok bs, s2) → s2.lode = s1.lode →
        ∃ t, exec (.lodeCopyEntry fn q) s = .next t ∧ moved s2 t ∧
          ∀ a, t.lode.read a = if die * 2 ^ 30 + off ≤ a ∧ a < die * 2 ^ 30 + off + bs.length then
            bs.getD (a - (die * 2 ^ 30 + off)) 0 else s1.lode.read a)) ∧
    (∀ n (r : LaunchReq) (w : Warp), (s.part n).requests = [r] → w.wid = r.wid → w.evicted = false → isV r.dest.name.toNat = true →
      r.dest.count ≠ 0 →
      let y := ctxKey n (r.wid.extractLsb' 52 12).toNat
      let taken := s.takeRecord (.request r.number) n y (s.ctx y).fn r.queue r.addr r.record
      let answered := fun (word : Word) => ∃ t w', exec (.launchEntry (.device n 0)) s = .next t ∧ (t.part n).requests = [] ∧
        t.warp? r.core r.slot = some w' ∧ ∀ l, l < 32 → laneOn (r.dest.lanes &&& w.live) l = true → w'.val r.dest.name.toNat l = word
      (s.deviceQueueOk y r.queue = false → s.warp? r.core r.slot = some w → answered 0x0A2) ∧
      (s.deviceQueueOk y r.queue = true → (s1.part n).requests = [r] → s1.warp? r.core r.slot = some w →
        (∀ k, taken = (.queued k, s1) → answered 0) ∧ (taken = (.rejected true, s1) → answered 0x122) ∧
        (taken = (.rejected false, s1) → answered 0x0A2))) ∧
    (s.queueServed fn q = true → (s.queue fn q).stopped = false → (s.queue fn q).head ≠ (s.queue fn q).tail →
      ∀ y, s.useCtx fn (s.queue fn q).ctx = (some y, s1) → s1.fns = s.fns →
      let place := (s.queue fn q).base.toNat + 64 * ((s.queue fn q).head.toNat % 2 ^ (s.queue fn q).log2)
      ((∃ l ∈ linesFrom place 64, s1.poisoned (physOf (128 * l)) = true) ∨ qentryOf (s1.physRead (physOf place) 64) = none) →
      ∃ t, exec (.launchEntry (.queue fn q)) s = .next t ∧ (t.queue fn q).stopped = true ∧
        (t.queue fn q).head = (s.queue fn q).head))

/-- A record is rejected for the first reason that applies in the order of R289; each reason needs the ones before it
to pass. An accepted record becomes a launch in state 0, or 1 when it takes its grid from memory, whose identity is
its context's sequence number, which rises by one modulo 2^20. GRID_READ waits for its fence; then the three words are
the grid, or a product that exceeds 2^32 − 1 warps rejects the launch with 0x0A. A record that has been read while a
later read waited is the one that the launch keeps. (R17, R288, R289, R297, R298.) -/
def Obligations.LaunchRecords : Prop :=
  (∀ (p : Part) (d : Desc) (det : Bool) (addr : Nat) (x : LaunchData),
    let f := fieldAt x.record
    let r := rejectReason p d det addr x
    (r ∈ [0, 0x02, 0x03, 0x04, 0x05, 0x06, 0x07, 0x08, 0x09, 0x0A, 0x0B, 0x0C, 0x0D]) ∧
    (r = 0 → 1 ≤ f 20 2 ∧ f 20 2 ≤ 128 ∧ f 20 2 % f 22 1 = 0 ∧ f 20 2 / f 22 1 ≤ 64 ∧ 1 ≤ f 24 2 ∧ f 24 2 ≤ 320 ∧ f 24 2 ≤ d.hs ∧
      f 26 2 ≤ 4096 ∧ (f 26 2 = 0 ∨ f 24 2 ≤ f 26 2) ∧ f 28 4 ≤ 1572864 ∧ f 104 2 ≤ 256 ∧ addr % 256 = 0 ∧
      f 160 8 % 32 = 0 ∧ f 8 4 * f 12 4 * f 16 4 * f 20 2 < 2 ^ 32) ∧
    (f 6 2 ≠ 0 → r = 0x02) ∧
    (r ∉ [0x02, 0x03] → (f 20 2 = 0 ∨ 128 < f 20 2) → r = 0x04) ∧
    (r ∉ [0x02, 0x03, 0x04] → (f 24 2 = 0 ∨ 320 < f 24 2) → r = 0x05) ∧
    (r ∉ [0x02, 0x03, 0x04, 0x05] → f 26 2 ≠ 0 → f 26 2 < f 24 2 → r = 0x06) ∧
    (r ∉ [0x02, 0x03, 0x04, 0x05, 0x06] → 1572864 < f 28 4 → r = 0x07) ∧
    (r ∉ [0x02, 0x03, 0x04, 0x05, 0x06, 0x07, 0x08] → addr % 256 ≠ 0 → r = 0x09) ∧
    (r ∉ [0x02, 0x03, 0x04, 0x05, 0x06, 0x07, 0x08, 0x09] → 2 ^ 32 ≤ f 8 4 * f 12 4 * f 16 4 * f 20 2 → r = 0x0A)) ∧
  (∀ (s : State) (l : Launch), l.state = 0 →
    ∃ n t m, s.queueLaunch l = (n, t) ∧ s.launches.get? n = none ∧ t.launches.get? n = some m ∧
      m.ident = BitVec.ofNat 20 (s.ctx l.ctx).launchSeq ∧ (t.ctx l.ctx).launchSeq = ((s.ctx l.ctx).launchSeq + 1) % 2 ^ 20 ∧
      m.record = l.record ∧ m.state = if l.flag 3 then 1 else 0) ∧
  (∀ (s t : State) (j : CpWork) (p x fn q addr n : Nat) (r : List Byte), s.takeRecord j p x fn q addr (some r) = (.queued n, t) →
    (t.launch n).record = r ∧ (t.launch n).fmts = (List.range 8).map fun i => BitVec.ofNat 64 (fieldAt r (32 + 8 * i) 8)) ∧
  (∀ (s : State) (n : Nat) (l : Launch), s.launches.get? n = some l → l.state = 1 → l.gridRead = false → l.gridSeen = false →
    let value := (s.part l.part).fence (fieldAt l.record 136 2)
    (value.toNat < fieldAt l.record 144 8 % 2 ^ 64 → exec (.gridRead n) s = .next s) ∧
    (∀ bs s1, fieldAt l.record 144 8 % 2 ^ 64 ≤ value.toNat →
      (s.modLaunch n fun l => { l with gridSeen := true }).cpRead (.launch n) l.part l.ctx (fieldAt l.record 128 8) 12 = (.ok bs, s1) →
      s1.launches.get? n = some { l with gridSeen := true } →
      let big := 2 ^ 32 ≤ fieldAt bs 0 4 * fieldAt bs 4 4 * fieldAt bs 8 4 * fieldAt l.record 20 2
      ∃ t, exec (.gridRead n) s = .next t ∧ (t.launch n).grid = (fieldAt bs 0 4, fieldAt bs 4 4, fieldAt bs 8 4) ∧
        (¬big → (t.launch n).gridRead = true ∧ (t.launch n).state = 1) ∧
        (big → (t.launch n).state = 4 ∧ (t.launch n).reason = 0x0A)))

/-- A retry of a context the function owns serves what waits for its PAGE_S1 faults; a flush performs what has been
begun under the context's translations (R312), and then leaves no translation, walk-cache item or fabric-map item of
the context and every one of another. A reply whose tag and sequence number name an outstanding request of the
partition, with legal fields, frees the tag and serves what joined the request, in every context of the partition,
with the reply's code; any other value changes only the event records. Serving marks a unit's wait served once, with
the code of a refusal; a retry leaves one whose notice has not been posted, and a reply one whose unit and context
have an earlier record still held; the reply is then kept (DEDUCED from R331, log 91). EVENT_RECORD_POST of a function
whose queue is configured and not full writes the first of its held records in 64 bytes at the tail, with flag 13 if
one was dropped before, raises the tail, signals vector 0, drops the lanes that waited for the record, and lets the
replies that are kept serve; in every other case nothing changes. (That the record is written at the physical address
that the queue's base names is the model's choice, logs 24 and 12.) A record is held behind those of earlier cycles,
and among those of its cycle behind those of lower cores, the hub's own last. EVENT_QUEUE_HEAD sets the head. Records
of kinds 0 to 3 are always held; one of kind 4 or more beyond 64 of them is dropped, and lost rises. (R314, R322,
R324, R325, R326, R329, R330, R331, R345.) -/
def Obligations.DoorbellsAndEventQueues : Prop :=
  (
  (∀ (s : State) (fn : Nat) (v : BitVec 64),
    (∀ x, s.namedCtx fn v = some x → exec (.pageRetryDoorbell fn v) s = .next (s.serve x .retry) ∧
      ∃ t, exec (.hostContextFlush fn v) s = .next t ∧
        let s := s.finishLanes fun _ y _ => y == x
        (∀ i ∈ t.tlb, i.ctx ≠ x) ∧ (∀ i ∈ t.walks, i.ctx ≠ x) ∧
        (∀ i ∈ t.maps, i.ctx ≠ x) ∧
        (∀ i ∈ s.tlb, i.ctx ≠ x → i ∈ t.tlb) ∧ (∀ i ∈ s.walks, i.ctx ≠ x → i ∈ t.walks) ∧
        (∀ i ∈ s.maps, i.ctx ≠ x → i ∈ t.maps) ∧ t = { s with tlb := t.tlb, walks := t.walks, maps := t.maps }) ∧
    (∀ x, s.begunLanes (fun _ y _ => y == x) = [] → (s.finishLanes fun _ y _ => y == x) = s) ∧
    (s.namedCtx fn v = none → s.fns.has fn = true →
      exec (.pageRetryDoorbell fn v) s = .next (s.postError fn (v.toNat % 4096) 0 0 0) ∧
      exec (.hostContextFlush fn v) s = .next (s.postError fn (v.toNat % 4096) 0 0 0)) ∧
    (s.namedCtx fn v = none → s.fns.has fn = false → exec (.pageRetryDoorbell fn v) s = .next s ∧
      exec (.hostContextFlush fn v) s = .next s)) ∧
  (∀ (s : State) (p : Nat) (v : BitVec 64), s.parts.has p = true →
    let tag := (v.extractLsb' 0 11).toNat
    let legal := v.extractLsb' 32 32 = 0 ∧ v.extractLsb' 11 5 = 0 ∧ (v.extractLsb' 16 8 = 0 ∨ v.extractLsb' 16 8 = 0x12 ∨ v.extractLsb' 16 8 = 0x21)
    (∀ r, s.preqs.get? tag = some r → r.part = p → r.seq = (v.extractLsb' 24 8).toNat → legal → s.preqHeld = [] →
      let t := ((s.ctxs.filter fun x => x.2.part == p).map (·.1)).foldl
        (fun u x => State.serve u x (.reply r.rid (v.extractLsb' 16 8))) { s with preqs := s.preqs.del tag }
      let holds := ∃ y ∈ t.evHeld, y.record.kind.toNat ≤ 3 ∧ y.rid ≤ r.rid
      (¬holds → exec (.pageRequestReply p v) s = .next t) ∧
      (holds → exec (.pageRequestReply p v) s = .next { t with replies := t.replies ++ [(p, r.rid, v.extractLsb' 16 8)] })) ∧
    ((s.preqs.get? tag = none ∨ ¬legal ∨ ∃ r, s.preqs.get? tag = some r ∧ (r.part ≠ p ∨ r.seq ≠ (v.extractLsb' 24 8).toNat)) →
      exec (.pageRequestReply p v) s = .next (s.postControl (pfKey p))) ∧
    ∀ base, s.preqHeld = [] → ∃ t, exec (.pageRequestTableBase p base) s = .next t ∧ (t.part p).tableBase = base ∧
      t = { s with parts := t.parts } ∧ ∀ k, k ≠ p → t.part k = s.part k) ∧
  (∀ (s : State) (u : TUnit) (w : PageWait) (x n : Nat) (wid : BitVec 64) (c : BitVec 8),
    let held := ∃ y ∈ s.evHeld, y.record.kind.toNat ≤ 3 ∧ y.fn = (s.ctx x).fn ∧ y.record.context = BitVec.ofNat 12 x ∧
      y.record.fromUnit u = true ∧ y.rid ≤ n
    let answers := w.code = 0x11 ∧ w.rid = n ∧ ¬held
    (s.serveWait u .retry x wid w).served = (w.served || (w.code == 0x10 && !s.noticeHeld x wid w.va)) ∧
    (s.serveWait u .retry x wid w).code = w.code ∧
    ((s.serveWait u (.reply n c) x wid w).served = true ↔ w.served = true ∨ answers) ∧
    (¬(w.served = false ∧ answers ∧ c ≠ 0) → (s.serveWait u (.reply n c) x wid w).code = w.code) ∧
    (w.served = false → answers → c ≠ 0 → (s.serveWait u (.reply n c) x wid w).code = c))) ∧
  (
  (∀ (s : State) (fn i : Nat) (h : HeldRec) (p : FnPage), s.fns.get? fn = some p →
    (s.evHeld.findIdx? fun e => e.fn == fn) = some i → s.evHeld[i]? = some h →
    let r := h.record
    let ready := p.evBase ≠ 0 ∧ 6 ≤ p.evLog2 ∧ p.evLog2 ≤ 16 ∧ (p.evTail - p.evHead).toNat < 2 ^ p.evLog2
    (¬ready → exec (.eventRecordPost fn) s = .next s) ∧
    (ready → ∃ t : State, exec (.eventRecordPost fn) s = .next (t.reported r).serveKept ∧ t.evHeld = s.evHeld.eraseIdx i ∧
      t.msix = s.msix ++ [(fn, 0)] ∧ t.fn fn = { p with evTail := p.evTail + 1, evDropped := false } ∧
      (∀ f, f ≠ fn → t.fn f = s.fn f) ∧ t.cycle = max s.cycle (h.cycle + 1) ∧
      let out := s.homeWrite (s.fnPart fn) (physOf (p.evBase.toNat + 64 * (p.evTail.toNat % 2 ^ p.evLog2)))
        (if p.evDropped then { r with flags := r.flags ||| 0x20 } else r).bytes
      t = { out with evHeld := t.evHeld, msix := t.msix, fns := t.fns, cycle := t.cycle })) ∧
  (∀ (s : State) (r : EvRec), (∀ d ∈ s.dropsOwed, d.1 ≠ r) → s.reported r = s) ∧
  (∀ s : State, s.replies = [] → s.serveKept = s) ∧
  (∀ (s : State) (fn : Nat), (s.evHeld.findIdx? fun e => e.fn == fn) = none → exec (.eventRecordPost fn) s = .next s) ∧
  (∀ (s : State) (fn : Nat) (p : FnPage) (head : BitVec 32), s.fns.get? fn = some p →
    ∃ t, exec (.eventQueueHead fn head) s = .next t ∧ t.fn fn = { p with evHead := head } ∧ t = { s with fns := t.fns }) ∧
  (∀ (s : State) (fn : Nat) (r : EvRec),
    let place := fun (x : EvRec) => if x.unit = 3 ∨ x.unit = 4 then 256 else x.core.toNat
    let keeps := ∃ a b, s.evHeld = a ++ b ∧ s.post fn r = { s with evHeld := a ++ { fn := fn, cycle := s.cycle, rid := s.ridseq, record := r } :: b } ∧
      (∀ e ∈ a, e.cycle < s.cycle ∨ place e.record ≤ place r) ∧ ∀ e, b.head? = some e → s.cycle ≤ e.cycle ∧ place r < place e.record
    let buffered := (s.evHeld.filter fun e => decide (4 ≤ e.record.kind.toNat)).length
    (r.kind.toNat ≤ 3 → keeps) ∧ (3 < r.kind.toNat → buffered < 64 → keeps) ∧
    (3 < r.kind.toNat → 64 ≤ buffered →
      (s.post fn r).evHeld = s.evHeld ∧ ((s.post fn r).fn fn).evDropped = true ∧
      ((s.fn fn).evLost ≠ BitVec.allOnes 32 → ((s.post fn r).fn fn).evLost = (s.fn fn).evLost + 1))) ∧
  (∀ r : EvRec, r.bytes.length = 64 ∧ leNat (r.bytes.drop 56) = r.time.toNat ∧ leNat ((r.bytes.drop 48).take 8) = r.wid.toNat ∧
    leNat (r.bytes.take 1) = r.code.toNat))

/-- For a value that names a lane of a warp of a context the function owns, whose lane is suspended: op 1 ends the
suspension and the instruction issues again; op 2 also sets the fragment's PC to the resume PC and clears sr.mrow; op
3 moves a fragment that stands at its instruction to the next PC, and clears sr.mrow; op 4 lets a WATCH trap ignore
watchpoints for one instruction. Op 1 of a halted warp resumes every fragment of it, those in traps among them. A
trap, or a halt, whose record has not been posted stays as it is (R331). Op 5 ends every live lane of the warp: a warp
with nothing outstanding has then no live lane, no names and no place in either set, and, where no store on the core
is still to be accepted by its home (R279), has dropped each of its groups. A value that names nothing posts a control
event that carries the context's number, and no more. (R332, R29.) -/
def Obligations.ControlWrites : Prop :=
  ∀ (s : State) (fn : Nat) (v : BitVec 64), s.fns.has fn = true →
    let c := (v.extractLsb' 40 8).toNat
    let o := (v.extractLsb' 32 8).toNat
    let x := ctxKey (s.fnPart fn) (v.extractLsb' 48 12).toNat
    let m := fun (w : Warp) => v.extractLsb' 0 32 &&& w.live
    let ops := [Instr.fragmentResume fn v, .fragmentResumeAtPc fn v, .fragmentResumeNext fn v, .fragmentResumeNoWatch fn v,
      .warpKill fn v]
    (((s.ctx x).fn ≠ fn ∨ ∀ w, s.warp? c o = some w → w.ctx ≠ x ∨ m w = 0) →
      ∀ i ∈ ops, exec i s = .next (s.postError fn (v.extractLsb' 48 12).toNat 0 0 0)) ∧
    ∀ w, s.warp? c o = some w → w.ctx = x → (s.ctx x).fn = fn → m w ≠ 0 →
      let open_ := fun (k : BitVec 8) (lanes : Mask) => ∃ h ∈ s.evHeld, h.record.kind = k ∧ h.record.wid = w.wid ∧
        (k = 1 ∨ h.record.fmask &&& lanes ≠ 0)
      (w.halted = false → open_ 0 (laneBit (lowLane (m w))) → ∀ i ∈ ops, i ≠ .warpKill fn v → exec i s = .next (s.postError fn (v.extractLsb' 48 12).toNat 0 0 0)) ∧
      (w.halted = true → open_ 1 w.live → exec (.fragmentResume fn v) s = .next (s.postError fn (v.extractLsb' 48 12).toNat 0 0 0)) ∧
      (w.halted = true → ¬open_ 1 w.live → w.haltedPages = [] → ∃ t w', exec (.fragmentResume fn v) s = .next t ∧
        t.warp? c o = some w' ∧ w'.halted = false ∧ (∀ u, u ∈ w'.traps ↔ u ∈ w.traps ∧ open_ 0 u.lanes) ∧ w'.pcs = w.pcs ∧
        w'.names = w.names ∧ w'.live = w.live ∧ t = { s with cores := t.cores }) ∧
      (∀ u, (w.traps.find? fun t => laneOn t.lanes (lowLane (m w))) = some u → ¬open_ 0 (laneBit (lowLane (m w))) →
        let free := { w with traps := w.traps.filter fun t => !laneOn t.lanes (lowLane (m w)), timeout := false }
        (w.halted = false → ∃ t, exec (.fragmentResume fn v) s = .next t ∧ t.warp? c o = some free ∧ t = { s with cores := t.cores }) ∧
        (∃ t w', exec (.fragmentResumeAtPc fn v) s = .next t ∧ t.warp? c o = some w' ∧ w'.live = w.live ∧
          (u.lanes &&& w.live ≠ 0 → w'.mrow = 0) ∧ ∀ l, l < 32 → w'.pc l = if laneOn (u.lanes &&& w.live) l then
            ((s.fn fn).resumePc).extractLsb' 0 48 else w.pc l) ∧
        (u.past = false → ∃ t w', exec (.fragmentResumeNext fn v) s = .next t ∧ t.warp? c o = some w' ∧ w'.mrow = 0 ∧
          w'.names = w.names ∧ w'.kregs = w.kregs ∧ w'.traps = free.traps ∧ t = { s with cores := t.cores } ∧
          ∀ l, l < 32 → w'.pc l = if laneOn u.lanes l then nextPc (w.pc l) else w.pc l) ∧
        (u.code = 0x28 → ∃ t, exec (.fragmentResumeNoWatch fn v) s = .next t ∧
          t.warp? c o = some { free with noWatch := w.noWatch ||| u.lanes }) ∧
        (u.code ≠ 0x28 → exec (.fragmentResumeNoWatch fn v) s = .next (s.postError fn (v.extractLsb' 48 12).toNat 0 0 0))) ∧
      (w.accs = [] → w.log = [] → s.earlyOn c = false → (s.core c).xq = [] → (s.ctx x).storeFaults = [] → ∃ t w', exec (.warpKill fn v) s = .next t ∧
        t.warp? c o = some w' ∧ w'.live = 0 ∧ w'.names = [] ∧ o ∉ (t.core c).active ∧ o ∉ (t.core c).pending ∧
        ∀ g k y, s.group? w g = some (k, y) → y.members.getLsbD w.number = true →
          ∃ z, t.groups.get? k = some z ∧ z.dropped.getLsbD w.number = true)

/-- A soft request takes a running context to state 1; a forced halt, and the end of the grace time after a soft
request, take it to state 2 with every resident warp of it leaving; a withdrawal takes it from state 1 back to running
and ends its stops at YIELD, and in any other state posts a control event. In a state in which a request does not
apply it changes nothing. (That sleeping fragments end their SLEEP at a soft request is the model's reading, log 55,
beside R335.) A kill, the end of the kill time, and an error in save traffic leave the context in state 4 with no
warp, block or engine operation, and each running launch of it in state 5, any other as it was. A save that can be
made, once its areas are written, leaves it in state 3 with no warp and no block on the cores and its blocks kept; one
that is not ready changes nothing. A restore of a context that is not saved changes nothing; one whose descriptor is
no longer valid (the kill is a DESIGN CHOICE, log 22), or whose save area, its header first, cannot be read, kills it;
one of a context saved without warps puts its blocks back and lets it run. The header that a save writes (its places
are the model's, DESIGN CHOICE, log 21) gives back what it was written from. (R335, R336, R337, R338, R339.) -/
def Obligations.PreemptionAndSwitch : Prop :=
  (
  ∀ (s : State) (fn n x : Nat), s.requested fn n = some x →
    (∀ k, ∀ o ∈ (s.core k).xq, o.2.ctx ≠ x) →
    let leaves := fun (t : State) => (t.ctx x).pre = 2 ∧ (t.ctx x).haltTime = s.time ∧
      (∀ c o w, t.warp? c o = some w → w.ctx = x → w.evicted = false → w.live ≠ 0 → w.leaving = true) ∧
      (∀ c o w, s.warp? c o = some w → w.ctx ≠ x → t.warp? c o = some w) ∧ t = { s with cores := t.cores, ctxs := t.ctxs }
    ((s.ctx x).pre = 0 → ∃ t, exec (.softPreemptRequest fn n) s = .next t ∧ (t.ctx x).pre = 1 ∧ (t.ctx x).reqTime = s.time ∧
      (∀ c o w, s.warp? c o = some w → w.ctx ≠ x → t.warp? c o = some w) ∧
      (∀ c o w, t.warp? c o = some w → w.ctx = x → ∀ i ∈ w.waits, ∀ k z, i.kind ≠ .sleep k z) ∧
      t = { s with cores := t.cores, ctxs := t.ctxs }) ∧
    ((s.ctx x).pre ≠ 0 → exec (.softPreemptRequest fn n) s = .next s) ∧
    ((s.ctx x).pre ≤ 1 → ∃ t, exec (.forcedHalt fn n) s = .next t ∧ leaves t) ∧
    (1 < (s.ctx x).pre → exec (.forcedHalt fn n) s = .next s) ∧
    (let due := (s.ctx x).pre = 1 ∧ (s.ctx x).reqTime + (s.ctx x).desc.grace ≤ s.time
     (due → ∃ t, exec (.graceExpiry x) s = .next t ∧ leaves t) ∧ (¬due → exec (.graceExpiry x) s = .next s)) ∧
    ((s.ctx x).pre = 1 → ∃ t, exec (.preemptWithdraw fn n) s = .next t ∧ (t.ctx x).pre = 0 ∧
      (∀ c o w, t.warp? c o = some w → w.ctx = x → ∀ i ∈ w.waits, i.kind ≠ .yield) ∧
      (∀ c o w, s.warp? c o = some w → w.ctx ≠ x → t.warp? c o = some w) ∧ t = { s with cores := t.cores, ctxs := t.ctxs }) ∧
    ((s.ctx x).pre ≠ 1 → exec (.preemptWithdraw fn n) s = .next (s.postError fn n 0 0 0))) ∧
  (
  (∀ (s : State) (x : Nat),
    let gone := fun (t : State) => (∀ c o w, t.warp? c o = some w → w.ctx ≠ x) ∧
      (∀ b ∈ t.blocks, (s.launch b.2.launch).ctx ≠ x)
    let killed := fun (t : State) => gone t ∧ (t.ctx x).pre = 4 ∧ (t.ctx x).saved = [] ∧ (∀ o ∈ t.engs, o.2.ctx ≠ x) ∧
      ∀ n l, s.launches.get? n = some l → if l.ctx = x ∧ l.state = 2 then (t.launch n).state = 5 else t.launch n = l
    (∀ fn n, s.requested fn n = some x → (s.ctx x).pre ≠ 4 → ∃ t, exec (.contextKill fn n) s = .next t ∧ killed t) ∧
    (∀ fn n, s.requested fn n = some x → (s.ctx x).pre = 4 → exec (.contextKill fn n) s = .next s) ∧
    (let due := (s.ctx x).pre = 2 ∧ (s.ctx x).haltTime + (s.ctx x).desc.kill ≤ s.time
     (due → ∃ t, exec (.killTimerExpiry x) s = .next t ∧ killed t) ∧ (¬due → exec (.killTimerExpiry x) s = .next s)) ∧
    (∀ c a, s.ctxs.has x = true → (s.ctx x).pre ≠ 4 → ∃ t, exec (.saveFault x c a) s = .next t ∧ killed t) ∧
    (∀ c a, (s.ctxs.has x = false ∨ (s.ctx x).pre = 4) → exec (.saveFault x c a) s = .next s) ∧
    (let may := ((s.ctx x).pre = 1 ∨ (s.ctx x).pre = 2) ∧ s.ctxs.has x = true ∧ s.saveReady x = true
     (¬may → exec (.contextSaveComplete x) s = .next s) ∧
     (∀ s1, may → State.saveCores x (s.saveSet x) s = (none, s1) → s1.launches = s.launches → s1.blocks = s.blocks →
       ∃ t, exec (.contextSaveComplete x) s = .next t ∧ gone t ∧ (t.ctx x).pre = 3 ∧
         (t.ctx x).savedBlocks = s.blocks.filter fun b => (s.launch b.2.launch).ctx == x)) ∧
    ((s.ctx x).pre ≠ 3 → exec (.contextRestore x) s = .next s) ∧
    ((s.ctx x).pre = 3 → s.restoreTurn x = true → s.restorable x = true →
      (s.readDesc (s.ctx x).fn (s.ctx x).number = none → ∃ t, exec (.contextRestore x) s = .next t ∧ killed t) ∧
      ∀ d, s.readDesc (s.ctx x).fn (s.ctx x).number = some d →
        (rootsOk d = false → ∃ t, exec (.contextRestore x) s = .next t ∧ killed t) ∧
        (let bl := (s.ctx x).savedBlocks.foldl (fun t (b : Nat × Block) => t.put b.1 b.2) s.blocks
          let gr := (s.ctx x).savedGroups.foldl (fun t (g : Nat × GroupEntry) => t.put g.1 g.2) s.groups
          let placed : State := { s with blocks := bl, groups := gr }
          let back := placed.modCtx x fun c => { c with desc := d, pre := 0, saved := [], savedBlocks := [], savedGroups := [] }
          rootsOk d = true → ∀ at_ s1, State.restoreCores x (s.ctx x).saved back = (some at_, s1) → s1.launches = s.launches →
            ∃ t, exec (.contextRestore x) s = .next t ∧ killed t) ∧
        (∀ (v : Saved) (a : Nat) (s1 s2 : State), State.readParts x v.core (s1.saveAt x v.core) [(0, 4096)] s1 = (.error a, s2) →
          s1.restoreCore x v = (some a, s2)) ∧
        (rootsOk d = true → (s.ctx x).saved = [] → ∃ t, exec (.contextRestore x) s = .next t ∧ (t.ctx x).pre = 0 ∧
          (t.ctx x).desc = d ∧ ∀ n b, (s.ctx x).savedBlocks = [(n, b)] → t.blocks.get? n = some b))) ∧
  (∀ h : Header, h.context < 2 ^ 16 → h.core < 2 ^ 48 → h.mask < 2 ^ 64 → h.sstat < 2 ^ 32 → h.formats.length = 8 →
    (∀ f ∈ h.formats, f.1 < 256 ∧ f.2 < 256) → (∀ w ∈ h.watches, w.2.addr < 2 ^ 64 ∧ w.2.len < 2 ^ 32) →
    h.watches = ((List.range 8).filterMap fun i => (h.watches.get? i).map fun w => (i, w)) → h.blocks.length ≤ 64 →
    (∀ b ∈ h.blocks, b.1 < 2 ^ 32 ∧ b.2.1 < 2 ^ 32 ∧ b.2.2 < 2 ^ 32) → headerOf h.bytes = h))

/-- A skew check that is due empties the caches of exactly the dies that deviate by more than 8 ticks and reloads
their copies; from then on the copies deviate as given, where any two within 8 of the hub stand within 8 of each
other, and else as before; one that is not due changes nothing. A snoop of a held host line writes its modified bytes
back and gives it up. The host's write to its own memory is what the home has from then on, and no L1 copy changes. A
host write to a covered range of device memory writes exactly its bytes at home, and a read answers the bytes there,
or poison. A reset of the module ends every context, partition, block and warp, restarts the time base and the boot
page, writes the lines of the L2s back to the stacks, which keep what they hold (DESIGN CHOICE, log 23), and puts a
pending minimum version in force; the side band's loss and return reset it too. (That a skew check's argument says how
far the copies deviate from then on is the model's, DESIGN CHOICE, log 63.) Exactly one answer is given for a packet
to a partition in use. A partition without fabric, map or peer index answers PEER_NACK; an address beyond the map, an
invalid entry or an operation it does not permit, PERM, and the record of the last goes to the owner of the entry's
context; a poisoned entry, UE; a stamp below the entry's validfrom is answered as stale. A refusal and a stale answer
change no memory, and a read none but for lines that the L2 gives up. A permitted packet whose pages translate to
device memory gets the bytes there, or writes its own. (That a packet to a partition that is not in use is ignored is
DEDUCED, log 74.) (R306, R342, R346, R347, R371, R352, R354.) -/
def Obligations.OutsideEvents : Prop :=
  (
  (∀ (s : State) (dev : List Int),
    (s.time < s.checked + 4096 → exec (.skewCheck dev) s = .next s) ∧
    (s.checked + 4096 ≤ s.time → (∀ x ∈ s.dieDev, x.1 < 4) → (s.dieDev.map (·.1)).Nodup →
      let far := fun (d : Nat) => 8 < (s.dieDev.getD d 0).natAbs
      let kept := fun (d : Nat) => if far d then 0 else s.dieDev.getD d 0
      let new := fun (d : Nat) => if d < dev.length then dev.getD d 0 else kept d
      let near := ∀ d e, d < 4 → e < 4 → (new d).natAbs ≤ 8 → (new e).natAbs ≤ 8 → (new d - new e).natAbs ≤ 8
      ∃ t, exec (.skewCheck dev) s = .next t ∧ t.checked = s.time / 4096 * 4096 ∧
        (∀ i, i ∈ t.tlb ↔ i ∈ s.tlb ∧ ∀ d, d < 4 → far d → unitDie i.unit ≠ some d) ∧
        (∀ i, i ∈ t.walks ↔ i ∈ s.walks ∧ ∀ d, d < 4 → far d → unitDie i.unit ≠ some d) ∧
        (near → ∀ d, d < 4 → t.dieDev.getD d 0 = new d) ∧ (¬near → ∀ d, d < 4 → t.dieDev.getD d 0 = kept d) ∧
        t = { s with checked := t.checked, tlb := t.tlb, walks := t.walks, dieDev := t.dieDev, evHeld := t.evHeld, fns := t.fns })) ∧
  (∀ (s : State) (line : Nat), Canonical s →
    (s.l2Has true line = false → exec (.hostSnoop line) s = .next s) ∧
    (∀ l, (s.l2.find? fun x => x.is true line) = some l → ∃ t, exec (.hostSnoop line) s = .next t ∧
      t.l2 = (s.l2.filter fun x => !x.is true line) ∧
      (∀ a, let inside := 128 * line ≤ a ∧ a < 128 * line + 128
        t.hostBehind.read a = (if inside ∧ l.dirty.getLsbD (a % 128) = true then s.host.read a else s.hostBehind.read a) ∧
        t.host.read a = if inside then t.hostBehind.read a else s.host.read a) ∧
      t = { s with host := t.host, hostBehind := t.hostBehind, l2 := t.l2 })) ∧
  (∀ (s : State) (ts : List Turn) (addr : Nat) (data : List Byte), Canonical s → s.turns = .hostWrite addr data :: ts →
    ∃ t, step s = .next t ∧ Refilled s t (fun p => p.host = true ∧ addr ≤ p.addr ∧ p.addr < addr + data.length) ∧
      (∀ a, addr ≤ a → a < addr + data.length →
        t.host.read a = data.getD (a - addr) 0 ∧ t.hostBehind.read a = data.getD (a - addr) 0) ∧
      t = { s with steps := s.steps + 1, turns := ts, host := t.host, hostBehind := t.hostBehind, dev := t.dev, dram := t.dram, l2 := t.l2,
                   poison := t.poison }) ∧
  (∀ (s : State) (addr len p : Nat) (data : List Byte), Canonical s →
    (s.decoder addr len = none → ∀ w, exec (.hostMemAccess addr len w data) s = .next s) ∧
    (s.decoder addr len = some p → data.length = len → ∃ t, exec (.hostMemAccess addr len true data) s = .next t ∧
      (∀ a, addr ≤ a → a < addr + len → t.dev.read a = data.getD (a - addr) 0) ∧
      Refilled s t (fun p => p.host = false ∧ addr ≤ p.addr ∧ p.addr < addr + len) ∧
      t = { s with dev := t.dev, dram := t.dram, host := t.host, hostBehind := t.hostBehind, l2 := t.l2, poison := t.poison }) ∧
    (s.decoder addr len = some p → ∃ t, exec (.hostMemAccess addr len false data) s = .next t ∧
      t.answers = s.answers ++ [(p, if (linesFrom addr len).any (fun l => s.poison.contains l) then Answer.nack 0x21
        else Answer.ok ((List.range len).map fun i => s.dev.read (addr + i)))] ∧ t = { s with answers := t.answers })) ∧
  (∀ (s : State) (i : Instr), Canonical s → i = .moduleReset ∨ i = .sidebandDown ∨ (i = .sidebandUp ∧ s.sideband = false) →
    ∃ t, exec i s = .next t ∧ t.time = 0 ∧ t.boot = State.reset.boot ∧ t.parts = [] ∧ t.fns = [] ∧ t.ctxs = [] ∧ t.launches = [] ∧
      t.blocks = [] ∧ t.cores = [] ∧ t.groups = [] ∧ t.tlb = [] ∧ t.walks = [] ∧ t.maps = [] ∧ t.engs = [] ∧ t.l2 = [] ∧ t.mgmt = State.reset.mgmt ∧
      Refilled s t (fun _ => False) ∧ t.poison = s.poison ∧ t.minVersion = s.raise.getD s.minVersion ∧ t.raise = none ∧
      t.sideband = if i = .sidebandDown then false else if i = .sidebandUp then true else s.sideband) ∧
  (∀ s : State, s.sideband = true → exec .sidebandUp s = .next s) ∧
  (∀ (s : State) (m : Nat), ∃ t, exec (.linkModuleTrainingFail m) s = .next t ∧ t = { s with linkModules := t.linkModules } ∧
    ∀ k, k < 8 → t.linkModules.getLsbD k = (s.linkModules.getLsbD k && k != m))) ∧
  (
  ∀ (s : State) (p : Nat) (k : Packet),
    (s.parts.has p = false → exec (.peerInboundPacket p k) s = .next s) ∧
    (s.parts.has p = true → ∃ t a, exec (.peerInboundPacket p k) s = .next t ∧ t.answers = s.answers ++ [(p, a)] ∧
      ((s.feature 3 = false ∨ (s.part p).mapBase = 0 ∨ (s.part p).peerIndex = none) → a = .nack 0x14) ∧
      (s.feature 3 = true → (s.part p).mapBase ≠ 0 → (s.part p).peerIndex ≠ none →
        (((s.part p).mapLog2 > 16 ∨ 2 ^ (s.part p).mapLog2 ≤ k.addr / 2 ^ 21) → a = .nack 0x12) ∧
        (∀ c s1, s.mapEntry p k.addr = (.error c, s1) → a = .nack c) ∧
        (∀ s1, s.mapEntry p k.addr = (.ok none, s1) → a = .nack 0x12) ∧
        (∀ m s1, s.mapEntry p k.addr = (.ok (some m), s1) →
          ((m.perms.getLsbD 0 = false ∨ m.ok = false ∨ peerAllowed k.op m.perms = false) → a = .nack 0x12) ∧
          (m.perms.getLsbD 0 = true → m.ok = true → ∀ x s2, s1.findCtx p m.ctx = (some x, s2) →
            (peerAllowed k.op m.perms = false → ∃ r, t = { s2.post (s2.ctx x).fn r with answers := t.answers } ∧
              r.kind = 8 ∧ r.code = 0x12 ∧ r.context = BitVec.ofNat 12 (s2.ctx x).number ∧ r.srcdev = k.srcdev) ∧
            (peerAllowed k.op m.perms = true → k.stamp < m.validfrom → a = .stale m.validfrom) ∧
            (peerAllowed k.op m.perms = true → m.validfrom ≤ k.stamp → ∀ ts s3,
              let va := m.va + k.addr % 2 ^ 21
              let sort_ := match k.op with
                | .get => AccKind.read
                | .put => .write
                | .reduce _ => .rmw
              State.xlatAll (.cp p) x sort_ false false (pagePieces va k.len) s2 = (.ok ts, s3) →
              (∀ y ∈ ts, y.1.item.kind = .localMem) →
              (k.op = .get → (∀ y ∈ ts, s3.badPiece y.1 y.2 = false) → a = .ok (State.readPieces ts s3).1) ∧
              (k.op = .put → s.engineWatches x va k.len = [] →
                a = .ok [] ∧ t = { State.writePieces ts k.data s3 with answers := t.answers, bytes := t.bytes }))))) ∧
      (((∃ c, a = .nack c) ∨ ∃ v, a = .stale v) →
        t.dev = s.dev ∧ t.dram = s.dram ∧ t.host = s.host ∧ t.hostBehind = s.hostBehind ∧ t.l2 = s.l2) ∧
      (k.op = .get → Canonical s → Refilled s t (fun _ => False)) ∧
      t.spad = s.spad ∧ t.lode = s.lode ∧ (∀ c o, t.warp? c o = s.warp? c o)) ∧
  (∀ (s : State) (b : Nat) (enter : Bool),
    let inside := 4000 * b ≤ s.time % 64000 ∧ s.time % 64000 < 4000 * b + 2000
    (b < 16 → (enter = true ↔ inside) → ∃ t, exec (.lodeRefresh b enter) s = .next t ∧ t = { s with busy := t.busy } ∧
      t.busy.getD b false = enter ∧ ∀ c, c ≠ b → t.busy.getD c false = s.busy.getD c false) ∧
    (¬(b < 16 ∧ (enter = true ↔ inside)) → exec (.lodeRefresh b enter) s = .next s)))

/-- Writing 1 to the go register in states 0 and 3 puts the page in state 1 with the image that stands there under
verification; any other write changes nothing. As verification ends, an image that cannot be read is rejected with 6,
any other for the first of the checks that fails, and one that passes runs with the enabled features the part offers
and the compute clock at 1.8 GHz (DESIGN CHOICE, log 4). A certificate request, and a report request of a running
image, write their bytes behind the request, raise the response counter and signal vector 2. What the digests and
signatures are is a free value (log 10). (That the verification ends in a step of its own is a DESIGN CHOICE, log 64;
that vector 2 is signalled as it ends, R345, whether the image is accepted or rejected, is DEDUCED, log 65.) (R345,
R348, R349, R350, R351.) -/
def Obligations.BootAndIdentity : Prop :=
  (∀ (s : State) (v : BitVec 32),
    let live := v = 1 ∧ s.sideband = true ∧ (s.boot.state = 0 ∨ s.boot.state = 3)
    let begun := some (s.boot.image.toNat, s.boot.len.toNat)
    (¬live → exec (.bootGo v) s = .next s) ∧
    (live → exec (.bootGo v) s = .next { s with boot := { s.boot with state := 1, reason := 0, candidate := begun } })) ∧
  (∀ (s : State) (ts : List Turn), s.turns = .verify :: ts →
    (s.boot.candidate = none → step s = .next { s with steps := s.steps + 1, turns := ts }) ∧
    ∀ addr len, s.boot.candidate = some (addr, len) →
      let image := s.host.readN addr len
      let readable := 8192 ≤ len ∧ len ≤ 67108864 ∧ ∀ l ∈ linesFrom addr len, s.poisoned { host := true, addr := 128 * l } = false
      let reason := if readable then bootReason image s.minVersion else 6
      ∃ t, step s = .next t ∧ t.msix = s.msix ++ [(256, 2)] ∧ t.boot.reason = reason ∧ t.boot.candidate = none ∧
        t.boot.state = (if reason = 0 then 2 else 3) ∧
        t.boot.enabled = (if reason = 0 then s.boot.enabled &&& Config.offered else s.boot.enabled) ∧
        (reason = 0 → t.boot.version = fieldAt image 8 4 ∧ t.boot.digest = (image.drop 16).take 64) ∧
        t.mgmt = (if reason = 0 then { s.mgmt with clock := 36 } else s.mgmt) ∧
        t = { s with steps := s.steps + 1, turns := ts, boot := t.boot, msix := t.msix, mgmt := t.mgmt }) ∧
  (∀ (image : List Byte) (least : Nat),
    let r := bootReason image least
    r ∈ [0, 1, 2, 3, 4, 5, 7] ∧
    (fieldAt image 0 4 ≠ 0x58424B53 → r = 1) ∧ (fieldAt image 4 4 ≠ 1 → r = 1) ∧
    (r ≠ 1 → fieldAt image 12 4 + 8192 ≠ image.length → r = 7) ∧
    (r = 0 ↔ fieldAt image 0 4 = 0x58424B53 ∧ fieldAt image 4 4 = 1 ∧ fieldAt image 12 4 + 8192 = image.length ∧
      Config.sha3 ((image.drop 80).take 2592) = Config.keyDigest ∧
      Config.verify ((image.drop 80).take 2592) (Config.sha3 (image.take 2672)) ((image.drop 2672).take 4627) = true ∧
      Config.sha3 (image.drop 8192) = (image.drop 16).take 64 ∧ least ≤ fieldAt image 8 4) ∧
    (least ≤ fieldAt image 8 4 → r ≠ 5)) ∧
  (∀ (s : State) (i : Instr) (bs : List Byte), s.sideband = true → Canonical s →
    (i = .certificateRequest ∧ bs = (List.range 7219).map Config.certificate) ∨
    (i = .reportRequest ∧ s.boot.state = 2 ∧ bs.take 64 = (s.host.readN s.boot.request.toNat 64) ∧
      bs = (let body := s.reportBody (s.host.readN s.boot.request.toNat 64)
        body ++ (List.range 4627).map fun k => (Config.sign (Config.sha3 body)).getD k 0)) →
    ∃ t, exec i s = .next t ∧ t.boot.responses = (s.boot.responses + 1) % 2 ^ 32 ∧ t.msix = s.msix ++ [(256, 2)] ∧
      let at_ := s.boot.request.toNat + 64
      (∀ a, at_ ≤ a → a < at_ + bs.length → t.host.read a = bs.getD (a - at_) 0) ∧
      Refilled s t (fun p => p.host = true ∧ at_ ≤ p.addr ∧ p.addr < at_ + bs.length) ∧ t.cores = s.cores) ∧
  (∀ s : State, s.boot.state ≠ 2 → exec .reportRequest s = .next s)

/-- A staged map is applied only if the slices of every partition it names are an aligned run of a power of two from
the partition's number, every engine and function entry names one of them, and each of them has an engine. Then the
current maps are the staged ones, a partition that changes is formed anew with its fences zero and its fabric map
clear, one that does not change keeps everything, and one no longer named is gone. A saved context of a changed
partition whose cores and function lie in one staged partition goes on there with its launches, and any other is
killed. A failing check gives state 3 with its reason. (That none happens before the image runs is log 66, DEDUCED;
that an apply is one step, log 64; that what no rule clears stays as it was, log 67, DEDUCED; which of two contexts
under one number goes on, log 92, DEDUCED.) A load with a failing entry leaves the bands in force and names the first
one; any other takes effect in a later window. In a window the hub grants each function with demand at least the
smaller of its demand and its floor, at most the smaller of its demand and its ceiling, and in all no more than the
capacity where the floors fit it; what is granted stands in the shares. Traffic outside every band is served first,
and the capacity is what it leaves. (That the two directions are domains 0 and 1, and that the demand is an argument,
is DEDUCED, log 68; that the table is read at its physical address, log 24.) Each direction of the host link and of
the peer fabric is a domain of its own. (R359, R360, R361, R364, R365, R366.) -/
def Obligations.PartitionsAndBands : Prop :=
  (
  ∀ (s : State) (v : BitVec 32),
    ((v ≠ 1 ∨ s.sideband = false ∨ s.boot.state ≠ 2) → exec (.partitionApply v) s = .next s) ∧
    (v = 1 → s.sideband = true → s.boot.state = 2 → s.applyReason ≠ 0 → ∃ t, exec (.partitionApply v) s = .next t ∧
      t = { s with mgmt := t.mgmt } ∧ t.mgmt = { s.mgmt with applyState := 3, applyReason := s.applyReason }) ∧
    (v = 1 → s.sideband = true → s.boot.state = 2 → s.applyReason = 0 →
      (∀ p ∈ namedParts s.mgmt.stSlices, (∃ n ∈ [1, 2, 4, 8, 16, 32], p % n = 0 ∧
        ∀ i, i < 32 → (s.mgmt.stSlices.getD i 0xFF = p ↔ p ≤ i ∧ i < p + n)) ∧
        (∃ i, i < 128 ∧ s.mgmt.stEngines.getD i 0xFF = p)) ∧
      (∀ i, i < 192 → s.mgmt.stFunctions.getD i 0xFF = 0xFF ∨ s.mgmt.stFunctions.getD i 0xFF ∈ namedParts s.mgmt.stSlices) ∧
      ∃ t, exec (.partitionApply v) s = .next t ∧ t.mgmt.slices = s.mgmt.stSlices ∧ t.mgmt.engines = s.mgmt.stEngines ∧
        t.mgmt.functions = s.mgmt.stFunctions ∧ t.mgmt.applyState = 2 ∧ t.mgmt.applyReason = 0 ∧
        (∀ p, p < 32 →
          (p ∉ namedParts s.mgmt.stSlices → t.parts.get? p = none) ∧
          (p ∈ namedParts s.mgmt.stSlices → p ∉ s.mgmt.affected → (s.ctxs.map (·.1)).Nodup →
            (∀ e ∈ s.ctxs, e.2.part ∈ s.mgmt.affected → e.1 / 4096 = e.2.part ∧
              ∀ l ∈ s.launches, l.2.ctx = e.1 → l.2.part = e.2.part) → t.parts.get? p = s.parts.get? p) ∧
          (p ∈ namedParts s.mgmt.stSlices → p ∈ s.mgmt.affected → ∃ q, t.parts.get? p = some q ∧ q.first = p ∧
            q.size = (membersOf s.mgmt.stSlices 32 p).length ∧ (∀ id, q.fence id = 0) ∧ q.mapBase = 0 ∧ q.peerIndex = none)) ∧
        ∀ e ∈ s.ctxs, (s.ctxs.map (·.1)).Nodup → e.2.part ∈ s.mgmt.affected → e.2.pre = 3 →
          (∀ p, s.keptIn e.2 = some p → (∀ d ∈ s.ctxs, d.2.part ∈ s.mgmt.affected → s.keptIn d.2 = some p →
              d.2.number = e.2.number → d = e) →
            t.ctxs.get? (ctxKey p e.2.number) = some (e.2.movedTo p) ∧
            ∀ n l, s.launches.get? n = some l → l.ctx = e.1 → (∀ d ∈ s.ctxs, d.1 = e.1 → d = e) → t.launch n = l.movedTo p) ∧
          (s.keptIn e.2 = none → ∀ n l, s.launches.get? n = some l → l.ctx = e.1 → l.state = 2 → (t.launch n).state = 5))) ∧
  (
  (∀ (s : State) (v : BitVec 32),
    let live := v = 1 ∧ s.sideband = true ∧ s.boot.state = 2 ∧ s.mgmt.bandBase ≠ 0
    let bs := s.physRead (physOf s.mgmt.bandBase.toNat) 6144
    (¬live → exec (.bandReload v) s = .next s) ∧
    (live → s.mgmt.bandCheck bs ≠ 0 → ∃ t, exec (.bandReload v) s = .next t ∧
      t = { s with mgmt := t.mgmt } ∧ t.mgmt = { s.mgmt with bandStatus := s.mgmt.bandCheck bs }) ∧
    (live → s.mgmt.bandCheck bs = 0 → ∃ t, exec (.bandReload v) s = .next t ∧ t = { s with mgmt := t.mgmt } ∧
      t.mgmt.bandStatus = 0 ∧ t.mgmt.bandsIn (s.time / 10000) = s.mgmt.bandsIn (s.time / 10000) ∧
      ∀ w, s.time / 10000 < w → t.mgmt.bandsIn w = bandsOf bs)) ∧
  (∀ (m : Mgmt) (v : Nat), m.domains v 0 = [0, 1] ∧ m.domains v 1 = [0, 1]) ∧
  (∀ (c : Nat) (band : Nat → Band) (demand : List (Nat × Nat)), (∀ f, (band f).floor ≤ (band f).ceiling) →
    let r := allocate c band demand
    r.map (·.fn) = demand.map (·.1) ∧
    (∀ (i : Nat) (x : Share) (d : Nat × Nat), r[i]? = some x → demand[i]? = some d →
      min d.2 ((band d.1).floor * c / 256) ≤ x.got ∧ x.got ≤ min d.2 (((band d.1).ceiling + 1) * c / 256)) ∧
    ((demand.map fun d => min d.2 ((band d.1).floor * c / 256)).sum ≤ c → (r.map (·.got)).sum ≤ c)) ∧
  (∀ (s : State) (r d : Nat) (demand : List (Nat × Nat)),
    let m := s.mgmt
    let w := s.time / 10000
    let key := 256 * r + d
    let live := s.sideband = true ∧ s.boot.state = 2 ∧ r ≤ 4 ∧ m.bandAt.getD key 0 < w
    let asked := demand.filter fun x => decide (x.1 < 192) && (m.domains x.1 r).contains d
    let outside := demand.filter fun x => x.1 == 384 || (decide (192 ≤ x.1) && decide (x.1 < 384) && (m.domains (x.1 - 192) r).contains d)
    (¬live → exec (.bandWindow r d demand) s = .next s) ∧
    (live → (demand.map (·.1)).Nodup → ∃ t, exec (.bandWindow r d demand) s = .next t ∧ t.mgmt.bandAt.getD key 0 = w ∧
      t.mgmt.bands = m.bandsIn w ∧
      (∀ x ∈ allocate (s.capacity r d - (outside.map (·.2)).sum) (fun v => (m.bandsIn w).getD (bandKey v r) Band.default) asked,
        t.mgmt.shares.getD (256 * key + x.fn) 0 = x.got) ∧ t = { s with mgmt := t.mgmt })))

/-- A snapshot that is due writes the counters behind the time word. A window over the power cap lowers the clock one
step of 50 MHz, or inserts idle cycles at 600 MHz; 95 °C lowers it too; at 105 °C, whichever event finds it, the
compute dies are held in reset and every context is killed. A corrected error changes no value; an uncorrectable one
in a stack, or in a modified line of an L2, poisons the line, and one in a line that the L2 holds unmodified gives
that copy up (DESIGN CHOICE, log 70). A raise of the minimum version above it and up to the running image's version is
kept for the next reset, the highest of several, and any other is ignored. (Nothing raises the clock again, and watts
and temperatures are arguments: DESIGN CHOICE, log 69; the telemetry image and the ring of RAS records lie at physical
addresses, logs 12 and 24.) (R367, R368, R369, R370, R371.) -/
def Obligations.FleetEvents : Prop :=
  (∀ (s : State) (p : Nat) (q : Part), s.parts.get? p = some q →
    ((q.telemetry = 0 ∨ s.time / 100000 ≤ q.snapshot) → exec (.telemetrySnapshot p) s = .next s) ∧
    (q.telemetry ≠ 0 → q.snapshot < s.time / 100000 → q.telemetry.toNat + 24832 ≤ 2 ^ 40 → Canonical s →
      ∃ t, exec (.telemetrySnapshot p) s = .next t ∧ (t.part p).snapshot = s.time / 100000 ∧
        leNat (t.dev.readN q.telemetry.toNat 8) = s.time % 2 ^ 64 ∧
        (∀ i, i < 10 → leNat (t.dev.readN (q.telemetry.toNat + 8 + 8 * i) 8) = q.counters.getD (8 + 8 * i) 0 % 2 ^ 64) ∧
        Refilled s t (fun x => x.host = false ∧ q.telemetry.toNat ≤ x.addr ∧ x.addr < q.telemetry.toNat + 24832) ∧ t.cores = s.cores)) ∧
  (∀ (s : State) (watts die temp : Nat), s.sideband = true → s.boot.state = 2 →
    (s.mgmt.powerAt < s.time / 1000000 → ∃ t, exec (.powerWindow watts []) s = .next t ∧ t = { s with mgmt := t.mgmt } ∧
      t.mgmt.watts = watts ∧ t.mgmt.powerAt = s.time / 1000000 ∧
      (let cap := if s.mgmt.cap = 0 then 2200 else s.mgmt.cap
       t.mgmt.clock = (if cap < watts then max 12 (s.mgmt.clock - 1) else s.mgmt.clock) ∧
       t.mgmt.idle = (decide (cap < watts) && s.mgmt.clock == 12))) ∧
    (s.time / 1000000 ≤ s.mgmt.powerAt → exec (.powerWindow watts []) s = .next s) ∧
    (temp < 105 → ∃ t, exec (.thermalThrottle die temp) s = .next t ∧ t = { s with mgmt := t.mgmt } ∧ t.mgmt.temps.getD die 0 = temp ∧
      t.mgmt.clock = if 95 ≤ temp then max 12 (s.mgmt.clock - 1) else s.mgmt.clock) ∧
    (∀ i, i = .thermalShutdown die ∨ (i = .thermalThrottle die temp ∧ 105 ≤ temp) →
      ∃ t, exec i s = .next t ∧ t.diesHeld = true ∧ 105 ≤ t.mgmt.temps.getD die 0 ∧
        ∀ x d, s.ctxs.get? x = some d → (t.ctx x).pre = 4)) ∧
  (∀ (s : State) (addr : BitVec 64) (store what : BitVec 8) (unit : BitVec 16) (part : BitVec 8) (ctx : BitVec 16),
    s.sideband = true → s.boot.state = 2 →
    (what = 0 → s.mgmt.rasBase = 0 → ∃ t, exec (.rasRecord addr store what unit part ctx) s = .next t ∧ t.dev = s.dev ∧
      t.spad = s.spad ∧ t.lode = s.lode ∧ t.host = s.host ∧ t.poison = s.poison ∧ (∀ c o, t.warp? c o = s.warp? c o)) ∧
    (what = 0 → s.mgmt.rasBase ≠ 0 → 6 ≤ s.mgmt.rasLog2 → s.mgmt.rasLog2 ≤ 16 →
      ∃ t, exec (.rasRecord addr store what unit part ctx) s = .next t ∧
        (if (s.mgmt.rasTail - s.mgmt.rasUsed).toNat < 2 ^ s.mgmt.rasLog2 then t.mgmt.rasTail = s.mgmt.rasTail + 1
         else t.mgmt.rasTail = s.mgmt.rasTail ∧ (s.mgmt.rasLost ≠ 0xFFFFFFFF → t.mgmt.rasLost = s.mgmt.rasLost + 1))) ∧
    (what ≠ 0 → ∃ t, exec (.rasRecord addr store what unit part ctx) s = .next t ∧
      (store = 7 → t.poisoned (physOf addr.toNat) = true) ∧
      (store = 3 → s.mgmt.rasBase = 0 → s.engs = [] → (∀ k ∈ s.cores, k.2.xq = [] ∧ ∀ w ∈ k.2.warps, w.2.accs = []) →
        let at_ := physOf addr.toNat
        ((∃ l ∈ s.l2, l.is at_.host at_.line = true ∧ l.dirty ≠ 0) → t.poisoned at_ = true ∧ t.l2 = s.l2) ∧
        ((∀ l ∈ s.l2, l.is at_.host at_.line = true → l.dirty = 0) → t.l2Has at_.host at_.line = false ∧ t.poison = s.poison)))) ∧
  (∀ (s : State) (v : BitVec 32),
    let ok := s.sideband = true ∧ s.boot.state = 2 ∧ s.minVersion < v.toNat ∧ v.toNat ≤ s.boot.version
    (ok → exec (.minVersionRaise v) s = .next { s with raise := some (max (s.raise.getD 0) v.toNat) }) ∧ (¬ok → exec (.minVersionRaise v) s = .next s))

/-- With the side band up, a 64-bit write to a doorbell, retry, flush, table-base, reply, control or pre-emption
register of the page that the physical function uses in a partition acts as the event it stands for, and a 32-bit
write of the boot page's go, request, apply, reload and raise registers as theirs. A write to a plain register leaves
its value there. A write to a page not in use, or beyond its 4 KiB, changes nothing. An access of the host to BAR0
reaches the page that its offset names. A read returns the registers, little-endian, with reserved bits zero: the
status of the boot page and of the last apply, the time, 0 for the flush register, the state of the context last
written to the pre-emption register, the tail of the event queue; a page that is not in use reads zero. (R3, R291,
R304, R305, R314, R322, R332, R335, R344, R348, R359, R363.) -/
def Obligations.RegisterWrites : Prop :=
  ∀ (s : State) (v : BitVec 64) (p : Nat), s.sideband = true →
    let w := fun (page : Page) (o n : Nat) => exec (.configRegisterWrite page o n v) s
    let v32 := v.extractLsb' 0 32
    let op := (v.extractLsb' 60 4).toNat
    let fn := 256 + p
    (s.fns.has fn = false → ∀ o n, w (.pf p) o n = .next s) ∧
    (s.fns.has fn = true →
      (∀ q, q < 64 → w (.pf p) (0x400 + 8 * q) 8 = exec (.queueDoorbell fn q v) s) ∧
      w (.pf p) 0x188 8 = exec (.pageRetryDoorbell fn v) s ∧ w (.pf p) 0x190 8 = exec (.hostContextFlush fn v) s ∧
      w (.pf p) 0x1A0 8 = exec (.pageRequestTableBase p v) s ∧ w (.pf p) 0x1A8 8 = exec (.pageRequestReply p v) s ∧
      (op = 1 → w (.pf p) 0x1E0 8 = exec (.fragmentResume fn v) s) ∧
      (op = 2 → w (.pf p) 0x1E0 8 = exec (.fragmentResumeAtPc fn v) s) ∧
      (op = 3 → w (.pf p) 0x1E0 8 = exec (.fragmentResumeNext fn v) s) ∧
      (op = 4 → w (.pf p) 0x1E0 8 = exec (.fragmentResumeNoWatch fn v) s) ∧
      (op = 5 → w (.pf p) 0x1E0 8 = exec (.warpKill fn v) s) ∧
      (op = 0 ∨ 5 < op → w (.pf p) 0x1E0 8 = .next (s.postError fn (v.extractLsb' 48 12).toNat 0 0 0)) ∧
      (let n := (v.extractLsb' 0 12).toNat
       let u := s.modFn fn fun q => { q with lastCtx := n }
       (op = 1 → w (.pf p) 0x1F0 8 = exec (.softPreemptRequest fn n) u) ∧ (op = 2 → w (.pf p) 0x1F0 8 = exec (.forcedHalt fn n) u) ∧
       (op = 3 → w (.pf p) 0x1F0 8 = exec (.contextKill fn n) u) ∧ (op = 4 → w (.pf p) 0x1F0 8 = exec (.preemptWithdraw fn n) u) ∧
       (op = 0 ∨ 4 < op → w (.pf p) 0x1F0 8 = .next (u.postError fn n 0 0 0))) ∧
      (∃ t, w (.pf p) 0x1E8 8 = .next t ∧ t.fn fn = { s.fn fn with resumePc := v } ∧ t = { s with fns := t.fns }) ∧
      (∃ t, w (.pf p) 0x1F8 8 = .next t ∧ t.fn fn = { s.fn fn with ctxTable := v }) ∧
      (∃ t, w (.pf p) 0x1C0 8 = .next t ∧ t.fn fn = { s.fn fn with evBase := v })) ∧
    (s.parts.has p = true → (s.part p).size ≤ 32 → (∃ t, w (.partition p) 0x200 8 = .next t ∧ t.part p = { s.part p with mapBase := v }) ∧
      (∃ t, w (.partition p) 0x300 8 = .next t ∧ t.part p = { s.part p with telemetry := v })) ∧
    (s.parts.has p = false → ∀ o n, w (.partition p) o n = .next s) ∧
    w .boot 0x018 4 = exec (.bootGo v32) s ∧ (v32 = 1 → w .boot 0x048 4 = exec .certificateRequest s) ∧
    (v32 = 2 → w .boot 0x048 4 = exec .reportRequest s) ∧ w .boot 0x860 4 = exec (.partitionApply v32) s ∧
    w .boot 0x888 4 = exec (.bandReload v32) s ∧ w .boot 0x8C0 4 = exec (.minVersionRaise v32) s ∧
    (∃ t, w .boot 0x008 8 = .next t ∧ t = { s with boot := { s.boot with image := v } }) ∧
    (∀ page o n, 0x1000 < o + n → w page o n = .next s) ∧
    (∀ (ts : List Turn) (o n : Nat), o < 0x1000 →
      let u : State := { s with steps := s.steps + 1, turns := ts }
      (p < 16 → s.turns = .bar none (0x10000 + 0x1000 * p + o) n (some v) :: ts → step s = exec (.configRegisterWrite (.pf p) o n v) u) ∧
      (p < 32 → s.turns = .bar none (0x20000 + 0x1000 * p + o) n (some v) :: ts →
        step s = exec (.configRegisterWrite (.partition p) o n v) u) ∧
      (s.turns = .bar none o n (some v) :: ts → step s = exec (.configRegisterWrite .boot o n v) u) ∧
      (s.turns = .bar (some p) o n (some v) :: ts → step s = exec (.configRegisterWrite (.vf p) o n v) u) ∧
      (s.turns = .bar none o n none :: ts →
        step s = .next { u with answers := s.answers ++ [(32, .ok (s.readPage .boot o n))] }) ∧
      (s.turns = .bar (some p) o n none :: ts →
        step s = .next { u with answers := s.answers ++ [(32, .ok (s.readPage (.vf p) o n))] })) ∧
    (let r := fun (page : Page) (o n : Nat) => leNat (s.readPage page o n)
     (s.boot.state < 16 → s.boot.reason < 256 → r .boot 0x000 8 = s.boot.state + 256 * s.boot.reason) ∧
     (s.mgmt.applyState < 16 → s.mgmt.applyReason < 256 → r .boot 0x868 4 = s.mgmt.applyState + 256 * s.mgmt.applyReason) ∧
     (0 < s.time → r .boot 0x020 8 = Config.offered.toNat) ∧ r .boot 0x028 8 = s.boot.enabled.toNat ∧
     (s.fns.has fn = true → (s.time < 2 ^ 64 → r (.pf p) 0x180 8 = s.time) ∧ r (.pf p) 0x190 8 = 0 ∧
       r (.pf p) 0x1D0 4 = (s.fn fn).evTail.toNat ∧ r (.pf p) 0x1F8 8 = (s.fn fn).ctxTable.toNat ∧
       ((s.ctx (ctxKey p (s.fn fn).lastCtx)).pre < 16 → r (.pf p) 0x1F0 8 = (s.ctx (ctxKey p (s.fn fn).lastCtx)).pre)) ∧
     (s.fns.has fn = false → ∀ o n, s.readPage (.pf p) o n = List.replicate n 0) ∧
     (s.fns.has p = false → ∀ o n, s.readPage (.vf p) o n = List.replicate n 0)) ∧
    ∀ page o n, exec (.configRegisterWrite page o n v) { s with sideband := false } = .next { s with sideband := false }

/-- The next PC of an instruction at PC is PC + 1 when PC[2:0] < 4, and ((PC - 4) + 64) mod 2^48 otherwise; behind
slot 4 of the line at 0xFFFF_FFFF_FFC0 it is slot 0 of the line at 0; a fragment that runs on stands there, and its
issue there goes through the same fetch as any other; and the link that CALL or CALLI writes holds this value. (R130.)
-/
def Obligations.NextPc : Prop :=
  (∀ pc : PC, nextPc pc = if pc.toNat % 8 < 4 then pc + 1 else BitVec.ofNat 48 ((pc.toNat - 4 + 64) % 2 ^ 48)) ∧
  nextPc 0xFFFFFFFFFFC4 = 0 ∧
  (∀ (h : Hdr) (f : CF) (s : State) (e : Env), Ready s (.nop h f) e → ∃ t w, exec (.nop h f) s = .next t ∧
    t.warp? e.core e.slot = some w ∧ ∀ l, l < 32 → laneOn e.frag l = true → w.pc l = nextPc e.pc) ∧
  (∀ (s s1 : State) (ts : List Turn) (c slot : Nat) (w : Warp) (pc : PC) (frag : Mask),
    s.turns = .issue c slot :: ts →
    (∃ before rest, (s.core c).active = before ++ slot :: rest ∧
      ∀ b ∈ before, ({ s with steps := s.steps + 1, turns := ts } : State).issuer c b = none) →
    ({ s with steps := s.steps + 1, turns := ts } : State).issuer c slot = some (w, pc, frag) →
    ({ s with steps := s.steps + 1, turns := ts } : State).fetch c slot w pc frag = .error s1 → step s = .next s1) ∧
  (∀ (h : Hdr) (f : CF) (i : Instr) (s : State) (e : Env), (i = .call h f ∨ i = .calli h f) → Ready s i e → e.act ≠ 0 →
    ∃ t w, exec i s = .next t ∧ t.warp? e.core e.slot = some w ∧ ∀ l, l < 32 → laneOn e.act l = true →
      ((∀ d ∈ constituents h.dest 2, isV d = true) → h.dest ≠ 511 → h.count ≠ 0 → w.val64 h.dest.toNat l = (nextPc e.pc).zeroExtend 64) ∧
      ((∀ d ∈ constituents h.dest 2, isK d = true) → h.dest ≠ 511 → w.val64 h.dest.toNat l = (nextPc e.pc).zeroExtend 64))

/-- Completing a phase flips the phase bit, clears the status word of the new phase, the arrived mask and the arrived
count, and sets the expected count to the number of members that have not dropped; everything else of the entry stays.
An entry whose expected count has become 0 is spent: no arrival and no drop completes another phase of it. (R26.) -/
def Obligations.PhaseCompletion : Prop :=
  (∀ e : GroupEntry, e.completePhase = { e with
      phase := !e.phase, arrivedmask := 0, arrived := 0,
      status0 := if e.phase then 0 else e.status0, status1 := if e.phase then e.status1 else 0,
      expected := ((List.range 128).filter fun n => e.members.getLsbD n && !e.dropped.getLsbD n).length }) ∧
  (∀ (e : GroupEntry) (n : Nat) (flags : Word), e.expected = 0 →
    (e.arrive n flags).phase = e.phase ∧ (e.arrive n flags).expected = 0 ∧
    (e.drop n flags).phase = e.phase ∧ (e.drop n flags).expected = 0) ∧
  (∀ (e : GroupEntry) (n : Nat) (flags : Word), e.arrived + 1 = e.expected →
    (e.arrive n flags).phase = !e.phase ∧
    (e.arrive n flags).expected = ((List.range 128).filter fun n => e.members.getLsbD n && !e.dropped.getLsbD n).length)

/-- After reset the time base and the cycle count are 0, the boot page is in state 0, every byte of the current and
the staged maps reads 0xFF, the compute clock reads 0, no partition, function page, context, launch, block, warp, L2
line or cached translation exists, and every memory is canonical; a partition as it is formed has every named fence at
0 and its fabric map clear. That memory then reads zero is the model's choice (log 5), and so is the cycle count (log
4). (R295, R305, R350, R359, R371.) -/
def Obligations.ResetState : Prop :=
  State.reset.time = 0 ∧ State.reset.cycle = 0 ∧ State.reset.boot.state = 0 ∧
  (∀ i, State.reset.mgmt.slices.getD i 0xFF = 0xFF ∧ State.reset.mgmt.engines.getD i 0xFF = 0xFF ∧
    State.reset.mgmt.functions.getD i 0xFF = 0xFF ∧ State.reset.mgmt.stSlices.getD i 0xFF = 0xFF ∧
    State.reset.mgmt.stEngines.getD i 0xFF = 0xFF ∧ State.reset.mgmt.stFunctions.getD i 0xFF = 0xFF) ∧
  State.reset.parts = [] ∧ State.reset.fns = [] ∧ State.reset.ctxs = [] ∧ State.reset.launches = [] ∧
  State.reset.blocks = [] ∧ State.reset.groups = [] ∧ State.reset.tlb = [] ∧ State.reset.walks = [] ∧ State.reset.maps = [] ∧
  State.reset.engs = [] ∧ State.reset.l2 = [] ∧ State.reset.evHeld = [] ∧ State.reset.boot.candidate = none ∧ State.reset.mgmt.clock = 0 ∧
  (∀ c o, State.reset.warp? c o = none) ∧ Canonical State.reset ∧
  (∀ p n id, (Part.reset p n).fence id = 0 ∧ (Part.reset p n).mapBase = 0 ∧ (Part.reset p n).mapLog2 = 0)

/-- Whatever a step runs, an instruction, an event or a pass of time, and from any state in which the bytes of device
memory at home and behind it, of the host's memory at home and behind it, of the scratchpads and of the lode stores
are canonical, they are canonical after it. The canonical form is the model's: addresses strictly rise and no listed
byte is what an unlisted one reads as (log 5). (R137, R174, R260, R289, 14_memory_hierarchy.) -/
def Obligations.MemoryStaysCanonical : Prop :=
  ∀ s t : State, Canonical s → step s = .next t → Canonical t
end

