-- ==== Sys2Proof/Laws/State.lean ====
section
/-! SUPPORT. One lemma per field per update: what each update of State, and of a warp, leaves alone. -/
namespace Sys2Proof.Machine

variable (s : State) (w : Warp)

/-! ### Updates of the state -/

@[simp] theorem setCore_turns (c : Nat) (k : Core) : (s.setCore c k).turns = s.turns := rfl
@[simp] theorem setCore_steps (c : Nat) (k : Core) : (s.setCore c k).steps = s.steps := rfl
@[simp] theorem setCore_sel (c : Nat) (k : Core) : (s.setCore c k).sel = s.sel := rfl
@[simp] theorem setCore_dropAt (c : Nat) (k : Core) : (s.setCore c k).dropAt = s.dropAt := rfl
@[simp] theorem setCore_time (c : Nat) (k : Core) : (s.setCore c k).time = s.time := rfl
@[simp] theorem setCore_dieDev (c : Nat) (k : Core) : (s.setCore c k).dieDev = s.dieDev := rfl
@[simp] theorem setCore_checked (c : Nat) (k : Core) : (s.setCore c k).checked = s.checked := rfl
@[simp] theorem setCore_cycle (c : Nat) (k : Core) : (s.setCore c k).cycle = s.cycle := rfl
@[simp] theorem setCore_dev (c : Nat) (k : Core) : (s.setCore c k).dev = s.dev := rfl
@[simp] theorem setCore_dram (c : Nat) (k : Core) : (s.setCore c k).dram = s.dram := rfl
@[simp] theorem setCore_host (c : Nat) (k : Core) : (s.setCore c k).host = s.host := rfl
@[simp] theorem setCore_hostBehind (c : Nat) (k : Core) : (s.setCore c k).hostBehind = s.hostBehind := rfl
@[simp] theorem setCore_l2 (c : Nat) (k : Core) : (s.setCore c k).l2 = s.l2 := rfl
@[simp] theorem setCore_poison (c : Nat) (k : Core) : (s.setCore c k).poison = s.poison := rfl
@[simp] theorem setCore_spad (c : Nat) (k : Core) : (s.setCore c k).spad = s.spad := rfl
@[simp] theorem setCore_lode (c : Nat) (k : Core) : (s.setCore c k).lode = s.lode := rfl
@[simp] theorem setCore_busy (c : Nat) (k : Core) : (s.setCore c k).busy = s.busy := rfl
@[simp] theorem setCore_merges (c : Nat) (k : Core) : (s.setCore c k).merges = s.merges := rfl
@[simp] theorem setCore_linkModules (c : Nat) (k : Core) : (s.setCore c k).linkModules = s.linkModules := rfl
@[simp] theorem setCore_sideband (c : Nat) (k : Core) : (s.setCore c k).sideband = s.sideband := rfl
@[simp] theorem setCore_diesHeld (c : Nat) (k : Core) : (s.setCore c k).diesHeld = s.diesHeld := rfl
@[simp] theorem setCore_boot (c : Nat) (k : Core) : (s.setCore c k).boot = s.boot := rfl
@[simp] theorem setCore_minVersion (c : Nat) (k : Core) : (s.setCore c k).minVersion = s.minVersion := rfl
@[simp] theorem setCore_raise (c : Nat) (k : Core) : (s.setCore c k).raise = s.raise := rfl
@[simp] theorem setCore_mgmt (c : Nat) (k : Core) : (s.setCore c k).mgmt = s.mgmt := rfl
@[simp] theorem setCore_bytes (c : Nat) (k : Core) : (s.setCore c k).bytes = s.bytes := rfl
@[simp] theorem setCore_parts (c : Nat) (k : Core) : (s.setCore c k).parts = s.parts := rfl
@[simp] theorem setCore_fns (c : Nat) (k : Core) : (s.setCore c k).fns = s.fns := rfl
@[simp] theorem setCore_ctxs (c : Nat) (k : Core) : (s.setCore c k).ctxs = s.ctxs := rfl
@[simp] theorem setCore_launches (c : Nat) (k : Core) : (s.setCore c k).launches = s.launches := rfl
@[simp] theorem setCore_blocks (c : Nat) (k : Core) : (s.setCore c k).blocks = s.blocks := rfl
@[simp] theorem setCore_groups (c : Nat) (k : Core) : (s.setCore c k).groups = s.groups := rfl
@[simp] theorem setCore_tlb (c : Nat) (k : Core) : (s.setCore c k).tlb = s.tlb := rfl
@[simp] theorem setCore_walks (c : Nat) (k : Core) : (s.setCore c k).walks = s.walks := rfl
@[simp] theorem setCore_maps (c : Nat) (k : Core) : (s.setCore c k).maps = s.maps := rfl
@[simp] theorem setCore_engs (c : Nat) (k : Core) : (s.setCore c k).engs = s.engs := rfl
@[simp] theorem setCore_engseq (c : Nat) (k : Core) : (s.setCore c k).engseq = s.engseq := rfl
@[simp] theorem setCore_preqs (c : Nat) (k : Core) : (s.setCore c k).preqs = s.preqs := rfl
@[simp] theorem setCore_preqSeqs (c : Nat) (k : Core) : (s.setCore c k).preqSeqs = s.preqSeqs := rfl
@[simp] theorem setCore_preqHeld (c : Nat) (k : Core) : (s.setCore c k).preqHeld = s.preqHeld := rfl
@[simp] theorem setCore_preqTurn (c : Nat) (k : Core) : (s.setCore c k).preqTurn = s.preqTurn := rfl
@[simp] theorem setCore_ridseq (c : Nat) (k : Core) : (s.setCore c k).ridseq = s.ridseq := rfl
@[simp] theorem setCore_evHeld (c : Nat) (k : Core) : (s.setCore c k).evHeld = s.evHeld := rfl
@[simp] theorem setCore_dropsOwed (c : Nat) (k : Core) : (s.setCore c k).dropsOwed = s.dropsOwed := rfl
@[simp] theorem setCore_replies (c : Nat) (k : Core) : (s.setCore c k).replies = s.replies := rfl
@[simp] theorem setCore_sent (c : Nat) (k : Core) : (s.setCore c k).sent = s.sent := rfl
@[simp] theorem setCore_answers (c : Nat) (k : Core) : (s.setCore c k).answers = s.answers := rfl
@[simp] theorem setCore_downLinks (c : Nat) (k : Core) : (s.setCore c k).downLinks = s.downLinks := rfl
@[simp] theorem setCore_msix (c : Nat) (k : Core) : (s.setCore c k).msix = s.msix := rfl

@[simp] theorem modCore_turns (c : Nat) (f : Core → Core) : (s.modCore c f).turns = s.turns := rfl
@[simp] theorem modCore_steps (c : Nat) (f : Core → Core) : (s.modCore c f).steps = s.steps := rfl
@[simp] theorem modCore_sel (c : Nat) (f : Core → Core) : (s.modCore c f).sel = s.sel := rfl
@[simp] theorem modCore_dropAt (c : Nat) (f : Core → Core) : (s.modCore c f).dropAt = s.dropAt := rfl
@[simp] theorem modCore_time (c : Nat) (f : Core → Core) : (s.modCore c f).time = s.time := rfl
@[simp] theorem modCore_dieDev (c : Nat) (f : Core → Core) : (s.modCore c f).dieDev = s.dieDev := rfl
@[simp] theorem modCore_checked (c : Nat) (f : Core → Core) : (s.modCore c f).checked = s.checked := rfl
@[simp] theorem modCore_cycle (c : Nat) (f : Core → Core) : (s.modCore c f).cycle = s.cycle := rfl
@[simp] theorem modCore_dev (c : Nat) (f : Core → Core) : (s.modCore c f).dev = s.dev := rfl
@[simp] theorem modCore_dram (c : Nat) (f : Core → Core) : (s.modCore c f).dram = s.dram := rfl
@[simp] theorem modCore_host (c : Nat) (f : Core → Core) : (s.modCore c f).host = s.host := rfl
@[simp] theorem modCore_hostBehind (c : Nat) (f : Core → Core) : (s.modCore c f).hostBehind = s.hostBehind := rfl
@[simp] theorem modCore_l2 (c : Nat) (f : Core → Core) : (s.modCore c f).l2 = s.l2 := rfl
@[simp] theorem modCore_poison (c : Nat) (f : Core → Core) : (s.modCore c f).poison = s.poison := rfl
@[simp] theorem modCore_spad (c : Nat) (f : Core → Core) : (s.modCore c f).spad = s.spad := rfl
@[simp] theorem modCore_lode (c : Nat) (f : Core → Core) : (s.modCore c f).lode = s.lode := rfl
@[simp] theorem modCore_busy (c : Nat) (f : Core → Core) : (s.modCore c f).busy = s.busy := rfl
@[simp] theorem modCore_merges (c : Nat) (f : Core → Core) : (s.modCore c f).merges = s.merges := rfl
@[simp] theorem modCore_linkModules (c : Nat) (f : Core → Core) : (s.modCore c f).linkModules = s.linkModules := rfl
@[simp] theorem modCore_sideband (c : Nat) (f : Core → Core) : (s.modCore c f).sideband = s.sideband := rfl
@[simp] theorem modCore_diesHeld (c : Nat) (f : Core → Core) : (s.modCore c f).diesHeld = s.diesHeld := rfl
@[simp] theorem modCore_boot (c : Nat) (f : Core → Core) : (s.modCore c f).boot = s.boot := rfl
@[simp] theorem modCore_minVersion (c : Nat) (f : Core → Core) : (s.modCore c f).minVersion = s.minVersion := rfl
@[simp] theorem modCore_raise (c : Nat) (f : Core → Core) : (s.modCore c f).raise = s.raise := rfl
@[simp] theorem modCore_mgmt (c : Nat) (f : Core → Core) : (s.modCore c f).mgmt = s.mgmt := rfl
@[simp] theorem modCore_bytes (c : Nat) (f : Core → Core) : (s.modCore c f).bytes = s.bytes := rfl
@[simp] theorem modCore_parts (c : Nat) (f : Core → Core) : (s.modCore c f).parts = s.parts := rfl
@[simp] theorem modCore_fns (c : Nat) (f : Core → Core) : (s.modCore c f).fns = s.fns := rfl
@[simp] theorem modCore_ctxs (c : Nat) (f : Core → Core) : (s.modCore c f).ctxs = s.ctxs := rfl
@[simp] theorem modCore_launches (c : Nat) (f : Core → Core) : (s.modCore c f).launches = s.launches := rfl
@[simp] theorem modCore_blocks (c : Nat) (f : Core → Core) : (s.modCore c f).blocks = s.blocks := rfl
@[simp] theorem modCore_groups (c : Nat) (f : Core → Core) : (s.modCore c f).groups = s.groups := rfl
@[simp] theorem modCore_tlb (c : Nat) (f : Core → Core) : (s.modCore c f).tlb = s.tlb := rfl
@[simp] theorem modCore_walks (c : Nat) (f : Core → Core) : (s.modCore c f).walks = s.walks := rfl
@[simp] theorem modCore_maps (c : Nat) (f : Core → Core) : (s.modCore c f).maps = s.maps := rfl
@[simp] theorem modCore_engs (c : Nat) (f : Core → Core) : (s.modCore c f).engs = s.engs := rfl
@[simp] theorem modCore_engseq (c : Nat) (f : Core → Core) : (s.modCore c f).engseq = s.engseq := rfl
@[simp] theorem modCore_preqs (c : Nat) (f : Core → Core) : (s.modCore c f).preqs = s.preqs := rfl
@[simp] theorem modCore_preqSeqs (c : Nat) (f : Core → Core) : (s.modCore c f).preqSeqs = s.preqSeqs := rfl
@[simp] theorem modCore_preqHeld (c : Nat) (f : Core → Core) : (s.modCore c f).preqHeld = s.preqHeld := rfl
@[simp] theorem modCore_preqTurn (c : Nat) (f : Core → Core) : (s.modCore c f).preqTurn = s.preqTurn := rfl
@[simp] theorem modCore_ridseq (c : Nat) (f : Core → Core) : (s.modCore c f).ridseq = s.ridseq := rfl
@[simp] theorem modCore_evHeld (c : Nat) (f : Core → Core) : (s.modCore c f).evHeld = s.evHeld := rfl
@[simp] theorem modCore_dropsOwed (c : Nat) (f : Core → Core) : (s.modCore c f).dropsOwed = s.dropsOwed := rfl
@[simp] theorem modCore_replies (c : Nat) (f : Core → Core) : (s.modCore c f).replies = s.replies := rfl
@[simp] theorem modCore_sent (c : Nat) (f : Core → Core) : (s.modCore c f).sent = s.sent := rfl
@[simp] theorem modCore_answers (c : Nat) (f : Core → Core) : (s.modCore c f).answers = s.answers := rfl
@[simp] theorem modCore_downLinks (c : Nat) (f : Core → Core) : (s.modCore c f).downLinks = s.downLinks := rfl
@[simp] theorem modCore_msix (c : Nat) (f : Core → Core) : (s.modCore c f).msix = s.msix := rfl

@[simp] theorem setWarp_turns (c o : Nat) (x : Warp) : (s.setWarp c o x).turns = s.turns := rfl
@[simp] theorem setWarp_steps (c o : Nat) (x : Warp) : (s.setWarp c o x).steps = s.steps := rfl
@[simp] theorem setWarp_sel (c o : Nat) (x : Warp) : (s.setWarp c o x).sel = s.sel := rfl
@[simp] theorem setWarp_dropAt (c o : Nat) (x : Warp) : (s.setWarp c o x).dropAt = s.dropAt := rfl
@[simp] theorem setWarp_time (c o : Nat) (x : Warp) : (s.setWarp c o x).time = s.time := rfl
@[simp] theorem setWarp_dieDev (c o : Nat) (x : Warp) : (s.setWarp c o x).dieDev = s.dieDev := rfl
@[simp] theorem setWarp_checked (c o : Nat) (x : Warp) : (s.setWarp c o x).checked = s.checked := rfl
@[simp] theorem setWarp_cycle (c o : Nat) (x : Warp) : (s.setWarp c o x).cycle = s.cycle := rfl
@[simp] theorem setWarp_dev (c o : Nat) (x : Warp) : (s.setWarp c o x).dev = s.dev := rfl
@[simp] theorem setWarp_dram (c o : Nat) (x : Warp) : (s.setWarp c o x).dram = s.dram := rfl
@[simp] theorem setWarp_host (c o : Nat) (x : Warp) : (s.setWarp c o x).host = s.host := rfl
@[simp] theorem setWarp_hostBehind (c o : Nat) (x : Warp) : (s.setWarp c o x).hostBehind = s.hostBehind := rfl
@[simp] theorem setWarp_l2 (c o : Nat) (x : Warp) : (s.setWarp c o x).l2 = s.l2 := rfl
@[simp] theorem setWarp_poison (c o : Nat) (x : Warp) : (s.setWarp c o x).poison = s.poison := rfl
@[simp] theorem setWarp_spad (c o : Nat) (x : Warp) : (s.setWarp c o x).spad = s.spad := rfl
@[simp] theorem setWarp_lode (c o : Nat) (x : Warp) : (s.setWarp c o x).lode = s.lode := rfl
@[simp] theorem setWarp_busy (c o : Nat) (x : Warp) : (s.setWarp c o x).busy = s.busy := rfl
@[simp] theorem setWarp_merges (c o : Nat) (x : Warp) : (s.setWarp c o x).merges = s.merges := rfl
@[simp] theorem setWarp_linkModules (c o : Nat) (x : Warp) : (s.setWarp c o x).linkModules = s.linkModules := rfl
@[simp] theorem setWarp_sideband (c o : Nat) (x : Warp) : (s.setWarp c o x).sideband = s.sideband := rfl
@[simp] theorem setWarp_diesHeld (c o : Nat) (x : Warp) : (s.setWarp c o x).diesHeld = s.diesHeld := rfl
@[simp] theorem setWarp_boot (c o : Nat) (x : Warp) : (s.setWarp c o x).boot = s.boot := rfl
@[simp] theorem setWarp_minVersion (c o : Nat) (x : Warp) : (s.setWarp c o x).minVersion = s.minVersion := rfl
@[simp] theorem setWarp_raise (c o : Nat) (x : Warp) : (s.setWarp c o x).raise = s.raise := rfl
@[simp] theorem setWarp_mgmt (c o : Nat) (x : Warp) : (s.setWarp c o x).mgmt = s.mgmt := rfl
@[simp] theorem setWarp_bytes (c o : Nat) (x : Warp) : (s.setWarp c o x).bytes = s.bytes := rfl
@[simp] theorem setWarp_parts (c o : Nat) (x : Warp) : (s.setWarp c o x).parts = s.parts := rfl
@[simp] theorem setWarp_fns (c o : Nat) (x : Warp) : (s.setWarp c o x).fns = s.fns := rfl
@[simp] theorem setWarp_ctxs (c o : Nat) (x : Warp) : (s.setWarp c o x).ctxs = s.ctxs := rfl
@[simp] theorem setWarp_launches (c o : Nat) (x : Warp) : (s.setWarp c o x).launches = s.launches := rfl
@[simp] theorem setWarp_blocks (c o : Nat) (x : Warp) : (s.setWarp c o x).blocks = s.blocks := rfl
@[simp] theorem setWarp_groups (c o : Nat) (x : Warp) : (s.setWarp c o x).groups = s.groups := rfl
@[simp] theorem setWarp_tlb (c o : Nat) (x : Warp) : (s.setWarp c o x).tlb = s.tlb := rfl
@[simp] theorem setWarp_walks (c o : Nat) (x : Warp) : (s.setWarp c o x).walks = s.walks := rfl
@[simp] theorem setWarp_maps (c o : Nat) (x : Warp) : (s.setWarp c o x).maps = s.maps := rfl
@[simp] theorem setWarp_engs (c o : Nat) (x : Warp) : (s.setWarp c o x).engs = s.engs := rfl
@[simp] theorem setWarp_engseq (c o : Nat) (x : Warp) : (s.setWarp c o x).engseq = s.engseq := rfl
@[simp] theorem setWarp_preqs (c o : Nat) (x : Warp) : (s.setWarp c o x).preqs = s.preqs := rfl
@[simp] theorem setWarp_preqSeqs (c o : Nat) (x : Warp) : (s.setWarp c o x).preqSeqs = s.preqSeqs := rfl
@[simp] theorem setWarp_preqHeld (c o : Nat) (x : Warp) : (s.setWarp c o x).preqHeld = s.preqHeld := rfl
@[simp] theorem setWarp_preqTurn (c o : Nat) (x : Warp) : (s.setWarp c o x).preqTurn = s.preqTurn := rfl
@[simp] theorem setWarp_ridseq (c o : Nat) (x : Warp) : (s.setWarp c o x).ridseq = s.ridseq := rfl
@[simp] theorem setWarp_evHeld (c o : Nat) (x : Warp) : (s.setWarp c o x).evHeld = s.evHeld := rfl
@[simp] theorem setWarp_dropsOwed (c o : Nat) (x : Warp) : (s.setWarp c o x).dropsOwed = s.dropsOwed := rfl
@[simp] theorem setWarp_replies (c o : Nat) (x : Warp) : (s.setWarp c o x).replies = s.replies := rfl
@[simp] theorem setWarp_sent (c o : Nat) (x : Warp) : (s.setWarp c o x).sent = s.sent := rfl
@[simp] theorem setWarp_answers (c o : Nat) (x : Warp) : (s.setWarp c o x).answers = s.answers := rfl
@[simp] theorem setWarp_downLinks (c o : Nat) (x : Warp) : (s.setWarp c o x).downLinks = s.downLinks := rfl
@[simp] theorem setWarp_msix (c o : Nat) (x : Warp) : (s.setWarp c o x).msix = s.msix := rfl

@[simp] theorem modWarp_turns (c o : Nat) (f : Warp → Warp) : (s.modWarp c o f).turns = s.turns := by simp only [State.modWarp]; split <;> rfl
@[simp] theorem modWarp_steps (c o : Nat) (f : Warp → Warp) : (s.modWarp c o f).steps = s.steps := by simp only [State.modWarp]; split <;> rfl
@[simp] theorem modWarp_sel (c o : Nat) (f : Warp → Warp) : (s.modWarp c o f).sel = s.sel := by simp only [State.modWarp]; split <;> rfl
@[simp] theorem modWarp_dropAt (c o : Nat) (f : Warp → Warp) : (s.modWarp c o f).dropAt = s.dropAt := by simp only [State.modWarp]; split <;> rfl
@[simp] theorem modWarp_time (c o : Nat) (f : Warp → Warp) : (s.modWarp c o f).time = s.time := by simp only [State.modWarp]; split <;> rfl
@[simp] theorem modWarp_dieDev (c o : Nat) (f : Warp → Warp) : (s.modWarp c o f).dieDev = s.dieDev := by simp only [State.modWarp]; split <;> rfl
@[simp] theorem modWarp_checked (c o : Nat) (f : Warp → Warp) : (s.modWarp c o f).checked = s.checked := by simp only [State.modWarp]; split <;> rfl
@[simp] theorem modWarp_cycle (c o : Nat) (f : Warp → Warp) : (s.modWarp c o f).cycle = s.cycle := by simp only [State.modWarp]; split <;> rfl
@[simp] theorem modWarp_dev (c o : Nat) (f : Warp → Warp) : (s.modWarp c o f).dev = s.dev := by simp only [State.modWarp]; split <;> rfl
@[simp] theorem modWarp_dram (c o : Nat) (f : Warp → Warp) : (s.modWarp c o f).dram = s.dram := by simp only [State.modWarp]; split <;> rfl
@[simp] theorem modWarp_host (c o : Nat) (f : Warp → Warp) : (s.modWarp c o f).host = s.host := by simp only [State.modWarp]; split <;> rfl
@[simp] theorem modWarp_hostBehind (c o : Nat) (f : Warp → Warp) : (s.modWarp c o f).hostBehind = s.hostBehind := by simp only [State.modWarp]; split <;> rfl
@[simp] theorem modWarp_l2 (c o : Nat) (f : Warp → Warp) : (s.modWarp c o f).l2 = s.l2 := by simp only [State.modWarp]; split <;> rfl
@[simp] theorem modWarp_poison (c o : Nat) (f : Warp → Warp) : (s.modWarp c o f).poison = s.poison := by simp only [State.modWarp]; split <;> rfl
@[simp] theorem modWarp_spad (c o : Nat) (f : Warp → Warp) : (s.modWarp c o f).spad = s.spad := by simp only [State.modWarp]; split <;> rfl
@[simp] theorem modWarp_lode (c o : Nat) (f : Warp → Warp) : (s.modWarp c o f).lode = s.lode := by simp only [State.modWarp]; split <;> rfl
@[simp] theorem modWarp_busy (c o : Nat) (f : Warp → Warp) : (s.modWarp c o f).busy = s.busy := by simp only [State.modWarp]; split <;> rfl
@[simp] theorem modWarp_merges (c o : Nat) (f : Warp → Warp) : (s.modWarp c o f).merges = s.merges := by simp only [State.modWarp]; split <;> rfl
@[simp] theorem modWarp_linkModules (c o : Nat) (f : Warp → Warp) : (s.modWarp c o f).linkModules = s.linkModules := by simp only [State.modWarp]; split <;> rfl
@[simp] theorem modWarp_sideband (c o : Nat) (f : Warp → Warp) : (s.modWarp c o f).sideband = s.sideband := by simp only [State.modWarp]; split <;> rfl
@[simp] theorem modWarp_diesHeld (c o : Nat) (f : Warp → Warp) : (s.modWarp c o f).diesHeld = s.diesHeld := by simp only [State.modWarp]; split <;> rfl
@[simp] theorem modWarp_boot (c o : Nat) (f : Warp → Warp) : (s.modWarp c o f).boot = s.boot := by simp only [State.modWarp]; split <;> rfl
@[simp] theorem modWarp_minVersion (c o : Nat) (f : Warp → Warp) : (s.modWarp c o f).minVersion = s.minVersion := by simp only [State.modWarp]; split <;> rfl
@[simp] theorem modWarp_raise (c o : Nat) (f : Warp → Warp) : (s.modWarp c o f).raise = s.raise := by simp only [State.modWarp]; split <;> rfl
@[simp] theorem modWarp_mgmt (c o : Nat) (f : Warp → Warp) : (s.modWarp c o f).mgmt = s.mgmt := by simp only [State.modWarp]; split <;> rfl
@[simp] theorem modWarp_bytes (c o : Nat) (f : Warp → Warp) : (s.modWarp c o f).bytes = s.bytes := by simp only [State.modWarp]; split <;> rfl
@[simp] theorem modWarp_parts (c o : Nat) (f : Warp → Warp) : (s.modWarp c o f).parts = s.parts := by simp only [State.modWarp]; split <;> rfl
@[simp] theorem modWarp_fns (c o : Nat) (f : Warp → Warp) : (s.modWarp c o f).fns = s.fns := by simp only [State.modWarp]; split <;> rfl
@[simp] theorem modWarp_ctxs (c o : Nat) (f : Warp → Warp) : (s.modWarp c o f).ctxs = s.ctxs := by simp only [State.modWarp]; split <;> rfl
@[simp] theorem modWarp_launches (c o : Nat) (f : Warp → Warp) : (s.modWarp c o f).launches = s.launches := by simp only [State.modWarp]; split <;> rfl
@[simp] theorem modWarp_blocks (c o : Nat) (f : Warp → Warp) : (s.modWarp c o f).blocks = s.blocks := by simp only [State.modWarp]; split <;> rfl
@[simp] theorem modWarp_groups (c o : Nat) (f : Warp → Warp) : (s.modWarp c o f).groups = s.groups := by simp only [State.modWarp]; split <;> rfl
@[simp] theorem modWarp_tlb (c o : Nat) (f : Warp → Warp) : (s.modWarp c o f).tlb = s.tlb := by simp only [State.modWarp]; split <;> rfl
@[simp] theorem modWarp_walks (c o : Nat) (f : Warp → Warp) : (s.modWarp c o f).walks = s.walks := by simp only [State.modWarp]; split <;> rfl
@[simp] theorem modWarp_maps (c o : Nat) (f : Warp → Warp) : (s.modWarp c o f).maps = s.maps := by simp only [State.modWarp]; split <;> rfl
@[simp] theorem modWarp_engs (c o : Nat) (f : Warp → Warp) : (s.modWarp c o f).engs = s.engs := by simp only [State.modWarp]; split <;> rfl
@[simp] theorem modWarp_engseq (c o : Nat) (f : Warp → Warp) : (s.modWarp c o f).engseq = s.engseq := by simp only [State.modWarp]; split <;> rfl
@[simp] theorem modWarp_preqs (c o : Nat) (f : Warp → Warp) : (s.modWarp c o f).preqs = s.preqs := by simp only [State.modWarp]; split <;> rfl
@[simp] theorem modWarp_preqSeqs (c o : Nat) (f : Warp → Warp) : (s.modWarp c o f).preqSeqs = s.preqSeqs := by simp only [State.modWarp]; split <;> rfl
@[simp] theorem modWarp_preqHeld (c o : Nat) (f : Warp → Warp) : (s.modWarp c o f).preqHeld = s.preqHeld := by simp only [State.modWarp]; split <;> rfl
@[simp] theorem modWarp_preqTurn (c o : Nat) (f : Warp → Warp) : (s.modWarp c o f).preqTurn = s.preqTurn := by simp only [State.modWarp]; split <;> rfl
@[simp] theorem modWarp_ridseq (c o : Nat) (f : Warp → Warp) : (s.modWarp c o f).ridseq = s.ridseq := by simp only [State.modWarp]; split <;> rfl
@[simp] theorem modWarp_evHeld (c o : Nat) (f : Warp → Warp) : (s.modWarp c o f).evHeld = s.evHeld := by simp only [State.modWarp]; split <;> rfl
@[simp] theorem modWarp_dropsOwed (c o : Nat) (f : Warp → Warp) : (s.modWarp c o f).dropsOwed = s.dropsOwed := by simp only [State.modWarp]; split <;> rfl
@[simp] theorem modWarp_replies (c o : Nat) (f : Warp → Warp) : (s.modWarp c o f).replies = s.replies := by simp only [State.modWarp]; split <;> rfl
@[simp] theorem modWarp_sent (c o : Nat) (f : Warp → Warp) : (s.modWarp c o f).sent = s.sent := by simp only [State.modWarp]; split <;> rfl
@[simp] theorem modWarp_answers (c o : Nat) (f : Warp → Warp) : (s.modWarp c o f).answers = s.answers := by simp only [State.modWarp]; split <;> rfl
@[simp] theorem modWarp_downLinks (c o : Nat) (f : Warp → Warp) : (s.modWarp c o f).downLinks = s.downLinks := by simp only [State.modWarp]; split <;> rfl
@[simp] theorem modWarp_msix (c o : Nat) (f : Warp → Warp) : (s.modWarp c o f).msix = s.msix := by simp only [State.modWarp]; split <;> rfl

@[simp] theorem modPart_turns (p : Nat) (f : Part → Part) : (s.modPart p f).turns = s.turns := rfl
@[simp] theorem modPart_steps (p : Nat) (f : Part → Part) : (s.modPart p f).steps = s.steps := rfl
@[simp] theorem modPart_sel (p : Nat) (f : Part → Part) : (s.modPart p f).sel = s.sel := rfl
@[simp] theorem modPart_dropAt (p : Nat) (f : Part → Part) : (s.modPart p f).dropAt = s.dropAt := rfl
@[simp] theorem modPart_time (p : Nat) (f : Part → Part) : (s.modPart p f).time = s.time := rfl
@[simp] theorem modPart_dieDev (p : Nat) (f : Part → Part) : (s.modPart p f).dieDev = s.dieDev := rfl
@[simp] theorem modPart_checked (p : Nat) (f : Part → Part) : (s.modPart p f).checked = s.checked := rfl
@[simp] theorem modPart_cycle (p : Nat) (f : Part → Part) : (s.modPart p f).cycle = s.cycle := rfl
@[simp] theorem modPart_dev (p : Nat) (f : Part → Part) : (s.modPart p f).dev = s.dev := rfl
@[simp] theorem modPart_dram (p : Nat) (f : Part → Part) : (s.modPart p f).dram = s.dram := rfl
@[simp] theorem modPart_host (p : Nat) (f : Part → Part) : (s.modPart p f).host = s.host := rfl
@[simp] theorem modPart_hostBehind (p : Nat) (f : Part → Part) : (s.modPart p f).hostBehind = s.hostBehind := rfl
@[simp] theorem modPart_l2 (p : Nat) (f : Part → Part) : (s.modPart p f).l2 = s.l2 := rfl
@[simp] theorem modPart_poison (p : Nat) (f : Part → Part) : (s.modPart p f).poison = s.poison := rfl
@[simp] theorem modPart_spad (p : Nat) (f : Part → Part) : (s.modPart p f).spad = s.spad := rfl
@[simp] theorem modPart_lode (p : Nat) (f : Part → Part) : (s.modPart p f).lode = s.lode := rfl
@[simp] theorem modPart_busy (p : Nat) (f : Part → Part) : (s.modPart p f).busy = s.busy := rfl
@[simp] theorem modPart_merges (p : Nat) (f : Part → Part) : (s.modPart p f).merges = s.merges := rfl
@[simp] theorem modPart_linkModules (p : Nat) (f : Part → Part) : (s.modPart p f).linkModules = s.linkModules := rfl
@[simp] theorem modPart_sideband (p : Nat) (f : Part → Part) : (s.modPart p f).sideband = s.sideband := rfl
@[simp] theorem modPart_diesHeld (p : Nat) (f : Part → Part) : (s.modPart p f).diesHeld = s.diesHeld := rfl
@[simp] theorem modPart_boot (p : Nat) (f : Part → Part) : (s.modPart p f).boot = s.boot := rfl
@[simp] theorem modPart_minVersion (p : Nat) (f : Part → Part) : (s.modPart p f).minVersion = s.minVersion := rfl
@[simp] theorem modPart_raise (p : Nat) (f : Part → Part) : (s.modPart p f).raise = s.raise := rfl
@[simp] theorem modPart_mgmt (p : Nat) (f : Part → Part) : (s.modPart p f).mgmt = s.mgmt := rfl
@[simp] theorem modPart_bytes (p : Nat) (f : Part → Part) : (s.modPart p f).bytes = s.bytes := rfl
@[simp] theorem modPart_fns (p : Nat) (f : Part → Part) : (s.modPart p f).fns = s.fns := rfl
@[simp] theorem modPart_ctxs (p : Nat) (f : Part → Part) : (s.modPart p f).ctxs = s.ctxs := rfl
@[simp] theorem modPart_launches (p : Nat) (f : Part → Part) : (s.modPart p f).launches = s.launches := rfl
@[simp] theorem modPart_blocks (p : Nat) (f : Part → Part) : (s.modPart p f).blocks = s.blocks := rfl
@[simp] theorem modPart_cores (p : Nat) (f : Part → Part) : (s.modPart p f).cores = s.cores := rfl
@[simp] theorem modPart_groups (p : Nat) (f : Part → Part) : (s.modPart p f).groups = s.groups := rfl
@[simp] theorem modPart_tlb (p : Nat) (f : Part → Part) : (s.modPart p f).tlb = s.tlb := rfl
@[simp] theorem modPart_walks (p : Nat) (f : Part → Part) : (s.modPart p f).walks = s.walks := rfl
@[simp] theorem modPart_maps (p : Nat) (f : Part → Part) : (s.modPart p f).maps = s.maps := rfl
@[simp] theorem modPart_engs (p : Nat) (f : Part → Part) : (s.modPart p f).engs = s.engs := rfl
@[simp] theorem modPart_engseq (p : Nat) (f : Part → Part) : (s.modPart p f).engseq = s.engseq := rfl
@[simp] theorem modPart_preqs (p : Nat) (f : Part → Part) : (s.modPart p f).preqs = s.preqs := rfl
@[simp] theorem modPart_preqSeqs (p : Nat) (f : Part → Part) : (s.modPart p f).preqSeqs = s.preqSeqs := rfl
@[simp] theorem modPart_preqHeld (p : Nat) (f : Part → Part) : (s.modPart p f).preqHeld = s.preqHeld := rfl
@[simp] theorem modPart_preqTurn (p : Nat) (f : Part → Part) : (s.modPart p f).preqTurn = s.preqTurn := rfl
@[simp] theorem modPart_ridseq (p : Nat) (f : Part → Part) : (s.modPart p f).ridseq = s.ridseq := rfl
@[simp] theorem modPart_evHeld (p : Nat) (f : Part → Part) : (s.modPart p f).evHeld = s.evHeld := rfl
@[simp] theorem modPart_dropsOwed (p : Nat) (f : Part → Part) : (s.modPart p f).dropsOwed = s.dropsOwed := rfl
@[simp] theorem modPart_replies (p : Nat) (f : Part → Part) : (s.modPart p f).replies = s.replies := rfl
@[simp] theorem modPart_sent (p : Nat) (f : Part → Part) : (s.modPart p f).sent = s.sent := rfl
@[simp] theorem modPart_answers (p : Nat) (f : Part → Part) : (s.modPart p f).answers = s.answers := rfl
@[simp] theorem modPart_downLinks (p : Nat) (f : Part → Part) : (s.modPart p f).downLinks = s.downLinks := rfl
@[simp] theorem modPart_msix (p : Nat) (f : Part → Part) : (s.modPart p f).msix = s.msix := rfl

@[simp] theorem count_turns (x r n : Nat) : (s.count x r n).turns = s.turns := rfl
@[simp] theorem count_steps (x r n : Nat) : (s.count x r n).steps = s.steps := rfl
@[simp] theorem count_sel (x r n : Nat) : (s.count x r n).sel = s.sel := rfl
@[simp] theorem count_dropAt (x r n : Nat) : (s.count x r n).dropAt = s.dropAt := rfl
@[simp] theorem count_time (x r n : Nat) : (s.count x r n).time = s.time := rfl
@[simp] theorem count_dieDev (x r n : Nat) : (s.count x r n).dieDev = s.dieDev := rfl
@[simp] theorem count_checked (x r n : Nat) : (s.count x r n).checked = s.checked := rfl
@[simp] theorem count_cycle (x r n : Nat) : (s.count x r n).cycle = s.cycle := rfl
@[simp] theorem count_dev (x r n : Nat) : (s.count x r n).dev = s.dev := rfl
@[simp] theorem count_dram (x r n : Nat) : (s.count x r n).dram = s.dram := rfl
@[simp] theorem count_host (x r n : Nat) : (s.count x r n).host = s.host := rfl
@[simp] theorem count_hostBehind (x r n : Nat) : (s.count x r n).hostBehind = s.hostBehind := rfl
@[simp] theorem count_l2 (x r n : Nat) : (s.count x r n).l2 = s.l2 := rfl
@[simp] theorem count_poison (x r n : Nat) : (s.count x r n).poison = s.poison := rfl
@[simp] theorem count_spad (x r n : Nat) : (s.count x r n).spad = s.spad := rfl
@[simp] theorem count_lode (x r n : Nat) : (s.count x r n).lode = s.lode := rfl
@[simp] theorem count_busy (x r n : Nat) : (s.count x r n).busy = s.busy := rfl
@[simp] theorem count_merges (x r n : Nat) : (s.count x r n).merges = s.merges := rfl
@[simp] theorem count_linkModules (x r n : Nat) : (s.count x r n).linkModules = s.linkModules := rfl
@[simp] theorem count_sideband (x r n : Nat) : (s.count x r n).sideband = s.sideband := rfl
@[simp] theorem count_diesHeld (x r n : Nat) : (s.count x r n).diesHeld = s.diesHeld := rfl
@[simp] theorem count_boot (x r n : Nat) : (s.count x r n).boot = s.boot := rfl
@[simp] theorem count_minVersion (x r n : Nat) : (s.count x r n).minVersion = s.minVersion := rfl
@[simp] theorem count_raise (x r n : Nat) : (s.count x r n).raise = s.raise := rfl
@[simp] theorem count_mgmt (x r n : Nat) : (s.count x r n).mgmt = s.mgmt := rfl
@[simp] theorem count_parts (x r n : Nat) : (s.count x r n).parts = s.parts := rfl
@[simp] theorem count_fns (x r n : Nat) : (s.count x r n).fns = s.fns := rfl
@[simp] theorem count_ctxs (x r n : Nat) : (s.count x r n).ctxs = s.ctxs := rfl
@[simp] theorem count_launches (x r n : Nat) : (s.count x r n).launches = s.launches := rfl
@[simp] theorem count_blocks (x r n : Nat) : (s.count x r n).blocks = s.blocks := rfl
@[simp] theorem count_cores (x r n : Nat) : (s.count x r n).cores = s.cores := rfl
@[simp] theorem count_groups (x r n : Nat) : (s.count x r n).groups = s.groups := rfl
@[simp] theorem count_tlb (x r n : Nat) : (s.count x r n).tlb = s.tlb := rfl
@[simp] theorem count_walks (x r n : Nat) : (s.count x r n).walks = s.walks := rfl
@[simp] theorem count_maps (x r n : Nat) : (s.count x r n).maps = s.maps := rfl
@[simp] theorem count_engs (x r n : Nat) : (s.count x r n).engs = s.engs := rfl
@[simp] theorem count_engseq (x r n : Nat) : (s.count x r n).engseq = s.engseq := rfl
@[simp] theorem count_preqs (x r n : Nat) : (s.count x r n).preqs = s.preqs := rfl
@[simp] theorem count_preqSeqs (x r n : Nat) : (s.count x r n).preqSeqs = s.preqSeqs := rfl
@[simp] theorem count_preqHeld (x r n : Nat) : (s.count x r n).preqHeld = s.preqHeld := rfl
@[simp] theorem count_preqTurn (x r n : Nat) : (s.count x r n).preqTurn = s.preqTurn := rfl
@[simp] theorem count_ridseq (x r n : Nat) : (s.count x r n).ridseq = s.ridseq := rfl
@[simp] theorem count_evHeld (x r n : Nat) : (s.count x r n).evHeld = s.evHeld := rfl
@[simp] theorem count_dropsOwed (x r n : Nat) : (s.count x r n).dropsOwed = s.dropsOwed := rfl
@[simp] theorem count_replies (x r n : Nat) : (s.count x r n).replies = s.replies := rfl
@[simp] theorem count_sent (x r n : Nat) : (s.count x r n).sent = s.sent := rfl
@[simp] theorem count_answers (x r n : Nat) : (s.count x r n).answers = s.answers := rfl
@[simp] theorem count_downLinks (x r n : Nat) : (s.count x r n).downLinks = s.downLinks := rfl
@[simp] theorem count_msix (x r n : Nat) : (s.count x r n).msix = s.msix := rfl

@[simp] theorem tally_turns (p k n : Nat) : (s.tally p k n).turns = s.turns := rfl
@[simp] theorem tally_steps (p k n : Nat) : (s.tally p k n).steps = s.steps := rfl
@[simp] theorem tally_sel (p k n : Nat) : (s.tally p k n).sel = s.sel := rfl
@[simp] theorem tally_dropAt (p k n : Nat) : (s.tally p k n).dropAt = s.dropAt := rfl
@[simp] theorem tally_time (p k n : Nat) : (s.tally p k n).time = s.time := rfl
@[simp] theorem tally_dieDev (p k n : Nat) : (s.tally p k n).dieDev = s.dieDev := rfl
@[simp] theorem tally_checked (p k n : Nat) : (s.tally p k n).checked = s.checked := rfl
@[simp] theorem tally_cycle (p k n : Nat) : (s.tally p k n).cycle = s.cycle := rfl
@[simp] theorem tally_dev (p k n : Nat) : (s.tally p k n).dev = s.dev := rfl
@[simp] theorem tally_dram (p k n : Nat) : (s.tally p k n).dram = s.dram := rfl
@[simp] theorem tally_host (p k n : Nat) : (s.tally p k n).host = s.host := rfl
@[simp] theorem tally_hostBehind (p k n : Nat) : (s.tally p k n).hostBehind = s.hostBehind := rfl
@[simp] theorem tally_l2 (p k n : Nat) : (s.tally p k n).l2 = s.l2 := rfl
@[simp] theorem tally_poison (p k n : Nat) : (s.tally p k n).poison = s.poison := rfl
@[simp] theorem tally_spad (p k n : Nat) : (s.tally p k n).spad = s.spad := rfl
@[simp] theorem tally_lode (p k n : Nat) : (s.tally p k n).lode = s.lode := rfl
@[simp] theorem tally_busy (p k n : Nat) : (s.tally p k n).busy = s.busy := rfl
@[simp] theorem tally_merges (p k n : Nat) : (s.tally p k n).merges = s.merges := rfl
@[simp] theorem tally_linkModules (p k n : Nat) : (s.tally p k n).linkModules = s.linkModules := rfl
@[simp] theorem tally_sideband (p k n : Nat) : (s.tally p k n).sideband = s.sideband := rfl
@[simp] theorem tally_diesHeld (p k n : Nat) : (s.tally p k n).diesHeld = s.diesHeld := rfl
@[simp] theorem tally_boot (p k n : Nat) : (s.tally p k n).boot = s.boot := rfl
@[simp] theorem tally_minVersion (p k n : Nat) : (s.tally p k n).minVersion = s.minVersion := rfl
@[simp] theorem tally_raise (p k n : Nat) : (s.tally p k n).raise = s.raise := rfl
@[simp] theorem tally_mgmt (p k n : Nat) : (s.tally p k n).mgmt = s.mgmt := rfl
@[simp] theorem tally_bytes (p k n : Nat) : (s.tally p k n).bytes = s.bytes := rfl
@[simp] theorem tally_fns (p k n : Nat) : (s.tally p k n).fns = s.fns := rfl
@[simp] theorem tally_ctxs (p k n : Nat) : (s.tally p k n).ctxs = s.ctxs := rfl
@[simp] theorem tally_launches (p k n : Nat) : (s.tally p k n).launches = s.launches := rfl
@[simp] theorem tally_blocks (p k n : Nat) : (s.tally p k n).blocks = s.blocks := rfl
@[simp] theorem tally_cores (p k n : Nat) : (s.tally p k n).cores = s.cores := rfl
@[simp] theorem tally_groups (p k n : Nat) : (s.tally p k n).groups = s.groups := rfl
@[simp] theorem tally_tlb (p k n : Nat) : (s.tally p k n).tlb = s.tlb := rfl
@[simp] theorem tally_walks (p k n : Nat) : (s.tally p k n).walks = s.walks := rfl
@[simp] theorem tally_maps (p k n : Nat) : (s.tally p k n).maps = s.maps := rfl
@[simp] theorem tally_engs (p k n : Nat) : (s.tally p k n).engs = s.engs := rfl
@[simp] theorem tally_engseq (p k n : Nat) : (s.tally p k n).engseq = s.engseq := rfl
@[simp] theorem tally_preqs (p k n : Nat) : (s.tally p k n).preqs = s.preqs := rfl
@[simp] theorem tally_preqSeqs (p k n : Nat) : (s.tally p k n).preqSeqs = s.preqSeqs := rfl
@[simp] theorem tally_preqHeld (p k n : Nat) : (s.tally p k n).preqHeld = s.preqHeld := rfl
@[simp] theorem tally_preqTurn (p k n : Nat) : (s.tally p k n).preqTurn = s.preqTurn := rfl
@[simp] theorem tally_ridseq (p k n : Nat) : (s.tally p k n).ridseq = s.ridseq := rfl
@[simp] theorem tally_evHeld (p k n : Nat) : (s.tally p k n).evHeld = s.evHeld := rfl
@[simp] theorem tally_dropsOwed (p k n : Nat) : (s.tally p k n).dropsOwed = s.dropsOwed := rfl
@[simp] theorem tally_replies (p k n : Nat) : (s.tally p k n).replies = s.replies := rfl
@[simp] theorem tally_sent (p k n : Nat) : (s.tally p k n).sent = s.sent := rfl
@[simp] theorem tally_answers (p k n : Nat) : (s.tally p k n).answers = s.answers := rfl
@[simp] theorem tally_downLinks (p k n : Nat) : (s.tally p k n).downLinks = s.downLinks := rfl
@[simp] theorem tally_msix (p k n : Nat) : (s.tally p k n).msix = s.msix := rfl

@[simp] theorem modFn_turns (p : Nat) (g : FnPage → FnPage) : (s.modFn p g).turns = s.turns := rfl
@[simp] theorem modFn_steps (p : Nat) (g : FnPage → FnPage) : (s.modFn p g).steps = s.steps := rfl
@[simp] theorem modFn_sel (p : Nat) (g : FnPage → FnPage) : (s.modFn p g).sel = s.sel := rfl
@[simp] theorem modFn_dropAt (p : Nat) (g : FnPage → FnPage) : (s.modFn p g).dropAt = s.dropAt := rfl
@[simp] theorem modFn_time (p : Nat) (g : FnPage → FnPage) : (s.modFn p g).time = s.time := rfl
@[simp] theorem modFn_dieDev (p : Nat) (g : FnPage → FnPage) : (s.modFn p g).dieDev = s.dieDev := rfl
@[simp] theorem modFn_checked (p : Nat) (g : FnPage → FnPage) : (s.modFn p g).checked = s.checked := rfl
@[simp] theorem modFn_cycle (p : Nat) (g : FnPage → FnPage) : (s.modFn p g).cycle = s.cycle := rfl
@[simp] theorem modFn_dev (p : Nat) (g : FnPage → FnPage) : (s.modFn p g).dev = s.dev := rfl
@[simp] theorem modFn_dram (p : Nat) (g : FnPage → FnPage) : (s.modFn p g).dram = s.dram := rfl
@[simp] theorem modFn_host (p : Nat) (g : FnPage → FnPage) : (s.modFn p g).host = s.host := rfl
@[simp] theorem modFn_hostBehind (p : Nat) (g : FnPage → FnPage) : (s.modFn p g).hostBehind = s.hostBehind := rfl
@[simp] theorem modFn_l2 (p : Nat) (g : FnPage → FnPage) : (s.modFn p g).l2 = s.l2 := rfl
@[simp] theorem modFn_poison (p : Nat) (g : FnPage → FnPage) : (s.modFn p g).poison = s.poison := rfl
@[simp] theorem modFn_spad (p : Nat) (g : FnPage → FnPage) : (s.modFn p g).spad = s.spad := rfl
@[simp] theorem modFn_lode (p : Nat) (g : FnPage → FnPage) : (s.modFn p g).lode = s.lode := rfl
@[simp] theorem modFn_busy (p : Nat) (g : FnPage → FnPage) : (s.modFn p g).busy = s.busy := rfl
@[simp] theorem modFn_merges (p : Nat) (g : FnPage → FnPage) : (s.modFn p g).merges = s.merges := rfl
@[simp] theorem modFn_linkModules (p : Nat) (g : FnPage → FnPage) : (s.modFn p g).linkModules = s.linkModules := rfl
@[simp] theorem modFn_sideband (p : Nat) (g : FnPage → FnPage) : (s.modFn p g).sideband = s.sideband := rfl
@[simp] theorem modFn_diesHeld (p : Nat) (g : FnPage → FnPage) : (s.modFn p g).diesHeld = s.diesHeld := rfl
@[simp] theorem modFn_boot (p : Nat) (g : FnPage → FnPage) : (s.modFn p g).boot = s.boot := rfl
@[simp] theorem modFn_minVersion (p : Nat) (g : FnPage → FnPage) : (s.modFn p g).minVersion = s.minVersion := rfl
@[simp] theorem modFn_raise (p : Nat) (g : FnPage → FnPage) : (s.modFn p g).raise = s.raise := rfl
@[simp] theorem modFn_mgmt (p : Nat) (g : FnPage → FnPage) : (s.modFn p g).mgmt = s.mgmt := rfl
@[simp] theorem modFn_bytes (p : Nat) (g : FnPage → FnPage) : (s.modFn p g).bytes = s.bytes := rfl
@[simp] theorem modFn_parts (p : Nat) (g : FnPage → FnPage) : (s.modFn p g).parts = s.parts := rfl
@[simp] theorem modFn_ctxs (p : Nat) (g : FnPage → FnPage) : (s.modFn p g).ctxs = s.ctxs := rfl
@[simp] theorem modFn_launches (p : Nat) (g : FnPage → FnPage) : (s.modFn p g).launches = s.launches := rfl
@[simp] theorem modFn_blocks (p : Nat) (g : FnPage → FnPage) : (s.modFn p g).blocks = s.blocks := rfl
@[simp] theorem modFn_cores (p : Nat) (g : FnPage → FnPage) : (s.modFn p g).cores = s.cores := rfl
@[simp] theorem modFn_groups (p : Nat) (g : FnPage → FnPage) : (s.modFn p g).groups = s.groups := rfl
@[simp] theorem modFn_tlb (p : Nat) (g : FnPage → FnPage) : (s.modFn p g).tlb = s.tlb := rfl
@[simp] theorem modFn_walks (p : Nat) (g : FnPage → FnPage) : (s.modFn p g).walks = s.walks := rfl
@[simp] theorem modFn_maps (p : Nat) (g : FnPage → FnPage) : (s.modFn p g).maps = s.maps := rfl
@[simp] theorem modFn_engs (p : Nat) (g : FnPage → FnPage) : (s.modFn p g).engs = s.engs := rfl
@[simp] theorem modFn_engseq (p : Nat) (g : FnPage → FnPage) : (s.modFn p g).engseq = s.engseq := rfl
@[simp] theorem modFn_preqs (p : Nat) (g : FnPage → FnPage) : (s.modFn p g).preqs = s.preqs := rfl
@[simp] theorem modFn_preqSeqs (p : Nat) (g : FnPage → FnPage) : (s.modFn p g).preqSeqs = s.preqSeqs := rfl
@[simp] theorem modFn_preqHeld (p : Nat) (g : FnPage → FnPage) : (s.modFn p g).preqHeld = s.preqHeld := rfl
@[simp] theorem modFn_preqTurn (p : Nat) (g : FnPage → FnPage) : (s.modFn p g).preqTurn = s.preqTurn := rfl
@[simp] theorem modFn_ridseq (p : Nat) (g : FnPage → FnPage) : (s.modFn p g).ridseq = s.ridseq := rfl
@[simp] theorem modFn_evHeld (p : Nat) (g : FnPage → FnPage) : (s.modFn p g).evHeld = s.evHeld := rfl
@[simp] theorem modFn_dropsOwed (p : Nat) (g : FnPage → FnPage) : (s.modFn p g).dropsOwed = s.dropsOwed := rfl
@[simp] theorem modFn_replies (p : Nat) (g : FnPage → FnPage) : (s.modFn p g).replies = s.replies := rfl
@[simp] theorem modFn_sent (p : Nat) (g : FnPage → FnPage) : (s.modFn p g).sent = s.sent := rfl
@[simp] theorem modFn_answers (p : Nat) (g : FnPage → FnPage) : (s.modFn p g).answers = s.answers := rfl
@[simp] theorem modFn_downLinks (p : Nat) (g : FnPage → FnPage) : (s.modFn p g).downLinks = s.downLinks := rfl
@[simp] theorem modFn_msix (p : Nat) (g : FnPage → FnPage) : (s.modFn p g).msix = s.msix := rfl

@[simp] theorem modCtx_turns (x : Nat) (f : Ctx → Ctx) : (s.modCtx x f).turns = s.turns := rfl
@[simp] theorem modCtx_steps (x : Nat) (f : Ctx → Ctx) : (s.modCtx x f).steps = s.steps := rfl
@[simp] theorem modCtx_sel (x : Nat) (f : Ctx → Ctx) : (s.modCtx x f).sel = s.sel := rfl
@[simp] theorem modCtx_dropAt (x : Nat) (f : Ctx → Ctx) : (s.modCtx x f).dropAt = s.dropAt := rfl
@[simp] theorem modCtx_time (x : Nat) (f : Ctx → Ctx) : (s.modCtx x f).time = s.time := rfl
@[simp] theorem modCtx_dieDev (x : Nat) (f : Ctx → Ctx) : (s.modCtx x f).dieDev = s.dieDev := rfl
@[simp] theorem modCtx_checked (x : Nat) (f : Ctx → Ctx) : (s.modCtx x f).checked = s.checked := rfl
@[simp] theorem modCtx_cycle (x : Nat) (f : Ctx → Ctx) : (s.modCtx x f).cycle = s.cycle := rfl
@[simp] theorem modCtx_dev (x : Nat) (f : Ctx → Ctx) : (s.modCtx x f).dev = s.dev := rfl
@[simp] theorem modCtx_dram (x : Nat) (f : Ctx → Ctx) : (s.modCtx x f).dram = s.dram := rfl
@[simp] theorem modCtx_host (x : Nat) (f : Ctx → Ctx) : (s.modCtx x f).host = s.host := rfl
@[simp] theorem modCtx_hostBehind (x : Nat) (f : Ctx → Ctx) : (s.modCtx x f).hostBehind = s.hostBehind := rfl
@[simp] theorem modCtx_l2 (x : Nat) (f : Ctx → Ctx) : (s.modCtx x f).l2 = s.l2 := rfl
@[simp] theorem modCtx_poison (x : Nat) (f : Ctx → Ctx) : (s.modCtx x f).poison = s.poison := rfl
@[simp] theorem modCtx_spad (x : Nat) (f : Ctx → Ctx) : (s.modCtx x f).spad = s.spad := rfl
@[simp] theorem modCtx_lode (x : Nat) (f : Ctx → Ctx) : (s.modCtx x f).lode = s.lode := rfl
@[simp] theorem modCtx_busy (x : Nat) (f : Ctx → Ctx) : (s.modCtx x f).busy = s.busy := rfl
@[simp] theorem modCtx_merges (x : Nat) (f : Ctx → Ctx) : (s.modCtx x f).merges = s.merges := rfl
@[simp] theorem modCtx_linkModules (x : Nat) (f : Ctx → Ctx) : (s.modCtx x f).linkModules = s.linkModules := rfl
@[simp] theorem modCtx_sideband (x : Nat) (f : Ctx → Ctx) : (s.modCtx x f).sideband = s.sideband := rfl
@[simp] theorem modCtx_diesHeld (x : Nat) (f : Ctx → Ctx) : (s.modCtx x f).diesHeld = s.diesHeld := rfl
@[simp] theorem modCtx_boot (x : Nat) (f : Ctx → Ctx) : (s.modCtx x f).boot = s.boot := rfl
@[simp] theorem modCtx_minVersion (x : Nat) (f : Ctx → Ctx) : (s.modCtx x f).minVersion = s.minVersion := rfl
@[simp] theorem modCtx_raise (x : Nat) (f : Ctx → Ctx) : (s.modCtx x f).raise = s.raise := rfl
@[simp] theorem modCtx_mgmt (x : Nat) (f : Ctx → Ctx) : (s.modCtx x f).mgmt = s.mgmt := rfl
@[simp] theorem modCtx_bytes (x : Nat) (f : Ctx → Ctx) : (s.modCtx x f).bytes = s.bytes := rfl
@[simp] theorem modCtx_parts (x : Nat) (f : Ctx → Ctx) : (s.modCtx x f).parts = s.parts := rfl
@[simp] theorem modCtx_fns (x : Nat) (f : Ctx → Ctx) : (s.modCtx x f).fns = s.fns := rfl
@[simp] theorem modCtx_launches (x : Nat) (f : Ctx → Ctx) : (s.modCtx x f).launches = s.launches := rfl
@[simp] theorem modCtx_blocks (x : Nat) (f : Ctx → Ctx) : (s.modCtx x f).blocks = s.blocks := rfl
@[simp] theorem modCtx_cores (x : Nat) (f : Ctx → Ctx) : (s.modCtx x f).cores = s.cores := rfl
@[simp] theorem modCtx_groups (x : Nat) (f : Ctx → Ctx) : (s.modCtx x f).groups = s.groups := rfl
@[simp] theorem modCtx_tlb (x : Nat) (f : Ctx → Ctx) : (s.modCtx x f).tlb = s.tlb := rfl
@[simp] theorem modCtx_walks (x : Nat) (f : Ctx → Ctx) : (s.modCtx x f).walks = s.walks := rfl
@[simp] theorem modCtx_maps (x : Nat) (f : Ctx → Ctx) : (s.modCtx x f).maps = s.maps := rfl
@[simp] theorem modCtx_engs (x : Nat) (f : Ctx → Ctx) : (s.modCtx x f).engs = s.engs := rfl
@[simp] theorem modCtx_engseq (x : Nat) (f : Ctx → Ctx) : (s.modCtx x f).engseq = s.engseq := rfl
@[simp] theorem modCtx_preqs (x : Nat) (f : Ctx → Ctx) : (s.modCtx x f).preqs = s.preqs := rfl
@[simp] theorem modCtx_preqSeqs (x : Nat) (f : Ctx → Ctx) : (s.modCtx x f).preqSeqs = s.preqSeqs := rfl
@[simp] theorem modCtx_preqHeld (x : Nat) (f : Ctx → Ctx) : (s.modCtx x f).preqHeld = s.preqHeld := rfl
@[simp] theorem modCtx_preqTurn (x : Nat) (f : Ctx → Ctx) : (s.modCtx x f).preqTurn = s.preqTurn := rfl
@[simp] theorem modCtx_ridseq (x : Nat) (f : Ctx → Ctx) : (s.modCtx x f).ridseq = s.ridseq := rfl
@[simp] theorem modCtx_evHeld (x : Nat) (f : Ctx → Ctx) : (s.modCtx x f).evHeld = s.evHeld := rfl
@[simp] theorem modCtx_dropsOwed (x : Nat) (f : Ctx → Ctx) : (s.modCtx x f).dropsOwed = s.dropsOwed := rfl
@[simp] theorem modCtx_replies (x : Nat) (f : Ctx → Ctx) : (s.modCtx x f).replies = s.replies := rfl
@[simp] theorem modCtx_sent (x : Nat) (f : Ctx → Ctx) : (s.modCtx x f).sent = s.sent := rfl
@[simp] theorem modCtx_answers (x : Nat) (f : Ctx → Ctx) : (s.modCtx x f).answers = s.answers := rfl
@[simp] theorem modCtx_downLinks (x : Nat) (f : Ctx → Ctx) : (s.modCtx x f).downLinks = s.downLinks := rfl
@[simp] theorem modCtx_msix (x : Nat) (f : Ctx → Ctx) : (s.modCtx x f).msix = s.msix := rfl

@[simp] theorem modLaunch_turns (l : Nat) (f : Launch → Launch) : (s.modLaunch l f).turns = s.turns := by simp only [State.modLaunch]; split <;> rfl
@[simp] theorem modLaunch_steps (l : Nat) (f : Launch → Launch) : (s.modLaunch l f).steps = s.steps := by simp only [State.modLaunch]; split <;> rfl
@[simp] theorem modLaunch_sel (l : Nat) (f : Launch → Launch) : (s.modLaunch l f).sel = s.sel := by simp only [State.modLaunch]; split <;> rfl
@[simp] theorem modLaunch_dropAt (l : Nat) (f : Launch → Launch) : (s.modLaunch l f).dropAt = s.dropAt := by simp only [State.modLaunch]; split <;> rfl
@[simp] theorem modLaunch_time (l : Nat) (f : Launch → Launch) : (s.modLaunch l f).time = s.time := by simp only [State.modLaunch]; split <;> rfl
@[simp] theorem modLaunch_dieDev (l : Nat) (f : Launch → Launch) : (s.modLaunch l f).dieDev = s.dieDev := by simp only [State.modLaunch]; split <;> rfl
@[simp] theorem modLaunch_checked (l : Nat) (f : Launch → Launch) : (s.modLaunch l f).checked = s.checked := by simp only [State.modLaunch]; split <;> rfl
@[simp] theorem modLaunch_cycle (l : Nat) (f : Launch → Launch) : (s.modLaunch l f).cycle = s.cycle := by simp only [State.modLaunch]; split <;> rfl
@[simp] theorem modLaunch_dev (l : Nat) (f : Launch → Launch) : (s.modLaunch l f).dev = s.dev := by simp only [State.modLaunch]; split <;> rfl
@[simp] theorem modLaunch_dram (l : Nat) (f : Launch → Launch) : (s.modLaunch l f).dram = s.dram := by simp only [State.modLaunch]; split <;> rfl
@[simp] theorem modLaunch_host (l : Nat) (f : Launch → Launch) : (s.modLaunch l f).host = s.host := by simp only [State.modLaunch]; split <;> rfl
@[simp] theorem modLaunch_hostBehind (l : Nat) (f : Launch → Launch) : (s.modLaunch l f).hostBehind = s.hostBehind := by simp only [State.modLaunch]; split <;> rfl
@[simp] theorem modLaunch_l2 (l : Nat) (f : Launch → Launch) : (s.modLaunch l f).l2 = s.l2 := by simp only [State.modLaunch]; split <;> rfl
@[simp] theorem modLaunch_poison (l : Nat) (f : Launch → Launch) : (s.modLaunch l f).poison = s.poison := by simp only [State.modLaunch]; split <;> rfl
@[simp] theorem modLaunch_spad (l : Nat) (f : Launch → Launch) : (s.modLaunch l f).spad = s.spad := by simp only [State.modLaunch]; split <;> rfl
@[simp] theorem modLaunch_lode (l : Nat) (f : Launch → Launch) : (s.modLaunch l f).lode = s.lode := by simp only [State.modLaunch]; split <;> rfl
@[simp] theorem modLaunch_busy (l : Nat) (f : Launch → Launch) : (s.modLaunch l f).busy = s.busy := by simp only [State.modLaunch]; split <;> rfl
@[simp] theorem modLaunch_merges (l : Nat) (f : Launch → Launch) : (s.modLaunch l f).merges = s.merges := by simp only [State.modLaunch]; split <;> rfl
@[simp] theorem modLaunch_linkModules (l : Nat) (f : Launch → Launch) : (s.modLaunch l f).linkModules = s.linkModules := by simp only [State.modLaunch]; split <;> rfl
@[simp] theorem modLaunch_sideband (l : Nat) (f : Launch → Launch) : (s.modLaunch l f).sideband = s.sideband := by simp only [State.modLaunch]; split <;> rfl
@[simp] theorem modLaunch_diesHeld (l : Nat) (f : Launch → Launch) : (s.modLaunch l f).diesHeld = s.diesHeld := by simp only [State.modLaunch]; split <;> rfl
@[simp] theorem modLaunch_boot (l : Nat) (f : Launch → Launch) : (s.modLaunch l f).boot = s.boot := by simp only [State.modLaunch]; split <;> rfl
@[simp] theorem modLaunch_minVersion (l : Nat) (f : Launch → Launch) : (s.modLaunch l f).minVersion = s.minVersion := by simp only [State.modLaunch]; split <;> rfl
@[simp] theorem modLaunch_raise (l : Nat) (f : Launch → Launch) : (s.modLaunch l f).raise = s.raise := by simp only [State.modLaunch]; split <;> rfl
@[simp] theorem modLaunch_mgmt (l : Nat) (f : Launch → Launch) : (s.modLaunch l f).mgmt = s.mgmt := by simp only [State.modLaunch]; split <;> rfl
@[simp] theorem modLaunch_bytes (l : Nat) (f : Launch → Launch) : (s.modLaunch l f).bytes = s.bytes := by simp only [State.modLaunch]; split <;> rfl
@[simp] theorem modLaunch_parts (l : Nat) (f : Launch → Launch) : (s.modLaunch l f).parts = s.parts := by simp only [State.modLaunch]; split <;> rfl
@[simp] theorem modLaunch_fns (l : Nat) (f : Launch → Launch) : (s.modLaunch l f).fns = s.fns := by simp only [State.modLaunch]; split <;> rfl
@[simp] theorem modLaunch_ctxs (l : Nat) (f : Launch → Launch) : (s.modLaunch l f).ctxs = s.ctxs := by simp only [State.modLaunch]; split <;> rfl
@[simp] theorem modLaunch_blocks (l : Nat) (f : Launch → Launch) : (s.modLaunch l f).blocks = s.blocks := by simp only [State.modLaunch]; split <;> rfl
@[simp] theorem modLaunch_cores (l : Nat) (f : Launch → Launch) : (s.modLaunch l f).cores = s.cores := by simp only [State.modLaunch]; split <;> rfl
@[simp] theorem modLaunch_groups (l : Nat) (f : Launch → Launch) : (s.modLaunch l f).groups = s.groups := by simp only [State.modLaunch]; split <;> rfl
@[simp] theorem modLaunch_tlb (l : Nat) (f : Launch → Launch) : (s.modLaunch l f).tlb = s.tlb := by simp only [State.modLaunch]; split <;> rfl
@[simp] theorem modLaunch_walks (l : Nat) (f : Launch → Launch) : (s.modLaunch l f).walks = s.walks := by simp only [State.modLaunch]; split <;> rfl
@[simp] theorem modLaunch_maps (l : Nat) (f : Launch → Launch) : (s.modLaunch l f).maps = s.maps := by simp only [State.modLaunch]; split <;> rfl
@[simp] theorem modLaunch_engs (l : Nat) (f : Launch → Launch) : (s.modLaunch l f).engs = s.engs := by simp only [State.modLaunch]; split <;> rfl
@[simp] theorem modLaunch_engseq (l : Nat) (f : Launch → Launch) : (s.modLaunch l f).engseq = s.engseq := by simp only [State.modLaunch]; split <;> rfl
@[simp] theorem modLaunch_preqs (l : Nat) (f : Launch → Launch) : (s.modLaunch l f).preqs = s.preqs := by simp only [State.modLaunch]; split <;> rfl
@[simp] theorem modLaunch_preqSeqs (l : Nat) (f : Launch → Launch) : (s.modLaunch l f).preqSeqs = s.preqSeqs := by simp only [State.modLaunch]; split <;> rfl
@[simp] theorem modLaunch_preqHeld (l : Nat) (f : Launch → Launch) : (s.modLaunch l f).preqHeld = s.preqHeld := by simp only [State.modLaunch]; split <;> rfl
@[simp] theorem modLaunch_preqTurn (l : Nat) (f : Launch → Launch) : (s.modLaunch l f).preqTurn = s.preqTurn := by simp only [State.modLaunch]; split <;> rfl
@[simp] theorem modLaunch_ridseq (l : Nat) (f : Launch → Launch) : (s.modLaunch l f).ridseq = s.ridseq := by simp only [State.modLaunch]; split <;> rfl
@[simp] theorem modLaunch_evHeld (l : Nat) (f : Launch → Launch) : (s.modLaunch l f).evHeld = s.evHeld := by simp only [State.modLaunch]; split <;> rfl
@[simp] theorem modLaunch_dropsOwed (l : Nat) (f : Launch → Launch) : (s.modLaunch l f).dropsOwed = s.dropsOwed := by simp only [State.modLaunch]; split <;> rfl
@[simp] theorem modLaunch_replies (l : Nat) (f : Launch → Launch) : (s.modLaunch l f).replies = s.replies := by simp only [State.modLaunch]; split <;> rfl
@[simp] theorem modLaunch_sent (l : Nat) (f : Launch → Launch) : (s.modLaunch l f).sent = s.sent := by simp only [State.modLaunch]; split <;> rfl
@[simp] theorem modLaunch_answers (l : Nat) (f : Launch → Launch) : (s.modLaunch l f).answers = s.answers := by simp only [State.modLaunch]; split <;> rfl
@[simp] theorem modLaunch_downLinks (l : Nat) (f : Launch → Launch) : (s.modLaunch l f).downLinks = s.downLinks := by simp only [State.modLaunch]; split <;> rfl
@[simp] theorem modLaunch_msix (l : Nat) (f : Launch → Launch) : (s.modLaunch l f).msix = s.msix := by simp only [State.modLaunch]; split <;> rfl

@[simp] theorem keepRecord_turns (f : Nat) (r : EvRec) : (s.keepRecord f r).turns = s.turns := rfl
@[simp] theorem keepRecord_steps (f : Nat) (r : EvRec) : (s.keepRecord f r).steps = s.steps := rfl
@[simp] theorem keepRecord_sel (f : Nat) (r : EvRec) : (s.keepRecord f r).sel = s.sel := rfl
@[simp] theorem keepRecord_dropAt (f : Nat) (r : EvRec) : (s.keepRecord f r).dropAt = s.dropAt := rfl
@[simp] theorem keepRecord_time (f : Nat) (r : EvRec) : (s.keepRecord f r).time = s.time := rfl
@[simp] theorem keepRecord_dieDev (f : Nat) (r : EvRec) : (s.keepRecord f r).dieDev = s.dieDev := rfl
@[simp] theorem keepRecord_checked (f : Nat) (r : EvRec) : (s.keepRecord f r).checked = s.checked := rfl
@[simp] theorem keepRecord_cycle (f : Nat) (r : EvRec) : (s.keepRecord f r).cycle = s.cycle := rfl
@[simp] theorem keepRecord_dev (f : Nat) (r : EvRec) : (s.keepRecord f r).dev = s.dev := rfl
@[simp] theorem keepRecord_dram (f : Nat) (r : EvRec) : (s.keepRecord f r).dram = s.dram := rfl
@[simp] theorem keepRecord_host (f : Nat) (r : EvRec) : (s.keepRecord f r).host = s.host := rfl
@[simp] theorem keepRecord_hostBehind (f : Nat) (r : EvRec) : (s.keepRecord f r).hostBehind = s.hostBehind := rfl
@[simp] theorem keepRecord_l2 (f : Nat) (r : EvRec) : (s.keepRecord f r).l2 = s.l2 := rfl
@[simp] theorem keepRecord_poison (f : Nat) (r : EvRec) : (s.keepRecord f r).poison = s.poison := rfl
@[simp] theorem keepRecord_spad (f : Nat) (r : EvRec) : (s.keepRecord f r).spad = s.spad := rfl
@[simp] theorem keepRecord_lode (f : Nat) (r : EvRec) : (s.keepRecord f r).lode = s.lode := rfl
@[simp] theorem keepRecord_busy (f : Nat) (r : EvRec) : (s.keepRecord f r).busy = s.busy := rfl
@[simp] theorem keepRecord_merges (f : Nat) (r : EvRec) : (s.keepRecord f r).merges = s.merges := rfl
@[simp] theorem keepRecord_linkModules (f : Nat) (r : EvRec) : (s.keepRecord f r).linkModules = s.linkModules := rfl
@[simp] theorem keepRecord_sideband (f : Nat) (r : EvRec) : (s.keepRecord f r).sideband = s.sideband := rfl
@[simp] theorem keepRecord_diesHeld (f : Nat) (r : EvRec) : (s.keepRecord f r).diesHeld = s.diesHeld := rfl
@[simp] theorem keepRecord_boot (f : Nat) (r : EvRec) : (s.keepRecord f r).boot = s.boot := rfl
@[simp] theorem keepRecord_minVersion (f : Nat) (r : EvRec) : (s.keepRecord f r).minVersion = s.minVersion := rfl
@[simp] theorem keepRecord_raise (f : Nat) (r : EvRec) : (s.keepRecord f r).raise = s.raise := rfl
@[simp] theorem keepRecord_mgmt (f : Nat) (r : EvRec) : (s.keepRecord f r).mgmt = s.mgmt := rfl
@[simp] theorem keepRecord_bytes (f : Nat) (r : EvRec) : (s.keepRecord f r).bytes = s.bytes := rfl
@[simp] theorem keepRecord_parts (f : Nat) (r : EvRec) : (s.keepRecord f r).parts = s.parts := rfl
@[simp] theorem keepRecord_fns (f : Nat) (r : EvRec) : (s.keepRecord f r).fns = s.fns := rfl
@[simp] theorem keepRecord_ctxs (f : Nat) (r : EvRec) : (s.keepRecord f r).ctxs = s.ctxs := rfl
@[simp] theorem keepRecord_launches (f : Nat) (r : EvRec) : (s.keepRecord f r).launches = s.launches := rfl
@[simp] theorem keepRecord_blocks (f : Nat) (r : EvRec) : (s.keepRecord f r).blocks = s.blocks := rfl
@[simp] theorem keepRecord_cores (f : Nat) (r : EvRec) : (s.keepRecord f r).cores = s.cores := rfl
@[simp] theorem keepRecord_groups (f : Nat) (r : EvRec) : (s.keepRecord f r).groups = s.groups := rfl
@[simp] theorem keepRecord_tlb (f : Nat) (r : EvRec) : (s.keepRecord f r).tlb = s.tlb := rfl
@[simp] theorem keepRecord_walks (f : Nat) (r : EvRec) : (s.keepRecord f r).walks = s.walks := rfl
@[simp] theorem keepRecord_maps (f : Nat) (r : EvRec) : (s.keepRecord f r).maps = s.maps := rfl
@[simp] theorem keepRecord_engs (f : Nat) (r : EvRec) : (s.keepRecord f r).engs = s.engs := rfl
@[simp] theorem keepRecord_engseq (f : Nat) (r : EvRec) : (s.keepRecord f r).engseq = s.engseq := rfl
@[simp] theorem keepRecord_preqs (f : Nat) (r : EvRec) : (s.keepRecord f r).preqs = s.preqs := rfl
@[simp] theorem keepRecord_preqSeqs (f : Nat) (r : EvRec) : (s.keepRecord f r).preqSeqs = s.preqSeqs := rfl
@[simp] theorem keepRecord_preqHeld (f : Nat) (r : EvRec) : (s.keepRecord f r).preqHeld = s.preqHeld := rfl
@[simp] theorem keepRecord_preqTurn (f : Nat) (r : EvRec) : (s.keepRecord f r).preqTurn = s.preqTurn := rfl
@[simp] theorem keepRecord_ridseq (f : Nat) (r : EvRec) : (s.keepRecord f r).ridseq = s.ridseq := rfl
@[simp] theorem keepRecord_dropsOwed (f : Nat) (r : EvRec) : (s.keepRecord f r).dropsOwed = s.dropsOwed := rfl
@[simp] theorem keepRecord_replies (f : Nat) (r : EvRec) : (s.keepRecord f r).replies = s.replies := rfl
@[simp] theorem keepRecord_sent (f : Nat) (r : EvRec) : (s.keepRecord f r).sent = s.sent := rfl
@[simp] theorem keepRecord_answers (f : Nat) (r : EvRec) : (s.keepRecord f r).answers = s.answers := rfl
@[simp] theorem keepRecord_downLinks (f : Nat) (r : EvRec) : (s.keepRecord f r).downLinks = s.downLinks := rfl
@[simp] theorem keepRecord_msix (f : Nat) (r : EvRec) : (s.keepRecord f r).msix = s.msix := rfl

@[simp] theorem invalidate_turns (c : Nat) : (s.invalidate c).turns = s.turns := rfl
@[simp] theorem invalidate_steps (c : Nat) : (s.invalidate c).steps = s.steps := rfl
@[simp] theorem invalidate_sel (c : Nat) : (s.invalidate c).sel = s.sel := rfl
@[simp] theorem invalidate_dropAt (c : Nat) : (s.invalidate c).dropAt = s.dropAt := rfl
@[simp] theorem invalidate_time (c : Nat) : (s.invalidate c).time = s.time := rfl
@[simp] theorem invalidate_dieDev (c : Nat) : (s.invalidate c).dieDev = s.dieDev := rfl
@[simp] theorem invalidate_checked (c : Nat) : (s.invalidate c).checked = s.checked := rfl
@[simp] theorem invalidate_cycle (c : Nat) : (s.invalidate c).cycle = s.cycle := rfl
@[simp] theorem invalidate_dev (c : Nat) : (s.invalidate c).dev = s.dev := rfl
@[simp] theorem invalidate_dram (c : Nat) : (s.invalidate c).dram = s.dram := rfl
@[simp] theorem invalidate_host (c : Nat) : (s.invalidate c).host = s.host := rfl
@[simp] theorem invalidate_hostBehind (c : Nat) : (s.invalidate c).hostBehind = s.hostBehind := rfl
@[simp] theorem invalidate_l2 (c : Nat) : (s.invalidate c).l2 = s.l2 := rfl
@[simp] theorem invalidate_poison (c : Nat) : (s.invalidate c).poison = s.poison := rfl
@[simp] theorem invalidate_spad (c : Nat) : (s.invalidate c).spad = s.spad := rfl
@[simp] theorem invalidate_lode (c : Nat) : (s.invalidate c).lode = s.lode := rfl
@[simp] theorem invalidate_busy (c : Nat) : (s.invalidate c).busy = s.busy := rfl
@[simp] theorem invalidate_merges (c : Nat) : (s.invalidate c).merges = s.merges := rfl
@[simp] theorem invalidate_linkModules (c : Nat) : (s.invalidate c).linkModules = s.linkModules := rfl
@[simp] theorem invalidate_sideband (c : Nat) : (s.invalidate c).sideband = s.sideband := rfl
@[simp] theorem invalidate_diesHeld (c : Nat) : (s.invalidate c).diesHeld = s.diesHeld := rfl
@[simp] theorem invalidate_boot (c : Nat) : (s.invalidate c).boot = s.boot := rfl
@[simp] theorem invalidate_minVersion (c : Nat) : (s.invalidate c).minVersion = s.minVersion := rfl
@[simp] theorem invalidate_raise (c : Nat) : (s.invalidate c).raise = s.raise := rfl
@[simp] theorem invalidate_mgmt (c : Nat) : (s.invalidate c).mgmt = s.mgmt := rfl
@[simp] theorem invalidate_bytes (c : Nat) : (s.invalidate c).bytes = s.bytes := rfl
@[simp] theorem invalidate_parts (c : Nat) : (s.invalidate c).parts = s.parts := rfl
@[simp] theorem invalidate_fns (c : Nat) : (s.invalidate c).fns = s.fns := rfl
@[simp] theorem invalidate_ctxs (c : Nat) : (s.invalidate c).ctxs = s.ctxs := rfl
@[simp] theorem invalidate_launches (c : Nat) : (s.invalidate c).launches = s.launches := rfl
@[simp] theorem invalidate_blocks (c : Nat) : (s.invalidate c).blocks = s.blocks := rfl
@[simp] theorem invalidate_groups (c : Nat) : (s.invalidate c).groups = s.groups := rfl
@[simp] theorem invalidate_tlb (c : Nat) : (s.invalidate c).tlb = s.tlb := rfl
@[simp] theorem invalidate_walks (c : Nat) : (s.invalidate c).walks = s.walks := rfl
@[simp] theorem invalidate_maps (c : Nat) : (s.invalidate c).maps = s.maps := rfl
@[simp] theorem invalidate_engs (c : Nat) : (s.invalidate c).engs = s.engs := rfl
@[simp] theorem invalidate_engseq (c : Nat) : (s.invalidate c).engseq = s.engseq := rfl
@[simp] theorem invalidate_preqs (c : Nat) : (s.invalidate c).preqs = s.preqs := rfl
@[simp] theorem invalidate_preqSeqs (c : Nat) : (s.invalidate c).preqSeqs = s.preqSeqs := rfl
@[simp] theorem invalidate_preqHeld (c : Nat) : (s.invalidate c).preqHeld = s.preqHeld := rfl
@[simp] theorem invalidate_preqTurn (c : Nat) : (s.invalidate c).preqTurn = s.preqTurn := rfl
@[simp] theorem invalidate_ridseq (c : Nat) : (s.invalidate c).ridseq = s.ridseq := rfl
@[simp] theorem invalidate_evHeld (c : Nat) : (s.invalidate c).evHeld = s.evHeld := rfl
@[simp] theorem invalidate_dropsOwed (c : Nat) : (s.invalidate c).dropsOwed = s.dropsOwed := rfl
@[simp] theorem invalidate_replies (c : Nat) : (s.invalidate c).replies = s.replies := rfl
@[simp] theorem invalidate_sent (c : Nat) : (s.invalidate c).sent = s.sent := rfl
@[simp] theorem invalidate_answers (c : Nat) : (s.invalidate c).answers = s.answers := rfl
@[simp] theorem invalidate_downLinks (c : Nat) : (s.invalidate c).downLinks = s.downLinks := rfl
@[simp] theorem invalidate_msix (c : Nat) : (s.invalidate c).msix = s.msix := rfl

@[simp] theorem coverOps_turns (c o : Nat) (g t : Bool) : (s.coverOps c o g t).turns = s.turns := by
  simp only [State.coverOps]; split
  · rfl
  · split <;> rfl
@[simp] theorem coverOps_steps (c o : Nat) (g t : Bool) : (s.coverOps c o g t).steps = s.steps := by
  simp only [State.coverOps]; split
  · rfl
  · split <;> rfl
@[simp] theorem coverOps_sel (c o : Nat) (g t : Bool) : (s.coverOps c o g t).sel = s.sel := by
  simp only [State.coverOps]; split
  · rfl
  · split <;> rfl
@[simp] theorem coverOps_dropAt (c o : Nat) (g t : Bool) : (s.coverOps c o g t).dropAt = s.dropAt := by
  simp only [State.coverOps]; split
  · rfl
  · split <;> rfl
@[simp] theorem coverOps_time (c o : Nat) (g t : Bool) : (s.coverOps c o g t).time = s.time := by
  simp only [State.coverOps]; split
  · rfl
  · split <;> rfl
@[simp] theorem coverOps_dieDev (c o : Nat) (g t : Bool) : (s.coverOps c o g t).dieDev = s.dieDev := by
  simp only [State.coverOps]; split
  · rfl
  · split <;> rfl
@[simp] theorem coverOps_checked (c o : Nat) (g t : Bool) : (s.coverOps c o g t).checked = s.checked := by
  simp only [State.coverOps]; split
  · rfl
  · split <;> rfl
@[simp] theorem coverOps_cycle (c o : Nat) (g t : Bool) : (s.coverOps c o g t).cycle = s.cycle := by
  simp only [State.coverOps]; split
  · rfl
  · split <;> rfl
@[simp] theorem coverOps_dev (c o : Nat) (g t : Bool) : (s.coverOps c o g t).dev = s.dev := by
  simp only [State.coverOps]; split
  · rfl
  · split <;> rfl
@[simp] theorem coverOps_dram (c o : Nat) (g t : Bool) : (s.coverOps c o g t).dram = s.dram := by
  simp only [State.coverOps]; split
  · rfl
  · split <;> rfl
@[simp] theorem coverOps_host (c o : Nat) (g t : Bool) : (s.coverOps c o g t).host = s.host := by
  simp only [State.coverOps]; split
  · rfl
  · split <;> rfl
@[simp] theorem coverOps_hostBehind (c o : Nat) (g t : Bool) : (s.coverOps c o g t).hostBehind = s.hostBehind := by
  simp only [State.coverOps]; split
  · rfl
  · split <;> rfl
@[simp] theorem coverOps_l2 (c o : Nat) (g t : Bool) : (s.coverOps c o g t).l2 = s.l2 := by
  simp only [State.coverOps]; split
  · rfl
  · split <;> rfl
@[simp] theorem coverOps_poison (c o : Nat) (g t : Bool) : (s.coverOps c o g t).poison = s.poison := by
  simp only [State.coverOps]; split
  · rfl
  · split <;> rfl
@[simp] theorem coverOps_spad (c o : Nat) (g t : Bool) : (s.coverOps c o g t).spad = s.spad := by
  simp only [State.coverOps]; split
  · rfl
  · split <;> rfl
@[simp] theorem coverOps_lode (c o : Nat) (g t : Bool) : (s.coverOps c o g t).lode = s.lode := by
  simp only [State.coverOps]; split
  · rfl
  · split <;> rfl
@[simp] theorem coverOps_busy (c o : Nat) (g t : Bool) : (s.coverOps c o g t).busy = s.busy := by
  simp only [State.coverOps]; split
  · rfl
  · split <;> rfl
@[simp] theorem coverOps_merges (c o : Nat) (g t : Bool) : (s.coverOps c o g t).merges = s.merges := by
  simp only [State.coverOps]; split
  · rfl
  · split <;> rfl
@[simp] theorem coverOps_linkModules (c o : Nat) (g t : Bool) : (s.coverOps c o g t).linkModules = s.linkModules := by
  simp only [State.coverOps]; split
  · rfl
  · split <;> rfl
@[simp] theorem coverOps_sideband (c o : Nat) (g t : Bool) : (s.coverOps c o g t).sideband = s.sideband := by
  simp only [State.coverOps]; split
  · rfl
  · split <;> rfl
@[simp] theorem coverOps_diesHeld (c o : Nat) (g t : Bool) : (s.coverOps c o g t).diesHeld = s.diesHeld := by
  simp only [State.coverOps]; split
  · rfl
  · split <;> rfl
@[simp] theorem coverOps_boot (c o : Nat) (g t : Bool) : (s.coverOps c o g t).boot = s.boot := by
  simp only [State.coverOps]; split
  · rfl
  · split <;> rfl
@[simp] theorem coverOps_minVersion (c o : Nat) (g t : Bool) : (s.coverOps c o g t).minVersion = s.minVersion := by
  simp only [State.coverOps]; split
  · rfl
  · split <;> rfl
@[simp] theorem coverOps_raise (c o : Nat) (g t : Bool) : (s.coverOps c o g t).raise = s.raise := by
  simp only [State.coverOps]; split
  · rfl
  · split <;> rfl
@[simp] theorem coverOps_mgmt (c o : Nat) (g t : Bool) : (s.coverOps c o g t).mgmt = s.mgmt := by
  simp only [State.coverOps]; split
  · rfl
  · split <;> rfl
@[simp] theorem coverOps_bytes (c o : Nat) (g t : Bool) : (s.coverOps c o g t).bytes = s.bytes := by
  simp only [State.coverOps]; split
  · rfl
  · split <;> rfl
@[simp] theorem coverOps_parts (c o : Nat) (g t : Bool) : (s.coverOps c o g t).parts = s.parts := by
  simp only [State.coverOps]; split
  · rfl
  · split <;> rfl
@[simp] theorem coverOps_fns (c o : Nat) (g t : Bool) : (s.coverOps c o g t).fns = s.fns := by
  simp only [State.coverOps]; split
  · rfl
  · split <;> rfl
@[simp] theorem coverOps_ctxs (c o : Nat) (g t : Bool) : (s.coverOps c o g t).ctxs = s.ctxs := by
  simp only [State.coverOps]; split
  · rfl
  · split <;> rfl
@[simp] theorem coverOps_launches (c o : Nat) (g t : Bool) : (s.coverOps c o g t).launches = s.launches := by
  simp only [State.coverOps]; split
  · rfl
  · split <;> rfl
@[simp] theorem coverOps_blocks (c o : Nat) (g t : Bool) : (s.coverOps c o g t).blocks = s.blocks := by
  simp only [State.coverOps]; split
  · rfl
  · split <;> rfl
@[simp] theorem coverOps_groups (c o : Nat) (g t : Bool) : (s.coverOps c o g t).groups = s.groups := by
  simp only [State.coverOps]; split
  · rfl
  · split <;> rfl
@[simp] theorem coverOps_tlb (c o : Nat) (g t : Bool) : (s.coverOps c o g t).tlb = s.tlb := by
  simp only [State.coverOps]; split
  · rfl
  · split <;> rfl
@[simp] theorem coverOps_walks (c o : Nat) (g t : Bool) : (s.coverOps c o g t).walks = s.walks := by
  simp only [State.coverOps]; split
  · rfl
  · split <;> rfl
@[simp] theorem coverOps_maps (c o : Nat) (g t : Bool) : (s.coverOps c o g t).maps = s.maps := by
  simp only [State.coverOps]; split
  · rfl
  · split <;> rfl
@[simp] theorem coverOps_engs (c o : Nat) (g t : Bool) : (s.coverOps c o g t).engs = s.engs := by
  simp only [State.coverOps]; split
  · rfl
  · split <;> rfl
@[simp] theorem coverOps_engseq (c o : Nat) (g t : Bool) : (s.coverOps c o g t).engseq = s.engseq := by
  simp only [State.coverOps]; split
  · rfl
  · split <;> rfl
@[simp] theorem coverOps_preqs (c o : Nat) (g t : Bool) : (s.coverOps c o g t).preqs = s.preqs := by
  simp only [State.coverOps]; split
  · rfl
  · split <;> rfl
@[simp] theorem coverOps_preqSeqs (c o : Nat) (g t : Bool) : (s.coverOps c o g t).preqSeqs = s.preqSeqs := by
  simp only [State.coverOps]; split
  · rfl
  · split <;> rfl
@[simp] theorem coverOps_preqHeld (c o : Nat) (g t : Bool) : (s.coverOps c o g t).preqHeld = s.preqHeld := by
  simp only [State.coverOps]; split
  · rfl
  · split <;> rfl
@[simp] theorem coverOps_preqTurn (c o : Nat) (g t : Bool) : (s.coverOps c o g t).preqTurn = s.preqTurn := by
  simp only [State.coverOps]; split
  · rfl
  · split <;> rfl
@[simp] theorem coverOps_ridseq (c o : Nat) (g t : Bool) : (s.coverOps c o g t).ridseq = s.ridseq := by
  simp only [State.coverOps]; split
  · rfl
  · split <;> rfl
@[simp] theorem coverOps_evHeld (c o : Nat) (g t : Bool) : (s.coverOps c o g t).evHeld = s.evHeld := by
  simp only [State.coverOps]; split
  · rfl
  · split <;> rfl
@[simp] theorem coverOps_dropsOwed (c o : Nat) (g t : Bool) : (s.coverOps c o g t).dropsOwed = s.dropsOwed := by
  simp only [State.coverOps]; split
  · rfl
  · split <;> rfl
@[simp] theorem coverOps_replies (c o : Nat) (g t : Bool) : (s.coverOps c o g t).replies = s.replies := by
  simp only [State.coverOps]; split
  · rfl
  · split <;> rfl
@[simp] theorem coverOps_sent (c o : Nat) (g t : Bool) : (s.coverOps c o g t).sent = s.sent := by
  simp only [State.coverOps]; split
  · rfl
  · split <;> rfl
@[simp] theorem coverOps_answers (c o : Nat) (g t : Bool) : (s.coverOps c o g t).answers = s.answers := by
  simp only [State.coverOps]; split
  · rfl
  · split <;> rfl
@[simp] theorem coverOps_downLinks (c o : Nat) (g t : Bool) : (s.coverOps c o g t).downLinks = s.downLinks := by
  simp only [State.coverOps]; split
  · rfl
  · split <;> rfl
@[simp] theorem coverOps_msix (c o : Nat) (g t : Bool) : (s.coverOps c o g t).msix = s.msix := by
  simp only [State.coverOps]; split
  · rfl
  · split <;> rfl

@[simp] theorem stalled_turns (c o : Nat) (k : StallKind) : (s.stalled c o k).turns = s.turns := by simp [State.stalled]
@[simp] theorem stalled_steps (c o : Nat) (k : StallKind) : (s.stalled c o k).steps = s.steps := by simp [State.stalled]
@[simp] theorem stalled_sel (c o : Nat) (k : StallKind) : (s.stalled c o k).sel = s.sel := by simp [State.stalled]
@[simp] theorem stalled_dropAt (c o : Nat) (k : StallKind) : (s.stalled c o k).dropAt = s.dropAt := by simp [State.stalled]
@[simp] theorem stalled_time (c o : Nat) (k : StallKind) : (s.stalled c o k).time = s.time := by simp [State.stalled]
@[simp] theorem stalled_dieDev (c o : Nat) (k : StallKind) : (s.stalled c o k).dieDev = s.dieDev := by simp [State.stalled]
@[simp] theorem stalled_checked (c o : Nat) (k : StallKind) : (s.stalled c o k).checked = s.checked := by simp [State.stalled]
@[simp] theorem stalled_cycle (c o : Nat) (k : StallKind) : (s.stalled c o k).cycle = s.cycle := by simp [State.stalled]
@[simp] theorem stalled_dev (c o : Nat) (k : StallKind) : (s.stalled c o k).dev = s.dev := by simp [State.stalled]
@[simp] theorem stalled_dram (c o : Nat) (k : StallKind) : (s.stalled c o k).dram = s.dram := by simp [State.stalled]
@[simp] theorem stalled_host (c o : Nat) (k : StallKind) : (s.stalled c o k).host = s.host := by simp [State.stalled]
@[simp] theorem stalled_hostBehind (c o : Nat) (k : StallKind) : (s.stalled c o k).hostBehind = s.hostBehind := by simp [State.stalled]
@[simp] theorem stalled_l2 (c o : Nat) (k : StallKind) : (s.stalled c o k).l2 = s.l2 := by simp [State.stalled]
@[simp] theorem stalled_poison (c o : Nat) (k : StallKind) : (s.stalled c o k).poison = s.poison := by simp [State.stalled]
@[simp] theorem stalled_spad (c o : Nat) (k : StallKind) : (s.stalled c o k).spad = s.spad := by simp [State.stalled]
@[simp] theorem stalled_lode (c o : Nat) (k : StallKind) : (s.stalled c o k).lode = s.lode := by simp [State.stalled]
@[simp] theorem stalled_busy (c o : Nat) (k : StallKind) : (s.stalled c o k).busy = s.busy := by simp [State.stalled]
@[simp] theorem stalled_merges (c o : Nat) (k : StallKind) : (s.stalled c o k).merges = s.merges := by simp [State.stalled]
@[simp] theorem stalled_linkModules (c o : Nat) (k : StallKind) : (s.stalled c o k).linkModules = s.linkModules := by simp [State.stalled]
@[simp] theorem stalled_sideband (c o : Nat) (k : StallKind) : (s.stalled c o k).sideband = s.sideband := by simp [State.stalled]
@[simp] theorem stalled_diesHeld (c o : Nat) (k : StallKind) : (s.stalled c o k).diesHeld = s.diesHeld := by simp [State.stalled]
@[simp] theorem stalled_boot (c o : Nat) (k : StallKind) : (s.stalled c o k).boot = s.boot := by simp [State.stalled]
@[simp] theorem stalled_minVersion (c o : Nat) (k : StallKind) : (s.stalled c o k).minVersion = s.minVersion := by simp [State.stalled]
@[simp] theorem stalled_raise (c o : Nat) (k : StallKind) : (s.stalled c o k).raise = s.raise := by simp [State.stalled]
@[simp] theorem stalled_mgmt (c o : Nat) (k : StallKind) : (s.stalled c o k).mgmt = s.mgmt := by simp [State.stalled]
@[simp] theorem stalled_bytes (c o : Nat) (k : StallKind) : (s.stalled c o k).bytes = s.bytes := by simp [State.stalled]
@[simp] theorem stalled_parts (c o : Nat) (k : StallKind) : (s.stalled c o k).parts = s.parts := by simp [State.stalled]
@[simp] theorem stalled_fns (c o : Nat) (k : StallKind) : (s.stalled c o k).fns = s.fns := by simp [State.stalled]
@[simp] theorem stalled_ctxs (c o : Nat) (k : StallKind) : (s.stalled c o k).ctxs = s.ctxs := by simp [State.stalled]
@[simp] theorem stalled_launches (c o : Nat) (k : StallKind) : (s.stalled c o k).launches = s.launches := by simp [State.stalled]
@[simp] theorem stalled_blocks (c o : Nat) (k : StallKind) : (s.stalled c o k).blocks = s.blocks := by simp [State.stalled]
@[simp] theorem stalled_groups (c o : Nat) (k : StallKind) : (s.stalled c o k).groups = s.groups := by simp [State.stalled]
@[simp] theorem stalled_tlb (c o : Nat) (k : StallKind) : (s.stalled c o k).tlb = s.tlb := by simp [State.stalled]
@[simp] theorem stalled_walks (c o : Nat) (k : StallKind) : (s.stalled c o k).walks = s.walks := by simp [State.stalled]
@[simp] theorem stalled_maps (c o : Nat) (k : StallKind) : (s.stalled c o k).maps = s.maps := by simp [State.stalled]
@[simp] theorem stalled_engs (c o : Nat) (k : StallKind) : (s.stalled c o k).engs = s.engs := by simp [State.stalled]
@[simp] theorem stalled_engseq (c o : Nat) (k : StallKind) : (s.stalled c o k).engseq = s.engseq := by simp [State.stalled]
@[simp] theorem stalled_preqs (c o : Nat) (k : StallKind) : (s.stalled c o k).preqs = s.preqs := by simp [State.stalled]
@[simp] theorem stalled_preqSeqs (c o : Nat) (k : StallKind) : (s.stalled c o k).preqSeqs = s.preqSeqs := by simp [State.stalled]
@[simp] theorem stalled_preqHeld (c o : Nat) (k : StallKind) : (s.stalled c o k).preqHeld = s.preqHeld := by simp [State.stalled]
@[simp] theorem stalled_preqTurn (c o : Nat) (k : StallKind) : (s.stalled c o k).preqTurn = s.preqTurn := by simp [State.stalled]
@[simp] theorem stalled_ridseq (c o : Nat) (k : StallKind) : (s.stalled c o k).ridseq = s.ridseq := by simp [State.stalled]
@[simp] theorem stalled_evHeld (c o : Nat) (k : StallKind) : (s.stalled c o k).evHeld = s.evHeld := by simp [State.stalled]
@[simp] theorem stalled_dropsOwed (c o : Nat) (k : StallKind) : (s.stalled c o k).dropsOwed = s.dropsOwed := by simp [State.stalled]
@[simp] theorem stalled_replies (c o : Nat) (k : StallKind) : (s.stalled c o k).replies = s.replies := by simp [State.stalled]
@[simp] theorem stalled_sent (c o : Nat) (k : StallKind) : (s.stalled c o k).sent = s.sent := by simp [State.stalled]
@[simp] theorem stalled_answers (c o : Nat) (k : StallKind) : (s.stalled c o k).answers = s.answers := by simp [State.stalled]
@[simp] theorem stalled_downLinks (c o : Nat) (k : StallKind) : (s.stalled c o k).downLinks = s.downLinks := by simp [State.stalled]
@[simp] theorem stalled_msix (c o : Nat) (k : StallKind) : (s.stalled c o k).msix = s.msix := by simp [State.stalled]

@[simp] theorem countIssue_turns (c o x : Nat) (h : Bool) : (s.countIssue c o x h).turns = s.turns := by
  simp only [State.countIssue]; split <;> split <;> simp
@[simp] theorem countIssue_steps (c o x : Nat) (h : Bool) : (s.countIssue c o x h).steps = s.steps := by
  simp only [State.countIssue]; split <;> split <;> simp
@[simp] theorem countIssue_sel (c o x : Nat) (h : Bool) : (s.countIssue c o x h).sel = s.sel := by
  simp only [State.countIssue]; split <;> split <;> simp
@[simp] theorem countIssue_dropAt (c o x : Nat) (h : Bool) : (s.countIssue c o x h).dropAt = s.dropAt := by
  simp only [State.countIssue]; split <;> split <;> simp
@[simp] theorem countIssue_time (c o x : Nat) (h : Bool) : (s.countIssue c o x h).time = s.time := by
  simp only [State.countIssue]; split <;> split <;> simp
@[simp] theorem countIssue_dieDev (c o x : Nat) (h : Bool) : (s.countIssue c o x h).dieDev = s.dieDev := by
  simp only [State.countIssue]; split <;> split <;> simp
@[simp] theorem countIssue_checked (c o x : Nat) (h : Bool) : (s.countIssue c o x h).checked = s.checked := by
  simp only [State.countIssue]; split <;> split <;> simp
@[simp] theorem countIssue_cycle (c o x : Nat) (h : Bool) : (s.countIssue c o x h).cycle = s.cycle := by
  simp only [State.countIssue]; split <;> split <;> simp
@[simp] theorem countIssue_dev (c o x : Nat) (h : Bool) : (s.countIssue c o x h).dev = s.dev := by
  simp only [State.countIssue]; split <;> split <;> simp
@[simp] theorem countIssue_dram (c o x : Nat) (h : Bool) : (s.countIssue c o x h).dram = s.dram := by
  simp only [State.countIssue]; split <;> split <;> simp
@[simp] theorem countIssue_host (c o x : Nat) (h : Bool) : (s.countIssue c o x h).host = s.host := by
  simp only [State.countIssue]; split <;> split <;> simp
@[simp] theorem countIssue_hostBehind (c o x : Nat) (h : Bool) : (s.countIssue c o x h).hostBehind = s.hostBehind := by
  simp only [State.countIssue]; split <;> split <;> simp
@[simp] theorem countIssue_l2 (c o x : Nat) (h : Bool) : (s.countIssue c o x h).l2 = s.l2 := by
  simp only [State.countIssue]; split <;> split <;> simp
@[simp] theorem countIssue_poison (c o x : Nat) (h : Bool) : (s.countIssue c o x h).poison = s.poison := by
  simp only [State.countIssue]; split <;> split <;> simp
@[simp] theorem countIssue_spad (c o x : Nat) (h : Bool) : (s.countIssue c o x h).spad = s.spad := by
  simp only [State.countIssue]; split <;> split <;> simp
@[simp] theorem countIssue_lode (c o x : Nat) (h : Bool) : (s.countIssue c o x h).lode = s.lode := by
  simp only [State.countIssue]; split <;> split <;> simp
@[simp] theorem countIssue_busy (c o x : Nat) (h : Bool) : (s.countIssue c o x h).busy = s.busy := by
  simp only [State.countIssue]; split <;> split <;> simp
@[simp] theorem countIssue_merges (c o x : Nat) (h : Bool) : (s.countIssue c o x h).merges = s.merges := by
  simp only [State.countIssue]; split <;> split <;> simp
@[simp] theorem countIssue_linkModules (c o x : Nat) (h : Bool) : (s.countIssue c o x h).linkModules = s.linkModules := by
  simp only [State.countIssue]; split <;> split <;> simp
@[simp] theorem countIssue_sideband (c o x : Nat) (h : Bool) : (s.countIssue c o x h).sideband = s.sideband := by
  simp only [State.countIssue]; split <;> split <;> simp
@[simp] theorem countIssue_diesHeld (c o x : Nat) (h : Bool) : (s.countIssue c o x h).diesHeld = s.diesHeld := by
  simp only [State.countIssue]; split <;> split <;> simp
@[simp] theorem countIssue_boot (c o x : Nat) (h : Bool) : (s.countIssue c o x h).boot = s.boot := by
  simp only [State.countIssue]; split <;> split <;> simp
@[simp] theorem countIssue_minVersion (c o x : Nat) (h : Bool) : (s.countIssue c o x h).minVersion = s.minVersion := by
  simp only [State.countIssue]; split <;> split <;> simp
@[simp] theorem countIssue_raise (c o x : Nat) (h : Bool) : (s.countIssue c o x h).raise = s.raise := by
  simp only [State.countIssue]; split <;> split <;> simp
@[simp] theorem countIssue_mgmt (c o x : Nat) (h : Bool) : (s.countIssue c o x h).mgmt = s.mgmt := by
  simp only [State.countIssue]; split <;> split <;> simp
@[simp] theorem countIssue_bytes (c o x : Nat) (h : Bool) : (s.countIssue c o x h).bytes = s.bytes := by
  simp only [State.countIssue]; split <;> split <;> simp
@[simp] theorem countIssue_fns (c o x : Nat) (h : Bool) : (s.countIssue c o x h).fns = s.fns := by
  simp only [State.countIssue]; split <;> split <;> simp
@[simp] theorem countIssue_ctxs (c o x : Nat) (h : Bool) : (s.countIssue c o x h).ctxs = s.ctxs := by
  simp only [State.countIssue]; split <;> split <;> simp
@[simp] theorem countIssue_launches (c o x : Nat) (h : Bool) : (s.countIssue c o x h).launches = s.launches := by
  simp only [State.countIssue]; split <;> split <;> simp
@[simp] theorem countIssue_blocks (c o x : Nat) (h : Bool) : (s.countIssue c o x h).blocks = s.blocks := by
  simp only [State.countIssue]; split <;> split <;> simp
@[simp] theorem countIssue_groups (c o x : Nat) (h : Bool) : (s.countIssue c o x h).groups = s.groups := by
  simp only [State.countIssue]; split <;> split <;> simp
@[simp] theorem countIssue_tlb (c o x : Nat) (h : Bool) : (s.countIssue c o x h).tlb = s.tlb := by
  simp only [State.countIssue]; split <;> split <;> simp
@[simp] theorem countIssue_walks (c o x : Nat) (h : Bool) : (s.countIssue c o x h).walks = s.walks := by
  simp only [State.countIssue]; split <;> split <;> simp
@[simp] theorem countIssue_maps (c o x : Nat) (h : Bool) : (s.countIssue c o x h).maps = s.maps := by
  simp only [State.countIssue]; split <;> split <;> simp
@[simp] theorem countIssue_engs (c o x : Nat) (h : Bool) : (s.countIssue c o x h).engs = s.engs := by
  simp only [State.countIssue]; split <;> split <;> simp
@[simp] theorem countIssue_engseq (c o x : Nat) (h : Bool) : (s.countIssue c o x h).engseq = s.engseq := by
  simp only [State.countIssue]; split <;> split <;> simp
@[simp] theorem countIssue_preqs (c o x : Nat) (h : Bool) : (s.countIssue c o x h).preqs = s.preqs := by
  simp only [State.countIssue]; split <;> split <;> simp
@[simp] theorem countIssue_preqSeqs (c o x : Nat) (h : Bool) : (s.countIssue c o x h).preqSeqs = s.preqSeqs := by
  simp only [State.countIssue]; split <;> split <;> simp
@[simp] theorem countIssue_preqHeld (c o x : Nat) (h : Bool) : (s.countIssue c o x h).preqHeld = s.preqHeld := by
  simp only [State.countIssue]; split <;> split <;> simp
@[simp] theorem countIssue_preqTurn (c o x : Nat) (h : Bool) : (s.countIssue c o x h).preqTurn = s.preqTurn := by
  simp only [State.countIssue]; split <;> split <;> simp
@[simp] theorem countIssue_ridseq (c o x : Nat) (h : Bool) : (s.countIssue c o x h).ridseq = s.ridseq := by
  simp only [State.countIssue]; split <;> split <;> simp
@[simp] theorem countIssue_evHeld (c o x : Nat) (h : Bool) : (s.countIssue c o x h).evHeld = s.evHeld := by
  simp only [State.countIssue]; split <;> split <;> simp
@[simp] theorem countIssue_dropsOwed (c o x : Nat) (h : Bool) : (s.countIssue c o x h).dropsOwed = s.dropsOwed := by
  simp only [State.countIssue]; split <;> split <;> simp
@[simp] theorem countIssue_replies (c o x : Nat) (h : Bool) : (s.countIssue c o x h).replies = s.replies := by
  simp only [State.countIssue]; split <;> split <;> simp
@[simp] theorem countIssue_sent (c o x : Nat) (h : Bool) : (s.countIssue c o x h).sent = s.sent := by
  simp only [State.countIssue]; split <;> split <;> simp
@[simp] theorem countIssue_answers (c o x : Nat) (h : Bool) : (s.countIssue c o x h).answers = s.answers := by
  simp only [State.countIssue]; split <;> split <;> simp
@[simp] theorem countIssue_downLinks (c o x : Nat) (h : Bool) : (s.countIssue c o x h).downLinks = s.downLinks := by
  simp only [State.countIssue]; split <;> split <;> simp
@[simp] theorem countIssue_msix (c o x : Nat) (h : Bool) : (s.countIssue c o x h).msix = s.msix := by
  simp only [State.countIssue]; split <;> split <;> simp

@[simp] theorem issued_turns (e : Env) (n : Needs) : (s.issued e n).turns = s.turns := by simp only [State.issued]; split <;> simp
@[simp] theorem issued_steps (e : Env) (n : Needs) : (s.issued e n).steps = s.steps := by simp only [State.issued]; split <;> simp
@[simp] theorem issued_sel (e : Env) (n : Needs) : (s.issued e n).sel = s.sel := by simp only [State.issued]; split <;> simp
@[simp] theorem issued_dropAt (e : Env) (n : Needs) : (s.issued e n).dropAt = s.dropAt := by simp only [State.issued]; split <;> simp
@[simp] theorem issued_time (e : Env) (n : Needs) : (s.issued e n).time = s.time := by simp only [State.issued]; split <;> simp
@[simp] theorem issued_dieDev (e : Env) (n : Needs) : (s.issued e n).dieDev = s.dieDev := by simp only [State.issued]; split <;> simp
@[simp] theorem issued_checked (e : Env) (n : Needs) : (s.issued e n).checked = s.checked := by simp only [State.issued]; split <;> simp
@[simp] theorem issued_cycle (e : Env) (n : Needs) : (s.issued e n).cycle = s.cycle := by simp only [State.issued]; split <;> simp
@[simp] theorem issued_dev (e : Env) (n : Needs) : (s.issued e n).dev = s.dev := by simp only [State.issued]; split <;> simp
@[simp] theorem issued_dram (e : Env) (n : Needs) : (s.issued e n).dram = s.dram := by simp only [State.issued]; split <;> simp
@[simp] theorem issued_host (e : Env) (n : Needs) : (s.issued e n).host = s.host := by simp only [State.issued]; split <;> simp
@[simp] theorem issued_hostBehind (e : Env) (n : Needs) : (s.issued e n).hostBehind = s.hostBehind := by simp only [State.issued]; split <;> simp
@[simp] theorem issued_l2 (e : Env) (n : Needs) : (s.issued e n).l2 = s.l2 := by simp only [State.issued]; split <;> simp
@[simp] theorem issued_poison (e : Env) (n : Needs) : (s.issued e n).poison = s.poison := by simp only [State.issued]; split <;> simp
@[simp] theorem issued_spad (e : Env) (n : Needs) : (s.issued e n).spad = s.spad := by simp only [State.issued]; split <;> simp
@[simp] theorem issued_lode (e : Env) (n : Needs) : (s.issued e n).lode = s.lode := by simp only [State.issued]; split <;> simp
@[simp] theorem issued_busy (e : Env) (n : Needs) : (s.issued e n).busy = s.busy := by simp only [State.issued]; split <;> simp
@[simp] theorem issued_merges (e : Env) (n : Needs) : (s.issued e n).merges = s.merges := by simp only [State.issued]; split <;> simp
@[simp] theorem issued_linkModules (e : Env) (n : Needs) : (s.issued e n).linkModules = s.linkModules := by simp only [State.issued]; split <;> simp
@[simp] theorem issued_sideband (e : Env) (n : Needs) : (s.issued e n).sideband = s.sideband := by simp only [State.issued]; split <;> simp
@[simp] theorem issued_diesHeld (e : Env) (n : Needs) : (s.issued e n).diesHeld = s.diesHeld := by simp only [State.issued]; split <;> simp
@[simp] theorem issued_boot (e : Env) (n : Needs) : (s.issued e n).boot = s.boot := by simp only [State.issued]; split <;> simp
@[simp] theorem issued_minVersion (e : Env) (n : Needs) : (s.issued e n).minVersion = s.minVersion := by simp only [State.issued]; split <;> simp
@[simp] theorem issued_raise (e : Env) (n : Needs) : (s.issued e n).raise = s.raise := by simp only [State.issued]; split <;> simp
@[simp] theorem issued_mgmt (e : Env) (n : Needs) : (s.issued e n).mgmt = s.mgmt := by simp only [State.issued]; split <;> simp
@[simp] theorem issued_bytes (e : Env) (n : Needs) : (s.issued e n).bytes = s.bytes := by simp only [State.issued]; split <;> simp
@[simp] theorem issued_fns (e : Env) (n : Needs) : (s.issued e n).fns = s.fns := by simp only [State.issued]; split <;> simp
@[simp] theorem issued_ctxs (e : Env) (n : Needs) : (s.issued e n).ctxs = s.ctxs := by simp only [State.issued]; split <;> simp
@[simp] theorem issued_launches (e : Env) (n : Needs) : (s.issued e n).launches = s.launches := by simp only [State.issued]; split <;> simp
@[simp] theorem issued_blocks (e : Env) (n : Needs) : (s.issued e n).blocks = s.blocks := by simp only [State.issued]; split <;> simp
@[simp] theorem issued_groups (e : Env) (n : Needs) : (s.issued e n).groups = s.groups := by simp only [State.issued]; split <;> simp
@[simp] theorem issued_tlb (e : Env) (n : Needs) : (s.issued e n).tlb = s.tlb := by simp only [State.issued]; split <;> simp
@[simp] theorem issued_walks (e : Env) (n : Needs) : (s.issued e n).walks = s.walks := by simp only [State.issued]; split <;> simp
@[simp] theorem issued_maps (e : Env) (n : Needs) : (s.issued e n).maps = s.maps := by simp only [State.issued]; split <;> simp
@[simp] theorem issued_engs (e : Env) (n : Needs) : (s.issued e n).engs = s.engs := by simp only [State.issued]; split <;> simp
@[simp] theorem issued_engseq (e : Env) (n : Needs) : (s.issued e n).engseq = s.engseq := by simp only [State.issued]; split <;> simp
@[simp] theorem issued_preqs (e : Env) (n : Needs) : (s.issued e n).preqs = s.preqs := by simp only [State.issued]; split <;> simp
@[simp] theorem issued_preqSeqs (e : Env) (n : Needs) : (s.issued e n).preqSeqs = s.preqSeqs := by simp only [State.issued]; split <;> simp
@[simp] theorem issued_preqHeld (e : Env) (n : Needs) : (s.issued e n).preqHeld = s.preqHeld := by simp only [State.issued]; split <;> simp
@[simp] theorem issued_preqTurn (e : Env) (n : Needs) : (s.issued e n).preqTurn = s.preqTurn := by simp only [State.issued]; split <;> simp
@[simp] theorem issued_ridseq (e : Env) (n : Needs) : (s.issued e n).ridseq = s.ridseq := by simp only [State.issued]; split <;> simp
@[simp] theorem issued_evHeld (e : Env) (n : Needs) : (s.issued e n).evHeld = s.evHeld := by simp only [State.issued]; split <;> simp
@[simp] theorem issued_dropsOwed (e : Env) (n : Needs) : (s.issued e n).dropsOwed = s.dropsOwed := by simp only [State.issued]; split <;> simp
@[simp] theorem issued_replies (e : Env) (n : Needs) : (s.issued e n).replies = s.replies := by simp only [State.issued]; split <;> simp
@[simp] theorem issued_sent (e : Env) (n : Needs) : (s.issued e n).sent = s.sent := by simp only [State.issued]; split <;> simp
@[simp] theorem issued_answers (e : Env) (n : Needs) : (s.issued e n).answers = s.answers := by simp only [State.issued]; split <;> simp
@[simp] theorem issued_downLinks (e : Env) (n : Needs) : (s.issued e n).downLinks = s.downLinks := by simp only [State.issued]; split <;> simp
@[simp] theorem issued_msix (e : Env) (n : Needs) : (s.issued e n).msix = s.msix := by simp only [State.issued]; split <;> simp

@[simp] theorem post_turns (p : Nat) (r : EvRec) : (s.post p r).turns = s.turns := by
  simp only [State.post]; split <;> rfl
@[simp] theorem post_steps (p : Nat) (r : EvRec) : (s.post p r).steps = s.steps := by
  simp only [State.post]; split <;> rfl
@[simp] theorem post_sel (p : Nat) (r : EvRec) : (s.post p r).sel = s.sel := by
  simp only [State.post]; split <;> rfl
@[simp] theorem post_dropAt (p : Nat) (r : EvRec) : (s.post p r).dropAt = s.dropAt := by
  simp only [State.post]; split <;> rfl
@[simp] theorem post_time (p : Nat) (r : EvRec) : (s.post p r).time = s.time := by
  simp only [State.post]; split <;> rfl
@[simp] theorem post_dieDev (p : Nat) (r : EvRec) : (s.post p r).dieDev = s.dieDev := by
  simp only [State.post]; split <;> rfl
@[simp] theorem post_checked (p : Nat) (r : EvRec) : (s.post p r).checked = s.checked := by
  simp only [State.post]; split <;> rfl
@[simp] theorem post_cycle (p : Nat) (r : EvRec) : (s.post p r).cycle = s.cycle := by
  simp only [State.post]; split <;> rfl
@[simp] theorem post_dev (p : Nat) (r : EvRec) : (s.post p r).dev = s.dev := by
  simp only [State.post]; split <;> rfl
@[simp] theorem post_dram (p : Nat) (r : EvRec) : (s.post p r).dram = s.dram := by
  simp only [State.post]; split <;> rfl
@[simp] theorem post_host (p : Nat) (r : EvRec) : (s.post p r).host = s.host := by
  simp only [State.post]; split <;> rfl
@[simp] theorem post_hostBehind (p : Nat) (r : EvRec) : (s.post p r).hostBehind = s.hostBehind := by
  simp only [State.post]; split <;> rfl
@[simp] theorem post_l2 (p : Nat) (r : EvRec) : (s.post p r).l2 = s.l2 := by
  simp only [State.post]; split <;> rfl
@[simp] theorem post_poison (p : Nat) (r : EvRec) : (s.post p r).poison = s.poison := by
  simp only [State.post]; split <;> rfl
@[simp] theorem post_spad (p : Nat) (r : EvRec) : (s.post p r).spad = s.spad := by
  simp only [State.post]; split <;> rfl
@[simp] theorem post_lode (p : Nat) (r : EvRec) : (s.post p r).lode = s.lode := by
  simp only [State.post]; split <;> rfl
@[simp] theorem post_busy (p : Nat) (r : EvRec) : (s.post p r).busy = s.busy := by
  simp only [State.post]; split <;> rfl
@[simp] theorem post_merges (p : Nat) (r : EvRec) : (s.post p r).merges = s.merges := by
  simp only [State.post]; split <;> rfl
@[simp] theorem post_linkModules (p : Nat) (r : EvRec) : (s.post p r).linkModules = s.linkModules := by
  simp only [State.post]; split <;> rfl
@[simp] theorem post_sideband (p : Nat) (r : EvRec) : (s.post p r).sideband = s.sideband := by
  simp only [State.post]; split <;> rfl
@[simp] theorem post_diesHeld (p : Nat) (r : EvRec) : (s.post p r).diesHeld = s.diesHeld := by
  simp only [State.post]; split <;> rfl
@[simp] theorem post_boot (p : Nat) (r : EvRec) : (s.post p r).boot = s.boot := by
  simp only [State.post]; split <;> rfl
@[simp] theorem post_minVersion (p : Nat) (r : EvRec) : (s.post p r).minVersion = s.minVersion := by
  simp only [State.post]; split <;> rfl
@[simp] theorem post_raise (p : Nat) (r : EvRec) : (s.post p r).raise = s.raise := by
  simp only [State.post]; split <;> rfl
@[simp] theorem post_mgmt (p : Nat) (r : EvRec) : (s.post p r).mgmt = s.mgmt := by
  simp only [State.post]; split <;> rfl
@[simp] theorem post_bytes (p : Nat) (r : EvRec) : (s.post p r).bytes = s.bytes := by
  simp only [State.post]; split <;> rfl
@[simp] theorem post_parts (p : Nat) (r : EvRec) : (s.post p r).parts = s.parts := by
  simp only [State.post]; split <;> rfl
@[simp] theorem post_ctxs (p : Nat) (r : EvRec) : (s.post p r).ctxs = s.ctxs := by
  simp only [State.post]; split <;> rfl
@[simp] theorem post_launches (p : Nat) (r : EvRec) : (s.post p r).launches = s.launches := by
  simp only [State.post]; split <;> rfl
@[simp] theorem post_blocks (p : Nat) (r : EvRec) : (s.post p r).blocks = s.blocks := by
  simp only [State.post]; split <;> rfl
@[simp] theorem post_cores (p : Nat) (r : EvRec) : (s.post p r).cores = s.cores := by
  simp only [State.post]; split <;> rfl
@[simp] theorem post_groups (p : Nat) (r : EvRec) : (s.post p r).groups = s.groups := by
  simp only [State.post]; split <;> rfl
@[simp] theorem post_tlb (p : Nat) (r : EvRec) : (s.post p r).tlb = s.tlb := by
  simp only [State.post]; split <;> rfl
@[simp] theorem post_walks (p : Nat) (r : EvRec) : (s.post p r).walks = s.walks := by
  simp only [State.post]; split <;> rfl
@[simp] theorem post_maps (p : Nat) (r : EvRec) : (s.post p r).maps = s.maps := by
  simp only [State.post]; split <;> rfl
@[simp] theorem post_engs (p : Nat) (r : EvRec) : (s.post p r).engs = s.engs := by
  simp only [State.post]; split <;> rfl
@[simp] theorem post_engseq (p : Nat) (r : EvRec) : (s.post p r).engseq = s.engseq := by
  simp only [State.post]; split <;> rfl
@[simp] theorem post_preqs (p : Nat) (r : EvRec) : (s.post p r).preqs = s.preqs := by
  simp only [State.post]; split <;> rfl
@[simp] theorem post_preqSeqs (p : Nat) (r : EvRec) : (s.post p r).preqSeqs = s.preqSeqs := by
  simp only [State.post]; split <;> rfl
@[simp] theorem post_preqHeld (p : Nat) (r : EvRec) : (s.post p r).preqHeld = s.preqHeld := by
  simp only [State.post]; split <;> rfl
@[simp] theorem post_preqTurn (p : Nat) (r : EvRec) : (s.post p r).preqTurn = s.preqTurn := by
  simp only [State.post]; split <;> rfl
@[simp] theorem post_ridseq (p : Nat) (r : EvRec) : (s.post p r).ridseq = s.ridseq := by
  simp only [State.post]; split <;> rfl
@[simp] theorem post_dropsOwed (p : Nat) (r : EvRec) : (s.post p r).dropsOwed = s.dropsOwed := by
  simp only [State.post]; split <;> rfl
@[simp] theorem post_replies (p : Nat) (r : EvRec) : (s.post p r).replies = s.replies := by
  simp only [State.post]; split <;> rfl
@[simp] theorem post_sent (p : Nat) (r : EvRec) : (s.post p r).sent = s.sent := by
  simp only [State.post]; split <;> rfl
@[simp] theorem post_answers (p : Nat) (r : EvRec) : (s.post p r).answers = s.answers := by
  simp only [State.post]; split <;> rfl
@[simp] theorem post_downLinks (p : Nat) (r : EvRec) : (s.post p r).downLinks = s.downLinks := by
  simp only [State.post]; split <;> rfl
@[simp] theorem post_msix (p : Nat) (r : EvRec) : (s.post p r).msix = s.msix := by
  simp only [State.post]; split <;> rfl

@[simp] theorem takeFault_turns (c o : Nat) (m : Mask) (p a : PC) (b : Bool) (g : BitVec 8) (r : Raise) : (s.takeFault c o m p a b g r).turns = s.turns := by
  simp only [State.takeFault]; split <;> simp
@[simp] theorem takeFault_steps (c o : Nat) (m : Mask) (p a : PC) (b : Bool) (g : BitVec 8) (r : Raise) : (s.takeFault c o m p a b g r).steps = s.steps := by
  simp only [State.takeFault]; split <;> simp
@[simp] theorem takeFault_sel (c o : Nat) (m : Mask) (p a : PC) (b : Bool) (g : BitVec 8) (r : Raise) : (s.takeFault c o m p a b g r).sel = s.sel := by
  simp only [State.takeFault]; split <;> simp
@[simp] theorem takeFault_dropAt (c o : Nat) (m : Mask) (p a : PC) (b : Bool) (g : BitVec 8) (r : Raise) : (s.takeFault c o m p a b g r).dropAt = s.dropAt := by
  simp only [State.takeFault]; split <;> simp
@[simp] theorem takeFault_time (c o : Nat) (m : Mask) (p a : PC) (b : Bool) (g : BitVec 8) (r : Raise) : (s.takeFault c o m p a b g r).time = s.time := by
  simp only [State.takeFault]; split <;> simp
@[simp] theorem takeFault_dieDev (c o : Nat) (m : Mask) (p a : PC) (b : Bool) (g : BitVec 8) (r : Raise) : (s.takeFault c o m p a b g r).dieDev = s.dieDev := by
  simp only [State.takeFault]; split <;> simp
@[simp] theorem takeFault_checked (c o : Nat) (m : Mask) (p a : PC) (b : Bool) (g : BitVec 8) (r : Raise) : (s.takeFault c o m p a b g r).checked = s.checked := by
  simp only [State.takeFault]; split <;> simp
@[simp] theorem takeFault_cycle (c o : Nat) (m : Mask) (p a : PC) (b : Bool) (g : BitVec 8) (r : Raise) : (s.takeFault c o m p a b g r).cycle = s.cycle := by
  simp only [State.takeFault]; split <;> simp
@[simp] theorem takeFault_dev (c o : Nat) (m : Mask) (p a : PC) (b : Bool) (g : BitVec 8) (r : Raise) : (s.takeFault c o m p a b g r).dev = s.dev := by
  simp only [State.takeFault]; split <;> simp
@[simp] theorem takeFault_dram (c o : Nat) (m : Mask) (p a : PC) (b : Bool) (g : BitVec 8) (r : Raise) : (s.takeFault c o m p a b g r).dram = s.dram := by
  simp only [State.takeFault]; split <;> simp
@[simp] theorem takeFault_host (c o : Nat) (m : Mask) (p a : PC) (b : Bool) (g : BitVec 8) (r : Raise) : (s.takeFault c o m p a b g r).host = s.host := by
  simp only [State.takeFault]; split <;> simp
@[simp] theorem takeFault_hostBehind (c o : Nat) (m : Mask) (p a : PC) (b : Bool) (g : BitVec 8) (r : Raise) : (s.takeFault c o m p a b g r).hostBehind = s.hostBehind := by
  simp only [State.takeFault]; split <;> simp
@[simp] theorem takeFault_l2 (c o : Nat) (m : Mask) (p a : PC) (b : Bool) (g : BitVec 8) (r : Raise) : (s.takeFault c o m p a b g r).l2 = s.l2 := by
  simp only [State.takeFault]; split <;> simp
@[simp] theorem takeFault_poison (c o : Nat) (m : Mask) (p a : PC) (b : Bool) (g : BitVec 8) (r : Raise) : (s.takeFault c o m p a b g r).poison = s.poison := by
  simp only [State.takeFault]; split <;> simp
@[simp] theorem takeFault_spad (c o : Nat) (m : Mask) (p a : PC) (b : Bool) (g : BitVec 8) (r : Raise) : (s.takeFault c o m p a b g r).spad = s.spad := by
  simp only [State.takeFault]; split <;> simp
@[simp] theorem takeFault_lode (c o : Nat) (m : Mask) (p a : PC) (b : Bool) (g : BitVec 8) (r : Raise) : (s.takeFault c o m p a b g r).lode = s.lode := by
  simp only [State.takeFault]; split <;> simp
@[simp] theorem takeFault_busy (c o : Nat) (m : Mask) (p a : PC) (b : Bool) (g : BitVec 8) (r : Raise) : (s.takeFault c o m p a b g r).busy = s.busy := by
  simp only [State.takeFault]; split <;> simp
@[simp] theorem takeFault_merges (c o : Nat) (m : Mask) (p a : PC) (b : Bool) (g : BitVec 8) (r : Raise) : (s.takeFault c o m p a b g r).merges = s.merges := by
  simp only [State.takeFault]; split <;> simp
@[simp] theorem takeFault_linkModules (c o : Nat) (m : Mask) (p a : PC) (b : Bool) (g : BitVec 8) (r : Raise) : (s.takeFault c o m p a b g r).linkModules = s.linkModules := by
  simp only [State.takeFault]; split <;> simp
@[simp] theorem takeFault_sideband (c o : Nat) (m : Mask) (p a : PC) (b : Bool) (g : BitVec 8) (r : Raise) : (s.takeFault c o m p a b g r).sideband = s.sideband := by
  simp only [State.takeFault]; split <;> simp
@[simp] theorem takeFault_diesHeld (c o : Nat) (m : Mask) (p a : PC) (b : Bool) (g : BitVec 8) (r : Raise) : (s.takeFault c o m p a b g r).diesHeld = s.diesHeld := by
  simp only [State.takeFault]; split <;> simp
@[simp] theorem takeFault_boot (c o : Nat) (m : Mask) (p a : PC) (b : Bool) (g : BitVec 8) (r : Raise) : (s.takeFault c o m p a b g r).boot = s.boot := by
  simp only [State.takeFault]; split <;> simp
@[simp] theorem takeFault_minVersion (c o : Nat) (m : Mask) (p a : PC) (b : Bool) (g : BitVec 8) (r : Raise) : (s.takeFault c o m p a b g r).minVersion = s.minVersion := by
  simp only [State.takeFault]; split <;> simp
@[simp] theorem takeFault_raise (c o : Nat) (m : Mask) (p a : PC) (b : Bool) (g : BitVec 8) (r : Raise) : (s.takeFault c o m p a b g r).raise = s.raise := by
  simp only [State.takeFault]; split <;> simp
@[simp] theorem takeFault_mgmt (c o : Nat) (m : Mask) (p a : PC) (b : Bool) (g : BitVec 8) (r : Raise) : (s.takeFault c o m p a b g r).mgmt = s.mgmt := by
  simp only [State.takeFault]; split <;> simp
@[simp] theorem takeFault_bytes (c o : Nat) (m : Mask) (p a : PC) (b : Bool) (g : BitVec 8) (r : Raise) : (s.takeFault c o m p a b g r).bytes = s.bytes := by
  simp only [State.takeFault]; split <;> simp
@[simp] theorem takeFault_parts (c o : Nat) (m : Mask) (p a : PC) (b : Bool) (g : BitVec 8) (r : Raise) : (s.takeFault c o m p a b g r).parts = s.parts := by
  simp only [State.takeFault]; split <;> simp
@[simp] theorem takeFault_ctxs (c o : Nat) (m : Mask) (p a : PC) (b : Bool) (g : BitVec 8) (r : Raise) : (s.takeFault c o m p a b g r).ctxs = s.ctxs := by
  simp only [State.takeFault]; split <;> simp
@[simp] theorem takeFault_launches (c o : Nat) (m : Mask) (p a : PC) (b : Bool) (g : BitVec 8) (r : Raise) : (s.takeFault c o m p a b g r).launches = s.launches := by
  simp only [State.takeFault]; split <;> simp
@[simp] theorem takeFault_blocks (c o : Nat) (m : Mask) (p a : PC) (b : Bool) (g : BitVec 8) (r : Raise) : (s.takeFault c o m p a b g r).blocks = s.blocks := by
  simp only [State.takeFault]; split <;> simp
@[simp] theorem takeFault_groups (c o : Nat) (m : Mask) (p a : PC) (b : Bool) (g : BitVec 8) (r : Raise) : (s.takeFault c o m p a b g r).groups = s.groups := by
  simp only [State.takeFault]; split <;> simp
@[simp] theorem takeFault_tlb (c o : Nat) (m : Mask) (p a : PC) (b : Bool) (g : BitVec 8) (r : Raise) : (s.takeFault c o m p a b g r).tlb = s.tlb := by
  simp only [State.takeFault]; split <;> simp
@[simp] theorem takeFault_walks (c o : Nat) (m : Mask) (p a : PC) (b : Bool) (g : BitVec 8) (r : Raise) : (s.takeFault c o m p a b g r).walks = s.walks := by
  simp only [State.takeFault]; split <;> simp
@[simp] theorem takeFault_maps (c o : Nat) (m : Mask) (p a : PC) (b : Bool) (g : BitVec 8) (r : Raise) : (s.takeFault c o m p a b g r).maps = s.maps := by
  simp only [State.takeFault]; split <;> simp
@[simp] theorem takeFault_engs (c o : Nat) (m : Mask) (p a : PC) (b : Bool) (g : BitVec 8) (r : Raise) : (s.takeFault c o m p a b g r).engs = s.engs := by
  simp only [State.takeFault]; split <;> simp
@[simp] theorem takeFault_engseq (c o : Nat) (m : Mask) (p a : PC) (b : Bool) (g : BitVec 8) (r : Raise) : (s.takeFault c o m p a b g r).engseq = s.engseq := by
  simp only [State.takeFault]; split <;> simp
@[simp] theorem takeFault_preqs (c o : Nat) (m : Mask) (p a : PC) (b : Bool) (g : BitVec 8) (r : Raise) : (s.takeFault c o m p a b g r).preqs = s.preqs := by
  simp only [State.takeFault]; split <;> simp
@[simp] theorem takeFault_preqSeqs (c o : Nat) (m : Mask) (p a : PC) (b : Bool) (g : BitVec 8) (r : Raise) : (s.takeFault c o m p a b g r).preqSeqs = s.preqSeqs := by
  simp only [State.takeFault]; split <;> simp
@[simp] theorem takeFault_preqHeld (c o : Nat) (m : Mask) (p a : PC) (b : Bool) (g : BitVec 8) (r : Raise) : (s.takeFault c o m p a b g r).preqHeld = s.preqHeld := by
  simp only [State.takeFault]; split <;> simp
@[simp] theorem takeFault_preqTurn (c o : Nat) (m : Mask) (p a : PC) (b : Bool) (g : BitVec 8) (r : Raise) : (s.takeFault c o m p a b g r).preqTurn = s.preqTurn := by
  simp only [State.takeFault]; split <;> simp
@[simp] theorem takeFault_ridseq (c o : Nat) (m : Mask) (p a : PC) (b : Bool) (g : BitVec 8) (r : Raise) : (s.takeFault c o m p a b g r).ridseq = s.ridseq := by
  simp only [State.takeFault]; split <;> simp
@[simp] theorem takeFault_dropsOwed (c o : Nat) (m : Mask) (p a : PC) (b : Bool) (g : BitVec 8) (r : Raise) : (s.takeFault c o m p a b g r).dropsOwed = s.dropsOwed := by
  simp only [State.takeFault]; split <;> simp
@[simp] theorem takeFault_replies (c o : Nat) (m : Mask) (p a : PC) (b : Bool) (g : BitVec 8) (r : Raise) : (s.takeFault c o m p a b g r).replies = s.replies := by
  simp only [State.takeFault]; split <;> simp
@[simp] theorem takeFault_sent (c o : Nat) (m : Mask) (p a : PC) (b : Bool) (g : BitVec 8) (r : Raise) : (s.takeFault c o m p a b g r).sent = s.sent := by
  simp only [State.takeFault]; split <;> simp
@[simp] theorem takeFault_answers (c o : Nat) (m : Mask) (p a : PC) (b : Bool) (g : BitVec 8) (r : Raise) : (s.takeFault c o m p a b g r).answers = s.answers := by
  simp only [State.takeFault]; split <;> simp
@[simp] theorem takeFault_downLinks (c o : Nat) (m : Mask) (p a : PC) (b : Bool) (g : BitVec 8) (r : Raise) : (s.takeFault c o m p a b g r).downLinks = s.downLinks := by
  simp only [State.takeFault]; split <;> simp
@[simp] theorem takeFault_msix (c o : Nat) (m : Mask) (p a : PC) (b : Bool) (g : BitVec 8) (r : Raise) : (s.takeFault c o m p a b g r).msix = s.msix := by
  simp only [State.takeFault]; split <;> simp

/-! ### Updates of a warp -/

@[simp] theorem setPcs_wid (m : Mask) (f : Nat → PC) : (w.setPcs m f).wid = w.wid := rfl
@[simp] theorem setPcs_seq (m : Mask) (f : Nat → PC) : (w.setPcs m f).seq = w.seq := rfl
@[simp] theorem setPcs_ctx (m : Mask) (f : Nat → PC) : (w.setPcs m f).ctx = w.ctx := rfl
@[simp] theorem setPcs_launch (m : Mask) (f : Nat → PC) : (w.setPcs m f).launch = w.launch := rfl
@[simp] theorem setPcs_block (m : Mask) (f : Nat → PC) : (w.setPcs m f).block = w.block := rfl
@[simp] theorem setPcs_number (m : Mask) (f : Nat → PC) : (w.setPcs m f).number = w.number := rfl
@[simp] theorem setPcs_live (m : Mask) (f : Nat → PC) : (w.setPcs m f).live = w.live := rfl
@[simp] theorem setPcs_arrivals (m : Mask) (f : Nat → PC) : (w.setPcs m f).arrivals = w.arrivals := rfl
@[simp] theorem setPcs_preds (m : Mask) (f : Nat → PC) : (w.setPcs m f).preds = w.preds := rfl
@[simp] theorem setPcs_names (m : Mask) (f : Nat → PC) : (w.setPcs m f).names = w.names := rfl
@[simp] theorem setPcs_kregs (m : Mask) (f : Nat → PC) : (w.setPcs m f).kregs = w.kregs := rfl
@[simp] theorem setPcs_aflags (m : Mask) (f : Nat → PC) : (w.setPcs m f).aflags = w.aflags := rfl
@[simp] theorem setPcs_mrow (m : Mask) (f : Nat → PC) : (w.setPcs m f).mrow = w.mrow := rfl
@[simp] theorem setPcs_mflags (m : Mask) (f : Nat → PC) : (w.setPcs m f).mflags = w.mflags := rfl
@[simp] theorem setPcs_unread (m : Mask) (f : Nat → PC) : (w.setPcs m f).unread = w.unread := rfl
@[simp] theorem setPcs_loads (m : Mask) (f : Nat → PC) : (w.setPcs m f).loads = w.loads := rfl
@[simp] theorem setPcs_stores (m : Mask) (f : Nat → PC) : (w.setPcs m f).stores = w.stores := rfl
@[simp] theorem setPcs_copies (m : Mask) (f : Nat → PC) : (w.setPcs m f).copies = w.copies := rfl
@[simp] theorem setPcs_tiles (m : Mask) (f : Nat → PC) : (w.setPcs m f).tiles = w.tiles := rfl
@[simp] theorem setPcs_log (m : Mask) (f : Nat → PC) : (w.setPcs m f).log = w.log := rfl
@[simp] theorem setPcs_logseq (m : Mask) (f : Nat → PC) : (w.setPcs m f).logseq = w.logseq := rfl
@[simp] theorem setPcs_accs (m : Mask) (f : Nat → PC) : (w.setPcs m f).accs = w.accs := rfl
@[simp] theorem setPcs_accseq (m : Mask) (f : Nat → PC) : (w.setPcs m f).accseq = w.accseq := rfl
@[simp] theorem setPcs_waits (m : Mask) (f : Nat → PC) : (w.setPcs m f).waits = w.waits := rfl
@[simp] theorem setPcs_traps (m : Mask) (f : Nat → PC) : (w.setPcs m f).traps = w.traps := rfl
@[simp] theorem setPcs_lastphase (m : Mask) (f : Nat → PC) : (w.setPcs m f).lastphase = w.lastphase := rfl
@[simp] theorem setPcs_halted (m : Mask) (f : Nat → PC) : (w.setPcs m f).halted = w.halted := rfl
@[simp] theorem setPcs_stall (m : Mask) (f : Nat → PC) : (w.setPcs m f).stall = w.stall := rfl
@[simp] theorem setPcs_timeout (m : Mask) (f : Nat → PC) : (w.setPcs m f).timeout = w.timeout := rfl
@[simp] theorem setPcs_fetches (m : Mask) (f : Nat → PC) : (w.setPcs m f).fetches = w.fetches := rfl
@[simp] theorem setPcs_queued (m : Mask) (f : Nat → PC) : (w.setPcs m f).queued = w.queued := rfl
@[simp] theorem setPcs_ran (m : Mask) (f : Nat → PC) : (w.setPcs m f).ran = w.ran := rfl
@[simp] theorem setPcs_evicted (m : Mask) (f : Nat → PC) : (w.setPcs m f).evicted = w.evicted := rfl
@[simp] theorem setPcs_leaving (m : Mask) (f : Nat → PC) : (w.setPcs m f).leaving = w.leaving := rfl
@[simp] theorem setPcs_screeNames (m : Mask) (f : Nat → PC) : (w.setPcs m f).screeNames = w.screeNames := rfl
@[simp] theorem setPcs_noWatch (m : Mask) (f : Nat → PC) : (w.setPcs m f).noWatch = w.noWatch := rfl
@[simp] theorem setPcs_buffered (m : Mask) (f : Nat → PC) : (w.setPcs m f).buffered = w.buffered := rfl

@[simp] theorem advance_wid (m : Mask) : (w.advance m).wid = w.wid := rfl
@[simp] theorem advance_seq (m : Mask) : (w.advance m).seq = w.seq := rfl
@[simp] theorem advance_ctx (m : Mask) : (w.advance m).ctx = w.ctx := rfl
@[simp] theorem advance_launch (m : Mask) : (w.advance m).launch = w.launch := rfl
@[simp] theorem advance_block (m : Mask) : (w.advance m).block = w.block := rfl
@[simp] theorem advance_number (m : Mask) : (w.advance m).number = w.number := rfl
@[simp] theorem advance_live (m : Mask) : (w.advance m).live = w.live := rfl
@[simp] theorem advance_arrivals (m : Mask) : (w.advance m).arrivals = w.arrivals := rfl
@[simp] theorem advance_preds (m : Mask) : (w.advance m).preds = w.preds := rfl
@[simp] theorem advance_names (m : Mask) : (w.advance m).names = w.names := rfl
@[simp] theorem advance_kregs (m : Mask) : (w.advance m).kregs = w.kregs := rfl
@[simp] theorem advance_aflags (m : Mask) : (w.advance m).aflags = w.aflags := rfl
@[simp] theorem advance_mrow (m : Mask) : (w.advance m).mrow = w.mrow := rfl
@[simp] theorem advance_mflags (m : Mask) : (w.advance m).mflags = w.mflags := rfl
@[simp] theorem advance_unread (m : Mask) : (w.advance m).unread = w.unread := rfl
@[simp] theorem advance_loads (m : Mask) : (w.advance m).loads = w.loads := rfl
@[simp] theorem advance_stores (m : Mask) : (w.advance m).stores = w.stores := rfl
@[simp] theorem advance_copies (m : Mask) : (w.advance m).copies = w.copies := rfl
@[simp] theorem advance_tiles (m : Mask) : (w.advance m).tiles = w.tiles := rfl
@[simp] theorem advance_log (m : Mask) : (w.advance m).log = w.log := rfl
@[simp] theorem advance_logseq (m : Mask) : (w.advance m).logseq = w.logseq := rfl
@[simp] theorem advance_accs (m : Mask) : (w.advance m).accs = w.accs := rfl
@[simp] theorem advance_accseq (m : Mask) : (w.advance m).accseq = w.accseq := rfl
@[simp] theorem advance_waits (m : Mask) : (w.advance m).waits = w.waits := rfl
@[simp] theorem advance_traps (m : Mask) : (w.advance m).traps = w.traps := rfl
@[simp] theorem advance_lastphase (m : Mask) : (w.advance m).lastphase = w.lastphase := rfl
@[simp] theorem advance_halted (m : Mask) : (w.advance m).halted = w.halted := rfl
@[simp] theorem advance_stall (m : Mask) : (w.advance m).stall = w.stall := rfl
@[simp] theorem advance_timeout (m : Mask) : (w.advance m).timeout = w.timeout := rfl
@[simp] theorem advance_fetches (m : Mask) : (w.advance m).fetches = w.fetches := rfl
@[simp] theorem advance_queued (m : Mask) : (w.advance m).queued = w.queued := rfl
@[simp] theorem advance_ran (m : Mask) : (w.advance m).ran = w.ran := rfl
@[simp] theorem advance_evicted (m : Mask) : (w.advance m).evicted = w.evicted := rfl
@[simp] theorem advance_leaving (m : Mask) : (w.advance m).leaving = w.leaving := rfl
@[simp] theorem advance_screeNames (m : Mask) : (w.advance m).screeNames = w.screeNames := rfl
@[simp] theorem advance_noWatch (m : Mask) : (w.advance m).noWatch = w.noWatch := rfl
@[simp] theorem advance_buffered (m : Mask) : (w.advance m).buffered = w.buffered := rfl

@[simp] theorem setPred_wid (p : Nat) (m v : Mask) : (w.setPred p m v).wid = w.wid := rfl
@[simp] theorem setPred_seq (p : Nat) (m v : Mask) : (w.setPred p m v).seq = w.seq := rfl
@[simp] theorem setPred_ctx (p : Nat) (m v : Mask) : (w.setPred p m v).ctx = w.ctx := rfl
@[simp] theorem setPred_launch (p : Nat) (m v : Mask) : (w.setPred p m v).launch = w.launch := rfl
@[simp] theorem setPred_block (p : Nat) (m v : Mask) : (w.setPred p m v).block = w.block := rfl
@[simp] theorem setPred_number (p : Nat) (m v : Mask) : (w.setPred p m v).number = w.number := rfl
@[simp] theorem setPred_live (p : Nat) (m v : Mask) : (w.setPred p m v).live = w.live := rfl
@[simp] theorem setPred_pcs (p : Nat) (m v : Mask) : (w.setPred p m v).pcs = w.pcs := rfl
@[simp] theorem setPred_arrivals (p : Nat) (m v : Mask) : (w.setPred p m v).arrivals = w.arrivals := rfl
@[simp] theorem setPred_names (p : Nat) (m v : Mask) : (w.setPred p m v).names = w.names := rfl
@[simp] theorem setPred_kregs (p : Nat) (m v : Mask) : (w.setPred p m v).kregs = w.kregs := rfl
@[simp] theorem setPred_aflags (p : Nat) (m v : Mask) : (w.setPred p m v).aflags = w.aflags := rfl
@[simp] theorem setPred_mrow (p : Nat) (m v : Mask) : (w.setPred p m v).mrow = w.mrow := rfl
@[simp] theorem setPred_mflags (p : Nat) (m v : Mask) : (w.setPred p m v).mflags = w.mflags := rfl
@[simp] theorem setPred_unread (p : Nat) (m v : Mask) : (w.setPred p m v).unread = w.unread := rfl
@[simp] theorem setPred_loads (p : Nat) (m v : Mask) : (w.setPred p m v).loads = w.loads := rfl
@[simp] theorem setPred_stores (p : Nat) (m v : Mask) : (w.setPred p m v).stores = w.stores := rfl
@[simp] theorem setPred_copies (p : Nat) (m v : Mask) : (w.setPred p m v).copies = w.copies := rfl
@[simp] theorem setPred_tiles (p : Nat) (m v : Mask) : (w.setPred p m v).tiles = w.tiles := rfl
@[simp] theorem setPred_log (p : Nat) (m v : Mask) : (w.setPred p m v).log = w.log := rfl
@[simp] theorem setPred_logseq (p : Nat) (m v : Mask) : (w.setPred p m v).logseq = w.logseq := rfl
@[simp] theorem setPred_accs (p : Nat) (m v : Mask) : (w.setPred p m v).accs = w.accs := rfl
@[simp] theorem setPred_accseq (p : Nat) (m v : Mask) : (w.setPred p m v).accseq = w.accseq := rfl
@[simp] theorem setPred_waits (p : Nat) (m v : Mask) : (w.setPred p m v).waits = w.waits := rfl
@[simp] theorem setPred_traps (p : Nat) (m v : Mask) : (w.setPred p m v).traps = w.traps := rfl
@[simp] theorem setPred_lastphase (p : Nat) (m v : Mask) : (w.setPred p m v).lastphase = w.lastphase := rfl
@[simp] theorem setPred_halted (p : Nat) (m v : Mask) : (w.setPred p m v).halted = w.halted := rfl
@[simp] theorem setPred_stall (p : Nat) (m v : Mask) : (w.setPred p m v).stall = w.stall := rfl
@[simp] theorem setPred_timeout (p : Nat) (m v : Mask) : (w.setPred p m v).timeout = w.timeout := rfl
@[simp] theorem setPred_fetches (p : Nat) (m v : Mask) : (w.setPred p m v).fetches = w.fetches := rfl
@[simp] theorem setPred_queued (p : Nat) (m v : Mask) : (w.setPred p m v).queued = w.queued := rfl
@[simp] theorem setPred_ran (p : Nat) (m v : Mask) : (w.setPred p m v).ran = w.ran := rfl
@[simp] theorem setPred_evicted (p : Nat) (m v : Mask) : (w.setPred p m v).evicted = w.evicted := rfl
@[simp] theorem setPred_leaving (p : Nat) (m v : Mask) : (w.setPred p m v).leaving = w.leaving := rfl
@[simp] theorem setPred_screeNames (p : Nat) (m v : Mask) : (w.setPred p m v).screeNames = w.screeNames := rfl
@[simp] theorem setPred_noWatch (p : Nat) (m v : Mask) : (w.setPred p m v).noWatch = w.noWatch := rfl
@[simp] theorem setPred_buffered (p : Nat) (m v : Mask) : (w.setPred p m v).buffered = w.buffered := rfl

@[simp] theorem sweep_wid  : (w.sweep).wid = w.wid := rfl
@[simp] theorem sweep_seq  : (w.sweep).seq = w.seq := rfl
@[simp] theorem sweep_ctx  : (w.sweep).ctx = w.ctx := rfl
@[simp] theorem sweep_launch  : (w.sweep).launch = w.launch := rfl
@[simp] theorem sweep_block  : (w.sweep).block = w.block := rfl
@[simp] theorem sweep_number  : (w.sweep).number = w.number := rfl
@[simp] theorem sweep_live  : (w.sweep).live = w.live := rfl
@[simp] theorem sweep_pcs  : (w.sweep).pcs = w.pcs := rfl
@[simp] theorem sweep_arrivals  : (w.sweep).arrivals = w.arrivals := rfl
@[simp] theorem sweep_preds  : (w.sweep).preds = w.preds := rfl
@[simp] theorem sweep_kregs  : (w.sweep).kregs = w.kregs := rfl
@[simp] theorem sweep_aflags  : (w.sweep).aflags = w.aflags := rfl
@[simp] theorem sweep_mrow  : (w.sweep).mrow = w.mrow := rfl
@[simp] theorem sweep_mflags  : (w.sweep).mflags = w.mflags := rfl
@[simp] theorem sweep_unread  : (w.sweep).unread = w.unread := rfl
@[simp] theorem sweep_loads  : (w.sweep).loads = w.loads := rfl
@[simp] theorem sweep_stores  : (w.sweep).stores = w.stores := rfl
@[simp] theorem sweep_copies  : (w.sweep).copies = w.copies := rfl
@[simp] theorem sweep_tiles  : (w.sweep).tiles = w.tiles := rfl
@[simp] theorem sweep_log  : (w.sweep).log = w.log := rfl
@[simp] theorem sweep_logseq  : (w.sweep).logseq = w.logseq := rfl
@[simp] theorem sweep_accs  : (w.sweep).accs = w.accs := rfl
@[simp] theorem sweep_accseq  : (w.sweep).accseq = w.accseq := rfl
@[simp] theorem sweep_waits  : (w.sweep).waits = w.waits := rfl
@[simp] theorem sweep_traps  : (w.sweep).traps = w.traps := rfl
@[simp] theorem sweep_lastphase  : (w.sweep).lastphase = w.lastphase := rfl
@[simp] theorem sweep_halted  : (w.sweep).halted = w.halted := rfl
@[simp] theorem sweep_stall  : (w.sweep).stall = w.stall := rfl
@[simp] theorem sweep_timeout  : (w.sweep).timeout = w.timeout := rfl
@[simp] theorem sweep_fetches  : (w.sweep).fetches = w.fetches := rfl
@[simp] theorem sweep_queued  : (w.sweep).queued = w.queued := rfl
@[simp] theorem sweep_ran  : (w.sweep).ran = w.ran := rfl
@[simp] theorem sweep_evicted  : (w.sweep).evicted = w.evicted := rfl
@[simp] theorem sweep_leaving  : (w.sweep).leaving = w.leaving := rfl
@[simp] theorem sweep_screeNames  : (w.sweep).screeNames = w.screeNames := rfl
@[simp] theorem sweep_noWatch  : (w.sweep).noWatch = w.noWatch := rfl
@[simp] theorem sweep_buffered  : (w.sweep).buffered = w.buffered := rfl

@[simp] theorem modName_wid (n : Nat) (f : NameCell → NameCell) : (w.modName n f).wid = w.wid := rfl
@[simp] theorem modName_seq (n : Nat) (f : NameCell → NameCell) : (w.modName n f).seq = w.seq := rfl
@[simp] theorem modName_ctx (n : Nat) (f : NameCell → NameCell) : (w.modName n f).ctx = w.ctx := rfl
@[simp] theorem modName_launch (n : Nat) (f : NameCell → NameCell) : (w.modName n f).launch = w.launch := rfl
@[simp] theorem modName_block (n : Nat) (f : NameCell → NameCell) : (w.modName n f).block = w.block := rfl
@[simp] theorem modName_number (n : Nat) (f : NameCell → NameCell) : (w.modName n f).number = w.number := rfl
@[simp] theorem modName_live (n : Nat) (f : NameCell → NameCell) : (w.modName n f).live = w.live := rfl
@[simp] theorem modName_pcs (n : Nat) (f : NameCell → NameCell) : (w.modName n f).pcs = w.pcs := rfl
@[simp] theorem modName_arrivals (n : Nat) (f : NameCell → NameCell) : (w.modName n f).arrivals = w.arrivals := rfl
@[simp] theorem modName_preds (n : Nat) (f : NameCell → NameCell) : (w.modName n f).preds = w.preds := rfl
@[simp] theorem modName_kregs (n : Nat) (f : NameCell → NameCell) : (w.modName n f).kregs = w.kregs := rfl
@[simp] theorem modName_aflags (n : Nat) (f : NameCell → NameCell) : (w.modName n f).aflags = w.aflags := rfl
@[simp] theorem modName_mrow (n : Nat) (f : NameCell → NameCell) : (w.modName n f).mrow = w.mrow := rfl
@[simp] theorem modName_mflags (n : Nat) (f : NameCell → NameCell) : (w.modName n f).mflags = w.mflags := rfl
@[simp] theorem modName_unread (n : Nat) (f : NameCell → NameCell) : (w.modName n f).unread = w.unread := rfl
@[simp] theorem modName_loads (n : Nat) (f : NameCell → NameCell) : (w.modName n f).loads = w.loads := rfl
@[simp] theorem modName_stores (n : Nat) (f : NameCell → NameCell) : (w.modName n f).stores = w.stores := rfl
@[simp] theorem modName_copies (n : Nat) (f : NameCell → NameCell) : (w.modName n f).copies = w.copies := rfl
@[simp] theorem modName_tiles (n : Nat) (f : NameCell → NameCell) : (w.modName n f).tiles = w.tiles := rfl
@[simp] theorem modName_log (n : Nat) (f : NameCell → NameCell) : (w.modName n f).log = w.log := rfl
@[simp] theorem modName_logseq (n : Nat) (f : NameCell → NameCell) : (w.modName n f).logseq = w.logseq := rfl
@[simp] theorem modName_accs (n : Nat) (f : NameCell → NameCell) : (w.modName n f).accs = w.accs := rfl
@[simp] theorem modName_accseq (n : Nat) (f : NameCell → NameCell) : (w.modName n f).accseq = w.accseq := rfl
@[simp] theorem modName_waits (n : Nat) (f : NameCell → NameCell) : (w.modName n f).waits = w.waits := rfl
@[simp] theorem modName_traps (n : Nat) (f : NameCell → NameCell) : (w.modName n f).traps = w.traps := rfl
@[simp] theorem modName_lastphase (n : Nat) (f : NameCell → NameCell) : (w.modName n f).lastphase = w.lastphase := rfl
@[simp] theorem modName_halted (n : Nat) (f : NameCell → NameCell) : (w.modName n f).halted = w.halted := rfl
@[simp] theorem modName_stall (n : Nat) (f : NameCell → NameCell) : (w.modName n f).stall = w.stall := rfl
@[simp] theorem modName_timeout (n : Nat) (f : NameCell → NameCell) : (w.modName n f).timeout = w.timeout := rfl
@[simp] theorem modName_fetches (n : Nat) (f : NameCell → NameCell) : (w.modName n f).fetches = w.fetches := rfl
@[simp] theorem modName_queued (n : Nat) (f : NameCell → NameCell) : (w.modName n f).queued = w.queued := rfl
@[simp] theorem modName_ran (n : Nat) (f : NameCell → NameCell) : (w.modName n f).ran = w.ran := rfl
@[simp] theorem modName_evicted (n : Nat) (f : NameCell → NameCell) : (w.modName n f).evicted = w.evicted := rfl
@[simp] theorem modName_leaving (n : Nat) (f : NameCell → NameCell) : (w.modName n f).leaving = w.leaving := rfl
@[simp] theorem modName_screeNames (n : Nat) (f : NameCell → NameCell) : (w.modName n f).screeNames = w.screeNames := rfl
@[simp] theorem modName_noWatch (n : Nat) (f : NameCell → NameCell) : (w.modName n f).noWatch = w.noWatch := rfl
@[simp] theorem modName_buffered (n : Nat) (f : NameCell → NameCell) : (w.modName n f).buffered = w.buffered := rfl

@[simp] theorem takeReads_wid (m : Mask) (r : List Nat) : (w.takeReads m r).wid = w.wid := rfl
@[simp] theorem takeReads_seq (m : Mask) (r : List Nat) : (w.takeReads m r).seq = w.seq := rfl
@[simp] theorem takeReads_ctx (m : Mask) (r : List Nat) : (w.takeReads m r).ctx = w.ctx := rfl
@[simp] theorem takeReads_launch (m : Mask) (r : List Nat) : (w.takeReads m r).launch = w.launch := rfl
@[simp] theorem takeReads_block (m : Mask) (r : List Nat) : (w.takeReads m r).block = w.block := rfl
@[simp] theorem takeReads_number (m : Mask) (r : List Nat) : (w.takeReads m r).number = w.number := rfl
@[simp] theorem takeReads_live (m : Mask) (r : List Nat) : (w.takeReads m r).live = w.live := rfl
@[simp] theorem takeReads_pcs (m : Mask) (r : List Nat) : (w.takeReads m r).pcs = w.pcs := rfl
@[simp] theorem takeReads_arrivals (m : Mask) (r : List Nat) : (w.takeReads m r).arrivals = w.arrivals := rfl
@[simp] theorem takeReads_preds (m : Mask) (r : List Nat) : (w.takeReads m r).preds = w.preds := rfl
@[simp] theorem takeReads_kregs (m : Mask) (r : List Nat) : (w.takeReads m r).kregs = w.kregs := rfl
@[simp] theorem takeReads_aflags (m : Mask) (r : List Nat) : (w.takeReads m r).aflags = w.aflags := rfl
@[simp] theorem takeReads_mrow (m : Mask) (r : List Nat) : (w.takeReads m r).mrow = w.mrow := rfl
@[simp] theorem takeReads_mflags (m : Mask) (r : List Nat) : (w.takeReads m r).mflags = w.mflags := rfl
@[simp] theorem takeReads_unread (m : Mask) (r : List Nat) : (w.takeReads m r).unread = w.unread := rfl
@[simp] theorem takeReads_loads (m : Mask) (r : List Nat) : (w.takeReads m r).loads = w.loads := rfl
@[simp] theorem takeReads_stores (m : Mask) (r : List Nat) : (w.takeReads m r).stores = w.stores := rfl
@[simp] theorem takeReads_copies (m : Mask) (r : List Nat) : (w.takeReads m r).copies = w.copies := rfl
@[simp] theorem takeReads_tiles (m : Mask) (r : List Nat) : (w.takeReads m r).tiles = w.tiles := rfl
@[simp] theorem takeReads_log (m : Mask) (r : List Nat) : (w.takeReads m r).log = w.log := rfl
@[simp] theorem takeReads_logseq (m : Mask) (r : List Nat) : (w.takeReads m r).logseq = w.logseq := rfl
@[simp] theorem takeReads_accs (m : Mask) (r : List Nat) : (w.takeReads m r).accs = w.accs := rfl
@[simp] theorem takeReads_accseq (m : Mask) (r : List Nat) : (w.takeReads m r).accseq = w.accseq := rfl
@[simp] theorem takeReads_waits (m : Mask) (r : List Nat) : (w.takeReads m r).waits = w.waits := rfl
@[simp] theorem takeReads_traps (m : Mask) (r : List Nat) : (w.takeReads m r).traps = w.traps := rfl
@[simp] theorem takeReads_lastphase (m : Mask) (r : List Nat) : (w.takeReads m r).lastphase = w.lastphase := rfl
@[simp] theorem takeReads_halted (m : Mask) (r : List Nat) : (w.takeReads m r).halted = w.halted := rfl
@[simp] theorem takeReads_stall (m : Mask) (r : List Nat) : (w.takeReads m r).stall = w.stall := rfl
@[simp] theorem takeReads_timeout (m : Mask) (r : List Nat) : (w.takeReads m r).timeout = w.timeout := rfl
@[simp] theorem takeReads_fetches (m : Mask) (r : List Nat) : (w.takeReads m r).fetches = w.fetches := rfl
@[simp] theorem takeReads_queued (m : Mask) (r : List Nat) : (w.takeReads m r).queued = w.queued := rfl
@[simp] theorem takeReads_ran (m : Mask) (r : List Nat) : (w.takeReads m r).ran = w.ran := rfl
@[simp] theorem takeReads_evicted (m : Mask) (r : List Nat) : (w.takeReads m r).evicted = w.evicted := rfl
@[simp] theorem takeReads_leaving (m : Mask) (r : List Nat) : (w.takeReads m r).leaving = w.leaving := rfl
@[simp] theorem takeReads_screeNames (m : Mask) (r : List Nat) : (w.takeReads m r).screeNames = w.screeNames := rfl
@[simp] theorem takeReads_noWatch (m : Mask) (r : List Nat) : (w.takeReads m r).noWatch = w.noWatch := rfl
@[simp] theorem takeReads_buffered (m : Mask) (r : List Nat) : (w.takeReads m r).buffered = w.buffered := rfl

@[simp] theorem writeName_wid (n : Nat) (c : BitVec 3) (m : Mask) (v : Nat → Word) : (w.writeName n c m v).wid = w.wid := by
  simp only [Warp.writeName]; repeat (split <;> try rfl)
@[simp] theorem writeName_seq (n : Nat) (c : BitVec 3) (m : Mask) (v : Nat → Word) : (w.writeName n c m v).seq = w.seq := by
  simp only [Warp.writeName]; repeat (split <;> try rfl)
@[simp] theorem writeName_ctx (n : Nat) (c : BitVec 3) (m : Mask) (v : Nat → Word) : (w.writeName n c m v).ctx = w.ctx := by
  simp only [Warp.writeName]; repeat (split <;> try rfl)
@[simp] theorem writeName_launch (n : Nat) (c : BitVec 3) (m : Mask) (v : Nat → Word) : (w.writeName n c m v).launch = w.launch := by
  simp only [Warp.writeName]; repeat (split <;> try rfl)
@[simp] theorem writeName_block (n : Nat) (c : BitVec 3) (m : Mask) (v : Nat → Word) : (w.writeName n c m v).block = w.block := by
  simp only [Warp.writeName]; repeat (split <;> try rfl)
@[simp] theorem writeName_number (n : Nat) (c : BitVec 3) (m : Mask) (v : Nat → Word) : (w.writeName n c m v).number = w.number := by
  simp only [Warp.writeName]; repeat (split <;> try rfl)
@[simp] theorem writeName_live (n : Nat) (c : BitVec 3) (m : Mask) (v : Nat → Word) : (w.writeName n c m v).live = w.live := by
  simp only [Warp.writeName]; repeat (split <;> try rfl)
@[simp] theorem writeName_pcs (n : Nat) (c : BitVec 3) (m : Mask) (v : Nat → Word) : (w.writeName n c m v).pcs = w.pcs := by
  simp only [Warp.writeName]; repeat (split <;> try rfl)
@[simp] theorem writeName_arrivals (n : Nat) (c : BitVec 3) (m : Mask) (v : Nat → Word) : (w.writeName n c m v).arrivals = w.arrivals := by
  simp only [Warp.writeName]; repeat (split <;> try rfl)
@[simp] theorem writeName_preds (n : Nat) (c : BitVec 3) (m : Mask) (v : Nat → Word) : (w.writeName n c m v).preds = w.preds := by
  simp only [Warp.writeName]; repeat (split <;> try rfl)
@[simp] theorem writeName_aflags (n : Nat) (c : BitVec 3) (m : Mask) (v : Nat → Word) : (w.writeName n c m v).aflags = w.aflags := by
  simp only [Warp.writeName]; repeat (split <;> try rfl)
@[simp] theorem writeName_mrow (n : Nat) (c : BitVec 3) (m : Mask) (v : Nat → Word) : (w.writeName n c m v).mrow = w.mrow := by
  simp only [Warp.writeName]; repeat (split <;> try rfl)
@[simp] theorem writeName_mflags (n : Nat) (c : BitVec 3) (m : Mask) (v : Nat → Word) : (w.writeName n c m v).mflags = w.mflags := by
  simp only [Warp.writeName]; repeat (split <;> try rfl)
@[simp] theorem writeName_unread (n : Nat) (c : BitVec 3) (m : Mask) (v : Nat → Word) : (w.writeName n c m v).unread = w.unread := by
  simp only [Warp.writeName]; repeat (split <;> try rfl)
@[simp] theorem writeName_loads (n : Nat) (c : BitVec 3) (m : Mask) (v : Nat → Word) : (w.writeName n c m v).loads = w.loads := by
  simp only [Warp.writeName]; repeat (split <;> try rfl)
@[simp] theorem writeName_stores (n : Nat) (c : BitVec 3) (m : Mask) (v : Nat → Word) : (w.writeName n c m v).stores = w.stores := by
  simp only [Warp.writeName]; repeat (split <;> try rfl)
@[simp] theorem writeName_copies (n : Nat) (c : BitVec 3) (m : Mask) (v : Nat → Word) : (w.writeName n c m v).copies = w.copies := by
  simp only [Warp.writeName]; repeat (split <;> try rfl)
@[simp] theorem writeName_tiles (n : Nat) (c : BitVec 3) (m : Mask) (v : Nat → Word) : (w.writeName n c m v).tiles = w.tiles := by
  simp only [Warp.writeName]; repeat (split <;> try rfl)
@[simp] theorem writeName_log (n : Nat) (c : BitVec 3) (m : Mask) (v : Nat → Word) : (w.writeName n c m v).log = w.log := by
  simp only [Warp.writeName]; repeat (split <;> try rfl)
@[simp] theorem writeName_logseq (n : Nat) (c : BitVec 3) (m : Mask) (v : Nat → Word) : (w.writeName n c m v).logseq = w.logseq := by
  simp only [Warp.writeName]; repeat (split <;> try rfl)
@[simp] theorem writeName_accs (n : Nat) (c : BitVec 3) (m : Mask) (v : Nat → Word) : (w.writeName n c m v).accs = w.accs := by
  simp only [Warp.writeName]; repeat (split <;> try rfl)
@[simp] theorem writeName_accseq (n : Nat) (c : BitVec 3) (m : Mask) (v : Nat → Word) : (w.writeName n c m v).accseq = w.accseq := by
  simp only [Warp.writeName]; repeat (split <;> try rfl)
@[simp] theorem writeName_waits (n : Nat) (c : BitVec 3) (m : Mask) (v : Nat → Word) : (w.writeName n c m v).waits = w.waits := by
  simp only [Warp.writeName]; repeat (split <;> try rfl)
@[simp] theorem writeName_traps (n : Nat) (c : BitVec 3) (m : Mask) (v : Nat → Word) : (w.writeName n c m v).traps = w.traps := by
  simp only [Warp.writeName]; repeat (split <;> try rfl)
@[simp] theorem writeName_lastphase (n : Nat) (c : BitVec 3) (m : Mask) (v : Nat → Word) : (w.writeName n c m v).lastphase = w.lastphase := by
  simp only [Warp.writeName]; repeat (split <;> try rfl)
@[simp] theorem writeName_halted (n : Nat) (c : BitVec 3) (m : Mask) (v : Nat → Word) : (w.writeName n c m v).halted = w.halted := by
  simp only [Warp.writeName]; repeat (split <;> try rfl)
@[simp] theorem writeName_stall (n : Nat) (c : BitVec 3) (m : Mask) (v : Nat → Word) : (w.writeName n c m v).stall = w.stall := by
  simp only [Warp.writeName]; repeat (split <;> try rfl)
@[simp] theorem writeName_timeout (n : Nat) (c : BitVec 3) (m : Mask) (v : Nat → Word) : (w.writeName n c m v).timeout = w.timeout := by
  simp only [Warp.writeName]; repeat (split <;> try rfl)
@[simp] theorem writeName_fetches (n : Nat) (c : BitVec 3) (m : Mask) (v : Nat → Word) : (w.writeName n c m v).fetches = w.fetches := by
  simp only [Warp.writeName]; repeat (split <;> try rfl)
@[simp] theorem writeName_queued (n : Nat) (c : BitVec 3) (m : Mask) (v : Nat → Word) : (w.writeName n c m v).queued = w.queued := by
  simp only [Warp.writeName]; repeat (split <;> try rfl)
@[simp] theorem writeName_ran (n : Nat) (c : BitVec 3) (m : Mask) (v : Nat → Word) : (w.writeName n c m v).ran = w.ran := by
  simp only [Warp.writeName]; repeat (split <;> try rfl)
@[simp] theorem writeName_evicted (n : Nat) (c : BitVec 3) (m : Mask) (v : Nat → Word) : (w.writeName n c m v).evicted = w.evicted := by
  simp only [Warp.writeName]; repeat (split <;> try rfl)
@[simp] theorem writeName_leaving (n : Nat) (c : BitVec 3) (m : Mask) (v : Nat → Word) : (w.writeName n c m v).leaving = w.leaving := by
  simp only [Warp.writeName]; repeat (split <;> try rfl)
@[simp] theorem writeName_screeNames (n : Nat) (c : BitVec 3) (m : Mask) (v : Nat → Word) : (w.writeName n c m v).screeNames = w.screeNames := by
  simp only [Warp.writeName]; repeat (split <;> try rfl)
@[simp] theorem writeName_noWatch (n : Nat) (c : BitVec 3) (m : Mask) (v : Nat → Word) : (w.writeName n c m v).noWatch = w.noWatch := by
  simp only [Warp.writeName]; repeat (split <;> try rfl)
@[simp] theorem writeName_buffered (n : Nat) (c : BitVec 3) (m : Mask) (v : Nat → Word) : (w.writeName n c m v).buffered = w.buffered := by
  simp only [Warp.writeName]; repeat (split <;> try rfl)

@[simp] theorem wakeZero_wid  : (w.wakeZero).wid = w.wid := by simp only [Warp.wakeZero]; split <;> rfl
@[simp] theorem wakeZero_seq  : (w.wakeZero).seq = w.seq := by simp only [Warp.wakeZero]; split <;> rfl
@[simp] theorem wakeZero_ctx  : (w.wakeZero).ctx = w.ctx := by simp only [Warp.wakeZero]; split <;> rfl
@[simp] theorem wakeZero_launch  : (w.wakeZero).launch = w.launch := by simp only [Warp.wakeZero]; split <;> rfl
@[simp] theorem wakeZero_block  : (w.wakeZero).block = w.block := by simp only [Warp.wakeZero]; split <;> rfl
@[simp] theorem wakeZero_number  : (w.wakeZero).number = w.number := by simp only [Warp.wakeZero]; split <;> rfl
@[simp] theorem wakeZero_live  : (w.wakeZero).live = w.live := by simp only [Warp.wakeZero]; split <;> rfl
@[simp] theorem wakeZero_arrivals  : (w.wakeZero).arrivals = w.arrivals := by simp only [Warp.wakeZero]; split <;> rfl
@[simp] theorem wakeZero_preds  : (w.wakeZero).preds = w.preds := by simp only [Warp.wakeZero]; split <;> rfl
@[simp] theorem wakeZero_names  : (w.wakeZero).names = w.names := by simp only [Warp.wakeZero]; split <;> rfl
@[simp] theorem wakeZero_kregs  : (w.wakeZero).kregs = w.kregs := by simp only [Warp.wakeZero]; split <;> rfl
@[simp] theorem wakeZero_aflags  : (w.wakeZero).aflags = w.aflags := by simp only [Warp.wakeZero]; split <;> rfl
@[simp] theorem wakeZero_mrow  : (w.wakeZero).mrow = w.mrow := by simp only [Warp.wakeZero]; split <;> rfl
@[simp] theorem wakeZero_mflags  : (w.wakeZero).mflags = w.mflags := by simp only [Warp.wakeZero]; split <;> rfl
@[simp] theorem wakeZero_unread  : (w.wakeZero).unread = w.unread := by simp only [Warp.wakeZero]; split <;> rfl
@[simp] theorem wakeZero_loads  : (w.wakeZero).loads = w.loads := by simp only [Warp.wakeZero]; split <;> rfl
@[simp] theorem wakeZero_stores  : (w.wakeZero).stores = w.stores := by simp only [Warp.wakeZero]; split <;> rfl
@[simp] theorem wakeZero_copies  : (w.wakeZero).copies = w.copies := by simp only [Warp.wakeZero]; split <;> rfl
@[simp] theorem wakeZero_tiles  : (w.wakeZero).tiles = w.tiles := by simp only [Warp.wakeZero]; split <;> rfl
@[simp] theorem wakeZero_log  : (w.wakeZero).log = w.log := by simp only [Warp.wakeZero]; split <;> rfl
@[simp] theorem wakeZero_logseq  : (w.wakeZero).logseq = w.logseq := by simp only [Warp.wakeZero]; split <;> rfl
@[simp] theorem wakeZero_accs  : (w.wakeZero).accs = w.accs := by simp only [Warp.wakeZero]; split <;> rfl
@[simp] theorem wakeZero_accseq  : (w.wakeZero).accseq = w.accseq := by simp only [Warp.wakeZero]; split <;> rfl
@[simp] theorem wakeZero_traps  : (w.wakeZero).traps = w.traps := by simp only [Warp.wakeZero]; split <;> rfl
@[simp] theorem wakeZero_lastphase  : (w.wakeZero).lastphase = w.lastphase := by simp only [Warp.wakeZero]; split <;> rfl
@[simp] theorem wakeZero_halted  : (w.wakeZero).halted = w.halted := by simp only [Warp.wakeZero]; split <;> rfl
@[simp] theorem wakeZero_stall  : (w.wakeZero).stall = w.stall := by simp only [Warp.wakeZero]; split <;> rfl
@[simp] theorem wakeZero_timeout  : (w.wakeZero).timeout = w.timeout := by simp only [Warp.wakeZero]; split <;> rfl
@[simp] theorem wakeZero_fetches  : (w.wakeZero).fetches = w.fetches := by simp only [Warp.wakeZero]; split <;> rfl
@[simp] theorem wakeZero_queued  : (w.wakeZero).queued = w.queued := by simp only [Warp.wakeZero]; split <;> rfl
@[simp] theorem wakeZero_ran  : (w.wakeZero).ran = w.ran := by simp only [Warp.wakeZero]; split <;> rfl
@[simp] theorem wakeZero_evicted  : (w.wakeZero).evicted = w.evicted := by simp only [Warp.wakeZero]; split <;> rfl
@[simp] theorem wakeZero_leaving  : (w.wakeZero).leaving = w.leaving := by simp only [Warp.wakeZero]; split <;> rfl
@[simp] theorem wakeZero_screeNames  : (w.wakeZero).screeNames = w.screeNames := by simp only [Warp.wakeZero]; split <;> rfl
@[simp] theorem wakeZero_noWatch  : (w.wakeZero).noWatch = w.noWatch := by simp only [Warp.wakeZero]; split <;> rfl
@[simp] theorem wakeZero_buffered  : (w.wakeZero).buffered = w.buffered := by simp only [Warp.wakeZero]; split <;> rfl

@[simp] theorem writeNames_wid (c : BitVec 3) (m : Mask) (v : Nat → List Word) (ds : List Nat) (j : Nat) :
    (w.writeNames c m v ds j).wid = w.wid := by
  induction ds generalizing w j with
  | nil => rfl
  | cons d ds ih => simp [Warp.writeNames, ih]
@[simp] theorem writeNames_seq (c : BitVec 3) (m : Mask) (v : Nat → List Word) (ds : List Nat) (j : Nat) :
    (w.writeNames c m v ds j).seq = w.seq := by
  induction ds generalizing w j with
  | nil => rfl
  | cons d ds ih => simp [Warp.writeNames, ih]
@[simp] theorem writeNames_ctx (c : BitVec 3) (m : Mask) (v : Nat → List Word) (ds : List Nat) (j : Nat) :
    (w.writeNames c m v ds j).ctx = w.ctx := by
  induction ds generalizing w j with
  | nil => rfl
  | cons d ds ih => simp [Warp.writeNames, ih]
@[simp] theorem writeNames_launch (c : BitVec 3) (m : Mask) (v : Nat → List Word) (ds : List Nat) (j : Nat) :
    (w.writeNames c m v ds j).launch = w.launch := by
  induction ds generalizing w j with
  | nil => rfl
  | cons d ds ih => simp [Warp.writeNames, ih]
@[simp] theorem writeNames_block (c : BitVec 3) (m : Mask) (v : Nat → List Word) (ds : List Nat) (j : Nat) :
    (w.writeNames c m v ds j).block = w.block := by
  induction ds generalizing w j with
  | nil => rfl
  | cons d ds ih => simp [Warp.writeNames, ih]
@[simp] theorem writeNames_number (c : BitVec 3) (m : Mask) (v : Nat → List Word) (ds : List Nat) (j : Nat) :
    (w.writeNames c m v ds j).number = w.number := by
  induction ds generalizing w j with
  | nil => rfl
  | cons d ds ih => simp [Warp.writeNames, ih]
@[simp] theorem writeNames_live (c : BitVec 3) (m : Mask) (v : Nat → List Word) (ds : List Nat) (j : Nat) :
    (w.writeNames c m v ds j).live = w.live := by
  induction ds generalizing w j with
  | nil => rfl
  | cons d ds ih => simp [Warp.writeNames, ih]
@[simp] theorem writeNames_pcs (c : BitVec 3) (m : Mask) (v : Nat → List Word) (ds : List Nat) (j : Nat) :
    (w.writeNames c m v ds j).pcs = w.pcs := by
  induction ds generalizing w j with
  | nil => rfl
  | cons d ds ih => simp [Warp.writeNames, ih]
@[simp] theorem writeNames_arrivals (c : BitVec 3) (m : Mask) (v : Nat → List Word) (ds : List Nat) (j : Nat) :
    (w.writeNames c m v ds j).arrivals = w.arrivals := by
  induction ds generalizing w j with
  | nil => rfl
  | cons d ds ih => simp [Warp.writeNames, ih]
@[simp] theorem writeNames_preds (c : BitVec 3) (m : Mask) (v : Nat → List Word) (ds : List Nat) (j : Nat) :
    (w.writeNames c m v ds j).preds = w.preds := by
  induction ds generalizing w j with
  | nil => rfl
  | cons d ds ih => simp [Warp.writeNames, ih]
@[simp] theorem writeNames_aflags (c : BitVec 3) (m : Mask) (v : Nat → List Word) (ds : List Nat) (j : Nat) :
    (w.writeNames c m v ds j).aflags = w.aflags := by
  induction ds generalizing w j with
  | nil => rfl
  | cons d ds ih => simp [Warp.writeNames, ih]
@[simp] theorem writeNames_mrow (c : BitVec 3) (m : Mask) (v : Nat → List Word) (ds : List Nat) (j : Nat) :
    (w.writeNames c m v ds j).mrow = w.mrow := by
  induction ds generalizing w j with
  | nil => rfl
  | cons d ds ih => simp [Warp.writeNames, ih]
@[simp] theorem writeNames_mflags (c : BitVec 3) (m : Mask) (v : Nat → List Word) (ds : List Nat) (j : Nat) :
    (w.writeNames c m v ds j).mflags = w.mflags := by
  induction ds generalizing w j with
  | nil => rfl
  | cons d ds ih => simp [Warp.writeNames, ih]
@[simp] theorem writeNames_unread (c : BitVec 3) (m : Mask) (v : Nat → List Word) (ds : List Nat) (j : Nat) :
    (w.writeNames c m v ds j).unread = w.unread := by
  induction ds generalizing w j with
  | nil => rfl
  | cons d ds ih => simp [Warp.writeNames, ih]
@[simp] theorem writeNames_loads (c : BitVec 3) (m : Mask) (v : Nat → List Word) (ds : List Nat) (j : Nat) :
    (w.writeNames c m v ds j).loads = w.loads := by
  induction ds generalizing w j with
  | nil => rfl
  | cons d ds ih => simp [Warp.writeNames, ih]
@[simp] theorem writeNames_stores (c : BitVec 3) (m : Mask) (v : Nat → List Word) (ds : List Nat) (j : Nat) :
    (w.writeNames c m v ds j).stores = w.stores := by
  induction ds generalizing w j with
  | nil => rfl
  | cons d ds ih => simp [Warp.writeNames, ih]
@[simp] theorem writeNames_copies (c : BitVec 3) (m : Mask) (v : Nat → List Word) (ds : List Nat) (j : Nat) :
    (w.writeNames c m v ds j).copies = w.copies := by
  induction ds generalizing w j with
  | nil => rfl
  | cons d ds ih => simp [Warp.writeNames, ih]
@[simp] theorem writeNames_tiles (c : BitVec 3) (m : Mask) (v : Nat → List Word) (ds : List Nat) (j : Nat) :
    (w.writeNames c m v ds j).tiles = w.tiles := by
  induction ds generalizing w j with
  | nil => rfl
  | cons d ds ih => simp [Warp.writeNames, ih]
@[simp] theorem writeNames_log (c : BitVec 3) (m : Mask) (v : Nat → List Word) (ds : List Nat) (j : Nat) :
    (w.writeNames c m v ds j).log = w.log := by
  induction ds generalizing w j with
  | nil => rfl
  | cons d ds ih => simp [Warp.writeNames, ih]
@[simp] theorem writeNames_logseq (c : BitVec 3) (m : Mask) (v : Nat → List Word) (ds : List Nat) (j : Nat) :
    (w.writeNames c m v ds j).logseq = w.logseq := by
  induction ds generalizing w j with
  | nil => rfl
  | cons d ds ih => simp [Warp.writeNames, ih]
@[simp] theorem writeNames_accs (c : BitVec 3) (m : Mask) (v : Nat → List Word) (ds : List Nat) (j : Nat) :
    (w.writeNames c m v ds j).accs = w.accs := by
  induction ds generalizing w j with
  | nil => rfl
  | cons d ds ih => simp [Warp.writeNames, ih]
@[simp] theorem writeNames_accseq (c : BitVec 3) (m : Mask) (v : Nat → List Word) (ds : List Nat) (j : Nat) :
    (w.writeNames c m v ds j).accseq = w.accseq := by
  induction ds generalizing w j with
  | nil => rfl
  | cons d ds ih => simp [Warp.writeNames, ih]
@[simp] theorem writeNames_waits (c : BitVec 3) (m : Mask) (v : Nat → List Word) (ds : List Nat) (j : Nat) :
    (w.writeNames c m v ds j).waits = w.waits := by
  induction ds generalizing w j with
  | nil => rfl
  | cons d ds ih => simp [Warp.writeNames, ih]
@[simp] theorem writeNames_traps (c : BitVec 3) (m : Mask) (v : Nat → List Word) (ds : List Nat) (j : Nat) :
    (w.writeNames c m v ds j).traps = w.traps := by
  induction ds generalizing w j with
  | nil => rfl
  | cons d ds ih => simp [Warp.writeNames, ih]
@[simp] theorem writeNames_lastphase (c : BitVec 3) (m : Mask) (v : Nat → List Word) (ds : List Nat) (j : Nat) :
    (w.writeNames c m v ds j).lastphase = w.lastphase := by
  induction ds generalizing w j with
  | nil => rfl
  | cons d ds ih => simp [Warp.writeNames, ih]
@[simp] theorem writeNames_halted (c : BitVec 3) (m : Mask) (v : Nat → List Word) (ds : List Nat) (j : Nat) :
    (w.writeNames c m v ds j).halted = w.halted := by
  induction ds generalizing w j with
  | nil => rfl
  | cons d ds ih => simp [Warp.writeNames, ih]
@[simp] theorem writeNames_stall (c : BitVec 3) (m : Mask) (v : Nat → List Word) (ds : List Nat) (j : Nat) :
    (w.writeNames c m v ds j).stall = w.stall := by
  induction ds generalizing w j with
  | nil => rfl
  | cons d ds ih => simp [Warp.writeNames, ih]
@[simp] theorem writeNames_timeout (c : BitVec 3) (m : Mask) (v : Nat → List Word) (ds : List Nat) (j : Nat) :
    (w.writeNames c m v ds j).timeout = w.timeout := by
  induction ds generalizing w j with
  | nil => rfl
  | cons d ds ih => simp [Warp.writeNames, ih]
@[simp] theorem writeNames_fetches (c : BitVec 3) (m : Mask) (v : Nat → List Word) (ds : List Nat) (j : Nat) :
    (w.writeNames c m v ds j).fetches = w.fetches := by
  induction ds generalizing w j with
  | nil => rfl
  | cons d ds ih => simp [Warp.writeNames, ih]
@[simp] theorem writeNames_queued (c : BitVec 3) (m : Mask) (v : Nat → List Word) (ds : List Nat) (j : Nat) :
    (w.writeNames c m v ds j).queued = w.queued := by
  induction ds generalizing w j with
  | nil => rfl
  | cons d ds ih => simp [Warp.writeNames, ih]
@[simp] theorem writeNames_ran (c : BitVec 3) (m : Mask) (v : Nat → List Word) (ds : List Nat) (j : Nat) :
    (w.writeNames c m v ds j).ran = w.ran := by
  induction ds generalizing w j with
  | nil => rfl
  | cons d ds ih => simp [Warp.writeNames, ih]
@[simp] theorem writeNames_evicted (c : BitVec 3) (m : Mask) (v : Nat → List Word) (ds : List Nat) (j : Nat) :
    (w.writeNames c m v ds j).evicted = w.evicted := by
  induction ds generalizing w j with
  | nil => rfl
  | cons d ds ih => simp [Warp.writeNames, ih]
@[simp] theorem writeNames_leaving (c : BitVec 3) (m : Mask) (v : Nat → List Word) (ds : List Nat) (j : Nat) :
    (w.writeNames c m v ds j).leaving = w.leaving := by
  induction ds generalizing w j with
  | nil => rfl
  | cons d ds ih => simp [Warp.writeNames, ih]
@[simp] theorem writeNames_screeNames (c : BitVec 3) (m : Mask) (v : Nat → List Word) (ds : List Nat) (j : Nat) :
    (w.writeNames c m v ds j).screeNames = w.screeNames := by
  induction ds generalizing w j with
  | nil => rfl
  | cons d ds ih => simp [Warp.writeNames, ih]
@[simp] theorem writeNames_noWatch (c : BitVec 3) (m : Mask) (v : Nat → List Word) (ds : List Nat) (j : Nat) :
    (w.writeNames c m v ds j).noWatch = w.noWatch := by
  induction ds generalizing w j with
  | nil => rfl
  | cons d ds ih => simp [Warp.writeNames, ih]
@[simp] theorem writeNames_buffered (c : BitVec 3) (m : Mask) (v : Nat → List Word) (ds : List Nat) (j : Nat) :
    (w.writeNames c m v ds j).buffered = w.buffered := by
  induction ds generalizing w j with
  | nil => rfl
  | cons d ds ih => simp [Warp.writeNames, ih]

end Sys2Proof.Machine
end

