-- ==== Sys2Proof/Laws/Memory.lean ====
section
/-! SUPPORT. Memory: every operation keeps the canonical form, a write is read back and leaves every other byte, and the
memories after reset are canonical (14; 00 R372). -/
namespace Sys2Proof.Machine
namespace Memory

theorem above_mono : ∀ {m : Memory} {lo lo' : Nat}, m.above lo = true → lo' ≤ lo → m.above lo' = true
  | [], _, _, _, _ => rfl
  | (a, b) :: m, lo, lo', h, hle => by
    simp only [above, Bool.and_eq_true, decide_eq_true_eq] at h ⊢
    exact ⟨⟨by omega, h.1.2⟩, h.2⟩

/-- Below its lowest address a canonical memory reads zero. -/
theorem read_below : ∀ {m : Memory} {lo x : Nat}, m.above lo = true → x < lo → m.read x = 0
  | [], _, _, _, _ => rfl
  | (a, b) :: m, lo, x, h, hx => by
    simp only [above, Bool.and_eq_true, decide_eq_true_eq] at h
    have : a ≠ x := by omega
    simp only [read, if_neg this]
    exact read_below h.2 (by omega)

theorem above_drop : ∀ {m : Memory} {lo : Nat} (x : Nat), m.above lo = true → (m.drop x).above lo = true
  | [], _, _, _ => rfl
  | (a, b) :: m, lo, x, h => by
    simp only [above, Bool.and_eq_true, decide_eq_true_eq] at h
    simp only [drop]
    split
    · exact above_mono h.2 (by omega)
    · split
      · simp only [above, Bool.and_eq_true, decide_eq_true_eq]; exact h
      · simp only [above, Bool.and_eq_true, decide_eq_true_eq]; exact ⟨h.1, above_drop x h.2⟩

theorem above_insert : ∀ {m : Memory} {lo x : Nat} {v : Byte}, m.above lo = true → lo ≤ x → v ≠ 0 →
    (m.insert x v).above lo = true
  | [], lo, x, v, _, hx, hv => by simpa [insert, above, hx] using hv
  | (a, b) :: m, lo, x, v, h, hx, hv => by
    simp only [above, Bool.and_eq_true, decide_eq_true_eq] at h
    simp only [insert]
    split
    · next hlt =>
      simp only [above, Bool.and_eq_true, decide_eq_true_eq, bne_iff_ne]
      exact ⟨⟨hx, hv⟩, ⟨by omega, by simpa using h.1.2⟩, h.2⟩
    · split
      · next he =>
        subst he
        simp only [above, Bool.and_eq_true, decide_eq_true_eq, bne_iff_ne]
        exact ⟨⟨hx, hv⟩, h.2⟩
      · simp only [above, Bool.and_eq_true, decide_eq_true_eq]
        exact ⟨h.1, above_insert h.2 (by omega) hv⟩

theorem read_drop : ∀ {m : Memory} {lo : Nat} (x y : Nat), m.above lo = true →
    (m.drop x).read y = if x = y then 0 else m.read y
  | [], _, _, _, _ => by simp [drop, read]
  | (a, b) :: m, lo, x, y, h => by
    simp only [above, Bool.and_eq_true, decide_eq_true_eq] at h
    simp only [drop]
    split
    · next he =>
      subst he
      split
      · next hy => subst hy; exact read_below h.2 (by omega)
      · next hy => simp [read, hy]
    · split
      · next hne hlt =>
        split
        · next hy =>
          subst hy
          simp only [read, if_neg hne]
          exact read_below h.2 (by omega)
        · rfl
      · next hne _ =>
        simp only [read, read_drop x y h.2]
        split
        · next ha => subst ha; simp [Ne.symm hne]
        · rfl

theorem read_insert : ∀ {m : Memory} (x y : Nat) (v : Byte), (m.insert x v).read y = if x = y then v else m.read y
  | [], _, _, _ => rfl
  | (a, b) :: m, x, y, v => by
    simp only [insert]
    split
    · rfl
    · split
      · next he => subst he; simp only [read]; split <;> rfl
      · next hne =>
        simp only [read, read_insert x y v]
        split
        · next ha => subst ha; rw [if_neg (Ne.symm hne)]
        · rfl

/-- A write keeps the canonical form. -/
theorem wf_write {m : Memory} (h : m.wf = true) (x : Nat) (v : Byte) : (m.write x v).wf = true := by
  simp only [write]
  split
  · exact above_drop x h
  · next hv => exact above_insert h (Nat.zero_le _) hv

theorem wf_writeN : ∀ (bs : List Byte) {m : Memory} (x : Nat), m.wf = true → (m.writeN x bs).wf = true
  | [], _, _, h => h
  | b :: bs, _, x, h => wf_writeN bs (x + 1) (wf_write h x b)

/-- A byte written is read back, and every other byte is as before. -/
theorem read_write {m : Memory} (h : m.wf = true) (x y : Nat) (v : Byte) :
    (m.write x v).read y = if x = y then v else m.read y := by
  simp only [write]
  split
  · next hv => rw [read_drop x y h, hv]
  · exact read_insert x y v

/-- The bytes of a write are read back, and every other byte is as before. -/
theorem read_writeN : ∀ (bs : List Byte) {m : Memory} (_ : m.wf = true) (x y : Nat),
    (m.writeN x bs).read y = if x ≤ y ∧ y < x + bs.length then bs.getD (y - x) 0 else m.read y
  | [], _, _, x, y => by rw [if_neg (by simp only [List.length_nil]; omega)]; rfl
  | b :: bs, m, h, x, y => by
    rw [writeN, read_writeN bs (wf_write h x b) (x + 1) y, read_write h]
    simp only [List.length_cons]
    by_cases hx : x = y
    · subst hx
      rw [if_neg (by omega), if_pos rfl, if_pos (by omega)]
      simp
    · by_cases hy : x + 1 ≤ y ∧ y < x + 1 + bs.length
      · rw [if_pos hy, if_pos (by omega)]
        obtain ⟨k, hk⟩ : ∃ k, y - x = k + 1 := ⟨y - x - 1, by omega⟩
        rw [hk, show y - (x + 1) = k by omega]
        simp
      · rw [if_neg hy, if_neg hx, if_neg (by omega)]

@[simp] theorem wf_nil : Memory.wf [] = true := rfl

@[simp] theorem read_nil (x : Nat) : Memory.read [] x = 0 := rfl

theorem length_readN (m : Memory) (x : Nat) : ∀ n, (m.readN x n).length = n := by
  intro n
  induction n generalizing x with
  | zero => rfl
  | succ n ih => simp [readN, ih]

/-- The bytes read are those at their addresses. -/
theorem readN_eq (m : Memory) : ∀ (n x : Nat), m.readN x n = (List.range n).map fun i => m.read (x + i)
  | 0, _ => rfl
  | n + 1, x => by
    rw [readN, readN_eq m n (x + 1), List.range_succ_eq_map]
    simp only [List.map_cons, List.map_map, Nat.add_zero]
    congr 1
    apply List.map_congr_left
    intro i _
    simp only [Function.comp, Nat.succ_eq_add_one]
    congr 1
    omega

end Memory

/-- The memories after reset are canonical. -/
theorem reset_wf : State.reset.dev.wf = true ∧ State.reset.dram.wf = true ∧ State.reset.host.wf = true ∧
    State.reset.hostBehind.wf = true ∧ State.reset.spad.wf = true ∧ State.reset.lode.wf = true := ⟨rfl, rfl, rfl, rfl, rfl, rfl⟩

end Sys2Proof.Machine
end

