-- ==== Sys2Proof/Laws/Tab.lean ====
section
/-! SUPPORT. Lookup laws of sparse tables, and the lanes of masks. -/
namespace Sys2Proof

/-! ### Tables -/

namespace Tab

variable {α β : Type} (t : Tab α) (k k' : Nat) (v : α)

@[simp] theorem get?_nil : Tab.get? ([] : Tab α) k = none := rfl

@[simp] theorem get?_cons : Tab.get? ((k', v) :: t) k = if k' = k then some v else Tab.get? t k := rfl

theorem get?_put : (t.put k v).get? k' = if k = k' then some v else t.get? k' := by
  induction t with
  | nil => rfl
  | cons e t ih =>
    obtain ⟨a, x⟩ := e
    simp only [put]
    split
    · simp
    · split
      · next h => subst h; simp only [get?_cons]; split <;> rfl
      · next h =>
        simp only [get?_cons, ih]
        split
        · next h2 => subst h2; simp [Ne.symm h]
        · rfl

@[simp] theorem get?_put_self : (t.put k v).get? k = some v := by simp [get?_put]

theorem get?_put_ne (h : k ≠ k') : (t.put k v).get? k' = t.get? k' := by simp [get?_put, h]

theorem get?_del : (t.del k).get? k' = if k = k' then none else t.get? k' := by
  induction t with
  | nil => simp [del]
  | cons e t ih =>
    obtain ⟨a, x⟩ := e
    simp only [del]
    split
    · next h => subst h; rw [ih]; simp only [get?_cons]; split <;> rfl
    · next h =>
      simp only [get?_cons, ih]
      split
      · next h2 => subst h2; simp [Ne.symm h]
      · rfl

theorem get?_keep (p : α → Bool) : (t.keep p).get? k = (t.get? k).filter p := by
  induction t with
  | nil => rfl
  | cons e t ih =>
    obtain ⟨a, x⟩ := e
    simp only [keep]
    split
    · next h =>
      simp only [get?_cons, ih]
      split
      · next h2 => subst h2; simp [Option.filter, h]
      · rfl
    · next h =>
      rw [get?_del, ih]
      simp only [get?_cons]
      split
      · next h2 => subst h2; simp [Option.filter, h]
      · rfl

theorem get?_mapVals (f : Nat → α → β) :
    Tab.get? (t.map fun c => (c.1, f c.1 c.2)) k = (t.get? k).map (f k) := by
  induction t with
  | nil => rfl
  | cons e t ih =>
    obtain ⟨a, x⟩ := e
    simp only [List.map_cons, get?_cons, ih]
    split
    · next h => subst h; rfl
    · rfl

@[simp] theorem getD_put_self (d : α) : (t.put k v).getD k d = v := by simp [getD]

theorem getD_put (d : α) : (t.put k v).getD k' d = if k = k' then v else t.getD k' d := by
  simp only [getD, get?_put]; split <;> rfl

end Tab

/-! ### Lanes -/

theorem allLanes_eq : allLanes = List.range 32 := rfl

theorem mem_allLanes {l : Nat} : l ∈ allLanes ↔ l < 32 := by simp [allLanes_eq]

theorem allLanes_getD {β : Type} (f : Nat → β) (d : β) {l : Nat} (h : l < 32) : (allLanes.map f).getD l d = f l := by
  simp [allLanes_eq, h]

theorem laneOn_none (l : Nat) : laneOn 0 l = false := by simp [laneOn]

@[simp] theorem laneOn_zero (l : Nat) : laneOn 0#32 l = false := by simp [laneOn]

theorem laneOn_or (a b : Mask) (l : Nat) : laneOn (a ||| b) l = (laneOn a l || laneOn b l) := by simp [laneOn]

theorem laneOn_and (a b : Mask) (l : Nat) : laneOn (a &&& b) l = (laneOn a l && laneOn b l) := by simp [laneOn]

theorem laneOn_not (a : Mask) {l : Nat} (h : l < 32) : laneOn (~~~a) l = !laneOn a l := by simp [laneOn, h]

theorem laneOn_bit {i l : Nat} (hl : l < 32) : laneOn (laneBit i) l = decide (i = l) := by
  simp only [laneOn, laneBit, BitVec.getLsbD_ofNat, hl, decide_true, Bool.true_and, Nat.testBit_two_pow]

theorem laneOn_fold (p : Nat → Bool) {l : Nat} (h : l < 32) (is : List Nat) (m : Mask) :
    laneOn (is.foldl (fun m i => if p i then m ||| laneBit i else m) m) l =
      (laneOn m l || (is.contains l && p l)) := by
  induction is generalizing m with
  | nil => simp
  | cons i is ih =>
    simp only [List.foldl_cons]
    rw [ih]
    by_cases hil : i = l
    · subst hil
      cases hp : p i <;> simp [laneOn_or, laneOn_bit h]
    · have : (i == l) = false := by simp [hil]
      cases hp : p i <;> simp [laneOn_or, laneOn_bit h, hil, Ne.symm hil]

/-- A mask built from a predicate holds exactly the lanes that satisfy it. -/
theorem laneOn_maskOf (p : Nat → Bool) {l : Nat} (h : l < 32) : laneOn (maskOf p) l = p l := by
  simp only [maskOf]
  rw [laneOn_fold p h]
  simp [laneOn_zero, mem_allLanes.2 h]

theorem laneOn_full {l : Nat} (h : l < 32) : laneOn fullMask l = true := by
  simp only [laneOn, fullMask, BitVec.getLsbD_allOnes, h, decide_true]

theorem mem_lanesOf {m : Mask} {l : Nat} : l ∈ lanesOf m ↔ l < 32 ∧ laneOn m l = true := by
  simp [lanesOf, mem_allLanes]

/-- Masks are equal when they hold the same lanes. -/
theorem mask_ext {a b : Mask} (h : ∀ l, l < 32 → laneOn a l = laneOn b l) : a = b :=
  BitVec.eq_of_getLsbD_eq h

end Sys2Proof
end

