-- ==== Sys2Proof/Laws/Warp.lean ====
section
/-! SUPPORT. Lookup of cores and warps after an update, and what the operations on names, counts, predicates and PCs do in
one lane. -/
namespace Sys2Proof.Machine

/-! ### Cores and warps -/

theorem core_setCore (s : State) (c c' : Nat) (k : Core) :
    (s.setCore c k).core c' = if c = c' then k else s.core c' := by
  simp only [State.core, State.setCore, Tab.getD_put]

@[simp] theorem core_setCore_self (s : State) (c : Nat) (k : Core) : (s.setCore c k).core c = k := by
  simp [core_setCore]

theorem warp?_setWarp (s : State) (c o c' o' : Nat) (x : Warp) :
    (s.setWarp c o x).warp? c' o' = if c = c' ∧ o = o' then some x else s.warp? c' o' := by
  simp only [State.warp?, State.setWarp, core_setCore]
  by_cases hc : c = c'
  · subst hc; simp [Tab.get?_put]
  · simp [hc]

@[simp] theorem warp?_setWarp_self (s : State) (c o : Nat) (x : Warp) : (s.setWarp c o x).warp? c o = some x := by
  simp [warp?_setWarp]

theorem warp?_modWarp_self (s : State) (c o : Nat) (f : Warp → Warp) :
    (s.modWarp c o f).warp? c o = (s.warp? c o).map f := by
  simp only [State.modWarp]
  split
  · next w h => simp [h]
  · next h => simp [h]

@[simp] theorem part_modPart (s : State) (p q : Nat) (f : Part → Part) :
    (s.modPart p f).part q = if p = q then f (s.part p) else s.part q := by
  simp only [State.part, State.modPart, Tab.getD_put]

/-! ### What stays as it was -/

/-- Nothing changed. -/
theorem SameElse.rfl' (s : State) (c o : Nat) : SameElse s s c o := ⟨rfl, fun _ => rfl, fun _ _ => rfl, rfl, .inl rfl, fun _ _ => rfl⟩

theorem SameElse.trans {s t u : State} {c o : Nat} (h : SameElse s t c o) (g : SameElse t u c o) : SameElse s u c o where
  state := by rw [g.state, h.state]
  parts p := by rw [g.parts p, h.parts p]
  cores k hk := by rw [g.cores k hk, h.cores k hk]
  core := by rw [g.core, h.core]
  l1 := by
    rcases g.l1 with g1 | g1
    · rw [g1]; exact h.l1
    · exact .inr g1
  warps i hi := by rw [g.warps i hi, h.warps i hi]

theorem sameElse_setWarp (s : State) (c o : Nat) (x : Warp) : SameElse s (s.setWarp c o x) c o where
  state := rfl
  parts _ := rfl
  cores k hk := by simp [State.setWarp, core_setCore, Ne.symm hk]
  core := by simp [State.setWarp]
  l1 := .inl (by simp [State.setWarp])
  warps i hi := by simp [warp?_setWarp, Ne.symm hi]

theorem sameElse_modWarp (s : State) (c o : Nat) (f : Warp → Warp) : SameElse s (s.modWarp c o f) c o := by
  simp only [State.modWarp]
  split
  · exact sameElse_setWarp ..
  · exact .rfl' ..

theorem sameElse_tally (s : State) (p k n c o : Nat) : SameElse s (s.tally p k n) c o where
  state := rfl
  parts q := by
    simp only [State.tally, part_modPart]
    split
    · next h => subst h; rfl
    · rfl
  cores _ _ := rfl
  core := rfl
  l1 := .inl rfl
  warps _ _ := rfl

theorem sameElse_marked (s : State) (c o : Nat) (x : Option (Nat × List Nat)) :
    SameElse s (s.modCore c fun k => { k with issued := x }) c o where
  state := rfl
  parts _ := rfl
  cores k hk := by simp [State.modCore, core_setCore, Ne.symm hk]
  core := by simp [State.modCore]
  l1 := .inl (by simp [State.modCore])
  warps i _ := by simp [State.modCore, State.warp?]

/-- Counting an issue marks it in its core and raises telemetry counters. -/
theorem sameElse_countIssue (s : State) (c o x : Nat) (h : Bool) (o' : Nat) : SameElse s (s.countIssue c o x h) c o' := by
  simp only [State.countIssue]
  have h1 := sameElse_marked s c o' (some (s.cycle, (s.core c).issuedIn s.cycle ++ [o]))
  split <;> split
  · exact h1
  · exact (h1.trans (sameElse_tally ..)).trans (sameElse_tally ..)
  · exact h1.trans (sameElse_tally ..)
  · exact ((h1.trans (sameElse_tally ..)).trans (sameElse_tally ..)).trans (sameElse_tally ..)

/-- Only the mark of a core's issues changes in any core when an issue is counted. -/
theorem core_countIssue (s : State) (c o x : Nat) (h : Bool) (c' : Nat) :
    (s.countIssue c o x h).core c' = { s.core c' with issued := ((s.countIssue c o x h).core c').issued } := by
  have hw : ∀ t : State, t.cores = (s.modCore c fun k => { k with issued := some (s.cycle, (s.core c).issuedIn s.cycle ++ [o]) }).cores →
      t.core c' = { s.core c' with issued := (t.core c').issued } := by
    intro t ht
    simp only [State.core, ht, State.modCore, State.setCore, Tab.getD_put]
    split
    · next hc => subst hc; rfl
    · rfl
  apply hw
  simp only [State.countIssue]
  split <;> split <;> rfl

@[simp] theorem warp?_countIssue (s : State) (c o x : Nat) (h : Bool) (c' o' : Nat) :
    (s.countIssue c o x h).warp? c' o' = s.warp? c' o' := by
  simp only [State.warp?]; rw [core_countIssue]

@[simp] theorem l1_countIssue (s : State) (c o x : Nat) (h : Bool) (c' : Nat) :
    ((s.countIssue c o x h).core c').l1 = (s.core c').l1 := by
  rw [core_countIssue]

/-- A core's L1 becomes invalid, and nothing else changes. -/
theorem sameElse_invalidate (s : State) (c o : Nat) : SameElse s (s.invalidate c) c o where
  state := rfl
  parts _ := rfl
  cores k hk := by simp [State.invalidate, core_setCore, Ne.symm hk]
  core := by simp [State.invalidate]
  l1 := .inr (by simp [State.invalidate])
  warps i _ := by simp [State.invalidate, State.warp?]

@[simp] theorem warp?_invalidate (s : State) (c c' o : Nat) : (s.invalidate c).warp? c' o = s.warp? c' o := by
  simp only [State.warp?, State.invalidate, core_setCore]
  split
  · next h => subst h; rfl
  · rfl

@[simp] theorem l1_invalidate (s : State) (c : Nat) : ((s.invalidate c).core c).l1 = [] := by simp [State.invalidate]

@[simp] theorem l1_setWarp (s : State) (c o c' : Nat) (x : Warp) : ((s.setWarp c o x).core c').l1 = (s.core c').l1 := by
  simp only [State.setWarp, core_setCore]
  split
  · next h => subst h; rfl
  · rfl

@[simp] theorem l1_modWarp (s : State) (c o c' : Nat) (f : Warp → Warp) : ((s.modWarp c o f).core c').l1 = (s.core c').l1 := by
  simp only [State.modWarp]
  split
  · exact l1_setWarp ..
  · rfl

/-! ### The issuing warp -/

/-- The warp in which an instruction takes effect. -/
def Env.issuedWarp (e : Env) (n : Needs) : Warp :=
  { e.w.wakeZero.takeReads e.act n.reads with
    stall := none, timeout := false, ran := e.cycle, noWatch := e.w.noWatch &&& ~~~e.frag, unread := e.unreadAfter n }

/-- What is known of an issue (01 R11). -/
theorem env?_spec {s : State} {h : Hdr} {word : InsnWord} {e : Env} (he : env? s h word = some e) :
    e.core = s.sel.core ∧ e.slot = s.sel.slot ∧ s.warp? e.core e.slot = some e.w ∧ e.w.evicted = false ∧
      e.w.fragment = some (e.pc, e.frag) ∧
      e.act = e.frag &&& (if h.negate then ~~~(e.w.pred h.guard.toNat) else e.w.pred h.guard.toNat) := by
  simp only [env?] at he
  split at he
  · cases he
  · next w hw =>
    split at he
    · cases he
    · next hev =>
      split at he
      · cases he
      · next pc frag hf =>
        cases he
        exact ⟨rfl, rfl, hw, by simpa using hev, hf, rfl⟩

@[simp] theorem warp?_issued (s : State) (e : Env) (n : Needs) :
    (s.issued e n).warp? e.core e.slot = some (e.issuedWarp n) := by
  simp only [State.issued]
  split <;> simp [Env.issuedWarp, Env.unreadAfter]

theorem sameElse_issued (s : State) (e : Env) (n : Needs) : SameElse s (s.issued e n) e.core e.slot := by
  simp only [State.issued]
  split
  · exact ((sameElse_setWarp ..).trans (sameElse_countIssue ..)).trans (sameElse_invalidate ..)
  · exact (sameElse_setWarp ..).trans (sameElse_countIssue ..)

theorem l1_issued (s : State) (e : Env) (n : Needs) :
    ((s.issued e n).core e.core).l1 = if n.readsStatus e then [] else (s.core e.core).l1 := by
  simp only [State.issued]
  split <;> simp

/-- An instruction that issues has its effect on the state in which it issues. -/
theorem issue_next {s : State} {h : Hdr} {i : Instr} {n : Needs} {e : Env} (k : Env → State → State)
    (hi : Issues s h i n e) : issue s h i n k = .next (k e (s.issued e n)) := by
  unfold issue
  rw [hi.1]
  dsimp only
  rw [hi.2]

/-! ### Lanes of the fragment -/

theorem lowestPc_mem {ps : List PC} {p : PC} (h : lowestPc ps = some p) : p ∈ ps := by
  induction ps generalizing p with
  | nil => cases h
  | cons q ps ih =>
    simp only [lowestPc] at h
    split at h
    · cases h; simp
    · next r hr =>
      split at h <;> cases h
      · simp
      · simp [ih hr]

theorem fragment_spec {w : Warp} {pc : PC} {m : Mask} (h : w.fragment = some (pc, m)) {l : Nat} (hl : l < 32) :
    laneOn m l = true ↔ laneOn w.issuable l = true ∧ w.pc l = pc := by
  simp only [Warp.fragment] at h
  split at h
  · cases h
  · cases h
    simp [laneOn_maskOf _ hl]

/-- A lane of the fragment is not waiting. -/
theorem fragment_waiting {w : Warp} {pc : PC} {m : Mask} (h : w.fragment = some (pc, m)) {l : Nat} (hl : l < 32)
    (hm : laneOn m l = true) : laneOn w.waiting l = false := by
  have := ((fragment_spec h hl).1 hm).1
  simp only [Warp.issuable] at this
  split at this
  · simp at this
  · simp only [laneOn_and, laneOn_not _ hl, Bool.and_eq_true] at this
    simpa using this.2

/-! ### PCs -/

theorem pc_setPcs (w : Warp) (m : Mask) (f : Nat → PC) {l : Nat} (hl : l < 32) :
    (w.setPcs m f).pc l = if laneOn m l then f l else w.pc l := by
  simp only [Warp.pc, Warp.setPcs]
  exact allLanes_getD _ _ hl

theorem pc_advance (w : Warp) (m : Mask) {l : Nat} (hl : l < 32) :
    (w.advance m).pc l = if laneOn m l then nextPc (w.pc l) else w.pc l := pc_setPcs w m _ hl

theorem laneOn_lanesFold (ts : List Wait) (m : Mask) (l : Nat) :
    laneOn (ts.foldl (fun m t => m ||| t.lanes) m) l = (laneOn m l || ts.any fun t => laneOn t.lanes l) := by
  induction ts generalizing m with
  | nil => simp
  | cons t ts ih => simp [ih, laneOn_or, Bool.or_assoc]

/-- A zero sleep moves none of the lanes that do not wait. -/
theorem pc_wakeZero (w : Warp) {l : Nat} (hl : l < 32) (h : laneOn w.waiting l = false) : w.wakeZero.pc l = w.pc l := by
  simp only [Warp.wakeZero]
  split
  · rfl
  · have : (w.advance ((w.waits.filter fun t => match t.kind with
        | .sleep _ z => z
        | _ => false).foldl (fun m t => m ||| t.lanes) 0)).pc l = w.pc l := by
      rw [pc_advance _ _ hl, if_neg]
      simp only [Warp.waiting, laneOn_lanesFold] at h ⊢
      intro hc
      rw [laneOn_none, Bool.false_or] at h hc
      obtain ⟨t, ht, hon⟩ := List.any_eq_true.1 hc
      have ha : (w.waits.any fun t => laneOn t.lanes l) = true :=
        List.any_eq_true.2 ⟨t, (List.mem_filter.1 ht).1, hon⟩
      rw [h] at ha
      cases ha
    exact this

/-! ### Predicates -/

theorem pred_setPred (w : Warp) (p q : Nat) (m v : Mask) {l : Nat} (hl : l < 32) (hq : q < 7) :
    laneOn ((w.setPred p m v).pred q) l =
      if q = p ∧ laneOn m l = true then laneOn v l else laneOn (w.pred q) l := by
  have h7 : q ≠ 7 := by omega
  simp only [Warp.pred, Warp.setPred, h7, if_false]
  rw [List.getD_eq_getElem?_getD]
  simp only [List.getElem?_map, List.getElem?_range hq, Option.map_some, Option.getD_some]
  by_cases hqp : q = p
  · subst hqp
    simp only [if_true, true_and, laneOn_or, laneOn_and, laneOn_not _ hl, if_neg h7]
    cases laneOn m l <;> simp
  · simp [hqp]

/-! ### Names -/

theorem get?_modName (w : Warp) (n d : Nat) (f : NameCell → NameCell) :
    (w.modName n f).names.get? d = if n = d then some (f (w.names.getD n NameCell.fresh)) else w.names.get? d := by
  simp [Warp.modName, Tab.get?_put]

theorem setCounts_lane (c : NameCell) (m : Mask) (f : Nat → BitVec 3) {l : Nat} (hl : l < 32) :
    (c.setCounts m f).counts.getD l 0 = if laneOn m l then f l else c.counts.getD l 0 := by
  simp only [NameCell.setCounts]
  exact allLanes_getD _ _ hl

theorem setData_lane (c : NameCell) (m : Mask) (f : Nat → Word) {l : Nat} (hl : l < 32) :
    (c.setData m f).data.getD l 0 = if laneOn m l then f l else c.data.getD l 0 := by
  simp only [NameCell.setData]
  exact allLanes_getD _ _ hl

/-- The data of a lane of a name, zero where it is not bound. -/
def Warp.datum (w : Warp) (n l : Nat) : Word :=
  match w.names.get? n with
  | some c => c.data.getD l 0
  | none => 0

theorem val_eq_datum (w : Warp) {n : Nat} (h : isV n = true) (l : Nat) : w.val n l = w.datum n l := by
  unfold Warp.val Warp.datum
  exact if_pos h

theorem not_isV_of_isK {n : Nat} (h : isK n = true) : isV n = false := by
  simp only [isK, isV, Bool.and_eq_true, decide_eq_true_eq, decide_eq_false_iff_not] at *; omega

theorem val_of_isK (w : Warp) {n : Nat} (h : isK n = true) (l : Nat) : w.val n l = w.kregs.getD (n - 384) 0 := by
  simp [Warp.val, h, not_isV_of_isK h]

theorem fresh_counts (l : Nat) : NameCell.fresh.counts.getD l 0 = 0#3 := by
  simp only [NameCell.fresh, List.getD_eq_getElem?_getD, List.getElem?_map]
  cases allLanes[l]? <;> rfl

theorem fresh_data (l : Nat) : NameCell.fresh.data.getD l 0 = 0#32 := by
  simp only [NameCell.fresh, List.getD_eq_getElem?_getD, List.getElem?_map]
  cases allLanes[l]? <;> rfl

/-- A name's count in a lane after reads are taken. -/
theorem count_takeReads (w : Warp) (m : Mask) (rs : List Nat) (n : Nat) {l : Nat} (hl : l < 32) :
    (w.takeReads m rs).count n l = if laneOn m l then w.countAfter rs n l else w.count n l := by
  have hg : (w.takeReads m rs).names.get? n = (w.names.get? n).map fun c =>
      if readsOf rs n = 0 then c else c.setCounts m fun i => w.countAfter rs n i := by
    have := Tab.get?_mapVals w.names n fun k c =>
      if readsOf rs k = 0 then c else c.setCounts m fun i => w.countAfter rs k i
    rw [← this]
    simp only [Warp.takeReads]
    congr 1
    apply List.map_congr_left
    intro c _
    split <;> rfl
  simp only [Warp.count, hg]
  cases h : w.names.get? n with
  | none => simp [Warp.countAfter, Warp.count, h, afterReads]; grind
  | some c =>
    simp only [Option.map_some]
    split
    · next h0 => simp [Warp.countAfter, Warp.count, h, afterReads, h0]
    · rw [setCounts_lane _ _ _ hl]

theorem datum_takeReads (w : Warp) (m : Mask) (rs : List Nat) (n l : Nat) :
    (w.takeReads m rs).datum n l = w.datum n l := by
  have hg : (w.takeReads m rs).names.get? n = (w.names.get? n).map fun c =>
      if readsOf rs n = 0 then c else c.setCounts m fun i => w.countAfter rs n i := by
    have := Tab.get?_mapVals w.names n fun k c =>
      if readsOf rs k = 0 then c else c.setCounts m fun i => w.countAfter rs k i
    rw [← this]
    simp only [Warp.takeReads]
    congr 1
    apply List.map_congr_left
    intro c _
    split <;> rfl
  simp only [Warp.datum, hg]
  cases w.names.get? n with
  | none => rfl
  | some c => simp only [Option.map_some]; split <;> rfl

/-- A name after freeing the empty ones. -/
theorem get?_sweep (w : Warp) (n : Nat) : w.sweep.names.get? n = (w.names.get? n).filter NameCell.bound := by
  simp only [Warp.sweep, Tab.get?_keep]

/-- A cell that keeps no slot has count zero in every lane. -/
theorem count_of_unbound {c : NameCell} (h : c.bound = false) (l : Nat) : c.counts.getD l 0 = 0 := by
  simp only [NameCell.bound, Bool.or_eq_false_iff, List.any_eq_false, bne_iff_ne, ne_eq, Decidable.not_not] at h
  rw [List.getD_eq_getElem?_getD]
  cases hl : c.counts[l]? with
  | none => rfl
  | some x => exact h.2 x (List.mem_of_getElem? hl)

/-- Freeing empty names changes no count. -/
theorem count_sweep (w : Warp) (n l : Nat) : w.sweep.count n l = w.count n l := by
  simp only [Warp.count, get?_sweep]
  cases h : w.names.get? n with
  | none => rfl
  | some c =>
    cases hk : c.bound with
    | true => simp [Option.filter, hk]
    | false => simpa [Option.filter, hk] using (count_of_unbound hk l).symm

/-- Freeing empty names keeps the data of every lane whose count is not zero. -/
theorem datum_sweep (w : Warp) (n l : Nat) (h : w.sweep.count n l ≠ 0) : w.sweep.datum n l = w.datum n l := by
  simp only [Warp.count, Warp.datum, get?_sweep] at *
  cases hg : w.names.get? n with
  | none => rfl
  | some c =>
    cases hk : c.bound with
    | true => simp [Option.filter, hk]
    | false => simp [hg, Option.filter, hk] at h

theorem count_writeName (w : Warp) (d : Nat) (c : BitVec 3) (m : Mask) (v : Nat → Word) (n : Nat) {l : Nat} (hl : l < 32) :
    (w.writeName d c m v).count n l =
      if d = n ∧ isV d = true ∧ c ≠ 0 ∧ laneOn m l = true then c else w.count n l := by
  simp only [Warp.writeName]
  split
  · next h => subst h; simp
  · split
    · next hv =>
      split
      · next hc => simp [hc]
      · next hc =>
        simp only [Warp.count, get?_modName]
        by_cases hd : d = n
        · subst hd
          simp only [if_true]
          rw [setCounts_lane _ _ _ hl]
          simp only [true_and, hv, ne_eq, hc, not_false_eq_true]
          split
          · rfl
          · simp only [NameCell.setData, Tab.getD]
            cases w.names.get? d with
            | none => simp only [Option.getD_none]; exact fresh_counts l
            | some _ => rfl
        · simp [hd]
    · next hv =>
      split <;> simp [hv, Warp.count]

theorem datum_writeName (w : Warp) (d : Nat) (c : BitVec 3) (m : Mask) (v : Nat → Word) (n : Nat) {l : Nat} (hl : l < 32) :
    (w.writeName d c m v).datum n l =
      if d = n ∧ isV d = true ∧ c ≠ 0 ∧ laneOn m l = true then v l else w.datum n l := by
  simp only [Warp.writeName]
  split
  · next h => subst h; simp
  · split
    · next hv =>
      split
      · next hc => simp [hc]
      · next hc =>
        simp only [Warp.datum, get?_modName]
        by_cases hd : d = n
        · subst hd
          simp only [if_true, NameCell.setCounts]
          rw [setData_lane _ _ _ hl]
          simp only [true_and, hv, ne_eq, hc, not_false_eq_true]
          split
          · rfl
          · simp only [Tab.getD]
            cases w.names.get? d with
            | none => simp only [Option.getD_none]; exact fresh_data l
            | some _ => rfl
        · simp [hd]
    · next hv =>
      split <;> simp [hv, Warp.datum]

theorem kreg_writeName (w : Warp) (d : Nat) (c : BitVec 3) (m : Mask) (v : Nat → Word) (n l : Nat) (hn : isK n = true) :
    (w.writeName d c m v).val n l = if d = n ∧ m ≠ 0 then v (lowLane m) else w.val n l := by
  rw [val_of_isK _ hn, val_of_isK _ hn]
  simp only [Warp.writeName]
  split
  · next h => simp [h]
  · next hm =>
    split
    · next hv =>
      have hd : d ≠ n := by rintro rfl; rw [not_isV_of_isK hn] at hv; cases hv
      split <;> simp [hd, Warp.modName]
    · split
      · next hk =>
        have h64 : n - 384 < 64 := by
          simp only [isK, Bool.and_eq_true, decide_eq_true_eq] at hn; omega
        rw [List.getD_eq_getElem?_getD]
        simp only [List.getElem?_map, List.getElem?_range h64, Option.map_some, Option.getD_some]
        by_cases hd : d = n
        · subst hd; rw [if_pos rfl, if_pos ⟨rfl, hm⟩]
        · have : n - 384 ≠ d - 384 := by
            simp only [isK, Bool.and_eq_true, decide_eq_true_eq] at hn hk; omega
          simp [hd, this]
      · next hk =>
        have hd : d ≠ n := by rintro rfl; exact hk hn
        simp [hd]

/-! ### The constituents of a destination -/

theorem count_writeNames (w : Warp) (c : BitVec 3) (m : Mask) (v : Nat → List Word) (ds : List Nat) (j n : Nat) {l : Nat}
    (hl : l < 32) : (w.writeNames c m v ds j).count n l =
      if n ∈ ds ∧ isV n = true ∧ c ≠ 0 ∧ laneOn m l = true then c else w.count n l := by
  induction ds generalizing w j with
  | nil => simp [Warp.writeNames]
  | cons d ds ih =>
    simp only [Warp.writeNames, ih, count_writeName _ _ _ _ _ _ hl, List.mem_cons]
    by_cases hd : n = d
    · subst hd; simp; grind
    · simp [hd, Ne.symm hd]

theorem datum_writeNames_other (w : Warp) (c : BitVec 3) (m : Mask) (v : Nat → List Word) (ds : List Nat) (j n : Nat)
    {l : Nat} (hl : l < 32) (h : n ∈ ds → isV n = true → c = 0 ∨ laneOn m l = false) :
    (w.writeNames c m v ds j).datum n l = w.datum n l := by
  induction ds generalizing w j with
  | nil => rfl
  | cons d ds ih =>
    simp only [Warp.writeNames]
    rw [ih _ _ fun hm => h (List.mem_cons_of_mem _ hm), datum_writeName _ _ _ _ _ _ hl, if_neg]
    rintro ⟨rfl, hv, hc, ho⟩
    rcases h (List.mem_cons_self ..) hv with h | h
    · exact hc h
    · rw [h] at ho; cases ho

theorem datum_writeNames (w : Warp) (c : BitVec 3) (m : Mask) (v : Nat → List Word) (ds : List Nat) (j i n : Nat)
    {l : Nat} (hl : l < 32) (hd : ds.Nodup) (hi : ds[i]? = some n) (hv : isV n = true) (hc : c ≠ 0)
    (ho : laneOn m l = true) : (w.writeNames c m v ds j).datum n l = (v l).getD (j + i) 0 := by
  induction ds generalizing w j i with
  | nil => simp at hi
  | cons d ds ih =>
    simp only [Warp.writeNames]
    cases i with
    | zero =>
      simp only [List.getElem?_cons_zero, Option.some.injEq] at hi
      subst hi
      rw [datum_writeNames_other _ _ _ _ _ _ _ hl fun hm => absurd hm (List.nodup_cons.1 hd).1,
        datum_writeName _ _ _ _ _ _ hl, if_pos ⟨rfl, hv, hc, ho⟩]
      simp
    | succ i =>
      simp only [List.getElem?_cons_succ] at hi
      rw [ih _ (j + 1) i (List.nodup_cons.1 hd).2 hi]
      congr 1; omega

theorem kreg_writeNames_other (w : Warp) (c : BitVec 3) (m : Mask) (v : Nat → List Word) (ds : List Nat) (j n l : Nat)
    (hn : isK n = true) (h : n ∈ ds → m = 0) : (w.writeNames c m v ds j).val n l = w.val n l := by
  induction ds generalizing w j with
  | nil => rfl
  | cons d ds ih =>
    simp only [Warp.writeNames]
    rw [ih _ _ fun hm => h (List.mem_cons_of_mem _ hm), kreg_writeName _ _ _ _ _ _ _ hn, if_neg]
    rintro ⟨rfl, hm⟩
    exact hm (h (List.mem_cons_self ..))

theorem kreg_writeNames (w : Warp) (c : BitVec 3) (m : Mask) (v : Nat → List Word) (ds : List Nat) (j i n l : Nat)
    (hd : ds.Nodup) (hi : ds[i]? = some n) (hn : isK n = true) (hm : m ≠ 0) :
    (w.writeNames c m v ds j).val n l = (v (lowLane m)).getD (j + i) 0 := by
  induction ds generalizing w j i with
  | nil => simp at hi
  | cons d ds ih =>
    simp only [Warp.writeNames]
    cases i with
    | zero =>
      simp only [List.getElem?_cons_zero, Option.some.injEq] at hi
      subst hi
      rw [kreg_writeNames_other _ _ _ _ _ _ _ _ hn fun h => absurd h (List.nodup_cons.1 hd).1,
        kreg_writeName _ _ _ _ _ _ _ hn, if_pos ⟨rfl, hm⟩]
      simp
    | succ i =>
      simp only [List.getElem?_cons_succ] at hi
      rw [ih _ (j + 1) i (List.nodup_cons.1 hd).2 hi]
      congr 1; omega

theorem constituents_nodup (n : BitVec 9) (k : Nat) : (constituents n k).Nodup := by
  simp only [constituents]
  split
  · exact List.nodup_nil
  · exact List.Pairwise.map _ (fun a b (h : a ≠ b) => by omega) List.nodup_range

end Sys2Proof.Machine
end

