-- ==== Sys2Proof/Laws/Issue.lean ====
section
/-! SUPPORT. What an instruction that issues leaves: the shared effect `finish`, the writes of predicates and flags beside
it, and a plain advance, each with everything it can do (02 R38 to R43; 07 R132). -/
namespace Sys2Proof.Machine

theorem keep_all (f : BitVec 8) : f &&& 0xFF#8 = f := by
  have : (0xFF#8 : BitVec 8) = BitVec.allOnes 8 := rfl
  rw [this, BitVec.and_allOnes]

/-- The warp that `finish` leaves. -/
def Env.finished (e : Env) (n : Needs) (v : Nat → List Word) : Warp :=
  (((e.issuedWarp n).writeNames n.count e.act v n.dests 0).sweep).advance e.frag

theorem warp?_finish (s : State) (e : Env) (n : Needs) (v : Nat → List Word) :
    (finish e n.dests n.count v (s.issued e n)).warp? e.core e.slot = some (e.finished n v) := by
  simp [finish, warp?_modWarp_self, Env.finished]

theorem sameElse_finish (s : State) (e : Env) (n : Needs) (v : Nat → List Word) :
    SameElse s (finish e n.dests n.count v (s.issued e n)) e.core e.slot :=
  (sameElse_issued s e n).trans (sameElse_modWarp ..)

theorem l1_finish (s : State) (e : Env) (n : Needs) (v : Nat → List Word) :
    ((finish e n.dests n.count v (s.issued e n)).core e.core).l1 = if n.readsStatus e then [] else (s.core e.core).l1 := by
  simp [finish, l1_issued]

/-! ### The warp an instruction issues from -/

theorem count_issuedWarp (e : Env) (n : Needs) (d : Nat) {l : Nat} (hl : l < 32) :
    (e.issuedWarp n).count d l = if laneOn e.act l then e.w.countAfter n.reads d l else e.w.count d l := by
  have h := count_takeReads e.w.wakeZero e.act n.reads d hl
  have hc : ∀ d l, e.w.wakeZero.count d l = e.w.count d l := fun d l => by simp [Warp.count]
  have ha : ∀ d l, e.w.wakeZero.countAfter n.reads d l = e.w.countAfter n.reads d l := fun d l => by
    simp [Warp.countAfter, hc]
  rw [hc, ha] at h
  exact h

theorem datum_issuedWarp (e : Env) (n : Needs) (d l : Nat) : (e.issuedWarp n).datum d l = e.w.datum d l := by
  have h := datum_takeReads e.w.wakeZero e.act n.reads d l
  have hd : e.w.wakeZero.datum d l = e.w.datum d l := by simp [Warp.datum]
  rw [hd] at h
  exact h

theorem kreg_issuedWarp (e : Env) (n : Needs) {d : Nat} (l : Nat) (h : isK d = true) :
    (e.issuedWarp n).val d l = e.w.val d l := by
  rw [val_of_isK _ h, val_of_isK _ h]; simp [Env.issuedWarp]

theorem pred_issuedWarp (e : Env) (n : Needs) (p : Nat) : (e.issuedWarp n).pred p = e.w.pred p := by
  simp [Warp.pred, Env.issuedWarp]

/-- The lanes of the fragment stand at its PC as it issues; the others where a zero sleep that ends leaves them. -/
theorem pc_issuedWarp {e : Env} (n : Needs) (hf : e.w.fragment = some (e.pc, e.frag)) {l : Nat} (hl : l < 32) :
    (e.issuedWarp n).pc l = if laneOn e.frag l then e.pc else e.w.wakeZero.pc l := by
  have hpc : (e.issuedWarp n).pc l = e.w.wakeZero.pc l := by simp [Warp.pc, Env.issuedWarp]
  rw [hpc]
  split
  · next hon => rw [pc_wakeZero _ hl (fragment_waiting hf hl hon), ((fragment_spec hf hl).1 hon).2]
  · rfl

/-! ### Written -/

variable {e : Env} {n : Needs} {v : Nat → List Word} {x : Extra} {w : Warp}

/-- `finish` writes the destination, takes the reads, and moves on. -/
theorem written_finish (hf : e.w.fragment = some (e.pc, e.frag)) (hd : n.dests.Nodup) :
    Written e n v {} (e.finished n v) where
  value j d l hj hv hc hl ho := by
    have hcount : (e.finished n v).count d l = n.count := by
      have := count_writeNames (e.issuedWarp n) n.count e.act v n.dests 0 d hl
      rw [if_pos ⟨List.mem_of_getElem? hj, hv, hc, ho⟩] at this
      rw [← this]
      exact count_sweep ((e.issuedWarp n).writeNames n.count e.act v n.dests 0) d l
    refine ⟨?_, hcount⟩
    have hs := datum_sweep ((e.issuedWarp n).writeNames n.count e.act v n.dests 0) d l (by
      intro h0; exact hc (hcount.symm.trans h0))
    rw [val_eq_datum _ hv]
    refine hs.trans ?_
    rw [datum_writeNames _ _ _ _ _ _ j d hl hd hj hv hc ho, Nat.zero_add]
  uniform j d l hj hk ha := by
    have := kreg_writeNames (e.issuedWarp n) n.count e.act v n.dests 0 j d l hd hj hk ha
    rw [Nat.zero_add] at this
    rw [← this, val_of_isK _ hk, val_of_isK _ hk]
    rfl
  counts d l hl h := by
    have hs := count_sweep ((e.issuedWarp n).writeNames n.count e.act v n.dests 0) d l
    have hw := count_writeNames (e.issuedWarp n) n.count e.act v n.dests 0 d hl
    rw [if_neg (by
      rintro ⟨hm, hv, hc, ho⟩
      rcases h hm hv with h | h
      · exact hc h
      · rw [h] at ho; cases ho), count_issuedWarp e n d hl] at hw
    exact hs.trans hw
  values d l hv hl h hc := by
    have hs := datum_sweep ((e.issuedWarp n).writeNames n.count e.act v n.dests 0) d l hc
    rw [val_eq_datum _ hv, val_eq_datum _ hv]
    refine hs.trans ?_
    rw [datum_writeNames_other _ _ _ _ _ _ _ hl fun hm _ => h hm, datum_issuedWarp]
  uniforms d l hk h := by
    have := kreg_writeNames_other (e.issuedWarp n) n.count e.act v n.dests 0 d l hk h
    rw [kreg_issuedWarp e n l hk] at this
    rw [← this, val_of_isK _ hk, val_of_isK _ hk]
    rfl
  preds p l _ _ := by
    have : (e.finished n v).pred p = e.w.pred p := by
      rw [← pred_issuedWarp e n p]; simp [Warp.pred, Env.finished]
    rw [this]
    simp
  pcs l hl := by
    have h := pc_advance (((e.issuedWarp n).writeNames n.count e.act v n.dests 0).sweep) e.frag hl
    have hpc : (((e.issuedWarp n).writeNames n.count e.act v n.dests 0).sweep).pc l = (e.issuedWarp n).pc l := by
      simp [Warp.pc]
    rw [hpc, pc_issuedWarp n hf hl] at h
    refine h.trans ?_
    split <;> rfl
  flags := by simp [Env.finished, Env.issuedWarp, keep_all]
  rest := by
    have hw : ∀ (w : Warp) (c : BitVec 3) (m : Mask) (ds : List Nat) (j : Nat),
        w.writeNames c m v ds j = { w with names := (w.writeNames c m v ds j).names, kregs := (w.writeNames c m v ds j).kregs } := by
      intro w c m ds j
      rw [Warp.mk.injEq]
      simp
    simp only [Env.finished, Warp.advance, Warp.setPcs, Warp.sweep]
    rw [hw]
    simp [Env.issuedWarp, Warp.takeReads]

/-- An instruction without names only moves on. -/
theorem written_advance (hf : e.w.fragment = some (e.pc, e.frag)) (hd : n.dests = []) :
    Written e n v {} ((e.issuedWarp n).advance e.frag) where
  value j d l hj := by simp [hd] at hj
  uniform j d l hj := by simp [hd] at hj
  counts d l hl _ := count_issuedWarp e n d hl
  values d l hv _ _ _ := by
    rw [val_eq_datum _ hv, val_eq_datum _ hv]
    exact datum_issuedWarp e n d l
  uniforms d l hk _ := by
    rw [← kreg_issuedWarp e n l hk, val_of_isK _ hk, val_of_isK _ hk]
    rfl
  preds p l _ _ := by
    have : ((e.issuedWarp n).advance e.frag).pred p = e.w.pred p := by
      rw [← pred_issuedWarp e n p]; simp [Warp.pred]
    rw [this]
    simp
  pcs l hl := by
    rw [pc_advance _ _ hl, pc_issuedWarp n hf hl]
    split <;> rfl
  flags := by simp [Env.issuedWarp, keep_all]
  rest := by
    simp [Env.issuedWarp, Warp.takeReads, Warp.advance, Warp.setPcs]

/-- A predicate written in the active lanes. -/
theorem Written.setPred (h : Written e n v x w) (p : Nat) (m : Mask) :
    Written e n v { x with preds := fun q l => if q = p then some (laneOn m l) else x.preds q l } (w.setPred p e.act m) where
  value j d l hj hv hc hl ho := h.value j d l hj hv hc hl ho
  uniform j d l hj hk ha := by
    have := h.uniform j d l hj hk ha
    rw [val_of_isK _ hk] at this ⊢
    exact this
  counts d l hl hh := h.counts d l hl hh
  values d l hv hl hh hc := by
    have := h.values d l hv hl hh hc
    rw [val_eq_datum _ hv] at this ⊢
    exact this
  uniforms d l hk hh := by
    have := h.uniforms d l hk hh
    rw [val_of_isK _ hk] at this ⊢
    exact this
  preds q l hq hl := by
    rw [pred_setPred _ _ _ _ _ hl hq, h.preds q l hq hl]
    by_cases ha : laneOn e.act l = true
    · by_cases hqp : q = p <;> simp [ha, hqp]
    · simp [ha]
  pcs l hl := h.pcs l hl
  flags := h.flags
  rest := congrArg (fun u : Warp => { u with preds := (w.setPred p e.act m).preds }) h.rest

/-- Flags raised. -/
theorem Written.orFlags (h : Written e n v x w) (f : BitVec 8) :
    Written e n v { x with flags := x.flags ||| f } (w.orFlags f) where
  value j d l hj hv hc hl ho := h.value j d l hj hv hc hl ho
  uniform j d l hj hk ha := by
    have := h.uniform j d l hj hk ha
    rw [val_of_isK _ hk] at this ⊢
    exact this
  counts d l hl hh := h.counts d l hl hh
  values d l hv hl hh hc := by
    have := h.values d l hv hl hh hc
    rw [val_eq_datum _ hv] at this ⊢
    exact this
  uniforms d l hk hh := by
    have := h.uniforms d l hk hh
    rw [val_of_isK _ hk] at this ⊢
    exact this
  preds q l hq hl := h.preds q l hq hl
  pcs l hl := h.pcs l hl
  flags := by
    simp only [Warp.orFlags, h.flags, BitVec.or_assoc]
  rest := congrArg (fun u : Warp => { u with aflags := (w.orFlags f).aflags }) h.rest

/-! ### Completion -/

/-- An instruction names no destination twice. -/
theorem dests_nodup (i : Instr) (s : State) : (needs i s).dests.Nodup := by
  cases i <;> first | exact constituents_nodup _ _ | exact List.nodup_nil | skip
  case ld h f =>
    simp only [needs]
    split <;> exact constituents_nodup _ _

/-- An instruction whose effect is `finish` completes wherever it issues. -/
theorem completes_finish {h : Hdr} {i : Instr} {v : State → Env → Nat → List Word} (hh : hdrOf i = some h)
    (hi : ∀ s, exec i s = issue s h i (needs i s) fun e s' => finish e (needs i s).dests (needs i s).count (v s e) s') :
    Completes i v := by
  rintro s e ⟨h', hh', he⟩
  cases hh.symm.trans hh'
  have hs := env?_spec he.1
  exact ⟨_, _, (hi s).trans (issue_next _ he), warp?_finish .., written_finish hs.2.2.2.2.1 (dests_nodup i s),
    l1_finish .., sameElse_finish ..⟩

/-- The issue of an encoded instruction is the shared issue, with what it needs. -/
theorem exec_issue {i : Instr} {h : Hdr} (hh : hdrOf i = some h) (s : State) :
    ∃ k, exec i s = issue s h i (needs i s) k := by
  cases i <;> try cases hh
  case ld f =>
    by_cases hf : f.space = 3
    · exact ⟨_, by simp only [exec, execLd, needs, if_pos hf]; rfl⟩
    · exact ⟨_, by simp only [exec, execLd, needs, if_neg hf]; rfl⟩
  all_goals
    dsimp only [exec, execFadd, execFsub, execFmul, execFfma, execFmin, execFmax, execFclass, execFrcp, execFrsq,
      execFsqrt, execFexp2, execFlog2, execFsin, execFcos, execFtanh, execFsigm, execHadd2, execHmul2, execHfma2,
      execDot4, execWred, execImad, execCvt, execCvti, execCvtf, execPack, execUnpack, execQhist, execQscale,
      execQcvt, execIadd, execIaddc, execIsub, execImul, execImulh, execImin, execImax, execIabs, execIneg, execLea,
      execIshl, execIshr, execIsar, execIand, execIor, execIxor, execInot, execPopc, execClz, execBrev, execBfx,
      execBfi, execPseti, execPsetf, execPlop, execPvote, execPmovTov, execPmovFromv, execMov, execSel, execShfl,
      execBcast, execKmov, execDrop, execClear, execRelease, execHold, execRecount, execRdsr, execRdsrClr, execTime,
      execSt, execPref, execAtom, execCas, execRed, execAmaxp, execFence, execCwb, execBra, execBri, execCall,
      execCalli, execRet, execExit, execYield, execNop, execWait, execSleep, execTrap, execBkpt, execSload,
      execSstore, execSevict, execSstat, execMmt, execMmtx, execMmtg, execGzero, execGload, execGstore, execAccz,
      execAccld, execAccst, execAccmv, execTagset, execTagcnt, execVcopy, execVgather, execVscatter, execVput,
      execVget, execVred, execVstat, execVcancel, execSort, execBararr, execBarwait, execBarsync, execBardrop,
      execBarstat, execGrpq, execLaunch, execFsig, execFwait, execNexttile, execSteal, execWrsrFlush, execWrsrQuota,
      execWrsrEvent, execWatch, intBinary, intUnary, intShift, intCount, compute, convert, setPredicate, manage,
      access, engine, fpRounded, fpMinMax, fpFunction, halfOp]
    exact ⟨_, rfl⟩

/-- What is known when nothing holds an instruction back (04 R74). -/
theorem hold_none {s : State} {h : Hdr} {n : Needs} {e : Env} (hn : s.hold h n e = none) :
    e.w.held = false ∧ n.fields = true ∧ e.zero = 0 ∧ n.entry e = none ∧ n.stalls e = none ∧
      e.w.countCheck (s.hwm e.w) e.act n.reads n.dests n.count = none := by
  simp only [State.hold] at hn
  repeat' split at hn
  all_goals first | (cases hn; done) | skip
  simp_all

theorem Ready.fields {s : State} {i : Instr} {e : Env} (h : Ready s i e) : (needs i s).fields = true := by
  obtain ⟨_, _, h⟩ := h
  exact (hold_none h.2).2.1

theorem Ready.entry {s : State} {i : Instr} {e : Env} (h : Ready s i e) : (needs i s).entry e = none := by
  obtain ⟨_, _, h⟩ := h
  exact (hold_none h.2).2.2.2.1

theorem Ready.stalls {s : State} {i : Instr} {e : Env} (h : Ready s i e) : (needs i s).stalls e = none := by
  obtain ⟨_, _, h⟩ := h
  exact (hold_none h.2).2.2.2.2.1

theorem Ready.env {s : State} {i : Instr} {e : Env} (h : Ready s i e) : s.warp? e.core e.slot = some e.w ∧
    e.w.fragment = some (e.pc, e.frag) := by
  obtain ⟨_, _, h⟩ := h
  have := env?_spec h.1
  exact ⟨this.2.2.1, this.2.2.2.2.1⟩

/-- The values of a completion may be given in any form that agrees wherever the instruction issues. -/
theorem Completes.congr {i : Instr} {v v' : State → Env → Nat → List Word} {x : State → Env → Extra} (hc : Completes i v x)
    (hv : ∀ s e, Ready s i e → v s e = v' s e) : Completes i v' x := by
  intro s e he
  obtain ⟨t, w, h1, h2, h3, h4⟩ := hc s e he
  exact ⟨t, w, h1, h2, hv s e he ▸ h3, h4⟩

/-- An instruction that only changes its own warp, by what `Written` says, completes. -/
theorem completes_of {h : Hdr} {i : Instr} {v : State → Env → Nat → List Word} {x : State → Env → Extra}
    {g : State → Env → Warp → Warp} (hh : hdrOf i = some h)
    (hi : ∀ s, exec i s = issue s h i (needs i s) fun e s' => s'.modWarp e.core e.slot (g s e))
    (hw : ∀ s e, Ready s i e → e.w.fragment = some (e.pc, e.frag) →
      Written e (needs i s) (v s e) (x s e) (g s e (e.issuedWarp (needs i s)))) : Completes i v x := by
  rintro s e ⟨h', hh', he⟩
  cases hh.symm.trans hh'
  have hs := env?_spec he.1
  refine ⟨_, _, (hi s).trans (issue_next _ he), ?_, hw s e ⟨h, hh, he⟩ hs.2.2.2.2.1, ?_, ?_⟩
  · simp [warp?_modWarp_self]
  · rw [l1_modWarp]; exact l1_issued ..
  · exact (sameElse_issued s e _).trans (sameElse_modWarp ..)

end Sys2Proof.Machine
end

