-- ==== Sys2Proof/Laws/Transfer.lean ====
section
/-! SUPPORT. What translation, a line's fetch, taking a fault and a transfer can do to the state (03 R66 to R69; 20 R311;
21 R332). -/
namespace Sys2Proof.Machine

/-! ### Translation and fetch -/

/-- Counting what a walk has read changes no other field. -/
theorem countWalk_state (s : State) (x : Nat) (a : WAcc) : s.countWalk x a = { s with bytes := (s.countWalk x a).bytes } := by
  simp only [State.countWalk]
  repeat' split
  all_goals rfl

/-- A translation fills translations, counts what its walk has read, and changes nothing else. -/
theorem translate_state (s : State) (u : TUnit) (x va : Nat) (k : AccKind) (sys peer fresh : Bool) :
    (s.translate u x va k sys peer fresh).2 =
      { s with tlb := (s.translate u x va k sys peer fresh).2.tlb, walks := (s.translate u x va k sys peer fresh).2.walks,
               bytes := (s.translate u x va k sys peer fresh).2.bytes } := by
  simp only [State.translate]
  repeat' split
  all_goals first | rfl | (dsimp only; rw [countWalk_state])

/-- The fetch of a line fills translations, counts what its walk has read, and changes nothing else. -/
theorem readLine_state (s : State) (c x : Nat) (pc : PC) (fresh : Bool) :
    (s.readLine c x pc fresh).2 =
      { s with tlb := (s.readLine c x pc fresh).2.tlb, walks := (s.readLine c x pc fresh).2.walks,
               bytes := (s.readLine c x pc fresh).2.bytes } := by
  have h := translate_state s (.core c) x (lineOf pc) .fetch false false fresh
  simp only [State.readLine]
  split
  · next he => rw [he] at h; exact h
  · next he =>
    rw [he] at h
    split
    · exact h
    · split <;> exact h

theorem readLine_warp? (s : State) (c x : Nat) (pc : PC) (fresh : Bool) (c' o : Nat) :
    (s.readLine c x pc fresh).2.warp? c' o = s.warp? c' o := by
  rw [readLine_state]; rfl

/-! ### Taking a fault -/

/-- The state that a fault posts its record in. -/
theorem post_kind0 (s : State) (fn : Nat) (r : EvRec) (h : r.kind.toNat ≤ 3) :
    s.post fn r = s.keepRecord fn r := by
  simp [State.post, h]

/-- A precise fault: the trap is listed, the record is held for the function's queue, and nothing else changes. -/
theorem takeFault_eq {s : State} {c o : Nat} {w : Warp} (hw : s.warp? c o = some w) (lanes : Mask) (pc aux : PC) (past : Bool)
    (flags : BitVec 8) (r : Raise) :
    s.takeFault c o lanes pc aux past flags r =
      (s.setWarp c o { w with
        traps := w.traps ++ [{ lanes := lanes, code := r.code, past := past, bkpt := flags.getLsbD 7 }], stall := none
        timeout := false, ran := s.cycle }).keepRecord (s.ctx w.ctx).fn { s.warpRecord c w pc lanes 0 r with aux := aux, flags := flags } := by
  simp only [State.takeFault, hw]
  rw [post_kind0 _ _ _ (by simp [State.warpRecord])]

/-- What a fault or a transfer may change beside its warp: translations, what their walks count, and posted records. -/
structure FetchElse (s t : State) (c slot : Nat) : Prop where
  state : t = { s with cores := t.cores, tlb := t.tlb, walks := t.walks, bytes := t.bytes, evHeld := t.evHeld }
  cores : ∀ k, k ≠ c → t.core k = s.core k
  warps : ∀ o, o ≠ slot → t.warp? c o = s.warp? c o

theorem FetchElse.rfl' (s : State) (c o : Nat) : FetchElse s s c o := ⟨rfl, fun _ _ => rfl, fun _ _ => rfl⟩

theorem FetchElse.trans {s t u : State} {c o : Nat} (h : FetchElse s t c o) (g : FetchElse t u c o) : FetchElse s u c o where
  state := by rw [g.state, h.state]
  cores k hk := by rw [g.cores k hk, h.cores k hk]
  warps i hi := by rw [g.warps i hi, h.warps i hi]

theorem fetchElse_setWarp (s : State) (c o : Nat) (x : Warp) : FetchElse s (s.setWarp c o x) c o where
  state := rfl
  cores k hk := by simp [State.setWarp, core_setCore, Ne.symm hk]
  warps i hi := by simp [warp?_setWarp, Ne.symm hi]

theorem fetchElse_modWarp (s : State) (c o : Nat) (f : Warp → Warp) : FetchElse s (s.modWarp c o f) c o := by
  simp only [State.modWarp]
  split
  · exact fetchElse_setWarp ..
  · exact .rfl' ..

theorem fetchElse_readLine (s : State) (c x : Nat) (pc : PC) (fresh : Bool) (c' o : Nat) :
    FetchElse s (s.readLine c x pc fresh).2 c' o := by
  rw [readLine_state]
  exact ⟨rfl, fun _ _ => rfl, fun _ _ => rfl⟩

theorem fetchElse_takeFault (s : State) (c o : Nat) (lanes : Mask) (pc aux : PC) (past : Bool) (flags : BitVec 8)
    (r : Raise) : FetchElse s (s.takeFault c o lanes pc aux past flags r) c o := by
  cases hw : s.warp? c o with
  | none => simp only [State.takeFault, hw]; exact .rfl' ..
  | some w =>
    rw [takeFault_eq hw]
    exact ⟨rfl, (fetchElse_setWarp s c o _).cores, (fetchElse_setWarp s c o _).warps⟩

/-! ### A transfer -/

/-- A warp's state apart from where its lanes stand and what suspends or blocks them. -/
def Warp.Same (w x : Warp) : Prop :=
  x.names = w.names ∧ x.kregs = w.kregs ∧ x.preds = w.preds ∧ x.aflags = w.aflags ∧ x.live = w.live

theorem Warp.Same.trans {w x y : Warp} (h : w.Same x) (g : x.Same y) : w.Same y := by
  simp only [Warp.Same] at *; simp [g, h]

/-- A transfer sets the PCs of its live lanes and changes no name, predicate, uniform register or flag. -/
theorem transfer_spec {s : State} {c o : Nat} {w : Warp} (hw : s.warp? c o = some w) (lanes : Mask) (pc source : PC)
    (high : BitVec 16) : ∃ x, (s.transfer c o lanes pc source high).warp? c o = some x ∧ w.Same x ∧
      (∀ l, l < 32 → x.pc l = if laneOn (lanes &&& w.live) l then pc else w.pc l) ∧
      FetchElse s (s.transfer c o lanes pc source high) c o := by
  have hpc : ∀ l, l < 32 → (w.setPcs (lanes &&& w.live) fun _ => pc).pc l = if laneOn (lanes &&& w.live) l then pc else w.pc l :=
    fun l hl => pc_setPcs _ _ _ hl
  simp only [State.transfer, hw]
  split
  · next h0 =>
    refine ⟨w, hw, ⟨rfl, rfl, rfl, rfl, rfl⟩, fun l _ => ?_, .rfl' ..⟩
    rw [h0]; simp
  · let w1 := (w.setPcs (lanes &&& w.live) fun _ => pc).clearArrivals (lanes &&& w.live)
    let m := { w1 with arrivals := (lanesOf (lanes &&& w.live)).foldl (fun t i => t.put i ⟨source, high⟩) w1.arrivals }
    have e1 : FetchElse s (s.setWarp c o m) c o := fetchElse_setWarp ..
    have hm : (s.setWarp c o m).warp? c o = some m := warp?_setWarp_self ..
    have fault : ∀ (t : State) (r : Raise), FetchElse s t c o → t.warp? c o = some m →
        ∃ x, (t.takeFault c o (lanes &&& w.live) pc source false 0 r).warp? c o = some x ∧ w.Same x ∧
          (∀ l, l < 32 → x.pc l = if laneOn (lanes &&& w.live) l then pc else w.pc l) ∧
          FetchElse s (t.takeFault c o (lanes &&& w.live) pc source false 0 r) c o := by
      intro t r ht hwt
      let y : Warp :=
        { m with traps := m.traps ++ [⟨lanes &&& w.live, r.code, false, false⟩], stall := none, timeout := false, ran := t.cycle }
      refine ⟨y, ?_, ⟨rfl, rfl, rfl, rfl, rfl⟩, hpc, ht.trans (fetchElse_takeFault ..)⟩
      rw [takeFault_eq hwt]
      exact warp?_setWarp_self ..
    have e2 := fetchElse_readLine (s.setWarp c o m) c w.ctx pc false c o
    have hr := readLine_warp? (s.setWarp c o m) c w.ctx pc false c o
    split
    · exact fault _ _ e1 hm
    · split
      · next s2 h2 =>
        rw [h2] at e2 hr
        exact ⟨m, hr.trans hm, ⟨rfl, rfl, rfl, rfl, rfl⟩, hpc, e1.trans e2⟩
      · next s2 h2 =>
        rw [h2] at e2 hr
        exact fault _ _ (e1.trans e2) (hr.trans hm)
      · next s2 h2 =>
        rw [h2] at e2 hr
        split
        · exact fault _ _ (e1.trans e2) (hr.trans hm)
        · exact ⟨w1, warp?_setWarp_self .., ⟨rfl, rfl, rfl, rfl, rfl⟩, hpc, (e1.trans e2).trans (fetchElse_setWarp ..)⟩

/-- An encoded instruction that issues has its effect on the state in which it issues. -/
theorem exec_next {s : State} {h : Hdr} {i : Instr} {e : Env} (hh : hdrOf i = some h) {k : Env → State → State}
    (hi : exec i s = issue s h i (needs i s) k) (hr : Ready s i e) : exec i s = .next (k e (s.issued e (needs i s))) := by
  obtain ⟨h', hh', he⟩ := hr
  cases hh.symm.trans hh'
  exact hi.trans (issue_next _ he)

/-- What `Named` says depends on names, uniform registers, predicates and flags alone. -/
theorem Named.of_eq {e : Env} {n : Needs} {v : Nat → List Word} {x : Extra} {w y : Warp} (h : Named e n v x w)
   (h1 : y.names = w.names) (h2 : y.kregs = w.kregs) (h3 : y.preds = w.preds) (h4 : y.aflags = w.aflags) : Named e n v x y := by
  have hv : ∀ d l, y.val d l = w.val d l := by intro d l; simp [Warp.val, h1, h2]
  have hc : ∀ d l, y.count d l = w.count d l := by intro d l; simp [Warp.count, h1]
  have hp : ∀ p, y.pred p = w.pred p := by intro p; simp [Warp.pred, h3]
  constructor
  · simpa [hv, hc] using h.value
  · simpa [hv, hc] using h.uniform
  · simpa [hv, hc] using h.counts
  · simpa [hv, hc] using h.values
  · simpa [hv, hc] using h.uniforms
  · simpa [hp] using h.preds
  · rw [h4]; exact h.flags

/-- Transfers by groups: every active lane whose target some listed lane names stands at its own target. -/
theorem groups_spec (e : Env) (t : Nat → BitVec 64) (ls : List Nat) (hls : ∀ i ∈ ls, i < 32) : ∀ {s : State} {w : Warp}, s.warp? e.core e.slot = some w →
    ∃ x, (ls.foldl (fun s i =>
    s.transfer e.core e.slot (maskOf fun j => laneOn e.act j && t j == t i) ((t i).extractLsb' 0 48) e.pc
      ((t i).extractLsb' 48 16)) s).warp? e.core e.slot = some x ∧ w.Same x ∧ 
      (∀ l, l < 32 → laneOn w.live l = true → x.pc l = if laneOn e.act l = true ∧ (∃ i ∈ ls, t l = t i) then (t l).extractLsb' 0 48 else w.pc l) ∧
      FetchElse s (ls.foldl (fun s i =>
    s.transfer e.core e.slot (maskOf fun j => laneOn e.act j && t j == t i) ((t i).extractLsb' 0 48) e.pc
      ((t i).extractLsb' 48 16)) s) e.core e.slot := by
  induction ls with
  | nil => intro s w hw; exact ⟨w, hw, ⟨rfl, rfl, rfl, rfl, rfl⟩, by simp, .rfl' ..⟩
  | cons i ls ih =>
    intro s w hw
    obtain ⟨x, hx, hsame, hpc, hel⟩ := transfer_spec hw (maskOf fun j => laneOn e.act j && t j == t i) ((t i).extractLsb' 0 48) e.pc ((t i).extractLsb' 48 16)
    obtain ⟨y, hy, hsame2, hpc2, hel2⟩ := ih (fun i hi => hls i (List.mem_cons_of_mem _ hi)) hx
    refine ⟨y, hy, hsame.trans hsame2, ?_, hel.trans hel2⟩
    intro l hl hlive
    rw [hpc2 l hl (by rw [hsame.2.2.2.2]; exact hlive), hpc l hl]
    simp only [laneOn_and, laneOn_maskOf _ hl, hlive, Bool.and_true]
    by_cases ha : laneOn e.act l = true
    · by_cases h1 : t l = t i
      · simp [ha, h1]
      · simp [ha, h1]
    · simp [ha]

end Sys2Proof.Machine
end

