-- ==== Sys2Proof/Laws/Canonical.lean ====
section
/-! SUPPORT. The shared operations that reach memory keep every memory canonical: writes at home and behind it,
translation, traffic at virtual addresses, and the lanes of accesses (09 R178, R179; 14 R253, R258, R260; 20 R311). -/
namespace Sys2Proof.Machine

/-- `Canonical` reads the six memories alone. -/
theorem Canonical.of_eq {s t : State} (h : Canonical s) (h1 : t.dev = s.dev) (h2 : t.dram = s.dram) (h3 : t.host = s.host)
    (h4 : t.hostBehind = s.hostBehind) (h5 : t.spad = s.spad) (h6 : t.lode = s.lode) : Canonical t := by
  simpa only [Canonical, h1, h2, h3, h4, h5, h6] using h

namespace Canonical
variable {s : State}

/-! ### What touches no memory -/

theorem setCore (h : Canonical s) (c : Nat) (k : Core) : Canonical (s.setCore c k) := h

theorem modCore (h : Canonical s) (c : Nat) (f : Core → Core) : Canonical (s.modCore c f) := h

theorem setWarp (h : Canonical s) (c o : Nat) (w : Warp) : Canonical (s.setWarp c o w) := h

theorem modWarp (h : Canonical s) (c o : Nat) (f : Warp → Warp) : Canonical (s.modWarp c o f) := by
  simp only [State.modWarp]
  split <;> exact h

theorem modPart (h : Canonical s) (p : Nat) (f : Part → Part) : Canonical (s.modPart p f) := h

theorem modFn (h : Canonical s) (p : Nat) (f : FnPage → FnPage) : Canonical (s.modFn p f) := h

theorem modCtx (h : Canonical s) (p : Nat) (f : Ctx → Ctx) : Canonical (s.modCtx p f) := h

theorem modLaunch (h : Canonical s) (n : Nat) (f : Launch → Launch) : Canonical (s.modLaunch n f) := by
  simp only [State.modLaunch]
  try split
  all_goals exact h

theorem tally (h : Canonical s) (p k n : Nat) : Canonical (s.tally p k n) := h

theorem post (h : Canonical s) (fn : Nat) (r : EvRec) : Canonical (s.post fn r) := by
  simp only [State.post]
  repeat' split
  all_goals exact h

theorem takeFault (h : Canonical s) (c o : Nat) (m : Mask) (pc aux : PC) (past : Bool) (f : BitVec 8) (r : Raise) :
    Canonical (s.takeFault c o m pc aux past f r) := by
  cases hw : s.warp? c o with
  | none => simpa only [State.takeFault, hw] using h
  | some w => rw [takeFault_eq hw]; exact h

theorem translate (h : Canonical s) (u : TUnit) (x va : Nat) (k : AccKind) (sys peer fresh : Bool) :
    Canonical (s.translate u x va k sys peer fresh).2 := by
  rw [translate_state]; exact h

theorem readLine (h : Canonical s) (c x : Nat) (pc : PC) (fresh : Bool) : Canonical (s.readLine c x pc fresh).2 := by
  rw [readLine_state]; exact h

theorem keepRecord (h : Canonical s) (fn : Nat) (r : EvRec) : Canonical (s.keepRecord fn r) := h

/-- Steps that each keep the memories canonical keep them in a row. -/
theorem foldl {α : Type} {f : State → α → State} (hf : ∀ s x, Canonical s → Canonical (f s x)) :
    ∀ (xs : List α) {s : State}, Canonical s → Canonical (xs.foldl f s)
  | [], _, h => h
  | x :: xs, _, h => foldl hf xs (hf _ x h)

/-! ### The lines of the L2s, and writes -/

theorem wf_takeDirty {behind : Memory} (h : behind.wf = true) (view : Memory) (l : L2Line) : (behind.takeDirty view l).wf = true := by
  have : ∀ (is : List Nat) {m : Memory}, m.wf = true → (is.foldl (fun m i =>
      if l.dirty.getLsbD i then m.write (128 * l.addr + i) (view.read (128 * l.addr + i)) else m) m).wf = true := by
    intro is
    induction is with
    | nil => exact fun h => h
    | cons i is ih =>
      intro m h
      simp only [List.foldl_cons]
      split
      · exact ih (Memory.wf_write h _ _)
      · exact ih h
  exact this _ h

theorem cleanLine (h : Canonical s) (l : L2Line) : Canonical (s.cleanLine l) := by
  obtain ⟨h1, h2, h3, h4, h5, h6⟩ := h
  simp only [State.cleanLine]
  split
  · exact ⟨h1, h2, h3, wf_takeDirty h4 s.host l, h5, h6⟩
  · exact ⟨h1, wf_takeDirty h2 s.dev l, h3, h4, h5, h6⟩

theorem giveUpLine (h : Canonical s) (l : L2Line) : Canonical (s.giveUpLine l) := by
  obtain ⟨h1, h2, h3, h4, h5, h6⟩ := h.cleanLine l
  simp only [State.giveUpLine]
  split
  · exact ⟨h1, h2, Memory.wf_writeN _ _ h3, h4, h5, h6⟩
  · exact ⟨Memory.wf_writeN _ _ h1, h2, h3, h4, h5, h6⟩

theorem l2Add (h : Canonical s) (x : L2Line) : Canonical (s.l2Add x) := by
  have : Canonical (if (s.l2.filter fun l => l.set == x.set).length < 16 then s
      else match victimOf L2Line.hint (s.l2.filter fun l => l.set == x.set) with
        | some l => s.giveUpLine l
        | none => s) := by
    split
    · exact h
    · split
      · exact h.giveUpLine _
      · exact h
  exact this

theorem l2Hold (h : Canonical s) (x : L2Line) : Canonical (s.l2Hold x) := by
  simp only [State.l2Hold]
  split
  · split
    · exact h
    · exact (h.giveUpLine _).l2Add _
  · exact h.l2Add _

theorem count (h : Canonical s) (x r n : Nat) : Canonical (s.count x r n) := h

theorem countAt (h : Canonical s) (x : Nat) (p : Phys) (n : Nat) : Canonical (s.countAt x p n) := h

theorem l2Fill (h : Canonical s) (x : Nat) (p : Phys) (n : Nat) (hint : BitVec 2) : Canonical (s.l2Fill x p n hint) :=
  foldl (fun s l h => by
    have : Canonical (if s.l2Has p.host l then s else s.countAt x p 128) := by split <;> exact h
    exact this.l2Hold _) _ h

theorem homeWrite (h : Canonical s) (part : Nat) (p : Phys) (bs : List Byte) : Canonical (s.homeWrite part p bs) := by
  obtain ⟨h1, h2, h3, h4, h5, h6⟩ : Canonical ((linesFrom p.addr bs.length).foldl (fun s l => s.l2Hold
      { host := p.host, addr := l, set := s.l2Set part p.host l, dirty := lineBits l p.addr bs.length, hint := 0 }) s) :=
    foldl (fun _ _ h => h.l2Hold _) _ h
  simp only [State.homeWrite]
  split
  · exact ⟨h1, h2, Memory.wf_writeN _ _ h3, h4, h5, h6⟩
  · exact ⟨Memory.wf_writeN _ _ h1, h2, h3, h4, h5, h6⟩

theorem physWrite (h : Canonical s) (x : Nat) (p : Phys) (bs : List Byte) : Canonical (s.physWrite x p bs) :=
  (h.countAt x p bs.length).homeWrite _ _ _

theorem writeBack (h : Canonical s) (p : Phys) : Canonical (s.writeBack p) := by
  simp only [State.writeBack]
  split
  · exact h.cleanLine _
  · exact h

theorem wf_writes {m : Memory} (h : m.wf = true) (a : Nat) (bs : List (Byte × Nat)) :
    (bs.foldl (fun (m : Memory) (b : Byte × Nat) => m.write (a + b.2) b.1) m).wf = true := by
  induction bs generalizing m with
  | nil => exact h
  | cons b bs ih => exact ih (Memory.wf_write h _ _)

theorem behindWrite (h : Canonical s) (x : Nat) (p : Phys) (bs : List Byte) : Canonical (s.behindWrite x p bs) := by
  obtain ⟨h1, h2, h3, h4, h5, h6⟩ := h
  simp only [State.behindWrite]
  split
  · exact ⟨h1, h2, wf_writes h3 _ _, Memory.wf_writeN _ _ h4, h5, h6⟩
  · exact ⟨wf_writes h1 _ _, Memory.wf_writeN _ _ h2, h3, h4, h5, h6⟩

theorem pageFill (h : Canonical s) (t : Xlated) (n : Nat) : Canonical (s.pageFill t n) := by
  simp only [State.pageFill]
  split
  · exact h
  · exact h.l2Fill _ _ _ _

theorem pageWrite (h : Canonical s) (t : Xlated) (bs : List Byte) : Canonical (s.pageWrite t bs) := by
  simp only [State.pageWrite]
  split
  · exact h.behindWrite _ _ _
  · exact h.physWrite _ _ _

theorem spad (h : Canonical s) (a : Nat) (bs : List Byte) : Canonical { s with spad := s.spad.writeN a bs } :=
  ⟨h.1, h.2.1, h.2.2.1, h.2.2.2.1, Memory.wf_writeN _ _ h.2.2.2.2.1, h.2.2.2.2.2⟩

/-! ### Global lanes -/

theorem l1Drop (h : Canonical s) (c x : Nat) (p : Phys) : Canonical (s.l1Drop c x p) := h

theorem l1Update (h : Canonical s) (c x : Nat) (p : Phys) (bs : List Byte) : Canonical (s.l1Update c x p bs) := h

theorem markLine (h : Canonical s) (c : Option Nat) (x : Nat) (p : Phys) (hint : BitVec 2) :
    Canonical (s.markLine c x p hint) := by
  simp only [State.markLine]
  repeat' split
  all_goals exact h

theorem l1Fill (h : Canonical s) (c x : Nat) (p : Phys) (hint : BitVec 2) : Canonical (s.l1Fill c x p hint) := h.l2Fill x p 1 hint

theorem loadGlobal (h : Canonical s) (c : Option Nat) (x : Nat) (t : Xlated) (f : MF) (n : Nat) :
    Canonical (s.loadGlobal c x t f n).2 := by
  simp only [State.loadGlobal]
  repeat' split
  all_goals first | exact h | exact h.markLine .. | exact h.l1Fill .. | exact (h.l2Fill ..).markLine ..

theorem storeGlobal (h : Canonical s) (c : Option Nat) (x : Nat) (t : Xlated) (f : MF) (bs : List Byte) :
    Canonical (s.storeGlobal c x t f bs) := by
  have hp := h.physWrite x t.phys bs
  simp only [State.storeGlobal]
  split
  · exact h.behindWrite _ _ _
  · refine markLine ?_ c x t.phys f.hint
    repeat' split
    all_goals exact hp

theorem rmwOld (h : Canonical s) (c : Option Nat) (x : Nat) (t : Xlated) (a : Acc) (n : Nat) :
    Canonical (s.rmwOld c x t a n).2 := by
  simp only [State.rmwOld]
  repeat' split
  all_goals first | exact h | exact h.l1Fill _ _ _ _

theorem vaReadGo (u : TUnit) (ctx : Nat) (sys fresh : Bool) : ∀ (ps : List (Nat × Nat)) {s : State}, Canonical s →
    Canonical (State.vaReadGo u ctx sys fresh ps s).2
  | [], _, h => h
  | (va, n) :: ps, s, h => by
    have ht := h.translate u ctx va .read sys false fresh
    simp only [State.vaReadGo]
    split
    · exact h
    · split
      · next he => rw [he] at ht; exact ht
      · next he =>
        rw [he] at ht
        have hr := vaReadGo u ctx sys fresh ps ht
        split
        · exact ht
        · split
          · next hq => rw [hq] at hr; exact hr
          · next hq => rw [hq] at hr; exact hr

theorem vaRead (h : Canonical s) (u : TUnit) (ctx va n : Nat) (sys fresh : Bool) :
    Canonical (s.vaRead u ctx va n sys fresh).2 := vaReadGo u ctx sys fresh _ h

theorem vaWriteGo (u : TUnit) (ctx : Nat) (sys fresh : Bool) : ∀ (ps : List (Nat × Nat)) (bs : List Byte) {s : State}, Canonical s →
    Canonical (State.vaWriteGo u ctx sys fresh ps bs s).2
  | [], _, _, h => h
  | (va, n) :: ps, bs, s, h => by
    have ht := h.translate u ctx va .write sys false fresh
    simp only [State.vaWriteGo]
    split
    · exact h
    · split
      · next he => rw [he] at ht; exact ht
      · next he =>
        rw [he] at ht
        exact vaWriteGo u ctx sys fresh ps _ (ht.pageWrite _ _)

theorem vaWrite (h : Canonical s) (u : TUnit) (ctx va : Nat) (bs : List Byte) (sys fresh : Bool) :
    Canonical (s.vaWrite u ctx va bs sys fresh).2 := vaWriteGo u ctx sys fresh _ bs h

theorem bufferRecord (h : Canonical s) (u : TUnit) (n : Nat) (r : RedRecord) {t : State} (ht : s.bufferRecord u n r = .ok t) :
    Canonical t := by
  have hw := h.vaWrite u (s.launch n).ctx (fieldAt (s.launch n).record 168 8 + 32 * (s.launch n).accepted) r.bytes true false
  simp only [State.bufferRecord] at ht
  split at ht
  · cases ht
  · split at ht
    · cases ht
    · next he => cases ht; rw [he] at hw; exact hw.modLaunch _ _

theorem laneFault (h : Canonical s) (u : TUnit) (c : Option Nat) (x : Nat) (a : Acc) (l : AccLane) :
    Canonical (s.laneFault u c x a l).2 := by
  have ht := h.translate u x l.addr a.op.access false false false
  simp only [State.laneFault]
  split
  · next he => rw [he] at ht; exact ht
  · next he =>
    rw [he] at ht
    repeat' split
    all_goals first | exact ht | exact ht.modLaunch _ _

theorem laneEffect (h : Canonical s) (u : TUnit) (c : Option Nat) (x : Nat) (a : Acc) (l : AccLane) (t : Xlated) :
    Canonical (s.laneEffect u c x a l t).2 := by
  simp only [State.laneEffect]
  split
  · exact h.loadGlobal c x t a.f _
  · exact h.storeGlobal c x t a.f _
  · exact h.writeBack _
  · split
    · split
      · next hb => exact h.bufferRecord u _ _ hb
      · exact h
    · have hr := h.rmwOld c x t a (widthBytes a.f.width)
      cases (rmwNew a l (s.rmwOld c x t a (widthBytes a.f.width)).1 0).1 with
      | none => exact hr
      | some v => exact hr.storeGlobal c x t _ _

theorem laneHalf (h : Canonical s) (u : TUnit) (c : Option Nat) (x : Nat) (a : Acc) (l : AccLane) (t : Xlated) (high : Bool) :
    Canonical (s.laneHalf u c x a l t high).2 := h.laneEffect ..

theorem laneStep (h : Canonical s) (u : TUnit) (c : Option Nat) (x : Nat) (a : Acc) (l : AccLane) (t : Xlated) (high : Bool) :
    Canonical (s.laneStep u c x a l t high).2 := by
  simp only [State.laneStep]
  split
  · exact h.laneEffect ..
  · exact h.laneHalf ..

theorem laneWhole (h : Canonical s) (u : TUnit) (c : Option Nat) (x : Nat) (a : Acc) (l : AccLane) (t : Xlated) :
    Canonical (s.laneWhole u c x a l t).2 := by
  simp only [State.laneWhole]
  split
  · exact h.laneStep ..
  · exact (h.laneStep ..).laneHalf ..

theorem laneHome (h : Canonical s) (c x : Nat) (a : Acc) (l : AccLane) (p : Phys) : Canonical (s.laneHome c x a l p).2 := by
  simp only [State.laneHome]
  refine markLine ?_ _ _ _ _
  split <;> exact h.physWrite _ _ _

theorem laneLocal (h : Canonical s) (c x : Nat) (a : Acc) (l : AccLane) : Canonical (s.laneLocal c x a l).2 := by
  simp only [State.laneLocal]
  repeat' split
  all_goals first | exact h | exact h.spad _ _

theorem performLane (h : Canonical s) (c x : Nat) (a : Acc) (l : AccLane) (high : Bool) {r : AccLane × State}
    (hr : s.performLane c x a l high = some r) : Canonical r.2 := by
  have again : ∀ (e : Option Nat) (t : Xlated) (k : Xlated → State → AccLane × State),
      (∀ u s, Canonical s → Canonical (k u s).2) →
      (if unexpired e (s.timeAt c) then some (k t s)
        else match s.laneFault (.core c) (some c) x a l with
          | (.error _, _) => none
          | (.ok u, s1) => some (k u s1)) = some r → Canonical r.2 := by
    intro e t k hk hr
    split at hr
    · cases hr; exact hk _ _ h
    · split at hr
      · cases hr
      · next he =>
        have hf := h.laneFault (.core c) (some c) x a l
        rw [he] at hf
        cases hr; exact hk _ _ hf
  simp only [State.performLane] at hr
  split at hr
  · next host at_ e _ =>
    exact again e { halfPage x false at_ with phys := { host := host, addr := at_ } } (fun t s => s.laneHome c x a l t.phys)
      (fun _ _ h => h.laneHome ..) hr
  · next k uncached at_ e _ =>
    exact again e (halfPage x uncached at_) (fun t s => s.laneHalf (.core c) (some c) x a l t !k) (fun _ _ h => h.laneHalf ..) hr
  · split at hr
    · split at hr
      · cases hr
      · next he =>
        have hf := h.laneFault (.core c) (some c) x a l
        rw [he] at hf
        cases hr; exact hf.laneStep ..
    · cases hr; exact h.laneLocal ..

theorem performLanes (c x : Nat) (a : Acc) (high : Bool) : ∀ (ls : List AccLane) {s : State} {r : List AccLane × State}, Canonical s →
    State.performLanes c x a high ls s = some r → Canonical r.2
  | [], _, _, h, hr => by cases hr; exact h
  | l :: ls, s, r, h, hr => by
    simp only [State.performLanes] at hr
    split at hr
    · cases hr
    · next he =>
      obtain ⟨q, hq, rfl⟩ := Option.map_eq_some_iff.1 hr
      exact (performLanes c x a high ls (h.performLane c x a l high he) hq : Canonical q.2)

end Canonical
end Sys2Proof.Machine
end

