-- ==== Sys2Proof/Laws/Pages.lean ====
section
/-! SUPPORT. Lookup of function pages, queues, contexts and launches after an update, and what posting a record leaves
(19 R291; 21 R329 to R331). -/
namespace Sys2Proof.Machine

@[simp] theorem fn_modFn (s : State) (f k : Nat) (g : FnPage → FnPage) :
    (s.modFn f g).fn k = if f = k then g (s.fn f) else s.fn k := by
  simp only [State.fn, State.modFn, Tab.getD_put]

@[simp] theorem ctx_modCtx (s : State) (x y : Nat) (g : Ctx → Ctx) :
    (s.modCtx x g).ctx y = if x = y then g (s.ctx x) else s.ctx y := by
  simp only [State.ctx, State.modCtx, Tab.getD, Tab.get?_put]
  by_cases h : x = y
  · subst h; simp
  · simp [h]

/-- A launch that exists is changed, and every other is as it was. -/
theorem launches_modLaunch (s : State) (n k : Nat) (g : Launch → Launch) :
    (s.modLaunch n g).launches.get? k = if n = k then (s.launches.get? n).map g else s.launches.get? k := by
  simp only [State.modLaunch]
  by_cases h : n = k
  · subst h; split <;> simp_all
  · split <;> simp [h, Tab.get?_put]

theorem launch_modLaunch (s : State) (n k : Nat) (g : Launch → Launch) {l : Launch} (hl : s.launches.get? n = some l) :
    (s.modLaunch n g).launch k = if n = k then g l else s.launch k := by
  simp only [State.launch, Tab.getD, launches_modLaunch, hl]
  by_cases h : n = k <;> simp [h]

@[simp] theorem queue_modQueue (s : State) (fn q : Nat) (f : Queue → Queue) (p : Nat) :
    (s.modQueue fn q f).queue fn p = if q = p then f (s.queue fn q) else s.queue fn p := by
  simp only [State.modQueue, State.queue, fn_modFn, if_true, Tab.getD_put]

theorem fnPart_modFn (s : State) (f k : Nat) (g : FnPage → FnPage) (h : (g (s.fn f)).part = (s.fn f).part) :
    (s.modFn f g).fnPart k = s.fnPart k := by
  simp only [State.fnPart, fn_modFn]
  by_cases hk : f = k
  · subst hk; simp [h]
  · simp [hk]

@[simp] theorem fnPart_modQueue (s : State) (fn q : Nat) (f : Queue → Queue) (k : Nat) :
    (s.modQueue fn q f).fnPart k = s.fnPart k := fnPart_modFn s fn k _ rfl

/-- The head moves on by one, and only the page of the queue changes. -/
theorem head_passHead (s : State) (fn q : Nat) (w : Option QWork) :
    ((s.passHead fn q w).queue fn q).head = (s.queue fn q).head + 1 := by
  simp [State.passHead]

/-- Posting a record changes the held records, and the lost count and the dropped mark of one page; nothing else. -/
theorem post_state (s : State) (fn : Nat) (r : EvRec) :
    s.post fn r = { s with evHeld := (s.post fn r).evHeld, fns := (s.post fn r).fns } := by
  simp only [State.post]
  split <;> rfl

theorem queue_post (s : State) (fn : Nat) (r : EvRec) (k q : Nat) : (s.post fn r).queue k q = s.queue k q := by
  simp only [State.post]
  split
  · rfl
  · simp only [State.queue, fn_modFn]
    by_cases h : fn = k
    · subst h; simp
    · simp [h]

theorem fnPart_post (s : State) (fn : Nat) (r : EvRec) (k : Nat) : (s.post fn r).fnPart k = s.fnPart k := by
  simp only [State.post]
  split
  · rfl
  · exact fnPart_modFn s fn k _ rfl

end Sys2Proof.Machine
end

