-- ==== Sys2Proof/Laws/PerInstr.lean ====
section
/-! SUPPORT. For every instruction: the header bits of its word hold its header (04 R72). -/
namespace Sys2Proof.Laws

open Sys2Proof.Machine

namespace Header

/-- The header fields of the word that encodes an instruction are the instruction's. -/
def Statement (i : Instr) : Prop := ∀ (h : Hdr) (w : InsnWord), hdrOf i = some h → encode i = some w → decodeHdr w = h

/-- Bits of the front part of an append. -/
theorem bits_front {m n k a : Nat} (x : BitVec m) (y : BitVec n) (ha : n ≤ a) :
    (x ++ y).extractLsb' a k = x.extractLsb' (a - n) k := by
  ext i hi
  simp only [BitVec.getElem_extractLsb', BitVec.getLsbD_append]
  rw [if_neg (by omega)]
  congr 1
  omega

/-- Bits of the back part of an append. -/
theorem bits_back {m n k a : Nat} (x : BitVec m) (y : BitVec n) (ha : a + k ≤ n) :
    (x ++ y).extractLsb' a k = y.extractLsb' a k := by
  ext i hi
  simp only [BitVec.getElem_extractLsb', BitVec.getLsbD_append]
  rw [if_pos (by omega)]

theorem bits_all {n : Nat} (x : BitVec n) : x.extractLsb' 0 n = x := by
  ext i hi
  simp

/-- The header that stands before 70 class bits is read back. -/
theorem hdr_encodeHdr (c : BitVec 3) (fn : BitVec 7) (h : Hdr) (r : BitVec 70) : decodeHdr (encodeHdr c fn h r) = h := by
  obtain ⟨n, g, d, k⟩ := h
  simp only [decodeHdr, encodeHdr, Hdr.mk.injEq]
  refine ⟨?_, ?_, ?_, ?_⟩
  · rw [BitVec.getLsbD_append, if_neg (by omega), BitVec.getLsbD_append, if_neg (by omega), BitVec.getLsbD_append,
      if_neg (by omega), BitVec.getLsbD_append, if_neg (by omega), BitVec.getLsbD_append, if_pos (by omega)]
    simp
  · rw [bits_front _ _ (by omega), bits_front _ _ (by omega), bits_front _ _ (by omega), bits_back _ _ (by omega)]
    exact bits_all g
  · rw [bits_front _ _ (by omega), bits_front _ _ (by omega), bits_back _ _ (by omega)]
    exact bits_all d
  · rw [bits_front _ _ (by omega), bits_back _ _ (by omega)]
    exact bits_all k

/-- An encoded instruction: its word stands behind its own header. -/
theorem of_encoded {i : Instr} {h : Hdr} {c : BitVec 3} {fn : BitVec 7} {r : BitVec 70} (hh : hdrOf i = some h)
    (he : encode i = some (encodeHdr c fn h r)) : Statement i := by
  intro h' w hh' he'
  cases hh.symm.trans hh'
  cases he.symm.trans he'
  exact hdr_encodeHdr c fn h r

/-- An event, or a word of an unassigned opcode, has no header. -/
theorem of_none {i : Instr} (hh : hdrOf i = none) : Statement i := fun _ _ h => by rw [hh] at h; cases h

theorem fadd (h f) : Statement (.fadd h f) := of_encoded rfl rfl
theorem fsub (h f) : Statement (.fsub h f) := of_encoded rfl rfl
theorem fmul (h f) : Statement (.fmul h f) := of_encoded rfl rfl
theorem ffma (h f) : Statement (.ffma h f) := of_encoded rfl rfl
theorem fmin (h f) : Statement (.fmin h f) := of_encoded rfl rfl
theorem fmax (h f) : Statement (.fmax h f) := of_encoded rfl rfl
theorem fclass (h f) : Statement (.fclass h f) := of_encoded rfl rfl
theorem frcp (h f) : Statement (.frcp h f) := of_encoded rfl rfl
theorem frsq (h f) : Statement (.frsq h f) := of_encoded rfl rfl
theorem fsqrt (h f) : Statement (.fsqrt h f) := of_encoded rfl rfl
theorem fexp2 (h f) : Statement (.fexp2 h f) := of_encoded rfl rfl
theorem flog2 (h f) : Statement (.flog2 h f) := of_encoded rfl rfl
theorem fsin (h f) : Statement (.fsin h f) := of_encoded rfl rfl
theorem fcos (h f) : Statement (.fcos h f) := of_encoded rfl rfl
theorem ftanh (h f) : Statement (.ftanh h f) := of_encoded rfl rfl
theorem fsigm (h f) : Statement (.fsigm h f) := of_encoded rfl rfl
theorem hadd2 (h f) : Statement (.hadd2 h f) := of_encoded rfl rfl
theorem hmul2 (h f) : Statement (.hmul2 h f) := of_encoded rfl rfl
theorem hfma2 (h f) : Statement (.hfma2 h f) := of_encoded rfl rfl
theorem dot4 (h f) : Statement (.dot4 h f) := of_encoded rfl rfl
theorem wred (h f) : Statement (.wred h f) := of_encoded rfl rfl
theorem imad (h f) : Statement (.imad h f) := of_encoded rfl rfl
theorem cvt (h f) : Statement (.cvt h f) := of_encoded rfl rfl
theorem cvti (h f) : Statement (.cvti h f) := of_encoded rfl rfl
theorem cvtf (h f) : Statement (.cvtf h f) := of_encoded rfl rfl
theorem pack (h f) : Statement (.pack h f) := of_encoded rfl rfl
theorem unpack (h f) : Statement (.unpack h f) := of_encoded rfl rfl
theorem qhist (h f) : Statement (.qhist h f) := of_encoded rfl rfl
theorem qscale (h f) : Statement (.qscale h f) := of_encoded rfl rfl
theorem qcvt (h f) : Statement (.qcvt h f) := of_encoded rfl rfl
theorem iadd (h f) : Statement (.iadd h f) := of_encoded rfl rfl
theorem iaddc (h f) : Statement (.iaddc h f) := of_encoded rfl rfl
theorem isub (h f) : Statement (.isub h f) := of_encoded rfl rfl
theorem imul (h f) : Statement (.imul h f) := of_encoded rfl rfl
theorem imulh (h f) : Statement (.imulh h f) := of_encoded rfl rfl
theorem imin (h f) : Statement (.imin h f) := of_encoded rfl rfl
theorem imax (h f) : Statement (.imax h f) := of_encoded rfl rfl
theorem iabs (h f) : Statement (.iabs h f) := of_encoded rfl rfl
theorem ineg (h f) : Statement (.ineg h f) := of_encoded rfl rfl
theorem lea (h f) : Statement (.lea h f) := of_encoded rfl rfl
theorem ishl (h f) : Statement (.ishl h f) := of_encoded rfl rfl
theorem ishr (h f) : Statement (.ishr h f) := of_encoded rfl rfl
theorem isar (h f) : Statement (.isar h f) := of_encoded rfl rfl
theorem iand (h f) : Statement (.iand h f) := of_encoded rfl rfl
theorem ior (h f) : Statement (.ior h f) := of_encoded rfl rfl
theorem ixor (h f) : Statement (.ixor h f) := of_encoded rfl rfl
theorem inot (h f) : Statement (.inot h f) := of_encoded rfl rfl
theorem popc (h f) : Statement (.popc h f) := of_encoded rfl rfl
theorem clz (h f) : Statement (.clz h f) := of_encoded rfl rfl
theorem brev (h f) : Statement (.brev h f) := of_encoded rfl rfl
theorem bfx (h f) : Statement (.bfx h f) := of_encoded rfl rfl
theorem bfi (h f) : Statement (.bfi h f) := of_encoded rfl rfl
theorem pseti (h f) : Statement (.pseti h f) := of_encoded rfl rfl
theorem psetf (h f) : Statement (.psetf h f) := of_encoded rfl rfl
theorem plop (h f) : Statement (.plop h f) := of_encoded rfl rfl
theorem pvote (h f) : Statement (.pvote h f) := of_encoded rfl rfl
theorem pmovTov (h f) : Statement (.pmovTov h f) := of_encoded rfl rfl
theorem pmovFromv (h f) : Statement (.pmovFromv h f) := of_encoded rfl rfl
theorem mov (h f) : Statement (.mov h f) := of_encoded rfl rfl
theorem sel (h f) : Statement (.sel h f) := of_encoded rfl rfl
theorem shfl (h f) : Statement (.shfl h f) := of_encoded rfl rfl
theorem bcast (h f) : Statement (.bcast h f) := of_encoded rfl rfl
theorem kmov (h f) : Statement (.kmov h f) := of_encoded rfl rfl
theorem drop (h f) : Statement (.drop h f) := of_encoded rfl rfl
theorem clear (h f) : Statement (.clear h f) := of_encoded rfl rfl
theorem release (h f) : Statement (.release h f) := of_encoded rfl rfl
theorem hold (h f) : Statement (.hold h f) := of_encoded rfl rfl
theorem recount (h f) : Statement (.recount h f) := of_encoded rfl rfl
theorem rdsr (h f) : Statement (.rdsr h f) := of_encoded rfl rfl
theorem rdsrClr (h f) : Statement (.rdsrClr h f) := of_encoded rfl rfl
theorem time (h f) : Statement (.time h f) := of_encoded rfl rfl
theorem ld (h f) : Statement (.ld h f) := of_encoded rfl rfl
theorem st (h f) : Statement (.st h f) := of_encoded rfl rfl
theorem pref (h f) : Statement (.pref h f) := of_encoded rfl rfl
theorem atom (h f) : Statement (.atom h f) := of_encoded rfl rfl
theorem cas (h f) : Statement (.cas h f) := of_encoded rfl rfl
theorem red (h f) : Statement (.red h f) := of_encoded rfl rfl
theorem amaxp (h f) : Statement (.amaxp h f) := of_encoded rfl rfl
theorem fence (h f) : Statement (.fence h f) := of_encoded rfl rfl
theorem cwb (h f) : Statement (.cwb h f) := of_encoded rfl rfl
theorem bra (h f) : Statement (.bra h f) := of_encoded rfl rfl
theorem bri (h f) : Statement (.bri h f) := of_encoded rfl rfl
theorem call (h f) : Statement (.call h f) := of_encoded rfl rfl
theorem calli (h f) : Statement (.calli h f) := of_encoded rfl rfl
theorem ret (h f) : Statement (.ret h f) := of_encoded rfl rfl
theorem exit (h f) : Statement (.exit h f) := of_encoded rfl rfl
theorem yield (h f) : Statement (.yield h f) := of_encoded rfl rfl
theorem nop (h f) : Statement (.nop h f) := of_encoded rfl rfl
theorem wait (h f) : Statement (.wait h f) := of_encoded rfl rfl
theorem sleep (h f) : Statement (.sleep h f) := of_encoded rfl rfl
theorem trap (h f) : Statement (.trap h f) := of_encoded rfl rfl
theorem bkpt (h f) : Statement (.bkpt h f) := of_encoded rfl rfl
theorem sload (h f) : Statement (.sload h f) := of_encoded rfl rfl
theorem sstore (h f) : Statement (.sstore h f) := of_encoded rfl rfl
theorem sevict (h f) : Statement (.sevict h f) := of_encoded rfl rfl
theorem sstat (h f) : Statement (.sstat h f) := of_encoded rfl rfl
theorem mmt (h f) : Statement (.mmt h f) := of_encoded rfl rfl
theorem mmtx (h f) : Statement (.mmtx h f) := of_encoded rfl rfl
theorem mmtg (h f) : Statement (.mmtg h f) := of_encoded rfl rfl
theorem gzero (h f) : Statement (.gzero h f) := of_encoded rfl rfl
theorem gload (h f) : Statement (.gload h f) := of_encoded rfl rfl
theorem gstore (h f) : Statement (.gstore h f) := of_encoded rfl rfl
theorem accz (h f) : Statement (.accz h f) := of_encoded rfl rfl
theorem accld (h f) : Statement (.accld h f) := of_encoded rfl rfl
theorem accst (h f) : Statement (.accst h f) := of_encoded rfl rfl
theorem accmv (h f) : Statement (.accmv h f) := of_encoded rfl rfl
theorem tagset (h f) : Statement (.tagset h f) := of_encoded rfl rfl
theorem tagcnt (h f) : Statement (.tagcnt h f) := of_encoded rfl rfl
theorem vcopy (h f) : Statement (.vcopy h f) := of_encoded rfl rfl
theorem vgather (h f) : Statement (.vgather h f) := of_encoded rfl rfl
theorem vscatter (h f) : Statement (.vscatter h f) := of_encoded rfl rfl
theorem vput (h f) : Statement (.vput h f) := of_encoded rfl rfl
theorem vget (h f) : Statement (.vget h f) := of_encoded rfl rfl
theorem vred (h f) : Statement (.vred h f) := of_encoded rfl rfl
theorem vstat (h f) : Statement (.vstat h f) := of_encoded rfl rfl
theorem vcancel (h f) : Statement (.vcancel h f) := of_encoded rfl rfl
theorem sort (h f) : Statement (.sort h f) := of_encoded rfl rfl
theorem bararr (h f) : Statement (.bararr h f) := of_encoded rfl rfl
theorem barwait (h f) : Statement (.barwait h f) := of_encoded rfl rfl
theorem barsync (h f) : Statement (.barsync h f) := of_encoded rfl rfl
theorem bardrop (h f) : Statement (.bardrop h f) := of_encoded rfl rfl
theorem barstat (h f) : Statement (.barstat h f) := of_encoded rfl rfl
theorem grpq (h f) : Statement (.grpq h f) := of_encoded rfl rfl
theorem launch (h f) : Statement (.launch h f) := of_encoded rfl rfl
theorem fsig (h f) : Statement (.fsig h f) := of_encoded rfl rfl
theorem fwait (h f) : Statement (.fwait h f) := of_encoded rfl rfl
theorem nexttile (h f) : Statement (.nexttile h f) := of_encoded rfl rfl
theorem steal (h f) : Statement (.steal h f) := of_encoded rfl rfl
theorem wrsrFlush (h f) : Statement (.wrsrFlush h f) := of_encoded rfl rfl
theorem wrsrQuota (h f) : Statement (.wrsrQuota h f) := of_encoded rfl rfl
theorem wrsrEvent (h f) : Statement (.wrsrEvent h f) := of_encoded rfl rfl
theorem watch (h f) : Statement (.watch h f) := of_encoded rfl rfl
theorem warpSwapOut (x0 x1 x2) : Statement (.warpSwapOut x0 x1 x2) := of_none rfl
theorem syncBlockTimeout (x0 x1) : Statement (.syncBlockTimeout x0 x1) := of_none rfl
theorem warpEviction (x0 x1) : Statement (.warpEviction x0 x1) := of_none rfl
theorem warpRefill (x0 x1) : Statement (.warpRefill x0 x1) := of_none rfl
theorem slotAllocation (x0 x1) : Statement (.slotAllocation x0 x1) := of_none rfl
theorem blockAdmission (x0 x1) : Statement (.blockAdmission x0 x1) := of_none rfl
theorem blockEnd (x0) : Statement (.blockEnd x0) := of_none rfl
theorem barrierWaiterRelease (x0 x1 x2) : Statement (.barrierWaiterRelease x0 x1 x2) := of_none rfl
theorem sleepExpiry (x0 x1 x2) : Statement (.sleepExpiry x0 x1 x2) := of_none rfl
theorem fwaitRelease (x0 x1 x2) : Statement (.fwaitRelease x0 x1 x2) := of_none rfl
theorem instructionFetch (x0 x1) : Statement (.instructionFetch x0 x1) := of_none rfl
theorem loadWriteback (x0 x1 x2) : Statement (.loadWriteback x0 x1 x2) := of_none rfl
theorem storePerformed (x0 x1 x2 x3) : Statement (.storePerformed x0 x1 x2 x3) := of_none rfl
theorem accessTranslationFault (x0 x1 x2 x3) : Statement (.accessTranslationFault x0 x1 x2 x3) := of_none rfl
theorem operandLogReplay (x0 x1 x2) : Statement (.operandLogReplay x0 x1 x2) := of_none rfl
theorem storeFaultReplay (x0 x1) : Statement (.storeFaultReplay x0 x1) := of_none rfl
theorem translationWalk (x0 x1 x2) : Statement (.translationWalk x0 x1 x2) := of_none rfl
theorem translationExpiry (x0) : Statement (.translationExpiry x0) := of_none rfl
theorem leaseRenewal (x0) : Statement (.leaseRenewal x0) := of_none rfl
theorem stratumLoadComplete (x0 x1) : Statement (.stratumLoadComplete x0 x1) := of_none rfl
theorem matrixRowWaitEnd (x0 x1) : Statement (.matrixRowWaitEnd x0 x1) := of_none rfl
theorem matrixRetire (x0 x1) : Statement (.matrixRetire x0 x1) := of_none rfl
theorem matrixStop (x0 x1) : Statement (.matrixStop x0 x1) := of_none rfl
theorem xAsyncComplete (x0 x1) : Statement (.xAsyncComplete x0 x1) := of_none rfl
theorem engineUnitTransfer (x0) : Statement (.engineUnitTransfer x0) := of_none rfl
theorem engineOperationComplete (x0) : Statement (.engineOperationComplete x0) := of_none rfl
theorem engineLockWaitEnd (x0) : Statement (.engineLockWaitEnd x0) := of_none rfl
theorem mergeFormed (x0) : Statement (.mergeFormed x0) := of_none rfl
theorem lodeRefresh (x0 x1) : Statement (.lodeRefresh x0 x1) := of_none rfl
theorem queueDoorbell (x0 x1 x2) : Statement (.queueDoorbell x0 x1 x2) := of_none rfl
theorem queueEnable (x0 x1 x2) : Statement (.queueEnable x0 x1 x2) := of_none rfl
theorem launchEntry (x0) : Statement (.launchEntry x0) := of_none rfl
theorem fenceSignalEntry (x0 x1) : Statement (.fenceSignalEntry x0 x1) := of_none rfl
theorem fenceWaitEntry (x0 x1) : Statement (.fenceWaitEntry x0 x1) := of_none rfl
theorem lodeCopyEntry (x0 x1) : Statement (.lodeCopyEntry x0 x1) := of_none rfl
theorem gridRead (x0) : Statement (.gridRead x0) := of_none rfl
theorem launchComplete (x0) : Statement (.launchComplete x0) := of_none rfl
theorem reductionBufferApply (x0) : Statement (.reductionBufferApply x0) := of_none rfl
theorem timeSliceExpiry (x0) : Statement (.timeSliceExpiry x0) := of_none rfl
theorem pageRetryDoorbell (x0 x1) : Statement (.pageRetryDoorbell x0 x1) := of_none rfl
theorem hostContextFlush (x0 x1) : Statement (.hostContextFlush x0 x1) := of_none rfl
theorem pageRequestTableBase (x0 x1) : Statement (.pageRequestTableBase x0 x1) := of_none rfl
theorem pageRequestReply (x0 x1) : Statement (.pageRequestReply x0 x1) := of_none rfl
theorem eventRecordPost (x0) : Statement (.eventRecordPost x0) := of_none rfl
theorem eventQueueHead (x0 x1) : Statement (.eventQueueHead x0 x1) := of_none rfl
theorem fragmentResume (x0 x1) : Statement (.fragmentResume x0 x1) := of_none rfl
theorem fragmentResumeAtPc (x0 x1) : Statement (.fragmentResumeAtPc x0 x1) := of_none rfl
theorem fragmentResumeNext (x0 x1) : Statement (.fragmentResumeNext x0 x1) := of_none rfl
theorem fragmentResumeNoWatch (x0 x1) : Statement (.fragmentResumeNoWatch x0 x1) := of_none rfl
theorem warpKill (x0 x1) : Statement (.warpKill x0 x1) := of_none rfl
theorem softPreemptRequest (x0 x1) : Statement (.softPreemptRequest x0 x1) := of_none rfl
theorem forcedHalt (x0 x1) : Statement (.forcedHalt x0 x1) := of_none rfl
theorem graceExpiry (x0) : Statement (.graceExpiry x0) := of_none rfl
theorem contextKill (x0 x1) : Statement (.contextKill x0 x1) := of_none rfl
theorem killTimerExpiry (x0) : Statement (.killTimerExpiry x0) := of_none rfl
theorem preemptWithdraw (x0 x1) : Statement (.preemptWithdraw x0 x1) := of_none rfl
theorem contextSaveComplete (x0) : Statement (.contextSaveComplete x0) := of_none rfl
theorem saveFault (x0 x1 x2) : Statement (.saveFault x0 x1 x2) := of_none rfl
theorem contextRestore (x0) : Statement (.contextRestore x0) := of_none rfl
theorem skewCheck (x0) : Statement (.skewCheck x0) := of_none rfl
theorem peerInboundPacket (x0 x1) : Statement (.peerInboundPacket x0 x1) := of_none rfl
theorem peerStaleAnswer (x0 x1) : Statement (.peerStaleAnswer x0 x1) := of_none rfl
theorem peerNackAnswer (x0 x1) : Statement (.peerNackAnswer x0 x1) := of_none rfl
theorem peerTimeout (x0) : Statement (.peerTimeout x0) := of_none rfl
theorem fabricLinkSkewDown (x0 x1) : Statement (.fabricLinkSkewDown x0 x1) := of_none rfl
theorem hostSnoop (x0) : Statement (.hostSnoop x0) := of_none rfl
theorem hostMemAccess (x0 x1 x2 x3) : Statement (.hostMemAccess x0 x1 x2 x3) := of_none rfl
theorem moduleReset : Statement .moduleReset := of_none rfl
theorem sidebandDown : Statement .sidebandDown := of_none rfl
theorem linkModuleTrainingFail (x0) : Statement (.linkModuleTrainingFail x0) := of_none rfl
theorem bootGo (x0) : Statement (.bootGo x0) := of_none rfl
theorem certificateRequest : Statement .certificateRequest := of_none rfl
theorem reportRequest : Statement .reportRequest := of_none rfl
theorem partitionApply (x0) : Statement (.partitionApply x0) := of_none rfl
theorem bandReload (x0) : Statement (.bandReload x0) := of_none rfl
theorem bandWindow (x0 x1 x2) : Statement (.bandWindow x0 x1 x2) := of_none rfl
theorem telemetrySnapshot (x0) : Statement (.telemetrySnapshot x0) := of_none rfl
theorem powerWindow (x0 x1) : Statement (.powerWindow x0 x1) := of_none rfl
theorem thermalThrottle (x0 x1) : Statement (.thermalThrottle x0 x1) := of_none rfl
theorem thermalShutdown (x0) : Statement (.thermalShutdown x0) := of_none rfl
theorem rasRecord (x0 x1 x2 x3 x4 x5) : Statement (.rasRecord x0 x1 x2 x3 x4 x5) := of_none rfl
theorem minVersionRaise (x0) : Statement (.minVersionRaise x0) := of_none rfl
theorem configRegisterWrite (x0 x1 x2 x3) : Statement (.configRegisterWrite x0 x1 x2 x3) := of_none rfl
theorem reservedOpcode (x0) : Statement (.reservedOpcode x0) := of_none rfl
theorem sidebandUp : Statement .sidebandUp := of_none rfl

end Header
end Sys2Proof.Laws
end

