-- ==== Sys2Proof/Tests/Slice0.lean ====
section
/-! SUPPORT. Tests: words that the spec spells out, ill-formed terms, a witness for the premises of each statement, and small
steps. -/
namespace Sys2Proof.Tests

open Sys2Proof.Machine

-- One test after the other, so that few threads run at a time.
set_option Elab.async false

/-! ### Short forms -/

/-- An unguarded header. -/
def hd (dest : BitVec 9) (count : BitVec 3) : Hdr := { negate := false, guard := 7, dest := dest, count := count }

/-- Class V3 with sources and a type. -/
def v3 (a b c : BitVec 9) (type : BitVec 4) : V3 :=
  { srca := a, srcb := b, srcc := c, fslot := 0, rnd := 0, sat := false, nega := false, negb := false, absa := false,
    absb := false, type := type, zero := 0 }

/-- Class VI. -/
def vi (a b : BitVec 9) (type : BitVec 4) (subop : BitVec 12 := 0) (imm : Word := 0) (mods : BitVec 4 := 0) : VI :=
  { srca := a, srcb := b, type := type, mods := mods, subop := subop, imm := imm }

/-- Class M. -/
def mf (addr data : BitVec 9) (space width scope : BitVec 3) (order hint : BitVec 2 := 0) (atomic : BitVec 4 := 0)
    (pdst : BitVec 3 := 7) (offset : Word := 0) : MF :=
  { addr := addr, data := data, space := space, width := width, scope := scope, order := order, hint := hint,
    atomic := atomic, pdst := pdst, offset := offset }

/-- Class C. -/
def cf (src : BitVec 9 := 511) (imm : BitVec 8 := 0) : CF :=
  { tslot := 0, loff := 0, src := src, zero := 0, wload := 0, wstore := 0, wcopy := 0, wtile := 0, imm := imm }

/-- Class X. -/
def xf (aaddr tagaddr rscale : BitVec 9) (fslot acc stratum : BitVec 3) (rows stride : BitVec 16) (skip tagged : Bool := false) :
    XF :=
  { aaddr := aaddr, tagaddr := tagaddr, rscale := rscale, fslot := fslot, acc := acc, skip := skip, tagged := tagged,
    stratum := stratum, rows := rows, stride := stride }

/-- Class A. -/
def af (dsta srca len : BitVec 9) (amod : BitVec 3 := 0) (peer : BitVec 8 := 0) (imm : Word := 0) : AF :=
  { dsta := dsta, srca := srca, len := len, amod := amod, peer := peer, imm := imm }

/-- Class S. -/
def sf (srca srcb : BitVec 9) (imm : Word := 0) (group : BitVec 8 := 0) (subop : BitVec 12 := 0) : SF :=
  { srca := srca, srcb := srcb, group := group, subop := subop, imm := imm }

/-! ### Words of the spec -/

theorem test_decode_class0 :
    decodeWord 0x009C0880202FF87980000000 = .fmul (hd 4 2) { v3 1 2 511 8 with rnd := 3, sat := true, nega := true, absb := true } ∧
    decodeWord 0x025C0C40BFFFF80080000000 = .frsq (hd 6 1) (v3 5 511 511 8) ∧
    decodeWord 0x069C184140B0480090000000 = .hfma2 (hd 12 1) (v3 10 11 9 9) ∧
    decodeWord 0x075C28421FFFF80280000000 = .wred (hd 20 1) { v3 16 511 511 8 with absa := true } ∧
    decodeWord 0x0A1C2C42BFFFF90060000000 = .cvt (hd 22 1) { v3 21 511 511 6 with fslot := 1 } ∧
    decodeWord 0x0A5C3042FFFFF92020000000 = .cvti (hd 24 1) { v3 23 511 511 2 with fslot := 1, rnd := 1 } ∧
    decodeWord 0x0ADC3C4341BFF80040000000 = .pack (hd 30 1) (v3 26 27 511 4) ∧
    decodeWord 0x0C1C14413FFFFB0060000000 = .qhist (hd 10 1) { v3 9 511 511 6 with fslot := 3 } ∧
    decodeWord 0x0C5F02015FFFFB0060000000 = .qscale (hd 385 0) { v3 10 511 511 6 with fslot := 3 } ∧
    decodeWord 0x0C9C1841381FFB0060000000 = .qcvt (hd 12 1) { v3 9 385 511 6 with fslot := 3 } := by decide +kernel

theorem test_decode_class1 :
    decodeWord 0x261FFE007FF203920000000A = .pseti (hd 511 0) (vi 3 511 2 0x392 10) ∧
    decodeWord 0x265FFE00FFF803AA3F000000 = .psetf (hd 511 0) (vi 7 511 8 0x3AA 0x3F000000) ∧
    decodeWord 0x269FFE3FFFF6068800000080 = .plop (hd 511 0) (vi 511 511 6 0x688 0x80) ∧
    decodeWord 0x26DFFE3FFFF6006100000000 = .pvote (hd 511 0) (vi 511 511 6 0x061) ∧
    decodeWord 0x271C167FFFF6000000000000 = .pmovTov (hd 11 1) (vi 511 511 6) ∧
    decodeWord 0x2A1C0E7FFFF0000000000000 = .drop (hd 7 1) (vi 511 511 0) ∧
    decodeWord 0x2B1C00FFFFF0000000000000 = .recount (hd 0 3) (vi 511 511 0) ∧
    decodeWord 0x289C10405FF6000300000001 = .shfl (hd 8 1) (vi 2 511 6 3 1) ∧
    decodeWord 0x285C12406046000200000000 = .sel (hd 9 1) (vi 3 4 6 2) ∧
    decodeWord 0x28DC14413FF6000000000005 = .bcast (hd 10 1) (vi 9 511 6 0 5) ∧
    decodeWord 0x291F0A013FF6000000000020 = .kmov (hd 389 0) (vi 9 511 6 0 0x20) ∧
    decodeWord 0x205C1840806600BA00000000 = .iaddc (hd 12 1) (vi 4 6 6 0x0BA) ∧
    decodeWord 0x225D4C548A06200000000000 = .lea (hd 166 1) (vi 164 160 6 0 0 2) := by decide +kernel

theorem test_decode_class2 :
    decodeWord 0x401C18407FF2800700000040 = .ld (hd 12 1) (mf 3 511 1 2 0 (offset := 0x40)) ∧
    decodeWord 0x401C2880DFF0D20700000000 = .ld (hd 20 2) (mf 6 511 0 3 2 (order := 1)) ∧
    decodeWord 0x405FFE00C090A40700000008 = .st (hd 511 0) (mf 6 9 0 2 4 (order := 2) (offset := 8)) ∧
    decodeWord 0x409FFE00DFF0018700001000 = .pref (hd 511 0) (mf 6 511 0 0 0 (hint := 3) (offset := 0x1000)) ∧
    decodeWord 0x425FFE00DFF0200700000000 = .cwb (hd 511 0) (mf 6 511 0 0 4) ∧
    decodeWord 0x415FFE00C090983F00000004 = .red (hd 511 0) (mf 6 9 0 2 3 (atomic := 7) (offset := 4)) ∧
    decodeWord 0x411C3C40C1809E0200000000 = .cas (hd 30 1) (mf 6 24 0 2 3 (order := 3) (pdst := 2)) ∧
    decodeWord 0x419C50708102C81B00000100 = .amaxp (hd 40 1) (mf 388 16 1 3 1 (atomic := 3) (pdst := 3) (offset := 0x100)) ∧
    decodeWord 0x421FFE3FFFF0160700000000 = .fence (hd 511 0) (mf 511 511 0 0 2 (order := 3)) := by decide +kernel

theorem test_decode_class3 :
    decodeWord 0x6007FE1FFFFFF7FC00000000 =
      .bra { hd 511 0 with guard := 1 } { cf with tslot := 3, loff := 0xFFFFFE } ∧
    decodeWord 0x605FFE000000005000000000 = .bri (hd 511 0) (cf 20) ∧
    decodeWord 0x609E7C5000000FFC00000000 = .call (hd 318 1) { cf with tslot := 2, loff := 1 } ∧
    decodeWord 0x611FFE00000004F800000000 = .ret (hd 511 0) (cf 318) ∧
    decodeWord 0x621FFE00000007FC03FFFF00 = .wait (hd 511 0) { cf with wstore := 63, wcopy := 63, wtile := 63 } ∧
    decodeWord 0x625FFE00000007FC00000010 = .sleep (hd 511 0) (cf 511 16) ∧
    decodeWord 0x629FFE00000007FC0000002A = .trap (hd 511 0) (cf 511 0x2A) ∧
    decodeWord 0x615FFE00000007FC00000000 = .exit (hd 511 0) cf ∧
    decodeWord 0x61DFFE00000007FC00000000 = .nop (hd 511 0) cf := by decide +kernel

theorem test_decode_class4 :
    decodeWord 0x801C3C711FFFF90200000004 = .sload (hd 30 1) (xf 392 511 511 1 0 2 0 4) ∧
    decodeWord 0x809FFE3FFFFFF80300000000 = .sevict (hd 511 0) (xf 511 511 511 0 0 3 0 0) ∧
    decodeWord 0x80DC3E7FFFFFF80000000000 = .sstat (hd 31 1) (xf 511 511 511 0 0 0 0 0) ∧
    decodeWord 0x821C527118AC623800100011 = .mmt (hd 41 1) (xf 392 394 396 2 1 0 16 17 true true) ∧
    decodeWord 0x829FFE3118AFFD0800200018 = .mmtg (hd 511 0) (xf 392 394 511 5 0 0 32 24 false true) ∧
    decodeWord 0x869C78711FFFFC4000400008 = .accst (hd 60 1) (xf 392 511 511 4 2 0 64 8) ∧
    decodeWord 0x881FFE30D8AC700800100001 = .tagset (hd 511 0) (xf 390 394 398 0 0 0 16 1 false true) ∧
    decodeWord 0x885C647FF8AFF80800100000 = .tagcnt (hd 50 1) (xf 511 394 511 0 0 0 16 0 false true) := by decide +kernel

theorem test_decode_class5 :
    decodeWord 0xA01C3C7118AC600000000001 = .vcopy (hd 30 1) (af 392 394 396 0 0 1) ∧
    decodeWord 0xA05C3E7118AC600000000401 = .vgather (hd 31 1) (af 392 394 396 0 0 0x401) ∧
    decodeWord 0xA15C4C7118AC610000000000 = .vred (hd 38 1) (af 392 394 396 1) ∧
    decodeWord 0xA0DC407118AC600500000008 = .vput (hd 32 1) (af 392 394 396 0 5 8) ∧
    decodeWord 0xA21C4A7FFFFFF80000000000 = .vstat (hd 37 1) (af 511 511 511) ∧
    decodeWord 0xA25FFE3FFFFFF8000000021E = .vcancel (hd 511 0) (af 511 511 511 0 0 0x21E) ∧
    decodeWord 0xA41C487118AC620000000000 = .sort (hd 36 1) (af 392 394 396 2) := by decide +kernel

theorem test_decode_class6 :
    decodeWord 0xC09C287FFFF0300000000004 = .barsync (hd 20 1) (sf 511 511 4 3) ∧
    decodeWord 0xC0DFFE3FFFF0000000000000 = .bardrop (hd 511 0) (sf 511 511) ∧
    decodeWord 0xC41C44711FF0000000000000 = .launch (hd 34 1) (sf 392 511) ∧
    decodeWord 0xC49FFE3FF940000000000011 = .fwait (hd 511 0) (sf 511 404 17) ∧
    decodeWord 0xC4DF203FFFF0000000000000 = .nexttile (hd 400 0) (sf 511 511) ∧
    decodeWord 0xC51F203FFFF0000000000005 = .steal (hd 400 0) (sf 511 511 5) ∧
    decodeWord 0xD01FFE321FF0000000000002 = .wrsrQuota (hd 511 0) (sf 400 511 2) ∧
    decodeWord 0xD05FFE3118C0000600000002 = .watch (hd 511 0) (sf 392 396 2 0 6) := by decide +kernel

/-! ### A machine with one warp at the issue port -/

/-- A name bound and held in every lane. -/
def cellOf (f : Nat → Word) : NameCell := { data := (List.range 32).map f, counts := List.replicate 32 7, pending := false }

/-- Values of the uniform registers: k12 is a length of 64, k61 the first address of the parameter block, k16 names context 1 and a quota of 400, every other even
register is an address. -/
def kreg (k : Nat) : Word :=
  match k with
  | 12 => 64
  | 61 => 0x80000000
  | 16 => 0x00100190
  | _ => if k % 2 = 0 then BitVec.ofNat 32 (4096 * k) else 0

/-- A warp with v0 to v45 held and v46 at count 3: even names hold 1,024 + 64 × lane, odd ones 0. -/
def worker : Warp :=
  { placedWarp with
    names := (List.range 47).map fun n =>
      (n, { cellOf (fun l => if n % 2 = 0 then BitVec.ofNat 32 (1024 + 64 * l) else 0) with
            counts := List.replicate 32 (if n = 46 then 3 else 7) })
    kregs := (List.range 64).map kreg
    lastphase := [(0, false)] }

/-- A group that the warp belongs to, alone. -/
def team : GroupEntry :=
  { block := 0, status1 := 0, status0 := 0, phase := false, arrived := 0, expected := 1, dropped := 0, arrivedmask := 0,
    members := 1 }

/-- A machine whose one warp `w` is at the issue port, in a privileged context with every feature on. -/
def portOf (w : Warp) : State :=
  { State.reset with
    boot := { Boot.reset with state := 2, enabled := 0x3F }
    parts := [(0, { Part.reset 0 1 with peerIndex := some 5 })]
    fns := [(256, FnPage.reset 0)]
    ctxs := [(1, { Ctx.none 1 with fn := 256, desc := { Desc.none with privileged := true, lode := List.replicate 4 (0, 2 ^ 20) } })]
    launches := [(0, { Launch.none with
      ctx := 1, fn := 256, state := 2, grid := (1, 1, 1), record := placedRecord.set 108 64,
      fmts := [0, 0x1220, 0x11, 0, 0, 0, 0, 0] })]
    blocks := [(0, { launch := 0, index := 0, cores := [0], scratchOff := 0, scratchSize := 65536, groups := [(0, 0)], position := 0 })]
    groups := [(0, team)]
    cores := [(0, { Core.reset with warps := [(0, w)], active := [0] })] }

/-- The machine of most tests. -/
def port : State := portOf worker

/-- The issue of an encoded instruction by the warp at the port. -/
def issueOf (i : Instr) (s : State) : Option Env := (hdrOf i).bind fun h => env? s h ((encode i).getD 0)

/-- Whether an instruction issues, with some active lane or with none. -/
def issues (i : Instr) (s : State) (active : Bool) : Bool :=
  match hdrOf i, issueOf i s with
  | some h, some e => decide (s.hold h (needs i s) e = none) && (e.act != 0) == active
  | _, _ => false

/-- An instruction that `issues` is ready. -/
theorem ready_of {i : Instr} {s : State} {a : Bool} (h : issues i s a = true) :
    ∃ e, Ready s i e ∧ (a = true → e.act ≠ 0) ∧ (a = false → e.act = 0) := by
  unfold issues at h
  split at h
  · next hd e hh he =>
    simp only [Bool.and_eq_true, decide_eq_true_eq, beq_iff_eq] at h
    rw [issueOf, hh, Option.bind_some] at he
    refine ⟨e, ⟨hd, hh, he, h.1⟩, ?_, ?_⟩
    · rintro rfl; simpa using h.2
    · rintro rfl; simpa using h.2
  · cases h

/-! ### Every encoded instruction issues with active lanes on that machine -/

/-- The instructions of class V3. -/
def classV3 : List Instr :=
  [.fadd (hd 3 1) (v3 0 2 511 8), .fsub (hd 3 1) (v3 0 2 511 8), .fmul (hd 3 1) (v3 0 2 511 8),
   .ffma (hd 3 1) (v3 0 2 4 8), .fmin (hd 3 1) (v3 0 2 511 8), .fmax (hd 3 1) (v3 0 2 511 8),
   .fclass (hd 3 1) (v3 0 511 511 8), .frcp (hd 3 1) (v3 0 511 511 8), .frsq (hd 3 1) (v3 0 511 511 8),
   .fsqrt (hd 3 1) (v3 0 511 511 8), .fexp2 (hd 3 1) (v3 0 511 511 8), .flog2 (hd 3 1) (v3 0 511 511 8),
   .fsin (hd 3 1) (v3 0 511 511 8), .fcos (hd 3 1) (v3 0 511 511 8), .ftanh (hd 3 1) (v3 0 511 511 8),
   .fsigm (hd 3 1) (v3 0 511 511 8), .hadd2 (hd 3 1) (v3 0 2 511 9), .hmul2 (hd 3 1) (v3 0 2 511 9),
   .hfma2 (hd 3 1) (v3 0 2 4 9), .dot4 (hd 3 1) (v3 0 2 4 0), .wred (hd 3 1) (v3 0 511 511 8),
   .imad (hd 3 1) (v3 0 2 4 6), .cvt (hd 3 1) (v3 0 511 511 6), .cvti (hd 3 1) (v3 0 511 511 2),
   .cvtf (hd 3 1) (v3 0 511 511 2), .pack (hd 3 1) (v3 0 2 511 4), .unpack (hd 3 1) (v3 0 2 511 0),
   .qhist (hd 3 1) { v3 0 511 511 6 with fslot := 1 }, .qscale (hd 385 0) { v3 0 511 511 6 with fslot := 1 },
   .qcvt (hd 3 1) { v3 0 385 511 6 with fslot := 1 }]

theorem test_issues_V3 : classV3.all (fun i => issues i port true) = true := by decide +kernel

/-- The instructions of class VI. -/
def classVI : List Instr :=
  [.iadd (hd 3 1) (vi 0 2 6), .iaddc (hd 3 1) (vi 0 2 6 0x0BA), .isub (hd 3 1) (vi 0 2 6),
   .imul (hd 3 1) (vi 0 2 6), .imulh (hd 3 1) (vi 0 2 6), .imin (hd 3 1) (vi 0 2 6), .imax (hd 3 1) (vi 0 2 6),
   .iabs (hd 3 1) (vi 0 511 2), .ineg (hd 3 1) (vi 0 511 2), .lea (hd 4 1) (vi 0 2 6),
   .ishl (hd 3 1) (vi 0 511 6 0 5), .ishr (hd 3 1) (vi 0 511 6 0 5), .isar (hd 3 1) (vi 0 511 2 0 5),
   .iand (hd 3 1) (vi 0 2 6), .ior (hd 3 1) (vi 0 2 6), .ixor (hd 3 1) (vi 0 2 6), .inot (hd 3 1) (vi 0 511 6),
   .popc (hd 3 1) (vi 0 511 6), .clz (hd 3 1) (vi 0 511 6), .brev (hd 3 1) (vi 0 511 6),
   .bfx (hd 3 1) (vi 0 511 6 0 0x0804), .bfi (hd 3 1) (vi 0 2 6 0 0x0804), .pseti (hd 511 0) (vi 0 511 2 0x392 10),
   .psetf (hd 511 0) (vi 0 511 8 0x3AA 0x3F000000), .plop (hd 511 0) (vi 511 511 6 0x688 0x80),
   .pvote (hd 511 0) (vi 511 511 6 0x061), .pmovTov (hd 3 1) (vi 511 511 6), .pmovFromv (hd 511 0) (vi 0 511 6 1),
   .mov (hd 3 1) (vi 511 2 6), .sel (hd 3 1) (vi 0 2 6 2), .shfl (hd 3 1) (vi 0 511 6 3 1),
   .bcast (hd 3 1) (vi 0 511 6 0 5), .kmov (hd 389 0) (vi 0 511 6 0 0x20), .drop (hd 46 1) (vi 511 511 0),
   .clear (hd 0 0) (vi 511 511 0), .release (hd 0 0) (vi 511 511 0), .hold (hd 0 0) (vi 511 511 0),
   .recount (hd 0 3) (vi 511 511 0), .rdsr (hd 3 1) (vi 448 511 6), .rdsrClr (hd 3 1) (vi 468 511 6 1),
   .time (hd 4 1) (vi 511 511 7)]

theorem test_issues_VI : classVI.all (fun i => issues i port true) = true := by decide +kernel

/-- The instructions of class M. -/
def classM : List Instr :=
  [.ld (hd 3 1) (mf 4 511 1 2 0), .ld (hd 3 1) (mf 4 511 0 2 0), .st (hd 511 0) (mf 4 6 1 2 0),
   .pref (hd 511 0) (mf 4 511 0 0 0), .atom (hd 3 1) (mf 4 6 1 2 0), .cas (hd 3 1) (mf 4 6 1 2 0 (pdst := 2)),
   .red (hd 511 0) (mf 4 6 1 2 0), .amaxp (hd 30 1) (mf 4 6 1 3 1 (atomic := 2) (pdst := 3)),
   .fence (hd 511 0) (mf 511 511 0 0 2 (order := 3)), .cwb (hd 511 0) (mf 4 511 0 0 4),
   .ld (hd 3 1) (mf 445 511 3 2 0)]

theorem test_issues_M : classM.all (fun i => issues i port true) = true := by decide +kernel

/-- The instructions of class C. -/
def classC : List Instr :=
  [.bra (hd 511 0) cf, .bri (hd 511 0) (cf 4), .call (hd 30 1) cf, .calli (hd 30 1) (cf 4), .ret (hd 511 0) (cf 4),
   .exit (hd 511 0) cf, .yield (hd 511 0) cf, .nop (hd 511 0) cf, .wait (hd 511 0) cf,
   .sleep (hd 511 0) (cf 511 16), .trap (hd 511 0) (cf 511 1), .bkpt (hd 511 0) cf]

theorem test_issues_C : classC.all (fun i => issues i port true) = true := by decide +kernel

/-- The instructions of class X. -/
def classX : List Instr :=
  [.sload (hd 3 1) (xf 392 511 511 2 0 2 0 0), .sstore (hd 3 1) (xf 392 511 511 0 0 2 0 0),
   .sevict (hd 511 0) (xf 511 511 511 0 0 3 0 0), .sstat (hd 3 1) (xf 511 511 511 0 0 0 0 0),
   .mmt (hd 3 1) (xf 392 511 511 2 0 3 64 16), .mmtx (hd 3 1) (xf 392 511 511 2 0 3 64 16),
   .mmtg (hd 3 1) (xf 392 511 511 2 0 0 32 16), .gzero (hd 511 0) (xf 511 511 511 0 0 0 0 0),
   .gload (hd 3 1) (xf 392 511 511 0 0 0 0 0), .gstore (hd 3 1) (xf 392 511 511 0 0 0 0 0),
   .accz (hd 511 0) (xf 511 511 511 0 0 0 64 0), .accld (hd 3 1) (xf 392 511 511 4 2 0 64 16),
   .accst (hd 3 1) (xf 392 511 511 4 2 0 64 16), .accmv (hd 4 1) (xf 511 511 511 0 2 0 0 3),
   .tagset (hd 511 0) (xf 390 394 398 0 0 0 16 1 false true),
   .tagcnt (hd 3 1) (xf 511 394 511 0 0 0 16 0 false true)]

theorem test_issues_X : classX.all (fun i => issues i port true) = true := by decide +kernel

/-- The instructions of class A. -/
def classA : List Instr :=
  [.vcopy (hd 3 1) (af 392 394 396 0 0 1), .vgather (hd 3 1) (af 392 394 396 0 0 0x401),
   .vscatter (hd 3 1) (af 392 394 396 0 0 0x408), .vput (hd 3 1) (af 392 394 396 0 5 8),
   .vget (hd 3 1) (af 392 394 396 0 5 1), .vred (hd 3 1) (af 392 394 396 1), .vstat (hd 3 1) (af 511 511 511),
   .vcancel (hd 511 0) (af 511 511 511 0 0 0x21E), .sort (hd 3 1) (af 392 394 396 2)]

theorem test_issues_A : classA.all (fun i => issues i port true) = true := by decide +kernel

/-- The instructions of class S. -/
def classS : List Instr :=
  [.bararr (hd 511 0) (sf 511 511 1), .barwait (hd 3 1) (sf 511 511), .barsync (hd 3 1) (sf 511 511 4),
   .bardrop (hd 511 0) (sf 511 511), .barstat (hd 3 1) (sf 511 511), .grpq (hd 3 1) (sf 511 511),
   .launch (hd 3 1) (sf 392 511), .fsig (hd 511 0) (sf 511 404 17), .fwait (hd 511 0) (sf 511 404 17),
   .nexttile (hd 400 0) (sf 511 511), .steal (hd 400 0) (sf 511 511 0), .wrsrFlush (hd 511 0) (sf 400 511 1),
   .wrsrQuota (hd 511 0) (sf 400 511 2), .wrsrEvent (hd 511 0) (sf 400 511 3), .watch (hd 511 0) (sf 392 396 2 0 6)]

theorem test_issues_S : classS.all (fun i => issues i port true) = true := by decide +kernel

/-- The premises of the statements about an instruction that issues hold together, with active lanes, for each of them. -/
theorem witness_ready : ∀ i ∈ classV3 ++ classVI ++ classM ++ classC ++ classX ++ classA ++ classS,
    ∃ e, Ready port i e ∧ e.act ≠ 0 := by
  intro i hi
  simp only [List.mem_append] at hi
  have h : issues i port true = true := by
    obtain (((((h | h) | h) | h) | h) | h) | h := hi
    · exact List.all_eq_true.1 test_issues_V3 i h
    · exact List.all_eq_true.1 test_issues_VI i h
    · exact List.all_eq_true.1 test_issues_M i h
    · exact List.all_eq_true.1 test_issues_C i h
    · exact List.all_eq_true.1 test_issues_X i h
    · exact List.all_eq_true.1 test_issues_A i h
    · exact List.all_eq_true.1 test_issues_S i h
  obtain ⟨e, he, ha, _⟩ := ready_of h
  exact ⟨e, he, ha rfl⟩

/-- An instruction whose guard holds in no lane issues with no active lane. -/
theorem witness_InactiveIssue : ∃ e, Ready port (.fadd { hd 3 1 with guard := 0 } (v3 0 2 511 8)) e ∧ e.act = 0 := by
  obtain ⟨e, he, _, ha⟩ := ready_of
    (show issues (.fadd { hd 3 1 with guard := 0 } (v3 0 2 511 8)) port false = true by decide +kernel)
  exact ⟨e, he, ha rfl⟩

/-! ### Ill-formed terms -/

/-- Terms just outside each range or choice of `WellFormed`. -/
def illFormed : List Instr :=
  [.pmovTov (hd 3 1) (vi 511 511 6 1), .pmovFromv (hd 511 0) (vi 0 511 6 0), .rdsr (hd 3 1) (vi 468 511 6 1),
   .rdsrClr (hd 3 1) (vi 468 511 6 0), .wrsrFlush (hd 511 0) (sf 400 511 2), .wrsrFlush (hd 511 0) (sf 400 511 3),
   .wrsrQuota (hd 511 0) (sf 400 511 1), .wrsrEvent (hd 511 0) (sf 400 511 2),
   .reservedOpcode 0x001C0640202FF80080000000, .warpSwapOut 256 0 0, .warpSwapOut 0 64 0, .warpSwapOut 0 0 64,
   .syncBlockTimeout 256 0, .warpEviction 0 64, .warpRefill 256 0, .slotAllocation 0 64, .blockAdmission 0 256,
   .barrierWaiterRelease 256 0 0, .sleepExpiry 0 64 0, .fwaitRelease 256 0 0, .instructionFetch 0 64,
   .loadWriteback 256 0 ⟨0, 0, true⟩, .loadWriteback 0 0 ⟨0, 32, true⟩, .storePerformed 0 64 ⟨0, 0, true⟩ true,
   .storePerformed 0 0 ⟨0, 32, true⟩ true, .accessTranslationFault 0 0 0 32, .operandLogReplay 0 0 16,
   .storeFaultReplay 131072 0, .translationWalk (.core 256) 0 0, .translationWalk (.array 256) 0 0,
   .translationWalk (.engine 128) 0 0, .translationWalk (.cp 32) 0 0, .translationWalk (.core 0) 131072 0,
   .translationWalk (.core 0) 0 (2 ^ 48), .stratumLoadComplete 256 0, .matrixRowWaitEnd 256 0, .matrixRetire 256 0,
   .matrixStop 256 0, .xAsyncComplete 256 0, .lodeRefresh 16 true, .queueDoorbell 192 0 0, .queueDoorbell 255 0 0,
   .queueDoorbell 288 0 0, .queueDoorbell 0 64 0, .queueEnable 0 64 true, .launchEntry (.queue 0 64),
   .launchEntry (.device 32 0), .fenceSignalEntry 192 0, .fenceWaitEntry 0 64, .lodeCopyEntry 288 0, .timeSliceExpiry 32,
   .pageRetryDoorbell 192 0, .hostContextFlush 288 0, .pageRequestTableBase 32 0, .pageRequestReply 32 0,
   .eventRecordPost 192, .eventQueueHead 255 0, .fragmentResume 192 0, .fragmentResumeAtPc 192 0, .fragmentResumeNext 192 0,
   .fragmentResumeNoWatch 192 0, .warpKill 192 0, .softPreemptRequest 0 4096, .forcedHalt 0 4096, .graceExpiry 131072,
   .contextKill 0 4096, .killTimerExpiry 131072, .preemptWithdraw 0 4096, .contextSaveComplete 131072,
   .saveFault 131072 0 0, .saveFault 0 256 0, .contextRestore 131072, .skewCheck [0, 0, 0],
   .peerInboundPacket 32 { op := .get, addr := 0, stamp := 0, len := 0, data := [], srcdev := 0 },
   .peerInboundPacket 0 { op := .get, addr := 0, stamp := 0, len := 257, data := [], srcdev := 0 },
   .fabricLinkSkewDown 24 0, .hostMemAccess (2 ^ 40 - 1) 2 false [], .linkModuleTrainingFail 8, .bandWindow 5 0 [],
   .telemetrySnapshot 32, .thermalThrottle 4 0, .thermalShutdown 4, .rasRecord 0 9 0 0 0 0, .rasRecord 0 0 3 0 0 0,
   .configRegisterWrite .boot 4096 4 0, .configRegisterWrite .boot 0 3 0]

theorem test_illFormed_refused : illFormed.all (fun i => !WellFormed i) = true := by decide +kernel

/-- The highest numbers inside the ranges. -/
theorem test_wellFormed_bounds :
    ([.warpSwapOut 255 63 63, .translationWalk (.engine 127) 131071 (2 ^ 48 - 1), .queueDoorbell 191 63 0,
      .queueDoorbell 287 63 0, .lodeRefresh 15 false, .loadWriteback 255 63 ⟨0, 31, false⟩, .storePerformed 255 63 ⟨0, 31, true⟩ false, .accessTranslationFault 255 63 0 31, .operandLogReplay 0 0 15,
      .hostMemAccess (2 ^ 40 - 1) 1 false [], .bandWindow 4 0 [], .fabricLinkSkewDown 23 0, .rasRecord 0 8 2 0 0 0,
      .configRegisterWrite .boot 4095 8 0, .reservedOpcode (BitVec.allOnes 96)] : List Instr).all WellFormed = true := by
  decide +kernel

/-! ### Witnesses: encoding, issue, checks -/

/-- An instruction that issues as some `e` of which `p` holds. -/
theorem ready_that {i : Instr} {s : State} (p : Env → Prop) [DecidablePred p]
    (h : (match hdrOf i, issueOf i s with
      | some h, some e => decide (s.hold h (needs i s) e = none) && decide (p e)
      | _, _ => false) = true) : ∃ e, Ready s i e ∧ p e := by
  split at h
  · next hd e hh he =>
    simp only [Bool.and_eq_true, decide_eq_true_eq] at h
    rw [issueOf, hh, Option.bind_some] at he
    exact ⟨e, ⟨hd, hh, he, h.1⟩, h.2⟩
  · cases h

/-- Something that is there and of which `p` holds. -/
theorem that {α : Type} {o : Option α} (p : α → Prop) [DecidablePred p]
    (d : (match o with
      | some x => decide (p x)
      | none => false) = true) : ∃ x, o = some x ∧ p x := by
  split at d
  · next x => exact ⟨x, rfl, of_decide_eq_true d⟩
  · cases d

theorem witness_DecodeOfEncode :
    WellFormed (.fadd (hd 3 1) (v3 1 2 511 8)) = true ∧
    encode (.fadd (hd 3 1) (v3 1 2 511 8)) = some 0x001C0640202FF80080000000 := by decide +kernel

theorem witness_WordsAndSlots : ([] : List Byte).length ≠ 12 ∧ (List.replicate 13 (0 : Byte)).length ≠ 12 := by decide

theorem witness_ReservedOpcodes :
    (∃ e, env? port bareHdr (BitVec.allOnes 96) = some e ∧ e.w.held = false) ∧
    decodeWord (BitVec.allOnes 96) = .reservedOpcode (BitVec.allOnes 96) :=
  ⟨that (fun (e : Env) => e.w.held = false) (by decide +kernel), by decide +kernel⟩

/-- The machine with FADD v3:1, v1, v2 placed at its next fetch. -/
def placed : State := State.reset.withFetchWord 96 0x001C0640202FF80080000000

/-- The state of a step that takes the listed turn. -/
def turned (s : State) : State := { s with steps := s.steps + 1, turns := s.turns.drop 1 }

/-- A fetch that gives a word. -/
def fetches (s : State) (c o : Nat) : Bool :=
  match s.issuer c o with
  | some (w, pc, frag) => match s.fetch c o w pc frag with
    | .ok _ => true
    | .error _ => false
  | none => false

theorem fetches_ok {s : State} {c o : Nat} (h : fetches s c o = true) : ∃ w pc frag word zero s1,
    s.issuer c o = some (w, pc, frag) ∧ s.fetch c o w pc frag = .ok (word, zero, s1) := by
  unfold fetches at h
  split at h
  · next w pc frag hi =>
    split at h
    · next x hf => exact ⟨w, pc, frag, x.1, x.2.1, x.2.2, hi, hf⟩
    · cases h
  · cases h

theorem witness_StepRunsWhatComesNext :
    placed.turns = .issue 0 0 :: [] ∧
    (∃ w pc frag word zero s1, (turned placed).issuer 0 0 = some (w, pc, frag) ∧
      (turned placed).fetch 0 0 w pc frag = .ok (word, zero, s1)) ∧
    ({ port with turns := [.event .moduleReset] } : State).turns = .event .moduleReset :: [] ∧
    ({ port with turns := [.pass 3 5] } : State).turns = .pass 3 5 :: [] :=
  ⟨rfl, fetches_ok (by decide +kernel), rfl, rfl⟩

/-- The machine with an unprivileged context. -/
def plain : State := { port with ctxs := [(1, { Ctx.none 1 with fn := 256, desc := { Desc.none with debug := true } })] }

theorem witness_ChecksAndPreciseFaults_fields :
    (∃ e, env? port (hd 3 1) ((encode (.fadd (hd 3 1) (v3 0 2 4 8))).getD 0) = some e ∧ e.w.held = false ∧
      e.w.busyPred 7 = false ∧ (needs (.fadd (hd 3 1) (v3 0 2 4 8)) port).fields = false) ∧
    (∃ e, env? { port with sel := { core := 0, slot := 0, zero := 1 } } (hd 3 1) 0 = some e ∧ e.w.held = false ∧
      e.w.busyPred 7 = false ∧ e.zero ≠ 0) ∧
    (∃ e, env? port { hd 3 1 with negate := true } 0 = some e ∧ e.w.held = false ∧ e.w.busyPred 7 = false) :=
  ⟨that (fun (e : Env) => e.w.held = false ∧ e.w.busyPred 7 = false ∧ _) (by decide +kernel),
   that (fun (e : Env) => e.w.held = false ∧ e.w.busyPred 7 = false ∧ e.zero ≠ 0) (by decide +kernel),
   that (fun (e : Env) => e.w.held = false ∧ e.w.busyPred 7 = false) (by decide +kernel)⟩

/-- What stands before the entry's checks. -/
def uptoEntry (i : Instr) (s : State) (e : Env) : Bool :=
  !e.w.held && (needs i s).fields && e.zero == 0 && !((needs i s).privileged && !(s.ctx e.w.ctx).desc.privileged) &&
  !((needs i s).preds.any e.w.busyPred) && (s.busyOf e (needs i s)).isNone

theorem witness_ChecksAndPreciseFaults_privilege :
    ∃ e, env? plain (hd 511 0) ((encode (.wrsrFlush (hd 511 0) (sf 400 511 1))).getD 0) = some e ∧ e.w.held = false ∧
      e.w.busyPred 7 = false ∧ (needs (.wrsrFlush (hd 511 0) (sf 400 511 1)) plain).fields = true ∧ e.zero = 0 ∧
      (needs (.wrsrFlush (hd 511 0) (sf 400 511 1)) plain).privileged = true ∧
      (plain.ctx e.w.ctx).desc.privileged = false :=
  that (fun (e : Env) => e.w.held = false ∧ e.w.busyPred 7 = false ∧ _ ∧ e.zero = 0 ∧ _ ∧
    (plain.ctx e.w.ctx).desc.privileged = false) (by decide +kernel)

/-- The machine whose warp has dropped its group. -/
def dropped : State := { port with groups := [(0, { team with dropped := 1 })] }

theorem witness_ChecksAndPreciseFaults_entry :
    ∃ e, env? dropped (hd 511 0) ((encode (.bararr (hd 511 0) (sf 511 511 1))).getD 0) = some e ∧
      uptoEntry (.bararr (hd 511 0) (sf 511 511 1)) dropped e = true ∧
      (needs (.bararr (hd 511 0) (sf 511 511 1)) dropped).entry e =
        some { code := 0x19, lanes := e.frag, addr := 0, info := 0 } :=
  that (fun (e : Env) => uptoEntry (.bararr (hd 511 0) (sf 511 511 1)) dropped e = true ∧
    (needs (.bararr (hd 511 0) (sf 511 511 1)) dropped).entry e =
        some { code := 0x19, lanes := e.frag, addr := 0, info := 0 }) (by decide +kernel)

/-- FADD of a name that nothing has bound. -/
def unbound : Instr := .fadd (hd 3 1) (v3 60 2 511 8)

theorem witness_ChecksAndPreciseFaults_counts :
    ∃ e, env? port (hd 3 1) ((encode unbound).getD 0) = some e ∧ uptoEntry unbound port e = true ∧
      (needs unbound port).entry e = none ∧
      firstFail (needs unbound port).reads (e.w.readFails (needs unbound port).reads e.act) = some (60, fullMask) ∧
      (e.w.countCheck (port.hwm e.w) e.act (needs unbound port).reads (needs unbound port).dests
        (needs unbound port).count).isSome = true ∧
      port.hold (hd 3 1) (needs unbound port) e = some (.raise { code := 0x01, lanes := fullMask, addr := 0, info := 60 }) :=
  that (fun (e : Env) => uptoEntry unbound port e = true ∧ (needs unbound port).entry e = none ∧
      firstFail (needs unbound port).reads (e.w.readFails (needs unbound port).reads e.act) = some (60, fullMask) ∧
      (e.w.countCheck (port.hwm e.w) e.act (needs unbound port).reads (needs unbound port).dests
        (needs unbound port).count).isSome = true ∧
      port.hold (hd 3 1) (needs unbound port) e = some (.raise { code := 0x01, lanes := fullMask, addr := 0, info := 60 }))
    (by decide +kernel)

/-- FADD v3:1, v0, v2. -/
def add : Instr := .fadd (hd 3 1) (v3 0 2 511 8)

/-- The machine whose warp's v0 is owed a write. -/
def owing : State :=
  portOf { worker with names := worker.names.put 0 { cellOf (fun _ => 0) with pending := true } }

/-- The machine whose warp has a matrix instruction that has not retired. -/
def holding : State := portOf { worker with stall := some { kind := .held, since := 0 } }

theorem witness_WhatHoldsBack :
    (∃ e, env? holding (hd 3 1) ((encode add).getD 0) = some e ∧ holding.hold (hd 3 1) (needs add holding) e = some .stay) ∧
    (∃ e, env? owing (hd 3 1) ((encode add).getD 0) = some e ∧
      owing.hold (hd 3 1) (needs add owing) e = some (.stall (.scoreboard 0))) ∧
    (∃ e, env? port (hd 3 1) ((encode unbound).getD 0) = some e ∧
      port.hold (hd 3 1) (needs unbound port) e = some (.raise { code := 0x01, lanes := fullMask, addr := 0, info := 60 })) ∧
    env? State.reset (hd 3 1) ((encode add).getD 0) = none :=
  ⟨that (fun (e : Env) => holding.hold (hd 3 1) (needs add holding) e = some .stay) (by decide +kernel),
   that (fun (e : Env) => owing.hold (hd 3 1) (needs add owing) e = some (.stall (.scoreboard 0))) (by decide +kernel),
   that (fun (e : Env) => port.hold (hd 3 1) (needs unbound port) e =
     some (.raise { code := 0x01, lanes := fullMask, addr := 0, info := 60 })) (by decide +kernel), by decide +kernel⟩

theorem witness_SelectAndClassify :
    (f32 0x7FC00000).isNan = true ∧ (f32 0x3F800000).isNan = false ∧ (f32 0x40000000).isNan = false ∧
    (f32 0x3F800000).lt (f32 0x40000000) = true := by decide +kernel

theorem witness_LeaResult :
    (∃ e, Ready port (.lea (hd 4 1) (vi 0 2 2)) e ∧ e.act ≠ 0) ∧ (∃ e, Ready port (.lea (hd 4 1) (vi 0 2 6)) e ∧ e.act ≠ 0) :=
  ⟨ready_that (fun (e : Env) => e.act ≠ 0) (by decide +kernel), ready_that (fun e => e.act ≠ 0) (by decide +kernel)⟩

theorem witness_PredicateResults :
    (∃ e, Ready port (.pvote (hd 3 1) (vi 511 511 6 0x0F9)) e ∧ e.act ≠ 0) ∧ (0x0F9#12).extractLsb' 6 2 = 3 ∧
    (0x061#12).extractLsb' 6 2 ≠ 3 :=
  ⟨ready_that (fun (e : Env) => e.act ≠ 0) (by decide +kernel), by decide, by decide⟩

theorem witness_CountRules : isV 0 = true ∧ isV 319 = true ∧ 0 < 1 := by decide

/-- The machine whose context is asked to stop at YIELD. -/
def asked : State :=
  { port with ctxs := [(1, { Ctx.none 1 with fn := 256, desc := { Desc.none with privileged := true }, pre := 1 })] }

theorem witness_PlainControl :
    (∃ e, Ready port (.bkpt (hd 511 0) cf) e ∧ (port.ctx e.w.ctx).desc.debug = false) ∧
    (∃ e, Ready port (.wait (hd 511 0) cf) e ∧ e.act ≠ 0) ∧
    (∃ e, Ready asked (.yield (hd 511 0) cf) e ∧ e.act ≠ 0 ∧ (asked.ctx e.w.ctx).pre = 1) ∧
    (∃ e, Ready port (.yield (hd 511 0) cf) e ∧ e.act ≠ 0 ∧ (port.ctx e.w.ctx).pre ≠ 1 ∧
      (port.core e.core).active.contains e.slot = true) ∧
    (∃ e, Ready port (.sleep (hd 511 0) (cf 404 0)) e ∧ e.act ≠ 0) :=
  ⟨ready_that (fun (e : Env) => (port.ctx e.w.ctx).desc.debug = false) (by decide +kernel),
   ready_that (fun (e : Env) => e.act ≠ 0) (by decide +kernel),
   ready_that (fun (e : Env) => e.act ≠ 0 ∧ (asked.ctx e.w.ctx).pre = 1) (by decide +kernel),
   ready_that (fun (e : Env) => e.act ≠ 0 ∧ (port.ctx e.w.ctx).pre ≠ 1 ∧ (port.core e.core).active.contains e.slot = true)
     (by decide +kernel),
   ready_that (fun (e : Env) => e.act ≠ 0) (by decide +kernel)⟩

theorem witness_SoftwareTraps :
    (∃ e, Ready plain (.bkpt (hd 511 0) cf) e ∧ (plain.ctx e.w.ctx).desc.debug = true ∧ e.act ≠ 0) ∧
    (∃ e, Ready plain (.trap (hd 511 0) (cf 511 0xFF)) e ∧ e.act ≠ 0) ∧
    (∃ e, Ready plain (.trap { hd 511 0 with guard := 0 } cf) e ∧ e.act = 0) :=
  ⟨ready_that (fun (e : Env) => (plain.ctx e.w.ctx).desc.debug = true ∧ e.act ≠ 0) (by decide +kernel),
   ready_that (fun (e : Env) => e.act ≠ 0) (by decide +kernel), ready_that (fun e => e.act = 0) (by decide +kernel)⟩

/-- The machine with a line of kind `k` and mark bits `m` behind the placed warp. -/
def lined (k m : Byte) : State :=
  let body := List.replicate 60 (0 : Byte) ++ [m, 0, k]
  { placed with dev := Memory.writeN [] 0 (body ++ [BitVec.ofNat 8 (parityOf (body ++ [0]))]) }

/-- The line that a transfer of the placed warp reads at PC 1, as its kind and whether slot 1 may be entered. -/
def lineAt (s : State) (pc : PC) : Option (BitVec 8 × Bool) :=
  match s.warp? 0 0 with
  | none => none
  | some w =>
    let lanes := fullMask &&& w.live
    let a : Arrival := { source := 0, high := 0 }
    let w1 := (w.setPcs lanes fun _ => pc).clearArrivals lanes
    match (s.setWarp 0 0 { w1 with arrivals := (lanesOf lanes).foldl (fun t i => t.put i a) w1.arrivals }).readLine 0 w.ctx pc false with
    | (.ok l, _) => some (l.kind, l.word.getLsbD (pc.toNat % 8))
    | _ => none

theorem witness_TransfersAndChecks :
    (∃ w, placed.warp? 0 0 = some w ∧ fullMask &&& w.live ≠ 0) ∧
    ((1 : BitVec 16) ≠ 0) ∧ ((8 : PC).toNat / 8 % 8 ≠ 0) ∧ (4 < (5 : PC).toNat % 8) ∧
    lineAt (lined 1 0) 1 = some (1, false) ∧ lineAt (lined 0 1) 1 = some (0, false) ∧ lineAt (lined 0 2) 1 = some (0, true) := by
  refine ⟨⟨placedWarp, rfl, ?_⟩, ?_, ?_, ?_, ?_, ?_, ?_⟩ <;> decide +kernel

/-- The machine whose warp has p0 in lanes 0 to 15. -/
def half : State := portOf { worker with preds := 0xFFFF :: List.replicate 6 0 }

theorem witness_ExitEffect :
    ∃ e, Ready half (.exit { hd 511 0 with guard := 0 } cf) e ∧ e.w.accs = [] ∧ e.w.live &&& ~~~e.act ≠ 0 ∧ e.act ≠ 0 :=
  ready_that (fun (e : Env) => e.w.accs = [] ∧ e.w.live &&& ~~~e.act ≠ 0 ∧ e.act ≠ 0) (by decide +kernel)

/-! ### Witnesses: barriers, fences, launches, privileged instructions -/

/-- The machine with another group entry. -/
def grouped (g : GroupEntry) : State := { port with groups := [(0, g)] }

theorem witness_ArrivalsAndDrops :
    (∃ e, Ready port (.bararr (hd 511 0) (sf 511 511)) e ∧ e.act ≠ 0 ∧ port.group? e.w 0 = some (0, team)) ∧
    (∃ e, Ready (grouped { team with expected := 2, members := 3 }) (.bararr (hd 511 0) (sf 511 511)) e ∧ e.act ≠ 0 ∧
      (grouped { team with expected := 2, members := 3 }).group? e.w 0 = some (0, { team with expected := 2, members := 3 })) ∧
    (∃ e, Ready (grouped { team with arrivedmask := 1 }) (.bardrop (hd 511 0) (sf 511 511)) e ∧ e.act ≠ 0) ∧
    (∃ e, Ready (grouped { team with expected := 2, members := 3 }) (.bardrop (hd 511 0) (sf 511 511)) e ∧ e.act ≠ 0) ∧
    (∃ e, Ready port (.bardrop (hd 511 0) (sf 511 511)) e ∧ e.act ≠ 0 ∧ port.group? e.w 0 = some (0, team)) :=
  ⟨ready_that (fun (e : Env) => e.act ≠ 0 ∧ port.group? e.w 0 = some (0, team)) (by decide +kernel),
   ready_that (fun (e : Env) => e.act ≠ 0 ∧ (grouped { team with expected := 2, members := 3 }).group? e.w 0 =
     some (0, { team with expected := 2, members := 3 })) (by decide +kernel),
   ready_that (fun (e : Env) => e.act ≠ 0) (by decide +kernel), ready_that (fun e => e.act ≠ 0) (by decide +kernel),
   ready_that (fun (e : Env) => e.act ≠ 0 ∧ port.group? e.w 0 = some (0, team)) (by decide +kernel)⟩

/-- The faults of an arrival and a drop: a second drop, no member, a second arrival. -/
theorem witness_ArrivalsAndDrops_faults :
    (∃ e, issueOf (.bararr (hd 511 0) (sf 511 511)) dropped = some e ∧ e.act ≠ 0 ∧
      dropped.group? e.w 0 = some (0, { team with dropped := 1 })) ∧
    (∃ e, issueOf (.bararr (hd 511 0) (sf 511 511)) (grouped { team with members := 2 }) = some e ∧ e.act ≠ 0 ∧
      (grouped { team with members := 2 }).group? e.w 0 = some (0, { team with members := 2 })) ∧
    (∃ e, issueOf (.bararr (hd 511 0) (sf 511 511)) (grouped { team with arrivedmask := 1 }) = some e ∧ e.act ≠ 0 ∧
      (grouped { team with arrivedmask := 1 }).group? e.w 0 = some (0, { team with arrivedmask := 1 })) :=
  ⟨that (fun (e : Env) => e.act ≠ 0 ∧ dropped.group? e.w 0 = some (0, { team with dropped := 1 })) (by decide +kernel),
   that (fun (e : Env) => e.act ≠ 0 ∧ (grouped { team with members := 2 }).group? e.w 0 = some (0, { team with members := 2 }))
     (by decide +kernel),
   that (fun (e : Env) => e.act ≠ 0 ∧
     (grouped { team with arrivedmask := 1 }).group? e.w 0 = some (0, { team with arrivedmask := 1 })) (by decide +kernel)⟩

theorem witness_BarrierWaits :
    (∃ e, Ready port (.barwait (hd 3 1) (sf 511 511)) e ∧ e.act ≠ 0 ∧ port.group? e.w 0 = some (0, team) ∧
      e.w.lastphase.get? 0 = some false) ∧
    (∃ e, Ready (grouped { team with phase := true }) (.barwait (hd 3 1) (sf 511 511)) e ∧ e.act ≠ 0 ∧
      (grouped { team with phase := true }).group? e.w 0 = some (0, { team with phase := true }) ∧
      e.w.lastphase.get? 0 = some false) ∧
    (∃ e, Ready port (.barwait { hd 3 1 with guard := 0 } (sf 511 511)) e ∧ e.act = 0 ∧ e.w.lastphase.get? 0 = some false) ∧
    (∃ e, Ready port (.barsync (hd 3 1) (sf 511 511)) e ∧ e.act ≠ 0 ∧ port.group? e.w 0 = some (0, team) ∧
      team.arrived + 1 = team.expected) ∧
    (∃ e, Ready (grouped { team with expected := 2, members := 3 }) (.barsync (hd 3 1) (sf 511 511)) e ∧ e.act ≠ 0 ∧
      (grouped { team with expected := 2, members := 3 }).group? e.w 0 = some (0, { team with expected := 2, members := 3 })) ∧
    (∃ e, Ready port (.barsync { hd 3 1 with guard := 0 } (sf 511 511)) e ∧ e.act = 0 ∧ port.group? e.w 0 = some (0, team)) :=
  ⟨ready_that (fun (e : Env) => e.act ≠ 0 ∧ port.group? e.w 0 = some (0, team) ∧ e.w.lastphase.get? 0 = some false) (by decide +kernel),
   ready_that (fun (e : Env) => e.act ≠ 0 ∧ (grouped { team with phase := true }).group? e.w 0 = some (0, { team with phase := true }) ∧
     e.w.lastphase.get? 0 = some false) (by decide +kernel),
   ready_that (fun (e : Env) => e.act = 0 ∧ e.w.lastphase.get? 0 = some false) (by decide +kernel),
   ready_that (fun (e : Env) => e.act ≠ 0 ∧ port.group? e.w 0 = some (0, team) ∧ team.arrived + 1 = team.expected) (by decide +kernel),
   ready_that (fun (e : Env) => e.act ≠ 0 ∧ (grouped { team with expected := 2, members := 3 }).group? e.w 0 =
     some (0, { team with expected := 2, members := 3 })) (by decide +kernel),
   ready_that (fun (e : Env) => e.act = 0 ∧ port.group? e.w 0 = some (0, team)) (by decide +kernel)⟩

theorem witness_PhaseCompletion :
    ({ team with expected := 0 } : GroupEntry).expected = 0 ∧ team.arrived + 1 = team.expected := by decide

theorem witness_NamedFences :
    (∃ e, Ready port (.fsig (hd 511 0) (sf 511 404 17)) e ∧ e.act ≠ 0) ∧
    (∃ e, Ready port (.fwait (hd 511 0) (sf 511 511 17)) e ∧ e.act ≠ 0 ∧
      ((port.part (port.partOfCore e.core)).fence (fenceId e.w (sf 511 511 17))).toNat = 0) ∧
    (∃ e, Ready port (.fwait (hd 511 0) (sf 511 404 17)) e ∧ e.act ≠ 0 ∧ 0 < (e.w.val64 404 0).toNat) :=
  ⟨ready_that (fun (e : Env) => e.act ≠ 0) (by decide +kernel),
   ready_that (fun (e : Env) => e.act ≠ 0 ∧ ((port.part (port.partOfCore e.core)).fence (fenceId e.w (sf 511 511 17))).toNat = 0)
     (by decide +kernel),
   ready_that (fun (e : Env) => e.act ≠ 0 ∧ 0 < (e.w.val64 404 0).toNat) (by decide +kernel)⟩

/-- The machine with a schedule table on core 0, in a persistent launch that allows stealing. -/
def scheduled : State :=
  { port with
    launches := [(0, { Launch.none with
      ctx := 1, fn := 256, state := 2, grid := (1, 1, 1), record := placedRecord.set 23 6 })]
    cores := [(0, { port.core 0 with sched := some { launch := 0, cursor := 0, tail := 2, entries := [5, 6], stolen := none } })] }

theorem witness_ScheduleTables :
    (∃ e, Ready scheduled (.nexttile (hd 400 0) (sf 511 511)) e ∧ e.act ≠ 0 ∧ e.w.launch = 0) ∧
    (∃ e, Ready scheduled (.steal (hd 400 0) (sf 511 511)) e ∧ e.act ≠ 0 ∧
      e.core / 8 * 8 + stealRank e.w (sf 511 511) = 0) ∧
    (scheduled.core 0).sched = some { launch := 0, cursor := 0, tail := 2, entries := [5, 6], stolen := none } ∧
    (scheduled.launch 0).flag 1 = true ∧ (scheduled.launch 0).flag 2 = true ∧ (scheduled.launch 0).flag 0 = false ∧
    (∃ e, Ready port (.nexttile (hd 400 0) (sf 511 511)) e ∧ (port.core e.core).sched = none) :=
  ⟨ready_that (fun (e : Env) => e.act ≠ 0 ∧ e.w.launch = 0) (by decide +kernel),
   ready_that (fun (e : Env) => e.act ≠ 0 ∧ e.core / 8 * 8 + stealRank e.w (sf 511 511) = 0) (by decide +kernel),
   by decide +kernel, by decide +kernel, by decide +kernel, by decide +kernel,
   ready_that (fun (e : Env) => (port.core e.core).sched = none) (by decide +kernel)⟩

theorem witness_PrivilegedInstructions :
    (∃ e, Ready port (.wrsrFlush (hd 511 0) (sf 400 511 1)) e ∧ e.act ≠ 0) ∧
    (∃ e, Ready port (.wrsrEvent (hd 511 0) (sf 400 511 3)) e ∧ e.act ≠ 0 ∧ port.evHeld = []) ∧
    (∃ e, Ready port (.wrsrQuota (hd 511 0) (sf 400 511 2)) e ∧ e.act ≠ 0 ∧ (port.core e.core).contexts.contains
      (ctxKey (port.partOfCore e.core) ((e.w.val 400 0).extractLsb' 20 12).toNat) = true) ∧
    (∃ e, Ready port (.watch (hd 511 0) (sf 392 396 2 0 6)) e ∧ e.act ≠ 0) ∧
    (∃ e, Ready port (.watch (hd 511 0) (sf 392 396 2 0 0)) e ∧ e.act ≠ 0) :=
  ⟨ready_that (fun (e : Env) => e.act ≠ 0) (by decide +kernel), ready_that (fun e => e.act ≠ 0 ∧ port.evHeld = []) (by decide +kernel),
   ready_that (fun (e : Env) => e.act ≠ 0 ∧ (port.core e.core).contexts.contains
      (ctxKey (port.partOfCore e.core) ((e.w.val 400 0).extractLsb' 20 12).toNat) = true) (by decide +kernel),
   ready_that (fun (e : Env) => e.act ≠ 0) (by decide +kernel), ready_that (fun e => e.act ≠ 0) (by decide +kernel)⟩

/-! ### Witnesses: memory -/

/-- A translation of the first page for a unit: readable, writable, never expiring. -/
def pageFor (u : TUnit) (x : Nat) (kind : PKind := .localMem) : TlbItem :=
  { placedItem with unit := u, ctx := x, write1 := true, kind := kind }

/-- The machine whose first pages translate for core 0, its array and engine 0, with a data line at address 0. -/
def mapped : State :=
  let body := List.replicate 60 (7 : Byte) ++ [0, 0, 1]
  { port with
    tlb := [{ pageFor (.core 0) 1 with size := 2 ^ 20 }, { pageFor (.array 0) 1 with size := 2 ^ 20 },
            { pageFor (.engine 0) 1 with size := 2 ^ 20 }, { pageFor (.cp 0) 1 with size := 2 ^ 20 }]
    dev := Memory.writeN [] 0 (body ++ [BitVec.ofNat 8 (parityOf (body ++ [0]))]) }

/-- Global forms of the accesses, an uncounted one of each shape, and a uniform load. -/
def classM0 : List Instr :=
  [.ld (hd 389 0) (mf 388 511 1 2 0), .st (hd 511 0) (mf 392 6 0 2 0), .atom (hd 3 1) (mf 392 6 0 2 0),
   .atom (hd 511 0) (mf 392 6 0 2 0), .cas (hd 3 1) (mf 392 6 0 2 0 (pdst := 2)), .red (hd 511 0) (mf 392 6 0 2 0),
   .ld (hd 3 1) (mf 392 511 0 2 0), .ld (hd 3 1) (mf 4 511 4 2 0)]

theorem witness_MemoryIssue : classM0.all (fun i => issues i mapped true) = true ∧
    issues (.st { hd 511 0 with guard := 0 } (mf 392 6 0 2 0)) mapped false = true := by decide +kernel

/-- A load of the constant space at k61, the first word of the parameter block. -/
def constant : Instr := .ld (hd 3 1) (mf 445 511 3 2 0)

/-- The machine whose launch has 64 bytes of parameters. -/
def given64 : State :=
  { mapped with launches := mapped.launches.map fun x => (x.1, { x.2 with record := placedRecord.set 108 64 }) }

/-- What the constant loads of the active lanes give. -/
def constantsOk (s : State) (e : Env) : Bool :=
  ((State.constantLanes e.core e (mf 445 511 3 2 0) false (lanesOf e.act) s).1).all fun x => match x.2 with
    | .ok _ => true
    | .error _ => false

theorem all_ok {t : Tab (Except ConstStop (List Byte))}
    (h : t.all (fun x => match x.2 with
      | .ok _ => true
      | .error _ => false) = true) : ∀ x ∈ t, ∃ bs, x.2 = .ok bs := by
  intro x hx
  have := List.all_eq_true.1 h x hx
  match hx2 : x.2 with
  | .ok bs => exact ⟨bs, rfl⟩
  | .error _ => simp [hx2] at this

theorem witness_CompleteAtIssue_constant : ∃ e, Ready given64 constant e ∧ e.act ≠ 0 ∧ e.w.fetchWait true e.pc = none ∧
    ∃ tb s1, State.constantLanes e.core e (mf 445 511 3 2 0) false (lanesOf (if uni 3 then laneBit (lowLane e.act) else e.act))
      given64 = (tb, s1) ∧ ∀ x ∈ tb, ∃ bs, x.2 = .ok bs := by
  obtain ⟨e, hr, ha, hw, hc⟩ :=
    ready_that (i := constant) (s := given64) (fun e => e.act ≠ 0 ∧ e.w.fetchWait true e.pc = none ∧ constantsOk given64 e = true)
      (by decide +kernel)
  refine ⟨e, hr, ha, hw, _, _, rfl, ?_⟩
  simpa only [show uni 3 = false by decide, Bool.false_eq_true, if_false] using all_ok hc

/-- The same with the line of the parameters poisoned, and with its fill's page served. -/
def spoilt : State := { given64 with poison := [0] }
def served64 : State :=
  let wait : FetchWait := { const := true, pc := 0, wait := { code := 0x10, rid := 0, va := 0, served := true } }
  { given64 with cores := [(0, { given64.core 0 with warps := [(0, { worker with fetches := [wait] })] })] }

theorem witness_CompleteAtIssue_refused :
    (∃ e, Ready spoilt constant e ∧ e.act ≠ 0 ∧ e.w.fetchWait true e.pc = none ∧
      constantFault (State.constantLanes e.core e (mf 445 511 3 2 0) false (lanesOf e.act) spoilt).1 = some 0x21) ∧
    (∃ e, Ready served64 constant e ∧ e.act ≠ 0 ∧
      (match e.w.fetchWait true e.pc with
       | none => false
       | some p => p.served && replayable p.code) = true) :=
  ⟨ready_that (fun (e : Env) => e.act ≠ 0 ∧ e.w.fetchWait true e.pc = none ∧
      constantFault (State.constantLanes e.core e (mf 445 511 3 2 0) false (lanesOf e.act) spoilt).1 = some 0x21)
      (by decide +kernel),
   ready_that (fun (e : Env) => e.act ≠ 0 ∧
      (match e.w.fetchWait true e.pc with
       | none => false
       | some p => p.served && replayable p.code) = true) (by decide +kernel)⟩

theorem witness_CompleteAtIssue :
    (∃ e, Ready mapped (.ld { hd 3 1 with guard := 0 } (mf 385 511 3 2 0)) e ∧ e.act = 0) ∧
    (∃ e, Ready port (.pref (hd 511 0) (mf 4 511 0 0 0)) e ∧ e.act ≠ 0) ∧
    (∃ e, Ready port (.fence (hd 511 0) (mf 511 511 0 0 2 (order := 3))) e ∧ e.act ≠ 0) ∧
    (∃ e, Ready port (.fence (hd 511 0) (mf 511 511 0 0 1 (order := 2))) e ∧ e.act ≠ 0) :=
  ⟨ready_that (fun (e : Env) => e.act = 0) (by decide +kernel), ready_that (fun e => e.act ≠ 0) (by decide +kernel),
   ready_that (fun (e : Env) => e.act ≠ 0) (by decide +kernel), ready_that (fun e => e.act ≠ 0) (by decide +kernel)⟩

theorem witness_ReadAfterWrite : Memory.wf [(2, 5), (7, 1)] = true ∧ Memory.wf [(2, 0)] = false ∧ Memory.wf [(7, 1), (2, 5)] = false := by
  decide

/-- The state that follows where there is one. -/
def nextOf (o : Host.Outcome State Fault Refusal) : State :=
  match o with
  | .next t => t
  | _ => State.reset

/-- The machine behind the issue of an access. -/
def behind (i : Instr) (s : State) : State := nextOf (exec i s)

/-- Of access 0 of the warp of a state `p` holds. -/
def accIs (s : State) (p : Warp → Acc → Bool) : Bool :=
  match s.warp? 0 0 with
  | some w => match w.accs.get? 0 with
    | some a => p w a
    | none => false
  | none => false

theorem acc_that {s : State} (p : Warp → Acc → Prop) [∀ w, DecidablePred (p w)] (h : (accIs s fun w a => decide (p w a)) = true) :
    ∃ w a, s.warp? 0 0 = some w ∧ w.accs.get? 0 = some a ∧ p w a := by
  unfold accIs at h
  split at h
  · next w hw =>
    split at h
    · next a ha => exact ⟨w, a, hw, ha, of_decide_eq_true h⟩
    · cases h
  · cases h

/-- ST of a word to the own scratchpad and LD from it, with addresses that lie apart and with one address. -/
def stored : State := behind (.st (hd 511 0) (mf 4 6 1 2 0)) port
def loading : State := behind (.ld (hd 3 1) (mf 4 511 1 2 0)) port
def storedOne : State := behind (.st (hd 511 0) (mf 388 6 1 2 0)) port
def loadingOne : State := behind (.ld (hd 3 1) (mf 388 511 1 2 0)) port
def loadingUniform : State := behind (.ld (hd 389 0) (mf 388 511 1 2 0)) port

/-- The open lane of a number. -/
def openLane (a : Acc) (lane : Nat) : Option AccLane := a.lanes.find? fun m => m.lane == lane && m.open_

/-- Every lane that a turn performs is open and may be performed. -/
def turnReady (s : State) (w : Warp) (a : Acc) (lane : Nat) : Bool :=
  !(a.turnOf lane).isEmpty && (a.turnOf lane).all fun l => l.stage == .todo && s.laneReady 0 0 w 0 a l

theorem witness_ScratchpadAccesses_store :
    (∃ w a, stored.warp? 0 0 = some w ∧ w.accs.get? 0 = some a ∧ (a.op = .st ∧ a.dest.name = 511 ∧ a.f.space = 1 ∧
      (openLane a 5).any (fun l => l.stage == .todo && stored.laneReady 0 0 w 0 a l && a.lanes.all fun m =>
        !(m.open_ && decide (m.addr < l.addr + 4) && decide (l.addr < m.addr + 4)) || decide (5 ≤ m.lane)) = true ∧
      stored.spad.wf = true)) ∧
    (∃ w a, storedOne.warp? 0 0 = some w ∧ w.accs.get? 0 = some a ∧ (a.op = .st ∧ a.dest.name = 511 ∧ a.f.space = 1 ∧
      (openLane a 5).any (fun l => a.lanes.any fun m =>
        m.open_ && decide (m.lane < 5) && decide (m.addr < l.addr + 4) && decide (l.addr < m.addr + 4)) = true)) :=
  ⟨acc_that _ (by decide +kernel), acc_that _ (by decide +kernel)⟩

theorem witness_ScratchpadAccesses_load :
    (∃ w a, loading.warp? 0 0 = some w ∧ w.accs.get? 0 = some a ∧ (a.op = .ld ∧ a.f.space = 1 ∧ w.evicted = false ∧ w.live ≠ 0 ∧
      turnReady loading w a 7 = true ∧ (∀ l ∈ a.lanes, l.lane < 32) ∧ (a.lanes.map fun (l : AccLane) => l.lane).Nodup ∧
      (∃ l ∈ a.lanes, l.stage ≠ .done ∧ decide (l ∈ a.turnOf 7) = false))) ∧
    (∃ w a, loadingOne.warp? 0 0 = some w ∧ w.accs.get? 0 = some a ∧ (a.op = .ld ∧ a.f.space = 1 ∧ w.evicted = false ∧ w.live ≠ 0 ∧
      turnReady loadingOne w a 7 = true ∧ (∀ l ∈ a.lanes, l.stage = .done ∨ decide (l ∈ a.turnOf 7) = true) ∧ a.dest.count ≠ 0)) ∧
    (∃ w a, loadingUniform.warp? 0 0 = some w ∧ w.accs.get? 0 = some a ∧ (a.op = .ld ∧ turnReady loadingUniform w a 0 = true ∧
      (∀ l ∈ a.lanes, l.stage = .done ∨ decide (l ∈ a.turnOf 0) = true) ∧ a.dest.lanes ≠ 0)) :=
  ⟨acc_that _ (by decide +kernel), acc_that _ (by decide +kernel), acc_that _ (by decide +kernel)⟩

/-- An access of a kind and scope, of one lane. -/
def accWith (op : AccOp) (scope : BitVec 3) : Acc :=
  { op := op, pc := 0, word := 0, f := mf 392 6 0 2 scope, dest := { name := 3, count := 1, lanes := 1 },
    lanes := [{ lane := 0, addr := 128, data := [5], stage := .todo }], entries := [], launch := 0, bix := 0, wno := 0, stamp := 0, born := 0 }

/-- A translated byte of a local page. -/
def home : Xlated := { phys := { host := false, addr := 128 }, item := pageFor (.core 0) 1 }

/-- The machine with a line in the L1 of core 0. -/
def lineIn : State :=
  { mapped with cores := [(0, { mapped.core 0 with l1 := [{ ctx := 1, host := false, addr := 1, bytes := List.replicate 128 9, hint := 0 }] })] }

/-- A lane of AMAXP with its score and its index, and the condition that a mask bit or a NaN suppresses it. -/
def scored (score : Word) : AccLane := { lane := 0, addr := 64, data := [score, 5], stage := .todo }
def suppressed (s : State) (a : Acc) (l : AccLane) : Bool :=
  let at_ := spadAt (spadTarget 0 a.f.space l.addr).1 (spadTarget 0 a.f.space l.addr).2
  (f32 (l.data.getD 0 0)).isNan || (a.f.atomic == 3 && decide ((l.data.getD 1 0).toNat < 64) &&
    (s.spad.nat (at_ + 8) 8).testBit (l.data.getD 1 0).toNat)

/-- An AMAXP on a 64-bit word of the own scratchpad. -/
def topping : Acc := { accWith .amaxp 0 with f := mf 4 6 1 3 0 }

theorem witness_LaneEffects_amaxp :
    topping.op = .amaxp ∧ topping.f.space = 1 ∧ topping.f.width = 3 ∧
    (suppressed port topping (scored 0x3F800000) = false ∧
      port.spad.nat (spadAt (spadTarget 0 1 64).1 (spadTarget 0 1 64).2) 8 < 0xBF800000 * 2 ^ 32 + (0xFFFFFFFF - 5)) ∧
    suppressed port topping (scored 0x7FC00000) = true := by decide +kernel

theorem witness_LaneEffects_global :
    home.item.kind ≠ .uncached ∧ home.phys.host = false ∧ mapped.dev.wf = true ∧
    ((accWith .ld 2).op = .ld ∧ 2 ≤ (accWith .ld 2).f.scope.toNat) ∧
    ((accWith .ld 1).f.scope.toNat ≤ 1 ∧ (((lineIn.core 0).l1.find? fun l => l.holds 1 home.phys).isSome = true)) ∧
    (∀ op ∈ [AccOp.cas, .atom, .amaxp], (accWith op 4).op = op ∧ 2 ≤ (accWith op 4).f.scope.toNat) ∧
    (accWith .st 0).op = .st := by decide +kernel

/-- Performing the lanes of the turn of lane 0 of access 0, and leaving its read to a merge. -/
def performs (s : State) : Bool :=
  accIs s fun w a => turnReady s w a 0 && (State.performLanes 0 w.ctx a false (a.turnOf 0) s).isSome
def merges (s : State) : Bool := accIs s fun w a => turnReady s w a 0 && (s.toMerge 0 0 0 w.ctx a (a.turnOf 0)).isSome

/-- Global accesses on mapped and unmapped pages; a load behind a merge window. -/
def storedFar : State := behind (.st (hd 511 0) (mf 392 6 0 2 0)) mapped
def loadingFar : State := behind (.ld (hd 3 1) (mf 392 511 0 2 2)) mapped
def storedOut : State := behind (.st (hd 511 0) (mf 392 6 0 2 0)) port
def loadingMerge : State :=
  { loadingFar with parts := [(0, { Part.reset 0 1 with window := [(0, 64)] })] }

theorem witness_MemoryEvents_perform :
    performs stored = true ∧ performs storedFar = true ∧ performs loading = true ∧ performs loadingFar = true ∧
    accIs storedOne (fun _ a => decide (a.turnOf 5 = [])) = true ∧ accIs loadingFar (fun _ a => a.isLoad) = true ∧
    accIs storedFar (fun _ a => !a.isLoad) = true ∧
    accIs loadingFar (fun w a => (loadingFar.toMerge 0 0 0 w.ctx a (a.turnOf 0)).isNone) = true ∧ merges loadingMerge = true := by
  decide +kernel

/-- The first lane of access 0 that must be logged, and whether its page is then logged. -/
def logs (s : State) : Bool :=
  accIs s fun w a => match s.firstLog 0 0 w 0 a with
    | some l => match s.mustLog 0 0 w 0 a l with
      | (some f, s1) =>
        let same := a.lanes.filter fun m => m.stage == .todo && pageOf m.addr == pageOf l.addr &&
          (((s1.mustLog 0 0 w 0 a m).1.map fun g => (g.map (·.code)).getD 0) == some ((f.map (·.code)).getD 0))
        (s1.logLanes 0 0 0 a same f).isSome && (a.op != .ld || laneOn w.live l.lane)
      | (none, _) => false
    | none => false

/-- Log entry 0 of the warp and its access. -/
def entryOf (s : State) : Option (LogEntry × Acc) :=
  (s.warp? 0 0).bind fun w => (w.log.get? 0).bind fun x => (w.accs.get? x.acc).map fun a => (x, a)

theorem witness_MemoryEvents_faults : logs storedOut = true ∧ (entryOf storedOut).isSome = true ∧
    ((storedOut.warp? 0 0).any fun w => !w.evicted && w.live != 0) = true := by decide +kernel

/-- A store fault. -/
def lateStore : StoreFault := { acc := accWith .st 0, entry := LogEntry.reserved 0 (accWith .st 0) 0 0, core := 0, block := 0 }

/-- The machine with a store fault of its context, an open merge, and an item past its expiry. -/
def pendingWork : State :=
  { mapped with
    ctxs := [(1, { Ctx.none 1 with storeFaults := [(0, lateStore)] })]
    merges := [{ slice := 0, line := 1, reads := [.load 0 0 0], formed := 0 }]
    tlb := [{ pageFor (.core 0) 1 with expiry := some 0 }] }

theorem witness_MemoryEvents_work :
    (∃ e, (pendingWork.ctx 1).storeFaults.get? 0 = some e ∧ e.core = 0) ∧
    (∃ m, pendingWork.merges[0]? = some m ∧ m.formed ≤ pendingWork.cycle) ∧
    (∃ t, pendingWork.tlb[0]? = some t ∧ unexpired t.expiry (pendingWork.unitTime t.unit) = false) :=
  ⟨that (fun (e : StoreFault) => e.core = 0) (by decide +kernel),
   that (fun (m : Merge) => m.formed ≤ pendingWork.cycle) (by decide +kernel),
   that (fun (t : TlbItem) => unexpired t.expiry (pendingWork.unitTime t.unit) = false) (by decide +kernel)⟩

/-- Whether the warp's next fetch gives a word. -/
def fetchGives (s : State) : Option Bool :=
  (s.warp? 0 0).bind fun w => if w.evicted then none else w.fragment.map fun f => match s.fetch 0 0 w f.1 f.2 with
    | .ok _ => true
    | .error _ => false

theorem witness_MemoryEvents_fetch : fetchGives placed = some true ∧ fetchGives port = some false := by decide +kernel

/-! ### Witnesses: the array -/

/-- A class X operation of the warp, running, in format slot 2. -/
def xop (i : Instr) : XOp :=
  { slot := 0, wid := worker.wid, ctx := 1, instr := i, pc := 0, base := 32768, tag := 40960, rs := 0
    dest := { name := 3, count := 1, lanes := fullMask }, fmt := 0x11, seed := 0, stage := .running, units := 0, contrib := 0
    skipped := false, corrected := false, staleUnit := none, nonres := [], flags := 0, copy := none, row := [], got := [] }

/-- A stratum in a state, of the format of slot 2. -/
def loaded (r : Residency) : Stratum := { state := r, bfmt := 1, scale := 0, image := [] }

/-- The machine whose warp's context owns the array, with a stratum 3 and operations in the issue order. -/
def arrayed (r : Residency) (ops : Tab XOp) : State :=
  { mapped with cores := [(0, { mapped.core 0 with owner := some 1, strata := [(3, loaded r)], xq := ops, xseq := 9 })] }

/-- MMT of 64 rows on stratum 3, and on the strata that tags in the scratchpad name. -/
def mmt3 : XF := xf 392 511 511 2 0 3 64 16
def mmtTags (skip : Bool) : XF := xf 392 394 511 2 0 0 64 16 skip true

theorem witness_StrataIssue :
    (∃ e, Ready (arrayed .resident []) (.mmt (hd 3 1) mmt3) e ∧ e.act ≠ 0 ∧
      ((arrayed .resident []).core e.core).owner = some e.w.ctx ∧ e.w.mrow.getLsbD 31 = false) ∧
    (∃ e, Ready (portOf { worker with mrow := 0x80050007 }) (.mmt (hd 3 1) mmt3) e ∧ e.w.mrow.getLsbD 31 = true ∧
      ((portOf { worker with mrow := 0x80050007 }).core e.core).owner ≠ some e.w.ctx) ∧
    (∃ e, Ready port (.sevict (hd 511 0) (xf 511 511 511 0 0 3 0 0)) e) :=
  ⟨ready_that (fun (e : Env) => e.act ≠ 0 ∧ ((arrayed .resident []).core e.core).owner = some e.w.ctx ∧
      e.w.mrow.getLsbD 31 = false) (by decide +kernel),
   ready_that (fun (e : Env) => e.w.mrow.getLsbD 31 = true ∧
      ((portOf { worker with mrow := 0x80050007 }).core e.core).owner ≠ some e.w.ctx) (by decide +kernel),
   (ready_that (fun (e : Env) => e.act ≠ 0) (by decide +kernel)).imp fun _ h => h.1⟩

/-- ACCZ of 64 rows of tile 0, waiting for its place, and GLOAD before it. -/
def zeroing : State :=
  arrayed .empty [(0, xop (.gload (hd 3 1) (xf 392 511 511 0 0 0 0 0))),
    (1, { xop (.accz (hd 511 0) (xf 511 511 511 0 0 0 64 0)) with stage := .queued, dest := { name := 511, count := 0, lanes := 1 } })]

theorem witness_AcczResult :
    (∃ e, Ready port (.accz (hd 511 0) (xf 511 511 511 0 0 0 64 0)) e ∧ (port.core e.core).xq = []) ∧
    (∃ o, (zeroing.core 0).xq.get? 1 = some o ∧ o.instr = .accz (hd 511 0) (xf 511 511 511 0 0 0 64 0) ∧ o.stage = .queued ∧
      o.dest.name = 511 ∧ ∀ p ∈ (zeroing.core 0).xq, p.1 < 1 → xTile p.2.instr ≠ some 0) :=
  ⟨ready_that (fun (e : Env) => (port.core e.core).xq = []) (by decide +kernel),
   that (fun (o : XOp) => o.instr = .accz (hd 511 0) (xf 511 511 511 0 0 0 64 0) ∧ o.stage = .queued ∧
      o.dest.name = 511 ∧ ∀ p ∈ (zeroing.core 0).xq, p.1 < 1 → xTile p.2.instr ≠ some 0) (by decide +kernel)⟩

theorem witness_StrataAtStart :
    (∃ e, Ready port (.sload (hd 3 1) (xf 392 511 511 2 0 2 0 0)) e ∧ (port.core e.core).xq = [] ∧
      (port.core e.core).owner ≠ some e.w.ctx) ∧
    (∃ e, Ready (arrayed .resident []) (.sstore (hd 3 1) (xf 392 511 511 0 0 3 0 0)) e ∧
      ((arrayed .resident []).core e.core).xq = [] ∧ ((arrayed .resident []).core e.core).owner = some e.w.ctx ∧
      (((arrayed .resident []).core e.core).stratum 3).state = .resident) ∧
    (∃ e, Ready (arrayed .draining []) (.sstore (hd 3 1) (xf 392 511 511 0 0 3 0 0)) e ∧
      (((arrayed .draining []).core e.core).stratum 3).state = .draining ∧ isV (hd 3 1).dest.toNat = true) ∧
    (∃ e, Ready (arrayed .draining []) (.sevict (hd 511 0) (xf 511 511 511 0 0 3 0 0)) e ∧
      (((arrayed .draining []).core e.core).stratum 3).state ≠ .loading) ∧
    (∃ e, Ready port (.accmv (hd 4 1) (xf 511 511 511 0 2 0 0 3)) e ∧ e.act ≠ 0) ∧
    (∃ e, Ready port (.sstat (hd 3 1) (xf 511 511 511 0 0 0 0 0)) e ∧ e.act ≠ 0) ∧
    (∃ e, Ready port (.tagcnt (hd 3 1) (xf 511 394 511 0 0 0 16 0 false true)) e ∧ e.act ≠ 0) :=
  ⟨ready_that (fun (e : Env) => (port.core e.core).xq = [] ∧ (port.core e.core).owner ≠ some e.w.ctx) (by decide +kernel),
   ready_that (fun (e : Env) => ((arrayed .resident []).core e.core).xq = [] ∧
     ((arrayed .resident []).core e.core).owner = some e.w.ctx ∧
     (((arrayed .resident []).core e.core).stratum 3).state = .resident) (by decide +kernel),
   ready_that (fun (e : Env) => (((arrayed .draining []).core e.core).stratum 3).state = .draining ∧ _) (by decide +kernel),
   ready_that (fun (e : Env) => (((arrayed .draining []).core e.core).stratum 3).state ≠ .loading) (by decide +kernel),
   ready_that (fun (e : Env) => e.act ≠ 0) (by decide +kernel), ready_that (fun (e : Env) => e.act ≠ 0) (by decide +kernel),
   ready_that (fun (e : Env) => e.act ≠ 0) (by decide +kernel)⟩

theorem witness_StrataAtStart_tagset :
    ∃ e, Ready port (.tagset (hd 511 0) (xf 390 394 398 0 0 0 16 1 false true)) e ∧ port.spad.wf = true ∧
      ∀ m, m < 16 → ∀ j, j < 16 → ∀ b, b < 8 →
        spadAt 0 ((e.w.val64 390 0).extractLsb' 0 21).toNat + 16 * 1 * m + b ≠
          spadAt 0 ((e.w.val 394 0).extractLsb' 0 21).toNat + j :=
  ready_that (fun (e : Env) => port.spad.wf = true ∧
      ∀ m, m < 16 → ∀ j, j < 16 → ∀ b, b < 8 →
        spadAt 0 ((e.w.val64 390 0).extractLsb' 0 21).toNat + 16 * 1 * m + b ≠
          spadAt 0 ((e.w.val 394 0).extractLsb' 0 21).toNat + j) (by decide +kernel)

/-- Operation 0 of core 0, of a warp with its wid that is resident, and `p` holds of it. -/
def opOf (s : State) (p : XOp → Warp → Bool) : Bool :=
  match (s.core 0).xq.get? 0 with
  | some o => match s.warp? 0 o.slot with
    | some w => w.wid == o.wid && !w.evicted && p o w
    | none => false
  | none => false

theorem op_that {s : State} {p : XOp → Warp → Bool} (h : opOf s p = true) :
    ∃ o w, (s.core 0).xq.get? 0 = some o ∧ s.warp? 0 o.slot = some w ∧ w.wid = o.wid ∧ w.evicted = false ∧ p o w = true := by
  unfold opOf at h
  split at h
  · next o ho =>
    split at h
    · next w hw =>
      simp only [Bool.and_eq_true, beq_iff_eq, Bool.not_eq_true'] at h
      exact ⟨o, w, ho, hw, h.1.1, h.1.2, h.2⟩
    · cases h
  · cases h

/-- Whether a read of a source by the array gives bytes. -/
def sources (s : State) (o : XOp) (n : Nat) : Bool :=
  match (s.sourceRead (.array 0) o.ctx 32768 n false (.array 0 0) o.got).1 with
  | .ok _ => true
  | _ => false

/-- Whether a read of memory gives bytes. -/
def gives (r : Except (XFault × Nat) (List Byte) × State) : Bool :=
  match r.1 with
  | .ok _ => true
  | .error _ => false

/-- MMT on a resident stratum, with an invalid tag, on an empty stratum with and without the skip policy, with a valid
tag, and with every row done. -/
theorem witness_MatrixAndStrataEvents_rows :
    opOf (arrayed .resident [(0, xop (.mmt (hd 3 1) mmt3))]) (fun o _ =>
      let k := (arrayed .resident [(0, xop (.mmt (hd 3 1) mmt3))]).core 0
      (arrayed .resident []).tagOf 0 o mmt3 0 == some 11 && (k.stratum 3).state == .resident && !k.changing 0 3 &&
      !o.nonres.contains 3 && (k.stratum 3).bfmt == slotB o.fmt && (k.stratum 3).scale == slotScale o.fmt &&
      ((arrayed .resident []).rowScaleOf 0 o mmt3 0).isSome &&
      sources (arrayed .resident [(0, o)]) o (rowBytes o.fmt false)) = true ∧
    opOf (arrayed .empty [(0, xop (.mmt (hd 3 1) (mmtTags true)))]) (fun o _ =>
      (arrayed .empty [(0, o)]).tagOf 0 o (mmtTags true) 0 == some 0) = true ∧
    opOf (arrayed .empty [(0, xop (.mmt (hd 3 1) mmt3))]) (fun o w =>
      let k := (arrayed .empty [(0, xop (.mmt (hd 3 1) mmt3))]).core 0
      (k.stratum 3).state == .empty && !k.changing 0 3 && k.xq == [(0, o)] && w.tiles == 0) = true ∧
    opOf { arrayed .empty [(0, xop (.mmt (hd 3 1) (mmtTags true)))] with spad := [(40960, 11)] } (fun o _ =>
      ({ arrayed .empty [(0, o)] with spad := [(40960, 11)] } : State).tagOf 0 o (mmtTags true) 0 == some 11 &&
      (mmtTags true).skip) = true ∧
    opOf (arrayed .resident [(0, { xop (.mmt (hd 3 1) mmt3) with units := 64 })]) (fun o _ =>
      decide (mmt3.rows.toNat ≤ o.units)) = true := by decide +kernel

/-- The translated pieces of a read, and whether none of them is poisoned. -/
def onePiece (s : State) (va : Nat) : Bool :=
  match State.xlatAll (.array 0) 1 .read true false [(va, 256)] s with
  | (.ok [(y, 256)], s1) => y.item.kind == .localMem && !s1.badPiece y 256
  | _ => false

/-- Asynchronous operations with every unit done, with a unit to move, and those that wait. -/
theorem witness_MatrixAndStrataEvents_units :
    opOf (arrayed .loading [(0, { xop (.sload (hd 3 1) (xf 392 511 511 2 0 3 0 0)) with units := 64 })]) (fun o _ =>
      !xHeld o.instr && o.stage == .running && decide (xTotal o.instr o.fmt o.copy ≤ o.units)) = true ∧
    opOf (arrayed .loading [(0, xop (.sload (hd 3 1) (xf 392 511 511 2 0 3 0 0)))]) (fun o _ =>
      decide (o.units < xTotal o.instr o.fmt o.copy) &&
      onePiece (arrayed .loading [(0, o)]) ((o.base.extractLsb' 0 48).toNat + unitOffset (slotB o.fmt) 0) &&
      (((arrayed .loading [(0, o)]).core 0).stratum 3).bfmt == slotB o.fmt) = true ∧
    opOf (arrayed .empty [(0, xop (.gload (hd 3 1) (xf 392 511 511 0 0 0 0 0)))]) (fun o _ =>
      sources (arrayed .empty [(0, o)]) o 256) = true ∧
    opOf (arrayed .empty [(0, { xop (.accld (hd 3 1) (xf 392 511 511 2 0 0 8 16)) with stage := .queued })])
      (fun o _ => o.stage == .queued && !xHeld o.instr) = true ∧
    opOf (arrayed .empty [(0, { xop (.accld (hd 3 1) (xf 392 511 511 2 0 0 8 16)) with stage := .stale 5 })])
      (fun o _ => o.stage == .stale 5) = true ∧ (arrayed .empty []).timeAt 0 < 5 ∧
    opOf (arrayed .empty [(0, { xop (.accld (hd 3 1) (xf 392 511 511 2 0 0 8 16)) with
      stage := .page { code := 0x10, rid := 0, va := 0, served := false } })]) (fun o _ => o.stage != .queued) = true := by
  decide +kernel

/-! ### Witnesses: engines -/

/-- The machine whose partition has engines 0 and 1. -/
def engined : State := { mapped with mgmt := { Mgmt.reset with engines := [(0, 0), (1, 0)] } }

theorem witness_EngineInstructions :
    (∃ e, Ready engined (.vcopy (hd 3 1) (af 392 394 396 0 0 1)) e ∧ e.act ≠ 0 ∧ (e.w.val 396 0).toNat ≠ 0 ∧
      engined.enginesFor e.core ≠ []) ∧
    (∃ e, Ready engined (.vcopy (hd 3 1) (af 392 394 385 0 0 1)) e ∧ e.act ≠ 0 ∧ (e.w.val 385 0).toNat = 0) ∧
    (∃ e, Ready engined (.vgather { hd 3 1 with guard := 0 } (af 392 394 396 0 0 0x401)) e ∧ e.act = 0) ∧
    (∃ e, Ready engined (.vgather (hd 3 1) (af 392 394 396 0 0 0x401)) e ∧ e.act ≠ 0 ∧ (e.w.val 397 0).toNat = 0) ∧
    (∃ e, Ready engined (.sort (hd 3 1) (af 392 394 396 2)) e ∧ e.act ≠ 0 ∧ (e.w.val 396 0).toNat ≠ 0) :=
  ⟨ready_that (fun (e : Env) => e.act ≠ 0 ∧ (e.w.val 396 0).toNat ≠ 0 ∧ engined.enginesFor e.core ≠ []) (by decide +kernel),
   ready_that (fun (e : Env) => e.act ≠ 0 ∧ (e.w.val 385 0).toNat = 0) (by decide +kernel),
   ready_that (fun (e : Env) => e.act = 0) (by decide +kernel),
   ready_that (fun (e : Env) => e.act ≠ 0 ∧ (e.w.val 397 0).toNat = 0) (by decide +kernel),
   ready_that (fun (e : Env) => e.act ≠ 0 ∧ (e.w.val 396 0).toNat ≠ 0) (by decide +kernel)⟩

/-- A copy of 512 bytes between scratchpad ranges that lie apart. -/
def copying : EngOp :=
  { kind := .copy, core := 0, slot := 0, wid := worker.wid, ctx := 1, block := 0, engine := 0, pc := 0, dst := 32768
    src := 40960, len := 512, index := 0, dspace := 1, sspace := 1, amod := 0, rowsz := 0, peer := 0, desc := false
    dest := { name := 30, count := 1, lanes := fullMask }, units := 0, stage := .running, corrected := false
    staleUnit := none, buffer := none, got := [], moved := 0, swap := false, cancelled := false, watched := [], launch := 0
    bix := 0, wno := 0, issue := 0 }

/-- The machine with operation 0. -/
def working (o : EngOp) : State := { engined with engs := [(0, o)] }

theorem witness_EngineInstructions_cancel :
    (∃ e, Ready (working copying) (.vcancel (hd 511 0) (af 511 511 511 0 0 0x21E)) e ∧ e.act ≠ 0 ∧ copying.wid = e.w.wid) ∧
    (∃ e, Ready (working copying) (.vstat (hd 3 1) (af 511 511 511)) e ∧ e.act ≠ 0) ∧
    ((working copying).engs.map (·.1)).Nodup :=
  ⟨ready_that (fun (e : Env) => e.act ≠ 0 ∧ copying.wid = e.w.wid) (by decide +kernel),
   ready_that (fun (e : Env) => e.act ≠ 0) (by decide +kernel), by decide⟩

/-- Operation 0 of a state, of a resident warp of its wid. -/
def engOf (s : State) : Option EngOp :=
  (s.engs.get? 0).bind fun o => (s.warp? o.core o.slot).bind fun w => if w.wid = o.wid ∧ w.evicted = false then some o else none

theorem witness_EngineEvents_ends :
    engOf (working { copying with units := 2 }) = some { copying with units := 2 } ∧ copying.total = 2 ∧
    engOf (working { copying with stage := .sent 0 }) = some { copying with stage := .sent 0 } ∧
    engOf (working { copying with stage := .sent 0, staleUnit := some 0 }) =
      some { copying with stage := .sent 0, staleUnit := some 0 } ∧
    0 + 1000000 ≤ ({ working copying with time := 1000000 } : State).unitTime (.engine 0) ∧
    (working copying).unitTime (.engine 0) < 0 + 1000000 := by decide +kernel

/-- The machine with a copy that waits for an earlier one on the same range, and one that need not. -/
def waiting (w : Bool) : State :=
  { engined with
    engs := [(1, { copying with stage := .locked })]
    cores := [(0, { engined.core 0 with locks :=
      [{ op := 0, ctx := 1, ranges := [{ space := 1, lo := 0, hi := 64, write := w }] },
       { op := 1, ctx := 1, ranges := [{ space := 1, lo := 0, hi := 64, write := false }] }] })] }

theorem witness_EngineEvents_locks :
    (waiting true).engs.get? 1 = some { copying with stage := .locked } ∧ (waiting true).lockConflict 1 = true ∧
    (waiting false).lockConflict 1 = false := by decide +kernel

theorem witness_EngineEvents_copy :
    engOf (working copying) = some copying ∧ copying.units < copying.total ∧ copying.selfOverlap = false ∧
    (working copying).spad.wf = true ∧ ((working copying).sideScratch copying 1 32768 256).isSome = true ∧
    ((working copying).sideScratch copying 1 40960 256).isSome = true := by decide +kernel

/-- A copy from global memory whose translation runs out, over page tables in device memory. -/
def renewing : State :=
  { working { copying with sspace := 0 } with
    tlb := [{ pageFor (.engine 0) 1 with size := 2 ^ 20, expiry := some 10, lease := 1000 }]
    ctxs := [(1, { Ctx.none 1 with fn := 256, desc := { Desc.none with root1 := 0x1F01 } })]
    dev := (Memory.writeN [] 0x1000 (leBytes 8 0x2F01)).writeN 0x2000 (leBytes 8 0xF1F) }

theorem witness_EngineEvents_renewal :
    (renewing.engs.get? 0).isSome = true ∧
    ((renewing.tlb.any fun y => y.expiry == some 10 &&
      y.serves (.engine 0) 1 (40960 + 256 * 0) (renewing.unitTime (.engine 0)) &&
      decide (8 * (10 - renewing.unitTime (.engine 0)) < y.lease)) = true) ∧
    (match (renewing.translate (.engine 0) 1 (40960 + 256 * 0) .read false true true).1 with
      | .ok x => x.phys == { host := false, addr := 40960 }
      | .error _ => false) = true := by decide +kernel

theorem witness_EngineEvents_links : (256 : Nat) ≤ 256 ∧ 256 < 257 := by decide

/-! ### Witnesses: warps, blocks, launches -/

/-- The machine with warp 0 in the active and `w1` in the pending set, and the cycle count at 4,096. -/
def paired (w0 w1 : Warp) : State :=
  { mapped with
    cycle := 4096
    cores := [(0, { Core.reset with warps := [(0, w0), (1, w1)], active := [0], pending := [1] })] }

/-- The warp stalled since a cycle, and the warp with every lane in one wait since a cycle. -/
def stuck (k : StallKind) (n : Nat) : Warp := { worker with stall := some { kind := k, since := n } }
def waitsAll (k : WaitKind) (n : Nat) : Warp := { worker with waits := [{ lanes := fullMask, kind := k, since := n }] }

/-- What a wait's destination is owed. -/
def owed3 : Dest := { name := 3, count := 1, lanes := 1 }

/-- A warp that has waited in the pending set since cycle 1. -/
def fresh1 : Warp := { worker with queued := 1 }

theorem witness_WarpEvents_swap :
    (∃ w, (paired (waitsAll (.barrier 0 false false owed3) 4064) fresh1).warp? 0 0 = some w ∧ w.issuable = 0 ∧
      w.waits = [{ lanes := fullMask, kind := .barrier 0 false false owed3, since := 4064 }]) ∧
    (∃ w, (paired (stuck .array 4064) fresh1).warp? 0 0 = some w ∧ w.issuable ≠ 0 ∧
      w.stall = some { kind := .array, since := 4064 }) ∧
    (∃ v, (paired worker worker).warp? 0 1 = some v ∧ v.queued + 4096 ≤ (paired worker worker).cycle) ∧
    (∃ v, (paired (stuck .array 4065) fresh1).warp? 0 1 = some v ∧ ¬v.queued + 4096 ≤ 4096 ∧ v.issuable ≠ 0 ∧ v.leaving = false) ∧
    (∃ v, (paired (stuck .array 4064) { worker with halted := true }).warp? 0 1 = some v ∧ v.issuable = 0) ∧
    ∀ w v, ((paired w v).core 0).active.contains 0 = true ∧ ((paired w v).core 0).pending = [] ++ 1 :: [] :=
  ⟨that (fun (w : Warp) => w.issuable = 0 ∧
      w.waits = [{ lanes := fullMask, kind := .barrier 0 false false owed3, since := 4064 }]) (by decide +kernel),
   that (fun (w : Warp) => w.issuable ≠ 0 ∧ w.stall = some { kind := .array, since := 4064 }) (by decide +kernel),
   that (fun (v : Warp) => v.queued + 4096 ≤ (paired worker worker).cycle) (by decide +kernel),
   that (fun (v : Warp) => ¬v.queued + 4096 ≤ 4096 ∧ v.issuable ≠ 0 ∧ v.leaving = false) (by decide +kernel),
   that (fun (v : Warp) => v.issuable = 0) (by decide +kernel), fun _ _ => ⟨rfl, rfl⟩⟩

theorem witness_WarpEvents_stalls :
    (∃ w, (paired (stuck .array 0) worker).warp? 0 0 = some w ∧ w.stall = some { kind := .array, since := 0 }) ∧
    (∃ w, (paired (stuck .array 1) worker).warp? 0 0 = some w ∧ w.stall = some { kind := .array, since := 1 }) ∧
    (∃ w, (paired (stuck (.allocation 1) 0) worker).warp? 0 0 = some w ∧ w.stall = some { kind := .allocation 1, since := 0 } ∧
      w.leaving = false ∧ ((paired w worker).core 0).active.contains 0 = true) :=
  ⟨that (fun (w : Warp) => w.stall = some { kind := .array, since := 0 }) (by decide +kernel),
   that (fun (w : Warp) => w.stall = some { kind := .array, since := 1 }) (by decide +kernel),
   that (fun (w : Warp) => w.stall = some { kind := .allocation 1, since := 0 } ∧ w.leaving = false ∧
      ((paired w worker).core 0).active.contains 0 = true) (by decide +kernel)⟩

/-- The warp chosen for eviction, and the warp with its names in its scree record. -/
def chosen : Warp := { worker with leaving := true, names := worker.names.take 2 }
def scree : Warp := { worker with evicted := true, names := [], screeNames := 2 }

/-- The chosen warp with a store to an unmapped page outstanding. -/
def unsettled : State := storedOut.modWarp 0 0 fun w => { w with leaving := true }

theorem witness_WarpEvents_eviction :
    (∃ w, (paired chosen worker).warp? 0 0 = some w ∧ w.evicted = false ∧ w.live ≠ 0 ∧ w.leaving = true ∧ w.settled = true ∧
      ((paired chosen worker).core 0).holdsX 0 = false ∧
      ((paired chosen worker).vaWrite (.core 0) w.ctx ((paired chosen worker).recordAt w.ctx 0 0) w.recordBytes true
        false).1.isNone = true) ∧
    (∃ w, unsettled.warp? 0 0 = some w ∧ w.settled = false ∧ w.evicted = false ∧ w.live ≠ 0 ∧ w.leaving = true) ∧
    (∃ w, port.warp? 0 0 = some w ∧ w.evicted = false ∧ w.live ≠ 0 ∧ w.leaving = false ∧ port.preemptEvicts 0 0 w = false ∧
      port.nextRefill 0 w.ctx ≠ some 0 ∧ ∀ x ∈ (port.core 0).contexts, port.victim 0 x ≠ some 0) ∧
    (∃ w, (paired scree worker).warp? 0 0 = some w ∧ (paired scree worker).nextRefill 0 w.ctx = some 0 ∧
      (paired scree worker).refillable w = true ∧ (paired scree worker).canAllocate 0 0 w w.screeNames = true ∧
      gives ((paired scree worker).vaRead (.core 0) w.ctx ((paired scree worker).recordAt w.ctx 0 0) (1088 + 144 * w.screeNames)
        true false) = true) :=
  ⟨that (fun (w : Warp) => w.evicted = false ∧ w.live ≠ 0 ∧ w.leaving = true ∧ w.settled = true ∧
      ((paired chosen worker).core 0).holdsX 0 = false ∧
      ((paired chosen worker).vaWrite (.core 0) w.ctx ((paired chosen worker).recordAt w.ctx 0 0) w.recordBytes true
        false).1.isNone = true) (by decide +kernel),
   that (fun (w : Warp) => w.settled = false ∧ w.evicted = false ∧ w.live ≠ 0 ∧ w.leaving = true) (by decide +kernel),
   that (fun (w : Warp) => w.evicted = false ∧ w.live ≠ 0 ∧ w.leaving = false ∧ port.preemptEvicts 0 0 w = false ∧
      port.nextRefill 0 w.ctx ≠ some 0 ∧ ∀ x ∈ (port.core 0).contexts, port.victim 0 x ≠ some 0) (by decide +kernel),
   that (fun (w : Warp) => (paired scree worker).nextRefill 0 w.ctx = some 0 ∧
      (paired scree worker).refillable w = true ∧ (paired scree worker).canAllocate 0 0 w w.screeNames = true ∧
      gives ((paired scree worker).vaRead (.core 0) w.ctx ((paired scree worker).recordAt w.ctx 0 0) (1088 + 144 * w.screeNames)
        true false) = true) (by decide +kernel)⟩

/-- The machine whose warp waits in some lanes, with its group in a phase. -/
def waits (k : WaitKind) (phase : Bool) (lanes : Mask := 1) : State :=
  { portOf { worker with waits := [{ lanes := lanes, kind := k, since := 0 }] } with groups := [(0, { team with phase := phase })] }

/-- A wait on fence 0 for a value of at least `v`. -/
def fence0 (v : BitVec 64) : WaitKind := .fence 0 0 v false owed3

theorem witness_WarpEvents_waits :
    (∀ b : Bool, ∃ w, (waits (.barrier 0 false true owed3) b).warp? 0 0 = some w ∧ w.evicted = false ∧
      w.waits[0]? = some { lanes := 1, kind := .barrier 0 false true owed3, since := 0 } ∧
      (waits (.barrier 0 false true owed3) b).group? w 0 = some (0, { team with phase := b })) ∧
    (∀ v ∈ [(0 : BitVec 64), 5], ∃ w, (waits (fence0 v) false).warp? 0 0 = some w ∧
      w.waits[0]? = some { lanes := 1, kind := fence0 v, since := 0 } ∧
      decide (v.toNat ≤ (((waits (fence0 v) false).part 0).fence 0).toNat) = (v == 0)) ∧
    (∀ m ∈ [(1 : Mask), fullMask], ∃ w, (waits (.sleep 0 true) false m).warp? 0 0 = some w ∧
      w.waits[0]? = some { lanes := m, kind := .sleep 0 true, since := 0 } ∧ decide (w.issuable = 0) = (m == fullMask) ∧ w.halted = false) ∧
    (∀ n ∈ [0, 5], ∃ w, (waits (.sleep n false) false).warp? 0 0 = some w ∧
      w.waits[0]? = some { lanes := 1, kind := .sleep n false, since := 0 } ∧
      decide (n ≤ (waits (.sleep n false) false).timeAt 0) = (n == 0)) := by
  refine ⟨fun b => that (fun (w : Warp) => w.evicted = false ∧
      w.waits[0]? = some { lanes := 1, kind := .barrier 0 false true owed3, since := 0 } ∧
      (waits (.barrier 0 false true owed3) b).group? w 0 = some (0, { team with phase := b }))
      (by revert b; decide +kernel), ?_, ?_, ?_⟩
  · intro v hv
    exact that (o := (waits (fence0 v) false).warp? 0 0) (fun (w : Warp) => w.waits[0]? = some { lanes := 1, kind := fence0 v, since := 0 } ∧
      decide (v.toNat ≤ (((waits (fence0 v) false).part 0).fence 0).toNat) = (v == 0))
      (by obtain rfl | rfl := List.mem_pair.1 hv <;> decide +kernel)
  · intro m hm
    exact that (o := (waits (.sleep 0 true) false m).warp? 0 0) (fun (w : Warp) => w.waits[0]? = some { lanes := m, kind := .sleep 0 true, since := 0 } ∧
      decide (w.issuable = 0) = (m == fullMask) ∧ w.halted = false) (by obtain rfl | rfl := List.mem_pair.1 hm <;> decide +kernel)
  · intro n hn
    exact that (o := (waits (.sleep n false) false).warp? 0 0) (fun (w : Warp) => w.waits[0]? = some { lanes := 1, kind := .sleep n false, since := 0 } ∧
      decide (n ≤ (waits (.sleep n false) false).timeAt 0) = (n == 0)) (by obtain rfl | rfl := List.mem_pair.1 hn <;> decide +kernel)

/-- A launch of one block, in a state. -/
def oneBlock (state : Nat) : Launch :=
  { Launch.none with ctx := 1, fn := 256, state := state, grid := (1, 1, 1), record := placedRecord }

/-- The machine with a launch that has a block of one group to admit, and with one whose block needs more slots than a core has
that another context is leaving. -/
def offered : State :=
  { mapped with launches := [(0, { oneBlock 0 with record := placedRecord.set 104 1 })], blocks := [], groups := [], cores := [] }
def crowded : State :=
  { offered with
    launches := [(0, { oneBlock 0 with record := placedRecord.set 20 16 })]
    ctxs := offered.ctxs ++ [(2, { Ctx.none 1 with number := 2, fn := 256, pre := 1 })]
    cores := [(0, { Core.reset with warps := [(0, { worker with ctx := 2 })], active := [0] })] }

/-- A core has room for a launch's warps. -/
def roomOn (s : State) (l : Launch) (k : Nat) : Bool :=
  (s.core k).contexts.contains l.ctx || (s.core k).contexts.all (fun y => (s.ctx y).pre == 0) ||
    decide (l.needs + s.reserves k ≤ (s.core k).freeSlots)

/-- The machine whose one warp has exited. -/
def exited : State := { portOf { worker with live := 0 } with groups := [(0, { team with dropped := 1 })] }

/-- The machine whose served function's slice is over while function 5 wants to launch. -/
def sliced : State :=
  { offered with
    parts := [(0, { Part.reset 0 1 with serving := some 256 })]
    launches := [(0, oneBlock 2), (1, { oneBlock 0 with fn := 5 })] }

theorem witness_BlocksAndLaunchEnd_blocks :
    (∃ l, offered.launches.get? 0 = some l ∧ offered.mayAdmit 0 l = true ∧ (offered.placements l).contains 0 = true ∧
      l.flag 1 = false ∧ 0 < l.shape ∧ l.nwarps % l.shape = 0 ∧ offered.spad.wf = true ∧ (∀ k ∈ l.run 0, roomOn offered l k = true) ∧
      l.ngroups = 1 ∧ (match (State.cpReads (.launch 0) l.part l.ctx [(fieldAt l.record 96 8, 16 * l.ngroups)] offered).1 with
        | .ok [_] => true
        | _ => false) = true) ∧
    (∃ l, crowded.launches.get? 0 = some l ∧ crowded.mayAdmit 0 l = true ∧ (crowded.placements l).contains 0 = true ∧
      ∃ k ∈ l.run 0, roomOn crowded l k = false) ∧
    (∃ l, port.launches.get? 0 = some l ∧ (port.mayAdmit 0 l && (port.placements l).contains 8) = false) ∧
    (∃ b, port.blocks.get? 0 = some b ∧ port.blockOver 0 b = false) ∧
    (∃ b, exited.blocks.get? 0 = some b ∧ exited.blockOver 0 b = true) ∧
    ((sliced.part 0).serving = some 256 ∧ (sliced.part 0).sliceEnd ≤ sliced.time ∧
      nextServed (some 256) ((sliced.wantingFns 0).filter (· != 256)) = some 5) :=
  ⟨that (fun (l : Launch) => offered.mayAdmit 0 l = true ∧ (offered.placements l).contains 0 = true ∧
      l.flag 1 = false ∧ 0 < l.shape ∧ l.nwarps % l.shape = 0 ∧ offered.spad.wf = true ∧ (∀ k ∈ l.run 0, roomOn offered l k = true) ∧
      l.ngroups = 1 ∧ (match (State.cpReads (.launch 0) l.part l.ctx [(fieldAt l.record 96 8, 16 * l.ngroups)] offered).1 with
        | .ok [_] => true
        | _ => false) = true) (by decide +kernel),
   that (fun (l : Launch) => crowded.mayAdmit 0 l = true ∧ (crowded.placements l).contains 0 = true ∧
      ∃ k ∈ l.run 0, roomOn crowded l k = false) (by decide +kernel),
   (that (fun (l : Launch) => (port.placements l).contains 8 = false) (by decide +kernel)).imp
     fun _ h => ⟨h.1, by rw [h.2, Bool.and_false]⟩,
   that (fun (b : Block) => port.blockOver 0 b = false) (by decide +kernel),
   that (fun (b : Block) => exited.blockOver 0 b = true) (by decide +kernel), by decide +kernel⟩

/-- A record of a reduction at address 4. -/
def oneRecord : RedRecord := { target := 4, value := 0, op := 0, lane := 0, warp := 0, block := 0, issue := 0, element := 0 }

/-- The machine with a launch whose only block has ended, with some records to apply. -/
def ended (rs : List RedRecord) : State :=
  { mapped with launches := [(0, { oneBlock 2 with next := 1, ended := 1, buffer := rs })] }

/-- The pieces of a record's target translate, and none is poisoned. -/
def combines (s : State) : Bool :=
  match State.xlatAll (.cp 0) 1 .rmw false false (pagePieces 4 4) s with
  | (.ok ts, s1) => ts.all fun x => !s1.badPiece x.1 x.2
  | (.error _, _) => false

theorem witness_BlocksAndLaunchEnd_end :
    (∃ l, (ended []).launches.get? 0 = some l ∧ l.state = 2 ∧ l.next = l.grid.1 * l.grid.2.1 * l.grid.2.2 ∧
      l.ended = l.grid.1 * l.grid.2.1 * l.grid.2.2 ∧ l.buffer = [] ∧ (ended []).launchBusyX l = false ∧
      (∀ e ∈ ((ended []).ctx l.ctx).storeFaults, e.2.acc.launch ≠ 0) ∧ 0 ∉ ((ended []).part l.part).statusOwed) ∧
    (∃ l, port.launches.get? 0 = some l ∧ l.state = 2 ∧ l.next ≠ l.grid.1 * l.grid.2.1 * l.grid.2.2) ∧
    (∃ l, (ended [oneRecord]).launches.get? 0 = some l ∧ l.state = 2 ∧ l.buffer = [oneRecord] ∧
      (ended [oneRecord]).cpGate (.launch 0) l.part l.ctx (pagePieces 4 4) = (none, false) ∧ combines (ended [oneRecord]) = true) :=
  ⟨that (fun (l : Launch) => l.state = 2 ∧ l.next = l.grid.1 * l.grid.2.1 * l.grid.2.2 ∧
      l.ended = l.grid.1 * l.grid.2.1 * l.grid.2.2 ∧ l.buffer = [] ∧ (ended []).launchBusyX l = false ∧
      (∀ e ∈ ((ended []).ctx l.ctx).storeFaults, e.2.acc.launch ≠ 0) ∧ 0 ∉ ((ended []).part l.part).statusOwed) (by decide +kernel),
   that (fun (l : Launch) => l.state = 2 ∧ l.next ≠ l.grid.1 * l.grid.2.1 * l.grid.2.2) (by decide +kernel),
   that (fun (l : Launch) => l.state = 2 ∧ l.buffer = [oneRecord] ∧
      (ended [oneRecord]).cpGate (.launch 0) l.part l.ctx (pagePieces 4 4) = (none, false) ∧ combines (ended [oneRecord]) = true)
      (by decide +kernel)⟩

/-! ### Witnesses: queues and launch records -/

/-- The machine with queue 0 of the physical function's page, and a memory with an entry at the
head of its ring and a launch record at 0x2000. -/
def ringed (d : Desc) (m : Memory) : State :=
  { mapped with
    ctxs := [(1, { Ctx.none 1 with fn := 256, desc := d })]
    launches := []
    fns := [(256, { FnPage.reset 0 with queues := [(0, { Queue.reset with base := 0x1000, log2 := 4, enable := true, ctx := 1, tail := 1 })] })]
    dev := m }

/-- A descriptor that admits work, with a window of the lode store. -/
def rooted : Desc := { Desc.none with root1 := 0x100001, screeStride := 2 ^ 24, lode := List.replicate 4 (0, 4096) }

def signalling : State := ringed rooted [(0x1000, 2), (0x1008, 5), (0x1010, 7)]
def fenceWaiting (cmp : Byte) : State := ringed rooted [(0x1000, 3), (0x1008, 5), (0x100A, cmp), (0x1010, 7)]
def launching (d : Desc) : State :=
  ringed d [(0x1000, 1), (0x1009, 0x20), (0x2014, 1), (0x2016, 1), (0x2018, 0x40), (0x2019, 1)]
def copyIn (off : Byte) : State := ringed rooted [(0x1000, 4), (0x1009, 0x20), (0x1010, off), (0x101D, 0x10), (0x2014, 1)]
/-- The machine whose entry breaks the table. -/
def broken : State := ringed rooted [(0x1000, 9)]

/-- The entry at the head of queue 0 may begin, is `x`, and `p` holds behind the look at it. -/
def headIs (s : State) (x : QEntry) (p : State → Bool) : Bool :=
  match s.headEntry 256 0 with
  | (some (1, e), s1) => e == x && p s1
  | _ => false

theorem head_that {s : State} {x : QEntry} {p : State → Bool} (h : headIs s x p = true) :
    ∃ s1, s.headEntry 256 0 = (some (1, x), s1) ∧ p s1 = true := by
  unfold headIs at h
  split at h
  · next e s1 hs =>
    simp only [Bool.and_eq_true, beq_iff_eq] at h
    exact ⟨s1, by rw [hs, h.1], h.2⟩
  · cases h

/-- How the taking of the record at 0x2000 ends. -/
def takes (s : State) (r : Option (List Byte) := none) : Option Nat :=
  match (s.takeRecord (.entry 256 0) 0 1 256 0 0x2000 r).1 with
  | .queued _ => some 0
  | .rejected u => some (if u then 3 else 1)
  | .waiting r => some (if r.isSome then 4 else 2)

theorem witness_QueueRules_doorbells :
    (signalling.fns.has 256 = true ∧ signalling.queueServed 256 0 = true ∧ signalling.queueServed 256 1 = false ∧
      State.reset.fns.has 256 = false) ∧
    (let d := signalling.queue 256 0
     1 ≤ ((2 : BitVec 32) - d.head).toNat ∧ ((2 : BitVec 32) - d.head).toNat ≤ 2 ^ d.log2 ∧
       (d.tail - d.head).toNat ≤ ((2 : BitVec 32) - d.head).toNat ∧ 2 ^ d.log2 < ((17 : BitVec 32) - d.head).toNat ∧
       2 ^ 32 ≤ (0x100000002 : BitVec 64).toNat) ∧
    (signalling.queue 256 0).enable = true ∧ (signalling.queue 256 1).enable = false := by decide +kernel

theorem witness_QueueRules_entries :
    (∃ s1, signalling.headEntry 256 0 = (some (1, .signal 5 0 7), s1) ∧ (s1.fns == signalling.fns) = true) ∧
    (∃ s1, (fenceWaiting 0).headEntry 256 0 = (some (1, .wait 5 0 7), s1) ∧ decide (((s1.part 0).fence 5).toNat < 7) = true) ∧
    (∃ s1, (fenceWaiting 2).headEntry 256 0 = (some (1, .wait 5 2 7), s1) ∧ decide ((s1.part 0).fence 5 ≠ 7) = true) ∧
    (∃ s1, (launching rooted).headEntry 256 0 = (some (1, .launch 0x2000), s1) ∧ (takes s1 == some 0) = true) ∧
    (∃ s1, (launching Desc.none).headEntry 256 0 = (some (1, .launch 0x2000), s1) ∧ (takes s1 == some 1) = true) ∧
    (∃ s1, ({ launching rooted with tlb := [] } : State).headEntry 256 0 = (some (1, .launch 0x2000), s1) ∧ (takes s1 == some 2) = true) :=
  ⟨head_that (by decide +kernel), head_that (by decide +kernel), head_that (by decide +kernel), head_that (by decide +kernel),
   head_that (by decide +kernel), head_that (by decide +kernel)⟩

/-- Whether a lode copy of 4,096 bytes is read. -/
def copies (s : State) : Bool :=
  (s.part 0).copying.isEmpty && !s.ctxRuns 1 && s.lode.wf &&
  match (s.modPart 0 fun d => { d with copying := [(1, 64 * 256 + 0)] }).cpRead (.entry 256 0) 0 1 0x2000 4096 with
  | (.ok _, s2) => s2.lode == s.lode
  | (.error _, _) => false

theorem witness_QueueRules_copies :
    (∃ s1, (copyIn 1).headEntry 256 0 = (some (1, .copy 0x2000 1 0 4096), s1) ∧ (!s1.lodeWindow 1 0 1 4096) = true) ∧
    (∃ s1, (copyIn 0).headEntry 256 0 = (some (1, .copy 0x2000 0 0 4096), s1) ∧
      (s1.lodeWindow 1 0 0 4096 && copies s1) = true) :=
  ⟨head_that (s := copyIn 1) (x := .copy 0x2000 1 0 4096) (p := fun s1 => !s1.lodeWindow 1 0 1 4096) (by decide +kernel),
   head_that (s := copyIn 0) (x := .copy 0x2000 0 0 4096) (p := fun s1 => s1.lodeWindow 1 0 0 4096 && copies s1) (by decide +kernel)⟩

/-- A LAUNCH of the warp to serve, of a queue. -/
def asked1 (queue : Nat) : LaunchReq :=
  { addr := 0x2000, queue := queue, core := 0, slot := 0, wid := worker.wid, dest := owed3, record := none, number := 0 }

/-- The machine with that LAUNCH to serve, and a queue 1 that does not exist. -/
def requesting (queue : Nat) (s : State) : State := { s with parts := [(0, { Part.reset 0 1 with requests := [asked1 queue] })] }

/-- How the taking of the record of a LAUNCH of the warp ends, behind which the request and the warp stand as they did. -/
def answers (s : State) : Option Nat :=
  let y := ctxKey 0 (worker.wid.extractLsb' 52 12).toNat
  match s.takeRecord (.request 0) 0 y (s.ctx y).fn 0 0x2000 none with
  | (x, s1) =>
    if (s1.part 0).requests = [asked1 0] ∧ s1.warp? 0 0 = s.warp? 0 0 then
      match x with
      | .queued _ => some 0
      | .rejected u => some (if u then 3 else 1)
      | .waiting _ => some 2
    else none

theorem witness_QueueRules_device :
    (∃ w, (requesting 1 port).warp? 0 0 = some w ∧ w.wid = worker.wid ∧ w.evicted = false) ∧
    (((requesting 1 port).part 0).requests = [asked1 1] ∧
      (requesting 1 port).deviceQueueOk (ctxKey 0 (worker.wid.extractLsb' 52 12).toNat) 1 = false ∧
      isV owed3.name.toNat = true ∧ owed3.count ≠ 0) ∧
    (requesting 0 (launching rooted)).deviceQueueOk (ctxKey 0 (worker.wid.extractLsb' 52 12).toNat) 0 = true ∧
    answers (requesting 0 (launching rooted)) = some 0 ∧ answers (requesting 0 (launching Desc.none)) = some 1 ∧
    answers (requesting 0 { launching rooted with poison := [0x2000 / 128] }) = some 3 :=
  ⟨that (fun (w : Warp) => w.wid = worker.wid ∧ w.evicted = false) (by decide +kernel),
   by decide +kernel, by decide +kernel, by decide +kernel, by decide +kernel, by decide +kernel⟩

theorem witness_QueueRules_broken :
    (broken.queueServed 256 0 = true ∧ (broken.queue 256 0).stopped = false ∧
      (broken.queue 256 0).head ≠ (broken.queue 256 0).tail ∧
      broken.useCtx 256 1 = (some 1, broken) ∧
      qentryOf (broken.physRead (physOf 0x1000) 64) = none) ∧
    ({ signalling with poison := [32] } : State).poisoned (physOf (128 * 32)) = true ∧ 32 ∈ linesFrom 0x1000 64 :=
  ⟨⟨by decide +kernel, by decide +kernel, by decide +kernel, rfl, by decide +kernel⟩, by decide +kernel, by decide +kernel⟩

/-- A launch record with one byte changed. -/
def recordWith (i : Nat) (b : Byte) : LaunchData := { record := placedRecord.set i b, masks := [], tables := [] }

/-- An accepted record, and one for each reason of the statement at a boundary. -/
theorem witness_LaunchRecords_reasons :
    let r := fun i b => rejectReason (Part.reset 0 1) rooted true 0x2000 (recordWith i b)
    r 0 0 = 0 ∧ r 6 1 = 0x02 ∧ r 39 0xFF = 0x03 ∧ r 20 0 = 0x04 ∧ r 20 129 = 0x04 ∧ r 25 2 = 0x05 ∧ r 26 1 = 0x06 ∧ r 30 0x19 = 0x07 ∧
    rejectReason (Part.reset 0 1) rooted true 0x2080 (recordWith 0 0) = 0x09 ∧ r 23 8 = 0 ∧
    rejectReason (Part.reset 0 1) rooted true 0x2000
      { recordWith 11 1 with record := ((placedRecord.set 11 1).set 13 1).set 16 1 } = 0x0A := by decide +kernel

/-- A record that has been read is the one that is queued. -/
theorem witness_LaunchRecords_read : takes (launching rooted) (some placedRecord) = some 0 := by decide +kernel

/-- The machine with a launch that waits for its grid, whose fence is at a value. -/
def gridded (w : Byte) (v : Nat) : State :=
  { mapped with
    parts := [(0, { Part.reset 0 1 with fences := [(0, BitVec.ofNat 64 v)] })]
    launches := [(0, { oneBlock 1 with grid := (0, 0, 0), record := ((placedRecord.set 23 8).set 144 1).set 129 0x20 })]
    dev := [(0x2000, 2), (0x2004, 1), (0x2008, 1), (0x200B, w)] }

/-- Whether the words of the grid are read, as `big` says they are. -/
def gridReads (s : State) (l : Launch) (big : Bool) : Bool :=
  match (s.modLaunch 0 fun l => { l with gridSeen := true }).cpRead (.launch 0) l.part l.ctx (fieldAt l.record 128 8) 12 with
  | (.ok bs, s1) => s1.launches.get? 0 == some { l with gridSeen := true } &&
      decide (2 ^ 32 ≤ fieldAt bs 0 4 * fieldAt bs 4 4 * fieldAt bs 8 4 * fieldAt l.record 20 2) == big
  | (.error _, _) => false

theorem witness_LaunchRecords_grid :
    (oneBlock 0).state = 0 ∧ (oneBlock 0).flag 3 = false ∧ ({ oneBlock 0 with record := placedRecord.set 23 8 } : Launch).flag 3 = true ∧
    (∃ l, (gridded 0 0).launches.get? 0 = some l ∧ l.state = 1 ∧ l.gridRead = false ∧ l.gridSeen = false ∧
      (((gridded 0 0).part l.part).fence (fieldAt l.record 136 2)).toNat < fieldAt l.record 144 8 % 2 ^ 64) ∧
    (∃ l, (gridded 0 1).launches.get? 0 = some l ∧ l.state = 1 ∧ l.gridRead = false ∧ l.gridSeen = false ∧
      fieldAt l.record 144 8 % 2 ^ 64 ≤ (((gridded 0 1).part l.part).fence (fieldAt l.record 136 2)).toNat ∧
      gridReads (gridded 0 1) l false = true) ∧
    (∃ l, (gridded 0x80 1).launches.get? 0 = some l ∧ l.state = 1 ∧
      fieldAt l.record 144 8 % 2 ^ 64 ≤ (((gridded 0x80 1).part l.part).fence (fieldAt l.record 136 2)).toNat ∧
      gridReads (gridded 0x80 1) l true = true) :=
  ⟨by decide, by decide +kernel, by decide +kernel,
   that (fun (l : Launch) => l.state = 1 ∧ l.gridRead = false ∧ l.gridSeen = false ∧
      (((gridded 0 0).part l.part).fence (fieldAt l.record 136 2)).toNat < fieldAt l.record 144 8 % 2 ^ 64) (by decide +kernel),
   that (fun (l : Launch) => l.state = 1 ∧ l.gridRead = false ∧ l.gridSeen = false ∧
      fieldAt l.record 144 8 % 2 ^ 64 ≤ (((gridded 0 1).part l.part).fence (fieldAt l.record 136 2)).toNat ∧
      gridReads (gridded 0 1) l false = true) (by decide +kernel),
   that (fun (l : Launch) => l.state = 1 ∧
      fieldAt l.record 144 8 % 2 ^ 64 ≤ (((gridded 0x80 1).part l.part).fence (fieldAt l.record 136 2)).toNat ∧
      gridReads (gridded 0x80 1) l true = true) (by decide +kernel)⟩

/-! ### Witnesses: doorbells, event queues, control writes, pre-emption -/

/-- A held record of a kind. -/
def rec (kind : BitVec 8) : EvRec := { EvRec.zero with kind := kind }

/-- An outstanding page request. -/
def outstanding : PReq :=
  { rid := 1, seq := 2, vf := 255, part := 0, ctx := 1, gpa := 0, va := 0, time := 0, unit := .core 0, kinds := 1 }

/-- A record of a kind that is held for a function since cycle 0. -/
def heldFor (fn : Nat) (kind : BitVec 8) : HeldRec := { fn := fn, cycle := 0, rid := 0, record := rec kind }

/-- The machine with an outstanding page request, a held record and its event queue. -/
def evented (log2 : Nat) : State :=
  { port with
    fns := [(256, { FnPage.reset 0 with evBase := 0x4000, evLog2 := log2, evDropped := true })]
    preqs := [(3, outstanding)]
    evHeld := [heldFor 5 0, heldFor 256 2] }

theorem witness_DoorbellsAndEventQueues_doorbells :
    (port.namedCtx 256 1 = some 1 ∧ port.namedCtx 256 2 = none ∧ port.namedCtx 9 1 = none ∧ port.fns.has 256 = true ∧
      port.fns.has 9 = false) ∧
    (let v : BitVec 64 := 0x2000003
     (evented 6).parts.has 0 = true ∧ (evented 6).preqHeld = [] ∧ (v.extractLsb' 0 11).toNat = 3 ∧ v.extractLsb' 24 8 = 2 ∧
       v.extractLsb' 32 32 = 0 ∧ v.extractLsb' 11 5 = 0 ∧ v.extractLsb' 16 8 = 0 ∧
       (evented 6).preqs.get? 3 = some outstanding ∧ (evented 6).preqs.get? 4 = none) ∧
    (evented 6).dropsOwed = [] := by decide +kernel

theorem witness_DoorbellsAndEventQueues_events :
    ((evented 6).evHeld.findIdx? fun e => e.fn == 256) = some 1 ∧ (evented 6).evHeld[1]? = some (heldFor 256 2) ∧
    ((evented 6).evHeld.findIdx? fun e => e.fn == 7) = none ∧
    (∃ p, (evented 6).fns.get? 256 = some p ∧ p.evBase ≠ 0 ∧ 6 ≤ p.evLog2 ∧ p.evLog2 ≤ 16 ∧
      (p.evTail - p.evHead).toNat < 2 ^ p.evLog2) ∧
    (∃ p, (evented 5).fns.get? 256 = some p ∧ ¬6 ≤ p.evLog2) ∧
    ((rec 3).kind.toNat ≤ 3 ∧ 3 < (rec 4).kind.toNat ∧ (port.evHeld.filter fun e => decide (4 ≤ e.record.kind.toNat)).length < 64 ∧
      64 ≤ (({ port with evHeld := List.replicate 64 (heldFor 256 4) } : State).evHeld.filter fun e =>
        decide (4 ≤ e.record.kind.toNat)).length ∧ (port.fn 256).evLost ≠ BitVec.allOnes 32) :=
  ⟨by decide +kernel, by decide +kernel, by decide +kernel,
   that (fun (p : FnPage) => p.evBase ≠ 0 ∧ 6 ≤ p.evLog2 ∧ p.evLog2 ≤ 16 ∧ (p.evTail - p.evHead).toNat < 2 ^ p.evLog2)
     (by decide +kernel),
   that (fun (p : FnPage) => ¬6 ≤ p.evLog2) (by decide +kernel), by decide +kernel⟩

/-- The machine whose lanes 0 to 3 are suspended by a trap. -/
def suspended (code : BitVec 8) : State := portOf { worker with traps := [{ lanes := 0xF, code := code, past := false }] }

/-- A control value that names lane 0 of warp 0 on core 0 of context 1. -/
def names1 : BitVec 64 := 0x1000000000001

theorem witness_ControlWrites :
    (let v := names1
     v.extractLsb' 40 8 = 0 ∧ v.extractLsb' 32 8 = 0 ∧ ctxKey ((suspended 0x28).fnPart 256) (v.extractLsb' 48 12).toNat = 1 ∧
       v.extractLsb' 0 32 = 1) ∧
    ((suspended 0x28).fns.has 256 = true ∧ ((suspended 0x28).ctx 1).fn = 256 ∧ ((suspended 0x28).ctx 2).fn = 256 ∧
      (suspended 0x28).warp? 0 1 = none ∧ ((suspended 0x28).core 0).xq = [] ∧ ((suspended 0x28).ctx 1).storeFaults = []) ∧
    (∃ w, (suspended 0x28).warp? 0 0 = some w ∧ w.ctx = 1 ∧ 1 &&& w.live ≠ 0 ∧
      (w.traps.find? fun t => laneOn t.lanes (lowLane (1 &&& w.live))) = some { lanes := 0xF, code := 0x28, past := false } ∧
      w.halted = false ∧ (0xF : Mask) &&& w.live ≠ 0 ∧ w.accs = [] ∧ w.log = []) ∧
    (∃ w, (suspended 0x01).warp? 0 0 = some w ∧
      (w.traps.find? fun t => laneOn t.lanes (lowLane (1 &&& w.live))) = some { lanes := 0xF, code := 0x01, past := false }) ∧
    (∃ w, (suspended 0x28).warp? 0 0 = some w ∧ (suspended 0x28).group? w 0 = some (0, team) ∧ team.members.getLsbD w.number = true) :=
  ⟨by decide +kernel, by decide +kernel,
   that (fun (w : Warp) => w.ctx = 1 ∧ 1 &&& w.live ≠ 0 ∧
      (w.traps.find? fun t => laneOn t.lanes (lowLane (1 &&& w.live))) = some { lanes := 0xF, code := 0x28, past := false } ∧
      w.halted = false ∧ (0xF : Mask) &&& w.live ≠ 0 ∧ w.accs = [] ∧ w.log = []) (by decide +kernel),
   that (fun (w : Warp) =>
      (w.traps.find? fun t => laneOn t.lanes (lowLane (1 &&& w.live))) = some { lanes := 0xF, code := 0x01, past := false })
     (by decide +kernel),
   that (fun (w : Warp) => (suspended 0x28).group? w 0 = some (0, team) ∧ team.members.getLsbD w.number = true) (by decide +kernel)⟩

/-- A halted warp whose record is posted, and one whose record, or whose trap's record, is still held. -/
def halted (held : List HeldRec) : State := { portOf { worker with halted := true } with evHeld := held }
def unposted : State := { suspended 0x28 with evHeld := [{ fn := 256, cycle := 0, rid := 0, record := { rec 0 with wid := worker.wid, fmask := 0xF } }] }

theorem witness_ControlWrites_held :
    (∃ w, (halted []).warp? 0 0 = some w ∧ w.halted = true ∧ w.haltedPages = [] ∧ w.ctx = 1 ∧ 1 &&& w.live ≠ 0) ∧
    (∃ w, (halted [{ fn := 256, cycle := 0, rid := 0, record := { rec 1 with wid := worker.wid } }]).warp? 0 0 = some w ∧ w.halted = true ∧
      ∃ h ∈ (halted [{ fn := 256, cycle := 0, rid := 0, record := { rec 1 with wid := worker.wid } }]).evHeld,
        h.record.kind = 1 ∧ h.record.wid = w.wid) ∧
    (∃ w, unposted.warp? 0 0 = some w ∧ w.halted = false ∧
      ∃ h ∈ unposted.evHeld, h.record.kind = 0 ∧ h.record.wid = w.wid ∧ h.record.fmask &&& laneBit (lowLane (1 &&& w.live)) ≠ 0) :=
  ⟨that (fun (w : Warp) => w.halted = true ∧ w.haltedPages = [] ∧ w.ctx = 1 ∧ 1 &&& w.live ≠ 0) (by decide +kernel),
   that (fun (w : Warp) => w.halted = true ∧
      ∃ h ∈ (halted [{ fn := 256, cycle := 0, rid := 0, record := { rec 1 with wid := worker.wid } }]).evHeld,
        h.record.kind = 1 ∧ h.record.wid = w.wid) (by decide +kernel),
   that (fun (w : Warp) => w.halted = false ∧
      ∃ h ∈ unposted.evHeld, h.record.kind = 0 ∧ h.record.wid = w.wid ∧ h.record.fmask &&& laneBit (lowLane (1 &&& w.live)) ≠ 0)
      (by decide +kernel)⟩

/-- The machine whose context is in a state of the pre-emption ladder since time 0, at a time. -/
def laddered (pre time : Nat) : State :=
  { port with time := time, ctxs := [(1, { Ctx.none 1 with fn := 256, pre := pre })] }

/-- The machine whose context has no warp on a core and is on its way out, and one saved. -/
def leavingAll : State := { laddered 1 0 with cores := [], blocks := [], groups := [] }
def saved (d : Memory) : State :=
  { laddered 3 0 with
    cores := [], blocks := [], groups := [], dev := d
    fns := [(256, { FnPage.reset 0 with ctxTable := 0x8000 })]
    ctxs := [(1, { Ctx.none 1 with
      fn := 256, pre := 3
      savedBlocks := [(0, { launch := 0, index := 0, cores := [0], scratchOff := 0, scratchSize := 64, groups := [], position := 0 })] })] }

/-- A valid descriptor of context 1 in memory, with a first root word. -/
def descBytes (root : Byte) : Memory := (if root = 0 then [] else [(0x8100, root)]) ++ [(0x811C, 1), (0x811E, 1)]

theorem witness_PreemptionAndSwitch :
    (∀ n, n < 5 → (laddered n 0).requested 256 1 = some 1 ∧ ((laddered n 0).ctx 1).pre = n) ∧
    (((port.core 0).xq = []) ∧ ∀ k, k ≠ 0 → (port.core k).xq = []) ∧
    (((laddered 1 100000).ctx 1).reqTime + ((laddered 1 100000).ctx 1).desc.grace ≤ 100000 ∧
      99999 < ((laddered 1 99999).ctx 1).reqTime + ((laddered 1 99999).ctx 1).desc.grace) ∧
    (((laddered 2 10000000).ctx 1).haltTime + ((laddered 2 10000000).ctx 1).desc.kill ≤ 10000000 ∧
      9999999 < ((laddered 2 9999999).ctx 1).haltTime + ((laddered 2 9999999).ctx 1).desc.kill) ∧
    ((leavingAll.ctx 1).pre = 1 ∧ leavingAll.ctxs.has 1 = true ∧ leavingAll.saveReady 1 = true ∧ leavingAll.ctxs.has 2 = false ∧
      State.saveCores 1 (leavingAll.saveSet 1) leavingAll = (none, leavingAll)) ∧
    (∀ d, (saved d).restoreTurn 1 = true) ∧ (∀ d, (saved d).restorable 1 = true) ∧ (∀ d, ((saved d).ctx 1).pre = 3) ∧
    ((saved []).readDesc 256 1 = none) ∧
    (∃ d, (saved (descBytes 0)).readDesc 256 1 = some d ∧ rootsOk d = false) ∧
    (∃ d, (saved (descBytes 1)).readDesc 256 1 = some d ∧ rootsOk d = true) :=
  ⟨by decide +kernel, ⟨rfl, fun k h => by
      have : (port.core k) = Core.reset := by
        show (Tab.get? [(0, _)] k).getD Core.reset = Core.reset
        simp [Tab.get?, Ne.symm h]
      rw [this]; rfl⟩,
   by decide +kernel, by decide +kernel, ⟨by decide +kernel, by decide +kernel, by decide +kernel, by decide +kernel, rfl⟩,
   fun _ => rfl, fun _ => rfl, fun _ => rfl,
   by decide +kernel, that (fun d => rootsOk d = false) (by decide +kernel), that (fun d => rootsOk d = true) (by decide +kernel)⟩

/-- The saved context with an area of core 0 to read, which nothing maps, and its state with the descriptor read again. -/
def savedOn : State := (saved (descBytes 1)).modCtx 1 fun c => { c with
  saved := [{ core := 0, warps := [], admission := 0, watches := [], strata := [], tiles := [], grads := [], hasArray := false, sched := none }] }
def backOn (d : Desc) : State :=
  let placed : State := { savedOn with
    blocks := (savedOn.ctx 1).savedBlocks.foldl (fun t (b : Nat × Block) => t.put b.1 b.2) savedOn.blocks
    groups := (savedOn.ctx 1).savedGroups.foldl (fun t (g : Nat × GroupEntry) => t.put g.1 g.2) savedOn.groups }
  placed.modCtx 1 fun c => { c with desc := d, pre := 0, saved := [], savedBlocks := [], savedGroups := [] }

theorem witness_PreemptionAndSwitch_fails :
    (savedOn.restoreTurn 1 = true ∧ savedOn.restorable 1 = true ∧ (savedOn.ctx 1).pre = 3) ∧
    ∃ d, savedOn.readDesc 256 1 = some d ∧ rootsOk d = true ∧
      (State.restoreCores 1 (savedOn.ctx 1).saved (backOn d)).1.isSome = true ∧
      (State.restoreCores 1 (savedOn.ctx 1).saved (backOn d)).2.launches = savedOn.launches ∧
      (match (State.readParts 1 0 ((backOn d).saveAt 1 0) [(0, 4096)] (backOn d)).1 with
       | .error _ => true
       | .ok _ => false) = true :=
  ⟨by decide +kernel, that (fun (d : Desc) => rootsOk d = true ∧
      (State.restoreCores 1 (savedOn.ctx 1).saved (backOn d)).1.isSome = true ∧
      (State.restoreCores 1 (savedOn.ctx 1).saved (backOn d)).2.launches = savedOn.launches ∧
      (match (State.readParts 1 0 ((backOn d).saveAt 1 0) [(0, 4096)] (backOn d)).1 with
       | .error _ => true
       | .ok _ => false) = true) (by decide +kernel)⟩

/-- A header of a save. -/
def aHeader : Header :=
  { context := 1, core := 0, mask := 1, admission := 7, sstat := 2, formats := List.replicate 8 (1, 0)
    watches := [(3, { addr := 64, len := 8, mask := 5 })], blocks := [(0, 64, 128)] }

theorem witness_PreemptionAndSwitch_header :
    aHeader.context < 2 ^ 16 ∧ aHeader.core < 2 ^ 48 ∧ aHeader.mask < 2 ^ 64 ∧ aHeader.sstat < 2 ^ 32 ∧ aHeader.formats.length = 8 ∧
    (∀ f ∈ aHeader.formats, f.1 < 256 ∧ f.2 < 256) ∧ (∀ w ∈ aHeader.watches, w.2.addr < 2 ^ 64 ∧ w.2.len < 2 ^ 32) ∧
    aHeader.watches = ((List.range 8).filterMap fun i => (aHeader.watches.get? i).map fun w => (i, w)) ∧ aHeader.blocks.length ≤ 64 ∧
    (∀ b ∈ aHeader.blocks, b.1 < 2 ^ 32 ∧ b.2.1 < 2 ^ 32 ∧ b.2.2 < 2 ^ 32) ∧ headerOf aHeader.bytes = aHeader := by decide +kernel

/-! ### Witnesses: the outside -/

/-- The machine with the copy of die 1 behind by 9 ticks, a modified line of host memory in an L2, and a line poisoned. -/
def skewed : State :=
  { port with
    time := 4096, dieDev := [(1, 9)], l2 := [{ host := true, addr := 2, set := 2, dirty := 1, hint := 0 }], poison := [2], dev := [(5, 1)]
    dram := [(5, 1)] }

/-- The machine whose partition has a fabric map at 0x8000 with one entry: context 1, page 0, some permissions. -/
def reached (perms validfrom : Byte) : State :=
  { mapped with
    parts := [(0, { Part.reset 0 1 with peerIndex := some 5, mapBase := 0x8000 })]
    dev := [(0x8000, perms), (0x8006, 1)] ++ if validfrom = 0 then [] else [(0x8008, validfrom)] }

/-- An inbound read of 16 bytes at a window address. -/
def asking (a : Nat) : Packet := { op := .get, addr := a, stamp := 4, len := 16, data := [], srcdev := 0 }

/-- What the map gives for an address, and the context that its entry names. -/
def entryAt (s : State) (a : Nat) : Except (BitVec 8) (Option MapEntry) × Option Nat :=
  match s.mapEntry 0 a with
  | (.ok (some m), s1) => (.ok (some m), (s1.findCtx 0 m.ctx).1)
  | (x, _) => (x, none)

/-- The entry that the map gives, of a context; the code of a map that cannot be read. -/
def entryIs (s : State) (a : Nat) : Option (MapEntry × Nat) :=
  match entryAt s a with
  | (.ok (some m), some x) => some (m, x)
  | _ => none
def entryFails (s : State) (a : Nat) : Option (BitVec 8) :=
  match entryAt s a with
  | (.error c, _) => some c
  | _ => none

/-- Whether an access of a peer at page 0 translates to device memory with no poison. -/
def peerReaches (s : State) (k : AccKind) : Bool :=
  match State.xlatAll (.cp 0) 1 k false false (pagePieces 0 16) s with
  | (.ok ts, s1) => ts.all fun y => y.1.item.kind == .localMem && !s1.badPiece y.1 y.2
  | _ => false

/-- How far apart two copies stand behind a check with given deviations. -/
def apart (dev : List Int) : Nat :=
  let kept := fun (d : Nat) => if 8 < (skewed.dieDev.getD d 0).natAbs then 0 else skewed.dieDev.getD d 0
  let new := fun (d : Nat) => if d < dev.length then dev.getD d 0 else kept d
  (new 0 - new 1).natAbs

theorem witness_OutsideEvents_host :
    ((skewed.checked + 4096 ≤ skewed.time ∧ port.time < port.checked + 4096 ∧ 8 < (skewed.dieDev.getD 1 0).natAbs) ∧
      (∀ x ∈ skewed.dieDev, x.1 < 4) ∧ (skewed.dieDev.map (·.1)).Nodup ∧ apart [3] ≤ 8 ∧ apart [8, -8] = 16) ∧
    (Canonical skewed ∧ skewed.l2Has true 2 = true ∧ skewed.l2Has true 3 = false) ∧
    (skewed.decoder 0 64 = some 0 ∧ skewed.decoder (2 ^ 36) 64 = none) ∧
    ({ skewed with turns := [.hostWrite 256 [1, 2]] } : State).turns = .hostWrite 256 [1, 2] :: [] ∧
    (skewed.sideband = true ∧ ({ skewed with sideband := false } : State).sideband = false) := by decide +kernel

theorem witness_OutsideEvents_packets :
    (State.reset.parts.has 0 = false ∧ (reached 3 0).parts.has 0 = true ∧ (reached 3 0).feature 3 = true ∧
      ((reached 3 0).part 0).mapBase ≠ 0 ∧ ((reached 3 0).part 0).peerIndex ≠ none) ∧
    (State.reset.feature 3 = false) ∧ (2 ^ ((reached 3 0).part 0).mapLog2 ≤ (asking (2 ^ 21)).addr / 2 ^ 21) ∧
    entryFails { reached 3 0 with poison := [256] } 0 = some 0x21 ∧
    (entryIs (reached 1 0) 0 = some ({ validfrom := 0, ctx := 1, va := 0, perms := 1, ok := true }, 1) ∧
      peerAllowed (asking 0).op 1 = false) ∧
    (entryIs (reached 3 9) 0 = some ({ validfrom := 9, ctx := 1, va := 0, perms := 3, ok := true }, 1) ∧
      peerAllowed (asking 0).op 3 = true ∧ (asking 0).stamp < 9) ∧
    (0 ≤ (asking 0).stamp ∧ peerReaches (reached 3 0) .read = true ∧ peerReaches (reached 3 0) .write = true ∧
      (reached 3 0).engineWatches 1 0 16 = []) ∧
    (4000 * 0 ≤ port.time % 64000 ∧ port.time % 64000 < 4000 * 0 + 2000 ∧ ¬(4000 * 1 ≤ port.time % 64000)) := by decide +kernel

/-- The module with an image of 8,192 zero bytes under verification. -/
def imaged : State := { State.reset with boot := { Boot.reset with len := 8192, candidate := some (0, 8192) }, turns := [.verify] }

theorem witness_BootAndIdentity :
    (State.reset.sideband = true ∧ State.reset.boot.state = 0 ∧ ((1 : BitVec 32) = 1) ∧ (0 : BitVec 32) ≠ 1 ∧ port.boot.state = 2) ∧
    (imaged.turns = .verify :: [] ∧ imaged.boot.candidate = some (0, 8192) ∧ imaged.poison = [] ∧ State.reset.boot.candidate = none) ∧
    (fieldAt (List.replicate 8192 0) 0 4 ≠ 0x58424B53 ∧ fieldAt [0x53, 0x4B, 0x42, 0x58, 2] 4 4 ≠ 1) ∧
    (let image : List Byte := [0x53, 0x4B, 0x42, 0x58, 1]
     bootReason image 0 ≠ 1 ∧ fieldAt image 12 4 + 8192 ≠ image.length ∧ 0 ≤ fieldAt image 8 4) ∧
    Canonical port := by decide +kernel

/-- The running module with partition 0 of slices 0 and 1 staged, with an engine and a function. -/
def staged : State :=
  { State.reset with
    boot := { Boot.reset with state := 2 }
    mgmt := { Mgmt.reset with stSlices := [(0, 0), (1, 0)], stEngines := [(0, 0)], stFunctions := [(3, 0)] } }

/-- The same with partition 0 of slice 1 alone. -/
def misplaced : State := { staged with mgmt := { staged.mgmt with stSlices := [(1, 0)] } }

/-- A running module whose band table lies at 0x1000. -/
def banded (m : Memory) : State :=
  { port with dev := m, time := 20000, mgmt := { Mgmt.reset with functions := [(3, 0)], bandBase := 0x1000 } }

theorem witness_PartitionsAndBands :
    (staged.sideband = true ∧ staged.boot.state = 2 ∧ staged.applyReason = 0 ∧ misplaced.applyReason = 1 ∧
      0 ∈ namedParts staged.mgmt.stSlices ∧ 0 ∈ staged.mgmt.affected ∧ 5 ∉ namedParts staged.mgmt.stSlices) ∧
    (let m : Mgmt := { staged.mgmt with slices := [(0, 0), (1, 0)], engines := [(0, 0)], functions := [(3, 0)] }
     0 ∈ namedParts m.stSlices ∧ 0 ∉ m.affected) ∧
    ((banded []).mgmt.bandBase ≠ 0 ∧ (banded []).sideband = true ∧ (banded []).boot.state = 2 ∧
      (banded []).time / 10000 < 3 ∧ (banded []).mgmt.bandAt.getD 0 0 < (banded []).time / 10000) ∧
    (Band.default.floor ≤ Band.default.ceiling) ∧
    (([(3, 7)] : List (Nat × Nat)).map (·.1)).Nodup ∧ ([(3, 7)].map fun (d : Nat × Nat) => min d.2 (0 * 100 / 256)).sum ≤ 100 := by
  decide +kernel

/-- The smallest tables: every word zero passes, and a floor above its ceiling fails. -/
theorem witness_PartitionsAndBands_tables :
    Mgmt.reset.bandFails [] 3 0 = false ∧ Mgmt.reset.bandFails (List.replicate 96 0 ++ [5]) 3 0 = true := by decide +kernel

/-- A saved context of partition 0, of a virtual function. -/
def savedVf (fn : Nat) : Ctx := { Ctx.none 1 with fn := fn, pre := 3 }

/-- The staged machine with that context, with a launch of it, and with partition 0 changed as a whole. -/
def keeping (fn : Nat) : State :=
  { staged with
    mgmt := { staged.mgmt with slices := [(0, 0)] }
    ctxs := [(1, savedVf fn)], launches := [(0, { Launch.none with ctx := 1, state := 2 })] }

theorem witness_PartitionsAndBands_kept :
    ((keeping 3).applyReason = 0 ∧ 0 ∈ (keeping 3).mgmt.affected ∧ ((keeping 3).ctxs.map (·.1)).Nodup ∧
      (keeping 3).keptIn (savedVf 3) = some 0 ∧ (keeping 3).keptIn (savedVf 4) = none) ∧
    (keeping 4).applyReason = 0 := by decide +kernel

theorem witness_FleetEvents :
    (∃ q, ({ port with time := 100000, parts := [(0, { Part.reset 0 1 with telemetry := 64 })] } : State).parts.get? 0 = some q ∧
      q.telemetry ≠ 0 ∧ q.snapshot < 1 ∧ q.telemetry.toNat + 24832 ≤ 2 ^ 40) ∧
    (∃ q, port.parts.get? 0 = some q ∧ q.telemetry = 0) ∧
    (port.sideband = true ∧ port.boot.state = 2 ∧ port.dev.wf = true ∧ port.time / 1000000 ≤ port.mgmt.powerAt ∧
      ({ port with time := 1000000 } : State).mgmt.powerAt < 1000000 / 1000000) ∧
    (∃ d, port.ctxs.get? 1 = some d ∧ d.pre ≠ 4) ∧
    (port.mgmt.rasBase = 0 ∧
      (let m : Mgmt := { Mgmt.reset with rasBase := 64, rasLog2 := 6 }
       m.rasBase ≠ 0 ∧ 6 ≤ m.rasLog2 ∧ m.rasLog2 ≤ 16 ∧ (m.rasTail - m.rasUsed).toNat < 2 ^ m.rasLog2)) ∧
    (let s : State := { port with boot := { port.boot with version := 2 } }
     s.sideband = true ∧ s.boot.state = 2 ∧ s.minVersion < (1 : BitVec 32).toNat ∧ (1 : BitVec 32).toNat ≤ s.boot.version ∧
       s.boot.version < (3 : BitVec 32).toNat) :=
  ⟨that (fun (q : Part) => q.telemetry ≠ 0 ∧ q.snapshot < 1 ∧ q.telemetry.toNat + 24832 ≤ 2 ^ 40) (by decide +kernel),
   that (fun (q : Part) => q.telemetry = 0) (by decide +kernel), by decide +kernel,
   that (fun (d : Ctx) => d.pre ≠ 4) (by decide +kernel), by decide +kernel, by decide +kernel⟩

/-- The machine with a line of the L2 of address 0, modified or not. -/
def l2At0 (dirty : BitVec 128) : State :=
  { port with engs := [], l2 := [{ host := false, addr := 0, set := 0, dirty := dirty, hint := 0 }] }

theorem witness_FleetEvents_ras :
    port.mgmt.rasBase = 0 ∧ port.engs = [] ∧ (∀ k ∈ port.cores, k.2.xq = [] ∧ ∀ w ∈ k.2.warps, w.2.accs = []) ∧
    (∃ l ∈ (l2At0 1).l2, l.is (physOf 5).host (physOf 5).line = true ∧ l.dirty ≠ 0) ∧
    ∀ l ∈ (l2At0 0).l2, l.is (physOf 5).host (physOf 5).line = true → l.dirty = 0 := by decide +kernel

theorem witness_RegisterWrites :
    port.sideband = true ∧ port.fns.has (256 + 0) = true ∧ port.fns.has (256 + 1) = false ∧ port.fns.has 0 = false ∧
    port.parts.has 0 = true ∧ (port.part 0).size ≤ 32 ∧ port.parts.has 1 = false ∧ 0x1000 < 0xFFC + 8 ∧
    (∀ op : Nat, op < 16 → ((BitVec.ofNat 64 (op * 2 ^ 60)).extractLsb' 60 4).toNat = op) ∧
    ({ port with turns := [.bar none 0x10180 8 none, .bar (some 3) 0 4 (some 7)] } : State).turns =
      .bar none 0x10180 8 none :: [.bar (some 3) 0 4 (some 7)] ∧
    (port.boot.state < 16 ∧ port.boot.reason < 256 ∧ port.mgmt.applyState < 16 ∧ port.mgmt.applyReason < 256 ∧ skewed.time < 2 ^ 64 ∧
      0 < skewed.time ∧ (port.ctx (ctxKey 0 (port.fn 256).lastCtx)).pre < 16) := by decide +kernel

/-- Whether the fetch of the turn's warp stops without a word. -/
def fetchStops (s : State) : Bool :=
  match s.issuer 0 0 with
  | some (w, pc, frag) => match s.fetch 0 0 w pc frag with
    | .error _ => true
    | .ok _ => false
  | none => false

theorem witness_NextPc :
    (∃ e, Ready port (.nop (hd 511 0) cf) e ∧ e.act ≠ 0) ∧ (∃ e, Ready port (.call (hd 30 1) cf) e ∧ e.act ≠ 0) ∧
    (∃ e, Ready port (.calli (hd 30 1) (cf 392)) e ∧ e.act ≠ 0) ∧ (port.core 0).active = [] ++ 0 :: [] ∧
    fetchStops (turned { port with turns := [.issue 0 0] }) = true :=
  ⟨ready_that (fun (e : Env) => e.act ≠ 0) (by decide +kernel), ready_that (fun e => e.act ≠ 0) (by decide +kernel),
   ready_that (fun e => e.act ≠ 0) (by decide +kernel), by decide +kernel, by decide +kernel⟩

theorem witness_MemoryStaysCanonical :
    Canonical State.reset ∧ ∃ t, step { State.reset with turns := [.pass 3 5] } = .next t ∧ t.time = 3 :=
  ⟨by decide +kernel, _, rfl, rfl⟩

/-! ### Witnesses of single clauses -/

/-- A `placed` machine with a second warp like the first, whose turn comes; warp 0 stands before it in the rotation. -/
def placedTwo (w0 : Warp) : State :=
  { placed with
    turns := [.issue 0 1]
    cores := [(0, { placed.core 0 with warps := [(0, w0), (1, placedWarp)], active := [0, 1] })] }

/-- How warp 0 leaves its try for the port: whether it has issued, and whether it stands stalled. -/
def triedFirst (s : State) : Option (Bool × Bool) :=
  match tryIssue s 0 0 with
  | .next t => some (decide ((t.core 0).issued ≠ (s.core 0).issued), (t.warp? 0 0).any fun w => w.stall.isSome)
  | _ => none

/-- The placed warp with both sources bound and held, and with its first source still owed. -/
def fed (owed : Bool) : Warp :=
  { placedWarp with names := [(1, { cellOf (fun _ => 0) with pending := owed }), (2, cellOf fun _ => 0)] }

theorem witness_StepRunsWhatComesNext_rotation :
    ((placedTwo { placedWarp with halted := true }).core 0).active = [0] ++ 1 :: [] ∧
    ((turned (placedTwo { placedWarp with halted := true })).issuer 0 0).isNone = true ∧
    ((turned (placedTwo { placedWarp with halted := true })).issuer 0 1).isSome = true ∧
    triedFirst (turned (placedTwo (fed false))) = some (true, false) ∧
    triedFirst (turned (placedTwo (fed true))) = some (false, true) := by decide +kernel

/-- FADD v46:1, v0, v2, over a name that lanes still read, and FADD v60:1, v0, v2 where H is 47. -/
def overLive : Instr := .fadd (hd 46 1) (v3 0 2 511 8)
def overBound : Instr := .fadd (hd 60 1) (v3 0 2 511 8)
def bounded : State := { port with launches := port.launches.map fun x => (x.1, { x.2 with record := (placedRecord.set 24 47).set 25 0 }) }

theorem witness_ChecksAndPreciseFaults_live :
    ∃ e, env? port (hd 46 1) ((encode overLive).getD 0) = some e ∧ uptoEntry overLive port e = true ∧
      (needs overLive port).entry e = none ∧ (∀ d ∈ (needs overLive port).reads, e.w.count d 5 = 7) ∧
      (needs overLive port).dests = [] ++ 46 :: [] ∧ isV 46 = true ∧ e.w.count 46 5 = 3 ∧ readsOf (needs overLive port).reads 46 < 3 ∧
      port.hold (hd 46 1) (needs overLive port) e = some (.raise { code := 0x02, lanes := fullMask, addr := 0, info := 46 + 1024 }) :=
  that (fun (e : Env) => uptoEntry overLive port e = true ∧ (needs overLive port).entry e = none ∧
      (∀ d ∈ (needs overLive port).reads, e.w.count d 5 = 7) ∧ (needs overLive port).dests = [] ++ 46 :: [] ∧ isV 46 = true ∧
      e.w.count 46 5 = 3 ∧ readsOf (needs overLive port).reads 46 < 3 ∧
      port.hold (hd 46 1) (needs overLive port) e = some (.raise { code := 0x02, lanes := fullMask, addr := 0, info := 46 + 1024 }))
    (by decide +kernel)

theorem witness_ChecksAndPreciseFaults_bound :
    ∃ e, env? bounded (hd 60 1) ((encode overBound).getD 0) = some e ∧ uptoEntry overBound bounded e = true ∧
      (needs overBound bounded).entry e = none ∧ e.w.newNames [60] 1 e.act = 60 :: [] ∧ bounded.hwm e.w < e.w.names.length + 1 ∧
      bounded.hold (hd 60 1) (needs overBound bounded) e =
        some (.raise { code := 0x04, lanes := fullMask, addr := 0, info := 60 + 1536 }) :=
  that (fun (e : Env) => uptoEntry overBound bounded e = true ∧ (needs overBound bounded).entry e = none ∧
      e.w.newNames [60] 1 e.act = 60 :: [] ∧ bounded.hwm e.w < e.w.names.length + 1 ∧
      bounded.hold (hd 60 1) (needs overBound bounded) e =
        some (.raise { code := 0x04, lanes := fullMask, addr := 0, info := 60 + 1536 })) (by decide +kernel)

/-- Operands of the clauses of the functions: a NaN, a negative number, 2^-129, 2 and 2^-148, 3, −150, 128, and 2.5, 11, 2^-13,
19 and −105. -/
theorem witness_FunctionResults :
    (f32 0x7FC00001).isNan = true ∧ ((0xC0000000 : Word).getLsbD 31 = true ∧ (f32 0xC0000000).isNan = false) ∧
    (0x00100000 : Word).toNat ≤ 2 ^ 21 ∧ BitVec.ofNat 32 (128 * 2 ^ 23) = (0x40000000 : Word) ∧ BitVec.ofNat 32 (2 ^ 1) = (2 : Word) ∧
    toF32 0 false 0 (numOfInt 3) = 0x40400000 ∧ toF32 0 false 0 (.fin false 1 3) = 0x41000000 ∧
    toF32 0 false 0 (numOfInt 128) = 0x43000000 ∧ (f32 0xC3200000).lt (.fin true 150 0) = true ∧
    f32 0x40200000 = .fin false 10485760 (-22) ∧ ¬((2 ^ 22 : Int) ∣ 10485760) ∧ (2 ^ 22 : Int) ∣ 2 * 10485760 ∧
    (f32 0x41300000).lt (.fin false 10 0) = false ∧ (f32 0x39000000).lt (.fin false 1 (-12)) = true ∧
    (f32 0x41980000).lt (.fin false 18 0) = false ∧ (f32 0x42D20000).lt (.fin false 104 0) = false := by decide +kernel

theorem witness_FunctionBounds :
    f32 0x40000000 = .fin false 8388608 (-22) ∧ (8388608 : Nat) ≠ 0 ∧
    (∀ x : ℝ, x = 1 * ((8388608 : Nat) : ℝ) * (2 : ℝ) ^ (-22 : ℤ) → -150 < x ∧ x < 128 ∧ 2 ≤ x ∧
      (2 : ℝ) ^ (-126 : ℤ) ≤ 1 / (1 + Real.exp (-x))) ∧
    f32 0xC2C80000 = .fin true 13107200 (-17) ∧
    (∀ x : ℝ, x = (-1) * ((13107200 : Nat) : ℝ) * (2 : ℝ) ^ (-17 : ℤ) → 1 / (1 + Real.exp (-x)) < (2 : ℝ) ^ (-126 : ℤ)) ∧
    f32 0x3F800000 = .fin false 8388608 (-23) := by
  refine ⟨by decide +kernel, by decide, ?_, by decide +kernel, ?_, by decide +kernel⟩
  · intro x hx
    have h2 : x = 2 := by rw [hx]; norm_num
    subst h2
    refine ⟨by norm_num, by norm_num, le_refl _, ?_⟩
    have h1 : Real.exp (-2) ≤ 1 := Real.exp_le_one_iff.2 (by norm_num)
    have h0 := Real.exp_pos (-2)
    rw [le_div_iff₀ (by linarith)]
    calc (2 : ℝ) ^ (-126 : ℤ) * (1 + Real.exp (-2)) ≤ (2 : ℝ) ^ (-126 : ℤ) * 2 := by gcongr; linarith
      _ ≤ 1 := by norm_num
  · intro x hx
    have h2 : x = -100 := by rw [hx]; norm_num
    subst h2
    have h1 : (2 : ℝ) ^ (126 : ℕ) < Real.exp 100 := by
      have h : Real.exp 100 = Real.exp 1 ^ (100 : ℕ) := by rw [← Real.exp_nat_mul]; norm_num
      rw [h]
      calc (2 : ℝ) ^ (126 : ℕ) < 2.7 ^ (100 : ℕ) := by norm_num
        _ ≤ Real.exp 1 ^ (100 : ℕ) := by gcongr; exact (lt_trans (by norm_num) Real.exp_one_gt_d9).le
    rw [neg_neg, div_lt_iff₀ (by positivity)]
    have h3 : (2 : ℝ) ^ (-126 : ℤ) * 2 ^ (126 : ℕ) = 1 := by norm_num
    have h4 : (0 : ℝ) < (2 : ℝ) ^ (-126 : ℤ) := by positivity
    nlinarith [mul_lt_mul_of_pos_left h1 h4]

/-- 3 × 2^-1 rounds to E2M1 within its range and 7 lies beyond it; an integer target with a tie. -/
theorem witness_RoundingRules :
    (let q := max ((Nat.log2 3 : Int) + -1) (1 - 1) - 1
     ¬3 * 2 ^ ((1 : Int) - min (-1) (min q 1)).toNat < 3 * 2 ^ (q - min (-1) (min q 1)).toNat) ∧
    (let q := max ((Nat.log2 7 : Int) + 0) (1 - 1) - 1
     (3 : Nat) * 2 ^ ((1 : Int) - min 0 (min q 1)).toNat < (7 * 2 ^ ((0 : Int) - min 0 (min q 1)).toNat / 2 ^ (q - min 0 (min q 1)).toNat + 1) *
       2 ^ (q - min 0 (min q 1)).toNat) ∧
    (typeMin 2 ≤ typeMax 2 ∧ 5 * 2 ^ (0 : Nat) % 2 ^ (1 : Nat) ≠ 0) := by decide +kernel

/-- The machine whose warp exits whole, and the one that has a load and a store outstanding. -/
def lastOut : Instr := .exit (hd 511 0) cf
def outstandingHalf : State := storedFar.modWarp 0 0 fun w => { w with preds := 0xFFFF :: List.replicate 6 0 }

theorem witness_ExitEffect_last :
    (∃ e, Ready port lastOut e ∧ e.w.live &&& ~~~e.act = 0 ∧ e.w.log = [] ∧ e.w.accs = [] ∧ port.owesAccess e.core e.w = false ∧
      port.group? e.w 0 = some (0, team) ∧ team.members.getLsbD e.w.number = true ∧ team.dropped.getLsbD e.w.number = false ∧
      port.groupKey? e.w 1 = none) ∧
    (∃ e, Ready outstandingHalf (.exit { hd 511 0 with guard := 0 } cf) e ∧ e.w.live &&& ~~~e.act ≠ 0 ∧ e.w.accs ≠ []) ∧
    (∃ e, Ready storedFar lastOut e ∧ e.w.live &&& ~~~e.act = 0 ∧ (∀ x ∈ e.w.log, x.2.fmask = 0) ∧
      ∃ a, e.w.accs.get? 0 = some a ∧ a.op = .st ∧ ∃ l ∈ a.lanes, l.stage = .todo) :=
  ⟨ready_that (fun (e : Env) => e.w.live &&& ~~~e.act = 0 ∧ e.w.log = [] ∧ e.w.accs = [] ∧ port.owesAccess e.core e.w = false ∧
      port.group? e.w 0 = some (0, team) ∧ team.members.getLsbD e.w.number = true ∧ team.dropped.getLsbD e.w.number = false ∧
      port.groupKey? e.w 1 = none) (by decide +kernel),
   ready_that (fun (e : Env) => e.w.live &&& ~~~e.act ≠ 0 ∧ e.w.accs ≠ []) (by decide +kernel),
   (ready_that (fun (e : Env) => (e.w.live &&& ~~~e.act = 0 ∧ ∀ x ∈ e.w.log, x.2.fmask = 0) ∧
      (e.w.accs.get? 0).any (fun a => a.op == .st && a.lanes.any fun l => l.stage == .todo) = true) (by decide +kernel)).imp
      fun e h => ⟨h.1, h.2.1.1, h.2.1.2, by
        have := h.2.2
        cases ha : e.w.accs.get? 0 with
        | none => simp [ha] at this
        | some a => simp only [ha, Option.any_some, Bool.and_eq_true, beq_iff_eq, List.any_eq_true] at this; exact ⟨a, rfl, this.1, this.2⟩⟩⟩

theorem witness_BarrierWaits_faults :
    (∃ e, issueOf (.barwait (hd 3 1) (sf 511 511 0 1)) port = some e ∧ port.group? e.w 1 = none) ∧
    (∃ e, issueOf (.barwait (hd 3 1) (sf 511 511)) dropped = some e ∧ e.act ≠ 0 ∧
      dropped.group? e.w 0 = some (0, { team with dropped := 1 })) ∧
    (∃ e, issueOf (.barwait (hd 3 1) (sf 511 511)) (portOf { worker with lastphase := [] }) = some e ∧ e.act ≠ 0 ∧
      (portOf { worker with lastphase := [] }).group? e.w 0 = some (0, team) ∧ e.w.lastphase.get? 0 = none) ∧
    (∃ e, issueOf (.barsync (hd 3 1) (sf 511 511)) (grouped { team with arrivedmask := 1 }) = some e ∧ e.act ≠ 0 ∧
      (grouped { team with arrivedmask := 1 }).group? e.w 0 = some (0, { team with arrivedmask := 1 })) :=
  ⟨that (fun (e : Env) => port.group? e.w 1 = none) (by decide +kernel),
   that (fun (e : Env) => e.act ≠ 0 ∧ dropped.group? e.w 0 = some (0, { team with dropped := 1 })) (by decide +kernel),
   that (fun (e : Env) => e.act ≠ 0 ∧ (portOf { worker with lastphase := [] }).group? e.w 0 = some (0, team) ∧
      e.w.lastphase.get? 0 = none) (by decide +kernel),
   that (fun (e : Env) => e.act ≠ 0 ∧
      (grouped { team with arrivedmask := 1 }).group? e.w 0 = some (0, { team with arrivedmask := 1 })) (by decide +kernel)⟩

/-- The machine whose event buffer is full. -/
def full : State := { port with evHeld := List.replicate 64 (heldFor 256 4) }

theorem witness_PrivilegedInstructions_edges :
    (∃ e, Ready full (.wrsrEvent (hd 511 0) (sf 400 511 3)) e ∧ e.act ≠ 0 ∧
      64 ≤ (full.evHeld.filter fun x => decide (4 ≤ x.record.kind.toNat)).length) ∧
    (∃ e, Ready port (.wrsrQuota (hd 511 0) (sf 398 511 2)) e ∧ e.act ≠ 0 ∧ (port.core e.core).contexts.contains
      (ctxKey (port.partOfCore e.core) ((e.w.val 398 0).extractLsb' 20 12).toNat) = false) ∧
    ((port.core 0).warps.filter fun p => p.2.ctx == 1).length ≤ 64 :=
  ⟨ready_that (fun (e : Env) => e.act ≠ 0 ∧ 64 ≤ (full.evHeld.filter fun x => decide (4 ≤ x.record.kind.toNat)).length)
     (by decide +kernel),
   ready_that (fun (e : Env) => e.act ≠ 0 ∧ (port.core e.core).contexts.contains
      (ctxKey (port.partOfCore e.core) ((e.w.val 398 0).extractLsb' 20 12).toNat) = false) (by decide +kernel), by decide +kernel⟩

/-- A translated byte of an uncached page, and a RED of a deterministic launch. -/
def uncachedHome : Xlated := { home with item := { home.item with kind := .uncached } }
def buffering : State :=
  { mapped with launches := [(0, { Launch.none with ctx := 1, fn := 256, state := 2, record := (placedRecord.set 23 1).set 177 1 })] }
def reducing : Acc := { accWith .red 2 with f := mf 392 6 0 2 2 (atomic := 7) }

theorem witness_LaneEffects_more :
    uncachedHome.item.kind = .uncached ∧
    ((accWith .atom 1).f.scope.toNat ≤ 1 ∧ (accWith .atom 1).op ≠ .red ∧ home.item.kind = .localMem ∧
      ((lineIn.l1Find 0 1 home.phys).isSome = true)) ∧
    (mapped.buffers (accWith .atom 2) = false ∧ Canonical mapped ∧ mapped.physNat home.phys 4 ≠ 5 ∧
      mapped.physNat home.phys 4 = natOfWords [0]) ∧
    (buffering.buffers reducing = true ∧ (match buffering.bufferRecord (.core 0) 0 (reducing.redRecord (scored 0)) with
      | .ok _ => true
      | .error _ => false) = true) ∧
    ({ mapped with l2 := [{ host := false, addr := 1, set := 1, dirty := 1, hint := 0 }] } : State).l2Has home.phys.host home.phys.line = true := by
  decide +kernel

/-- A stratum of another format, an SLOAD that is still to change stratum 3 before the operation, and an MMTG of 32 rows. -/
def otherFormat : State :=
  { mapped with cores := [(0, { mapped.core 0 with
    owner := some 1, strata := [(3, { loaded .resident with bfmt := 2 })], xq := [(0, xop (.mmt (hd 3 1) mmt3))], xseq := 9 })] }
def loadedBefore : State := arrayed .loading [(0, { xop (.sload (hd 3 1) (xf 392 511 511 2 0 3 0 0)) with units := 1 }),
  (1, xop (.mmt (hd 3 1) mmt3))]
def mmtg32 : XF := xf 392 511 511 2 0 0 32 24
def updating : State := arrayed .empty [(0, { xop (.mmtg (hd 511 0) mmtg32) with dest := { name := 511, count := 0, lanes := 1 } })]

theorem witness_MatrixAndStrataEvents_stops :
    opOf otherFormat (fun o w => let k := otherFormat.core 0
      k.xq == [(0, o)] && k.owner == some w.ctx && !o.nonres.contains 3 && (k.stratum 3).state != .empty && !k.changing 0 3 &&
      (k.stratum 3).bfmt != slotB o.fmt && otherFormat.tagOf 0 o mmt3 0 == some 11) = true ∧
    ((loadedBefore.core 0).xq.get? 1).any (fun o => loadedBefore.tagOf 0 o mmt3 0 == some 11 && !o.nonres.contains 3 &&
      (loadedBefore.core 0).changing 1 3) = true ∧
    opOf (arrayed .empty [(0, xop (.mmt (hd 3 1) mmt3))]) (fun o w =>
      (arrayed .empty [(0, o)]).tagOf 0 o mmt3 0 == some 11 && ((arrayed .empty [(0, o)]).core 0).owner == some w.ctx) = true ∧
    opOf updating (fun o _ => decide (o.units < mmtg32.rows.toNat) &&
      (match (State.gradReads 0 0 o mmtg32 ((List.range (min (o.units + 32) mmtg32.rows.toNat - o.units)).map fun i => o.units + i)
          updating).1 with
        | .ok _ => true
        | .error _ => false)) = true := by decide +kernel

theorem witness_MatrixAndStrataEvents_unit :
    opOf (arrayed .loading [(0, xop (.sload (hd 3 1) (xf 392 511 511 2 0 3 0 0)))]) (fun o w =>
      let s := arrayed .loading [(0, o)]
      (s.core 0).owner == some w.ctx && o.got == [] && (match State.xlatAll (.array 0) 1 .read true false
          [((o.base.extractLsb' 0 48).toNat + unitOffset (slotB o.fmt) 0, 256)] s with
        | (.ok ts, s1) => !(s1.mergePieces (.array 0 0) 1 [] ts).1
        | (.error _, _) => false)) = true := by decide +kernel

theorem witness_AcczResult_owner : ∀ y, (zeroing.core 0).owner = some y → ∃ q ∈ (zeroing.core 0).warps, q.2.ctx = y := by
  intro y h
  obtain rfl : 1 = y := Option.some.inj h
  exact ⟨(0, worker), List.mem_cons_self, rfl⟩

/-- A copy that a VCANCEL finds within a unit, one to a peer, and an operation of another warp. -/
theorem witness_EngineInstructions_within :
    ((working { copying with moved := 4 }).engs.get? 0 = some { copying with moved := 4 } ∧
      ({ copying with moved := 4 } : EngOp).kind ≠ .red ∧ ({ copying with moved := 4 } : EngOp).moved ≠ 0) ∧
    ((working { copying with stage := .sent 0 }).engs.get? 0 = some { copying with stage := .sent 0 }) ∧
    ((working { copying with slot := 1 }).engs.get? 0).any (fun o => o.slot != 0) = true ∧
    ((working { copying with stage := .sent 0, cancelled := true }).engs.get? 0).any (fun o => o.cancelled) = true := by
  decide +kernel

/-! ### Witnesses of the clauses on transfers and ends -/

/-- Performing the turn of lane 0 of access 0 ends the access, whose lanes are its last open ones. -/
def finishes (s : State) : Bool :=
  accIs s fun w a => turnReady s w a 0 && !w.evicted && w.live != 0 && !uni a.dest.name &&
    a.lanes.all (fun l => decide (l.lane < 32)) && decide ((a.lanes.map fun (l : AccLane) => l.lane).Nodup) &&
    (!a.isLoad || (s.toMerge 0 0 0 w.ctx a (a.turnOf 0)).isNone) &&
    match State.performLanes 0 w.ctx a false (a.turnOf 0) s with
    | some (ls, _) => (a.lanes.map fun l => (ls.find? fun m => m.lane == l.lane).getD l).all fun l => l.stage == .done
    | none => false

/-- The machine whose guard p0 holds in lane 0 alone. -/
def oneLane : State := mapped.modWarp 0 0 fun w => { w with preds := 1 :: List.replicate 6 0 }
def by0 (dest : BitVec 9) (count : BitVec 3) : Hdr := { hd dest count with guard := 0 }

theorem witness_ScratchpadAccesses_ends :
    finishes (behind (.ld (by0 3 1) (mf 392 511 0 2 0)) oneLane) = true ∧
    finishes (behind (.atom (by0 3 1) (mf 392 6 0 2 2)) oneLane) = true ∧
    finishes (behind (.cas (by0 3 1) (mf 392 6 0 2 2 (pdst := 2))) oneLane) = true ∧
    finishes (behind (.amaxp (by0 30 1) (mf 4 6 1 3 1 (atomic := 2) (pdst := 3))) oneLane) = true ∧
    finishes (behind (.st (by0 511 0) (mf 392 6 0 2 0)) oneLane) = true ∧ finishes storedFar = false := by decide +kernel

theorem witness_PrivilegedInstructions_quota :
    ((port.core 0).warps.map (·.1)).Nodup ∧ port.begunLanes (fun _ y _ => y == 1) = [] ∧ mayLeave 1 worker ∧
    port.withinQuota 0 1 := by unfold mayLeave State.withinQuota; decide +kernel

/-- SHFL of v46, which each lane's own read allows, where lane 4 holds no value of it. -/
def fetching : State := portOf { worker with
  names := worker.names.put 46 { cellOf (fun _ => 0) with counts := (List.replicate 32 3).set 4 0 } }

/-- The checks that stand before SHFL's counts let it pass, and the lane that a lane fetches from has no count. -/
theorem witness_MoveResults_fetch :
    ∃ e, issueOf (.shfl (hd 3 1) (vi 46 511 6 3 1)) fetching = some e ∧ e.w.held = false ∧ e.w.busyPred 7 = false ∧
      (needs (.shfl (hd 3 1) (vi 46 511 6 3 1)) fetching).fields = true ∧ e.zero = 0 ∧
      fetching.busyOf e (needs (.shfl (hd 3 1) (vi 46 511 6 3 1)) fetching) = none ∧ laneOn e.act 5 = true ∧ e.w.count 46 4 = 0 ∧
      46 ∈ rd 46 1 ∧ (needs (.shfl (hd 3 1) (vi 46 511 6 3 1)) fetching).reads = [] ++ 46 :: [] :=
  that (fun (e : Env) => e.w.held = false ∧ e.w.busyPred 7 = false ∧
      (needs (.shfl (hd 3 1) (vi 46 511 6 3 1)) fetching).fields = true ∧ e.zero = 0 ∧
      fetching.busyOf e (needs (.shfl (hd 3 1) (vi 46 511 6 3 1)) fetching) = none ∧ laneOn e.act 5 = true ∧ e.w.count 46 4 = 0 ∧
      46 ∈ rd 46 1 ∧ (needs (.shfl (hd 3 1) (vi 46 511 6 3 1)) fetching).reads = [] ++ 46 :: []) (by decide +kernel)

/-- The pages of a store of a unit translate for the array. -/
def stores (s : State) (va n : Nat) : Bool :=
  match State.xlatAll (.array 0) 1 .write false false (pagePieces va n) s with
  | (.ok ts, _) => ts.length == 1
  | (.error _, _) => false

theorem witness_MatrixAndStrataEvents_stores :
    opOf (arrayed .resident [(0, { xop (.sstore (hd 3 1) (xf 392 511 511 0 0 3 0 0)) with copy := some (loaded .resident) })]) (fun o _ =>
      o.copy == some (loaded .resident) && decide (o.units < imageUnits 1 0) &&
      stores (arrayed .resident [(0, o)]) (32768 + unitOffset 1 0) 256) = true ∧
    opOf (arrayed .resident [(0, xop (.gstore (hd 3 1) (xf 392 511 511 0 0 0 0 0)))]) (fun o _ =>
      decide (o.units < 128) && stores (arrayed .resident [(0, o)]) 32768 256) = true ∧
    opOf (arrayed .resident [(0, xop (.accst (hd 3 1) (xf 392 511 511 4 2 0 64 16)))]) (fun o _ =>
      decide (o.units < 64) && stores (arrayed .resident [(0, o)]) 32768 128 && stores (arrayed .resident [(0, o)]) 32768 256) = true ∧
    opOf (arrayed .resident [(0, xop (.accld (hd 3 1) (xf 392 511 511 4 2 0 64 16)))]) (fun o _ =>
      sources (arrayed .resident [(0, o)]) o (8 * fmtWidth (slotA o.fmt))) = true ∧
    ((zeroing.core 0).owner = none → (zeroing.core 0).arrayLeft = false) := by decide +kernel

/-- A side of an operation is read, and the bytes of a unit translate for a store of its engine. -/
def sideGives (s : State) (o : EngOp) (space va n : Nat) : Bool :=
  match (s.sideRead 0 o space va n false).1 with
  | .ok bs => bs.length == n
  | _ => false
def lands (s : State) (va n : Nat) : Bool :=
  match State.xlatAll (.engine 0) 1 .write false false (pagePieces va n) s with
  | (.ok _, _) => (s.engineWatches 1 va n).isEmpty
  | (.error _, _) => false

/-- Moves from and to global memory, of one row of 16 bytes by the index at scratchpad 0, and from the lode store. -/
def moving (kind : EngKind) (dspace sspace : Nat) : EngOp := { copying with kind := kind, dspace := dspace, sspace := sspace, rowsz := 1 }

theorem witness_EngineEvents_moves :
    (let o := moving .copy 0 1
     sideGives (working o) o 1 40960 256 && lands (working o) 32768 256 && o.selfOverlap == false && !(working o).engLodeBusy o) = true ∧
    (let o := moving .copy 1 0
     sideGives (working o) o 0 40960 256 && ((working o).sideScratch o 1 32768 256).isSome) = true ∧
    (let o := moving .copy 1 4
     sideGives (working { o with src := 0 }) o 4 0 256) = true ∧
    (let o := moving .gather 1 0
     o.units < o.total ∧ markedTarget o.core o.index = some (0, 0) ∧ sideGives (working o) o 0 40960 16 = true ∧
       ((working o).sideScratch o 1 32768 16).isSome = true ∧ (working o).engLodeBusy o = false) ∧
    (let o := moving .scatter 0 1
     sideGives (working o) o 1 40960 16 && lands (working o) 32768 16) = true := by decide +kernel

/-- The machine whose pages of engine 0 are a peer's, under a fabric map at 0x8000, and one whose unit meets them. -/
def peered (o : EngOp) : State :=
  { engined with
    engs := [(0, o)]
    tlb := [{ pageFor (.engine 0) 1 .peer with size := 2 ^ 20 }, { pageFor (.cp 0) 1 with size := 2 ^ 20 }]
    parts := [(0, { Part.reset 0 1 with peerIndex := some 5, mapBase := 0x80000 })]
    dev := [(0x80000, 15), (0x80006, 1)] }

/-- The access of a unit meets a peer page, which `q` answers inside the module; and what that answer is. -/
def leavesTo (o : EngOp) (op : PeerOp) (k : AccKind) (va : Nat) (q : Option Nat) : Bool :=
  match State.xlatAll (.engine 0) 1 k true false (pagePieces va 256) (peered o) with
  | (.ok [(x, 256)], s2) => x.item.kind == .peer && (peered o).loopback (x.item.peerhi ++ o.peer) == q &&
    match q with
    | none => true
    | some p => match (s2.peerAccess p { op := op, addr := x.phys.addr, stamp := 0, len := 256, data := List.replicate 256 1, srcdev := 5 }
        o.watched).1 with
      | .ok _ => true
      | _ => false
  | _ => false

/-- A transfer to or from a peer of an index. -/
def toPeer (kind : EngKind) (peer : BitVec 8) : EngOp := { copying with kind := kind, dspace := 0, amod := 1, peer := peer }
def fromPeer (peer : BitVec 8) : EngOp := { copying with kind := .get, sspace := 0, peer := peer }

theorem witness_EngineEvents_peers :
    (∀ q ∈ [none, some 0], (leavesTo (toPeer .put (if q = none then 6 else 5)) .put .write 32768 q = true ∧
      leavesTo (fromPeer (if q = none then 6 else 5)) .get .read 40960 q = true) ∧
      leavesTo (toPeer .red (if q = none then 6 else 5)) (.reduce 1) .rmw 32768 q = true) ∧
    sideGives (peered (toPeer .put 6)) (toPeer .put 6) 1 40960 256 = true ∧
    engOf (working { toPeer .put 6 with stage := .sent 0 }) = some { toPeer .put 6 with stage := .sent 0 } ∧
    (32768 + 256 * 0) % 4096 + 256 ≤ 4096 ∧ (working copying).unitTime (.engine 0) < 0 + 1000000 := by decide +kernel

/-- A reduction of one word at home, and in deterministic mode. -/
def combining : EngOp := { copying with kind := .red, dspace := 0, amod := 1, len := 4 }
def recording : State := { working combining with launches := buffering.launches }

theorem witness_EngineEvents_reduce :
    (match State.xlatAll (.engine 0) 1 .rmw true false (pagePieces 32768 4) (working combining) with
      | (.ok [(x, 4)], s2) => x.item.kind == .localMem && !s2.badPiece x 4 && !(working combining).engBuffered combining &&
        ((working combining).engineWatches 1 32768 4).isEmpty && sideGives (working combining) combining 1 40960 4
      | _ => false) = true ∧
    recording.engBuffered combining = true ∧
    (match State.bufferFrom 0 combining [0] 0 { recording with engs := [(0, { combining with buffer := some [0, 0, 0, 0] })] } with
      | (none, _) => true
      | _ => false) = true := by decide +kernel

/-- A sort of two pairs that is still to be read, and one whose pairs stand in order. -/
def sorting (buffer : Option (List Byte)) : EngOp := { copying with kind := .sort, len := 2, buffer := buffer }

theorem witness_EngineEvents_sort :
    (∀ b ∈ [none, some (List.replicate 16 (1 : Byte))], ((working (sorting b)).engs.get? 0 = some (sorting b) ∧
      (sorting b).units < (sorting b).len) ∧ (working (sorting b)).engLodeBusy (sorting b) = false) ∧
    (working (sorting none)).sideScratch (sorting none) 1 40960 8 = some 40960 ∧
    (working (sorting none)).sideScratch (sorting none) 1 32768 8 = some 32768 ∧
    (working (sorting none)).sideScratch (sorting none) 1 40960 4 = some 40960 ∧ (working copying).spad.wf = true ∧
    (working (sorting none)).sideScratch (sorting none) 1 32768 4 = some 32768 ∧ (32768 + 4 ≤ 40960) := by decide +kernel

/-- A barrier wait that is due its status word, and one whose entry is gone. -/
def owed : State := portOf { worker with
  waits := [{ lanes := 1, kind := .barrier 0 false true owed3, since := 0, due := some 7 }] }

theorem witness_WarpEvents_due :
    (∃ w, owed.warp? 0 0 = some w ∧ w.evicted = false ∧
      w.waits[0]? = some { lanes := 1, kind := .barrier 0 false true owed3, since := 0, due := some 7 }) ∧
    (waitsAll (.barrier 0 false false owed3) 4064).ran + 32 ≤ 4096 :=
  ⟨that (fun (w : Warp) => w.evicted = false ∧
      w.waits[0]? = some { lanes := 1, kind := .barrier 0 false true owed3, since := 0, due := some 7 }) (by decide +kernel), by decide⟩

/-- Two records of one word, and applying the records of a launch in their order. -/
def twoRecords : List RedRecord := [{ oneRecord with block := 1 }, oneRecord]
def applied (s : State) (rs : List RedRecord) : Option State :=
  (sortRecords rs).foldl (fun o r => o.bind fun s =>
    match State.xlatAll (.cp 0) 1 .rmw false false (pagePieces r.target 4) s with
    | (.ok ts, s1) => if ts.any fun x => s1.badPiece x.1 x.2 then none
      else some (ts.foldl (fun s x => State.combineAt x.1 (7 + r.op) [r.value] 0 s)
        (s1.modPart 0 fun q => q.dropWait (.launch 0) 1 r.target))
    | _ => none) (some s)

theorem witness_BlocksAndLaunchEnd_records :
    (∃ l, (ended twoRecords).launches.get? 0 = some l ∧ l.state = 2 ∧ l.buffer ≠ [] ∧ (ended twoRecords).launchBusyX l = false ∧
      ((ended twoRecords).ctx l.ctx).storeFaults = [] ∧
      (∀ r ∈ l.buffer, (ended twoRecords).cpGate (.launch 0) l.part l.ctx (pagePieces r.target 4) = (none, false)) ∧
      (applied (ended twoRecords) l.buffer).isSome = true) :=
  that (fun (l : Launch) => l.state = 2 ∧ l.buffer ≠ [] ∧ (ended twoRecords).launchBusyX l = false ∧
      ((ended twoRecords).ctx l.ctx).storeFaults = [] ∧
      (∀ r ∈ l.buffer, (ended twoRecords).cpGate (.launch 0) l.part l.ctx (pagePieces r.target 4) = (none, false)) ∧
      (applied (ended twoRecords) l.buffer).isSome = true) (by decide +kernel)

/-- A reply behind no held record, and one whose unit has an earlier one. -/
theorem witness_DoorbellsAndEventQueues_replies :
    ({ evented 6 with evHeld := [] } : State).preqs.get? 3 = some outstanding ∧
    (∃ y ∈ (evented 6).evHeld, y.record.kind.toNat ≤ 3 ∧ y.rid ≤ outstanding.rid) ∧ (evented 6).replies = [] ∧
    (suspended 0x28).earlyOn 0 = false := by decide +kernel

theorem witness_PartitionsAndBands_outside :
    (let s : State := { staged with
       mgmt := { staged.mgmt with slices := [(0, 0), (1, 0)], engines := [(0, 0)], functions := [(3, 0)] }, ctxs := [(1, savedVf 3)] }
     s.applyReason = 0 ∧ 0 ∉ s.mgmt.affected ∧ ∀ e ∈ s.ctxs, e.2.part ∉ s.mgmt.affected) ∧
    (([(3, 7), (195, 4), (384, 9)] : List (Nat × Nat)).map (·.1)).Nodup ∧ (banded []).mgmt.domains (195 - 192) 3 = [0] := by
  decide +kernel

/-! ### Results by hand (05, 07, 08) -/

/-- The machine whose warp holds three words in v0, v2 and v4. -/
def given (x y z : Word) : State :=
  portOf { worker with names := ((worker.names.put 0 (cellOf fun _ => x)).put 2 (cellOf fun _ => y)).put 4 (cellOf fun _ => z) }

/-- What lane 5 of a name of the warp holds after an instruction. -/
def leaves (i : Instr) (s : State) (n : Nat) : Option Word :=
  match exec i s with
  | .next t => (t.warp? 0 0).map fun w => w.val n 5
  | _ => none

/-- The value of v3 that an instruction leaves. -/
def gets (i : Instr) (x y : Word) (z : Word := 0) : Option Word := leaves i (given x y z) 3

/-- 1.5, 2.25 and 1 in FP32; a sum that ties to even (05 R104). -/
theorem test_float_arithmetic :
    gets (.fadd (hd 3 1) (v3 0 2 511 8)) 0x3FC00000 0x40100000 = some 0x40700000 ∧
    gets (.fadd (hd 3 1) (v3 0 2 511 8)) 0x3F800000 0x33800000 = some 0x3F800000 ∧
    gets (.fsub (hd 3 1) (v3 0 2 511 8)) 0x3FC00000 0x40100000 = some 0xBF400000 ∧
    gets (.fmul (hd 3 1) (v3 0 2 511 8)) 0x3FC00000 0x40100000 = some 0x40580000 ∧
    gets (.ffma (hd 3 1) (v3 0 2 4 8)) 0x3FC00000 0x40100000 0x3F800000 = some 0x408C0000 ∧
    gets (.fmin (hd 3 1) (v3 0 2 511 8)) 0x3FC00000 0x40100000 = some 0x3FC00000 ∧
    gets (.fmax (hd 3 1) (v3 0 2 511 8)) 0x3FC00000 0x40100000 = some 0x40100000 := by decide +kernel

/-- Exact points: 1/2, √9, 1/√4, 2^3, log2 8, sin 0, cos 0. -/
theorem test_float_functions :
    gets (.frcp (hd 3 1) (v3 0 511 511 8)) 0x40000000 0 = some 0x3F000000 ∧
    gets (.fsqrt (hd 3 1) (v3 0 511 511 8)) 0x41100000 0 = some 0x40400000 ∧
    gets (.frsq (hd 3 1) (v3 0 511 511 8)) 0x40800000 0 = some 0x3F000000 ∧
    gets (.fexp2 (hd 3 1) (v3 0 511 511 8)) 0x40400000 0 = some 0x41000000 ∧
    gets (.flog2 (hd 3 1) (v3 0 511 511 8)) 0x41000000 0 = some 0x40400000 ∧
    gets (.fsin (hd 3 1) (v3 0 511 511 8)) 0 0 = some 0 ∧
    gets (.fcos (hd 3 1) (v3 0 511 511 8)) 0 0 = some 0x3F800000 := by decide +kernel

/-- Wraps, signs and fields. -/
theorem test_integers :
    gets (.iadd (hd 3 1) (vi 0 2 6)) 0xFFFFFFFF 2 = some 1 ∧
    gets (.isub (hd 3 1) (vi 0 2 6)) 1 2 = some 0xFFFFFFFF ∧
    gets (.imulh (hd 3 1) (vi 0 2 6)) 0x80000000 4 = some 2 ∧
    gets (.imulh (hd 3 1) (vi 0 2 2)) 0xFFFFFFFF 0xFFFFFFFF = some 0 ∧
    gets (.imin (hd 3 1) (vi 0 2 2)) 0xFFFFFFFF 1 = some 0xFFFFFFFF ∧
    gets (.imin (hd 3 1) (vi 0 2 6)) 0xFFFFFFFF 1 = some 1 ∧
    gets (.ishr (hd 3 1) (vi 0 511 6 0 4)) 0x80000000 0 = some 0x08000000 ∧
    gets (.isar (hd 3 1) (vi 0 511 2 0 4)) 0x80000000 0 = some 0xF8000000 ∧
    gets (.popc (hd 3 1) (vi 0 511 6)) 0xF0F0 0 = some 8 ∧
    gets (.clz (hd 3 1) (vi 0 511 6)) 0x00010000 0 = some 15 ∧
    gets (.brev (hd 3 1) (vi 0 511 6)) 1 0 = some 0x80000000 ∧
    gets (.bfx (hd 3 1) (vi 0 511 6 0 0x0804)) 0x1234ABCD 0 = some 0xBC ∧
    gets (.bfi (hd 3 1) (vi 0 2 6 0 0x0804)) 0x1234ABCD 0xEF = some 0xCDF ∧
    gets (.imad (hd 3 1) (v3 0 2 4 6)) 3 4 5 = some 17 ∧
    gets (.dot4 (hd 3 1) (v3 0 2 4 0)) 0x04030201 0x01010101 5 = some 15 := by decide +kernel

/-- 2.5 to an integer ties to even; −3 to FP32; 1.5 to FP16. -/
theorem test_conversions :
    gets (.cvti (hd 3 1) (v3 0 511 511 2)) 0x40200000 0 = some 2 ∧
    gets (.cvtf (hd 3 1) (v3 0 511 511 2)) 0xFFFFFFFD 0 = some 0xC0400000 := by decide +kernel

/-- Lanes: an exchange with the lane 1 away, a broadcast of lane 5, a selection, and a move from a predicate. -/
theorem test_moves :
    leaves (.shfl (hd 3 1) (vi 0 511 6 3 1)) port 3 = some (1024 + 64 * 4) ∧
    leaves (.bcast (hd 3 1) (vi 0 511 6 0 7)) port 3 = some (1024 + 64 * 7) ∧
    gets (.mov (hd 3 1) (vi 511 2 6)) 7 9 = some 9 ∧
    gets (.sel (hd 3 1) (vi 0 2 6 2)) 7 9 = some 9 := by decide +kernel

/-- The warp that an instruction leaves at the port. -/
def warpAfter (i : Instr) (s : State) : Option Warp := (nextOf (exec i s)).warp? 0 0

/-- PSETI.lt p1 with 10, PLOP's and, PVOTE.any, in the word examples of 07 R142. -/
theorem test_predicates :
    (warpAfter (.pseti (hd 511 0) (vi 0 511 2 0x392 10)) (given 9 0 0)).map (·.pred 1) = some fullMask ∧
    (warpAfter (.pseti (hd 511 0) (vi 0 511 2 0x392 10)) (given 10 0 0)).map (·.pred 1) = some 0 ∧
    (warpAfter (.pvote (hd 511 0) (vi 511 511 6 0x061)) (portOf { worker with preds := [0, 4, 0, 0, 0, 0, 0] })).map
      (·.pred 4) = some fullMask ∧
    (warpAfter (.pmovTov (hd 3 1) (vi 511 511 6)) port).map (·.val 3 5) = some 0x80 := by decide +kernel

/-- The next PC behind slot 0, a branch to a register, a name dropped to nothing, and an exit. -/
theorem test_control :
    (warpAfter (.nop (hd 511 0) cf) port).map (·.pc 5) = some 1 ∧
    (warpAfter (.bri (hd 511 0) (cf 394)) port).map (·.pc 5) = some 0xA000 ∧
    (warpAfter (.drop (hd 46 1) (vi 511 511 0)) port).map (·.count 46 5) = some 2 ∧
    (warpAfter (.exit { hd 511 0 with guard := 0 } cf) half).map (·.live) = some 0xFFFF0000 := by decide +kernel

/-- A store to the own scratchpad and a load from it move one word, and an arrival alone completes its phase. -/
theorem test_memory_and_barriers :
    (nextOf (exec (.storePerformed 0 0 ⟨0, 5, false⟩ true) stored)).spad.readN 1344 4 = [0x40, 5, 0, 0] ∧
    (nextOf (exec (.storePerformed 0 0 ⟨0, 5, false⟩ true) stored)).spad.readN 1408 4 = [0, 0, 0, 0] ∧
    ((nextOf (exec (.bararr (hd 511 0) (sf 511 511)) port)).groups.get? 0).map (·.phase) = some true := by decide +kernel

end Sys2Proof.Tests
end

section
/-! SUPPORT. O35: a canonical memory is determined by its bytes. -/
namespace Sys2Proof.Machine
namespace Memory

/-- A listed byte of a canonical memory is not zero, and what stands behind it lies above its address. -/
theorem above_cons {a lo : Nat} {b : Byte} {m : Memory} :
    Memory.above ((a, b) :: m) lo = true ↔ lo ≤ a ∧ b ≠ 0 ∧ m.above (a + 1) = true := by
  simp [above, and_assoc]

theorem read_cons_self (a : Nat) (b : Byte) (m : Memory) : Memory.read ((a, b) :: m) a = b := by simp [read]

theorem read_cons_ne {a x : Nat} (b : Byte) (m : Memory) (h : a ≠ x) : Memory.read ((a, b) :: m) x = m.read x := by
  simp [read, h]

/-- The lowest address of a canonical memory is not above that of another which reads the same. -/
theorem head_le {m n : Memory} {a a' lo : Nat} {b b' : Byte} (hm : Memory.above ((a, b) :: m) lo = true)
    (hn : Memory.above ((a', b') :: n) lo = true)
    (h : ∀ x, Memory.read ((a, b) :: m) x = Memory.read ((a', b') :: n) x) : a' ≤ a := by
  obtain ⟨-, hb, -⟩ := above_cons.1 hm
  obtain ⟨-, hb', hn'⟩ := above_cons.1 hn
  by_contra hlt
  have hbelow : Memory.above ((a', b') :: n) a' = true := above_cons.2 ⟨Nat.le_refl a', hb', hn'⟩
  exact hb (by rw [← read_cons_self a b m, h, read_below hbelow (by omega)])

/-- Behind their common first entry two canonical memories that read the same still read the same. -/
theorem read_tail {m n : Memory} {a : Nat} {b : Byte} (hm : m.above (a + 1) = true) (hn : n.above (a + 1) = true)
    (h : ∀ x, Memory.read ((a, b) :: m) x = Memory.read ((a, b) :: n) x) (x : Nat) : m.read x = n.read x := by
  by_cases hx : a = x
  · rw [read_below hm (by omega), read_below hn (by omega)]
  · rw [← read_cons_ne b m hx, h, read_cons_ne b n hx]

/-- Two canonical memories that read the same everywhere are the same data. -/
theorem ext_of_above : ∀ {m n : Memory} {lo : Nat}, m.above lo = true → n.above lo = true →
    (∀ x, m.read x = n.read x) → m = n
  | [], [], _, _, _, _ => rfl
  | [], (a, b) :: n, _, _, hn, h => absurd (by rw [← read_cons_self a b n, ← h, read_nil]) (above_cons.1 hn).2.1
  | (a, b) :: m, [], _, hm, _, h => absurd (by rw [← read_cons_self a b m, h, read_nil]) (above_cons.1 hm).2.1
  | (a, b) :: m, (a', b') :: n, lo, hm, hn, h => by
    obtain rfl : a = a' := Nat.le_antisymm (head_le hn hm fun x => (h x).symm) (head_le hm hn h)
    obtain rfl : b = b' := by rw [← read_cons_self a b m, h, read_cons_self]
    obtain ⟨-, -, hm'⟩ := above_cons.1 hm
    obtain ⟨-, -, hn'⟩ := above_cons.1 hn
    rw [ext_of_above hm' hn' (read_tail hm' hn' h)]

end Memory
end Sys2Proof.Machine

open Sys2Proof Sys2Proof.Machine

/-- Settles O35: the laws of `Memory.writeN`, and a canonical memory's lowest entry is the lowest byte it reads nonzero. -/
theorem readAfterWrite : Obligations.ReadAfterWrite := by
  unfold Obligations.ReadAfterWrite
  exact ⟨fun m a bs x h => ⟨Memory.wf_writeN bs a h, Memory.read_writeN bs h a x⟩, fun m n hm hn h => Memory.ext_of_above hm hn h⟩
end

section
/-! SUPPORT. O56, the bytes of a register: writing all of them leaves the value written, and reading all of them gives it. -/
namespace Sys2Proof.Machine

/-- A number with byte `i` replaced: what lies above the byte, the byte, and what lies below it. -/
theorem setByte_eq (x i : Nat) (b : Byte) :
    setByte x i b = x / 256 ^ (i + 1) * 256 ^ (i + 1) + b.toNat * 256 ^ i + x % 256 ^ i := by
  have hlow : 256 ^ i * (x / 256 ^ i) + x % 256 ^ i = x := Nat.div_add_mod x (256 ^ i)
  have hhigh : 256 * (x / 256 ^ i / 256) + x / 256 ^ i % 256 = x / 256 ^ i := Nat.div_add_mod _ 256
  have hup : x / 256 ^ (i + 1) * 256 ^ (i + 1) = 256 ^ i * (256 * (x / 256 ^ i / 256)) := by
    rw [pow_succ, ← Nat.div_div_eq_div_mul]; ring
  have hsplit : x = 256 ^ i * (256 * (x / 256 ^ i / 256)) + x / 256 ^ i % 256 * 256 ^ i + x % 256 ^ i := by
    conv_lhs => rw [← hlow, ← hhigh]
    ring
  rw [setByte, hup]
  omega

theorem leBytes_succ (n y : Nat) : leBytes (n + 1) y = BitVec.ofNat 8 y :: leBytes n (y / 256) := rfl

/-- Replacing byte `i` leaves what lies above it, and puts it before what lies below it. -/
theorem setByte_div_mod (x i : Nat) (b : Byte) :
    setByte x i b / 256 ^ (i + 1) = x / 256 ^ (i + 1) ∧ setByte x i b % 256 ^ (i + 1) = b.toNat * 256 ^ i + x % 256 ^ i := by
  have hlt : b.toNat * 256 ^ i + x % 256 ^ i < 256 ^ (i + 1) := by
    have hmod : x % 256 ^ i < 256 ^ i := Nat.mod_lt _ (by positivity)
    calc b.toNat * 256 ^ i + x % 256 ^ i < (b.toNat + 1) * 256 ^ i := by rw [Nat.add_mul]; omega
      _ ≤ 256 * 256 ^ i := Nat.mul_le_mul_right _ (by have := b.isLt; omega)
      _ = 256 ^ (i + 1) := by ring
  rw [setByte_eq, Nat.add_assoc, Nat.mul_comm (x / _)]
  exact ⟨by rw [Nat.mul_add_div (by positivity), Nat.div_eq_of_lt hlt, Nat.add_zero], by
    rw [Nat.mul_add_mod, Nat.mod_eq_of_lt hlt]⟩

/-- Bytes `i` up replaced by the `n` little-endian bytes of a number. -/
theorem foldl_setByte (n : Nat) : ∀ (x y i : Nat),
    ((leBytes n y).zipIdx i).foldl (fun x (b : Byte × Nat) => setByte x b.2 b.1) x =
      x / 256 ^ (i + n) * 256 ^ (i + n) + y % 256 ^ n * 256 ^ i + x % 256 ^ i := by
  induction n with
  | zero => intro x y i; simpa [leBytes, Nat.mod_one] using (Nat.div_add_mod' x (256 ^ i)).symm
  | succ n ih =>
    intro x y i
    obtain ⟨hdiv, hmod⟩ := setByte_div_mod x i (BitVec.ofNat 8 y)
    have hup : setByte x i (BitVec.ofNat 8 y) / 256 ^ (i + 1 + n) = x / 256 ^ (i + 1 + n) := by
      rw [pow_add, ← Nat.div_div_eq_div_mul, hdiv, Nat.div_div_eq_div_mul]
    have hy : y % 256 ^ (n + 1) = y % 256 + 256 * (y / 256 % 256 ^ n) := by
      rw [pow_succ' 256 n, Nat.mod_mul]
    rw [leBytes_succ, List.zipIdx_cons, List.foldl_cons, ih, hup, hmod, hy, show i + (n + 1) = i + 1 + n by omega]
    simp only [BitVec.toNat_ofNat]
    ring

theorem setByte_lt {x i n : Nat} {b : Byte} (hx : x < 256 ^ n) (hi : i < n) : setByte x i b < 256 ^ n := by
  obtain ⟨k, rfl⟩ : ∃ k, n = i + 1 + k := ⟨n - (i + 1), by omega⟩
  rw [pow_add, Nat.mul_comm, ← Nat.div_lt_iff_lt_mul (by positivity)] at hx ⊢
  rwa [(setByte_div_mod x i b).1]

theorem setByteBv_toNat (x : BitVec 64) {i : Nat} (b : Byte) (hi : i < 8) :
    (setByteBv x i b).toNat = setByte x.toNat i b := by
  rw [setByteBv, BitVec.toNat_ofNat]
  exact Nat.mod_eq_of_lt (setByte_lt (n := 8) x.isLt hi)

theorem length_leBytes (n : Nat) : ∀ y, (leBytes n y).length = n := by
  induction n with
  | zero => intro y; rfl
  | succ n ih => intro y; rw [leBytes_succ, List.length_cons, ih]

/-- A fold that writes byte by byte to a 64-bit register of some data leaves it with the value written; `put` is the data
with a value in that register. -/
theorem foldl_register {α : Type} {f : α → Byte × Nat → α} (put : BitVec 64 → α) {a : α} {x : BitVec 64} (v : BitVec 64)
    (hx : put x = a) (h : ∀ x b i, i < 8 → f (put x) (b, i) = put (setByteBv x i b)) :
    (leBytes 8 v.toNat).zipIdx.foldl f a = put v := by
  have hrel := List.foldl_rel (l := (leBytes 8 v.toNat).zipIdx) (f := f) (g := fun x b => setByte x b.2 b.1)
    (r := fun c n => ∃ y : BitVec 64, c = put y ∧ y.toNat = n) ⟨x, hx.symm, rfl⟩ (by
      rintro ⟨b, i⟩ hb _ _ ⟨y, rfl, rfl⟩
      have hi : i < 8 := by simpa [length_leBytes] using (List.mem_zipIdx hb).2.1
      exact ⟨setByteBv y i b, h y b i hi, setByteBv_toNat y b hi⟩)
  obtain ⟨y, hy, hn⟩ := hrel
  have hyv : y = v := by
    apply BitVec.eq_of_toNat_eq
    rw [hn, foldl_setByte]
    have hx := x.isLt
    have hv := v.isLt
    omega
  rw [hy, hyv]

theorem leNat_leBytes (n : Nat) : ∀ y, leNat (leBytes n y) = y % 256 ^ n := by
  induction n with
  | zero => intro y; simp [leBytes, leNat, Nat.mod_one]
  | succ n ih => intro y; rw [leBytes_succ, leNat, ih, BitVec.toNat_ofNat, pow_succ' 256 n, Nat.mod_mul]

theorem leBytes_eq_map (n : Nat) : ∀ y, leBytes n y = (List.range n).map fun i => BitVec.ofNat 8 (y / 256 ^ i) := by
  induction n with
  | zero => intro y; rfl
  | succ n ih =>
    intro y
    rw [leBytes_succ, ih, List.range_succ_eq_map]
    simp [Function.comp_def, pow_succ', Nat.div_div_eq_div_mul]

end Sys2Proof.Machine
end

section
/-! SUPPORT. O56, writes: what a write to each kind of page does (19 R291; 23 R344; 24 R359). -/
namespace Sys2Proof.Machine

variable (s : State) (v : BitVec 64)

/-! ### Pages -/

/-- CONFIG_REGISTER_WRITE is given its meaning by `execConfigRegisterWrite`. -/
theorem exec_configRegisterWrite (page : Page) (o n : Nat) :
    exec (.configRegisterWrite page o n v) s = execConfigRegisterWrite page o n v s := rfl

/-- With the side band down, and beyond the 4 KiB of a page, a write changes nothing. -/
theorem exec_write_ignored {s : State} {o n : Nat} (page : Page) (h : s.sideband = false ∨ 0x1000 < o + n) :
    exec (.configRegisterWrite page o n v) s = .next s := by
  rw [exec_configRegisterWrite]
  unfold execConfigRegisterWrite
  rw [if_pos (by simpa using h)]

theorem exec_write_boot {s : State} {o n : Nat} (hs : s.sideband = true) (h : o + n ≤ 0x1000) :
    exec (.configRegisterWrite .boot o n v) s = s.bootWrite o n v := by
  rw [exec_configRegisterWrite, execConfigRegisterWrite, if_neg (by simp [hs, h])]

theorem exec_write_pf {s : State} {o n : Nat} (p : Nat) (hs : s.sideband = true) (h : o + n ≤ 0x1000) :
    exec (.configRegisterWrite (.pf p) o n v) s = s.fnWrite (pfKey p) o n v := by
  rw [exec_configRegisterWrite, execConfigRegisterWrite, if_neg (by simp [hs, h])]

/-- A page of the physical function that is not in use ignores a write. -/
theorem exec_write_pf_unused {s : State} {p : Nat} (h : s.fns.has (pfKey p) = false) (o n : Nat) :
    exec (.configRegisterWrite (.pf p) o n v) s = .next s := by
  rw [exec_configRegisterWrite, execConfigRegisterWrite]
  split
  · rfl
  · simp [State.fnWrite, h]

/-- A page of a partition that does not exist ignores a write. -/
theorem exec_write_partition_unused {s : State} {p : Nat} (h : s.parts.has p = false) (o n : Nat) :
    exec (.configRegisterWrite (.partition p) o n v) s = .next s := by
  rw [exec_configRegisterWrite, execConfigRegisterWrite]
  split
  · rfl
  · simp [h]

/-! ### Registers with an effect of their own -/

theorem fnWrite_trigger {s : State} {v : BitVec 64} {fn o : Nat} {r : Host.Outcome State Fault Refusal}
    (hf : s.fns.has fn = true) (ho : o % 8 = 0) (ht : s.fnTrigger fn o v = some r) : s.fnWrite fn o 8 v = r := by
  simp [State.fnWrite, hf, ho, ht]

theorem fnTrigger_doorbell (fn : Nat) {q : Nat} (hq : q < 64) :
    s.fnTrigger fn (0x400 + 8 * q) v = some (execQueueDoorbell fn q v s) := by
  rw [State.fnTrigger, if_pos (by omega), show (0x400 + 8 * q - 0x400) / 8 = q by omega]

theorem fnTrigger_retry (fn : Nat) : s.fnTrigger fn 0x188 v = some (execPageRetryDoorbell fn v s) := rfl

theorem fnTrigger_flush (fn : Nat) : s.fnTrigger fn 0x190 v = some (execHostContextFlush fn v s) := rfl

theorem fnTrigger_tableBase (p : Nat) :
    s.fnTrigger (pfKey p) 0x1A0 v = some (execPageRequestTableBase p v s) := by simp [State.fnTrigger, pfKey]

theorem fnTrigger_reply (p : Nat) :
    s.fnTrigger (pfKey p) 0x1A8 v = some (execPageRequestReply p v s) := by simp [State.fnTrigger, pfKey]

theorem fnTrigger_control (fn : Nat) : s.fnTrigger fn 0x1E0 v = some (s.controlWrite fn v) := rfl

theorem fnTrigger_preempt (fn : Nat) : s.fnTrigger fn 0x1F0 v = some (s.preemptWrite fn v) := rfl

/-- A field of twelve bits names a context as it stands. -/
theorem ignored_context {s : State} {fn : Nat} (hf : s.fns.has fn = true) (x : BitVec 12) :
    s.ignored fn x.toNat = s.postError fn x.toNat 0 0 0 := by
  rw [State.ignored, if_pos hf, Nat.mod_eq_of_lt x.isLt]

/-- What a value of the control register does, by its op (21 R332). -/
theorem controlWrite_eq {s : State} {fn : Nat} (hf : s.fns.has fn = true) :
    let op := (v.extractLsb' 60 4).toNat
    (op = 1 → s.controlWrite fn v = execFragmentResume fn v s) ∧
    (op = 2 → s.controlWrite fn v = execFragmentResumeAtPc fn v s) ∧
    (op = 3 → s.controlWrite fn v = execFragmentResumeNext fn v s) ∧
    (op = 4 → s.controlWrite fn v = execFragmentResumeNoWatch fn v s) ∧
    (op = 5 → s.controlWrite fn v = execWarpKill fn v s) ∧
    (op = 0 ∨ 5 < op → s.controlWrite fn v = .next (s.postError fn (v.extractLsb' 48 12).toNat 0 0 0)) := by
  intro op
  refine ⟨fun h => ?_, fun h => ?_, fun h => ?_, fun h => ?_, fun h => ?_, fun h => ?_⟩
  case refine_6 =>
    rw [← ignored_context hf, State.controlWrite]
    split
    case h_6 => rfl
    all_goals omega
  all_goals simp only [State.controlWrite, show (v.extractLsb' 60 4).toNat = _ from h]

/-- What a value of the pre-emption register does, by its op, once the page keeps the context that it names (21 R335). -/
theorem preemptWrite_eq (fn : Nat) :
    let op := (v.extractLsb' 60 4).toNat
    let n := (v.extractLsb' 0 12).toNat
    let u := s.modFn fn fun q => { q with lastCtx := n }
    (op = 1 → s.preemptWrite fn v = execSoftPreemptRequest fn n u) ∧
    (op = 2 → s.preemptWrite fn v = execForcedHalt fn n u) ∧
    (op = 3 → s.preemptWrite fn v = execContextKill fn n u) ∧
    (op = 4 → s.preemptWrite fn v = execPreemptWithdraw fn n u) ∧
    (op = 0 ∨ 4 < op → s.preemptWrite fn v = .next (u.postError fn n 0 0 0)) := by
  intro op n u
  refine ⟨fun h => ?_, fun h => ?_, fun h => ?_, fun h => ?_, fun h => ?_⟩
  case refine_5 =>
    have hu : u.fns.has fn = true := by simp [u, State.modFn, Tab.has]
    rw [← ignored_context hu, State.preemptWrite]
    split
    case h_5 => rfl
    all_goals omega
  all_goals simp only [State.preemptWrite, show (v.extractLsb' 60 4).toNat = _ from h, u, n]

theorem bootWrite_trigger {s : State} {v : BitVec 64} {o : Nat} {r : Host.Outcome State Fault Refusal} (ho : o % 4 = 0)
    (ht : s.bootTrigger o (v.extractLsb' 0 32) = some r) : s.bootWrite o 4 v = r := by
  simp [State.bootWrite, ho, ht]

/-! ### Registers that hold what is written -/

/-- A 64-bit write to a register of a function page that holds what is written leaves the value there. -/
theorem fnWrite_register {s : State} {v : BitVec 64} {fn o : Nat} (put : BitVec 64 → FnPage) {x : BitVec 64}
    (hf : s.fns.has fn = true) (ht : s.fnTrigger fn o v = none) (hx : put x = s.fn fn)
    (h : ∀ x b i, i < 8 → (put x).writeByte (o + i) b = put (setByteBv x i b)) :
    s.fnWrite fn o 8 v = .next (s.modFn fn fun _ => put v) := by
  simp only [State.fnWrite, hf, ht, ite_self, Bool.not_true, Bool.false_eq_true, if_false, State.modFn]
  rw [foldl_register put v hx h]

/-- Likewise for a page of a partition. -/
theorem exec_write_partition_register {s : State} {v : BitVec 64} {p o : Nat} (put : BitVec 64 → Part) {x : BitVec 64}
    (hs : s.sideband = true) (hp : s.parts.has p = true) (ho : o + 8 ≤ 0x1000) (hx : put x = s.part p)
    (h : ∀ x b i, i < 8 → (put x).writeByte (o + i) b = put (setByteBv x i b)) :
    exec (.configRegisterWrite (.partition p) o 8 v) s = .next (s.modPart p fun _ => put v) := by
  rw [exec_configRegisterWrite, execConfigRegisterWrite, if_neg (by simp [hs, ho])]
  simp only [hp, if_true, State.modPart]
  rw [foldl_register put v hx h]

variable (b : Byte) {i : Nat}

theorem writeByte_evBase (p : FnPage) (hi : i < 8) :
    p.writeByte (0x1C0 + i) b = { p with evBase := setByteBv p.evBase i b } := by
  rw [FnPage.writeByte]
  iterate 3 rw [if_neg (by omega)]
  rw [if_pos (by omega), Nat.add_sub_cancel_left]

theorem writeByte_resumePc (p : FnPage) (hi : i < 8) :
    p.writeByte (0x1E8 + i) b = { p with resumePc := setByteBv p.resumePc i b } := by
  rw [FnPage.writeByte]
  iterate 6 rw [if_neg (by omega)]
  rw [if_pos (by omega), Nat.add_sub_cancel_left]

theorem writeByte_ctxTable (p : FnPage) (hi : i < 8) :
    p.writeByte (0x1F8 + i) b = { p with ctxTable := setByteBv p.ctxTable i b } := by
  rw [FnPage.writeByte]
  iterate 7 rw [if_neg (by omega)]
  rw [if_pos (by omega), Nat.add_sub_cancel_left]

/-- The merge windows of a partition of at most 32 slices end before its fabric map. -/
theorem writeByte_mapBase (q : Part) (hq : q.size ≤ 32) (hi : i < 8) :
    q.writeByte (0x200 + i) b = { q with mapBase := setByteBv q.mapBase i b } := by
  rw [Part.writeByte, if_neg (by omega), if_pos (by omega), Nat.add_sub_cancel_left]

theorem writeByte_telemetry (q : Part) (hq : q.size ≤ 32) (hi : i < 8) :
    q.writeByte (0x300 + i) b = { q with telemetry := setByteBv q.telemetry i b } := by
  rw [Part.writeByte]
  iterate 4 rw [if_neg (by omega)]
  rw [if_pos (by omega), Nat.add_sub_cancel_left]

theorem writeByte_image (t : Boot) (hi : i < 8) :
    t.writeByte (0x008 + i) b = { t with image := setByteBv t.image i b } := by
  rw [Boot.writeByte, if_pos (by omega), Nat.add_sub_cancel_left]

/-- A 64-bit write to the image register of the boot page leaves the value there, and nothing else changes. -/
theorem bootWrite_image : s.bootWrite 0x008 8 v = .next { s with boot := { s.boot with image := v } } := by
  have hn : s.bootTrigger 0x008 (v.extractLsb' 0 32) = none := rfl
  simp only [State.bootWrite, hn, ite_self]
  rw [foldl_register (a := s) (x := s.boot.image) (fun x => { s with boot := { s.boot with image := x } }) v rfl]
  intro x b i hi
  rw [if_pos (show 0x008 + i < 0x400 by omega), writeByte_image b _ hi]

end Sys2Proof.Machine
end

section
/-! SUPPORT. O56, reads: a read of a whole register gives its value (00 R372; 19 R291; 23 R348; 24 R359). -/
namespace Sys2Proof.Machine

/-! ### A register of a page -/

/-- An offset that no register of a page covers reads zero. -/
theorem regByte_uncovered {rs : List Reg} {o : Nat} (h : ∀ r ∈ rs, r.offset + r.size ≤ o ∨ o < r.offset) :
    regByte rs o = 0 := by
  have hnone : (rs.find? fun r => decide (r.offset ≤ o) && decide (o < r.offset + r.size)) = none := by
    rw [List.find?_eq_none]
    intro r hr
    have := h r hr
    simp only [Bool.and_eq_true, decide_eq_true_eq]
    omega
  rw [regByte, hnone]

/-- A byte of a register behind registers that end before it. -/
theorem regByte_covered {front back : List Reg} {r : Reg} {i : Nat} (hf : ∀ q ∈ front, q.offset + q.size ≤ r.offset)
    (hi : i < r.size) : regByte (front ++ r :: back) (r.offset + i) = BitVec.ofNat 8 (r.value / 256 ^ i) := by
  have hnone : (front.find? fun q => decide (q.offset ≤ r.offset + i) && decide (r.offset + i < q.offset + q.size)) = none := by
    rw [List.find?_eq_none]
    intro q hq
    have := hf q hq
    simp only [Bool.and_eq_true, decide_eq_true_eq]
    omega
  have hfind : ((front ++ r :: back).find? fun q =>
      decide (q.offset ≤ r.offset + i) && decide (r.offset + i < q.offset + q.size)) = some r := by
    rw [List.find?_append, hnone, Option.none_or, List.find?_cons_of_pos (by simp [hi])]
  simp only [regByte, hfind, Nat.add_sub_cancel_left]

/-- A page without registers reads zero. -/
theorem readPage_unused {s : State} {page : Page} (h : s.pageRegs page = []) (o n : Nat) :
    s.readPage page o n = List.replicate n 0 := by
  simp [State.readPage, h, regByte_uncovered, List.map_const']

/-- A read of one whole register, little-endian, gives its value. -/
theorem leNat_readPage {s : State} {page : Page} {front back : List Reg} (r : Reg) (hs : s.sideband = true)
    (hr : s.pageRegs page = front ++ r :: back) (hf : ∀ q ∈ front, q.offset + q.size ≤ r.offset)
    (hp : r.offset + r.size ≤ 0x1000) (hv : r.value < 256 ^ r.size) :
    leNat (s.readPage page r.offset r.size) = r.value := by
  have hbytes : s.readPage page r.offset r.size = leBytes r.size r.value := by
    rw [State.readPage, leBytes_eq_map, if_pos hs, hr]
    apply List.map_congr_left
    intro i hi
    rw [List.mem_range] at hi
    rw [if_pos (by omega), regByte_covered hf hi]
  rw [hbytes, leNat_leBytes, Nat.mod_eq_of_lt hv]

/-- A read where no register stands gives zero. -/
theorem leNat_readPage_uncovered {s : State} {page : Page} {o n : Nat}
    (h : ∀ r ∈ s.pageRegs page, r.offset + r.size ≤ o ∨ o + n ≤ r.offset) : leNat (s.readPage page o n) = 0 := by
  have hbytes : s.readPage page o n = leBytes n 0 := by
    rw [State.readPage, leBytes_eq_map]
    apply List.map_congr_left
    intro i hi
    rw [List.mem_range] at hi
    have hzero : regByte (if s.sideband then s.pageRegs page else []) (o + i) = 0 := by
      apply regByte_uncovered
      intro r hr
      split at hr
      · have := h r hr
        omega
      · simp at hr
    simp [hzero]
  rw [hbytes, leNat_leBytes, Nat.zero_mod]

/-! ### The boot page -/

/-- The registers of a map stand one byte each from its offset on. -/
theorem mem_mapRegs {r : Reg} {offset n : Nat} {t : Tab Nat} (h : r ∈ mapRegs offset n t) :
    r.size = 1 ∧ offset ≤ r.offset ∧ r.offset < offset + n := by
  simp only [mapRegs, List.mem_map, List.mem_range] at h
  obtain ⟨i, hi, rfl⟩ := h
  exact ⟨rfl, by simp, by simp [hi]⟩

variable (s : State)

theorem read_bootStatus (hs : s.sideband = true) (h1 : s.boot.state < 16) (h2 : s.boot.reason < 256) :
    leNat (s.readPage .boot 0x000 8) = s.boot.state + 256 * s.boot.reason :=
  leNat_readPage (front := []) ⟨0x000, 8, s.boot.state + 256 * s.boot.reason⟩ hs rfl (by simp) (by simp) (by
    simp only; omega)

theorem read_offered (hs : s.sideband = true) (ht : 0 < s.time) :
    leNat (s.readPage .boot 0x020 8) = Config.offered.toNat := by
  have h := leNat_readPage (s := s) (page := .boot) (front := _ :: _ :: [_]) (regOf 0x020 8 s.offeredWord) hs rfl
    (by simp [regOf]) (by simp [regOf]) (by have := s.offeredWord.isLt; simp only [regOf]; omega)
  have hw : s.offeredWord = Config.offered := by rw [State.offeredWord, if_neg (by omega)]
  rwa [hw] at h

theorem read_enabled (hs : s.sideband = true) : leNat (s.readPage .boot 0x028 8) = s.boot.enabled.toNat :=
  leNat_readPage (front := _ :: _ :: _ :: [_]) (regOf 0x028 8 s.boot.enabled) hs rfl
    (by simp [regOf]) (by simp [regOf]) (by have := s.boot.enabled.isLt; simp only [regOf]; omega)

/-- The registers of the boot page in front of the status of the last apply end before it. -/
theorem read_applyStatus (hs : s.sideband = true) (h1 : s.mgmt.applyState < 16) (h2 : s.mgmt.applyReason < 256) :
    leNat (s.readPage .boot 0x868 4) = s.mgmt.applyState + 256 * s.mgmt.applyReason := by
  refine leNat_readPage (front := s.bootRegs ++ (mapRegs 0x400 32 s.mgmt.slices ++ mapRegs 0x420 128 s.mgmt.engines
      ++ mapRegs 0x4A0 192 s.mgmt.functions ++ mapRegs 0x700 32 s.mgmt.stSlices ++ mapRegs 0x720 128 s.mgmt.stEngines
      ++ mapRegs 0x7A0 192 s.mgmt.stFunctions)) ⟨0x868, 4, s.mgmt.applyState + 256 * s.mgmt.applyReason⟩ hs
    (by simp only [State.pageRegs, Mgmt.regs, List.append_assoc]; rfl) ?_ (by simp) (by simp only; omega)
  intro q hq
  simp only [List.mem_append] at hq
  obtain hq | ((((hq | hq) | hq) | hq) | hq) | hq := hq
  · simp only [State.bootRegs, List.mem_cons, List.not_mem_nil, or_false] at hq
    obtain rfl | rfl | rfl | rfl | rfl | rfl | rfl := hq <;> simp [regOf]
  all_goals
    have := mem_mapRegs hq
    simp only
    omega

/-! ### The page of the physical function in a partition -/

/-- The registers of the page that stand between the weights of its queues and their descriptors, by rising offset. -/
def State.namedRegs (s : State) (p : Nat) : List Reg :=
  let f := s.fn (pfKey p)
  [⟨0x100, 8, f.slice⟩, ⟨0x180, 8, s.time⟩, regOf 0x1A0 8 (s.part p).tableBase, ⟨0x1B0, 4, (s.part p).tableCount⟩,
   regOf 0x1C0 8 f.evBase, ⟨0x1C8, 1, f.evLog2⟩, regOf 0x1CC 4 f.evHead, regOf 0x1D0 4 f.evTail, regOf 0x1D4 4 f.evLost,
   regOf 0x1E8 8 f.resumePc, ⟨0x1F0, 8, (s.ctx (ctxKey p f.lastCtx)).pre⟩, regOf 0x1F8 8 f.ctxTable]

/-- The weights of the queues of a function's page. -/
def State.weightRegs (s : State) (fn : Nat) : List Reg :=
  (List.range 64).map fun i => { offset := 2 * i, size := 2, value := (s.fn fn).weights.getD i 0 }

/-- The descriptors of the queues of a function's page. -/
def State.queueRegs (s : State) (fn : Nat) : List Reg :=
  (s.fn fn).queues.flatMap fun q => q.2.regs (0x800 + 32 * q.1)

theorem pageRegs_pf_unused {s : State} {p : Nat} (h : s.fns.has (pfKey p) = false) : s.pageRegs (.pf p) = [] := by
  simp [State.pageRegs, h]

theorem pageRegs_vf_unused {s : State} {f : Nat} (h : s.fns.has f = false) : s.pageRegs (.vf f) = [] := by
  simp [State.pageRegs, h]

theorem pageRegs_pf {s : State} {p : Nat} (hf : s.fns.has (pfKey p) = true) :
    s.pageRegs (.pf p) = s.weightRegs (pfKey p) ++ (s.namedRegs p ++ s.queueRegs (pfKey p)) := by
  have hpart : s.fnPart (pfKey p) = p := by simp [State.fnPart, pfKey]
  have hkey : pfKey p - 256 = p := by simp [pfKey]
  have hpf : 256 ≤ pfKey p := by simp [pfKey]
  simp only [State.pageRegs, hf, if_true, State.fnRegs, hpf, hpart, hkey, State.requestRegs, List.append_assoc]
  rfl

theorem weightRegs_end {s : State} {fn : Nat} {r : Reg} (h : r ∈ s.weightRegs fn) : r.offset + r.size ≤ 0x80 := by
  simp only [State.weightRegs, List.mem_map, List.mem_range] at h
  obtain ⟨i, hi, rfl⟩ := h
  simp only
  omega

theorem queueRegs_start {s : State} {fn : Nat} {r : Reg} (h : r ∈ s.queueRegs fn) : 0x800 ≤ r.offset := by
  simp only [State.queueRegs, List.mem_flatMap, Queue.regs, List.mem_cons, List.not_mem_nil, or_false] at h
  obtain ⟨q, -, rfl | rfl | rfl | rfl | rfl | rfl | rfl⟩ := h <;> simp only [regOf] <;> omega

/-- A read of a register that stands behind the weights. -/
theorem read_named {s : State} {p : Nat} (front : List Reg) {back : List Reg} (r : Reg) (hs : s.sideband = true)
    (hf : s.fns.has (pfKey p) = true) (hr : s.namedRegs p = front ++ r :: back)
    (hfront : ∀ q ∈ front, q.offset + q.size ≤ r.offset) (hlow : 0x80 ≤ r.offset) (hp : r.offset + r.size ≤ 0x1000)
    (hv : r.value < 256 ^ r.size) : leNat (s.readPage (.pf p) r.offset r.size) = r.value := by
  refine leNat_readPage (front := s.weightRegs (pfKey p) ++ front) (back := back ++ s.queueRegs (pfKey p)) r hs
    (by rw [pageRegs_pf hf, hr]; simp) ?_ hp hv
  intro q hq
  obtain hq | hq := List.mem_append.1 hq
  · exact (weightRegs_end hq).trans hlow
  · exact hfront q hq

variable {s : State} {p : Nat} (hs : s.sideband = true) (hf : s.fns.has (pfKey p) = true)
include hs hf

theorem read_time (ht : s.time < 2 ^ 64) : leNat (s.readPage (.pf p) 0x180 8) = s.time :=
  read_named [_] ⟨0x180, 8, s.time⟩ hs hf rfl (by simp) (by simp) (by simp) ht

theorem read_evTail : leNat (s.readPage (.pf p) 0x1D0 4) = (s.fn (pfKey p)).evTail.toNat :=
  read_named [_, _, _, _, _, _, _] (regOf 0x1D0 4 (s.fn (pfKey p)).evTail) hs hf rfl (by simp [regOf]) (by simp [regOf])
    (by simp [regOf]) (s.fn (pfKey p)).evTail.isLt

theorem read_preempt (hpre : (s.ctx (ctxKey p (s.fn (pfKey p)).lastCtx)).pre < 16) :
    leNat (s.readPage (.pf p) 0x1F0 8) = (s.ctx (ctxKey p (s.fn (pfKey p)).lastCtx)).pre :=
  read_named [_, _, _, _, _, _, _, _, _, _] ⟨0x1F0, 8, (s.ctx (ctxKey p (s.fn (pfKey p)).lastCtx)).pre⟩ hs hf rfl (by simp [regOf]) (by simp) (by simp)
    (by simp only; omega)

theorem read_ctxTable : leNat (s.readPage (.pf p) 0x1F8 8) = (s.fn (pfKey p)).ctxTable.toNat :=
  read_named [_, _, _, _, _, _, _, _, _, _, _] (regOf 0x1F8 8 (s.fn (pfKey p)).ctxTable) hs hf rfl (by simp [regOf])
    (by simp [regOf]) (by simp [regOf]) (s.fn (pfKey p)).ctxTable.isLt

omit hs in
/-- No register stands at the offset of the flush register. -/
theorem read_flush : leNat (s.readPage (.pf p) 0x190 8) = 0 := by
  refine leNat_readPage_uncovered fun r hr => ?_
  rw [pageRegs_pf hf, List.mem_append, List.mem_append] at hr
  obtain hr | hr | hr := hr
  · have := weightRegs_end hr
    omega
  · simp only [State.namedRegs, List.mem_cons, List.not_mem_nil, or_false] at hr
    obtain rfl | rfl | rfl | rfl | rfl | rfl | rfl | rfl | rfl | rfl | rfl | rfl := hr <;> simp [regOf]
  · have := queueRegs_start hr
    omega

end Sys2Proof.Machine
end

section
/-! SUPPORT. O56, the host's accesses to BAR0: the page that an offset names (23 R344). -/
namespace Sys2Proof.Machine

/-- A step with a listed turn takes it. -/
theorem step_turn {s : State} {t : Turn} {ts : List Turn} (h : s.turns = t :: ts) :
    step s = State.turn { s with steps := s.steps + 1, turns := ts } t := by
  simp only [step, h]

theorem pageAt_boot {o : Nat} (ho : o < 0x1000) : pageAt none o = some (.boot, o) := by
  simp only [pageAt, Nat.div_eq_of_lt ho, if_true]

theorem pageAt_pf {p o : Nat} (hp : p < 16) (ho : o < 0x1000) :
    pageAt none (0x10000 + 0x1000 * p + o) = some (.pf p, o) := by
  have hdiv : (0x10000 + 0x1000 * p + o) / 0x1000 = 0x10 + p := by omega
  have hmod : (0x10000 + 0x1000 * p + o) % 0x1000 = o := by omega
  simp only [pageAt, hdiv, hmod, Nat.add_sub_cancel_left]
  rw [if_neg (by omega), if_neg (by omega), if_pos (by omega)]

theorem pageAt_partition {p o : Nat} (hp : p < 32) (ho : o < 0x1000) :
    pageAt none (0x20000 + 0x1000 * p + o) = some (.partition p, o) := by
  have hdiv : (0x20000 + 0x1000 * p + o) / 0x1000 = 0x20 + p := by omega
  have hmod : (0x20000 + 0x1000 * p + o) % 0x1000 = o := by omega
  simp only [pageAt, hdiv, hmod, Nat.add_sub_cancel_left]
  rw [if_neg (by omega), if_pos (by omega)]

theorem pageAt_vf (f : Nat) {o : Nat} (ho : o < 0x1000) : pageAt (some f) o = some (.vf f, o) := if_pos ho

variable {s : State} {ts : List Turn} {vf : Option Nat} {addr o n : Nat} {page : Page}

/-- A write of the host to BAR0 is a write to the page that its offset names. -/
theorem step_bar_write {v : BitVec 64} (ht : s.turns = .bar vf addr n (some v) :: ts) (hpage : pageAt vf addr = some (page, o)) :
    step s = exec (.configRegisterWrite page o n v) { s with steps := s.steps + 1, turns := ts } := by
  rw [step_turn ht]
  simp only [State.turn, State.barAccess, hpage]
  rfl

/-- A read of the host of BAR0 answers with the registers of the page that its offset names. -/
theorem step_bar_read (ht : s.turns = .bar vf addr n none :: ts) (hpage : pageAt vf addr = some (page, o)) :
    step s = .next { s with steps := s.steps + 1, turns := ts, answers := s.answers ++ [(32, .ok (s.readPage page o n))] } := by
  rw [step_turn ht]
  simp only [State.turn, State.barAccess, hpage]
  rfl

end Sys2Proof.Machine
end

section
/-! O56, part by part. -/
namespace Sys2Proof.Machine

variable {s : State} {p : Nat} (v : BitVec 64) (hs : s.sideband = true)
include hs

/-- Registers of the physical function's page that act as their events. -/
theorem exec_write_pf_trigger {o : Nat} {r : Host.Outcome State Fault Refusal} (hf : s.fns.has (pfKey p) = true)
    (ho : o % 8 = 0) (hp : o + 8 ≤ 0x1000) (ht : s.fnTrigger (pfKey p) o v = some r) :
    exec (.configRegisterWrite (.pf p) o 8 v) s = r :=
  (exec_write_pf v p hs hp).trans (fnWrite_trigger hf ho ht)

/-- Registers of the physical function's page that hold what is written. -/
theorem exec_write_pf_register {o : Nat} (put : BitVec 64 → FnPage) {x : BitVec 64} (hf : s.fns.has (pfKey p) = true)
    (hp : o + 8 ≤ 0x1000) (ht : s.fnTrigger (pfKey p) o v = none) (hx : put x = s.fn (pfKey p))
    (h : ∀ x b i, i < 8 → (put x).writeByte (o + i) b = put (setByteBv x i b)) :
    exec (.configRegisterWrite (.pf p) o 8 v) s = .next (s.modFn (pfKey p) fun _ => put v) :=
  (exec_write_pf v p hs hp).trans (fnWrite_register put hf ht hx h)

theorem exec_write_resumePc (hf : s.fns.has (pfKey p) = true) :
    exec (.configRegisterWrite (.pf p) 0x1E8 8 v) s =
      .next (s.modFn (pfKey p) fun _ => { s.fn (pfKey p) with resumePc := v }) :=
  exec_write_pf_register v hs (fun x => { s.fn (pfKey p) with resumePc := x }) hf (by omega) rfl rfl
    fun _ b _ hi => writeByte_resumePc b _ hi

theorem exec_write_ctxTable (hf : s.fns.has (pfKey p) = true) :
    exec (.configRegisterWrite (.pf p) 0x1F8 8 v) s =
      .next (s.modFn (pfKey p) fun _ => { s.fn (pfKey p) with ctxTable := v }) :=
  exec_write_pf_register v hs (fun x => { s.fn (pfKey p) with ctxTable := x }) hf (by omega) rfl rfl
    fun _ b _ hi => writeByte_ctxTable b _ hi

theorem exec_write_evBase (hf : s.fns.has (pfKey p) = true) :
    exec (.configRegisterWrite (.pf p) 0x1C0 8 v) s =
      .next (s.modFn (pfKey p) fun _ => { s.fn (pfKey p) with evBase := v }) :=
  exec_write_pf_register v hs (fun x => { s.fn (pfKey p) with evBase := x }) hf (by omega) rfl rfl
    fun _ b _ hi => writeByte_evBase b _ hi

theorem exec_write_mapBase (hp : s.parts.has p = true) (hq : (s.part p).size ≤ 32) :
    exec (.configRegisterWrite (.partition p) 0x200 8 v) s = .next (s.modPart p fun _ => { s.part p with mapBase := v }) :=
  exec_write_partition_register (fun x => { s.part p with mapBase := x }) hs hp (by omega) rfl
    fun _ b _ hi => writeByte_mapBase b _ hq hi

theorem exec_write_telemetry (hp : s.parts.has p = true) (hq : (s.part p).size ≤ 32) :
    exec (.configRegisterWrite (.partition p) 0x300 8 v) s =
      .next (s.modPart p fun _ => { s.part p with telemetry := v }) :=
  exec_write_partition_register (fun x => { s.part p with telemetry := x }) hs hp (by omega) rfl
    fun _ b _ hi => writeByte_telemetry b _ hq hi

theorem exec_write_boot_trigger {o : Nat} {r : Host.Outcome State Fault Refusal} (ho : o % 4 = 0) (hp : o + 4 ≤ 0x1000)
    (ht : s.bootTrigger o (v.extractLsb' 0 32) = some r) : exec (.configRegisterWrite .boot o 4 v) s = r :=
  (exec_write_boot v hs hp).trans (bootWrite_trigger ho ht)

end Sys2Proof.Machine
end

section
/-! O56: what a write to a register does, and what reads return. -/

open Sys2Proof Sys2Proof.Machine

/-- Settles O56: each register by the lemma of its page, trigger or store; each read by the place of its register. -/
theorem registerWrites : Obligations.RegisterWrites := by
  unfold Obligations.RegisterWrites
  intro s v p hs w v32 op fn
  refine ⟨fun h => exec_write_pf_unused v h, fun hf => ?triggers, fun hp hq => ?partition,
    fun h => exec_write_partition_unused v h,
    exec_write_boot_trigger v hs rfl (by omega) rfl,
    fun h => exec_write_boot_trigger v hs rfl (by omega) (by rw [show v.extractLsb' 0 32 = 1 from h]; rfl),
    fun h => exec_write_boot_trigger v hs rfl (by omega) (by rw [show v.extractLsb' 0 32 = 2 from h]; rfl),
    exec_write_boot_trigger v hs rfl (by omega) rfl, exec_write_boot_trigger v hs rfl (by omega) rfl,
    exec_write_boot_trigger v hs rfl (by omega) rfl,
    ⟨_, (exec_write_boot v hs (by omega)).trans (bootWrite_image s v), rfl⟩,
    fun page o n h => exec_write_ignored v page (.inr h), fun ts o n ho => ?bar, ?reads,
    fun page o n => exec_write_ignored v page (.inl rfl)⟩
  case triggers =>
    have trigger {o : Nat} {r} := exec_write_pf_trigger (o := o) (r := r) v hs hf
    have control := trigger rfl (by omega) (fnTrigger_control s v fn)
    have preempt := trigger rfl (by omega) (fnTrigger_preempt s v fn)
    obtain ⟨resume, resumeAtPc, resumeNext, resumeNoWatch, warpKill, otherControl⟩ := controlWrite_eq v hf
    obtain ⟨soft, halt, kill, withdraw, otherPreempt⟩ := preemptWrite_eq s v fn
    exact ⟨fun q hq => trigger (by omega) (by omega) (fnTrigger_doorbell s v fn hq),
      trigger rfl (by omega) (fnTrigger_retry s v fn), trigger rfl (by omega) (fnTrigger_flush s v fn),
      trigger rfl (by omega) (fnTrigger_tableBase s v p), trigger rfl (by omega) (fnTrigger_reply s v p),
      fun h => control.trans (resume h), fun h => control.trans (resumeAtPc h), fun h => control.trans (resumeNext h),
      fun h => control.trans (resumeNoWatch h), fun h => control.trans (warpKill h), fun h => control.trans (otherControl h),
      ⟨fun h => preempt.trans (soft h), fun h => preempt.trans (halt h), fun h => preempt.trans (kill h),
        fun h => preempt.trans (withdraw h), fun h => preempt.trans (otherPreempt h)⟩,
      ⟨_, exec_write_resumePc v hs hf, (fn_modFn ..).trans (if_pos rfl), rfl⟩,
      ⟨_, exec_write_ctxTable v hs hf, (fn_modFn ..).trans (if_pos rfl)⟩,
      ⟨_, exec_write_evBase v hs hf, (fn_modFn ..).trans (if_pos rfl)⟩⟩
  case partition =>
    exact ⟨⟨_, exec_write_mapBase v hs hp hq, (part_modPart ..).trans (if_pos rfl)⟩,
      ⟨_, exec_write_telemetry v hs hp hq, (part_modPart ..).trans (if_pos rfl)⟩⟩
  case bar =>
    exact ⟨fun hp h => step_bar_write h (pageAt_pf hp ho), fun hp h => step_bar_write h (pageAt_partition hp ho),
      fun h => step_bar_write h (pageAt_boot ho), fun h => step_bar_write h (pageAt_vf p ho),
      fun h => step_bar_read h (pageAt_boot ho), fun h => step_bar_read h (pageAt_vf p ho)⟩
  case reads =>
    exact ⟨read_bootStatus s hs, read_applyStatus s hs, read_offered s hs, read_enabled s hs,
      fun hf => ⟨read_time hs hf, read_flush hf, read_evTail hs hf, read_ctxTable hs hf, read_preempt hs hf⟩,
      fun h => readPage_unused (pageRegs_pf_unused h), fun h => readPage_unused (pageRegs_vf_unused h)⟩
end

section
/-! SUPPORT. A group-table entry: completing a phase, an arrival, a drop (01 R25, R26, R28); and O58. -/

namespace Sys2Proof.Machine

/-- The members that a fold counts are those that a filter keeps. -/
theorem popMembers_eq (m : BitVec 128) : popMembers m = ((List.range 128).filter fun n => m.getLsbD n).length := by
  have count (l : List Nat) (n : Nat) :
      l.foldl (fun n i => if m.getLsbD i then n + 1 else n) n = n + (l.filter fun n => m.getLsbD n).length := by
    induction l generalizing n with
    | nil => rfl
    | cons i l ih =>
      rw [List.foldl_cons, ih, List.filter_cons]
      split <;> simp [Nat.add_assoc, Nat.add_comm 1]
  simpa [popMembers] using count (List.range 128) 0

theorem popMembers_staying (members dropped : BitVec 128) : popMembers (members &&& ~~~dropped) =
    ((List.range 128).filter fun n => members.getLsbD n && !dropped.getLsbD n).length := by
  rw [popMembers_eq]
  congr 1
  refine List.filter_congr fun n hn => ?_
  simp [List.mem_range.1 hn]

/-! ### A status word -/

variable (g : GroupEntry) (n : Nat) (flags : Word)

/-- Flags enter the status word of the present phase (01 R25). -/
theorem orStatus_eq : g.orStatus flags = { g with
    status1 := if g.phase then g.status1 ||| flags else g.status1
    status0 := if g.phase then g.status0 else g.status0 ||| flags } := by
  unfold GroupEntry.orStatus GroupEntry.setStatus GroupEntry.status
  cases g.phase <;> rfl

/-- complete_phase, field by field (01 R26). -/
theorem completePhase_eq : g.completePhase = { g with
    phase := !g.phase, arrivedmask := 0, arrived := 0,
    status1 := if g.phase then g.status1 else 0, status0 := if g.phase then 0 else g.status0,
    expected := popMembers (g.members &&& ~~~g.dropped) } := by
  unfold GroupEntry.completePhase GroupEntry.setStatus
  cases g.phase <;> rfl

/-! ### An arrival and a drop -/

/-- An arrival: counted, its flags in the phase's status; the last expected one completes the phase (01 R25, R26). -/
theorem arrive_eq : g.arrive n flags =
    if g.arrived + 1 = g.expected then ((g.count n).orStatus flags).completePhase else (g.count n).orStatus flags := by
  simp only [GroupEntry.arrive, GroupEntry.judge, orStatus_eq, GroupEntry.count]

/-- The entry once block warp `n` has dropped it, before it is counted (01 R28). -/
def GroupEntry.leave (g : GroupEntry) (n : Nat) (flags : Word) : GroupEntry :=
  { g.orStatus flags with dropped := g.dropped ||| memberBit n }

theorem leave_eq : g.leave n flags = { g with
    dropped := g.dropped ||| memberBit n
    status1 := if g.phase then g.status1 ||| flags else g.status1
    status0 := if g.phase then g.status0 else g.status0 ||| flags } := by
  rw [GroupEntry.leave, orStatus_eq]

/-- A drop: a warp that has not arrived is counted, and the last expected arrival completes the phase (01 R28). -/
theorem drop_eq : g.drop n flags =
    if g.arrivedmask.getLsbD n then g.leave n flags
    else if g.arrived + 1 = g.expected then ((g.leave n flags).count n).completePhase
    else (g.leave n flags).count n := by
  simp only [GroupEntry.drop, GroupEntry.judge, GroupEntry.leave, orStatus_eq, GroupEntry.count]

/-- An arrival leaves a spent entry in its phase (01 R26). -/
theorem arrive_of_spent (h : g.expected = 0) :
    (g.arrive n flags).phase = g.phase ∧ (g.arrive n flags).expected = 0 := by
  rw [arrive_eq, if_neg (by omega), orStatus_eq]
  exact ⟨rfl, h⟩

/-- A drop leaves a spent entry in its phase (01 R26). -/
theorem drop_of_spent (h : g.expected = 0) :
    (g.drop n flags).phase = g.phase ∧ (g.drop n flags).expected = 0 := by
  rw [drop_eq, leave_eq]
  split
  · exact ⟨rfl, h⟩
  · rw [if_neg (by omega)]
    exact ⟨rfl, h⟩

/-- The last expected arrival flips the phase, and the members that have not dropped are expected in the next (01 R26). -/
theorem arrive_of_last (h : g.arrived + 1 = g.expected) : (g.arrive n flags).phase = (!g.phase) ∧
    (g.arrive n flags).expected = popMembers (g.members &&& ~~~g.dropped) := by
  simp only [arrive_eq, if_pos h, completePhase_eq, orStatus_eq, GroupEntry.count, and_self]

end Sys2Proof.Machine

open Sys2Proof Sys2Proof.Machine

/-- Settles O58: the expected count after a completion is the number of members that have not dropped, and a count of
arrivals that rises from 0 or more never meets an expected count of 0. -/
theorem phaseCompletion : Obligations.PhaseCompletion := by
  unfold Obligations.PhaseCompletion
  refine ⟨fun e => ?_, fun e n flags h => ?_, fun e n flags h => ?_⟩
  · rw [completePhase_eq, popMembers_staying]
  · obtain ⟨harrive, hleft⟩ := arrive_of_spent e n flags h
    obtain ⟨hdrop, hdropped⟩ := drop_of_spent e n flags h
    exact ⟨harrive, hleft, hdrop, hdropped⟩
  · rw [← popMembers_staying]
    exact arrive_of_last e n flags h

end

section
/-! SUPPORT. The words of BARSTAT and GRPQ (11 R235, R236); and O29. -/

namespace Sys2Proof.Machine

theorem bitAt_eq (b : Bool) (i : Nat) : bitAt b i = 2 ^ i * b.toNat := by cases b <;> simp [bitAt]

/-- The word of BARSTAT.cnt, bit by bit (11 R235). -/
theorem barCount_eq (g : GroupEntry) (n : Nat) : barCount g n =
    BitVec.ofNat 32 (g.arrived % 256 + 256 * (g.expected % 256) + 65536 * g.phase.toNat +
      131072 * (g.arrivedmask.getLsbD n).toNat + 262144 * (g.dropped.getLsbD n).toNat +
      524288 * (decide (g.expected = 0)).toNat) := by
  simp only [barCount, bitAt_eq, Nat.mul_comm (g.expected % 256)]
  rfl

/-- GRPQ reads a mask, the member count or the expected count (11 R236). -/
theorem grpqWord_eq (g : GroupEntry) (sel : Nat) : grpqWord g sel =
    if sel < 4 then g.members.extractLsb' (32 * sel) 32 else if sel < 8 then g.dropped.extractLsb' (32 * (sel - 4)) 32
    else if sel = 9 then BitVec.ofNat 32 ((List.range 128).filter fun n => g.members.getLsbD n).length
    else BitVec.ofNat 32 g.expected := by
  simp only [grpqWord, popMembers_eq]

theorem groupCount_eq (s : State) (w : Warp) : s.groupCount w = ((s.blocks.get? w.block).map (·.groups.length)).getD 0 := by
  simp only [State.groupCount, State.blockOf]
  cases s.blocks.get? w.block <;> rfl

end Sys2Proof.Machine

open Sys2Proof Sys2Proof.Machine
/-- Settles O29: both are completed by `finish`; the words of their selectors are compared one by one. -/
theorem barrierQueries : Obligations.BarrierQueries := by
  unfold Obligations.BarrierQueries
  intro h f
  constructor
  case left =>
    refine (completes_finish rfl fun s => rfl).congr fun s e _ => ?_
    funext l
    congr 1
    have counts : f.subop.extractLsb' 0 2 = 0 ↔ (f.subop.extractLsb' 0 2).toNat = 0 := BitVec.toNat_inj.symm
    have present : f.subop.extractLsb' 0 2 = 1 ↔ (f.subop.extractLsb' 0 2).toNat = 1 := BitVec.toNat_inj.symm
    cases s.group? e.w f.group.toNat with
    | none => rfl
    | some g =>
      simp only [counts, present, ← barCount_eq]
      split
      case h_1 hsel => rw [if_pos hsel]
      case h_2 hsel => rw [if_neg (by omega), if_pos hsel]; rfl
      case h_3 hcounts hpresent =>
        rw [if_neg hcounts, if_neg hpresent]
        cases hp : g.2.phase <;> simp [GroupEntry.status]
  case right =>
    refine (completes_finish rfl fun s => rfl).congr fun s e _ => ?_
    funext l
    have count : f.subop.extractLsb' 0 4 = 8 ↔ (f.subop.extractLsb' 0 4).toNat = 8 := BitVec.toNat_inj.symm
    simp only [groupCount_eq, grpqWord_eq, count] <;> rfl

end

section
/-! SUPPORT. Names that are owed a write: binding them, and completing the write (02 R42; 07 R135). -/

namespace Sys2Proof.Machine

/-! ### The frame of a write -/

/-- A warp that differs from `w` in its names and uniform registers alone. -/
def Warp.NamesOnly (w x : Warp) : Prop := x = { w with names := x.names, kregs := x.kregs }

variable (w : Warp)

theorem Warp.NamesOnly.trans {w x y : Warp} (h : w.NamesOnly x) (g : x.NamesOnly y) : w.NamesOnly y := by
  rw [Warp.NamesOnly] at *
  rw [g, h]

theorem namesOnly_writeNames (c : BitVec 3) (m : Mask) (v : Nat → List Word) (ds : List Nat) (j : Nat) :
    w.NamesOnly (w.writeNames c m v ds j) := by
  rw [Warp.NamesOnly, Warp.mk.injEq]
  simp

theorem namesOnly_foldl {f : Warp → Nat → Warp} (hf : ∀ w n, Warp.NamesOnly w (f w n)) (ns : List Nat) :
    w.NamesOnly (ns.foldl f w) := by
  induction ns generalizing w with
  | nil => rfl
  | cons n ns ih => exact (hf w n).trans (ih _)

/-! ### Pending names -/

/-- The cell of a name once a write is no longer owed to some names. -/
def settledCell (ns : List Nat) (n : Nat) (c : NameCell) : NameCell := if n ∈ ns then { c with pending := false } else c

/-- A warp to which no write is owed in some names. -/
def Warp.settle (w : Warp) (ns : List Nat) : Warp :=
  ns.foldl (fun w n => if w.names.has n then w.modName n fun c => { c with pending := false } else w) w

theorem get?_settle (ns : List Nat) (n : Nat) : (w.settle ns).names.get? n = (w.names.get? n).map (settledCell ns n) := by
  unfold Warp.settle
  induction ns generalizing w with
  | nil => cases h : w.names.get? n <;> simp [h, settledCell]
  | cons d ns ih =>
    rw [List.foldl_cons, ih]
    by_cases hd : d = n
    · subst hd
      cases h : w.names.get? d with
      | none => simp [Tab.has, h]
      | some c =>
        simp only [Tab.has, h, Option.isSome_some, if_true, get?_modName, Tab.getD, Option.getD_some, Option.map_some]
        simp [settledCell]
    · have : (if w.names.has d then w.modName d fun c => { c with pending := false } else w).names.get? n = w.names.get? n := by
        split
        · rw [get?_modName, if_neg hd]
        · rfl
      rw [this]
      congr 1
      funext c
      simp [settledCell, Ne.symm hd]

theorem namesOnly_settle (ns : List Nat) : w.NamesOnly (w.settle ns) :=
  namesOnly_foldl _ (fun w n => by split <;> rfl) ns

theorem count_settle (ns : List Nat) (n l : Nat) : (w.settle ns).count n l = w.count n l := by
  simp only [Warp.count, get?_settle]
  cases w.names.get? n with
  | none => rfl
  | some c => simp only [Option.map_some, settledCell]; split <;> rfl

theorem datum_settle (ns : List Nat) (n l : Nat) : (w.settle ns).datum n l = w.datum n l := by
  simp only [Warp.datum, get?_settle]
  cases w.names.get? n with
  | none => rfl
  | some c => simp only [Option.map_some, settledCell]; split <;> rfl

theorem pendingName_settle {ns : List Nat} {n : Nat} (h : n ∈ ns) : (w.settle ns).pendingName n = false := by
  simp only [Warp.pendingName, get?_settle]
  cases w.names.get? n with
  | none => rfl
  | some c => simp [settledCell, h]

/-! ### Binding a destination that is owed -/

theorem get?_bindPending (m : Mask) (ds : List Nat) (c : BitVec 3) (n : Nat) :
    (w.bindPending m ds c).names.get? n =
      if m ≠ 0 ∧ c ≠ 0 ∧ n ∈ ds ∧ isV n = true then some { w.names.getD n NameCell.fresh with pending := true }
      else w.names.get? n := by
  unfold Warp.bindPending
  split
  case isTrue h => rw [if_neg (by tauto)]
  case isFalse h =>
    rw [not_or] at h
    simp only [ne_eq, h.1, h.2, not_false_eq_true, true_and]
    induction ds generalizing w with
    | nil => simp
    | cons d ds ih =>
      rw [List.foldl_cons, ih]
      by_cases hd : n = d
      · subst hd
        cases hv : isV n
        · simp
        · by_cases hn : n ∈ ds <;> simp [hn, get?_modName, Tab.getD]
      · have : (if isV d then w.modName d fun c => { c with pending := true } else w).names.get? n = w.names.get? n := by
          split
          · rw [get?_modName, if_neg (Ne.symm hd)]
          · rfl
        simp [this, hd, Tab.getD]

theorem namesOnly_bindPending (m : Mask) (ds : List Nat) (c : BitVec 3) : w.NamesOnly (w.bindPending m ds c) := by
  unfold Warp.bindPending
  split
  · rfl
  · exact namesOnly_foldl _ (fun w n => by split <;> rfl) ds

theorem kregs_bindPending (m : Mask) (ds : List Nat) (c : BitVec 3) : (w.bindPending m ds c).kregs = w.kregs := by
  unfold Warp.bindPending
  split
  · rfl
  · induction ds generalizing w with
    | nil => rfl
    | cons d ds ih =>
      rw [List.foldl_cons, ih]
      split <;> rfl

theorem count_bindPending (m : Mask) (ds : List Nat) (c : BitVec 3) (n l : Nat) :
    (w.bindPending m ds c).count n l = w.count n l := by
  simp only [Warp.count, get?_bindPending, Tab.getD]
  by_cases hb : m ≠ 0 ∧ c ≠ 0 ∧ n ∈ ds ∧ isV n = true
  · rw [if_pos hb]
    cases w.names.get? n with
    | none => exact fresh_counts l
    | some _ => rfl
  · rw [if_neg hb]

theorem datum_bindPending (m : Mask) (ds : List Nat) (c : BitVec 3) (n l : Nat) :
    (w.bindPending m ds c).datum n l = w.datum n l := by
  simp only [Warp.datum, get?_bindPending, Tab.getD]
  by_cases hb : m ≠ 0 ∧ c ≠ 0 ∧ n ∈ ds ∧ isV n = true
  · rw [if_pos hb]
    cases w.names.get? n with
    | none => exact fresh_data l
    | some _ => rfl
  · rw [if_neg hb]

theorem pendingName_sweep (n : Nat) : w.sweep.pendingName n = w.pendingName n := by
  simp only [Warp.pendingName, get?_sweep]
  cases h : w.names.get? n with
  | none => rfl
  | some c =>
    cases hb : c.bound with
    | true => simp [Option.filter, hb]
    | false =>
      have hp : c.pending = false := by simp only [NameCell.bound, Bool.or_eq_false_iff] at hb; exact hb.1
      simp [Option.filter, hb, hp]

theorem pendingName_bindPending {m : Mask} {ds : List Nat} {c : BitVec 3} {n : Nat} (hm : m ≠ 0) (hc : c ≠ 0) (hn : n ∈ ds)
    (hv : isV n = true) : (w.bindPending m ds c).pendingName n = true := by
  simp only [Warp.pendingName, get?_bindPending]
  rw [if_pos ⟨hm, hc, hn, hv⟩]

/-! ### Completing an owed write -/

theorem clearStall_eq (p : StallKind → Bool) :
    w.clearStall p = { w with stall := (w.clearStall p).stall, timeout := (w.clearStall p).timeout } := by
  unfold Warp.clearStall
  repeat' split
  all_goals rfl

/-- The warp before its empty names are freed and its stall ends. -/
def Warp.given (w : Warp) (act : Mask) (d : Dest) (k : Nat) (v : Nat → List Word) : Warp :=
  let ns := constituents d.name k
  let w1 := w.writeNames d.count act v ns 0
  if isV d.name.toNat && d.count != 0 then w1.settle ns else w1

variable (act : Mask) (d : Dest) (k : Nat) (v : Nat → List Word)

theorem completeIn_eq : w.completeIn act d k v =
    (w.given act d k v).sweep.clearStall (StallKind.onNames (constituents d.name k)) := rfl

theorem namesOnly_given : w.NamesOnly (w.given act d k v) := by
  unfold Warp.given
  split
  · exact (namesOnly_writeNames ..).trans (namesOnly_settle ..)
  · exact namesOnly_writeNames ..

theorem completeIn_frame : w.completeIn act d k v = { w with
    names := (w.completeIn act d k v).names, kregs := (w.completeIn act d k v).kregs
    stall := (w.completeIn act d k v).stall, timeout := (w.completeIn act d k v).timeout } := by
  have h := namesOnly_given w act d k v
  rw [Warp.NamesOnly] at h
  rw [completeIn_eq, clearStall_eq, Warp.sweep, h]

theorem names_completeIn : (w.completeIn act d k v).names = (w.given act d k v).sweep.names := by
  rw [completeIn_eq, clearStall_eq]

theorem kregs_completeIn : (w.completeIn act d k v).kregs = (w.given act d k v).kregs := by
  rw [completeIn_eq, clearStall_eq]; rfl

theorem count_given (n : Nat) {l : Nat} (hl : l < 32) : (w.given act d k v).count n l =
    if n ∈ constituents d.name k ∧ isV n = true ∧ d.count ≠ 0 ∧ laneOn act l = true then d.count else w.count n l := by
  rw [← count_writeNames w d.count act v (constituents d.name k) 0 n hl, Warp.given]
  split
  · exact count_settle ..
  · rfl

theorem datum_given (n l : Nat) : (w.given act d k v).datum n l =
    (w.writeNames d.count act v (constituents d.name k) 0).datum n l := by
  rw [Warp.given]
  split
  · exact datum_settle ..
  · rfl

theorem kregs_given : (w.given act d k v).kregs = (w.writeNames d.count act v (constituents d.name k) 0).kregs := by
  rw [Warp.given]
  split
  · unfold Warp.settle
    generalize w.writeNames d.count act v (constituents d.name k) 0 = x
    induction constituents d.name k generalizing x with
    | nil => rfl
    | cons n ns ih =>
      rw [List.foldl_cons, ih]
      split <;> rfl
  · rfl

theorem count_completeIn (n : Nat) {l : Nat} (hl : l < 32) : (w.completeIn act d k v).count n l =
    if n ∈ constituents d.name k ∧ isV n = true ∧ d.count ≠ 0 ∧ laneOn act l = true then d.count else w.count n l := by
  rw [← count_given w act d k v n hl, ← count_sweep (w.given act d k v)]
  simp only [Warp.count, names_completeIn]

theorem datum_completeIn {n l : Nat} (h : (w.completeIn act d k v).count n l ≠ 0) : (w.completeIn act d k v).datum n l =
    (w.writeNames d.count act v (constituents d.name k) 0).datum n l := by
  have hd := datum_sweep (w.given act d k v) n l (by simpa only [Warp.count, names_completeIn] using h)
  rw [← datum_given, ← hd]
  simp only [Warp.datum, names_completeIn]

theorem kreg_completeIn {n : Nat} (hn : isK n = true) (l : Nat) : (w.completeIn act d k v).val n l =
    (w.writeNames d.count act v (constituents d.name k) 0).val n l := by
  rw [val_of_isK _ hn, val_of_isK _ hn, kregs_completeIn, kregs_given]

theorem pendingName_completeIn {n : Nat} (hn : n ∈ constituents d.name k) (hv : isV d.name.toNat = true) (hc : d.count ≠ 0) :
    (w.completeIn act d k v).pendingName n = false := by
  have : (w.given act d k v).pendingName n = false := by
    rw [Warp.given, if_pos (by simpa [hv] using hc)]
    exact pendingName_settle _ hn
  rw [← this, ← pendingName_sweep (w.given act d k v)]
  simp only [Warp.pendingName, names_completeIn]

end Sys2Proof.Machine

end

section
/-! SUPPORT. Replacing a group-table entry: the waits that its completed phase is due to, and what stays (01 R26, R27, R34). -/

namespace Sys2Proof.Machine

/-! ### The entry that a block-local index names -/

/-- Which entry an index names turns on the blocks and on the warp's block. -/
theorem groupKey?_congr {s t : State} {w x : Warp} (hb : t.blocks = s.blocks) (hw : x.block = w.block) (g : Nat) :
    t.groupKey? x g = s.groupKey? w g := by
  simp only [State.groupKey?, State.blockOf, hb, hw]

theorem group?_congr {s t : State} {w x : Warp} (hb : t.blocks = s.blocks) (hg : t.groups = s.groups) (hw : x.block = w.block)
    (g : Nat) : t.group? x g = s.group? w g := by
  simp only [State.group?, groupKey?_congr hb hw, hg]

theorem group?_eq_some {s : State} {w : Warp} {g k : Nat} {x : GroupEntry} :
    s.group? w g = some (k, x) ↔ s.groupKey? w g = some k ∧ s.groups.get? k = some x := by
  simp only [State.group?]
  cases s.groupKey? w g with
  | none => simp
  | some k' =>
    simp only [Option.map_eq_some_iff, Prod.mk.injEq, Option.some.injEq]
    constructor
    · rintro ⟨y, hy, rfl, rfl⟩; exact ⟨rfl, hy⟩
    · rintro ⟨rfl, hx⟩; exact ⟨x, hx, rfl, rfl⟩

/-! ### Waits that a completed phase is due to -/

theorem dueWait_congr {s s' t t' : State} {w w' : Warp} (hb : s'.blocks = s.blocks) (hg : s'.groups = s.groups)
    (ht : t'.groups = t.groups) (hw : w'.block = w.block) : dueWait s' t' w' = dueWait s t w := by
  funext x
  simp only [dueWait, group?_congr hb hg hw, ht]

theorem dueWarp_congr {s s' t t' : State} (hb : s'.blocks = s.blocks) (hg : s'.groups = s.groups)
    (ht : t'.groups = t.groups) : dueWarp s' t' = dueWarp s t := by
  funext w
  simp only [dueWarp, dueWait_congr hb hg ht (rfl : w.block = w.block)]

theorem dueCore_congr {s s' t t' : State} (hb : s'.blocks = s.blocks) (hg : s'.groups = s.groups)
    (ht : t'.groups = t.groups) : dueCore s' t' = dueCore s t := by
  funext k
  simp only [dueCore, dueWarp_congr hb hg ht]

/-- No wait is due where no entry's phase has changed. -/
theorem dueWait_of_phases {s t : State} (h : ∀ k a b, s.groups.get? k = some a → t.groups.get? k = some b → b.phase = a.phase)
    (w : Warp) (x : Wait) : dueWait s t w x = x := by
  unfold dueWait
  split
  · split
    · next hg =>
      split
      · next hb => exact if_neg fun hp => hp.2 ((h _ _ _ (group?_eq_some.1 hg).2 hb).trans hp.1)
      · rfl
    · rfl
  · rfl

theorem dueWarp_of_phases {s t : State} (h : ∀ k a b, s.groups.get? k = some a → t.groups.get? k = some b → b.phase = a.phase)
    (w : Warp) : dueWarp s t w = w := by
  have : dueWait s t w = id := funext (dueWait_of_phases h w)
  rw [dueWarp, this, List.map_id]

theorem dueCore_of_phases {s t : State} (h : ∀ k a b, s.groups.get? k = some a → t.groups.get? k = some b → b.phase = a.phase)
    (k : Core) : dueCore s t k = k := by
  have : (fun w : Nat × Warp => (w.1, dueWarp s t w.2)) = id := funext fun w => by rw [dueWarp_of_phases h]; rfl
  rw [dueCore, this, List.map_id]

theorem phases_of_groups {s t : State} (h : t.groups = s.groups) (k : Nat) (a b : GroupEntry) (ha : s.groups.get? k = some a)
    (hb : t.groups.get? k = some b) : b.phase = a.phase := by
  rw [h, ha] at hb
  cases hb
  rfl

/-! ### Replacing an entry -/

@[simp] theorem putGroup_groups (s : State) (k : Nat) (x : GroupEntry) : (s.putGroup k x).groups = s.groups.put k x := by
  simp only [State.putGroup]
  repeat' split
  all_goals rfl

@[simp] theorem putGroup_blocks (s : State) (k : Nat) (x : GroupEntry) : (s.putGroup k x).blocks = s.blocks := by
  simp only [State.putGroup]
  repeat' split
  all_goals rfl

theorem putGroup_state (s : State) (k : Nat) (x : GroupEntry) :
    s.putGroup k x = { s with
      cores := (s.putGroup k x).cores, parts := (s.putGroup k x).parts, groups := (s.putGroup k x).groups } := by
  simp only [State.putGroup]
  repeat' split
  all_goals rfl

variable {s : State} {k : Nat} {a : GroupEntry}

theorem putGroup_phases (h : s.groups.get? k = some a) {b : GroupEntry} (hp : a.phase = b.phase) (k' : Nat) (x y : GroupEntry)
    (hx : s.groups.get? k' = some x) (hy : (s.putGroup k b).groups.get? k' = some y) : y.phase = x.phase := by
  rw [putGroup_groups, Tab.get?_put] at hy
  split at hy
  · next hk =>
    subst hk
    rw [h] at hx
    cases hx; cases hy
    exact hp.symm
  · rw [hx] at hy; cases hy; rfl

/-- What the completion of a phase gives a wait is what `dueWait` says. -/
theorem noteWait_eq (h : s.groups.get? k = some a) {b : GroupEntry} (hp : a.phase ≠ b.phase) (w : Warp) :
    s.noteWait k a.phase (b.status a.phase) w = dueWait s (s.putGroup k b) w := by
  funext x
  cases hkind : x.kind
  case barrier g p _ _ =>
    simp only [State.noteWait, dueWait, hkind]
    cases hd : x.due with
    | some y => simp
    | none =>
      cases hg : s.group? w g with
      | none =>
        have hk : s.groupKey? w g ≠ some k := fun hk => by rw [group?_eq_some.2 ⟨hk, h⟩] at hg; cases hg
        simp [hk]
      | some q =>
        obtain ⟨k', c⟩ := q
        obtain ⟨hkey, hc⟩ := group?_eq_some.1 hg
        simp only [putGroup_groups, Tab.get?_put, hkey]
        by_cases hk : k = k'
        · subst hk
          rw [h] at hc
          cases hc
          by_cases hph : a.phase = p
          · subst hph; simp [Ne.symm hp, GroupEntry.status]
          · simp [hph, Ne.symm hph]
        · simp only [hk, if_false, hc]
          rw [if_neg (by simp [Ne.symm hk]), if_neg fun hx => hx.2 hx.1]
  all_goals simp only [State.noteWait, dueWait, hkind]

/-- Where an entry is replaced, every core's waits are due what its completed phase gives them. -/
theorem core_putGroup (h : s.groups.get? k = some a) (b : GroupEntry) (c : Nat) :
    (s.putGroup k b).core c = dueCore s (s.putGroup k b) (s.core c) := by
  by_cases hp : a.phase = b.phase
  · rw [dueCore_of_phases (putGroup_phases h hp)]
    simp only [State.putGroup, h, if_pos hp, State.core]
  · have cores : (s.putGroup k b).cores = s.cores.map fun c => (c.1, dueCore s (s.putGroup k b) c.2) := by
      simp only [dueCore, dueWarp, ← noteWait_eq h hp]
      simp only [State.putGroup, h, if_neg hp]
    have empty : dueCore s (s.putGroup k b) Core.reset = Core.reset := rfl
    simp only [State.core, Tab.getD, cores]
    rw [Tab.get?_mapVals s.cores c fun _ x => dueCore s (s.putGroup k b) x]
    cases s.cores.get? c with
    | none => exact empty.symm
    | some x => rfl

theorem warp?_putGroup (h : s.groups.get? k = some a) (b : GroupEntry) (c o : Nat) :
    (s.putGroup k b).warp? c o = (s.warp? c o).map (dueWarp s (s.putGroup k b)) := by
  simp only [State.warp?, core_putGroup h b]
  exact Tab.get?_mapVals (s.core c).warps o fun _ w => dueWarp s (s.putGroup k b) w

/-! ### What an operation on an entry leaves -/

/-- What an operation on group entries changes beside the warp in entry `slot` of core `c`: the entries, the waits that are due
(01 R27), and what telemetry counts. -/
structure GroupElse (s t : State) (c slot : Nat) : Prop where
  state : t = { s with cores := t.cores, parts := t.parts, groups := t.groups }
  cores : ∀ k, k ≠ c → t.core k = dueCore s t (s.core k)
  warps : ∀ o, o ≠ slot → t.warp? c o = (s.warp? c o).map (dueWarp s t)

variable {t u : State} {c o : Nat}

theorem SameElse.blocks (h : SameElse s t c o) : t.blocks = s.blocks := by rw [h.state]
theorem SameElse.groups (h : SameElse s t c o) : t.groups = s.groups := by rw [h.state]
theorem GroupElse.blocks (h : GroupElse s t c o) : t.blocks = s.blocks := by rw [h.state]

theorem SameElse.groupElse (h : SameElse s t c o) : GroupElse s t c o where
  state := by conv_lhs => rw [h.state]
              rw [← h.groups]
  cores k hk := (h.cores k hk).trans (dueCore_of_phases (phases_of_groups h.groups) _).symm
  warps i hi := by
    rw [h.warps i hi, funext (dueWarp_of_phases (phases_of_groups h.groups))]
    exact Option.map_id'.symm

theorem groupElse_putGroup (h : s.groups.get? k = some a) (b : GroupEntry) (c o : Nat) : GroupElse s (s.putGroup k b) c o where
  state := putGroup_state ..
  cores k' _ := core_putGroup h b k'
  warps i _ := warp?_putGroup h b c i

theorem SameElse.trans_groupElse (h : SameElse s t c o) (g : GroupElse t u c o) : GroupElse s u c o where
  state := by rw [g.state, h.state]
  cores k hk := by rw [g.cores k hk, h.cores k hk, dueCore_congr h.blocks h.groups rfl]
  warps i hi := by rw [g.warps i hi, h.warps i hi, dueWarp_congr h.blocks h.groups rfl]

theorem GroupElse.trans_sameElse (h : GroupElse s t c o) (g : SameElse t u c o) : GroupElse s u c o where
  state := by rw [g.state, h.state]
  cores k hk := by rw [g.cores k hk, h.cores k hk, dueCore_congr rfl rfl g.groups]
  warps i hi := by rw [g.warps i hi, h.warps i hi, dueWarp_congr rfl rfl g.groups]

end Sys2Proof.Machine

end

section
/-! SUPPORT. Waits that end with their destination written (01 R27; 07 R129), and what `Named` says of a warp. -/

namespace Sys2Proof

theorem Tab.put_put {α : Type} (t : Tab α) (k : Nat) (x y : α) : (t.put k x).put k y = t.put k y := by
  induction t with
  | nil => simp [Tab.put]
  | cons e t ih =>
    obtain ⟨j, z⟩ := e
    by_cases h1 : k < j
    · simp [Tab.put, h1]
    · by_cases h2 : j = k
      · subst h2; simp [Tab.put]
      · simp [Tab.put, h1, h2, ih]

end Sys2Proof

namespace Sys2Proof.Machine

/-! ### Updates of one warp after another -/

theorem setCore_setCore (s : State) (c : Nat) (j k : Core) : (s.setCore c j).setCore c k = s.setCore c k := by
  simp only [State.setCore, Tab.put_put]

theorem setWarp_setWarp (s : State) (c o : Nat) (x y : Warp) : (s.setWarp c o x).setWarp c o y = s.setWarp c o y := by
  simp only [State.setWarp, core_setCore_self, setCore_setCore, Tab.put_put]

theorem modWarp_eq {s : State} {c o : Nat} {w : Warp} (hw : s.warp? c o = some w) (f : Warp → Warp) :
    s.modWarp c o f = s.setWarp c o (f w) := by
  simp only [State.modWarp, hw]

theorem modWarp_setWarp (s : State) (c o : Nat) (x : Warp) (f : Warp → Warp) :
    (s.setWarp c o x).modWarp c o f = s.setWarp c o (f x) := by
  rw [modWarp_eq (warp?_setWarp_self ..), setWarp_setWarp]

/-! ### The lanes of an issue -/

theorem laneOn_act {s : State} {h : Hdr} {word : InsnWord} {e : Env} (he : env? s h word = some e) {l : Nat}
    (ho : laneOn e.act l = true) : laneOn e.frag l = true := by
  obtain ⟨-, -, -, -, -, hact⟩ := env?_spec he
  rw [hact, laneOn_and, Bool.and_eq_true] at ho
  exact ho.1

theorem laneOn_frag_live {w : Warp} {pc : PC} {m : Mask} (h : w.fragment = some (pc, m)) {l : Nat} (hl : l < 32)
    (ho : laneOn m l = true) : laneOn w.live l = true := by
  have := ((fragment_spec h hl).1 ho).1
  simp only [Warp.issuable] at this
  split at this
  · simp at this
  · simp only [laneOn_and, Bool.and_eq_true] at this
    exact this.1.1

/-- The active lanes of an issue live. -/
theorem act_live {s : State} {h : Hdr} {word : InsnWord} {e : Env} (he : env? s h word = some e) : e.act &&& e.w.live = e.act := by
  obtain ⟨-, -, -, -, hf, -⟩ := env?_spec he
  refine mask_ext fun l hl => ?_
  rw [laneOn_and]
  cases ho : laneOn e.act l
  · rfl
  · exact laneOn_frag_live hf hl (laneOn_act he ho)

theorem owedLanes_act {w : Warp} {n : BitVec 9} {c : BitVec 3} {m : Mask} (h : m &&& w.live = m) :
    w.owedLanes { name := n, count := c, lanes := m } = m := by
  unfold Warp.owedLanes
  split
  · split
    · next h0 => rw [← h, h0]; simp
    · rfl
  · exact h

/-! ### A wait that ends with its destination written -/

/-- The warp once a wait of some lanes has ended, its destination written. -/
def Warp.returned (w : Warp) (lanes : Mask) (d : Dest) (k : Nat) (v : List Word) : Warp :=
  { (w.complete d k fun _ => v).advance (lanes &&& w.live) with
    waits := w.waits.filter fun t => t.lanes &&& lanes == 0, stall := none, timeout := false }

theorem complete_frame (w : Warp) (d : Dest) (k : Nat) (v : Nat → List Word) : w.complete d k v = { w with
    names := (w.complete d k v).names, kregs := (w.complete d k v).kregs
    stall := (w.complete d k v).stall, timeout := (w.complete d k v).timeout } := completeIn_frame ..

theorem completeOwed_eq {s : State} {c o : Nat} {w : Warp} (hw : s.warp? c o = some w) (hev : w.evicted = false) (d : Dest)
    (k : Nat) (v : Nat → List Word) : s.completeOwed c o w.wid d k v = s.setWarp c o (w.complete d k v) := by
  simp [State.completeOwed, State.completeIn, State.modNames, hw, hev, Warp.complete]

/-- An owed write, and the end of the wait for it. -/
theorem endWait_completeOwed {s : State} {c o : Nat} {w : Warp} (hw : s.warp? c o = some w) (hev : w.evicted = false)
    (lanes : Mask) (d : Dest) (k : Nat) (v : List Word) :
    (s.completeOwed c o w.wid d k fun _ => v).endWait c o lanes = s.setWarp c o (w.returned lanes d k v) := by
  rw [completeOwed_eq hw hev, State.endWait, modWarp_setWarp, Warp.returned]
  have h := complete_frame w d k fun _ => v
  have hlive : (w.complete d k fun _ => v).live = w.live := by rw [h]
  have hwaits : (w.complete d k fun _ => v).waits = w.waits := by rw [h]
  rw [hlive, hwaits]

theorem returnBarrier_ready {s : State} {c o : Nat} {w : Warp} {g : Nat} {p : Bool} {due : Option Word} {x : Word}
    (hw : s.warp? c o = some w) (hev : w.evicted = false) (hx : s.barrierReady w g p due = some x) (lanes : Mask) (d : Dest) :
    s.returnBarrier c o lanes g p due d = (s.setWarp c o (w.returned lanes d 1 [x])).invalidate c := by
  simp only [State.returnBarrier, hw, hx, endWait_completeOwed hw hev]

theorem returnBarrier_waits {s : State} {c o : Nat} {w : Warp} {g : Nat} {p : Bool} {due : Option Word}
    (hw : s.warp? c o = some w) (hx : s.barrierReady w g p due = none) (lanes : Mask) (d : Dest) :
    s.returnBarrier c o lanes g p due d = s := by
  simp only [State.returnBarrier, hw, hx]

/-- A wait that is due nothing may end where the entry is in another phase (01 R27). -/
theorem barrierReady_none {s : State} {w : Warp} {g k : Nat} {x : GroupEntry} (hg : s.group? w g = some (k, x)) (p : Bool) :
    s.barrierReady w g p none = if x.phase = p then none else some (x.status p) := by
  simp only [State.barrierReady, hg]
  by_cases h : x.phase = p <;> simp [h]

/-! ### What `Named` says of a warp -/

variable {e : Env} {n : Needs} {w : Warp}

/-- A warp whose names hold what they held as the instruction issued, but for its destination. -/
theorem named_of_writes {v : Nat → List Word} {x : Warp}
    (hcount : ∀ d l, l < 32 → w.count d l =
      if d ∈ n.dests ∧ isV d = true ∧ n.count ≠ 0 ∧ laneOn e.act l = true then n.count else (e.issuedWarp n).count d l)
    (hdatum : ∀ d l, w.count d l ≠ 0 → w.datum d l = (x.writeNames n.count e.act v n.dests 0).datum d l)
    (hx : ∀ d l, x.count d l ≠ 0 → x.datum d l = e.w.datum d l)
    (hxc : ∀ d l, l < 32 → x.count d l = (e.issuedWarp n).count d l)
    (hkreg : ∀ d l, isK d = true → w.val d l = (x.writeNames n.count e.act v n.dests 0).val d l)
    (hxk : x.kregs = e.w.kregs) (hd : n.dests.Nodup) (hpreds : w.preds = e.w.preds) (hflags : w.aflags = e.w.aflags) :
    Named e n v {} w where
  value j d l hj hv hc hl ho := by
    have hn : w.count d l = n.count := (hcount d l hl).trans (if_pos ⟨List.mem_of_getElem? hj, hv, hc, ho⟩)
    refine ⟨?_, hn⟩
    rw [val_eq_datum _ hv, hdatum d l (hn ▸ hc), datum_writeNames _ _ _ _ _ _ j d hl hd hj hv hc ho, Nat.zero_add]
  uniform j d l hj hk ha := by
    rw [hkreg d l hk, kreg_writeNames _ _ _ _ _ _ j d l hd hj hk ha, Nat.zero_add]
  counts d l hl h := by
    rw [hcount d l hl, if_neg, count_issuedWarp e n d hl]
    · rfl
    · rintro ⟨hm, hv, hc, ho⟩
      rcases h hm hv with h | h
      · exact hc h
      · rw [h] at ho; cases ho
  values d l hv hl h hc := by
    have hcnt := hcount d l hl
    rw [if_neg (by rintro ⟨hm, -, hc, ho⟩; rcases h hm with h | h
                   · exact hc h
                   · rw [h] at ho; cases ho)] at hcnt
    rw [val_eq_datum _ hv, val_eq_datum _ hv, hdatum d l hc, datum_writeNames_other _ _ _ _ _ _ _ hl fun hm _ => h hm]
    exact hx d l (by rw [hxc d l hl, ← hcnt]; exact hc)
  uniforms d l hk h := by
    rw [hkreg d l hk, kreg_writeNames_other _ _ _ _ _ _ _ _ hk h, val_of_isK _ hk, val_of_isK _ hk, hxk]
  preds p l _ _ := by
    have : w.pred p = e.w.pred p := by simp only [Warp.pred, hpreds]
    rw [this]
    simp
  flags := by rw [hflags]; simp [keep_all]

/-- The warp that `finish` leaves, before it moves on and where nothing is written: empty names are freed. -/
theorem named_sweep (hd : n.dests = []) : Named e n (fun _ => []) {} (e.issuedWarp n).sweep :=
  named_of_writes (x := e.issuedWarp n) (fun d l _ => by rw [count_sweep]; simp [hd])
    (fun d l h => by rw [datum_sweep _ _ _ h, hd]; rfl) (fun d l _ => datum_issuedWarp e n d l) (fun _ _ _ => rfl)
    (fun d l hk => by rw [hd]; rw [val_of_isK _ hk, val_of_isK _ hk]; rfl) (by simp [Env.issuedWarp]) (by simp [hd])
    (by simp [Env.issuedWarp]) (by simp [Env.issuedWarp])

end Sys2Proof.Machine

end

section
/-! SUPPORT. Arrivals and drops as an instruction issues (01 R25, R28); and O27. -/

namespace Sys2Proof.Machine

/-! ### The issuing warp of a group instruction -/

/-- A warp that differs from the one that issues in its waits and last phases alone. -/
def Env.IssuedAs (e : Env) (n : Needs) (y : Warp) : Prop := y = { e.issuedWarp n with waits := y.waits, lastphase := y.lastphase }

variable {e : Env} {n : Needs} {y : Warp}

theorem Env.IssuedAs.named (hy : e.IssuedAs n y) (hd : n.dests = []) :
    Named e n (fun _ => []) {} (y.sweep.advance e.frag) := by
  rw [Env.IssuedAs] at hy
  rw [hy]
  exact (named_sweep hd).of_eq rfl rfl rfl rfl

theorem Env.IssuedAs.pc (hy : e.IssuedAs n y) (l : Nat) : y.pc l = (e.issuedWarp n).pc l := by
  rw [Env.IssuedAs] at hy
  rw [hy]
  rfl

theorem Env.IssuedAs.movedOn (hy : e.IssuedAs n y) (hf : e.w.fragment = some (e.pc, e.frag)) :
    MovedOn e (y.sweep.advance e.frag) := by
  intro l hl
  rw [pc_advance _ _ hl]
  have : y.sweep.pc l = (e.issuedWarp n).pc l := hy.pc l
  rw [this, pc_issuedWarp n hf hl]
  split <;> rfl

theorem issuedAs_due (e : Env) (n : Needs) (s t : State) : e.IssuedAs n (dueWarp s t (e.issuedWarp n)) := rfl

@[simp] theorem issuedWarp_block (e : Env) (n : Needs) : (e.issuedWarp n).block = e.w.block := by simp [Env.issuedWarp]
@[simp] theorem issuedWarp_number (e : Env) (n : Needs) : (e.issuedWarp n).number = e.w.number := by simp [Env.issuedWarp]
@[simp] theorem issuedWarp_lastphase (e : Env) (n : Needs) : (e.issuedWarp n).lastphase = e.w.lastphase := by simp [Env.issuedWarp]
@[simp] theorem issuedWarp_waits (e : Env) (n : Needs) : (e.issuedWarp n).waits = e.w.wakeZero.waits := rfl
@[simp] theorem issuedWarp_live (e : Env) (n : Needs) : (e.issuedWarp n).live = e.w.live := by simp [Env.issuedWarp]
@[simp] theorem issuedWarp_evicted (e : Env) (n : Needs) : (e.issuedWarp n).evicted = e.w.evicted := by simp [Env.issuedWarp]

/-! ### An operation on the entry that an index names, as an instruction issues -/

variable {s : State} {k : Nat} {g : GroupEntry} {i : Nat}

theorem group?_issued (hg : s.group? e.w i = some (k, g)) (n : Needs) : (s.issued e n).group? e.w i = some (k, g) :=
  (group?_congr (sameElse_issued s e n).blocks (sameElse_issued s e n).groups rfl i).trans hg

/-- The issuing warp, its waits due what the operation that takes the entry of key `k` to `b` gives them. -/
def State.putWarp (s : State) (e : Env) (n : Needs) (k : Nat) (b : GroupEntry) : Warp :=
  dueWarp (s.issued e n) ((s.issued e n).putGroup k b) (e.issuedWarp n)

theorem warp?_putGroup_issued (hg : s.group? e.w i = some (k, g)) (n : Needs) (b : GroupEntry) :
    ((s.issued e n).putGroup k b).warp? e.core e.slot = some (s.putWarp e n k b) := by
  rw [warp?_putGroup (group?_eq_some.1 (group?_issued hg n)).2, warp?_issued]
  rfl

theorem groupElse_putGroup_issued (hg : s.group? e.w i = some (k, g)) (n : Needs) (b : GroupEntry) :
    GroupElse s ((s.issued e n).putGroup k b) e.core e.slot :=
  (sameElse_issued s e n).trans_groupElse (groupElse_putGroup (group?_eq_some.1 (group?_issued hg n)).2 b ..)

theorem groups_putGroup_issued (s : State) (e : Env) (n : Needs) (k : Nat) (b : GroupEntry) :
    ((s.issued e n).putGroup k b).groups = s.groups.put k b := by
  rw [putGroup_groups, (sameElse_issued s e n).groups]

@[simp] theorem putWarp_number (s : State) (e : Env) (n : Needs) (k : Nat) (b : GroupEntry) :
    (s.putWarp e n k b).number = e.w.number := by simp [State.putWarp, dueWarp]

@[simp] theorem putWarp_lastphase (s : State) (e : Env) (n : Needs) (k : Nat) (b : GroupEntry) :
    (s.putWarp e n k b).lastphase = e.w.lastphase := by simp [State.putWarp, dueWarp]

/-- An arrival as an instruction issues (01 R25). -/
theorem arriveOn_issued {f : SF} (hg : s.group? e.w f.group.toNat = some (k, g)) (n : Needs) :
    (s.issued e n).arriveOn e f = ((s.issued e n).putGroup k (g.arrive e.w.number (flagWord e f))).setWarp e.core e.slot
      { s.putWarp e n k (g.arrive e.w.number (flagWord e f)) with
        lastphase := e.w.lastphase.put f.group.toNat g.phase } := by
  simp only [State.arriveOn, group?_issued hg, modWarp_eq (warp?_putGroup_issued hg n _), putWarp_lastphase]

/-- A drop as an instruction issues, and an update of its warp: where the warp has arrived already, lastphase stays (01 R28). -/
theorem dropOn_issued (hg : s.group? e.w i = some (k, g)) (n : Needs) (flags : Word) (f : Warp → Warp) :
    ((s.issued e n).dropOn e.core e.slot i flags).modWarp e.core e.slot f =
      ((s.issued e n).putGroup k (g.drop e.w.number flags)).setWarp e.core e.slot
        (f { s.putWarp e n k (g.drop e.w.number flags) with
          lastphase := if g.arrivedmask.getLsbD e.w.number then e.w.lastphase else e.w.lastphase.put i g.phase }) := by
  have hgroup : (s.issued e n).group? (e.issuedWarp n) i = some (k, g) :=
    (group?_congr rfl rfl (issuedWarp_block e n) i).trans (group?_issued hg n)
  simp only [State.dropOn, warp?_issued, hgroup, issuedWarp_number]
  split
  · rw [modWarp_eq (warp?_putGroup_issued hg n _), ← putWarp_lastphase s e n k (g.drop e.w.number flags)]
  · rw [modWarp_eq (warp?_putGroup_issued hg n _), modWarp_setWarp, putWarp_lastphase]

/-! ### What an arrival and a drop leave -/

/-- An operation that takes the entry of key `k` to `b`, and then moves the warp on with `x` as its last phases. -/
theorem putGroup_movedOn (hg : s.group? e.w i = some (k, g)) (hf : e.w.fragment = some (e.pc, e.frag)) {n : Needs}
    (hd : n.dests = []) (b : GroupEntry) (x : Tab Bool) {t : State} (ht : t = ((s.issued e n).putGroup k b).setWarp e.core e.slot
      (({ s.putWarp e n k b with lastphase := x } : Warp).sweep.advance e.frag)) :
    ∃ w, t.warp? e.core e.slot = some w ∧ Named e n (fun _ => []) {} w ∧ MovedOn e w ∧ w.lastphase = x ∧
      t.groups = s.groups.put k b ∧ GroupElse s t e.core e.slot := by
  have hy : e.IssuedAs n { s.putWarp e n k b with lastphase := x } := rfl
  subst ht
  exact ⟨_, warp?_setWarp_self .., hy.named hd, hy.movedOn hf, rfl, groups_putGroup_issued ..,
    (groupElse_putGroup_issued hg n b).trans_sameElse (sameElse_setWarp ..)⟩

/-- Where BARARR issues with an active lane (01 R25). -/
theorem bararr_spec {h : Hdr} {f : SF} (hr : Ready s (.bararr h f) e) (ha : e.act ≠ 0)
    (hg : s.group? e.w f.group.toNat = some (k, g)) :
    ∃ t w, exec (.bararr h f) s = .next t ∧ t.warp? e.core e.slot = some w ∧
      Named e (needs (.bararr h f) s) (fun _ => []) {} w ∧ MovedOn e w ∧
      w.lastphase = e.w.lastphase.put f.group.toNat g.phase ∧
      t.groups = s.groups.put k (g.arrive e.w.number (flagWord e f)) ∧ GroupElse s t e.core e.slot := by
  have ht := exec_next (h := h) rfl (k := fun e s' =>
    (if e.act = 0 then s' else s'.arriveOn e f).modWarp e.core e.slot fun w => w.sweep.advance e.frag) rfl hr
  rw [if_neg ha, arriveOn_issued hg, modWarp_setWarp] at ht
  obtain ⟨w, hw⟩ := putGroup_movedOn hg hr.env.2 (n := needs (.bararr h f) s) rfl (g.arrive e.w.number (flagWord e f))
    (e.w.lastphase.put f.group.toNat g.phase) rfl
  exact ⟨_, w, ht, hw⟩

/-- Where BARDROP issues with an active lane (01 R28). -/
theorem bardrop_spec {h : Hdr} {f : SF} (hr : Ready s (.bardrop h f) e) (ha : e.act ≠ 0)
    (hg : s.group? e.w f.group.toNat = some (k, g)) :
    ∃ t w, exec (.bardrop h f) s = .next t ∧ t.warp? e.core e.slot = some w ∧
      Named e (needs (.bardrop h f) s) (fun _ => []) {} w ∧ MovedOn e w ∧
      w.lastphase = (if g.arrivedmask.getLsbD e.w.number then e.w.lastphase
        else e.w.lastphase.put f.group.toNat g.phase) ∧
      t.groups = s.groups.put k (g.drop e.w.number (flagWord e f)) ∧ GroupElse s t e.core e.slot := by
  have ht := exec_next (h := h) rfl (k := fun e s' =>
    (if e.act = 0 then s' else s'.dropOn e.core e.slot f.group.toNat (flagWord e f)).modWarp e.core e.slot
      fun w => w.sweep.advance e.frag) rfl hr
  rw [if_neg ha, dropOn_issued hg] at ht
  obtain ⟨w, hw⟩ := putGroup_movedOn hg hr.env.2 (n := needs (.bardrop h f) s) rfl (g.drop e.w.number (flagWord e f)) _ rfl
  exact ⟨_, w, ht, hw⟩

/-! ### Faults -/

/-- The fault of a group instruction that its entry refuses. -/
def groupFault (e : Env) (c : BitVec 8) : Option Raise := some { code := c, lanes := e.frag, addr := 0, info := 0 }

theorem groupEntryCheck_none {f : SF} (hg : s.group? e.w f.group.toNat = none) (own : Env → GroupEntry → Option (BitVec 8)) :
    groupEntryCheck s f own e = groupFault e 0x0A := by
  simp only [groupEntryCheck, hg]
  rfl

theorem groupEntryCheck_idle {f : SF} (hg : s.group? e.w f.group.toNat = some (k, g)) (ha : e.act = 0)
    (own : Env → GroupEntry → Option (BitVec 8)) : groupEntryCheck s f own e = none := by
  simp only [groupEntryCheck, hg, if_pos ha]

theorem groupEntryCheck_active {f : SF} (hg : s.group? e.w f.group.toNat = some (k, g)) (ha : e.act ≠ 0)
    (own : Env → GroupEntry → Option (BitVec 8)) : groupEntryCheck s f own e = (own e g).bind (groupFault e) := by
  simp only [groupEntryCheck, hg, if_neg ha]
  cases own e g <;> rfl

/-- What an arrival faults with (01 R25). -/
theorem arriveFault_bind (g : GroupEntry) (n : Nat) (e : Env) : (g.arriveFault n).bind (groupFault e) =
    if g.dropped.getLsbD n then groupFault e 0x19
    else if g.members.getLsbD n = false ∨ g.arrivedmask.getLsbD n then groupFault e 0x18 else none := by
  unfold GroupEntry.arriveFault
  cases g.dropped.getLsbD n <;> cases g.members.getLsbD n <;> cases g.arrivedmask.getLsbD n <;> rfl

/-- What a drop faults with (01 R28). -/
theorem dropFault_bind (g : GroupEntry) (n : Nat) (e : Env) : (g.dropFault n).bind (groupFault e) =
    if g.dropped.getLsbD n then groupFault e 0x19
    else if g.members.getLsbD n = false then groupFault e 0x18 else none := by
  unfold GroupEntry.dropFault
  cases g.dropped.getLsbD n <;> cases g.members.getLsbD n <;> rfl

/-- What a wait faults with (01 R27). -/
theorem waitFault_bind (g : GroupEntry) (n : Nat) (last : Option Bool) (e : Env) : (waitFault g n last).bind (groupFault e) =
    if g.dropped.getLsbD n then groupFault e 0x19 else if last = none then groupFault e 0x18 else none := by
  unfold waitFault
  cases g.dropped.getLsbD n <;> cases last <;> rfl

end Sys2Proof.Machine

open Sys2Proof Sys2Proof.Machine

/-- Settles O27: what the operation makes of the entry, and what replacing the entry leaves of everything else. -/
theorem arrivalsAndDrops : Obligations.ArrivalsAndDrops := by
  unfold Obligations.ArrivalsAndDrops
  constructor
  case left =>
    intro h f s e k g ha hg
    refine ⟨(groupEntryCheck_active hg ha fun e g => g.arriveFault e.w.number).trans (arriveFault_bind g _ e), fun hr => ?_⟩
    obtain ⟨t, w, ht, hw, hnamed, hmoved, hlast, hgroups, helse⟩ := bararr_spec hr ha hg
    refine ⟨t, w, ht, hw, hnamed, hmoved, hlast, ?_, helse.state, helse.cores, helse.warps⟩
    rw [hgroups, arrive_eq, completePhase_eq, orStatus_eq]
    rfl
  case right =>
    intro h f s e k g ha hg
    refine ⟨(groupEntryCheck_active hg ha fun e g => g.dropFault e.w.number).trans (dropFault_bind g _ e), fun hr => ?_⟩
    obtain ⟨t, w, ht, hw, hnamed, hmoved, hlast, hgroups, helse⟩ := bardrop_spec hr ha hg
    refine ⟨t, w, ht, hw, hnamed, hmoved, hlast, ?_, helse.state, helse.cores, helse.warps⟩
    rw [hgroups, drop_eq, completePhase_eq, leave_eq]
    rfl

end

section
/-! SUPPORT. Lanes that begin to wait, and lanes whose wait ends as it begins (01 R10, R27; 07 R129). -/

namespace Sys2Proof.Machine

/-! ### No active lane -/

theorem writeName_idle (w : Warp) (d : Nat) (c : BitVec 3) (v : Nat → Word) : w.writeName d c 0 v = w := if_pos rfl

theorem writeNames_idle (w : Warp) (c : BitVec 3) (v : Nat → List Word) (ds : List Nat) (j : Nat) :
    w.writeNames c 0 v ds j = w := by
  induction ds generalizing w j with
  | nil => rfl
  | cons d ds ih => rw [Warp.writeNames, writeName_idle, ih]

/-- With no active lane nothing is written: empty names are freed, and the fragment moves on. -/
theorem finished_idle {e : Env} (ha : e.act = 0) (n : Needs) (v : Nat → List Word) :
    e.finished n v = (e.issuedWarp n).sweep.advance e.frag := by
  rw [Env.finished, ha, writeNames_idle]

theorem written_idle {e : Env} {n : Needs} (ha : e.act = 0) (hf : e.w.fragment = some (e.pc, e.frag)) (hd : n.dests.Nodup)
    (v : Nat → List Word) : Written e n v {} ((e.issuedWarp n).sweep.advance e.frag) :=
  finished_idle ha n v ▸ written_finish hf hd

/-! ### Lanes that begin to wait -/

/-- The warp whose active lanes begin to wait, their destination owed (01 R10; 07 R129). -/
def Warp.suspendedFor (y : Warp) (e : Env) (k : WaitKind) (n : Needs) (since : Nat) : Warp :=
  { (y.bindPending e.act n.dests n.count).sweep.advance (e.frag &&& ~~~e.act) with
    waits := y.waits ++ [{ lanes := e.act, kind := k, since := since }] }

theorem beginWait_eq {s : State} {e : Env} {y : Warp} (hw : s.warp? e.core e.slot = some y) (k : WaitKind) (n : Needs) :
    s.beginWait e k n.dests n.count = s.setWarp e.core e.slot (y.suspendedFor e k n s.cycle) := by
  have h : (y.bindPending e.act n.dests n.count).waits = y.waits := by
    rw [show y.bindPending e.act n.dests n.count = _ from namesOnly_bindPending ..]
  simp only [State.beginWait, modWarp_eq hw, Warp.suspendedFor, advance_waits, sweep_waits, h]

variable {e : Env} {n : Needs} {y : Warp} {k : WaitKind} {since : Nat}

theorem suspendedFor_frame (y : Warp) (e : Env) (k : WaitKind) (n : Needs) (since : Nat) : y.suspendedFor e k n since = { y with
    names := (y.suspendedFor e k n since).names, pcs := (y.suspendedFor e k n since).pcs
    waits := (y.suspendedFor e k n since).waits } := by
  have h : y.bindPending e.act n.dests n.count = _ := namesOnly_bindPending ..
  rw [kregs_bindPending] at h
  rw [Warp.suspendedFor, Warp.advance, Warp.setPcs, Warp.sweep]
  rw [h]

theorem count_suspendedFor (d l : Nat) : (y.suspendedFor e k n since).count d l = y.count d l :=
  (count_sweep (y.bindPending e.act n.dests n.count) d l).trans (count_bindPending ..)

theorem datum_suspendedFor {d l : Nat} (h : y.count d l ≠ 0) : (y.suspendedFor e k n since).datum d l = y.datum d l :=
  (datum_sweep (y.bindPending e.act n.dests n.count) d l (by rw [count_sweep, count_bindPending]; exact h)).trans
    (datum_bindPending ..)

theorem Env.IssuedAs.count (hy : e.IssuedAs n y) (d l : Nat) : y.count d l = (e.issuedWarp n).count d l := by
  rw [Env.IssuedAs] at hy
  rw [hy]
  rfl

theorem Env.IssuedAs.datum (hy : e.IssuedAs n y) (d l : Nat) : y.datum d l = e.w.datum d l := by
  rw [Env.IssuedAs] at hy
  rw [hy]
  exact datum_issuedWarp e n d l

/-- The uniform registers, predicates, flags and live lanes of an issuing warp. -/
theorem Env.IssuedAs.rest (hy : e.IssuedAs n y) :
    y.kregs = e.w.kregs ∧ y.preds = e.w.preds ∧ y.aflags = e.w.aflags ∧ y.live = e.w.live := by
  rw [Env.IssuedAs] at hy
  rw [hy]
  simp [Env.issuedWarp]

theorem owed_suspendedFor (hy : e.IssuedAs n y) (k : WaitKind) (since : Nat) : Owed e n (y.suspendedFor e k n since) where
  toNamed := by
    obtain ⟨hkregs, hpreds, hflags, -⟩ := hy.rest
    have hfr := suspendedFor_frame y e k n since
    have hkr : (y.suspendedFor e k n since).kregs = y.kregs := by rw [hfr]
    have hpr : (y.suspendedFor e k n since).preds = y.preds := by rw [hfr]
    have hfl : (y.suspendedFor e k n since).aflags = y.aflags := by rw [hfr]
    refine named_of_writes (n := { n with dests := [] }) (x := y) (fun d l _ => ?_) (fun d l h => ?_)
      (fun d l _ => hy.datum d l) (fun d l _ => hy.count d l) (fun d l hk => ?_) hkregs List.nodup_nil
      (hpr.trans hpreds) (hfl.trans hflags)
    · rw [count_suspendedFor, hy.count, if_neg (by simp)]
      rfl
    · rw [datum_suspendedFor (by rwa [count_suspendedFor] at h)]
      rfl
    · rw [val_of_isK _ hk, hkr, ← val_of_isK y hk l]
      rfl
  pending ha hc d hd hv := by
    refine (pendingName_sweep (y.bindPending e.act n.dests n.count) d).trans ?_
    exact pendingName_bindPending _ ha hc hd hv

/-! ### Where the lanes stand -/

theorem pc_of_frag (hf : e.w.fragment = some (e.pc, e.frag)) {l : Nat} (hl : l < 32) (ho : laneOn e.frag l = true) :
    e.w.wakeZero.pc l = e.pc :=
  (pc_wakeZero _ hl (fragment_waiting hf hl ho)).trans ((fragment_spec hf hl).1 ho).2

theorem Env.IssuedAs.pc_eq (hy : e.IssuedAs n y) (l : Nat) : y.pc l = e.w.wakeZero.pc l := by
  rw [hy.pc]
  rfl

theorem pc_suspendedFor (hy : e.IssuedAs n y) (hf : e.w.fragment = some (e.pc, e.frag)) {l : Nat} (hl : l < 32) :
    (y.suspendedFor e k n since).pc l =
      if laneOn e.frag l = true ∧ laneOn e.act l = false then nextPc e.pc else e.w.wakeZero.pc l := by
  have hb : (y.bindPending e.act n.dests n.count).sweep.pc l = y.pc l := by
    rw [show y.bindPending e.act n.dests n.count = _ from namesOnly_bindPending ..]
    rfl
  have hp : (y.suspendedFor e k n since).pc l =
      ((y.bindPending e.act n.dests n.count).sweep.advance (e.frag &&& ~~~e.act)).pc l := rfl
  rw [hp, pc_advance _ _ hl, hb, hy.pc_eq, laneOn_and, laneOn_not _ hl]
  by_cases h : laneOn e.frag l = true ∧ laneOn e.act l = false
  · rw [if_pos h, if_pos (by simp [h]), pc_of_frag hf hl h.1]
  · rw [if_neg h, if_neg (by simpa using h)]

theorem suspended_suspendedFor (hy : e.IssuedAs n y) (hw : y.waits = e.w.wakeZero.waits)
    (hf : e.w.fragment = some (e.pc, e.frag)) (k : WaitKind) (since : Nat) : Suspended e k since (y.suspendedFor e k n since) :=
  ⟨by rw [← hw]; rfl, fun _ hl => pc_suspendedFor hy hf hl⟩

/-! ### Lanes whose wait ends as it begins -/

section
variable {d : Dest} {j : Nat} {v : List Word}

/-- The warp whose active lanes begin to wait and return at once (01 R27). -/
def Warp.waitedFor (y : Warp) (e : Env) (k : WaitKind) (n : Needs) (since : Nat) (d : Dest) (j : Nat) (v : List Word) : Warp :=
  (y.suspendedFor e k n since).returned e.act d j v

theorem live_suspendedFor (hy : e.IssuedAs n y) : (y.suspendedFor e k n since).live = e.w.live := by
  rw [suspendedFor_frame]
  exact hy.rest.2.2.2

theorem complete_suspendedFor (hy : e.IssuedAs n y) (hd : d.lanes = e.act) (hlive : e.act &&& e.w.live = e.act) :
    (y.suspendedFor e k n since).complete d j (fun _ => v) =
      (y.suspendedFor e k n since).completeIn e.act d j fun _ => v := by
  obtain ⟨name, count, lanes⟩ := d
  subst hd
  rw [Warp.complete, owedLanes_act]
  rw [live_suspendedFor hy, hlive]

theorem movedOn_waitedFor (hy : e.IssuedAs n y) (hf : e.w.fragment = some (e.pc, e.frag)) (hlive : e.act &&& e.w.live = e.act)
    (hsub : ∀ l, laneOn e.act l = true → laneOn e.frag l = true) :
    MovedOn e (y.waitedFor e k n since d j v) := by
  intro l hl
  have hb : ((y.suspendedFor e k n since).complete d j fun _ => v).pc l = (y.suspendedFor e k n since).pc l := by
    rw [complete_frame]
    rfl
  have hp : (y.waitedFor e k n since d j v).pc l =
      (((y.suspendedFor e k n since).complete d j fun _ => v).advance (e.act &&& (y.suspendedFor e k n since).live)).pc l := rfl
  rw [hp, pc_advance _ _ hl, hb, live_suspendedFor hy, hlive, pc_suspendedFor hy hf hl]
  cases ha : laneOn e.act l
  · simp
  · have := hsub l ha
    simp [this, pc_of_frag hf hl this]

theorem waits_waitedFor (ha : e.act ≠ 0) : (y.waitedFor e k n since d j v).waits =
    y.waits.filter fun t => t.lanes &&& e.act == 0 := by
  have h : (y.waitedFor e k n since d j v).waits = (y.suspendedFor e k n since).waits.filter fun t => t.lanes &&& e.act == 0 := rfl
  rw [h, Warp.suspendedFor]
  simpa using ha

theorem named_waitedFor (hy : e.IssuedAs n y) (hdests : n.dests = constituents d.name j) (hcount : n.count = d.count)
    (hd : d.lanes = e.act) (hlive : e.act &&& e.w.live = e.act) :
    Named e n (fun _ => v) {} (y.waitedFor e k n since d j v) := by
  obtain ⟨hkregs, hpreds, hflags, -⟩ := hy.rest
  have hfr := suspendedFor_frame y e k n since
  have hnames : Named e n (fun _ => v) {} ((y.suspendedFor e k n since).completeIn e.act d j fun _ => v) := by
    refine named_of_writes (x := y.suspendedFor e k n since) (fun a l hl => ?_) (fun a l h => ?_) (fun a l h => ?_)
      (fun a l _ => ?_) (fun a l hk => ?_) ?_ (hdests ▸ constituents_nodup ..) ?_ ?_
    · rw [count_completeIn _ _ _ _ _ _ hl, count_suspendedFor, hy.count, hdests, hcount]
    · rw [datum_completeIn _ _ _ _ _ h, hdests, hcount]
    · rw [datum_suspendedFor (by rwa [count_suspendedFor] at h), hy.datum]
    · rw [count_suspendedFor, hy.count]
    · rw [kreg_completeIn _ _ _ _ _ hk, hdests, hcount]
    · rw [hfr]; exact hkregs
    · rw [completeIn_frame, hfr]; exact hpreds
    · rw [completeIn_frame, hfr]; exact hflags
  rw [← complete_suspendedFor hy hd hlive] at hnames
  exact hnames.of_eq rfl rfl rfl rfl

end

/-! ### A barrier wait -/

/-- A barrier wait that begins: the lanes wait where the phase of lastphase is the entry's, and return at once where it is
not (01 R27). -/
theorem barrierWait_eq {u : State} {h : Hdr} {f : SF} {b : GroupEntry} {q : Nat} (hw : u.warp? e.core e.slot = some y)
    (hev : y.evicted = false) (ha : e.act ≠ 0) (hg : u.group? y f.group.toNat = some (q, b))
    (hdests : n.dests = constituents h.dest 1) (hcount : n.count = h.count) (sync : Bool) :
    let p := y.lastphase.getD f.group.toNat false
    let d : Dest := { name := h.dest, count := h.count, lanes := e.act }
    let k : WaitKind := .barrier f.group.toNat p sync d
    u.barrierWait e h f sync = if b.phase = p then u.setWarp e.core e.slot (y.suspendedFor e k n u.cycle)
      else (u.setWarp e.core e.slot (y.waitedFor e k n u.cycle d 1 [b.status p])).invalidate e.core := by
  intro p d k
  have hp : u.waitPhase e.core e.slot f.group.toNat = p := by simp only [State.waitPhase, hw]; rfl
  have hg' : (u.setWarp e.core e.slot (y.suspendedFor e k n u.cycle)).group? (y.suspendedFor e k n u.cycle) f.group.toNat =
      some (q, b) := (group?_congr rfl rfl (by rw [suspendedFor_frame]) _).trans hg
  have hready := barrierReady_none hg' p
  have hev' : (y.suspendedFor e k n u.cycle).evicted = false := by rw [suspendedFor_frame]; exact hev
  have hb : u.beginWait e k (constituents h.dest 1) h.count = u.setWarp e.core e.slot (y.suspendedFor e k n u.cycle) := by
    rw [← hdests, ← hcount]
    exact beginWait_eq hw k n
  have hwait : u.barrierWait e h f sync =
      (u.setWarp e.core e.slot (y.suspendedFor e k n u.cycle)).returnBarrier e.core e.slot e.act f.group.toNat p none d := by
    rw [← hb, State.barrierWait, if_neg ha, hp]
  rw [hwait]
  split
  · next hph =>
    rw [if_pos hph] at hready
    exact returnBarrier_waits (warp?_setWarp_self ..) hready ..
  · next hph =>
    rw [if_neg hph] at hready
    rw [returnBarrier_ready (warp?_setWarp_self ..) hev' hready, setWarp_setWarp]
    rfl

end Sys2Proof.Machine

end

section
/-! SUPPORT. BARWAIT and BARSYNC (01 R27, R31; 11 R234); and O28. -/

namespace Sys2Proof.Machine

variable {e : Env} {n : Needs} {y : Warp} {s : State} {h : Hdr} {f : SF} {k : Nat} {g : GroupEntry}

theorem lastphase_suspendedFor (m : WaitKind) (since : Nat) : (y.suspendedFor e m n since).lastphase = y.lastphase := by
  rw [suspendedFor_frame]

theorem lastphase_waitedFor (m : WaitKind) (since : Nat) (d : Dest) (j : Nat) (v : List Word) :
    (y.waitedFor e m n since d j v).lastphase = y.lastphase := by
  have h : (y.waitedFor e m n since d j v).lastphase = ((y.suspendedFor e m n since).complete d j fun _ => v).lastphase := rfl
  rw [h, complete_frame]
  exact lastphase_suspendedFor m since

theorem Ready.issues {s : State} {i : Instr} {e : Env} (hr : Ready s i e) : ∃ h, hdrOf i = some h ∧
    env? s h ((encode i).getD 0) = some e := by
  obtain ⟨h, hh, hi⟩ := hr
  exact ⟨h, hh, hi.1⟩

theorem Ready.act_live {s : State} {i : Instr} {e : Env} (hr : Ready s i e) : e.act &&& e.w.live = e.act := by
  obtain ⟨h, -, he⟩ := hr.issues
  exact Machine.act_live he

theorem Ready.act_frag {s : State} {i : Instr} {e : Env} (hr : Ready s i e) (l : Nat) (ho : laneOn e.act l = true) :
    laneOn e.frag l = true := by
  obtain ⟨h, -, he⟩ := hr.issues
  exact laneOn_act he ho

theorem Ready.evicted {s : State} {i : Instr} {e : Env} (hr : Ready s i e) : e.w.evicted = false := by
  obtain ⟨h, -, he⟩ := hr.issues
  exact (env?_spec he).2.2.2.1

/-- A group instruction issues on a group that its block has (01 R22). -/
theorem group_of_entry {own : Env → GroupEntry → Option (BitVec 8)} (hn : groupEntryCheck s f own e = none) :
    ∃ k g, s.group? e.w f.group.toNat = some (k, g) ∧ (e.act ≠ 0 → own e g = none) := by
  unfold groupEntryCheck at hn
  cases hg : s.group? e.w f.group.toNat with
  | none => rw [hg] at hn; cases hn
  | some q =>
    rw [hg] at hn
    refine ⟨q.1, q.2, rfl, fun ha => ?_⟩
    dsimp only at hn
    rw [if_neg ha] at hn
    exact Option.map_eq_none_iff.1 hn

/-- With no active lane a barrier wait only moves on. -/
theorem barrierWait_idle (ha : e.act = 0) (u : State) (h : Hdr) (f : SF) (sync : Bool) :
    u.barrierWait e h f sync = u.modWarp e.core e.slot fun w => w.sweep.advance e.frag := if_pos ha

/-- Where BARWAIT issues with an active lane (01 R27). -/
theorem barwait_spec (hr : Ready s (.barwait h f) e) (ha : e.act ≠ 0) (hg : s.group? e.w f.group.toNat = some (k, g)) {p : Bool}
    (hp : e.w.lastphase.get? f.group.toNat = some p) :
    ∃ t w, exec (.barwait h f) s = .next t ∧ t.warp? e.core e.slot = some w ∧
      (g.phase = p → Owed e (needs (.barwait h f) s) w ∧
        Suspended e (.barrier f.group.toNat p false { name := h.dest, count := h.count, lanes := e.act }) s.cycle w) ∧
      (g.phase ≠ p → (t.core e.core).l1 = [] ∧ MovedOn e w ∧ w.waits = e.w.wakeZero.waits.filter (fun x => x.lanes &&& e.act == 0) ∧
        Named e (needs (.barwait h f) s) (fun _ => [if p then g.status1 else g.status0]) {} w) ∧
      SameElse s t e.core e.slot := by
  let n := needs (.barwait h f) s
  have hy : e.IssuedAs n (e.issuedWarp n) := rfl
  have ht := exec_next (h := h) rfl (k := fun e s' => s'.barrierWait e h f false) rfl hr
  have hlast : (e.issuedWarp n).lastphase.getD f.group.toNat false = p := by
    rw [issuedWarp_lastphase, Tab.getD, hp]; rfl
  have hgroup : (s.issued e n).group? (e.issuedWarp n) f.group.toNat = some (k, g) :=
    (group?_congr rfl rfl (issuedWarp_block e n) _).trans (group?_issued hg n)
  have heq := barrierWait_eq (warp?_issued s e n) ((issuedWarp_evicted e n).trans hr.evicted) ha hgroup
    (n := n) (h := h) rfl rfl false
  simp only [hlast, issued_cycle] at heq
  rw [heq] at ht
  by_cases hph : g.phase = p
  · rw [if_pos hph] at ht
    exact ⟨_, _, ht, warp?_setWarp_self .., fun _ => ⟨owed_suspendedFor hy _ _, suspended_suspendedFor hy rfl hr.env.2 _ _⟩,
      fun hne => absurd hph hne, (sameElse_issued ..).trans (sameElse_setWarp ..)⟩
  · rw [if_neg hph] at ht
    refine ⟨_, _, ht, by rw [warp?_invalidate]; exact warp?_setWarp_self .., fun he => absurd he hph, fun _ => ⟨l1_invalidate .., ?_⟩,
      ((sameElse_issued ..).trans (sameElse_setWarp ..)).trans (sameElse_invalidate ..)⟩
    exact ⟨movedOn_waitedFor hy hr.env.2 hr.act_live hr.act_frag, waits_waitedFor ha,
      named_waitedFor hy rfl rfl rfl hr.act_live⟩

/-! ### BARSYNC -/

theorem arrive_phase (g : GroupEntry) (n : Nat) (flags : Word) :
    (g.arrive n flags).phase = if g.arrived + 1 = g.expected then !g.phase else g.phase := by
  rw [arrive_eq, completePhase_eq, orStatus_eq]
  split <;> rfl

/-- The status word of the phase that an arrival has come in (01 R25). -/
theorem arrive_status (g : GroupEntry) (n : Nat) (flags : Word) :
    (g.arrive n flags).status g.phase = (if g.phase then g.status1 else g.status0) ||| flags := by
  rw [arrive_eq, completePhase_eq, orStatus_eq]
  split <;> cases hp : g.phase <;> simp [GroupEntry.status, GroupEntry.count, hp]

/-- What the arrival of BARSYNC leaves to its wait. -/
def State.arrivedWarp (s : State) (e : Env) (n : Needs) (i k : Nat) (g : GroupEntry) (flags : Word) : Warp :=
  { s.putWarp e n k (g.arrive e.w.number flags) with lastphase := e.w.lastphase.put i g.phase }

theorem putWarp_waits {t : State} {b : GroupEntry} (n : Needs) (ht : t.groups = s.groups.put k b) :
    (s.putWarp e n k b).waits = e.w.wakeZero.waits.map (dueWait s t e.w) := by
  have h : dueWait (s.issued e n) ((s.issued e n).putGroup k b) (e.issuedWarp n) = dueWait s t e.w :=
    dueWait_congr (sameElse_issued s e n).blocks (sameElse_issued s e n).groups ((groups_putGroup_issued ..).trans ht.symm)
      (issuedWarp_block e n)
  rw [← h]
  rfl

/-- The state that the arrival of BARSYNC leaves to its wait. -/
def State.arrivedAs (s : State) (e : Env) (n : Needs) (i k : Nat) (g : GroupEntry) (flags : Word) : State :=
  ((s.issued e n).putGroup k (g.arrive e.w.number flags)).setWarp e.core e.slot (s.arrivedWarp e n i k g flags)

section
variable (n : Needs) (i : Nat) (flags : Word)

theorem warp?_arrivedAs : (s.arrivedAs e n i k g flags).warp? e.core e.slot = some (s.arrivedWarp e n i k g flags) :=
  warp?_setWarp_self ..

theorem groups_arrivedAs : (s.arrivedAs e n i k g flags).groups = s.groups.put k (g.arrive e.w.number flags) :=
  groups_putGroup_issued ..

theorem cycle_arrivedAs : (s.arrivedAs e n i k g flags).cycle = s.cycle := by
  have h : (s.arrivedAs e n i k g flags).cycle = (s.issued e n).cycle := by
    show ((s.issued e n).putGroup k (g.arrive e.w.number flags)).cycle = _
    rw [putGroup_state]
  rw [h, issued_cycle]

theorem group?_arrivedAs {j : Nat} (hg : s.group? e.w j = some (k, g)) :
    (s.arrivedAs e n i k g flags).group? (s.arrivedWarp e n i k g flags) j = some (k, g.arrive e.w.number flags) := by
  have hblocks : (s.arrivedAs e n i k g flags).blocks = s.blocks :=
    (putGroup_blocks ..).trans (sameElse_issued s e n).blocks
  refine group?_eq_some.2 ⟨(groupKey?_congr hblocks ?_ _).trans (group?_eq_some.1 hg).1, ?_⟩
  · exact issuedWarp_block e n
  · rw [groups_arrivedAs]
    exact Tab.get?_put_self ..

theorem groupElse_arrivedAs {j : Nat} (hg : s.group? e.w j = some (k, g)) :
    GroupElse s (s.arrivedAs e n i k g flags) e.core e.slot :=
  (groupElse_putGroup_issued hg n _).trans_sameElse (sameElse_setWarp ..)

theorem lastphase_arrivedWarp : (s.arrivedWarp e n i k g flags).lastphase = e.w.lastphase.put i g.phase := rfl

theorem arrivedWarp_lastphase : (s.arrivedWarp e n i k g flags).lastphase.getD i false = g.phase := by
  rw [lastphase_arrivedWarp, Tab.getD_put_self]

/-- An arrival that leaves the phase as it was makes no wait due. -/
theorem arrivedWarp_waits {j : Nat} (hg : s.group? e.w j = some (k, g)) (hphase : (g.arrive e.w.number flags).phase = g.phase) :
    (s.arrivedWarp e n i k g flags).waits = e.w.wakeZero.waits := by
  show (s.putWarp e n k (g.arrive e.w.number flags)).waits = _
  rw [State.putWarp, dueWarp_of_phases (putGroup_phases (group?_eq_some.1 (group?_issued hg n)).2 hphase.symm)]
  rfl

/-- The waits that the arrival makes due. -/
theorem arrivedWarp_due {t : State} (ht : t.groups = s.groups.put k (g.arrive e.w.number flags)) :
    (s.arrivedWarp e n i k g flags).waits = e.w.wakeZero.waits.map (dueWait s t e.w) := putWarp_waits n ht

end

/-- The step of BARSYNC with an active lane: the arrival, and then the wait for the phase that it has come in. -/
theorem exec_barsync (hr : Ready s (.barsync h f) e) (ha : e.act ≠ 0) (hg : s.group? e.w f.group.toNat = some (k, g)) :
    let n := needs (.barsync h f) s
    let b := g.arrive e.w.number (flagWord e f)
    let y := s.arrivedWarp e n f.group.toNat k g (flagWord e f)
    let u := s.arrivedAs e n f.group.toNat k g (flagWord e f)
    let d : Dest := { name := h.dest, count := h.count, lanes := e.act }
    let m : WaitKind := .barrier f.group.toNat g.phase true d
    exec (.barsync h f) s = .next (if b.phase = g.phase then u.setWarp e.core e.slot (y.suspendedFor e m n s.cycle)
      else (u.setWarp e.core e.slot (y.waitedFor e m n s.cycle d 1 [b.status g.phase])).invalidate e.core) := by
  intro n b y u d m
  have ht := exec_next (h := h) rfl
    (k := fun e s' => (if e.act = 0 then s' else s'.arriveOn e f).barrierWait e h f true) rfl hr
  have harrive : (s.issued e n).arriveOn e f = u := arriveOn_issued hg n
  have hcycle : u.cycle = s.cycle := cycle_arrivedAs ..
  have heq := barrierWait_eq (u := u) (warp?_arrivedAs ..) ((issuedWarp_evicted e n).trans hr.evicted) ha
    (group?_arrivedAs n _ _ hg) (n := n) (h := h) rfl rfl true
  simp only [arrivedWarp_lastphase, hcycle] at heq
  rw [if_neg ha, harrive] at ht
  exact ht.trans (congrArg Host.Outcome.next heq)

/-- Where BARSYNC issues with an active lane (01 R25, R27; 11 R234). -/
theorem barsync_spec (hr : Ready s (.barsync h f) e) (ha : e.act ≠ 0) (hg : s.group? e.w f.group.toNat = some (k, g)) :
    ∃ t w, exec (.barsync h f) s = .next t ∧ t.warp? e.core e.slot = some w ∧
      t.groups = s.groups.put k (g.arrive e.w.number (flagWord e f)) ∧
      w.lastphase = e.w.lastphase.put f.group.toNat g.phase ∧
      (g.arrived + 1 ≠ g.expected → Owed e (needs (.barsync h f) s) w ∧
        Suspended e (.barrier f.group.toNat g.phase true { name := h.dest, count := h.count, lanes := e.act }) s.cycle w) ∧
      (g.arrived + 1 = g.expected → (t.core e.core).l1 = [] ∧ MovedOn e w ∧
        w.waits = (e.w.wakeZero.waits.map (dueWait s t e.w)).filter (fun x => x.lanes &&& e.act == 0) ∧
        Named e (needs (.barsync h f) s) (fun _ => [(if g.phase then g.status1 else g.status0) ||| flagWord e f]) {} w) ∧
      GroupElse s t e.core e.slot := by
  let n := needs (.barsync h f) s
  have ht := exec_barsync hr ha hg
  dsimp only at ht
  have hy : e.IssuedAs n (s.arrivedWarp e n f.group.toNat k g (flagWord e f)) := rfl
  have helse := groupElse_arrivedAs n f.group.toNat (flagWord e f) hg
  have hgroups := groups_arrivedAs (s := s) (e := e) (k := k) (g := g) n f.group.toNat (flagWord e f)
  have hset := fun y => sameElse_setWarp (s.arrivedAs e n f.group.toNat k g (flagWord e f)) e.core e.slot y
  have hend := fun y => (hset y).trans (sameElse_invalidate _ e.core e.slot)
  by_cases hcomplete : g.arrived + 1 = g.expected
  · have hphase : (g.arrive e.w.number (flagWord e f)).phase ≠ g.phase := by rw [arrive_phase, if_pos hcomplete]; simp
    rw [if_neg hphase, arrive_status] at ht
    refine ⟨_, _, ht, (warp?_invalidate ..).trans (warp?_setWarp_self ..), (hend _).groups.trans hgroups, ?_, fun hne => absurd hcomplete hne,
      fun _ => ⟨l1_invalidate .., ?_, ?_, ?_⟩, ?_⟩
    · rw [lastphase_waitedFor, lastphase_arrivedWarp]
    · exact movedOn_waitedFor hy hr.env.2 hr.act_live hr.act_frag
    · rw [waits_waitedFor ha, arrivedWarp_due n _ _ ((hend _).groups.trans hgroups)]
    · exact named_waitedFor hy rfl rfl rfl hr.act_live
    · exact helse.trans_sameElse (hend _)
  · have hphase : (g.arrive e.w.number (flagWord e f)).phase = g.phase := by rw [arrive_phase, if_neg hcomplete]
    rw [if_pos hphase] at ht
    refine ⟨_, _, ht, warp?_setWarp_self .., (hset _).groups.trans hgroups, ?_, fun _ => ⟨owed_suspendedFor hy _ _, ?_⟩,
      fun h => absurd h hcomplete, helse.trans_sameElse (hset _)⟩
    · rw [lastphase_suspendedFor, lastphase_arrivedWarp]
    · exact suspended_suspendedFor hy (arrivedWarp_waits n _ _ hg hphase) hr.env.2 _ _

end Sys2Proof.Machine

open Sys2Proof Sys2Proof.Machine

/-- Settles O28: a wait returns at once exactly where the entry's phase is not the one of lastphase. -/
theorem barrierWaits : Obligations.BarrierWaits := by
  unfold Obligations.BarrierWaits
  refine ⟨⟨fun h f s e hr => ?barwait, fun h f s e => ⟨fun hg => ?absent, fun k g hg => ⟨fun ha => ?idle, fun ha => ?faults⟩⟩⟩,
    fun h f s e hr => ?barsync⟩
  case barwait =>
    obtain ⟨k, g, hg, hfault⟩ := group_of_entry (own := fun e g => waitFault g e.w.number (e.w.lastphase.get? f.group.toNat)) hr.entry
    by_cases ha : e.act = 0
    · have ht := exec_next (h := h) rfl (k := fun e s' => s'.barrierWait e h f false) rfl hr
      rw [barrierWait_idle ha, modWarp_eq (warp?_issued ..)] at ht
      exact ⟨_, _, k, g, ht, warp?_setWarp_self .., hg, fun _ => written_idle ha hr.env.2 (dests_nodup ..) _,
        fun hne => absurd ha hne, (sameElse_issued ..).trans (sameElse_setWarp ..)⟩
    · obtain ⟨p, hp⟩ : ∃ p, e.w.lastphase.get? f.group.toNat = some p := by
        have := hfault ha
        cases hp : e.w.lastphase.get? f.group.toNat with
        | some p => exact ⟨p, rfl⟩
        | none => rw [waitFault, hp] at this; split at this <;> cases this
      obtain ⟨t, w, ht, hw, hwaits, hreturns, helse⟩ := barwait_spec hr ha hg hp
      exact ⟨t, w, k, g, ht, hw, hg, fun h0 => absurd h0 ha, fun _ => ⟨p, hp, hwaits, hreturns⟩, helse⟩
  case absent => exact ⟨groupEntryCheck_none hg fun e g => waitFault g e.w.number (e.w.lastphase.get? f.group.toNat),
      groupEntryCheck_none hg fun e g => g.arriveFault e.w.number⟩
  case idle => exact ⟨groupEntryCheck_idle hg ha fun e g => waitFault g e.w.number (e.w.lastphase.get? f.group.toNat),
      groupEntryCheck_idle hg ha fun e g => g.arriveFault e.w.number⟩
  case faults =>
    exact ⟨(groupEntryCheck_active hg ha fun e g => waitFault g e.w.number (e.w.lastphase.get? f.group.toNat)).trans
        (waitFault_bind g _ _ e),
      (groupEntryCheck_active hg ha fun e g => g.arriveFault e.w.number).trans (arriveFault_bind g _ e)⟩
  case barsync =>
    obtain ⟨k, g, hg, -⟩ := group_of_entry (own := fun e g => g.arriveFault e.w.number) hr.entry
    by_cases ha : e.act = 0
    · have ht := exec_next (h := h) rfl
        (k := fun e s' => (if e.act = 0 then s' else s'.arriveOn e f).barrierWait e h f true) rfl hr
      rw [if_pos ha, barrierWait_idle ha, modWarp_eq (warp?_issued ..)] at ht
      have helse := (sameElse_issued s e (needs (.barsync h f) s)).trans (sameElse_setWarp _ e.core e.slot
        ((e.issuedWarp (needs (.barsync h f) s)).sweep.advance e.frag))
      have hgroup := helse.groupElse
      exact ⟨_, _, k, g, ht, warp?_setWarp_self .., hg,
        fun _ => ⟨written_idle ha hr.env.2 (dests_nodup ..) _, helse.groups⟩, fun hne => absurd ha hne,
        fun hne => absurd ha hne, fun hne => absurd ha hne, hgroup.state, hgroup.cores, hgroup.warps⟩
    · obtain ⟨t, w, ht, hw, hgroups, hlast, hwaits, hreturns, helse⟩ := barsync_spec hr ha hg
      exact ⟨t, w, k, g, ht, hw, hg, fun h0 => absurd h0 ha, fun _ => ⟨hgroups, hlast⟩, fun _ => hwaits, fun _ => hreturns,
        helse.state, helse.cores, helse.warps⟩

end

section
/-! SUPPORT. A core's rotation and the passing of time (01 R19; 20 R305, R306); and O5. -/

namespace Sys2Proof.Machine

/-! ### A core's rotation -/

/-- A rotation begins behind the warp that has issued (01 R19). -/
theorem rotateAfter_append {slot : Nat} {before : List Nat} (h : ∀ i ∈ before, i ≠ slot) (rest : List Nat) :
    rotateAfter slot (before ++ slot :: rest) = rest ++ before ++ [slot] := by
  have hb : ∀ i ∈ before, (i != slot) = true := fun i hi => by simpa using h i hi
  simp [rotateAfter, List.dropWhile_append_of_pos hb, List.takeWhile_append_of_pos hb]

theorem issuedSince_eq (t s : State) (c : Nat) : t.issuedSince s c = true ↔ (t.core c).issued ≠ (s.core c).issued := by
  simp [State.issuedSince]

variable {s : State} {c slot : Nat}

/-- A warp that may not issue leaves the port to those behind it (01 R19). -/
theorem issueFrom_passed {i : Nat} (h : s.issuer c i = none) (hi : i ≠ slot) (rest : List Nat) :
    issueFrom c slot (i :: rest) s = issueFrom c slot rest s := by
  have ht : tryIssue s c i = .next s := by simp only [tryIssue, h]
  simp [issueFrom, ht, State.issuedSince, State.passes, h, hi]

theorem issueFrom_append {before : List Nat} (h : ∀ i ∈ before, i ≠ slot ∧ s.issuer c i = none) (rest : List Nat) :
    issueFrom c slot (before ++ rest) s = issueFrom c slot rest s := by
  induction before with
  | nil => rfl
  | cons i is ih =>
    have hi := h i (List.mem_cons_self ..)
    rw [List.cons_append, issueFrom_passed hi.2 hi.1, ih fun j hj => h j (List.mem_cons_of_mem _ hj)]

/-- The named warp at the port: with it the turn ends. -/
theorem issueFrom_named (rest : List Nat) : issueFrom c slot (slot :: rest) s =
    match tryIssue s c slot with
    | .next t => .next (if t.issuedSince s c then t.rotated s c slot else t)
    | stop => stop := by
  simp only [issueFrom]
  cases tryIssue s c slot with
  | next t => cases ht : t.issuedSince s c <;> simp [ht]
  | fault r => rfl
  | refused r => rfl

/-- A warp before the named one that issues has the turn; one that is blocked leaves it (01 R19). -/
theorem issueFrom_before {i : Nat} {t : State} (hi : i ≠ slot) (ht : tryIssue s c i = .next t) (rest : List Nat) :
    issueFrom c slot (i :: rest) s = if t.issuedSince s c then .next (t.rotated s c i)
      else if s.passes t c i then issueFrom c slot rest t else .next t := by
  simp only [issueFrom, ht]
  cases t.issuedSince s c <;> cases s.passes t c i <;> simp [hi]

theorem passes_of_stall {t : State} {i : Nat} {x : Warp} (hissued : t.issuedSince s c = false) (hx : t.warp? c i = some x)
    (hstall : x.stall ≠ none) : s.passes t c i = true := by
  simp [State.passes, hissued, hx, Option.isSome_iff_ne_none.2 hstall]

theorem tryIssue_fetched {w : Warp} {pc : PC} {frag : Mask} {word : InsnWord} {zero : BitVec 7} {s1 : State}
    (hi : s.issuer c slot = some (w, pc, frag)) (hf : s.fetch c slot w pc frag = .ok (word, zero, s1)) :
    tryIssue s c slot = exec (decodeWord word) ((s1.inCycle c slot).atPort c slot zero) := by
  simp only [tryIssue, hi, hf]

/-! ### The passing of time -/

theorem cycle_foldl_post (r : EvRec) (ps : List Nat) (s : State) : (ps.foldl (fun s p => s.post (pfKey p) r) s).cycle = s.cycle := by
  induction ps generalizing s with
  | nil => rfl
  | cons p ps ih => rw [List.foldl_cons, ih, post_cycle]

theorem cycle_checkDie (s : State) (d : Nat) : (s.checkDie d).cycle = s.cycle := by
  unfold State.checkDie
  dsimp only
  split
  · exact cycle_foldl_post ..
  · rfl

theorem cycle_checkDies (s : State) : s.checkDies.cycle = s.cycle := by
  unfold State.checkDies
  induction List.range 4 generalizing s with
  | nil => rfl
  | cons d ds ih => rw [List.foldl_cons, ih, cycle_checkDie]

theorem pass_of_nothingBegun {u : State} {a b : Nat} (h : u.begunLanes (fun c _ e => u.endsBy (u.time + a) c e) = []) :
    u.pass a b = { u.checksUpTo (u.time + a) with time := (u.time + a) % 2 ^ 64, cycle := u.cycle + b } := by
  have hc : (u.checksUpTo (u.time + a)).cycle = u.cycle := by
    unfold State.checksUpTo
    dsimp only
    split
    · rfl
    · exact cycle_checkDies ..
  unfold State.pass State.finishLanes
  dsimp only
  rw [h, List.foldl_nil, hc]

end Sys2Proof.Machine

open Sys2Proof Sys2Proof.Machine

/-- Settles O5: the turn at the head is walked along the rotation up to the warp that issues. -/
theorem stepRunsWhatComesNext : Obligations.StepRunsWhatComesNext := by
  unfold Obligations.StepRunsWhatComesNext
  refine ⟨fun s s1 ts c slot w pc frag word zero hts => ?issue, fun s ts => ⟨fun i hts => ?event, fun a b hts => ?pass⟩⟩
  case issue =>
    intro u
    have hstep : step s = issueFrom c slot (u.core c).active u := by simp only [step, hts]; rfl
    refine ⟨fun before rest hactive hbefore hissuer hfetch => ?named, fun i rest t hactive hi ht => ?before⟩
    case named =>
      rw [hstep, hactive, issueFrom_append hbefore, issueFrom_named, tryIssue_fetched hissuer hfetch]
      cases exec (decodeWord word) ((s1.inCycle c slot).atPort c slot zero) with
      | next t =>
        dsimp only
        simp only [issuedSince_eq, State.rotated, hactive, rotateAfter_append fun j hj => (hbefore j hj).1]
      | fault r => rfl
      | refused r => rfl
    case before =>
      rw [hstep, hactive, issueFrom_before hi ht]
      refine ⟨fun hissued => if_pos ((issuedSince_eq ..).2 hissued), fun hsame ⟨x, hx, hstall⟩ => ?_⟩
      have hnot : ¬t.issuedSince u c = true := fun h => (issuedSince_eq ..).1 h hsame
      rw [if_neg hnot, if_pos (passes_of_stall (by simpa using hnot) hx hstall)]
  case event => simp only [step, hts]; rfl
  case pass =>
    intro u m hnone
    have hstep : step s = .next (u.pass a b) := by simp only [step, hts]; rfl
    rw [hstep, pass_of_nothingBegun hnone]
    unfold State.checksUpTo
    exact ⟨fun h => by rw [if_pos h], fun h => by rw [if_neg (Nat.not_lt.2 h)]⟩

end

section
/-! SUPPORT. A machine on which the last lane of a warp exits while another warp of its block waits; and O26. -/

namespace Sys2Proof.Machine

/-! ### The last lane of a block's second warp exits while its first warp waits -/

/-- The warp that exits: all its lanes live, nothing outstanding. -/
def leaverWarp : Warp := placedWarp

/-- The wait of the other warp: it has arrived in phase 0 of group 0 and owes no destination. -/
def memberWait : Wait := { lanes := fullMask, kind := .barrier 0 false false { name := 511, count := 0, lanes := fullMask }, since := 0 }

/-- The warp that waits. -/
def waiterWarp : Warp := { placedWarp with seq := 1, number := 1, waits := [memberWait], lastphase := [(0, false)] }

/-- Group 0 of the block: both warps are members, and the waiting one has arrived. -/
def halfArrived : GroupEntry :=
  { block := 0, status1 := 0, status0 := 0, phase := false, arrived := 1, expected := 2, dropped := 0, arrivedmask := 2,
    members := 3 }

/-- The machine with the exiting warp at the issue port of core 0. -/
def leaverState : State :=
  { State.reset with
    boot := { Boot.reset with state := 2, enabled := 0x3F }
    parts := [(0, Part.reset 0 1)]
    fns := [(256, FnPage.reset 0)]
    ctxs := [(1, { Ctx.none 1 with fn := 256 })]
    launches := [(0, { Launch.none with ctx := 1, fn := 256, state := 2, grid := (2, 1, 1), record := placedRecord })]
    blocks := [(0, { launch := 0, index := 0, cores := [0], scratchOff := 0, scratchSize := 0, groups := [(0, 0)], position := 0 })]
    groups := [(0, halfArrived)]
    cores := [(0, { Core.reset with warps := [(0, leaverWarp), (1, waiterWarp)], active := [0, 1] })] }

/-- EXIT in every lane. -/
def leaverHdr : Hdr := { negate := false, guard := 7, dest := 511, count := 0 }
def leaverField : CF := { tslot := 0, loff := 0, src := 511, zero := 0, wload := 0, wstore := 0, wcopy := 0, wtile := 0, imm := 0 }

/-- What the refutation reads of the exit: it is the last lanes of the warp in slot 0, and nothing holds it. -/
def leaverIssues : Bool :=
  match env? leaverState leaverHdr ((encode (.exit leaverHdr leaverField)).getD 0) with
  | some e => decide (leaverState.hold leaverHdr (needs (.exit leaverHdr leaverField) leaverState) e = none) &&
      decide (e.core = 0 ∧ e.slot = 0 ∧ e.w.block = 0 ∧ e.w.live &&& ~~~e.act = 0 ∧ e.w.log = [] ∧ e.w.accs = [] ∧
        leaverState.owesAccess e.core e.w = false)
  | none => false

/-- The status words that the barrier waits of the other warp are due. -/
def State.waiterDues (s : State) : Option (List (Option Word)) := (s.warp? 0 1).map fun w => w.waits.map Wait.due

theorem leaver_issues : leaverIssues = true := by decide +kernel

/-- As the warp exits, its drop completes the phase, and the wait of the other warp is due its status word. -/
theorem leaver_exits : (match exec (.exit leaverHdr leaverField) leaverState with
    | .next t => decide (t.waiterDues = some [some 0])
    | _ => false) = true := by decide +kernel

theorem waiterDues_leaver : leaverState.waiterDues = some [none] := rfl

theorem waiterDues_congr {s t : State} (h : t.warp? 0 1 = s.warp? 0 1) : t.waiterDues = s.waiterDues := by
  rw [State.waiterDues, h, State.waiterDues]

/-- The block of the exiting warp has the one group. -/
theorem groupKey?_leaver {w : Warp} (hw : w.block = 0) {i k : Nat} (h : leaverState.groupKey? w i = some k) : i = 0 := by
  have hb : leaverState.blockOf w = leaverState.blocks.get? 0 := by rw [State.blockOf, hw]
  rw [State.groupKey?, hb] at h
  cases i with
  | zero => rfl
  | succ i => cases h

end Sys2Proof.Machine

open Sys2Proof Sys2Proof.Machine

/-- Refutes O26: the drop of a warp that exits may complete a phase, and then the barrier waits of the block's other warps
are due its status word (01 R26, R27, R29), while the statement says that the entries of the other warps stay as they were. -/
theorem not_exitEffect : ¬ Obligations.ExitEffect := by
  unfold Obligations.ExitEffect
  intro hall
  obtain ⟨e, hready, hcore, hslot, hblock, hlast, hlog, haccs, howes⟩ : ∃ e, Ready leaverState (.exit leaverHdr leaverField) e ∧
      e.core = 0 ∧ e.slot = 0 ∧ e.w.block = 0 ∧ e.w.live &&& ~~~e.act = 0 ∧ e.w.log = [] ∧ e.w.accs = [] ∧
        leaverState.owesAccess e.core e.w = false := by
    have h := leaver_issues
    unfold leaverIssues at h
    split at h
    · next e he =>
      rw [Bool.and_eq_true, decide_eq_true_eq, decide_eq_true_eq] at h
      exact ⟨e, ⟨leaverHdr, rfl, he, h.1⟩, h.2⟩
    · cases h
  obtain ⟨t, ht, -, hwarp⟩ := hall leaverHdr leaverField leaverState e hready
  obtain ⟨_, -, -, -, -, -, -, -, hdone⟩ := hwarp (.inr fun x hx => by rw [hlog] at hx; cases hx)
  obtain ⟨-, hdrops, -⟩ := hdone hlast
  obtain ⟨-, -, -, -, -, hothers⟩ := hdrops haccs howes fun g g' k hg hg' =>
    (groupKey?_leaver hblock hg).trans (groupKey?_leaver hblock hg').symm
  have hsame : t.warp? 0 1 = leaverState.warp? 0 1 := hcore ▸ hothers 1 (by rw [hslot]; decide)
  have hdue := leaver_exits
  rw [ht] at hdue
  have hnow : t.waiterDues = some [some 0] := of_decide_eq_true hdue
  rw [waiterDues_congr hsame, waiterDues_leaver] at hnow
  cases hnow

end

section
/-! SUPPORT. Waits that end with an event of their own (01 R27; 07 R139; 11 R239). -/

namespace Sys2Proof.Machine

variable {s : State} {c o : Nat} {w : Warp} {lanes : Mask} {d : Dest} {k : Nat} {v : List Word}

/-! ### What a wait's end does -/

/-- The warp once a wait of some lanes has ended. -/
def Warp.pastWait (w : Warp) (lanes : Mask) : Warp :=
  { w.advance (lanes &&& w.live) with waits := w.waits.filter fun t => t.lanes &&& lanes == 0, stall := none, timeout := false }

theorem pc_pastWait {l : Nat} (hl : l < 32) :
    (w.pastWait lanes).pc l = if laneOn (lanes &&& w.live) l then nextPc (w.pc l) else w.pc l := by
  have h : (w.pastWait lanes).pc l = (w.advance (lanes &&& w.live)).pc l := rfl
  rw [h, pc_advance _ _ hl]

theorem pc_returned {l : Nat} (hl : l < 32) :
    (w.returned lanes d k v).pc l = if laneOn (lanes &&& w.live) l then nextPc (w.pc l) else w.pc l := by
  have h : (w.returned lanes d k v).pc l = ((w.complete d k fun _ => v).advance (lanes &&& w.live)).pc l := rfl
  have hb : (w.complete d k fun _ => v).pc l = w.pc l := by
    rw [complete_frame]
    rfl
  rw [h, pc_advance _ _ hl, hb]

theorem live_returned : (w.returned lanes d k v).live = w.live := by
  have h : (w.returned lanes d k v).live = (w.complete d k fun _ => v).live := rfl
  rw [h, complete_frame]

theorem traps_returned : (w.returned lanes d k v).traps = w.traps := by
  have h : (w.returned lanes d k v).traps = (w.complete d k fun _ => v).traps := rfl
  rw [h, complete_frame]

/-- `t` is `s` but that a wait of some lanes of the warp in an entry has ended; the core's L1 may be another (01 R27; 07 R139). -/
def WaitEnded (s : State) (c o : Nat) (w : Warp) (lanes : Mask) (t : State) (w' : Warp) : Prop :=
  t.warp? c o = some w' ∧
    (∀ l, l < 32 → w'.pc l = if laneOn (lanes &&& w.live) l then nextPc (w.pc l) else w.pc l) ∧
    w'.waits = (w.waits.filter fun x => x.lanes &&& lanes == 0) ∧ w'.live = w.live ∧ w'.traps = w.traps ∧
    t = { s with cores := t.cores } ∧ (∀ k, k ≠ c → t.core k = s.core k) ∧ (∀ p, p ≠ o → t.warp? c p = s.warp? c p) ∧
    t.core c = { s.core c with warps := (t.core c).warps, l1 := (t.core c).l1 }

theorem waitEnded_pastWait : WaitEnded s c o w lanes (s.setWarp c o (w.pastWait lanes)) (w.pastWait lanes) := by
  have helse := sameElse_setWarp s c o (w.pastWait lanes)
  exact ⟨warp?_setWarp_self .., fun l hl => pc_pastWait hl, rfl, rfl, rfl, rfl, helse.cores, helse.warps,
    by simp [State.setWarp]⟩

theorem waitEnded_returned : WaitEnded s c o w lanes ((s.setWarp c o (w.returned lanes d k v)).invalidate c)
    (w.returned lanes d k v) := by
  have helse := (sameElse_setWarp s c o (w.returned lanes d k v)).trans (sameElse_invalidate _ c o)
  exact ⟨by rw [warp?_invalidate]; exact warp?_setWarp_self .., fun l hl => pc_returned hl, rfl, live_returned,
    traps_returned, rfl, helse.cores, helse.warps, by simp [State.setWarp, State.invalidate]⟩

/-! ### What the destination of a wait that ends holds -/

theorem isV_of_constituents {n : BitVec 9} {i : Nat} (h : i ∈ constituents n k) (hv : isV i = true) : isV n.toNat = true := by
  unfold constituents at h
  split at h
  · cases h
  · obtain ⟨j, -, rfl⟩ := List.mem_map.1 h
    simp only [isV, decide_eq_true_eq] at hv ⊢
    omega

theorem owedLanes_of_isV (h : isV d.name.toNat = true) : w.owedLanes d = d.lanes &&& w.live := by
  rw [Warp.owedLanes, if_neg]
  simp only [isV, isK, decide_eq_true_eq, Bool.and_eq_true, not_and] at h ⊢
  omega

theorem owedLanes_of_isK (h : isK d.name.toNat = true) (hl : w.live ≠ 0) : w.owedLanes d = d.lanes := by
  rw [Warp.owedLanes, if_pos h, if_neg hl]

/-- The destination of a wait, once it has ended with the words `v` (02 R42; 07 R135). -/
def Gives (w : Warp) (d : Dest) (k : Nat) (v : List Word) (w' : Warp) : Prop :=
  ∀ j n, (constituents d.name k)[j]? = some n →
    (isV n = true → d.count ≠ 0 → ∀ l, l < 32 → laneOn (d.lanes &&& w.live) l = true →
      w'.val n l = v.getD j 0 ∧ w'.count n l = d.count ∧ (isV d.name.toNat = true → w'.pendingName n = false)) ∧
    (isK n = true → isK d.name.toNat = true → w.live ≠ 0 → d.lanes ≠ 0 → w'.val n 0 = v.getD j 0)

theorem gives_returned : Gives w d k v (w.returned lanes d k v) := by
  intro j n hj
  have hn := List.mem_of_getElem? hj
  have hval : ∀ l, (w.returned lanes d k v).val n l = (w.completeIn (w.owedLanes d) d k fun _ => v).val n l := fun _ => rfl
  have hcnt : ∀ l, (w.returned lanes d k v).count n l = (w.completeIn (w.owedLanes d) d k fun _ => v).count n l := fun _ => rfl
  refine ⟨fun hv hc l hl ho => ?_, fun hk hdk hlive hlanes => ?_⟩
  · have hdv := isV_of_constituents hn hv
    rw [← owedLanes_of_isV hdv] at ho
    have hcount : (w.completeIn (w.owedLanes d) d k fun _ => v).count n l = d.count := by
      rw [count_completeIn _ _ _ _ _ _ hl, if_pos ⟨hn, hv, hc, ho⟩]
    refine ⟨?_, (hcnt l).trans hcount, fun _ => pendingName_completeIn _ _ _ _ _ hn hdv hc⟩
    rw [hval, val_eq_datum _ hv, datum_completeIn _ _ _ _ _ (by rwa [hcount]),
      datum_writeNames _ _ _ _ _ _ j n hl (constituents_nodup ..) hj hv hc ho, Nat.zero_add]
  · rw [hval, kreg_completeIn _ _ _ _ _ hk, kreg_writeNames _ _ _ _ _ _ j n 0 (constituents_nodup ..) hj hk
      (by rwa [owedLanes_of_isK hdk hlive]), Nat.zero_add]

/-! ### The three events that end a wait -/

variable {i since : Nat} {due : Option Word}

theorem exec_barrierWaiterRelease {g : Nat} {p y : Bool} (hw : s.warp? c o = some w)
    (hi : w.waits[i]? = some { lanes := lanes, kind := .barrier g p y d, since := since, due := due }) :
    exec (.barrierWaiterRelease c o i) s = .next (s.returnBarrier c o lanes g p due d) := by
  show execBarrierWaiterRelease c o i s = _
  simp only [execBarrierWaiterRelease, hw, hi]

theorem exec_fwaitRelease {id : Nat} {cmp : BitVec 2} {x : BitVec 64} {q : Bool} (hw : s.warp? c o = some w)
    (hi : w.waits[i]? = some { lanes := lanes, kind := .fence id cmp x q d, since := since, due := due }) :
    exec (.fwaitRelease c o i) s = .next (s.returnFence c o lanes id cmp x d) := by
  show execFwaitRelease c o i s = _
  simp only [execFwaitRelease, hw, hi]

/-- A barrier wait that is due a word, or whose entry is in another phase, ends with the status word (01 R27, R34). -/
theorem barrierWaiterRelease_ends {g : Nat} {p y : Bool} {x : Word} (hw : s.warp? c o = some w) (hev : w.evicted = false)
    (hi : w.waits[i]? = some { lanes := lanes, kind := .barrier g p y d, since := since, due := due })
    (hx : s.barrierReady w g p due = some x) :
    ∃ t w', exec (.barrierWaiterRelease c o i) s = .next t ∧ WaitEnded s c o w lanes t w' ∧ (t.core c).l1 = [] ∧
      Gives w d 1 [x] w' :=
  ⟨_, _, (exec_barrierWaiterRelease hw hi).trans (congrArg _ (returnBarrier_ready hw hev hx lanes d)), waitEnded_returned,
    l1_invalidate .., gives_returned⟩

/-- Whether the fence value `x` meets the comparison of a wait for the value `y` (11 R239). -/
theorem fenceHolds_iff (cmp : BitVec 2) (x y : BitVec 64) :
    fenceHolds cmp.toNat x y = true ↔ if cmp = 0 then y.toNat ≤ x.toNat else if cmp = 1 then x = y else x ≠ y := by
  by_cases h0 : cmp = 0
  · subst h0
    simp [fenceHolds]
  · by_cases h1 : cmp = 1
    · subst h1
      simp [fenceHolds]
    · have hf : fenceHolds cmp.toNat x y = (x != y) := by
        unfold fenceHolds
        split
        · next h => exact absurd (BitVec.eq_of_toNat_eq h) h0
        · next h => exact absurd (BitVec.eq_of_toNat_eq h) h1
        · rfl
      rw [hf, if_neg h0, if_neg h1, bne_iff_ne]

theorem returnFence_eq {id : Nat} {cmp : BitVec 2} {y : BitVec 64} (hw : s.warp? c o = some w) (hev : w.evicted = false) :
    s.returnFence c o lanes id cmp y d =
      if fenceHolds cmp.toNat ((s.part (s.partOfCore c)).fence id) y = true then
        (s.setWarp c o (w.returned lanes d 2 (words64 ((s.part (s.partOfCore c)).fence id)))).invalidate c
      else s := by
  simp only [State.returnFence, hw, endWait_completeOwed hw hev]

theorem endWait_eq (hw : s.warp? c o = some w) : s.endWait c o lanes = s.setWarp c o (w.pastWait lanes) := by
  rw [State.endWait, modWarp_eq hw]
  rfl

theorem exec_sleepExpiry {wake : Nat} {zero : Bool} (hw : s.warp? c o = some w)
    (hi : w.waits[i]? = some { lanes := lanes, kind := .sleep wake zero, since := since, due := due }) :
    exec (.sleepExpiry c o i) s = .next (if (if zero then w.issuable = 0 ∧ w.halted = false else wake ≤ s.timeAt c) then
      s.setWarp c o (w.pastWait lanes) else s) := by
  have h : exec (.sleepExpiry c o i) s = (if zero then (if w.issuable = 0 ∧ !w.halted then .next (s.endWait c o lanes) else .next s)
      else if wake ≤ s.timeAt c then .next (s.endWait c o lanes) else .next s) := by
    show execSleepExpiry c o i s = _
    simp only [execSleepExpiry, hw, hi]
  rw [h, endWait_eq hw]
  cases zero
  · exact (apply_ite ..).symm
  · simp only [Bool.not_eq_true', if_true]
    exact (apply_ite ..).symm

end Sys2Proof.Machine

end

section
/-! SUPPORT. The sets of a core, eviction and refill (01 R19, R20; 02 R48, R52, R53); and O45. -/

namespace Sys2Proof.Machine

variable {s s1 : State} {c o out into : Nat} {w : Warp}

/-! ### The reasons that count for a swap and for a time-out (01 R20; 02 R48) -/

theorem namesHold_iff {ds : List (Dest × Nat)} {n : Nat} :
    namesHold ds n = true ↔ ∃ d ∈ ds, n ∈ constituents d.1.name d.2 := by
  simp [namesHold]

theorem stallSwaps_iff (k : StallKind) : s.stallSwaps c o w k = true ↔
    k ∈ [StallKind.array, .held, .fetch, .constant] ∨ (∃ m, k = .allocation m) ∨ (∃ a b x y, k = .classCounters a b x y) ∨
      ∃ n, k = .scoreboard n ∧ ∃ d ∈ s.asyncDests c o w, n ∈ constituents d.1.name d.2 := by
  cases k <;> simp [State.stallSwaps, namesHold_iff]

theorem stallBlocks_iff (k : StallKind) : s.stallBlocks c o w k = true ↔
    k ∈ [StallKind.operandLog, .array, .held, .fetch, .constant] ∨ (∃ a b x y, k = .classCounters a b x y) ∨
      ∃ n, k = .scoreboard n ∧ ∃ d ∈ s.asyncDests c o w, n ∈ constituents d.1.name d.2 := by
  cases k <;> simp [State.stallBlocks, namesHold_iff]

theorem wait_swaps_iff (x : Wait) : x.swaps = true ↔ (∃ g p y d, x.kind = .barrier g p y d) ∨ ∃ a z, x.kind = .sleep a z := by
  unfold Wait.swaps
  cases x.kind <;> simp

/-- When an active warp has been blocked for 32 cycles (01 R20). -/
theorem swappable_iff : s.swappable c o w = true ↔ if w.issuable = 0 then
    (∃ x ∈ w.waits, (∃ g p y d, x.kind = .barrier g p y d) ∨ ∃ a z, x.kind = .sleep a z) ∧ w.ran + 32 ≤ s.cycle ∧
      ∀ x ∈ w.waits, x.since + 32 ≤ s.cycle
    else ∃ x, w.stall = some x ∧ s.stallSwaps c o w x.kind = true ∧ x.since + 32 ≤ s.cycle := by
  unfold State.swappable
  split
  · simp only [Bool.and_eq_true, List.any_eq_true, List.all_eq_true, decide_eq_true_eq, wait_swaps_iff, and_assoc]
  · cases w.stall <;> simp

theorem overdue_iff : s.overdue c into = true ↔ ∃ v, s.warp? c into = some v ∧ v.queued + 4096 ≤ s.cycle := by
  unfold State.overdue
  cases s.warp? c into <;> simp

theorem ready_iff (i : Nat) : s.ready c i = true ↔ ∃ v, s.warp? c i = some v ∧ v.issuable ≠ 0 ∧ v.leaving = false ∧
    ∀ x, v.stall = some x → s.stallOver c i v x.kind = true := by
  unfold State.ready
  cases s.warp? c i with
  | none => simp
  | some v => cases hv : v.stall <;> simp [hv, and_assoc]

/-- The pending ready warp that has waited longest is the first ready one. -/
theorem nextPending_iff : s.nextPending c = some into ↔ ∃ before rest, (s.core c).pending = before ++ into :: rest ∧
    s.ready c into = true ∧ ∀ i ∈ before, ¬s.ready c i = true := by
  rw [State.nextPending, List.find?_eq_some_iff_append]
  constructor
  · rintro ⟨hready, before, rest, heq, hbefore⟩
    exact ⟨before, rest, heq, hready, fun i hi => by simpa using hbefore i hi⟩
  · rintro ⟨before, rest, heq, hready, hbefore⟩
    exact ⟨hready, before, rest, heq, fun i hi => by simpa using hbefore i hi⟩

/-! ### WARP_SWAP_OUT and SYNC_BLOCK_TIMEOUT -/

/-- A core that has exchanged two warps of its sets. -/
def Core.exchanged (k : Core) (out into : Nat) : Core :=
  { k with active := k.active.filter (· != out) ++ [into], pending := k.pending.filter (· != into) ++ [out] }

theorem warp?_modCore {f : Core → Core} (hf : (f (s.core c)).warps = (s.core c).warps) (k o : Nat) :
    (s.modCore c f).warp? k o = s.warp? k o := by
  simp only [State.warp?, State.modCore, core_setCore]
  split
  · next h => rw [hf, h]
  · rfl

theorem exec_warpSwapOut (hw : s.warp? c out = some w) : exec (.warpSwapOut c out into) s =
    .next (if (s.core c).active.contains out = true ∧ (s.swappable c out w = true ∨ s.overdue c into = true) ∧
        s.nextPending c = some into then
      (s.modCore c fun k => k.exchanged out into).setWarp c out { w with queued := s.cycle } else s) := by
  have hm : (s.modCore c fun k => k.exchanged out into).warp? c out = some w := by rw [warp?_modCore rfl, hw]
  have heq := modWarp_eq hm fun w => { w with queued := s.cycle }
  have h : exec (.warpSwapOut c out into) s = (if (s.core c).active.contains out && (s.swappable c out w || s.overdue c into) &&
      s.nextPending c == some into then
        .next ((s.modCore c fun k => k.exchanged out into).modWarp c out fun w => { w with queued := s.cycle })
      else .next s) := by
    show execWarpSwapOut c out into s = _
    have hw' : (s.core c).warps.get? out = some w := hw
    simp only [execWarpSwapOut, hw']
    rfl
  rw [h, heq, ← apply_ite]
  refine congrArg _ (if_congr ?_ rfl rfl)
  simp only [Bool.and_eq_true, Bool.or_eq_true, beq_iff_eq, and_assoc]

theorem exec_syncBlockTimeout (hw : s.warp? c o = some w) : exec (.syncBlockTimeout c o) s =
    .next (if ∃ x, w.stall = some x ∧ s.stallBlocks c o w x.kind = true ∧ x.since + 4096 ≤ s.cycle then
      s.setWarp c o { w with timeout := true } else s) := by
  have h : exec (.syncBlockTimeout c o) s = execSyncBlockTimeout c o s := rfl
  rw [h, execSyncBlockTimeout, hw]
  cases hs : w.stall with
  | none => simp [hs]
  | some x => simp only [hs, Bool.and_eq_true, decide_eq_true_eq, Option.some.injEq, exists_eq_left', apply_ite Host.Outcome.next]

/-! ### The sets of a core that fills its active set (01 R19, R20) -/

theorem fillActive_core : ∃ now, (∀ i ∈ now, i ∈ (s.core c).pending) ∧ s.fillActive c = s.modCore c fun k =>
    { k with active := k.active ++ now, pending := k.pending.filter fun i => !now.contains i } := by
  let ready := (s.core c).pending.filter (s.ready c)
  refine ⟨(ready ++ (s.core c).pending.filter fun i => !ready.contains i).take (8 - (s.core c).active.length), fun i hi => ?_, rfl⟩
  rcases List.mem_append.1 (List.mem_of_mem_take hi) with h | h <;> exact (List.mem_filter.1 h).1

/-- No warp enters or leaves the two sets of a core as its active set is filled. -/
theorem mem_fillActive (i : Nat) : (i ∈ ((s.fillActive c).core c).active ∨ i ∈ ((s.fillActive c).core c).pending) ↔
    i ∈ (s.core c).active ∨ i ∈ (s.core c).pending := by
  obtain ⟨now, hnow, heq⟩ := fillActive_core (s := s) (c := c)
  rw [heq]
  simp only [State.modCore, core_setCore_self, List.mem_append, List.mem_filter, Bool.not_eq_true', List.contains_eq_mem,
    decide_eq_false_iff_not]
  constructor
  · rintro ((h | h) | h)
    · exact .inl h
    · exact .inr (hnow i h)
    · exact .inr h.1
  · rintro (h | h)
    · exact .inl (.inl h)
    · by_cases hi : i ∈ now
      · exact .inl (.inr hi)
      · exact .inr ⟨h, hi⟩

/-- `t` is `s` but for which warps of a core its sets list. -/
structure SetsOnly (s t : State) (c : Nat) : Prop where
  state : t = { s with cores := t.cores }
  cores : ∀ k, k ≠ c → t.core k = s.core k
  core : t.core c = { s.core c with active := (t.core c).active, pending := (t.core c).pending }

theorem SetsOnly.trans {s t u : State} (h : SetsOnly s t c) (g : SetsOnly t u c) : SetsOnly s u c where
  state := by rw [g.state, h.state]
  cores k hk := by rw [g.cores k hk, h.cores k hk]
  core := by rw [g.core, h.core]

theorem SetsOnly.warp? {t : State} (h : SetsOnly s t c) (k i : Nat) : t.warp? k i = s.warp? k i := by
  simp only [State.warp?]
  by_cases hk : k = c
  · subst hk
    rw [h.core]
  · rw [h.cores k hk]

theorem setsOnly_modCore {f : Core → Core}
    (hf : f (s.core c) = { s.core c with active := (f (s.core c)).active, pending := (f (s.core c)).pending }) : SetsOnly s (s.modCore c f) c where
  state := rfl
  cores k hk := by simp [State.modCore, core_setCore, Ne.symm hk]
  core := by
    simp only [State.modCore, core_setCore_self]
    exact hf

theorem setsOnly_fillActive : SetsOnly s (s.fillActive c) c := by
  obtain ⟨now, -, heq⟩ := fillActive_core (s := s) (c := c)
  rw [heq]
  exact setsOnly_modCore rfl

theorem unscheduled_fillActive : o ∉ (((s.modCore c fun k => k.unschedule o).fillActive c).core c).active ∧
    o ∉ (((s.modCore c fun k => k.unschedule o).fillActive c).core c).pending := by
  rw [← not_or, mem_fillActive]
  simp [State.modCore, Core.unschedule]

/-! ### WARP_EVICTION (02 R52) -/

theorem exec_warpEviction (hw : s.warp? c o = some w) : exec (.warpEviction c o) s =
    .next (if w.leaving = true ∨ s.preemptEvicts c o w = true ∨ ∃ x ∈ (s.core c).contexts, s.victim c x = some o then
      s.evict c o else s) := by
  have h : exec (.warpEviction c o) s = execWarpEviction c o s := rfl
  rw [h, execWarpEviction, hw]
  simp only [Bool.or_eq_true, List.any_eq_true, beq_iff_eq, or_assoc, apply_ite Host.Outcome.next]

/-- A warp that its scree record holds. -/
def Warp.evictedAs (w : Warp) : Warp := { w with evicted := true, leaving := false, screeNames := w.names.length, names := [] }

theorem evict_unsettled (hw : s.warp? c o = some w) (hev : w.evicted = false) (hlive : w.live ≠ 0)
    (h : ¬(w.settled = true ∧ (s.core c).holdsX o = false)) : s.evict c o = s.setWarp c o { w with leaving := true } := by
  have hcond : (!w.settled || (s.core c).holdsX o) = true := by
    cases hs : w.settled <;> cases hx : (s.core c).holdsX o <;> simp_all
  have hno : ¬(w.evicted = true ∨ w.live = 0) := fun h => h.elim (fun h => by rw [hev] at h; cases h) hlive
  rw [State.evict, hw]
  dsimp only
  rw [if_neg hno, if_pos hcond]

theorem evict_settled (hw : s.warp? c o = some w) (hev : w.evicted = false) (hlive : w.live ≠ 0)
    (h : w.settled = true ∧ (s.core c).holdsX o = false)
    (hv : s.vaWrite (.core c) w.ctx (s.recordAt w.ctx c o) w.recordBytes true false = (none, s1)) :
    s.evict c o = ((((s1.tally (s1.partOfCore c) 32 1).setWarp c o w.evictedAs).modCore c fun k => k.unschedule o).fillActive c) := by
  have hno : ¬(w.evicted = true ∨ w.live = 0) := fun h => h.elim (fun h => by rw [hev] at h; cases h) hlive
  rw [State.evict, hw]
  dsimp only
  rw [if_neg hno, if_neg (by simp [h.1, h.2]), hv]
  rfl

/-- A step that ends with one warp replaced, a counter raised and the sets of the core changed. -/
theorem warpMoved {t : State} {p key n : Nat} {y : Warp} (h : SetsOnly ((s1.tally p key n).setWarp c o y) t c) :
    t.warp? c o = some y ∧ t = { s1 with cores := t.cores, parts := t.parts } ∧ (∀ k, k ≠ c → t.core k = s1.core k) ∧
      (∀ i, i ≠ o → t.warp? c i = s1.warp? c i) ∧
      t.core c = { s1.core c with warps := (t.core c).warps, active := (t.core c).active, pending := (t.core c).pending } ∧
      ∀ q, t.part q = { s1.part q with counters := (t.part q).counters } := by
  have helse := (sameElse_tally s1 p key n c o).trans (sameElse_setWarp _ c o y)
  have hcore : ((s1.tally p key n).setWarp c o y).core c = { s1.core c with warps := (s1.core c).warps.put o y } := by
    simp only [State.setWarp, core_setCore_self]
    rfl
  have hparts : t.parts = ((s1.tally p key n).setWarp c o y).parts := by rw [h.state]
  refine ⟨by rw [h.warp?]; exact warp?_setWarp_self .., ?_, fun k hk => (h.cores k hk).trans (helse.cores k hk),
    fun i hi => (h.warp? c i).trans (helse.warps i hi), by rw [h.core, hcore], fun q => ?_⟩
  · rw [h.state, helse.state]
  · have hq : t.part q = ((s1.tally p key n).setWarp c o y).part q := by simp only [State.part, hparts]
    rw [hq]
    exact helse.parts q

/-! ### WARP_REFILL (02 R53) -/

/-- A warp with the names of its record back. -/
def Warp.refilled (w : Warp) (bs : List Byte) (cycle : Nat) : Warp :=
  { w with evicted := false, names := namesOfRecord bs w.screeNames, screeNames := 0, queued := cycle }

theorem warpRefill_stays (hw : s.warp? c o = some w)
    (h : ¬(s.nextRefill c w.ctx = some o ∧ s.refillable w = true ∧ s.canAllocate c o w w.screeNames = true)) :
    exec (.warpRefill c o) s = .next s := by
  have he : exec (.warpRefill c o) s = execWarpRefill c o s := rfl
  rw [he, execWarpRefill, hw]
  exact if_neg (by simpa [and_assoc] using h)

theorem warpRefill_reads {bs : List Byte} (hw : s.warp? c o = some w)
    (h : s.nextRefill c w.ctx = some o ∧ s.refillable w = true ∧ s.canAllocate c o w w.screeNames = true)
    (hv : s.vaRead (.core c) w.ctx (s.recordAt w.ctx c o) (1088 + 144 * w.screeNames) true false = (.ok bs, s1)) :
    exec (.warpRefill c o) s = .next ((((s1.tally (s1.partOfCore c) 40 1).setWarp c o (w.refilled bs s.cycle)).modCore c fun k =>
      { k with pending := k.pending ++ [o] }).fillActive c) := by
  have he : exec (.warpRefill c o) s = execWarpRefill c o s := rfl
  rw [he, execWarpRefill, hw]
  dsimp only
  rw [if_pos (by simpa [and_assoc] using h), hv]
  rfl

end Sys2Proof.Machine

open Sys2Proof Sys2Proof.Machine

/-- Settles O45: each event of a warp acts under the condition that the statement names, and what it leaves is said by the
lemmas on the sets of a core and on a wait that ends. -/
theorem warpEvents : Obligations.WarpEvents := by
  unfold Obligations.WarpEvents
  refine ⟨⟨fun s c out into w hw => ?swap, fun s c o w hw => ?timeout, fun s s1 c o w hw hev hlive => ?eviction,
    fun s c o w hw => ?refill, fun s c o m n w hw hstall hleaving hactive => ?allocation⟩,
    fun s c o i w lanes since due hw hev => ⟨fun g p y d hi => ?barrier, fun id cmp x q d hi => ?fence,
      fun wake zero hi => ?sleep⟩⟩
  case swap =>
    intro counts blocked late ready first
    have hblocked : s.swappable c out w = true ↔ blocked := by
      rw [swappable_iff]
      simp only [stallSwaps_iff]
      exact Iff.rfl
    have hfirst : s.nextPending c = some into ↔ first := by
      rw [nextPending_iff]
      simp only [ready_iff]
      exact Iff.rfl
    have hlate : s.overdue c into = true ↔ late := overdue_iff
    have ht := exec_warpSwapOut (into := into) hw
    refine ⟨fun ha hb hf => ?_, fun hno => ?_⟩
    case refine_2 =>
      rw [ht, if_neg fun h => hno ⟨h.1, h.2.1.imp hblocked.1 hlate.1, hfirst.1 h.2.2⟩]
    rw [if_pos ⟨ha, hb.imp hblocked.2 hlate.2, hfirst.2 hf⟩] at ht
    have helse := sameElse_setWarp (s.modCore c fun k => k.exchanged out into) c out { w with queued := s.cycle }
    refine ⟨_, ht, rfl, fun k hk => ?_, ?_, warp?_setWarp_self .., fun i hi => ?_⟩
    · rw [helse.cores k hk, State.modCore, core_setCore, if_neg hk.symm]
    · simp only [State.setWarp, State.modCore, core_setCore_self]
      rfl
    · exact (helse.warps i hi).trans (warp?_modCore rfl c i)
  case timeout =>
    intro counts blocked
    have ht := exec_syncBlockTimeout hw
    have hblocked : (∃ x, w.stall = some x ∧ s.stallBlocks c o w x.kind = true ∧ x.since + 4096 ≤ s.cycle) ↔ blocked := by
      simp only [stallBlocks_iff]
      exact Iff.rfl
    exact ⟨fun hb => ht.trans (congrArg _ (if_pos (hblocked.2 hb))), fun hb => ht.trans (congrArg _ (if_neg (hblocked.not.2 hb)))⟩
  case eviction =>
    intro chosen ready
    have ht := exec_warpEviction hw
    refine ⟨fun hchosen hready hv => ?_, fun hchosen hready => ?_, fun hchosen => by rw [ht, if_neg hchosen]⟩
    · rw [if_pos hchosen, evict_settled hw hev hlive hready hv] at ht
      have hsets := (setsOnly_modCore (f := fun k => k.unschedule o) rfl).trans
        (setsOnly_fillActive (s := ((s1.tally (s1.partOfCore c) 32 1).setWarp c o w.evictedAs).modCore c fun k => k.unschedule o))
      obtain ⟨hwarp, hstate, hcores, hwarps, hcore, hparts⟩ := warpMoved hsets
      obtain ⟨hactive, hpending⟩ := unscheduled_fillActive (s := (s1.tally (s1.partOfCore c) 32 1).setWarp c o w.evictedAs) (c := c) (o := o)
      exact ⟨_, ht, hactive, hpending, hwarp, hstate, hcores, hwarps, hcore, hparts⟩
    · rw [ht, if_pos hchosen, evict_unsettled hw hev hlive hready]
  case refill =>
    intro may
    refine ⟨fun hno => warpRefill_stays hw hno, fun s1 bs hmay hv => ?_⟩
    have hsets := (setsOnly_modCore (f := fun k : Core => { k with pending := k.pending ++ [o] }) rfl).trans
      (setsOnly_fillActive (s := ((s1.tally (s1.partOfCore c) 40 1).setWarp c o (w.refilled bs s.cycle)).modCore c fun k =>
        { k with pending := k.pending ++ [o] }))
    obtain ⟨hwarp, hstate, hcores, hwarps, hcore, -⟩ := warpMoved hsets
    refine ⟨_, warpRefill_reads hw hmay hv, (mem_fillActive o).2 (.inr ?_), hwarp, hstate, hcores, hwarps, hcore⟩
    simp [State.modCore]
  case allocation =>
    have he : exec (.slotAllocation c o) s = execSlotAllocation c o s := rfl
    have hcond : (w.stalledAlloc && !w.leaving && (s.core c).active.contains o) = true := by
      rw [Warp.stalledAlloc, hstall, hleaving, hactive]
      rfl
    rw [he, execSlotAllocation, hw]
    exact if_pos hcond
  case barrier =>
    refine ⟨fun x hx => barrierWaiterRelease_ends hw hev hi (by rw [hx]; rfl), fun k x hdue hg hph => ?_, fun hdue hsame => ?_⟩
    · subst hdue
      refine barrierWaiterRelease_ends hw hev hi ?_
      rw [barrierReady_none hg, if_neg hph]
      cases p <;> rfl
    · subst hdue
      refine (exec_barrierWaiterRelease hw hi).trans (congrArg _ (returnBarrier_waits hw ?_ lanes d))
      cases hg : s.group? w g with
      | none => simp only [State.barrierReady, hg]
      | some q => rw [barrierReady_none hg, if_pos (hsame q.1 q.2 hg)]
  case fence =>
    intro v ok
    have ht := exec_fwaitRelease hw hi
    rw [returnFence_eq hw hev] at ht
    refine ⟨fun hok => ?_, fun hno => ?_⟩
    · rw [if_pos ((fenceHolds_iff ..).2 hok)] at ht
      exact ⟨_, _, ht, waitEnded_returned, l1_invalidate .., gives_returned⟩
    · rwa [if_neg (fun h => hno ((fenceHolds_iff ..).1 h))] at ht
  case sleep =>
    intro ok
    have ht := exec_sleepExpiry hw hi
    refine ⟨fun hok => ⟨_, _, ht.trans (congrArg _ (if_pos hok)), waitEnded_pastWait, l1_setWarp ..⟩,
      fun hno => ht.trans (congrArg _ (if_neg hno))⟩

end

section
/-! SUPPORT. Traffic to memory and the command processor's reads and writes: what they leave as it was (19 R289, R290; 20 R321). -/

namespace Sys2Proof.Machine

/-! ### Traffic to memory: what it leaves as it was -/

/-- `t` is `s` but for memory and the lines of the L2s that hold it, translations, and the count of bytes moved. -/
def MemOnly (s t : State) : Prop :=
  t = { s with dev := t.dev, dram := t.dram, host := t.host, hostBehind := t.hostBehind, l2 := t.l2, poison := t.poison
               bytes := t.bytes, tlb := t.tlb, walks := t.walks }

namespace MemOnly

variable {s t u : State}

theorem rfl' (s : State) : MemOnly s s := rfl

theorem trans (h : MemOnly s t) (g : MemOnly t u) : MemOnly s u := by
  rw [MemOnly] at h g ⊢
  rw [g, h]

theorem launches (h : MemOnly s t) : t.launches = s.launches := by rw [h]
theorem ctxs (h : MemOnly s t) : t.ctxs = s.ctxs := by rw [h]
theorem blocks (h : MemOnly s t) : t.blocks = s.blocks := by rw [h]
theorem cores (h : MemOnly s t) : t.cores = s.cores := by rw [h]
theorem parts (h : MemOnly s t) : t.parts = s.parts := by rw [h]

theorem foldl {α : Type} {f : State → α → State} (hf : ∀ s x, MemOnly s (f s x)) : ∀ (xs : List α) (s : State),
    MemOnly s (xs.foldl f s)
  | [], s => rfl' s
  | x :: xs, s => (hf s x).trans (foldl hf xs (f s x))

/-- A step in two cases. -/
theorem ite {c : Prop} [Decidable c] (h : MemOnly s t) (g : MemOnly s u) : MemOnly s (if c then t else u) := by
  split
  · exact h
  · exact g

end MemOnly

variable (s : State)

theorem memOnly_cleanLine (l : L2Line) : MemOnly s (s.cleanLine l) := by
  simp only [State.cleanLine]
  split <;> rfl

theorem memOnly_giveUpLine (l : L2Line) : MemOnly s (s.giveUpLine l) := by
  have h := memOnly_cleanLine s l
  simp only [State.giveUpLine]
  split <;> exact h.trans rfl

theorem memOnly_l2Add (x : L2Line) : MemOnly s (s.l2Add x) := by
  have hroom : MemOnly s (if (s.l2.filter fun l => l.set == x.set).length < 16 then s
      else match victimOf L2Line.hint (s.l2.filter fun l => l.set == x.set) with
        | some l => s.giveUpLine l
        | none => s) := by
    refine .ite (.rfl' s) ?_
    split
    · exact memOnly_giveUpLine s _
    · exact .rfl' s
  exact hroom.trans rfl

theorem memOnly_l2Hold (x : L2Line) : MemOnly s (s.l2Hold x) := by
  simp only [State.l2Hold]
  split
  · exact .ite rfl ((memOnly_giveUpLine s _).trans (memOnly_l2Add _ x))
  · exact memOnly_l2Add s x

theorem memOnly_countAt (x : Nat) (p : Phys) (n : Nat) : MemOnly s (s.countAt x p n) := rfl

theorem memOnly_homeWrite (p : Nat) (a : Phys) (bs : List Byte) : MemOnly s (s.homeWrite p a bs) := by
  have h := MemOnly.foldl (f := fun s l => s.l2Hold ⟨a.host, l, s.l2Set p a.host l, lineBits l a.addr bs.length, 0⟩)
    (fun s l => memOnly_l2Hold s _) (linesFrom a.addr bs.length) s
  simp only [State.homeWrite]
  split <;> exact h.trans rfl

theorem memOnly_behindWrite (x : Nat) (p : Phys) (bs : List Byte) : MemOnly s (s.behindWrite x p bs) := by
  simp only [State.behindWrite]
  split <;> rfl

theorem memOnly_pageWrite (t : Xlated) (bs : List Byte) : MemOnly s (s.pageWrite t bs) :=
  .ite (memOnly_behindWrite s _ _ _) ((memOnly_countAt s _ _ _).trans (memOnly_homeWrite _ _ _ _))

theorem memOnly_translate (u : TUnit) (x va : Nat) (k : AccKind) (sys peer fresh : Bool) :
    MemOnly s (s.translate u x va k sys peer fresh).2 := by
  rw [MemOnly, translate_state]

theorem memOnly_vaReadGo (u : TUnit) (x : Nat) (sys fresh : Bool) : ∀ (ps : List (Nat × Nat)) (s : State),
    MemOnly s (State.vaReadGo u x sys fresh ps s).2
  | [], s => .rfl' s
  | (va, n) :: ps, s => by
    have ht := memOnly_translate s u x va .read sys false fresh
    simp only [State.vaReadGo]
    split
    · exact .rfl' s
    · split
      · next he => rw [he] at ht; exact ht
      · next s1 he =>
        rw [he] at ht
        have hr := memOnly_vaReadGo u x sys fresh ps s1
        split
        · exact ht
        · split
          · next hq => rw [hq] at hr; exact ht.trans hr
          · next hq => rw [hq] at hr; exact (ht.trans hr).trans rfl

theorem memOnly_vaRead (u : TUnit) (x va n : Nat) (sys fresh : Bool) : MemOnly s (s.vaRead u x va n sys fresh).2 :=
  memOnly_vaReadGo u x sys fresh _ s

theorem memOnly_vaWriteGo (u : TUnit) (x : Nat) (sys fresh : Bool) : ∀ (ps : List (Nat × Nat)) (bs : List Byte) (s : State),
    MemOnly s (State.vaWriteGo u x sys fresh ps bs s).2
  | [], _, s => .rfl' s
  | (va, n) :: ps, bs, s => by
    have ht := memOnly_translate s u x va .write sys false fresh
    simp only [State.vaWriteGo]
    split
    · exact .rfl' s
    · split
      · next he => rw [he] at ht; exact ht
      · next he =>
        rw [he] at ht
        exact (ht.trans (memOnly_pageWrite _ _ _)).trans (memOnly_vaWriteGo u x sys fresh ps _ _)

theorem memOnly_vaWrite (u : TUnit) (x va : Nat) (bs : List Byte) (sys fresh : Bool) :
    MemOnly s (s.vaWrite u x va bs sys fresh).2 := memOnly_vaWriteGo u x sys fresh _ bs s

/-! ### The command processor's reads and writes (19 R289, R290; 20 R321) -/

/-- `t` is `s` but for memory and translations, page requests, posted records, and what the command processors keep: their waits,
the statuses that they owe, and counters. -/
structure CpOnly (s t : State) : Prop where
  state : t = { s with dev := t.dev, dram := t.dram, host := t.host, hostBehind := t.hostBehind, l2 := t.l2, poison := t.poison
                       bytes := t.bytes, tlb := t.tlb, walks := t.walks, parts := t.parts, fns := t.fns, preqs := t.preqs
                       preqSeqs := t.preqSeqs, preqHeld := t.preqHeld, ridseq := t.ridseq, evHeld := t.evHeld, msix := t.msix }
  parts : ∀ p, t.part p = { s.part p with cpWaits := (t.part p).cpWaits, statusOwed := (t.part p).statusOwed
                                          counters := (t.part p).counters, tableCount := (t.part p).tableCount }

namespace CpOnly

variable {s t u : State}

theorem rfl' (s : State) : CpOnly s s := ⟨rfl, fun _ => rfl⟩

theorem trans (h : CpOnly s t) (g : CpOnly t u) : CpOnly s u where
  state := by rw [g.state, h.state]
  parts p := by rw [g.parts p, h.parts p]

theorem of_memOnly (h : MemOnly s t) : CpOnly s t where
  state := by rw [h]
  parts p := by
    have hp : t.part p = s.part p := by simp only [State.part, h.parts]
    rw [hp]

theorem launches (h : CpOnly s t) : t.launches = s.launches := by rw [h.state]
theorem ctxs (h : CpOnly s t) : t.ctxs = s.ctxs := by rw [h.state]
theorem blocks (h : CpOnly s t) : t.blocks = s.blocks := by rw [h.state]
theorem cores (h : CpOnly s t) : t.cores = s.cores := by rw [h.state]
theorem groups (h : CpOnly s t) : t.groups = s.groups := by rw [h.state]
theorem spad (h : CpOnly s t) : t.spad = s.spad := by rw [h.state]
theorem ctx (h : CpOnly s t) (x : Nat) : t.ctx x = s.ctx x := by simp only [State.ctx, h.ctxs]
theorem launch (h : CpOnly s t) (n : Nat) : t.launch n = s.launch n := by simp only [State.launch, h.launches]
theorem core (h : CpOnly s t) (c : Nat) : t.core c = s.core c := by simp only [State.core, h.cores]
theorem warp? (h : CpOnly s t) (c o : Nat) : t.warp? c o = s.warp? c o := by simp only [State.warp?, h.core]
theorem fence (h : CpOnly s t) (p id : Nat) : (t.part p).fence id = (s.part p).fence id := by rw [h.parts p]; rfl

end CpOnly

/-- A change of what a command processor keeps. -/
theorem cpOnly_modPart (p : Nat) {f : Part → Part} (hf : f (s.part p) = { s.part p with
    cpWaits := (f (s.part p)).cpWaits, statusOwed := (f (s.part p)).statusOwed, counters := (f (s.part p)).counters,
    tableCount := (f (s.part p)).tableCount }) : CpOnly s (s.modPart p f) where
  state := rfl
  parts q := by
    simp only [part_modPart]
    split
    · next h => subst h; exact hf
    · rfl

theorem cpOnly_post (fn : Nat) (r : EvRec) : CpOnly s (s.post fn r) := by
  rw [State.post]
  split <;> exact ⟨rfl, fun _ => rfl⟩

theorem cpOnly_tally (p key n : Nat) : CpOnly s (s.tally p key n) := cpOnly_modPart s p rfl

theorem cpOnly_takeTag (tag : Nat) (r : PReq) : CpOnly s (s.takeTag tag r) := by
  have hwrite : CpOnly s _ := .of_memOnly (memOnly_homeWrite s r.part (physOf ((s.part r.part).tableBase.toNat + 32 * tag))
    (preqBytes tag { r with seq := nextSeq (s.preqSeqs.getD tag 0) }))
  exact (((hwrite.trans (cpOnly_modPart _ r.part rfl)).trans (cpOnly_tally _ _ _ _)).trans (cpOnly_tally _ _ _ _)).trans
    ⟨rfl, fun _ => rfl⟩

theorem cpOnly_requestPage (u : TUnit) (x va : Nat) (k : AccKind) (f : XFault) : CpOnly s (s.requestPage u x va k f).2 := by
  simp only [State.requestPage]
  split
  · exact ⟨rfl, fun _ => rfl⟩
  · split
    · exact ⟨rfl, fun _ => rfl⟩
    · split
      · exact CpOnly.trans (t := { s with ridseq := s.ridseq + 1 }) ⟨rfl, fun _ => rfl⟩ (cpOnly_takeTag ..)
      · exact ⟨rfl, fun _ => rfl⟩

theorem cpOnly_noticeS1 (x : Nat) (r : EvRec) : CpOnly s (s.noticeS1 x r) := cpOnly_post s _ _

theorem cpOnly_awaitPage (u : TUnit) (x va : Nat) (k : AccKind) (f : XFault) (r : EvRec) :
    CpOnly s (s.awaitPage u x va k f r).2 := by
  rw [State.awaitPage]
  split
  · exact cpOnly_requestPage ..
  · exact cpOnly_noticeS1 s x _

theorem dropWaits_eq (p : Part) (j : CpWork) (x : Nat) (ps : List (Nat × Nat)) :
    p.dropWaits j x ps = { p with cpWaits := (p.dropWaits j x ps).cpWaits } := by
  unfold Part.dropWaits
  induction ps generalizing p with
  | nil => rfl
  | cons q ps ih =>
    rw [List.foldl_cons, ih]
    rfl

theorem cpOnly_dropWaits (p : Nat) (j : CpWork) (x : Nat) (ps : List (Nat × Nat)) :
    CpOnly s (s.modPart p fun q => q.dropWaits j x ps) := by
  refine cpOnly_modPart s p ?_
  rw [dropWaits_eq]

theorem cpOnly_putWait (p : Nat) (j : CpWork) (x va : Nat) (w : PageWait) : CpOnly s (s.modPart p fun q => q.putWait j x va w) :=
  cpOnly_modPart s p (f := fun q => q.putWait j x va w) rfl

theorem cpOnly_dropWait (p : Nat) (j : CpWork) (x va : Nat) : CpOnly s (s.modPart p fun q => q.dropWait j x va) :=
  cpOnly_modPart s p (f := fun q => q.dropWait j x va) rfl

theorem cpOnly_cpAwait (j : CpWork) (p x va : Nat) (k : AccKind) (f : XFault) : CpOnly s (s.cpAwait j p x va k f).2 :=
  (cpOnly_awaitPage s (.cp p) x va k f _).trans (cpOnly_putWait _ p j x va _)

theorem cpOnly_cpFault (j : CpWork) (p x va : Nat) (k : AccKind) (f : XFault) : CpOnly s (s.cpFault j p x va k f).2 := by
  rw [State.cpFault]
  repeat' split
  · exact cpOnly_dropWait ..
  · exact cpOnly_putWait ..
  · exact cpOnly_cpAwait ..
  · exact cpOnly_cpAwait ..

theorem cpOnly_cpRead (j : CpWork) (p x va n : Nat) : CpOnly s (s.cpRead j p x va n).2 := by
  simp only [State.cpRead]
  split
  · exact cpOnly_dropWaits ..
  · exact .rfl' s
  · next fresh _ =>
    have hr := CpOnly.of_memOnly (memOnly_vaRead s (.cp p) x va n true fresh)
    split
    · next he => rw [he] at hr; exact hr.trans (cpOnly_dropWaits ..)
    · next y at_ s1 he =>
      rw [he] at hr
      have hf := hr.trans (cpOnly_cpFault s1 j p x at_ .read y)
      dsimp only
      split
      · exact hf
      · exact hf.trans (cpOnly_dropWaits ..)

theorem cpOnly_cpWrite (j : CpWork) (p x va : Nat) (bs : List Byte) : CpOnly s (s.cpWrite j p x va bs).2 := by
  simp only [State.cpWrite]
  split
  · exact cpOnly_dropWaits ..
  · exact .rfl' s
  · next fresh _ =>
    have hr := CpOnly.of_memOnly (memOnly_vaWrite s (.cp p) x va bs true fresh)
    split
    · next he => rw [he] at hr; exact hr.trans (cpOnly_dropWaits ..)
    · next y at_ s1 he =>
      rw [he] at hr
      have hf := hr.trans (cpOnly_cpFault s1 j p x at_ .write y)
      dsimp only
      split
      · exact hf
      · exact hf.trans (cpOnly_dropWaits ..)

theorem cpOnly_cpReads (j : CpWork) (p x : Nat) : ∀ (ps : List (Nat × Nat)) (s : State),
    CpOnly s (State.cpReads j p x ps s).2
  | [], s => .rfl' s
  | (a, n) :: ps, s => by
    have hr : CpOnly s (if n = 0 then (.ok [], s) else s.cpRead j p x a n : Except CpStop (List Byte) × State).2 := by
      split
      · exact .rfl' s
      · exact cpOnly_cpRead ..
    simp only [State.cpReads]
    split
    · next he => rw [he] at hr; exact hr
    · next s1 he =>
      rw [he] at hr
      have hrest := cpOnly_cpReads j p x ps s1
      split
      · next hq => rw [hq] at hrest; exact hr.trans hrest
      · next hq => rw [hq] at hrest; exact hr.trans hrest

theorem cpOnly_statusOwed (p : Nat) (f : List Nat → List Nat) :
    CpOnly s (s.modPart p fun q => { q with statusOwed := f q.statusOwed }) :=
  cpOnly_modPart s p (f := fun q => { q with statusOwed := f q.statusOwed }) rfl

/-- The write of a launch's status changes no launch (19 R290). -/
theorem cpOnly_writeStatus (n : Nat) : CpOnly s (s.writeStatus n) := by
  simp only [State.writeStatus]
  have hw := cpOnly_cpWrite s (.status n) (s.launch n).part (s.launch n).ctx (s.launch n).statusAddr (s.launch n).statusBytes
  split
  · next he => rw [he] at hw; exact hw.trans (cpOnly_statusOwed _ _ fun o => o.filter (· != n))
  · next he => rw [he] at hw; exact hw.trans (cpOnly_statusOwed _ _ fun o => o.filter (· != n) ++ [n])
  · next he =>
    rw [he] at hw
    have hm := hw.trans (cpOnly_statusOwed _ (s.launch n).part fun o => o.filter (· != n))
    split
    · exact hm
    · exact hm.trans (cpOnly_post ..)

end Sys2Proof.Machine

end

section
/-! SUPPORT. The checks of a launch record, and a record that is queued (19 R288, R289, R297); and O48. -/

namespace Sys2Proof

/-! ### A key that a table does not list -/

theorem Tab.fresh_le {α : Type} (t : Tab α) (m : Nat) : m ≤ t.foldl (fun m e => max m (e.1 + 1)) m := by
  induction t generalizing m with
  | nil => exact le_rfl
  | cons e t ih => exact (le_max_left _ _).trans (ih _)

theorem Tab.lt_fresh {α : Type} {t : Tab α} {e : Nat × α} (he : e ∈ t) (m : Nat) :
    e.1 < t.foldl (fun m e => max m (e.1 + 1)) m := by
  induction t generalizing m with
  | nil => cases he
  | cons x t ih =>
    rcases List.mem_cons.1 he with rfl | he
    · exact (le_max_right m (e.1 + 1)).trans (Tab.fresh_le t _)
    · exact ih he _

theorem Tab.get?_eq_none {α : Type} {t : Tab α} {k : Nat} (h : ∀ e ∈ t, e.1 ≠ k) : t.get? k = none := by
  induction t with
  | nil => rfl
  | cons e t ih =>
    obtain ⟨j, x⟩ := e
    have hj : j ≠ k := h (j, x) (List.mem_cons_self ..)
    rw [Tab.get?, if_neg hj]
    exact ih fun e he => h e (List.mem_cons_of_mem _ he)

theorem Tab.get?_fresh {α : Type} (t : Tab α) : t.get? t.fresh = none :=
  Tab.get?_eq_none fun _ he => (Tab.lt_fresh he 0).ne

end Sys2Proof

namespace Sys2Proof.Machine

/-! ### The checks of a launch record (19 R289) -/

/-- The reason of the first check that fails; 0 where none does. -/
def firstFailing : List (Bool × Nat) → Nat
  | [] => 0
  | (failed, reason) :: rest => if failed then reason else firstFailing rest

theorem firstFailing_mem (l : List (Bool × Nat)) : firstFailing l ∈ 0 :: l.map (·.2) := by
  induction l with
  | nil => simp [firstFailing]
  | cons c l ih =>
    rw [firstFailing]
    split
    · simp
    · rcases List.mem_cons.1 ih with h | h
      · simp [h]
      · simp [h]

/-- Where no check fails, each has passed. -/
theorem firstFailing_passes {l : List (Bool × Nat)} (hl : ∀ c ∈ l, c.2 ≠ 0) (h : firstFailing l = 0) : ∀ c ∈ l, c.1 = false := by
  induction l with
  | nil => simp
  | cons c l ih =>
    rw [firstFailing] at h
    split at h
    · exact absurd h (hl c (List.mem_cons_self ..))
    · next hc =>
      intro x hx
      rcases List.mem_cons.1 hx with rfl | hx
      · simpa using hc
      · exact ih (fun c hc => hl c (List.mem_cons_of_mem _ hc)) h x hx

/-- A check that fails gives its reason where none before it does. -/
theorem firstFailing_of {l : List (Bool × Nat)} {k reason : Nat} (hk : l[k]? = some (true, reason))
    (h : firstFailing l ∉ (l.take k).map (·.2)) : firstFailing l = reason := by
  induction l generalizing k with
  | nil => cases hk
  | cons c l ih =>
    cases k with
    | zero =>
      obtain rfl : c = (true, reason) := by simpa using hk
      rfl
    | succ k =>
      rw [firstFailing] at h ⊢
      split
      · next hc => simp [hc] at h
      · next hc =>
        rw [if_neg hc] at h
        exact ih (by simpa using hk) fun hm => h (by simpa using .inr (by simpa using hm))

/-- The checks of a launch record in their order, each with its reason. -/
def launchChecks (p : Part) (d : Desc) (det : Bool) (addr : Nat) (x : LaunchData) : List (Bool × Nat) :=
  let f := fieldAt x.record
  let flags := f 23 1
  [(f 6 2 != 0 || f 106 2 != 0 || f 140 4 != 0 || f 180 76 != 0 || flags.testBit 7 || flags / 32 % 4 == 3 ||
      (f 104 2 == 0 && f 96 8 != 0), 0x02),
    ((List.range 8).any fun i => !slotValid (BitVec.ofNat 64 (f (32 + 8 * i) 8)), 0x03),
    (shapeBad (f 20 2) (f 22 1), 0x04),
    (decide (f 24 2 < 1 ∨ 320 < f 24 2), 0x05),
    (decide (4096 < f 26 2 ∨ (f 26 2 ≠ 0 ∧ f 26 2 < f 24 2)), 0x06),
    (decide (1572864 < f 28 4), 0x07),
    (decide (256 < f 104 2) || groupsBad x.masks, 0x08),
    (addr % 256 != 0 || f 112 8 % 8 != 0 || f 128 8 % 4 != 0 || f 160 8 % 32 != 0 || decide (4095 < f 136 2) ||
      decide (4095 < f 138 2) || f 176 4 % 32 != 0, 0x09),
    (decide (2 ^ 32 ≤ f 8 4 * f 12 4 * f 16 4 * f 20 2 ∨ (flags.testBit 3 ∧ (f 8 4 ≠ 0 ∨ f 12 4 ≠ 0 ∨ f 16 4 ≠ 0))), 0x0A),
    (flags.testBit 1 && (decide (p.positions (f 22 1) < f 8 4 * f 12 4 * f 16 4) || x.tables.any tableBad), 0x0B),
    ((flags.testBit 0 && (f 168 8 == 0 || !det)) || (f 120 8 != 0 && !flags.testBit 1), 0x0C),
    (decide (d.hs < f 24 2 ∨ d.screeStride < 64 * recordSize d.hs + 786432), 0x0D)]

variable (p : Part) (d : Desc) (det : Bool) (addr : Nat) (x : LaunchData)

theorem rejectReason_eq : rejectReason p d det addr x = firstFailing (launchChecks p d det addr x) := by
  simp only [rejectReason, firstFailing, launchChecks, decide_eq_true_eq]

variable {p d det addr x}

/-- A failing check of a record gives its reason where no reason before it does. -/
theorem rejectReason_of {k reason : Nat} {failed : Bool} (hk : (launchChecks p d det addr x)[k]? = some (failed, reason))
    (hfailed : failed = true) (h : rejectReason p d det addr x ∉ ((launchChecks p d det addr x).take k).map (·.2)) :
    rejectReason p d det addr x = reason := by
  subst hfailed
  rw [rejectReason_eq] at h ⊢
  exact firstFailing_of hk h

theorem rejectReason_passes (h : rejectReason p d det addr x = 0) : ∀ c ∈ launchChecks p d det addr x, c.1 = false := by
  rw [rejectReason_eq] at h
  refine firstFailing_passes (fun c hc => ?_) h
  have hr : c.2 ∈ (launchChecks p d det addr x).map (·.2) := List.mem_map_of_mem hc
  revert hr
  generalize c.2 = r
  simp only [launchChecks, List.map_cons, List.map_nil, List.mem_cons, List.not_mem_nil, or_false]
  omega

theorem shapeBad_iff (w c : Nat) : shapeBad w c = false ↔
    1 ≤ w ∧ w ≤ 128 ∧ among c [1, 2, 4, 8] = true ∧ w % c = 0 ∧ w / c ≤ 64 := by
  simp [shapeBad, and_assoc]
  omega

/-- What an accepted record fulfils (19 R289). -/
theorem accepted_fields (h : rejectReason p d det addr x = 0) (f : Nat → Nat → Nat) (hf : f = fieldAt x.record) :
    1 ≤ f 20 2 ∧ f 20 2 ≤ 128 ∧ f 20 2 % f 22 1 = 0 ∧ f 20 2 / f 22 1 ≤ 64 ∧ 1 ≤ f 24 2 ∧ f 24 2 ≤ 320 ∧ f 24 2 ≤ d.hs ∧
      f 26 2 ≤ 4096 ∧ (f 26 2 = 0 ∨ f 24 2 ≤ f 26 2) ∧ f 28 4 ≤ 1572864 ∧ f 104 2 ≤ 256 ∧ addr % 256 = 0 ∧
      f 160 8 % 32 = 0 ∧ f 8 4 * f 12 4 * f 16 4 * f 20 2 < 2 ^ 32 := by
  subst hf
  have hpass := rejectReason_passes h
  simp only [launchChecks, List.forall_mem_cons, List.not_mem_nil, false_imp_iff, implies_true, and_true] at hpass
  obtain ⟨-, -, hshape, hmark, hquota, hscratch, hgroups, haligned, hgrid, -, -, hscree⟩ := hpass
  obtain ⟨hw1, hw2, -, hmod, hdiv⟩ := (shapeBad_iff ..).1 hshape
  simp only [Bool.or_eq_false_iff, bne_eq_false_iff_eq, decide_eq_false_iff_not] at hmark hquota hscratch hgroups haligned hgrid hscree
  obtain ⟨⟨⟨⟨⟨⟨haddr, -⟩, -⟩, hstatus⟩, -⟩, -⟩, -⟩ := haligned
  exact ⟨hw1, hw2, hmod, hdiv, by omega, by omega, by omega, by omega, by omega, by omega, by omega, haddr, hstatus,
    by omega⟩

/-! ### A record that is queued (01 R17; 19 R288) -/

/-- The launch that a queued record becomes. -/
def State.queuedAs (s : State) (l : Launch) : Launch :=
  { l with ident := BitVec.ofNat 20 (s.ctx l.ctx).launchSeq, state := if l.flag 3 then 1 else l.state }

theorem queueLaunch_spec (s : State) (l : Launch) : ∃ t, s.queueLaunch l = (s.launches.fresh, t) ∧
    t.launches.get? s.launches.fresh = some (s.queuedAs l) ∧
    (t.ctx l.ctx).launchSeq = ((s.ctx l.ctx).launchSeq + 1) % 2 ^ 20 := by
  let n := s.launches.fresh
  let l1 : Launch := { l with ident := BitVec.ofNat 20 (s.ctx l.ctx).launchSeq }
  obtain ⟨s1, hs1⟩ : ∃ s1, s1 = ({ s with launches := s.launches.put n l1 } : State).writeStatus n := ⟨_, rfl⟩
  have hlaunch : s1.launches.get? n = some l1 := by
    rw [hs1, (cpOnly_writeStatus ..).launches]
    exact Tab.get?_put_self ..
  obtain ⟨s2, hs2⟩ : ∃ s2, s2 = s1.modCtx l.ctx fun c => { c with launchSeq := ((s.ctx l.ctx).launchSeq + 1) % 2 ^ 20 } := ⟨_, rfl⟩
  have hlaunch2 : s2.launches.get? n = some l1 := by rw [hs2]; exact hlaunch
  have hseq : (s2.ctx l.ctx).launchSeq = ((s.ctx l.ctx).launchSeq + 1) % 2 ^ 20 := by rw [hs2, ctx_modCtx, if_pos rfl]
  have hq : s.queueLaunch l = (n, if l.flag 3 then (s2.modLaunch n fun l => { l with state := 1 }).writeStatus n else s2) := by
    rw [hs2, hs1]
    rfl
  refine ⟨_, hq, ?_⟩
  rw [State.queuedAs]
  split
  · have hw := cpOnly_writeStatus (s2.modLaunch n fun l => { l with state := 1 }) n
    refine ⟨?_, ?_⟩
    · rw [hw.launches, launches_modLaunch, if_pos rfl, hlaunch2]
      rfl
    · rw [hw.ctx, State.modLaunch, hlaunch2]
      exact hseq
  · exact ⟨hlaunch2, hseq⟩

/-- A record that has been read, and is queued (19 R289). -/
theorem takeRecord_queued {s t : State} {j : CpWork} {p x fn q addr n : Nat} {r : List Byte}
    (h : s.takeRecord j p x fn q addr (some r) = (.queued n, t)) :
    ∃ (s2 : State) (masks : List (BitVec 128)) (tables : List (List (BitVec 64))), s2.queueLaunch (launchOf p x fn q addr { record := r, masks := masks, tables := tables }) = (n, t) := by
  simp only [State.takeRecord] at h
  split at h
  · cases h
  · split at h
    · cases h
    · cases h
    · next bs s2 _ =>
      split at h
      · refine ⟨s2, masksOf (bs.getD 1 []), (bs.drop 2).map longsOf, ?_⟩
        cases h
        rfl
      · cases h

theorem takeRecord_keeps {s t : State} {j : CpWork} {p x fn q addr n : Nat} {r : List Byte}
    (h : s.takeRecord j p x fn q addr (some r) = (.queued n, t)) :
    (t.launch n).record = r ∧ (t.launch n).fmts = (List.range 8).map fun i => BitVec.ofNat 64 (fieldAt r (32 + 8 * i) 8) := by
  obtain ⟨s2, masks, tables, hq⟩ := takeRecord_queued h
  obtain ⟨u, hu, hlaunch, -⟩ := queueLaunch_spec s2 (launchOf p x fn q addr { record := r, masks := masks, tables := tables })
  cases hu.symm.trans hq
  have hl : t.launch s2.launches.fresh = s2.queuedAs (launchOf p x fn q addr { record := r, masks := masks, tables := tables }) := by
    rw [State.launch, Tab.getD, hlaunch]
    rfl
  rw [hl]
  exact ⟨rfl, rfl⟩

/-! ### GRID_READ (19 R297) -/

variable {s : State} {n : Nat} {l : Launch}

/-- What GRID_READ does with a launch that waits on its grid fence and has read nothing yet. -/
theorem exec_gridRead (hl : s.launches.get? n = some l) (hstate : l.state = 1) (hread : l.gridRead = false) (hseen : l.gridSeen = false) :
    exec (.gridRead n) s =
      if ((s.part l.part).fence (fieldAt l.record 136 2)).toNat < fieldAt l.record 144 8 % 2 ^ 64 then .next s
      else match (s.modLaunch n fun l => { l with gridSeen := true }).cpRead (.launch n) l.part l.ctx (fieldAt l.record 128 8) 12 with
        | (.error .waiting, s2) => .next s2
        | (.error (.refused _), s2) =>
          .next (((s2.modLaunch n fun l => { l with state := 4, reason := 1, endt := s2.time }).writeStatus n).postReject l.part l.recAddr 1)
        | (.ok bs, s2) =>
          let g := (fieldAt bs 0 4, fieldAt bs 4 4, fieldAt bs 8 4)
          if 2 ^ 32 ≤ g.1 * g.2.1 * g.2.2 * l.nwarps then
            .next (((s2.modLaunch n fun l => { l with state := 4, reason := 0x0A, grid := g, endt := s2.time }).writeStatus n).postReject
              l.part l.recAddr 0x0A)
          else .next ((s2.modLaunch n fun l => { l with grid := g, gridRead := true }).writeStatus n) := by
  have he : exec (.gridRead n) s = execGridRead n s := rfl
  rw [he, execGridRead, hl]
  simp only [hstate, hread, hseen, bne_self_eq_false, Bool.false_or, Bool.not_eq_true', fenceHolds, decide_eq_false_iff_not,
    BitVec.toNat_ofNat, not_le] <;> rfl

/-- The launch that GRID_READ has changed: neither the write of its status nor the report of its rejection changes it. -/
theorem launch_gridRead {s2 : State} (hl : s2.launches.get? n = some l) (g : Launch → Launch) (p addr reason : Nat) :
    ((s2.modLaunch n g).writeStatus n).launch n = g l ∧
      (((s2.modLaunch n g).writeStatus n).postReject p addr reason).launch n = g l := by
  have hw := (cpOnly_writeStatus (s2.modLaunch n g) n).launch n
  have hp := (cpOnly_post ((s2.modLaunch n g).writeStatus n) (pfKey p) { EvRec.zero with
    time := BitVec.ofNat 64 ((s2.modLaunch n g).writeStatus n).time, addr := BitVec.ofNat 64 addr
    info := BitVec.ofNat 32 reason, unit := 3, vf := 0xFF, kind := 6 }).launch n
  rw [launch_modLaunch _ _ _ _ hl, if_pos rfl] at hw
  exact ⟨hw, hp.trans hw⟩

end Sys2Proof.Machine

open Sys2Proof Sys2Proof.Machine

/-- Settles O48: the reason is that of the first check that fails; a queued record is kept whole; the grid is read once its fence
has reached its value. -/
theorem launchRecords : Obligations.LaunchRecords := by
  unfold Obligations.LaunchRecords
  refine ⟨fun p d det addr x => ?checks, fun s l hstate => ?queued, fun s t j p x fn q addr n r h => takeRecord_keeps h,
    fun s n l hl hstate hread hseen => ?grid⟩
  case checks =>
    intro f r
    refine ⟨?_, fun h => accepted_fields h f rfl, fun h => rejectReason_of (k := 0) rfl ?_ (by simp), fun hr h => rejectReason_of (k := 2) rfl ?_ hr,
      fun hr h => rejectReason_of (k := 3) rfl ?_ hr, fun hr h1 h2 => rejectReason_of (k := 4) rfl ?_ hr,
      fun hr h => rejectReason_of (k := 5) rfl ?_ hr, fun hr h => rejectReason_of (k := 7) rfl ?_ hr,
      fun hr h => rejectReason_of (k := 8) rfl ?_ hr⟩
    · have h := firstFailing_mem (launchChecks p d det addr x)
      rwa [← rejectReason_eq] at h
    · have h' : (fieldAt x.record 6 2 != 0) = true := bne_iff_ne.2 h
      simp [h']
    · rcases h with h | h
      · simp [shapeBad, show fieldAt x.record 20 2 = 0 from h]
      · simp [shapeBad, show 128 < fieldAt x.record 20 2 from h]
    · exact decide_eq_true (h.imp Nat.lt_one_iff.2 id)
    · exact decide_eq_true (.inr ⟨h1, h2⟩)
    · exact decide_eq_true h
    · have h' : (addr % 256 != 0) = true := bne_iff_ne.2 h
      simp [h']
    · exact decide_eq_true (.inl h)
  case queued =>
    obtain ⟨t, ht, hlaunch, hseq⟩ := queueLaunch_spec s l
    exact ⟨_, t, _, ht, Tab.get?_fresh _, hlaunch, rfl, hseq, rfl, by rw [State.queuedAs, hstate]⟩
  case grid =>
    intro value
    have ht := exec_gridRead hl hstate hread hseen
    refine ⟨fun hlt => ht.trans (if_pos hlt), fun bs s1 hle hr hl1 => ?_⟩
    intro big
    rw [if_neg (not_lt.2 hle), hr] at ht
    dsimp only at ht
    split at ht
    · next hbig =>
      have hw := (launch_gridRead hl1 (fun l => { l with state := 4, reason := 0x0A, grid := (fieldAt bs 0 4, fieldAt bs 4 4, fieldAt bs 8 4), endt := s1.time })
        l.part l.recAddr 0x0A).2
      refine ⟨_, ht, by rw [hw], fun hno => absurd hbig hno, fun _ => by rw [hw]; exact ⟨rfl, rfl⟩⟩
    · next hsmall =>
      have hw := (launch_gridRead hl1 (fun l => { l with grid := (fieldAt bs 0 4, fieldAt bs 4 4, fieldAt bs 8 4), gridRead := true })
        l.part l.recAddr 0).1
      refine ⟨_, ht, by rw [hw], fun _ => by rw [hw]; exact ⟨rfl, hstate⟩, fun hbig => absurd hbig hsmall⟩

end

section
/-! SUPPORT. A machine on which an atomic with a uniform destination issues with no active lane; and O8. -/

namespace Sys2Proof.Machine

/-! ### An atomic with a uniform destination that no lane takes part in -/

/-- ATOM.add at device scope on the address that k2 and k3 hold, with the word of k4, to k6; guarded by p0. -/
def emptyAtomHdr : Hdr := { negate := false, guard := 0, dest := 390, count := 0 }
def emptyAtomField : MF :=
  { addr := 386, data := 388, space := 0, width := 2, scope := 3, order := 0, hint := 0, atomic := 0, pdst := 7, offset := 0 }

/-- The two lines that the core's L1 holds: the one at the address in k2 and k3, and another. -/
def atomLine : L1Line := { ctx := 1, host := false, addr := 0, bytes := List.replicate 128 0, hint := 0 }
def otherLine : L1Line := { atomLine with addr := 1 }

/-- A warp whose predicates and uniform registers are zero at the issue port of core 0, whose L1 holds two lines of its context. -/
def emptyAtomState : State :=
  { State.reset with
    boot := { Boot.reset with state := 2, enabled := 0x3F }
    parts := [(0, Part.reset 0 1)]
    fns := [(256, FnPage.reset 0)]
    ctxs := [(1, { Ctx.none 1 with fn := 256 })]
    launches := [(0, { Launch.none with ctx := 1, fn := 256, state := 2, grid := (1, 1, 1), record := placedRecord })]
    blocks := [(0, { launch := 0, index := 0, cores := [0], scratchOff := 0, scratchSize := 0, groups := [], position := 0 })]
    tlb := [{ placedItem with write1 := true }]
    cores := [(0, { Core.reset with warps := [(0, placedWarp)], active := [0], l1 := [atomLine, otherLine] })] }

/-- What the refutation reads of the issue: nothing holds the instruction, and no lane is active. -/
def emptyAtomIssues : Bool :=
  match env? emptyAtomState emptyAtomHdr ((encode (.atom emptyAtomHdr emptyAtomField)).getD 0) with
  | some e => decide (emptyAtomState.hold emptyAtomHdr (needs (.atom emptyAtomHdr emptyAtomField) emptyAtomState) e = none) &&
      decide (e.core = 0 ∧ e.act = 0)
  | none => false

theorem emptyAtom_issues : emptyAtomIssues = true := by decide +kernel

/-- The issue removes the line at the address from the L1, and keeps the other. -/
theorem emptyAtom_drops : (match exec (.atom emptyAtomHdr emptyAtomField) emptyAtomState with
    | .next t => decide ((t.core 0).l1 = [otherLine])
    | _ => false) = true := by decide +kernel

end Sys2Proof.Machine

open Sys2Proof Sys2Proof.Machine

/-- Refutes O8: where ATOM with a uniform destination issues with no active lane, the lowest active lane reads as lane 0, and the
line at lane 0's address leaves the core's L1 (14 R258), while the statement says that the L1 stays or becomes invalid as a whole. -/
theorem not_whatHoldsBack : ¬ Obligations.WhatHoldsBack := by
  unfold Obligations.WhatHoldsBack
  rintro ⟨-, -, hidle⟩
  obtain ⟨e, hready, hcore, hact⟩ : ∃ e, Ready emptyAtomState (.atom emptyAtomHdr emptyAtomField) e ∧ e.core = 0 ∧ e.act = 0 := by
    have h := emptyAtom_issues
    unfold emptyAtomIssues at h
    split at h
    · next e he =>
      rw [Bool.and_eq_true, decide_eq_true_eq, decide_eq_true_eq] at h
      exact ⟨e, ⟨emptyAtomHdr, rfl, he, h.1⟩, h.2⟩
    · cases h
  obtain ⟨t, w, ht, -, -, helse⟩ := hidle _ _ _ _ rfl hready hact
  have hdrop := emptyAtom_drops
  rw [ht] at hdrop
  have hl1 : (t.core 0).l1 = [otherLine] := of_decide_eq_true hdrop
  have hkept : (emptyAtomState.core 0).l1 = [atomLine, otherLine] := rfl
  have hor := helse.l1
  rw [hcore, hl1, hkept] at hor
  rcases hor with h | h <;> cases h

end

section
/-! SUPPORT. A machine whose table of launches lists a number twice; and O46. -/

namespace Sys2Proof.Machine

/-! ### A launch number listed twice -/

/-- A launch of context 1 with one block of one warp and a quota of all 4,096 slots. -/
def pendingLaunch : Launch :=
  { Launch.none with ctx := 1, fn := 256, grid := (1, 1, 1), record := (placedRecord.set 26 0).set 27 16 }

/-- A running launch of context 2. -/
def leavingLaunch : Launch := { Launch.none with ctx := 2, fn := 256, state := 2, record := placedRecord }

/-- A warp of context 2 that holds a name. -/
def leavingWarp : Warp := { placedWarp with ctx := 2, names := [(0, { NameCell.fresh with counts := List.replicate 32 7 })] }

/-- Core 0 runs a warp of context 2, which a soft request has met and whose scree buffer is not mapped; the table of launches lists
number 0 twice, first for the launch of context 1 and then for that of context 2. -/
def twiceListed : State :=
  { State.reset with
    boot := { Boot.reset with state := 2, enabled := 0x3F }
    parts := [(0, Part.reset 0 1)]
    fns := [(256, FnPage.reset 0)]
    ctxs := [(1, { Ctx.none 1 with fn := 256 }), (2, { Ctx.none 2 with fn := 256, pre := 1 })]
    launches := [(0, pendingLaunch), (0, leavingLaunch)]
    cores := [(0, { Core.reset with warps := [(0, leavingWarp)], active := [0] })] }

/-- Arbitration and the position allow the next block of the launch at core 0. -/
theorem twiceListed_may : twiceListed.mayAdmit 0 pendingLaunch = true ∧ (twiceListed.placements pendingLaunch).contains 0 = true := by
  decide +kernel

/-- Core 0 has too few slots for it: context 2 leaves the core and still holds one. -/
theorem twiceListed_noRoom : ¬∀ k ∈ pendingLaunch.run 0, (twiceListed.core k).contexts.contains pendingLaunch.ctx = true ∨
    (∀ y ∈ (twiceListed.core k).contexts, (twiceListed.ctx y).pre = 0) ∨
      pendingLaunch.needs + twiceListed.reserves k ≤ (twiceListed.core k).freeSlots := by
  decide +kernel

/-- The eviction that makes room meets a record that cannot be written, which kills context 2, and with it what the table lists
under the number of context 2's launch (02 R54, R55; 21 R336, R338). -/
theorem twiceListed_ends : (match exec (.blockAdmission 0 0) twiceListed with
    | .next t => decide ((t.launch 0).state = 5)
    | _ => false) = true := by decide +kernel

end Sys2Proof.Machine

open Sys2Proof Sys2Proof.Machine

/-- Refutes O46: the statement is of every state, also of one whose table of launches lists a number twice. There the eviction that
makes room for a launch of context 1 may kill context 2 and end the launch of context 1 of the same number, while the second clause
says that the launch stays as it was. (In a table that lists every number once, a kill ends the launches of the killed context
alone.) -/
theorem not_blocksAndLaunchEnd : ¬ Obligations.BlocksAndLaunchEnd := by
  unfold Obligations.BlocksAndLaunchEnd
  rintro ⟨⟨hadmission, -⟩, -⟩
  obtain ⟨-, hstays, -⟩ := hadmission twiceListed 0 0 pendingLaunch rfl
  obtain ⟨t, ht, hlaunch⟩ := hstays twiceListed_may twiceListed_noRoom
  have hends := twiceListed_ends
  rw [ht] at hends
  have hstate : (t.launch 0).state = 5 := of_decide_eq_true hends
  rw [hlaunch] at hstate
  cases hstate

end

section
/-! SUPPORT. When nothing holds an instruction back (04 R74; 02 R41, R42, R50); and O6. -/

namespace Sys2Proof.Machine

variable {s : State} {h : Hdr} {n : Needs} {e : Env}

/-! ### The checks of an issue that `State.hold` makes -/

/-- The fields are valid, the line's word has zero bits, and the guard is not !p7 (04 R74 step 2). -/
def Needs.fieldsPass (n : Needs) (h : Hdr) (e : Env) : Prop := n.fields = true ∧ e.zero = 0 ∧ ¬(h.guard = 7 ∧ h.negate = true)

/-- The context has the privilege that the instruction asks for (04 R74 step 4). -/
def State.privilegePass (s : State) (n : Needs) (e : Env) : Prop :=
  n.privileged = true → (s.ctx e.w.ctx).desc.privileged = true

/-- No operand predicate of an instruction with an active lane is owed a write (13 R244). -/
def Needs.predsFree (n : Needs) (e : Env) : Prop := e.act ≠ 0 → ∀ p ∈ n.preds, e.w.busyPred p = false

theorem not_fieldsPass_iff : ¬n.fieldsPass h e ↔ (!n.fields || e.zero != 0 || (h.guard == 7 && h.negate)) = true := by
  simp only [Needs.fieldsPass, Bool.or_eq_true, Bool.not_eq_true', bne_iff_ne, Bool.and_eq_true, beq_iff_eq]
  rw [← Bool.not_eq_true]
  tauto

theorem not_privilegePass_iff : ¬s.privilegePass n e ↔ (n.privileged && !(s.ctx e.w.ctx).desc.privileged) = true := by
  simp [State.privilegePass]

theorem not_predsFree_iff : ¬n.predsFree e ↔ (e.act != 0 && n.preds.any e.w.busyPred) = true := by
  simp [Needs.predsFree]

theorem busyOf_eq_none : s.busyOf e n = none ↔ ∀ r ∈ n.names e.act, s.busyName e.core e.slot e.w r = false := by
  simp [State.busyOf]

/-- Past the guard's predicate, a bad field is the first check to fail. -/
theorem hold_of_badField (hheld : e.w.held = false) (hguard : e.w.busyPred h.guard.toNat = false) (hf : ¬n.fieldsPass h e) :
    s.hold h n e = some (.raise (fieldRaise e.frag)) := by
  rw [State.hold, if_neg (by simp [hheld]), if_neg (by simp [hguard]), if_pos (not_fieldsPass_iff.1 hf)]

/-- Past the fields, a missing privilege is the next. -/
theorem hold_of_noPrivilege (hheld : e.w.held = false) (hguard : e.w.busyPred h.guard.toNat = false) (hf : n.fieldsPass h e)
    (hp : ¬s.privilegePass n e) :
    s.hold h n e = some (.raise { code := cPerm, lanes := e.frag, addr := 0, info := 0xFF00 }) := by
  rw [State.hold, if_neg (by simp [hheld]), if_neg (by simp [hguard]), if_neg (mt not_fieldsPass_iff.2 (not_not.2 hf)),
    if_pos (not_privilegePass_iff.1 hp)]

/-- The checks that follow once fields, privilege, predicates and scoreboard let an instruction pass: its own, the counts, its own
waits and the allocation. -/
def State.lateHold (s : State) (n : Needs) (e : Env) : Option Hold :=
  match n.entry e with
  | some r => some (.raise r)
  | none =>
    match e.w.countCheck (s.hwm e.w) e.act n.reads n.dests n.count with
    | some r => some (.raise r)
    | none =>
      match n.stalls e with
      | some t => some (.stall t)
      | none =>
        let new := (e.w.newNames n.dests n.count e.act).length
        if new != 0 && !s.grants e new then some (.stall (.allocation new)) else none

theorem hold_of_passed (hheld : e.w.held = false) (hguard : e.w.busyPred h.guard.toNat = false) (hf : n.fieldsPass h e)
    (hp : s.privilegePass n e) (hpreds : n.predsFree e) (hbusy : s.busyOf e n = none) : s.hold h n e = s.lateHold n e := by
  rw [State.hold, if_neg (by simp [hheld]), if_neg (by simp [hguard]), if_neg (mt not_fieldsPass_iff.2 (not_not.2 hf)),
    if_neg (mt not_privilegePass_iff.2 (not_not.2 hp)), if_neg (mt not_predsFree_iff.2 (not_not.2 hpreds)), hbusy]
  rfl

/-- New slots are allocated, where there are any. -/
def State.allocates (s : State) (n : Needs) (e : Env) : Prop :=
  (e.w.newNames n.dests n.count e.act).length = 0 ∨ s.grants e (e.w.newNames n.dests n.count e.act).length = true

theorem lateHold_eq_none : s.lateHold n e = none ↔ n.entry e = none ∧
    e.w.countCheck (s.hwm e.w) e.act n.reads n.dests n.count = none ∧ n.stalls e = none ∧ s.allocates n e := by
  rw [State.lateHold]
  cases n.entry e with
  | some r => simp
  | none =>
    cases e.w.countCheck (s.hwm e.w) e.act n.reads n.dests n.count with
    | some r => simp
    | none =>
      cases n.stalls e with
      | some t => simp
      | none =>
        simp only [State.allocates, true_and]
        cases s.grants e (e.w.newNames n.dests n.count e.act).length <;> simp

/-- An instruction that nothing holds back has passed what stands before its own checks. -/
theorem passed_of_hold_none (hn : s.hold h n e = none) : e.w.held = false ∧ e.w.busyPred h.guard.toNat = false ∧
    n.fieldsPass h e ∧ s.privilegePass n e ∧ n.predsFree e ∧ s.busyOf e n = none := by
  rw [State.hold] at hn
  split at hn
  case isTrue => cases hn
  case isFalse hheld =>
  split at hn
  case isTrue => cases hn
  case isFalse hguard =>
  split at hn
  case isTrue => cases hn
  case isFalse hf =>
  split at hn
  case isTrue => cases hn
  case isFalse hp =>
  split at hn
  case isTrue => cases hn
  case isFalse hpreds =>
  refine ⟨by simpa using hheld, by simpa using hguard, not_not.1 (mt not_fieldsPass_iff.1 hf),
    not_not.1 (mt not_privilegePass_iff.1 hp), not_not.1 (mt not_predsFree_iff.1 hpreds), ?_⟩
  cases hbusy : s.busyOf e n with
  | none => rfl
  | some b => rw [hbusy] at hn; cases hn

end Sys2Proof.Machine

open Sys2Proof Sys2Proof.Machine

/-- Settles O6: the checks that stand before the instruction's own pass, and then `State.lateHold` finds nothing. -/
theorem whenAnInstructionIssues : Obligations.WhenAnInstructionIssues := by
  unfold Obligations.WhenAnInstructionIssues
  intro s h n e
  have hgrants : ∀ m, s.grants e m = true ↔ s.sel.granted = true ∨ (s.ahead e.core).canAllocate e.core e.slot e.w m = true :=
    fun m => by rw [State.grants, Bool.or_eq_true]
  rw [← busyOf_eq_none, ← hgrants]
  constructor
  case mp =>
    intro hn
    obtain ⟨hheld, hguard, hf, hp, hpreds, hbusy⟩ := passed_of_hold_none hn
    rw [hold_of_passed hheld hguard hf hp hpreds hbusy, lateHold_eq_none] at hn
    obtain ⟨hfields, hzero, hnot⟩ := hf
    exact ⟨hheld, hguard, hfields, hzero, hnot, hp, hpreds, hbusy, hn⟩
  case mpr =>
    rintro ⟨hheld, hguard, hfields, hzero, hnot, hp, hpreds, hbusy, hlate⟩
    rw [hold_of_passed hheld hguard ⟨hfields, hzero, hnot⟩ hp hpreds hbusy, lateHold_eq_none]
    exact hlate

end

section
/-! SUPPORT. The count checks of an issue: which reads fail, which writes meet a live count, and what the fault names (02 R39 to R41). -/

namespace Sys2Proof.Machine

/-! ### Names with failing lanes -/

theorem mask_eq_zero {m : Mask} : m = 0 ↔ ∀ l, l < 32 → ¬laneOn m l = true := by
  constructor
  · rintro rfl l -
    simp [laneOn]
  · intro h
    exact mask_ext fun l hl => by rw [Bool.eq_false_iff.2 (h l hl), laneOn_none]

theorem laneOn_foldl_or (fails : Nat → Mask) (ns : List Nat) (m : Mask) (l : Nat) :
    laneOn (ns.foldl (fun m k => m ||| fails k) m) l = true ↔ laneOn m l = true ∨ ∃ x ∈ ns, laneOn (fails x) l = true := by
  induction ns generalizing m with
  | nil => simp
  | cons n ns ih => simp [ih, laneOn_or, or_assoc]

theorem firstFail_eq_none {ns : List Nat} {fails : Nat → Mask} :
    firstFail ns fails = none ↔ ∀ n ∈ ns, ∀ l, l < 32 → ¬laneOn (fails n) l = true := by
  have hfind : (ns.find? fun n => fails n != 0) = none ↔ ∀ n ∈ ns, fails n = 0 := by simp
  simp only [← mask_eq_zero, ← hfind, firstFail]
  cases ns.find? fun n => fails n != 0 <;> simp

/-- The fault of a check names its first name with failing lanes, and every lane that fails at any of its names (02 R41). -/
theorem firstFail_of_first {ns before after : List Nat} {d : Nat} {fails : Nat → Mask} (hns : ns = before ++ d :: after)
    (hd : ∃ l, l < 32 ∧ laneOn (fails d) l = true) (hbefore : ∀ x ∈ before, ∀ l, l < 32 → ¬laneOn (fails x) l = true) :
    ∃ m, firstFail ns fails = some (d, m) ∧ ∀ l, laneOn m l = true ↔ ∃ x ∈ ns, laneOn (fails x) l = true := by
  have hfind : (ns.find? fun n => fails n != 0) = some d := by
    refine List.find?_eq_some_iff_append.2 ⟨bne_iff_ne.2 fun h0 => ?_, before, after, hns, fun x hx => ?_⟩
    · obtain ⟨l, hl, ho⟩ := hd
      exact mask_eq_zero.1 h0 l hl ho
    · simpa using mask_eq_zero.2 (hbefore x hx)
  refine ⟨_, by rw [firstFail, hfind], fun l => ?_⟩
  rw [laneOn_foldl_or]
  simp

/-! ### Counts and reads -/

/-- Reads fail in a lane that is not held and has fewer left (02 R40). -/
theorem afterReads_eq_none {c : BitVec 3} {k : Nat} : afterReads c k = none ↔ c ≠ 7 ∧ c.toNat < k := by
  unfold afterReads
  split
  case isTrue hk => simp [hk]
  case isFalse hk =>
    split
    case isTrue hc => simp [hc]
    case isFalse hc =>
      rw [and_iff_right hc]
      split <;> simp [*]

theorem ne_seven_iff_lt {c : BitVec 3} : c ≠ 7 ↔ c.toNat < 7 := by
  have := c.isLt
  rw [ne_eq, ← BitVec.toNat_inj]
  show ¬c.toNat = 7 ↔ _
  omega

theorem ne_zero_iff_pos {c : BitVec 3} : c ≠ 0 ↔ 0 < c.toNat := by
  rw [ne_eq, ← BitVec.toNat_inj]
  exact Nat.pos_iff_ne_zero.symm

theorem afterReads_held {k : Nat} (hk : 0 < k) : afterReads 7 k = some 7 := by
  rw [afterReads, if_neg (by omega), if_pos rfl]

/-- What reads leave of a count is live when the lane is not held and had more than they take. -/
theorem afterReads_live {c : BitVec 3} {k : Nat} :
    ((afterReads c k).getD 0 ≠ 0 ∧ (afterReads c k).getD 0 ≠ 7) ↔ c ≠ 7 ∧ k < c.toNat := by
  unfold afterReads
  split
  case isTrue hk => rw [Option.getD_some, hk, ne_zero_iff_pos, and_comm]
  case isFalse hk =>
    split
    case isTrue hc => simp [hc]
    case isFalse hc =>
      rw [and_iff_right hc]
      split
      case isTrue hlt => simp [hlt.le]
      case isFalse hle =>
        have hlt := ne_seven_iff_lt.1 hc
        have hsub : (c - BitVec.ofNat 3 k).toNat = c.toNat - k := by
          rw [BitVec.toNat_sub, BitVec.toNat_ofNat]
          omega
        rw [Option.getD_some, ne_zero_iff_pos, ne_seven_iff_lt, hsub]
        omega

theorem readsOf_of_not_mem {reads : List Nat} {d : Nat} (h : d ∉ reads) : readsOf reads d = 0 := by
  rw [readsOf, List.length_eq_zero_iff, List.filter_eq_nil_iff]
  rintro x hx
  simp only [beq_iff_eq]
  rintro rfl
  exact h hx

/-! ### The three checks (02 R41) -/

variable (w : Warp) (act : Mask) (reads dests : List Nat) (count : BitVec 3) (hwm : Nat)

/-- An active lane of a source is not held and has fewer reads left than the instruction takes. -/
def Warp.short (d l : Nat) : Prop :=
  laneOn act l = true ∧ isV d = true ∧ w.count d l ≠ 7 ∧ (w.count d l).toNat < readsOf reads d

/-- An active lane of a destination that is written with a count is not held and is owed reads once the sources are read. -/
def Warp.stillOwed (d l : Nat) : Prop :=
  laneOn act l = true ∧ isV d = true ∧ count ≠ 0 ∧ w.count d l ≠ 7 ∧ readsOf reads d < (w.count d l).toNat

/-- The lanes of a destination in which a write meets a live count. -/
def Warp.liveWrites (d : Nat) : Mask :=
  maskOf fun i => laneOn act i && isV d && count != 0 && w.countAfter reads d i != 0 && w.countAfter reads d i != 7

variable {w act reads dests count hwm}

theorem laneOn_readFails {d l : Nat} (hl : l < 32) : laneOn (w.readFails reads act d) l = true ↔ w.short act reads d l := by
  rw [Warp.readFails, laneOn_maskOf _ hl, Warp.short, ← afterReads_eq_none, Bool.and_eq_true, Bool.and_eq_true,
    Option.isNone_iff_eq_none, and_assoc]

theorem laneOn_liveWrites {d l : Nat} (hl : l < 32) :
    laneOn (w.liveWrites act reads count d) l = true ↔ w.stillOwed act reads count d l := by
  rw [Warp.liveWrites, laneOn_maskOf _ hl, Warp.stillOwed, ← afterReads_live]
  simp only [Bool.and_eq_true, bne_iff_ne, and_assoc, Warp.countAfter]

/-- The checks of 02 R41 in their order. -/
theorem countCheck_eq : w.countCheck hwm act reads dests count =
    match firstFail reads (w.readFails reads act) with
    | some f => some (countRaise cRegExhausted 0 f)
    | none =>
      match firstFail dests (w.liveWrites act reads count) with
      | some f => some (countRaise cRegLiveWrite 2 f)
      | none =>
        match w.newNames dests count act with
        | [] => none
        | n :: ds => if w.names.length + (n :: ds).length > hwm then some (countRaise cHwmExceeded 3 (n, act)) else none := by
  unfold Warp.countCheck
  cases firstFail reads (w.readFails reads act) with
  | some f => rfl
  | none =>
    dsimp only
    unfold Warp.liveWrites
    cases firstFail dests _ with
    | some f => rfl
    | none => cases w.newNames dests count act <;> rfl

theorem firstFail_reads : firstFail reads (w.readFails reads act) = none ↔ ∀ d ∈ reads, ∀ l, l < 32 → ¬w.short act reads d l := by
  rw [firstFail_eq_none]
  exact forall₂_congr fun d _ => forall₂_congr fun l hl => not_congr (laneOn_readFails hl)

theorem firstFail_writes : firstFail dests (w.liveWrites act reads count) = none ↔
    ∀ d ∈ dests, ∀ l, l < 32 → ¬w.stillOwed act reads count d l := by
  rw [firstFail_eq_none]
  exact forall₂_congr fun d _ => forall₂_congr fun l hl => not_congr (laneOn_liveWrites hl)

/-- An instruction passes its count checks where no read is short, no write meets a live count, and the new names keep the warp
within its high-water mark (02 R41). -/
theorem countCheck_eq_none : w.countCheck hwm act reads dests count = none ↔
    (∀ d ∈ reads, ∀ l, l < 32 → ¬w.short act reads d l) ∧ (∀ d ∈ dests, ∀ l, l < 32 → ¬w.stillOwed act reads count d l) ∧
      (w.newNames dests count act = [] ∨ w.names.length + (w.newNames dests count act).length ≤ hwm) := by
  rw [countCheck_eq, ← firstFail_reads, ← firstFail_writes]
  cases firstFail reads (w.readFails reads act) with
  | some f => simp
  | none =>
    cases firstFail dests (w.liveWrites act reads count) with
    | some f => simp
    | none => cases w.newNames dests count act <;> simp

/-! ### The same, lane by lane -/

theorem reads_pass_iff : (∀ d ∈ reads, ∀ l, l < 32 → ¬w.short act reads d l) ↔
    ∀ d ∈ reads, ∀ l, l < 32 → laneOn act l = true → isV d = true → w.count d l = 7 ∨ readsOf reads d ≤ (w.count d l).toNat := by
  refine forall₂_congr fun d _ => forall₂_congr fun l _ => ?_
  simp only [Warp.short, not_and, not_lt, ne_eq, or_iff_not_imp_left]

/-- Where the reads pass, a destination that is written with a count stands in each active lane at a held count, at zero, or at zero
once the sources are read. -/
theorem writes_pass_iff (hreads : ∀ d ∈ reads, ∀ l, l < 32 → laneOn act l = true → isV d = true →
      w.count d l = 7 ∨ readsOf reads d ≤ (w.count d l).toNat) :
    (∀ d ∈ dests, ∀ l, l < 32 → ¬w.stillOwed act reads count d l) ↔
      ∀ d ∈ dests, ∀ l, l < 32 → laneOn act l = true → isV d = true → count ≠ 0 →
        w.count d l = 7 ∨ (w.count d l).toNat = readsOf reads d ∨ w.count d l = 0 := by
  refine forall₂_congr fun d _ => forall₂_congr fun l hl => ?_
  simp only [Warp.stillOwed, not_and, not_lt, ne_eq]
  refine forall_congr' fun ho => forall_congr' fun hv => forall_congr' fun _ => ?_
  have hzero : w.count d l = 0 ↔ (w.count d l).toNat = 0 := BitVec.toNat_inj.symm
  rw [hzero, ← or_iff_not_imp_left]
  refine or_congr_right' fun h7 => ?_
  by_cases hd : d ∈ reads
  · have hle := (hreads d hd l hl ho hv).resolve_left h7
    omega
  · rw [readsOf_of_not_mem hd]
    omega

end Sys2Proof.Machine

end

section
/-! SUPPORT. Register management: the counts that it sets (02 R40; 07 R143); and O22. -/

namespace Sys2Proof.Machine

variable {h : Hdr} {f : VI} {ok : Bool} {code : BitVec 8} {rule : CountRule} {e : Env} {n : Needs}

/-! ### The rules -/

theorem dropRule_eq_none {c n : BitVec 3} : dropRule n c = none ↔ (c = 7 ∨ c.toNat < n.toNat) := by
  rw [dropRule]
  split <;> simp_all

theorem releaseRule_eq_none {c : BitVec 3} : releaseRule c = none ↔ c ≠ 7 := by simp [releaseRule]

theorem recountRule_eq_none {c k : BitVec 3} : recountRule k c = none ↔ c = 0 := by simp [recountRule]

/-! ### The check of a rule -/

/-- The active lanes in which a rule refuses the count of a name. -/
def Env.refused (e : Env) (rule : CountRule) (d : Nat) : Mask :=
  maskOf fun l => laneOn e.act l && (rule (e.w.count d l)).isNone

theorem laneOn_refused {d l : Nat} (hl : l < 32) :
    laneOn (e.refused rule d) l = true ↔ laneOn e.act l = true ∧ rule (e.w.count d l) = none := by
  rw [Env.refused, laneOn_maskOf _ hl, Bool.and_eq_true, Option.isNone_iff_eq_none]

/-- A register-management instruction faults exactly where its rule refuses the count of an active lane, and names those lanes. -/
theorem manage_refuses {c : BitVec 8} {bad : Nat → Prop} (hn : n = manageNeeds h f ok code rule) (hc : c = code)
    (hbad : ∀ l, bad l ↔ laneOn e.act l = true ∧ rule (e.w.count h.dest.toNat l) = none) :
    ((∀ l, l < 32 → ¬bad l) → n.entry e = none) ∧
    ((∃ l, l < 32 ∧ bad l) → ∃ r, n.entry e = some r ∧ (∀ l, l < 32 → (laneOn r.lanes l = true ↔ bad l)) ∧
      r.code = c ∧ r.info = BitVec.ofNat 32 (h.dest.toNat + 512)) := by
  have hentry : n.entry e = (firstFail [h.dest.toNat] (e.refused rule)).map (countRaise code 1) := by rw [hn]; rfl
  have hlane : ∀ l, l < 32 → (laneOn (e.refused rule h.dest.toNat) l = true ↔ bad l) := fun l hl => by
    rw [hbad, laneOn_refused hl]
  rw [hentry, hc]
  constructor
  case left =>
    intro hnone
    rw [firstFail_eq_none.2, Option.map_none]
    rintro d hd l hl
    rw [List.mem_singleton.1 hd, hlane l hl]
    exact hnone l hl
  case right =>
    rintro ⟨l, hl, hl'⟩
    obtain ⟨m, hm, hlanes⟩ := firstFail_of_first (ns := [h.dest.toNat]) (before := []) (fails := e.refused rule) rfl
      ⟨l, hl, (hlane l hl).2 hl'⟩ (by simp)
    refine ⟨_, by rw [hm, Option.map_some], fun j hj => ?_, rfl, by rw [countRaise, Nat.mul_one]⟩
    show laneOn m j = true ↔ bad j
    rw [hlanes, ← hlane j hj]
    simp

theorem accepted_of_entry (he : (manageNeeds h f ok code rule).entry e = none) {l : Nat} (hl : l < 32)
    (ho : laneOn e.act l = true) : ∃ c, rule (e.w.count h.dest.toNat l) = some c := by
  by_contra hno
  obtain ⟨r, hr, -⟩ := (manage_refuses (e := e) (rule := rule) rfl rfl fun _ => Iff.rfl).2
    ⟨l, hl, ho, Option.eq_none_iff_forall_not_mem.2 fun c hc => hno ⟨c, hc⟩⟩
  rw [he] at hr
  cases hr

/-! ### The warp that register management leaves -/

/-- The warp with the counts of a bound name changed in some lanes. -/
def Warp.recounted (w : Warp) (act : Mask) (d : Nat) (rule : CountRule) : Warp :=
  if act = 0 ∨ !w.names.has d then w else w.modName d fun c => c.setCounts act fun l => (rule (w.count d l)).getD 0

variable (w : Warp) (act : Mask) (d : Nat)

theorem recounted_frame : w.recounted act d rule = { w with names := (w.recounted act d rule).names } := by
  unfold Warp.recounted
  split <;> rfl

theorem count_recounted (d' : Nat) {l : Nat} (hl : l < 32) : (w.recounted act d rule).count d' l =
    if d' = d ∧ w.names.has d = true ∧ laneOn act l = true then (rule (w.count d l)).getD 0 else w.count d' l := by
  unfold Warp.recounted
  split
  case isTrue h =>
    rw [if_neg]
    rintro ⟨-, hhas, ho⟩
    rcases h with rfl | h
    · simp [laneOn] at ho
    · simp [hhas] at h
  case isFalse h =>
    have hhas : w.names.has d = true := by simp only [not_or, Bool.not_eq_true', Bool.not_eq_false] at h; exact h.2
    obtain ⟨cell, hcell⟩ := Option.isSome_iff_exists.1 hhas
    by_cases hd : d = d'
    · subst hd
      simp only [Warp.count, get?_modName, if_true, setCounts_lane _ _ _ hl, hhas, true_and, Tab.getD, hcell, Option.getD_some]
    · rw [if_neg fun h => hd h.1.symm, Warp.count, get?_modName, if_neg hd, Warp.count]

theorem datum_recounted (d' l : Nat) : (w.recounted act d rule).datum d' l = w.datum d' l := by
  unfold Warp.recounted
  split
  case isTrue h => rfl
  case isFalse h =>
    have hhas : w.names.has d = true := by simp only [not_or, Bool.not_eq_true', Bool.not_eq_false] at h; exact h.2
    obtain ⟨cell, hcell⟩ := Option.isSome_iff_exists.1 hhas
    by_cases hd : d = d'
    · subst hd
      simp only [Warp.datum, get?_modName, if_true, Tab.getD, hcell, Option.getD_some]
      rfl
    · rw [Warp.datum, get?_modName, if_neg hd, Warp.datum]

theorem count_of_unlisted {w : Warp} {d : Nat} (h : w.names.has d = false) (l : Nat) : w.count d l = 0 := by
  rw [Tab.has, Option.isSome_eq_false_iff, Option.isNone_iff_eq_none] at h
  rw [Warp.count, h]

/-- Counts set beside an instruction that only moves on; empty names are freed. -/
theorem written_recounted (hf : e.w.fragment = some (e.pc, e.frag)) (hd : n.dests = []) (hr : n.reads = []) (k : BitVec 3 → BitVec 3)
    (hk : ∀ l, l < 32 → laneOn e.act l = true → rule (e.w.count d l) = some (k (e.w.count d l)))
    (hzero : ∀ l, l < 32 → laneOn e.act l = true → e.w.count d l = 0 → k 0 = 0) :
    Written e n (fun _ => []) { counts := fun d' l => if d' = d then some (k (e.w.count d' l)) else none }
      ((((e.issuedWarp n).recounted e.act d rule).sweep).advance e.frag) := by
  have base : Written e n (fun _ => []) {} ((e.issuedWarp n).advance e.frag) := written_advance hf hd
  have hframe := recounted_frame (rule := rule) (e.issuedWarp n) e.act d
  have hissued : ∀ d' l, l < 32 → (e.issuedWarp n).count d' l = e.w.count d' l := fun d' l hl => by
    rw [count_issuedWarp e n d' hl, hr]
    split <;> rfl
  have hcount : ∀ d' l, l < 32 → (((e.issuedWarp n).recounted e.act d rule).sweep.advance e.frag).count d' l =
      if d' = d ∧ laneOn e.act l = true then k (e.w.count d' l) else e.w.count d' l := fun d' l hl => by
    refine (count_sweep ..).trans ?_
    rw [count_recounted _ _ _ _ hl, hissued d' l hl, hissued d l hl]
    by_cases hon : d' = d ∧ laneOn e.act l = true
    · obtain ⟨rfl, ho⟩ := hon
      cases hhas : (e.issuedWarp n).names.has d' with
      | true => simp only [ho, true_and, if_true, hk l hl ho, Option.getD_some]
      | false =>
        have h0 : e.w.count d' l = 0 := by rw [← hissued d' l hl]; exact count_of_unlisted hhas l
        simp only [ho, true_and, if_true, Bool.false_eq_true, false_and, if_false, h0, hzero l hl ho h0]
    · rw [if_neg hon, if_neg fun h => hon ⟨h.1, h.2.2⟩]
  constructor
  case pcs => rw [hframe]; exact base.pcs
  case rest =>
    rw [hframe]
    exact congrArg (fun u : Warp => { u with names := ((e.issuedWarp n).recounted e.act d rule).sweep.names }) base.rest
  constructor
  case value => intro j d' l hj; simp [hd] at hj
  case uniform => intro j d' l hj; simp [hd] at hj
  case counts =>
    intro d' l hl _
    rw [hcount d' l hl]
    have hafter : e.w.countAfter n.reads d' l = e.w.count d' l := by rw [hr]; rfl
    by_cases hdd : d' = d <;> by_cases ho : laneOn e.act l = true <;> simp [hdd, ho, hafter]
  case values =>
    intro d' l hv _ _ hc
    rw [val_eq_datum _ hv, val_eq_datum _ hv]
    refine (datum_sweep _ _ _ hc).trans ?_
    rw [datum_recounted, datum_issuedWarp]
  case uniforms =>
    intro d' l hk' hno
    rw [← base.uniforms d' l hk' hno, val_of_isK _ hk', val_of_isK _ hk', hframe]
    rfl
  case preds => rw [hframe]; exact base.preds
  case flags => rw [hframe]; exact base.flags

/-- A register-management instruction completes: its rule gives the count `k` makes of each active lane's. -/
theorem completes_manage {i : Instr} (k : BitVec 3 → BitVec 3) (hh : hdrOf i = some h)
    (hneeds : ∀ s, needs i s = manageNeeds h f ok code rule) (hexec : ∀ s, exec i s = manage s h f i ok code rule)
    (hk : ∀ c x, rule c = some x → x = k c) (hzero : ok = true → ∀ x, rule 0 = some x → x = 0) :
    Completes i (fun _ _ _ => [])
      (fun _ e => { counts := fun d l => if d = h.dest.toNat then some (k (e.w.count d l)) else none }) := by
  refine completes_of (g := fun _ e w => ((w.recounted e.act h.dest.toNat rule).sweep).advance e.frag) hh
    (fun s => by rw [hexec, hneeds]; rfl) fun s e he hf => ?_
  have hfields := he.fields
  have hentry := he.entry
  rw [hneeds] at hfields hentry ⊢
  have hok : ok = true := by
    simp only [manageNeeds, Bool.and_eq_true] at hfields
    tauto
  refine written_recounted _ hf rfl rfl k (fun l hl ho => ?_) fun l hl ho h0 => ?_
  · obtain ⟨c, hc⟩ := accepted_of_entry hentry hl ho
    rw [hc, hk _ _ hc]
  · obtain ⟨c, hc⟩ := accepted_of_entry hentry hl ho
    rw [h0] at hc
    rw [← hk _ _ hc, hzero hok _ hc]

/-! ### The five instructions -/

/-- What a register-management instruction does beside moving on: its name's count in each active lane becomes what `k` makes of it. -/
def countsSet (h : Hdr) (k : BitVec 3 → BitVec 3) (e : Env) : Extra :=
  { counts := fun d l => if d = h.dest.toNat then some (k (e.w.count d l)) else none }

variable (h : Hdr) (f : VI)

theorem completes_drop : Completes (.drop h f) (fun _ _ _ => []) fun _ => countsSet h fun c => c - h.count :=
  completes_manage (rule := dropRule h.count) (fun c => c - h.count) rfl (fun _ => rfl) (fun _ => rfl)
    (fun c x hx => by
      simp only [dropRule] at hx
      split at hx <;> cases hx
      rfl)
    fun hok x hx => by
      have hcount : h.count ≠ 0 := by simp only [Bool.and_eq_true, bne_iff_ne] at hok; exact hok.1
      have hnone : dropRule h.count 0 = none := dropRule_eq_none.2 (.inr (ne_zero_iff_pos.1 hcount))
      rw [hnone] at hx
      cases hx

theorem completes_clear : Completes (.clear h f) (fun _ _ _ => []) fun _ => countsSet h fun _ => 0 :=
  completes_manage (rule := fun _ => some 0) (fun _ => 0) rfl (fun _ => rfl) (fun _ => rfl)
    (fun _ _ hx => (Option.some.inj hx).symm) fun _ _ hx => (Option.some.inj hx).symm

theorem completes_release : Completes (.release h f) (fun _ _ _ => []) fun _ => countsSet h fun _ => 0 :=
  completes_manage (rule := releaseRule) (fun _ => 0) rfl (fun _ => rfl) (fun _ => rfl)
    (fun c x hx => by
      simp only [releaseRule] at hx
      split at hx <;> cases hx
      rfl)
    fun _ x hx => by cases hx

/-- HOLD and RECOUNT give a count that is not zero the count `k`. -/
theorem recountRule_some {k c x : BitVec 3} (hx : recountRule k c = some x) : x = k := by
  simp only [recountRule] at hx
  split at hx <;> cases hx
  rfl

theorem completes_hold : Completes (.hold h f) (fun _ _ _ => []) fun _ => countsSet h fun _ => 7 :=
  completes_manage (rule := recountRule 7) (fun _ => 7) rfl (fun _ => rfl) (fun _ => rfl) (fun _ _ => recountRule_some)
    fun _ x hx => by cases hx

theorem completes_recount : Completes (.recount h f) (fun _ _ _ => []) fun _ => countsSet h fun _ => h.count :=
  completes_manage (rule := recountRule h.count) (fun _ => h.count) rfl (fun _ => rfl) (fun _ => rfl) (fun _ _ => recountRule_some)
    fun _ x hx => by cases hx

end Sys2Proof.Machine

open Sys2Proof Sys2Proof.Machine

/-- Settles O22: each of the five is `manage` with a rule of its own, and the checks of 02 R41 are those of `countCheck_eq_none`. -/
theorem countRules : Obligations.CountRules := by
  unfold Obligations.CountRules
  refine ⟨fun h f => ⟨completes_drop h f, completes_clear h f, completes_release h f, completes_hold h f, completes_recount h f⟩,
    fun w rs n l _ => afterReads_eq_none, fun k => afterReads_held, fun c n => dropRule_eq_none,
    fun c => releaseRule_eq_none, fun c k => recountRule_eq_none, fun h f i s e => ?refuses,
    fun w hwm act reads dests count => ?passes⟩
  case refuses =>
    intro d bad hi
    rcases hi with rfl | rfl | rfl | rfl | rfl
    case inl =>
      exact manage_refuses rfl (if_pos (.inl rfl)) fun l => and_congr_right fun _ => dropRule_eq_none.symm
    case inr.inl =>
      exact manage_refuses rfl (if_pos (.inr rfl)) fun l => and_congr_right fun _ => releaseRule_eq_none.symm
    case inr.inr.inl =>
      refine ⟨(manage_refuses (rule := fun _ => some 0) rfl rfl fun l => and_congr_right fun _ => ?_).1, fun ⟨_, _, _, hnever⟩ =>
        hnever.elim⟩
      exact iff_of_false id (Option.some_ne_none _)
    case inr.inr.inr.inl =>
      exact manage_refuses rfl (if_neg (by simp)) fun l => and_congr_right fun _ => recountRule_eq_none.symm
    case inr.inr.inr.inr =>
      exact manage_refuses rfl (if_neg (by simp)) fun l => and_congr_right fun _ => recountRule_eq_none.symm
  case passes =>
    rw [countCheck_eq_none, reads_pass_iff, and_congr_right_iff]
    intro hreads
    rw [writes_pass_iff hreads]

end

section
/-! SUPPORT. The fault of the first check that fails, and what a precise fault changes (01 R13; 02 R41; 04 R74; 21 R329); and O7. -/

namespace Sys2Proof.Machine

variable {s : State} {h : Hdr} {n : Needs} {e : Env} {r : Raise}

/-! ### The fault that an issue raises -/

theorem lateHold_of_entry (he : n.entry e = some r) : s.lateHold n e = some (.raise r) := by rw [State.lateHold, he]

theorem lateHold_of_counts (he : n.entry e = none) (hc : e.w.countCheck (s.hwm e.w) e.act n.reads n.dests n.count = some r) :
    s.lateHold n e = some (.raise r) := by
  rw [State.lateHold, he]
  dsimp only
  rw [hc]

/-! ### Which count check fails, with which name and lanes -/

variable {w : Warp} {act : Mask} {reads dests : List Nat} {count : BitVec 3} {hwm : Nat}

/-- The first of some names of which a lane is bad (02 R41). -/
def FirstBad (names : List Nat) (bad : Nat → Nat → Prop) (d : Nat) : Prop :=
  ∃ before after, names = before ++ d :: after ∧ (∃ l, l < 32 ∧ bad d l) ∧ ∀ x ∈ before, ∀ l, l < 32 → ¬bad x l

theorem firstFail_of_firstBad {names : List Nat} {fails : Nat → Mask} {bad : Nat → Nat → Prop} {d : Nat}
    (hbad : ∀ x l, l < 32 → (laneOn (fails x) l = true ↔ bad x l)) (hd : FirstBad names bad d) :
    ∃ m, firstFail names fails = some (d, m) ∧ ∀ l, l < 32 → (laneOn m l = true ↔ ∃ x ∈ names, bad x l) := by
  obtain ⟨before, after, hnames, ⟨l, hl, hl'⟩, hbefore⟩ := hd
  obtain ⟨m, hm, hlanes⟩ := firstFail_of_first hnames ⟨l, hl, (hbad d l hl).2 hl'⟩
    fun x hx j hj => mt (hbad x j hj).1 (hbefore x hx j hj)
  refine ⟨m, hm, fun j hj => ?_⟩
  rw [hlanes]
  exact exists_congr fun x => and_congr_right fun _ => hbad x j hj

/-- A short read faults with its first name and every short lane. -/
theorem countCheck_short {d : Nat} (hd : FirstBad reads (w.short act reads) d) :
    ∃ m, w.countCheck hwm act reads dests count = some (countRaise cRegExhausted 0 (d, m)) ∧
      ∀ l, l < 32 → (laneOn m l = true ↔ ∃ x ∈ reads, w.short act reads x l) := by
  obtain ⟨m, hm, hlanes⟩ := firstFail_of_firstBad (fun _ _ => laneOn_readFails) hd
  exact ⟨m, by rw [countCheck_eq, hm], hlanes⟩

/-- Past the reads, a write of a live count faults with its first name and every such lane. -/
theorem countCheck_live {d : Nat} (hreads : ∀ d ∈ reads, ∀ l, l < 32 → ¬w.short act reads d l)
    (hd : FirstBad dests (w.stillOwed act reads count) d) :
    ∃ m, w.countCheck hwm act reads dests count = some (countRaise cRegLiveWrite 2 (d, m)) ∧
      ∀ l, l < 32 → (laneOn m l = true ↔ ∃ x ∈ dests, w.stillOwed act reads count x l) := by
  obtain ⟨m, hm, hlanes⟩ := firstFail_of_firstBad (fun _ _ => laneOn_liveWrites) hd
  exact ⟨m, by rw [countCheck_eq, firstFail_reads.2 hreads, hm], hlanes⟩

/-- Past the writes, new names above the high-water mark fault with the first of them and the active lanes (log 82). -/
theorem countCheck_hwm {d : Nat} {ds : List Nat} (hreads : ∀ d ∈ reads, ∀ l, l < 32 → ¬w.short act reads d l)
    (hwrites : ∀ d ∈ dests, ∀ l, l < 32 → ¬w.stillOwed act reads count d l) (hnew : w.newNames dests count act = d :: ds)
    (hover : hwm < w.names.length + (d :: ds).length) :
    w.countCheck hwm act reads dests count = some (countRaise cHwmExceeded 3 (d, act)) := by
  rw [countCheck_eq, firstFail_reads.2 hreads, firstFail_writes.2 hwrites, hnew]
  exact if_pos hover

/-! ### A precise fault of an encoded instruction -/

theorem exec_of_raise {i : Instr} (hh : hdrOf i = some h) (he : env? s h ((encode i).getD 0) = some e)
    (hr : s.hold h (needs i s) e = some (.raise r)) : exec i s = .next (s.raise_ e r) := by
  obtain ⟨k, hk⟩ := exec_issue hh s
  rw [hk, issue, he]
  dsimp only
  rw [hr]

/-- The warp once a fault has suspended its fragment. -/
def Env.faulted (e : Env) (cycle : Nat) (r : Raise) : Warp :=
  { e.w with traps := e.w.traps ++ [{ lanes := e.frag, code := r.code, past := false }], stall := none, timeout := false, ran := cycle }

theorem raise_eq (hw : s.warp? e.core e.slot = some e.w) :
    s.raise_ e r = (s.setWarp e.core e.slot (e.faulted s.cycle r)).keepRecord (s.ctx e.w.ctx).fn
      (s.warpRecord e.core e.w e.pc e.frag 0 r) := takeFault_eq hw ..

theorem suspended_faulted (cycle : Nat) : (e.faulted cycle r).suspended = e.w.suspended ||| e.frag := by
  simp [Env.faulted, Warp.suspended]

/-- The siblings of a fragment: the other live lanes at other PCs (01 R13). -/
theorem laneOn_siblings {pc : PC} {lanes : Mask} {l : Nat} (hl : l < 32) :
    laneOn (w.siblings pc lanes) l = true ↔ laneOn w.live l = true ∧ laneOn lanes l = false ∧ w.pc l ≠ pc := by
  rw [Warp.siblings, laneOn_maskOf _ hl, laneOn_and, laneOn_not _ hl, Bool.and_eq_true, Bool.and_eq_true, bne_iff_ne,
    Bool.not_eq_true', and_assoc]

end Sys2Proof.Machine

open Sys2Proof Sys2Proof.Machine

/-- Settles O7: the first check that fails gives the fault, and a precise fault suspends the fragment and holds one record. -/
theorem checksAndPreciseFaults : Obligations.ChecksAndPreciseFaults := by
  unfold Obligations.ChecksAndPreciseFaults
  refine ⟨fun s h n e hheld hguard => ⟨fun hbad => ?field, fun hfields hzero hnot => ⟨fun hasks hlacks => ?privilege,
    fun hp hpreds hbusy => ?late⟩⟩, fun i h s e r hh he hr => ?fault⟩
  case field =>
    refine hold_of_badField hheld hguard fun ⟨hfields, hzero, hnot⟩ => ?_
    rcases hbad with hbad | hbad | hbad
    · rw [hfields] at hbad
      cases hbad
    · exact hbad hzero
    · exact hnot hbad
  case privilege =>
    refine ⟨_, hold_of_noPrivilege hheld hguard ⟨hfields, hzero, hnot⟩ fun hpass => ?_, rfl, rfl⟩
    have hhas := hpass hasks
    rw [hlacks] at hhas
    cases hhas
  case late =>
    have hlate : s.hold h n e = s.lateHold n e :=
      hold_of_passed hheld hguard ⟨hfields, hzero, hnot⟩ hp (fun _ => hpreds) hbusy
    rw [hlate]
    refine ⟨fun r hr => lateHold_of_entry hr, fun hentry => ⟨fun r hr => lateHold_of_counts hentry hr, ?_⟩⟩
    intro short owed first raises
    refine ⟨fun d hd => ?_, fun hreads => ⟨fun d hd => ?_, fun hwrites d ds hnew hover => ?_⟩⟩
    · obtain ⟨m, hm, hlanes⟩ := countCheck_short hd
      exact ⟨_, lateHold_of_counts hentry hm, rfl, rfl, rfl, hlanes⟩
    · obtain ⟨m, hm, hlanes⟩ := countCheck_live hreads hd
      exact ⟨_, lateHold_of_counts hentry hm, rfl, rfl, rfl, hlanes⟩
    · exact ⟨_, lateHold_of_counts hentry (countCheck_hwm hreads hwrites hnew hover), rfl, rfl, rfl, fun _ _ => Iff.rfl⟩
  case fault =>
    obtain ⟨-, -, hw, -⟩ := env?_spec he
    have helse := sameElse_setWarp s e.core e.slot (e.faulted s.cycle r)
    refine ⟨_, e.faulted s.cycle r, (exec_of_raise hh he hr).trans (congrArg _ (raise_eq hw)), warp?_setWarp_self .., rfl,
      suspended_faulted _, ⟨_, rfl, rfl, rfl, rfl, rfl, fun l hl => laneOn_siblings hl, rfl, rfl, rfl, rfl⟩, rfl, helse.cores, ?_,
      helse.warps⟩
    show (s.setWarp e.core e.slot (e.faulted s.cycle r)).core e.core =
      { s.core e.core with warps := ((s.setWarp e.core e.slot (e.faulted s.cycle r)).core e.core).warps }
    rw [State.setWarp, core_setCore_self]

end

section
/-! SUPPORT. A machine whose core lists its warps out of order, as one of them sets a quota; and O32. -/

namespace Sys2Proof.Machine

/-! ### A quota set where entry 1 of a core is listed before entry 0 -/

/-- WRSR pr.quota with the value of k16. -/
def quotaHdr : Hdr := { negate := false, guard := 7, dest := 511, count := 0 }
def quotaField : SF := { srca := 400, srcb := 511, group := 0, subop := 0, imm := 2 }

/-- A store of one lane that is yet to be translated. -/
def openStore : Acc :=
  { op := .st, pc := 0, word := 0
    f := { addr := 386, data := 388, space := 0, width := 2, scope := 3, order := 0, hint := 0, atomic := 0, pdst := 7, offset := 0 }
    dest := { name := 511, count := 0, lanes := 0 }, lanes := [{ lane := 0, addr := 0, data := [0], stage := .todo }], entries := []
    launch := 0, bix := 0, wno := 0, stamp := 0, born := 0 }

/-- The warp that sets the quota of its own context, number 1, to 320 slots: it holds one name, and one of its stores is open. -/
def quotaSetter : Warp :=
  { placedWarp with
    names := [(0, { NameCell.fresh with counts := List.replicate 32 7 })]
    kregs := (List.replicate 64 0).set 16 0x00100140
    accs := [(0, openStore)] }

/-- A halted warp of the context, which holds one name. -/
def haltedWarp : Warp := { quotaSetter with number := 1, seq := 1, halted := true, accs := [] }

/-- Core 0 lists each of its two warps once, but the setter, in entry 0, after the halted warp, in entry 1. -/
def outOfOrder : State :=
  { State.reset with
    boot := { Boot.reset with state := 2, enabled := 0x3F }
    parts := [(0, Part.reset 0 1)]
    fns := [(256, FnPage.reset 0)]
    ctxs := [(1, { Ctx.none 1 with fn := 256, desc := { Desc.none with privileged := true } })]
    launches := [(0, { Launch.none with ctx := 1, fn := 256, state := 2, grid := (2, 1, 1), record := placedRecord })]
    blocks := [(0, { launch := 0, index := 0, cores := [0], scratchOff := 0, scratchSize := 0, groups := [], position := 0 })]
    cores := [(0, { Core.reset with warps := [(1, haltedWarp), (0, quotaSetter)], active := [0] })] }

/-- What the refutation reads of the issue: nothing holds it, lanes are active, and it names a context that is on the core. -/
def outOfOrderIssues : Bool :=
  match env? outOfOrder quotaHdr ((encode (.wrsrQuota quotaHdr quotaField)).getD 0) with
  | some e => decide (outOfOrder.hold quotaHdr (needs (.wrsrQuota quotaHdr quotaField) outOfOrder) e = none) &&
      decide (e.core = 0 ∧ e.act ≠ 0 ∧
        ctxKey (outOfOrder.partOfCore e.core) ((e.w.val quotaField.srca.toNat 0).extractLsb' 20 12).toNat = 1)
  | none => false

theorem outOfOrder_issues : outOfOrderIssues = true := by decide +kernel

/-- Each of the core's entries is listed once, and the context has two warps there. -/
theorem outOfOrder_listed : (outOfOrder.core 0).contexts.contains 1 = true ∧ ((outOfOrder.core 0).warps.map (·.1)).Nodup ∧
    ((outOfOrder.core 0).warps.filter fun p => p.2.ctx == 1).length ≤ 64 := by decide +kernel

/-- As the setter issues, it is listed anew before entry 1, and the list keeps it as it stood before, behind. That stale copy is
chosen each time, and never leaves: the context is not killed, it holds more than it may, and a warp that may leave is listed. -/
theorem outOfOrder_ends : (match exec (.wrsrQuota quotaHdr quotaField) outOfOrder with
    | .next t => decide ((t.ctx 1).pre ≠ 4 ∧ ¬((t.core 0).usedStaying 1 + t.reserve 0 1 ≤ (t.core 0).quota 1) ∧
        (0, quotaSetter) ∈ (t.core 0).warps)
    | _ => false) = true := by decide +kernel

theorem quotaSetter_mayLeave : mayLeave 1 quotaSetter := by unfold mayLeave; decide +kernel

end Sys2Proof.Machine

open Sys2Proof Sys2Proof.Machine

/-- Refutes O32: the statement is of every state in which a core lists each entry once, also of one whose list is out of order, which
a table's `put` does not expect. There the issuing warp is listed anew before its old place, where it stays as it stood, so that the
evictions end with the context over its quota and a warp listed that may leave, while the statement says that one of the two is
not so. -/
theorem not_privilegedInstructions : ¬ Obligations.PrivilegedInstructions := by
  unfold Obligations.PrivilegedInstructions
  intro hall
  obtain ⟨e, hready, hcore, hact, hctx⟩ : ∃ e, Ready outOfOrder (.wrsrQuota quotaHdr quotaField) e ∧ e.core = 0 ∧ e.act ≠ 0 ∧
      ctxKey (outOfOrder.partOfCore e.core) ((e.w.val quotaField.srca.toNat 0).extractLsb' 20 12).toNat = 1 := by
    have h := outOfOrder_issues
    unfold outOfOrderIssues at h
    split at h
    · next e he =>
      rw [Bool.and_eq_true, decide_eq_true_eq, decide_eq_true_eq] at h
      exact ⟨e, ⟨quotaHdr, rfl, he, h.1⟩, h.2⟩
    · cases h
  obtain ⟨-, -, -, hquota, -⟩ := hall quotaHdr quotaField outOfOrder e
  obtain ⟨t, u, w, ht, -, -, -, -, hevicts⟩ := hquota hready
  obtain ⟨hin, hnodup, hfew⟩ := outOfOrder_listed
  have hends := outOfOrder_ends
  rw [ht] at hends
  obtain ⟨halive, hover, hstale⟩ := of_decide_eq_true hends
  rw [hctx, hcore] at hevicts
  obtain ⟨-, hdone⟩ := hevicts hact hin hnodup
  rcases hdone hfew with h | h | h
  · exact halive h
  · exact hover h
  · exact h _ hstale quotaSetter_mayLeave

end

section
/-! SUPPORT. A byte of memory as lines enter and leave their home L2s, nothing being stored (14 R260; log 13). -/

namespace Sys2Proof.Machine

/-! ### Giving up a line, byte by byte -/

/-- The modified bytes of a line are those of the view; every other byte is as before. -/
theorem Memory.read_takeDirty {behind : Memory} (hwf : behind.wf = true) (view : Memory) (l : L2Line) (a : Nat) :
    (behind.takeDirty view l).read a =
      if l.addr = a / 128 ∧ l.dirty.getLsbD (a % 128) = true then view.read a else behind.read a := by
  have hfold : ∀ (is : List Nat) {m : Memory}, m.wf = true → (is.foldl (fun m i =>
      if l.dirty.getLsbD i then m.write (128 * l.addr + i) (view.read (128 * l.addr + i)) else m) m).read a =
      if ∃ i ∈ is, 128 * l.addr + i = a ∧ l.dirty.getLsbD i = true then view.read a else m.read a := by
    intro is
    induction is with
    | nil => simp
    | cons i is ih =>
      intro m hm
      rw [List.foldl_cons]
      by_cases hd : l.dirty.getLsbD i = true
      · rw [if_pos hd, ih (Memory.wf_write hm _ _), Memory.read_write hm]
        by_cases hi : 128 * l.addr + i = a
        · simp [hi, hd]
        · simp [hi]
      · rw [if_neg hd, ih hm]
        simp [hd]
  rw [Memory.takeDirty, hfold _ hwf]
  refine if_congr ⟨?_, fun ⟨ha, hd⟩ => ⟨a % 128, by rw [List.mem_range]; omega, by omega, hd⟩⟩ rfl rfl
  rintro ⟨i, hi, rfl, hd⟩
  rw [List.mem_range] at hi
  rw [show (128 * l.addr + i) % 128 = i by omega]
  exact ⟨by omega, hd⟩

theorem L2Line.is_iff {l : L2Line} {host : Bool} {n : Nat} : l.is host n = true ↔ l.host = host ∧ l.addr = n := by
  rw [L2Line.is, Bool.and_eq_true, beq_iff_eq, beq_iff_eq]

variable {s t u : State} {l : L2Line} {p : Phys}

theorem homeByte_cleanLine : (s.cleanLine l).homeByte p = s.homeByte p := by
  unfold State.cleanLine State.homeByte
  cases l.host <;> rfl

/-- Behind the L2 a line's modified bytes are then the home's. -/
theorem behindByte_cleanLine (hs : Canonical s) : (s.cleanLine l).behindByte p =
    if l.is p.host p.line = true ∧ l.dirty.getLsbD (p.addr % 128) = true then s.homeByte p else s.behindByte p := by
  obtain ⟨-, hdram, -, hbehind, -, -⟩ := hs
  simp only [L2Line.is_iff, Phys.line]
  unfold State.cleanLine State.homeByte State.behindByte
  cases hl : l.host <;> cases hp : p.host
  · simpa using Memory.read_takeDirty hdram s.dev l p.addr
  · simp
  · simp
  · simpa using Memory.read_takeDirty hbehind s.host l p.addr

theorem behindByte_giveUpLine : (s.giveUpLine l).behindByte p = (s.cleanLine l).behindByte p := by
  unfold State.giveUpLine State.behindByte
  cases l.host <;> rfl

theorem Memory.read_writeN_line {m b : Memory} (hwf : m.wf = true) (n a : Nat) :
    (m.writeN (128 * n) (b.readN (128 * n) 128)).read a = if n = a / 128 then b.read a else m.read a := by
  rw [Memory.read_writeN _ hwf, Memory.length_readN]
  refine if_ctx_congr (by omega) (fun ha => ?_) fun _ => rfl
  have hlt : a - 128 * n < 128 := by omega
  rw [Memory.readN_eq, List.getD_eq_getElem?_getD, List.getElem?_map, List.getElem?_range hlt]
  rw [Option.map_some, Option.getD_some, show 128 * n + (a - 128 * n) = a by omega]

/-- A later access finds what lies behind (14 R260). -/
theorem homeByte_giveUpLine (hs : Canonical s) : (s.giveUpLine l).homeByte p =
    if l.is p.host p.line = true then (s.cleanLine l).behindByte p else s.homeByte p := by
  rw [← homeByte_cleanLine (s := s) (l := l)]
  obtain ⟨hdev, -, hhost, -, -, -⟩ := hs.cleanLine l
  simp only [L2Line.is_iff, Phys.line]
  unfold State.giveUpLine State.homeByte State.behindByte
  cases hl : l.host <;> cases hp : p.host
  · simpa using Memory.read_writeN_line hdev l.addr p.addr
  · simp
  · simp
  · simpa using Memory.read_writeN_line hhost l.addr p.addr

/-- Giving up a line removes its entries, and those alone. -/
theorem l2_giveUpLine : (s.giveUpLine l).l2 = s.l2.filter fun x => !x.is l.host l.addr := by
  have hclean : (s.cleanLine l).l2 = s.l2.map fun x => if x.is l.host l.addr then { x with dirty := 0 } else x := by
    unfold State.cleanLine
    cases l.host <;> rfl
  have hgive : (s.giveUpLine l).l2 = (s.cleanLine l).l2.filter fun x => !x.is l.host l.addr := by
    unfold State.giveUpLine
    cases l.host <;> rfl
  rw [hgive, hclean]
  induction s.l2 with
  | nil => rfl
  | cons x xs ih =>
    rw [List.map_cons, List.filter_cons, List.filter_cons, ih]
    by_cases hx : x.is l.host l.addr = true
    · have hx' : ({ x with dirty := 0 } : L2Line).is l.host l.addr = true := hx
      rw [if_pos hx, hx, hx']
      rfl
    · rw [if_neg hx]

/-! ### What becomes of a byte -/

/-- A byte while nothing is stored: it stays, and modified where it was; or the memory behind has taken the home's value; or its
line has left its home L2 without it modified, and the home has what lies behind. -/
inductive ByteKept (s t : State) (p : Phys) : Prop
  | stays (home : t.homeByte p = s.homeByte p) (behind : t.behindByte p = s.behindByte p) (dirty : s.dirtyByte p → t.dirtyByte p)
  | written (home : t.homeByte p = s.homeByte p) (behind : t.behindByte p = s.homeByte p)
  | dropped (home : t.homeByte p = s.behindByte p) (behind : t.behindByte p = s.behindByte p) (clean : ¬s.dirtyByte p)

theorem ByteKept.trans (h : ByteKept s t p) (g : ByteKept t u p) : ByteKept s u p := by
  cases h with
  | stays home behind dirty =>
    cases g with
    | stays home' behind' dirty' => exact .stays (home'.trans home) (behind'.trans behind) (dirty' ∘ dirty)
    | written home' behind' => exact .written (home'.trans home) (behind'.trans home)
    | dropped home' behind' clean => exact .dropped (home'.trans behind) (behind'.trans behind) (clean ∘ dirty)
  | written home behind =>
    cases g with
    | stays home' behind' _ => exact .written (home'.trans home) (behind'.trans behind)
    | written home' behind' => exact .written (home'.trans home) (behind'.trans home)
    | dropped home' behind' _ => exact .written (home'.trans behind) (behind'.trans behind)
  | dropped home behind clean =>
    cases g with
    | stays home' behind' _ => exact .dropped (home'.trans home) (behind'.trans behind) clean
    | written home' behind' => exact .dropped (home'.trans home) (behind'.trans home) clean
    | dropped home' behind' _ => exact .dropped (home'.trans behind) (behind'.trans behind) clean

/-- Nothing is stored: a canonical memory stays canonical, and each byte is kept as `ByteKept` says. -/
def MemoryKept (s t : State) : Prop := Canonical s → Canonical t ∧ ∀ p, ByteKept s t p

theorem MemoryKept.trans (h : MemoryKept s t) (g : MemoryKept t u) : MemoryKept s u := by
  intro hs
  obtain ⟨ht, hst⟩ := h hs
  obtain ⟨hu, htu⟩ := g ht
  exact ⟨hu, fun p => (hst p).trans (htu p)⟩

/-- The memories are the same, and no byte that was modified is so no longer. -/
theorem MemoryKept.of_eq (hdev : t.dev = s.dev) (hdram : t.dram = s.dram) (hhost : t.host = s.host)
    (hbehind : t.hostBehind = s.hostBehind) (hspad : t.spad = s.spad) (hlode : t.lode = s.lode)
    (hl2 : ∀ p, s.dirtyByte p → t.dirtyByte p) : MemoryKept s t := fun hs =>
  ⟨hs.of_eq hdev hdram hhost hbehind hspad hlode, fun p =>
    .stays (by simp only [State.homeByte, hhost, hdev]) (by simp only [State.behindByte, hbehind, hdram]) (hl2 p)⟩

theorem MemoryKept.refilled (h : MemoryKept s t) (hs : Canonical s) : Refilled s t fun _ => False where
  home p _ := by
    cases (h hs).2 p with
    | stays home _ _ => exact .inl home
    | written home _ => exact .inl home
    | dropped home _ clean => exact .inr ⟨home, clean⟩
  behind p _ := by
    cases (h hs).2 p with
    | stays _ behind _ => exact .inl behind
    | written _ behind => exact .inr behind
    | dropped _ behind _ => exact .inl behind

/-! ### Lines that enter and leave -/

/-- The modified bytes of a held line that is given up go behind the L2, and the others are taken from there. -/
theorem memoryKept_giveUpLine (hl : l ∈ s.l2) : MemoryKept s (s.giveUpLine l) := by
  refine fun hs => ⟨hs.giveUpLine l, fun p => ?_⟩
  have hhome := homeByte_giveUpLine (l := l) (p := p) hs
  have hbehind := behindByte_giveUpLine (s := s) (l := l) (p := p)
  rw [behindByte_cleanLine hs] at hhome hbehind
  by_cases hp : l.is p.host p.line = true
  · rw [if_pos hp] at hhome
    by_cases hd : l.dirty.getLsbD (p.addr % 128) = true
    · rw [if_pos ⟨hp, hd⟩] at hhome hbehind
      exact .written hhome hbehind
    · rw [if_neg fun h => hd h.2] at hhome hbehind
      exact .dropped hhome hbehind fun ⟨_, hall⟩ => hd (hall l hl hp)
  · rw [if_neg hp] at hhome
    rw [if_neg fun h => hp h.1] at hbehind
    refine .stays hhome hbehind fun ⟨hhas, hall⟩ => ?_
    have hother : ∀ x : L2Line, x.is p.host p.line = true → x.is l.host l.addr = false := by
      intro x hx
      rw [Bool.eq_false_iff]
      intro hxl
      rw [L2Line.is_iff] at hx hxl hp
      exact hp ⟨hxl.1.symm.trans hx.1, hxl.2.symm.trans hx.2⟩
    rw [State.l2Has, List.any_eq_true] at hhas
    obtain ⟨x, hx, hxp⟩ := hhas
    refine ⟨?_, fun y hy hyp => ?_⟩
    · rw [State.l2Has, List.any_eq_true, l2_giveUpLine]
      exact ⟨x, List.mem_filter.2 ⟨hx, by rw [hother x hxp]; rfl⟩, hxp⟩
    · rw [l2_giveUpLine] at hy
      exact hall y (List.mem_filter.1 hy).1 hyp

theorem mem_victimOf {α : Type} {hint : α → BitVec 2} {set : List α} {x : α} (h : victimOf hint set = some x) : x ∈ set := by
  unfold victimOf at h
  split at h
  · next hf => cases h; exact List.mem_of_find?_eq_some hf
  · split at h
    · next hf => cases h; exact List.mem_of_find?_eq_some hf
    · exact List.mem_of_head? h

/-- A line that is not held enters the L2s. -/
theorem memoryKept_append {x : L2Line} (hx : s.l2Has x.host x.addr = false) : MemoryKept s { s with l2 := s.l2 ++ [x] } := by
  refine .of_eq rfl rfl rfl rfl rfl rfl fun p ⟨hhas, hall⟩ => ⟨?_, fun y hy hyp => ?_⟩
  · rw [State.l2Has, List.any_append]
    rw [State.l2Has] at hhas
    rw [hhas, Bool.true_or]
  · rcases List.mem_append.1 hy with hy | hy
    · exact hall y hy hyp
    · rw [List.mem_singleton] at hy
      subst hy
      rw [L2Line.is_iff] at hyp
      rw [hyp.1, hyp.2, hhas] at hx
      cases hx

theorem l2Has_giveUpLine_of_not {host : Bool} {n : Nat} (h : s.l2Has host n = false) : (s.giveUpLine l).l2Has host n = false := by
  rw [State.l2Has, List.any_eq_false] at h ⊢
  rw [l2_giveUpLine]
  exact fun x hx => h x (List.mem_filter.1 hx).1

theorem l2Has_giveUpLine_self {host : Bool} {n : Nat} (h : l.is host n = true) : (s.giveUpLine l).l2Has host n = false := by
  rw [L2Line.is_iff] at h
  obtain ⟨rfl, rfl⟩ := h
  rw [State.l2Has, List.any_eq_false, l2_giveUpLine]
  intro x hx
  simpa using (List.mem_filter.1 hx).2

theorem memoryKept_l2Add {x : L2Line} (hx : s.l2Has x.host x.addr = false) : MemoryKept s (s.l2Add x) := by
  unfold State.l2Add
  dsimp only
  split
  · exact memoryKept_append hx
  · split
    · next l hl =>
      have hmem : l ∈ s.l2 := (List.mem_filter.1 (mem_victimOf hl)).1
      exact (memoryKept_giveUpLine hmem).trans (memoryKept_append (l2Has_giveUpLine_of_not hx))
    · exact memoryKept_append hx

/-- Entries that keep their lines and lose no modified byte. -/
theorem dirtyByte_map {f : L2Line → L2Line} (hline : ∀ x host n, (f x).is host n = x.is host n)
    (hdirty : ∀ x i, x.dirty.getLsbD i = true → (f x).dirty.getLsbD i = true) (h : s.dirtyByte p) :
    ({ s with l2 := s.l2.map f } : State).dirtyByte p := by
  obtain ⟨hhas, hall⟩ := h
  rw [State.l2Has] at hhas
  refine ⟨?_, fun y hy hyp => ?_⟩
  · rw [State.l2Has, List.any_map, ← hhas]
    exact congrArg (s.l2.any ·) (funext fun x => hline x _ _)
  · obtain ⟨x, hx, rfl⟩ := List.mem_map.1 hy
    rw [hline] at hyp
    exact hdirty x _ (hall x hx hyp)

theorem memoryKept_mapLines {f : L2Line → L2Line} (hline : ∀ x host n, (f x).is host n = x.is host n)
    (hdirty : ∀ x i, x.dirty.getLsbD i = true → (f x).dirty.getLsbD i = true) : MemoryKept s { s with l2 := s.l2.map f } :=
  .of_eq rfl rfl rfl rfl rfl rfl fun _ h => dirtyByte_map hline hdirty h

theorem memoryKept_l2Hold (x : L2Line) : MemoryKept s (s.l2Hold x) := by
  unfold State.l2Hold
  split
  · next l hl =>
    have his : l.is x.host x.addr = true := List.find?_some (p := fun y : L2Line => y.is x.host x.addr) hl
    split
    · refine memoryKept_mapLines (fun y host n => ?_) fun y i hi => ?_
      · split <;> rfl
      · split
        · rw [BitVec.getLsbD_or, hi, Bool.true_or]
        · exact hi
    · exact (memoryKept_giveUpLine (List.mem_of_find?_eq_some hl)).trans (memoryKept_l2Add (l2Has_giveUpLine_self his))
  · next hl =>
    refine memoryKept_l2Add ?_
    rw [State.l2Has, List.any_eq_false]
    exact List.find?_eq_none.1 hl

end Sys2Proof.Machine

end

section
/-! SUPPORT. What a read at issue may change: lines of the caches, translations, and merges (03 R65; 14 R257, R258, R260, R263). -/

namespace Sys2Proof.Machine

/-! ### Fills -/

/-- `t` is `s` but for lines that the home L2s and core `c`'s caches hold, translations, counted bytes, and, where reads may `join`
them, merges; nothing is stored. -/
structure Fills (c : Nat) (join : Prop) (s t : State) : Prop where
  state : t = { s with cores := t.cores, tlb := t.tlb, walks := t.walks, l2 := t.l2, dev := t.dev, dram := t.dram,
                       host := t.host, hostBehind := t.hostBehind, merges := t.merges, bytes := t.bytes }
  kept : MemoryKept s t
  cores : ∀ k, k ≠ c → t.core k = s.core k
  core : t.core c = { s.core c with l1 := (t.core c).l1, consts := (t.core c).consts }
  merges : join ∨ t.merges = s.merges

namespace Fills

variable {c : Nat} {join : Prop} {s t u : State}

theorem rfl' (s : State) : Fills c join s s :=
  ⟨rfl, .of_eq rfl rfl rfl rfl rfl rfl fun _ h => h, fun _ _ => rfl, rfl, .inr rfl⟩

theorem trans (h : Fills c join s t) (g : Fills c join t u) : Fills c join s u where
  state := by rw [g.state, h.state]
  kept := h.kept.trans g.kept
  cores k hk := (g.cores k hk).trans (h.cores k hk)
  core := by rw [g.core, h.core]
  merges := by
    rcases g.merges with hj | hm
    · exact .inl hj
    · exact h.merges.imp_right hm.trans

theorem foldl {α : Type} {f : State → α → State} (hf : ∀ s x, Fills c join s (f s x)) : ∀ (xs : List α) (s : State),
    Fills c join s (xs.foldl f s)
  | [], s => rfl' s
  | x :: xs, s => (hf s x).trans (foldl hf xs (f s x))

/-- A change of memory and of the lines of the home L2s alone. -/
theorem of_lines (hstate : t = { s with l2 := t.l2, dev := t.dev, dram := t.dram, host := t.host, hostBehind := t.hostBehind })
    (hkept : MemoryKept s t) : Fills c join s t where
  state := by rw [hstate]
  kept := hkept
  cores k _ := by rw [hstate]; rfl
  core := by rw [hstate]; rfl
  merges := .inr (by rw [hstate])

theorem warp? (h : Fills c join s t) (k o : Nat) : t.warp? k o = s.warp? k o := by
  rw [State.warp?, State.warp?]
  by_cases hk : k = c
  · subst hk; rw [h.core]
  · rw [h.cores k hk]

end Fills

variable {c : Nat} {join : Prop} (s : State)

/-! ### Lines of the home L2s -/

theorem giveUpLine_state (l : L2Line) : s.giveUpLine l = { s with
    l2 := (s.giveUpLine l).l2, dev := (s.giveUpLine l).dev, dram := (s.giveUpLine l).dram, host := (s.giveUpLine l).host
    hostBehind := (s.giveUpLine l).hostBehind } := by
  unfold State.giveUpLine State.cleanLine
  cases l.host <;> rfl

theorem l2Add_state (x : L2Line) : s.l2Add x = { s with
    l2 := (s.l2Add x).l2, dev := (s.l2Add x).dev, dram := (s.l2Add x).dram, host := (s.l2Add x).host
    hostBehind := (s.l2Add x).hostBehind } := by
  unfold State.l2Add
  dsimp only
  split
  · rfl
  · split
    · next l _ => rw [giveUpLine_state s l]
    · rfl

theorem l2Hold_state (x : L2Line) : s.l2Hold x = { s with
    l2 := (s.l2Hold x).l2, dev := (s.l2Hold x).dev, dram := (s.l2Hold x).dram, host := (s.l2Hold x).host
    hostBehind := (s.l2Hold x).hostBehind } := by
  unfold State.l2Hold
  split
  · next l _ =>
    split
    · rfl
    · rw [l2Add_state, giveUpLine_state s l]
  · exact l2Add_state s x

theorem fills_l2Hold (x : L2Line) : Fills c join s (s.l2Hold x) := .of_lines (l2Hold_state s x) (memoryKept_l2Hold x)

theorem fills_countAt (x : Nat) (p : Phys) (n : Nat) : Fills c join s (s.countAt x p n) :=
  ⟨rfl, .of_eq rfl rfl rfl rfl rfl rfl fun _ h => h, fun _ _ => rfl, rfl, .inr rfl⟩

theorem fills_l2Fill (x : Nat) (p : Phys) (n : Nat) (hint : BitVec 2) : Fills c join s (s.l2Fill x p n hint) := by
  refine Fills.foldl (fun s l => ?_) _ s
  have hcount : Fills c join s (if s.l2Has p.host l then s else s.countAt x p 128) := by
    split
    · exact .rfl' s
    · exact fills_countAt ..
  exact hcount.trans (fills_l2Hold _ _)

theorem fills_pageFill (t : Xlated) (n : Nat) : Fills c join s (s.pageFill t n) := by
  unfold State.pageFill
  split
  · exact fills_countAt ..
  · exact fills_l2Fill ..

/-! ### Translations, and the caches of the core -/

theorem fills_translate (u : TUnit) (x va : Nat) (k : AccKind) (sys peer fresh : Bool) :
    Fills c join s (s.translate u x va k sys peer fresh).2 := by
  rw [translate_state]
  exact ⟨rfl, .of_eq rfl rfl rfl rfl rfl rfl fun _ h => h, fun _ _ => rfl, rfl, .inr rfl⟩

/-- A change of a core's L1 and constant cache. -/
theorem fills_setCore {k : Core} (hk : k = { s.core c with l1 := k.l1, consts := k.consts }) : Fills c join s (s.setCore c k) where
  state := rfl
  kept := .of_eq rfl rfl rfl rfl rfl rfl fun _ h => h
  cores j hj := by rw [core_setCore, if_neg hj.symm]
  core := by rw [core_setCore_self]; exact hk
  merges := .inr rfl

theorem fills_modL1 (f : List L1Line → List L1Line) : Fills c join s (s.modL1 c f) := fills_setCore s rfl

theorem fills_constFill (l : ConstLine) : Fills c join s (s.modCore c fun k => k.constFill l) := fills_setCore s rfl

theorem fills_l1Fill (x : Nat) (p : Phys) (hint : BitVec 2) : Fills c join s (s.l1Fill c x p hint) := by
  unfold State.l1Fill
  exact (fills_l2Fill s x p 1 hint).trans (fills_modL1 _ _)

theorem fills_markLine (x : Nat) (p : Phys) (hint : BitVec 2) : Fills c join s (s.markLine (some c) x p hint) := by
  unfold State.markLine
  split
  · exact .rfl' s
  · have hmark : Fills c join s
        { s with l2 := s.l2.map fun l => if l.is p.host p.line then { l with hint := hint } else l } := by
      refine .of_lines rfl (memoryKept_mapLines (fun y host n => ?_) fun y i hi => ?_)
      · split <;> rfl
      · split <;> exact hi
    exact hmark.trans (fills_modL1 _ _)

/-! ### Merges -/

variable {s}

theorem fills_merges (l : List Merge) : Fills c True s { s with merges := l } :=
  ⟨rfl, .of_eq rfl rfl rfl rfl rfl rfl fun _ h => h, fun _ _ => rfl, rfl, .inl trivial⟩

theorem fills_mergeRead? {r : Reader} {x : Nat} {t : Xlated} {u : State} (h : s.mergeRead? r x t = some u) : Fills c True s u := by
  unfold State.mergeRead? at h
  split at h
  · cases h; exact .rfl' s
  · split at h
    · unfold State.joinMerge at h
      dsimp only at h
      split at h
      · cases h; exact fills_merges _
      · split at h
        · cases h; exact fills_merges _
        · cases h
    · cases h

theorem fills_prefLater (r : Reader) (part : Nat) (p : Phys) : Fills c True s (s.prefLater r part p) := by
  unfold State.prefLater
  dsimp only
  split
  · exact .rfl' s
  · exact fills_merges _

/-! ### A prefetch (09 R191) -/

theorem fills_prefetch (x : Nat) (f : MF) (a : Nat) : Fills c True s (s.prefetch c x f a) := by
  have htranslate : Fills c True s (s.translate (.core c) x a .read false false false).2 := fills_translate ..
  unfold State.prefetch
  split
  · exact .rfl' s
  · split
    · next he => rw [he] at htranslate; exact htranslate
    · next s1 he =>
      rw [he] at htranslate
      refine htranslate.trans ?_
      dsimp only
      split
      · exact .rfl' s1
      · split
        · exact fills_markLine ..
        · split
          · next hm => exact fills_mergeRead? hm
          · split
            · exact fills_prefLater ..
            · unfold State.prefetched
              split
              · exact fills_l2Fill ..
              · exact fills_l1Fill ..

theorem prefetch_lode {f : MF} (hf : f.space = 4) (x a : Nat) : s.prefetch c x f a = s := if_pos hf

/-! ### An issue that reads -/

/-- `t` is `s` but for the warp in entry `slot` of core `c`, its counted issue, and what reads fill. -/
structure Reads (c slot : Nat) (join : Prop) (s t : State) : Prop where
  state : t = { s with cores := t.cores, parts := t.parts, tlb := t.tlb, walks := t.walks, l2 := t.l2, dev := t.dev, dram := t.dram,
                       host := t.host, hostBehind := t.hostBehind, merges := t.merges, bytes := t.bytes }
  kept : MemoryKept s t
  parts : ∀ p, t.part p = { s.part p with counters := (t.part p).counters }
  cores : ∀ k, k ≠ c → t.core k = s.core k
  core : t.core c = { s.core c with
    warps := (t.core c).warps, issued := (t.core c).issued, l1 := (t.core c).l1, consts := (t.core c).consts }
  warps : ∀ o, o ≠ slot → t.warp? c o = s.warp? c o
  merges : join ∨ t.merges = s.merges

variable {slot : Nat} {t u : State}

theorem Reads.trans (h : Reads c slot join s t) (g : Reads c slot join t u) : Reads c slot join s u where
  state := by rw [g.state, h.state]
  kept := h.kept.trans g.kept
  parts p := by rw [g.parts p, h.parts p]
  cores k hk := (g.cores k hk).trans (h.cores k hk)
  core := by rw [g.core, h.core]
  warps o ho := (g.warps o ho).trans (h.warps o ho)
  merges := by
    rcases g.merges with hj | hm
    · exact .inl hj
    · exact h.merges.imp_right hm.trans

theorem Fills.reads (h : Fills c join s t) : Reads c slot join s t where
  state := by rw [h.state]
  kept := h.kept
  parts p := by rw [h.state]; rfl
  cores := h.cores
  core := by rw [h.core]
  warps o _ := h.warp? c o
  merges := h.merges

theorem SameElse.reads (h : SameElse s t c slot) : Reads c slot join s t where
  state := by rw [h.state]
  kept := by
    rw [h.state]
    exact .of_eq rfl rfl rfl rfl rfl rfl fun _ hd => hd
  parts := h.parts
  cores := h.cores
  core := by rw [h.core]
  warps := h.warps
  merges := .inr (by rw [h.state])

end Sys2Proof.Machine

end

section
/-! SUPPORT. A load of the constant space at issue (03 R65; 09 R176; 14 R257). -/

namespace Sys2Proof

theorem nodup_lanesOf (m : Mask) : (lanesOf m).Nodup := by
  rw [lanesOf, allLanes_eq]
  exact List.nodup_range.filter _

/-- An entry of a table whose keys are distinct is the one at its key. -/
theorem Tab.get?_of_mem {α : Type} {t : Tab α} (hkeys : (t.map (·.1)).Nodup) {x : Nat × α} (hx : x ∈ t) : t.get? x.1 = some x.2 := by
  induction t with
  | nil => cases hx
  | cons y t ih =>
    obtain ⟨hy, ht⟩ := List.nodup_cons.1 hkeys
    rw [Tab.get?]
    rcases List.mem_cons.1 hx with rfl | hx
    · exact if_pos rfl
    · rw [if_neg fun hyx : y.1 = x.1 => hy (List.mem_map.2 ⟨x, hx, hyx.symm⟩)]
      exact ih ht hx

end Sys2Proof

namespace Sys2Proof.Machine

/-! ### What the reads of constants fill -/

theorem fills_constantLine (s : State) (c : Nat) (w : Warp) (va : Nat) (fresh : Bool) :
    Fills c False s (s.constantLine c w va fresh).2 := by
  have htranslate : Fills c False s (s.translate (.core c) w.ctx va .read false false fresh).2 := fills_translate ..
  unfold State.constantLine
  split
  · exact .rfl' s
  · split
    · next he => rw [he] at htranslate; exact htranslate
    · next s1 he =>
      rw [he] at htranslate
      refine htranslate.trans ?_
      split
      · exact .rfl' s1
      · exact (fills_pageFill ..).trans (fills_constFill ..)

theorem fills_constantRead (s : State) (c : Nat) (w : Warp) (a n : Nat) (fresh : Bool) :
    Fills c False s (s.constantRead c w a n fresh).2 := by
  have hline := fills_constantLine s c w (s.constantVa w a) fresh
  unfold State.constantRead
  dsimp only
  split
  · exact .rfl' s
  · split
    · next he => rw [he] at hline; exact hline
    · next line s1 he =>
      rw [he] at hline
      refine hline.trans ?_
      split
      · exact .rfl' s1
      · split
        · exact .rfl' s1
        · have hnext := fills_constantLine s1 c w (s.constantVa w a + min n (128 - s.constantVa w a % 128)) fresh
          split
          · next he => rw [he] at hnext; exact hnext
          · next he => rw [he] at hnext; exact hnext

theorem fills_constantLanes (c : Nat) (e : Env) (f : MF) (fresh : Bool) : ∀ (ls : List Nat) (s : State),
    Fills c False s (State.constantLanes c e f fresh ls s).2
  | [], s => .rfl' s
  | i :: ls, s => (fills_constantRead s c e.w (e.w.address f i) (accessBytes f) fresh).trans (fills_constantLanes c e f fresh ls _)

theorem keys_constantLanes (c : Nat) (e : Env) (f : MF) (fresh : Bool) : ∀ (ls : List Nat) (s : State),
    (State.constantLanes c e f fresh ls s).1.map (·.1) = ls
  | [], _ => rfl
  | i :: ls, _ => congrArg (i :: ·) (keys_constantLanes c e f fresh ls _)

/-! ### Which outcome the reads have -/

variable {tb : Tab (Except ConstStop (List Byte))}

theorem constantFault_of_ok (h : ∀ x ∈ tb, ∃ bs, x.2 = .ok bs) : constantFault tb = none := by
  refine List.findSome?_eq_none_iff.2 fun x hx => ?_
  obtain ⟨bs, hbs⟩ := h x hx
  rw [hbs]

theorem constantPage_of_ok (h : ∀ x ∈ tb, ∃ bs, x.2 = .ok bs) : constantPage tb = none := by
  refine List.findSome?_eq_none_iff.2 fun x hx => ?_
  obtain ⟨bs, hbs⟩ := h x hx
  rw [hbs]

theorem exists_of_constantFault {code : BitVec 8} (h : constantFault tb = some code) : ∃ x ∈ tb, x.2 = .error (.fault code) := by
  obtain ⟨x, hx, hcode⟩ := List.exists_of_findSome?_eq_some h
  refine ⟨x, hx, ?_⟩
  split at hcode
  · next he => cases hcode; exact he
  · cases hcode

/-! ### The load, by outcome -/

/-- A constant load that may read now: it waits for no page, or its page is served and it replays (03 R65; 20 R322). -/
def Env.ReadsConstants (e : Env) (fresh : Bool) : Prop :=
  (e.w.fetchWait true e.pc = none ∧ fresh = false) ∨
    ∃ p, e.w.fetchWait true e.pc = some p ∧ p.served = true ∧ replayable p.code = true ∧ fresh = true

/-- The lanes whose bytes a load reads: for a uniform destination the lowest active one. -/
def Env.readLanes (e : Env) (h : Hdr) : Mask := if uni h.dest then laneBit (lowLane e.act) else e.act

/-- The fault of a refused constant read. -/
def Env.constantRaise (e : Env) (f : MF) (tb : Tab (Except ConstStop (List Byte))) (code : BitVec 8) : Raise :=
  let m := maskOf fun i => (tb.get? i).any (constantFailed code)
  { code := code, lanes := m, addr := BitVec.ofNat 64 (e.w.address f (lowLane m)), info := memInfo .read 255 }

/-- The values of a constant load's destination. -/
def Env.constantValues (e : Env) (h : Hdr) (f : MF) (tb : Tab (Except ConstStop (List Byte))) (i : Nat) : List Word :=
  wordsOf (constantBytes (tb.getD (if uni h.dest then lowLane e.act else i) (.ok []))) (widthNames f.width)

/-- The state in which a constant load writes its destination: its warp `w` waits no longer for a page, the core's L1 is as the issue
has left it, and the issue is counted. -/
def State.constantsRead (s : State) (e : Env) (w : Warp) (l1 : List L1Line) : State :=
  ((s.setWarp e.core e.slot (w.setFetch true e.pc none)).modL1 e.core fun _ => l1).countIssue e.core e.slot e.w.ctx false

variable {s s' s1 : State} {e : Env} {h : Hdr} {f : MF} {fresh : Bool}

theorem warp?_constantsRead (w : Warp) (l1 : List L1Line) :
    (s.constantsRead e w l1).warp? e.core e.slot = some (w.setFetch true e.pc none) :=
  ((warp?_countIssue ..).trans ((fills_modL1 (join := False) _ _).warp? ..)).trans (warp?_setWarp_self ..)

theorem l1_constantsRead (w : Warp) (l1 : List L1Line) : ((s.constantsRead e w l1).core e.core).l1 = l1 := by
  rw [State.constantsRead, l1_countIssue, State.modL1, core_setCore_self]

theorem reads_constantsRead (w : Warp) (l1 : List L1Line) : Reads e.core e.slot False s (s.constantsRead e w l1) :=
  ((sameElse_setWarp ..).reads.trans (fills_modL1 _ _).reads).trans (sameElse_countIssue ..).reads

theorem constantLoad_idle (ha : e.act = 0) :
    s.constantLoad s' e h f = finish e (constituents h.dest (widthNames f.width)) h.count (fun _ => []) s' := if_pos ha

/-- The load ends its wait and takes the fault. -/
theorem constantLoad_fault {code : BitVec 8} (ha : e.act ≠ 0) (hturn : e.ReadsConstants fresh)
    (htb : State.constantLanes e.core e f fresh (lanesOf (e.readLanes h)) s = (tb, s1)) (hfault : constantFault tb = some code) :
    s.constantLoad s' e h f =
      (s1.modWarp e.core e.slot fun w => w.setFetch true e.pc none).raise_ e (e.constantRaise f tb code) := by
  unfold Env.readLanes at htb
  unfold State.constantLoad
  dsimp only
  rw [if_neg ha]
  rcases hturn with ⟨hw, rfl⟩ | ⟨p, hw, hserved, hreplay, rfl⟩
  · simp only [hw, htb, hfault]
    rfl
  · simp only [hw, hserved, hreplay, htb, hfault]
    rfl

/-- The load ends its wait, is counted, and writes its destination. -/
theorem constantLoad_read {w : Warp} (ha : e.act ≠ 0) (hturn : e.ReadsConstants fresh)
    (htb : State.constantLanes e.core e f fresh (lanesOf (e.readLanes h)) s = (tb, s1)) (hok : ∀ x ∈ tb, ∃ bs, x.2 = .ok bs)
    (hw' : s'.warp? e.core e.slot = some w) :
    s.constantLoad s' e h f = finish e (constituents h.dest (widthNames f.width)) h.count (e.constantValues h f tb)
      (s1.constantsRead e w (s'.core e.core).l1) := by
  unfold Env.readLanes at htb
  unfold State.constantLoad
  dsimp only
  rw [if_neg ha, hw']
  rcases hturn with ⟨hw, rfl⟩ | ⟨p, hw, hserved, hreplay, rfl⟩
  · simp only [hw, htb, constantFault_of_ok hok, constantPage_of_ok hok]
    rfl
  · simp only [hw, hserved, hreplay, htb, constantFault_of_ok hok, constantPage_of_ok hok]
    rfl

/-! ### The warp that a load leaves -/

theorem writeName_setFetch (w : Warp) (d : Nat) (count : BitVec 3) (act : Mask) (v : Nat → Word) (const : Bool) (pc : PC)
    (p : Option PageWait) : (w.setFetch const pc p).writeName d count act v = (w.writeName d count act v).setFetch const pc p := by
  unfold Warp.writeName
  split
  · rfl
  · split
    · split <;> rfl
    · split <;> rfl

theorem writeNames_setFetch (count : BitVec 3) (act : Mask) (v : Nat → List Word) (const : Bool) (pc : PC) (p : Option PageWait) :
    ∀ (ds : List Nat) (w : Warp) (j : Nat),
      (w.setFetch const pc p).writeNames count act v ds j = (w.writeNames count act v ds j).setFetch const pc p
  | [], _, _ => rfl
  | _ :: ds, w, j => by
    rw [Warp.writeNames, writeName_setFetch, writeNames_setFetch count act v const pc p ds, Warp.writeNames]

variable {n : Needs} {v : Nat → List Word}

/-- A load that had waited for its page leaves the warp that any completion leaves, its wait ended. -/
theorem warp?_finish_setFetch {t : State} (hw : t.warp? e.core e.slot = some ((e.issuedWarp n).setFetch true e.pc none)) :
    (finish e n.dests n.count v t).warp? e.core e.slot = some ((e.finished n v).setFetch true e.pc none) := by
  rw [finish, warp?_modWarp_self, hw, Option.map_some, writeNames_setFetch]
  rfl

/-! ### Faults -/

theorem mem_holdRecord (r : HeldRec) (l : List HeldRec) : r ∈ holdRecord r l :=
  List.mem_append_right _ (List.mem_cons_self ..)

/-- What a precise fault of the fragment leaves: it is suspended, its warp's registers and PCs stay, and its record is held. -/
theorem raise_leaves {s : State} {e : Env} {w : Warp} (hw : s.warp? e.core e.slot = some w) (r : Raise) :
    ∃ x, (s.raise_ e r).warp? e.core e.slot = some x ∧ x.suspended = w.suspended ||| e.frag ∧
      x.names = w.names ∧ x.kregs = w.kregs ∧ x.pcs = w.pcs ∧
      ∃ q ∈ (s.raise_ e r).evHeld, q.record.kind = 0 ∧ q.record.code = r.code ∧ q.record.pc = e.pc ∧ q.record.lanemask = r.lanes := by
  rw [State.raise_, takeFault_eq hw]
  refine ⟨_, warp?_setWarp_self .., ?_, rfl, rfl, rfl, _, mem_holdRecord .., rfl, rfl, rfl, rfl⟩
  simp [Warp.suspended]

end Sys2Proof.Machine

end

section
/-! SUPPORT. LD in the constant space, PREF and FENCE as they issue (03 R65; 09 R191, R196; 14 R259; 15 R274, R279); and O34. -/

namespace Sys2Proof.Machine

variable {h : Hdr} {f : MF} {s s1 t : State} {e : Env}

/-- The frame of an issue that reads, in the terms of the statement. -/
def ReadFrame (e : Env) (s t : State) : Prop :=
  t = { s with cores := t.cores, parts := t.parts, tlb := t.tlb, walks := t.walks, l2 := t.l2, dev := t.dev, dram := t.dram,
               host := t.host, hostBehind := t.hostBehind, merges := t.merges, bytes := t.bytes } ∧
  (Canonical s → Refilled s t fun _ => False) ∧
  (∀ p, t.part p = { s.part p with counters := (t.part p).counters }) ∧ (∀ c, c ≠ e.core → t.core c = s.core c) ∧
  (∃ k : Core, t.core e.core = { s.core e.core with warps := k.warps, issued := k.issued, l1 := k.l1, consts := k.consts }) ∧
  (∀ o, o ≠ e.slot → t.warp? e.core o = s.warp? e.core o)

theorem Reads.frame {join : Prop} (hr : Reads e.core e.slot join s t) : ReadFrame e s t :=
  ⟨hr.state, hr.kept.refilled, hr.parts, hr.cores, ⟨_, hr.core⟩, hr.warps⟩

/-! ### LD in the constant space -/

theorem needs_constant (hf : f.space = 3) : needs (.ld h f) s = constantNeeds s h f := if_pos hf

theorem exec_constant (hf : f.space = 3) (hr : Ready s (.ld h f) e) :
    exec (.ld h f) s = .next (s.constantLoad (s.issued e (needs (.ld h f) s)) e h f) := by
  refine exec_next (h := h) rfl (k := fun e s' => s.constantLoad s' e h f) ?_ hr
  rw [needs_constant hf]
  exact if_pos hf

/-- With every byte read, the destination holds them. -/
theorem constant_completes {tb : Tab (Except ConstStop (List Byte))} {fresh : Bool} (hf : f.space = 3) (hr : Ready s (.ld h f) e)
    (ha : e.act ≠ 0) (hturn : e.ReadsConstants fresh)
    (htb : State.constantLanes e.core e f fresh (lanesOf (e.readLanes h)) s = (tb, s1)) (hok : ∀ x ∈ tb, ∃ bs, x.2 = .ok bs) :
    ∃ t w, exec (.ld h f) s = .next t ∧ t.warp? e.core e.slot = some w ∧ ReadFrame e s t ∧ t.merges = s.merges ∧ MovedOn e w ∧
      Named e (needs (.ld h f) s) (e.constantValues h f tb) {} w ∧
      (t.core e.core).l1 = (if (needs (.ld h f) s).readsStatus e then [] else (s.core e.core).l1) := by
  let n := needs (.ld h f) s
  let l1 := if n.readsStatus e then [] else (s.core e.core).l1
  have hdests : n.dests = constituents h.dest (widthNames f.width) := congrArg Needs.dests (needs_constant hf)
  have hcount : n.count = h.count := congrArg Needs.count (needs_constant hf)
  have hfills := fills_constantLanes e.core e f fresh (lanesOf (e.readLanes h)) s
  rw [htb] at hfills
  have hexec : exec (.ld h f) s = .next (finish e n.dests n.count (e.constantValues h f tb)
      (s1.constantsRead e (e.issuedWarp n) l1)) := by
    rw [exec_constant hf hr, constantLoad_read ha hturn htb hok (warp?_issued ..), l1_issued, hdests, hcount]
  have hwritten : Written e n (e.constantValues h f tb) {} (e.finished n (e.constantValues h f tb)) :=
    written_finish hr.env.2 (dests_nodup _ s)
  have ht : Reads e.core e.slot False s (finish e n.dests n.count (e.constantValues h f tb)
      (s1.constantsRead e (e.issuedWarp n) l1)) :=
    (hfills.reads.trans (reads_constantsRead _ _)).trans (sameElse_modWarp ..).reads
  exact ⟨_, _, hexec, warp?_finish_setFetch (warp?_constantsRead ..), ht.frame, ht.merges.resolve_left id, hwritten.pcs,
    hwritten.toNamed.of_eq rfl rfl rfl rfl, (l1_modWarp ..).trans (l1_constantsRead ..)⟩

/-- Where a lane's read is refused, the fragment takes the fault, with that lane. -/
theorem constant_faults {tb : Tab (Except ConstStop (List Byte))} {fresh : Bool} {code : BitVec 8} (hf : f.space = 3)
    (hr : Ready s (.ld h f) e) (ha : e.act ≠ 0) (hturn : e.ReadsConstants fresh)
    (htb : State.constantLanes e.core e f fresh (lanesOf (e.readLanes h)) s = (tb, s1)) (hcode : constantFault tb = some code) :
    ∃ t w, exec (.ld h f) s = .next t ∧ t.warp? e.core e.slot = some w ∧ w.suspended = e.w.suspended ||| e.frag ∧
      w.names = e.w.names ∧ w.kregs = e.w.kregs ∧ w.pcs = e.w.pcs ∧
      ∃ x ∈ tb, x.2 = .error (.fault code) ∧
        ∃ r ∈ t.evHeld, r.record.kind = 0 ∧ r.record.code = code ∧ r.record.pc = e.pc ∧ laneOn r.record.lanemask x.1 = true := by
  have hexec := exec_constant hf hr
  rw [constantLoad_fault ha hturn htb hcode] at hexec
  have hfills := fills_constantLanes e.core e f fresh (lanesOf (e.readLanes h)) s
  have hkeys := keys_constantLanes e.core e f fresh (lanesOf (e.readLanes h)) s
  rw [htb] at hfills hkeys
  have hwarp : (s1.modWarp e.core e.slot fun w => w.setFetch true e.pc none).warp? e.core e.slot =
      some (e.w.setFetch true e.pc none) := by
    rw [warp?_modWarp_self, hfills.warp?, hr.env.1, Option.map_some]
  obtain ⟨w, hw, hsusp, hnames, hkregs, hpcs, r, hrec, hkind, hrcode, hpc, hlanes⟩ := raise_leaves hwarp (e.constantRaise f tb code)
  obtain ⟨x, hx, hxcode⟩ := exists_of_constantFault hcode
  refine ⟨_, w, hexec, hw, hsusp, hnames, hkregs, hpcs, x, hx, hxcode, r, hrec, hkind, hrcode, hpc, ?_⟩
  have hlane : x.1 ∈ lanesOf (e.readLanes h) := hkeys ▸ List.mem_map_of_mem hx
  have hget : tb.get? x.1 = some x.2 := Tab.get?_of_mem (hkeys ▸ nodup_lanesOf _) hx
  rw [hlanes, Env.constantRaise, laneOn_maskOf _ (mem_lanesOf.1 hlane).1, hget, hxcode]
  exact beq_self_eq_true code

theorem constant_idle (hf : f.space = 3) (hr : Ready s (.ld h f) e) (ha : e.act = 0) :
    ∃ t w, exec (.ld h f) s = .next t ∧ t.warp? e.core e.slot = some w ∧
      Written e (needs (.ld h f) s) (fun _ => []) {} w ∧ SameElse s t e.core e.slot := by
  have hexec := exec_constant hf hr
  have hnodup := dests_nodup (.ld h f) s
  rw [constantLoad_idle ha] at hexec
  rw [needs_constant hf] at *
  exact ⟨_, _, hexec, warp?_finish s e (constantNeeds s h f) _, written_finish hr.env.2 hnodup, sameElse_finish ..⟩

/-! ### PREF -/

/-- The prefetches of the active lanes, one by one. -/
def State.prefetches (s : State) (e : Env) (f : MF) : State :=
  (lanesOf e.act).foldl (fun s i => s.prefetch e.core e.w.ctx f (e.w.address f i)) s

theorem fills_prefetches : Fills e.core True s (s.prefetches e f) := Fills.foldl (fun _ _ => fills_prefetch ..) _ s

/-- With no active lane, and in the lode space, nothing is prefetched (09 R191). -/
theorem prefetches_idle (hidle : e.act = 0 ∨ f.space = 4) : s.prefetches e f = s := by
  unfold State.prefetches
  rcases hidle with ha | hf
  · rw [ha]; rfl
  · simp only [prefetch_lode hf]
    exact List.foldl_fixed _

theorem pref_completes (hr : Ready s (.pref h f) e) : ∃ t w, exec (.pref h f) s = .next t ∧ t.warp? e.core e.slot = some w ∧
    Written e (needs (.pref h f) s) (fun _ => []) {} w ∧ ReadFrame e s t ∧
    (e.act = 0 ∨ f.space = 4 → t = { s with cores := t.cores, parts := t.parts }) := by
  let n := needs (.pref h f) s
  let s1 := (s.issued e n).prefetches e f
  have hexec : exec (.pref h f) s = .next (s1.modWarp e.core e.slot fun w => w.sweep.advance e.frag) :=
    exec_next (h := h) rfl (k := fun e s' => (s'.prefetches e f).modWarp e.core e.slot fun w => w.sweep.advance e.frag) rfl hr
  have hissued := sameElse_issued s e n
  have hw : s1.warp? e.core e.slot = some (e.issuedWarp n) := (fills_prefetches.warp? ..).trans (warp?_issued ..)
  have ht : Reads e.core e.slot True s (s1.modWarp e.core e.slot fun w => w.sweep.advance e.frag) :=
    (hissued.reads.trans fills_prefetches.reads).trans (sameElse_modWarp ..).reads
  have hwritten : Written e n (fun _ => []) {} (e.finished n fun _ => []) := written_finish hr.env.2 List.nodup_nil
  refine ⟨_, e.finished n fun _ => [], hexec, ?_, hwritten, ht.frame, fun hidle => ?_⟩
  · rw [warp?_modWarp_self, hw]
    rfl
  · have hs1 : s1 = s.issued e n := prefetches_idle hidle
    rw [hs1]
    exact (hissued.trans (sameElse_modWarp ..)).state

/-! ### FENCE -/

theorem fence_completes (hr : Ready s (.fence h f) e) : ∃ t w, exec (.fence h f) s = .next t ∧ t.warp? e.core e.slot = some w ∧
    Written e (needs (.fence h f) s) (fun _ => []) {} w ∧
    (t.core e.core).l1 = (if e.act ≠ 0 ∧ f.order.getLsbD 0 = true ∧ 2 ≤ f.scope.toNat then [] else (s.core e.core).l1) ∧
    SameElse s t e.core e.slot := by
  let n := needs (.fence h f) s
  let s1 := (s.issued e n).modWarp e.core e.slot fun w => w.advance e.frag
  have hexec : exec (.fence h f) s =
      .next (if e.act != 0 && f.order.getLsbD 0 && decide (2 ≤ f.scope.toNat) then s1.invalidate e.core else s1) :=
    exec_next (h := h) rfl (k := fun e s' =>
      let s1 := s'.modWarp e.core e.slot fun w => w.advance e.frag
      if e.act != 0 && f.order.getLsbD 0 && decide (2 ≤ f.scope.toNat) then s1.invalidate e.core else s1) rfl hr
  have hwritten : Written e n (fun _ => []) {} ((e.issuedWarp n).advance e.frag) := written_advance hr.env.2 rfl
  have hw : s1.warp? e.core e.slot = some ((e.issuedWarp n).advance e.frag) := by
    rw [warp?_modWarp_self, warp?_issued, Option.map_some]
  have hsame : SameElse s s1 e.core e.slot := (sameElse_issued ..).trans (sameElse_modWarp ..)
  have hstatus : n.readsStatus e = false := by simp [n, needs, needsFence, Needs.readsStatus]
  have hl1 : (s1.core e.core).l1 = (s.core e.core).l1 := by
    rw [l1_modWarp, l1_issued, hstatus]
    rfl
  have hcond : (e.act != 0 && f.order.getLsbD 0 && decide (2 ≤ f.scope.toNat)) = true ↔
      e.act ≠ 0 ∧ f.order.getLsbD 0 = true ∧ 2 ≤ f.scope.toNat := by
    simp [and_assoc]
  by_cases hacquire : e.act ≠ 0 ∧ f.order.getLsbD 0 = true ∧ 2 ≤ f.scope.toNat
  · rw [if_pos (hcond.2 hacquire)] at hexec
    rw [if_pos hacquire]
    exact ⟨_, _, hexec, (warp?_invalidate ..).trans hw, hwritten, l1_invalidate .., hsame.trans (sameElse_invalidate ..)⟩
  · rw [if_neg (mt hcond.1 hacquire)] at hexec
    rw [if_neg hacquire]
    exact ⟨_, _, hexec, hw, hwritten, hl1, hsame⟩

/-- Nothing for a release to wait for: the warp has no access outstanding, and no store of the core stands early in its L1. -/
theorem releaseWaits_eq_false (hw : s.releaseWaits e = false) : e.w.accs = [] ∧ ∀ w ∈ (s.core e.core).warps, ∀ a ∈ w.2.accs,
    ∀ l ∈ a.2.lanes, ∀ host at_ x, l.stage ≠ .early host at_ x := by
  rw [State.releaseWaits, Bool.or_eq_false_iff, Bool.not_eq_false', List.isEmpty_iff] at hw
  obtain ⟨haccs, hearly⟩ := hw
  refine ⟨haccs, fun w hwarp a hacc l hlane host at_ x hstage => ?_⟩
  rw [State.earlyOn, List.any_eq_false] at hearly
  refine hearly w hwarp (List.any_eq_true.2 ⟨a, hacc, List.any_eq_true.2 ⟨l, hlane, ?_⟩⟩)
  rw [hstage]

/-- What a fence that issues has waited for (09 R196; 15 R274, R279). -/
theorem fenceStall_eq_none (ha : e.act ≠ 0) (hstall : s.fenceStall f e = none) :
    (f.order.getLsbD 1 = true → s.releaseWaits e = false) ∧
    (f.order.getLsbD 0 = true → ∀ a ∈ e.w.accs, a.2.op ≠ .ld ∧ a.2.op ≠ .atom ∧ a.2.op ≠ .cas ∧ a.2.op ≠ .amaxp) := by
  rw [State.fenceStall, if_neg ha] at hstall
  split at hstall
  · cases hstall
  · next hrelease =>
    split at hstall
    · cases hstall
    · next hacquire =>
      refine ⟨fun ho => by simpa [ho] using hrelease, fun ho a hmem => ?_⟩
      rw [ho, Bool.true_and, List.any_eq_true] at hacquire
      have hop := mt (fun hp => ⟨a, hmem, hp⟩) hacquire
      simpa [and_assoc] using hop

end Sys2Proof.Machine

open Sys2Proof Sys2Proof.Machine

/-- Settles O34: reads at issue store nothing, so that a byte of memory changes only as its line leaves its home L2, and what `hold`
lets pass says what a fence has waited for. -/
theorem completeAtIssue : Obligations.CompleteAtIssue := by
  unfold Obligations.CompleteAtIssue
  refine ⟨fun h f s e => ⟨fun tb s1 fresh hf hr ha hwait htb => ?_, constant_idle, pref_completes, fence_completes⟩,
    fun h f s e hr ha => ?_⟩
  · have hturn : e.ReadsConstants fresh := by
      split at hwait
      · next hnone => exact .inl ⟨hnone, hwait⟩
      · next p hp => exact .inr ⟨p, hp, hwait⟩
    exact ⟨constant_completes hf hr ha hturn htb, fun _ => constant_faults hf hr ha hturn htb⟩
  · obtain ⟨hrelease, hacquire⟩ := fenceStall_eq_none ha hr.stalls
    exact ⟨fun ho => releaseWaits_eq_false (hrelease ho), hacquire⟩

end

section
/-! SUPPORT. The parts of a word, and what decoding it gives (04 R72, R73, R79 to R88; 03 R66); and O1, O2, O4. -/

namespace Sys2Proof

open Sys2Proof.Laws.Header (bits_front bits_back bits_all hdr_encodeHdr)
open BitVec (extractLsb'_append_extractLsb'_eq_extractLsb')

/-! ### A bit of a word, as a Boolean -/

theorem ofBool_getLsbD {n : Nat} (w : BitVec n) (a : Nat) : BitVec.ofBool (w.getLsbD a) = w.extractLsb' a 1 := by
  ext i hi
  obtain rfl : i = 0 := by omega
  simp

theorem bit_ofBool (b : Bool) : (BitVec.ofBool b).getLsbD 0 = b := by simp

theorem bit_front {m n a : Nat} (x : BitVec m) (y : BitVec n) (ha : n ≤ a) : (x ++ y).getLsbD a = x.getLsbD (a - n) := by
  rw [BitVec.getLsbD_append, if_neg (by omega)]

theorem bit_back {m n a : Nat} (x : BitVec m) (y : BitVec n) (ha : a < n) : (x ++ y).getLsbD a = y.getLsbD a := by
  rw [BitVec.getLsbD_append, if_pos ha]

/-! ### The parts of a word (04 R72) -/

theorem cls_encodeHdr (c : BitVec 3) (fn : BitVec 7) (h : Hdr) (r : BitVec 70) :
    (encodeHdr c fn h r).extractLsb' 93 3 = c := by
  simp (disch := omega) only [encodeHdr, bits_front, Nat.reduceSub, bits_all]

theorem fn_encodeHdr (c : BitVec 3) (fn : BitVec 7) (h : Hdr) (r : BitVec 70) :
    (encodeHdr c fn h r).extractLsb' 86 7 = fn := by
  simp (disch := omega) only [encodeHdr, bits_front, bits_back, Nat.reduceSub, bits_all]

theorem encodeHdr_decodeHdr (w : InsnWord) :
    encodeHdr (w.extractLsb' 93 3) (w.extractLsb' 86 7) (decodeHdr w) (w.extractLsb' 0 70) = w := by
  simp (disch := omega) only [encodeHdr, decodeHdr, ofBool_getLsbD, extractLsb'_append_extractLsb'_eq_extractLsb']
  exact bits_all w

/-! ### The fields of each class (04 R79 to R87) -/

theorem encodeV3_decodeV3 (w : InsnWord) : encodeV3 (decodeV3 w) = w.extractLsb' 0 70 := by
  simp (disch := omega) only [encodeV3, decodeV3, ofBool_getLsbD, extractLsb'_append_extractLsb'_eq_extractLsb']

theorem encodeVI_decodeVI (w : InsnWord) : encodeVI (decodeVI w) = w.extractLsb' 0 70 := by
  simp (disch := omega) only [encodeVI, decodeVI, extractLsb'_append_extractLsb'_eq_extractLsb']

theorem encodeMF_decodeMF (w : InsnWord) : encodeMF (decodeMF w) = w.extractLsb' 0 70 := by
  simp (disch := omega) only [encodeMF, decodeMF, extractLsb'_append_extractLsb'_eq_extractLsb']

theorem encodeCF_decodeCF (w : InsnWord) : encodeCF (decodeCF w) = w.extractLsb' 0 70 := by
  simp (disch := omega) only [encodeCF, decodeCF, extractLsb'_append_extractLsb'_eq_extractLsb']

theorem encodeXF_decodeXF (w : InsnWord) : encodeXF (decodeXF w) = w.extractLsb' 0 70 := by
  simp (disch := omega) only [encodeXF, decodeXF, ofBool_getLsbD, extractLsb'_append_extractLsb'_eq_extractLsb']

theorem encodeAF_decodeAF (w : InsnWord) : encodeAF (decodeAF w) = w.extractLsb' 0 70 := by
  simp (disch := omega) only [encodeAF, decodeAF, extractLsb'_append_extractLsb'_eq_extractLsb']

theorem encodeSF_decodeSF (w : InsnWord) : encodeSF (decodeSF w) = w.extractLsb' 0 70 := by
  simp (disch := omega) only [encodeSF, decodeSF, extractLsb'_append_extractLsb'_eq_extractLsb']

section
variable (c : BitVec 3) (fn : BitVec 7) (h : Hdr)

theorem decodeV3_encodeHdr (f : V3) : decodeV3 (encodeHdr c fn h (encodeV3 f)) = f := by
  simp (disch := omega) only [decodeV3, encodeHdr, encodeV3, bits_front, bits_back, bit_front, bit_back,
    bit_ofBool, bits_all, Nat.reduceSub]

theorem decodeVI_encodeHdr (f : VI) : decodeVI (encodeHdr c fn h (encodeVI f)) = f := by
  simp (disch := omega) only [decodeVI, encodeHdr, encodeVI, bits_front, bits_back, bits_all, Nat.reduceSub]

theorem decodeMF_encodeHdr (f : MF) : decodeMF (encodeHdr c fn h (encodeMF f)) = f := by
  simp (disch := omega) only [decodeMF, encodeHdr, encodeMF, bits_front, bits_back, bits_all, Nat.reduceSub]

theorem decodeCF_encodeHdr (f : CF) : decodeCF (encodeHdr c fn h (encodeCF f)) = f := by
  simp (disch := omega) only [decodeCF, encodeHdr, encodeCF, bits_front, bits_back, bits_all, Nat.reduceSub]

theorem decodeXF_encodeHdr (f : XF) : decodeXF (encodeHdr c fn h (encodeXF f)) = f := by
  simp (disch := omega) only [decodeXF, encodeHdr, encodeXF, bits_front, bits_back, bit_front, bit_back,
    bit_ofBool, bits_all, Nat.reduceSub]

theorem decodeAF_encodeHdr (f : AF) : decodeAF (encodeHdr c fn h (encodeAF f)) = f := by
  simp (disch := omega) only [decodeAF, encodeHdr, encodeAF, bits_front, bits_back, bits_all, Nat.reduceSub]

theorem decodeSF_encodeHdr (f : SF) : decodeSF (encodeHdr c fn h (encodeSF f)) = f := by
  simp (disch := omega) only [decodeSF, encodeHdr, encodeSF, bits_front, bits_back, bits_all, Nat.reduceSub]

end

/-! ### The opcode map (04 R73, R75, R88) -/

/-- What decoding a word gives: a well-formed instruction whose encoding is the word. -/
def Decodes (w : InsnWord) (i : Instr) : Prop := WellFormed i = true ∧ encode i = some w

theorem decodes_reserved {w : InsnWord} (h : assignedOpcode (w.extractLsb' 93 3).toNat (w.extractLsb' 86 7).toNat = false) :
    Decodes w (.reservedOpcode w) := ⟨by rw [WellFormed, h, Bool.not_false], rfl⟩

/-- No class above 6 has opcodes. -/
theorem assignedOpcode_above {cls : Nat} (h : 6 < cls) (fn : Nat) : assignedOpcode cls fn = false := by
  obtain ⟨k, rfl⟩ := Nat.exists_eq_add_of_le' h
  rfl

/-- An instruction whose encoding is the class, function code, header and class bits of a word encodes to the word. -/
theorem decodes_of_parts {w : InsnWord} {i : Instr} {c : BitVec 3} {fn : BitVec 7} {r : BitVec 70} (hwf : WellFormed i = true)
    (hi : encode i = some (encodeHdr c fn (decodeHdr w) r)) (hc : (w.extractLsb' 93 3).toNat = c.toNat)
    (hf : (w.extractLsb' 86 7).toNat = fn.toNat) (hr : r = w.extractLsb' 0 70) : Decodes w i := by
  refine ⟨hwf, hi.trans (congrArg some ?_)⟩
  rw [← BitVec.eq_of_toNat_eq hc, ← BitVec.eq_of_toNat_eq hf, hr, encodeHdr_decodeHdr]

section
variable {w : InsnWord}

theorem decodes_class0 (hc : (w.extractLsb' 93 3).toNat = 0) : Decodes w (decodeClass0 w) := by
  unfold decodeClass0
  dsimp only
  split
  case h_31 => exact decodes_reserved (by simp_all [assignedOpcode])
  all_goals
    rename_i hf
    exact decodes_of_parts rfl rfl hc hf (encodeV3_decodeV3 w)

theorem decodes_class1 (hc : (w.extractLsb' 93 3).toNat = 1) : Decodes w (decodeClass1 w) := by
  unfold decodeClass1
  dsimp only
  split
  case h_40 => exact decodes_reserved (by simp_all [assignedOpcode])
  case h_27 hf =>
    split
    · next hsub => exact decodes_of_parts hsub rfl hc hf (encodeVI_decodeVI w)
    · next hsub => exact decodes_of_parts (by simpa [WellFormed] using hsub) rfl hc hf (encodeVI_decodeVI w)
  case h_38 hf =>
    split
    · next hsub => exact decodes_of_parts (decide_eq_true hsub) rfl hc hf (encodeVI_decodeVI w)
    · next hsub => exact decodes_of_parts (decide_eq_true hsub) rfl hc hf (encodeVI_decodeVI w)
  all_goals
    rename_i hf
    exact decodes_of_parts rfl rfl hc hf (encodeVI_decodeVI w)

theorem decodes_class2 (hc : (w.extractLsb' 93 3).toNat = 2) : Decodes w (decodeClass2 w) := by
  unfold decodeClass2
  dsimp only
  split
  case h_10 => exact decodes_reserved (by simp_all [assignedOpcode])
  all_goals
    rename_i hf
    exact decodes_of_parts rfl rfl hc hf (encodeMF_decodeMF w)

theorem decodes_class3 (hc : (w.extractLsb' 93 3).toNat = 3) : Decodes w (decodeClass3 w) := by
  unfold decodeClass3
  dsimp only
  split
  case h_13 => exact decodes_reserved (by simp_all [assignedOpcode])
  all_goals
    rename_i hf
    exact decodes_of_parts rfl rfl hc hf (encodeCF_decodeCF w)

theorem decodes_class4 (hc : (w.extractLsb' 93 3).toNat = 4) : Decodes w (decodeClass4 w) := by
  unfold decodeClass4
  dsimp only
  split
  case h_17 => exact decodes_reserved (by simp_all [assignedOpcode])
  all_goals
    rename_i hf
    exact decodes_of_parts rfl rfl hc hf (encodeXF_decodeXF w)

theorem decodes_class5 (hc : (w.extractLsb' 93 3).toNat = 5) : Decodes w (decodeClass5 w) := by
  unfold decodeClass5
  dsimp only
  split
  case h_10 => exact decodes_reserved (by simp_all [assignedOpcode])
  all_goals
    rename_i hf
    exact decodes_of_parts rfl rfl hc hf (encodeAF_decodeAF w)

theorem decodes_class6 (hc : (w.extractLsb' 93 3).toNat = 6) : Decodes w (decodeClass6 w) := by
  unfold decodeClass6
  dsimp only
  split
  case h_14 => exact decodes_reserved (by simp_all [assignedOpcode])
  case h_12 hf =>
    split
    · next h2 => exact decodes_of_parts (decide_eq_true h2) rfl hc hf (encodeSF_decodeSF w)
    · next h2 =>
      split
      · next h3 => exact decodes_of_parts (decide_eq_true h3) rfl hc hf (encodeSF_decodeSF w)
      · next h3 =>
        have hother := Bool.and_eq_true_iff.2 ⟨decide_eq_true h2, decide_eq_true h3⟩
        exact decodes_of_parts hother rfl hc hf (encodeSF_decodeSF w)
  all_goals
    rename_i hf
    exact decodes_of_parts rfl rfl hc hf (encodeSF_decodeSF w)

end

/-- Every word decodes to a well-formed instruction that encodes to it. -/
theorem decodes_decodeWord (w : InsnWord) : Decodes w (decodeWord w) := by
  unfold decodeWord
  split
  case h_1 hc => exact decodes_class0 hc
  case h_2 hc => exact decodes_class1 hc
  case h_3 hc => exact decodes_class2 hc
  case h_4 hc => exact decodes_class3 hc
  case h_5 hc => exact decodes_class4 hc
  case h_6 hc => exact decodes_class5 hc
  case h_7 hc => exact decodes_class6 hc
  case h_8 h0 h1 h2 h3 h4 h5 h6 => exact decodes_reserved (assignedOpcode_above (by simp only [imp_false] at *; omega) _)

/-- A word that encodes an instruction has an assigned opcode, but for the word of RESERVED_OPCODE. -/
theorem assigned_of_encode {i : Instr} {w : InsnWord} (hi : ∀ u, i ≠ .reservedOpcode u) (he : encode i = some w) :
    assignedOpcode (w.extractLsb' 93 3).toNat (w.extractLsb' 86 7).toNat = true := by
  cases i <;> cases he
  case reservedOpcode => exact absurd rfl (hi w)
  all_goals
    rw [cls_encodeHdr, fn_encodeHdr]
    rfl

theorem decodeWord_reserved_iff (w : InsnWord) : (∃ u, decodeWord w = .reservedOpcode u) ↔
    assignedOpcode (w.extractLsb' 93 3).toNat (w.extractLsb' 86 7).toNat = false := by
  obtain ⟨hwf, he⟩ := decodes_decodeWord w
  constructor
  · rintro ⟨u, hu⟩
    rw [hu] at hwf he
    cases he
    exact Bool.not_eq_eq_eq_not.1 hwf
  · intro ha
    by_contra hne
    rw [assigned_of_encode (not_exists.1 hne) he] at ha
    cases ha

/-- The word of RESERVED_OPCODE is the one that it keeps. -/
theorem decodeWord_of_reserved {u : InsnWord} (h : WellFormed (.reservedOpcode u) = true) : decodeWord u = .reservedOpcode u := by
  obtain ⟨v, hv⟩ := (decodeWord_reserved_iff u).2 (Bool.not_eq_eq_eq_not.1 h)
  have he := (decodes_decodeWord u).2
  rw [hv] at he
  cases he
  exact hv

/-- An encoded instruction is read back where every word of its opcode, with its fields, decodes to its constructor. -/
theorem decodeWord_of_opcode {F : Type} {dec : InsnWord → F} {ctor : Hdr → F → Instr} {c : BitVec 3}
    {fn : BitVec 7} {h : Hdr} {r : BitVec 70} {f : F} (hf : dec (encodeHdr c fn h r) = f)
    (hdec : ∀ w : InsnWord, w.extractLsb' 93 3 = c → w.extractLsb' 86 7 = fn → dec w = f →
      decodeWord w = ctor (decodeHdr w) (dec w)) : decodeWord (encodeHdr c fn h r) = ctor h f := by
  rw [hdec _ (cls_encodeHdr ..) (fn_encodeHdr ..) hf, hdr_encodeHdr, hf]

/-- Decoding the encoding of a well-formed instruction gives it back: the class and the function code select its constructor,
where a row of the map has more than one together with the field that selects among them. -/
theorem decodeWord_of_encode {i : Instr} {w : InsnWord} (hwf : WellFormed i = true) (he : encode i = some w) :
    decodeWord w = i := by
  cases i <;> cases he
  case reservedOpcode => exact decodeWord_of_reserved hwf
  case fadd | fsub | fmul | ffma | fmin | fmax | fclass | frcp | frsq | fsqrt | fexp2 | flog2 | fsin | fcos | ftanh | fsigm
      | hadd2 | hmul2 | hfma2 | dot4 | wred | imad | cvt | cvti | cvtf | pack | unpack | qhist | qscale | qcvt =>
    refine decodeWord_of_opcode (decodeV3_encodeHdr ..) fun w hcls hfn _ => ?_
    rw [decodeWord, hcls, decodeClass0, hfn]
    rfl
  case iadd | iaddc | isub | imul | imulh | imin | imax | iabs | ineg | lea | ishl | ishr | isar | iand | ior | ixor | inot
      | popc | clz | brev | bfx | bfi | pseti | psetf | plop | pvote | mov | sel | shfl | bcast | kmov | drop | clear
      | release | hold | recount | time =>
    refine decodeWord_of_opcode (decodeVI_encodeHdr ..) fun w hcls hfn _ => ?_
    rw [decodeWord, hcls, decodeClass1, hfn]
    rfl
  case pmovTov | pmovFromv | rdsr | rdsrClr =>
    refine decodeWord_of_opcode (decodeVI_encodeHdr ..) fun w hcls hfn hf => ?_
    rw [decodeWord, hcls, decodeClass1, hfn, hf]
    simp_all [WellFormed]
  case ld | st | pref | atom | cas | red | amaxp | fence | cwb =>
    refine decodeWord_of_opcode (decodeMF_encodeHdr ..) fun w hcls hfn _ => ?_
    rw [decodeWord, hcls, decodeClass2, hfn]
    rfl
  case bra | bri | call | calli | ret | exit | yield | nop | wait | sleep | trap | bkpt =>
    refine decodeWord_of_opcode (decodeCF_encodeHdr ..) fun w hcls hfn _ => ?_
    rw [decodeWord, hcls, decodeClass3, hfn]
    rfl
  case sload | sstore | sevict | sstat | mmt | mmtx | mmtg | gzero | gload | gstore | accz | accld | accst | accmv | tagset
      | tagcnt =>
    refine decodeWord_of_opcode (decodeXF_encodeHdr ..) fun w hcls hfn _ => ?_
    rw [decodeWord, hcls, decodeClass4, hfn]
    rfl
  case vcopy | vgather | vscatter | vput | vget | vred | vstat | vcancel | sort =>
    refine decodeWord_of_opcode (decodeAF_encodeHdr ..) fun w hcls hfn _ => ?_
    rw [decodeWord, hcls, decodeClass5, hfn]
    rfl
  case bararr | barwait | barsync | bardrop | barstat | grpq | launch | fsig | fwait | nexttile | steal | watch =>
    refine decodeWord_of_opcode (decodeSF_encodeHdr ..) fun w hcls hfn _ => ?_
    rw [decodeWord, hcls, decodeClass6, hfn]
    rfl
  case wrsrFlush | wrsrQuota | wrsrEvent =>
    refine decodeWord_of_opcode (decodeSF_encodeHdr ..) fun w hcls hfn hf => ?_
    rw [decodeWord, hcls, decodeClass6, hfn, hf]
    simp_all [WellFormed]

/-! ### The bytes of a slot (03 R66) -/

/-- The twelve bytes of a word, least significant first, decode to its instruction. -/
theorem decodeBytes_leBytes (w : InsnWord) : decodeBytes (leBytes 12 w.toNat) = .ok (decodeWord w) := by
  have hw : leNat (leBytes 12 w.toNat) = w.toNat := (Machine.leNat_leBytes 12 w.toNat).trans (Nat.mod_eq_of_lt w.isLt)
  rw [decodeBytes, if_pos (Machine.length_leBytes 12 _), hw, BitVec.ofNat_toNat, BitVec.setWidth_eq]

end Sys2Proof

open Sys2Proof Sys2Proof.Machine

/-- Settles O1, by the constructors of the instruction. -/
theorem decodeOfEncode : Obligations.DecodeOfEncode := by
  unfold Obligations.DecodeOfEncode
  exact fun _ _ => decodeWord_of_encode

/-- Settles O2: encoding what a word decodes to puts its parts together again, and a slot's bytes make up its word. -/
theorem wordsAndSlots : Obligations.WordsAndSlots := by
  unfold Obligations.WordsAndSlots
  exact ⟨decodes_decodeWord, decodeBytes_leBytes, fun bs hbs => if_neg hbs⟩

/-- Settles O4: the map is counted, an opcode without an instruction is one that no other instruction encodes to, and what
RESERVED_OPCODE does is its meaning, where no instruction of the warp is held. -/
theorem reservedOpcodes : Obligations.ReservedOpcodes := by
  unfold Obligations.ReservedOpcodes
  refine ⟨by decide +kernel, decodeWord_reserved_iff, fun w s e he hheld => ?_⟩
  simp only [exec, execReservedOpcode, he, hheld]
  rfl
end

section
/-! SUPPORT. Transfers and the checks of their target's line (03 R66 to R69; 04 R84; 07 R134, R153); and O25. -/

namespace Sys2Proof.Machine

/-! ### The groups of a transfer -/

/-- Every active lane has its target in common with a lane that leads its group. -/
theorem exists_leader {act : Mask} {t : Nat → BitVec 64} (l : Nat) (hl : l < 32) (ho : laneOn act l = true) :
    ∃ i ∈ allLanes.filter (leadsGroup act t), t l = t i := by
  induction l using Nat.strong_induction_on with
  | _ l ih =>
    cases hlead : leadsGroup act t l with
    | true => exact ⟨l, List.mem_filter.2 ⟨mem_allLanes.2 hl, hlead⟩, rfl⟩
    | false =>
      simp only [leadsGroup, ho, Bool.true_and, List.all_eq_false, Bool.not_eq_true, Bool.not_eq_false', Bool.and_eq_true,
        decide_eq_true_eq, beq_iff_eq] at hlead
      obtain ⟨j, hj, ⟨hlt, hon⟩, heq⟩ := hlead
      obtain ⟨i, hi, hti⟩ := ih j hlt (mem_allLanes.1 hj) hon
      exact ⟨i, hi, heq.symm.trans hti⟩

/-- Transfers move no lane that does not live. -/
theorem pc_transfers_dead {c o : Nat} {source : PC} {L : Nat → Mask} {t : Nat → BitVec 64} (ls : List Nat) :
    ∀ {s : State} {w x : Warp}, s.warp? c o = some w →
      (ls.foldl (fun s i => s.transfer c o (L i) ((t i).extractLsb' 0 48) source ((t i).extractLsb' 48 16)) s).warp? c o =
        some x →
      ∀ l, l < 32 → laneOn w.live l = false → x.pc l = w.pc l := by
  induction ls with
  | nil =>
    intro s w x hw hx l _ _
    cases hw.symm.trans hx
    rfl
  | cons i ls ih =>
    intro s w x hw hx l hl hdead
    obtain ⟨y, hy, ⟨-, -, -, -, hlive⟩, hpc, -⟩ :=
      transfer_spec hw (L i) ((t i).extractLsb' 0 48) source ((t i).extractLsb' 48 16)
    rw [ih hy hx l hl (hlive ▸ hdead), hpc l hl, laneOn_and, hdead, Bool.and_false, if_neg Bool.false_ne_true]

/-! ### A transfer as it issues -/

/-- The warp whose active lanes are about to be transferred: the link is written, and the fragment's other lanes have moved on. -/
def Env.departed (e : Env) (n : Needs) (v : List Word) : Warp :=
  ((e.issuedWarp n).writeNames n.count e.act (fun _ => v) n.dests 0).sweep.advance (e.frag &&& ~~~e.act)

variable {e : Env} {n : Needs} {v : List Word}

theorem named_departed (hf : e.w.fragment = some (e.pc, e.frag)) (hd : n.dests.Nodup) :
    Named e n (fun _ => v) {} (e.departed n v) :=
  (written_finish hf hd).toNamed.of_eq rfl rfl rfl rfl

theorem live_departed : (e.departed n v).live = e.w.live := by
  simp [Env.departed, Env.issuedWarp]

theorem pc_departed (hf : e.w.fragment = some (e.pc, e.frag)) {l : Nat} (hl : l < 32) (ho : laneOn e.act l = false) :
    (e.departed n v).pc l = if laneOn e.frag l then nextPc e.pc else e.w.wakeZero.pc l := by
  have hpc : ((e.issuedWarp n).writeNames n.count e.act (fun _ => v) n.dests 0).sweep.pc l = (e.issuedWarp n).pc l := by
    simp [Warp.pc]
  rw [Env.departed, pc_advance _ _ hl, hpc, pc_issuedWarp n hf hl, laneOn_and, laneOn_not _ hl, ho, Bool.not_false, Bool.and_true]
  split <;> rfl

/-- What changes as a transfer issues, and as its lanes are transferred. -/
theorem state_of_transfer {s s1 t : State} {c o : Nat} (h : SameElse s s1 c o) (g : FetchElse s1 t c o) : t = { s with
    cores := t.cores, parts := t.parts, tlb := t.tlb, walks := t.walks, bytes := t.bytes, evHeld := t.evHeld } := by
  rw [g.state, h.state]

/-- A transfer completes wherever it issues: before its lanes are transferred, group by group, its link is written by `link`. -/
theorem transfers_of {h : Hdr} {i : Instr} {target : Env → Nat → PC} {v : Env → List Word} {link : Env → State → State}
    {t : Env → Nat → BitVec 64} (hh : hdrOf i = some h)
    (hi : ∀ s, exec i s = issue s h i (needs i s) fun e s' => (link e s').transferGroups e (t e))
    (htarget : ∀ e l, (t e l).extractLsb' 0 48 = target e l)
    (hlink : ∀ s e, (link e (s.issued e (needs i s))).warp? e.core e.slot =
        some ((e.issuedWarp (needs i s)).writeNames (needs i s).count e.act (fun _ => v e) (needs i s).dests 0) ∧
      SameElse s (link e (s.issued e (needs i s))) e.core e.slot) :
    Transfers i target v := by
  intro s e hr
  obtain ⟨-, hf⟩ := hr.env
  obtain ⟨hw, hsame⟩ := hlink s e
  let s1 := (link e (s.issued e (needs i s))).modWarp e.core e.slot fun w => w.sweep.advance (e.frag &&& ~~~e.act)
  have hw1 : s1.warp? e.core e.slot = some (e.departed (needs i s) (v e)) := by
    rw [warp?_modWarp_self, hw]
    rfl
  have hsame1 : SameElse s s1 e.core e.slot := hsame.trans (sameElse_modWarp ..)
  obtain ⟨x, hx, ⟨hnames, hkregs, hpreds, hflags, hlive⟩, hpc, helse⟩ :=
    groups_spec e (t e) (allLanes.filter (leadsGroup e.act (t e))) (fun i hi => mem_allLanes.1 (List.mem_filter.1 hi).1) hw1
  refine ⟨_, x, exec_next hh (hi s) hr, hx, (named_departed hf (dests_nodup i s)).of_eq hnames hkregs hpreds hflags,
    hlive.trans live_departed, fun l hl => ?_, ?_, fun k hk => ?_, fun o ho => ?_⟩
  · cases ho : laneOn e.act l with
    | true =>
      have hl' : laneOn (e.departed (needs i s) (v e)).live l = true := by
        rw [live_departed]
        exact laneOn_frag_live hf hl (hr.act_frag l ho)
      rw [hpc l hl hl', if_pos ⟨ho, exists_leader l hl ho⟩, if_pos rfl, htarget]
    | false =>
      rw [if_neg Bool.false_ne_true, ← pc_departed (n := needs i s) (v := v e) hf hl ho]
      cases hlv : laneOn (e.departed (needs i s) (v e)).live l with
      | true => rw [hpc l hl hlv, if_neg (by simp [ho])]
      | false => exact pc_transfers_dead _ hw1 hx l hl hlv
  · exact state_of_transfer hsame1 helse
  · exact (helse.cores k hk).trans (hsame1.cores k hk)
  · exact (helse.warps o ho).trans (hsame1.warps o ho)

/-- A transfer without a link. -/
theorem transfers_plain {h : Hdr} {i : Instr} {target : Env → Nat → PC} {t : Env → Nat → BitVec 64}
    (hh : hdrOf i = some h) (hi : ∀ s, exec i s = issue s h i (needs i s) fun e s' => s'.transferGroups e (t e))
    (hd : ∀ s, (needs i s).dests = []) (htarget : ∀ e l, (t e l).extractLsb' 0 48 = target e l) :
    Transfers i target fun _ => [] :=
  transfers_of (link := fun _ s => s) hh hi htarget fun s e =>
    ⟨by rw [warp?_issued, hd, Warp.writeNames], sameElse_issued ..⟩

/-- A transfer with a link. -/
theorem transfers_link {h : Hdr} {i : Instr} {target : Env → Nat → PC} {t : Env → Nat → BitVec 64} (hh : hdrOf i = some h)
    (hi : ∀ s, exec i s = issue s h i (needs i s) fun e s' => (s'.writeLink e h).transferGroups e (t e))
    (hd : ∀ s, (needs i s).dests = constituents h.dest 2) (hc : ∀ s, (needs i s).count = h.count)
    (htarget : ∀ e l, (t e l).extractLsb' 0 48 = target e l) :
    Transfers i target fun e => words64 ((nextPc e.pc).zeroExtend 64) :=
  transfers_of (link := fun e s => s.writeLink e h) hh hi htarget fun s e =>
    ⟨by rw [State.writeLink, warp?_modWarp_self, warp?_issued, hd, hc]; rfl, (sameElse_issued ..).trans (sameElse_modWarp ..)⟩

/-- The direct target of BRA and CALL, as a target of 64 bits (04 R84). -/
theorem low_directTarget (pc : PC) (f : CF) : ((directTarget pc f).zeroExtend 64).extractLsb' 0 48 =
    pc - BitVec.ofNat 48 (pc.toNat % 8) + 64 * f.loff.signExtend 48 + f.tslot.zeroExtend 48 := by
  have hlow : ∀ x : PC, (x.zeroExtend 64).extractLsb' 0 48 = x := fun x =>
    (BitVec.extractLsb'_setWidth_of_le (by omega)).trans BitVec.extractLsb'_eq_self
  rw [hlow, directTarget, slotIn]

/-! ### The checks of a transfer's target (03 R67 to R69) -/

/-- The warp with some lanes at a target whose line has passed. -/
def Warp.arrived (w : Warp) (lanes : Mask) (pc : PC) : Warp := (w.setPcs lanes fun _ => pc).clearArrivals lanes

/-- The warp with some lanes at a target whose line is to be checked. -/
def Warp.arriving (w : Warp) (lanes : Mask) (pc : PC) (a : Arrival) : Warp :=
  { w.arrived lanes pc with arrivals := (lanesOf lanes).foldl (fun t i => t.put i a) (w.arrived lanes pc).arrivals }

theorem badTarget_iff (pc : PC) (high : BitVec 16) :
    badTarget pc high = true ↔ high ≠ 0 ∨ pc.toNat / 8 % 8 ≠ 0 ∨ 4 < pc.toNat % 8 := by
  rw [badTarget, Bool.or_eq_true, Bool.or_eq_true, bne_iff_ne, bne_iff_ne, decide_eq_true_eq, slotIn, or_assoc]

theorem code_fetchRaise (code : BitVec 8) (lanes : Mask) (pc : PC) (high : BitVec 16) :
    (fetchRaise code lanes pc high).code = code := by
  rw [fetchRaise]
  split <;> rfl

/-- A fault suspends its lanes where they stand. -/
theorem takeFault_traps {s : State} {c o : Nat} {w : Warp} (hw : s.warp? c o = some w) (lanes : Mask) (pc aux : PC) (r : Raise) :
    ∃ x, (s.takeFault c o lanes pc aux false 0 r).warp? c o = some x ∧
      x.traps = w.traps ++ [{ lanes := lanes, code := r.code, past := false }] ∧ x.pcs = w.pcs := by
  rw [takeFault_eq hw]
  exact ⟨_, warp?_setWarp_self .., rfl, rfl⟩

/-- A transfer's live lanes stand at its target. -/
theorem pc_transfer {s : State} {c slot : Nat} {w x : Warp} {lanes : Mask} {pc source : PC} {high : BitVec 16}
    (hw : s.warp? c slot = some w) (hx : (s.transfer c slot lanes pc source high).warp? c slot = some x) {l : Nat} (hl : l < 32)
    (ho : laneOn (lanes &&& w.live) l = true) : x.pc l = pc := by
  obtain ⟨y, hy, -, hpc, -⟩ := transfer_spec hw lanes pc source high
  cases hy.symm.trans hx
  rw [hpc l hl, if_pos ho]

section
variable {s : State} {c slot : Nat} {w : Warp} {lanes : Mask} {pc source : PC} {high : BitVec 16}
  (hw : s.warp? c slot = some w) (hl : lanes &&& w.live ≠ 0)
include hw hl

/-- A transfer of live lanes to a malformed target faults before its line is fetched. -/
theorem transfer_badTarget (hbad : badTarget pc high = true) :
    ∃ x, (s.transfer c slot lanes pc source high).warp? c slot = some x ∧
      x.traps = w.traps ++ [{ lanes := lanes &&& w.live, code := cBadTarget, past := false }] := by
  obtain ⟨x, hx, htraps, -⟩ := takeFault_traps (s := s.setWarp c slot (w.arriving (lanes &&& w.live) pc ⟨source, high⟩))
    (warp?_setWarp_self ..) (lanes &&& w.live) pc source (fetchRaise cBadTarget (lanes &&& w.live) pc high)
  refine ⟨x, ?_, htraps⟩
  simp only [State.transfer, hw, if_neg hl, hbad, if_true]
  exact hx

/-- A transfer of live lanes to a line that fails its check faults with the check's code. -/
theorem transfer_refused {l : Line} {s2 : State} {code : BitVec 8} (hbad : ¬badTarget pc high = true)
    (hline : (s.setWarp c slot (w.arriving (lanes &&& w.live) pc ⟨source, high⟩)).readLine c w.ctx pc false = (.ok l, s2))
    (hcheck : targetCheck pc l = some code) :
    ∃ x, (s.transfer c slot lanes pc source high).warp? c slot = some x ∧
      x.traps = w.traps ++ [{ lanes := lanes &&& w.live, code := code, past := false }] := by
  have hw2 := readLine_warp? (s.setWarp c slot (w.arriving (lanes &&& w.live) pc ⟨source, high⟩)) c w.ctx pc false c slot
  rw [hline, warp?_setWarp_self] at hw2
  obtain ⟨x, hx, htraps, -⟩ := takeFault_traps hw2 (lanes &&& w.live) pc source (fetchRaise code (lanes &&& w.live) pc high)
  rw [code_fetchRaise] at htraps
  refine ⟨x, ?_, htraps⟩
  rw [Warp.arriving, Warp.arrived] at hline
  simp only [State.transfer, hw, if_neg hl, hbad, hline, hcheck]
  exact hx

/-- A transfer of live lanes to a line that passes its check leaves them there with no trap. -/
theorem transfer_passed {l : Line} {s2 : State} (hbad : ¬badTarget pc high = true)
    (hline : (s.setWarp c slot (w.arriving (lanes &&& w.live) pc ⟨source, high⟩)).readLine c w.ctx pc false = (.ok l, s2))
    (hcheck : targetCheck pc l = none) :
    (s.transfer c slot lanes pc source high).warp? c slot = some (w.arrived (lanes &&& w.live) pc) := by
  rw [Warp.arriving, Warp.arrived] at hline
  simp only [State.transfer, hw, if_neg hl, hbad, hline, hcheck]
  exact warp?_setWarp_self ..

end

end Sys2Proof.Machine

open Sys2Proof Sys2Proof.Machine

/-- Settles O25: the transfers are those of the groups of lanes that share a target, and the checks those of each target. -/
theorem transfersAndChecks : Obligations.TransfersAndChecks := by
  unfold Obligations.TransfersAndChecks
  refine ⟨fun h f => ⟨?bra, ?bri, ?call, ?calli, ?ret⟩, fun s c slot w lanes pc source high hw hl => ⟨fun hbad => ?bad,
    fun hgood l s2 a ha hline => ?_⟩⟩
  case bra => exact transfers_plain rfl (fun _ => rfl) (fun _ => rfl) fun e _ => low_directTarget e.pc f
  case bri => exact transfers_plain rfl (fun _ => rfl) (fun _ => rfl) fun _ _ => rfl
  case call => exact transfers_link rfl (fun _ => rfl) (fun _ => rfl) (fun _ => rfl) fun e _ => low_directTarget e.pc f
  case calli => exact transfers_link rfl (fun _ => rfl) (fun _ => rfl) (fun _ => rfl) fun _ _ => rfl
  case ret => exact transfers_plain rfl (fun _ => rfl) (fun _ => rfl) fun _ _ => rfl
  case bad =>
    obtain ⟨x, hx, htraps⟩ := transfer_badTarget (source := source) hw hl ((badTarget_iff ..).2 hbad)
    exact ⟨x, hx, htraps, fun _ => pc_transfer hw hx⟩
  subst ha
  have hbad : ¬badTarget pc high = true := mt (badTarget_iff ..).1 hgood
  refine ⟨fun hkind => transfer_refused hw hl hbad hline (if_pos (bne_iff_ne.2 hkind)), fun hkind hbit => ?unmarked,
    fun hkind hbit => ?passed⟩
  case unmarked => exact transfer_refused hw hl hbad hline (by simp [targetCheck, slotIn, hkind, hbit, cBadTarget])
  case passed =>
    have hx := transfer_passed hw hl hbad hline (by simp [targetCheck, slotIn, hkind, hbit])
    exact ⟨_, hx, rfl, fun _ => pc_transfer hw hx⟩

end

section
/-! SUPPORT. Predicates written in the active lanes (07 R132, R141, R142; 08 R163); and O21. -/

namespace Sys2Proof.Machine

variable {e : Env} {n : Needs} {v : Nat → List Word} {x : Extra} {w : Warp}

/-! ### What an instruction leaves that writes predicates -/

/-- The predicates that an instruction writes may be given in any form that agrees in the active lanes. -/
theorem Written.preds_congr (h : Written e n v x w) {q : Nat → Nat → Option Bool}
    (hq : ∀ p l, l < 32 → x.preds p l = q p l) : Written e n v { x with preds := q } w :=
  { h with preds := fun p l hp hl => (h.preds p l hp hl).trans (by rw [hq p l hl]) }

/-- An instruction without names frees empty names and moves on. -/
theorem written_sweep (hf : e.w.fragment = some (e.pc, e.frag)) (hd : n.dests = []) :
    Written e n (fun _ => []) {} ((e.issuedWarp n).sweep.advance e.frag) := by
  have h : Written e n (fun _ => []) {} (e.finished n fun _ => []) := written_finish hf (by rw [hd]; exact List.nodup_nil)
  rwa [Env.finished, hd, Warp.writeNames] at h

/-- One predicate written, with the value `b` in each lane. -/
theorem Written.setOnePred (h : Written e n v {} w) (p : Nat) {m : Mask} {b : Nat → Bool}
    (hm : ∀ l, l < 32 → laneOn m l = b l) :
    Written e n v { preds := fun q l => if q = p then some (b l) else none } (w.setPred p e.act m) :=
  (h.setPred p m).preds_congr fun q l hl => by
    dsimp only
    rw [hm l hl]

/-- Predicates written one after another, predicate `p` with the mask `m p`. -/
theorem Written.setPreds (h : Written e n v x w) (m : Nat → Mask) (ps : List Nat) :
    Written e n v { x with preds := fun q l => if q ∈ ps then some (laneOn (m q) l) else x.preds q l }
      (ps.foldl (fun w p => w.setPred p e.act (m p)) w) := by
  induction ps generalizing x w with
  | nil => exact h.preds_congr fun q l _ => by simp
  | cons p ps ih =>
    refine (ih (h.setPred p (m p))).preds_congr fun q l _ => ?_
    by_cases hp : q = p
    · subst hp
      simp
    · simp [hp]

/-- Where the lanes stand and which names are bound does not matter to the predicates written. -/
theorem foldl_setPred_sweep_advance (act frag : Mask) (m : Nat → Mask) (ps : List Nat) (w : Warp) :
    (ps.foldl (fun w p => w.setPred p act (m p)) w).sweep.advance frag =
      ps.foldl (fun w p => w.setPred p act (m p)) (w.sweep.advance frag) :=
  (List.foldl_hom (fun w : Warp => w.sweep.advance frag) fun _ _ => rfl).symm

/-! ### The instructions -/

/-- PSETI and PSETF complete, with the predicate they compute. -/
theorem completes_setPredicate {h : Hdr} {f : VI} {i : Instr} {fields : Bool} {reads : List Nat} {c : Env → Nat → Bool}
    (hh : hdrOf i = some h) (hi : ∀ s, exec i s = setPredicate s h f i fields reads c)
    (hn : ∀ s, needs i s = psetNeeds f fields reads) :
    Completes i (fun _ _ _ => []) fun _ e =>
      { preds := fun p l => if p = psetDest f then
          some (combine (psetHow f) (c e l) (e.w.predOn (psetWith f) l)) else none } :=
  completes_of hh (fun s => by rw [hi, hn]; rfl) fun s e _ hf =>
    (written_sweep hf (congrArg Needs.dests (hn s))).setOnePred (psetDest f) fun l hl => laneOn_maskOf _ hl

theorem laneOn_filled (b : Bool) {l : Nat} (hl : l < 32) : laneOn (if b then fullMask else 0) l = b := by
  cases b
  · exact laneOn_none l
  · exact laneOn_full hl

/-- PLOP completes, with its table's bit. -/
theorem plop_completes (h : Hdr) (f : VI) : Completes (.plop h f) (fun _ _ _ => []) fun _ e =>
    { preds := fun p l => if p = (f.subop.extractLsb' 9 3).toNat then some (f.imm.getLsbD (plopIndex e.w f l)) else none } :=
  completes_of rfl (fun _ => rfl) fun _ _ _ hf =>
    (written_advance hf rfl).setOnePred (f.subop.extractLsb' 9 3).toNat fun _ hl => laneOn_maskOf _ hl

theorem pvoteMode_eq_iff (f : VI) (k : BitVec 2) : pvoteMode f = k.toNat ↔ f.subop.extractLsb' 6 2 = k :=
  BitVec.toNat_inj

/-- PVOTE.ballot completes, with the votes of the active lanes. -/
theorem ballot_completes (h : Hdr) (f : VI) (hmode : f.subop.extractLsb' 6 2 = 3) :
    Completes (.pvote h f) fun _ e _ => [e.w.pred (f.subop.extractLsb' 0 3).toNat &&& e.act] := by
  have hballot : pvoteMode f = 3 := (pvoteMode_eq_iff f 3).2 hmode
  refine completes_finish rfl fun s => ?_
  simp only [exec, execPvote, hballot, if_true]
  rfl

theorem constituents_of_destNone {h : Hdr} (hd : destNone h = true) (k : Nat) : constituents h.dest k = [] := by
  rw [destNone, nul, Bool.and_eq_true, beq_iff_eq] at hd
  rw [constituents, hd.1]
  rfl

/-- PVOTE.all, .any and .uni complete, with the vote. -/
theorem vote_completes (h : Hdr) (f : VI) (hmode : f.subop.extractLsb' 6 2 ≠ 3) :
    Completes (.pvote h f) (fun _ _ _ => []) fun _ e =>
    { preds := fun p _ =>
        let votes := e.w.pred (f.subop.extractLsb' 0 3).toNat &&& e.act
        if p = (f.subop.extractLsb' 3 3).toNat then some (
          if f.subop.extractLsb' 6 2 = 0 then votes == e.act else if f.subop.extractLsb' 6 2 = 1 then votes != 0
          else votes == e.act || votes == 0) else none } := by
  have hballot : ¬pvoteMode f = 3 := mt (pvoteMode_eq_iff f 3).1 hmode
  refine completes_of rfl (fun s => by simp only [exec, execPvote, hballot, if_false]; rfl) fun s e hr hf => ?_
  refine (written_advance hf ?_).setOnePred _ fun l hl => ?_
  · have hfields := hr.fields
    simp only [needs, needsPvote, hballot, if_false, Bool.and_eq_true] at hfields
    exact constituents_of_destNone hfields.2.2 1
  · rw [laneOn_filled _ hl]
    split
    · next h0 => rw [if_pos ((pvoteMode_eq_iff f 0).1 h0)]
    · next h1 =>
      have hany := (pvoteMode_eq_iff f 1).1 h1
      rw [hany, if_neg (by decide), if_pos rfl]
    · next h0 h1 => rw [if_neg (mt (pvoteMode_eq_iff f 0).2 h0), if_neg (mt (pvoteMode_eq_iff f 1).2 h1)]

/-- PMOV.fromv completes, with the bits of its source that its mask selects. -/
theorem pmovFromv_completes (h : Hdr) (f : VI) : Completes (.pmovFromv h f) (fun _ _ _ => []) fun _ e =>
    { preds := fun p l => if p < 7 ∧ f.imm.getLsbD p = true then some ((e.w.word f.srca l).getLsbD p) else none } :=
  completes_of rfl (fun s => rfl) fun s e _ hf => by
    rw [foldl_setPred_sweep_advance]
    refine ((written_sweep hf rfl).setPreds _ _).preds_congr fun p l hl => ?_
    simp only [List.mem_filter, List.mem_range, laneOn_maskOf _ hl]

end Sys2Proof.Machine

open Sys2Proof Sys2Proof.Machine

/-- Settles O21: each is an issue that writes predicates of its active lanes beside moving on, or a mask as its destination. -/
theorem predicateResults : Obligations.PredicateResults := by
  unfold Obligations.PredicateResults
  refine fun h f => ⟨?pseti, ?psetf, plop_completes h f, ballot_completes h f, vote_completes h f, ?tov,
    pmovFromv_completes h f⟩
  case pseti => exact completes_setPredicate rfl (fun _ => rfl) fun _ => rfl
  case psetf => exact completes_setPredicate rfl (fun _ => rfl) fun _ => rfl
  case tov => exact completes_finish rfl fun _ => rfl

end

section
/-! SUPPORT. Rounding to the multiples of a power of two, the codes of a format, and what rounding into a format gives (05 R95, R96,
R101 to R103, R112); and O13. -/

namespace Sys2Proof.Machine

/-! ### Rounding to a multiple (05 R101) -/

/-- Powers of two between exponents that rise. -/
theorem two_pow_split {lo q e : Int} (hlo : lo ≤ q) (hq : q ≤ e) :
    2 ^ (e - lo).toNat = 2 ^ (e - q).toNat * 2 ^ (q - lo).toNat := by
  rw [← pow_add]
  congr 1
  omega

/-- Whether the multiple `t`, with remainder `r` of `d`, rounds up (05 R101, R104). -/
def RoundsUp (rnd : Nat) (neg : Bool) (u : Word) (t r d : Nat) : Prop :=
  r ≠ 0 ∧ ((rnd = 0 ∧ (d < 2 * r ∨ 2 * r = d ∧ t % 2 = 1)) ∨ (rnd = 2 ∧ neg = false) ∨ (rnd = 3 ∧ neg = true) ∨
    (rnd = 4 ∧ 2 ^ 32 ≤ r * 2 ^ 32 / d + u.toNat))

variable {rnd : Nat} {neg : Bool} {u : Word} {m n t r d : Nat} {e q lo : Int}

theorem roundsUp_iff (hrnd : rnd ≤ 4) : roundsUp rnd neg u t r d = true ↔ RoundsUp rnd neg u t r d := by
  unfold roundsUp RoundsUp
  by_cases hr : r = 0
  · simp [hr]
  · interval_cases rnd <;> simp [hr]

/-- Rounding does not depend on the unit in which remainder and spacing are counted. -/
theorem roundsUp_scale {g : Nat} (hg : 0 < g) : roundsUp rnd neg u t (r * g) (d * g) = roundsUp rnd neg u t r d := by
  have hzero : r * g = 0 ↔ r = 0 := by simp [hg.ne']
  have hhalf : 2 * (r * g) = d * g ↔ 2 * r = d := by rw [← Nat.mul_assoc]; exact Nat.mul_left_inj hg.ne'
  have hmore : d * g < 2 * (r * g) ↔ d < 2 * r := by rw [← Nat.mul_assoc]; exact Nat.mul_lt_mul_right hg
  have hfrac : r * g * 2 ^ 32 / (d * g) = r * 2 ^ 32 / d := by
    rw [Nat.mul_right_comm, Nat.mul_div_mul_right _ _ hg]
  simp only [roundsUp, hzero, hhalf, hmore, hfrac]

/-- The multiple of 2^q, and whether it is exact, counted at any lower power of two. -/
theorem roundAt_eq (he : lo ≤ e) (hq : lo ≤ q) : roundAt rnd neg u m e q =
    ((let d := 2 ^ (q - lo).toNat
      if roundsUp rnd neg u (m * 2 ^ (e - lo).toNat / d) (m * 2 ^ (e - lo).toNat % d) d then m * 2 ^ (e - lo).toNat / d + 1
      else m * 2 ^ (e - lo).toNat / d),
     decide (m * 2 ^ (e - lo).toNat % 2 ^ (q - lo).toNat = 0)) := by
  unfold roundAt alignTo
  split
  · next hle =>
    rw [two_pow_split hq hle, ← Nat.mul_assoc]
    simp [roundsUp]
  · next hlt =>
    have hpos : 0 < 2 ^ (e - lo).toNat := Nat.two_pow_pos _
    rw [two_pow_split he (by omega : e ≤ q)]
    simp only [Nat.mul_div_mul_right _ _ hpos, Nat.mul_mod_mul_right, roundsUp_scale hpos]
    simp

/-- The multiple that rounding takes, by its truncation and its remainder. -/
theorem roundAt_of_multiple (hrnd : rnd ≤ 4) (he : lo ≤ e) (hq : lo ≤ q) (hd : d = 2 ^ (q - lo).toNat)
    (ht : t = m * 2 ^ (e - lo).toNat / d) (hr : r = m * 2 ^ (e - lo).toNat % d)
    (hup : RoundsUp rnd neg u t r d → n = t + 1) (hdown : ¬RoundsUp rnd neg u t r d → n = t) :
    roundAt rnd neg u m e q = (n, decide (r = 0)) := by
  subst hd ht hr
  rw [roundAt_eq he hq]
  dsimp only
  split
  · next h => rw [hup ((roundsUp_iff hrnd).1 h)]
  · next h => rw [hdown (mt (roundsUp_iff hrnd).2 h)]

/-! ### Integer targets (05 R103) -/

theorem clampInt_eq_self {lo hi x : Int} : clampInt lo hi x = x ↔ lo ≤ x ∧ x ≤ hi := by
  unfold clampInt
  omega

/-- What rounding to an integer gives, by the truncated magnitude and its remainder. -/
theorem roundInt_of_multiple {lo hi : Int} (hrange : lo ≤ hi) (hrnd : rnd ≤ 4) (hd : d = 2 ^ (-e).toNat)
    (ht : t = m * 2 ^ e.toNat / d) (hr : r = m * 2 ^ e.toNat % d) (hup : RoundsUp rnd neg u t r d → n = t + 1)
    (hdown : ¬RoundsUp rnd neg u t r d → n = t) :
    let x : Int := if neg then -(n : Int) else n
    roundInt lo hi rnd u (.fin neg m e) =
      (max lo (min hi x), (if r ≠ 0 then 0x08 else 0) ||| (if lo ≤ x ∧ x ≤ hi then 0 else 0x0A)) := by
  have hround : roundAt rnd neg u m e 0 = (n, decide (r = 0)) := by
    refine roundAt_of_multiple (lo := min e 0) hrnd (by omega) (by omega) (hd.trans ?_) (ht.trans ?_) (hr.trans ?_) hup hdown
    · congr 1; omega
    · rw [show (e - min e 0).toNat = e.toNat by omega]
    · rw [show (e - min e 0).toNat = e.toNat by omega]
  intro x
  have hflag : (clampInt lo hi x != x) = decide ¬(lo ≤ x ∧ x ≤ hi) := by
    rw [bne, Bool.eq_iff_iff]
    simp [← clampInt_eq_self]
  simp only [roundInt, hround]
  rw [show (if neg then -(n : Int) else n) = x from rfl, hflag]
  refine Prod.ext ?_ ?_
  · show clampInt lo hi x = _
    unfold clampInt
    omega
  · by_cases h0 : r = 0 <;> by_cases hx : lo ≤ x ∧ x ≤ hi <;> simp [h0, hx, flIf, flNx, flOf]

/-! ### Formats (05 R95) -/

/-- What the formats of codes 0 to 5 have in common: their largest finite value has a full significand and an exponent code that is not
that of the infinities, and E4M3's is the one below its NaN. -/
structure Fmt.Sound (code : Nat) (f : Fmt) : Prop where
  ebits : 2 ≤ 2 ^ f.ebits
  bias : 1 ≤ f.bias
  maxN : f.maxN < 2 ^ (f.mbits + 1)
  maxQ : f.maxQ + f.mbits + f.bias ≤ (2 ^ f.ebits - 1 : Nat)
  noInf : f.hasInf = true → f.maxQ + f.mbits + f.bias < (2 ^ f.ebits - 1 : Nat)
  e4m3 : code = 3 → f.mbits = 3 ∧ f.maxN = 14 ∧ f.maxQ + f.mbits + f.bias = (2 ^ f.ebits - 1 : Nat)

variable {code : Nat}

theorem fmtOf_sound (hcode : code ≤ 5) : (fmtOf code).Sound code := by
  interval_cases code <;> constructor <;> decide

/-! ### Codes of finite values (05 R95, R96) -/

/-- The bits of a sign, an exponent code and a fraction. -/
def codeOf (f : Fmt) (neg : Bool) (x m : Nat) : Nat :=
  (if neg then 2 ^ (f.mbits + f.ebits) else 0) + x * 2 ^ f.mbits + m

theorem codeOf_low {f : Fmt} {x : Nat} (hx : x < 2 ^ f.ebits) (hm : m < 2 ^ f.mbits) : x * 2 ^ f.mbits + m < 2 ^ (f.mbits + f.ebits) := by
  calc x * 2 ^ f.mbits + m < (x + 1) * 2 ^ f.mbits := by rw [Nat.add_one_mul]; omega
    _ ≤ 2 ^ f.ebits * 2 ^ f.mbits := Nat.mul_le_mul_right _ hx
    _ = 2 ^ (f.mbits + f.ebits) := by rw [Nat.add_comm, pow_add]

theorem codeOf_lt {f : Fmt} {x : Nat} (hx : x < 2 ^ f.ebits) (hm : m < 2 ^ f.mbits) : codeOf f neg x m < 2 ^ (f.mbits + f.ebits + 1) := by
  have hlow := codeOf_low hx hm
  have hsign : (if neg then 2 ^ (f.mbits + f.ebits) else 0) ≤ 2 ^ (f.mbits + f.ebits) := by split <;> simp
  rw [codeOf, pow_succ]
  omega

/-- The sign, the exponent code and the fraction of a code. -/
theorem codeOf_parts {f : Fmt} {x : Nat} (hx : x < 2 ^ f.ebits) (hm : m < 2 ^ f.mbits) :
    (codeOf f neg x m).testBit (f.mbits + f.ebits) = neg ∧ codeOf f neg x m % 2 ^ f.mbits = m ∧
      codeOf f neg x m / 2 ^ f.mbits % 2 ^ f.ebits = x := by
  have hlow := codeOf_low hx hm
  have hpos : 0 < 2 ^ f.mbits := Nat.two_pow_pos _
  have hcode : codeOf f neg x m = ((if neg then 2 ^ f.ebits else 0) + x) * 2 ^ f.mbits + m := by
    rw [codeOf, Nat.add_mul]
    cases neg <;> simp [pow_add, Nat.mul_comm]
  refine ⟨?_, ?_, ?_⟩
  · rw [codeOf, Nat.add_assoc]
    cases neg
    · simpa using Nat.testBit_lt_two_pow hlow
    · simp only [if_true]
      rw [Nat.testBit_two_pow_add_eq, Nat.testBit_lt_two_pow hlow]
      rfl
  · rw [hcode, Nat.mul_comm, Nat.mul_add_mod, Nat.mod_eq_of_lt hm]
  · rw [hcode, Nat.mul_comm, Nat.mul_add_div hpos, Nat.div_eq_of_lt hm, Nat.add_zero]
    cases neg <;> simp [Nat.mod_eq_of_lt hx]

theorem decodeFloat_subnormal (hs : (fmtOf code).Sound code) (hm : m < 2 ^ (fmtOf code).mbits) :
    decodeFloat code (codeOf (fmtOf code) neg 0 m) = .fin neg m (1 - (fmtOf code).bias - (fmtOf code).mbits) := by
  obtain ⟨hneg, hfrac, hexp⟩ := codeOf_parts (neg := neg) (Nat.two_pow_pos (fmtOf code).ebits) hm
  have htop : (0 : Nat) ≠ 2 ^ (fmtOf code).ebits - 1 := by have := hs.ebits; omega
  simp only [decodeFloat, hneg, hfrac, hexp]
  simp [htop]

theorem decodeFloat_normal {x : Nat} (hx : x < 2 ^ (fmtOf code).ebits) (hx1 : 1 ≤ x) (hm : m < 2 ^ (fmtOf code).mbits)
    (hinf : (fmtOf code).hasInf = true → x < 2 ^ (fmtOf code).ebits - 1)
    (hnan : code = 3 → x = 2 ^ (fmtOf code).ebits - 1 → m ≠ 7) :
    decodeFloat code (codeOf (fmtOf code) neg x m) =
      .fin neg (m + 2 ^ (fmtOf code).mbits) ((x : Int) - (fmtOf code).bias - (fmtOf code).mbits) := by
  obtain ⟨hneg, hfrac, hexp⟩ := codeOf_parts (neg := neg) hx hm
  have hfinite : ((fmtOf code).hasInf && x == 2 ^ (fmtOf code).ebits - 1) = false := by
    cases h : (fmtOf code).hasInf
    · rfl
    · simpa using (hinf h).ne
  simp only [decodeFloat, hneg, hfrac, hexp, hfinite, Bool.false_eq_true, if_false]
  rw [if_neg fun h => hnan h.1 h.2.1 h.2.2, if_neg (by omega)]

theorem eqv_self (neg : Bool) (m : Nat) (e : Int) : (Num.fin neg m e).eqv (.fin neg m e) = true := by
  simp [Num.eqv, Num.isNan, Num.lt]

/-- A magnitude is the same value at half the unit and twice the count. -/
theorem eqv_double (neg : Bool) (m : Nat) (e : Int) : (Num.fin neg m (e + 1)).eqv (.fin neg (m * 2) e) = true := by
  have halign : signedAt neg m (e + 1) e = signedAt neg (m * 2) e e := by simp [signedAt, alignTo]
  simp [Num.eqv, Num.isNan, Num.lt, halign]

/-- A power of two that lies within the largest finite value has no greater exponent. -/
theorem exponent_le_of_within {f : Fmt} {k : Nat} (hmaxN : f.maxN < 2 ^ (f.mbits + 1)) (hq : lo ≤ q) (hlo : lo ≤ f.maxQ)
    (hwithin : n * 2 ^ (q - lo).toNat ≤ f.maxN * 2 ^ (f.maxQ - lo).toNat) (hk : 2 ^ k ≤ n) : q + k ≤ f.maxQ + f.mbits := by
  have hlt : 2 ^ (k + (q - lo).toNat) < 2 ^ (f.mbits + 1 + (f.maxQ - lo).toNat) := by
    calc 2 ^ (k + (q - lo).toNat) = 2 ^ k * 2 ^ (q - lo).toNat := pow_add ..
      _ ≤ n * 2 ^ (q - lo).toNat := Nat.mul_le_mul_right _ hk
      _ ≤ f.maxN * 2 ^ (f.maxQ - lo).toNat := hwithin
      _ < 2 ^ (f.mbits + 1) * 2 ^ (f.maxQ - lo).toNat := Nat.mul_lt_mul_of_pos_right hmaxN (Nat.two_pow_pos _)
      _ = 2 ^ (f.mbits + 1 + (f.maxQ - lo).toNat) := (pow_add ..).symm
  have := (Nat.pow_lt_pow_iff_right (by omega)).1 hlt
  omega

/-- The code of a multiple within the range of a format: its value, its sign and its width. -/
theorem decodeFloat_packFinite (hs : (fmtOf code).Sound code) (hmin : 1 - (fmtOf code).bias - (fmtOf code).mbits ≤ q)
    (hn : n ≤ 2 ^ ((fmtOf code).mbits + 1))
    (hsub : n < 2 ^ (fmtOf code).mbits → q = 1 - (fmtOf code).bias - (fmtOf code).mbits)
    (hq : lo ≤ q) (hlo : lo ≤ (fmtOf code).maxQ)
    (hwithin : n * 2 ^ (q - lo).toNat ≤ (fmtOf code).maxN * 2 ^ ((fmtOf code).maxQ - lo).toNat) :
    (decodeFloat code (packFinite (fmtOf code) neg n q)).eqv (.fin neg n q) = true ∧
      (decodeFloat code (packFinite (fmtOf code) neg n q)).isNeg = neg ∧
      packFinite (fmtOf code) neg n q < 2 ^ ((fmtOf code).mbits + (fmtOf code).ebits + 1) := by
  have hbound := fun k => exponent_le_of_within (n := n) (k := k) hs.maxN hq hlo hwithin
  have htop := hs.maxQ
  have hpos : 1 ≤ 2 ^ (fmtOf code).mbits := Nat.one_le_two_pow
  by_cases hlow : n < 2 ^ (fmtOf code).mbits
  · have hpack : packFinite (fmtOf code) neg n q = codeOf (fmtOf code) neg 0 n := by
      rw [packFinite, codeOf, if_pos hlow, Nat.zero_mul, Nat.add_zero]
    rw [hpack, decodeFloat_subnormal hs hlow, hsub hlow]
    exact ⟨eqv_self .., rfl, codeOf_lt (Nat.two_pow_pos _) hlow⟩
  by_cases hcarry : n = 2 ^ ((fmtOf code).mbits + 1)
  · have hexp := hbound _ hcarry.ge
    obtain ⟨x, hx⟩ : ∃ x : Nat, (x : Int) = q + 1 + (fmtOf code).mbits + (fmtOf code).bias :=
      ⟨(q + 1 + (fmtOf code).mbits + (fmtOf code).bias).toNat, by omega⟩
    have hpack : packFinite (fmtOf code) neg n q = codeOf (fmtOf code) neg x 0 := by
      rw [packFinite, if_neg hlow]
      simp only [hcarry, if_true, codeOf, ← hx, Int.toNat_natCast, Nat.sub_self]
    have hxlt : x < 2 ^ (fmtOf code).ebits := by omega
    rw [hpack, decodeFloat_normal hxlt (by omega) hpos (fun h => by have := hs.noInf h; omega) (by omega), hcarry, Nat.zero_add,
      pow_succ, show (x : Int) - (fmtOf code).bias - (fmtOf code).mbits = q + 1 by omega]
    exact ⟨eqv_double .., rfl, codeOf_lt hxlt hpos⟩
  · have hexp := hbound _ (Nat.le_of_not_lt hlow)
    obtain ⟨x, hx⟩ : ∃ x : Nat, (x : Int) = q + (fmtOf code).mbits + (fmtOf code).bias :=
      ⟨(q + (fmtOf code).mbits + (fmtOf code).bias).toNat, by omega⟩
    have hpack : packFinite (fmtOf code) neg n q = codeOf (fmtOf code) neg x (n - 2 ^ (fmtOf code).mbits) := by
      rw [packFinite, if_neg hlow, if_neg hcarry]
      simp only [codeOf, ← hx, Int.toNat_natCast]
    have hfrac : n - 2 ^ (fmtOf code).mbits < 2 ^ (fmtOf code).mbits := by rw [pow_succ] at hn hcarry; omega
    have hxlt : x < 2 ^ (fmtOf code).ebits := by omega
    have hnan : code = 3 → x = 2 ^ (fmtOf code).ebits - 1 → n - 2 ^ (fmtOf code).mbits ≠ 7 := by
      intro h3 hxtop
      obtain ⟨hmbits, hmaxN, hmaxQ⟩ := hs.e4m3 h3
      have hqmax : q = (fmtOf code).maxQ := by omega
      rw [hqmax, hmaxN] at hwithin
      have := Nat.le_of_mul_le_mul_right hwithin (Nat.two_pow_pos _)
      rw [hmbits]
      omega
    rw [hpack, decodeFloat_normal hxlt (by omega) hfrac (fun h => by have := hs.noInf h; omega) hnan,
      Nat.sub_add_cancel (Nat.le_of_not_lt hlow), show (x : Int) - (fmtOf code).bias - (fmtOf code).mbits = q by omega]
    exact ⟨eqv_self .., rfl, codeOf_lt hxlt hfrac⟩

/-! ### The spacing of a format at a magnitude (05 R101) -/

/-- The truncated multiple has a full significand, unless the magnitude lies below the smallest normal. -/
theorem multiple_bounds {b : Nat} {emin : Int} (hm : m ≠ 0) (hq : q = max ((Nat.log2 m : Int) + e) emin - b) (he : lo ≤ e)
    (hlo : lo ≤ q) (ht : t = m * 2 ^ (e - lo).toNat / 2 ^ (q - lo).toNat) :
    t < 2 ^ (b + 1) ∧ ((Nat.log2 m : Int) + e < emin → t < 2 ^ b) ∧ (emin ≤ (Nat.log2 m : Int) + e → 2 ^ b ≤ t) := by
  have hpos : 0 < 2 ^ (q - lo).toNat := Nat.two_pow_pos _
  have hupper : ∀ k : Nat, (Nat.log2 m : Int) + e + 1 ≤ q + k → t < 2 ^ k := by
    intro k hk
    rw [ht, Nat.div_lt_iff_lt_mul hpos]
    calc m * 2 ^ (e - lo).toNat < 2 ^ (Nat.log2 m + 1) * 2 ^ (e - lo).toNat :=
          Nat.mul_lt_mul_of_pos_right Nat.lt_log2_self (Nat.two_pow_pos _)
      _ = 2 ^ (Nat.log2 m + 1 + (e - lo).toNat) := (pow_add ..).symm
      _ ≤ 2 ^ (k + (q - lo).toNat) := Nat.pow_le_pow_right (by omega) (by omega)
      _ = 2 ^ k * 2 ^ (q - lo).toNat := pow_add ..
  refine ⟨hupper (b + 1) (by omega), fun hsmall => hupper b (by omega), fun hnormal => ?_⟩
  rw [ht, Nat.le_div_iff_mul_le hpos]
  calc 2 ^ b * 2 ^ (q - lo).toNat = 2 ^ (b + (q - lo).toNat) := (pow_add ..).symm
    _ ≤ 2 ^ (Nat.log2 m + (e - lo).toNat) := Nat.pow_le_pow_right (by omega) (by omega)
    _ = 2 ^ Nat.log2 m * 2 ^ (e - lo).toNat := pow_add ..
    _ ≤ m * 2 ^ (e - lo).toNat := Nat.mul_le_mul_right _ (Nat.log2_self_le hm)

/-! ### Rounding into a format (05 R101, R102, R112) -/

/-- Whether an overflow gives an infinite outcome (05 R102). -/
abbrev ToInf (rnd : Nat) (neg : Bool) : Prop := rnd = 0 ∨ rnd = 4 ∨ (rnd = 2 ∧ neg = false) ∨ (rnd = 3 ∧ neg = true)

theorem overflowsToInf_iff (hrnd : rnd ≤ 4) : overflowsToInf rnd neg = true ↔ ToInf rnd neg := by
  unfold overflowsToInf ToInf
  interval_cases rnd <;> simp

/-- Two magnitudes compare alike at every lower power of two. -/
theorem alignTo_lt_iff {a b : Nat} {x y lo' : Int} (hlo : lo ≤ lo') (hx : lo' ≤ x) (hy : lo' ≤ y) :
    alignTo a x lo' < alignTo b y lo' ↔ a * 2 ^ (x - lo).toNat < b * 2 ^ (y - lo).toNat := by
  rw [two_pow_split hlo hx, two_pow_split hlo hy, ← Nat.mul_assoc, ← Nat.mul_assoc]
  exact (Nat.mul_lt_mul_right (Nat.two_pow_pos _)).symm

/-- The bits of an infinite outcome that is not saturated: E4M3 gives its NaN (05 R102). -/
def infCode (code : Nat) (neg : Bool) : Nat := if code = 3 then nanBits code else infBits (fmtOf code) neg

theorem hasInf_iff (hcode : code ≤ 5) (h5 : code ≠ 5) : (fmtOf code).hasInf = true ↔ code ≠ 3 := by
  interval_cases code <;> simp [fmtOf] at h5 ⊢

variable {sat overflow : Bool}

theorem infOutcome_saturated (h : sat = true ∨ code = 5) : infOutcome code sat neg overflow = (maxBits (fmtOf code) neg, 0x0A) := by
  have : (sat || code == 5) = true := by simpa using h
  simp [infOutcome, this, flOf, flNx]

theorem infOutcome_infinite (hcode : code ≤ 5) (hsat : sat = false) (h5 : code ≠ 5) : infOutcome code sat neg overflow =
    (infCode code neg, flIf overflow 0x0A ||| if code = 3 then 0x01 else 0) := by
  have : (sat || code == 5) = false := by simp [hsat, h5]
  by_cases h3 : code = 3
  · subst h3
    simp only [infOutcome, this, infCode, if_true]
    cases overflow <;> rfl
  · have hinf := (hasInf_iff hcode h5).2 h3
    simp only [infOutcome, this, infCode, hinf, h3, if_true, if_false]
    cases overflow <;> rfl

/-- A finite value whose multiple lies within the largest finite value, and one whose multiple lies beyond. -/
theorem roundFloat_of_multiple (hm : m ≠ 0) (hrnd : rnd ≤ 4)
    (hq : q = max ((Nat.log2 m : Int) + e) (1 - (fmtOf code).bias) - (fmtOf code).mbits)
    (hlo : lo = min e (min q (fmtOf code).maxQ)) (hd : d = 2 ^ (q - lo).toNat) (ht : t = m * 2 ^ (e - lo).toNat / d)
    (hr : r = m * 2 ^ (e - lo).toNat % d) (hup : RoundsUp rnd neg u t r d → n = t + 1) (hdown : ¬RoundsUp rnd neg u t r d → n = t) :
    roundFloat code rnd sat u (.fin neg m e) =
      if (fmtOf code).maxN * 2 ^ ((fmtOf code).maxQ - lo).toNat < n * d then
        (if sat = true ∨ code = 5 ∨ ¬ToInf rnd neg then (maxBits (fmtOf code) neg, 0x0A) else infOutcome code sat neg true)
      else (packFinite (fmtOf code) neg n q,
        if r = 0 then 0 else if (Nat.log2 m : Int) + e < 1 - (fmtOf code).bias then 0x0C else 0x08) := by
  have hround : roundAt rnd neg u m e q = (n, decide (r = 0)) :=
    roundAt_of_multiple hrnd (by omega) (by omega) hd ht hr hup hdown
  have hbeyond := alignTo_lt_iff (a := (fmtOf code).maxN) (b := n) (x := (fmtOf code).maxQ) (y := q) (lo := lo)
    (lo' := min q (fmtOf code).maxQ) (by omega) (by omega) (by omega)
  have hsat : (sat || code == 5 || !overflowsToInf rnd neg) = true ↔ sat = true ∨ code = 5 ∨ ¬ToInf rnd neg := by
    rw [← overflowsToInf_iff hrnd]
    simp [or_assoc]
  unfold roundFloat
  simp only [if_neg hm, ← hq, hround, hbeyond, hsat, hd]
  refine if_congr Iff.rfl rfl (Prod.ext rfl ?_)
  by_cases h0 : r = 0 <;> by_cases hsmall : (Nat.log2 m : Int) + e < 1 - (fmtOf code).bias <;>
    simp [h0, hsmall, flIf, flNx, flUf]

/-- Within the largest finite value the code of the multiple results, with its flags (05 R101, R112). -/
theorem roundFloat_within (hcode : code ≤ 5) (hm : m ≠ 0) (hrnd : rnd ≤ 4)
    (hq : q = max ((Nat.log2 m : Int) + e) (1 - (fmtOf code).bias) - (fmtOf code).mbits)
    (hlo : lo = min e (min q (fmtOf code).maxQ)) (hd : d = 2 ^ (q - lo).toNat) (ht : t = m * 2 ^ (e - lo).toNat / d)
    (hr : r = m * 2 ^ (e - lo).toNat % d) (hup : RoundsUp rnd neg u t r d → n = t + 1) (hdown : ¬RoundsUp rnd neg u t r d → n = t)
    (hwithin : ¬(fmtOf code).maxN * 2 ^ ((fmtOf code).maxQ - lo).toNat < n * d) :
    (decodeFloat code (roundFloat code rnd sat u (.fin neg m e)).1).eqv (.fin neg n q) = true ∧
      (decodeFloat code (roundFloat code rnd sat u (.fin neg m e)).1).isNeg = neg ∧
      (roundFloat code rnd sat u (.fin neg m e)).1 < 2 ^ ((fmtOf code).mbits + (fmtOf code).ebits + 1) ∧
      (r = 0 → (roundFloat code rnd sat u (.fin neg m e)).2 = 0) ∧
      (r ≠ 0 → (roundFloat code rnd sat u (.fin neg m e)).2 =
        if (Nat.log2 m : Int) + e < 1 - (fmtOf code).bias then 0x0C else 0x08) := by
  obtain ⟨htop, hsmall, hnormal⟩ := multiple_bounds hm hq (lo := lo) (by omega) (by omega) (hd ▸ ht)
  have hn : t ≤ n ∧ n ≤ t + 1 := by
    by_cases h : RoundsUp rnd neg u t r d
    · have := hup h; omega
    · have := hdown h; omega
  rw [roundFloat_of_multiple hm hrnd hq hlo hd ht hr hup hdown, if_neg hwithin]
  obtain ⟨hvalue, hneg, hwidth⟩ := decodeFloat_packFinite (neg := neg) (n := n) (q := q) (lo := lo) (fmtOf_sound hcode) (by omega)
    (by omega) (fun hlow => by omega) (by omega) (by omega) (by rw [← hd]; exact Nat.le_of_not_lt hwithin)
  exact ⟨hvalue, hneg, hwidth, fun h0 => if_pos h0, fun h0 => if_neg h0⟩

/-- Beyond the largest finite value the result is that of the table of 05 R102. -/
theorem roundFloat_beyond (hcode : code ≤ 5) (hm : m ≠ 0) (hrnd : rnd ≤ 4)
    (hq : q = max ((Nat.log2 m : Int) + e) (1 - (fmtOf code).bias) - (fmtOf code).mbits)
    (hlo : lo = min e (min q (fmtOf code).maxQ)) (hd : d = 2 ^ (q - lo).toNat) (ht : t = m * 2 ^ (e - lo).toNat / d)
    (hr : r = m * 2 ^ (e - lo).toNat % d) (hup : RoundsUp rnd neg u t r d → n = t + 1) (hdown : ¬RoundsUp rnd neg u t r d → n = t)
    (hbeyond : (fmtOf code).maxN * 2 ^ ((fmtOf code).maxQ - lo).toNat < n * d) :
    (sat = true ∨ code = 5 ∨ ¬ToInf rnd neg → roundFloat code rnd sat u (.fin neg m e) = (maxBits (fmtOf code) neg, 0x0A)) ∧
      (sat = false → code ≠ 5 → ToInf rnd neg →
        roundFloat code rnd sat u (.fin neg m e) = (infCode code neg, 0x0A ||| if code = 3 then 0x01 else 0)) := by
  rw [roundFloat_of_multiple hm hrnd hq hlo hd ht hr hup hdown, if_pos hbeyond]
  refine ⟨fun h => if_pos h, fun hsat h5 hinf => ?_⟩
  have hfinite : ¬(sat = true ∨ code = 5 ∨ ¬ToInf rnd neg) := by simp [hsat, h5, hinf]
  rw [if_neg hfinite, infOutcome_infinite hcode hsat h5]
  rfl

theorem roundFloat_zero : roundFloat code rnd sat u (.fin neg 0 e) =
    (if neg then 2 ^ ((fmtOf code).mbits + (fmtOf code).ebits) else 0, 0) := rfl

theorem roundFloat_inf (hcode : code ≤ 5) : roundFloat code rnd sat u (.inf neg) =
    if sat = true ∨ code = 5 then (maxBits (fmtOf code) neg, 0x0A) else (infCode code neg, if code = 3 then 0x01 else 0) := by
  split
  · next h => exact infOutcome_saturated h
  · next h =>
    rw [not_or, Bool.not_eq_true] at h
    rw [roundFloat, infOutcome_infinite hcode h.1 h.2]
    simp [flIf]

end Sys2Proof.Machine

open Sys2Proof Sys2Proof.Machine

/-- Settles O13: a finite value rounds to a multiple, counted at a power of two below its own, its spacing's and the largest finite
value's; the rest is the table of 05 R102. -/
theorem roundingRules : Obligations.RoundingRules := by
  unfold Obligations.RoundingRules
  refine ⟨fun code rnd sat neg u m e hcode hrnd => ?float, fun lo hi rnd u neg m e hrange hrnd => ⟨fun n hup hdown => ?int, rfl, rfl⟩⟩
  case int => exact roundInt_of_multiple hrange hrnd rfl rfl rfl hup hdown
  have hmant : [23, 7, 10, 3, 2, 1].getD code 0 = (fmtOf code).mbits := by interval_cases code <;> rfl
  have hbias : [127, 127, 15, 7, 15, 1].getD code 0 = (fmtOf code).bias := by interval_cases code <;> rfl
  have hwidth : [32, 16, 16, 8, 8, 4].getD code 0 = (fmtOf code).mbits + (fmtOf code).ebits + 1 := by
    interval_cases code <;> rfl
  have htop : [((0xFFFFFF : Nat), (104 : Int)), (0xFF, 120), (0x7FF, 5), (14, 5), (7, 13), (3, 1)].getD code (0, 0) =
      ((fmtOf code).maxN, (fmtOf code).maxQ) := by interval_cases code <;> rfl
  have hmost : (if neg then 2 ^ ((fmtOf code).mbits + (fmtOf code).ebits) else 0) +
      [0x7F7FFFFF, 0x7F7F, 0x7BFF, 0x7E, 0x7B, 7].getD code 0 = maxBits (fmtOf code) neg := by
    interval_cases code <;> cases neg <;> decide
  have hinf : (if code = 3 then 0x7F else (if neg then 2 ^ ((fmtOf code).mbits + (fmtOf code).ebits) else 0) +
      [0x7F800000, 0x7F80, 0x7C00, 0, 0x7C, 0].getD code 0) = if code = 5 then (if neg then 8 else 0) else infCode code neg := by
    interval_cases code <;> cases neg <;> decide
  have hnan : roundFloat code rnd sat u .nan = ([0x7FC00000, 0x7FC0, 0x7E00, 0x7F, 0x7E, 0].getD code 0, if code = 5 then 0x01 else 0) := by
    interval_cases code <;> rfl
  rw [hmant, hbias, hwidth, htop]
  dsimp only
  rw [Nat.add_sub_cancel, hmost, hinf]
  refine ⟨fun n hup hdown hm => ⟨fun hwithin => ?_, fun hbeyond => ?_⟩, roundFloat_zero, ?_, hnan⟩
  · exact roundFloat_within hcode hm hrnd rfl rfl rfl rfl rfl hup hdown hwithin
  · obtain ⟨hfinite, hinfinite⟩ := roundFloat_beyond (sat := sat) hcode hm hrnd rfl rfl rfl rfl rfl hup hdown hbeyond
    refine ⟨hfinite, fun hsat h5 h => ?_⟩
    rw [if_neg h5]
    exact hinfinite hsat h5 h
  · rw [roundFloat_inf hcode]
    refine if_ctx_congr Iff.rfl (fun _ => rfl) fun h => ?_
    rw [not_or] at h
    rw [if_neg h.2]
end

section
/-! SUPPORT. What the read of a unit's source leaves as it was, and the bytes that it gives (10 R202; 14 R260, R263; 20 R311). -/

namespace Sys2Proof.Machine

/-- `t` is `s` but for translations, counted bytes and the lines that the home L2s hold; nothing is stored. -/
structure ReadsOnly (s t : State) : Prop where
  state : t = { s with tlb := t.tlb, walks := t.walks, bytes := t.bytes, l2 := t.l2, dev := t.dev, dram := t.dram,
                       host := t.host, hostBehind := t.hostBehind }
  kept : MemoryKept s t

namespace ReadsOnly

variable {s t u : State}

theorem rfl' (s : State) : ReadsOnly s s := ⟨rfl, .of_eq rfl rfl rfl rfl rfl rfl fun _ h => h⟩

theorem trans (h : ReadsOnly s t) (g : ReadsOnly t u) : ReadsOnly s u where
  state := by rw [g.state, h.state]
  kept := h.kept.trans g.kept

theorem foldl {α : Type} {f : State → α → State} (hf : ∀ s x, ReadsOnly s (f s x)) : ∀ (xs : List α) (s : State),
    ReadsOnly s (xs.foldl f s)
  | [], s => rfl' s
  | x :: xs, s => (hf s x).trans (foldl hf xs (f s x))

theorem core (h : ReadsOnly s t) (c : Nat) : t.core c = s.core c := by rw [h.state]; rfl

end ReadsOnly

variable (s : State)

theorem readsOnly_translate (u : TUnit) (x va : Nat) (k : AccKind) (sys peer fresh : Bool) :
    ReadsOnly s (s.translate u x va k sys peer fresh).2 := by
  rw [translate_state]
  exact ⟨rfl, .of_eq rfl rfl rfl rfl rfl rfl fun _ h => h⟩

theorem readsOnly_countAt (x : Nat) (p : Phys) (n : Nat) : ReadsOnly s (s.countAt x p n) :=
  ⟨rfl, .of_eq rfl rfl rfl rfl rfl rfl fun _ h => h⟩

theorem readsOnly_l2Hold (x : L2Line) : ReadsOnly s (s.l2Hold x) where
  state := by rw [l2Hold_state]
  kept := memoryKept_l2Hold x

theorem readsOnly_l2Fill (x : Nat) (p : Phys) (n : Nat) (hint : BitVec 2) : ReadsOnly s (s.l2Fill x p n hint) := by
  refine ReadsOnly.foldl (fun s l => ?_) _ s
  have hcount : ReadsOnly s (if s.l2Has p.host l then s else s.countAt x p 128) := by
    split
    · exact .rfl' s
    · exact readsOnly_countAt ..
  exact hcount.trans (readsOnly_l2Hold _ _)

theorem readsOnly_pageFill (t : Xlated) (n : Nat) : ReadsOnly s (s.pageFill t n) := by
  unfold State.pageFill
  split
  · exact readsOnly_countAt ..
  · exact readsOnly_l2Fill ..

/-! ### Translating all pieces of an access -/

/-- `t` is `s` but for translations and the bytes that walks are counted for. -/
def XlatOnly (s t : State) : Prop := t = { s with tlb := t.tlb, walks := t.walks, bytes := t.bytes }

theorem XlatOnly.trans {s t u : State} (h : XlatOnly s t) (g : XlatOnly t u) : XlatOnly s u := by
  rw [XlatOnly] at h g ⊢
  rw [g, h]

theorem xlatOnly_translate (u : TUnit) (x va : Nat) (k : AccKind) (sys peer fresh : Bool) :
    XlatOnly s (s.translate u x va k sys peer fresh).2 := by
  rw [XlatOnly, translate_state]

theorem xlatOnly_xlatAll (u : TUnit) (x : Nat) (k : AccKind) (peer fresh : Bool) : ∀ (ps : List (Nat × Nat)) (s : State),
    XlatOnly s (State.xlatAll u x k peer fresh ps s).2
  | [], _ => rfl
  | (va, n) :: ps, s => by
    have htranslate := xlatOnly_translate s u x va k false peer fresh
    unfold State.xlatAll
    split
    · rfl
    · split
      · next he => rw [he] at htranslate; exact htranslate
      · next s1 he =>
        rw [he] at htranslate
        have hrest := xlatOnly_xlatAll u x k peer fresh ps s1
        split
        · next hr => rw [hr] at hrest; exact htranslate.trans hrest
        · next hr => rw [hr] at hrest; exact htranslate.trans hrest

theorem XlatOnly.readsOnly {s t : State} (h : XlatOnly s t) : ReadsOnly s t := by
  rw [XlatOnly] at h
  rw [h]
  exact ⟨rfl, .of_eq rfl rfl rfl rfl rfl rfl fun _ h => h⟩

variable {s}

/-- After a translation a page reads as before it. -/
theorem XlatOnly.pageRead {t : State} (h : XlatOnly s t) (y : Xlated) (n : Nat) : t.pageRead y n = s.pageRead y n := by
  rw [XlatOnly] at h
  rw [h]
  rfl

variable {u : TUnit} {x : Nat} {k : AccKind} {peer fresh : Bool} {ps : List (Nat × Nat)} {s1 s2 : State} {ts : List (Xlated × Nat)}

theorem xlatOnly_of_xlatAll (h : State.xlatAll u x k peer fresh ps s = (.ok ts, s1)) : XlatOnly s s1 := by
  have := xlatOnly_xlatAll u x k peer fresh ps s
  rwa [h] at this

/-! ### Merges and words that are read early (10 R202; 14 R263) -/

theorem foldl_eq_of_false {α β : Type} {f : Bool × β → α → Bool × β} (hf : ∀ w x, (f w x).1 = false → f w x = w) :
    ∀ (xs : List α) (w : Bool × β), (xs.foldl f w).1 = false → xs.foldl f w = w
  | [], _, _ => rfl
  | x :: xs, w, h => by
    have hrest := foldl_eq_of_false hf xs (f w x) h
    rw [List.foldl_cons] at h ⊢
    rw [hrest] at h ⊢
    exact hf w x h

/-- Where no line read joins a merge, the merges are as they were. -/
theorem mergePieces_false {r : Reader} {got : Tab Word} (h : s.mergePieces r x got ts = (false, s1)) : s1 = s := by
  have hfold := foldl_eq_of_false (fun (w : Bool × State) (t : Xlated) hw => ?_) _ (false, s) (congrArg Prod.fst h)
  · exact congrArg Prod.snd (h.symm.trans hfold)
  · split at hw
    · cases hw
    · rfl

variable {va n : Nat} {r : Reader} {got : Tab Word} {bs : List Byte}

/-- A source that is read: its pieces are translated, its bytes are those of their pages under the words that are read already, and
its lines are filled. -/
theorem sourceRead_ok (h : s.sourceRead u x va n fresh r got = (.ok bs, s1)) : ∃ ts s0,
    State.xlatAll u x .read false fresh (pagePieces va n) s = (.ok ts, s0) ∧
    bs = (ts.flatMap fun t => overlay got t.1.phys (s.pageRead t.1 t.2)) ∧ s1 = ts.foldl (fun s t => s.pageFill t.1 t.2) s0 := by
  unfold State.sourceRead at h
  split at h
  · cases h
  · next ts s0 hx =>
    split at h
    · cases h
    · split at h
      · cases h
      · next s2 hmerge =>
        obtain rfl := mergePieces_false hmerge
        cases h
        exact ⟨ts, s2, hx, by simp only [(xlatOnly_of_xlatAll hx).pageRead], rfl⟩

theorem readsOnly_sourceRead (h : s.sourceRead u x va n fresh r got = (.ok bs, s1)) : ReadsOnly s s1 := by
  obtain ⟨ts, s0, hx, -, rfl⟩ := sourceRead_ok h
  exact (xlatOnly_of_xlatAll hx).readsOnly.trans (.foldl (fun s t => readsOnly_pageFill s t.1 t.2) ts s0)

/-- A source that no early read has touched is read as its pages hold it. -/
theorem sourceRead_untouched (hx : State.xlatAll u x .read false fresh (pagePieces va n) s = (.ok ts, s1))
    (h : s.sourceRead u x va n fresh r [] = (.ok bs, s2)) :
    bs = ts.flatMap fun y => if y.1.item.kind = .uncached then s.behindRead y.1.phys y.2 else s.physRead y.1.phys y.2 := by
  obtain ⟨ts', s0, hx', hbs, -⟩ := sourceRead_ok h
  cases hx.symm.trans hx'
  exact hbs

end Sys2Proof.Machine

end

section
/-! SUPPORT. Bytes that a unit writes at their home L2s and behind them: what is stored, what stays, and what lines that leave keep (09 R178;
14 R260). -/

namespace Sys2Proof.Machine

/-! ### Bytes that their home L2 does not lose -/

/-- No entry of a byte's line at the home L2s has it unmodified: a line that leaves gives the byte on. -/
def State.Settled (s : State) (p : Phys) : Prop := ∀ x ∈ s.l2, x.is p.host p.line = true → x.dirty.getLsbD (p.addr % 128) = true

/-- A settled byte stays so, with its value at home. -/
def SettledKept (s t : State) (p : Phys) : Prop := Canonical s → s.Settled p → t.Settled p ∧ t.homeByte p = s.homeByte p

variable {s t u : State} {p : Phys} {l x : L2Line}

theorem SettledKept.trans (hst : Canonical s → Canonical t) (h : SettledKept s t p) (g : SettledKept t u p) : SettledKept s u p := by
  intro hs hp
  obtain ⟨ht, hhome⟩ := h hs hp
  obtain ⟨hu, hhome'⟩ := g (hst hs) ht
  exact ⟨hu, hhome'.trans hhome⟩

theorem Settled.giveUpLine (h : s.Settled p) : (s.giveUpLine l).Settled p := by
  intro x hx hp
  rw [l2_giveUpLine] at hx
  exact h x (List.mem_filter.1 hx).1 hp

theorem settledKept_giveUpLine (hl : l ∈ s.l2) : SettledKept s (s.giveUpLine l) p := by
  refine fun hs hp => ⟨Settled.giveUpLine hp, ?_⟩
  rw [homeByte_giveUpLine hs, behindByte_cleanLine hs]
  split
  · next his => rw [if_pos ⟨his, hp l hl his⟩]
  · rfl

theorem settled_append (hp : s.Settled p) (hx : x.is p.host p.line = true → x.dirty.getLsbD (p.addr % 128) = true) :
    ({ s with l2 := s.l2 ++ [x] } : State).Settled p := by
  intro y hy his
  rcases List.mem_append.1 hy with hy | hy
  · exact hp y hy his
  · rw [List.mem_singleton] at hy
    subst hy
    exact hx his

/-- What the entry of a line may make of the state before it enters: a full set gives one up. -/
theorem l2Add_eq (s : State) (x : L2Line) : s.l2Add x = { s with l2 := s.l2 ++ [x] } ∨
    ∃ l ∈ s.l2, s.l2Add x = { s.giveUpLine l with l2 := (s.giveUpLine l).l2 ++ [x] } := by
  unfold State.l2Add
  dsimp only
  split
  · exact .inl rfl
  · split
    · next l hl => exact .inr ⟨l, (List.mem_filter.1 (mem_victimOf hl)).1, rfl⟩
    · exact .inl rfl

theorem settledKept_l2Add (hx : x.is p.host p.line = true → x.dirty.getLsbD (p.addr % 128) = true) : SettledKept s (s.l2Add x) p := by
  intro hs hp
  rcases l2Add_eq s x with h | ⟨l, hl, h⟩
  · rw [h]
    exact ⟨settled_append hp hx, rfl⟩
  · rw [h]
    obtain ⟨hp', hhome⟩ := settledKept_giveUpLine hl hs hp
    exact ⟨settled_append hp' hx, hhome⟩

/-- Whether a line that is to be held is that of a byte, with the byte modified. -/
def L2Line.Covers (x : L2Line) (p : Phys) : Prop := x.is p.host p.line = true → x.dirty.getLsbD (p.addr % 128) = true

theorem settledKept_l2Hold (hx : x.Covers p) : SettledKept s (s.l2Hold x) p := by
  unfold State.l2Hold
  split
  · next l hl =>
    split
    · refine fun _ hp => ⟨fun y hy his => ?_, rfl⟩
      obtain ⟨z, hz, rfl⟩ := List.mem_map.1 hy
      by_cases hz' : z.is x.host x.addr = true
      · rw [if_pos hz'] at his ⊢
        rw [BitVec.getLsbD_or, hp z hz his, Bool.true_or]
      · rw [if_neg hz'] at his ⊢
        exact hp z hz his
    · exact SettledKept.trans (fun h => h.giveUpLine l) (settledKept_giveUpLine (List.mem_of_find?_eq_some hl)) (settledKept_l2Add hx)
  · exact settledKept_l2Add hx

/-- A held line whose modified bytes are to include one settles it. -/
theorem settled_l2Hold (his : x.is p.host p.line = true) (hd : x.dirty.getLsbD (p.addr % 128) = true) : (s.l2Hold x).Settled p := by
  have hline : ∀ y : L2Line, y.is p.host p.line = y.is x.host x.addr := by
    rw [L2Line.is_iff] at his
    intro y
    rw [his.1, his.2]
  have hadd : ∀ s : State, (∀ y ∈ s.l2, y.is p.host p.line = false) → (s.l2Add x).Settled p := by
    intro s hnone y hy hyp
    have hmem : y ∈ s.l2 ∨ y = x := by
      rcases l2Add_eq s x with h | ⟨l, hl, h⟩
      · rw [h] at hy
        simpa using hy
      · rw [h] at hy
        simp only [l2_giveUpLine, List.mem_append, List.mem_singleton, List.mem_filter] at hy
        exact hy.imp_left And.left
    rcases hmem with hmem | rfl
    · rw [hnone y hmem] at hyp; cases hyp
    · exact hd
  unfold State.l2Hold
  split
  · next l hl =>
    split
    · intro y hy hyp
      obtain ⟨z, hz, rfl⟩ := List.mem_map.1 hy
      by_cases hz' : z.is x.host x.addr = true
      · rw [if_pos hz', BitVec.getLsbD_or, hd, Bool.or_true]
      · rw [if_neg hz', hline] at hyp
        exact absurd hyp hz'
    · have hl' := List.find?_some hl
      refine hadd _ fun y hy => ?_
      rw [l2_giveUpLine, List.mem_filter] at hy
      rw [hline]
      simp only [L2Line.is_iff] at hl'
      simpa [hl'.1, hl'.2] using hy.2
  · next hl => exact hadd _ fun y hy => by rw [hline]; simpa using List.find?_eq_none.1 hl y hy

/-! ### A write at the home L2s -/

theorem testBit_two_pow_sub {a b i : Nat} : (2 ^ b - 2 ^ a).testBit i = (decide (a ≤ i) && decide (i < b)) := by
  by_cases hab : a ≤ b
  · have hpow : 2 ^ b - 2 ^ a = 2 ^ a * (2 ^ (b - a) - 1) := by
      rw [Nat.mul_sub, Nat.mul_one, ← pow_add, Nat.add_sub_cancel' hab]
    rw [hpow, Nat.testBit_two_pow_mul, Nat.testBit_two_pow_sub_one]
    by_cases ha : a ≤ i
    · simp only [ha, decide_true, Bool.true_and]
      exact decide_eq_decide.2 (by omega)
    · simp [ha]
  · rw [Nat.sub_eq_zero_of_le (Nat.pow_le_pow_right (by omega) (by omega)), Nat.zero_testBit]
    symm
    simp only [Bool.and_eq_false_iff, decide_eq_false_iff_not]
    omega

/-- A byte of a write is among the modified bytes of its line. -/
theorem lineBits_getLsbD {a n x : Nat} (hlo : a ≤ x) (hhi : x < a + n) : (lineBits (x / 128) a n).getLsbD (x % 128) = true := by
  have hmod : x % 128 < 128 := Nat.mod_lt _ (by omega)
  rw [lineBits, BitVec.getLsbD_ofNat, testBit_two_pow_sub]
  simp only [hmod, decide_true, Bool.true_and, Bool.and_eq_true, decide_eq_true_eq]
  omega

theorem mem_linesFrom {a n x : Nat} (hlo : a ≤ x) (hhi : x < a + n) : x / 128 ∈ linesFrom a n := by
  rw [linesFrom, if_neg (by omega), List.mem_map]
  have hup : x / 128 ≤ (a + n - 1) / 128 := Nat.div_le_div_right (by omega)
  have hdown : a / 128 ≤ x / 128 := Nat.div_le_div_right hlo
  exact ⟨x / 128 - a / 128, by rw [List.mem_range]; omega, by omega⟩

theorem of_mem_linesFrom {a n l : Nat} (h : l ∈ linesFrom a n) : a / 128 ≤ l ∧ l ≤ (a + n - 1) / 128 ∧ n ≠ 0 := by
  rw [linesFrom] at h
  split at h
  · cases h
  · next hn =>
    obtain ⟨j, hj, rfl⟩ := List.mem_map.1 h
    rw [List.mem_range] at hj
    have : a / 128 ≤ (a + n - 1) / 128 := Nat.div_le_div_right (by omega)
    exact ⟨by omega, by omega, hn⟩

/-- The lines of a write are held, with its bytes modified. -/
def State.holdWritten (s : State) (part : Nat) (q : Phys) (n : Nat) : State :=
  (linesFrom q.addr n).foldl (fun s l =>
    s.l2Hold { host := q.host, addr := l, set := s.l2Set part q.host l, dirty := lineBits l q.addr n, hint := 0 }) s

theorem readsOnly_holdWritten (s : State) (part : Nat) (q : Phys) (n : Nat) : ReadsOnly s (s.holdWritten part q n) :=
  .foldl (fun _ _ => readsOnly_l2Hold ..) _ s

variable {q : Phys} {n part : Nat} {bs : List Byte}

/-- Holding the lines of a write keeps a settled byte that is not on them, or is among the bytes that it writes. -/
theorem settledKept_holdWritten (hp : q.host = p.host → p.line ∈ linesFrom q.addr n → q.addr ≤ p.addr ∧ p.addr < q.addr + n) :
    SettledKept s (s.holdWritten part q n) p := by
  have hcovers : ∀ l ∈ linesFrom q.addr n, ∀ set,
      L2Line.Covers { host := q.host, addr := l, set := set, dirty := lineBits l q.addr n, hint := 0 } p := by
    intro l hl set his
    rw [L2Line.is_iff] at his
    obtain ⟨hhost, rfl⟩ := his
    obtain ⟨hlo, hhi⟩ := hp hhost hl
    exact lineBits_getLsbD hlo hhi
  unfold State.holdWritten
  generalize linesFrom q.addr n = ls at hcovers
  induction ls generalizing s with
  | nil => exact fun _ h => ⟨h, rfl⟩
  | cons l ls ih =>
    exact SettledKept.trans (fun h => h.l2Hold _) (settledKept_l2Hold (hcovers l List.mem_cons_self _))
      (ih fun l hl => hcovers l (List.mem_cons_of_mem _ hl))

/-- A byte that a write is to store is settled once its lines are held. -/
theorem settled_holdWritten (hs : Canonical s) (hhost : q.host = p.host) (hlo : q.addr ≤ p.addr) (hhi : p.addr < q.addr + n) :
    (s.holdWritten part q n).Settled p := by
  have hcovers : ∀ l set, L2Line.Covers { host := q.host, addr := l, set := set, dirty := lineBits l q.addr n, hint := 0 } p := by
    intro l set his
    rw [L2Line.is_iff] at his
    obtain ⟨-, rfl⟩ := his
    exact lineBits_getLsbD hlo hhi
  have hmem := mem_linesFrom hlo hhi
  unfold State.holdWritten
  generalize linesFrom q.addr n = ls at hmem
  have hkeep : ∀ (ls : List Nat) (s : State), Canonical s → s.Settled p → (ls.foldl (fun s l => s.l2Hold
      { host := q.host, addr := l, set := s.l2Set part q.host l, dirty := lineBits l q.addr n, hint := 0 }) s).Settled p := by
    intro ls
    induction ls with
    | nil => exact fun _ _ h => h
    | cons l ls ih => exact fun s hs h => ih _ (hs.l2Hold _) (settledKept_l2Hold (hcovers l _) hs h).1
  induction ls generalizing s with
  | nil => cases hmem
  | cons l ls ih =>
    rw [List.foldl_cons]
    by_cases hl : p.addr / 128 = l
    · refine hkeep ls _ (hs.l2Hold _) (settled_l2Hold ?_ ?_)
      · exact L2Line.is_iff.2 ⟨hhost, hl.symm⟩
      · subst hl
        exact lineBits_getLsbD hlo hhi
    · exact ih (hs.l2Hold _) ((List.mem_cons.1 hmem).resolve_left hl)

theorem homeWrite_eq (s : State) (part : Nat) (q : Phys) (bs : List Byte) : s.homeWrite part q bs =
    let s1 := (s.holdWritten part q bs.length).unpoison q bs.length
    if q.host then { s1 with host := s1.host.writeN q.addr bs } else { s1 with dev := s1.dev.writeN q.addr bs } := rfl

theorem homeByte_homeWrite (hs : Canonical s) : (s.homeWrite part q bs).homeByte p =
    if q.host = p.host ∧ q.addr ≤ p.addr ∧ p.addr < q.addr + bs.length then bs.getD (p.addr - q.addr) 0
    else (s.holdWritten part q bs.length).homeByte p := by
  obtain ⟨hdev, -, hhost, -, -, -⟩ := ((readsOnly_holdWritten s part q bs.length).kept hs).1
  have hdev' := Memory.read_writeN bs hdev q.addr p.addr
  have hhost' := Memory.read_writeN bs hhost q.addr p.addr
  rw [homeWrite_eq]
  unfold State.homeByte State.unpoison
  cases hq : q.host <;> cases hp : p.host <;> simp [hdev', hhost']

theorem l2_homeWrite : (s.homeWrite part q bs).l2 = (s.holdWritten part q bs.length).l2 := by
  rw [homeWrite_eq]
  unfold State.unpoison
  cases q.host <;> rfl

/-- A byte that a write stores is settled after it. -/
theorem settled_physWrite (hs : Canonical s) (x : Nat) (hhost : q.host = p.host) (hlo : q.addr ≤ p.addr)
    (hhi : p.addr < q.addr + bs.length) : (s.physWrite x q bs).Settled p := by
  intro z hz
  rw [State.physWrite, l2_homeWrite] at hz
  exact settled_holdWritten (hs.countAt x q bs.length) hhost hlo hhi z hz

theorem homeByte_physWrite (hs : Canonical s) (x : Nat) : (s.physWrite x q bs).homeByte p =
    if q.host = p.host ∧ q.addr ≤ p.addr ∧ p.addr < q.addr + bs.length then bs.getD (p.addr - q.addr) 0
    else ((s.countAt x q bs.length).holdWritten (x / 4096) q bs.length).homeByte p := homeByte_homeWrite (hs.countAt x q bs.length)

theorem behindByte_homeWrite : (s.homeWrite part q bs).behindByte p = (s.holdWritten part q bs.length).behindByte p := by
  rw [homeWrite_eq]
  unfold State.behindByte State.unpoison
  cases q.host <;> rfl

/-! ### A write behind the L2 -/

theorem read_writes {m : Memory} (hwf : m.wf = true) (a x : Nat) : ∀ {new : List (Byte × Nat)}, (∀ b ∈ new, a + b.2 ≠ x) →
    (new.foldl (fun (m : Memory) (b : Byte × Nat) => m.write (a + b.2) b.1) m).read x = m.read x := by
  intro new
  induction new generalizing m with
  | nil => exact fun _ => rfl
  | cons b new ih =>
    intro h
    rw [List.foldl_cons, ih (Memory.wf_write hwf _ _) fun b hb => h b (List.mem_cons_of_mem _ hb), Memory.read_write hwf,
      if_neg (h b List.mem_cons_self)]

theorem behindByte_behindWrite (hs : Canonical s) (x : Nat) : (s.behindWrite x q bs).behindByte p =
    if q.host = p.host ∧ q.addr ≤ p.addr ∧ p.addr < q.addr + bs.length then bs.getD (p.addr - q.addr) 0 else s.behindByte p := by
  obtain ⟨-, hdram, -, hbehind, -, -⟩ := hs
  have hdram' := Memory.read_writeN bs hdram q.addr p.addr
  have hbehind' := Memory.read_writeN bs hbehind q.addr p.addr
  unfold State.behindWrite State.behindByte
  cases hq : q.host <;> cases hp : p.host <;> simp [State.unpoison, State.countAt, hdram', hbehind']

theorem homeByte_behindWrite_of_not (hs : Canonical s) (x : Nat)
    (hp : ¬(q.host = p.host ∧ q.addr ≤ p.addr ∧ p.addr < q.addr + bs.length)) : (s.behindWrite x q bs).homeByte p = s.homeByte p := by
  obtain ⟨hdev, -, hhost, -, -, -⟩ := hs
  have hout : q.host = p.host → ∀ b ∈ bs.zipIdx.filter fun b => !s.l2Has q.host ((q.addr + b.2) / 128), q.addr + b.2 ≠ p.addr := by
    intro hh b hb
    have hlt := List.snd_lt_of_mem_zipIdx (List.mem_filter.1 hb).1
    exact fun heq => hp ⟨hh, by omega, by omega⟩
  unfold State.behindWrite State.homeByte
  cases hq : q.host <;> cases hph : p.host <;> rw [hq, hph] at hout <;> simp only [State.unpoison, State.countAt]
  · exact read_writes hdev _ _ (hout rfl)
  · rfl
  · rfl
  · exact read_writes hhost _ _ (hout rfl)

theorem l2_behindWrite (x : Nat) : (s.behindWrite x q bs).l2 = s.l2 := by
  unfold State.behindWrite
  dsimp only
  split <;> rfl

/-! ### What is stored, and what is not -/

/-- Bytes of some places alone are stored: a canonical memory stays canonical, and every other byte is kept as `ByteKept` says. -/
def StoredIn (stored : Phys → Prop) (s t : State) : Prop := Canonical s → Canonical t ∧ ∀ p, ¬stored p → ByteKept s t p

variable {stored : Phys → Prop}

theorem StoredIn.trans (h : StoredIn stored s t) (g : StoredIn stored t u) : StoredIn stored s u := by
  intro hs
  obtain ⟨ht, hst⟩ := h hs
  obtain ⟨hu, htu⟩ := g ht
  exact ⟨hu, fun p hp => (hst p hp).trans (htu p hp)⟩

theorem StoredIn.mono {stored' : Phys → Prop} (h : StoredIn stored s t) (hsub : ∀ p, stored p → stored' p) : StoredIn stored' s t :=
  fun hs => ⟨(h hs).1, fun p hp => (h hs).2 p (mt (hsub p) hp)⟩

theorem MemoryKept.storedIn (h : MemoryKept s t) : StoredIn stored s t := fun hs => ⟨(h hs).1, fun p _ => (h hs).2 p⟩

theorem StoredIn.refilled (h : StoredIn stored s t) (hs : Canonical s) : Refilled s t stored where
  home p hp := by
    cases (h hs).2 p hp with
    | stays home _ _ => exact .inl home
    | written home _ => exact .inl home
    | dropped home _ clean => exact .inr ⟨home, clean⟩
  behind p hp := by
    cases (h hs).2 p hp with
    | stays _ behind _ => exact .inl behind
    | written _ behind => exact .inr behind
    | dropped _ behind _ => exact .inl behind

theorem isIn_singleton {p q : Phys} {n : Nat} : isIn [(q, n)] p ↔ q.host = p.host ∧ q.addr ≤ p.addr ∧ p.addr < q.addr + n := by
  simp [isIn]

theorem dirtyByte_of_l2 (h : t.l2 = s.l2) (hd : s.dirtyByte p) : t.dirtyByte p := by
  unfold State.dirtyByte State.l2Has at hd ⊢
  rwa [h]

theorem storedIn_homeWrite : StoredIn (isIn [(q, bs.length)]) s (s.homeWrite part q bs) := by
  intro hs
  refine ⟨hs.homeWrite part q bs, fun p hp => ?_⟩
  rw [isIn_singleton] at hp
  refine (((readsOnly_holdWritten s part q bs.length).kept hs).2 p).trans (.stays ?_ behindByte_homeWrite (dirtyByte_of_l2 l2_homeWrite))
  rw [homeByte_homeWrite hs, if_neg hp]

theorem storedIn_behindWrite (x : Nat) : StoredIn (isIn [(q, bs.length)]) s (s.behindWrite x q bs) := by
  intro hs
  refine ⟨hs.behindWrite x q bs, fun p hp => ?_⟩
  rw [isIn_singleton] at hp
  refine .stays (homeByte_behindWrite_of_not hs x hp) ?_ (dirtyByte_of_l2 (l2_behindWrite x))
  rw [behindByte_behindWrite hs, if_neg hp]

theorem storedIn_pageWrite (y : Xlated) : StoredIn (isIn [(y.phys, bs.length)]) s (s.pageWrite y bs) := by
  unfold State.pageWrite
  split
  · exact storedIn_behindWrite _
  · exact ((readsOnly_countAt s y.item.ctx y.phys bs.length).kept.storedIn).trans storedIn_homeWrite

theorem storedIn_writePieces : ∀ (ts : List (Xlated × Nat)) (bs : List Byte) (s : State),
    StoredIn (isIn (ts.map fun y => (y.1.phys, y.2))) s (State.writePieces ts bs s)
  | [], _, s => (ReadsOnly.rfl' s).kept.storedIn
  | (y, n) :: ts, bs, s => by
    refine StoredIn.trans ((storedIn_pageWrite y).mono fun p hp => ?_) ((storedIn_writePieces ts (bs.drop n) _).mono fun p hp => ?_)
    · rw [isIn_singleton, List.length_take] at hp
      exact ⟨(y.phys, n), List.mem_cons_self, hp.1, hp.2.1, lt_of_lt_of_le hp.2.2 (by simp)⟩
    · obtain ⟨z, hz, hin⟩ := hp
      exact ⟨z, List.mem_cons_of_mem _ hz, hin⟩

/-! ### The value of a stored byte -/

theorem writePieces_append : ∀ (pre post : List (Xlated × Nat)) (bs : List Byte) (s : State), State.writePieces (pre ++ post) bs s =
    State.writePieces post (bs.drop (pre.map (·.2)).sum) (State.writePieces pre bs s)
  | [], _, _, _ => rfl
  | (y, n) :: pre, post, bs, s => by
    rw [List.cons_append, State.writePieces, writePieces_append pre post, State.writePieces, List.drop_drop, List.map_cons, List.sum_cons]

/-- A piece within a page that is not the page of a byte. -/
def Apart (y : Xlated × Nat) (p : Phys) : Prop :=
  y.1.phys.addr % 4096 + y.2 ≤ 4096 ∧ ¬(y.1.phys.host = p.host ∧ y.1.phys.addr / 4096 = p.addr / 4096)

variable {y : Xlated × Nat}

theorem Apart.not_in (h : Apart y p) (hn : bs.length ≤ y.2) :
    ¬(y.1.phys.host = p.host ∧ y.1.phys.addr ≤ p.addr ∧ p.addr < y.1.phys.addr + bs.length) := by
  obtain ⟨hpage, hframe⟩ := h
  rintro ⟨hhost, hlo, hhi⟩
  exact hframe ⟨hhost, by omega⟩

theorem Apart.line_notMem (h : Apart y p) (hn : n ≤ y.2) (hhost : y.1.phys.host = p.host) : p.line ∉ linesFrom y.1.phys.addr n := by
  obtain ⟨hpage, hframe⟩ := h
  intro hl
  obtain ⟨hlo, hhi, h0⟩ := of_mem_linesFrom hl
  rw [Phys.line] at hlo hhi
  refine hframe ⟨hhost, ?_⟩
  omega

theorem settledKept_pageWrite (hkind : y.1.item.kind ≠ .uncached) (h : Apart y p) (hn : bs.length ≤ y.2) :
    SettledKept s (s.pageWrite y.1 bs) p := by
  intro hs hp
  have hline := h.line_notMem hn
  have hheld := settledKept_holdWritten (s := s.countAt y.1.item.ctx y.1.phys bs.length) (part := y.1.item.ctx / 4096) (q := y.1.phys)
    (n := bs.length) (fun hhost hl => absurd hl (hline hhost)) hs hp
  rw [State.pageWrite, if_neg hkind]
  refine ⟨fun z hz => hheld.1 z ?_, ?_⟩
  · rwa [State.physWrite, l2_homeWrite] at hz
  · rw [homeByte_physWrite hs, if_neg (h.not_in hn)]
    exact hheld.2

theorem behindByte_pageWrite_of_apart (hs : Canonical s) (hkind : y.1.item.kind = .uncached) (h : Apart y p) (hn : bs.length ≤ y.2) :
    (s.pageWrite y.1 bs).behindByte p = s.behindByte p := by
  rw [State.pageWrite, if_pos hkind, behindByte_behindWrite hs, if_neg (h.not_in hn)]

/-- Pieces of other pages leave a settled byte its value, at home. -/
theorem settledKept_writePieces : ∀ (ts : List (Xlated × Nat)) (bs : List Byte) (s : State),
    (∀ z ∈ ts, z.1.item.kind ≠ .uncached) → (∀ z ∈ ts, Apart z p) → SettledKept s (State.writePieces ts bs s) p
  | [], _, _, _, _ => fun _ h => ⟨h, rfl⟩
  | (y, n) :: ts, bs, s, hkind, hapart => by
    obtain ⟨hy, hts⟩ := List.forall_mem_cons.1 hkind
    obtain ⟨hy', hts'⟩ := List.forall_mem_cons.1 hapart
    exact SettledKept.trans (fun h => h.pageWrite _ _)
      (settledKept_pageWrite (y := (y, n)) hy hy' (List.length_take_le ..)) (settledKept_writePieces ts _ _ hts hts')

/-- Pieces of other uncached pages leave a byte its value behind the L2. -/
theorem behindByte_writePieces : ∀ (ts : List (Xlated × Nat)) (bs : List Byte) (s : State), Canonical s →
    (∀ z ∈ ts, z.1.item.kind = .uncached) → (∀ z ∈ ts, Apart z p) → (State.writePieces ts bs s).behindByte p = s.behindByte p
  | [], _, _, _, _, _ => rfl
  | (y, n) :: ts, bs, s, hs, hkind, hapart => by
    obtain ⟨hy, hts⟩ := List.forall_mem_cons.1 hkind
    obtain ⟨hy', hts'⟩ := List.forall_mem_cons.1 hapart
    exact (behindByte_writePieces ts _ _ (hs.pageWrite _ _) hts hts').trans
      (behindByte_pageWrite_of_apart (y := (y, n)) hs hy hy' (List.length_take_le ..))

/-- A unit's write stores its bytes at the translated pieces and nowhere else. -/
theorem stores_writePieces {s1 : State} (hx : XlatOnly s s1) (ts : List (Xlated × Nat)) (bs : List Byte) (hs : Canonical s) :
    Stores s (State.writePieces ts bs s1) ts bs where
  rest := ((hx.readsOnly.kept.storedIn).trans (storedIn_writePieces ts bs s1)).refilled hs
  value := by
    rintro hpage hframes pre post ⟨y, k⟩ i rfl hi hlen
    dsimp only at hi ⊢
    have hs1 : Canonical s1 := (hx.readsOnly.kept hs).1
    have hs2 : Canonical (State.writePieces pre bs s1) := (storedIn_writePieces pre bs s1 hs1).1
    have hypage := hpage (y, k) (by simp)
    have hapart : ∀ z ∈ post, Apart z { y.phys with addr := y.phys.addr + i } := by
      intro z hz
      refine ⟨hpage z (by simp [hz]), fun ⟨hhost, hframe⟩ => ?_⟩
      rw [List.map_append, List.map_cons] at hframes
      obtain ⟨hy, -⟩ := List.nodup_cons.1 (List.nodup_append.1 hframes).2.1
      refine hy (List.mem_map.2 ⟨z, hz, Prod.ext hhost ?_⟩)
      rw [hframe]
      dsimp only at hypage ⊢
      omega
    have hlt : y.phys.addr + i < y.phys.addr + ((bs.drop (pre.map (·.2)).sum).take k).length := by
      rw [List.length_take, List.length_drop]
      omega
    have hget : ((bs.drop (pre.map (·.2)).sum).take k).getD (y.phys.addr + i - y.phys.addr) 0 =
        bs.getD ((pre.map (·.2)).sum + i) 0 := by
      rw [Nat.add_sub_cancel_left, List.getD_eq_getElem?_getD, List.getElem?_take_of_lt hi, List.getElem?_drop,
        ← List.getD_eq_getElem?_getD]
    rw [writePieces_append, State.writePieces]
    refine ⟨fun hkind => ?_, fun hkind => ?_⟩
    · have hy : y.item.kind ≠ .uncached := hkind (y, k) (by simp)
      have hpost : ∀ z ∈ post, z.1.item.kind ≠ .uncached := fun z hz => hkind z (by simp [hz])
      have hsettled := settled_physWrite (q := y.phys) (p := { y.phys with addr := y.phys.addr + i }) hs2 y.item.ctx rfl
        (Nat.le_add_right ..) hlt
      rw [State.pageWrite, if_neg hy]
      rw [(settledKept_writePieces post _ _ hpost hapart (hs2.physWrite ..) hsettled).2, homeByte_physWrite hs2,
        if_pos ⟨rfl, Nat.le_add_right .., hlt⟩, hget]
    · have hy : y.item.kind = .uncached := hkind (y, k) (by simp)
      have hpost : ∀ z ∈ post, z.1.item.kind = .uncached := fun z hz => hkind z (by simp [hz])
      rw [behindByte_writePieces post _ _ (hs2.pageWrite ..) hpost hapart, State.pageWrite, if_pos hy, behindByte_behindWrite hs2,
        if_pos ⟨rfl, Nat.le_add_right .., hlt⟩, hget]

end Sys2Proof.Machine

end

section
/-! SUPPORT. Operations of class X in their core: changing one, ending one, and what its warp is left with (06 R114, R120; 10 R201). -/

namespace Sys2Proof.Machine

variable {s : State} {c x : Nat} {o : XOp} {w : Warp}

/-! ### Changing an operation -/

theorem modX_eq (ho : (s.core c).xq.get? x = some o) (f : XOp → XOp) :
    s.modX c x f = s.setCore c { s.core c with xq := (s.core c).xq.put x (f o) } := by
  rw [State.modX, State.modCore, ho]

theorem core_modX (ho : (s.core c).xq.get? x = some o) (f : XOp → XOp) :
    (s.modX c x f).core c = { s.core c with xq := (s.core c).xq.put x (f o) } := by
  rw [modX_eq ho, core_setCore_self]

theorem modX_state (s : State) (c x : Nat) (f : XOp → XOp) : s.modX c x f = { s with cores := (s.modX c x f).cores } := rfl

theorem core_modX_ne {k : Nat} (hk : k ≠ c) (f : XOp → XOp) : (s.modX c x f).core k = s.core k := by
  rw [State.modX, State.modCore, core_setCore, if_neg hk.symm]

theorem xq_modX (ho : (s.core c).xq.get? x = some o) (f : XOp → XOp) : ((s.modX c x f).core c).xq.get? x = some (f o) := by
  rw [core_modX ho, Tab.get?_put_self]

/-- A running operation at its next row or unit. -/
theorem nextRow_running (h : o.stage = .running) (n : Nat) : o.nextRow n = { o with units := n, row := [], got := [] } := by
  rw [XOp.nextRow, ← h]

/-! ### Removing an operation -/

/-- A warp that differs from `w` in its stall alone. -/
def Warp.StallOnly (w y : Warp) : Prop := y = { w with stall := y.stall, timeout := y.timeout }

/-- What becomes of a core whose array may be given up: its order and, but for stalls that end, its warps stay. -/
theorem releaseArray_keeps (k : Core) (i : Nat) : k.releaseArray.xq = k.xq ∧
    ∃ f : Warp → Warp, (∀ w : Warp, w.StallOnly (f w)) ∧ k.releaseArray.warps.get? i = (k.warps.get? i).map f := by
  have hsame : ∃ f : Warp → Warp, (∀ w : Warp, w.StallOnly (f w)) ∧ k.warps.get? i = (k.warps.get? i).map f :=
    ⟨id, fun _ => rfl, by simp⟩
  have hclear : ∃ f : Warp → Warp, (∀ w : Warp, w.StallOnly (f w)) ∧ k.clearArray.warps.get? i = (k.warps.get? i).map f :=
    ⟨fun w => w.clearStall fun t => t == .array, fun w => clearStall_eq w _,
      Tab.get?_mapVals k.warps i fun _ w => w.clearStall fun t => t == .array⟩
  unfold Core.releaseArray
  split
  · split
    · exact ⟨rfl, hclear⟩
    · exact ⟨rfl, hsame⟩
  · split
    · exact ⟨rfl, hsame⟩
    · split
      · exact ⟨rfl, hclear⟩
      · exact ⟨rfl, hsame⟩

theorem xq_deleteX (s : State) (c x : Nat) : ((s.deleteX c x).core c).xq = (s.core c).xq.del x := by
  rw [State.deleteX, State.modCore, core_setCore_self, (releaseArray_keeps _ 0).1]

theorem warp?_deleteX {i : Nat} (hw : s.warp? c i = some w) (x : Nat) : ∃ y, (s.deleteX c x).warp? c i = some y ∧ w.StallOnly y := by
  obtain ⟨-, f, hf, hget⟩ := releaseArray_keeps { s.core c with xq := (s.core c).xq.del x } i
  refine ⟨f w, ?_, hf w⟩
  rw [State.warp?] at hw
  rw [State.deleteX, State.modCore, State.warp?, core_setCore_self, hget, hw, Option.map_some]

theorem mem_of_get? {α : Type} {t : Tab α} {k : Nat} {v : α} (h : t.get? k = some v) : (k, v) ∈ t := by
  induction t with
  | nil => cases h
  | cons e t ih =>
    obtain ⟨j, y⟩ := e
    rw [Tab.get?] at h
    split at h
    · next hj => cases h; rw [hj]; exact List.mem_cons_self
    · exact List.mem_cons_of_mem _ (ih h)

/-- The array stays with an owner that holds a warp on the core. -/
theorem releaseArray_owned {k : Core} {i : Nat} (hw : k.warps.get? i = some w) (howner : k.owner = some w.ctx) :
    k.releaseArray = k := by
  have hany : (k.warps.any fun y => y.2.ctx == w.ctx) = true :=
    List.any_eq_true.2 ⟨(i, w), mem_of_get? hw, beq_self_eq_true _⟩
  simp only [Core.releaseArray, howner, hany, if_true]

theorem deleteX_owned {i : Nat} (hw : s.warp? c i = some w) (howner : (s.core c).owner = some w.ctx) (x : Nat) :
    s.deleteX c x = s.setCore c { s.core c with xq := (s.core c).xq.del x } := by
  rw [State.deleteX, State.modCore]
  exact congrArg (s.setCore c) (releaseArray_owned (i := i) hw howner)

/-! ### Ending an operation -/

/-- The warp of an operation that has ended with a status. -/
def XOp.ended (o : XOp) (status : Word) (w : Warp) : Warp :=
  let w1 := if xCounted o.instr then w.endTile o.dest else w
  if o.dest.name = 511 then w1 else w1.complete o.dest 1 fun _ => [status]

/-- An ended operation leaves its order, and its warp as `XOp.ended` says. -/
theorem endX_eq {status : Word} (hw : (s.deleteX c x).warp? c o.slot = some w) (hwid : w.wid = o.wid) (hev : w.evicted = false) :
    s.endX c x o status = (s.deleteX c x).setWarp c o.slot (o.ended status w) := by
  have hcount : (s.deleteX c x).modWarp c o.slot (fun w => if w.wid != o.wid || !xCounted o.instr then w else w.endTile o.dest) =
      (s.deleteX c x).setWarp c o.slot (if xCounted o.instr then w.endTile o.dest else w) := by
    rw [modWarp_eq hw, hwid, bne_self_eq_false, Bool.false_or]
    cases xCounted o.instr <;> rfl
  have hkeep : (if xCounted o.instr then w.endTile o.dest else w).wid = o.wid ∧
      (if xCounted o.instr then w.endTile o.dest else w).evicted = false := by
    split
    · rw [Warp.endTile, clearStall_eq]
      exact ⟨hwid, hev⟩
    · exact ⟨hwid, hev⟩
  rw [State.endX, hcount]
  unfold XOp.ended
  dsimp only
  split
  · rfl
  · rw [← hkeep.1, completeOwed_eq (warp?_setWarp_self ..) hkeep.2, setWarp_setWarp]

theorem xq_setWarp (s : State) (c i : Nat) (w : Warp) : ((s.setWarp c i w).core c).xq = (s.core c).xq := by
  rw [State.setWarp, core_setCore_self]

variable {status : Word}

/-- What the end of an operation leaves of its warp: beside its status, its counters and its stall, everything. -/
theorem ended_frame (o : XOp) (status : Word) (w : Warp) : o.ended status w = { w with
    names := (o.ended status w).names, kregs := (o.ended status w).kregs, stall := (o.ended status w).stall
    timeout := (o.ended status w).timeout, tiles := if xCounted o.instr then w.tiles - 1 else w.tiles
    unread := if xCounted o.instr then (w.endOp true o.dest.name).unread else w.unread } := by
  unfold XOp.ended
  dsimp only
  cases xCounted o.instr
  · simp only [Bool.false_eq_true, if_false]
    split
    · rfl
    · rw [complete_frame]
  · simp only [if_true]
    split
    · rw [Warp.endTile, clearStall_eq]; rfl
    · rw [complete_frame, Warp.endTile, clearStall_eq]; rfl

theorem mem_endOp (w : Warp) (name : BitVec 9) : (true, name.toNat) ∈ (w.endOp true name).unread :=
  List.mem_append_right _ (List.mem_singleton_self _)

theorem constituents_one {n : BitVec 9} (h : n.toNat ≠ 511) : constituents n 1 = [n.toNat] := by
  rw [constituents, if_neg h]
  rfl

theorem ne_none_of_isV {n : BitVec 9} (h : isV n.toNat = true) : n.toNat ≠ 511 := by
  intro h'
  rw [h'] at h
  exact absurd h (by decide)

theorem ne_none_of_isK {n : BitVec 9} (h : isK n.toNat = true) : n.toNat ≠ 511 := by
  intro h'
  rw [h'] at h
  exact absurd h (by decide)

/-- A completed destination holds its value with its count in the lanes that still take it. -/
theorem complete_value {d : Dest} {v : Word} (hv : isV d.name.toNat = true) (hc : d.count ≠ 0) {l : Nat} (hl : l < 32)
    (ho : laneOn (d.lanes &&& w.live) l = true) :
    (w.complete d 1 fun _ => [v]).val d.name.toNat l = v ∧ (w.complete d 1 fun _ => [v]).count d.name.toNat l = d.count := by
  have hname := constituents_one (ne_none_of_isV hv)
  have hk : isK d.name.toNat = false := by
    cases hk : isK d.name.toNat
    · rfl
    · rw [not_isV_of_isK hk] at hv; cases hv
  have howed : laneOn (w.owedLanes d) l = true := by
    rw [Warp.owedLanes, hk]
    exact ho
  have hcount : (w.complete d 1 fun _ => [v]).count d.name.toNat l = d.count := by
    rw [Warp.complete, count_completeIn _ _ _ _ _ _ hl, if_pos ⟨by rw [hname]; exact List.mem_singleton_self _, hv, hc, howed⟩]
  refine ⟨?_, hcount⟩
  rw [val_eq_datum _ hv, Warp.complete, datum_completeIn _ _ _ _ _ (by rw [← Warp.complete, hcount]; exact hc)]
  rw [datum_writeNames _ _ _ _ _ 0 0 d.name.toNat hl (constituents_nodup ..) (by rw [hname]; rfl) hv hc howed]
  rfl

/-- A completed uniform destination holds its value while the warp has not exited. -/
theorem complete_uniform {d : Dest} {v : Word} (hk : isK d.name.toNat = true) (hlive : w.live ≠ 0) (hlanes : d.lanes ≠ 0) (l : Nat) :
    (w.complete d 1 fun _ => [v]).val d.name.toNat l = v := by
  have hname := constituents_one (ne_none_of_isK hk)
  have howed : w.owedLanes d = d.lanes := by
    rw [Warp.owedLanes, if_pos hk, if_neg hlive]
  rw [Warp.complete, kreg_completeIn _ _ _ _ _ hk, howed]
  rw [kreg_writeNames _ _ _ _ _ 0 0 d.name.toNat l (constituents_nodup ..) (by rw [hname]; rfl) hk hlanes]
  rfl

/-- The status of an ended operation, in its destination. -/
theorem ended_value (hv : isV o.dest.name.toNat = true) (hc : o.dest.count ≠ 0) {l : Nat} (hl : l < 32)
    (ho : laneOn (o.dest.lanes &&& w.live) l = true) :
    (o.ended status w).val o.dest.name.toNat l = status ∧ (o.ended status w).count o.dest.name.toNat l = o.dest.count := by
  have hname : o.dest.name ≠ 511 := fun h => ne_none_of_isV hv (by rw [h]; rfl)
  unfold XOp.ended
  dsimp only
  rw [if_neg hname]
  refine complete_value hv hc hl ?_
  split
  · rw [Warp.endTile, clearStall_eq]
    exact ho
  · exact ho

theorem ended_uniform (hk : isK o.dest.name.toNat = true) (hlive : w.live ≠ 0) (hlanes : o.dest.lanes ≠ 0) (l : Nat) :
    (o.ended status w).val o.dest.name.toNat l = status := by
  have hname : o.dest.name ≠ 511 := fun h => ne_none_of_isK hk (by rw [h]; rfl)
  unfold XOp.ended
  dsimp only
  rw [if_neg hname]
  refine complete_uniform hk ?_ hlanes l
  split
  · rw [Warp.endTile, clearStall_eq]
    exact hlive
  · exact hlive

end Sys2Proof.Machine

end

section
/-! SUPPORT. The next row of MMT and MMTX: what each tag and stratum makes of it (06 R120, R121, R125; 10 R209, R210, R212). -/

namespace Sys2Proof.Machine

variable {s s1 t : State} {c x : Nat} {o : XOp} {w : Warp} {h : Hdr} {f : XF}

/-- A held instruction whose next row or block is done, or waits. -/
theorem exec_rowWaitEnd {r : RowStep} (ho : (s.core c).xq.get? x = some o) (hheld : xHeld o.instr = true)
    (hr : r = .done ∨ r = .wait) (hrow : s.rowNext c x = (r, t)) : exec (.matrixRowWaitEnd c x) s = .next t := by
  show execMatrixRowWaitEnd c x s = _
  unfold execMatrixRowWaitEnd
  rw [ho]
  dsimp only
  rw [if_pos hheld, hrow]
  rcases hr with rfl | rfl <;> rfl

/-- The next row of a running instruction with rows left. -/
theorem rowNext_mmt (ho : (s.core c).xq.get? x = some o) (hrun : o.stage = .running) (hm : o.units < f.rows.toNat) {across : Bool}
    (hi : o.instr = if across then .mmtx h f else .mmt h f) : s.rowNext c x = s.mmtNext c x o f across := by
  have htotal : xTotal o.instr o.fmt o.copy = f.rows.toNat := by cases across <;> rw [hi] <;> rfl
  unfold State.rowNext
  rw [ho]
  dsimp only
  rw [htotal, hrun, if_neg (by simp [hm])]
  cases across <;> rw [hi] <;> rfl

/-! ### What a tag makes of a row -/

variable {tag : Byte} {across : Bool}

/-- The stratum of a tag. -/
def tagStratum (tag : Byte) : Nat := (tag.extractLsb' 0 3).toNat

/-- A stratum that is not resident to an operation (06 R120). -/
def XOp.Absent (o : XOp) (k : Core) (x j : Nat) : Prop :=
  o.nonres.contains j = true ∨ ((k.stratum j).state = .empty ∧ k.changing x j = false)

theorem absent_iff {k : Core} {j : Nat} :
    (o.nonres.contains j || (!k.changing x j && (k.stratum j).state == .empty)) = true ↔ o.Absent k x j := by
  simp [XOp.Absent, and_comm]

theorem not_absent_iff {k : Core} {j : Nat} : ¬o.Absent k x j ↔
    o.nonres.contains j = false ∧ (k.changing x j = true ∨ ((k.stratum j).state == .empty) = false) := by
  rw [← absent_iff, Bool.not_eq_true, Bool.or_eq_false_iff, Bool.and_eq_false_iff, Bool.not_eq_false']

theorem mmtNext_invalid (htag : s.tagOf c o f o.units = some tag) (hv : tag.getLsbD 3 = false) :
    s.mmtNext c x o f across = (.done, s.modX c x fun o' => o'.nextRow (o.units + 1)) := by
  unfold State.mmtNext
  simp only [htag, hv, Bool.not_false, if_true]

section
variable (htag : s.tagOf c o f o.units = some tag) (hv : tag.getLsbD 3 = true)
include htag hv

theorem mmtNext_absent (ha : o.Absent (s.core c) x (tagStratum tag)) : s.mmtNext c x o f across =
    if f.skip then (.done, (s.tally (s.partOfCore c) 48 1).modX c x fun o' => { o'.nextRow (o.units + 1) with skipped := true })
    else (.fault (rowFault cTagMiss o.units (tagStratum tag)), s.tally (s.partOfCore c) 48 1) := by
  have hcond := absent_iff.2 ha
  unfold tagStratum at hcond
  unfold State.mmtNext
  simp only [htag, hv, Bool.not_true, Bool.false_eq_true, if_false, hcond, if_true]
  rfl

variable (ha : ¬o.Absent (s.core c) x (tagStratum tag))
include ha

theorem mmtNext_changing (hc : (s.core c).changing x (tagStratum tag) = true) :
    s.mmtNext c x o f across = (.wait, s.modX c x fun o' => o'.keepRow o.units tag none) := by
  obtain ⟨hnon, -⟩ := not_absent_iff.1 ha
  unfold tagStratum at hnon hc
  unfold State.mmtNext
  simp only [htag, hv, hnon, hc, Bool.not_true, Bool.false_and, Bool.or_self, Bool.false_eq_true, if_false, if_true]

variable (hc : (s.core c).changing x (tagStratum tag) = false)
include hc

theorem mmtNext_otherFormat (hfmt : ((s.core c).stratum (tagStratum tag)).bfmt ≠ slotB o.fmt ∨
    ((s.core c).stratum (tagStratum tag)).scale ≠ slotScale o.fmt) :
    s.mmtNext c x o f across = (.fault (rowFault cFieldReserved o.units (tagStratum tag)), s) := by
  obtain ⟨hnon, hstate⟩ := not_absent_iff.1 ha
  rw [hc, eq_false Bool.false_ne_true, false_or] at hstate
  have hother : (((s.core c).stratum (tagStratum tag)).bfmt != slotB o.fmt ||
      ((s.core c).stratum (tagStratum tag)).scale != slotScale o.fmt) = true := by simpa using hfmt
  unfold tagStratum at hnon hstate hc hother ⊢
  unfold State.mmtNext
  simp only [htag, hv, Bool.not_true, Bool.false_eq_true, if_false, hnon, hstate, hc, hother, if_true,
    Bool.and_false, Bool.or_self]

/-- The row of the tile that a row of A gives, with its flags. -/
def XOp.rowResult (o : XOp) (k : Core) (f : XF) (across : Bool) (j : Nat) (raw : List Byte) (rs : Option Word) : List Word × BitVec 8 :=
  if across then mmtxRow o.fmt (o.base.extractLsb' 48 3).toNat raw (k.stratum j) rs (k.tileRow f.acc.toNat o.units) (o.draw o.units)
  else mmtRow o.fmt raw (k.stratum j) rs (k.tileRow f.acc.toNat o.units) (o.draw o.units)

theorem mmtNext_commit (hfmt : ((s.core c).stratum (tagStratum tag)).bfmt = slotB o.fmt)
    (hscale : ((s.core c).stratum (tagStratum tag)).scale = slotScale o.fmt) {rs : Option Word} (hrs : s.rowScaleOf c o f o.units = some rs)
    {raw : List Byte} (hread : s.sourceRead (.array c) o.ctx (o.rowAddr f o.units) (rowBytes o.fmt across) false (.array c x) o.got =
      (.ok raw, s1)) :
    s.mmtNext c x o f across = (.done,
      ((s1.modCore c fun k => { k with
          tiles := k.tiles.put (256 * f.acc.toNat + o.units)
            (o.rowResult (s.core c) f across (tagStratum tag) raw rs).1 }).tally (s.partOfCore c) 24 1).modX c x fun o' =>
          { o'.nextRow (o.units + 1) with
            contrib := o'.contrib + 1, flags := o'.flags ||| (o.rowResult (s.core c) f across (tagStratum tag) raw rs).2 }) := by
  obtain ⟨hnon, hstate⟩ := not_absent_iff.1 ha
  rw [hc, eq_false Bool.false_ne_true, false_or] at hstate
  unfold tagStratum at hnon hstate hc hfmt hscale ⊢
  unfold State.mmtNext
  simp only [htag, hv, Bool.not_true, Bool.false_eq_true, if_false, hnon, hstate, hc, hfmt, hscale, Bool.and_false,
    bne_self_eq_false, Bool.or_self, hrs, hread]
  rfl

end

/-! ### Rows that pass, wait and commit -/

theorem tileRow_put {k : Core} {a m : Nat} (hm : m < 256) (row : List Word) (b : Nat) {r : Nat} (hr : r < 256) :
    Core.tileRow { k with tiles := k.tiles.put (256 * a + m) row } b r = if b = a ∧ r = m then row else k.tileRow b r := by
  unfold Core.tileRow
  rw [Tab.getD_put]
  exact if_congr (by omega) rfl rfl

section
variable (ho : (s.core c).xq.get? x = some o) (hrun : o.stage = .running) (hm : o.units < f.rows.toNat)
  (hi : o.instr = if across then .mmtx h f else .mmt h f)
include ho hrun hm hi

theorem exec_mmt {r : RowStep} (hr : r = .done ∨ r = .wait) (hrow : s.mmtNext c x o f across = (r, t)) :
    exec (.matrixRowWaitEnd c x) s = .next t := by
  refine exec_rowWaitEnd ho ?_ hr ((rowNext_mmt ho hrun hm hi).trans hrow)
  cases across <;> rw [hi] <;> rfl

/-- A row with an invalid tag passes without effect. -/
theorem row_invalid (htag : s.tagOf c o f o.units = some tag) (hv : tag.getLsbD 3 = false) :
    ∃ t, exec (.matrixRowWaitEnd c x) s = .next t ∧
      (t.core c).xq.get? x = some { o with units := o.units + 1, row := [], got := [] } ∧ (t.core c).tiles = (s.core c).tiles ∧
      t = { s with cores := t.cores } := by
  refine ⟨_, exec_mmt ho hrun hm hi (.inl rfl) (mmtNext_invalid htag hv), ?_, by rw [core_modX ho], rfl⟩
  rw [xq_modX ho, nextRow_running hrun]

variable (htag : s.tagOf c o f o.units = some tag) (hv : tag.getLsbD 3 = true)
include htag hv

/-- A row whose stratum is not resident passes under the skip policy. -/
theorem row_skipped (ha : o.Absent (s.core c) x (tagStratum tag)) (hskip : f.skip = true) :
    ∃ t, exec (.matrixRowWaitEnd c x) s = .next t ∧
      (t.core c).xq.get? x = some { o with units := o.units + 1, row := [], got := [], skipped := true } ∧
      (t.core c).tiles = (s.core c).tiles := by
  have ho' : ((s.tally (s.partOfCore c) 48 1).core c).xq.get? x = some o := ho
  refine ⟨_, exec_mmt ho hrun hm hi (.inl rfl) ((mmtNext_absent htag hv ha).trans (if_pos hskip)), ?_, by rw [core_modX ho']; rfl⟩
  rw [xq_modX ho', nextRow_running hrun]

/-- A row whose stratum is still to change waits, its tag read once. -/
theorem row_waits (hc : (s.core c).changing x (tagStratum tag) = true) (hnon : o.nonres.contains (tagStratum tag) = false) :
    ∃ t, exec (.matrixRowWaitEnd c x) s = .next t ∧
      (t.core c).xq.get? x = some { o with row := o.row.put (2 * o.units) (tag.zeroExtend 32) } ∧
      (t.core c).tiles = (s.core c).tiles := by
  have ha : ¬o.Absent (s.core c) x (tagStratum tag) := not_absent_iff.2 ⟨hnon, .inl hc⟩
  exact ⟨_, exec_mmt ho hrun hm hi (.inr rfl) (mmtNext_changing htag hv ha hc), xq_modX ho _, by rw [core_modX ho]⟩

/-- A row whose stratum is resident with the slot's format is committed. -/
theorem row_commits (hm256 : o.units < 256) (hres : ((s.core c).stratum (tagStratum tag)).state = .resident)
    (hc : (s.core c).changing x (tagStratum tag) = false) (hnon : o.nonres.contains (tagStratum tag) = false)
    (hfmt : ((s.core c).stratum (tagStratum tag)).bfmt = slotB o.fmt)
    (hscale : ((s.core c).stratum (tagStratum tag)).scale = slotScale o.fmt) {rs : Option Word} (hrs : s.rowScaleOf c o f o.units = some rs)
    {raw : List Byte} (hread : s.sourceRead (.array c) o.ctx (o.rowAddr f o.units) (rowBytes o.fmt across) false (.array c x) o.got =
      (.ok raw, s1)) :
    ∃ t, exec (.matrixRowWaitEnd c x) s = .next t ∧
      (t.core c).xq.get? x = some { o with
        units := o.units + 1, row := [], got := [], contrib := o.contrib + 1
        flags := o.flags ||| (o.rowResult (s.core c) f across (tagStratum tag) raw rs).2 } ∧
      ∀ a r, r < 256 → (t.core c).tileRow a r =
        if a = f.acc.toNat ∧ r = o.units then (o.rowResult (s.core c) f across (tagStratum tag) raw rs).1
        else (s.core c).tileRow a r := by
  have ha : ¬o.Absent (s.core c) x (tagStratum tag) := not_absent_iff.2 ⟨hnon, .inr (by rw [hres]; rfl)⟩
  have hexec := exec_mmt ho hrun hm hi (.inl rfl) (mmtNext_commit htag hv ha hc hfmt hscale hrs hread)
  revert hexec
  generalize hS : (s1.modCore c _).tally (s.partOfCore c) 24 1 = S
  intro hexec
  have hcore : S.core c = { s.core c with
      tiles := (s.core c).tiles.put (256 * f.acc.toNat + o.units) (o.rowResult (s.core c) f across (tagStratum tag) raw rs).1 } := by
    rw [← hS, ← (readsOnly_sourceRead hread).core c]
    exact core_setCore_self ..
  have ho' : (S.core c).xq.get? x = some o := by rw [hcore]; exact ho
  refine ⟨_, hexec, ?_, fun a r hr => ?_⟩
  · rw [xq_modX ho', nextRow_running hrun]
  · rw [core_modX ho', hcore]
    exact tileRow_put hm256 _ a hr

end

/-! ### A stop (10 R212) -/

/-- The warp of a held instruction that has stopped partway. -/
def XOp.stopped (o : XOp) (w : Warp) : Warp :=
  { w.undoPending o.dest 1 with mrow := o.mrowWord, mflags := o.flags, stall := none, timeout := false, tiles := w.tiles - 1 }

theorem undoPending_frame (w : Warp) (d : Dest) (k : Nat) : w.undoPending d k = { w with
    names := (w.undoPending d k).names, kregs := (w.undoPending d k).kregs } := by
  unfold Warp.undoPending
  split
  · exact (namesOnly_settle w (constituents d.name k)).trans rfl
  · rfl

theorem stopped_frame (o : XOp) (w : Warp) : o.stopped w = { w with
    names := (o.stopped w).names, kregs := (o.stopped w).kregs, mrow := o.mrowWord, mflags := o.flags, stall := none, timeout := false
    tiles := w.tiles - 1 } := by
  rw [XOp.stopped, undoPending_frame]

theorem pendingName_undoPending (w : Warp) {d : Dest} (hv : isV d.name.toNat = true) (hc : d.count ≠ 0) :
    (w.undoPending d 1).pendingName d.name.toNat = false := by
  have hsettle : w.undoPending d 1 = (w.settle (constituents d.name 1)).sweep := if_pos (by simpa [hv] using hc)
  rw [hsettle, pendingName_sweep]
  refine pendingName_settle _ ?_
  rw [constituents_one (ne_none_of_isV hv)]
  exact List.mem_singleton_self _

/-- The last operation in its order stops, its context still on the core. -/
theorem stopX_alone (hw : s.warp? c o.slot = some w) (hwid : w.wid = o.wid) (howner : (s.core c).owner = some w.ctx)
    (hxq : (s.core c).xq = [(x, o)]) :
    s.stopX c x o = (s.setCore c { s.core c with xq := [] }).setWarp c o.slot (o.stopped w) := by
  have hdelete : s.deleteX c x = s.setCore c { s.core c with xq := [] } := by
    rw [deleteX_owned hw howner, hxq]
    simp [Tab.del]
  have hw' : (s.setCore c { s.core c with xq := [] }).warp? c o.slot = some w := by
    rw [State.warp?, core_setCore_self]
    exact hw
  rw [State.stopX, hdelete, modWarp_eq hw', hwid, bne_self_eq_false]
  have hempty : (((s.setCore c { s.core c with xq := [] }).setWarp c o.slot (o.stopped w)).core c).xq = [] := by
    rw [xq_setWarp, core_setCore_self]
  exact congrArg (fun q : Tab XOp => (q.map (·.1)).foldl (fun s n => s.startX c n)
    ((s.setCore c { s.core c with xq := [] }).setWarp c o.slot (o.stopped w))) hempty

/-- What a stop at a row leaves: the restart in sr.mrow, a tiles counter one lower, no status, and a precise fault of the code. -/
def XOp.Stops (o : XOp) (s : State) (c x : Nat) (w : Warp) (j : Nat) (code : BitVec 8) : Prop :=
  ∃ t w', exec (.matrixStop c x) s = .next t ∧ t.warp? c o.slot = some w' ∧
    (t.core c).xq = [] ∧ (t.core c).tiles = (s.core c).tiles ∧
    w'.traps = w.traps ++ [{ lanes := w.live, code := code, past := false }] ∧
    w'.mrow = BitVec.ofNat 32 (2 ^ 31 + (if o.skipped then 2 ^ 25 else 0) + o.contrib * 2 ^ 16 + o.units) ∧
    w'.tiles = w.tiles - 1 ∧ w'.stall = none ∧ w'.pcs = w.pcs ∧ w'.aflags = w.aflags ∧ w'.mflags = o.flags ∧
    (isV o.dest.name.toNat = true → o.dest.count ≠ 0 → w'.pendingName o.dest.name.toNat = false) ∧
    ∃ r : EvRec, t.evHeld = holdRecord { fn := (s.ctx w.ctx).fn, cycle := s.cycle, rid := s.ridseq, record := r } s.evHeld ∧
      r.kind = 0 ∧ r.code = code ∧ r.pc = o.pc ∧ r.info = BitVec.ofNat 32 (o.units + 512 * j)

/-- A row that faults stops the instruction: its warp takes a precise fault where it stands, and keeps what the restart needs. -/
theorem stops_of_fault {code : BitVec 8} {j : Nat} (ho : (s.core c).xq.get? x = some o)
    (hrow : s.rowNext c x = (.fault (rowFault code o.units j), s1)) (hs1 : s1 = { s with parts := s1.parts })
    (hw : s.warp? c o.slot = some w) (hwid : w.wid = o.wid) (howner : (s.core c).owner = some w.ctx)
    (hxq : (s.core c).xq = [(x, o)]) :
    o.Stops s c x w j code := by
  have hcores : ∀ k, s1.core k = s.core k := fun k => by rw [hs1]; rfl
  have hw1 : s1.warp? c o.slot = some w := by rw [State.warp?, hcores]; exact hw
  have hstop := stopX_alone (s := s1) hw1 hwid (by rw [hcores]; exact howner) (by rw [hcores]; exact hxq)
  obtain ⟨hlive, hctx, htraps, hpcs, haflags⟩ : (o.stopped w).live = w.live ∧ (o.stopped w).ctx = w.ctx ∧
      (o.stopped w).traps = w.traps ∧ (o.stopped w).pcs = w.pcs ∧ (o.stopped w).aflags = w.aflags := by
    rw [stopped_frame]
    exact ⟨rfl, rfl, rfl, rfl, rfl⟩
  have hwarp : (s1.stopX c x o).warp? c o.slot = some (o.stopped w) := by rw [hstop, warp?_setWarp_self]
  have hexec : exec (.matrixStop c x) s =
      .next ((s1.stopX c x o).takeFault c o.slot (o.stopped w).live o.pc 0 false 0 (rowFault code o.units j)) := by
    show execMatrixStop c x s = _
    unfold execMatrixStop
    simp only [ho, hrow, hwarp]
  rw [takeFault_eq hwarp] at hexec
  refine ⟨_, _, hexec, warp?_setWarp_self .., ?_, ?_, ?_, rfl, rfl, rfl, hpcs, haflags, rfl,
    fun hv hc => pendingName_undoPending w hv hc,
    { (s1.stopX c x o).warpRecord c (o.stopped w) o.pc (o.stopped w).live 0 (rowFault code o.units j) with aux := 0, flags := 0 },
    ?_, rfl, rfl, rfl, rfl⟩
  · refine (xq_setWarp ..).trans ?_
    show ((s1.stopX c x o).core c).xq = []
    rw [hstop, xq_setWarp, core_setCore_self]
  · show ((State.setWarp _ _ _ _).core c).tiles = _
    rw [State.setWarp, core_setCore_self]
    show ((s1.stopX c x o).core c).tiles = _
    rw [hstop, State.setWarp, core_setCore_self, core_setCore_self, hcores]
  · show (o.stopped w).traps ++ _ = _
    rw [htraps, hlive]
    rfl
  · rw [← hctx]
    have hfields : (s1.stopX c x o).cycle = s.cycle ∧ (s1.stopX c x o).ridseq = s.ridseq ∧ (s1.stopX c x o).evHeld = s.evHeld ∧
        (s1.stopX c x o).ctx (o.stopped w).ctx = s.ctx (o.stopped w).ctx := by
      rw [hstop, hs1]
      exact ⟨rfl, rfl, rfl, rfl⟩
    obtain ⟨hcycle, hrid, hheld, hfn⟩ := hfields
    rw [← hcycle, ← hrid, ← hheld, ← hfn]
    rfl

end Sys2Proof.Machine

end

section
/-! SUPPORT. A block of MMTG: its rows are read, then applied to the gradient strata that they route to (06 R126; 10 R211). -/

namespace Sys2Proof.Machine

variable {s s1 t : State} {c x : Nat} {o p : XOp} {h : Hdr} {f : XF}

/-! ### The rows of a block -/

/-- The core differs in its order alone, where an operation has at most kept words of its rows. -/
def KeepsRows (c x : Nat) (p : XOp) (s t : State) : Prop :=
  t.core c = { s.core c with xq := (t.core c).xq } ∧ ∃ row, (t.core c).xq.get? x = some { p with row := row }

theorem keepsRows_modX (hp : (s.core c).xq.get? x = some p) (m : Nat) (tag : Byte) (scale : Option Word) :
    KeepsRows c x p s (s.modX c x fun y => y.keepRow m tag scale) := by
  refine ⟨by rw [core_modX hp], ?_⟩
  rw [xq_modX hp]
  exact ⟨_, rfl⟩

theorem KeepsRows.trans (hst : KeepsRows c x p s s1) {row : Tab Word} (htu : KeepsRows c x { p with row := row } s1 t) :
    KeepsRows c x p s t := by
  obtain ⟨row', hrow⟩ := htu.2
  exact ⟨by rw [htu.1, hst.1], row', hrow⟩

theorem KeepsRows.ofRead (hr : ReadsOnly s s1) (h : KeepsRows c x p s1 t) : KeepsRows c x p s t := by
  rw [KeepsRows, hr.core] at h
  exact h

/-- Reading the rows of a block changes nothing of the core but what the operation keeps of them. -/
theorem gradReads_keepsRows : ∀ (ms : List Nat) {s : State} {p : XOp} {rows fl},
    (s.core c).xq.get? x = some p → State.gradReads c x o f ms s = (.ok (rows, fl), t) → KeepsRows c x p s t
  | [], s, p, _, _, hp, hread => by
    cases hread
    exact ⟨rfl, p.row, hp⟩
  | m :: ms, s, p, rows, fl, hp, hread => by
    have hkeep : ∀ {s1 : State} {tag scale rows fl}, ReadsOnly s s1 →
        State.gradReads c x o f ms (s1.modX c x fun y => y.keepRow m tag scale) = (.ok (rows, fl), t) → KeepsRows c x p s t := by
      intro s1 tag scale rows fl hr hrest
      have hp1 : (s1.core c).xq.get? x = some p := by rw [hr.core]; exact hp
      have hone := keepsRows_modX hp1 m tag scale
      obtain ⟨row, hrow⟩ := hone.2
      exact (hone.trans (gradReads_keepsRows ms hrow hrest)).ofRead hr
    unfold State.gradReads at hread
    split at hread
    · cases hread
    · split at hread
      · exact hkeep (.rfl' s) hread
      · split at hread
        · cases hread
        · split at hread
          · cases hread
          · cases hread
          · next hsrc =>
            split at hread
            · cases hread
            · next hrest =>
              cases hread
              exact hkeep (readsOnly_sourceRead hsrc) hrest

/-! ### Their effect -/

theorem gradRow_put {k : Core} {g i : Nat} (hi : i < 128) (row : List Word) (b : Nat) {r : Nat} (hr : r < 128) :
    Core.gradRow { k with grads := k.grads.put (128 * g + i) row } b r = if b = g ∧ r = i then row else k.gradRow b r := by
  unfold Core.gradRow
  rw [Tab.getD_put]
  exact if_congr (by omega) rfl rfl

/-- A core that differs in its gradient strata alone. -/
def GradsOnly (k l : Core) : Prop := l = { k with grads := l.grads }

theorem GradsOnly.trans {k l m : Core} (h : GradsOnly k l) (g : GradsOnly l m) : GradsOnly k m := by
  unfold GradsOnly at *
  rw [g, h]

/-- Row `i` of a gradient stratum under the rows of a block. -/
def XOp.gradRowAfter (o : XOp) (b : Nat) (mine : List GradRow) (k : Core) (g i : Nat) : List Word × BitVec 8 :=
  gradUpdate o.fmt mine i (k.gradRow g i) fun n => o.draw i n b

/-- One row of a block's effect on one gradient stratum of `k`, its flags joined. -/
def XOp.gradRowStep (o : XOp) (b g : Nat) (mine : List GradRow) (k : Core) (r : Core × BitVec 8) (i : Nat) : Core × BitVec 8 :=
  ({ r.1 with grads := r.1.grads.put (128 * g + i) (o.gradRowAfter b mine k g i).1 }, r.2 ||| (o.gradRowAfter b mine k g i).2)

variable {b g : Nat} {mine : List GradRow} {k : Core}

theorem gradBlock_eq (k : Core) : k.gradBlock o b g mine = (List.range 128).foldl (o.gradRowStep b g mine k) (k, 0) := rfl

/-- Rows updated one after another. -/
theorem foldl_gradRowStep : ∀ (is : List Nat) (r : Core × BitVec 8), (∀ i ∈ is, i < 128) →
    GradsOnly r.1 (is.foldl (o.gradRowStep b g mine k) r).1 ∧ ∀ g' i, i < 128 →
      (is.foldl (o.gradRowStep b g mine k) r).1.gradRow g' i =
        if g' = g ∧ i ∈ is then (o.gradRowAfter b mine k g i).1 else r.1.gradRow g' i
  | [], r, _ => ⟨rfl, fun _ _ _ => by simp⟩
  | j :: is, r, hlt => by
    have hj128 := hlt j List.mem_cons_self
    obtain ⟨honly, hrows⟩ := foldl_gradRowStep is (o.gradRowStep b g mine k r j) fun i hi => hlt i (List.mem_cons_of_mem j hi)
    have hstep : ∀ g' i, i < 128 → (o.gradRowStep b g mine k r j).1.gradRow g' i =
        if g' = g ∧ i = j then (o.gradRowAfter b mine k g j).1 else r.1.gradRow g' i := fun g' i hi => gradRow_put hj128 _ g' hi
    refine ⟨.trans (l := (o.gradRowStep b g mine k r j).1) rfl honly, fun g' i hi => ?_⟩
    rw [List.foldl_cons, hrows g' i hi, hstep g' i hi]
    by_cases hij : i = j
    · subst hij
      by_cases hg : g' = g <;> simp [hg]
    · simp [hij]

theorem gradBlock_rows (k : Core) : GradsOnly k (k.gradBlock o b g mine).1 ∧ ∀ g' i, i < 128 →
    (k.gradBlock o b g mine).1.gradRow g' i = if g' = g then (o.gradRowAfter b mine k g i).1 else k.gradRow g' i := by
  obtain ⟨honly, hrows⟩ := foldl_gradRowStep (o := o) (b := b) (g := g) (mine := mine) (k := k) (List.range 128) (k, 0)
    fun i hi => List.mem_range.1 hi
  rw [gradBlock_eq]
  refine ⟨honly, fun g' i hi => ?_⟩
  rw [hrows g' i hi]
  exact if_congr (and_iff_left (List.mem_range.2 hi)) rfl rfl

/-- The rows of a block that route to one gradient stratum. -/
def rowsOf (rows : List (Nat × GradRow)) (g : Nat) : List GradRow := (rows.filter fun y => y.1 == g).map (·.2)

/-- A block's effect on one gradient stratum, if any of its rows routes there. -/
def XOp.gradStep (o : XOp) (b : Nat) (rows : List (Nat × GradRow)) (r : Core × BitVec 8) (g : Nat) : Core × BitVec 8 :=
  if (rowsOf rows g).isEmpty then r
  else ((r.1.gradBlock o b g (rowsOf rows g)).1, r.2 ||| (r.1.gradBlock o b g (rowsOf rows g)).2)

/-- Row `i` of gradient stratum `g` after a block. -/
def XOp.gradAfter (o : XOp) (b : Nat) (rows : List (Nat × GradRow)) (k : Core) (g i : Nat) : List Word :=
  if rowsOf rows g = [] then k.gradRow g i else (o.gradRowAfter b (rowsOf rows g) k g i).1

variable {rows : List (Nat × GradRow)}

theorem gradStep_rows (r : Core × BitVec 8) (g : Nat) : GradsOnly r.1 (o.gradStep b rows r g).1 ∧ ∀ g' i, i < 128 →
    (o.gradStep b rows r g).1.gradRow g' i = if g' = g then o.gradAfter b rows r.1 g i else r.1.gradRow g' i := by
  unfold XOp.gradStep XOp.gradAfter
  by_cases hnone : rowsOf rows g = []
  · rw [hnone]
    refine ⟨rfl, fun g' i _ => ?_⟩
    by_cases hg : g' = g <;> simp [hg]
  · rw [if_neg (by simpa using hnone)]
    simp only [if_neg hnone]
    exact gradBlock_rows r.1

/-- The gradient strata updated one after another: each by the block's rows that route to it. -/
theorem foldl_gradStep : ∀ (gs : List Nat) (r : Core × BitVec 8), gs.Nodup →
    GradsOnly r.1 (gs.foldl (o.gradStep b rows) r).1 ∧ ∀ g i, i < 128 →
      (gs.foldl (o.gradStep b rows) r).1.gradRow g i = if g ∈ gs then o.gradAfter b rows r.1 g i else r.1.gradRow g i
  | [], r, _ => ⟨rfl, fun _ _ _ => by simp⟩
  | j :: gs, r, hnd => by
    obtain ⟨hj, hnd'⟩ := List.nodup_cons.1 hnd
    obtain ⟨honly, hrows⟩ := foldl_gradStep gs (o.gradStep b rows r j) hnd'
    obtain ⟨hone, hstep⟩ := gradStep_rows (o := o) (b := b) (rows := rows) r j
    refine ⟨hone.trans honly, fun g i hi => ?_⟩
    rw [List.foldl_cons, hrows g i hi, XOp.gradAfter, XOp.gradRowAfter, hstep g i hi]
    by_cases hgj : g = j
    · subst hgj
      simp [hj]
    · simp [hgj, XOp.gradAfter, XOp.gradRowAfter]

/-! ### The block -/

/-- The next block of a running instruction with rows left. -/
theorem rowNext_mmtg (ho : (s.core c).xq.get? x = some o) (hrun : o.stage = .running) (hm : o.units < f.rows.toNat)
    (hi : o.instr = .mmtg h f) : s.rowNext c x = s.mmtgNext c x o f := by
  have htotal : xTotal o.instr o.fmt o.copy = f.rows.toNat := by rw [hi]; rfl
  unfold State.rowNext
  rw [ho]
  dsimp only
  rw [htotal, hrun, if_neg (by simp [hm]), hi]

theorem mmtgNext_eq {fl : BitVec 8}
    (hread : State.gradReads c x o f ((List.range (min (o.units + 32) f.rows.toNat - o.units)).map fun i => o.units + i) s =
      (.ok (rows, fl), s1)) :
    s.mmtgNext c x o f = (.done,
      ((s1.setCore c ((List.range 8).foldl (o.gradStep (o.units / 32) rows) (s1.core c, fl)).1).tally (s.partOfCore c) 24
        rows.length).modX c x fun y => { y.nextRow (min (o.units + 32) f.rows.toNat) with
          contrib := y.contrib + rows.length
          flags := y.flags ||| ((List.range 8).foldl (o.gradStep (o.units / 32) rows) (s1.core c, fl)).2 }) := by
  unfold State.mmtgNext
  dsimp only
  rw [hread]
  rfl

/-- A block whose rows are read is applied to the gradient strata that they route to. -/
theorem block_applies {fl : BitVec 8} (ho : (s.core c).xq.get? x = some o) (hrun : o.stage = .running)
    (hm : o.units < f.rows.toNat) (hi : o.instr = .mmtg h f)
    (hread : State.gradReads c x o f ((List.range (min (o.units + 32) f.rows.toNat - o.units)).map fun i => o.units + i) s =
      (.ok (rows, fl), s1)) :
    ∃ t, exec (.matrixRowWaitEnd c x) s = .next t ∧
      (∃ p, (t.core c).xq.get? x = some p ∧ p.units = min (o.units + 32) f.rows.toNat ∧ p.contrib = o.contrib + rows.length) ∧
      ∀ g i, g < 8 → i < 128 → (t.core c).gradRow g i = o.gradAfter (o.units / 32) rows (s.core c) g i := by
  obtain ⟨hcore, row, hrow⟩ := gradReads_keepsRows _ ho hread
  obtain ⟨honly, hgrads⟩ := foldl_gradStep (o := o) (b := o.units / 32) (rows := rows) (List.range 8) (s1.core c, fl) List.nodup_range
  have hexec := exec_rowWaitEnd ho (by rw [hi]; rfl) (.inl rfl) ((rowNext_mmtg ho hrun hm hi).trans (mmtgNext_eq hread))
  revert hexec
  generalize hS : (s1.setCore c _).tally (s.partOfCore c) 24 rows.length = S
  intro hexec
  have hS' : S.core c = ((List.range 8).foldl (o.gradStep (o.units / 32) rows) (s1.core c, fl)).1 := by
    rw [← hS]
    exact core_setCore_self ..
  have hrow' : (S.core c).xq.get? x = some { o with row := row } := by
    rw [hS', honly]
    exact hrow
  refine ⟨_, hexec, ⟨_, xq_modX hrow' _, rfl, rfl⟩, fun g i hg hi => ?_⟩
  rw [core_modX hrow']
  show (S.core c).gradRow g i = _
  rw [hS', hgrads g i hi, if_pos (List.mem_range.2 hg)]
  have hsame : ∀ g i, (s1.core c).gradRow g i = (s.core c).gradRow g i := by
    intro g i
    rw [hcore]
    rfl
  simp only [XOp.gradAfter, XOp.gradRowAfter, hsame]

end Sys2Proof.Machine

end

section
/-! SUPPORT. What the end of an operation of class X leaves: its place, its warp and its status word (05 R112; 06 R119, R122; 10 R201). -/

namespace Sys2Proof.Machine

variable {s : State} {c x : Nat} {o : XOp} {w : Warp} {h : Hdr} {f : XF} {status : Word}

/-! ### The warp of an operation that has ended -/

/-- A status word stands in the destination of an operation, in the lanes of `w` that still take it. -/
def XOp.StatusIn (o : XOp) (w : Warp) (status : Word) (w' : Warp) : Prop :=
  (∀ l, l < 32 → isV o.dest.name.toNat = true → o.dest.count ≠ 0 → laneOn (o.dest.lanes &&& w.live) l = true →
    w'.val o.dest.name.toNat l = status ∧ w'.count o.dest.name.toNat l = o.dest.count) ∧
  (isK o.dest.name.toNat = true → w.live ≠ 0 → o.dest.lanes ≠ 0 → ∀ l, w'.val o.dest.name.toNat l = status)

theorem statusIn_ended (o : XOp) (status : Word) (w : Warp) : o.StatusIn w status (o.ended status w) :=
  ⟨fun _ hl hv hc ho => ended_value hv hc hl ho, fun hk hlive hlanes l => ended_uniform hk hlive hlanes l⟩

/-- An operation that ends leaves its order; its warp is `XOp.ended`, but for a stall that may end with the array. -/
theorem endX_ended (hw : s.warp? c o.slot = some w) (hwid : w.wid = o.wid) (hev : w.evicted = false) :
    ((s.endX c x o status).core c).xq = (s.core c).xq.del x ∧
      ∃ y, w.StallOnly y ∧ (s.endX c x o status).warp? c o.slot = some (o.ended status y) := by
  obtain ⟨y, hy, hstall⟩ := warp?_deleteX hw x
  have hkeep : y.wid = o.wid ∧ y.evicted = false := by
    rw [hstall]
    exact ⟨hwid, hev⟩
  rw [endX_eq hy hkeep.1 hkeep.2, xq_setWarp, xq_deleteX]
  exact ⟨rfl, y, hstall, warp?_setWarp_self ..⟩

/-- While the owner of the array has a warp on the core, an operation that ends leaves the strata. -/
theorem strata_endX (hw : s.warp? c o.slot = some w) (hwid : w.wid = o.wid) (hev : w.evicted = false)
    (howner : (s.core c).owner = some w.ctx) : ((s.endX c x o status).core c).strata = (s.core c).strata := by
  have hdelete := deleteX_owned hw howner x
  have hw' : (s.deleteX c x).warp? c o.slot = some w := by
    rw [hdelete, State.warp?, core_setCore_self]
    exact hw
  rw [endX_eq hw' hwid hev, State.setWarp, core_setCore_self, hdelete, core_setCore_self]

/-! ### Retirement -/

theorem rowNext_done (ho : (s.core c).xq.get? x = some o) (hall : xTotal o.instr o.fmt o.copy ≤ o.units) :
    s.rowNext c x = (.wait, s) := by
  unfold State.rowNext
  rw [ho]
  dsimp only
  rw [if_pos (by simp [hall])]

theorem rowsOn_done (ho : (s.core c).xq.get? x = some o) (hall : xTotal o.instr o.fmt o.copy ≤ o.units) (fuel : Nat) :
    State.rowsOn c x fuel s = s := by
  cases fuel with
  | zero => rfl
  | succ fuel =>
    rw [State.rowsOn, rowNext_done ho hall]

theorem xCounted_of_held {i : Instr} (h : xHeld i = true) : xCounted i = true := by
  unfold xHeld at h
  split at h
  · rfl
  · rfl
  · rfl
  · cases h

/-- The warp of a held instruction that retires, its status aside. -/
def XOp.retired (o : XOp) (w : Warp) : Warp :=
  { (w.advance w.live).orFlags o.flags with mrow := 0, mflags := 0, stall := none, timeout := false }

theorem exec_matrixRetire (ho : (s.core c).xq.get? x = some o) (hheld : xHeld o.instr = true) (hrun : o.stage = .running)
    (hall : xTotal o.instr o.fmt o.copy ≤ o.units) : exec (.matrixRetire c x) s = .next (s.retireX c x o) := by
  show execMatrixRetire c x s = _
  unfold execMatrixRetire
  rw [ho]
  dsimp only
  rw [rowsOn_done ho hall, ho, hheld, if_neg (by simp)]
  exact if_pos ⟨hrun, hall⟩

theorem heldStatus_eq (o : XOp) : o.heldStatus = BitVec.ofNat 32 (o.contrib * 4096 + if o.skipped then 7 else 0) := by
  simp [XOp.heldStatus, statusWord]

/-- A held instruction whose rows are all done retires. -/
theorem retires (ho : (s.core c).xq.get? x = some o) (hheld : xHeld o.instr = true) (hrun : o.stage = .running)
    (hall : xTotal o.instr o.fmt o.copy ≤ o.units) (hw : s.warp? c o.slot = some w) (hwid : w.wid = o.wid) (hev : w.evicted = false) :
    ∃ (s1 : State) (w' : Warp), exec (.matrixRetire c x) s = .next (s1.advanceX c) ∧
      (s1.core c).xq = (s.core c).xq.del x ∧ s1.warp? c o.slot = some w' ∧ w'.mrow = 0 ∧ w'.mflags = 0 ∧ w'.tiles = w.tiles - 1 ∧
      w'.aflags = w.aflags ||| o.flags ∧
      (∀ l, l < 32 → w'.pc l = if laneOn w.live l then nextPc (w.pc l) else w.pc l) ∧
      o.StatusIn w (BitVec.ofNat 32 (o.contrib * 4096 + if o.skipped then 7 else 0)) w' := by
  have hcounted := xCounted_of_held hheld
  have hmod : s.modWarp c o.slot (fun w => if w.wid != o.wid then w else o.retired w) = s.setWarp c o.slot (o.retired w) := by
    rw [modWarp_eq hw, hwid, bne_self_eq_false]
    rfl
  have hretire : s.retireX c x o = State.advanceX (State.endX
      ((s.setWarp c o.slot (o.retired w)).tally ((s.setWarp c o.slot (o.retired w)).partOfCore c) 16 1) c x o o.heldStatus) c := by
    rw [← hmod]
    rfl
  have hexec := exec_matrixRetire ho hheld hrun hall
  rw [hretire] at hexec
  have hw1 : ((s.setWarp c o.slot (o.retired w)).tally ((s.setWarp c o.slot (o.retired w)).partOfCore c) 16 1).warp? c o.slot =
      some (o.retired w) := warp?_setWarp_self s c o.slot (o.retired w)
  obtain ⟨hxq, y, hstall, hy⟩ := endX_ended (x := x) (status := o.heldStatus) hw1 hwid hev
  have hlive : y.live = w.live := by rw [hstall]; rfl
  have hpc : ∀ l, (o.ended o.heldStatus y).pc l = (o.retired w).pc l := by
    intro l
    rw [ended_frame, hstall]
    rfl
  refine ⟨_, _, hexec, hxq.trans (congrArg (Tab.del · x) (xq_setWarp s c o.slot (o.retired w))), hy, ?_, ?_, ?_, ?_,
    fun l hl => (hpc l).trans (pc_advance w w.live hl), ?_⟩
  · rw [ended_frame, hstall]; rfl
  · rw [ended_frame, hstall]; rfl
  · rw [ended_frame, hstall, hcounted]; rfl
  · rw [ended_frame, hstall]; rfl
  · have hstatus := statusIn_ended o o.heldStatus y
    rw [XOp.StatusIn, hlive] at hstatus
    rw [← heldStatus_eq]
    exact hstatus

/-! ### The end of an asynchronous operation -/

theorem unitsOn_done (ho : (s.core c).xq.get? x = some o) (hall : xTotal o.instr o.fmt o.copy ≤ o.units) (fuel : Nat) :
    State.unitsOn c x fuel s = s := by
  cases fuel with
  | zero => rfl
  | succ fuel =>
    have hnext : s.unitNext c x = s := by
      unfold State.unitNext
      rw [ho]
      exact if_pos hall
    rw [State.unitsOn, ho]
    dsimp only
    rw [hnext, ho]
    exact if_pos rfl

/-- The state in which an asynchronous operation ends: a loaded stratum is resident. -/
def XOp.loaded (o : XOp) (c : Nat) (s : State) : State :=
  match o.instr with
  | .sload _ f => s.modStratum c f.stratum.toNat fun t => { t with state := .resident }
  | _ => s

theorem completeX_eq (ho : (s.core c).xq.get? x = some o) (hheld : xHeld o.instr = false) (hrun : o.stage = .running)
    (hall : xTotal o.instr o.fmt o.copy ≤ o.units) : s.completeX c x = ((o.loaded c s).endAsync c x o 0 0).advanceX c := by
  unfold State.completeX
  rw [ho]
  dsimp only
  rw [hheld, hrun, if_neg (by simp [hall])]
  rfl

theorem loaded_keeps (o : XOp) (c : Nat) (s : State) : (o.loaded c s).core c = { s.core c with strata := ((o.loaded c s).core c).strata } := by
  unfold XOp.loaded
  split
  · rw [State.modStratum, State.modCore, core_setCore_self]
  · rfl

theorem loaded_resident (hi : o.instr = .sload h f) : (((o.loaded c s).core c).stratum f.stratum.toNat).state = .resident := by
  unfold XOp.loaded
  rw [hi]
  dsimp only
  rw [State.modStratum, State.modCore, core_setCore_self]
  simp only [Core.stratum, Tab.getD_put_self]

/-- An operation whose status reports its units and, if an error was corrected on the way, that. -/
theorem completes (ho : (s.core c).xq.get? x = some o) (hheld : xHeld o.instr = false) (hrun : o.stage = .running)
    (hall : xTotal o.instr o.fmt o.copy ≤ o.units) (hw : s.warp? c o.slot = some w) (hwid : w.wid = o.wid) (hev : w.evicted = false)
    (howner : (s.core c).owner = some w.ctx) :
    ∃ (s1 : State) (w' : Warp), (State.unitsOn c x (xTotal o.instr o.fmt o.copy) s).completeX c x = s1.advanceX c ∧
      (s1.core c).xq = (s.core c).xq.del x ∧ s1.warp? c o.slot = some w' ∧
      (if xCounted o.instr then w'.tiles = w.tiles - 1 ∧ (true, o.dest.name.toNat) ∈ w'.unread
       else w'.tiles = w.tiles ∧ w'.unread = w.unread) ∧
      w'.aflags = w.aflags ||| o.flags ∧
      (∀ f h, o.instr = .sload h f → ((s1.core c).stratum f.stratum.toNat).state = .resident) ∧
      o.StatusIn w (BitVec.ofNat 32 (o.units * 4096 + if o.corrected then 1 else 0)) w' := by
  have hloaded := loaded_keeps o c s
  have hw0 : (o.loaded c s).warp? c o.slot = some w := by
    rw [State.warp?, hloaded]
    exact hw
  have hmod : (o.loaded c s).modWarp c o.slot (fun w => if w.wid = o.wid then w.orFlags o.flags else w) =
      (o.loaded c s).setWarp c o.slot (w.orFlags o.flags) := by
    rw [modWarp_eq hw0, if_pos hwid]
  have hstatus : statusWord o.units 0 (if 0 = 0 ∧ o.corrected then 1 else 0) =
      BitVec.ofNat 32 (o.units * 4096 + if o.corrected then 1 else 0) := by
    simp [statusWord]
  have hend : (o.loaded c s).endAsync c x o 0 0 = ((o.loaded c s).setWarp c o.slot (w.orFlags o.flags)).endX c x o
      (BitVec.ofNat 32 (o.units * 4096 + if o.corrected then 1 else 0)) := by
    rw [State.endAsync, hmod, hstatus]
  have hw1 := warp?_setWarp_self (o.loaded c s) c o.slot (w.orFlags o.flags)
  have howner1 : (((o.loaded c s).setWarp c o.slot (w.orFlags o.flags)).core c).owner = some (w.orFlags o.flags).ctx := by
    rw [State.setWarp, core_setCore_self, hloaded]
    exact howner
  obtain ⟨hxq, y, hstall, hy⟩ := endX_ended (x := x)
    (status := BitVec.ofNat 32 (o.units * 4096 + if o.corrected then 1 else 0)) hw1 hwid hev
  have hstrata := strata_endX (x := x) (status := BitVec.ofNat 32 (o.units * 4096 + if o.corrected then 1 else 0)) hw1 hwid hev howner1
  have hlive : y.live = w.live := by rw [hstall]; rfl
  refine ⟨_, _, by rw [unitsOn_done ho hall, completeX_eq ho hheld hrun hall, hend], ?_, hy, ?_, ?_, fun f h hi => ?_, ?_⟩
  · rw [hxq, xq_setWarp, hloaded]
  · split
    · next hc =>
      rw [ended_frame, hc, hstall]
      exact ⟨rfl, mem_endOp ..⟩
    · next hc =>
      rw [ended_frame, Bool.eq_false_iff.2 hc, hstall]
      exact ⟨rfl, rfl⟩
  · rw [ended_frame, hstall]; rfl
  · rw [Core.stratum, hstrata, State.setWarp, core_setCore_self]
    exact loaded_resident hi
  · have hin := statusIn_ended o (BitVec.ofNat 32 (o.units * 4096 + if o.corrected then 1 else 0)) y
    rw [XOp.StatusIn, hlive] at hin
    exact hin

theorem exec_xAsyncComplete (ho : (s.core c).xq.get? x = some o) (hheld : xHeld o.instr = false) :
    exec (.xAsyncComplete c x) s = .next ((State.unitsOn c x (xTotal o.instr o.fmt o.copy) s).completeX c x) := by
  show execXAsyncComplete c x s = _
  unfold execXAsyncComplete
  rw [ho]
  dsimp only
  exact if_neg (by rw [hheld]; exact Bool.false_ne_true)

theorem exec_stratumLoadComplete (ho : (s.core c).xq.get? x = some o) (hi : o.instr = .sload h f) :
    exec (.stratumLoadComplete c x) s = .next ((State.unitsOn c x (xTotal o.instr o.fmt o.copy) s).completeX c x) := by
  show execStratumLoadComplete c x s = _
  unfold execStratumLoadComplete
  rw [ho]
  simp only [hi]

end Sys2Proof.Machine

end

section
/-! SUPPORT. Units of the asynchronous operations that load: rows of tiles and gradient strata, and units of images (10 R199, R205, R206, R213). -/

namespace Sys2Proof.Machine

variable {s s1 s2 t : State} {c x : Nat} {o : XOp} {h : Hdr} {f : XF} {bs : List Byte}

/-! ### The next unit -/

/-- A unit of an operation that loads a stratum, or of one that moves data. -/
def State.performUnit (s : State) (c x : Nat) (o : XOp) (fresh : Bool) : State :=
  match o.instr with
  | .sload _ f => s.loadUnit c x o f fresh
  | _ => s.moveUnit c x o fresh

/-- A running asynchronous operation with units left performs the next. -/
theorem exec_unit (ho : (s.core c).xq.get? x = some o) (hheld : xHeld o.instr = false) (hrun : o.stage = .running)
    (hleft : o.units < xTotal o.instr o.fmt o.copy) : exec (.matrixRowWaitEnd c x) s = .next (s.performUnit c x o false) := by
  have hnext : s.unitNext c x = s.performUnit c x o false := by
    unfold State.unitNext State.performUnit
    rw [ho]
    dsimp only
    rw [if_neg (Nat.not_le.2 hleft), hrun] <;> rfl
  show execMatrixRowWaitEnd c x s = _
  unfold execMatrixRowWaitEnd
  rw [ho]
  dsimp only
  rw [if_neg (by rw [hheld]; exact Bool.false_ne_true), hnext]

/-- An operation with one more unit done. -/
def XOp.next (o : XOp) : XOp := { o with units := o.units + 1, row := [], got := [] }

theorem nextRow_next (hrun : o.stage = .running) : o.nextRow (o.units + 1) = o.next := nextRow_running hrun _

/-! ### Units that fill the array -/

/-- A unit has filled tiles or gradient strata of the core; nothing is stored. -/
def XOp.Fills (o : XOp) (c x : Nat) (s t : State) : Prop :=
  (t.core c).xq.get? x = some o.next ∧
  (∀ n, n ≠ x → (t.core c).xq.get? n = (s.core c).xq.get? n) ∧ (∀ k, k ≠ c → t.core k = s.core k) ∧
  t.core c = { s.core c with xq := (t.core c).xq, tiles := (t.core c).tiles, grads := (t.core c).grads } ∧
  t = { s with cores := t.cores, tlb := t.tlb, walks := t.walks, bytes := t.bytes, l2 := t.l2, dev := t.dev, dram := t.dram,
               host := t.host, hostBehind := t.hostBehind } ∧
  (Canonical s → Refilled s t fun _ => False)

/-- A core changed in tiles and gradient strata alone. -/
def ArrayOnly (k l : Core) : Prop := l = { k with tiles := l.tiles, grads := l.grads }

/-- The core and its unit's place once the bytes of the unit, read in `s1`, are taken in. -/
theorem core_takeUnit (ho : (s.core c).xq.get? x = some o) (hrun : o.stage = .running) (hr : ReadsOnly s s1) {g : Core → Core}
    (hg : ∀ k, ArrayOnly k (g k)) :
    (((s1.modCore c g).unitDone c x).core c) = { g (s.core c) with xq := (s.core c).xq.put x o.next } := by
  have hcore : (s1.modCore c g).core c = g (s.core c) := by
    rw [State.modCore, core_setCore_self, hr.core]
  have hxq : (g (s.core c)).xq = (s.core c).xq := by rw [hg]
  have ho' : ((s1.modCore c g).core c).xq.get? x = some o := by rw [hcore, hxq]; exact ho
  rw [State.unitDone, core_modX ho', nextRow_next hrun, hcore, hxq]

theorem fills_takeUnit (ho : (s.core c).xq.get? x = some o) (hrun : o.stage = .running) (hr : ReadsOnly s s1) {g : Core → Core}
    (hg : ∀ k, ArrayOnly k (g k)) : o.Fills c x s ((s1.modCore c g).unitDone c x) := by
  have hcore := core_takeUnit ho hrun hr hg
  refine ⟨?_, fun n hn => ?_, fun k hk => ?_, ?_, ?_, fun hs => ?_⟩
  · rw [hcore, Tab.get?_put_self]
  · rw [hcore]
    exact Tab.get?_put_ne _ _ _ _ hn.symm
  · rw [State.unitDone, core_modX_ne hk, State.modCore, core_setCore, if_neg hk.symm, hr.core]
  · rw [hcore]
    conv_lhs => rw [hg]
  · exact congrArg (fun z : State => { z with cores := ((s1.modCore c g).unitDone c x).cores }) hr.state
  · obtain ⟨hhome, hbehind⟩ := hr.kept.refilled hs
    exact ⟨hhome, hbehind⟩

theorem moveUnit_accld (hi : o.instr = .accld h f)
    (hread : s.sourceRead (.array c) o.ctx (o.rowAddr f o.units) (8 * fmtWidth (slotA o.fmt)) false (.array c x) o.got = (.ok bs, s1)) :
    s.performUnit c x o false = (s1.modCore c fun k => { k with
      tiles := k.tiles.put (256 * f.acc.toNat + o.units) (accldRow o.fmt bs) }).unitDone c x := by
  unfold State.performUnit State.moveUnit
  simp only [hi, hread]

theorem moveUnit_gload (hi : o.instr = .gload h f)
    (hread : s.sourceRead (.array c) o.ctx ((o.base.extractLsb' 0 48).toNat + 256 * o.units) 256 false (.array c x) o.got =
      (.ok bs, s1)) :
    s.performUnit c x o false = (s1.modCore c fun k => { k with
      grads := k.grads.put (128 * f.acc.toNat + o.units) (wordsIn bs) }).unitDone c x := by
  unfold State.performUnit State.moveUnit
  simp only [hi, hread]

/-- A row of ACCLD sets one row of its tile. -/
theorem accld_fills (ho : (s.core c).xq.get? x = some o) (hrun : o.stage = .running) (hi : o.instr = .accld h f)
    (hm : o.units < f.rows.toNat) (hm256 : o.units < 256)
    (hread : s.sourceRead (.array c) o.ctx (o.rowAddr f o.units) (8 * fmtWidth (slotA o.fmt)) false (.array c x) o.got = (.ok bs, s1)) :
    ∃ t, exec (.matrixRowWaitEnd c x) s = .next t ∧ o.Fills c x s t ∧ (t.core c).grads = (s.core c).grads ∧
      ∀ a m, m < 256 → (t.core c).tileRow a m = if a = f.acc.toNat ∧ m = o.units then accldRow o.fmt bs else (s.core c).tileRow a m := by
  have hexec := exec_unit ho (by rw [hi]; rfl) hrun (by rw [hi]; exact hm)
  rw [moveUnit_accld hi hread] at hexec
  have hr := readsOnly_sourceRead hread
  have hcore := core_takeUnit (g := fun k => { k with tiles := k.tiles.put (256 * f.acc.toNat + o.units) (accldRow o.fmt bs) })
    ho hrun hr fun _ => rfl
  refine ⟨_, hexec, fills_takeUnit ho hrun hr fun _ => rfl, by rw [hcore], fun a m hm => ?_⟩
  rw [hcore]
  exact tileRow_put hm256 _ a hm

/-- A unit of GLOAD sets one row of its gradient stratum. -/
theorem gload_fills (ho : (s.core c).xq.get? x = some o) (hrun : o.stage = .running) (hi : o.instr = .gload h f)
    (hm : o.units < 128)
    (hread : s.sourceRead (.array c) o.ctx ((o.base.extractLsb' 0 48).toNat + 256 * o.units) 256 false (.array c x) o.got =
      (.ok bs, s1)) :
    ∃ t, exec (.matrixRowWaitEnd c x) s = .next t ∧ o.Fills c x s t ∧ (t.core c).tiles = (s.core c).tiles ∧
      ∀ g m, m < 128 → (t.core c).gradRow g m = if g = f.acc.toNat ∧ m = o.units then wordsIn bs else (s.core c).gradRow g m := by
  have hexec := exec_unit ho (by rw [hi]; rfl) hrun (by rw [hi]; exact hm)
  rw [moveUnit_gload hi hread] at hexec
  have hr := readsOnly_sourceRead hread
  have hcore := core_takeUnit (g := fun k => { k with grads := k.grads.put (128 * f.acc.toNat + o.units) (wordsIn bs) })
    ho hrun hr fun _ => rfl
  refine ⟨_, hexec, fills_takeUnit ho hrun hr fun _ => rfl, by rw [hcore], fun g m hm' => ?_⟩
  rw [hcore]
  exact gradRow_put hm _ g hm'

/-! ### Units of a stratum's image -/

/-- A unit of SLOAD in the partition's memory, not poisoned and not to be merged, enters the image as it stands there. -/
theorem loadUnit_local {y : Xlated} (hstride : f.stride ≠ 4) (hkind : y.item.kind = .localMem) (hgot : o.got = [])
    (hx : State.xlatAll (.array c) o.ctx .read true false
      [((o.base.extractLsb' 0 48).toNat + unitOffset (slotB o.fmt) o.units, 256)] s = (.ok [(y, 256)], s1))
    (hgood : s1.badPiece y 256 = false) (hmerge : s1.mergePieces (.array c x) o.ctx [] [(y, 256)] = (false, s2)) :
    s.loadUnit c x o f false = (s1.pageFill y 256).peerUnit c x o (.done (s.physRead y.phys 256)) := by
  have hread : s1.pageRead y 256 = s.physRead y.phys 256 := by
    rw [(xlatOnly_of_xlatAll hx).pageRead, State.pageRead, hkind]
    rfl
  have hlocal : ¬y.item.kind = .peer := by rw [hkind]; decide
  obtain rfl := mergePieces_false hmerge
  unfold State.loadUnit
  rw [if_neg hstride]
  dsimp only
  rw [hx]
  dsimp only
  rw [if_neg hlocal, hgood, if_neg Bool.false_ne_true, hgot, hmerge]
  dsimp only
  rw [hread]
  rfl

theorem sload_fills {y : Xlated} (ho : (s.core c).xq.get? x = some o) (hrun : o.stage = .running) (hi : o.instr = .sload h f)
    (hstride : f.stride ≠ 4) (hleft : o.units < xTotal o.instr o.fmt o.copy) (hkind : y.item.kind = .localMem) (hgot : o.got = [])
    (hx : State.xlatAll (.array c) o.ctx .read true false
      [((o.base.extractLsb' 0 48).toNat + unitOffset (slotB o.fmt) o.units, 256)] s = (.ok [(y, 256)], s1))
    (hgood : s1.badPiece y 256 = false) (hmerge : s1.mergePieces (.array c x) o.ctx [] [(y, 256)] = (false, s2))
    (hfmt : ((s.core c).stratum f.stratum.toNat).bfmt = slotB o.fmt) :
    ∃ t, exec (.matrixRowWaitEnd c x) s = .next t ∧ (t.core c).xq.get? x = some o.next ∧
      ((t.core c).stratum f.stratum.toNat).image.get? (unitOffset (slotB o.fmt) o.units / 256) = some (s.physRead y.phys 256) := by
  have hexec := exec_unit ho (by rw [hi]; rfl) hrun hleft
  have hperform : s.performUnit c x o false = s.loadUnit c x o f false := by
    unfold State.performUnit
    simp only [hi]
  have htake : (s1.pageFill y 256).peerUnit c x o (.done (s.physRead y.phys 256)) =
      ((s1.pageFill y 256).modStratum c f.stratum.toNat fun t =>
        { t with image := t.image.put (unitOffset t.bfmt o.units / 256) (s.physRead y.phys 256) }).unitDone c x := by
    unfold State.peerUnit
    simp only [hi]
  rw [hperform, loadUnit_local hstride hkind hgot hx hgood hmerge, htake] at hexec
  have hcore : ((s1.pageFill y 256).modStratum c f.stratum.toNat fun t =>
        { t with image := t.image.put (unitOffset t.bfmt o.units / 256) (s.physRead y.phys 256) }).core c =
      { s.core c with strata := (s.core c).strata.put f.stratum.toNat { (s.core c).stratum f.stratum.toNat with
        image := ((s.core c).stratum f.stratum.toNat).image.put (unitOffset (slotB o.fmt) o.units / 256) (s.physRead y.phys 256) } } := by
    rw [State.modStratum, State.modCore, core_setCore_self, (readsOnly_pageFill s1 y 256).core,
      (xlatOnly_of_xlatAll hx).readsOnly.core, ← hfmt]
  have ho' : (((s1.pageFill y 256).modStratum c f.stratum.toNat fun t =>
      { t with image := t.image.put (unitOffset t.bfmt o.units / 256) (s.physRead y.phys 256) }).core c).xq.get? x = some o := by
    rw [hcore]
    exact ho
  refine ⟨_, hexec, ?_, ?_⟩
  · rw [State.unitDone, xq_modX ho', nextRow_next hrun]
  · rw [State.unitDone, core_modX ho', hcore]
    simp only [Core.stratum, Tab.getD_put_self, Tab.get?_put_self]

end Sys2Proof.Machine

end

section
/-! SUPPORT. Units of the asynchronous operations that store, and operations that wait (09 R178; 10 R206, R213, R215). -/

namespace Sys2Proof.Machine

variable {s s1 t : State} {c x : Nat} {o : XOp} {h : Hdr} {f : XF} {bs : List Byte} {ts : List (Xlated × Nat)} {va : Nat} {fl : BitVec 8}

/-! ### Units that store -/

theorem memOnly_writePieces : ∀ (ts : List (Xlated × Nat)) (bs : List Byte) (s : State), MemOnly s (State.writePieces ts bs s)
  | [], _, s => .rfl' s
  | (y, n) :: ts, bs, s => (memOnly_pageWrite s y (bs.take n)).trans (memOnly_writePieces ts (bs.drop n) _)

theorem memOnly_of_xlatOnly (h : XlatOnly s t) : MemOnly s t := by
  rw [XlatOnly] at h
  rw [h]
  rfl

/-- A unit has stored `bs` at the pieces `ts`, and has raised the flags `fl`. -/
def XOp.Moves (o : XOp) (c x : Nat) (s t : State) (ts : List (Xlated × Nat)) (bs : List Byte) (fl : BitVec 8) : Prop :=
  (t.core c).xq.get? x = some { o.next with flags := o.flags ||| fl } ∧
  (∀ n, n ≠ x → (t.core c).xq.get? n = (s.core c).xq.get? n) ∧ t.core c = { s.core c with xq := (t.core c).xq } ∧
  (∀ k, k ≠ c → t.core k = s.core k) ∧
  t = { s with cores := t.cores, tlb := t.tlb, walks := t.walks, bytes := t.bytes, l2 := t.l2, poison := t.poison, dev := t.dev,
               dram := t.dram, host := t.host, hostBehind := t.hostBehind } ∧
  (Canonical s → Stores s t ts bs)

/-- The state after a unit's bytes are written: its flags join the operation's, and the unit is done. -/
def State.wroteUnit (s1 : State) (c x : Nat) (ts : List (Xlated × Nat)) (bs : List Byte) (fl : BitVec 8) : State :=
  ((State.writePieces ts bs s1).modX c x fun y => { y with flags := y.flags ||| fl }).unitDone c x

theorem moves_wroteUnit (ho : (s.core c).xq.get? x = some o) (hrun : o.stage = .running) (hx : XlatOnly s s1)
    (ts : List (Xlated × Nat)) (bs : List Byte) (fl : BitVec 8) : o.Moves c x s (s1.wroteUnit c x ts bs fl) ts bs fl := by
  have hmem : MemOnly s (State.writePieces ts bs s1) := (memOnly_of_xlatOnly hx).trans (memOnly_writePieces ts bs s1)
  have hcore : ∀ k, (State.writePieces ts bs s1).core k = s.core k := fun k => by rw [hmem]; rfl
  have ho1 : ((State.writePieces ts bs s1).core c).xq.get? x = some o := by rw [hcore]; exact ho
  have ho2 := xq_modX ho1 fun y => { y with flags := y.flags ||| fl }
  have hnext : ({ o with flags := o.flags ||| fl } : XOp).nextRow (o.units + 1) = { o.next with flags := o.flags ||| fl } :=
    nextRow_running (o := { o with flags := o.flags ||| fl }) hrun _
  have hafter : (s1.wroteUnit c x ts bs fl).core c =
      { s.core c with xq := (s.core c).xq.put x { o.next with flags := o.flags ||| fl } } := by
    rw [State.wroteUnit, State.unitDone, core_modX ho2, core_modX ho1, hcore, Tab.put_put]
    exact congrArg (fun y : XOp => { s.core c with xq := (s.core c).xq.put x y }) hnext
  refine ⟨?_, fun n hn => ?_, ?_, fun k hk => ?_, ?_, fun hs => ?_⟩
  · rw [hafter, Tab.get?_put_self]
  · rw [hafter]
    exact Tab.get?_put_ne _ _ _ _ hn.symm
  · rw [hafter]
  · rw [State.wroteUnit, State.unitDone, core_modX_ne hk, core_modX_ne hk, hcore]
  · exact congrArg (fun z : State => { z with cores := (s1.wroteUnit c x ts bs fl).cores }) hmem
  · obtain ⟨⟨hhome, hbehind⟩, hvalue⟩ := stores_writePieces hx ts bs hs
    exact ⟨⟨hhome, hbehind⟩, hvalue⟩

/-- A unit that stores, once its pieces are translated. -/
theorem moves_unit (ho : (s.core c).xq.get? x = some o) (hheld : xHeld o.instr = false) (hrun : o.stage = .running)
    (hleft : o.units < xTotal o.instr o.fmt o.copy)
    (hx : State.xlatAll (.array c) o.ctx .write false false (pagePieces va bs.length) s = (.ok ts, s1))
    (hunit : s.performUnit c x o false = s1.wroteUnit c x ts bs fl) :
    ∃ t, exec (.matrixRowWaitEnd c x) s = .next t ∧ o.Moves c x s t ts bs fl :=
  ⟨_, by rw [exec_unit ho hheld hrun hleft, hunit], moves_wroteUnit ho hrun (xlatOnly_of_xlatAll hx) ts bs fl⟩

/-- A unit of SSTORE writes 256 bytes of the stratum as it was when the operation's place came. -/
theorem sstore_moves {y : Stratum} (ho : (s.core c).xq.get? x = some o) (hrun : o.stage = .running) (hi : o.instr = .sstore h f)
    (hcopy : o.copy = some y) (hleft : o.units < imageUnits y.bfmt y.scale)
    (hx : State.xlatAll (.array c) o.ctx .write false false (pagePieces ((o.base.extractLsb' 0 48).toNat + unitOffset y.bfmt o.units)
      (y.bytes (unitOffset y.bfmt o.units) 256).length) s = (.ok ts, s1)) :
    ∃ t, exec (.matrixRowWaitEnd c x) s = .next t ∧ o.Moves c x s t ts (y.bytes (unitOffset y.bfmt o.units) 256) 0 := by
  refine moves_unit ho (by rw [hi]; rfl) hrun (by rw [hi, hcopy]; exact hleft) hx ?_
  unfold State.performUnit State.moveUnit State.agentWrite
  simp only [hi, hcopy, hx]
  rfl

/-- A unit of GSTORE writes a row of its gradient stratum. -/
theorem gstore_moves (ho : (s.core c).xq.get? x = some o) (hrun : o.stage = .running) (hi : o.instr = .gstore h f)
    (hleft : o.units < 128)
    (hx : State.xlatAll (.array c) o.ctx .write false false (pagePieces ((o.base.extractLsb' 0 48).toNat + 256 * o.units)
      (((s.core c).gradRow f.acc.toNat o.units).flatMap fun w => leBytes 4 w.toNat).length) s = (.ok ts, s1)) :
    ∃ t, exec (.matrixRowWaitEnd c x) s = .next t ∧
      o.Moves c x s t ts (((s.core c).gradRow f.acc.toNat o.units).flatMap fun w => leBytes 4 w.toNat) 0 := by
  refine moves_unit ho (by rw [hi]; rfl) hrun (by rw [hi]; exact hleft) hx ?_
  unfold State.performUnit State.moveUnit State.agentWrite
  simp only [hi, hx]
  rfl

/-! ### The rows of ACCST -/

/-- The bytes of one element of a tile row in the format of its slot, and the flags of its conversion. -/
def accstElem (x : BitVec 64) (row : List Word) (draw : Nat → Word) (n : Nat) : List Byte × BitVec 8 :=
  let w := row.getD n 0
  let r := roundFloat (slotOut x) (slotRnd x) (slotSat x) (draw n) (f32 w)
  if slotOut x = 8 then (leBytes 4 w.toNat, (0 : BitVec 8))
  else if slotOut x = 0 then (leBytes 4 w.toNat, nanFlag (f32 w)) else (leBytes 2 r.1, r.2 ||| nanFlag (f32 w))

theorem accstRow_eq (x : BitVec 64) (row : List Word) (draw : Nat → Word) : accstRow x row draw =
    ((List.range 64).flatMap fun n => (accstElem x row draw n).1, (List.range 64).foldl (fun a n => a ||| (accstElem x row draw n).2) 0) := by
  have helem : (fun n => if slotOut x = 0 then (leBytes 4 (row.getD n 0).toNat, nanFlag (f32 (row.getD n 0)))
      else if slotOut x = 8 then (leBytes 4 (row.getD n 0).toNat, 0)
      else ((leBytes 2 (roundFloat (slotOut x) (slotRnd x) (slotSat x) (draw n) (f32 (row.getD n 0))).1,
        (roundFloat (slotOut x) (slotRnd x) (slotSat x) (draw n) (f32 (row.getD n 0))).2 ||| nanFlag (f32 (row.getD n 0))))) =
      accstElem x row draw := by
    funext n
    unfold accstElem
    by_cases h8 : slotOut x = 8
    · rw [if_neg (by omega), if_pos h8, if_pos h8]
    · rw [if_neg h8, if_neg h8]
  unfold accstRow
  dsimp only
  rw [helem, List.flatMap_map, List.foldl_map]

/-- A unit of ACCST writes a row of its tile, rounded to its format. -/
theorem accst_moves (ho : (s.core c).xq.get? x = some o) (hrun : o.stage = .running) (hi : o.instr = .accst h f)
    (hleft : o.units < f.rows.toNat)
    (hx : State.xlatAll (.array c) o.ctx .write false false (pagePieces (o.rowAddr f o.units) ((List.range 64).flatMap fun n =>
      (accstElem o.fmt ((s.core c).tileRow f.acc.toNat o.units) (o.draw o.units · 0xFF) n).1).length) s = (.ok ts, s1)) :
    ∃ t, exec (.matrixRowWaitEnd c x) s = .next t ∧ o.Moves c x s t ts
      ((List.range 64).flatMap fun n => (accstElem o.fmt ((s.core c).tileRow f.acc.toNat o.units) (o.draw o.units · 0xFF) n).1)
      ((List.range 64).foldl (fun a n =>
        a ||| (accstElem o.fmt ((s.core c).tileRow f.acc.toNat o.units) (o.draw o.units · 0xFF) n).2) 0) := by
  refine moves_unit ho (by rw [hi]; rfl) hrun (by rw [hi]; exact hleft) hx ?_
  unfold State.performUnit State.moveUnit State.agentWrite
  simp only [hi, accstRow_eq, hx]
  rfl

/-! ### Operations that wait -/

/-- An asynchronous operation whose place, page or valid time has not come is left as it stands. -/
theorem unitNext_waits (ho : (s.core c).xq.get? x = some o)
    (hwait : o.stage = .queued ∨ (∃ p, o.stage = .page p ∧ p.served = false) ∨ (∃ v, o.stage = .stale v ∧ s.timeAt c < v)) :
    s.unitNext c x = s := by
  unfold State.unitNext
  rw [ho]
  dsimp only
  split
  · rfl
  · rcases hwait with hq | ⟨p, hp, hserved⟩ | ⟨v, hv, hearly⟩
    · rw [hq]
    · simp only [hp, hserved, Bool.not_false, if_true]
    · simp only [hv, if_neg (Nat.not_le.2 hearly)]

theorem unitsOn_waits (hnext : s.unitNext c x = s) (fuel : Nat) : State.unitsOn c x fuel s = s := by
  cases fuel with
  | zero => rfl
  | succ fuel =>
    rw [State.unitsOn]
    split
    · rfl
    · next ho =>
      dsimp only
      rw [hnext, ho]
      exact if_pos rfl

theorem exec_waits (ho : (s.core c).xq.get? x = some o) (hheld : xHeld o.instr = false)
    (hwait : o.stage = .queued ∨ (∃ p, o.stage = .page p ∧ p.served = false) ∨ (∃ v, o.stage = .stale v ∧ s.timeAt c < v)) :
    exec (.xAsyncComplete c x) s = .next s ∧ exec (.matrixRowWaitEnd c x) s = .next s := by
  have hnext := unitNext_waits ho hwait
  have hidle : (o.stage != .running) = true := by
    rcases hwait with hq | ⟨p, hp, -⟩ | ⟨v, hv, -⟩
    · rw [hq]; rfl
    · rw [hp]; rfl
    · rw [hv]; rfl
  have hcomplete : s.completeX c x = s := by
    unfold State.completeX
    rw [ho]
    dsimp only
    rw [if_pos (by rw [hidle]; rfl)]
  refine ⟨by rw [exec_xAsyncComplete ho hheld, unitsOn_waits hnext, hcomplete], ?_⟩
  show execMatrixRowWaitEnd c x s = _
  unfold execMatrixRowWaitEnd
  rw [ho]
  dsimp only
  rw [if_neg (by rw [hheld]; exact Bool.false_ne_true), hnext]

end Sys2Proof.Machine

end

section
/-! SUPPORT. Rows of MMT and MMTX that stop the instruction (06 R120; 10 R212). -/

namespace Sys2Proof.Machine

variable {s : State} {c x : Nat} {o : XOp} {w : Warp} {h : Hdr} {f : XF} {across : Bool} {tag : Byte}

section
variable (ho : (s.core c).xq.get? x = some o) (hrun : o.stage = .running) (hm : o.units < f.rows.toNat)
  (hi : o.instr = if across then .mmtx h f else .mmt h f) (hw : s.warp? c o.slot = some w) (hwid : w.wid = o.wid)
  (howner : (s.core c).owner = some w.ctx) (hxq : (s.core c).xq = [(x, o)])
  (htag : s.tagOf c o f o.units = some tag) (hv : tag.getLsbD 3 = true)
include ho hrun hm hi hw hwid howner hxq htag hv

/-- A row whose stratum is not resident stops the instruction without the skip policy. -/
theorem stops_absent (ha : o.Absent (s.core c) x (tagStratum tag)) (hskip : f.skip = false) :
    o.Stops s c x w (tagStratum tag) 0x06 := by
  refine stops_of_fault ho ((rowNext_mmt ho hrun hm hi).trans ((mmtNext_absent htag hv ha).trans (if_neg ?_))) rfl hw hwid howner hxq
  rw [hskip]
  exact Bool.false_ne_true

/-- A row whose stratum has another format than the slot stops the instruction. -/
theorem stops_otherFormat (ha : ¬o.Absent (s.core c) x (tagStratum tag)) (hc : (s.core c).changing x (tagStratum tag) = false)
    (hfmt : ((s.core c).stratum (tagStratum tag)).bfmt ≠ slotB o.fmt ∨
      ((s.core c).stratum (tagStratum tag)).scale ≠ slotScale o.fmt) :
    o.Stops s c x w (tagStratum tag) 0x0A :=
  stops_of_fault ho ((rowNext_mmt ho hrun hm hi).trans (mmtNext_otherFormat htag hv ha hc hfmt)) rfl hw hwid howner hxq

end

/-- Whether MMT or MMTX, by the one that it is. -/
theorem instr_across (hinstr : o.instr = .mmt h f ∨ o.instr = .mmtx h f ∨ o.instr = .mmtg h f) (hne : o.instr ≠ .mmtg h f) :
    o.instr = if decide (o.instr = .mmtx h f) = true then .mmtx h f else .mmt h f := by
  rcases hinstr with hi | hi | hi
  · rw [hi]; rfl
  · simp [hi]
  · exact absurd hi hne

theorem xHeld_matrix (hinstr : o.instr = .mmt h f ∨ o.instr = .mmtx h f ∨ o.instr = .mmtg h f) : xHeld o.instr = true := by
  rcases hinstr with hi | hi | hi <;> rw [hi] <;> rfl

theorem xTotal_matrix (hinstr : o.instr = .mmt h f ∨ o.instr = .mmtx h f ∨ o.instr = .mmtg h f) :
    xTotal o.instr o.fmt o.copy = f.rows.toNat := by
  rcases hinstr with hi | hi | hi <;> rw [hi] <;> rfl

end Sys2Proof.Machine

open Sys2Proof Sys2Proof.Machine

/-- Settles O42: each row, unit, end and stop by the lemma that says what it leaves, the stores by `stores_writePieces`. -/
theorem matrixAndStrataEvents : Obligations.MatrixAndStrataEvents := by
  unfold Obligations.MatrixAndStrataEvents
  refine ⟨fun s c x o h f w ho hinstr hrun hw hwid => ?_, ?_, ?_, ?_, ?_⟩
  · refine ⟨fun hne hm hm256 tag htag => ?_, ?_, ?_⟩
    · have hi := instr_across hinstr hne
      refine ⟨row_invalid ho hrun hm hi htag, fun hv => ⟨?_, ?_, ?_, ?_⟩⟩
      · intro raw s1 rs hres hc hnon hfmt hscale hrs hread
        have hout : o.rowResult (s.core c) f (decide (o.instr = .mmtx h f)) (tagStratum tag) raw rs = _ :=
          if_congr decide_eq_true_iff rfl rfl
        have hrow := row_commits ho hrun hm hi htag hv hm256 hres hc hnon hfmt hscale hrs hread
        rw [hout] at hrow
        exact hrow
      · exact row_waits ho hrun hm hi htag hv
      · exact row_skipped ho hrun hm hi htag hv
      · exact fun hxq howner => ⟨stops_absent ho hrun hm hi hw hwid howner hxq htag hv,
          stops_otherFormat ho hrun hm hi hw hwid howner hxq htag hv⟩
    · exact fun rows fl s1 hi hm hread => block_applies ho hrun hm hi hread
    · exact fun hall hev => retires ho (xHeld_matrix hinstr) hrun (by rw [xTotal_matrix hinstr]; exact hall) hw hwid hev
  · intro s c x o w ho hheld hrun hall hw hwid hev howner
    obtain ⟨s1, w', hend, hleft⟩ := completes ho hheld hrun hall hw hwid hev howner
    exact ⟨⟨s1, w', by rw [exec_xAsyncComplete ho hheld, hend], hleft⟩,
      fun f h hi => ⟨s1, w', by rw [exec_stratumLoadComplete ho hi, hend], hleft⟩⟩
  · intro s s1 c x o h f bs ho hrun
    refine ⟨fun va n ts hx s2 hread => sourceRead_untouched hx hread,
      fun hi hm hm256 hread => accld_fills ho hrun hi hm hm256 hread, fun hi hm hread => gload_fills ho hrun hi hm hread,
      fun y s2 hi hstride hleft hkind hgot hx hgood hmerge hfmt =>
        sload_fills ho hrun hi hstride hleft hkind hgot hx hgood hmerge hfmt⟩
  · intro s s1 c x o h f ts ho hrun
    exact ⟨fun y hi hcopy hleft hx => sstore_moves ho hrun hi hcopy hleft hx,
      fun hi hleft hx => gstore_moves ho hrun hi hleft hx, fun hi hleft hx => accst_moves ho hrun hi hleft hx⟩
  · exact fun s c x o ho hheld hwait => exec_waits ho hheld hwait

end

section
/-! SUPPORT. Updates of one core and of the entry of one warp in it, and the array that a context takes (06 R114). -/

namespace Sys2Proof.Machine

/-! ### What lies outside a core and one of its warps -/

/-- `t` is `s` but for core `c`, whose warps other than that in entry `slot` are as they were, and for counters of partitions. -/
structure CoreElse (s t : State) (c slot : Nat) : Prop where
  state : t = { s with cores := t.cores, parts := t.parts }
  cores : ∀ k, k ≠ c → t.core k = s.core k
  warps : ∀ o, o ≠ slot → t.warp? c o = s.warp? c o

variable {s t u : State} {c slot : Nat}

theorem CoreElse.rfl' (s : State) (c slot : Nat) : CoreElse s s c slot := ⟨rfl, fun _ _ => rfl, fun _ _ => rfl⟩

theorem CoreElse.trans (h : CoreElse s t c slot) (g : CoreElse t u c slot) : CoreElse s u c slot where
  state := by rw [g.state, h.state]
  cores k hk := by rw [g.cores k hk, h.cores k hk]
  warps o ho := by rw [g.warps o ho, h.warps o ho]

theorem SameElse.coreElse (h : SameElse s t c slot) : CoreElse s t c slot := ⟨h.state, h.cores, h.warps⟩

theorem coreElse_setCore {k : Core} (hk : k.warps = (s.core c).warps) : CoreElse s (s.setCore c k) c slot where
  state := rfl
  cores j hj := by rw [core_setCore, if_neg hj.symm]
  warps o _ := by rw [State.warp?, core_setCore_self, hk, State.warp?]

theorem coreElse_modWarp (f : Warp → Warp) : CoreElse s (s.modWarp c slot f) c slot := (sameElse_modWarp ..).coreElse

theorem coreElse_issued (s : State) (e : Env) (n : Needs) : CoreElse s (s.issued e n) e.core e.slot := (sameElse_issued ..).coreElse

/-- The core of an instruction that issues, but for its warps, its issues and its L1. -/
theorem core_issued (s : State) (e : Env) (n : Needs) : (s.issued e n).core e.core = { s.core e.core with
    warps := ((s.issued e n).core e.core).warps, issued := ((s.issued e n).core e.core).issued
    l1 := ((s.issued e n).core e.core).l1 } := (sameElse_issued s e n).core

theorem core_setWarp_self (s : State) (c slot : Nat) (w : Warp) :
    (s.setWarp c slot w).core c = { s.core c with warps := (s.core c).warps.put slot w } := by
  rw [State.setWarp, core_setCore_self]

/-! ### The array that a context takes -/

section
variable (k : Core) (x : Nat)

theorem takeArray_owner : (k.takeArray x).owner = some x := by
  unfold Core.takeArray
  split
  · next h => exact h
  · rfl

theorem takeArray_frame : (k.takeArray x).warps = k.warps ∧ (k.takeArray x).xq = k.xq ∧ (k.takeArray x).xseq = k.xseq := by
  unfold Core.takeArray
  split <;> exact ⟨rfl, rfl, rfl⟩

/-- The owner of the array finds in it what it has left there; another context finds it empty. -/
theorem takeArray_contents : (k.owner = some x → (k.takeArray x).strata = k.strata ∧ (k.takeArray x).tiles = k.tiles ∧
      (k.takeArray x).grads = k.grads) ∧
    (k.owner ≠ some x → (k.takeArray x).strata = [] ∧ (k.takeArray x).tiles = [] ∧ (k.takeArray x).grads = []) := by
  unfold Core.takeArray
  split
  · next h => exact ⟨fun _ => ⟨rfl, rfl, rfl⟩, fun h' => absurd h h'⟩
  · next h => exact ⟨fun h' => absurd h' h, fun _ => ⟨rfl, rfl, rfl⟩⟩

theorem stratum_takeArray (j : Nat) :
    (k.takeArray x).stratum j = if k.owner = some x then k.stratum j else Stratum.reset := by
  obtain ⟨hown, hother⟩ := takeArray_contents k x
  split
  · next h => rw [Core.stratum, (hown h).1, Core.stratum]
  · next h => rw [Core.stratum, (hother h).1]; rfl

theorem tileRow_takeArray (a m : Nat) :
    (k.takeArray x).tileRow a m = if k.owner = some x then k.tileRow a m else List.replicate 64 0 := by
  obtain ⟨hown, hother⟩ := takeArray_contents k x
  split
  · next h => rw [Core.tileRow, (hown h).2.1, Core.tileRow]
  · next h => rw [Core.tileRow, (hother h).2.1]; rfl

theorem gradRow_takeArray (g m : Nat) :
    (k.takeArray x).gradRow g m = if k.owner = some x then k.gradRow g m else List.replicate 64 0 := by
  obtain ⟨hown, hother⟩ := takeArray_contents k x
  split
  · next h => rw [Core.gradRow, (hown h).2.2, Core.gradRow]
  · next h => rw [Core.gradRow, (hother h).2.2]; rfl

end

end Sys2Proof.Machine

end

section
/-! SUPPORT. A class X instruction as it issues: its operation, and the warp that it leaves (06 R125; 07 R137; 10 R200, R201); and O39. -/

namespace Sys2Proof.Machine

/-! ### The instructions that take a place in the issue order -/

/-- The class X instructions that are queued (10 R200). -/
inductive Queued (h : Hdr) (f : XF) : Instr → Prop where
  | mmt : Queued h f (.mmt h f)
  | mmtx : Queued h f (.mmtx h f)
  | mmtg : Queued h f (.mmtg h f)
  | sevict : Queued h f (.sevict h f)
  | gzero : Queued h f (.gzero h f)
  | accz : Queued h f (.accz h f)
  | accmv : Queued h f (.accmv h f)
  | sload : Queued h f (.sload h f)
  | sstore : Queued h f (.sstore h f)
  | gload : Queued h f (.gload h f)
  | gstore : Queued h f (.gstore h f)
  | accld : Queued h f (.accld h f)
  | accst : Queued h f (.accst h f)

/-- The row scales of a matrix instruction, and the row of ACCMV, as the warp has them at issue. -/
def xRow (i : Instr) (w : Warp) : Word :=
  match i with
  | .mmt _ f | .mmtx _ f | .mmtg _ f => w.xRs f
  | .accmv _ f => mvRow w f
  | _ => 0

variable {h : Hdr} {f : XF} {i : Instr}

theorem Queued.hdr (hq : Queued h f i) : hdrOf i = some h := by cases hq <;> rfl

theorem exec_queued (hq : Queued h f i) (s : State) : exec i s = issue s h i (needs i s) fun e s' =>
    s'.enqueue e h i f (needs i s).dests (xRow i e.w) := by
  cases hq <;> rfl

/-- A held instruction is one of MMT, MMTX and MMTG. -/
theorem Queued.held_iff (hq : Queued h f i) : xHeld i = true ↔ i = .mmt h f ∨ i = .mmtx h f ∨ i = .mmtg h f := by
  cases hq <;> simp [xHeld]

/-- The instructions without an operand in memory are not counted. -/
theorem Queued.counted_iff (hq : Queued h f i) :
    xCounted i = false ↔ i = .sevict h f ∨ i = .gzero h f ∨ i = .accz h f ∨ i = .accmv h f := by
  cases hq <;> simp [xCounted, xHeld]

theorem Queued.count (hq : Queued h f i) (s : State) : (needs i s).dests = [] ∨ (needs i s).count = h.count := by
  cases hq
  case sevict | gzero | accz => exact .inl rfl
  all_goals exact .inr rfl

theorem xRow_held (hh : i = .mmt h f ∨ i = .mmtx h f ∨ i = .mmtg h f) (w : Warp) : xRow i w = w.xRs f := by
  rcases hh with rfl | rfl | rfl <;> rfl

/-! ### Operands -/

/-- What is read where no name stands is zero. -/
theorem word_nul (w : Warp) {n : BitVec 9} (hn : nul n = true) (l : Nat) : w.val n.toNat l = 0 := by
  rw [eq_of_beq hn]
  rfl

theorem word_or_zero (w : Warp) (n : BitVec 9) : (if nul n then 0 else w.word n 0) = w.val n.toNat 0 := by
  split
  · next hn => rw [word_nul w hn]
  · rfl

theorem xBase_eq (w : Warp) (f : XF) : w.xBase f = w.val64 f.aaddr.toNat 0 := by
  rw [Warp.xBase]
  split
  · next hn => rw [eq_of_beq hn]; rfl
  · rfl

/-! ### The warp -/

/-- The warp of an instruction that has been queued: its destination is owed, a counted one counts, a held one stands. -/
def Warp.queuedAs (y : Warp) (e : Env) (i : Instr) (dests : List Nat) (count : BitVec 3) (since : Nat) : Warp :=
  let w1 := y.bindPending e.act dests count
  let w2 := { w1 with tiles := if xCounted i then w1.tiles + 1 else w1.tiles }
  if xHeld i then { w2 with stall := some { kind := .held, since := since } } else w2.advance e.frag

variable {e : Env} {n : Needs} {y : Warp} {dests : List Nat} {count : BitVec 3} {since : Nat}

theorem queuedAs_frame (y : Warp) (e : Env) (i : Instr) (dests : List Nat) (count : BitVec 3) (since : Nat) :
    y.queuedAs e i dests count since = { y with
      names := (y.bindPending e.act dests count).names, pcs := if xHeld i then y.pcs else (y.advance e.frag).pcs
      tiles := if xCounted i then y.tiles + 1 else y.tiles
      stall := if xHeld i then some { kind := .held, since := since } else y.stall } := by
  have hb : y.bindPending e.act dests count = _ := namesOnly_bindPending ..
  rw [kregs_bindPending] at hb
  unfold Warp.queuedAs
  rw [hb]
  cases xHeld i <;> rfl

theorem count_queuedAs (d l : Nat) : (y.queuedAs e i dests count since).count d l = y.count d l := by
  rw [queuedAs_frame, ← count_bindPending y e.act dests count d l]
  rfl

theorem datum_queuedAs (d l : Nat) : (y.queuedAs e i dests count since).datum d l = y.datum d l := by
  rw [queuedAs_frame, ← datum_bindPending y e.act dests count d l]
  rfl

theorem owed_queuedAs (hc : n.dests = [] ∨ n.count = count) (since : Nat) :
    Owed e n ((e.issuedWarp n).queuedAs e i n.dests count since) where
  toNamed := by
    refine named_of_writes (n := { n with dests := [] }) (x := e.issuedWarp n) (fun d l _ => ?_) (fun d l _ => datum_queuedAs d l)
      (fun d l _ => datum_issuedWarp e n d l) (fun _ _ _ => rfl) (fun d l hk => ?_) (by simp [Env.issuedWarp]) List.nodup_nil ?_ ?_
    · rw [count_queuedAs, if_neg (by simp)]
      rfl
    · rw [val_of_isK _ hk, queuedAs_frame, ← val_of_isK (e.issuedWarp n) hk l]
      rfl
    · rw [queuedAs_frame]; simp [Env.issuedWarp]
    · rw [queuedAs_frame]; simp [Env.issuedWarp]
  pending ha hcount d hd hv := by
    rcases hc with hc | hc
    · rw [hc] at hd; cases hd
    · rw [queuedAs_frame]
      exact pendingName_bindPending _ ha (hc ▸ hcount) hd hv

/-- A held instruction leaves every lane where it stands. -/
theorem pc_queuedAs_held (hi : xHeld i = true) (l : Nat) :
    ((e.issuedWarp n).queuedAs e i dests count since).pc l = e.w.wakeZero.pc l := by
  rw [queuedAs_frame, hi]
  rfl

theorem movedOn_queuedAs (hi : xHeld i = false) (hf : e.w.fragment = some (e.pc, e.frag)) :
    MovedOn e ((e.issuedWarp n).queuedAs e i dests count since) := by
  intro l hl
  have hpc : ((e.issuedWarp n).queuedAs e i dests count since).pc l = ((e.issuedWarp n).advance e.frag).pc l := by
    rw [queuedAs_frame, hi]
    rfl
  rw [hpc]
  exact (written_advance (n := { n with dests := [] }) (v := fun _ => []) hf rfl).pcs l hl

/-! ### The operation and its place -/

/-- The operation of an instruction that issues as `e` (06 R125; 10 R201). -/
def State.opOf (s : State) (e : Env) (h : Hdr) (i : Instr) (f : XF) (row : Word) : XOp :=
  let pend := xHeld i && e.w.mrow.getLsbD 31
  { slot := e.slot, wid := e.w.wid, ctx := e.w.ctx, instr := i, pc := e.pc, base := e.w.xBase f
    tag := if nul f.tagaddr then 0 else e.w.word f.tagaddr 0, rs := row
    dest := { name := h.dest, count := h.count, lanes := e.act }, fmt := s.slotOf e.w f.fslot, seed := e.w.seed, stage := .queued
    units := if pend then (e.w.mrow.extractLsb' 0 9).toNat else 0
    contrib := if pend then (e.w.mrow.extractLsb' 16 9).toNat else 0
    skipped := pend && e.w.mrow.getLsbD 25, corrected := false, staleUnit := none
    nonres := ((s.core e.core).takeArray e.w.ctx).nonResident, flags := if pend then e.w.mflags else 0
    copy := none, row := [], got := [] }

/-- A held instruction that stopped partway goes on from its restart state (06 R125). -/
theorem opOf_restarts {s : State} {row : Word} (hp : (xHeld i && e.w.mrow.getLsbD 31) = true) :
    (s.opOf e h i f row).units = (e.w.mrow.extractLsb' 0 9).toNat ∧ (s.opOf e h i f row).contrib = (e.w.mrow.extractLsb' 16 9).toNat ∧
      (s.opOf e h i f row).skipped = e.w.mrow.getLsbD 25 := by
  simp only [State.opOf, hp, if_true, Bool.true_and, true_and]

theorem opOf_begins {s : State} {row : Word} (hp : (xHeld i && e.w.mrow.getLsbD 31) = false) :
    (s.opOf e h i f row).units = 0 ∧ (s.opOf e h i f row).contrib = 0 ∧ (s.opOf e h i f row).skipped = false := by
  simp only [State.opOf, hp, Bool.false_eq_true, if_false, Bool.false_and, true_and]

/-- The array with the operation at the end of its issue order. -/
def State.arrayWith (s : State) (e : Env) (h : Hdr) (i : Instr) (f : XF) (row : Word) : Core :=
  let k := (s.core e.core).takeArray e.w.ctx
  { k with xq := k.xq.put k.xseq (s.opOf e h i f row), xseq := k.xseq + 1 }

/-- The state before what may start, starts. -/
def State.enqueued (s : State) (e : Env) (h : Hdr) (i : Instr) (f : XF) (dests : List Nat) (row : Word) : State :=
  (s.setCore e.core (s.arrayWith e h i f row)).modWarp e.core e.slot fun w => w.queuedAs e i dests h.count s.cycle

theorem enqueue_eq (s : State) (e : Env) (h : Hdr) (i : Instr) (f : XF) (dests : List Nat) (row : Word) :
    s.enqueue e h i f dests row = (s.enqueued e h i f dests row).advanceX e.core := rfl

variable {s : State} {row : Word}

theorem enqueued_eq (hy : s.warp? e.core e.slot = some y) (row : Word) :
    s.enqueued e h i f dests row = (s.setCore e.core (s.arrayWith e h i f row)).setWarp e.core e.slot
      (y.queuedAs e i dests h.count s.cycle) := by
  refine modWarp_eq ?_ _
  rw [State.warp?, core_setCore_self]
  exact (congrArg (fun t : Tab Warp => t.get? e.slot) (takeArray_frame _ _).1).trans hy

theorem coreElse_enqueued (s : State) (e : Env) (h : Hdr) (i : Instr) (f : XF) (dests : List Nat) (row : Word) :
    CoreElse s (s.enqueued e h i f dests row) e.core e.slot :=
  (coreElse_setCore (k := s.arrayWith e h i f row) (takeArray_frame _ _).1).trans (coreElse_modWarp _)

/-- The core once the operation has its place: its context owns the array, and, but for its warps, its issues and its L1,
nothing else of it has changed. -/
theorem core_enqueued (s : State) (e : Env) (n : Needs) (h : Hdr) (i : Instr) (f : XF) (dests : List Nat) (row : Word) :
    let k := ((s.issued e n).enqueued e h i f dests row).core e.core
    k = { (s.core e.core).takeArray e.w.ctx with
      xq := (s.core e.core).xq.put (s.core e.core).xseq ((s.issued e n).opOf e h i f row), xseq := (s.core e.core).xseq + 1
      warps := k.warps, issued := k.issued, l1 := k.l1 } := by
  have htake : ((s.issued e n).core e.core).takeArray e.w.ctx = { (s.core e.core).takeArray e.w.ctx with
      warps := ((s.issued e n).core e.core).warps, issued := ((s.issued e n).core e.core).issued
      l1 := ((s.issued e n).core e.core).l1 } := by
    rw [core_issued, Core.takeArray, Core.takeArray]
    split <;> rfl
  obtain ⟨-, hxq, hseq⟩ := takeArray_frame (s.core e.core) e.w.ctx
  rw [enqueued_eq (warp?_issued s e n), core_setWarp_self, core_setCore_self, State.arrayWith, htake]
  dsimp only
  rw [hxq, hseq]

theorem slotOf_issued (s : State) (e : Env) (n : Needs) (w : Warp) (j : BitVec 3) : (s.issued e n).slotOf w j = s.slotOf w j := by
  rw [(sameElse_issued s e n).state]
  rfl

theorem cycle_issued (s : State) (e : Env) (n : Needs) : (s.issued e n).cycle = s.cycle := by
  rw [(sameElse_issued s e n).state]

/-- Where a queued instruction issues, its operation takes its place, and then what may start, starts. -/
theorem exec_enqueued (hq : Queued h f i) (hr : Ready s i e) : exec i s =
    .next (((s.issued e (needs i s)).enqueued e h i f (needs i s).dests (xRow i e.w)).advanceX e.core) :=
  exec_next hq.hdr (exec_queued hq s) hr

theorem warp?_enqueued (s : State) (e : Env) (n : Needs) (h : Hdr) (i : Instr) (f : XF) (row : Word) :
    ((s.issued e n).enqueued e h i f n.dests row).warp? e.core e.slot =
      some ((e.issuedWarp n).queuedAs e i n.dests h.count s.cycle) := by
  rw [enqueued_eq (warp?_issued s e n), warp?_setWarp_self, cycle_issued]

end Sys2Proof.Machine

open Sys2Proof Sys2Proof.Machine

/-- Settles O39: the instructions that are queued are those of `Queued`, and each has the operation and the warp of `State.enqueued`. -/
theorem strataIssue : Obligations.StrataIssue := by
  unfold Obligations.StrataIssue
  intro i h f s e held bare hclass hr
  have hq : Queued h f i := by
    rcases hclass with (rfl | rfl | rfl) | (rfl | rfl | rfl | rfl) | rfl | rfl | rfl | rfl | rfl | rfl <;> constructor
  have hheld : xHeld i = true ↔ held := hq.held_iff
  have hbare : xCounted i = false ↔ bare := hq.counted_iff
  have hcore := core_enqueued s e (needs i s) h i f (needs i s).dests (xRow i e.w)
  have hcontents := takeArray_contents (s.core e.core) e.w.ctx
  have helse := (coreElse_issued s e (needs i s)).trans
    (coreElse_enqueued (s.issued e (needs i s)) e h i f (needs i s).dests (xRow i e.w))
  have hpend : (held ∧ e.w.mrow.getLsbD 31 = true) ↔ (xHeld i && e.w.mrow.getLsbD 31) = true := by
    rw [Bool.and_eq_true, hheld]
  refine ⟨(s.issued e (needs i s)).opOf e h i f (xRow i e.w), _, _, exec_enqueued hq hr, ?_, ?_, ?_, ?_, ?_, rfl, rfl, rfl, rfl, rfl,
    rfl, xBase_eq e.w f, word_or_zero e.w f.tagaddr, fun hh => ?_, slotOf_issued .., rfl, ⟨?_, ?_, ?_⟩, warp?_enqueued ..,
    owed_queuedAs (hq.count s) _, ?_, fun hh => ?_, fun hh => ?_, helse.state, helse.cores, helse.warps⟩
  · rw [hcore]; exact takeArray_owner ..
  · rw [hcore]
  · rw [hcore]
  · rw [hcore]; exact hcontents.1
  · rw [hcore]; exact hcontents.2
  · exact (xRow_held hh e.w).trans (word_or_zero e.w f.rscale)
  · exact fun hp => opOf_restarts (hpend.1 hp)
  · exact fun hp => opOf_begins (Bool.eq_false_iff.2 fun hb => hp (hpend.2 hb))
  · exact if_congr hpend.symm rfl rfl
  · rw [queuedAs_frame]
    cases hc : xCounted i
    · simp [hbare.1 hc, Env.issuedWarp]
    · have hb : ¬bare := fun hb => by rw [hbare.2 hb] at hc; cases hc
      simp [hb, Env.issuedWarp]
  · refine ⟨fun l => pc_queuedAs_held (hheld.2 hh) l, ?_⟩
    rw [queuedAs_frame, hheld.2 hh]
    rfl
  · exact movedOn_queuedAs (Bool.eq_false_iff.2 fun hb => hh (hheld.1 hb)) hr.env.2

end

section
/-! SUPPORT. The only operation in a core's issue order: what its place, as it comes, makes of it (06 R119; 10 R200, R205 to R207, R213,
R214, R216). -/

namespace Sys2Proof

/-- What is kept of a table by its keys. -/
theorem Tab.get?_filterKeys {α : Type} (t : Tab α) (p : Nat → Bool) (k : Nat) :
    Tab.get? (t.filter fun r => p r.1) k = if p k then t.get? k else none := by
  induction t with
  | nil => simp
  | cons r t ih =>
    obtain ⟨a, x⟩ := r
    cases hp : p a
    · rw [List.filter_cons_of_neg (by simp [hp]), ih, Tab.get?_cons]
      by_cases ha : a = k
      · subst ha; simp [hp]
      · rw [if_neg ha]
    · rw [List.filter_cons_of_pos (by exact hp), Tab.get?_cons, ih, Tab.get?_cons]
      by_cases ha : a = k
      · subst ha; simp [hp]
      · rw [if_neg ha, if_neg ha]

end Sys2Proof

namespace Sys2Proof.Machine

/-! ### An operation that is alone -/

/-- `o`, queued under number `n`, is the only operation of the order of core `c`, whose array belongs to the context of its warp `w`. -/
structure XOp.Alone (o : XOp) (s : State) (c n : Nat) (w : Warp) : Prop where
  xq : (s.core c).xq = [(n, o)]
  queued : o.stage = .queued
  warp : s.warp? c o.slot = some w
  wid : w.wid = o.wid
  evicted : w.evicted = false
  owner : (s.core c).owner = some w.ctx

variable {s : State} {c n : Nat} {o : XOp} {w : Warp} {h : Hdr} {f : XF} {status : Word}

theorem XOp.Alone.get? (ha : o.Alone s c n w) : (s.core c).xq.get? n = some o := by
  rw [ha.xq, Tab.get?_cons, if_pos rfl]

theorem advanceX_alone (ha : o.Alone s c n w) : s.advanceX c = s.startX c n := by
  rw [State.advanceX, ha.xq]
  rfl

/-- The array may change below it. -/
theorem XOp.Alone.setCore (ha : o.Alone s c n w) {k : Core} (hxq : k.xq = (s.core c).xq) (hwarps : k.warps = (s.core c).warps)
    (howner : k.owner = (s.core c).owner) : o.Alone (s.setCore c k) c n w where
  xq := by rw [core_setCore_self, hxq, ha.xq]
  queued := ha.queued
  warp := by rw [State.warp?, core_setCore_self, hwarps]; exact ha.warp
  wid := ha.wid
  evicted := ha.evicted
  owner := by rw [core_setCore_self, howner, ha.owner]

theorem before_alone (ha : o.Alone s c n w) : (s.core c).before n = [] := by
  rw [Core.before, ha.xq]
  simp

theorem changing_alone (ha : o.Alone s c n w) (j : Nat) : (s.core c).changing n j = false := by
  rw [Core.changing, before_alone ha]
  rfl

theorem hasReader_alone (ha : o.Alone s c n w) (j : Nat) : (s.core c).hasReader n j = false := by
  rw [Core.hasReader, before_alone ha]
  rfl

theorem placeCome_alone (ha : o.Alone s c n w) : (s.core c).placeCome n o = true := by
  rw [Core.placeCome, before_alone ha]
  rfl

/-! ### What its start comes to -/

/-- The instructions that run once their place in the order has come. -/
def xRuns (i : Instr) : Prop :=
  ∃ h f, i = .mmt h f ∨ i = .mmtx h f ∨ i = .mmtg h f ∨ i = .gload h f ∨ i = .gstore h f ∨ i = .accld h f ∨ i = .accst h f

theorem startX_runs (ha : o.Alone s c n w) (hi : xRuns o.instr) : s.startX c n = s.modX c n fun o => { o with stage := .running } := by
  unfold State.startX
  obtain ⟨h, f, hi | hi | hi | hi | hi | hi | hi⟩ := hi <;> simp [ha.get?, ha.queued, hi, placeCome_alone ha]

/-- A core, one of whose strata is `t`. -/
def Core.setStratum (k : Core) (j : Nat) (t : Stratum) : Core := { k with strata := k.strata.put j t }

theorem modStratum_eq (s : State) (c j : Nat) (f : Stratum → Stratum) :
    s.modStratum c j f = s.setCore c ((s.core c).setStratum j (f ((s.core c).stratum j))) := rfl

/-- Unless its stratum is LOADING, SLOAD starts at once. -/
theorem changeStratum_sload (ha : o.Alone s c n w) (hi : o.instr = .sload h f) {j : Nat}
    (hj : ((s.core c).stratum j).state ≠ .loading) : s.changeStratum c n j o = s.startLoad c n j o := by
  unfold State.changeStratum
  cases hst : ((s.core c).stratum j).state
  case loading => exact absurd hst hj
  all_goals simp only [hst, hi, hasReader_alone ha, Bool.false_eq_true, if_false]

/-- Unless its stratum is LOADING, SEVICT is performed at once. -/
theorem changeStratum_sevict (ha : o.Alone s c n w) (hi : o.instr = .sevict h f) {j : Nat}
    (hj : ((s.core c).stratum j).state ≠ .loading) :
    s.changeStratum c n j o = (s.modStratum c j fun _ => Stratum.reset).endX c n o 0 := by
  unfold State.changeStratum
  cases hst : ((s.core c).stratum j).state
  case loading => exact absurd hst hj
  all_goals simp only [hst, hi, hasReader_alone ha, Bool.false_eq_true, if_false]

/-- A LOADING stratum stays. -/
theorem changeStratum_loading {j : Nat} (hj : ((s.core c).stratum j).state = .loading) : s.changeStratum c n j o = s := by
  unfold State.changeStratum
  simp only [hj]

theorem startX_sload (ha : o.Alone s c n w) (hi : o.instr = .sload h f) :
    s.startX c n = s.changeStratum c n f.stratum.toNat o := by
  simp [State.startX, ha.get?, ha.queued, hi, changing_alone ha]

theorem startX_sevict (ha : o.Alone s c n w) (hi : o.instr = .sevict h f) :
    s.startX c n = s.changeStratum c n f.stratum.toNat o := by
  simp [State.startX, ha.get?, ha.queued, hi, changing_alone ha]

theorem startX_sstore (ha : o.Alone s c n w) (hi : o.instr = .sstore h f) : s.startX c n =
    if ((s.core c).stratum f.stratum.toNat).state = .resident then
      s.modX c n fun o => { o with stage := .running, copy := some ((s.core c).stratum f.stratum.toNat) }
    else s.endAsync c n o 2 cTagMiss := by
  simp [State.startX, ha.get?, ha.queued, hi, changing_alone ha]

/-- A core whose gradient stratum `g` is zero. -/
def Core.zeroGrads (k : Core) (g : Nat) : Core := { k with grads := k.grads.filter fun r => r.1 / 128 != g }

/-- A core, the first rows of whose tile `a` are zero. -/
def Core.zeroRows (k : Core) (a rows : Nat) : Core :=
  { k with tiles := k.tiles.filter fun r => !(r.1 / 256 == a && decide (r.1 % 256 < rows)) }

theorem startX_gzero (ha : o.Alone s c n w) (hi : o.instr = .gzero h f) :
    s.startX c n = (s.setCore c ((s.core c).zeroGrads f.acc.toNat)).endX c n o 0 := by
  simp [State.startX, ha.get?, ha.queued, hi, placeCome_alone ha, State.modCore, Core.zeroGrads]

theorem startX_accz (ha : o.Alone s c n w) (hi : o.instr = .accz h f) :
    s.startX c n = (s.setCore c ((s.core c).zeroRows f.acc.toNat f.rows.toNat)).endX c n o 0 := by
  simp [State.startX, ha.get?, ha.queued, hi, placeCome_alone ha, State.modCore, Core.zeroRows]

theorem startX_accmv (ha : o.Alone s c n w) (hi : o.instr = .accmv h f) : s.startX c n =
    (s.deleteX c n).completeOwed c o.slot o.wid o.dest 2 (mvWords ((s.core c).tileRow f.acc.toNat o.rs.toNat)) := by
  simp [State.startX, ha.get?, ha.queued, hi, placeCome_alone ha]

/-! ### Its end -/

/-- The state once it has left the order, its warp become `w'`. -/
def State.emptied (s : State) (c slot : Nat) (w' : Warp) : State :=
  (s.setCore c { s.core c with xq := [] }).setWarp c slot w'

theorem deleteX_alone (ha : o.Alone s c n w) : s.deleteX c n = s.setCore c { s.core c with xq := [] } := by
  rw [deleteX_owned ha.warp ha.owner, ha.xq]
  simp [Tab.del]

theorem warp?_deleteX_alone (ha : o.Alone s c n w) : (s.deleteX c n).warp? c o.slot = some w := by
  rw [deleteX_alone ha, State.warp?, core_setCore_self]
  exact ha.warp

theorem endX_alone (ha : o.Alone s c n w) (status : Word) : s.endX c n o status = s.emptied c o.slot (o.ended status w) := by
  rw [endX_eq (warp?_deleteX_alone ha) ha.wid ha.evicted, deleteX_alone ha, State.emptied]

theorem completeOwed_alone (ha : o.Alone s c n w) (k : Nat) (v : Nat → List Word) :
    (s.deleteX c n).completeOwed c o.slot o.wid o.dest k v = s.emptied c o.slot (w.complete o.dest k v) := by
  rw [← ha.wid, completeOwed_eq (warp?_deleteX_alone ha) ha.evicted, deleteX_alone ha, State.emptied]

/-- The end of an asynchronous operation reports its flags, and its status. -/
theorem endAsync_alone (ha : o.Alone s c n w) {state : Nat} (hstate : state ≠ 0) (code : BitVec 8) :
    s.endAsync c n o state code = (s.setWarp c o.slot (w.orFlags o.flags)).emptied c o.slot
      (o.ended (statusWord o.units code state) (w.orFlags o.flags)) := by
  have hset : o.Alone (s.setWarp c o.slot (w.orFlags o.flags)) c n (w.orFlags o.flags) :=
    { xq := by rw [xq_setWarp, ha.xq], queued := ha.queued, warp := warp?_setWarp_self .., wid := ha.wid, evicted := ha.evicted
      owner := by rw [core_setWarp_self]; exact ha.owner }
  rw [State.endAsync, modWarp_eq ha.warp, if_pos ha.wid, if_neg (by simp [hstate]), endX_alone hset]

section
variable (s : State) (c slot : Nat) (w' : Warp)

theorem warp?_emptied : (s.emptied c slot w').warp? c slot = some w' := warp?_setWarp_self ..

/-- Nothing of the core changes but its order and the warp. -/
theorem core_emptied : (s.emptied c slot w').core c = { s.core c with xq := [], warps := (s.core c).warps.put slot w' } := by
  rw [State.emptied, core_setWarp_self, core_setCore_self]

theorem coreElse_emptied : CoreElse s (s.emptied c slot w') c slot :=
  (coreElse_setCore (k := { s.core c with xq := [] }) rfl).trans (sameElse_setWarp ..).coreElse

end

/-- Each constituent of a completed destination holds its value with the count in the lanes that still take it. -/
theorem complete_values {d : Dest} {k j : Nat} {v : Nat → List Word} (hj : j < k) (hdest : isV d.name.toNat = true)
    (hv : isV (d.name.toNat + j) = true) (hc : d.count ≠ 0) {l : Nat} (hl : l < 32) (ho : laneOn (d.lanes &&& w.live) l = true) :
    (w.complete d k v).val (d.name.toNat + j) l = (v l).getD j 0 ∧ (w.complete d k v).count (d.name.toNat + j) l = d.count := by
  have hname : (constituents d.name k)[j]? = some (d.name.toNat + j) := by
    rw [constituents, if_neg (ne_none_of_isV hdest), List.getElem?_map, List.getElem?_range hj, Option.map_some]
  have hk : isK d.name.toNat = false := by
    by_contra hk
    rw [not_isV_of_isK (Bool.not_eq_false _ ▸ hk)] at hdest
    cases hdest
  have howed : laneOn (w.owedLanes d) l = true := by
    rw [Warp.owedLanes, hk]
    exact ho
  have hcount : (w.complete d k v).count (d.name.toNat + j) l = d.count := by
    rw [Warp.complete, count_completeIn _ _ _ _ _ _ hl, if_pos ⟨List.mem_of_getElem? hname, hv, hc, howed⟩]
  refine ⟨?_, hcount⟩
  rw [val_eq_datum _ hv, Warp.complete, datum_completeIn _ _ _ _ _ (by rw [← Warp.complete, hcount]; exact hc),
    datum_writeNames _ _ _ _ _ 0 j _ hl (constituents_nodup ..) hname hv hc howed, Nat.zero_add]

/-! ### What stays as it was -/

theorem coreElse_modX (f : XOp → XOp) (slot : Nat) : CoreElse s (s.modX c n f) c slot := by
  refine coreElse_setCore ?_
  dsimp only
  split <;> rfl

theorem coreElse_modStratum (j : Nat) (f : Stratum → Stratum) (slot : Nat) : CoreElse s (s.modStratum c j f) c slot :=
  coreElse_setCore rfl

theorem coreElse_startLoad (j slot : Nat) : CoreElse s (s.startLoad c n j o) c slot :=
  (coreElse_modStratum j _ slot).trans (coreElse_modX _ slot)

theorem coreElse_endX_setCore (ha : o.Alone s c n w) {k : Core} (hxq : k.xq = (s.core c).xq) (hwarps : k.warps = (s.core c).warps)
    (howner : k.owner = (s.core c).owner) (status : Word) : CoreElse s ((s.setCore c k).endX c n o status) c o.slot := by
  rw [endX_alone (ha.setCore hxq hwarps howner)]
  exact (coreElse_setCore hwarps).trans (coreElse_emptied ..)

theorem coreElse_sload (ha : o.Alone s c n w) (hi : o.instr = .sload h f) (j : Nat) :
    CoreElse s (s.changeStratum c n j o) c o.slot := by
  by_cases hj : ((s.core c).stratum j).state = .loading
  · rw [changeStratum_loading hj]
    exact .rfl' ..
  · rw [changeStratum_sload ha hi hj]
    exact coreElse_startLoad ..

theorem coreElse_sevict (ha : o.Alone s c n w) (hi : o.instr = .sevict h f) (j : Nat) :
    CoreElse s (s.changeStratum c n j o) c o.slot := by
  by_cases hj : ((s.core c).stratum j).state = .loading
  · rw [changeStratum_loading hj]
    exact .rfl' ..
  · rw [changeStratum_sevict ha hi hj]
    exact coreElse_endX_setCore ha (k := (s.core c).setStratum j Stratum.reset) rfl rfl rfl 0

/-- What the start of a lone operation leaves outside its core, and in the core's other warps, is what it was. -/
theorem coreElse_startX (ha : o.Alone s c n w) (hq : Queued h f o.instr) :
    CoreElse s (s.startX c n) c o.slot := by
  generalize hi : o.instr = i at hq
  cases hq
  case sload => rw [startX_sload ha hi]; exact coreElse_sload ha hi _
  case sevict => rw [startX_sevict ha hi]; exact coreElse_sevict ha hi _
  case sstore =>
    rw [startX_sstore ha hi]
    split
    · exact coreElse_modX ..
    · rw [endAsync_alone ha (by decide)]
      exact (sameElse_setWarp ..).coreElse.trans (coreElse_emptied ..)
  case gzero => rw [startX_gzero ha hi]; exact coreElse_endX_setCore ha (k := (s.core c).zeroGrads _) rfl rfl rfl 0
  case accz => rw [startX_accz ha hi]; exact coreElse_endX_setCore ha (k := (s.core c).zeroRows _ _) rfl rfl rfl 0
  case accmv => rw [startX_accmv ha hi, completeOwed_alone ha]; exact coreElse_emptied ..
  all_goals
    rw [startX_runs ha ⟨h, f, by simp [hi]⟩]
    exact coreElse_modX ..

end Sys2Proof.Machine

end

section
/-! SUPPORT. A class X instruction that issues with no other operation in the array's order (06 R119; 10 R200, R205 to R207, R213, R216). -/

namespace Sys2Proof.Machine

/-! ### Checks at issue -/

variable {s : State} {e : Env} {h : Hdr} {f : XF} {i : Instr}

/-- What an instruction of class X has passed as it issues (10 R197). -/
theorem xCheck_none {combo align : Bool} {scratch : List (Word × Nat)} {range : Option Raise}
    (hc : s.xCheck e combo align scratch range = none) : converged e = none ∧ combo = true ∧ s.scratchOperands e scratch = none := by
  unfold State.xCheck at hc
  split at hc
  · cases hc
  · next hconv =>
    split at hc
    · cases hc
    · next hcombo =>
      split at hc
      · cases hc
      · split at hc
        · cases hc
        · next hscratch => exact ⟨hconv, by simpa using hcombo, hscratch⟩

theorem converged_full (hc : converged e = none) : e.act = fullMask := by
  unfold converged at hc
  split at hc
  · next hfull => exact hfull.2
  · cases hc

theorem converged_sstore (hr : Ready s (.sstore h f) e) : converged e = none := by
  have hentry := hr.entry
  simp only [needs, needsSstore] at hentry
  exact (xCheck_none hentry).1

theorem converged_accmv (hr : Ready s (.accmv h f) e) : converged e = none := by
  have hentry := hr.entry
  simp only [needs, needsAccmv] at hentry
  exact (xCheck_none hentry).1

/-- Masks that share a lane. -/
theorem masks_ne_zero {a b : Mask} {l : Nat} (hon : laneOn (a &&& b) l = true) : a ≠ 0 ∧ b ≠ 0 := by
  rw [laneOn_and, Bool.and_eq_true] at hon
  exact ⟨fun h0 => by simp [h0, laneOn] at hon, fun h0 => by simp [h0, laneOn] at hon⟩

/-! ### The state in which its operation is alone -/

/-- The state in which an instruction that issues has taken its place. -/
def State.placed (s : State) (e : Env) (h : Hdr) (i : Instr) (f : XF) : State :=
  (s.issued e (needs i s)).enqueued e h i f (needs i s).dests (xRow i e.w)

/-- Its operation. -/
def State.placedOp (s : State) (e : Env) (h : Hdr) (i : Instr) (f : XF) : XOp :=
  (s.issued e (needs i s)).opOf e h i f (xRow i e.w)

/-- Its warp. -/
def State.placedWarp (s : State) (e : Env) (h : Hdr) (i : Instr) : Warp :=
  (e.issuedWarp (needs i s)).queuedAs e i (needs i s).dests h.count s.cycle

theorem placedWarp_keeps (s : State) (e : Env) (h : Hdr) (i : Instr) : (s.placedWarp e h i).wid = e.w.wid ∧
    (s.placedWarp e h i).evicted = e.w.evicted ∧ (s.placedWarp e h i).ctx = e.w.ctx ∧ (s.placedWarp e h i).live = e.w.live ∧
    (s.placedWarp e h i).tiles = if xCounted i then e.w.tiles + 1 else e.w.tiles := by
  rw [State.placedWarp, queuedAs_frame]
  simp [Env.issuedWarp]

theorem alone_placed (hr : Ready s i e) (hxq : (s.core e.core).xq = []) :
    (s.placedOp e h i f).Alone (s.placed e h i f) e.core (s.core e.core).xseq (s.placedWarp e h i) := by
  obtain ⟨hwid, hev, hctx, -, -⟩ := placedWarp_keeps s e h i
  have hcore := core_enqueued s e (needs i s) h i f (needs i s).dests (xRow i e.w)
  obtain ⟨_, -, he⟩ := hr
  obtain ⟨-, -, -, hnot, -⟩ := env?_spec he.1
  refine ⟨?_, rfl, warp?_enqueued .., hwid, hev.trans hnot, ?_⟩
  · rw [State.placed, hcore, hxq]
    rfl
  · rw [State.placed, hcore, hctx]
    exact takeArray_owner ..

theorem exec_placed (hq : Queued h f i) (hr : Ready s i e) (hxq : (s.core e.core).xq = []) :
    exec i s = .next ((s.placed e h i f).startX e.core (s.core e.core).xseq) :=
  (exec_enqueued hq hr).trans (congrArg _ (advanceX_alone (alone_placed hr hxq)))

theorem stratum_placed (j : Nat) : ((s.placed e h i f).core e.core).stratum j =
    if (s.core e.core).owner = some e.w.ctx then (s.core e.core).stratum j else Stratum.reset := by
  rw [← stratum_takeArray, Core.stratum, State.placed, core_enqueued, Core.stratum]

theorem tileRow_placed (a m : Nat) : ((s.placed e h i f).core e.core).tileRow a m =
    if (s.core e.core).owner = some e.w.ctx then (s.core e.core).tileRow a m else List.replicate 64 0 := by
  rw [← tileRow_takeArray, Core.tileRow, State.placed, core_enqueued, Core.tileRow]

theorem gradRow_placed (g m : Nat) : ((s.placed e h i f).core e.core).gradRow g m =
    if (s.core e.core).owner = some e.w.ctx then (s.core e.core).gradRow g m else List.replicate 64 0 := by
  rw [← gradRow_takeArray, Core.gradRow, State.placed, core_enqueued, Core.gradRow]

theorem movedOn_placed (hr : Ready s i e) (hi : xHeld i = false) : MovedOn e (s.placedWarp e h i) :=
  movedOn_queuedAs hi hr.env.2

/-- Every lane is active where an instruction issues converged, and lives. -/
theorem laneOn_converged (hr : Ready s i e) (hc : converged e = none) {l : Nat} (hl : l < 32) :
    laneOn (e.act &&& e.w.live) l = true := by
  obtain ⟨_, -, he⟩ := hr
  rw [act_live he.1, converged_full hc]
  exact laneOn_full hl

/-! ### What stays as it was -/

/-- Nothing changes but the core's array, its order and the warp. -/
theorem queued_frame (hq : Queued h f i) (hr : Ready s i e) (hxq : (s.core e.core).xq = []) :
    ∃ t, exec i s = .next t ∧ CoreElse s t e.core e.slot :=
  ⟨_, exec_placed hq hr hxq, ((coreElse_issued s e (needs i s)).trans (coreElse_enqueued ..)).trans
    (coreElse_startX (alone_placed hr hxq) (show Queued h f (s.placedOp e h i f).instr from hq))⟩

/-! ### The instructions that run -/

theorem runs_placed (hi : xRuns i) (hq : Queued h f i) (hr : Ready s i e) (hxq : (s.core e.core).xq = []) :
    ∃ t o, exec i s = .next t ∧ (t.core e.core).xq.get? (s.core e.core).xseq = some o ∧ o.stage = .running := by
  have ha := alone_placed (h := h) (f := f) hr hxq
  have hexec := exec_placed hq hr hxq
  rw [startX_runs ha hi] at hexec
  exact ⟨_, _, hexec, xq_modX ha.get? fun o => { o with stage := .running }, rfl⟩

theorem stratum_setStratum (k : Core) (j : Nat) (t : Stratum) : (k.setStratum j t).stratum j = t := by
  rw [Core.stratum, Core.setStratum, Tab.getD_put_self]

theorem sload_placed (hr : Ready s (.sload h f) e) (hxq : (s.core e.core).xq = [])
    (hold : (((s.placed e h (.sload h f) f).core e.core).stratum f.stratum.toNat).state ≠ .loading) :
    ∃ t o, exec (.sload h f) s = .next t ∧ (t.core e.core).xq.get? (s.core e.core).xseq = some o ∧ o.stage = .running ∧
      (t.core e.core).stratum f.stratum.toNat = { state := .loading, bfmt := slotB (s.slotOf e.w f.fslot)
                                                  scale := slotScale (s.slotOf e.w f.fslot), image := [] } := by
  have ha := alone_placed (h := h) (f := f) hr hxq
  have hexec := exec_placed .sload hr hxq
  rw [startX_sload ha rfl, changeStratum_sload ha rfl hold] at hexec
  have ho := (ha.setCore (k := ((s.placed e h (.sload h f) f).core e.core).setStratum f.stratum.toNat
    { state := .loading, bfmt := slotB (s.placedOp e h (.sload h f) f).fmt, scale := slotScale (s.placedOp e h (.sload h f) f).fmt
      image := [] }) rfl rfl rfl).get?
  refine ⟨_, _, hexec, xq_modX ho fun o => { o with stage := .running }, rfl, ?_⟩
  rw [← slotOf_issued s e (needs (.sload h f) s)]
  refine (congrArg (fun k : Core => k.stratum f.stratum.toNat) (core_modX ho fun o => { o with stage := .running })).trans ?_
  rw [core_setCore_self]
  exact stratum_setStratum ..

theorem sevict_placed (hr : Ready s (.sevict h f) e) (hxq : (s.core e.core).xq = [])
    (hold : (((s.placed e h (.sevict h f) f).core e.core).stratum f.stratum.toNat).state ≠ .loading) :
    ∃ t, exec (.sevict h f) s = .next t ∧ (t.core e.core).xq.get? (s.core e.core).xseq = none ∧
      ((t.core e.core).stratum f.stratum.toNat).state = .empty := by
  have ha := alone_placed (h := h) (f := f) hr hxq
  have hexec := exec_placed .sevict hr hxq
  rw [startX_sevict ha rfl, changeStratum_sevict ha rfl hold] at hexec
  have hend := endX_alone (ha.setCore (k := ((s.placed e h (.sevict h f) f).core e.core).setStratum f.stratum.toNat Stratum.reset)
    rfl rfl rfl) 0
  refine ⟨_, hexec.trans (congrArg _ hend), ?_⟩
  rw [core_emptied, core_setCore_self]
  exact ⟨rfl, congrArg Stratum.state (stratum_setStratum ((s.placed e h (.sevict h f) f).core e.core) f.stratum.toNat Stratum.reset)⟩

/-! ### SSTORE -/

theorem sstore_placed (hr : Ready s (.sstore h f) e) (hxq : (s.core e.core).xq = [])
    (hold : (((s.placed e h (.sstore h f) f).core e.core).stratum f.stratum.toNat).state = .resident) :
    ∃ t o, exec (.sstore h f) s = .next t ∧ (t.core e.core).xq.get? (s.core e.core).xseq = some o ∧ o.stage = .running ∧
      o.copy = some (((s.placed e h (.sstore h f) f).core e.core).stratum f.stratum.toNat) := by
  have ha := alone_placed (h := h) (f := f) hr hxq
  have hexec := exec_placed .sstore hr hxq
  rw [startX_sstore ha rfl, if_pos hold] at hexec
  exact ⟨_, _, hexec, xq_modX ha.get? fun o => { o with
    stage := .running, copy := some (((s.placed e h (.sstore h f) f).core e.core).stratum f.stratum.toNat) }, rfl, rfl⟩

/-- An SSTORE of a stratum that is not RESIDENT has state 2, the code TAG_MISS and no unit done (10 R206). -/
theorem sstore_missed (hr : Ready s (.sstore h f) e) (hxq : (s.core e.core).xq = [])
    (hold : (((s.placed e h (.sstore h f) f).core e.core).stratum f.stratum.toNat).state ≠ .resident) :
    ∃ t w, exec (.sstore h f) s = .next t ∧ t.warp? e.core e.slot = some w ∧ (t.core e.core).xq.get? (s.core e.core).xseq = none ∧
      w.tiles = e.w.tiles ∧ MovedOn e w ∧
      (∀ l, l < 32 → isV h.dest.toNat = true → h.count ≠ 0 →
        w.val h.dest.toNat l = 0x00000062 ∧ w.count h.dest.toNat l = h.count) ∧
      (isK h.dest.toNat = true → ∀ l, w.val h.dest.toNat l = 0x00000062) := by
  have ha := alone_placed (h := h) (f := f) hr hxq
  have hconv := converged_sstore hr
  obtain ⟨-, -, -, hlive, htiles⟩ := placedWarp_keeps s e h (.sstore h f)
  have hexec := exec_placed .sstore hr hxq
  have hunits : (s.placedOp e h (.sstore h f) f).units = 0 := rfl
  have hword : statusWord 0 cTagMiss 2 = 0x00000062 := by decide
  rw [startX_sstore ha rfl, if_neg hold, endAsync_alone ha (by decide), hunits, hword] at hexec
  have hframe := ended_frame (s.placedOp e h (.sstore h f) f) 0x00000062#32 ((s.placedWarp e h (.sstore h f)).orFlags
    (s.placedOp e h (.sstore h f) f).flags)
  have hon : ∀ l, l < 32 → laneOn (e.act &&& (s.placedWarp e h (.sstore h f)).live) l = true :=
    fun l hl => hlive.symm ▸ laneOn_converged hr hconv hl
  have hstatus := statusIn_ended (s.placedOp e h (.sstore h f) f) 0x00000062#32 ((s.placedWarp e h (.sstore h f)).orFlags
    (s.placedOp e h (.sstore h f) f).flags)
  refine ⟨_, _, hexec, warp?_emptied .., ?_, ?_, fun l hl => ?_, fun l hl hv hc => hstatus.1 l hl hv hc (hon l hl),
    fun hk => ?_⟩
  · rw [core_emptied]
    rfl
  · refine (congrArg Warp.tiles hframe).trans ?_
    show (s.placedWarp e h (.sstore h f)).tiles - 1 = _
    rw [htiles]
    rfl
  · refine Eq.trans ?_ (movedOn_placed (h := h) hr rfl l hl)
    have hpcs := congrArg Warp.pcs hframe
    exact congrArg (fun ps : List PC => ps.getD l 0) hpcs
  · obtain ⟨hact, hlive0⟩ := masks_ne_zero (hon 0 (by decide))
    exact hstatus.2 hk hlive0 hact

/-! ### GZERO and ACCMV -/

theorem gradRow_zeroGrads (k : Core) (b g : Nat) {m : Nat} (hm : m < 128) :
    (k.zeroGrads b).gradRow g m = if g = b then List.replicate 64 0 else k.gradRow g m := by
  have hdiv : (128 * g + m) / 128 = g := by omega
  rw [Core.gradRow, Core.zeroGrads, Tab.getD, Tab.get?_filterKeys k.grads (fun r => r / 128 != b) (128 * g + m), hdiv]
  by_cases hg : g = b
  · simp [hg]
  · simp [hg, Core.gradRow, Tab.getD]

theorem gzero_placed (hr : Ready s (.gzero h f) e) (hxq : (s.core e.core).xq = []) :
    ∃ t, exec (.gzero h f) s = .next t ∧ (t.core e.core).xq.get? (s.core e.core).xseq = none ∧
      ∀ g m, m < 128 → (t.core e.core).gradRow g m = if g = f.acc.toNat then List.replicate 64 0
        else if (s.core e.core).owner = some e.w.ctx then (s.core e.core).gradRow g m else List.replicate 64 0 := by
  have ha := alone_placed (h := h) (f := f) hr hxq
  refine ⟨_, exec_placed .gzero hr hxq, ?_⟩
  rw [startX_gzero ha rfl, endX_alone (ha.setCore (k := ((s.placed e h (.gzero h f) f).core e.core).zeroGrads f.acc.toNat)
    rfl rfl rfl), core_emptied, core_setCore_self]
  refine ⟨rfl, fun g m hm => ?_⟩
  rw [← gradRow_placed (h := h) (i := .gzero h f) (f := f)]
  exact gradRow_zeroGrads _ _ _ hm

/-- The row that ACCMV reads. -/
theorem toNat_mvRow (w : Warp) (f : XF) :
    (mvRow w f).toNat = if f.rscale = 511 then f.stride.toNat else (w.val f.rscale.toNat 0).toNat := by
  unfold mvRow nul
  by_cases hn : f.rscale = 511
  · rw [if_pos hn, if_pos (by simp [hn]), BitVec.toNat_setWidth_of_le (by decide)]
  · rw [if_neg hn, if_neg (by simpa using hn), Warp.word]

/-- ACCMV's destination is a pair of V registers. -/
theorem accmv_dest (hr : Ready s (.accmv h f) e) : isV h.dest.toNat = true ∧ isV (h.dest.toNat + 1) = true := by
  have hfields := hr.fields
  simp only [needs, needsAccmv, Bool.and_eq_true] at hfields
  obtain ⟨⟨-, hvec⟩, hdest⟩ := hfields
  have hv : h.dest.toNat < 320 := by simpa [vec, isV] using hvec
  have hpair : h.dest.toNat % 2 = 0 := by simpa [destOk, hvec] using hdest
  exact ⟨hvec, decide_eq_true (by omega)⟩

theorem accmv_placed (hr : Ready s (.accmv h f) e) (hxq : (s.core e.core).xq = []) :
    ∃ t w, exec (.accmv h f) s = .next t ∧ t.warp? e.core e.slot = some w ∧ MovedOn e w ∧
      (h.count ≠ 0 → ∀ l, l < 32 →
        let row := ((s.placed e h (.accmv h f) f).core e.core).tileRow f.acc.toNat (mvRow e.w f).toNat
        w.val h.dest.toNat l = row.getD (2 * l) 0 ∧ w.val (h.dest.toNat + 1) l = row.getD (2 * l + 1) 0 ∧
        w.count h.dest.toNat l = h.count ∧ w.count (h.dest.toNat + 1) l = h.count) := by
  have ha := alone_placed (h := h) (f := f) hr hxq
  have hconv := converged_accmv hr
  obtain ⟨-, -, -, hlive, -⟩ := placedWarp_keeps s e h (.accmv h f)
  obtain ⟨hv, hv1⟩ := accmv_dest hr
  have hexec := exec_placed .accmv hr hxq
  rw [startX_accmv ha rfl, completeOwed_alone ha] at hexec
  refine ⟨_, _, hexec, warp?_emptied .., fun l hl => ?_, fun hc l hl => ?_⟩
  · refine Eq.trans ?_ (movedOn_placed (h := h) hr rfl l hl)
    rw [complete_frame]
    rfl
  · have hon : laneOn (e.act &&& (s.placedWarp e h (.accmv h f)).live) l = true := hlive.symm ▸ laneOn_converged hr hconv hl
    have hvalues := fun (j : Nat) (hj : j < 2) (hvj : isV (h.dest.toNat + j) = true) =>
      complete_values (w := s.placedWarp e h (.accmv h f)) (d := (s.placedOp e h (.accmv h f) f).dest) (k := 2)
        (v := mvWords (((s.placed e h (.accmv h f) f).core e.core).tileRow f.acc.toNat (mvRow e.w f).toNat)) hj hv hvj hc hl hon
    obtain ⟨hval0, hcount0⟩ := hvalues 0 (by decide) hv
    obtain ⟨hval1, hcount1⟩ := hvalues 1 (by decide) hv1
    exact ⟨hval0, hval1, hcount0, hcount1⟩

end Sys2Proof.Machine

end

section
/-! SUPPORT. SSTAT, TAGCNT and TAGSET, which take effect as they issue (06 R118; 10 R208, R217, R218); and O41. -/

namespace Sys2Proof.Machine

/-! ### The array is taken, and the destination written -/

/-- The context of an instruction that issues takes the array (06 R114). -/
def State.takes (s : State) (e : Env) : State := s.modCore e.core fun k => k.takeArray e.w.ctx

variable {s : State} {e : Env} {h : Hdr} {f : XF} {i : Instr}

theorem coreElse_takes (s : State) (e : Env) : CoreElse s (s.takes e) e.core e.slot := coreElse_setCore (takeArray_frame _ _).1

theorem warp?_takes (s : State) (e : Env) : (s.takes e).warp? e.core e.slot = s.warp? e.core e.slot := by
  rw [State.warp?, State.takes, State.modCore, core_setCore_self, (takeArray_frame _ _).1, State.warp?]

theorem stratum_takes (s : State) (e : Env) (n : Needs) (j : Nat) : (((s.issued e n).takes e).core e.core).stratum j =
    if (s.core e.core).owner = some e.w.ctx then (s.core e.core).stratum j else Stratum.reset := by
  rw [State.takes, State.modCore, core_setCore_self, stratum_takeArray, core_issued]
  rfl

theorem spad_takes (s : State) (e : Env) (n : Needs) : ((s.issued e n).takes e).spad = s.spad := by
  rw [((coreElse_issued s e n).trans (coreElse_takes ..)).state]

/-- An instruction that takes the array and writes its destination at once. -/
theorem takes_finish {v : Env → State → Nat → List Word} (hh : hdrOf i = some h)
    (hi : exec i s = issue s h i (needs i s) fun e s' => finish e (needs i s).dests (needs i s).count (v e (s'.takes e)) (s'.takes e))
    (hr : Ready s i e) : ∃ t w, exec i s = .next t ∧ t.warp? e.core e.slot = some w ∧
      Written e (needs i s) (v e ((s.issued e (needs i s)).takes e)) {} w ∧ CoreElse s t e.core e.slot := by
  refine ⟨_, _, exec_next hh hi hr, ?_, written_finish hr.env.2 (dests_nodup i s),
    ((coreElse_issued ..).trans (coreElse_takes ..)).trans (coreElse_modWarp _)⟩
  rw [finish, warp?_modWarp_self, warp?_takes, warp?_issued]
  rfl

/-! ### SSTAT -/

/-- The states of an array whose strata are all EMPTY. -/
theorem stratumWord_empty {k : Core} (hk : ∀ j, k.stratum j = Stratum.reset) : k.stratumWord = 0 := by
  simp only [Core.stratumWord, hk]
  rfl

theorem stratumWord_takes (s : State) (e : Env) (n : Needs) : (((s.issued e n).takes e).core e.core).stratumWord =
    if (s.core e.core).owner = some e.w.ctx then (s.core e.core).stratumWord else 0 := by
  have hstrata := stratum_takes s e n
  split
  · next hown =>
    simp only [if_pos hown] at hstrata
    simp only [Core.stratumWord, hstrata]
  · next hown =>
    simp only [if_neg hown] at hstrata
    exact stratumWord_empty hstrata

theorem sstat_issues (hr : Ready s (.sstat h f) e) : ∃ t w, exec (.sstat h f) s = .next t ∧ t.warp? e.core e.slot = some w ∧
    Written e (needs (.sstat h f) s) (fun _ => [if (s.core e.core).owner = some e.w.ctx then (s.core e.core).stratumWord else 0]) {} w ∧
    CoreElse s t e.core e.slot := by
  rw [← stratumWord_takes s e (needs (.sstat h f) s)]
  exact takes_finish (v := fun e s _ => [(s.core e.core).stratumWord]) rfl rfl hr

/-! ### Scratchpad operands -/

/-- The place in the scratchpads of a marked address. -/
def markedPlace (core : Nat) (a : Word) : Nat :=
  spadAt (if a.getLsbD 24 then core / 8 * 8 + (a.extractLsb' 21 3).toNat else core) (a.extractLsb' 0 21).toNat

theorem markedPlace_eq {core : Nat} {a : Word} (hm : markedTarget core a ≠ none) :
    ((markedTarget core a).map fun t => spadAt t.1 t.2).getD 0 = markedPlace core a := by
  unfold markedTarget at hm ⊢
  unfold markedPlace
  dsimp only at hm ⊢
  split at hm
  · exact absurd rfl hm
  · next hwide =>
    rw [if_neg hwide]
    split at hm
    · next hmark => rw [if_pos hmark, if_pos hmark]; rfl
    · next hmark =>
      rw [if_neg hmark, if_neg hmark]
      split at hm
      · next hrank => rw [if_pos hrank]; rfl
      · exact absurd rfl hm

/-- Every scratchpad operand of an instruction that has passed its checks is well formed. -/
theorem markedTarget_of_operands {l : List (Word × Nat)} (hl : s.scratchOperands e l = none) {a : Word} {n : Nat}
    (ha : (a, n) ∈ l) : markedTarget e.core a ≠ none := by
  induction l with
  | nil => cases ha
  | cons y l ih =>
    obtain ⟨b, m⟩ := y
    rw [State.scratchOperands] at hl
    split at hl
    · cases hl
    · next hsome =>
      rcases List.mem_cons.1 ha with heq | hmem
      · cases heq
        intro hnone
        simp [State.markedAt, hnone] at hsome
      · exact ih hl hmem

/-! ### TAGCNT -/

/-- The tag bytes of some rows. -/
def State.tagBytes (s : State) (at_ rows : Nat) : List Byte := (List.range rows).map fun m => s.spad.read (at_ + m)

/-- The counts of TAGCNT: of one stratum in each of lanes 0 to 7, of all in lane 8 or a uniform destination (10 R218). -/
def tagCounts (tags : List Byte) (uniform : Bool) (l : Nat) : Word :=
  BitVec.ofNat 32 (if uniform = true ∨ l = 8 then (tags.filter fun t => t.getLsbD 3).length
    else if l < 8 then (tags.filter fun t => t.getLsbD 3 && (t.extractLsb' 0 3).toNat == l).length else 0)

theorem tagCount_all (tags : List Byte) : tagCount tags none = (tags.filter fun t => t.getLsbD 3).length := by
  simp [tagCount]

theorem tagcnt_target (hr : Ready s (.tagcnt h f) e) : markedTarget e.core (e.w.word f.tagaddr 0) ≠ none := by
  have hentry := hr.entry
  simp only [needs, needsTagcnt] at hentry
  exact markedTarget_of_operands (xCheck_none hentry).2.2 List.mem_cons_self

theorem tagcnt_issues (hr : Ready s (.tagcnt h f) e) : ∃ t w, exec (.tagcnt h f) s = .next t ∧ t.warp? e.core e.slot = some w ∧
    Written e (needs (.tagcnt h f) s) (fun l => [tagCounts (s.tagBytes (markedPlace e.core (e.w.val f.tagaddr.toNat 0)) f.rows.toNat)
      (isK h.dest.toNat) l]) {} w ∧ CoreElse s t e.core e.slot := by
  obtain ⟨t, w, hexec, hw, hwritten, helse⟩ := takes_finish (v := fun e s l =>
    [BitVec.ofNat 32 (if uni h.dest ∨ l = 8 then
        tagCount (s.spad.readN (((markedTarget e.core (e.w.word f.tagaddr 0)).map fun t => spadAt t.1 t.2).getD 0) f.rows.toNat) none
      else if l < 8 then
        tagCount (s.spad.readN (((markedTarget e.core (e.w.word f.tagaddr 0)).map fun t => spadAt t.1 t.2).getD 0) f.rows.toNat) (some l)
      else 0)]) rfl rfl hr
  refine ⟨t, w, hexec, hw, ?_, helse⟩
  simp only [markedPlace_eq (tagcnt_target hr), spad_takes, Memory.readN_eq, tagCount_all] at hwritten
  exact hwritten

/-! ### TAGSET -/

/-- A state with other scratchpads. -/
def State.withSpad (s : State) (m : Memory) : State := { s with spad := m }

theorem withSpad_withSpad (s : State) (m m' : Memory) : (s.withSpad m).withSpad m' = s.withSpad m' := rfl

theorem setTags_succ (s : State) (src dst stride : Nat) (th : Option Word) (n : Nat) :
    s.setTags src dst stride th (n + 1) = (s.setTags src dst stride th n).withSpad
      ((s.setTags src dst stride th n).spad.write (dst + n)
        (tagByte ((s.setTags src dst stride th n).spad.nat (src + 16 * stride * n) 8) th)) := by
  simp only [State.setTags, State.withSpad]

theorem spad_setTags_succ (s : State) (src dst stride : Nat) (th : Option Word) (n : Nat) :
    (s.setTags src dst stride th (n + 1)).spad = (s.setTags src dst stride th n).spad.write (dst + n)
      (tagByte ((s.setTags src dst stride th n).spad.nat (src + 16 * stride * n) 8) th) := by
  rw [setTags_succ, State.withSpad]

theorem setTags_state (src dst stride : Nat) (th : Option Word) (n : Nat) (s : State) :
    s.setTags src dst stride th n = s.withSpad (s.setTags src dst stride th n).spad := by
  induction n with
  | zero => rfl
  | succ n ih =>
    have hstep := congrArg (State.withSpad · (s.setTags src dst stride th (n + 1)).spad) ih
    rw [withSpad_withSpad] at hstep
    rw [← hstep, spad_setTags_succ, setTags_succ]

variable {src dst stride : Nat} {th : Option Word}

theorem wf_setTags (hwf : s.spad.wf = true) (n : Nat) : (s.setTags src dst stride th n).spad.wf = true := by
  induction n with
  | zero => exact hwf
  | succ n ih =>
    rw [spad_setTags_succ]
    exact Memory.wf_write ih ..

/-- No byte but the tags' is written. -/
theorem read_setTags_other (hwf : s.spad.wf = true) {n b : Nat} (hb : ∀ m, m < n → b ≠ dst + m) :
    (s.setTags src dst stride th n).spad.read b = s.spad.read b := by
  induction n with
  | zero => rfl
  | succ n ih =>
    rw [spad_setTags_succ, Memory.read_write (wf_setTags hwf n), if_neg (hb n (Nat.lt_succ_self n)).symm]
    exact ih fun m hm => hb m (Nat.lt_succ_of_lt hm)

theorem nat_congr {m m' : Memory} {a n : Nat} (hm : ∀ b, b < n → m.read (a + b) = m'.read (a + b)) : m.nat a n = m'.nat a n := by
  rw [Memory.nat, Memory.nat, Memory.readN_eq, Memory.readN_eq]
  exact congrArg leNat (List.map_congr_left fun b hb => hm b (List.mem_range.1 hb))

/-- Each tag is that of its word, where no word lies on a tag that is written before it is read. -/
theorem read_setTags (hwf : s.spad.wf = true) {n : Nat}
    (hapart : ∀ m j b, m < n → j < n → b < 8 → src + 16 * stride * m + b ≠ dst + j) {m : Nat} (hm : m < n) :
    (s.setTags src dst stride th n).spad.read (dst + m) = tagByte (s.spad.nat (src + 16 * stride * m) 8) th := by
  induction n with
  | zero => cases hm
  | succ n ih =>
    rw [spad_setTags_succ, Memory.read_write (wf_setTags hwf n)]
    by_cases hlast : m = n
    · subst hlast
      rw [if_pos rfl]
      refine congrArg (tagByte · th) (nat_congr fun b hb => read_setTags_other hwf fun j hj => ?_)
      exact hapart m j b hm (Nat.lt_succ_of_lt hj) hb
    · rw [if_neg (by omega)]
      exact ih (fun m j b hm hj hb => hapart m j b (by omega) (by omega) hb) (by omega)

theorem tagset_targets (hr : Ready s (.tagset h f) e) : markedTarget e.core ((e.w.xBase f).extractLsb' 0 32) ≠ none ∧
    markedTarget e.core (e.w.word f.tagaddr 0) ≠ none := by
  have hentry := hr.entry
  simp only [needs, needsTagset] at hentry
  have hoperands := (xCheck_none hentry).2.2
  exact ⟨markedTarget_of_operands hoperands (List.mem_cons_of_mem _ List.mem_cons_self),
    markedTarget_of_operands hoperands List.mem_cons_self⟩

theorem exec_tagset (h : Hdr) (f : XF) (s : State) : exec (.tagset h f) s =
    issue s h (.tagset h f) (needs (.tagset h f) s) fun e s' => ((s'.takes e).setTags
      (((markedTarget e.core ((e.w.xBase f).extractLsb' 0 32)).map fun t => spadAt t.1 t.2).getD 0)
      (((markedTarget e.core (e.w.word f.tagaddr 0)).map fun t => spadAt t.1 t.2).getD 0) f.stride.toNat
      (if nul f.rscale then none else some (e.w.word f.rscale 0)) f.rows.toNat).modWarp e.core e.slot fun w => w.advance e.frag := rfl

/-- TAGSET writes its tags, and moves its fragment on. -/
theorem tagset_issues (hr : Ready s (.tagset h f) e) : ∃ t w, exec (.tagset h f) s = .next t ∧ t.warp? e.core e.slot = some w ∧
    Written e (needs (.tagset h f) s) (fun _ => []) {} w ∧
    t.spad = (((s.issued e (needs (.tagset h f) s)).takes e).setTags (markedPlace e.core ((e.w.val64 f.aaddr.toNat 0).extractLsb' 0 32))
      (markedPlace e.core (e.w.val f.tagaddr.toNat 0)) f.stride.toNat
      (if f.rscale = 511 then none else some (e.w.val f.rscale.toNat 0)) f.rows.toNat).spad ∧
    t = { s with cores := t.cores, parts := t.parts, spad := t.spad } := by
  obtain ⟨hsrc, hdst⟩ := tagset_targets hr
  have hth : (if nul f.rscale then none else some (e.w.word f.rscale 0)) =
      if f.rscale = 511 then none else some (e.w.val f.rscale.toNat 0) := by
    simp [nul, Warp.word]
  have hexec := exec_next (h := h) rfl (exec_tagset h f s) hr
  rw [markedPlace_eq hsrc, markedPlace_eq hdst, hth, xBase_eq] at hexec
  generalize hu : ((s.issued e (needs (.tagset h f) s)).takes e).setTags
    (markedPlace e.core ((e.w.val64 f.aaddr.toNat 0).extractLsb' 0 32)) (markedPlace e.core (e.w.val f.tagaddr.toNat 0))
    f.stride.toNat (if f.rscale = 511 then none else some (e.w.val f.rscale.toNat 0)) f.rows.toNat = u
  have hframe : u = ((s.issued e (needs (.tagset h f) s)).takes e).withSpad u.spad := hu ▸ setTags_state ..
  have hwarp : u.warp? e.core e.slot = some (e.issuedWarp (needs (.tagset h f) s)) := by
    rw [hframe]
    exact (warp?_takes ..).trans (warp?_issued ..)
  have helse := (coreElse_issued s e (needs (.tagset h f) s)).trans (coreElse_takes ..)
  refine ⟨u.modWarp e.core e.slot fun w => w.advance e.frag, (e.issuedWarp (needs (.tagset h f) s)).advance e.frag,
    hexec.trans (congrArg (fun x : State => Host.Outcome.next (x.modWarp e.core e.slot fun w => w.advance e.frag)) hu), ?_,
    written_advance hr.env.2 rfl, ?_, ?_⟩
  · rw [warp?_modWarp_self, hwarp, Option.map_some]
  · rw [(coreElse_modWarp (s := u) (c := e.core) (slot := e.slot) _).state]
  · rw [(coreElse_modWarp (s := u) (c := e.core) (slot := e.slot) _).state, hframe, State.withSpad, helse.state]

/-! ### What stays as it was -/

/-- The instructions of class X, by the one that they are. -/
theorem classX_cases (hx : xFieldsOf i = some f) : (∃ h, Queued h f i) ∨ (∃ h, i = .sstat h f) ∨ (∃ h, i = .tagcnt h f) ∨
    ∃ h, i = .tagset h f := by
  cases i <;> cases hx
  case sstat h => exact .inr (.inl ⟨h, rfl⟩)
  case tagcnt h => exact .inr (.inr (.inl ⟨h, rfl⟩))
  case tagset h => exact .inr (.inr (.inr ⟨h, rfl⟩))
  all_goals exact .inl ⟨_, by constructor⟩

/-- But for TAGSET, an instruction of class X that issues with no other operation in the order changes its core alone. -/
theorem classX_frame (hx : xFieldsOf i = some f) (hset : ∀ g, i ≠ .tagset g f) (hr : Ready s i e) (hxq : (s.core e.core).xq = []) :
    ∃ t, exec i s = .next t ∧ CoreElse s t e.core e.slot := by
  rcases classX_cases hx with ⟨h, hq⟩ | ⟨h, rfl⟩ | ⟨h, rfl⟩ | ⟨h, rfl⟩
  · exact queued_frame hq hr hxq
  · obtain ⟨t, _, hexec, -, -, helse⟩ := sstat_issues hr
    exact ⟨t, hexec, helse⟩
  · obtain ⟨t, _, hexec, -, -, helse⟩ := tagcnt_issues hr
    exact ⟨t, hexec, helse⟩
  · exact absurd rfl (hset h)

end Sys2Proof.Machine

open Sys2Proof Sys2Proof.Machine

/-- Settles O41: an operation that is alone starts as its instruction says, and SSTAT, TAGCNT and TAGSET act on the array's contents as
its context finds them. -/
theorem strataAtStart : Obligations.StrataAtStart := by
  unfold Obligations.StrataAtStart
  refine ⟨fun h f s e i hr hxq => ?_, fun h f s e => ⟨fun hr => ?_, fun hr => ?_, fun hr hwf => ?_⟩⟩
  · intro old n loading
    have hold : ∀ i, ((s.placed e h i f).core e.core).stratum f.stratum.toNat = old := fun i => stratum_placed f.stratum.toNat
    refine ⟨?_, ?_, ?_, ?_, ?_, ?_, fun hi => ?_, fun hx hset => ?_⟩
    · rintro rfl hst
      exact sload_placed hr hxq (by rw [hold]; exact hst)
    · rintro rfl hst
      exact sevict_placed hr hxq (by rw [hold]; exact hst)
    · rintro rfl hst
      rw [← hold (.sstore h f)] at hst ⊢
      exact sstore_placed hr hxq hst
    · rintro rfl hst
      exact sstore_missed hr hxq (by rw [hold]; exact hst)
    · rintro rfl
      obtain ⟨t, hexec, hgone, hrows⟩ := gzero_placed hr hxq
      exact ⟨t, hexec, hgone, fun g m _ hm => hrows g m hm⟩
    · rintro rfl
      obtain ⟨t, w, hexec, hw, hmoved, hvalues⟩ := accmv_placed hr hxq
      simp only [tileRow_placed, toNat_mvRow] at hvalues
      exact ⟨t, w, hexec, hw, hmoved, hvalues⟩
    · have hq : Queued h f i := by
        rcases hi with rfl | rfl | rfl | rfl | rfl | rfl | rfl <;> constructor
      exact runs_placed ⟨h, f, hi⟩ hq hr hxq
    · obtain ⟨t, hexec, helse⟩ := classX_frame hx hset hr hxq
      refine ⟨t, hexec, helse.cores, helse.warps, ?_⟩
      rw [helse.state]
      exact ⟨rfl, rfl, rfl, rfl, rfl, rfl⟩
  · obtain ⟨t, w, hexec, hw, hwritten, helse⟩ := sstat_issues hr
    exact ⟨t, w, hexec, hw, hwritten, helse.state, helse.cores, helse.warps⟩
  · obtain ⟨t, w, hexec, hw, hwritten, helse⟩ := tagcnt_issues hr
    exact ⟨t, w, hexec, hw, hwritten, helse.state, helse.cores, helse.warps⟩
  · obtain ⟨t, w, hexec, hw, hwritten, hspad, hframe⟩ := tagset_issues hr
    have hbefore := spad_takes s e (needs (.tagset h f) s)
    have hwf' : ((s.issued e (needs (.tagset h f) s)).takes e).spad.wf = true := hbefore ▸ hwf
    refine ⟨t, w, hexec, hw, hwritten, fun b hb => ?_, fun hapart m hm => ?_, hframe⟩
    · rw [hspad, ← hbefore]
      exact read_setTags_other hwf' hb
    · rw [hspad, ← hbefore]
      exact read_setTags hwf' hapart hm

end

section
/-! SUPPORT. Operand modifiers and exact arithmetic (08 R156, R157); and O12. -/

namespace Sys2Proof.Machine

/-! ### Modifiers (08 R156) -/

/-- The bits of a code with modifiers: those below the sign stay, and the sign is cleared and then flipped. -/
theorem testBit_modBits (v : Nat) (neg abs : Bool) (x i : Nat) : (modBits (v + 1) neg abs x).testBit i =
    if i = v then ((x.testBit v && !abs) != neg) else decide (i < v) && x.testBit i := by
  have hsign : (x / 2 ^ v % 2 == 1) = x.testBit v := by
    rw [Nat.testBit_eq_decide_div_mod_eq]
    rfl
  have hlow : x % 2 ^ v < 2 ^ v := Nat.mod_lt _ (Nat.two_pow_pos v)
  simp only [modBits, Nat.add_sub_cancel, hsign]
  cases hs : (x.testBit v && !abs) != neg
  · by_cases hi : i = v <;> simp [hi, Nat.testBit_mod_two_pow]
  · rw [if_pos rfl, Nat.add_comm]
    rcases Nat.lt_trichotomy i v with hi | rfl | hi
    · rw [Nat.testBit_two_pow_add_gt hi, Nat.testBit_mod_two_pow, if_neg hi.ne]
    · rw [Nat.testBit_two_pow_add_eq, Nat.testBit_lt_two_pow hlow, if_pos rfl]
      rfl
    · have hlt : 2 ^ v + x % 2 ^ v < 2 ^ i :=
        calc 2 ^ v + x % 2 ^ v < 2 ^ (v + 1) := by rw [pow_succ]; omega
          _ ≤ 2 ^ i := Nat.pow_le_pow_right (by decide) hi
      rw [Nat.testBit_lt_two_pow hlt, if_neg hi.ne']
      simp [hi.not_gt]

/-- The modifiers on a code are masks on its bits (08 R156). -/
theorem ofNat_modBits (v : Nat) (neg abs : Bool) (x : BitVec (v + 1)) : BitVec.ofNat (v + 1) (modBits (v + 1) neg abs x.toNat) =
    (if abs then x &&& BitVec.ofNat (v + 1) (2 ^ v - 1) else x) ^^^ (if neg then BitVec.ofNat (v + 1) (2 ^ v) else 0) := by
  refine BitVec.eq_of_getLsbD_eq fun i hi => ?_
  have hmask : (BitVec.ofNat (v + 1) (2 ^ v - 1)).getLsbD i = decide (i < v) := by
    simp only [BitVec.getLsbD_ofNat, hi, Nat.testBit_two_pow_sub_one, decide_true, Bool.true_and]
  have hbit : (BitVec.ofNat (v + 1) (2 ^ v)).getLsbD i = decide (v = i) := by
    simp only [BitVec.getLsbD_ofNat, hi, Nat.testBit_two_pow, decide_true, Bool.true_and]
  have hflip : (if neg then BitVec.ofNat (v + 1) (2 ^ v) else 0).getLsbD i = (neg && decide (v = i)) := by
    cases neg
    · exact BitVec.getLsbD_zero
    · exact hbit
  have hclear : (if abs then x &&& BitVec.ofNat (v + 1) (2 ^ v - 1) else x).getLsbD i =
      (x.getLsbD i && (!abs || decide (i < v))) := by
    cases abs
    · simp
    · exact (BitVec.getLsbD_and ..).trans (by rw [hmask]; rfl)
  rw [BitVec.getLsbD_xor, hflip, hclear, BitVec.getLsbD_ofNat, testBit_modBits, BitVec.testBit_toNat, BitVec.testBit_toNat]
  by_cases hv : i = v
  · subst hv
    cases neg <;> simp
  · have hlt : i < v := by omega
    simp [hlt, hi, hv, Ne.symm hv]

theorem codeA_eq (w : Warp) (f : V3) (l : Nat) : codeA w f l =
    (if f.absa then w.word f.srca l &&& 0x7FFFFFFF else w.word f.srca l) ^^^ (if f.nega then 0x80000000 else 0) :=
  ofNat_modBits 31 f.nega f.absa _

theorem codeB_eq (w : Warp) (f : V3) (l : Nat) : codeB w f l =
    (if f.absb then w.word f.srcb l &&& 0x7FFFFFFF else w.word f.srcb l) ^^^ (if f.negb then 0x80000000 else 0) :=
  ofNat_modBits 31 f.negb f.absb _

/-! ### The exact sum (05 R101) -/

theorem signedAt_eq (n : Bool) (m : Nat) (e lo : Int) :
    signedAt n m e lo = (if n then -1 else 1) * (m * 2 ^ (e - lo).toNat : Nat) := by
  cases n <;> simp [signedAt, alignTo]

theorem add_fin (rnd : Nat) (n n' : Bool) (m m' : Nat) (e e' : Int) :
    let x := signedAt n m e (min e e') + signedAt n' m' e' (min e e')
    (Num.fin n m e).add rnd (.fin n' m' e') =
      .fin (if x = 0 then (if n = n' then n else rnd == 3) else decide (x < 0)) x.natAbs (min e e') := by
  intro x
  show (if x = 0 then _ else Num.fin (decide (x < 0)) x.natAbs (min e e')) = _
  by_cases hx : x = 0
  · by_cases hn : n = n' <;> simp [hx, hn]
  · rw [if_neg hx, if_neg hx]

end Sys2Proof.Machine

open Sys2Proof Sys2Proof.Machine

/-- Settles O12: the four share one effect, the modifiers are masks, and the exact sum is taken at the lower power of two. -/
theorem floatResults : Obligations.FloatResults := by
  unfold Obligations.FloatResults
  refine ⟨fun h f => ⟨?add, ?sub, ?mul, ?fma⟩, fun w f l => ⟨codeA_eq w f l, codeB_eq w f l⟩,
    fun rnd n n' m m' e e' => ⟨rfl, ?sum⟩⟩
  case add => exact completes_finish rfl fun _ => rfl
  case sub => exact completes_finish rfl fun _ => rfl
  case mul => exact completes_finish rfl fun _ => rfl
  case fma => exact completes_finish rfl fun _ => rfl
  rintro lo rfl
  rw [← signedAt_eq, ← signedAt_eq]
  exact add_fin rnd n n' m m' e e'

end

section
/-! SUPPORT. The order of FP32 values and the parts of an FP32 code (08 R158, R159); and O14. -/

namespace Sys2Proof.Machine

/-! ### FMIN and FMAX (08 R158) -/

/-- Of two values at most one is below the other. -/
theorem lt_asymm_num {x y : Num} (h : x.lt y = true) : y.lt x = false := by
  cases x with
  | nan => cases h
  | inf a => cases y <;> cases a <;> simp_all [Num.lt]
  | fin n m e =>
    cases y with
    | nan => cases h
    | inf b => cases b <;> simp_all [Num.lt]
    | fin n' m' e' =>
      simp only [Num.lt, decide_eq_true_eq, decide_eq_false_iff_not] at h ⊢
      rw [Int.min_comm]
      omega

theorem signedAt_zero (n : Bool) (e lo : Int) : signedAt n 0 e lo = 0 := by
  cases n <;> simp [signedAt, alignTo]

theorem isZero_iff {x : Num} : x.isZero = true ↔ ∃ n e, x = .fin n 0 e := by
  constructor
  · intro h
    match x, h with
    | .fin n 0 e, _ => exact ⟨n, e, rfl⟩
  · rintro ⟨n, e, rfl⟩
    rfl

/-- A zero is not below a zero. -/
theorem lt_zeros {x y : Num} (hx : x.isZero = true) (hy : y.isZero = true) : x.lt y = false := by
  obtain ⟨n, e, rfl⟩ := isZero_iff.1 hx
  obtain ⟨n', e', rfl⟩ := isZero_iff.1 hy
  simp [Num.lt, signedAt_zero]

/-- The order of FMIN and FMAX extends that of the values. -/
theorem belowZ_of_lt {x y : Num} (h : x.lt y = true) : belowZ x y = true ∧ belowZ y x = false := by
  have hzero : (y.isZero && x.isZero) = false := by
    cases hy : y.isZero <;> cases hx : x.isZero <;> try rfl
    rw [lt_zeros hx hy] at h
    cases h
  simp [belowZ, h, lt_asymm_num h, hzero]

variable {m : Bool} {a b : Word}

/-- Of two numbers one is picked by the order of the values and of the zeros. -/
theorem fpPick_numbers (ha : (f32 a).isNan = false) (hb : (f32 b).isNan = false) : fpPick m a b =
    if m then (if belowZ (f32 a) (f32 b) then b else a) else (if belowZ (f32 b) (f32 a) then b else a) := by
  simp [fpPick, ha, hb]

theorem fpPick_lt (ha : (f32 a).isNan = false) (hb : (f32 b).isNan = false) (h : (f32 a).lt (f32 b) = true) :
    fpPick false a b = a ∧ fpPick true a b = b := by
  simp [fpPick_numbers ha hb, belowZ_of_lt h]

theorem fpPick_gt (ha : (f32 a).isNan = false) (hb : (f32 b).isNan = false) (h : (f32 b).lt (f32 a) = true) :
    fpPick false a b = b ∧ fpPick true a b = a := by
  simp [fpPick_numbers ha hb, belowZ_of_lt h]

/-! ### FCLASS (08 R159) -/

/-- The exponent of an FP32 code (05 R95). -/
def exponentOf (x : Word) : BitVec 8 := x.extractLsb' 23 8

/-- The fraction of an FP32 code (05 R95). -/
def fractionOf (x : Word) : BitVec 23 := x.extractLsb' 0 23

/-- The value of an FP32 code by its sign, exponent and fraction (05 R95). -/
theorem f32_eq (x : Word) : f32 x =
    if exponentOf x = 255 then (if fractionOf x = 0 then .inf (x.getLsbD 31) else .nan)
    else if exponentOf x = 0 then .fin (x.getLsbD 31) (fractionOf x).toNat (-149)
    else .fin (x.getLsbD 31) ((fractionOf x).toNat + 2 ^ 23) (((exponentOf x).toNat : Int) - 150) := by
  have hex : x.toNat / 2 ^ 23 % 2 ^ 8 = (exponentOf x).toNat := by
    rw [exponentOf, BitVec.extractLsb'_toNat, Nat.shiftRight_eq_div_pow]
  have hfr : x.toNat % 2 ^ 23 = (fractionOf x).toNat := by
    rw [fractionOf, BitVec.extractLsb'_toNat, Nat.shiftRight_zero]
  have hcode : ∀ p : Prop, ¬(0 = 3 ∧ p) := fun p h => by omega
  simp only [f32, decodeFloat, fmtOf, BitVec.testBit_toNat, Bool.true_and, beq_iff_eq, if_neg (hcode _), hex, hfr,
    ← BitVec.toNat_inj]
  rw [Int.sub_sub ((exponentOf x).toNat : Int)]
  rfl

theorem classBit_eq (x : Word) : classBit x =
    if exponentOf x = 255 then (if fractionOf x ≠ 0 then 8 else if x.getLsbD 31 then 0 else 7)
    else if exponentOf x = 0 then
      (if fractionOf x = 0 then (if x.getLsbD 31 then 3 else 4) else if x.getLsbD 31 then 2 else 5)
    else if x.getLsbD 31 then 1 else 6 := by
  have hzero : (fractionOf x).toNat = 0 ↔ fractionOf x = 0 := BitVec.toNat_inj (y := 0#23)
  have hlow : (fractionOf x).toNat < 2 ^ 23 := (fractionOf x).isLt
  rw [classBit, f32_eq]
  by_cases htop : exponentOf x = 255
  · rw [if_pos htop, if_pos htop]
    by_cases hfr : fractionOf x = 0
    · rw [if_pos hfr, if_neg (not_not.2 hfr)]
    · rw [if_neg hfr, if_pos hfr]
  rw [if_neg htop, if_neg htop]
  by_cases hsub : exponentOf x = 0
  · rw [if_pos hsub, if_pos hsub]
    exact if_congr hzero rfl (if_pos hlow)
  · rw [if_neg hsub, if_neg hsub]
    exact (if_neg (by omega)).trans (if_neg (by omega))

end Sys2Proof.Machine

open Sys2Proof Sys2Proof.Machine

/-- Settles O14: the pick follows the order of the values, and the class is read off the parts of the code. -/
theorem selectAndClassify : Obligations.SelectAndClassify := by
  unfold Obligations.SelectAndClassify
  refine ⟨⟨fun h f => ⟨?min, ?max⟩, fun m a b => ⟨fun ha hb => ?nans, fun ha hb => ?first, fun ha hb => ?second,
    fpPick_lt, fpPick_gt⟩, by decide +kernel⟩, fun h f => ?mask, classBit_eq⟩
  case min => exact completes_finish rfl fun _ => rfl
  case max => exact completes_finish rfl fun _ => rfl
  case mask => exact completes_finish rfl fun _ => rfl
  case nans => simp [fpPick, ha, hb, nan32]
  case first => simp [fpPick, ha, hb]
  case second => simp [fpPick, ha, hb]

end

section
/-! SUPPORT. The elements of the packed forms and the tree of a warp reduction (05 R111; 08 R164 to R166); and O17. -/

namespace Sys2Proof.Machine

/-! ### Packed half-width elements (08 R164) -/

theorem modBits_lt (v : Nat) (neg abs : Bool) (x : Nat) : modBits (v + 1) neg abs x < 2 ^ (v + 1) := by
  have hlow : x % 2 ^ v < 2 ^ v := Nat.mod_lt _ (Nat.two_pow_pos v)
  rw [pow_succ]
  simp only [modBits, Nat.add_sub_cancel]
  split <;> omega

/-- A half-width code of a word, with modifiers (08 R156, R164). -/
def halfCode (neg abs : Bool) (x : Word) (j : Nat) : BitVec 16 :=
  (if abs then x.extractLsb' (16 * j) 16 &&& 0x7FFF else x.extractLsb' (16 * j) 16) ^^^ (if neg then 0x8000 else 0)

theorem halfElem_eq (f : V3) (neg abs : Bool) (x : Word) (j : Nat) :
    halfElem f neg abs x j = decodeFloat (halfFmt f) (halfCode neg abs x j).toNat := by
  have hcode := congrArg BitVec.toNat (ofNat_modBits 15 neg abs (x.extractLsb' (16 * j) 16))
  rw [BitVec.toNat_ofNat, Nat.mod_eq_of_lt (modBits_lt ..), BitVec.extractLsb'_toNat, Nat.shiftRight_eq_div_pow] at hcode
  exact congrArg (decodeFloat (halfFmt f)) hcode

/-! ### Warp reduction (05 R111) -/

section
variable {α : Type}

/-- Two positions combine where both are present; where one is absent the other stands (05 R111). -/
def joined (comb : α → α → α) (x y : Option α) : Option α :=
  match x, y with
  | some a, some b => some (comb a b)
  | some a, none => some a
  | none, y => y

/-- A level of a reduction as a function of the position: position `i` combines with the one at distance 2^(level - 1). -/
def stageOf (comb : Nat → Nat → α → α → α) (level : Nat) (g : Nat → Option α) (i : Nat) : Option α :=
  joined (comb level i) (g i) (g (i + 2 ^ (level - 1)))

/-- A level takes the positions at distance 2^j to those at twice that distance. -/
theorem wredLevel_positions (comb : Nat → Nat → α → α → α) (j : Nat) (g : Nat → Option α) (n p : Nat) :
    wredLevel (comb (j + 1)) (2 ^ j) p ((List.range (2 * n)).map fun k => g (p + k * 2 ^ j)) =
      (List.range n).map fun k => stageOf comb (j + 1) g (p + k * 2 ^ (j + 1)) := by
  induction n generalizing p with
  | zero => rfl
  | succ n ih =>
    have hrest := ih (p + 2 * 2 ^ j)
    have hpos : ∀ k, p + 2 * 2 ^ j + k * 2 ^ j = p + (k + 2) * 2 ^ j := fun k => by ring
    have hnext : ∀ k, p + 2 * 2 ^ j + k * 2 ^ (j + 1) = p + (k + 1) * 2 ^ (j + 1) := fun k => by ring
    simp only [hpos, hnext] at hrest
    rw [show 2 * (n + 1) = 2 * n + 1 + 1 by ring, List.range_succ_eq_map, List.range_succ_eq_map, List.range_succ_eq_map]
    simp only [List.map_cons, List.map_map, Function.comp_def, Nat.succ_eq_add_one, wredLevel]
    rw [hrest, Nat.zero_mul, Nat.zero_mul, Nat.zero_add, Nat.one_mul]
    rfl

/-- The reduction of 32 positions is that of position 0 through the five levels. -/
theorem wredAll_eq (comb : Nat → Nat → α → α → α) (g : Nat → Option α) : wredAll comb ((List.range 32).map g) =
    stageOf comb 5 (stageOf comb 4 (stageOf comb 3 (stageOf comb 2 (stageOf comb 1 g)))) 0 := by
  have hlevel := fun (j n : Nat) (g : Nat → Option α) => wredLevel_positions comb j g n 0
  have hstart : (List.range 32).map g = (List.range (2 * 16)).map fun k => g (0 + k * 2 ^ 0) := by simp
  rw [wredAll, hstart]
  simp only [show List.range 5 = [0, 1, 2, 3, 4] from rfl, List.foldl_cons, List.foldl_nil]
  rw [hlevel 0 16, hlevel 1 8, hlevel 2 4, hlevel 3 2, hlevel 4 1]
  rfl

end

theorem wredOp_eq (f : V3) : wredOp f = 2 * f.absa.toNat + f.absb.toNat := by
  cases ha : f.absa <;> cases hb : f.absb <;> simp [wredOp, ha, hb]

/-- One combination of WRED, by the number of the operation (08 R166). -/
def wredJoin (e : Env) (f : V3) (level i : Nat) (a b : Word) : Word :=
  let op := 2 * f.absa.toNat + f.absb.toNat
  if f.type = 8 then
    (if op = 0 then toF32 f.rnd.toNat f.sat (e.draw i level) ((f32 a).add f.rnd.toNat (f32 b)) else fpPick (op == 2) a b)
  else
    let x := typeInt f.type a.toNat
    let y := typeInt f.type b.toNat
    BitVec.ofInt 32 (if op = 0 then (if f.sat then typeClamp f.type (x + y) else x + y) else if op = 1 then min x y else max x y)

theorem wredComb_eq (e : Env) (f : V3) : wredComb e f = wredJoin e f := by
  funext level i a b
  unfold wredComb wredJoin
  rw [wredOp_eq]
  refine if_congr Iff.rfl ?_ (congrArg (BitVec.ofInt 32) ?_)
  · split
    · next h => rw [if_pos h]
    · next h => rw [if_neg h]
  · split
    · next h => rw [if_pos h]
    · next h => rw [h]; rfl
    · next h0 h1 => rw [if_neg h0, if_neg h1]

/-- Source A of WRED in a lane, negated where asked (08 R166). -/
def wredSource (w : Warp) (f : V3) (l : Nat) : Word :=
  if f.nega = false then w.word f.srca l else if f.type = 8 then w.word f.srca l ^^^ 0x80000000 else -w.word f.srca l

theorem wredIn_eq (w : Warp) (f : V3) (l : Nat) : wredIn w f l = wredSource w f l := by
  have hneg : BitVec.ofNat 32 (modBits 32 true false (w.word f.srca l).toNat) = w.word f.srca l ^^^ 0x80000000 :=
    ofNat_modBits 31 true false _
  unfold wredIn wredSource
  cases f.nega
  · rfl
  · rw [← hneg]
    rfl

/-- The result of WRED is the value that position 0 has after the five levels. -/
theorem wredResult_eq (e : Env) (f : V3) : wredResult e f =
    (let stage := stageOf (wredJoin e f)
     let r := (stage 5 (stage 4 (stage 3 (stage 2 (stage 1 fun i =>
       if laneOn e.act i = true then some (wredSource e.w f i) else none)))) 0).getD 0
     if f.type = 8 ∧ (f32 r).isNan = true then 0x7FC00000 else r) := by
  unfold wredResult
  rw [allLanes_eq, wredAll_eq, wredComb_eq]
  simp only [wredIn_eq]

end Sys2Proof.Machine

open Sys2Proof Sys2Proof.Machine

/-- Settles O17: the elements' codes are masked, the dot product's terms are written out, and the list of positions that a level
leaves is the function of the position that the level computes. -/
theorem packedAndReducingResults : Obligations.PackedAndReducingResults := by
  unfold Obligations.PackedAndReducingResults
  refine fun h f => ⟨?add, ?mul, ?fma, ?dot, ?reduce⟩
  case add =>
    refine (completes_finish rfl fun _ => rfl).congr fun s e _ => funext fun l => ?_
    simp only [halfElem_eq]
    rfl
  case mul =>
    refine (completes_finish rfl fun _ => rfl).congr fun s e _ => funext fun l => ?_
    simp only [halfElem_eq]
    rfl
  case fma =>
    refine (completes_finish rfl fun _ => rfl).congr fun s e _ => funext fun l => ?_
    simp only [halfElem_eq]
    rfl
  case dot => exact (completes_finish rfl fun _ => rfl).congr fun s e _ => rfl
  case reduce =>
    refine (completes_finish rfl fun _ => rfl).congr fun s e _ => funext fun l => ?_
    extract_lets one op join stage r
    have hstage : stageOf (wredJoin e f) = stage := by
      funext level g i
      simp only [stage, stageOf]
      cases g i <;> cases g (i + 2 ^ (level - 1)) <;> rfl
    rw [wredResult_eq, hstage]
    rfl

end

section
/-! SUPPORT. Conversions with their flags, and the histogram and percentile of quantisation (05 R112; 08 R167 to R172); and O18. -/

namespace Sys2Proof.Machine

/-! ### Completion with flags (05 R112) -/

theorem none_or (f : BitVec 8) : 0 ||| f = f := BitVec.zero_or

theorem or_none (f : BitVec 8) : f ||| 0 = f := BitVec.or_zero

variable {e : Env} {n : Needs} {w : Warp} {x : Extra}

theorem lowLane_lt (m : Mask) : lowLane m < 32 := by
  have h : ∀ l ∈ lanesOf m, l < 32 := fun l hl => (mem_lanesOf.1 hl).1
  unfold lowLane
  cases hl : lanesOf m with
  | nil => decide
  | cons a _ => exact h a (by simp [hl])

/-- The values that an instruction leaves may be given in any form that agrees in the 32 lanes. -/
theorem Written.values_congr {v v' : Nat → List Word} (h : Written e n v x w) (hv : ∀ l, l < 32 → v l = v' l) :
    Written e n v' x w :=
  { h with
    value := fun j d l hj hd hc hl ho => hv l hl ▸ h.value j d l hj hd hc hl ho
    uniform := fun j d l hj hk ha => hv _ (lowLane_lt _) ▸ h.uniform j d l hj hk ha }

/-- The values and what is done beside them may be given in any form that agrees wherever the instruction issues. -/
theorem Completes.congr_lanes {i : Instr} {v v' : State → Env → Nat → List Word} {x x' : State → Env → Extra}
    (hc : Completes i v x) (hv : ∀ s e, Ready s i e → (∀ l, l < 32 → v s e l = v' s e l) ∧ x s e = x' s e) :
    Completes i v' x' := by
  intro s e he
  obtain ⟨t, w, hexec, hw, hwritten, hrest⟩ := hc s e he
  exact ⟨t, w, hexec, hw, (hv s e he).2 ▸ hwritten.values_congr (hv s e he).1, hrest⟩

/-- A conversion completes, with its words and the flags of its active lanes. -/
theorem completes_convert {h : Hdr} {i : Instr} {v : State → Env → Nat → List Word × BitVec 8} (hh : hdrOf i = some h)
    (hi : ∀ s, exec i s = issue s h i (needs i s) fun e s' =>
      (finish e (needs i s).dests (needs i s).count (fun l => (v s e l).1) s').modWarp e.core e.slot fun w =>
        w.orFlags (lanesFlags e.act fun l => (v s e l).2)) :
    Completes i (fun s e l => (v s e l).1) fun s e => { flags := lanesFlags e.act fun l => (v s e l).2 } := by
  rintro s e ⟨h', hh', he⟩
  cases hh.symm.trans hh'
  have hs := env?_spec he.1
  refine ⟨_, (e.finished (needs i s) fun l => (v s e l).1).orFlags (lanesFlags e.act fun l => (v s e l).2),
    (hi s).trans (issue_next _ he), ?_, ?_, ?_, ?_⟩
  · rw [warp?_modWarp_self, warp?_finish]
    rfl
  · have hw := (written_finish (v := fun l => (v s e l).1) hs.2.2.2.2.1 (dests_nodup i s)).orFlags
      (lanesFlags e.act fun l => (v s e l).2)
    rwa [show ({} : Extra).flags = 0 from rfl, none_or] at hw
  · rw [l1_modWarp]
    exact l1_finish ..
  · exact (sameElse_finish ..).trans (sameElse_modWarp ..)

/-! ### Packed elements and their flags -/

/-- The flags of a list, joined. -/
def joinFlags (fs : List (BitVec 8)) : BitVec 8 := fs.foldl (· ||| ·) 0

theorem foldl_or (fs : List (BitVec 8)) (a : BitVec 8) : fs.foldl (· ||| ·) a = a ||| joinFlags fs := by
  have h := List.foldl_assoc (op := fun a b : BitVec 8 => a ||| b) (l := fs) (a₁ := a) (a₂ := 0)
  rwa [or_none] at h

theorem joinFlags_cons (f : BitVec 8) (fs : List (BitVec 8)) : joinFlags (f :: fs) = f ||| joinFlags fs := by
  rw [joinFlags, List.foldl_cons, foldl_or, none_or]

theorem joinFlags_append (fs gs : List (BitVec 8)) : joinFlags (fs ++ gs) = joinFlags fs ||| joinFlags gs := by
  rw [joinFlags, List.foldl_append, foldl_or]
  rfl

/-- The packed elements are the sum of the codes at their places, and the flags are joined. -/
theorem packElems_range (wo n : Nat) (g : Nat → Nat × BitVec 8) : packElems wo ((List.range n).map g) =
    (((List.range n).map fun j => (g j).1 * 2 ^ (wo * j)).sum, joinFlags ((List.range n).map fun j => (g j).2)) := by
  induction n generalizing g with
  | zero => rfl
  | succ n ih =>
    have hrest := ih fun j => g (j + 1)
    rw [packElems] at hrest
    rw [List.range_succ_eq_map]
    simp only [List.map_cons, List.map_map, Function.comp_def, Nat.succ_eq_add_one, packElems, List.foldr_cons, List.sum_cons,
      joinFlags_cons, hrest]
    refine Prod.ext ?_ rfl
    simp only [Nat.mul_zero, pow_zero, Nat.mul_one, ← List.sum_map_mul_left]
    congr 2
    refine List.map_congr_left fun j _ => ?_
    ring

/-- The flags of the active lanes are those of the elements of the active lanes. -/
theorem lanesFlags_eq (act : Mask) (g : Nat → List (BitVec 8)) : lanesFlags act (fun l => joinFlags (g l)) =
    joinFlags ((List.range 32).flatMap fun l => if laneOn act l = false then [] else g l) := by
  have h : ∀ ls : List Nat, joinFlags ((ls.filter (laneOn act)).map fun l => joinFlags (g l)) =
      joinFlags (ls.flatMap fun l => if laneOn act l = false then [] else g l) := by
    intro ls
    induction ls with
    | nil => rfl
    | cons l ls ih =>
      rw [List.flatMap_cons, joinFlags_append, ← ih]
      cases hl : laneOn act l
      · rw [List.filter_cons_of_neg (by simp [hl]), if_pos rfl]
        exact (none_or _).symm
      · rw [List.filter_cons_of_pos hl, if_neg (by decide), List.map_cons, joinFlags_cons]
  rw [← h, lanesFlags, lanesOf, allLanes_eq, joinFlags, List.foldl_map]

/-- A conversion that packs a number of elements in each lane. -/
theorem Completes.packed {i : Instr} {v : State → Env → Nat → List Word × BitVec 8} {width count : State → Env → Nat}
    {elem : State → Env → Nat → Nat → Nat × BitVec 8}
    (hc : Completes i (fun s e l => (v s e l).1) fun s e => { flags := lanesFlags e.act fun l => (v s e l).2 })
    (hv : ∀ s e, Ready s i e → ∀ l, v s e l =
      let r := packElems (width s e) ((List.range (count s e)).map (elem s e l))
      ([BitVec.ofNat 32 r.1], r.2)) :
    Completes i
      (fun s e l => [BitVec.ofNat 32 (((List.range (count s e)).map fun j => (elem s e l j).1 * 2 ^ (width s e * j)).sum)])
      fun s e => { flags := joinFlags ((List.range 32).flatMap fun l =>
        if laneOn e.act l = false then [] else (List.range (count s e)).map fun j => (elem s e l j).2) } := by
  refine hc.congr_lanes fun s e he => ⟨fun l _ => ?_, ?_⟩
  · rw [hv s e he, packElems_range]
  · simp only [hv s e he, packElems_range]
    exact congrArg (fun f => ({ flags := f } : Extra)) (lanesFlags_eq e.act _)

/-! ### Elements (08 R168, R172) -/

theorem fmtWidth_bounds (c : Nat) : 1 ≤ fmtWidth c ∧ fmtWidth c ≤ 32 := by
  unfold fmtWidth
  split <;> decide

theorem convCount_of_le {wa wo : Nat} (ha : 1 ≤ wa) (ha' : wa ≤ 32) (ho : wo ≤ 32) : convCount wa wo = 32 / max wa wo := by
  have hle : 1 ≤ 32 / max wa wo := (Nat.one_le_div_iff (by omega)).2 (by omega)
  exact max_eq_right hle

theorem convCount_fmt (a o : Nat) : convCount (fmtWidth a) (fmtWidth o) = 32 / max (fmtWidth a) (fmtWidth o) :=
  convCount_of_le (fmtWidth_bounds a).1 (fmtWidth_bounds a).2 (fmtWidth_bounds o).2

theorem roundElem_float {o rnd : Nat} {sat : Bool} {u : Word} {y : Num} (ho : o ≤ 5) :
    roundElem o rnd sat u y = roundFloat o rnd sat u y := by
  interval_cases o <;> rfl

theorem readFlags_eq (a bits : Nat) : readFlags a bits =
    (if (decodeElem a bits).isNan = true then 0x40 else 0) ||| (if a = 7 ∧ bits % 4 = 2 then 0x10 else 0) := by
  simp only [readFlags, flIf, flQn, flTern, Bool.and_eq_true, beq_iff_eq]

theorem readFlags_of_ne {a : Nat} (ha : a ≠ 7) (bits : Nat) :
    readFlags a bits = if (decodeElem a bits).isNan = true then 0x40 else 0 := by
  rw [readFlags_eq, if_neg (c := a = 7 ∧ bits % 4 = 2) (fun h => ha h.1), or_none]

theorem wrapNat_eq (w : Nat) (x : Int) : wrapNat w x = (x % 2 ^ w).toNat := by
  rw [wrapNat]
  push_cast
  rfl

theorem typeNames_eq_two (t : BitVec 4) : typeNames t = 2 ↔ typeWidth t = 64 := by
  unfold typeNames
  split <;> simp_all

theorem nanBits_eq (o : Nat) : nanBits o = [0x7FC00000, 0x7FC0, 0x7E00, 0x7F, 0x7E, 0].getD o 0 := by
  match o with
  | 0 | 1 | 2 | 3 | 4 | 5 => rfl
  | n + 6 => rfl

/-! ### The conversions -/

/-- The slot check of a conversion that issues has passed (05 R107). -/
theorem slot_of_ready {s : State} {i : Instr} {e : Env} {ok : Env → Bool} (hr : Ready s i e)
    (hn : (needs i s).entry = fun e => slotCheck e (ok e)) : ok e = true := by
  have h := hr.entry
  rw [hn] at h
  by_contra hok
  simp only [slotCheck, hok] at h
  cases h

variable {s : State}

theorem cvt_slot {h : Hdr} {f : V3} (hr : Ready s (.cvt h f) e) : slotOut (s.slotOf e.w f.fslot) ≤ 5 := by
  have hok := slot_of_ready hr rfl
  simp only [Bool.and_eq_true, decide_eq_true_eq] at hok
  exact hok.1.2

theorem cvti_slot {h : Hdr} {f : V3} (hr : Ready s (.cvti h f) e) : slotA (s.slotOf e.w f.fslot) ≤ 5 := by
  have hok := slot_of_ready hr rfl
  simp only [Bool.and_eq_true, decide_eq_true_eq] at hok
  exact hok.1

theorem cvtf_slot {h : Hdr} {f : V3} (hr : Ready s (.cvtf h f) e) : slotOut (s.slotOf e.w f.fslot) ≤ 5 := by
  have hok := slot_of_ready hr rfl
  simp only [Bool.and_eq_true, decide_eq_true_eq] at hok
  exact hok.1

/-- An element of CVT and its flags (08 R168). -/
def cvtElem (s : State) (e : Env) (f : V3) (l j : Nat) : Nat × BitVec 8 :=
  let q := s.slotOf e.w f.fslot
  let b := elemAt (fmtWidth (slotA q)) (e.w.word f.srca l).toNat j
  let y := roundFloat (slotOut q) f.rnd.toNat f.sat (e.draw l j) (decodeElem (slotA q) b)
  (y.1, y.2 ||| ((if (decodeElem (slotA q) b).isNan = true then 0x40 else 0) ||| (if slotA q = 7 ∧ b % 4 = 2 then 0x10 else 0)))

theorem cvtLane_eq {f : V3} (ho : slotOut (s.slotOf e.w f.fslot) ≤ 5) (l : Nat) : s.cvtLane e f l =
    (let q := s.slotOf e.w f.fslot
     let r := packElems (fmtWidth (slotOut q))
       ((List.range (32 / max (fmtWidth (slotA q)) (fmtWidth (slotOut q)))).map (cvtElem s e f l))
     ([BitVec.ofNat 32 r.1], r.2)) := by
  unfold State.cvtLane cvtElem
  simp only [convCount_fmt, roundElem_float ho, readFlags_eq]

/-- An element of CVTF and its flags (08 R168). -/
def cvtfElem (s : State) (e : Env) (f : V3) (l j : Nat) : Nat × BitVec 8 :=
  let x := if typeWidth f.type = 64 then (e.w.pair f.srca l).toNat else (e.w.word f.srca l).toNat
  roundFloat (slotOut (s.slotOf e.w f.fslot)) f.rnd.toNat f.sat (e.draw l j)
    (numOfInt (typeInt f.type (elemAt (typeWidth f.type) x j)))

theorem cvtfLane_eq {f : V3} (ho : slotOut (s.slotOf e.w f.fslot) ≤ 5) (l : Nat) : s.cvtfLane e f l =
    (let o := slotOut (s.slotOf e.w f.fslot)
     let r := packElems (fmtWidth o)
       ((List.range (max 1 (32 / max (typeWidth f.type) (fmtWidth o)))).map (cvtfElem s e f l))
     ([BitVec.ofNat 32 r.1], r.2)) := by
  unfold State.cvtfLane cvtfElem
  simp only [convCount, roundElem_float ho, typeNames_eq_two]

/-- An element of QCVT and its flags (08 R172). -/
def quantElem (s : State) (e : Env) (f : V3) (l j : Nat) : Nat × BitVec 8 :=
  let q := s.slotOf e.w f.fslot
  let code := (e.w.word f.srcb l).toNat % 256
  let x := decodeElem (slotA q) (elemAt (fmtWidth (slotA q)) (e.w.word f.srca l).toNat j)
  let y := x.mul (.fin false 1 (127 - (code : Int)))
  let one := roundElem (slotOut q) f.rnd.toNat (if y.isInf then f.sat else true) (e.draw l j) y
  (if code = 255 ∨ x.isNan = true then [0x7FC00000, 0x7FC0, 0x7E00, 0x7F, 0x7E, 0].getD (slotOut q) 0 else one.1,
   (if code = 255 then (0x20 : BitVec 8) else 0) ||| (if x.isNan = true then 0x40 else 0) |||
     (if x.isNan = true ∧ (slotOut q = 5 ∨ slotOut q = 6) then 0x01 else 0) ||| (if code = 255 ∨ x.isNan = true then 0 else one.2))

theorem quantElem_eq (f : V3) (l : Nat) : quantElem s e f l = fun j =>
    let q := s.slotOf e.w f.fslot
    qcvtElem f.rnd.toNat f.sat (slotA q) (slotOut q) ((e.w.word f.srcb l).toNat % 256) (e.draw l j)
      (elemAt (fmtWidth (slotA q)) (e.w.word f.srca l).toNat j) := by
  funext j
  simp only [qcvtElem, quantElem, nanBits_eq, flIf, flSc, flQn, flNv, Bool.and_eq_true, Bool.or_eq_true, beq_iff_eq]
  split
  · rw [or_none]
  · rw [BitVec.or_comm]

theorem qcvtLane_eq (f : V3) (l : Nat) : s.qcvtLane e f l =
    (let q := s.slotOf e.w f.fslot
     let r := packElems (fmtWidth (slotOut q))
       ((List.range (32 / max (fmtWidth (slotA q)) (fmtWidth (slotOut q)))).map (quantElem s e f l))
     ([BitVec.ofNat 32 r.1], r.2)) := by
  unfold State.qcvtLane
  simp only [quantElem_eq, convCount_fmt]

/-- An element of CVTI and its flags (08 R168). -/
def cvtiElem (s : State) (e : Env) (f : V3) (l j : Nat) : Int × BitVec 8 :=
  let a := slotA (s.slotOf e.w f.fslot)
  let b := elemAt (fmtWidth a) (e.w.word f.srca l).toNat j
  let y := roundInt (typeMin f.type) (typeMax f.type) f.rnd.toNat (e.draw l j) (decodeElem a b)
  (y.1, y.2 ||| if (decodeElem a b).isNan = true then 0x40 else 0)

theorem cvtiLane_eq {f : V3} (ha : slotA (s.slotOf e.w f.fslot) ≤ 5) (l : Nat) : s.cvtiLane e f l =
    (let n := max 1 (32 / max (fmtWidth (slotA (s.slotOf e.w f.fslot))) (typeWidth f.type))
     (if n = 1 then intWords f.type (cvtiElem s e f l 0).1 else
        [BitVec.ofNat 32 (((List.range n).map fun j =>
          ((cvtiElem s e f l j).1 % 2 ^ typeWidth f.type).toNat * 2 ^ (typeWidth f.type * j)).sum)],
      joinFlags ((List.range n).map fun j => (cvtiElem s e f l j).2))) := by
  unfold State.cvtiLane
  have hread := fun bits => readFlags_of_ne (show slotA (s.slotOf e.w f.fslot) ≠ 7 by omega) bits
  simp only [convCount, hread, packElems_range, wrapNat_eq]
  by_cases hn : max 1 (32 / max (fmtWidth (slotA (s.slotOf e.w f.fslot))) (typeWidth f.type)) = 1
  · rw [if_pos hn, if_pos hn, hn]
    refine Prod.ext rfl ?_
    exact (none_or _).symm
  · rw [if_neg hn, if_neg hn]
    rfl

theorem cvti_completes (h : Hdr) (f : V3) : Completes (.cvti h f)
    (fun s e l =>
      let n := max 1 (32 / max (fmtWidth (slotA (s.slotOf e.w f.fslot))) (typeWidth f.type))
      if n = 1 then intWords f.type (cvtiElem s e f l 0).1 else
        [BitVec.ofNat 32 (((List.range n).map fun j =>
          ((cvtiElem s e f l j).1 % 2 ^ typeWidth f.type).toNat * 2 ^ (typeWidth f.type * j)).sum)])
    fun s e => { flags := joinFlags ((List.range 32).flatMap fun l => if laneOn e.act l = false then [] else
      (List.range (max 1 (32 / max (fmtWidth (slotA (s.slotOf e.w f.fslot))) (typeWidth f.type)))).map fun j =>
        (cvtiElem s e f l j).2) } := by
  refine (completes_convert rfl fun _ => rfl).congr_lanes fun s e he => ?_
  have hlane := cvtiLane_eq (cvti_slot he)
  refine ⟨fun l _ => by rw [hlane l], ?_⟩
  simp only [hlane]
  exact congrArg (fun f => ({ flags := f } : Extra)) (lanesFlags_eq e.act _)

/-! ### Histograms (08 R170) -/

/-- The bin of an element, by its exponent held to the range of the middle bins. -/
theorem histBin_eq (x : Num) : histBin x = match x with
    | .fin _ m e => if m = 0 then 0 else if (Nat.log2 m : Int) + e ≤ -31 then 1 else if 30 ≤ (Nat.log2 m : Int) + e then 62
        else ((Nat.log2 m : Int) + e + 32).toNat
    | _ => 63 := by
  cases x with
  | nan => rfl
  | inf _ => rfl
  | fin n m e =>
    simp only [histBin, clampInt]
    repeat' split
    all_goals omega

theorem getD_countBin (hs : List Nat) (b c : Nat) : (countBin hs c).getD b 0 =
    if c = b ∧ b < hs.length then min (hs.getD b 0 + 1) 0xFFFF else hs.getD b 0 := by
  simp only [countBin, List.getD_eq_getElem?_getD, List.getElem?_set]
  by_cases hc : c = b
  · subst hc
    by_cases hb : c < hs.length <;> simp [hb]
  · simp [hc]

/-- Counting up to a limit, one after another. -/
theorem min_count (a n k : Nat) : min (min (a + 1) k + n) k = min (a + (n + 1)) k := by
  omega

/-- Each bin has gained the number of elements that fall in it, up to 0xFFFF. -/
theorem getD_countBins (cs : List Nat) (hs : List Nat) (b : Nat) (hb : b < hs.length) (hmax : hs.getD b 0 ≤ 0xFFFF) :
    (cs.foldl countBin hs).getD b 0 = min (hs.getD b 0 + (cs.filter (· == b)).length) 0xFFFF := by
  induction cs generalizing hs with
  | nil => exact (min_eq_left hmax).symm
  | cons c cs ih =>
    have hlen : (countBin hs c).length = hs.length := List.length_set ..
    have hbin := getD_countBin hs b c
    rw [List.foldl_cons, ih (countBin hs c) (by omega) (by rw [hbin]; split; exacts [min_le_right _ _, hmax]), hbin]
    by_cases hc : c = b
    · rw [if_pos ⟨hc, hb⟩, List.filter_cons_of_pos (by simpa using hc), List.length_cons]
      exact min_count ..
    · rw [if_neg fun h => hc h.1, List.filter_cons_of_neg (by simpa using hc)]

theorem getD_binsOf (w : Warp) (n : BitVec 9) {b : Nat} (hb : b < 64) :
    (binsOf w n).getD b 0 = (w.word n (b / 2)).toNat / 65536 ^ (b % 2) % 65536 := by
  simp [binsOf, List.getD_eq_getElem?_getD, hb]

/-- The bins that the elements of source A in all lanes fall in. -/
def histBins (s : State) (e : Env) (f : V3) : List Nat :=
  let w := fmtWidth (slotA (s.slotOf e.w f.fslot))
  (List.range 32).flatMap fun l => (List.range (32 / w)).map fun j =>
    histBin (decodeElem (slotA (s.slotOf e.w f.fslot)) (elemAt w (e.w.word f.srca l).toNat j))

theorem getD_qhistBins (f : V3) {b : Nat} (hb : b < 64) : (s.qhistBins e f).getD b 0 =
    min ((e.w.word f.srcc (b / 2)).toNat / 65536 ^ (b % 2) % 65536 + ((histBins s e f).filter (· == b)).length) 0xFFFF := by
  have hmap : s.qhistBins e f = (histBins s e f).foldl countBin (binsOf e.w f.srcc) := by
    simp only [State.qhistBins, histBins, allLanes_eq, List.foldl_flatMap, List.foldl_map]
  have hbin := getD_binsOf e.w f.srcc hb
  rw [hmap, getD_countBins _ _ _ (by simpa [binsOf] using hb) (by rw [hbin]; omega), hbin]

/-! ### Percentiles (08 R171) -/

/-- The count of the bins 1 to `b`. -/
def upToBin (hs : List Nat) (b : Nat) : Nat := ((List.range b).map fun i => hs.getD (i + 1) 0).sum

theorem upToBin_succ (hs : List Nat) (b : Nat) : upToBin hs (b + 1) = upToBin hs b + hs.getD (b + 1) 0 := by
  simp [upToBin, List.range_succ]

/-- The search stops at the first bin up to which the count reaches `t`, or at its last. -/
theorem percentileBin_spec (hs : List Nat) (t n b : Nat) (hbelow : ∀ c ≤ b, upToBin hs c < t) :
    let p := percentileBin hs t n (b + 1) (upToBin hs b)
    b + 1 ≤ p ∧ p ≤ b + 1 + n ∧ (∀ c < p, upToBin hs c < t) ∧ (p < b + 1 + n → t ≤ upToBin hs p) := by
  induction n generalizing b with
  | zero => exact ⟨le_rfl, le_rfl, fun c hc => hbelow c (Nat.lt_succ_iff.1 hc), fun h => absurd h (lt_irrefl _)⟩
  | succ n ih =>
    simp only [percentileBin, ← upToBin_succ]
    split
    · next hreach => exact ⟨le_rfl, by omega, fun c hc => hbelow c (by omega), fun _ => hreach⟩
    · next hmore =>
      obtain ⟨hlo, hhi, hfirst, hreach⟩ := ih (b + 1) fun c hc => by
        rcases Nat.lt_or_ge b c with h | h
        · rw [show c = b + 1 by omega]
          omega
        · exact hbelow c h
      exact ⟨by omega, by omega, hfirst, fun h => hreach (by omega)⟩

/-- The first bin from 1 to 62 up to which the count reaches `t`, where one does. -/
theorem percentileBin_first (hs : List Nat) {t : Nat} (hpos : 1 ≤ t) (hle : t ≤ upToBin hs 62) :
    let p := percentileBin hs t 61 1 0
    1 ≤ p ∧ p ≤ 62 ∧ t ≤ upToBin hs p ∧ ∀ c < p, upToBin hs c < t := by
  intro p
  obtain ⟨hlo, hhi, hfirst, hreach⟩ : 1 ≤ p ∧ p ≤ 62 ∧ (∀ c < p, upToBin hs c < t) ∧ (p < 62 → t ≤ upToBin hs p) :=
    percentileBin_spec hs t 61 0 fun c hc => by
      rw [Nat.le_zero.1 hc]
      exact hpos
  refine ⟨hlo, hhi, ?_, hfirst⟩
  rcases Nat.lt_or_ge p 62 with hlt | hge
  · exact hreach hlt
  · rwa [show p = 62 by omega]

/-- The bins 1 to 62 together. -/
theorem sum_middle (hs : List Nat) (hlen : hs.length = 64) : ((hs.drop 1).take 62).foldl (· + ·) 0 = upToBin hs 62 := by
  rw [← List.sum_eq_foldl, upToBin]
  congr 1
  refine List.ext_getElem (by simp [hlen]) fun i h1 h2 => ?_
  have hi : i < 62 := by simpa using h2
  have hin : 1 + i < hs.length := by omega
  simp [List.getD_eq_getElem?_getD, Nat.add_comm i 1, List.getElem?_eq_getElem hin]

/-- The percentile's count: the least integer that reaches its share of `n`, and at least 1. -/
theorem percentileCount {n pct t : Nat} (hn : n ≠ 0) (hpct : pct < 65536) (ht : t = max 1 ((n * pct + 65535) / 65536)) :
    65536 * t < n * pct + 65536 + (if pct = 0 then 1 else 0) ∧ n * pct ≤ 65536 * t ∧ 1 ≤ t ∧ t ≤ n := by
  have hle : n * pct ≤ n * 65535 := Nat.mul_le_mul_left n (by omega)
  by_cases hzero : pct = 0
  · rw [hzero] at ht ⊢
    rw [if_pos rfl]
    omega
  · have hpos : 1 ≤ n * pct := Nat.mul_pos (by omega) (by omega)
    rw [if_neg hzero]
    omega

theorem clampInt_eq_max_min {lo hi : Int} (h : lo ≤ hi) (x : Int) : clampInt lo hi x = max lo (min hi x) := by
  unfold clampInt
  omega

/-- The code that QSCALE chooses, by the first bin up to which the percentile lies (08 R171). -/
theorem qscaleCode_spec (hs : List Nat) (hlen : hs.length = 64) {pct : Nat} (hpct : pct < 65536) (m : Nat) :
    (upToBin hs 62 = 0 → qscaleCode hs pct m = 0x7F) ∧
    (upToBin hs 62 ≠ 0 → ∃ t p : Nat, 65536 * t < upToBin hs 62 * pct + 65536 + (if pct = 0 then 1 else 0) ∧
      upToBin hs 62 * pct ≤ 65536 * t ∧ 1 ≤ t ∧ 1 ≤ p ∧ p ≤ 62 ∧ t ≤ upToBin hs p ∧ (∀ b, b < p → upToBin hs b < t) ∧
      qscaleCode hs pct m = (max 0 (min 254 ((p : Int) - 32 + 1 - m + 127))).toNat) := by
  simp only [qscaleCode, sum_middle hs hlen]
  refine ⟨fun h => if_pos h, fun h => ?_⟩
  obtain ⟨hshare, hreached, hpos, hle⟩ := percentileCount h hpct rfl
  obtain ⟨hlo, hhi, hreach, hfirst⟩ := percentileBin_first hs hpos hle
  rw [if_neg h]
  refine ⟨_, _, hshare, hreached, hpos, hlo, hhi, hreach, hfirst,
    congrArg Int.toNat (clampInt_eq_max_min (by decide) _)⟩

theorem slotPct_lt (q : BitVec 64) : slotPct q < 65536 := (q.extractLsb' 19 16).isLt

/-- The output formats that QSCALE accepts are those with a headroom (08 R171). -/
theorem format_of_headroom {o : Nat} (ho : headroom o ≠ 0) : o = 2 ∨ o = 3 ∨ o = 4 ∨ o = 5 ∨ o = 6 := by
  unfold headroom at ho
  split at ho <;> simp_all

theorem qscale_headroom {h : Hdr} {f : V3} (hr : Ready s (.qscale h f) e) : headroom (slotOut (s.slotOf e.w f.fslot)) ≠ 0 := by
  have hentry := hr.entry
  simp only [needs, needsQscale] at hentry
  obtain ⟨-, hslot⟩ := Option.or_eq_none_iff.1 hentry
  intro hzero
  simp [slotCheck, hzero] at hslot

end Sys2Proof.Machine

open Sys2Proof Sys2Proof.Machine

/-- Settles O18: the elements of each conversion are packed with their flags, each bin gains the number of elements in it, and the
percentile's bin is the first that the search meets. -/
theorem formatChanges : Obligations.FormatChanges := by
  unfold Obligations.FormatChanges
  refine ⟨fun h f => ⟨?cvt, cvti_completes h f, ?cvtf, ?qcvt⟩, fun h f => ⟨?pack, ?unpack, ?qhist, fun s e he => ?qscale⟩⟩
  case cvt => exact (completes_convert rfl fun _ => rfl).packed fun s e he l => cvtLane_eq (cvt_slot he) l
  case cvtf => exact (completes_convert rfl fun _ => rfl).packed fun s e he l => cvtfLane_eq (cvtf_slot he) l
  case qcvt =>
    have hc := (completes_convert (i := .qcvt h f) rfl fun _ => rfl).packed fun s e _ l => qcvtLane_eq f l
    simp only [quantElem] at hc
    exact hc
  case pack => exact completes_finish rfl fun _ => rfl
  case unpack => exact completes_finish rfl fun _ => rfl
  case qhist =>
    refine (completes_finish rfl fun _ => rfl).congr_lanes fun s e he => ⟨fun l hl => ?_, rfl⟩
    have heven := getD_qhistBins (s := s) (e := e) f (show 2 * l < 64 by omega)
    have hodd := getD_qhistBins (s := s) (e := e) f (show 2 * l + 1 < 64 by omega)
    rw [show 2 * l / 2 = l by omega] at heven
    rw [show (2 * l + 1) / 2 = l by omega] at hodd
    extract_lets a w bin hits half
    have hbin : histBin = bin := funext histBin_eq
    simp only [histBins, hbin] at heven hodd
    rw [heven, hodd]
    rfl
  case qscale =>
    obtain ⟨t, w, hexec, hw, hwritten, -, helse⟩ := completes_finish (i := .qscale h f) rfl (fun _ => rfl) s e he
    refine ⟨t, w, _, hexec, hw, hwritten, helse, ?_⟩
    extract_lets q bin upTo m pct
    have hup : ∀ b, b ≤ 62 → upTo b = upToBin (binsOf e.w f.srca) b := fun b hb =>
      congrArg List.sum (List.map_congr_left fun i hi => (getD_binsOf e.w f.srca (by have := List.mem_range.1 hi; omega)).symm)
    have hm : m = headroom (slotOut q) := by
      have hq : (q.extractLsb' 8 4).toNat = slotOut q := rfl
      rcases format_of_headroom (qscale_headroom he) with h | h | h | h | h <;>
        rw [show slotOut q = _ from h] at hq ⊢ <;> simp only [m, hq] <;> rfl
    obtain ⟨hnone, hsome⟩ := qscaleCode_spec (binsOf e.w f.srca) (by simp [binsOf]) (pct := pct) (slotPct_lt q) (headroom (slotOut q))
    rw [hup 62 le_rfl]
    refine ⟨fun h => ?_, fun h => ?_⟩
    · exact congrArg (BitVec.ofNat 32) (hnone h)
    obtain ⟨t, p, hshare, hreached, hpos, hlo, hhi, hreach, hfirst, hcode⟩ := hsome h
    exact ⟨t, p, hshare, hreached, hpos, hlo, hhi, hup p hhi ▸ hreach, fun b hb => hup b (by omega) ▸ hfirst b hb,
      hm ▸ congrArg (BitVec.ofNat 32) hcode⟩

end

section
/-! SUPPORT. The real value of a finite number, rounding to the nearest FP32 value, and FP32 codes as exact values (05 R95, R101). -/

namespace Sys2Proof.Machine

/-! ### Real values -/

/-- The real number that a sign, a magnitude and a power of two stand for (05 R95). -/
noncomputable def dyadic (n : Bool) (m : Nat) (e : Int) : ℝ := (if n then -1 else 1) * (m : ℝ) * (2 : ℝ) ^ e

variable {n n' : Bool} {m m' : Nat} {e e' lo : Int}

theorem dyadic_zero (n : Bool) (e : Int) : dyadic n 0 e = 0 := by
  simp [dyadic]

theorem dyadic_false (m : Nat) (e : Int) : dyadic false m e = (m : ℝ) * 2 ^ e := by
  simp [dyadic]

theorem dyadic_neg (n : Bool) (m : Nat) (e : Int) : dyadic (!n) m e = -dyadic n m e := by
  cases n <;> simp [dyadic]

theorem dyadic_true (m : Nat) (e : Int) : dyadic true m e = -((m : ℝ) * 2 ^ e) := by
  rw [← dyadic_false]
  exact dyadic_neg false m e

theorem abs_dyadic (n : Bool) (m : Nat) (e : Int) : |dyadic n m e| = (m : ℝ) * 2 ^ e := by
  have h : (0 : ℝ) ≤ (m : ℝ) * 2 ^ e := by positivity
  cases n
  · rw [dyadic_false, abs_of_nonneg h]
  · rw [dyadic_true, abs_neg, abs_of_nonneg h]

/-- A power of two between exponents that rise, as a real number. -/
theorem two_zpow_split (hlo : lo ≤ e) : (2 : ℝ) ^ e = ((2 ^ (e - lo).toNat : Nat) : ℝ) * 2 ^ lo := by
  push_cast
  rw [← zpow_natCast, ← zpow_add₀ (by norm_num : (2 : ℝ) ≠ 0)]
  congr 1
  omega

/-- A value as an integer times a lower power of two. -/
theorem dyadic_eq_signedAt (hlo : lo ≤ e) : dyadic n m e = (signedAt n m e lo : ℝ) * 2 ^ lo := by
  have h : (m : ℝ) * 2 ^ e = (alignTo m e lo : ℝ) * 2 ^ lo := by
    rw [two_zpow_split hlo, alignTo]
    push_cast
    ring
  cases n
  · rw [dyadic_false, h]
    simp [signedAt]
  · rw [dyadic_true, h]
    simp [signedAt]

theorem signedAt_lt_iff (hlo : lo ≤ e) (hlo' : lo ≤ e') :
    signedAt n m e lo < signedAt n' m' e' lo ↔ dyadic n m e < dyadic n' m' e' := by
  have hpos : (0 : ℝ) < 2 ^ lo := by positivity
  rw [dyadic_eq_signedAt hlo, dyadic_eq_signedAt hlo', mul_lt_mul_iff_left₀ hpos, Int.cast_lt]

theorem lt_fin_iff : (Num.fin n m e).lt (.fin n' m' e') = true ↔ dyadic n m e < dyadic n' m' e' := by
  rw [← signedAt_lt_iff (min_le_left e e') (min_le_right e e')]
  simp [Num.lt]

theorem lt_fin_eq_false : (Num.fin n m e).lt (.fin n' m' e') = false ↔ dyadic n' m' e' ≤ dyadic n m e := by
  rw [← not_lt, ← lt_fin_iff, Bool.not_eq_true]

/-- A number that equals a finite value is finite, with that value. -/
theorem fin_of_eqv {x : Num} (h : x.eqv (.fin n m e) = true) :
    ∃ n' m' e', x = .fin n' m' e' ∧ dyadic n' m' e' = dyadic n m e := by
  cases x with
  | nan => simp [Num.eqv, Num.isNan] at h
  | inf b => cases b <;> simp [Num.eqv, Num.isNan, Num.lt] at h
  | fin n' m' e' =>
    simp only [Num.eqv, Num.isNan, Bool.not_false, Bool.true_and, Bool.and_eq_true, Bool.not_eq_true', lt_fin_eq_false] at h
    exact ⟨n', m', e', rfl, le_antisymm h.2 h.1⟩

/-- The leading bit of a magnitude gives its binary exponent. -/
theorem dyadic_binade (hm : m ≠ 0) : (2 : ℝ) ^ ((Nat.log2 m : Int) + e) ≤ |dyadic n m e| ∧
    |dyadic n m e| < 2 ^ ((Nat.log2 m : Int) + e + 1) := by
  have hpos : (0 : ℝ) < 2 ^ e := by positivity
  have h2 : (2 : ℝ) ≠ 0 := by norm_num
  rw [abs_dyadic, add_right_comm, zpow_add₀ h2, zpow_add₀ h2 _ e, mul_le_mul_iff_left₀ hpos, mul_lt_mul_iff_left₀ hpos,
    ← Nat.cast_succ, zpow_natCast, zpow_natCast]
  exact ⟨by exact_mod_cast Nat.log2_self_le hm, by exact_mod_cast Nat.lt_log2_self⟩

/-- The binary exponent of a value. -/
theorem log_dyadic (hm : m ≠ 0) : Int.log 2 |dyadic n m e| = (Nat.log2 m : Int) + e := by
  obtain ⟨hlo, hhi⟩ := dyadic_binade (n := n) (e := e) hm
  have hpos : (0 : ℝ) < |dyadic n m e| := lt_of_lt_of_le (by positivity) hlo
  have h1 := (Int.zpow_le_iff_le_log (b := 2) (by norm_num) hpos).1 (by exact_mod_cast hlo)
  have h2 := (Int.lt_zpow_iff_log_lt (b := 2) (by norm_num) hpos).1 (by exact_mod_cast hhi)
  omega

/-! ### Rounding to the nearest (05 R101) -/

/-- The multiple that rounding to the nearest takes is no farther than any other. -/
theorem nearest_multiple {u : Word} {M N t r d : Nat} (hd : 0 < d) (ht : t = M / d) (hr : r = M % d)
    (hup : RoundsUp 0 n u t r d → N = t + 1) (hdown : ¬RoundsUp 0 n u t r d → N = t) (k : Int) :
    |((N * d : Nat) : Int) - M| ≤ |k * d - M| := by
  have hM : (M : Int) = t * d + r := by
    rw [ht, hr, Int.mul_comm]
    exact_mod_cast (Nat.div_add_mod M d).symm
  have hrlt : r < d := hr ▸ Nat.mod_lt M hd
  have hhalf : ((N * d : Nat) : Int) = t * d ∧ 2 * r ≤ d ∨ ((N * d : Nat) : Int) = t * d + d ∧ d ≤ 2 * r := by
    by_cases h : RoundsUp 0 n u t r d
    · refine .inr ⟨by rw [hup h]; push_cast; ring, ?_⟩
      obtain ⟨-, ⟨-, h⟩ | ⟨h, -⟩ | ⟨h, -⟩ | ⟨h, -⟩⟩ := h <;> omega
    · refine .inl ⟨by rw [hdown h]; push_cast; ring, ?_⟩
      by_contra hmore
      exact h ⟨by omega, .inl ⟨rfl, by omega⟩⟩
  have hk : k * d ≤ t * d ∨ t * d + d ≤ k * d := by
    rcases lt_or_ge (t : Int) k with h | h
    · have := mul_le_mul_of_nonneg_right (show (t : Int) + 1 ≤ k by omega) (Int.natCast_nonneg d)
      exact .inr (by rwa [Int.add_mul, Int.one_mul] at this)
    · exact .inl (mul_le_mul_of_nonneg_right h (Int.natCast_nonneg d))
  rw [Int.abs_eq_natAbs, Int.abs_eq_natAbs]
  omega

/-- The distance between the multiples of a magnitude's spacing: 2^-149 below the normal range (05 R95). -/
def spacingOf (m : Nat) (e : Int) : Int := max ((Nat.log2 m : Int) + e) (-126) - 23

/-- Rounding to the nearest takes a multiple of the spacing that is no farther than any other, and beyond the largest finite value an
infinity (05 R101, R102). -/
theorem roundFloat_nearest {u : Word} (hm : m ≠ 0) :
    ∃ N : Nat, (∀ k : Int, |(N : ℝ) * 2 ^ spacingOf m e - m * 2 ^ e| ≤ |(k : ℝ) * 2 ^ spacingOf m e - m * 2 ^ e|) ∧
      ((N : ℝ) * 2 ^ spacingOf m e ≤ 0xFFFFFF * 2 ^ (104 : Int) →
        (decodeFloat 0 (roundFloat 0 0 false u (.fin n m e)).1).eqv (.fin n N (spacingOf m e)) = true ∧
        (roundFloat 0 0 false u (.fin n m e)).1 < 2 ^ 32) ∧
      (0xFFFFFF * 2 ^ (104 : Int) < (N : ℝ) * 2 ^ spacingOf m e →
        (roundFloat 0 0 false u (.fin n m e)).1 = infBits (fmtOf 0) n) := by
  obtain ⟨q, hq⟩ : ∃ q, q = spacingOf m e := ⟨_, rfl⟩
  obtain ⟨lo, hlo⟩ : ∃ lo, lo = min e (min q 104) := ⟨_, rfl⟩
  obtain ⟨d, hd⟩ : ∃ d, d = 2 ^ (q - lo).toNat := ⟨_, rfl⟩
  obtain ⟨t, ht⟩ : ∃ t, t = m * 2 ^ (e - lo).toNat / d := ⟨_, rfl⟩
  obtain ⟨r, hr⟩ : ∃ r, r = m * 2 ^ (e - lo).toNat % d := ⟨_, rfl⟩
  obtain ⟨N, hup, hdown⟩ : ∃ N, (RoundsUp 0 n u t r d → N = t + 1) ∧ (¬RoundsUp 0 n u t r d → N = t) := by
    by_cases h : RoundsUp 0 n u t r d
    · exact ⟨t + 1, fun _ => rfl, fun h' => absurd h h'⟩
    · exact ⟨t, fun h' => absurd h' h, fun _ => rfl⟩
  have hpos : (0 : ℝ) < 2 ^ lo := by positivity
  have hunit : (2 : ℝ) ^ q = d * 2 ^ lo := hd ▸ two_zpow_split (by omega)
  have hvalue : (m : ℝ) * 2 ^ e = ((m * 2 ^ (e - lo).toNat : Nat) : ℝ) * 2 ^ lo := by
    rw [two_zpow_split (show lo ≤ e by omega)]
    push_cast
    ring
  have hlarge : (0xFFFFFF : ℝ) * 2 ^ (104 : Int) = ((0xFFFFFF * 2 ^ (104 - lo).toNat : Nat) : ℝ) * 2 ^ lo := by
    rw [two_zpow_split (show lo ≤ 104 by omega)]
    push_cast
    ring
  have hscale : ∀ k : Int, (k : ℝ) * 2 ^ q - m * 2 ^ e = ((k * d - (m * 2 ^ (e - lo).toNat : Nat) : Int) : ℝ) * 2 ^ lo := by
    intro k
    rw [hunit, hvalue]
    push_cast
    ring
  have hnear := nearest_multiple (hd ▸ Nat.two_pow_pos _) ht hr hup hdown
  have hbeyond : 0xFFFFFF * 2 ^ (104 - lo).toNat < N * d ↔ (0xFFFFFF : ℝ) * 2 ^ (104 : Int) < (N : ℝ) * 2 ^ q := by
    rw [hlarge, hunit, ← mul_assoc, mul_lt_mul_iff_left₀ hpos]
    exact_mod_cast Iff.rfl
  rw [← hq]
  refine ⟨N, fun k => ?_, fun hle => ?_, fun hgt => ?_⟩
  · have hN := hscale N
    rw [Int.cast_natCast] at hN
    rw [hN, hscale k, abs_mul, abs_mul, mul_le_mul_iff_left₀ (abs_pos.2 hpos.ne'), ← Int.cast_abs, ← Int.cast_abs, Int.cast_le]
    exact_mod_cast hnear k
  · obtain ⟨heqv, -, hlt, -⟩ := roundFloat_within (code := 0) (sat := false) (by decide) hm (by decide) hq hlo hd ht hr hup hdown
      (mt hbeyond.1 hle.not_gt)
    exact ⟨heqv, hlt⟩
  · have h := (roundFloat_beyond (code := 0) (sat := false) (by decide) hm (by decide) hq hlo hd ht hr hup hdown
      (hbeyond.2 hgt)).2 rfl (by decide) (.inl rfl)
    rw [h]
    rfl

/-- The largest finite FP32 value (05 R95). -/
noncomputable def largest32 : ℝ := 0xFFFFFF * 2 ^ (104 : Int)

theorem largest32_lt : largest32 < 2 ^ (128 : Int) := by
  norm_num [largest32]

theorem le_largest32 : (2 : ℝ) ^ (127 : Int) ≤ largest32 := by
  norm_num [largest32]

/-- What rounding a value within the largest finite one to the nearest FP32 value gives (05 R101). -/
theorem f32_toF32_nearest (u : Word) (hm : m ≠ 0) (hmax : (m : ℝ) * 2 ^ e ≤ largest32) :
    ∃ n' m' e', f32 (toF32 0 false u (.fin n m e)) = .fin n' m' e' ∧
      ∀ k : Int, |dyadic n' m' e' - dyadic n m e| ≤ |(k : ℝ) * 2 ^ spacingOf m e - m * 2 ^ e| := by
  obtain ⟨N, hnear, hwithin, -⟩ := roundFloat_nearest (n := n) (e := e) (u := u) hm
  have hexp : (Nat.log2 m : Int) + e < 128 := by
    have h := (dyadic_binade (n := false) (e := e) hm).1
    rw [abs_dyadic] at h
    exact (zpow_lt_zpow_iff_right₀ (by norm_num : (1 : ℝ) < 2)).1 ((h.trans hmax).trans_lt largest32_lt)
  have hspace : spacingOf m e ≤ 104 := by unfold spacingOf; omega
  have hle : (N : ℝ) * 2 ^ spacingOf m e ≤ largest32 := by
    have h := hnear (0xFFFFFF * 2 ^ (104 - spacingOf m e).toNat)
    have hmul : ((0xFFFFFF * 2 ^ (104 - spacingOf m e).toNat : Int) : ℝ) * 2 ^ spacingOf m e = largest32 := by
      rw [largest32, two_zpow_split hspace]
      push_cast
      ring
    rw [hmul, abs_of_nonneg (sub_nonneg.2 hmax)] at h
    linarith [(abs_le.1 h).2]
  obtain ⟨heqv, hlt⟩ := hwithin hle
  obtain ⟨n', m', e', hx, hdy⟩ := fin_of_eqv heqv
  refine ⟨n', m', e', ?_, fun k => ?_⟩
  · rw [f32, toF32, BitVec.toNat_ofNat, Nat.mod_eq_of_lt hlt]
    exact hx
  · rw [hdy]
    cases n
    · simpa only [dyadic_false] using hnear k
    · simp only [dyadic_true]
      rw [← neg_sub_neg, neg_neg, neg_neg, abs_sub_comm]
      exact hnear k

end Sys2Proof.Machine
end

section
/-! SUPPORT. FP32 codes as exact values: what rounding leaves of them, and the integers and powers of two among them (05 R95, R101). -/

namespace Sys2Proof.Machine

variable {n n' : Bool} {m m' : Nat} {e e' lo q : Int} {a c u : Word}

/-! ### Rounding depends on the value alone -/

theorem aligned_of_dyadic (hlo : lo ≤ e) (hlo' : lo ≤ e') (h : (m : ℝ) * 2 ^ e = m' * 2 ^ e') :
    m * 2 ^ (e - lo).toNat = m' * 2 ^ (e' - lo).toNat := by
  have hpos : (2 : ℝ) ^ lo ≠ 0 := by positivity
  rw [two_zpow_split hlo, two_zpow_split hlo', ← mul_assoc, ← mul_assoc] at h
  exact_mod_cast mul_right_cancel₀ hpos h

theorem roundAt_congr {rnd : Nat} (h : (m : ℝ) * 2 ^ e = m' * 2 ^ e') : roundAt rnd n u m e q = roundAt rnd n u m' e' q := by
  obtain ⟨lo, hlo⟩ : ∃ lo, lo = min e (min e' q) := ⟨_, rfl⟩
  rw [roundAt_eq (lo := lo) (by omega) (by omega), roundAt_eq (lo := lo) (e := e') (by omega) (by omega),
    aligned_of_dyadic (lo := lo) (by omega) (by omega) h]

theorem toF32_congr (h : (m : ℝ) * 2 ^ e = m' * 2 ^ e') : toF32 0 false u (.fin n m e) = toF32 0 false u (.fin n m' e') := by
  have h2 : ∀ e : Int, (2 : ℝ) ^ e ≠ 0 := fun e => by positivity
  have hzero : m = 0 ↔ m' = 0 := by
    constructor <;> rintro rfl <;> simpa [h2] using h
  by_cases hm : m = 0
  · rw [hm, hzero.1 hm, toF32, toF32, roundFloat_zero, roundFloat_zero]
  · have hm' : m' ≠ 0 := mt hzero.2 hm
    have htop : (Nat.log2 m : Int) + e = (Nat.log2 m' : Int) + e' := by
      rw [← log_dyadic (n := n) hm, ← log_dyadic (n := n) hm', abs_dyadic, abs_dyadic, h]
    simp only [toF32, roundFloat, if_neg hm, if_neg hm', htop, roundAt_congr h]

/-! ### Codes (05 R95) -/

theorem toNat_parts (x : Word) : x.toNat = codeOf (fmtOf 0) (x.getLsbD 31) (exponentOf x).toNat (fractionOf x).toNat := by
  have hlt : x.toNat < 2 ^ 32 := x.isLt
  have hex : (exponentOf x).toNat = x.toNat / 2 ^ 23 % 2 ^ 8 := by
    rw [exponentOf, BitVec.extractLsb'_toNat, Nat.shiftRight_eq_div_pow]
  have hfr : (fractionOf x).toNat = x.toNat % 2 ^ 23 := by
    rw [fractionOf, BitVec.extractLsb'_toNat, Nat.shiftRight_zero]
  have hsign : x.getLsbD 31 = decide (x.toNat / 2 ^ 31 % 2 = 1) := by
    rw [← BitVec.testBit_toNat, Nat.testBit_eq_decide_div_mod_eq]
  rw [hex, hfr, hsign, codeOf, show (fmtOf 0).mbits = 23 from rfl, show (fmtOf 0).ebits = 8 from rfl]
  split
  · next h =>
    have := of_decide_eq_true h
    omega
  · next h =>
    have : ¬x.toNat / 2 ^ 31 % 2 = 1 := fun h' => h (decide_eq_true h')
    omega

/-- A code's finite value: its significand and its exponent. -/
theorem f32_fin (h : f32 a = .fin n m e) : a.toNat = codeOf (fmtOf 0) n (exponentOf a).toNat (fractionOf a).toNat ∧
    ((exponentOf a).toNat = 0 ∧ m = (fractionOf a).toNat ∧ e = -149 ∨
      1 ≤ (exponentOf a).toNat ∧ (exponentOf a).toNat ≤ 254 ∧ m = (fractionOf a).toNat + 2 ^ 23 ∧
        e = (exponentOf a).toNat - 150) := by
  have hparts := toNat_parts a
  have htop : (exponentOf a).toNat = 255 ↔ exponentOf a = 255 := BitVec.toNat_inj (y := 255#8)
  have hsub : (exponentOf a).toNat = 0 ↔ exponentOf a = 0 := BitVec.toNat_inj (y := 0#8)
  have hlt := (exponentOf a).isLt
  rw [f32_eq] at h
  split at h
  · split at h <;> cases h
  · next hfin =>
    split at h
    · next hzero =>
      cases h
      exact ⟨hparts, .inl ⟨hsub.2 hzero, rfl, rfl⟩⟩
    · next hnorm =>
      cases h
      exact ⟨hparts, .inr ⟨by have := mt hsub.1 hnorm; omega, by have := mt htop.1 hfin; omega, rfl, rfl⟩⟩

/-- A finite code's significand and exponent lie in the ranges of the format. -/
theorem f32_range (h : f32 a = .fin n m e) : m < 2 ^ 24 ∧ -149 ≤ e ∧ e ≤ 104 ∧ (m < 2 ^ 23 → e = -149) := by
  have hlow := (fractionOf a).isLt
  obtain ⟨-, ⟨-, hm, he⟩ | ⟨hlo, hhi, hm, he⟩⟩ := f32_fin h <;> refine ⟨?_, ?_, ?_, fun _ => ?_⟩ <;> omega

theorem packFinite_subnormal {x : Nat} (hx : x < 2 ^ 23) : packFinite (fmtOf 0) n x (-149) = codeOf (fmtOf 0) n 0 x := by
  rw [packFinite, codeOf, if_pos (show x < 2 ^ (fmtOf 0).mbits from hx), Nat.zero_mul, Nat.add_zero]

theorem packFinite_normal {x k : Nat} (hx : x < 2 ^ 23) : packFinite (fmtOf 0) n (x + 2 ^ 23) ((k : Int) - 150) =
    codeOf (fmtOf 0) n k x := by
  have hexp : ((k : Int) - 150 + 23 + 127).toNat = k := by omega
  rw [packFinite, if_neg (by simp [fmtOf]), if_neg (by simp only [fmtOf]; omega)]
  simp only [fmtOf, codeOf]
  rw [show ((k : Int) - 150 + (23 : Nat) + (127 : Nat)).toNat = k by omega, Nat.add_sub_cancel]

theorem alignTo_self (m : Nat) (e : Int) : alignTo m e e = m := by
  rw [alignTo, sub_self]
  exact Nat.mul_one m

/-- Rounding a finite code's own value gives the code. -/
theorem toF32_f32_fin (h : f32 a = .fin n m e) : toF32 0 false u (.fin n m e) = a := by
  obtain ⟨hcode, hparts⟩ := f32_fin h
  have hlow := (fractionOf a).isLt
  refine BitVec.eq_of_toNat_eq ?_
  suffices hround : (roundFloat 0 0 false u (.fin n m e)).1 = a.toNat by
    rw [toF32, BitVec.toNat_ofNat, hround, Nat.mod_eq_of_lt a.isLt]
  by_cases hm : m = 0
  · obtain ⟨hex, hfr⟩ : (exponentOf a).toNat = 0 ∧ (fractionOf a).toNat = 0 := by omega
    rw [hcode, hex, hfr, hm]
    simp [roundFloat, codeOf]
  have hlog : (exponentOf a).toNat = 0 ∧ Nat.log2 m < 23 ∨ 1 ≤ (exponentOf a).toNat ∧ Nat.log2 m = 23 := by
    rcases hparts with ⟨hex, hfr, -⟩ | ⟨hex, -, hfr, -⟩
    · exact .inl ⟨hex, (Nat.log2_lt hm).2 (by omega)⟩
    · exact .inr ⟨hex, (Nat.log2_eq_iff hm).2 (by omega)⟩
  have hq : max ((Nat.log2 m : Int) + e) (1 - (fmtOf 0).bias) - (fmtOf 0).mbits = e := by
    simp only [fmtOf]
    omega
  have hsize : alignTo m e (min e (fmtOf 0).maxQ) ≤ alignTo (fmtOf 0).maxN (fmtOf 0).maxQ (min e (fmtOf 0).maxQ) := by
    have hmax : (fmtOf 0).maxQ = 104 := rfl
    rw [show min e (fmtOf 0).maxQ = e by omega, alignTo_self, alignTo, hmax]
    calc m ≤ (fmtOf 0).maxN := by simp only [fmtOf]; omega
      _ ≤ _ := Nat.le_mul_of_pos_right _ (Nat.two_pow_pos _)
  simp only [roundFloat, if_neg hm, hq, roundAt, le_refl, if_true, alignTo_self]
  rw [if_neg hsize.not_gt, hcode]
  rcases hparts with ⟨hex, rfl, rfl⟩ | ⟨-, -, rfl, rfl⟩
  · rw [hex, packFinite_subnormal hlow]
  · rw [packFinite_normal hlow]

/-- Rounding an exact value of the format gives its code. -/
theorem toF32_of_value (hc : f32 c = .fin n m' e') (h : (m : ℝ) * 2 ^ e = m' * 2 ^ e') : toF32 0 false u (.fin n m e) = c :=
  (toF32_congr h).trans (toF32_f32_fin hc)

end Sys2Proof.Machine
end

section
/-! SUPPORT. The integers and the powers of two among finite values, and integer square roots (08 R160 to R162). -/

namespace Sys2Proof.Machine

variable {n n' : Bool} {m m' : Nat} {e e' lo q : Int} {a c u : Word}

/-! ### Integers among finite values -/

/-- A magnitude with its sign. -/
def signedMag (n : Bool) (m : Nat) : Int := if n then -(m : Int) else m

theorem dyadic_eq_signedMag (n : Bool) (m : Nat) (e : Int) : dyadic n m e = signedMag n m * 2 ^ e := by
  cases n <;> simp [dyadic, signedMag]

/-- The value in units of 2^-p, rounded down. -/
theorem fixedAt_eq_floor (p : Nat) (n : Bool) (m : Nat) (e : Int) : fixedAt p n m e = ⌊dyadic n m e * 2 ^ p⌋ := by
  have hvalue : dyadic n m e * 2 ^ p = signedMag n m * (2 : ℝ) ^ (e + p) := by
    rw [dyadic_eq_signedMag, mul_assoc, zpow_add₀ (by norm_num : (2 : ℝ) ≠ 0), zpow_natCast]
  rw [hvalue]
  show (if 0 ≤ e + p then signedMag n m * 2 ^ (e + p).toNat else signedMag n m / 2 ^ (-(e + p)).toNat) = _
  by_cases h : 0 ≤ e + p
  · have hpow : (2 : ℝ) ^ (e + p) = ((2 ^ (e + p).toNat : Int) : ℝ) := by
      push_cast
      rw [← zpow_natCast, Int.toNat_of_nonneg h]
    rw [if_pos h, hpow, ← Int.cast_mul, Int.floor_intCast]
  · have hpow : (2 : ℝ) ^ (e + p) = ((2 ^ (-(e + p)).toNat : Nat) : ℝ)⁻¹ := by
      push_cast
      rw [← zpow_natCast, Int.toNat_of_nonneg (by omega), ← zpow_neg, neg_neg]
    rw [if_neg h, hpow, ← div_eq_mul_inv, Int.floor_div_natCast, Int.floor_intCast]
    push_cast
    rfl

theorem fixedAt_zero_eq_floor (n : Bool) (m : Nat) (e : Int) : fixedAt 0 n m e = ⌊dyadic n m e⌋ := by
  simpa using fixedAt_eq_floor 0 n m e

theorem intOf?_of_nonneg (he : 0 ≤ e) : intOf? n m e = some (signedMag n m * 2 ^ e.toNat) := by
  have h : 0 ≤ e + (0 : Nat) := by omega
  simp only [intOf?, fixedAt, if_pos he, if_pos h]
  simp [signedMag]

theorem two_pow_dvd_signedMag (k : Nat) : (2 ^ k : Int) ∣ signedMag n m ↔ m % 2 ^ k = 0 := by
  have h : (2 ^ k : Int) ∣ (m : Int) ↔ m % 2 ^ k = 0 := by
    rw [← Nat.dvd_iff_mod_eq_zero]
    exact_mod_cast Int.natCast_dvd_natCast (m := 2 ^ k) (n := m)
  cases n
  · exact h
  · exact (Int.dvd_neg).trans h

theorem intOf?_of_dvd (he : e < 0) (h : (2 ^ (-e).toNat : Int) ∣ signedMag n m) :
    intOf? n m e = some (signedMag n m / 2 ^ (-e).toNat) := by
  have hneg : ¬0 ≤ e + (0 : Nat) := by omega
  simp only [intOf?, fixedAt, if_neg (show ¬0 ≤ e by omega), if_neg hneg, if_pos ((two_pow_dvd_signedMag _).1 h)]
  simp [signedMag]

theorem intOf?_of_not_dvd (he : e < 0) (h : ¬(2 ^ (-e).toNat : Int) ∣ signedMag n m) : intOf? n m e = none := by
  simp only [intOf?, if_neg (show ¬0 ≤ e by omega), if_neg (mt (two_pow_dvd_signedMag _).2 h)]

/-- An integer is found exactly where the value is one. -/
theorem intOf?_eq_some {j : Int} : intOf? n m e = some j ↔ dyadic n m e = j := by
  rw [dyadic_eq_signedMag]
  rcases lt_or_ge e 0 with he | he
  · have hpow : (2 : ℝ) ^ e = ((2 ^ (-e).toNat : Int) : ℝ)⁻¹ := by
      push_cast
      rw [← zpow_natCast, Int.toNat_of_nonneg (by omega), ← zpow_neg, neg_neg]
    have hne : ((2 ^ (-e).toNat : Int) : ℝ) ≠ 0 := by positivity
    have hvalue : (signedMag n m : ℝ) * 2 ^ e = j ↔ signedMag n m = j * 2 ^ (-e).toNat := by
      rw [hpow, ← div_eq_mul_inv, div_eq_iff hne]
      exact_mod_cast Iff.rfl
    rw [hvalue]
    by_cases h : (2 ^ (-e).toNat : Int) ∣ signedMag n m
    · rw [intOf?_of_dvd he h, Option.some_inj, Int.ediv_eq_iff_eq_mul_left (by positivity) h]
    · rw [intOf?_of_not_dvd he h]
      exact ⟨nofun, fun h' => absurd (h' ▸ Dvd.intro_left j rfl) h⟩
  · have hpow : (2 : ℝ) ^ e = ((2 ^ e.toNat : Int) : ℝ) := by
      push_cast
      rw [← zpow_natCast, Int.toNat_of_nonneg he]
    rw [intOf?_of_nonneg he, hpow, Option.some_inj]
    exact_mod_cast Iff.rfl

theorem intOf?_eq_none : intOf? n m e = none ↔ ∀ j : Int, dyadic n m e ≠ j := by
  rw [Option.eq_none_iff_forall_ne_some]
  exact forall_congr' fun j => not_congr intOf?_eq_some

theorem intOf?_isSome : (intOf? n m e).isSome = true ↔ ∃ j : Int, dyadic n m e = j := by
  rw [Option.isSome_iff_exists]
  exact exists_congr fun j => intOf?_eq_some

/-! ### Powers of two among finite values -/

theorem pow2?_eq_some {j : Int} (hm : m ≠ 0) : pow2? m e = some j ↔ (m : ℝ) * 2 ^ e = 2 ^ j := by
  have h2 : (2 : ℝ) ≠ 0 := by norm_num
  have hone : (1 : ℝ) < 2 := by norm_num
  obtain ⟨hlo, hhi⟩ := dyadic_binade (n := false) (e := e) hm
  rw [abs_dyadic] at hlo hhi
  unfold pow2?
  constructor
  · intro h
    split at h
    · next hpow =>
      cases h
      rw [zpow_add₀ h2, zpow_natCast]
      congr 1
      exact_mod_cast hpow
    · cases h
  · intro h
    rw [h, zpow_le_zpow_iff_right₀ hone] at hlo
    rw [h, zpow_lt_zpow_iff_right₀ hone] at hhi
    have hj : j = (Nat.log2 m : Int) + e := by omega
    rw [hj, zpow_add₀ h2, zpow_natCast] at h
    have hpow := mul_right_cancel₀ (by positivity) h
    rw [if_pos (by exact_mod_cast hpow), hj]

/-! ### Codes of small values and of powers of two -/

/-- The value of a code without a sign. -/
theorem f32_ofNat {N : Nat} (hN : N / 2 ^ 23 < 255) : f32 (BitVec.ofNat 32 N) =
    if N / 2 ^ 23 = 0 then .fin false N (-149) else .fin false (N % 2 ^ 23 + 2 ^ 23) ((N / 2 ^ 23 : Nat) - 150) := by
  have hlt : N < 2 ^ 31 := by omega
  have htoNat : (BitVec.ofNat 32 N).toNat = N := by
    rw [BitVec.toNat_ofNat]
    omega
  have hex : (exponentOf (BitVec.ofNat 32 N)).toNat = N / 2 ^ 23 := by
    rw [exponentOf, BitVec.extractLsb'_toNat, Nat.shiftRight_eq_div_pow, htoNat]
    omega
  have hfr : (fractionOf (BitVec.ofNat 32 N)).toNat = N % 2 ^ 23 := by
    rw [fractionOf, BitVec.extractLsb'_toNat, Nat.shiftRight_zero, htoNat]
  have hsign : (BitVec.ofNat 32 N).getLsbD 31 = false := by
    rw [← BitVec.testBit_toNat, htoNat, Nat.testBit_lt_two_pow hlt]
  have htop : exponentOf (BitVec.ofNat 32 N) ≠ 255 := fun h => by
    rw [h] at hex
    exact absurd hex (by simp; omega)
  have hsub : exponentOf (BitVec.ofNat 32 N) = 0 ↔ N / 2 ^ 23 = 0 := by
    rw [← hex]
    exact (BitVec.toNat_inj (y := 0#8)).symm
  rw [f32_eq, if_neg htop, hsign, hfr, hex]
  by_cases h : N / 2 ^ 23 = 0
  · rw [if_pos (hsub.2 h), if_pos h, Nat.mod_eq_of_lt (by omega)]
  · rw [if_neg (mt hsub.1 h), if_neg h]

theorem f32_normal_pow {k : Nat} (h1 : 1 ≤ k) (h2 : k ≤ 254) : f32 (BitVec.ofNat 32 (k * 2 ^ 23)) = .fin false (2 ^ 23) (k - 150) := by
  have hdiv : k * 2 ^ 23 / 2 ^ 23 = k := Nat.mul_div_cancel _ (by decide)
  rw [f32_ofNat (by omega), hdiv, if_neg (by omega), Nat.mul_mod_left, Nat.zero_add]

theorem f32_subnormal {N : Nat} (h : N < 2 ^ 23) : f32 (BitVec.ofNat 32 N) = .fin false N (-149) := by
  have hdiv : N / 2 ^ 23 = 0 := Nat.div_eq_of_lt h
  rw [f32_ofNat (by omega), if_pos hdiv]

/-- The code of a power of two in the normal range. -/
theorem toF32_two_pow {j : Int} (h1 : -126 ≤ j) (h2 : j ≤ 127) :
    toF32 0 false u (.fin false 1 j) = BitVec.ofNat 32 ((j + 127).toNat * 2 ^ 23) := by
  refine toF32_of_value (f32_normal_pow (k := (j + 127).toNat) (by omega) (by omega)) ?_
  have hpow : ((2 ^ 23 : Nat) : ℝ) = 2 ^ (23 : Int) := by norm_num
  rw [hpow, ← zpow_add₀ (by norm_num : (2 : ℝ) ≠ 0), Nat.cast_one, one_mul]
  congr 1
  omega

/-- A value that is a multiple of its spacing is kept. -/
theorem f32_toF32_exact (hm : m ≠ 0) (hmax : (m : ℝ) * 2 ^ e ≤ largest32) (hq : spacingOf m e ≤ e) :
    ∃ n' m' e', f32 (toF32 0 false u (.fin n m e)) = .fin n' m' e' ∧ dyadic n' m' e' = dyadic n m e := by
  obtain ⟨n', m', e', hx, hnear⟩ := f32_toF32_nearest (n := n) u hm hmax
  have h := hnear (m * 2 ^ (e - spacingOf m e).toNat)
  have hexact : ((m * 2 ^ (e - spacingOf m e).toNat : Int) : ℝ) * 2 ^ spacingOf m e = m * 2 ^ e := by
    rw [two_zpow_split hq]
    push_cast
    ring
  rw [hexact, sub_self, abs_zero] at h
  exact ⟨n', m', e', hx, sub_eq_zero.1 (abs_nonpos_iff.1 h)⟩

/-- The code of a small integer holds the integer. -/
theorem f32_toF32_int {j : Int} (hj : j.natAbs < 2 ^ 8) :
    ∃ n' m' e', f32 (toF32 0 false u (numOfInt j)) = .fin n' m' e' ∧ dyadic n' m' e' = j := by
  have hvalue : dyadic (decide (j < 0)) j.natAbs 0 = j := by
    rw [dyadic_eq_signedMag, zpow_zero, mul_one, Int.cast_inj, signedMag]
    split <;> rename_i h <;> simp at h <;> omega
  rw [numOfInt, ← hvalue]
  by_cases hm : j.natAbs = 0
  · rw [hm, toF32, roundFloat_zero, dyadic_zero, Int.natAbs_eq_zero.1 hm]
    exact ⟨false, 0, -149, by decide +kernel, dyadic_zero ..⟩
  · have hlog : Nat.log2 j.natAbs < 8 := (Nat.log2_lt hm).2 hj
    have hle : (j.natAbs : ℝ) ≤ (2 ^ 8 : Nat) := by exact_mod_cast hj.le
    refine f32_toF32_exact hm ?_ (by unfold spacingOf; omega)
    rw [zpow_zero, mul_one]
    exact (hle.trans (by norm_num)).trans le_largest32

/-- The code of a power of two holds it. -/
theorem f32_toF32_two_pow {j : Int} (h1 : -149 ≤ j) (h2 : j ≤ 127) :
    ∃ m' e', f32 (toF32 0 false u (.fin false 1 j)) = .fin false m' e' ∧ m' ≠ 0 ∧ (m' : ℝ) * 2 ^ e' = 2 ^ j := by
  have hpos : (0 : ℝ) < 2 ^ j := by positivity
  obtain ⟨n', m', e', hx, hvalue⟩ := f32_toF32_exact (n := false) (m := 1) (e := j) (u := u) (by decide)
    (by
      rw [Nat.cast_one, one_mul]
      exact (zpow_le_zpow_right₀ (by norm_num) h2).trans le_largest32)
    (by
      have hlog : Nat.log2 1 = 0 := by decide
      unfold spacingOf
      omega)
  rw [dyadic_false, Nat.cast_one, one_mul] at hvalue
  cases n' with
  | true =>
    have hneg : (0 : ℝ) ≤ (m' : ℝ) * 2 ^ e' := by positivity
    rw [dyadic_true] at hvalue
    linarith
  | false =>
    rw [dyadic_false] at hvalue
    refine ⟨m', e', hx, ?_, hvalue⟩
    rintro rfl
    rw [Nat.cast_zero, zero_mul] at hvalue
    exact hpos.ne hvalue

/-- A value of 2^128 or more rounds to an infinity (05 R102). -/
theorem toF32_beyond (hm : m ≠ 0) (hbig : (2 : ℝ) ^ (128 : Int) ≤ m * 2 ^ e) :
    toF32 0 false u (.fin n m e) = BitVec.ofNat 32 (infBits (fmtOf 0) n) := by
  obtain ⟨N, hnear, -, hbeyond⟩ := roundFloat_nearest (n := n) (e := e) (u := u) hm
  obtain ⟨hlo, hhi⟩ := dyadic_binade (n := false) (e := e) hm
  rw [abs_dyadic] at hlo hhi
  have htop : 128 ≤ (Nat.log2 m : Int) + e := by
    have := (zpow_lt_zpow_iff_right₀ (by norm_num : (1 : ℝ) < 2)).1 (hbig.trans_lt hhi)
    omega
  have hspace : (Nat.log2 m : Int) + e = 23 + spacingOf m e := by
    unfold spacingOf
    omega
  have hk := hnear (2 ^ 23)
  have hpow : ((2 ^ 23 : Int) : ℝ) * 2 ^ spacingOf m e = 2 ^ ((Nat.log2 m : Int) + e) := by
    rw [hspace, zpow_add₀ (by norm_num : (2 : ℝ) ≠ 0)]
    norm_num
  rw [hpow, abs_sub_comm ((2 : ℝ) ^ _), abs_of_nonneg (sub_nonneg.2 hlo)] at hk
  have hN : (2 : ℝ) ^ (128 : Int) ≤ (N : ℝ) * 2 ^ spacingOf m e := by
    have := (abs_le.1 hk).1
    have := zpow_le_zpow_right₀ (by norm_num : (1 : ℝ) ≤ 2) htop
    linarith
  rw [toF32, hbeyond (lt_of_lt_of_le (by norm_num) hN)]

/-! ### Integer square roots -/

theorem isqrtGo_spec (N i r : Nat) (hlo : r * r ≤ N) (hhi : N < (r + 2 ^ i) * (r + 2 ^ i)) :
    isqrtGo N i r * isqrtGo N i r ≤ N ∧ N < (isqrtGo N i r + 1) * (isqrtGo N i r + 1) := by
  induction i generalizing r with
  | zero => exact ⟨hlo, hhi⟩
  | succ i ih =>
    rw [isqrtGo]
    split
    · next h => exact ih _ h (by rwa [Nat.add_assoc, ← Nat.two_mul, ← Nat.pow_succ'])
    · next h => exact ih _ hlo (Nat.lt_of_not_le h)

/-- The integer square root is the root rounded down. -/
theorem isqrt_spec (N : Nat) : isqrt N * isqrt N ≤ N ∧ N < (isqrt N + 1) * (isqrt N + 1) := by
  refine isqrtGo_spec N _ 0 (Nat.zero_le _) ?_
  rw [Nat.zero_add, ← Nat.pow_add]
  exact Nat.lt_log2_self.trans_le (Nat.pow_le_pow_right (by decide) (by omega))

end Sys2Proof.Machine
end

section
/-! SUPPORT. The special values and the exact points of the nine functions, and the exact quotient and root (08 R160 to R162); and
O15. -/

namespace Sys2Proof.Machine

variable {n n' : Bool} {m m' : Nat} {e e' lo q : Int} {a c u : Word}

/-- Rounding to the nearest draws nothing. -/
theorem toF32_draw (sat : Bool) (u : Word) (x : Num) : toF32 0 sat u x = toF32 0 sat 0 x := by
  cases x with
  | nan => rfl
  | inf _ => rfl
  | fin n m e => simp only [toF32, roundFloat, roundAt, roundsUp]

theorem isNan_iff {x : Num} : x.isNan = true ↔ x = .nan := by
  cases x <;> simp [Num.isNan]

/-- A code with its sign set that is neither −0, −∞ nor a NaN has a negative finite value. -/
theorem f32_negative (hneg : a.getLsbD 31 = true) (hzero : a ≠ 0x80000000) (hinf : a ≠ 0xFF800000)
    (hnan : (f32 a).isNan = false) : ∃ m e, f32 a = .fin true m e ∧ m ≠ 0 := by
  have hparts := toNat_parts a
  rw [hneg] at hparts
  have hfr0 : fractionOf a = 0 → (fractionOf a).toNat = 0 := fun h => by rw [h]; rfl
  rw [f32_eq, hneg] at hnan ⊢
  by_cases htop : exponentOf a = 255
  · rw [if_pos htop] at hnan
    by_cases hfr : fractionOf a = 0
    · refine absurd (BitVec.eq_of_toNat_eq ?_) hinf
      rw [hparts, hfr, htop]
      rfl
    · rw [if_neg hfr] at hnan
      cases hnan
  rw [if_neg htop]
  by_cases hsub : exponentOf a = 0
  · rw [if_pos hsub]
    refine ⟨_, _, rfl, fun h => absurd (BitVec.eq_of_toNat_eq ?_) hzero⟩
    rw [hparts, h, hsub]
    rfl
  · rw [if_neg hsub]
    exact ⟨_, _, rfl, by omega⟩

/-! ### FRCP and FSQRT (08 R162) -/

/-- The quotient's first bits, and whether more follow. -/
theorem recipNum_spec (n : Bool) (e : Int) (hm : m ≠ 0) : ∃ q r k : Nat,
    recipNum n m e = .fin n (2 * q + r) (-(k : Int) - 1 - e) ∧ q * m ≤ 2 ^ k ∧ 2 ^ k < (q + 1) * m ∧
      r ≤ 1 ∧ (r = 0 ↔ q * m = 2 ^ k) ∧ 2 ^ 89 ≤ q := by
  have hpos : 0 < m := Nat.pos_of_ne_zero hm
  refine ⟨2 ^ (Nat.log2 m + 90) / m, if 2 ^ (Nat.log2 m + 90) % m = 0 then 0 else 1, Nat.log2 m + 90, rfl, Nat.div_mul_le_self ..,
    ?_, by split <;> decide, ?_, ?_⟩
  · rw [Nat.mul_comm]
    exact Nat.lt_mul_div_succ _ hpos
  · have hdiv := Nat.div_add_mod (2 ^ (Nat.log2 m + 90)) m
    rw [Nat.mul_comm] at hdiv
    split <;> omega
  · rw [Nat.le_div_iff_mul_le hpos]
    calc 2 ^ 89 * m ≤ 2 ^ 89 * 2 ^ (Nat.log2 m + 1) := Nat.mul_le_mul_left _ Nat.lt_log2_self.le
      _ = 2 ^ (Nat.log2 m + 90) := by rw [← Nat.pow_add]; congr 1; omega

/-- The root's first bits, and whether more follow. -/
theorem sqrtNum_spec (e : Int) (hm : m ≠ 0) : ∃ (q r : Nat) (e' : Int), sqrtNum m e = .fin false (2 * q + r) (e' - 91) ∧
    (let m' := if 2 * e' = e then m else 2 * m
     (2 * e' = e ∨ 2 * e' = e - 1) ∧ q * q ≤ m' * 2 ^ 180 ∧ m' * 2 ^ 180 < (q + 1) * (q + 1) ∧
       r ≤ 1 ∧ (r = 0 ↔ q * q = m' * 2 ^ 180) ∧ 2 ^ 90 ≤ q) := by
  obtain ⟨x, hx⟩ : ∃ x, x = (if 2 * (e / 2) = e then m else 2 * m) * 2 ^ 180 := ⟨_, rfl⟩
  obtain ⟨hlo, hhi⟩ := isqrt_spec x
  refine ⟨isqrt x, if isqrt x * isqrt x = x then 0 else 1, e / 2, ?_, by omega, hx ▸ hlo, hx ▸ hhi, by split <;> decide, ?_, ?_⟩
  · by_cases h : e % 2 = 0
    · have heven : 2 * (e / 2) = e := by omega
      simp only [sqrtNum, if_pos h, if_pos heven, hx]
    · have hodd : ¬2 * (e / 2) = e := by omega
      simp only [sqrtNum, if_neg h, if_neg hodd, hx, show (e - 1) / 2 = e / 2 by omega]
  · rw [← hx]
    split <;> simp_all
  · by_contra hsmall
    have hle : 2 ^ 180 ≤ x := by
      rw [hx]
      exact Nat.le_mul_of_pos_left _ (by split <;> omega)
    have hsq : (isqrt x + 1) * (isqrt x + 1) ≤ 2 ^ 90 * 2 ^ 90 := Nat.mul_le_mul (by omega) (by omega)
    omega

theorem recipNum_value (n : Bool) (e : Int) (hm : m ≠ 0) : ∃ q r k : Nat,
    rcpValue (.fin n m e) = .fin n (2 * q + r) (-(k : Int) - 1 - e) ∧ q * m ≤ 2 ^ k ∧ 2 ^ k < (q + 1) * m ∧
      r ≤ 1 ∧ (r = 0 ↔ q * m = 2 ^ k) ∧ 2 ^ 89 ≤ q := by
  rw [rcpValue, if_neg hm]
  exact recipNum_spec n e hm

theorem sqrtNum_value (e : Int) (hm : m ≠ 0) : ∃ (q r : Nat) (e' : Int),
    sqrtValue (.fin false m e) = .fin false (2 * q + r) (e' - 91) ∧
    (let m' := if 2 * e' = e then m else 2 * m
     (2 * e' = e ∨ 2 * e' = e - 1) ∧ q * q ≤ m' * 2 ^ 180 ∧ m' * 2 ^ 180 < (q + 1) * (q + 1) ∧
       r ≤ 1 ∧ (r = 0 ↔ q * q = m' * 2 ^ 180) ∧ 2 ^ 90 ≤ q) := by
  have hvalue : sqrtValue (.fin false m e) = sqrtNum m e := if_neg hm
  rw [hvalue]
  exact sqrtNum_spec e hm

/-- The reciprocal of a magnitude of 2^-128 or less overflows (08 R162). -/
theorem rcp_overflows (n : Bool) (hm : m ≠ 0) (hsmall : m ≤ 2 ^ 21) :
    toF32 0 false u (rcpValue (.fin n m (-149))) = BitVec.ofNat 32 (infBits (fmtOf 0) n) := by
  obtain ⟨q, r, k, hvalue, hlo, hhi, -, -, hq⟩ := recipNum_spec n (-149) hm
  rw [rcpValue, if_neg hm, hvalue]
  have hk : 89 ≤ k := by
    have hpow : 2 ^ 89 ≤ 2 ^ k := hq.trans ((Nat.le_mul_of_pos_right q (Nat.pos_of_ne_zero hm)).trans hlo)
    exact (Nat.pow_le_pow_iff_right (by decide)).1 hpow
  have hle : 2 ^ (k - 21) ≤ q := by
    refine Nat.lt_succ_iff.1 (Nat.lt_of_mul_lt_mul_right (a := 2 ^ 21) ?_)
    calc 2 ^ (k - 21) * 2 ^ 21 = 2 ^ k := by rw [← Nat.pow_add]; congr 1; omega
      _ < (q + 1) * m := hhi
      _ ≤ (q + 1) * 2 ^ 21 := Nat.mul_le_mul_left _ hsmall
  have hmag : 2 ^ (k - 20) ≤ 2 * q + r := by
    calc 2 ^ (k - 20) = 2 * 2 ^ (k - 21) := by rw [← Nat.pow_succ']; congr 1; omega
      _ ≤ 2 * q + r := by omega
  refine toF32_beyond (by omega) ?_
  calc (2 : ℝ) ^ (128 : Int) = ((2 ^ (k - 20) : Nat) : ℝ) * 2 ^ (-(k : Int) - 1 - -149) := by
        rw [Nat.cast_pow, Nat.cast_ofNat, ← zpow_natCast, ← zpow_add₀ (by norm_num)]
        congr 1
        omega
    _ ≤ ((2 * q + r : Nat) : ℝ) * 2 ^ (-(k : Int) - 1 - -149) := by
        gcongr

/-- The value of a small code, and of the same code with its sign set. -/
theorem f32_small (ha : a.toNat ≤ 2 ^ 21) : f32 a = .fin false a.toNat (-149) ∧ f32 (a ||| 0x80000000) = .fin true a.toNat (-149) := by
  have hpos : f32 a = .fin false a.toNat (-149) := by
    have h := f32_subnormal (N := a.toNat) (by omega)
    rwa [BitVec.ofNat_toNat, BitVec.setWidth_eq] at h
  refine ⟨hpos, ?_⟩
  have hex : exponentOf (a ||| 0x80000000) = exponentOf a := by
    rw [exponentOf, BitVec.extractLsb'_or]
    exact BitVec.or_zero
  have hfr : fractionOf (a ||| 0x80000000) = fractionOf a := by
    rw [fractionOf, BitVec.extractLsb'_or]
    exact BitVec.or_zero
  have hsign : (a ||| 0x80000000).getLsbD 31 = true := by
    rw [BitVec.getLsbD_or]
    exact Bool.or_true _
  rw [f32_eq] at hpos ⊢
  rw [hex, hfr, hsign]
  split at hpos
  · split at hpos <;> cases hpos
  · next htop =>
    split at hpos
    · next hsub =>
      rw [if_neg htop, if_pos hsub]
      injection hpos with _ hm
      rw [hm]
    · injection hpos with _ hm
      omega

/-! ### Special values (08 R161) -/

/-- The nine results of an operand, rounded to the nearest. -/
def functionRow (d a : Word) : List Word :=
  [toF32 0 false d (rcpValue (f32 a)), toF32 0 false d (rsqValue a), toF32 0 false d (sqrtValue (f32 a)),
   toF32 0 false d (exp2Value a), toF32 0 false d (log2Value a), toF32 0 false d (sinValue a), toF32 0 false d (cosValue a),
   toF32 0 false d (tanhValue a), toF32 0 false d (sigmValue a)]

theorem functionRow_draw (d a : Word) : functionRow d a = functionRow 0 a := by
  simp only [functionRow, toF32_draw false d]

theorem functionRow_nan {d : Word} (h : (f32 a).isNan = true) : functionRow d a = List.replicate 9 0x7FC00000 := by
  have hnan := isNan_iff.1 h
  simp only [functionRow, rcpValue, rsqValue, sqrtValue, exp2Value, log2Value, sinValue, cosValue, tanhValue, sigmValue, hnan]
  rfl

/-! ### Exact points (08 R162) -/

theorem rsqValue_even_pow {i : Int} (h : f32 a = .fin false m e) (hm : m ≠ 0) (hpow : (m : ℝ) * 2 ^ e = 2 ^ (2 * i)) :
    rsqValue a = .fin false 1 (-i) := by
  have hj := (pow2?_eq_some (e := e) hm).2 hpow
  have heven : 2 * i % 2 = 0 := by omega
  have hhalf : 2 * i / 2 = i := by omega
  simp [rsqValue, h, hm, hj, heven, hhalf]

theorem exp2Value_int {j : Int} (h : f32 a = .fin n m e) (hx : dyadic n m e = j) (h1 : -149 ≤ j) (h2 : j ≤ 127) :
    exp2Value a = .fin false 1 j := by
  have hv : fixedAt 0 n m e = j := by rw [fixedAt_zero_eq_floor, hx, Int.floor_intCast]
  have hlow : ¬(j < -150 ∨ j = -150 ∧ (some j).isSome = true) := by omega
  simp only [exp2Value, h, hv, if_neg (show ¬128 ≤ j by omega), intOf?_eq_some.2 hx, if_neg hlow]

theorem exp2Value_large (h : f32 a = .fin n m e) (hx : 128 ≤ dyadic n m e) : exp2Value a = .inf false := by
  have hv : 128 ≤ fixedAt 0 n m e := by
    rw [fixedAt_zero_eq_floor, Int.le_floor]
    exact_mod_cast hx
  simp only [exp2Value, h, if_pos hv]

theorem exp2Value_small (h : f32 a = .fin n m e) (hx : dyadic n m e ≤ -150) : exp2Value a = .fin false 0 0 := by
  have hv : fixedAt 0 n m e < -150 ∨ fixedAt 0 n m e = -150 ∧ (intOf? n m e).isSome = true := by
    rw [fixedAt_zero_eq_floor]
    rcases hx.lt_or_eq with hlt | heq
    · exact .inl (Int.floor_lt.2 (by exact_mod_cast hlt))
    · have hj : dyadic n m e = (-150 : Int) := by exact_mod_cast heq
      exact .inr ⟨by rw [hj, Int.floor_intCast], intOf?_isSome.2 ⟨_, hj⟩⟩
  have hbelow : ¬128 ≤ fixedAt 0 n m e := by omega
  simp only [exp2Value, h, if_neg hbelow, if_pos hv]

theorem two_pow_23 : ((2 ^ 23 : Nat) : ℝ) = 2 ^ (23 : Int) := by norm_num

/-- Above 128, at infinity and at 128 itself. -/
theorem exp2Value_above (h : (Num.fin false 128 0).lt (f32 a) = true ∨ a = toF32 0 false 0 (numOfInt 128)) :
    exp2Value a = .inf false := by
  rcases h with h | rfl
  · cases hf : f32 a with
    | nan => simp [hf, Num.lt] at h
    | inf b => cases b <;> simp [hf, Num.lt] at h; simp [exp2Value, hf]
    | fin n m e =>
      rw [hf, lt_fin_iff, dyadic_false, zpow_zero, mul_one] at h
      exact exp2Value_large hf (by exact_mod_cast h.le)
  · decide +kernel

/-- Below -150, at minus infinity and at -150 itself. -/
theorem exp2Value_below (h : (f32 a).lt (.fin true 150 0) = true ∨ a = toF32 0 false 0 (numOfInt (-150))) :
    exp2Value a = .fin false 0 0 := by
  rcases h with h | rfl
  · cases hf : f32 a with
    | nan => simp [hf, Num.lt] at h
    | inf b => cases b <;> simp [hf, Num.lt] at h; simp [exp2Value, hf]
    | fin n m e =>
      rw [hf, lt_fin_iff, dyadic_true, zpow_zero, mul_one] at h
      exact exp2Value_small hf (by exact_mod_cast h.le)
  · decide +kernel

theorem log2Value_pow {j : Int} (h : f32 a = .fin false m e) (hm : m ≠ 0) (hpow : (m : ℝ) * 2 ^ e = 2 ^ j) :
    log2Value a = numOfInt j := by
  have hj := (pow2?_eq_some (e := e) hm).2 hpow
  simp [log2Value, h, hm, hj]

theorem sinValue_int {j : Int} (h : f32 a = .fin n m e) (hj : intOf? n m e = some j) : sinValue a = .fin n 0 0 := by
  simp [sinValue, h, hj]

theorem cosValue_int {j : Int} (h : f32 a = .fin n m e) (hj : intOf? n m e = some j) : cosValue a = parityNum j := by
  simp [cosValue, h, hj]

theorem isHalf_of_dvd (he : e < 0) (hnot : ¬(2 ^ (-e).toNat : Int) ∣ signedMag n m)
    (htwice : (2 ^ (-e).toNat : Int) ∣ 2 * signedMag n m) : isHalf n m e = true := by
  have hsome : (intOf? n m (e + 1)).isSome = true := by
    rcases lt_or_ge (e + 1) 0 with he' | he'
    · have hdvd : (2 ^ (-(e + 1)).toNat : Int) ∣ signedMag n m := by
        refine Int.dvd_of_mul_dvd_mul_left (a := 2) (by decide) ?_
        rwa [← pow_succ', show (-(e + 1)).toNat + 1 = (-e).toNat by omega]
      rw [intOf?_of_dvd he' hdvd]
      rfl
    · rw [intOf?_of_nonneg he']
      rfl
  simp [isHalf, intOf?_of_not_dvd he hnot, hsome]

theorem sinValue_half (h : f32 a = .fin n m e) (hnone : intOf? n m e = none) (hhalf : isHalf n m e = true) :
    sinValue a = parityNum (fixedAt 0 n m e) := by
  simp [sinValue, h, hnone, hhalf]

theorem cosValue_half (h : f32 a = .fin n m e) (hnone : intOf? n m e = none) (hhalf : isHalf n m e = true) :
    cosValue a = .fin false 0 0 := by
  simp [cosValue, h, hnone, hhalf]

theorem toF32_parityNum {d : Word} (i : Int) : toF32 0 false d (parityNum i) = if i % 2 = 0 then 0x3F800000 else 0xBF800000 := by
  rw [toF32_draw]
  rcases Int.emod_two_eq_zero_or_one i with h | h <;> simp only [parityNum, h] <;> decide +kernel

theorem toF32_zero {d : Word} (n : Bool) (e : Int) : toF32 0 false d (.fin n 0 e) = if n then 0x80000000 else 0 := by
  cases n <;> rfl

theorem toF32_one {d : Word} (n : Bool) : toF32 0 false d (.fin n 1 0) = if n then 0xBF800000 else 0x3F800000 := by
  rw [toF32_draw]
  cases n <;> decide +kernel

theorem tanhValue_large (h : f32 a = .fin n m e) (hlarge : (Num.fin false m e).lt (.fin false 10 0) = false) :
    tanhValue a = .fin n 1 0 := by
  simp [tanhValue, h, atLeast, hlarge]

theorem tanhValue_small (h : f32 a = .fin n m e) (hsmall : (Num.fin false m e).lt (.fin false 1 (-12)) = true) :
    tanhValue a = .fin n m e := by
  have hlt : (Num.fin false m e).lt (.fin false 10 0) = true := by
    rw [lt_fin_iff] at hsmall ⊢
    refine hsmall.trans ?_
    simp only [dyadic_false]
    norm_num
  simp [tanhValue, h, atLeast, hlt, hsmall]

theorem ne_zero_of_atLeast {k : Nat} (hk : k ≠ 0) (h : (Num.fin false m e).lt (.fin false k 0) = false) : m ≠ 0 := by
  rintro rfl
  rw [lt_fin_eq_false, dyadic_zero, dyadic_false, zpow_zero, mul_one] at h
  exact hk (by exact_mod_cast le_antisymm h (Nat.cast_nonneg k))

theorem sigmValue_large (h : f32 a = .fin false m e) (hlarge : (Num.fin false m e).lt (.fin false 18 0) = false) :
    sigmValue a = oneNum := by
  simp [sigmValue, h, atLeast, hlarge, ne_zero_of_atLeast (by decide) hlarge]

theorem sigmValue_small (h : f32 a = .fin true m e) (hlarge : (Num.fin false m e).lt (.fin false 104 0) = false) :
    sigmValue a = .fin false 0 0 := by
  simp [sigmValue, h, atLeast, hlarge, ne_zero_of_atLeast (by decide) hlarge]

/-- Exact points of FSIN and FCOS: whole and half numbers of half-turns. -/
theorem sin_cos_points {d : Word} (h : f32 a = .fin n m e) :
    let sin := toF32 0 false d (sinValue a)
    let cos := toF32 0 false d (cosValue a)
    let one_ := fun (i : Int) => if i % 2 = 0 then (0x3F800000 : Word) else 0xBF800000
    (0 ≤ e → sin = (if n then 0x80000000 else 0) ∧ cos = one_ (signedMag n m * 2 ^ e.toNat)) ∧
    (e < 0 → (2 ^ (-e).toNat : Int) ∣ signedMag n m → sin = (if n then 0x80000000 else 0) ∧
      cos = one_ (signedMag n m / 2 ^ (-e).toNat)) ∧
    (e < 0 → ¬(2 ^ (-e).toNat : Int) ∣ signedMag n m → (2 ^ (-e).toNat : Int) ∣ 2 * signedMag n m →
      sin = one_ (signedMag n m / 2 ^ (-e).toNat) ∧ cos = 0) := by
  refine ⟨fun he => ?_, fun he hdvd => ?_, fun he hnot htwice => ?_⟩
  · have hj := intOf?_of_nonneg (n := n) (m := m) he
    rw [sinValue_int h hj, cosValue_int h hj, toF32_zero, toF32_parityNum]
    exact ⟨rfl, rfl⟩
  · have hj := intOf?_of_dvd he hdvd
    rw [sinValue_int h hj, cosValue_int h hj, toF32_zero, toF32_parityNum]
    exact ⟨rfl, rfl⟩
  · have hnone := intOf?_of_not_dvd he hnot
    have hhalf := isHalf_of_dvd he hnot htwice
    have hfloor : fixedAt 0 n m e = signedMag n m / 2 ^ (-e).toNat := by
      have : ¬0 ≤ e + (0 : Nat) := by omega
      simp only [fixedAt, if_neg this]
      simp [signedMag]
    rw [sinValue_half h hnone hhalf, cosValue_half h hnone hhalf, toF32_zero, toF32_parityNum, hfloor]
    exact ⟨rfl, rfl⟩

end Sys2Proof.Machine

open Sys2Proof Sys2Proof.Machine

/-- Settles O15: the nine share one effect; the exact points are values that FP32 holds, and the quotient and the root are followed bit
by bit. -/
theorem functionResults : Obligations.FunctionResults := by
  unfold Obligations.FunctionResults
  refine ⟨fun h f => ⟨?rcp, ?sqrt, ?rsq, ?exp2, ?log2, ?sin, ?cos, ?tanh, ?sigm⟩, fun d a => ?points,
    fun n m e hm => ⟨recipNum_value n e hm, sqrtNum_value e hm⟩⟩
  case rcp => exact completes_finish rfl fun _ => rfl
  case sqrt => exact completes_finish rfl fun _ => rfl
  case rsq => exact completes_finish rfl fun _ => rfl
  case exp2 => exact completes_finish rfl fun _ => rfl
  case log2 => exact completes_finish rfl fun _ => rfl
  case sin => exact completes_finish rfl fun _ => rfl
  case cos => exact completes_finish rfl fun _ => rfl
  case tanh => exact completes_finish rfl fun _ => rfl
  case sigm => exact completes_finish rfl fun _ => rfl
  extract_lets out rcp sqrt rsq exp2 log2 sin cos tanh sigm nan inf minf mzero one mone half row neg word
  have hrow : row = functionRow 0 a := functionRow_draw d a
  refine ⟨functionRow_nan, ?minf, ?mzero, ?zero, ?inf, fun hneg hz hi hn => ?negative, fun hz hsmall => ?overflow,
    fun k h1 h2 hodd hk => ?normal, fun k hk hodd ha => ?subnormal, fun j h1 h2 ha => ?exp2, fun j h1 h2 ha => ?log2,
    fun hbig => ?large, fun hsmall => ?small, fun n m e h => ?finite⟩
  case minf => intro ha; rw [hrow, ha]; decide +kernel
  case mzero => intro ha; rw [hrow, ha]; decide +kernel
  case zero => intro ha; rw [hrow, ha]; decide +kernel
  case inf => intro ha; rw [hrow, ha]; decide +kernel
  case negative =>
    obtain ⟨m, e, h, hm⟩ := f32_negative hneg hz hi hn
    simp only [rsq, sqrt, log2, rsqValue, sqrtValue, log2Value, h, if_neg hm]
    exact ⟨rfl, rfl, rfl⟩
  case overflow =>
    have hm : a.toNat ≠ 0 := fun h => hz (BitVec.eq_of_toNat_eq h)
    obtain ⟨hpos, hnegative⟩ := f32_small hsmall
    simp only [rcp, out, mzero, hpos, hnegative]
    exact ⟨rcp_overflows false hm hsmall, rcp_overflows true hm hsmall⟩
  case normal =>
    have hf : f32 a = .fin false (2 ^ 23) (k - 150) := by rw [hk]; exact f32_normal_pow h1 h2
    have hvalue := rsqValue_even_pow (i := (k - 127) / 2) hf (by decide) (by
      rw [two_pow_23, ← zpow_add₀ (by norm_num : (2 : ℝ) ≠ 0)]
      congr 1
      omega)
    simp only [rsq, out, hvalue, toF32_two_pow (show -126 ≤ -(((k : Int) - 127) / 2) by omega) (show _ ≤ 127 by omega), word]
    congr 2
    omega
  case subnormal =>
    have hf : f32 a = .fin false (2 ^ k) (-149) := by rw [ha]; exact f32_subnormal (Nat.pow_lt_pow_right (by decide) hk)
    have hvalue := rsqValue_even_pow (i := (k - 149) / 2) hf (by positivity) (by
      rw [Nat.cast_pow, Nat.cast_ofNat, ← zpow_natCast, ← zpow_add₀ (by norm_num : (2 : ℝ) ≠ 0)]
      congr 1
      omega)
    simp only [rsq, out, hvalue, toF32_two_pow (show -126 ≤ -(((k : Int) - 149) / 2) by omega) (show _ ≤ 127 by omega), word]
    congr 2
    omega
  case exp2 =>
    obtain ⟨n, m, e, hf, hx⟩ := f32_toF32_int (u := d) (j := j) (by omega)
    have hvalue := exp2Value_int (a := a) (by rw [ha]; exact hf) hx h1 h2
    simp only [exp2, out, hvalue]
  case log2 =>
    obtain ⟨m, e, hf, hm, hx⟩ := f32_toF32_two_pow (u := d) h1 h2
    have hvalue := log2Value_pow (a := a) (by rw [ha]; exact hf) hm hx
    simp only [log2, out, hvalue]
  case large =>
    have hvalue : exp2Value a = .inf false := exp2Value_above (hbig.imp_right fun ha => ha.trans (toF32_draw false d _))
    simp only [exp2, out, hvalue]
    rfl
  case small =>
    have hvalue : exp2Value a = .fin false 0 0 := exp2Value_below (hsmall.imp_right fun ha => ha.trans (toF32_draw false d _))
    simp only [exp2, out, hvalue]
    rfl
  case finite =>
    extract_lets
    obtain ⟨hwhole, hint, hhalf⟩ := sin_cos_points (d := d) h
    refine ⟨hwhole, hint, hhalf, fun hlarge => ?_, fun hsmall => ?_, fun hn hlarge => ?_, fun hn hlarge => ?_⟩
    · simp only [tanh, out, tanhValue_large h hlarge, toF32_one]
      rfl
    · simp only [tanh, out, tanhValue_small h hsmall]
      exact toF32_f32_fin h
    · simp only [sigm, out, sigmValue_large (hn ▸ h) hlarge, oneNum, toF32_one]
      rfl
    · simp only [sigm, out, sigmValue_small (hn ▸ h) hlarge]
      rfl

end

section
/-! SUPPORT. Intervals that hold an exact value, and the value that is chosen within a bound of it (08 R162). -/

namespace Sys2Proof.Machine

variable {n : Bool} {m : Nat} {e lo : Int} {a : Word} {x : Encl} {y : ℝ}

/-! ### Enclosures -/

/-- An interval holds a real number. -/
def Encl.Holds (x : Encl) (y : ℝ) : Prop := (x.lo : ℝ) * 2 ^ x.e ≤ y ∧ y ≤ (x.hi : ℝ) * 2 ^ x.e

/-- The width of an interval. -/
noncomputable def Encl.width (x : Encl) : ℝ := ((x.hi - x.lo : Int) : ℝ) * 2 ^ x.e

/-- The real value of the middle of an interval. -/
noncomputable def Encl.middle (x : Encl) : ℝ := ((x.lo + x.hi : Int) : ℝ) * 2 ^ (x.e - 1)

/-- A value within an interval is no farther from a point than one of the ends. -/
theorem abs_sub_le_ends {lo hi y v : ℝ} (h1 : lo ≤ y) (h2 : y ≤ hi) : |v - y| ≤ max |v - lo| |v - hi| := by
  rcases le_total v y with h | h
  · exact le_max_of_le_right (by rw [abs_sub_comm, abs_sub_comm v, abs_of_nonneg, abs_of_nonneg] <;> linarith)
  · exact le_max_of_le_left (by rw [abs_of_nonneg, abs_of_nonneg] <;> linarith)

theorem Encl.Holds.abs_sub_middle (h : x.Holds y) : |x.middle - y| ≤ x.width / 2 := by
  obtain ⟨h1, h2⟩ := h
  rw [Encl.middle, Encl.width, zpow_sub_one₀ (by norm_num : (2 : ℝ) ≠ 0)]
  push_cast
  rw [abs_le]
  constructor <;> linarith

theorem farFrom_eq {c ce z ze : Int} (h1 : lo ≤ ce) (h2 : lo ≤ ze) :
    (farFrom c ce z ze lo : ℝ) * 2 ^ lo = |(c : ℝ) * 2 ^ ce - z * 2 ^ ze| := by
  have hpos : (0 : ℝ) < 2 ^ lo := by positivity
  have hvalue : (c : ℝ) * 2 ^ ce - z * 2 ^ ze = ((c * 2 ^ (ce - lo).toNat - z * 2 ^ (ze - lo).toNat : Int) : ℝ) * 2 ^ lo := by
    rw [two_zpow_split h1, two_zpow_split h2]
    push_cast
    ring
  rw [hvalue, abs_mul, abs_of_pos hpos, farFrom, Nat.cast_natAbs, Int.cast_abs]

/-- What the test of a candidate says: it is finite, and lies within the bound of every value of the interval. -/
theorem within_spec {c : Num} {bn : Nat} {be : Int} {strict : Bool} (h : within c x bn be strict = true) (hy : x.Holds y) :
    ∃ n m e, c = .fin n m e ∧
      (if strict then |dyadic n m e - y| < bn * 2 ^ be else |dyadic n m e - y| ≤ bn * 2 ^ be) := by
  match c, h with
  | .fin n m ce, h =>
    refine ⟨n, m, ce, rfl, ?_⟩
    obtain ⟨lo, hlo⟩ : ∃ lo, lo = min ce (min x.e be) := ⟨_, rfl⟩
    have hpos : (0 : ℝ) < 2 ^ lo := by positivity
    have hfar := fun z : Int => farFrom_eq (c := signedMag n m) (z := z) (show lo ≤ ce by omega) (show lo ≤ x.e by omega)
    have hbound : (bn : ℝ) * 2 ^ be = (alignTo bn be lo : ℝ) * 2 ^ lo := by
      rw [two_zpow_split (show lo ≤ be by omega), alignTo]
      push_cast
      ring
    have hends := abs_sub_le_ends (v := dyadic n m ce) hy.1 hy.2
    rw [dyadic_eq_signedMag] at hends ⊢
    rw [← hfar, ← hfar, ← max_mul_of_nonneg _ _ hpos.le] at hends
    have hmax : (max (farFrom (signedMag n m) ce x.lo x.e lo : ℝ) (farFrom (signedMag n m) ce x.hi x.e lo)) =
        ((max (farFrom (signedMag n m) ce x.lo x.e lo) (farFrom (signedMag n m) ce x.hi x.e lo) : Nat) : ℝ) := by
      push_cast
      rfl
    rw [hmax] at hends
    rw [hbound]
    simp only [within, ← hlo] at h
    change (if strict then decide (max (farFrom (signedMag n m) ce x.lo x.e lo) (farFrom (signedMag n m) ce x.hi x.e lo) < _)
      else decide (max (farFrom (signedMag n m) ce x.lo x.e lo) (farFrom (signedMag n m) ce x.hi x.e lo) ≤ _)) = true at h
    cases strict
    · refine hends.trans (mul_le_mul_of_nonneg_right ?_ hpos.le)
      exact_mod_cast of_decide_eq_true h
    · refine hends.trans_lt (mul_lt_mul_of_pos_right ?_ hpos)
      exact_mod_cast of_decide_eq_true h

/-! ### The nearest value to the middle -/

/-- The middle of an interval as a finite number. -/
theorem mid_eq (x : Encl) : x.mid = .fin (decide (x.lo + x.hi < 0)) (x.lo + x.hi).natAbs (x.e - 1) := rfl

theorem dyadic_of_int (j : Int) (e : Int) : dyadic (decide (j < 0)) j.natAbs e = (j : ℝ) * 2 ^ e := by
  rw [dyadic_eq_signedMag]
  congr 2
  unfold signedMag
  split <;> rename_i h <;> simp at h <;> omega

theorem dyadic_mid (x : Encl) : dyadic (decide (x.lo + x.hi < 0)) (x.lo + x.hi).natAbs (x.e - 1) = x.middle := by
  rw [dyadic_of_int, Encl.middle]

/-- The spacing of the FP32 values about a real number: 2^-149 below the normal range. -/
noncomputable def ulpOf (y : ℝ) : Int := max (Int.log 2 |y|) (-126) - 23

theorem spacingOf_eq (hm : m ≠ 0) : spacingOf m e = ulpOf (dyadic n m e) := by
  rw [spacingOf, ulpOf, log_dyadic hm]

theorem lt_two_zpow_log (y : ℝ) : y < 2 ^ (Int.log 2 y + 1) := by
  exact_mod_cast Int.lt_zpow_succ_log_self (b := 2) (by norm_num) y

theorem two_zpow_log_le {y : ℝ} (hy : 0 < y) : (2 : ℝ) ^ Int.log 2 y ≤ y := by
  exact_mod_cast Int.zpow_log_le_self (b := 2) (by norm_num) hy

theorem log_lt_of_lt {y : ℝ} {k : Int} (hy : 0 < y) (h : y < 2 ^ k) : Int.log 2 y < k :=
  (Int.lt_zpow_iff_log_lt (b := 2) (by norm_num) hy).1 (by exact_mod_cast h)

theorem ulpOf_mono {y z : ℝ} (hy : y ≠ 0) (h : |y| ≤ |z|) : ulpOf y ≤ ulpOf z := by
  have := Int.log_mono_right (b := 2) (abs_pos.2 hy) h
  unfold ulpOf
  omega

/-- The FP32 value nearest to the middle of an interval is no farther from it than any multiple of the middle's spacing. -/
theorem f32_middle (hmax : |x.middle| ≤ largest32) : ∃ n m e, f32 (toF32 0 false 0 x.mid) = .fin n m e ∧
    ∀ k : Int, |dyadic n m e - x.middle| ≤ |(k : ℝ) * 2 ^ ulpOf x.middle - (|x.middle|)| := by
  rw [mid_eq]
  by_cases hm : (x.lo + x.hi).natAbs = 0
  · have hzero : x.middle = 0 := by rw [← dyadic_mid, hm, dyadic_zero]
    have hsign : decide (x.lo + x.hi < 0) = false := by
      rw [Int.natAbs_eq_zero.1 hm]
      decide
    rw [hm, hsign, hzero]
    exact ⟨false, 0, -149, by rw [toF32_zero]; decide +kernel, fun k => by rw [dyadic_zero, sub_zero, abs_zero]; positivity⟩
  · rw [← dyadic_mid, abs_dyadic] at hmax ⊢
    obtain ⟨n', m', e', hx, hnear⟩ := f32_toF32_nearest (n := decide (x.lo + x.hi < 0)) 0 hm hmax
    refine ⟨n', m', e', hx, fun k => ?_⟩
    rw [← spacingOf_eq hm]
    exact hnear k

/-- Of the multiples of a spacing one is within half of it. -/
theorem exists_near_multiple (z : ℝ) (q : Int) : ∃ k : Int, |(k : ℝ) * 2 ^ q - z| ≤ 2 ^ (q - 1) := by
  have hpos : (0 : ℝ) < 2 ^ q := by positivity
  refine ⟨round (z / 2 ^ q), ?_⟩
  have h := abs_sub_round (z / 2 ^ q)
  rw [zpow_sub_one₀ (by norm_num)]
  calc |(round (z / 2 ^ q) : ℝ) * 2 ^ q - z| = |z / 2 ^ q - round (z / 2 ^ q)| * 2 ^ q := by
        rw [← abs_of_pos hpos, ← abs_mul, abs_of_pos hpos, abs_sub_comm]
        congr 1
        field_simp
    _ ≤ 1 / 2 * 2 ^ q := by gcongr
    _ = 2 ^ q * 2⁻¹ := by ring

/-- The nearest value to the middle is within half the spacing of the middle. -/
theorem f32_middle_half (hmax : |x.middle| ≤ largest32) : ∃ n m e, f32 (toF32 0 false 0 x.mid) = .fin n m e ∧
    |dyadic n m e - x.middle| ≤ 2 ^ (ulpOf x.middle - 1) := by
  obtain ⟨n, m, e, hx, hnear⟩ := f32_middle hmax
  obtain ⟨k, hk⟩ := exists_near_multiple |x.middle| (ulpOf x.middle)
  exact ⟨n, m, e, hx, (hnear k).trans hk⟩

/-! ### The value that is chosen -/

/-- A value lies about a real number: within a bound, strictly when asked (08 R162). -/
def Near (v : Num) (y : ℝ) (strict : Bool) (b : ℝ) : Prop :=
  ∃ (n' : Bool) (m' : Nat) (e' : Int), v = .fin n' m' e' ∧
    (let z : ℝ := (if n' then -1 else 1) * (m' : ℝ) * (2 : ℝ) ^ e'
     if strict then |z - y| < b else |z - y| ≤ b)

theorem Near.mono {v : Num} {strict : Bool} {b b' : ℝ} (h : Near v y strict b) (hb : b ≤ b') : Near v y strict b' := by
  obtain ⟨n, m, e, hv, hz⟩ := h
  refine ⟨n, m, e, hv, ?_⟩
  cases strict
  · exact le_trans hz hb
  · exact lt_of_lt_of_le hz hb

/-- An exact value lies within every bound. -/
theorem near_of_eq {strict : Bool} {b : ℝ} (h : dyadic n m e = y) (hb : 0 < b) : Near (.fin n m e) y strict b := by
  refine ⟨n, m, e, rfl, ?_⟩
  have hzero : |dyadic n m e - y| = 0 := by rw [h, sub_self, abs_zero]
  cases strict
  · exact hzero.trans_le hb.le
  · exact hzero.trans_lt hb

/-- The chosen value lies within its bound where the value nearest to the middle does. -/
theorem near_chosen {fn bn : Nat} {be : Int} {strict : Bool} (hy : x.Holds y)
    (hmid : ∃ n m e, f32 (toF32 0 false 0 x.mid) = .fin n m e ∧ |dyadic n m e - y| < bn * 2 ^ be) :
    Near (chosen fn a x bn be strict) y strict (bn * 2 ^ be) := by
  show Near (if within (f32 (Config.approx fn a)) x bn be strict then _ else _) y strict _
  by_cases h : within (f32 (Config.approx fn a)) x bn be strict = true
  · obtain ⟨n, m, e, hc, hz⟩ := within_spec h hy
    rw [if_pos h]
    exact ⟨n, m, e, hc, hz⟩
  · obtain ⟨n, m, e, hc, hz⟩ := hmid
    rw [if_neg h]
    refine ⟨n, m, e, hc, ?_⟩
    cases strict
    · exact hz.le
    · exact hz

/-- An interval of small width about a value of at most 1 gives 08 R162's fixed bound. -/
theorem near_chosen_fixed {fn : Nat} {strict : Bool} (hy : x.Holds y) (hsize : |y| ≤ 1) (hwidth : x.width ≤ 2 ^ (-24 : Int)) :
    Near (chosen fn a x 1 (-22) strict) y strict (1 / 2 ^ 22) := by
  have hbound : ((1 : Nat) : ℝ) * 2 ^ (-22 : Int) = 1 / 2 ^ 22 := by norm_num
  have hmiddle := hy.abs_sub_middle
  have habs : |x.middle| < 2 ^ (1 : Int) := by
    have := abs_sub_abs_le_abs_sub x.middle y
    have : (2 : ℝ) ^ (-24 : Int) ≤ 1 := by norm_num
    rw [zpow_one]
    linarith
  rw [← hbound]
  refine near_chosen hy ?_
  obtain ⟨n, m, e, hx, hnear⟩ := f32_middle_half (x := x) (habs.le.trans (le_trans (by norm_num) le_largest32))
  refine ⟨n, m, e, hx, ?_⟩
  have hulp : ulpOf x.middle ≤ -23 := by
    by_cases hzero : x.middle = 0
    · simp [ulpOf, hzero]
    · have := log_lt_of_lt (abs_pos.2 hzero) habs
      unfold ulpOf
      omega
  have hhalf : (2 : ℝ) ^ (ulpOf x.middle - 1) ≤ 2 ^ (-24 : Int) := zpow_le_zpow_right₀ (by norm_num) (by omega)
  have htri := abs_sub_le (dyadic n m e) x.middle y
  have hsum : (2 : ℝ) ^ (-24 : Int) + 2 ^ (-24 : Int) < ((1 : Nat) : ℝ) * 2 ^ (-22 : Int) := by norm_num
  have hpos : (0 : ℝ) < 2 ^ (-24 : Int) := by positivity
  linarith

/-! ### Intervals that do not hold zero -/

/-- The end of an interval that is nearer to zero, as a magnitude. -/
def Encl.least (x : Encl) : Nat := min x.lo.natAbs x.hi.natAbs

/-- An interval lies on one side of zero, and is narrow. -/
structure Encl.Narrow (x : Encl) : Prop where
  side : 0 < x.lo ∨ x.hi < 0
  width : (x.hi - x.lo) * 2 ^ 25 ≤ x.least

theorem Encl.Narrow.least_ne_zero (h : x.Narrow) (hle : x.lo ≤ x.hi) : x.least ≠ 0 := by
  have := h.side
  unfold Encl.least
  omega

theorem Encl.Holds.le (h : x.Holds y) : x.lo ≤ x.hi := by
  have hpos : (0 : ℝ) < 2 ^ x.e := by positivity
  exact_mod_cast le_of_mul_le_mul_right (h.1.trans h.2) hpos

/-- Every value of the interval has at least the magnitude of that end. -/
theorem least_le_abs (hx : x.Narrow) (hy : x.Holds y) : (x.least : ℝ) * 2 ^ x.e ≤ |y| := by
  have hpos : (0 : ℝ) < 2 ^ x.e := by positivity
  have hle := hy.le
  obtain ⟨h1, h2⟩ := hy
  rcases hx.side with h | h
  · have hleast : (x.least : ℝ) = x.lo := by
      have : (x.least : Int) = x.lo := by unfold Encl.least; omega
      exact_mod_cast this
    rw [hleast]
    exact h1.trans (le_abs_self y)
  · have hleast : (x.least : ℝ) = -x.hi := by
      have : (x.least : Int) = -x.hi := by unfold Encl.least; omega
      exact_mod_cast this
    rw [hleast]
    have := neg_le_abs y
    linarith

/-- The middle lies half the width beyond that end. -/
theorem abs_middle (hx : x.Narrow) (hle : x.lo ≤ x.hi) : |x.middle| = (x.least : ℝ) * 2 ^ x.e + x.width / 2 := by
  have hpos : (0 : ℝ) < 2 ^ x.e := by positivity
  have hhalf : |x.middle| = (|x.lo + x.hi| : Int) * 2 ^ x.e / 2 := by
    rw [Encl.middle, abs_mul, abs_of_pos (by positivity : (0 : ℝ) < 2 ^ (x.e - 1)), zpow_sub_one₀ (by norm_num), Int.cast_abs]
    ring
  have hsum : |x.lo + x.hi| = 2 * x.least + (x.hi - x.lo) := by
    have := hx.side
    rw [Int.abs_eq_natAbs]
    unfold Encl.least
    omega
  rw [hhalf, hsum, Encl.width]
  push_cast
  ring

/-- The unit that the choice counts in is the spacing at that end. -/
theorem ulpExp_eq (h : x.least ≠ 0) : ulpExp x = ulpOf ((x.least : ℝ) * 2 ^ x.e) := by
  rw [← dyadic_false, ← spacingOf_eq h]
  rfl

/-- The nearest value to the middle is within half the spacing at the end nearer to zero, or within half the width. -/
theorem f32_middle_ulp (hx : x.Narrow) (hle : x.lo ≤ x.hi) (hmax : |x.middle| ≤ largest32) :
    ∃ n m e, f32 (toF32 0 false 0 x.mid) = .fin n m e ∧
      |dyadic n m e - x.middle| ≤ max (2 ^ (ulpExp x - 1)) (x.width / 2) := by
  have hpos : (0 : ℝ) < (x.least : ℝ) * 2 ^ x.e := by
    have := Nat.pos_of_ne_zero (hx.least_ne_zero hle)
    positivity
  have hmiddle := abs_middle hx hle
  rw [ulpExp_eq (hx.least_ne_zero hle)]
  by_cases hulp : ulpOf x.middle ≤ ulpOf ((x.least : ℝ) * 2 ^ x.e)
  · obtain ⟨n, m, e, hf, hhalf⟩ := f32_middle_half hmax
    exact ⟨n, m, e, hf, le_max_of_le_left (hhalf.trans (zpow_le_zpow_right₀ (by norm_num) (by omega)))⟩
  · obtain ⟨n, m, e, hf, hnear⟩ := f32_middle hmax
    refine ⟨n, m, e, hf, le_max_of_le_right ((hnear (2 ^ 23)).trans ?_)⟩
    have hwidth : 0 ≤ x.width := by
      have : (0 : Int) ≤ x.hi - x.lo := by omega
      unfold Encl.width
      positivity
    have hlog : ulpOf x.middle = Int.log 2 |x.middle| - 23 ∧ Int.log 2 ((x.least : ℝ) * 2 ^ x.e) < Int.log 2 |x.middle| := by
      unfold ulpOf at hulp ⊢
      rw [abs_of_pos hpos] at hulp
      omega
    have hpow : ((2 ^ 23 : Int) : ℝ) * 2 ^ ulpOf x.middle = 2 ^ Int.log 2 |x.middle| := by
      rw [hlog.1, zpow_sub₀ (by norm_num : (2 : ℝ) ≠ 0)]
      push_cast
      field_simp
      norm_num
    have hbelow : (x.least : ℝ) * 2 ^ x.e < 2 ^ Int.log 2 |x.middle| :=
      (lt_two_zpow_log _).trans_le (zpow_le_zpow_right₀ (by norm_num) (by omega))
    have habove : (2 : ℝ) ^ Int.log 2 |x.middle| ≤ |x.middle| :=
      two_zpow_log_le (by rw [hmiddle]; positivity)
    rw [hpow, abs_le]
    constructor <;> linarith

/-- A narrow interval gives a bound in units of the spacing at the exact value. -/
theorem near_chosen_ulp {fn bn : Nat} {strict : Bool} (hx : x.Narrow) (hy : x.Holds y) (hmax : |x.middle| ≤ largest32)
    (hbn : 1 ≤ bn) : Near (chosen fn a x bn (ulpExp x) strict) y strict (bn * 2 ^ ulpOf y) := by
  have hne := hx.least_ne_zero hy.le
  have hpos : (0 : ℝ) < (x.least : ℝ) * 2 ^ x.e := by
    have := Nat.pos_of_ne_zero hne
    positivity
  have hunit : (0 : ℝ) < 2 ^ x.e := by positivity
  have hbn' : (1 : ℝ) ≤ bn := by exact_mod_cast hbn
  have hulp := ulpExp_eq hne
  have hwidth : x.width < 2 ^ (ulpExp x - 1) := by
    have hscaled : x.width * 2 ^ (25 : Int) ≤ (x.least : ℝ) * 2 ^ x.e := by
      have h : ((x.hi - x.lo : Int) : ℝ) * 2 ^ 25 ≤ x.least := by exact_mod_cast hx.width
      calc x.width * 2 ^ (25 : Int) = ((x.hi - x.lo : Int) : ℝ) * 2 ^ 25 * 2 ^ x.e := by
            rw [Encl.width]
            norm_num
            ring
        _ ≤ (x.least : ℝ) * 2 ^ x.e := by gcongr
    have hlog : (x.least : ℝ) * 2 ^ x.e < 2 ^ (ulpExp x - 1 + 25) :=
      (lt_two_zpow_log _).trans_le (zpow_le_zpow_right₀ (by norm_num) (by rw [hulp, ulpOf, abs_of_pos hpos]; omega))
    rw [zpow_add₀ (by norm_num)] at hlog
    exact lt_of_mul_lt_mul_right (hscaled.trans_lt hlog) (by positivity)
  refine (near_chosen hy ?_).mono ?_
  · obtain ⟨n, m, e, hf, hnear⟩ := f32_middle_ulp hx hy.le hmax
    refine ⟨n, m, e, hf, ?_⟩
    have hhalf : (0 : ℝ) < 2 ^ (ulpExp x - 1) := by positivity
    have hwhole : (2 : ℝ) ^ ulpExp x = 2 * 2 ^ (ulpExp x - 1) := by
      rw [zpow_sub_one₀ (by norm_num)]
      ring
    have hmul : (2 : ℝ) ^ ulpExp x ≤ bn * 2 ^ ulpExp x := le_mul_of_one_le_left (by positivity) hbn'
    have hmaxle : max (2 ^ (ulpExp x - 1)) (x.width / 2) ≤ (2 : ℝ) ^ (ulpExp x - 1) := max_le le_rfl (by linarith)
    have htri := abs_sub_le (dyadic n m e) x.middle y
    have hmiddle := hy.abs_sub_middle
    linarith
  · have hmono : ulpExp x ≤ ulpOf y := by
      rw [hulp]
      exact ulpOf_mono hpos.ne' (by rw [abs_of_pos hpos]; exact least_le_abs hx hy)
    have := zpow_le_zpow_right₀ (by norm_num : (1 : ℝ) ≤ 2) hmono
    gcongr

end Sys2Proof.Machine
end

section
/-! SUPPORT. The enclosures of the reciprocal root, the logarithm and the power of two (08 R162). -/

namespace Sys2Proof.Machine

variable {n : Bool} {m : Nat} {e lo : Int} {a : Word} {x : Encl} {y : ℝ}

theorem width_mul_le (hx : x.Narrow) (hy : x.Holds y) : x.width * 2 ^ 25 ≤ |y| := by
  have hpos : (0 : ℝ) < 2 ^ x.e := by positivity
  have h : ((x.hi - x.lo : Int) : ℝ) * 2 ^ 25 ≤ x.least := by exact_mod_cast hx.width
  calc x.width * 2 ^ 25 = ((x.hi - x.lo : Int) : ℝ) * 2 ^ 25 * 2 ^ x.e := by rw [Encl.width]; ring
    _ ≤ (x.least : ℝ) * 2 ^ x.e := by gcongr
    _ ≤ |y| := least_le_abs hx hy

/-- The middle of a narrow interval is hardly greater than the value. -/
theorem abs_middle_le (hx : x.Narrow) (hy : x.Holds y) : |x.middle| ≤ |y| * (1 + 1 / 2 ^ 26) := by
  have hwidth := width_mul_le hx hy
  have hmiddle := hy.abs_sub_middle
  have := abs_sub_abs_le_abs_sub x.middle y
  rw [mul_add, mul_one]
  linarith

/-- A narrow interval about a value below 2^127. -/
theorem near_chosen_ulp_of_le {fn bn : Nat} {strict : Bool} (hx : x.Narrow) (hy : x.Holds y) (hmax : |y| ≤ 2 ^ (126 : Int))
    (hbn : 1 ≤ bn) : Near (chosen fn a x bn (ulpExp x) strict) y strict (bn * 2 ^ ulpOf y) := by
  refine near_chosen_ulp hx hy ?_ hbn
  calc |x.middle| ≤ |y| * (1 + 1 / 2 ^ 26) := abs_middle_le hx hy
    _ ≤ 2 ^ (126 : Int) * (1 + 1 / 2 ^ 26) := by gcongr
    _ ≤ largest32 := by norm_num [largest32]

/-! ### The reciprocal root -/

/-- A value with an even power of two. -/
theorem even_power (m : Nat) (e : Int) : ∃ (m1 : Nat) (i : Int), (if e % 2 = 0 then (m, e) else (2 * m, e - 1)) = (m1, 2 * i) ∧
    (m : ℝ) * 2 ^ e = m1 * 2 ^ (2 * i) ∧ (m ≠ 0 → m1 ≠ 0) := by
  by_cases h : e % 2 = 0
  · refine ⟨m, e / 2, ?_, ?_, id⟩
    · rw [if_pos h, show 2 * (e / 2) = e by omega]
    · rw [show 2 * (e / 2) = e by omega]
  · refine ⟨2 * m, (e - 1) / 2, ?_, ?_, fun hm => by omega⟩
    · rw [if_neg h, show 2 * ((e - 1) / 2) = e - 1 by omega]
    · rw [show 2 * ((e - 1) / 2) = e - 1 by omega, zpow_sub_one₀ (by norm_num)]
      push_cast
      ring

/-- The bits of a reciprocal root. -/
theorem isqrt_quotient (hm : m ≠ 0) (k : Nat) : (isqrt (2 ^ (2 * k) / m) : ℝ) ≤ 2 ^ k / √m ∧
    2 ^ k / √m ≤ (isqrt (2 ^ (2 * k) / m) + 1 : ℝ) := by
  obtain ⟨hlo, hhi⟩ := isqrt_spec (2 ^ (2 * k) / m)
  have hpos : (0 : ℝ) < m := by exact_mod_cast Nat.pos_of_ne_zero hm
  have hroot : (2 : ℝ) ^ k / √m = √((2 ^ (2 * k) : ℝ) / m) := by
    rw [Real.sqrt_div (by positivity), pow_mul', Real.sqrt_sq (by positivity)]
  rw [hroot]
  constructor
  · refine Real.le_sqrt_of_sq_le ?_
    rw [le_div_iff₀ hpos, sq]
    have := (Nat.mul_le_mul_right m hlo).trans (Nat.div_mul_le_self (2 ^ (2 * k)) m)
    exact_mod_cast this
  · refine Real.sqrt_le_iff.2 ⟨by positivity, ?_⟩
    rw [div_le_iff₀ hpos, sq]
    have h : 2 ^ (2 * k) ≤ (isqrt (2 ^ (2 * k) / m) + 1) * (isqrt (2 ^ (2 * k) / m) + 1) * m :=
      calc 2 ^ (2 * k) ≤ m * (2 ^ (2 * k) / m + 1) := (Nat.lt_mul_div_succ _ (Nat.pos_of_ne_zero hm)).le
        _ = (2 ^ (2 * k) / m + 1) * m := Nat.mul_comm ..
        _ ≤ _ := Nat.mul_le_mul_right m hhi
    exact_mod_cast h

theorem rsqEncl_holds (hm : m ≠ 0) : (rsqEncl m e).Holds (1 / √((m : ℝ) * 2 ^ e)) ∧ (rsqEncl m e).Narrow := by
  obtain ⟨m1, i, hpair, hvalue, hm1⟩ := even_power m e
  obtain ⟨k, hk⟩ : ∃ k, k = 60 + Nat.log2 m1 := ⟨_, rfl⟩
  obtain ⟨v, hv⟩ : ∃ v, v = isqrt (2 ^ (2 * k) / m1) := ⟨_, rfl⟩
  have hencl : rsqEncl m e = { lo := v, hi := v + 1, e := -(k : Int) - i } := by
    simp only [rsqEncl, hpair, ← hk, ← hv, show 2 * i / 2 = i by omega]
  obtain ⟨hlo, hhi⟩ := isqrt_quotient (hm1 hm) k
  rw [← hv] at hlo hhi
  have hscale : (0 : ℝ) < 2 ^ (-(k : Int) - i) := by positivity
  have hexact : 1 / √((m : ℝ) * 2 ^ e) = 2 ^ k / √m1 * 2 ^ (-(k : Int) - i) := by
    have hroot : √((2 : ℝ) ^ (2 * i)) = 2 ^ i := by
      rw [mul_comm, zpow_mul, zpow_ofNat, Real.sqrt_sq (by positivity)]
    rw [hvalue, Real.sqrt_mul (by positivity), hroot, zpow_sub₀ (by norm_num), zpow_neg, zpow_natCast]
    field_simp
  rw [hencl, hexact]
  refine ⟨⟨?_, ?_⟩, ⟨.inl ?_, ?_⟩⟩
  · exact mul_le_mul_of_nonneg_right (by exact_mod_cast hlo) hscale.le
  · exact mul_le_mul_of_nonneg_right (by exact_mod_cast hhi) hscale.le
  all_goals
    have hlarge : 2 ^ 50 ≤ v := by
      by_contra hsmall
      have hsq : (v + 1) * (v + 1) ≤ 2 ^ 50 * 2 ^ 50 := Nat.mul_le_mul (by omega) (by omega)
      have hbig : 2 ^ 100 ≤ 2 ^ (2 * k) / m1 := by
        rw [Nat.le_div_iff_mul_le (Nat.pos_of_ne_zero (hm1 hm))]
        calc 2 ^ 100 * m1 ≤ 2 ^ 100 * 2 ^ (Nat.log2 m1 + 1) := Nat.mul_le_mul_left _ Nat.lt_log2_self.le
          _ = 2 ^ (100 + (Nat.log2 m1 + 1)) := (pow_add ..).symm
          _ ≤ 2 ^ (2 * k) := Nat.pow_le_pow_right (by decide) (by omega)
      have := (isqrt_spec (2 ^ (2 * k) / m1)).2
      rw [← hv] at this
      omega
    simp only [Encl.least]
    omega

/-! ### The logarithm -/

/-- What a value of 80 fraction bits loses of its logarithm when it is rounded down. -/
theorem logb_floor {z : ℝ} {k : Nat} (hk : 2 ^ 80 ≤ k) (h1 : (k : ℝ) ≤ z) (h2 : z ≤ k + 1) :
    Real.logb 2 (k / 2 ^ 80) ≤ Real.logb 2 (z / 2 ^ 80) ∧
      Real.logb 2 (z / 2 ^ 80) ≤ Real.logb 2 (k / 2 ^ 80) + 1 / 2 ^ 79 := by
  have hkr : (2 : ℝ) ^ 80 ≤ k := by exact_mod_cast hk
  have hkpos : (0 : ℝ) < k := lt_of_lt_of_le (by positivity) hkr
  have hzpos : 0 < z := hkpos.trans_le h1
  refine ⟨Real.logb_le_logb_of_le (by norm_num) (by positivity) (by gcongr), ?_⟩
  have hratio : z / 2 ^ 80 ≤ k / 2 ^ 80 * (1 + 1 / 2 ^ 80) := by
    rw [div_mul_eq_mul_div]
    gcongr
    have : (1 : ℝ) ≤ k * (1 / 2 ^ 80) := by rw [mul_one_div, one_le_div (by positivity)]; exact hkr
    linarith
  have hsmall : Real.logb 2 (1 + 1 / 2 ^ 80) ≤ 1 / 2 ^ 79 := by
    have hlog := Real.log_le_sub_one_of_pos (show (0 : ℝ) < 1 + 1 / 2 ^ 80 by positivity)
    have hln2 := Real.log_two_gt_d9
    rw [Real.logb, div_le_iff₀ (by linarith)]
    calc Real.log (1 + 1 / 2 ^ 80) ≤ 1 / 2 ^ 79 * (1 / 2) := by linarith
      _ ≤ 1 / 2 ^ 79 * Real.log 2 := by gcongr; linarith
  calc Real.logb 2 (z / 2 ^ 80) ≤ Real.logb 2 (k / 2 ^ 80 * (1 + 1 / 2 ^ 80)) :=
        Real.logb_le_logb_of_le (by norm_num) (by positivity) hratio
    _ = Real.logb 2 (k / 2 ^ 80) + Real.logb 2 (1 + 1 / 2 ^ 80) := Real.logb_mul (by positivity) (by positivity)
    _ ≤ _ := by linarith

/-- The square of a value of 80 fraction bits has twice its logarithm. -/
theorem logb_square {k : Nat} (hk : 0 < k) : Real.logb 2 (((k : ℝ) * k / 2 ^ 80) / 2 ^ 80) = 2 * Real.logb 2 (k / 2 ^ 80) := by
  have hpos : (0 : ℝ) < k := by exact_mod_cast hk
  rw [show ((k : ℝ) * k / 2 ^ 80) / 2 ^ 80 = (k / 2 ^ 80) ^ 2 by ring, Real.logb_pow]
  norm_num

/-- Half of a value has a logarithm less by one. -/
theorem logb_half {z : ℝ} (hz : 0 < z) : Real.logb 2 ((z / 2) / 2 ^ 80) = Real.logb 2 (z / 2 ^ 80) - 1 := by
  rw [show (z / 2) / 2 ^ 80 = (z / 2 ^ 80) / 2 by ring, Real.logb_div (by positivity) (by norm_num),
    Real.logb_self_eq_one (by norm_num)]

/-- The bounds of a later bit, seen one bit earlier. -/
theorem doubled_bounds {i : Nat} {g T d : ℝ} (hl : g ≤ 2 ^ i * (2 * T))
    (hh : 2 ^ i * (2 * T) ≤ g + 1 + 2 ^ i * (2 * d + 1 / 2 ^ 79 + 1 / 2 ^ 78)) :
    g ≤ 2 ^ (i + 1) * T ∧ 2 ^ (i + 1) * T ≤ g + 1 + 2 ^ (i + 1) * (d + 1 / 2 ^ 78) := by
  have hloss : (0 : ℝ) < 2 ^ i * (1 / 2 ^ 79) := by positivity
  rw [pow_succ (2 : ℝ) i]
  constructor <;> linarith

/-- The fraction bits of a logarithm: what is left of it after each bit, but for what the squares have lost. -/
theorem log2Go_spec (i : Nat) : ∀ (k acc : Nat) (T d : ℝ), 2 ^ 80 ≤ k → k < 2 ^ 81 →
    acc + Real.logb 2 (k / 2 ^ 80) ≤ T → T ≤ acc + Real.logb 2 (k / 2 ^ 80) + d →
    (log2Go i k acc : ℝ) ≤ 2 ^ i * T ∧ 2 ^ i * T ≤ log2Go i k acc + 1 + 2 ^ i * (d + 1 / 2 ^ 78) := by
  induction i with
  | zero =>
    intro k acc T d hlo hhi h1 h2
    have hkr : (2 : ℝ) ^ 80 ≤ k := by exact_mod_cast hlo
    have hkr' : (k : ℝ) < 2 ^ 81 := by exact_mod_cast hhi
    have hnonneg : 0 ≤ Real.logb 2 ((k : ℝ) / 2 ^ 80) :=
      Real.logb_nonneg (by norm_num) (by rw [one_le_div (by positivity)]; exact hkr)
    have hone : Real.logb 2 ((k : ℝ) / 2 ^ 80) ≤ 1 := by
      rw [Real.logb_le_iff_le_rpow (by norm_num) (div_pos (lt_of_lt_of_le (by positivity) hkr) (by positivity)), Real.rpow_one,
        div_le_iff₀ (by positivity)]
      linarith
    simp only [log2Go, pow_zero, one_mul]
    constructor <;> linarith [show (0 : ℝ) < 1 / 2 ^ 78 by positivity]
  | succ i ih =>
    intro k acc T d hlo hhi h1 h2
    have htwice := logb_square (show 0 < k by omega)
    have hge : 2 ^ 80 ≤ k * k / 2 ^ 80 := by
      rw [Nat.le_div_iff_mul_le (by positivity)]
      exact Nat.mul_le_mul hlo hlo
    have hlt : k * k / 2 ^ 80 < 2 ^ 82 := by
      rw [Nat.div_lt_iff_lt_mul (by positivity)]
      calc k * k < 2 ^ 81 * 2 ^ 81 := Nat.mul_lt_mul'' hhi hhi
        _ = 2 ^ 82 * 2 ^ 80 := by norm_num
    have hfloor : ((k * k / 2 ^ 80 : Nat) : ℝ) ≤ (k : ℝ) * k / 2 ^ 80 := by
      rw [le_div_iff₀ (by positivity)]
      exact_mod_cast Nat.div_mul_le_self (k * k) (2 ^ 80)
    have hceil : (k : ℝ) * k / 2 ^ 80 ≤ (k * k / 2 ^ 80 : Nat) + 1 := by
      rw [div_le_iff₀ (by positivity)]
      rw [mul_comm _ ((2 : ℝ) ^ 80)]
      exact_mod_cast (Nat.lt_mul_div_succ (k * k) (show 0 < 2 ^ 80 by positivity)).le
    rw [log2Go]
    split
    · next hbit =>
      have hhalf : (k * k / 2 ^ 80 / 2 : Nat) * 2 ≤ k * k / 2 ^ 80 := Nat.div_mul_le_self _ _
      have hhalf' : k * k / 2 ^ 80 ≤ (k * k / 2 ^ 80 / 2 : Nat) * 2 + 1 := by omega
      have hr : ((k * k / 2 ^ 80 / 2 : Nat) : ℝ) * 2 ≤ (k * k / 2 ^ 80 : Nat) := by exact_mod_cast hhalf
      have hr' : ((k * k / 2 ^ 80 : Nat) : ℝ) ≤ ((k * k / 2 ^ 80 / 2 : Nat) : ℝ) * 2 + 1 := by exact_mod_cast hhalf'
      obtain ⟨hd, hu⟩ := logb_floor (z := (k : ℝ) * k / 2 ^ 80 / 2) (k := k * k / 2 ^ 80 / 2) (by omega) (by linarith) (by linarith)
      rw [logb_half (lt_of_lt_of_le (by positivity) hfloor), htwice] at hd hu
      obtain ⟨hl, hh⟩ := ih (k * k / 2 ^ 80 / 2) (2 * acc + 1) (2 * T) (2 * d + 1 / 2 ^ 79) (by omega) (by omega)
        (by push_cast; linarith) (by push_cast; linarith)
      exact doubled_bounds hl hh
    · next hbit =>
      obtain ⟨hd, hu⟩ := logb_floor hge hfloor hceil
      rw [htwice] at hd hu
      obtain ⟨hl, hh⟩ := ih (k * k / 2 ^ 80) (2 * acc) (2 * T) (2 * d + 1 / 2 ^ 79) hge (by omega)
        (by push_cast; linarith) (by push_cast; linarith)
      exact doubled_bounds hl hh

/-- A logarithm's enclosure holds it, and its lower end lies between the binary exponents. -/
theorem log2Encl_holds (hm : m ≠ 0) : (log2Encl m e).Holds (Real.logb 2 ((m : ℝ) * 2 ^ e)) ∧
    ∃ v : Int, log2Encl m e = { lo := v - 4, hi := v + 4, e := -60 } ∧ ((Nat.log2 m : Int) + e) * 2 ^ 60 ≤ v ∧
      v < ((Nat.log2 m : Int) + e + 1) * 2 ^ 60 := by
  obtain ⟨t, ht⟩ : ∃ t, t = Nat.log2 m := ⟨_, rfl⟩
  obtain ⟨k, hk⟩ : ∃ k, k = m * 2 ^ 80 / 2 ^ t := ⟨_, rfl⟩
  have hpow : 2 ^ t ≤ m := ht ▸ Nat.log2_self_le hm
  have hpow' : m < 2 ^ (t + 1) := ht ▸ Nat.lt_log2_self
  have hmpos : (0 : ℝ) < m := by exact_mod_cast Nat.pos_of_ne_zero hm
  have hlo : 2 ^ 80 ≤ k := by
    rw [hk, Nat.le_div_iff_mul_le (by positivity), Nat.mul_comm]
    exact Nat.mul_le_mul_right _ hpow
  have hhi : k < 2 ^ 81 := by
    rw [hk, Nat.div_lt_iff_lt_mul (by positivity)]
    calc m * 2 ^ 80 < 2 ^ (t + 1) * 2 ^ 80 := Nat.mul_lt_mul_of_pos_right hpow' (by positivity)
      _ = 2 ^ 81 * 2 ^ t := by ring
  have hfloor : (k : ℝ) ≤ m * 2 ^ 80 / 2 ^ t := by
    rw [le_div_iff₀ (by positivity), hk]
    exact_mod_cast Nat.div_mul_le_self (m * 2 ^ 80) (2 ^ t)
  have hceil : (m : ℝ) * 2 ^ 80 / 2 ^ t ≤ k + 1 := by
    rw [div_le_iff₀ (by positivity), hk, mul_comm _ ((2 : ℝ) ^ t)]
    exact_mod_cast (Nat.lt_mul_div_succ (m * 2 ^ 80) (show 0 < 2 ^ t by positivity)).le
  obtain ⟨T, hT⟩ : ∃ T, T = Real.logb 2 ((m : ℝ) / 2 ^ t) := ⟨_, rfl⟩
  have hfrac : Real.logb 2 ((m * 2 ^ 80 / 2 ^ t : ℝ) / 2 ^ 80) = T := by
    rw [hT]
    congr 1
    field_simp
  obtain ⟨hd, hu⟩ := logb_floor hlo hfloor hceil
  rw [hfrac] at hd hu
  obtain ⟨hl, hh⟩ := log2Go_spec 60 k 0 T (1 / 2 ^ 79) hlo hhi (by simpa using hd) (by simpa using hu)
  have hvalue : Real.logb 2 ((m : ℝ) * 2 ^ e) = ((t + e : Int) : ℝ) + T := by
    rw [hT, Real.logb_mul hmpos.ne' (by positivity), Real.logb_div hmpos.ne' (by positivity), Real.logb_pow,
      ← Real.rpow_intCast, Real.logb_rpow (by norm_num) (by norm_num), Real.logb_self_eq_one (by norm_num)]
    push_cast
    ring
  have hTlt : T < 1 := by
    rw [hT, Real.logb_lt_iff_lt_rpow (by norm_num) (by positivity), Real.rpow_one, div_lt_iff₀ (by positivity)]
    calc (m : ℝ) < ((2 ^ (t + 1) : Nat) : ℝ) := by exact_mod_cast hpow'
      _ = 2 * 2 ^ t := by push_cast; ring
  have hbits : log2Go 60 k 0 < 2 ^ 60 := by
    have : (log2Go 60 k 0 : ℝ) < 2 ^ 60 := by linarith
    exact_mod_cast this
  have hencl : log2Encl m e =
      ⟨((t : Int) + e) * 2 ^ 60 + log2Go 60 k 0 - 4, ((t : Int) + e) * 2 ^ 60 + log2Go 60 k 0 + 4, -60⟩ := by
    simp only [log2Encl, ← ht, ← hk]
  refine ⟨?_, ((t : Int) + e) * 2 ^ 60 + log2Go 60 k 0, hencl, by rw [← ht]; omega, by rw [← ht]; omega⟩
  rw [hencl, hvalue]
  unfold Encl.Holds
  push_cast
  constructor <;> norm_num at hl hh ⊢ <;> linarith

end Sys2Proof.Machine
end

section
/-! SUPPORT. The enclosure of the power of two, and of the exponential by it (08 R162). -/

namespace Sys2Proof.Machine

variable {n : Bool} {m : Nat} {e lo : Int} {a : Word} {x : Encl} {y : ℝ}

/-- An interval of positive values, of a relative width below 2^-50. -/
def Encl.Tight (x : Encl) : Prop := 0 < x.lo ∧ (x.hi - x.lo) * 2 ^ 50 ≤ x.lo

theorem Encl.Tight.narrow (h : x.Tight) (hle : x.lo ≤ x.hi) : x.Narrow := by
  obtain ⟨hpos, hwidth⟩ := h
  exact ⟨.inl hpos, by unfold Encl.least; omega⟩

/-! ### The product over the fraction bits -/

/-- 2^(k / 2^64), the power that k units of the fraction stand for. -/
noncomputable def fracPow (k : Nat) : ℝ := 2 ^ ((k : ℝ) / 2 ^ 64)

theorem fracPow_zero : fracPow 0 = 1 := by simp [fracPow]

theorem fracPow_pos (k : Nat) : 0 < fracPow k := Real.rpow_pos_of_pos (by norm_num) _

theorem fracPow_add (j k : Nat) : fracPow (j + k) = fracPow j * fracPow k := by
  unfold fracPow
  rw [← Real.rpow_add (by norm_num)]
  push_cast
  ring_nf

theorem one_le_fracPow (k : Nat) : 1 ≤ fracPow k := Real.one_le_rpow (by norm_num) (by positivity)

theorem fracPow_lt_two {k : Nat} (hk : k < 2 ^ 64) : fracPow k < 2 := by
  have hlt : (k : ℝ) / 2 ^ 64 < 1 := by
    rw [div_lt_one (by positivity)]
    exact_mod_cast hk
  calc fracPow k < 2 ^ (1 : ℝ) := Real.rpow_lt_rpow_of_exponent_lt (by norm_num) hlt
    _ = 2 := Real.rpow_one 2

/-- The root of a factor at 80 fraction bits, from the factor before it. -/
theorem isqrt_factor {c i : Nat} (hc : 2 ^ 80 ≤ c) (hhi : (c : ℝ) ≤ fracPow (2 ^ (i + 1)) * 2 ^ 80)
    (hlo : fracPow (2 ^ (i + 1)) * 2 ^ 80 * (1 - 3 / 2 ^ 80) ≤ c) : 2 ^ 80 ≤ isqrt (c * 2 ^ 80) ∧
    (isqrt (c * 2 ^ 80) : ℝ) ≤ fracPow (2 ^ i) * 2 ^ 80 ∧ fracPow (2 ^ i) * 2 ^ 80 * (1 - 3 / 2 ^ 80) ≤ isqrt (c * 2 ^ 80) := by
  obtain ⟨h1, h2⟩ := isqrt_spec (c * 2 ^ 80)
  obtain ⟨v, hv⟩ : ∃ v, v = isqrt (c * 2 ^ 80) := ⟨_, rfl⟩
  rw [← hv] at h1 h2 ⊢
  obtain ⟨C, hC⟩ : ∃ C, C = fracPow (2 ^ i) := ⟨_, rfl⟩
  have hsq : fracPow (2 ^ (i + 1)) = C * C := by rw [hC, ← fracPow_add, pow_succ, mul_two]
  have hone : 1 ≤ C := hC ▸ one_le_fracPow _
  rw [hsq] at hhi hlo
  rw [← hC]
  have h1r : (v : ℝ) * v ≤ c * 2 ^ 80 := by exact_mod_cast h1
  have h2r : (c : ℝ) * 2 ^ 80 < (v + 1) * (v + 1) := by exact_mod_cast h2
  refine ⟨?_, ?_, ?_⟩
  · by_contra hsmall
    have : (v + 1) * (v + 1) ≤ 2 ^ 80 * 2 ^ 80 := Nat.mul_le_mul (by omega) (by omega)
    omega
  · refine abs_le_of_sq_le_sq' (by nlinarith) (by positivity) |>.2
  · have hbelow : C * 2 ^ 80 * (1 - 2 / 2 ^ 80) ≤ v + 1 := by
      refine (abs_le_of_sq_le_sq' ?_ (by positivity)).2
      have hroot : (1 - 2 / 2 ^ 80 : ℝ) ^ 2 ≤ 1 - 3 / 2 ^ 80 := by norm_num
      calc (C * 2 ^ 80 * (1 - 2 / 2 ^ 80)) ^ 2 = C * C * 2 ^ 80 * 2 ^ 80 * (1 - 2 / 2 ^ 80) ^ 2 := by ring
        _ ≤ C * C * 2 ^ 80 * 2 ^ 80 * (1 - 3 / 2 ^ 80) := by gcongr
        _ = C * C * 2 ^ 80 * (1 - 3 / 2 ^ 80) * 2 ^ 80 := by ring
        _ ≤ c * 2 ^ 80 := by gcongr
        _ ≤ (v + 1 : ℝ) ^ 2 := by rw [sq]; exact h2r.le
    linarith

/-- What a multiplication at 80 fraction bits loses. -/
theorem product_step {acc c : Nat} {C : ℝ} (hacc : 2 ^ 80 ≤ acc) (hone : 1 ≤ C) (hc : 2 ^ 80 ≤ c) (hhi : (c : ℝ) ≤ C * 2 ^ 80)
    (hlo : C * 2 ^ 80 * (1 - 3 / 2 ^ 80) ≤ c) : 2 ^ 80 ≤ acc * c / 2 ^ 80 ∧ ((acc * c / 2 ^ 80 : Nat) : ℝ) ≤ acc * C ∧
    acc * C * (1 - 4 / 2 ^ 80) ≤ (acc * c / 2 ^ 80 : Nat) := by
  have haccr : (2 : ℝ) ^ 80 ≤ acc := by exact_mod_cast hacc
  refine ⟨?_, ?_, ?_⟩
  · rw [Nat.le_div_iff_mul_le (by positivity)]
    exact Nat.mul_le_mul hacc hc
  · have : ((acc * c / 2 ^ 80 : Nat) : ℝ) * 2 ^ 80 ≤ acc * c := by exact_mod_cast Nat.div_mul_le_self (acc * c) (2 ^ 80)
    have : (acc : ℝ) * c ≤ acc * (C * 2 ^ 80) := by gcongr
    linarith
  · have h1 : (acc : ℝ) * c ≤ 2 ^ 80 * ((acc * c / 2 ^ 80 : Nat) + 1) := by
      exact_mod_cast (Nat.lt_mul_div_succ (acc * c) (show 0 < 2 ^ 80 by positivity)).le
    have h2 : (acc : ℝ) * (C * 2 ^ 80 * (1 - 3 / 2 ^ 80)) ≤ acc * c := by gcongr
    have h3 : (2 : ℝ) ^ 80 * 1 ≤ acc * C := by gcongr
    linarith

/-- The fraction below a bit. -/
theorem mod_two_pow_succ_testBit (k i : Nat) : k % 2 ^ (i + 1) = (if k.testBit i then 2 ^ i else 0) + k % 2 ^ i := by
  rw [Nat.mod_pow_succ, Nat.testBit_eq_decide_div_mod_eq]
  rcases Nat.mod_two_eq_zero_or_one (k / 2 ^ i) with h | h <;> simp [h, Nat.add_comm]

theorem exp2Go_spec (frac i : Nat) : ∀ c acc : Nat, 2 ^ 80 ≤ c → (c : ℝ) ≤ fracPow (2 ^ i) * 2 ^ 80 →
    fracPow (2 ^ i) * 2 ^ 80 * (1 - 3 / 2 ^ 80) ≤ c → 2 ^ 80 ≤ acc →
    (exp2Go frac i c acc : ℝ) ≤ acc * fracPow (frac % 2 ^ i) ∧
      acc * fracPow (frac % 2 ^ i) * (1 - 4 / 2 ^ 80) ^ i ≤ exp2Go frac i c acc := by
  induction i with
  | zero => intro c acc _ _ _ _; simp [exp2Go, Nat.mod_one, fracPow_zero]
  | succ i ih =>
    intro c acc hc hhi hlo hacc
    obtain ⟨h1, h2, h3⟩ := isqrt_factor hc hhi hlo
    rw [exp2Go, mod_two_pow_succ_testBit]
    split
    · obtain ⟨hp1, hp2, hp3⟩ := product_step hacc (one_le_fracPow (2 ^ i)) h1 h2 h3
      obtain ⟨hu, hd⟩ := ih _ _ h1 h2 h3 hp1
      have hP := fracPow_pos (frac % 2 ^ i)
      rw [fracPow_add]
      constructor
      · calc _ ≤ ((acc * isqrt (c * 2 ^ 80) / 2 ^ 80 : Nat) : ℝ) * fracPow (frac % 2 ^ i) := hu
          _ ≤ acc * fracPow (2 ^ i) * fracPow (frac % 2 ^ i) := by gcongr
          _ = _ := by ring
      · have hpow : (0 : ℝ) ≤ (1 - 4 / 2 ^ 80) ^ i := pow_nonneg (by norm_num) i
        calc acc * (fracPow (2 ^ i) * fracPow (frac % 2 ^ i)) * (1 - 4 / 2 ^ 80) ^ (i + 1)
            = acc * fracPow (2 ^ i) * (1 - 4 / 2 ^ 80) * fracPow (frac % 2 ^ i) * (1 - 4 / 2 ^ 80) ^ i := by ring
          _ ≤ ((acc * isqrt (c * 2 ^ 80) / 2 ^ 80 : Nat) : ℝ) * fracPow (frac % 2 ^ i) * (1 - 4 / 2 ^ 80) ^ i := by gcongr
          _ ≤ _ := hd
    · obtain ⟨hu, hd⟩ := ih _ _ h1 h2 h3 hacc
      rw [zero_add]
      refine ⟨hu, le_trans ?_ hd⟩
      have hP := fracPow_pos (frac % 2 ^ i)
      exact mul_le_mul_of_nonneg_left (pow_le_pow_of_le_one (by norm_num) (by norm_num) (Nat.le_succ i)) (by positivity)

/-- The product of all 64 fraction bits. -/
theorem exp2Go_bounds {frac : Nat} (h : frac < 2 ^ 64) : (exp2Go frac 64 (2 * 2 ^ 80) (2 ^ 80) : ℝ) ≤ fracPow frac * 2 ^ 80 ∧
    fracPow frac * 2 ^ 80 ≤ exp2Go frac 64 (2 * 2 ^ 80) (2 ^ 80) + 512 := by
  have htwo : fracPow (2 ^ 64) = 2 := by norm_num [fracPow]
  obtain ⟨h1, h2⟩ := exp2Go_spec frac 64 (2 * 2 ^ 80) (2 ^ 80) (by norm_num) (by rw [htwo]; norm_num) (by rw [htwo]; norm_num)
    le_rfl
  rw [Nat.mod_eq_of_lt h] at h1 h2
  have hbern : (1 - 256 / 2 ^ 80 : ℝ) ≤ (1 - 4 / 2 ^ 80) ^ 64 := by norm_num
  have hlt := fracPow_lt_two h
  have hpos := fracPow_pos frac
  rw [Nat.cast_pow, Nat.cast_ofNat] at h1 h2
  generalize exp2Go frac 64 (2 * 2 ^ 80) (2 ^ 80) = v at h1 h2 ⊢
  refine ⟨by linarith, ?_⟩
  have hlost := (mul_le_mul_of_nonneg_left hbern (show 0 ≤ (2 : ℝ) ^ 80 * fracPow frac by positivity)).trans h2
  linarith

/-- A power of two near the exponent 0. -/
theorem abs_two_rpow_sub_one_le {δ : ℝ} (h : |δ| ≤ 1) : |(2 : ℝ) ^ δ - 1| ≤ 1.3864 * |δ| := by
  have hln : Real.log 2 < 0.6932 := by have := Real.log_two_lt_d9; linarith
  have hln0 : 0 < Real.log 2 := Real.log_pos (by norm_num)
  have habs : |Real.log 2 * δ| = Real.log 2 * |δ| := by rw [abs_mul, abs_of_pos hln0]
  rw [Real.rpow_def_of_pos (by norm_num)]
  calc |Real.exp (Real.log 2 * δ) - 1| ≤ 2 * |Real.log 2 * δ| := Real.abs_exp_sub_one_le (by rw [habs]; nlinarith [abs_nonneg δ])
    _ = 2 * (Real.log 2 * |δ|) := by rw [habs]
    _ ≤ 2 * (0.6932 * |δ|) := by gcongr
    _ = _ := by ring

/-- The enclosure of 2^(X / 2^64) holds the power of every exponent near it. -/
theorem exp2Encl_holds {X : Int} {z : ℝ} (h1 : X - 1 / 4 ≤ z * 2 ^ 64) (h2 : z * 2 ^ 64 ≤ X + 5 / 4) :
    (exp2Encl X).Holds (2 ^ z) ∧ (exp2Encl X).Tight := by
  obtain ⟨frac, hfrac⟩ : ∃ k, k = (X % 2 ^ 64).toNat := ⟨_, rfl⟩
  obtain ⟨v, hv⟩ : ∃ v, v = exp2Go frac 64 (2 * 2 ^ 80) (2 ^ 80) := ⟨_, rfl⟩
  have hlt : frac < 2 ^ 64 := by omega
  have hX : X = X / 2 ^ 64 * 2 ^ 64 + frac := by omega
  have hencl : exp2Encl X = ⟨(v : Int) - 2 ^ 18, v + 2 ^ 18, X / 2 ^ 64 - 80⟩ := by simp only [exp2Encl, ← hfrac, ← hv]
  obtain ⟨hup, hdown⟩ := exp2Go_bounds hlt
  rw [← hv] at hup hdown
  have hlarge : 2 ^ 79 ≤ v := by
    have : (2 : ℝ) ^ 79 ≤ v := by
      have := one_le_fracPow frac
      linarith
    exact_mod_cast this
  obtain ⟨N, hN⟩ : ∃ N, N = X / 2 ^ 64 := ⟨_, rfl⟩
  rw [← hN] at hX hencl
  obtain ⟨δ, hδ⟩ : ∃ δ, δ = z - (X : ℝ) / 2 ^ 64 := ⟨_, rfl⟩
  have hdelta : |δ| ≤ 5 / 4 / 2 ^ 64 := by
    rw [hδ, abs_le]
    constructor <;> linarith
  have hpower : (2 : ℝ) ^ z = fracPow frac * 2 ^ δ * 2 ^ N := by
    have : z = (frac : ℝ) / 2 ^ 64 + δ + (N : ℝ) := by
      have : (X : ℝ) = N * 2 ^ 64 + frac := by exact_mod_cast hX
      rw [hδ, this]
      ring
    rw [this, Real.rpow_add (by norm_num), Real.rpow_add (by norm_num), Real.rpow_intCast]
    rfl
  have hnear := abs_two_rpow_sub_one_le (hdelta.trans (by norm_num))
  have herror : |fracPow frac * 2 ^ 80 * (2 ^ δ - 1)| ≤ 227500 := by
    have hpos := fracPow_pos frac
    rw [abs_mul, abs_of_pos (by positivity)]
    calc fracPow frac * 2 ^ 80 * |2 ^ δ - 1| ≤ 2 * 2 ^ 80 * (1.3864 * (5 / 4 / 2 ^ 64)) := by
          gcongr
          · exact (fracPow_lt_two hlt).le
          · exact hnear.trans (by gcongr)
      _ ≤ _ := by norm_num
  rw [abs_le] at herror
  rw [hencl]
  refine ⟨?_, show (0 : Int) < v - 2 ^ 18 by omega, show ((v : Int) + 2 ^ 18 - (v - 2 ^ 18)) * 2 ^ 50 ≤ v - 2 ^ 18 by omega⟩
  have hunit : (0 : ℝ) < 2 ^ (N - 80) := by positivity
  have hscaled : (2 : ℝ) ^ z = fracPow frac * 2 ^ 80 * 2 ^ δ * 2 ^ (N - 80) := by
    rw [hpower, zpow_sub₀ (by norm_num)]
    norm_num
    ring
  rw [hscaled]
  unfold Encl.Holds
  push_cast
  constructor <;> refine mul_le_mul_of_nonneg_right ?_ hunit.le <;> linarith

/-! ### The exponential by it -/

/-- The digits of the model lie within 2^-86 of log2 e. -/
theorem abs_log2e_sub_digits_le : |(log2eDigits : ℝ) / digitScale - 1 / Real.log 2| ≤ 1 / 2 ^ 86 := by
  obtain ⟨S, hS⟩ : ∃ S : ℝ, S = ∑ i ∈ Finset.range 90, (1 / 2 : ℝ) ^ (i + 1) / ((i : ℝ) + 1) := ⟨_, rfl⟩
  obtain ⟨P, hP⟩ : ∃ P : ℝ, P = (log2eDigits : ℝ) / digitScale := ⟨_, rfl⟩
  have hseries : |Real.log 2 - S| ≤ 1 / 2 ^ 90 := by
    have h := Real.abs_log_sub_add_sum_range_le (x := 1 / 2) (by rw [abs_of_pos] <;> norm_num) 90
    have hneg : Real.log (1 - 1 / 2) = -Real.log 2 := by rw [← Real.log_inv]; norm_num
    rw [hneg, abs_of_pos (by norm_num : (0 : ℝ) < 1 / 2), ← hS] at h
    rw [abs_sub_comm, sub_eq_add_neg]
    exact h.trans (by norm_num)
  have hproduct : |P * S - 1| ≤ 1 / 2 ^ 88 := by
    rw [hP, hS, log2eDigits, digitScale, abs_le]
    constructor <;> norm_num [Finset.sum_range_succ]
  have hsize : |P| ≤ 2 := by
    rw [hP, log2eDigits, digitScale, abs_le]
    constructor <;> norm_num
  have hlog : |P * Real.log 2 - 1| ≤ 1 / 2 ^ 87 := by
    calc |P * Real.log 2 - 1| = |P * (Real.log 2 - S) + (P * S - 1)| := by ring_nf
      _ ≤ |P| * |Real.log 2 - S| + |P * S - 1| := by rw [← abs_mul]; exact abs_add_le _ _
      _ ≤ 2 * (1 / 2 ^ 90) + 1 / 2 ^ 88 := by gcongr
      _ ≤ 1 / 2 ^ 87 := by norm_num
  have hln := Real.log_two_gt_d9
  have hpos : 0 < Real.log 2 := by linarith
  rw [← hP]
  calc |P - 1 / Real.log 2| = |P * Real.log 2 - 1| / Real.log 2 := by
        rw [← abs_of_pos hpos, ← abs_div, abs_of_pos hpos]
        congr 1
        field_simp
    _ ≤ 1 / 2 ^ 87 / (1 / 2) := by gcongr; linarith
    _ = 1 / 2 ^ 86 := by norm_num

/-- A floor of a quotient. -/
theorem ediv_bounds (j : Int) {d : Nat} (hd : 0 < d) :
    (((j / (d : Int) : Int)) : ℝ) ≤ (j : ℝ) / d ∧ (j : ℝ) / d ≤ ((j / (d : Int) : Int) : ℝ) + 1 := by
  have hdr : (0 : ℝ) < d := by exact_mod_cast hd
  have h1 := Int.ediv_mul_le j (show (d : Int) ≠ 0 by omega)
  have h2 := (Int.lt_ediv_add_one_mul_self j (show (0 : Int) < d by omega)).le
  exact ⟨(le_div_iff₀ hdr).2 (by exact_mod_cast h1), (div_le_iff₀ hdr).2 (by exact_mod_cast h2)⟩

/-- The enclosure of the exponential holds it. -/
theorem expEncl_holds (hsize : |dyadic n m e| ≤ 128) :
    (expEncl n m e).Holds (Real.exp (dyadic n m e)) ∧ (expEncl n m e).Tight := by
  obtain ⟨X, hX⟩ : ∃ X, X = dyadic n m e := ⟨_, rfl⟩
  obtain ⟨P, hP⟩ : ∃ P : ℝ, P = (log2eDigits : ℝ) / digitScale := ⟨_, rfl⟩
  obtain ⟨f, hf⟩ : ∃ f, f = fixedAt 120 n m e := ⟨_, rfl⟩
  have hfloor : |(f : ℝ) - X * 2 ^ 120| ≤ 1 := by
    rw [hf, fixedAt_eq_floor, ← hX, abs_le]
    have := Int.floor_le (X * 2 ^ 120)
    have := Int.lt_floor_add_one (X * 2 ^ 120)
    constructor <;> linarith
  have hdigits := abs_log2e_sub_digits_le
  have hpower : Real.exp X = 2 ^ (X * (1 / Real.log 2)) := by
    rw [Real.rpow_def_of_pos (by norm_num)]
    congr 1
    have : Real.log 2 ≠ 0 := (Real.log_pos (by norm_num)).ne'
    field_simp
  have hPsize : |P| ≤ 2 := by
    rw [hP, log2eDigits, digitScale, abs_le]
    constructor <;> norm_num
  rw [← hP] at hdigits
  rw [← hX] at hsize ⊢
  have herror : |(f : ℝ) * P / 2 ^ 56 - X * (1 / Real.log 2) * 2 ^ 64| ≤ 1 / 8 := by
    have hsplit : (f : ℝ) * P / 2 ^ 56 - X * (1 / Real.log 2) * 2 ^ 64 =
        (f - X * 2 ^ 120) * P / 2 ^ 56 + X * (P - 1 / Real.log 2) * 2 ^ 64 := by
      rw [show (2 : ℝ) ^ 120 = 2 ^ 56 * 2 ^ 64 by norm_num]
      field_simp
      ring
    have h1 : |(f - X * 2 ^ 120) * P / 2 ^ 56| ≤ 1 * 2 / 2 ^ 56 := by
      rw [abs_div, abs_mul, abs_of_pos (by positivity : (0 : ℝ) < 2 ^ 56)]
      gcongr
    have h2 : |X * (P - 1 / Real.log 2) * 2 ^ 64| ≤ 128 * (1 / 2 ^ 86) * 2 ^ 64 := by
      rw [abs_mul, abs_mul, abs_of_pos (by positivity : (0 : ℝ) < 2 ^ 64)]
      gcongr
    rw [hsplit]
    exact (abs_add_le _ _).trans ((add_le_add h1 h2).trans (by norm_num))
  obtain ⟨hl1, hh1⟩ := ediv_bounds (f * log2eDigits) (show 0 < digitScale by decide)
  obtain ⟨hl2, hh2⟩ := ediv_bounds (f * log2eDigits / digitScale) (show 0 < 2 ^ 56 by norm_num)
  rw [Int.cast_mul, Int.cast_natCast, mul_div_assoc, ← hP] at hl1 hh1
  rw [show ((2 ^ 56 : Nat) : Int) = 2 ^ 56 by norm_num, Nat.cast_pow, Nat.cast_ofNat] at hl2 hh2
  rw [hpower, expEncl, ← hf]
  rw [abs_le] at herror
  refine exp2Encl_holds ?_ ?_ <;> linarith

end Sys2Proof.Machine
end

section
/-! SUPPORT. The enclosure of the sine (08 R162): its series in fixed point, and the digits of π. -/

namespace Sys2Proof.Machine

variable {n : Bool} {m : Nat} {e lo : Int} {a : Word} {x : Encl} {y : ℝ}

/-! ### The series of the sine -/

/-- A term of the series of the sine. -/
noncomputable def sinTerm (X : ℝ) (j : Nat) : ℝ := (-1) ^ j * X ^ (2 * j + 1) / (2 * j + 1).factorial

theorem sinTerm_succ (X : ℝ) (j : Nat) : sinTerm X (j + 1) = -(sinTerm X j * X ^ 2) / ((2 * j + 2) * (2 * j + 3) : Nat) := by
  have hfact : ((2 * (j + 1) + 1).factorial : ℝ) = ((2 * j + 2) * (2 * j + 3) : Nat) * (2 * j + 1).factorial := by
    rw [show 2 * (j + 1) + 1 = 2 * j + 1 + 1 + 1 by ring, Nat.factorial_succ, Nat.factorial_succ]
    push_cast
    ring
  have hpos : ((2 * j + 1).factorial : ℝ) ≠ 0 := by positivity
  have hne : (((2 * j + 2) * (2 * j + 3) : Nat) : ℝ) ≠ 0 := by positivity
  rw [sinTerm, sinTerm, hfact]
  field_simp
  ring

/-- The even terms of the series of e^(iX) are real, and the odd ones are those of the sine. -/
theorem im_exp_series (X : ℝ) (N : Nat) :
    (∑ k ∈ Finset.range (2 * N), (X * Complex.I) ^ k / (k.factorial : ℂ)).im = ∑ j ∈ Finset.range N, sinTerm X j := by
  induction N with
  | zero => simp
  | succ N ih =>
    have heven : (X * Complex.I) ^ (2 * N) = (((-1) ^ N * X ^ (2 * N) : ℝ) : ℂ) := by
      rw [mul_pow, pow_mul Complex.I, Complex.I_sq]
      push_cast
      ring
    have hfirst : ((X * Complex.I) ^ (2 * N) / ((2 * N).factorial : ℂ)).im = 0 := by
      rw [heven, ← Complex.ofReal_natCast, ← Complex.ofReal_div, Complex.ofReal_im]
    have hsecond : ((X * Complex.I) ^ (2 * N + 1) / ((2 * N + 1).factorial : ℂ)).im = sinTerm X N := by
      have : (X * Complex.I) ^ (2 * N + 1) / ((2 * N + 1).factorial : ℂ) = (sinTerm X N : ℝ) * Complex.I := by
        rw [pow_succ, heven, sinTerm]
        push_cast
        ring
      rw [this, Complex.im_ofReal_mul, Complex.I_im, mul_one]
    rw [show 2 * (N + 1) = 2 * N + 1 + 1 by ring, Finset.sum_range_succ, Finset.sum_range_succ, Complex.add_im, Complex.add_im, ih,
      hfirst, hsecond, add_zero, Finset.sum_range_succ]

/-- What is left of the sine after N terms. -/
theorem sin_series {X : ℝ} {N : Nat} (hX : 0 ≤ X) (hN : X ≤ N) :
    |Real.sin X - ∑ j ∈ Finset.range N, sinTerm X j| ≤ X ^ (2 * N) / (2 * N).factorial * 2 := by
  have hnorm : ‖(X : ℂ) * Complex.I‖ = X := by rw [norm_mul, Complex.norm_I, mul_one, Complex.norm_real, Real.norm_of_nonneg hX]
  have hsize : ‖(X : ℂ) * Complex.I‖ / (2 * N).succ ≤ 1 / 2 := by
    rw [hnorm, div_le_iff₀ (by positivity)]
    push_cast
    linarith
  have hbound := Complex.exp_bound' hsize
  rw [hnorm] at hbound
  refine le_trans ?_ hbound
  rw [← im_exp_series, ← Complex.exp_ofReal_mul_I_im, ← Complex.sub_im]
  exact Complex.abs_im_le_norm _

/-! ### The digits of π -/

/-- The digits of the model lie within 2^-89 of π: sin (π / 6) is 1/2. -/
theorem abs_pi_sub_digits_le : |Real.pi - (piDigits : ℝ) / digitScale| ≤ 1 / 2 ^ 89 := by
  have hdigits : |(piDigits : ℝ) / digitScale - 3.1415926535897932384626433833| ≤ 1 / 10 ^ 28 := by
    rw [piDigits, digitScale, abs_le]
    constructor <;> norm_num
  have hsixth : Real.pi / 6 ∈ Set.Icc (-(Real.pi / 2)) (Real.pi / 2) := by
    have := Real.pi_pos
    constructor <;> linarith
  have hmem : ∀ {p : ℝ}, 0 ≤ p → p ≤ 1 → p ∈ Set.Icc (-(Real.pi / 2)) (Real.pi / 2) := fun h0 h1 => by
    have := Real.pi_gt_three
    constructor <;> linarith
  have hlower : (3.1415926535897932384626433830 / 6 : ℝ) < Real.pi / 6 := by
    rw [← Real.strictMonoOn_sin.lt_iff_lt (hmem (by norm_num) (by norm_num)) hsixth, Real.sin_pi_div_six]
    have hseries := (abs_le.1 (sin_series (X := 3.1415926535897932384626433830 / 6) (N := 13) (by norm_num) (by norm_num))).2
    have hsum : (∑ j ∈ Finset.range 13, sinTerm (3.1415926535897932384626433830 / 6) j) < 1 / 2 - 1 / 10 ^ 29 := by
      norm_num [Finset.sum_range_succ, sinTerm, Nat.factorial]
    have hrest : (3.1415926535897932384626433830 / 6 : ℝ) ^ (2 * 13) / (2 * 13).factorial * 2 < 1 / 10 ^ 30 := by
      norm_num [Nat.factorial]
    linarith
  have hupper : Real.pi / 6 < (3.1415926535897932384626433836 / 6 : ℝ) := by
    rw [← Real.strictMonoOn_sin.lt_iff_lt hsixth (hmem (by norm_num) (by norm_num)), Real.sin_pi_div_six]
    have hseries := (abs_le.1 (sin_series (X := 3.1415926535897932384626433836 / 6) (N := 13) (by norm_num) (by norm_num))).1
    have hsum : 1 / 2 + 1 / 10 ^ 29 < ∑ j ∈ Finset.range 13, sinTerm (3.1415926535897932384626433836 / 6) j := by
      norm_num [Finset.sum_range_succ, sinTerm, Nat.factorial]
    have hrest : (3.1415926535897932384626433836 / 6 : ℝ) ^ (2 * 13) / (2 * 13).factorial * 2 < 1 / 10 ^ 30 := by
      norm_num [Nat.factorial]
    linarith
  rw [abs_le] at hdigits ⊢
  constructor <;> norm_num at hdigits hlower hupper ⊢ <;> linarith

/-! ### The loop -/

/-- A floor of a quotient lies within one of it. -/
theorem abs_ediv_sub_le (j : Int) {d : Nat} (hd : 0 < d) : |((j / (d : Int) : Int) : ℝ) - (j : ℝ) / d| ≤ 1 := by
  obtain ⟨h1, h2⟩ := ediv_bounds j hd
  rw [abs_le]
  constructor <;> linarith

/-- The terms of the series of a small angle are small. -/
theorem abs_sinTerm_le {X : ℝ} (hX : |X| ≤ 1.6) (j : Nat) : |sinTerm X j| ≤ 1.6 := by
  induction j with
  | zero => simpa [sinTerm] using hX
  | succ j ih =>
    have hsq : X ^ 2 ≤ 1.6 ^ 2 := sq_le_sq' (neg_le_of_abs_le hX) (le_of_abs_le hX)
    have hden : (6 : ℝ) ≤ ((2 * j + 2) * (2 * j + 3) : Nat) := by exact_mod_cast show 6 ≤ (2 * j + 2) * (2 * j + 3) by nlinarith
    rw [sinTerm_succ, abs_div, abs_neg, abs_mul, abs_of_nonneg (sq_nonneg X), Nat.abs_cast, div_le_iff₀ (by linarith)]
    calc |sinTerm X j| * X ^ 2 ≤ 1.6 * 1.6 ^ 2 := by gcongr
      _ ≤ 1.6 * 6 := by norm_num
      _ ≤ _ := by gcongr

/-- One step of the series in fixed point: three units of error stay three. -/
theorem sinTerm_step {x2 t : Int} {X : ℝ} {j : Nat} (hX : |X| ≤ 1.6) (hx2 : |(x2 : ℝ) - X ^ 2 * 2 ^ 100| ≤ 1)
    (ht : |(t : ℝ) - sinTerm X j * 2 ^ 100| ≤ 3) :
    |((-(t * x2 / 2 ^ 100) / ((2 * j + 1 + 1) * (2 * j + 1 + 2) : Nat) : Int) : ℝ) - sinTerm X (j + 1) * 2 ^ 100| ≤ 3 := by
  obtain ⟨q, hq⟩ : ∃ q, q = t * x2 / 2 ^ 100 := ⟨_, rfl⟩
  obtain ⟨D, hD⟩ : ∃ D, D = (2 * j + 2) * (2 * j + 3) := ⟨_, rfl⟩
  have hD6 : 6 ≤ D := by rw [hD]; nlinarith
  have hD6r : (6 : ℝ) ≤ D := by exact_mod_cast hD6
  have hterm := abs_sinTerm_le hX j
  rw [sinTerm_succ, show (2 * j + 1 + 1) * (2 * j + 1 + 2) = (2 * j + 2) * (2 * j + 3) by ring, ← hD, ← hq]
  obtain ⟨T, hT⟩ : ∃ T, T = sinTerm X j := ⟨_, rfl⟩
  rw [← hT] at ht hterm ⊢
  have hsq : X ^ 2 ≤ 2.56 := by
    calc X ^ 2 ≤ 1.6 ^ 2 := sq_le_sq' (neg_le_of_abs_le hX) (le_of_abs_le hX)
      _ = 2.56 := by norm_num
  have hquot : |(q : ℝ) - T * X ^ 2 * 2 ^ 100| ≤ 11 := by
    have hfloor := abs_ediv_sub_le (t * x2) (show 0 < 2 ^ 100 by norm_num)
    rw [show ((2 ^ 100 : Nat) : Int) = 2 ^ 100 by norm_num, ← hq] at hfloor
    rw [Int.cast_mul, Nat.cast_pow, Nat.cast_ofNat] at hfloor
    have hsplit : (t : ℝ) * x2 / 2 ^ 100 - T * X ^ 2 * 2 ^ 100 =
        (t - T * 2 ^ 100) * (x2 - X ^ 2 * 2 ^ 100) / 2 ^ 100 + T * (x2 - X ^ 2 * 2 ^ 100) + (t - T * 2 ^ 100) * X ^ 2 := by
      field_simp
      ring
    have h1 : |(t - T * 2 ^ 100) * (x2 - X ^ 2 * 2 ^ 100) / 2 ^ 100| ≤ 3 * 1 / 2 ^ 100 := by
      rw [abs_div, abs_mul, abs_of_pos (by positivity : (0 : ℝ) < 2 ^ 100)]
      gcongr
    have h2 : |T * (x2 - X ^ 2 * 2 ^ 100)| ≤ 1.6 * 1 := by rw [abs_mul]; gcongr
    have h3 : |(t - T * 2 ^ 100) * X ^ 2| ≤ 3 * 2.56 := by rw [abs_mul, abs_of_nonneg (sq_nonneg X)]; gcongr
    calc |(q : ℝ) - T * X ^ 2 * 2 ^ 100| ≤ |(q : ℝ) - t * x2 / 2 ^ 100| + |(t : ℝ) * x2 / 2 ^ 100 - T * X ^ 2 * 2 ^ 100| :=
          abs_sub_le ..
      _ ≤ 1 + (3 * 1 / 2 ^ 100 + 1.6 * 1 + 3 * 2.56) := by
          rw [hsplit]
          exact add_le_add hfloor ((abs_add_three ..).trans (add_le_add_three h1 h2 h3))
      _ ≤ 11 := by norm_num
  have hfloor := abs_ediv_sub_le (-q) (show 0 < D by omega)
  have hscaled : |((-q : Int) : ℝ) / D - -(T * X ^ 2) / D * 2 ^ 100| ≤ 2 := by
    have : ((-q : Int) : ℝ) / D - -(T * X ^ 2) / D * 2 ^ 100 = -((q : ℝ) - T * X ^ 2 * 2 ^ 100) / D := by
      push_cast
      ring
    rw [this, abs_div, abs_neg, Nat.abs_cast, div_le_iff₀ (by linarith)]
    linarith
  have htri := abs_sub_le (((-q / (D : Int) : Int) : ℝ)) (((-q : Int) : ℝ) / D) (-(T * X ^ 2) / D * 2 ^ 100)
  linarith

/-- The loop adds the terms of the series, with an error of three units each. -/
theorem sinGo_spec {x2 : Int} {X : ℝ} (hX : |X| ≤ 1.6) (hx2 : |(x2 : ℝ) - X ^ 2 * 2 ^ 100| ≤ 1) (i : Nat) :
    ∀ (j : Nat) (t acc : Int), |(t : ℝ) - sinTerm X j * 2 ^ 100| ≤ 3 →
      |(sinGo x2 i (2 * j + 1) t acc : ℝ) - (acc + (∑ l ∈ Finset.range i, sinTerm X (j + l)) * 2 ^ 100)| ≤ 3 * (i : ℝ) := by
  induction i with
  | zero => intro j t acc _; simp [sinGo]
  | succ i ih =>
    intro j t acc ht
    have hstep := ih (j + 1) _ (acc + t) (sinTerm_step hX hx2 ht)
    have hsum : ∑ l ∈ Finset.range (i + 1), sinTerm X (j + l) = (∑ l ∈ Finset.range i, sinTerm X (j + 1 + l)) + sinTerm X j := by
      rw [Finset.sum_range_succ', Nat.add_zero]
      congr 1
      exact Finset.sum_congr rfl fun l _ => by rw [Nat.add_right_comm, Nat.add_assoc]
    rw [sinGo, hsum]
    rw [show 2 * (j + 1) + 1 = 2 * j + 1 + 2 by ring] at hstep
    push_cast at hstep ⊢
    rw [abs_le] at hstep ht ⊢
    constructor <;> linarith

/-- The series in fixed point of an angle up to a right one. -/
theorem sinGo_near {w : Int} (h0 : 0 ≤ w) (h1 : (w : ℝ) ≤ 1.6 * 2 ^ 100) :
    |(sinGo (w * w / 2 ^ 100) 24 1 w 0 : ℝ) - Real.sin (w / 2 ^ 100) * 2 ^ 100| ≤ 73 := by
  obtain ⟨X, hX⟩ : ∃ X, X = (w : ℝ) / 2 ^ 100 := ⟨_, rfl⟩
  have hw : (w : ℝ) = X * 2 ^ 100 := by rw [hX]; field_simp
  have hX0 : 0 ≤ X := by rw [hX]; positivity
  have hX1 : X ≤ 1.6 := by rw [hX, div_le_iff₀ (by positivity)]; exact h1
  have hsq : |((w * w / 2 ^ 100 : Int) : ℝ) - X ^ 2 * 2 ^ 100| ≤ 1 := by
    have hfloor := abs_ediv_sub_le (w * w) (show 0 < 2 ^ 100 by norm_num)
    rw [show ((2 ^ 100 : Nat) : Int) = 2 ^ 100 by norm_num] at hfloor
    refine le_trans (le_of_eq ?_) hfloor
    rw [Int.cast_mul, Nat.cast_pow, Nat.cast_ofNat, hw]
    congr 2
    field_simp
  have hloop := sinGo_spec (by rw [abs_of_nonneg hX0]; exact hX1) hsq 24 0 w 0 (by simp [sinTerm, hw])
  have hrest : X ^ (2 * 24) / (2 * 24).factorial * 2 ≤ 1 / 2 ^ 100 := by
    calc X ^ (2 * 24) / (2 * 24).factorial * 2 ≤ 1.6 ^ (2 * 24) / (2 * 24).factorial * 2 := by gcongr
      _ ≤ 1 / 2 ^ 100 := by norm_num [Nat.factorial]
  have hseries := (sin_series (N := 24) hX0 (hX1.trans (by norm_num))).trans hrest
  rw [← hX]
  simp only [Nat.zero_add, Nat.mul_zero] at hloop
  generalize sinGo (w * w / 2 ^ 100) 24 1 w 0 = v at hloop ⊢
  generalize ∑ j ∈ Finset.range 24, sinTerm X j = S at hloop hseries
  rw [abs_le] at hloop hseries ⊢
  push_cast at hloop
  constructor <;> linarith

/-! ### The reduced argument -/

/-- An angle in half-turns about w units, at most a right one, and its value in fixed point. -/
theorem sinGo_holds {w : Int} {z : ℝ} (h0 : 0 ≤ w) (h1 : w ≤ 2 ^ 99) (hz : |z * 2 ^ 100 - w| ≤ 1) :
    |(sinGo ((w * piDigits / digitScale) * (w * piDigits / digitScale) / 2 ^ 100) 24 1 (w * piDigits / digitScale) 0 : ℝ) -
      Real.sin (Real.pi * z) * 2 ^ 100| ≤ 2 ^ 12 := by
  obtain ⟨g, hg⟩ : ∃ g : Int, g = w * piDigits / digitScale := ⟨_, rfl⟩
  obtain ⟨P, hP⟩ : ∃ P : ℝ, P = (piDigits : ℝ) / digitScale := ⟨_, rfl⟩
  rw [← hg]
  have hpi := abs_pi_sub_digits_le
  rw [← hP] at hpi
  have hw0 : (0 : ℝ) ≤ w := by exact_mod_cast h0
  have hw1 : (w : ℝ) ≤ 2 ^ 99 := by exact_mod_cast h1
  have hfloor : |(g : ℝ) - w * P| ≤ 1 := by
    have h := abs_ediv_sub_le (w * piDigits) (show 0 < digitScale by decide)
    rw [← hg, Int.cast_mul, Int.cast_natCast, mul_div_assoc, ← hP] at h
    exact h
  have hg0 : 0 ≤ g := by rw [hg]; positivity
  have hpi4 := Real.pi_lt_d2
  have hpi3 := Real.pi_gt_three
  have hP4 : P ≤ 3.16 := by rw [abs_le] at hpi; norm_num at hpi; linarith
  have hg1 : (g : ℝ) ≤ 1.6 * 2 ^ 100 := by
    have hprod : (w : ℝ) * P ≤ 2 ^ 99 * 3.16 := by gcongr; rw [abs_le] at hpi; norm_num at hpi; linarith
    rw [abs_le] at hfloor
    norm_num at hprod ⊢
    linarith
  have hangle : |(g : ℝ) / 2 ^ 100 - Real.pi * z| * 2 ^ 100 ≤ 1100 := by
    have hsplit : (g : ℝ) - Real.pi * z * 2 ^ 100 = (g - w * P) + w * (P - Real.pi) + Real.pi * (w - z * 2 ^ 100) := by ring
    have h2 : |(w : ℝ) * (P - Real.pi)| ≤ 2 ^ 99 * (1 / 2 ^ 89) := by
      rw [abs_mul, abs_of_nonneg hw0, abs_sub_comm]
      gcongr
    have h3 : |Real.pi * (w - z * 2 ^ 100)| ≤ 4 * 1 := by
      rw [abs_mul, abs_of_pos Real.pi_pos, abs_sub_comm]
      gcongr
      linarith
    calc |(g : ℝ) / 2 ^ 100 - Real.pi * z| * 2 ^ 100 = |(g : ℝ) - Real.pi * z * 2 ^ 100| := by
          rw [← abs_of_pos (by positivity : (0 : ℝ) < 2 ^ 100), ← abs_mul, abs_of_pos (by positivity : (0 : ℝ) < 2 ^ 100)]
          congr 1
          field_simp
      _ ≤ 1 + 2 ^ 99 * (1 / 2 ^ 89) + 4 * 1 := by
          rw [hsplit]
          exact (abs_add_three ..).trans (add_le_add_three hfloor h2 h3)
      _ ≤ 1100 := by norm_num
  have hsin : |Real.sin (g / 2 ^ 100) * 2 ^ 100 - Real.sin (Real.pi * z) * 2 ^ 100| ≤ 1100 := by
    rw [← sub_mul, abs_mul, abs_of_pos (by positivity : (0 : ℝ) < 2 ^ 100)]
    exact (mul_le_mul_of_nonneg_right (Real.abs_sin_sub_sin_le _ _) (by positivity)).trans hangle
  have hloop := sinGo_near hg0 hg1
  have htri := abs_sub_le (sinGo (g * g / 2 ^ 100) 24 1 g 0 : ℝ) (Real.sin (g / 2 ^ 100) * 2 ^ 100)
    (Real.sin (Real.pi * z) * 2 ^ 100)
  refine htri.trans ((add_le_add hloop hsin).trans (by norm_num))

/-- An enclosure of width 2^13 units of 2^-100. -/
theorem holds_of_abs_sub_le {j : Int} (h : |(j : ℝ) - y * 2 ^ 100| ≤ 2 ^ 12) : Encl.Holds ⟨j - 2 ^ 12, j + 2 ^ 12, -100⟩ y := by
  have hunit : y = y * 2 ^ 100 * 2 ^ (-100 : Int) := by rw [mul_assoc]; norm_num
  rw [abs_le] at h
  unfold Encl.Holds
  rw [hunit]
  push_cast
  constructor <;> refine mul_le_mul_of_nonneg_right ?_ (by positivity) <;> linarith

/-- The second quadrant is the mirror of the first. -/
theorem sin_mirror {v : Int} {z : ℝ} (h0 : 0 ≤ v) (h1 : v < 2 ^ 100) (hz : |z * 2 ^ 100 - v| ≤ 1) :
    ∃ z', Real.sin (Real.pi * z) = Real.sin (Real.pi * z') ∧ 0 ≤ (if 2 ^ 99 < v then 2 ^ 100 - v else v) ∧
      (if 2 ^ 99 < v then 2 ^ 100 - v else v) ≤ 2 ^ 99 ∧ |z' * 2 ^ 100 - (if 2 ^ 99 < v then 2 ^ 100 - v else v : Int)| ≤ 1 := by
  split
  · refine ⟨1 - z, ?_, by omega, by omega, ?_⟩
    · rw [mul_sub, mul_one, Real.sin_pi_sub]
    · rw [abs_sub_comm] at hz
      refine le_trans (le_of_eq ?_) hz
      push_cast
      ring_nf
  · exact ⟨z, rfl, by omega, by omega, hz⟩

/-- The value in fixed point of an angle below a half-turn. -/
def sinUnits (v : Int) : Int :=
  let w : Int := if 2 ^ 99 < v then 2 ^ 100 - v else v
  sinGo ((w * piDigits / digitScale) * (w * piDigits / digitScale) / 2 ^ 100) 24 1 (w * piDigits / digitScale) 0

theorem sinUnits_holds {v : Int} {z : ℝ} (h0 : 0 ≤ v) (h1 : v < 2 ^ 100) (hz : |z * 2 ^ 100 - v| ≤ 1) :
    |(sinUnits v : ℝ) - Real.sin (Real.pi * z) * 2 ^ 100| ≤ 2 ^ 12 := by
  obtain ⟨z', hsin, hw0, hw1, hz'⟩ := sin_mirror h0 h1 hz
  rw [hsin]
  exact sinGo_holds hw0 hw1 hz'

theorem sinPiEncl_eq (r : Int) : sinPiEncl r =
    if 2 ^ 100 ≤ r % 2 ^ 101 then ⟨-sinUnits (r % 2 ^ 101 - 2 ^ 100) - 2 ^ 12, -sinUnits (r % 2 ^ 101 - 2 ^ 100) + 2 ^ 12, -100⟩
    else ⟨sinUnits (r % 2 ^ 101) - 2 ^ 12, sinUnits (r % 2 ^ 101) + 2 ^ 12, -100⟩ := by
  by_cases h : (2 : Int) ^ 100 ≤ r % 2 ^ 101 <;> simp only [sinPiEncl, sinUnits, h, if_true, if_false, decide_true, decide_false,
    Bool.false_eq_true]

theorem sinPiEncl_width (r : Int) : (sinPiEncl r).width ≤ 2 ^ (-24 : Int) := by
  have h : ∀ j : Int, Encl.width ⟨j - 2 ^ 12, j + 2 ^ 12, -100⟩ ≤ 2 ^ (-24 : Int) := fun j => by
    rw [Encl.width, show j + 2 ^ 12 - (j - 2 ^ 12) = 2 ^ 13 by ring]
    norm_num
  rw [sinPiEncl_eq]
  split
  · exact h _
  · exact h _

/-- The enclosure of the sine holds it. -/
theorem sinPiEncl_holds {r : Int} {z : ℝ} (h1 : (r : ℝ) ≤ z * 2 ^ 100) (h2 : z * 2 ^ 100 ≤ r + 1) :
    (sinPiEncl r).Holds (Real.sin (Real.pi * z)) := by
  obtain ⟨u, hu⟩ : ∃ u : Int, u = r % (2 ^ 101 : Int) := ⟨_, rfl⟩
  obtain ⟨k, hk⟩ : ∃ k : Int, k = r / (2 ^ 101 : Int) := ⟨_, rfl⟩
  have hr : (r : ℝ) = k * 2 ^ 101 + u := by
    have : r = k * 2 ^ 101 + u := by omega
    exact_mod_cast this
  have hturn : Real.sin (Real.pi * z) = Real.sin (Real.pi * (z - 2 * k)) := by
    rw [mul_sub, show Real.pi * (2 * (k : ℝ)) = k * (2 * Real.pi) by ring, Real.sin_sub_int_mul_two_pi]
  have hz : |(z - 2 * k) * 2 ^ 100 - u| ≤ 1 := by
    rw [abs_le]
    constructor <;> linarith
  rw [hturn, sinPiEncl_eq, ← hu]
  split
  · have hhalf : Real.sin (Real.pi * (z - 2 * k)) = -Real.sin (Real.pi * (z - 2 * k - 1)) := by
      rw [mul_sub _ _ (1 : ℝ), mul_one, Real.sin_sub_pi, neg_neg]
    have h := sinUnits_holds (v := u - 2 ^ 100) (z := z - 2 * k - 1) (by omega) (by omega) (by
      refine le_trans (le_of_eq ?_) hz
      push_cast
      ring_nf)
    refine holds_of_abs_sub_le ?_
    rw [hhalf, Int.cast_neg, neg_mul, ← neg_sub', abs_neg]
    exact h
  · exact holds_of_abs_sub_le (sinUnits_holds (by omega) (by omega) hz)

end Sys2Proof.Machine
end

section
/-! SUPPORT. The enclosures of the logistic function and the hyperbolic tangent (08 R162). -/

namespace Sys2Proof.Machine

variable {n : Bool} {m : Nat} {e lo : Int} {a : Word} {x : Encl} {y : ℝ}

/-! ### Quotients -/

/-- The interval of a quotient of positive values. -/
theorem divEncl_holds {alo ahi blo bhi : Int} {α β : ℝ} (hα0 : 0 ≤ alo) (hα : (alo : ℝ) ≤ α ∧ α ≤ ahi) (hβ0 : 0 < blo)
    (hβ : (blo : ℝ) ≤ β ∧ β ≤ bhi) : (divEncl alo ahi blo bhi).Holds (α / β) := by
  obtain ⟨hα1, hα2⟩ := hα
  obtain ⟨hβ1, hβ2⟩ := hβ
  have hβ0r : (0 : ℝ) < blo := by exact_mod_cast hβ0
  have hα0r : (0 : ℝ) ≤ alo := by exact_mod_cast hα0
  have hβpos := hβ0r.trans_le hβ1
  have hbhi : 0 < bhi := by exact_mod_cast hβpos.trans_le hβ2
  have hlow := (ediv_bounds (alo * 2 ^ 80) (show 0 < bhi.toNat by omega)).1
  have hhigh := (ediv_bounds (ahi * 2 ^ 80) (show 0 < blo.toNat by omega)).2
  have hcast : ∀ j : Int, 0 < j → ((j.toNat : Int) = j ∧ (j.toNat : ℝ) = j) := fun j hj =>
    have h : (j.toNat : Int) = j := by omega
    ⟨h, by exact_mod_cast congrArg (Int.cast (R := ℝ)) h⟩
  rw [(hcast bhi hbhi).1, (hcast bhi hbhi).2] at hlow
  rw [(hcast blo hβ0).1, (hcast blo hβ0).2] at hhigh
  have hunit : α / β = α / β * 2 ^ 80 * 2 ^ (-80 : Int) := by rw [mul_assoc]; norm_num
  have h1 : (alo : ℝ) * 2 ^ 80 / bhi ≤ α / β * 2 ^ 80 := by
    rw [mul_div_right_comm]
    gcongr
    exact hα0r.trans hα1
  have h2 : α / β * 2 ^ 80 ≤ (ahi : ℝ) * 2 ^ 80 / blo := by
    rw [mul_div_right_comm]
    gcongr
    exact hα0r.trans (hα1.trans hα2)
  rw [hunit]
  push_cast at hlow hhigh
  unfold Encl.Holds divEncl
  push_cast
  constructor <;> refine mul_le_mul_of_nonneg_right ?_ (by positivity) <;> norm_num at h1 h2 hlow hhigh ⊢ <;> linarith

/-- The interval of a quotient is narrow where those of its parts are, and the quotient is not small. -/
theorem divEncl_narrow {alo ahi blo bhi : Int} (hα : 0 < alo) (hβ : 0 < blo) (hle : blo ≤ bhi)
    (hratio : ahi * bhi * 2 ^ 30 ≤ alo * blo * (2 ^ 30 + 1)) (hlarge : bhi * 2 ^ 60 ≤ alo * 2 ^ 80) (hord : alo ≤ ahi) :
    (divEncl alo ahi blo bhi).Narrow := by
  obtain ⟨q1, hq1⟩ : ∃ q, q = alo * 2 ^ 80 / bhi := ⟨_, rfl⟩
  obtain ⟨q2, hq2⟩ : ∃ q, q = ahi * 2 ^ 80 / blo := ⟨_, rfl⟩
  have hbhi : 0 < bhi := hβ.trans_le hle
  have h1 : alo * 2 ^ 80 ≤ (q1 + 1) * bhi := hq1 ▸ (Int.lt_ediv_add_one_mul_self _ hbhi).le
  have h2 : q2 * blo ≤ ahi * 2 ^ 80 := hq2 ▸ Int.ediv_mul_le _ hβ.ne'
  have hq : 2 ^ 60 ≤ q1 := by
    rw [hq1, Int.le_ediv_iff_mul_le hbhi, mul_comm]
    exact hlarge
  have hclose : q2 * 2 ^ 30 ≤ (q1 + 1) * (2 ^ 30 + 1) := by
    refine le_of_mul_le_mul_right (a := blo * bhi) ?_ (by positivity)
    calc q2 * 2 ^ 30 * (blo * bhi) = q2 * blo * (bhi * 2 ^ 30) := by ring
      _ ≤ ahi * 2 ^ 80 * (bhi * 2 ^ 30) := by gcongr
      _ = ahi * bhi * 2 ^ 30 * 2 ^ 80 := by ring
      _ ≤ alo * blo * (2 ^ 30 + 1) * 2 ^ 80 := by gcongr
      _ = alo * 2 ^ 80 * (blo * (2 ^ 30 + 1)) := by ring
      _ ≤ (q1 + 1) * bhi * (blo * (2 ^ 30 + 1)) := by gcongr
      _ = _ := by ring
  have hq12 : q1 ≤ q2 := by
    rw [hq1, hq2]
    rw [Int.le_ediv_iff_mul_le hβ]
    calc alo * 2 ^ 80 / bhi * blo ≤ alo * 2 ^ 80 / bhi * bhi := by gcongr
      _ ≤ alo * 2 ^ 80 := Int.ediv_mul_le _ hbhi.ne'
      _ ≤ ahi * 2 ^ 80 := by gcongr
  rw [divEncl, ← hq1, ← hq2]
  refine ⟨.inl (show 0 < q1 - 1 by omega), ?_⟩
  simp only [Encl.least]
  omega

/-! ### The scale -/

/-- A scale at which an interval and one are integers. -/
theorem scale_parts (e : Int) : ∃ one k : Int, (if 0 ≤ e then ((1, 2 ^ e.toNat) : Int × Int) else (2 ^ (-e).toNat, 1)) = (one, k) ∧
    0 < one ∧ (k : ℝ) = one * 2 ^ e := by
  split
  · next h =>
    refine ⟨1, 2 ^ e.toNat, rfl, by decide, ?_⟩
    rw [Int.cast_one, one_mul, Int.cast_pow, Int.cast_ofNat, ← zpow_natCast, Int.toNat_of_nonneg h]
  · next h =>
    refine ⟨2 ^ (-e).toNat, 1, rfl, by positivity, ?_⟩
    rw [Int.cast_one, Int.cast_pow, Int.cast_ofNat, ← zpow_natCast, Int.toNat_of_nonneg (by omega), ← zpow_add₀ (by norm_num)]
    simp

/-- The ends of an interval at such a scale, as reals. -/
theorem Encl.Tight.scaled {E : ℝ} {one k : Int} (ht : x.Tight) (hE : x.Holds E) (hscale : (k : ℝ) = one * 2 ^ x.e) :
    ∃ l h : ℝ, ((x.lo * k : Int) : ℝ) = one * l ∧ ((x.hi * k : Int) : ℝ) = one * h ∧ 0 < l ∧ l ≤ E ∧ E ≤ h ∧
      h ≤ l * (1 + 1 / 2 ^ 50) := by
  obtain ⟨h1, h2⟩ := hE
  obtain ⟨hpos, hwidth⟩ := ht
  have hposr : (0 : ℝ) < x.lo := by exact_mod_cast hpos
  have hunit : (0 : ℝ) < 2 ^ x.e := by positivity
  refine ⟨x.lo * 2 ^ x.e, x.hi * 2 ^ x.e, ?_, ?_, by positivity, h1, h2, ?_⟩
  · rw [Int.cast_mul, hscale]
    ring
  · rw [Int.cast_mul, hscale]
    ring
  · have h : ((x.hi : ℝ) - x.lo) * 2 ^ 50 ≤ x.lo := by exact_mod_cast hwidth
    rw [mul_right_comm]
    gcongr
    linarith

/-- An interval times a power of two. -/
theorem holds_of_holds_mul {lo hi : Int} {y : ℝ} (h : Encl.Holds ⟨lo, hi, -80⟩ (y * 2 ^ 240)) : Encl.Holds ⟨lo, hi, -80 - 240⟩ y := by
  obtain ⟨h1, h2⟩ := h
  have hunit : (2 : ℝ) ^ (-80 : Int) = 2 ^ (-80 - 240 : Int) * 2 ^ 240 := by
    rw [zpow_sub₀ (by norm_num), zpow_ofNat, div_mul_cancel₀ _ (by positivity)]
  rw [hunit, ← mul_assoc] at h1 h2
  exact ⟨le_of_mul_le_mul_right h1 (by positivity), le_of_mul_le_mul_right h2 (by positivity)⟩

/-! ### The logistic function -/

theorem sigmEncl_eq (n : Bool) (m : Nat) (e : Int) : ∃ one k : Int, 0 < one ∧ (k : ℝ) = one * 2 ^ (expEncl (!n) m e).e ∧
    sigmEncl n m e = { divEncl (one * 2 ^ 240) (one * 2 ^ 240) (one + (expEncl (!n) m e).lo * k) (one + (expEncl (!n) m e).hi * k)
      with e := -80 - 240 } := by
  obtain ⟨one, k, hpair, hone, hscale⟩ := scale_parts (expEncl (!n) m e).e
  refine ⟨one, k, hone, hscale, ?_⟩
  by_cases h : 0 ≤ (expEncl (!n) m e).e
  · rw [if_pos h] at hpair
    obtain ⟨rfl, rfl⟩ := Prod.mk.inj hpair
    simp only [sigmEncl, h, if_true, one_mul, divEncl]
  · rw [if_neg h] at hpair
    obtain ⟨rfl, rfl⟩ := Prod.mk.inj hpair
    simp only [sigmEncl, h, if_false, mul_one, divEncl]

/-- A reciprocal at 240 more bits. -/
theorem divEncl_reciprocal {one blo bhi : Int} {l h E : ℝ} (hone : 0 < one) (hblo : (blo : ℝ) = one * (1 + l))
    (hbhi : (bhi : ℝ) = one * (1 + h)) (hl0 : 0 < l) (hl : l ≤ E) (hh : E ≤ h) (hhl : h ≤ l * (1 + 1 / 2 ^ 50))
    (hmax : E ≤ 2 ^ 151) : (divEncl (one * 2 ^ 240) (one * 2 ^ 240) blo bhi).Holds (1 / (1 + E) * 2 ^ 240) ∧
      (divEncl (one * 2 ^ 240) (one * 2 ^ 240) blo bhi).Narrow := by
  have honer : (0 : ℝ) < one := by exact_mod_cast hone
  have hlh := hl.trans hh
  have hblo0 : 0 < blo := by
    have : (0 : ℝ) < blo := by rw [hblo]; positivity
    exact_mod_cast this
  have hle : blo ≤ bhi := by
    have : (blo : ℝ) ≤ bhi := by rw [hblo, hbhi]; gcongr
    exact_mod_cast this
  refine ⟨?_, divEncl_narrow (by positivity) hblo0 hle ?_ ?_ le_rfl⟩
  · have hvalue : 1 / (1 + E) * 2 ^ 240 = one * 2 ^ 240 / (one * (1 + E)) := by
      have : 0 < 1 + E := by linarith
      field_simp
    rw [hvalue]
    exact divEncl_holds (by positivity) ⟨le_of_eq (by norm_num), le_of_eq (by norm_num)⟩ hblo0
      ⟨by rw [hblo]; gcongr, by rw [hbhi]; gcongr⟩
  · have hreal : (bhi : ℝ) * 2 ^ 30 ≤ blo * (2 ^ 30 + 1) := by
      rw [hblo, hbhi, mul_assoc, mul_assoc]
      refine mul_le_mul_of_nonneg_left ?_ honer.le
      norm_num at hhl ⊢
      linarith
    have hint : bhi * 2 ^ 30 ≤ blo * (2 ^ 30 + 1) := by exact_mod_cast hreal
    rw [mul_assoc, mul_assoc (one * 2 ^ 240)]
    gcongr
  · have hreal : (bhi : ℝ) * 2 ^ 60 ≤ one * 2 ^ 240 * 2 ^ 80 := by
      rw [hbhi, mul_assoc, mul_assoc]
      refine mul_le_mul_of_nonneg_left ?_ honer.le
      norm_num at hhl hmax ⊢
      linarith
    exact_mod_cast hreal

theorem sigmEncl_holds (hlo : -104 ≤ dyadic n m e) (hhi : dyadic n m e ≤ 104) :
    (sigmEncl n m e).Holds (1 / (1 + Real.exp (-dyadic n m e))) ∧ (sigmEncl n m e).Narrow := by
  obtain ⟨hE, hT⟩ := expEncl_holds (n := !n) (m := m) (e := e) (by
    rw [dyadic_neg, abs_neg, abs_le]
    constructor <;> linarith)
  obtain ⟨one, k, hone, hscale, hencl⟩ := sigmEncl_eq n m e
  rw [dyadic_neg] at hE
  obtain ⟨l, h, hlo', hhi', hl0, hl, hh, hhl⟩ := hT.scaled hE hscale
  have hmax : Real.exp (-dyadic n m e) ≤ 2 ^ 151 := by
    calc Real.exp (-dyadic n m e) ≤ Real.exp 104 := Real.exp_le_exp.2 (by linarith)
      _ = Real.exp 1 ^ 104 := by rw [← Real.exp_nat_mul]; norm_num
      _ ≤ 2.7182818286 ^ 104 := by gcongr; exact Real.exp_one_lt_d9.le
      _ ≤ 2 ^ 151 := by norm_num
  obtain ⟨hholds, hnarrow⟩ := divEncl_reciprocal (blo := one + (expEncl (!n) m e).lo * k) (bhi := one + (expEncl (!n) m e).hi * k)
    hone (by rw [Int.cast_add, hlo']; ring) (by rw [Int.cast_add, hhi']; ring) hl0 hl hh hhl hmax
  rw [hencl]
  exact ⟨holds_of_holds_mul hholds, hnarrow.side, hnarrow.width⟩

/-! ### The hyperbolic tangent -/

/-- The mirror of an interval at zero. -/
def Encl.mirror (x : Encl) : Encl := ⟨-x.hi, -x.lo, x.e⟩

theorem Encl.Holds.mirror (h : x.Holds y) : x.mirror.Holds (-y) := by
  obtain ⟨h1, h2⟩ := h
  unfold Encl.Holds Encl.mirror
  push_cast
  constructor <;> linarith

theorem Encl.Narrow.mirror (h : x.Narrow) : x.mirror.Narrow := by
  obtain ⟨hside, hwidth⟩ := h
  unfold Encl.least at hwidth
  constructor
  · rcases hside with h | h
    · exact .inr (neg_neg_of_pos h)
    · exact .inl (neg_pos_of_neg h)
  · simp only [Encl.mirror, Encl.least]
    omega

/-- The quotient (E - 1) / (E + 1) of an interval for E, at a scale. -/
def tangentOf (x : Encl) (one k : Int) : Encl := divEncl (x.lo * k - one) (x.hi * k - one) (x.lo * k + one) (x.hi * k + one)

theorem tanhEncl_eq (n : Bool) (m : Nat) (e : Int) : ∃ one k : Int, 0 < one ∧ (k : ℝ) = one * 2 ^ (expEncl false m (e + 1)).e ∧
    tanhEncl n m e = if n then (tangentOf (expEncl false m (e + 1)) one k).mirror
      else tangentOf (expEncl false m (e + 1)) one k := by
  obtain ⟨one, k, hpair, hone, hscale⟩ := scale_parts (expEncl false m (e + 1)).e
  refine ⟨one, k, hone, hscale, ?_⟩
  simp only [tanhEncl, hpair]
  rfl

/-- The quotient of a tangent. -/
theorem divEncl_tangent {one alo ahi blo bhi : Int} {l h E : ℝ} (hone : 0 < one) (halo : (alo : ℝ) = one * (l - 1))
    (hahi : (ahi : ℝ) = one * (h - 1)) (hblo : (blo : ℝ) = one * (l + 1)) (hbhi : (bhi : ℝ) = one * (h + 1)) (hl : l ≤ E) (hh : E ≤ h)
    (hhl : h ≤ l * (1 + 1 / 2 ^ 50)) (hmin : 1 + 1 / 2 ^ 11 ≤ E) : (divEncl alo ahi blo bhi).Holds ((E - 1) / (E + 1)) ∧
      (divEncl alo ahi blo bhi).Narrow := by
  have honer : (0 : ℝ) < one := by exact_mod_cast hone
  have hlh := hl.trans hh
  have hl1 : 1 + 1 / 2 ^ 12 ≤ l := by norm_num at hhl hmin ⊢; linarith
  have hlpos : 0 < l - 1 := by norm_num at hl1; linarith
  have hpos : ∀ {j : Int} {r : ℝ}, (j : ℝ) = one * r → 0 < r → 0 < j := fun hj hr => by
    have := mul_pos honer hr
    rw [← hj] at this
    exact_mod_cast this
  have hmono : ∀ {i j : Int} {r s : ℝ}, (i : ℝ) = one * r → (j : ℝ) = one * s → r ≤ s → i ≤ j := fun hi hj hrs => by
    have := mul_le_mul_of_nonneg_left hrs honer.le
    rw [← hi, ← hj] at this
    exact_mod_cast this
  have halo0 := hpos halo hlpos
  have hblo0 := hpos hblo (by linarith)
  refine ⟨?_, divEncl_narrow halo0 hblo0 (hmono hblo hbhi (by linarith)) ?_ ?_ (hmono halo hahi (by linarith))⟩
  · rw [← mul_div_mul_left (E - 1) (E + 1) honer.ne']
    refine divEncl_holds halo0.le ⟨?_, ?_⟩ hblo0 ⟨?_, ?_⟩
    · rw [halo]; gcongr
    · rw [hahi]; gcongr
    · rw [hblo]; gcongr
    · rw [hbhi]; gcongr
  · have hsq : 1 + 1 / 2 ^ 11 ≤ l * l := by
      calc (1 + 1 / 2 ^ 11 : ℝ) ≤ (1 + 1 / 2 ^ 12) * (1 + 1 / 2 ^ 12) := by norm_num
        _ ≤ l * l := by gcongr
    have hhsq : h * h ≤ l * l * (1 + 1 / 2 ^ 48) := by
      calc h * h ≤ (l * (1 + 1 / 2 ^ 50)) * (l * (1 + 1 / 2 ^ 50)) := by gcongr; linarith
        _ = l * l * ((1 + 1 / 2 ^ 50) * (1 + 1 / 2 ^ 50)) := by ring
        _ ≤ l * l * (1 + 1 / 2 ^ 48) := by gcongr; norm_num
    have hreal : (ahi : ℝ) * bhi * 2 ^ 30 ≤ alo * blo * (2 ^ 30 + 1) := by
      rw [halo, hahi, hblo, hbhi]
      have : (h * h - 1) * 2 ^ 30 ≤ (l * l - 1) * (2 ^ 30 + 1) := by norm_num at hsq hhsq ⊢; linarith
      calc one * (h - 1) * (one * (h + 1)) * 2 ^ 30 = one * one * ((h * h - 1) * 2 ^ 30) := by ring
        _ ≤ one * one * ((l * l - 1) * (2 ^ 30 + 1)) := by gcongr
        _ = _ := by ring
    exact_mod_cast hreal
  · have hreal : (bhi : ℝ) * 2 ^ 60 ≤ alo * 2 ^ 80 := by
      rw [halo, hbhi, mul_assoc, mul_assoc]
      refine mul_le_mul_of_nonneg_left ?_ honer.le
      norm_num at hhl hl1 ⊢
      linarith
    exact_mod_cast hreal

/-- The tangent by the exponential of twice its argument. -/
theorem tanh_eq_exp (z : ℝ) : Real.tanh z = (Real.exp (2 * z) - 1) / (Real.exp (2 * z) + 1) := by
  have hexp : Real.exp (2 * z) = Real.exp z * Real.exp z := by rw [← Real.exp_add]; ring_nf
  have hpos := Real.exp_pos z
  rw [Real.tanh_eq_sinh_div_cosh, Real.sinh_eq, Real.cosh_eq, hexp, Real.exp_neg]
  field_simp

theorem tanhEncl_holds (hlo : (1 : ℝ) / 2 ^ 12 ≤ m * 2 ^ e) (hhi : (m : ℝ) * 2 ^ e ≤ 64) :
    (tanhEncl n m e).Holds (Real.tanh (dyadic n m e)) ∧ (tanhEncl n m e).Narrow := by
  have hdouble : dyadic false m (e + 1) = 2 * dyadic false m e := by
    rw [dyadic_false, dyadic_false, zpow_add_one₀ (by norm_num)]
    ring
  have hvalue := dyadic_false m e
  obtain ⟨hE, hT⟩ := expEncl_holds (n := false) (m := m) (e := e + 1) (by
    rw [hdouble, hvalue, abs_of_nonneg (by positivity)]
    linarith)
  rw [hdouble] at hE
  obtain ⟨one, k, hone, hscale, hencl⟩ := tanhEncl_eq n m e
  obtain ⟨l, h, hlo', hhi', hl0, hl, hh, hhl⟩ := hT.scaled hE hscale
  have hmin : 1 + 1 / 2 ^ 11 ≤ Real.exp (2 * dyadic false m e) := by
    have := Real.add_one_le_exp (2 * dyadic false m e)
    rw [hvalue] at this ⊢
    norm_num at hlo ⊢
    linarith
  have hquot : (tangentOf (expEncl false m (e + 1)) one k).Holds _ ∧ (tangentOf (expEncl false m (e + 1)) one k).Narrow :=
    divEncl_tangent hone (by rw [Int.cast_sub, hlo', mul_sub_one]) (by rw [Int.cast_sub, hhi', mul_sub_one])
      (by rw [Int.cast_add, hlo', mul_add_one]) (by rw [Int.cast_add, hhi', mul_add_one]) hl hh hhl hmin
  obtain ⟨hholds, hnarrow⟩ := hquot
  rw [← tanh_eq_exp] at hholds
  rw [hencl]
  cases n
  · exact ⟨hholds, hnarrow⟩
  · have hneg : dyadic true m e = -dyadic false m e := by rw [← dyadic_neg, Bool.not_false]
    rw [hneg, Real.tanh_neg]
    exact ⟨hholds.mirror, hnarrow.mirror⟩

end Sys2Proof.Machine
end

section
/-! PROOF of O16. Each function: its exact points, the ends of its range, and the value chosen by its enclosure. -/

namespace Sys2Proof.Machine

variable {n : Bool} {m : Nat} {e lo : Int} {a : Word} {x : Encl} {y : ℝ}

theorem ulp_pos (y : ℝ) : (0 : ℝ) < 2 * 2 ^ ulpOf y := by positivity

/-- Two units are more than 2^-23 of a value. -/
theorem le_two_ulps (y : ℝ) : |y| / 2 ^ 23 ≤ 2 * 2 ^ ulpOf y := by
  have h := lt_two_zpow_log |y|
  rw [zpow_add_one₀ (by norm_num)] at h
  calc |y| / 2 ^ 23 ≤ 2 ^ Int.log 2 |y| * 2 / 2 ^ 23 := by gcongr
    _ = 2 * 2 ^ (Int.log 2 |y| - 23) := by
        rw [zpow_sub₀ (by norm_num)]
        norm_num
        ring
    _ ≤ 2 * 2 ^ ulpOf y := by
        gcongr
        · norm_num
        · unfold ulpOf
          omega

/-- The value that a narrow interval gives, within two units. -/
theorem near_chosen_two {fn : Nat} (hx : x.Holds y ∧ x.Narrow) (hmax : |y| ≤ 2 ^ (126 : Int)) :
    Near (chosen fn a x 2 (ulpExp x) false) y false (2 * 2 ^ ulpOf y) :=
  near_chosen_ulp_of_le hx.2 hx.1 hmax (by decide)

/-! ### The reciprocal root -/

theorem rsqValue_chosen (h : f32 a = .fin false m e) (hm : m ≠ 0) (hpow : ∀ i : Int, (m : ℝ) * 2 ^ e ≠ 2 ^ (2 * i)) :
    rsqValue a = chosen 1 a (rsqEncl m e) 1 (ulpExp (rsqEncl m e)) true := by
  cases hp : pow2? m e with
  | none => simp [rsqValue, h, hm, hp]
  | some j =>
    have hodd : j % 2 ≠ 0 := fun heven =>
      hpow (j / 2) (by rw [(pow2?_eq_some hm).1 hp, show 2 * (j / 2) = j by omega])
    simp [rsqValue, h, hm, hp, hodd]

theorem near_rsqValue (h : f32 a = .fin false m e) (hm : m ≠ 0) :
    Near (rsqValue a) (1 / √((m : ℝ) * 2 ^ e)) true (2 ^ ulpOf (1 / √((m : ℝ) * 2 ^ e))) := by
  by_cases hpow : ∃ i : Int, (m : ℝ) * 2 ^ e = 2 ^ (2 * i)
  · obtain ⟨i, hi⟩ := hpow
    rw [rsqValue_even_pow h hm hi]
    refine near_of_eq ?_ (by positivity)
    rw [dyadic_false, hi, mul_comm 2 i, zpow_mul, zpow_ofNat, Real.sqrt_sq (by positivity)]
    simp
  · rw [rsqValue_chosen h hm (not_exists.1 hpow)]
    obtain ⟨hholds, hnarrow⟩ := rsqEncl_holds (e := e) hm
    have hsmall : (2 : ℝ) ^ (2 * (-75) : Int) ≤ m * 2 ^ e := by
      obtain ⟨-, he, -, -⟩ := f32_range h
      calc (2 : ℝ) ^ (2 * (-75) : Int) ≤ 1 * 2 ^ e := by
            rw [one_mul]
            exact zpow_le_zpow_right₀ (by norm_num) (by omega)
        _ ≤ m * 2 ^ e := by gcongr; exact_mod_cast Nat.pos_of_ne_zero hm
    have hroot : (2 : ℝ) ^ (-75 : Int) ≤ √(m * 2 ^ e) := by
      refine Real.le_sqrt_of_sq_le (le_trans (le_of_eq ?_) hsmall)
      rw [mul_comm, zpow_mul, zpow_ofNat]
    have hmax : |1 / √((m : ℝ) * 2 ^ e)| ≤ 2 ^ (126 : Int) := by
      rw [abs_of_nonneg (by positivity)]
      calc 1 / √((m : ℝ) * 2 ^ e) ≤ 1 / 2 ^ (-75 : Int) := by gcongr
        _ ≤ 2 ^ (126 : Int) := by norm_num
    have hnear := near_chosen_ulp_of_le (a := a) (fn := 1) (strict := true) hnarrow hholds hmax le_rfl
    rwa [Nat.cast_one, one_mul] at hnear

/-! ### The power of two -/

/-- A finite value below 128 is below it by at least 2^-17. -/
theorem lt_128_margin (h : f32 a = .fin n m e) (hx : dyadic n m e < 128) : dyadic n m e ≤ 128 - 1 / 2 ^ 17 := by
  obtain ⟨hm24, -, -, -⟩ := f32_range h
  rcases n with _ | _
  · rw [dyadic_false] at hx ⊢
    by_cases he : e < -17
    · have hm : (m : ℝ) ≤ 2 ^ 24 := by exact_mod_cast hm24.le
      calc (m : ℝ) * 2 ^ e ≤ 2 ^ 24 * 2 ^ (-18 : Int) := by gcongr; norm_num; omega
        _ ≤ 128 - 1 / 2 ^ 17 := by norm_num
    · have hunit : (2 : ℝ) ^ e = ((2 ^ (e + 17).toNat : Nat) : ℝ) * 2 ^ (-17 : Int) := by
        have := two_zpow_split (show (-17 : Int) ≤ e by omega)
        rwa [show e - -17 = e + 17 by omega] at this
      rw [hunit, ← mul_assoc, ← Nat.cast_mul] at hx ⊢
      have hlt : m * 2 ^ (e + 17).toNat < 2 ^ 24 := by
        have : ((m * 2 ^ (e + 17).toNat : Nat) : ℝ) < 2 ^ 24 := by norm_num at hx ⊢; linarith
        exact_mod_cast this
      have hle : ((m * 2 ^ (e + 17).toNat : Nat) : ℝ) ≤ ((2 ^ 24 - 1 : Nat) : ℝ) := by exact_mod_cast Nat.le_pred_of_lt hlt
      calc ((m * 2 ^ (e + 17).toNat : Nat) : ℝ) * 2 ^ (-17 : Int) ≤ ((2 ^ 24 - 1 : Nat) : ℝ) * 2 ^ (-17 : Int) := by gcongr
        _ ≤ 128 - 1 / 2 ^ 17 := by norm_num
  · have : (0 : ℝ) ≤ m * 2 ^ e := by positivity
    rw [dyadic_true]
    norm_num
    linarith

/-- The powers of two of finite values below 128 lie below the largest FP32 value, with some margin. -/
theorem two_rpow_margin (h : f32 a = .fin n m e) (hx : dyadic n m e < 128) :
    (2 : ℝ) ^ dyadic n m e * (1 + 1 / 2 ^ 26) ≤ largest32 := by
  have hmargin := lt_128_margin h hx
  have hroot : 1 + 1 / 2 ^ 18 ≤ (2 : ℝ) ^ (1 / 2 ^ 17 : ℝ) := by
    have hlog := Real.log_two_gt_d9
    have hexp := Real.add_one_le_exp (Real.log 2 * (1 / 2 ^ 17))
    rw [Real.rpow_def_of_pos (by norm_num)]
    norm_num at hexp ⊢
    linarith
  have hpos := Real.rpow_pos_of_pos (show (0 : ℝ) < 2 by norm_num) (dyadic n m e)
  have hprod : (2 : ℝ) ^ dyadic n m e * (1 + 1 / 2 ^ 18) ≤ 2 ^ (128 : Int) := by
    calc (2 : ℝ) ^ dyadic n m e * (1 + 1 / 2 ^ 18) ≤ 2 ^ dyadic n m e * 2 ^ (1 / 2 ^ 17 : ℝ) := by gcongr
      _ = 2 ^ (dyadic n m e + 1 / 2 ^ 17) := (Real.rpow_add (by norm_num) _ _).symm
      _ ≤ 2 ^ ((128 : Int) : ℝ) := Real.rpow_le_rpow_of_exponent_le (by norm_num) (by push_cast; linarith)
      _ = 2 ^ (128 : Int) := Real.rpow_intCast _ _
  rw [largest32]
  norm_num at hprod ⊢
  linarith

theorem exp2Value_chosen (h : f32 a = .fin n m e) (h1 : -150 < dyadic n m e) (h2 : dyadic n m e < 128)
    (hint : ∀ j : Int, dyadic n m e ≠ j) :
    exp2Value a = chosen 3 a (exp2Encl (fixedAt 64 n m e)) 2 (ulpExp (exp2Encl (fixedAt 64 n m e))) false := by
  have hnone := intOf?_eq_none.2 hint
  have hhigh : ¬128 ≤ fixedAt 0 n m e := by
    rw [fixedAt_zero_eq_floor, Int.le_floor, not_le]
    exact_mod_cast h2
  have hlow : ¬(fixedAt 0 n m e < -150 ∨ fixedAt 0 n m e = -150 ∧ (none : Option Int).isSome = true) := by
    have : -150 ≤ fixedAt 0 n m e := by
      rw [fixedAt_zero_eq_floor, Int.le_floor]
      exact_mod_cast h1.le
    simp
    omega
  simp only [exp2Value, h, hnone, if_neg hhigh, if_neg hlow]

theorem near_exp2Value (h : f32 a = .fin n m e) (h1 : -150 < dyadic n m e) (h2 : dyadic n m e < 128) :
    Near (exp2Value a) (2 ^ dyadic n m e) false (2 * 2 ^ ulpOf (2 ^ dyadic n m e)) := by
  by_cases hint : ∃ j : Int, dyadic n m e = j
  · obtain ⟨j, hj⟩ := hint
    rw [hj] at h1 h2
    rw [exp2Value_int h hj (by have : (-150 : Int) < j := (by exact_mod_cast h1); omega)
      (by have : j < (128 : Int) := (by exact_mod_cast h2); omega)]
    refine near_of_eq ?_ (ulp_pos _)
    rw [hj, Real.rpow_intCast, dyadic_false, Nat.cast_one, one_mul]
  · rw [exp2Value_chosen h h1 h2 (not_exists.1 hint)]
    have hfloor := Int.floor_le (dyadic n m e * 2 ^ 64)
    have hceil := Int.lt_floor_add_one (dyadic n m e * 2 ^ 64)
    rw [← fixedAt_eq_floor] at hfloor hceil
    obtain ⟨hholds, htight⟩ := exp2Encl_holds (X := fixedAt 64 n m e) (z := dyadic n m e) (by linarith) (by linarith)
    have hnarrow := htight.narrow hholds.le
    refine near_chosen_ulp hnarrow hholds ((abs_middle_le hnarrow hholds).trans ?_) (by decide)
    rw [abs_of_pos (Real.rpow_pos_of_pos (by norm_num) _)]
    exact two_rpow_margin h h2

/-! ### The logarithm -/

/-- The binary exponent of a value tells whether it lies in [1/2, 2). -/
theorem exponent_iff (hm : m ≠ 0) : ((Nat.log2 m : Int) + e = 0 ∨ (Nat.log2 m : Int) + e = -1) ↔
    (1 / 2 ≤ (m : ℝ) * 2 ^ e ∧ (m : ℝ) * 2 ^ e < 2) := by
  obtain ⟨hlo, hhi⟩ := dyadic_binade (n := false) (e := e) hm
  rw [abs_dyadic] at hlo hhi
  constructor
  · rintro (ht | ht) <;> rw [ht] at hlo hhi <;> norm_num at hlo hhi ⊢ <;> constructor <;> linarith
  · rintro ⟨h1, h2⟩
    have hlt : (Nat.log2 m : Int) + e < 1 := by
      refine (zpow_lt_zpow_iff_right₀ (by norm_num : (1 : ℝ) < 2)).1 (hlo.trans_lt ?_)
      rwa [zpow_one]
    have hgt : -1 < (Nat.log2 m : Int) + e + 1 := by
      refine (zpow_lt_zpow_iff_right₀ (by norm_num : (1 : ℝ) < 2)).1 (lt_of_le_of_lt ?_ hhi)
      norm_num at h1 ⊢
      exact h1
    omega

theorem log2Value_chosen (h : f32 a = .fin false m e) (hm : m ≠ 0) (hpow : ∀ j : Int, (m : ℝ) * 2 ^ e ≠ 2 ^ j) : log2Value a =
    if (Nat.log2 m : Int) + e = 0 ∨ (Nat.log2 m : Int) + e = -1 then chosen 4 a (log2Encl m e) 1 (-22) false
    else chosen 4 a (log2Encl m e) 2 (ulpExp (log2Encl m e)) false := by
  have hnone : pow2? m e = none := Option.eq_none_iff_forall_ne_some.2 fun j hj => hpow j ((pow2?_eq_some hm).1 hj)
  simp [log2Value, h, hm, hnone]

/-- The logarithm of a power of two is exact. -/
theorem near_log2Value_pow {b : ℝ} (h : f32 a = .fin false m e) (hm : m ≠ 0) (hpow : ∃ j : Int, (m : ℝ) * 2 ^ e = 2 ^ j) (hb : 0 < b) :
    Near (log2Value a) (Real.logb 2 ((m : ℝ) * 2 ^ e)) false b := by
  obtain ⟨j, hj⟩ := hpow
  rw [log2Value_pow h hm hj]
  refine near_of_eq ?_ hb
  rw [dyadic_of_int, hj, ← Real.rpow_intCast 2 j, Real.logb_rpow (by norm_num) (by norm_num), zpow_zero, mul_one]

theorem near_log2Value_unit (h : f32 a = .fin false m e) (hm : m ≠ 0) (h1 : 1 / 2 ≤ (m : ℝ) * 2 ^ e) (h2 : (m : ℝ) * 2 ^ e < 2) :
    Near (log2Value a) (Real.logb 2 ((m : ℝ) * 2 ^ e)) false (1 / 2 ^ 22) := by
  by_cases hpow : ∃ j : Int, (m : ℝ) * 2 ^ e = 2 ^ j
  · exact near_log2Value_pow h hm hpow (by positivity)
  · have hpos : (0 : ℝ) < m * 2 ^ e := by linarith
    obtain ⟨hholds, v, hv, -, -⟩ := log2Encl_holds (e := e) hm
    rw [log2Value_chosen h hm (not_exists.1 hpow), if_pos ((exponent_iff hm).2 ⟨h1, h2⟩)]
    refine near_chosen_fixed hholds (abs_le.2 ⟨?_, ?_⟩) ?_
    · rw [Real.le_logb_iff_rpow_le (by norm_num) hpos, Real.rpow_neg_one]
      linarith
    · rw [Real.logb_le_iff_le_rpow (by norm_num) hpos, Real.rpow_one]
      exact h2.le
    · rw [hv, Encl.width, show v + 4 - (v - 4) = 8 by ring]
      norm_num

theorem near_log2Value_far (h : f32 a = .fin false m e) (hm : m ≠ 0) (hfar : (m : ℝ) * 2 ^ e < 1 / 2 ∨ 2 ≤ (m : ℝ) * 2 ^ e) :
    Near (log2Value a) (Real.logb 2 ((m : ℝ) * 2 ^ e)) false (2 * 2 ^ ulpOf (Real.logb 2 ((m : ℝ) * 2 ^ e))) := by
  by_cases hpow : ∃ j : Int, (m : ℝ) * 2 ^ e = 2 ^ j
  · exact near_log2Value_pow h hm hpow (ulp_pos _)
  · have hout : ¬((Nat.log2 m : Int) + e = 0 ∨ (Nat.log2 m : Int) + e = -1) := by
      rw [exponent_iff hm]
      rintro ⟨h1, h2⟩
      rcases hfar with h' | h' <;> linarith
    obtain ⟨hm24, he1, he2, -⟩ := f32_range h
    have hlog : Nat.log2 m < 24 := (Nat.log2_lt hm).2 hm24
    obtain ⟨hholds, v, hv, hv1, hv2⟩ := log2Encl_holds (e := e) hm
    rw [log2Value_chosen h hm (not_exists.1 hpow), if_neg hout]
    refine near_chosen_two ⟨hholds, ?_⟩ ?_
    · rw [hv]
      refine ⟨?_, ?_⟩ <;> simp only [Encl.least] <;> omega
    · rw [hv] at hholds
      obtain ⟨hl, hh⟩ := hholds
      have hvlo : -(2 ^ 70 : ℝ) ≤ ((v - 4 : Int) : ℝ) := by exact_mod_cast show -(2 ^ 70 : Int) ≤ v - 4 by omega
      have hvhi : ((v + 4 : Int) : ℝ) ≤ 2 ^ 70 := by exact_mod_cast show v + 4 ≤ (2 ^ 70 : Int) by omega
      norm_num at hl hh hvlo hvhi ⊢
      rw [abs_le]
      constructor <;> linarith

/-! ### The sine and the cosine -/

theorem dyadic_parityNum (k : Int) : parityNum k = .fin (k % 2 == 1) 1 0 ∧ dyadic (k % 2 == 1) 1 0 = Real.cos (k * Real.pi) := by
  refine ⟨rfl, ?_⟩
  rw [Real.cos_int_mul_pi]
  rcases Int.even_or_odd k with hk | hk
  · rw [hk.neg_one_zpow, Int.even_iff.1 hk]
    simp [dyadic]
  · rw [hk.neg_one_zpow, Int.odd_iff.1 hk]
    simp [dyadic]

theorem near_parityNum {k : Int} {b : ℝ} (h : Real.cos (k * Real.pi) = y) (hb : 0 < b) : Near (parityNum k) y false b := by
  obtain ⟨hk, hvalue⟩ := dyadic_parityNum k
  rw [hk]
  exact near_of_eq (hvalue.trans h) hb

/-- A half is an integer and a half. -/
theorem isHalf_value (hnone : intOf? n m e = none) (hhalf : isHalf n m e = true) : dyadic n m e = (fixedAt 0 n m e : ℝ) + 1 / 2 := by
  have hsome : (intOf? n m (e + 1)).isSome = true := by
    simp only [isHalf, hnone, Option.isNone_none, Bool.true_and] at hhalf
    exact hhalf
  obtain ⟨j, hj⟩ := intOf?_isSome.1 hsome
  have htwice : dyadic n m e * 2 = j := by
    rw [← hj, dyadic, dyadic, zpow_add_one₀ (by norm_num), ← mul_assoc]
  have hnot := intOf?_eq_none.1 hnone
  obtain ⟨k, rfl | rfl⟩ := Int.even_or_odd' j
  · refine absurd ?_ (hnot k)
    push_cast at htwice
    linarith
  · have hvalue : dyadic n m e = k + 1 / 2 := by
      push_cast at htwice
      linarith
    have hfloor : ⌊(k : ℝ) + 1 / 2⌋ = k := by
      rw [Int.floor_eq_iff]
      constructor <;> linarith
    rw [fixedAt_zero_eq_floor, hvalue, hfloor]

theorem near_sinValue (h : f32 a = .fin n m e) : Near (sinValue a) (Real.sin (Real.pi * dyadic n m e)) false (1 / 2 ^ 22) := by
  cases hint : intOf? n m e with
  | some j =>
    rw [sinValue_int h hint]
    refine near_of_eq ?_ (by positivity)
    rw [dyadic_zero, intOf?_eq_some.1 hint, mul_comm, Real.sin_int_mul_pi]
  | none =>
    by_cases hhalf : isHalf n m e = true
    · rw [sinValue_half h hint hhalf]
      refine near_parityNum ?_ (by positivity)
      rw [isHalf_value hint hhalf, mul_add, mul_one_div, Real.sin_add_pi_div_two, mul_comm]
    · have hchosen : sinValue a = chosen 5 a (sinPiEncl (fixedAt 100 n m e)) 1 (-22) false := by simp [sinValue, h, hint, hhalf]
      rw [hchosen, fixedAt_eq_floor]
      exact near_chosen_fixed (sinPiEncl_holds (Int.floor_le _) (Int.lt_floor_add_one _).le) (Real.abs_sin_le_one _) (sinPiEncl_width _)

theorem near_cosValue (h : f32 a = .fin n m e) : Near (cosValue a) (Real.cos (Real.pi * dyadic n m e)) false (1 / 2 ^ 22) := by
  cases hint : intOf? n m e with
  | some j =>
    rw [cosValue_int h hint]
    refine near_parityNum ?_ (by positivity)
    rw [intOf?_eq_some.1 hint, mul_comm]
  | none =>
    by_cases hhalf : isHalf n m e = true
    · rw [cosValue_half h hint hhalf]
      refine near_of_eq ?_ (by positivity)
      rw [dyadic_zero, isHalf_value hint hhalf, mul_add, mul_one_div, Real.cos_add_pi_div_two, mul_comm, Real.sin_int_mul_pi, neg_zero]
    · have hchosen : cosValue a = chosen 6 a (sinPiEncl (fixedAt 100 n m e + 2 ^ 99)) 1 (-22) false := by
        simp [cosValue, h, hint, hhalf]
      have hshift : Real.cos (Real.pi * dyadic n m e) = Real.sin (Real.pi * (dyadic n m e + 1 / 2)) := by
        rw [mul_add, mul_one_div, Real.sin_add_pi_div_two]
      have hfloor := Int.floor_le (dyadic n m e * 2 ^ 100)
      have hceil := Int.lt_floor_add_one (dyadic n m e * 2 ^ 100)
      rw [← fixedAt_eq_floor] at hfloor hceil
      rw [hchosen, hshift]
      refine near_chosen_fixed (sinPiEncl_holds ?_ ?_) (Real.abs_sin_le_one _) (sinPiEncl_width _) <;> push_cast <;> linarith

/-! ### The hyperbolic tangent -/

/-- The value of an odd function at a signed operand. -/
theorem tanh_signed (n : Bool) (m : Nat) (e : Int) : Real.tanh (dyadic n m e) = (if n then -1 else 1) * Real.tanh (m * 2 ^ e) := by
  cases n
  · rw [dyadic_false]
    simp
  · rw [dyadic_true, Real.tanh_neg]
    simp

/-- A signed value is as near to a signed one as their magnitudes are. -/
theorem near_signed {m' : Nat} {e' : Int} {z b : ℝ} (h : |(m' : ℝ) * 2 ^ e' - z| ≤ b) :
    Near (.fin n m' e') ((if n then -1 else 1) * z) false b := by
  refine ⟨n, m', e', rfl, le_trans (le_of_eq ?_) h⟩
  cases n
  · simp
  · simp only [if_true]
    rw [abs_sub_comm]
    congr 1
    ring

theorem abs_signed (n : Bool) (z : ℝ) : |(if n then -1 else 1) * z| = |z| := by
  cases n <;> simp

theorem ulpOf_congr {y z : ℝ} (h : |y| = |z|) : ulpOf y = ulpOf z := by rw [ulpOf, ulpOf, h]

/-- From 10 on the tangent is 1, but for less than 2^-26. -/
theorem tanh_large {z : ℝ} (hz : 10 ≤ z) : |1 - Real.tanh z| ≤ 2 * 2 ^ ulpOf (Real.tanh z) := by
  have hexp : (2 : ℝ) ^ 27 ≤ Real.exp (2 * z) := by
    calc (2 : ℝ) ^ 27 ≤ 2.7182818283 ^ 20 := by norm_num
      _ ≤ Real.exp 1 ^ 20 := by gcongr; exact Real.exp_one_gt_d9.le
      _ = Real.exp 20 := by rw [← Real.exp_nat_mul]; norm_num
      _ ≤ Real.exp (2 * z) := Real.exp_le_exp.2 (by linarith)
  have hrest : 1 - Real.tanh z = 2 / (Real.exp (2 * z) + 1) := by
    have : 0 < Real.exp (2 * z) + 1 := by positivity
    rw [tanh_eq_exp]
    field_simp
    ring
  have hsmall : 1 - Real.tanh z ≤ 1 / 2 ^ 26 := by
    rw [hrest]
    calc 2 / (Real.exp (2 * z) + 1) ≤ 2 / 2 ^ 27 := by gcongr; linarith
      _ = 1 / 2 ^ 26 := by norm_num
  have hpos : 0 ≤ 1 - Real.tanh z := by rw [hrest]; positivity
  have hhalf : 1 / 2 ≤ Real.tanh z := by norm_num at hsmall; linarith
  have hulps := le_two_ulps (Real.tanh z)
  rw [abs_of_nonneg (by linarith)] at hulps
  rw [abs_of_nonneg hpos]
  norm_num at hsmall hulps ⊢
  linarith

/-- Near zero the tangent is its argument, but for less than 1.9 of its cube. -/
theorem abs_tanh_sub_self_le {z : ℝ} (h0 : 0 ≤ z) (h1 : z ≤ 1 / 2 ^ 12) : |z - Real.tanh z| ≤ 1.9 * z ^ 3 := by
  obtain ⟨δ, hδ⟩ : ∃ δ, δ = Real.exp (2 * z) - (1 + 2 * z + 2 * z ^ 2) := ⟨_, rfl⟩
  have hexp : Real.exp (2 * z) = 1 + 2 * z + 2 * z ^ 2 + δ := by rw [hδ]; ring
  have hbound : |δ| ≤ 16 / 9 * z ^ 3 := by
    have h := Real.exp_bound (x := 2 * z) (n := 3) (by rw [abs_of_nonneg (by positivity)]; norm_num at h1; linarith) (by decide)
    have hsum : ∑ i ∈ Finset.range 3, (2 * z) ^ i / (i.factorial : ℝ) = 1 + 2 * z + 2 * z ^ 2 := by
      norm_num [Finset.sum_range_succ, Nat.factorial]
      ring
    rw [hsum, ← hδ, abs_of_nonneg (by positivity : 0 ≤ 2 * z)] at h
    refine h.trans (le_of_eq ?_)
    norm_num [Nat.factorial]
    ring
  have hden : 2 ≤ Real.exp (2 * z) + 1 := by
    have := Real.one_le_exp (show 0 ≤ 2 * z by positivity)
    linarith
  have hquot : z - Real.tanh z = (2 * z ^ 3 + z * δ - δ) / (Real.exp (2 * z) + 1) := by
    rw [tanh_eq_exp, eq_div_iff (by linarith), sub_mul, div_mul_cancel₀ _ (by linarith), hexp]
    ring
  have hnum : |2 * z ^ 3 + z * δ - δ| ≤ 3.8 * z ^ 3 := by
    have hzδ : |z * δ| ≤ 1 / 2 ^ 12 * (16 / 9 * z ^ 3) := by
      rw [abs_mul, abs_of_nonneg h0]
      gcongr
    have hcube : 0 ≤ z ^ 3 := by positivity
    rw [abs_le] at hzδ hbound ⊢
    norm_num at hzδ
    constructor <;> linarith
  rw [hquot, abs_div, abs_of_pos (show 0 < Real.exp (2 * z) + 1 by linarith), div_le_iff₀ (by linarith)]
  have : 1.9 * z ^ 3 * 2 ≤ 1.9 * z ^ 3 * (Real.exp (2 * z) + 1) := by gcongr
  linarith

theorem tanh_small {z : ℝ} (h0 : 0 < z) (h1 : z ≤ 1 / 2 ^ 12) : |z - Real.tanh z| ≤ 2 * 2 ^ ulpOf (Real.tanh z) := by
  have hbound := abs_tanh_sub_self_le h0.le h1
  have hcube : z ^ 3 ≤ z * (1 / 2 ^ 24) := by
    calc z ^ 3 = z * (z * z) := by ring
      _ ≤ z * (1 / 2 ^ 12 * (1 / 2 ^ 12)) := by gcongr
      _ = z * (1 / 2 ^ 24) := by norm_num
  have hlow : z * 0.99 ≤ Real.tanh z := by
    rw [abs_le] at hbound
    norm_num at hcube
    linarith
  have hpos : 0 < Real.tanh z := lt_of_lt_of_le (by positivity) hlow
  have hulps := le_two_ulps (Real.tanh z)
  rw [abs_of_pos hpos] at hulps
  refine hbound.trans (le_trans ?_ hulps)
  norm_num at hcube ⊢
  linarith

theorem tanhValue_chosen (h : f32 a = .fin n m e) (h1 : (1 : ℝ) / 2 ^ 12 ≤ m * 2 ^ e) (h2 : (m : ℝ) * 2 ^ e < 10) :
    tanhValue a = chosen 7 a (tanhEncl n m e) 2 (ulpExp (tanhEncl n m e)) false := by
  have hlarge : (Num.fin false m e).lt (.fin false 10 0) = true := by
    rw [lt_fin_iff, dyadic_false, dyadic_false]
    norm_num
    exact h2
  have hsmall : (Num.fin false m e).lt (.fin false 1 (-12)) = false := by
    rw [lt_fin_eq_false, dyadic_false, dyadic_false]
    norm_num at h1 ⊢
    exact h1
  simp [tanhValue, h, atLeast, hlarge, hsmall]

theorem near_tanhValue (h : f32 a = .fin n m e) (hm : m ≠ 0) :
    Near (tanhValue a) (Real.tanh (dyadic n m e)) false (2 * 2 ^ ulpOf (Real.tanh (dyadic n m e))) := by
  have hpos : (0 : ℝ) < m * 2 ^ e := by
    have := Nat.pos_of_ne_zero hm
    positivity
  have hulp : ulpOf (Real.tanh (dyadic n m e)) = ulpOf (Real.tanh (m * 2 ^ e)) := ulpOf_congr (by rw [tanh_signed, abs_signed])
  by_cases hlarge : (10 : ℝ) ≤ m * 2 ^ e
  · rw [tanhValue_large h (by rw [lt_fin_eq_false, dyadic_false, dyadic_false]; norm_num; exact hlarge), hulp, tanh_signed]
    refine near_signed ?_
    rw [Nat.cast_one, one_mul, zpow_zero]
    exact tanh_large hlarge
  · by_cases hsmall : (m : ℝ) * 2 ^ e < 1 / 2 ^ 12
    · rw [tanhValue_small h (by rw [lt_fin_iff, dyadic_false, dyadic_false]; norm_num at hsmall ⊢; exact hsmall), hulp, tanh_signed]
      exact near_signed (tanh_small hpos hsmall.le)
    · rw [tanhValue_chosen h (not_lt.1 hsmall) (not_le.1 hlarge)]
      refine near_chosen_two (tanhEncl_holds (not_lt.1 hsmall) (by linarith)) ?_
      have h1 := Real.tanh_lt_one (dyadic n m e)
      have h2 := Real.neg_one_lt_tanh (dyadic n m e)
      rw [abs_le]
      constructor <;> norm_num <;> linarith

/-! ### The logistic function -/

/-- The logistic function. -/
noncomputable def logistic (z : ℝ) : ℝ := 1 / (1 + Real.exp (-z))

theorem logistic_pos (z : ℝ) : 0 < logistic z := by
  unfold logistic
  positivity

theorem logistic_le_one (z : ℝ) : logistic z ≤ 1 := by
  have := Real.exp_pos (-z)
  rw [logistic, div_le_one (by positivity)]
  linarith

/-- From 18 on the function is 1, but for less than 2^-25. -/
theorem logistic_large {z : ℝ} (hz : 18 ≤ z) : |1 - logistic z| ≤ 2 * 2 ^ ulpOf (logistic z) := by
  have hexp : Real.exp (-z) ≤ 1 / 2 ^ 25 := by
    have : (2 : ℝ) ^ 25 ≤ Real.exp z := by
      calc (2 : ℝ) ^ 25 ≤ 2.7182818283 ^ 18 := by norm_num
        _ ≤ Real.exp 1 ^ 18 := by gcongr; exact Real.exp_one_gt_d9.le
        _ = Real.exp 18 := by rw [← Real.exp_nat_mul]; norm_num
        _ ≤ Real.exp z := Real.exp_le_exp.2 hz
    rw [Real.exp_neg, ← one_div]
    gcongr
  have hpos := Real.exp_pos (-z)
  have hrest : 1 - logistic z = Real.exp (-z) / (1 + Real.exp (-z)) := by
    rw [logistic]
    field_simp
    ring
  have hsmall : 1 - logistic z ≤ 1 / 2 ^ 25 := by
    rw [hrest]
    exact (div_le_self hpos.le (by linarith)).trans hexp
  have hnonneg : 0 ≤ 1 - logistic z := by rw [hrest]; positivity
  have hulps := le_two_ulps (logistic z)
  rw [abs_of_pos (logistic_pos z)] at hulps
  rw [abs_of_nonneg hnonneg]
  norm_num at hsmall hulps ⊢
  linarith

/-- Two units are never less than 2^-148. -/
theorem least_two_ulps (y : ℝ) : (2 : ℝ) ^ (-148 : Int) ≤ 2 * 2 ^ ulpOf y := by
  have hulp : (2 : ℝ) ^ (-149 : Int) ≤ 2 ^ ulpOf y := zpow_le_zpow_right₀ (by norm_num) (by unfold ulpOf; omega)
  calc (2 : ℝ) ^ (-148 : Int) = 2 * 2 ^ (-149 : Int) := by norm_num
    _ ≤ _ := by gcongr

/-- Up to -104 the function is less than 2^-148. -/
theorem logistic_tiny {z : ℝ} (hz : z ≤ -104) : logistic z ≤ 2 ^ (-148 : Int) := by
  have hexp : (2 : ℝ) ^ 148 ≤ Real.exp (-z) := by
    calc (2 : ℝ) ^ 148 ≤ 2.7182818283 ^ 104 := by norm_num
      _ ≤ Real.exp 1 ^ 104 := by gcongr; exact Real.exp_one_gt_d9.le
      _ = Real.exp 104 := by rw [← Real.exp_nat_mul]; norm_num
      _ ≤ Real.exp (-z) := Real.exp_le_exp.2 (by linarith)
  calc logistic z ≤ 1 / 2 ^ 148 := by unfold logistic; gcongr; linarith
    _ = 2 ^ (-148 : Int) := by norm_num

theorem sigmValue_chosen (h : f32 a = .fin n m e) (hm : m ≠ 0) (h1 : n = false → (m : ℝ) * 2 ^ e < 18)
    (h2 : n = true → (m : ℝ) * 2 ^ e < 104) : sigmValue a = chosen 8 a (sigmEncl n m e) 2 (ulpExp (sigmEncl n m e)) false := by
  have hlt : ∀ {k : Nat}, (m : ℝ) * 2 ^ e < k → (Num.fin false m e).lt (.fin false k 0) = true := fun hk => by
    rw [lt_fin_iff, dyadic_false, dyadic_false, zpow_zero, mul_one]
    exact hk
  cases n
  · simp [sigmValue, h, hm, atLeast, hlt (k := 18) (by exact_mod_cast h1 rfl)]
  · simp [sigmValue, h, hm, atLeast, hlt (k := 104) (by exact_mod_cast h2 rfl)]

theorem near_sigmValue (h : f32 a = .fin n m e) (hm : m ≠ 0) :
    Near (sigmValue a) (logistic (dyadic n m e)) false (2 * 2 ^ ulpOf (logistic (dyadic n m e))) := by
  have hnonneg : (0 : ℝ) ≤ m * 2 ^ e := by positivity
  have hatLeast : ∀ {k : Nat}, (k : ℝ) ≤ m * 2 ^ e → (Num.fin false m e).lt (.fin false k 0) = false := fun hk => by
    rw [lt_fin_eq_false, dyadic_false, dyadic_false, zpow_zero, mul_one]
    exact hk
  by_cases hend : (n = false ∧ (18 : ℝ) ≤ m * 2 ^ e) ∨ (n = true ∧ (104 : ℝ) ≤ m * 2 ^ e)
  · rcases hend with ⟨rfl, hlarge⟩ | ⟨rfl, hlarge⟩
    · rw [sigmValue_large h (hatLeast (by exact_mod_cast hlarge))]
      refine ⟨false, 1, 0, rfl, ?_⟩
      have := logistic_large (z := dyadic false m e) (by rw [dyadic_false]; exact hlarge)
      simpa using this
    · rw [sigmValue_small h (hatLeast (by exact_mod_cast hlarge))]
      refine ⟨false, 0, 0, rfl, ?_⟩
      have hpos := logistic_pos (dyadic true m e)
      have := (logistic_tiny (z := dyadic true m e) (by rw [dyadic_true]; linarith)).trans (least_two_ulps (logistic (dyadic true m e)))
      simpa [abs_of_pos hpos] using this
  · have hpos : n = false → (m : ℝ) * 2 ^ e < 18 := fun hn => not_le.1 fun hk => hend (.inl ⟨hn, hk⟩)
    have hneg : n = true → (m : ℝ) * 2 ^ e < 104 := fun hn => not_le.1 fun hk => hend (.inr ⟨hn, hk⟩)
    have hsize : |dyadic n m e| ≤ 104 := by
      rw [abs_dyadic]
      cases n
      · linarith [hpos rfl]
      · exact (hneg rfl).le
    rw [abs_le] at hsize
    rw [sigmValue_chosen h hm hpos hneg]
    refine near_chosen_two (sigmEncl_holds hsize.1 hsize.2) ?_
    rw [abs_of_pos (logistic_pos _)]
    exact (logistic_le_one _).trans (by norm_num)

/-- Below the normal range two units are 2^-148. -/
theorem two_ulps_subnormal {y : ℝ} (h0 : 0 < y) (h1 : y < 2 ^ (-126 : Int)) : 2 * (2 : ℝ) ^ ulpOf y = 2 ^ (-148 : Int) := by
  have hlog := log_lt_of_lt h0 h1
  rw [ulpOf, abs_of_pos h0, max_eq_right (by omega)]
  norm_num

end Sys2Proof.Machine

open Sys2Proof Sys2Proof.Machine

/-- Settles O16, function by function: the exact points, the ends of the range, and elsewhere the enclosure of the exact value, of
which the chosen value lies within the bound. -/
theorem functionBounds : Obligations.FunctionBounds := by
  unfold Obligations.FunctionBounds
  intro a n m e h hm
  refine ⟨?_, near_exp2Value h, ?_, ?_, near_sinValue h, near_cosValue h, near_tanhValue h hm, fun _ => near_sigmValue h hm,
    fun hsub => ?_⟩
  · rintro rfl
    have := near_rsqValue h hm
    rw [← dyadic_false] at this
    exact this
  · rintro rfl
    have := near_log2Value_unit h hm
    rw [← dyadic_false] at this
    exact this
  · rintro rfl
    have := near_log2Value_far h hm
    rw [← dyadic_false] at this
    exact this
  · have := near_sigmValue h hm
    rw [two_ulps_subnormal (logistic_pos (dyadic n m e)) hsub] at this
    exact this

end
